-- ==== Sys2Proof/Word.lean ====
section
/-! DEFINITION. The word types of the block: register fields, and sparse tables keyed by a number. -/
namespace Sys2Proof

/-- A byte, as the DRAM and the packets hold it. -/
abbrev Byte := BitVec 8

/-- A table of numbered things, sorted by number, in which a missing number holds the default value:
so a reset table is the empty list and equal tables are equal lists. -/
abbrev Tab (α : Type) := List (Nat × α)

/-- One field of a register: the management address of the register's first byte (R15 to R17, R574), the place
of its least significant bit counted from that byte's bit 0, its width and its reset value. -/
structure Fld where
  addr : Nat
  lsb : Nat
  width : Nat
  reset : Nat
deriving DecidableEq, Repr

/-- The number a field's value is kept under. No register has 128 bits or more above its first byte. -/
def Fld.key (f : Fld) : Nat := f.lsb + 128 * f.addr

end Sys2Proof
end

