-- ==== Sys2Proof/Syntax.lean ====
section
/-! DEFINITION. The commands of the block. -/
namespace Sys2Proof

/-- What the parameter page of a flash target reports (R330), with the fastest rate it offers in MT/s and its tPROG in µs (R541). -/
structure TargetParams where
  dataBytes : Nat
  spareBytes : Nat
  pages : Nat
  blocks : Nat
  nvddr3 : Bool
  rate : Nat
  tprog : Nat
deriving DecidableEq, Repr, Inhabited

/-- What a die's comparators give while one instance of a quantity is calibrated (R519 to R524): its identifier and instance; of the 16 decisions of
each step of the search, how many keep the bit, bit 7 first; I_ref and I_int in one unit, for quantity 0; of the 16 decisions at each tap of the
fallback, how many ask for a higher tap, tap 0 first, and the tap of the quantity's reset state. -/
structure CalReading where
  id : Nat
  inst : Nat
  votes : List Nat
  iRef : Nat
  iInt : Nat
  taps : List Nat
  tapStart : Nat
deriving DecidableEq, Repr, Inhabited

/-- The commands of the block, one constructor per row of the command table. `d` is a drive port, `u` a unit, `r` a region, `e` a die, `x` an
axis (0 sled, 1 tray), `n` a session or a lane as its docstring says; a host command is named by its session and context. -/
inductive Instr where
  /-- An uncorrectable storage error or watchdog expiry in a unit takes out that beam's channel; the cluster runs on its remaining beams (R20). -/
  | unitFault (u cause : Nat)
  /-- A fault at cluster level isolates that drive from the fabric; the other drives keep running (R20). -/
  | clusterFault (d cause : Nat)
  /-- A region fault takes out six drives, two flash channels and the region's engines; the die safety sequencer parks the six drives (R21). -/
  | regionFault (r cause : Nat)
  /-- A die fault takes out two regions, four host lanes, one DRAM stack and four flash channels; the other die continues (R20). -/
  | dieFault (e : Nat)
  /-- A level's watchdog expires and is handled as a fault at that level; a keeper watchdog expiry is a die fault and leads to a die reset (R27). -/
  | watchdogExpiry (level index : Nat)
  /-- No die-to-die heartbeat arrives for 50 us; the surviving die parks the other die's drives if their head links answer (R24). -/
  | otherDieLost (e answering : Nat)
  /-- The keeper of the lowest-numbered healthy die takes over the package-level functions within 10 ms and raises a package event (R25). -/
  | keeperTakeover
  /-- When a spin-up place frees, the waiting starts of the region are admitted by rotating priority in that cycle (R31). -/
  | spinupAdmit (r : Nat)
  /-- A write of spinup_max takes effect; when it is lowered below spinup_active, running spin-ups continue and no new start is admitted (R32). -/
  | spinupMaxWrite (r v : Nat)
  /-- ADDR_IN held low without a transition for 2 ms after RESET_N is released makes the package the head, which takes address 0 and begins enumeration (R40). -/
  | headStrapDetect
  /-- A valid address token is received; an unaddressed package takes the value plus one, measures its downstream hop and forwards its own token (R43). -/
  | addressToken (w : Nat)
  /-- A re-enumerate token is received; the package clears its latched address and hop delay, forwards the token, and takes a new address (R50). -/
  | reEnumerateToken (w : Nat)
  /-- A delay probe edge arrives on SKY_TICK_IN; the downstream package returns it on the same wire after its fixed 100 ns turnaround (R45). -/
  | delayProbeEcho
  /-- The returned probe edge reaches the upstream package, which computes the hop delay and sends a hop-delay token downstream (R45). -/
  | delayProbeReturn (roundTrip : Nat)
  /-- A hop-delay token is received and its value is stored as the upstream hop delay (R45). -/
  | hopDelayToken (w : Nat)
  /-- Every 100 ms a package with an address re-sends its address token downstream (R47). -/
  | addressHeartbeat
  /-- No valid token arrives for 350 ms; the package sets chain_lost, raises an event and keeps its address and heartbeat (R49). -/
  | chainLost
  /-- An AMU's address mark is decoded and checked against the prediction, confirming, counting a disagreement, or ending SEARCH on a valid successor pair (R63). -/
  | addressMark (d : Nat)
  /-- Forty consecutive invalid marks make the position lost; predictions stop and the band timing loop returns to SEARCH (R63). -/
  | positionLost (d : Nat)
  /-- A transmit superframe starts on all four lanes of a port at one DREFCLK edge, carrying header, write, command and set-point blocks (R90). -/
  | transmitSuperframe (d : Nat)
  /-- A receive superframe of a lane ends; its check and format are verified, and if accepted its samples, wobble and servo blocks are taken (R93). -/
  | receiveSuperframe (d n : Nat) (line : List (Nat × Nat)) (faults : Nat)
  /-- At the release instant the servo engine takes each cluster's subframe and computes focus, tracking, tilt, sled and motor pipelines for the next set-point area (R227). -/
  | subframeRelease (r : Nat)
  /-- Consecutive lost subframes exceed srv_miss_max; lasers and writes are disabled, coast is set and the cluster behaves as faulted (R116). -/
  | servoLoss (d : Nat)
  /-- A second consecutive lost subframe during a burn clears write_en and the run is spoiled (R117). -/
  | subframeLossBurnStop (d : Nat)
  /-- The controller sends a command block to the NH-5, with at most four outstanding per port (R107). -/
  | headCommandSend (d op addr data : Nat)
  /-- A response block arrives and completes its command; a second response to one seq is discarded (R110). -/
  | headResponse (d seq status addr data : Nat)
  /-- No response arrives within 8 superframes, or a busy response arrives; the command is sent again, failing with a link error after 16 sends (R109). -/
  | headCommandRetry (d seq : Nat)
  /-- A write to the port's enable field sends training frames and moves the port to SEEK, or, when cleared, puts all lanes in electrical idle and the port to OFF (R118). -/
  | portEnable (d : Nat) (en : Bool)
  /-- Writing 1 to retrain returns the port to SEEK (R118). -/
  | portRetrain (d : Nat)
  /-- Signal is detected on receive lanes continuously for 1 ms; Clause 72 training starts on each detecting lane (R118). -/
  | portSignalDetect (d lanes : Nat)
  /-- Every detecting lane reports receiver ready and the port moves to LOCK (R118). -/
  | trainReady (d lanes : Nat)
  /-- 500 ms of training elapse; lanes not ready are marked down, or with none ready a training failure is counted and the port returns to SEEK (R118). -/
  | trainTimeout (d : Nat)
  /-- A lane achieves block lock and consecutive sf_num; the port moves to ALIGN and checks lane, beam and round trip (R118). -/
  | blockLock (d : Nat) (found : List (Nat × Nat × Nat × Nat))
  /-- 10 ms elapse in LOCK without block lock; a training failure is counted and the port returns to SEEK (R118). -/
  | lockTimeout (d : Nat)
  /-- The NH-5 identity read completes; a supported identity brings the port UP, an unsupported one clears enable (R118). -/
  | portIdentityCheck (d identity : Nat) (supported : Bool)
  /-- Once per second while the port is UP, each down lane is retrained alone through TRAIN, LOCK and ALIGN (R119). -/
  | laneRetrain (d n : Nat) (ok : Bool) (laneF beamF rt : Nat)
  /-- A retrained lane's servo copies are used after 16 consecutive accepted superframes (R119). -/
  | laneRejoin (d n : Nat)
  /-- A lane is lost on loss of block lock, 8 discards, 8 late copies or a repeated queue fault; its beam becomes missing, sectors in flight end no-sync and any burn is spoiled (R121). -/
  | laneLost (d n condition : Nat)
  /-- Once per superframe the band timing loop averages the wobble phase error and updates rate and phase, judging ACQ success and the servo-track defect flag (R136). -/
  | btlUpdate (d : Nat)
  /-- 2 ms in ACQ without meeting the error condition counts an acquisition failure and reloads rate; the third failure raises an event and returns to OFF (R137). -/
  | btlAcqTimeout (d : Nat)
  /-- 40 AMU pass in SEARCH without a valid successive mark pair; an acquisition failure is counted and the loop returns to ACQ (R138). -/
  | btlSearchTimeout (d : Nat)
  /-- HOLD lasting more than 40,320 channel bits stops a burn at once (R220). -/
  | btlHoldTimeout (d : Nat)
  /-- A unit resamples, levels, defect-checks and equalises one channel bit and the detector emits its LLR (R141). -/
  | channelBitProcess (u : Nat)
  /-- The defect flag has been up for hold_len channel bits; the level loops reacquire from their held values and the expiry is counted (R152). -/
  | holdExpiry (u : Nat)
  /-- At the close of the SYNC-B window the unit decides the sector's framing from oA, oB and oP and places the codeword in a decoder slot (R166). -/
  | syncDecision (u : Nat)
  /-- A free decoder is granted to a unit's oldest first-attempt codeword or retry segment under rotating priority (R179). -/
  | decoderGrant (r : Nat)
  /-- A decode segment ends in convergence, failure or parking; the verdict is formed and the next rung, fallback or verify outcome follows (R180). -/
  | decodeSegmentEnd (r k : Nat)
  /-- A read pass of an extent completes; the pass plan is recomputed for missing beams and added or re-read passes are scheduled (R128). -/
  | readPassEnd (d : Nat)
  /-- A re-read pass finishes its revolution at a band turn and moves to the next band turn or pass, repeating rung-6 visits under R189 (R188). -/
  | rereadVisitEnd (d : Nat)
  /-- The re-read budget window ends; no further visit begins and waiting sectors become lost with budget_stop set (R191). -/
  | retryBudgetExpiry (d : Nat)
  /-- Writing a descriptor's DRAM address to ccom.burn.q enqueues a run descriptor, ignored when 16 are queued (R199). -/
  | burnQueueWrite (d addr : Nat)
  /-- A run heads its queue with the previous run complete; the cluster checks room and begins optimum power calibration on a test block (R313). -/
  | runCalibrationStart (d : Nat)
  /-- The verify channel finishes measuring a test block; the optimum power is interpolated or the calibration repeats, failing after tries blocks (R211). -/
  | opcMeasureComplete (d : Nat)
  /-- At the first passage of the run's first position at or after its launch, the cluster writes the open-run record and begins slot 0 (R313). -/
  | runSlot0Start (d : Nat)
  /-- A slot is committed 4.096 us before its first channel bit is sent, fixing its kind and content and checking its tile (R214); `arrived` further tiles have
  been fetched by then (R201). -/
  | slotCommit (d arrived : Nat)
  /-- A burn interrupted at the next position boundary stops there and its run is left open as spoiled (R220). -/
  | burnStop (d : Nat)
  /-- A spoiled run is closed by the cluster once the stop is complete or the disc is next loaded, beginning the search for its first unrecorded position (R222). -/
  | spoiledRunClose (d : Nat)
  /-- One reading of the binary search for the first unrecorded position completes; when found, the terminator is calibrated and burned (R223). -/
  | closeSearchReading (d : Nat)
  /-- 4,096 periods in SETTLE without settling move focus to LOST (R247). -/
  | focusSettleTimeout (d : Nat)
  /-- |e_f| stays within f_settle for 256 consecutive periods; SUM_ref is set and focus enters LOCK (R247). -/
  | focusSettled (d : Nat)
  /-- SUM below the loss level for loss_n periods or a defect hold of def_max periods loses focus; the engine enters LOST and reacquires or gives up (R244). -/
  | focusLost (d : Nat)
  /-- kick_len periods of a layer-jump kick elapse and the output returns to the saved integrator value in COAST (R247). -/
  | focusKickEnd (d : Nat)
  /-- jump_to periods pass since a layer-jump request in COAST or BRAKE; a layer-jump failure is raised and focus is LOST (R247). -/
  | focusJumpTimeout (d : Nat)
  /-- One second of continuous LOCK or HOLD returns the reacquisition count to 0 (R247). -/
  | focusReacqReset (d : Nat)
  /-- |e_t| exceeds off_trk in four consecutive periods in FOLLOW; the off-track event is raised and tracking returns to CAPTURE (R245). -/
  | offTrack (d : Nat)
  /-- The servo engine asserts write inhibit on excess errors, long defect hold, focus loss or off-track, stopping any burn (R246). -/
  | writeInhibit (d : Nat)
  /-- |e_t| stays within t_settle for 256 periods; tilt and sled are enabled and the band timing loop is ordered to acquire (R249). -/
  | trackSettled (d : Nat)
  /-- 100 ms in CAPTURE without closing raise the capture-failure event and tracking goes to TRK_OFF (R249). -/
  | captureTimeout (d : Nat)
  /-- 20 ms after a fine seek request without closing raise the seek-failure event and tracking returns to CAPTURE (R249). -/
  | fineSeekTimeout (d : Nat)
  /-- A reference ramp completes and |e_t| stays within t_settle for 256 periods, so a pass at the new offset may begin (R233). -/
  | passOffsetSettled (d : Nat)
  /-- An acquire request starts focus sweeping towards the target layer (R247). -/
  | srvAcquire (d layer : Nat)
  /-- A seek request opens tracking for a fine seek or a long sled seek (R249). -/
  | srvSeek (d band : Nat)
  /-- A layer-jump request kicks focus towards the target layer one layer at a time (R248). -/
  | srvLayerJump (d layer : Nat)
  /-- A retract request takes effect at once, ramps focus to 0 and discards any waiting request (R252). -/
  | srvRetract (d : Nat)
  /-- A pass-offset request ramps the tracking reference to k x 0.20 um (R123). -/
  | srvPassOffset (d k : Nat)
  /-- A calibrate-gains request starts the injection measurement of focus and tracking open-loop gain (R256). -/
  | srvCalibrateGains (d : Nat)
  /-- Writing commit copies every shadow parameter bank of the cluster into the active bank for the next computation window (R253). -/
  | srvCommit (d : Nat)
  /-- After 4,096 subframes at port UP, the quadrant and tilt offsets are set from their means (R254). -/
  | offsetCalibrationDone (d : Nat)
  /-- The 20 ms tracking sine ends and pp_amp and pp_off are set, or judged implausible (R255). -/
  | trackSineCalDone (d : Nat)
  /-- A gain measurement over 64 cycles of f_cal completes; the gain is adjusted and the loop repeats or ends (R256). -/
  | gainCalRound (d : Nat)
  /-- Writing freeze stops the cluster's servo trace at that instant (R259). -/
  | traceFreeze (d : Nat)
  /-- Writing rearm releases a frozen servo trace (R259). -/
  | traceRearm (d : Nat)
  /-- pred_run exceeds pred_max; the duty limit applies and its event is raised (R269). -/
  | dutyLimitEnter (d : Nat)
  /-- 16 consecutive usable samples end the duty limit (R269). -/
  | dutyLimitExit (d : Nat)
  /-- A start request asks for a spin-up place and moves the spindle to WAIT (R273). -/
  | spindleStart (d target : Nat)
  /-- A stop request sets the target to 0 and decelerates in STOPPING (R273). -/
  | spindleStop (d : Nat)
  /-- A set-speed request changes the target, clearing lock, without taking a spin-up place in RUN (R271). -/
  | spindleSetSpeed (d target : Nat)
  /-- A park request coasts the motor for 2 ms, discards any pending start and then brakes (R273). -/
  | spindlePark (d : Nat)
  /-- The 2 ms coast of a park ends and the spindle enters BRAKE (R273). -/
  | parkCoastEnd (d : Nat)
  /-- A sense window closes; the sensed speed decides ALIGN, CATCH, RECATCH, BRAKE or STOPPED (R274). -/
  | senseWindowEnd (d : Nat)
  /-- align_ms elapse and the open-loop ramp begins (R275). -/
  | alignEnd (d : Nat)
  /-- ramp_ms pass without handover; a start failure is counted and the spindle retries or gives up (R273). -/
  | rampTimeout (d : Nat)
  /-- catch_ok consecutive plausible samples close the speed loop from CATCH or RECATCH (R273). -/
  | catchSuccess (d : Nat)
  /-- catch_ms elapse in CATCH or RECATCH; the catch fails to BRAKE or LOS_COAST (R273). -/
  | catchTimeout (d : Nat)
  /-- Speed stays within 0.5 % of target for 100 ms; lock is reported and any spin-up place is released (R30). -/
  | spindleLock (d : Nat)
  /-- Speed stays more than 1 % from target for 10 ms and lock clears (R271). -/
  | spindleLockLost (d : Nat)
  /-- los_n implausible samples or over-current in RUN declare loss of synchronism; the motor coasts, the pickup parks and re-catch begins (R279). -/
  | lossOfSync (d : Nat)
  /-- The re-catch window closes; no further sense window opens and the spindle brakes after the last attempt (R279). -/
  | recatchWindowEnd (d : Nat)
  /-- brake_chk ms elapse in BRAKE and the brake coasts for a sense window to test for standstill (R282). -/
  | brakeCheck (d : Nat)
  /-- The axis step timer expires; the step is placed in a set-point area and the profile engine computes the next interval, ending the move at its last step (R286). -/
  | axisStep (d x delayNs : Nat)
  /-- ss_delay ms without a step reduce the axis current to ss_pct of i_run (R289). -/
  | axisStandstill (d x : Nat)
  /-- A move-to-position request starts at once or arms the axis for a shared start or launch (R290). -/
  | axisMoveTo (d x : Nat) (target : Int) (start : Nat)
  /-- A move-by-distance request starts at once or arms the axis (R290). -/
  | axisMoveBy (d x : Nat) (dist : Int) (start : Nat)
  /-- A home request moves the axis by -home_len at the homing current and sets position 0 and homed at the end (R293). -/
  | axisHome (d x start : Nat)
  /-- A sled park request moves the sled to axes.sled.park (R293). -/
  | axisPark (d : Nat)
  /-- An emergency stop replaces the move's profile with the emergency deceleration and discards the target and waiting request (R292). -/
  | axisEmergencyStop (d x : Nat)
  /-- A disarm request ends an axis's wait for a shared start or launch (R290). -/
  | axisDisarm (d x : Nat)
  /-- Writing pkg.axes.go fires every armed axis with shared start in both dies at one instant (R290). -/
  | sharedStart
  /-- Phase current deviates beyond i_err in 64 consecutive periods; stepping stops, homed clears and the axis-fault event is raised (R294). -/
  | axisFault (d x : Nat)
  /-- seal_s pass since an open frond's first grant; granting stops and the frond enters SEALING (R307). -/
  | frondSealTimeout (frond : Nat)
  /-- Every granted block of a sealing frond is STAGED; the manifest is written and the seal journaled (R307). -/
  | frondSealingDone (frond : Nat)
  /-- The frond slices have staged all parity pinnae and the frond enters PLACING (R307). -/
  | frondParityDone (frond : Nat)
  /-- The frond engine chooses balanced eligible drives, sets T0 and enqueues run descriptors with launch times (R309). -/
  | frondPlace (frond : Nat)
  /-- place_wait seconds pass with unbalanced counts; the frond is placed anyway and the unbalanced-placement event is raised (R310). -/
  | placeWaitExpiry (frond : Nat)
  /-- A returned pinna goes to an eligible drive in the region holding fewest pinnae, launched at the next run instant (R311). -/
  | pinnaPlacedAgain (frond pinna : Nat)
  /-- Every run of every pinna is complete; the frond is journaled BURNED and its moss-tier images are released once durable (R307). -/
  | frondBurned (frond : Nat)
  /-- After a warm reset the restarted firmware queues again every incomplete run of each burning pinna with fresh launch times (R598). -/
  | runRequeue (frond pinna : Nat)
  /-- Sky time reaches a launch's firing instant and the action is handed to its engine on each die (R461). -/
  | launchFire (action : Nat)
  /-- A row with at least k converged sectors is rebuilt by its frond slice, solving for erasures (R318). -/
  | rowRebuild (session ctx frond row : Nat)
  /-- After the launched readers finish, a row short of k sectors is repaired from unread parity pinnae, or its blocks are reported lost (R319). -/
  | rowRepair (session ctx frond row : Nat)
  /-- A block is delivered in frond order after its GCM tag is checked; a failing tag makes it an erasure or an authentication failure (R320). -/
  | blockDelivery (session ctx : Nat)
  /-- When the pool next accepts writes, kept catalogue changes are journaled in order and actions waiting on them proceed (R599). -/
  | catalogueFlush
  /-- The identity reading of a clamped disc completes; the drive becomes LOADED with its disc or as foreign (R325). -/
  | discIdentityCheck (d : Nat)
  /-- Each target's parameter page is read in SDR and accepted or not, and channels move to NV-DDR3 (R329). -/
  | flashDiscovery (mods : List (Nat × Nat × Option Bool)) (found : List (Nat × Nat × TargetParams))
  /-- A flash page read completes; it is BCH-decoded, queued for refresh or rebuilt from its row (R333). -/
  | flashPageRead (ch tgt blk pg : Nat) (words : List (Option Nat))
  /-- A page program completes; rows that become safe make their writes and journal records durable, and failures are rewritten under R355 (R344). -/
  | flashProgramDone (set row ch : Nat) (ok : Bool)
  /-- A durable write waits jflush_us for its row; pad rows are programmed until it is safe (R344). -/
  | jflushTimeout (stream : Nat)
  /-- After ckpt_mib of journal or 60 s, dirty map pages, directory and set table are written and a CHECKPOINT record and anchor follow (R349). -/
  | checkpoint
  /-- A granule is copied to the relocation stream, verify-read and committed by a durable RELOC record (R351). -/
  | relocateGranule (space g : Nat) (verifyOk : Bool)
  /-- A set erase completes and is journaled, or a failed erase retires the block and assigns a replacement (R354). -/
  | flashEraseDone (set ch : Nat) (ok : Bool)
  /-- A module stops answering for 1 ms or loses targets; the channel goes down, a CHANNEL record is written and the event raised (R359). -/
  | channelDown (ch cause : Nat)
  /-- Writing 1 to fc[c].cfg.down takes the channel down (R359). -/
  | fcDownWrite (ch : Nat) (value : Bool)
  /-- A module arrives on a down channel; the returning module is admitted and rebuilt, a foreign one waits for FLASH_ADMIT (R362). -/
  | moduleArrival (ch serial : Nat) (anchor : Option Bool) (found : List (Nat × TargetParams))
  /-- Rebuild writes one rebuilt row of a set into the replacement block, journaling progress and ending with the rebuild-complete event (R363). -/
  | rebuildRow
  /-- Anchors are read, the journal replayed, open sets closed, pending sets erased and operations resumed, then mounted is set (R364). -/
  | poolMount (keyMatches : Bool)
  /-- Every set holding the discarded ranges has been relocated and erased, and the secure discard completes (R366). -/
  | secureDiscardDone
  /-- A master reads a DRAM block; a correctable error is corrected and written back, an uncorrectable one returns poison and raises an event (R372). -/
  | dramRead (m a err : Nat)
  /-- The region's leak timer ticks and the bucket level falls by one when above zero (R373). -/
  | bucketLeakTick (r : Nat)
  /-- A master writes DRAM; whole blocks are written directly, narrow writes are merged or refused by the narrow mode (R374). -/
  | dramWrite (m a : Nat) (bs : List Nat)
  /-- A merge buffer entry older than merge_ns is written by read-modify-write (R375). -/
  | mergeEntryAge (e block : Nat)
  /-- A beat is written into a filling tile through the fill path, adding its CRC contribution; a second write to a beat is refused (R377). -/
  | tileBeatWrite (m t off : Nat) (bs : List Nat)
  /-- The owner closes a tile fill; the check is fixed and the tile becomes valid (R377). -/
  | tileClose (t len : Nat)
  /-- A use recomputes a valid tile's check at its check point and acts only on a match (R379). -/
  | tileUseCheck (m t use : Nat)
  /-- The owner frees a tile once its uses are 0; a poisoned tile is zeroed and checked, becoming free or quarantined (R380). -/
  | tileFree (t : Nat) (checkOk : Bool)
  /-- The scrubber reads its next block of the stack, correcting and counting errors (R381). -/
  | scrubBlock (e err : Nat)
  /-- A write to run while en is 0 sets the running CRC and restarts the count; while en is 1 it is ignored (R386). -/
  | snoopRunWrite (e u v : Nat)
  /-- A read of run returns the CRC in final form and latches the byte count into count (R386). -/
  | snoopRunRead (e u : Nat)
  /-- A put or get waiting for a snoop unit is admitted when a unit of its die frees (R387). -/
  | snoopUnitAdmit (e : Nat)
  /-- A host port completes auto-negotiation and training on every lane and reports link up (R389). -/
  | hostLinkUp (p : Nat) (partnerFec : Bool)
  /-- A host port loses a lane and goes down (R389). -/
  | hostLinkDown (p : Nat)
  /-- A received frame is answered in hardware for ARP, neighbour discovery or ICMP echo, passed to QCP or PTP, or discarded (R391). -/
  | hostFrame (p kind : Nat) (data : List Nat)
  /-- A HELLO opens a pending handshake and is answered by a signed HELLO_REPLY, or is refused (R397). -/
  | hello (port peer hostKey nonce cred : Nat)
  /-- A FINISH carrying a valid credential signature establishes the session and is answered by FINISH_REPLY (R396). -/
  | finish (n : Nat) (tagOk sigOk : Bool)
  /-- A pending handshake without a valid FINISH within 1 s is discarded and its session number freed (R397). -/
  | handshakeTimeout (n : Nat)
  /-- A COMMAND packet is matched against its local context and stored as new, answered as a duplicate, or refused busy (R406). -/
  | command (session seq : Nat) (tagOk : Bool) (port peer queue ctx tag : Nat) (payload : List Nat)
  /-- A DATA_OUT packet delivers bytes within granted ranges into tiles, subject to replay, breach and rate-cap checks (R404). -/
  | dataOut (session seq : Nat) (tagOk : Bool) (port peer ctx tag off : Nat) (payload : List Nat)
  /-- A RESEND has the named range re-sent from retained tiles, or a data-released status (R405). -/
  | resend (session seq : Nat) (tagOk : Bool) (port peer ctx tag start stop : Nat)
  /-- A RELEASE frees a context's retained data (R405). -/
  | release (session seq : Nat) (tagOk : Bool) (port peer ctx tag : Nat)
  /-- A CLOSE ends a session as a session reset and frees its number and queues (R398). -/
  | close (session seq : Nat) (tagOk : Bool) (port peer target : Nat)
  /-- An EVENT_ACK advances the session's acknowledged event sequence (R587). -/
  | eventAck (session seq : Nat) (tagOk : Bool) (port peer number : Nat)
  /-- The controller grants a range of a data-out phase by READY when it has room (R404). -/
  | readyGrant (n x start stop : Nat)
  /-- A quota write takes effect; a quota below use sets over and raises the quota-below-use event (R409). -/
  | quotaWrite (n moss ctxMax share cap : Nat)
  /-- No drive is active for haze_s; every drive parks and the package enters HAZE (R411). -/
  | hazeTimeout
  /-- overcast_s pass in HAZE without a waking command; the package checkpoints, sleeps the NH-5s and enters OVERCAST (R411). -/
  | overcastTimeout
  /-- A drive inactive for drive_idle_s stops its spindle and parks, keeping its disc (R412). -/
  | driveIdleTimeout (d : Nat)
  /-- A wake from HAZE or OVERCAST completes and waiting commands proceed in CLEAR (R411). -/
  | powerWakeComplete
  /-- NOP completes with success (R415). -/
  | nop (session ctx : Nat)
  /-- IDENTIFY returns the 4,096-byte identify data (R443). -/
  | identify (session ctx : Nat)
  /-- QUEUE_OPEN opens queue 1 to 15 of the session (R401). -/
  | queueOpen (session ctx : Nat)
  /-- QUEUE_CLOSE closes a queue with no incomplete command (R401). -/
  | queueClose (session ctx : Nat)
  /-- SESSION_RESET aborts every other command of the session with 0x0801, cancels its launches and releases retained data (R421). -/
  | sessionReset (session ctx : Nat)
  /-- ABORT ends one active command with 0x0803 (R439). -/
  | abort (session ctx : Nat)
  /-- PROGRESS returns the state of a running sanitise, format, secure discard or rebuild (R441). -/
  | progress (session ctx : Nat)
  /-- SESSION_LIST returns whole session entries (R596). -/
  | sessionList (session ctx : Nat)
  /-- SESSION_UNFREEZE releases a frozen session, clears its breaches and sends its stored STATUS and READY packets (R502). -/
  | sessionUnfreeze (session ctx : Nat)
  /-- NET_CONFIG stores a port's addresses and VLAN tag, applied at its next link up (R391). -/
  | netConfig (session ctx : Nat)
  /-- OBJ_CREATE records a new open object with its shape, level, polynomial and salt (R295). -/
  | objCreate (session ctx : Nat)
  /-- OBJ_PUT writes an object's data at the next expected offset and, with close, compares the check and commits or voids the object (R422). -/
  | objPut (session ctx : Nat)
  /-- OBJ_GET reads an object from the moss tier or by launched frond reads (R315). -/
  | objGet (session ctx : Nat)
  /-- OBJ_STATUS returns an object's state, level, length and frond counts (R424). -/
  | objStatus (session ctx : Nat)
  /-- OBJ_SEAL seals the open frond of a shape (R307). -/
  | objSeal (session ctx : Nat)
  /-- OBJ_DISCARD marks an object discarded and trims its moss-tier granules (R425). -/
  | objDiscard (session ctx : Nat)
  /-- OBJ_DISCARD with secure runs a secure discard and destroys the object key (R366). -/
  | objDiscardSecure (session ctx : Nat)
  /-- OBJ_LIST returns whole object entries from a first object (R596). -/
  | objList (session ctx : Nat)
  /-- FROND_READ launches a read of frond blocks with row repair (R423). -/
  | frondRead (session ctx : Nat)
  /-- FROND_STATUS returns a frond's state, shape, T0 and pinna records (R424). -/
  | frondStatus (session ctx : Nat)
  /-- OVERBURN queues burns over every slot of a fully discarded frond's pinnae at p_max (R426). -/
  | overburn (session ctx : Nat)
  /-- NS_CREATE creates a bed namespace of a given size within capacity and quota (R338). -/
  | nsCreate (session ctx : Nat)
  /-- NS_DELETE deletes a namespace after every earlier-parsed command of it (R428). -/
  | nsDelete (session ctx : Nat)
  /-- NS_DELETE with secure runs a secure discard over the namespace's space before completing (R366). -/
  | nsDeleteSecure (session ctx : Nat)
  /-- BED_READ captures bed blocks into tiles after earlier overlapping commands and sends them (R429). -/
  | bedRead (session ctx : Nat)
  /-- BED_WRITE installs bed blocks at its effect point and completes at STAGED, or at RECEIVED with early (R427). -/
  | bedWrite (session ctx : Nat)
  /-- BED_TRIM marks the map entries of wholly covered granules as a hint (R427). -/
  | bedTrim (session ctx : Nat)
  /-- A bed command reaches its effect point once every earlier-parsed overlapping command has reached its own or failed (R429). -/
  | bedEffectPoint (session ctx : Nat)
  /-- FLUSH completes when every earlier-acknowledged bed write and put has reached STAGED (R431). -/
  | flush (session ctx : Nat)
  /-- NS_LIST returns whole namespace entries (R596). -/
  | nsList (session ctx : Nat)
  /-- DRIVE_STATUS returns a port's link, spindle, servo and disc status and disc identifier (R416). -/
  | driveStatus (session ctx : Nat)
  /-- DISC_LOAD homes and clamps the tray, spins up, focuses and checks the side and identity of a disc (R324). -/
  | discLoad (session ctx : Nat)
  /-- DISC_UNLOAD stops the spindle, parks the sled, opens the tray and clears the load record (R327). -/
  | discUnload (session ctx : Nat)
  /-- PSA_READ reads consecutive PSAs of one layer-side with verdict words (R432). -/
  | psaRead (session ctx : Nat)
  /-- SPIN with op 1 gives a start to every drive in its mask, at once or at its launch (R433). -/
  | spinUpSchedule (session ctx : Nat)
  /-- SPIN with op 2 gives a stop to every drive in its mask, at once or at its launch (R461). -/
  | spinStopSchedule (session ctx : Nat)
  /-- AXIS_MOVE issues a sled or tray axis request, arming it when launched (R433). -/
  | axisMove (session ctx : Nat)
  /-- DRIVE_RETIRE parks the drive, takes the port to OFF and records it retired (R549). -/
  | driveRetire (session ctx : Nat)
  /-- DRIVE_ADMIT clears the retired bit, enables the port and completes at UP or after 2 s (R550). -/
  | driveAdmit (session ctx : Nat)
  /-- FLASH_ADMIT erases a new module on a down channel and starts its rebuild (R362). -/
  | flashAdmit (session ctx : Nat)
  /-- TIME_GET returns sky time in IEEE 1588 form with fraction and validity (R444). -/
  | timeGet (session ctx : Nat)
  /-- LAUNCH_FREEZE freezes the lichen record and servo traces at its launch (R463). -/
  | launchFreeze (session ctx : Nat)
  /-- LAUNCH_CANCEL cancels an unfired launch, which completes with 0x0803 (R434). -/
  | launchCancel (session ctx : Nat)
  /-- LAUNCH_LIST returns unfired launches in ascending T (R596). -/
  | launchList (session ctx : Nat)
  /-- REG_READ returns register words, clearing RC fields (R435). -/
  | regRead (session ctx : Nat)
  /-- REG_WRITE applies masked register words in one uninterrupted sequence, ignoring RWP fields outside a presence window (R435). -/
  | regWrite (session ctx : Nat)
  /-- EVENT_READ returns configuration and counts of a range of events (R583). -/
  | eventRead (session ctx : Nat)
  /-- EVENT_SUB subscribes or unsubscribes the session to event records (R588). -/
  | eventSub (session ctx : Nat)
  /-- REENUMERATE makes the head package send a re-enumerate token down the chain (R50). -/
  | reenumerate (session ctx : Nat)
  /-- WARM_RESET ends all commands with 0x0802, empties run queues, stops burns at a position boundary and restarts the application firmware (R439). -/
  | warmReset (session ctx : Nat)
  /-- COLD_RESET resets the package after its STATUS, parking drives and ending sessions (R439). -/
  | coldReset (session ctx : Nat)
  /-- FW_STAGE verifies an image and writes it into the non-running slot of its kind (R469). -/
  | fwStage (session ctx : Nat)
  /-- FW_ACTIVATE pauses fetching, saves command state and starts the staged application image on the cores (R437). -/
  | fwActivate (session ctx : Nat)
  /-- The new firmware reports ready; fetching resumes with held commands and FW_ACTIVATE completes with success (R437). -/
  | fwReady
  /-- The new firmware is not ready by 170 ms; the keeper restarts the previous image and FW_ACTIVATE completes with 0x0309 (R438). -/
  | fwActivateTimeout
  /-- SANITISE replaces the moss-tier keys, erases and checks every block, and builds a new pool (R440). -/
  | sanitise (session ctx : Nat) (found : List (Nat × Nat × TargetParams))
  /-- FORMAT erases every block and builds a new pool with an empty catalogue (R440). -/
  | format (session ctx : Nat) (found : List (Nat × Nat × TargetParams))
  /-- The last erase of a sanitise or format completes and the package event is raised (R442). -/
  | sanitiseFormatEnd
  /-- PRESENCE_CLAIM binds an open presence window to the session (R486). -/
  | presenceClaim (session ctx : Nat)
  /-- OWNER_ENROL adds a credential as an owner (R483). -/
  | ownerEnrol (session ctx : Nat)
  /-- CRED_ENROL enrols a non-owner credential with its rights (R480). -/
  | credEnrol (session ctx : Nat)
  /-- CRED_REVOKE removes a credential and ends its sessions (R481). -/
  | credRevoke (session ctx : Nat)
  /-- ATTEST returns a signed attestation report and certificate (R472). -/
  | attest (session ctx : Nat)
  /-- DEBUG_UNLOCK gives the debug port windows until the next cold reset (R503). -/
  | debugUnlock (session ctx : Nat)
  /-- MASTER_UNFREEZE resets the cluster, region, die or debug domain holding frozen masters (R505). -/
  | masterUnfreeze (session ctx : Nat)
  /-- OWNER_TRANSFER removes every credential and enrols the new sole owner (R483). -/
  | ownerTransfer (session ctx : Nat)
  /-- KEYROOT_RESET blows an epoch fuse, unowning the package, and with dispose blows the disposed fuse (R479). -/
  | keyrootReset (session ctx : Nat)
  /-- KCG_FORM forms a key continuity group with its local root as G and returns seat records (R492). -/
  | kcgForm (session ctx : Nat)
  /-- KCG_JOIN kind 1 installs G and the seat's share from a seat record (R494). -/
  | kcgJoinTakeSeat (session ctx : Nat)
  /-- KCG_JOIN kind 2 returns a release record for a verified joiner (R495). -/
  | kcgJoinRelease (session ctx : Nat)
  /-- KCG_JOIN kind 3 reconstructs G from k release records and takes the named seat (R494). -/
  | kcgJoinAdmit (session ctx : Nat)
  /-- LICHEN_READ returns entries of a ring, the merged record or the saved copy (R547). -/
  | lichenRead (session ctx : Nat)
  /-- LICHEN_MARK writes a host mark entry (R533). -/
  | lichenMark (session ctx : Nat)
  /-- LICHEN_REARM releases a frozen record and writes the rearmed entry (R538). -/
  | lichenRearm (session ctx : Nat)
  /-- LICHEN_CLEAR erases both rings, optionally the saved copy, and resumes recording (R548). -/
  | lichenClear (session ctx : Nat)
  /-- TRACE_READ returns a port's servo trace records, oldest first (R547). -/
  | traceRead (session ctx : Nat)
  /-- An Announce message feeds the best master clock algorithm, which selects the PTP port and master (R450). -/
  | ptpAnnounce (port domain clockId dataset : Nat) (syncLog : Int)
  /-- A Sync and Delay_Resp pair completes, giving an offset that steps, validates, slews or invalidates sky time (R454). -/
  | ptpOffset (offset : Int) (estimate : Nat)
  /-- No Sync arrives within four Sync intervals; PTP is lost and sky time enters HOLDOVER or FREE (R456). -/
  | ptpLost
  /-- An edge on SKY_TICK_IN is stamped and used for phase, or discarded (R452). -/
  | skyTickEdge (width frac : Nat)
  /-- 3 ms without a used edge lose SKY_TICK and the source moves to PTP (R456). -/
  | skyTickLost
  /-- At each whole millisecond of valid sky time the package drives a tick pulse on SKY_TICK_OUT (R451). -/
  | skyTickOut
  /-- hold_s elapse in HOLDOVER; valid clears, unfired launches are cancelled and sky time enters FREE (R454). -/
  | holdoverTimeout
  /-- Every 1 us die 1's sky counter is disciplined to die 0's over the die-to-die link (R446). -/
  | skyDieCompare
  /-- PRESENCE_N low for 20 ms is recognised as a press and closes any open window (R484). -/
  | presencePress
  /-- 20 ms of high after a press mark the release and open an unclaimed 120 s window (R485). -/
  | presenceRelease
  /-- The presence window reaches release + 120 s and closes (R485). -/
  | presenceWindowExpiry
  /-- Every 1 ms the keeper changes SEAL_A and samples SEAL_B, opening or closing the seal loop and granting seal presence after blowing a fuse (R488). -/
  | sealSample (matched fuseOk : Bool)
  /-- 120 s after the seal loop closes, seal presence ends (R488). -/
  | sealPresenceExpiry
  /-- A master issues a fabric transaction, judged against its windows (R499). -/
  | fabricTransaction (m space kind a len : Nat) (data : List Nat)
  /-- The keeper sets or refuses a window table entry requested by application firmware (R498). -/
  | windowRequest (m idx : Nat) (en rd wr space : Bool) (base stop : Nat)
  /-- RESET_N rises; straps are latched and the power-up sequence begins with keeper boot (R509). -/
  | resetRelease (hmode calMode testN : Nat) (powerUp held0 held1 : Bool)
  /-- Step 4 calibrates each die's quantities by successive approximation, with plausibility checks and fallbacks (R520). -/
  | calibrationRun (e : Nat) (tCal : Int) (readings : List CalReading)
  /-- LPDDR5 training ends on a die; after three failures the die is out (R513). -/
  | dramTrainingDone (e : Nat) (ok : Bool)
  /-- The application images are verified and the application cores start; host ports, flash discovery and drive bring-up begin (R512). -/
  | appStart
  /-- Power-up steps are complete and the package enters HAZE, writing its trim record (R511). -/
  | hazeEntry
  /-- 10 s after RESET_N rises the package enters HAZE and raises the power-up-late event (R511). -/
  | powerUpTimeout
  /-- Every upd_ms each die reads its temperature and moves each applied trim code by at most 1 LSB (R528). -/
  | trimTempUpdate (e : Nat) (temp : Int)
  /-- The NH-5 trims at port UP finish, followed by offset calibration and the write-strategy writes (R530). -/
  | headTrimDone (d : Nat) (decisions : List (List Bool)) (residuals : List Int)
  /-- A die reset reruns calibration, DRAM, image load and port bring-up for that die (R514). -/
  | dieReset (e : Nat)
  /-- RESET_N falls and the package performs a cold reset, parking drives (R509). -/
  | resetNFall
  /-- PFAIL_N asserts; the power-failure entry is written, burns stop and the lichen record is copied to flash (R541). -/
  | powerFail
  /-- The lichen copy ends at PFAIL_N + 3.0 ms and the package waits for a cold reset (R543). -/
  | lichenCopyEnd (pages0 pages1 : List Nat)
  /-- A monitored rail stays 5 % below tolerance for 1 us and the die acts as on a fall of RESET_N (R559). -/
  | brownOut (pages0 pages1 : List Nat)
  /-- A reference clock stops or leaves 500 ppm, taking its die's ports out of UP or down, or faulting both dies for XTAL (R569). -/
  | refclkLost (which : Nat)
  /-- A junction reaches 115 C; the package copies its record and holds both dies in reset (R573). -/
  | thermalTrip (e : Nat) (temp : Int)
  /-- Every hour the equivalent-temperature life figure is stored in SPI NOR (R572). -/
  | lifeStore
  /-- Writing 1 to pkg.lichen.ctrl.freeze freezes the lichen record at that instant (R536). -/
  | lichenFreezeWrite
  /-- Writing 1 to rearm releases a frozen lichen record (R538). -/
  | lichenRearmWrite
  /-- A gap_us interval ends with folded raises and a host record carrying them is sent (R585). -/
  | eventGapExpiry (event : Nat)
  /-- resend_ms pass without an advancing EVENT_ACK and unacknowledged records are sent again (R587). -/
  | eventResend (session : Nat)
  /-- An I2C write transaction writes W1C fields, debug or recovery words, otherwise counting refused words (R581). -/
  | i2cWrite (addr : Nat) (bytes : List Nat)
  /-- An I2C read transaction of `n` bytes returns register words, latching high words without clearing RC fields (R579). -/
  | i2cRead (addr n : Nat)
  /-- Writing erase in recovery erases the named keeper slot and sets addr to 0 (R582). -/
  | rcvErase (slot : Nat)
  /-- A write to pkg.rcv.data in recovery programs four image bytes and advances addr (R582). -/
  | rcvDataWrite (data : Nat)
  /-- A write to a register without behaviour of its own stores its writable fields and clears written W1C bits (R595). -/
  | registerWrite (addr : Nat) (words : List Nat)
  /-- When the port is not UP 2 s after DRIVE_ADMIT, the command completes with 0x0605 (R550). -/
  | driveAdmitTimeout (d : Nat)
  /-- An erase or program of a keeper slot through the recovery block ends, busy clears and a write held by SCL stretching proceeds (R582). -/
  | rcvBusyClear
  /-- A trim record write deferred by the once-per-minute limit after a change of head-bridge trims is made when the minute has passed (R531). -/
  | trimRecordWrite (e : Nat)
deriving DecidableEq, Repr

end Sys2Proof
end

