-- ==== Sys2Proof/Decode.lean ====
section
/-! DEFINITION. Reading commands from words. The command table gives no row any bits, so no word spells a command. -/
namespace Sys2Proof

/-- The command a word of the table's bits spells: none, since the table gives no bits. -/
def decodeTableWord (_nbits _w : Nat) : Option Instr := none

end Sys2Proof
end

