-- ==== Sys2Proof/Config.lean ====
section
/-! DEFINITION. What the spec leaves open: values that have no body here, so that no proof can see them. -/
namespace Sys2Proof.Config

/-- A value nothing constrains: the model applies it to a counter that each draw advances (notes/assumptions/1.md). -/
opaque freeValue : Nat → Nat

/-- SHA-384 of a byte string, as one number (R78, R394, R466, R471 name the standard only). -/
opaque sha384 : List Nat → Nat

/-- HMAC and HKDF derivations of the key hierarchy: a label and its inputs (R396, R474, R476 to R478). -/
opaque derive : Nat → List Nat → Nat

/-- The public key of a private key, as the number its 97 bytes spell (R471, R480). -/
opaque publicKey : Nat → Nat

/-- An ECDSA P-384 signature: private key and digest; and whether a signature verifies: public key, digest, signature (R467, R472, R493). -/
opaque ecdsaSign : Nat → Nat → Nat
opaque ecdsaVerify : Nat → Nat → Nat → Bool

/-- The ECDH secret of a private and a public key (R493). -/
opaque ecdh : Nat → Nat → Nat

/-- AES-256-GCM, a standard the spec names only (R297, R474, R493): byte i of the key stream of a key and a nonce, and the 16-byte tag of a
key, a nonce, additional data and a ciphertext. -/
opaque aesStream : Nat → Nat → Nat → Nat
opaque aesTag : Nat → Nat → List Nat → List Nat → Nat

/-- The nonce a group record's payload is encrypted with: R493 names none. -/
opaque recordNonce : Nat

/-- A granule under AES-256-XTS: key, tweak, bytes (R334). -/
opaque xtsSeal : Nat → Nat → List Nat → List Nat

/-- The eight coefficients of the interpolator, by phase 0 to 63 and tap, signed in 2^-16 (R142 gives none). -/
opaque interpTap : Nat → Nat → Int

/-- The tentative decision of a channel bit from the equaliser outputs around it, newest first (R159 gives no rule). -/
opaque tentative : List Int → Bool

/-- The magnitude of an LLR from that of a metric difference; R159 gives no scale. -/
opaque llrMag : Nat → Nat

/-- A quotient whose divisor a register or a measurement made zero: the spec states none. -/
opaque quotByZero : Int → Int

/-- The running mean of |I| in the band timing loop, from its last value and a new |I| (R135 gives no length). -/
opaque wobbleMean : Int → Int → Int

/-- Bytes of one entry of SESSION_LIST, OBJ_LIST and NS_LIST by opcode: no rule lays these entries out (R596). -/
opaque entrySize : Nat → Nat

/-- The package's serial number and base MAC address, and a die's revision (R391, R443, R472). -/
opaque serial : Nat
opaque macBase : Nat
opaque dieRev : Nat → Nat

/-- The vendor's certificate over the identity public key, at most 2,048 bytes (R471, R472); whether a certificate chains to a vendor key by
its digest (R495). -/
opaque certificate : List Nat
opaque certVerify : Nat → List Nat → Bool

/-- The public key a certificate names (R472, R495); the identity key of a group's seat, which R493's records are signed with but do not carry. -/
opaque certKey : List Nat → Nat
opaque seatKey : Nat → Nat → Nat

/-- First byte and end of the keeper's area within the general area of a stack: R498 gives no addresses. -/
opaque keeperArea : Nat → Nat × Nat

end Sys2Proof.Config
end

