-- ==== Sys2Proof/Machine/Bits.lean ====
section
/-! DEFINITION. Bytes, checks and rounding shared by every family. -/
namespace Sys2Proof.Machine

/-- A number as bytes, most significant first (R12 for QCP, R78, R532). -/
def beBytes : Nat → Nat → List Nat
  | 0, _ => []
  | n + 1, v => (v / 256 ^ n % 256) :: beBytes n v

/-- Bytes, most significant first, as a number. -/
def beNat (bs : List Nat) : Nat := bs.foldl (fun a b => a * 256 + b % 256) 0

/-- A number as bytes, least significant first (R12 for I2C, R91). -/
def leBytes : Nat → Nat → List Nat
  | 0, _ => []
  | n + 1, v => v % 256 :: leBytes n (v / 256)

/-- Bytes, least significant first, as a number. -/
def leNat : List Nat → Nat
  | [] => 0
  | b :: bs => b % 256 + 256 * leNat bs

/-- Bits of a number, most significant first. -/
def beBits : Nat → Nat → List Bool
  | 0, _ => []
  | n + 1, v => v.testBit n :: beBits n v

/-- Bits, most significant first, as a number. -/
def bitsNat (bs : List Bool) : Nat := bs.foldl (fun a b => a * 2 + b.toNat) 0

/-- A byte list cut or filled with zeros to a length. -/
def padTo (n : Nat) (bs : List Nat) : List Nat := (bs ++ List.replicate n 0).take n

/-- One step of a CRC that takes the most significant bit first: `w` bits, polynomial `poly` without its top term. -/
def crcStep (w poly : Nat) (r : Nat) (b : Bool) : Nat :=
  let top := r.testBit (w - 1)
  let r' := r * 2 % 2 ^ w
  if top != b then r' ^^^ poly else r'

/-- A CRC over bits, most significant first, no reflection and no final inversion. -/
def crcBits (w poly init : Nat) (bs : List Bool) : Nat := bs.foldl (crcStep w poly) init

/-- The bits of a byte string, each byte most significant bit first. -/
def bytesBits (bs : List Nat) : List Bool := bs.flatMap (beBits 8)

/-- CRC-8 of tokens and address marks: x^8 + x^2 + x + 1, initial value 0 (R41, R61). -/
def crc8 (bs : List Bool) : Nat := crcBits 8 0x07 0 bs

/-- CRC-16 of the sector header: 0x1021, initial value 0xFFFF (R70). -/
def crc16 (bs : List Bool) : Nat := crcBits 16 0x1021 0xFFFF bs

/-- CRC-64: 0x42F0_E1EB_A9EA_3693, initial value 0 (R78, R376, R532). -/
def crc64 (bs : List Nat) : Nat := crcBits 64 0x42F0E1EBA9EA3693 0 (bytesBits bs)

/-- One bit of a reflected CRC. -/
def crcRefStep (poly : Nat) (r : Nat) (b : Bool) : Nat :=
  if r.testBit 0 != b then (r / 2) ^^^ poly else r / 2

/-- A reflected CRC over bytes, least significant bit first. -/
def crcRef (poly init : Nat) (bs : List Nat) : Nat :=
  (bs.flatMap fun b => (beBits 8 b).reverse).foldl (crcRefStep poly) init

/-- CRC-32C: Castagnoli, initial value and final XOR all ones, reflected (R93). -/
def crc32c (bs : List Nat) : Nat := crcRef 0x82F63B78 0xFFFFFFFF bs ^^^ 0xFFFFFFFF

/-- Adds to a counter of `w` bits that saturates. -/
def satAdd (w v n : Nat) : Nat := min (v + n) (2 ^ w - 1)

/-- A number of `w` bits read as signed. -/
def signed (w v : Nat) : Int := if v % 2 ^ w < 2 ^ (w - 1) then ((v % 2 ^ w : Nat) : Int) else ((v % 2 ^ w : Nat) : Int) - 2 ^ w

/-- A signed number as a field of `w` bits. -/
def unsigned (w : Nat) (x : Int) : Nat := (x % (2 ^ w : Int)).toNat

/-- Limits a number to a symmetric range. -/
def clampInt (lim x : Int) : Int := max (-lim) (min lim x)

/-- Rounds to the nearest whole number, an exact half towards +∞ (R594). -/
def roundHalfUp (x : Rat) : Int := (x + 1 / 2).floor

/-- Integer division rounded to the nearest whole number, an exact half towards +∞ (R594). -/
def roundDiv (x : Int) (d : Nat) : Int := (2 * x + (d : Int)) / (2 * (d : Int))

/-- The set bits of a mask below `n`, lowest first. -/
def maskList (n m : Nat) : List Nat := (List.range n).filter fun i => m.testBit i

/-- A mask with one bit set or cleared. -/
def maskSet (m i : Nat) (b : Bool) : Nat :=
  if b then m ||| 2 ^ i else if m.testBit i then m - 2 ^ i else m

/-- The number of set bits of a mask below `n`. -/
def popCount (n m : Nat) : Nat := (maskList n m).length

/-- Rotating-priority arbitration of R34: the first requester counting upward from the pointer, wrapping at `n`. -/
def arbitrate (n ptr : Nat) (req : Nat → Bool) : Option Nat :=
  ((List.range n).map fun i => (ptr + i) % n).find? req

/-- The pointer after a grant (R34). -/
def arbNext (n winner : Nat) : Nat := (winner + 1) % n

/-- A rounded quotient; a zero divisor gives the unconstrained value of `Config.quotByZero`. -/
def divFree (x d : Int) : Int :=
  if d = 0 then Config.quotByZero x else if 0 < d then roundDiv x d.toNat else roundDiv (-x) (-d).toNat

/-- Taylor sum of sine, angle in 2^-30 rad, value in 2^-30: `t` is the current term, `k` its order. -/
def sinTerms (x2 : Int) : Nat → Nat → Int → Int
  | 0, _, _ => 0
  | n + 1, k, t => t + sinTerms x2 n (k + 2) (-(t * x2 / 2 ^ 30) / ((k + 1) * (k + 2) : Nat))

/-- Sine of an angle in 2^-32 turn, in 2^-30. -/
def sinTurn (a : Int) : Int :=
  let a := a % 2 ^ 32
  let h := a % 2 ^ 31
  let q := if h ≤ 2 ^ 30 then h else 2 ^ 31 - h
  let x := q * 6746518852 / 2 ^ 32
  let s := sinTerms (x * x / 2 ^ 30) 12 1 x
  if a < 2 ^ 31 then s else -s

/-- Cosine of an angle in 2^-32 turn, in 2^-30. -/
def cosTurn (a : Int) : Int := sinTurn (a + 2 ^ 30)

end Sys2Proof.Machine
end

