-- ==== Sys2Proof/Machine/Sparse.lean ====
section
/-! DEFINITION. Reading and writing sparse tables and register fields. -/
namespace Sys2Proof.Machine

/-- The value under a number, if one is listed. -/
def tabFind {α : Type} : Tab α → Nat → Option α
  | [], _ => none
  | (k', v) :: t, k => if k = k' then some v else tabFind t k

/-- Lists a value under a number, keeping the numbers rising. -/
def tabInsert {α : Type} : Tab α → Nat → α → Tab α
  | [], k, v => [(k, v)]
  | (k', v') :: t, k, v =>
    if k < k' then (k, v) :: (k', v') :: t
    else if k = k' then (k, v) :: t
    else (k', v') :: tabInsert t k v

/-- Unlists a number. -/
def tabErase {α : Type} (t : Tab α) (k : Nat) : Tab α := t.filter fun e => e.1 != k

/-- The value under a number; the default where none is listed. -/
def tabGet {α : Type} [Inhabited α] (t : Tab α) (k : Nat) : α := (tabFind t k).getD default

/-- Puts a value under a number; one value is not listed. Written by recursion on the table, so that an unknown table stops its evaluation. -/
def tabPut {α : Type} [DecidableEq α] (blank : α) : Tab α → Nat → α → Tab α
  | [], k, v => if v = blank then [] else [(k, v)]
  | (k', v') :: t, k, v =>
    if k < k' then (if v = blank then tabErase ((k', v') :: t) k else (k, v) :: (k', v') :: t)
    else if k = k' then (if v = blank then tabErase t k else (k, v) :: t)
    else (k', v') :: tabPut blank t k v

/-- Puts a value under a number; the default value is not listed. -/
def tabSet {α : Type} [Inhabited α] [DecidableEq α] (t : Tab α) (k : Nat) (v : α) : Tab α := tabPut default t k v

/-- Changes the value under a number. -/
def tabMod {α : Type} [Inhabited α] [DecidableEq α] (t : Tab α) (k : Nat) (f : α → α) : Tab α :=
  tabSet t k (f (tabGet t k))

/-- The numbers of a table are strictly rising. -/
def tabSorted {α : Type} (t : Tab α) : Bool := decide (t.map (·.1)).Nodup && decide ((t.map (·.1)).Pairwise (· < ·))

/-- Reads a field of the register file: its reset value where none is listed. -/
def fldGet (m : Tab Nat) (f : Fld) : Nat := (tabFind m f.key).getD f.reset

/-- Writes a field of the register file: the value is cut to the field's width, and a reset value is not listed. -/
def fldSet (m : Tab Nat) (f : Fld) (v : Nat) : Tab Nat :=
  tabPut f.reset m f.key (v % 2 ^ f.width)

end Sys2Proof.Machine
end

