-- ==== Sys2Proof/Machine/RegMap.lean ====
section
/-! DEFINITION. The register map: every register field of the spec's tables with its management address, place, width
and reset value (R15 to R17, R574, R595 and the register tables of each chapter), and for each block the list of its
registers with access codes. Generated from the spec's own register tables. -/
namespace Sys2Proof.Machine

/-- Base of a cluster in the die-resident space (R15): die, region-in-die and cluster slot. -/
def clusterBase (d : Nat) : Nat := 0x40000000 + (0x8000000 * (d / 12) + (0x4000000 * (d / 6 % 2) + 0x800000 * (d % 6)))

/-- Base of a unit slot of a cluster (R15): 4 srv, 5 spin, 6 axes, 7 ccom. -/
def clusterSlot (d n : Nat) : Nat := 0x100000 * n + clusterBase d

/-- Base of unit `u`, numbered 4 × D + beam (R5, R15). -/
def unitBase (u : Nat) : Nat := 0x100000 * (u % 4) + clusterBase (u / 4)

/-- Base of a region-common block (R15, R16). -/
def regionBase (r : Nat) : Nat := 0x43700000 + (0x8000000 * (r / 2) + 0x4000000 * (r % 2))

/-- Base of a die-common block (R15, R16). -/
def dieBase (e : Nat) : Nat := 0x43F00000 + 0x8000000 * e

/-- The three routes of an event (R583). -/
inductive Route where
  | host | alert | lichen
deriving DecidableEq, Repr

/-- Identifiers that the source tables define; the others are reserved (R589 to R593). -/
def eventDefined (i : Nat) : Bool :=
  decide (i < 384) || (decide (i < 448) && decide (i % 16 < 8)) || (decide (448 ≤ i) && decide (i < 512) && decide (i % 32 < 10))
    || (decide (512 ≤ i) && decide (i < 556))

/-- Routes at reset, from the source tables (R590 to R593). -/
def eventRoute (i : Nat) (r : Route) : Bool :=
  if !eventDefined i then false
  else
    let cluster : List (List Route) := [[.host, .lichen], [.host, .alert, .lichen], [.host], [.host, .alert, .lichen],
      [.host, .lichen], [.host], [.host], [.host, .lichen], [.host, .lichen], [.host, .lichen], [.host, .lichen],
      [.host, .lichen], [.host, .lichen], [.host, .alert, .lichen], [.host, .lichen], [.host, .alert, .lichen]]
    let region : List (List Route) := [[.host, .alert, .lichen], [.host, .lichen], [.host, .alert, .lichen], [.host, .lichen],
      [.host, .lichen], [.lichen], [.host, .lichen], [.host, .lichen]]
    let die : List (List Route) := [[.host, .alert, .lichen], [.host, .alert, .lichen], [.host, .lichen], [.host, .lichen],
      [.lichen], [.host, .alert, .lichen], [.host, .lichen], [.host, .lichen], [.host, .lichen], [.host, .alert, .lichen]]
    let onlyLichen : List Nat := [9]
    let onlyHost : List Nat := [18]
    let withAlert : List Nat := [0, 1, 4, 5, 22, 23, 24, 31, 32, 36, 42, 43]
    if i < 384 then (cluster.getD (i % 16) []).contains r
    else if i < 448 then (region.getD (i % 16) []).contains r
    else if i < 512 then (die.getD (i % 32) []).contains r
    else
      match r with
      | .host => !onlyLichen.contains (i - 512)
      | .alert => withAlert.contains (i - 512)
      | .lichen => !onlyHost.contains (i - 512)

def F.rsRatio_r_hat (u : Nat) : Fld := ⟨0x0 + unitBase u, 0, 32, 0⟩
def F.rsGaps_gaps (u : Nat) : Fld := ⟨0x4 + unitBase u, 0, 16, 0⟩
def F.rsGaps_lost (u : Nat) : Fld := ⟨0x4 + unitBase u, 16, 16, 0⟩
def F.tim_offset (u : Nat) : Fld := ⟨0x100 + unitBase u, 0, 19, 0⟩
def F.tim_valid (u : Nat) : Fld := ⟨0x100 + unitBase u, 19, 1, 0⟩
def F.tim_k_off (u : Nat) : Fld := ⟨0x100 + unitBase u, 20, 4, 3⟩
def F.tim_coarse_n (u : Nat) : Fld := ⟨0x100 + unitBase u, 24, 3, 3⟩
def F.vtim_offset (u : Nat) : Fld := ⟨0x104 + unitBase u, 0, 19, 9280⟩
def F.vtim_valid (u : Nat) : Fld := ⟨0x104 + unitBase u, 19, 1, 0⟩
def F.vtim_k_off (u : Nat) : Fld := ⟨0x104 + unitBase u, 20, 4, 3⟩
def F.vtim_coarse_n (u : Nat) : Fld := ⟨0x104 + unitBase u, 24, 3, 3⟩
def F.agc_ko (u : Nat) : Fld := ⟨0x200 + unitBase u, 0, 4, 6⟩
def F.agc_kg (u : Nat) : Fld := ⟨0x200 + unitBase u, 4, 4, 7⟩
def F.agc_ka (u : Nat) : Fld := ⟨0x200 + unitBase u, 8, 4, 9⟩
def F.agc_trk_add (u : Nat) : Fld := ⟨0x200 + unitBase u, 12, 3, 4⟩
def F.agc_hold_len (u : Nat) : Fld := ⟨0x200 + unitBase u, 16, 16, 8192⟩
def F.agcx_target (u : Nat) : Fld := ⟨0x204 + unitBase u, 0, 9, 160⟩
def F.agcx_acq_len (u : Nat) : Fld := ⟨0x204 + unitBase u, 9, 10, 512⟩
def F.agcx_reacq_len (u : Nat) : Fld := ⟨0x204 + unitBase u, 19, 10, 256⟩
def F.lvl_o (u : Nat) : Fld := ⟨0x208 + unitBase u, 0, 16, 0⟩
def F.lvl_g (u : Nat) : Fld := ⟨0x208 + unitBase u, 16, 16, 8192⟩
def F.lvl_a (u : Nat) : Fld := ⟨0x208 + unitBase u, 32, 12, 0⟩
def F.lvl_held (u : Nat) : Fld := ⟨0x208 + unitBase u, 44, 1, 0⟩
def F.lvl_acquiring (u : Nat) : Fld := ⟨0x208 + unitBase u, 45, 1, 0⟩
def F.dfd_thr_drop (u : Nat) : Fld := ⟨0x300 + unitBase u, 0, 6, 12⟩
def F.dfd_thr_rise (u : Nat) : Fld := ⟨0x300 + unitBase u, 6, 6, 12⟩
def F.dfd_env_len (u : Nat) : Fld := ⟨0x300 + unitBase u, 12, 6, 32⟩
def F.dfd_pad (u : Nat) : Fld := ⟨0x300 + unitBase u, 18, 6, 32⟩
def F.dfd_srv_en (u : Nat) : Fld := ⟨0x300 + unitBase u, 24, 1, 1⟩
def F.dfdcnt_spans (u : Nat) : Fld := ⟨0x304 + unitBase u, 0, 16, 0⟩
def F.dfdcnt_expiries (u : Nat) : Fld := ⟨0x304 + unitBase u, 16, 16, 0⟩
def F.eqc_set (u : Nat) : Fld := ⟨0x400 + unitBase u, 0, 1, 0⟩
def F.eqc_adapt (u : Nat) : Fld := ⟨0x400 + unitBase u, 1, 1, 1⟩
def F.eqc_fix_centre (u : Nat) : Fld := ⟨0x400 + unitBase u, 2, 1, 1⟩
def F.eqc_ke (u : Nat) : Fld := ⟨0x400 + unitBase u, 3, 4, 10⟩
def F.eqc_kx (u : Nat) : Fld := ⟨0x400 + unitBase u, 7, 4, 12⟩
def F.eqa_coef (u i : Nat) : Fld := ⟨(0x404 + 0x4 * i) + unitBase u, 0, 12, (if i = 7 then 0x400 else 0)⟩
def F.eqb_coef (u i : Nat) : Fld := ⟨(0x440 + 0x4 * i) + unitBase u, 0, 12, (if i = 7 then 0x400 else 0)⟩
def F.xla_coef (u i : Nat) : Fld := ⟨(0x47C + 0x4 * i) + unitBase u, 0, 12, 0⟩
def F.xha_coef (u i : Nat) : Fld := ⟨(0x490 + 0x4 * i) + unitBase u, 0, 12, 0⟩
def F.xlb_coef (u i : Nat) : Fld := ⟨(0x4A4 + 0x4 * i) + unitBase u, 0, 12, 0⟩
def F.xhb_coef (u i : Nat) : Fld := ⟨(0x4B8 + 0x4 * i) + unitBase u, 0, 12, 0⟩
def F.sync_report (u : Nat) : Fld := ⟨0x600 + unitBase u, 0, 8, 0⟩
def F.sync_score_a (u : Nat) : Fld := ⟨0x600 + unitBase u, 8, 6, 0⟩
def F.sync_score_b (u : Nat) : Fld := ⟨0x600 + unitBase u, 14, 6, 0⟩
def F.sync_disp (u : Nat) : Fld := ⟨0x600 + unitBase u, 20, 6, 0⟩
def F.syncstat_fallbacks (u : Nat) : Fld := ⟨0x604 + unitBase u, 0, 16, 0⟩
def F.syncstat_pairs (u : Nat) : Fld := ⟨0x604 + unitBase u, 16, 16, 0⟩
def F.decCnt_first_ok (u : Nat) : Fld := ⟨0x700 + unitBase u, 0, 16, 0⟩
def F.decCnt_retried (u : Nat) : Fld := ⟨0x700 + unitBase u, 16, 16, 0⟩
def F.decCnt_lost (u : Nat) : Fld := ⟨0x700 + unitBase u, 32, 16, 0⟩
def F.decCnt_overruns (u : Nat) : Fld := ⟨0x700 + unitBase u, 48, 8, 0⟩
def F.decCnt_conflicts (u : Nat) : Fld := ⟨0x700 + unitBase u, 56, 8, 0⟩
def F.decLast_verdict (u : Nat) : Fld := ⟨0x708 + unitBase u, 0, 64, 0⟩
def F.srvReq_op (d : Nat) : Fld := ⟨0x0 + clusterSlot d 4, 0, 4, 0⟩
def F.srvReq_layer (d : Nat) : Fld := ⟨0x0 + clusterSlot d 4, 4, 3, 0⟩
def F.srvReq_band (d : Nat) : Fld := ⟨0x0 + clusterSlot d 4, 8, 17, 0⟩
def F.srvReq_k (d : Nat) : Fld := ⟨0x0 + clusterSlot d 4, 25, 2, 0⟩
def F.srvCtrl_tilt_en (d : Nat) : Fld := ⟨0x4 + clusterSlot d 4, 0, 1, 1⟩
def F.srvCtrl_sled_en (d : Nat) : Fld := ⟨0x4 + clusterSlot d 4, 1, 1, 1⟩
def F.srvCtrl_fe_pol (d : Nat) : Fld := ⟨0x4 + clusterSlot d 4, 2, 1, 0⟩
def F.srvCtrl_pp_pol (d : Nat) : Fld := ⟨0x4 + clusterSlot d 4, 3, 1, 0⟩
def F.srvCtrl_commit (d : Nat) : Fld := ⟨0x4 + clusterSlot d 4, 4, 1, 0⟩
def F.srvCtrl_pred_k (d : Nat) : Fld := ⟨0x4 + clusterSlot d 4, 5, 2, 2⟩
def F.srvCtrl_reacq_max (d : Nat) : Fld := ⟨0x4 + clusterSlot d 4, 7, 3, 3⟩
def F.srvCtrl_ramp (d : Nat) : Fld := ⟨0x4 + clusterSlot d 4, 16, 8, 64⟩
def F.srvStatus_fstate (d : Nat) : Fld := ⟨0x8 + clusterSlot d 4, 0, 4, 0⟩
def F.srvStatus_tstate (d : Nat) : Fld := ⟨0x8 + clusterSlot d 4, 4, 3, 0⟩
def F.srvStatus_layer (d : Nat) : Fld := ⟨0x8 + clusterSlot d 4, 7, 3, 0⟩
def F.srvStatus_layer_ok (d : Nat) : Fld := ⟨0x8 + clusterSlot d 4, 10, 1, 0⟩
def F.srvStatus_wi (d : Nat) : Fld := ⟨0x8 + clusterSlot d 4, 11, 1, 0⟩
def F.srvStatus_req_busy (d : Nat) : Fld := ⟨0x8 + clusterSlot d 4, 12, 1, 0⟩
def F.srvStatus_req_queued (d : Nat) : Fld := ⟨0x8 + clusterSlot d 4, 13, 1, 0⟩
def F.srvStatus_req_refused (d : Nat) : Fld := ⟨0x8 + clusterSlot d 4, 14, 1, 0⟩
def F.srvStatus_pass (d : Nat) : Fld := ⟨0x8 + clusterSlot d 4, 15, 2, 0⟩
def F.srvStatus_cal_ok (d : Nat) : Fld := ⟨0x8 + clusterSlot d 4, 17, 1, 0⟩
def F.srvSense_fe_gain (d : Nat) : Fld := ⟨0x10 + clusterSlot d 4, 0, 16, 0⟩
def F.srvSense_fe_off (d : Nat) : Fld := ⟨0x10 + clusterSlot d 4, 16, 16, 0⟩
def F.srvSense_pp_amp (d : Nat) : Fld := ⟨0x10 + clusterSlot d 4, 32, 16, 0⟩
def F.srvSense_pp_off (d : Nat) : Fld := ⟨0x10 + clusterSlot d 4, 48, 16, 0⟩
def F.srvQoff_q_off (d : Nat) : Fld := ⟨0x18 + clusterSlot d 4, 0, 48, 0⟩
def F.srvQoff_tilt_off (d : Nat) : Fld := ⟨0x18 + clusterSlot d 4, 48, 16, 0⟩
def F.srvMech_pp_nm (d : Nat) : Fld := ⟨0x20 + clusterSlot d 4, 0, 16, 900⟩
def F.srvMech_tilt_gain (d : Nat) : Fld := ⟨0x20 + clusterSlot d 4, 16, 16, 1000⟩
def F.srvMech_trk_dc (d : Nat) : Fld := ⟨0x20 + clusterSlot d 4, 32, 16, 16000⟩
def F.srvMech_sled_pitch (d : Nat) : Fld := ⟨0x20 + clusterSlot d 4, 48, 16, 1500⟩
def F.srvAcq_sweep_max (d : Nat) : Fld := ⟨0x28 + clusterSlot d 4, 0, 16, 20000⟩
def F.srvAcq_sweep_ms (d : Nat) : Fld := ⟨0x28 + clusterSlot d 4, 16, 8, 40⟩
def F.srvAcq_sum_acq (d : Nat) : Fld := ⟨0x28 + clusterSlot d 4, 24, 16, 8192⟩
def F.srvAcq_f_settle (d : Nat) : Fld := ⟨0x28 + clusterSlot d 4, 40, 8, 20⟩
def F.srvAcq_t_settle (d : Nat) : Fld := ⟨0x28 + clusterSlot d 4, 48, 8, 10⟩
def F.srvAcq_v_cap (d : Nat) : Fld := ⟨0x28 + clusterSlot d 4, 56, 8, 5⟩
def F.srvGuard_def_frac (d : Nat) : Fld := ⟨0x30 + clusterSlot d 4, 0, 8, 154⟩
def F.srvGuard_loss_frac (d : Nat) : Fld := ⟨0x30 + clusterSlot d 4, 8, 8, 64⟩
def F.srvGuard_loss_n (d : Nat) : Fld := ⟨0x30 + clusterSlot d 4, 16, 8, 64⟩
def F.srvGuard_def_max (d : Nat) : Fld := ⟨0x30 + clusterSlot d 4, 24, 12, 400⟩
def F.srvGuard_wi_trk (d : Nat) : Fld := ⟨0x30 + clusterSlot d 4, 36, 8, 20⟩
def F.srvGuard_wi_foc (d : Nat) : Fld := ⟨0x30 + clusterSlot d 4, 44, 8, 50⟩
def F.srvGuard_wi_n (d : Nat) : Fld := ⟨0x30 + clusterSlot d 4, 52, 3, 2⟩
def F.srvGuard_off_trk (d : Nat) : Fld := ⟨0x30 + clusterSlot d 4, 55, 9, 120⟩
def F.srvSeek_fine_max (d : Nat) : Fld := ⟨0x38 + clusterSlot d 4, 0, 8, 48⟩
def F.srvSeek_a_max (d : Nat) : Fld := ⟨0x38 + clusterSlot d 4, 8, 8, 40⟩
def F.srvSeek_v_max (d : Nat) : Fld := ⟨0x38 + clusterSlot d 4, 16, 12, 100⟩
def F.srvSeek_kv (d : Nat) : Fld := ⟨0x38 + clusterSlot d 4, 32, 16, 655⟩
def F.srvSeek_sled_db (d : Nat) : Fld := ⟨0x38 + clusterSlot d 4, 48, 16, 200⟩
def F.srvJump_kick (d : Nat) : Fld := ⟨0x40 + clusterSlot d 4, 0, 16, 8000⟩
def F.srvJump_kick_len (d : Nat) : Fld := ⟨0x40 + clusterSlot d 4, 16, 8, 40⟩
def F.srvJump_brake_len (d : Nat) : Fld := ⟨0x40 + clusterSlot d 4, 24, 8, 40⟩
def F.srvJump_brake_lvl (d : Nat) : Fld := ⟨0x40 + clusterSlot d 4, 32, 8, 64⟩
def F.srvJump_jump_to (d : Nat) : Fld := ⟨0x40 + clusterSlot d 4, 40, 12, 2048⟩
def F.srvCal_f_cal_f (d : Nat) : Fld := ⟨0x48 + clusterSlot d 4, 0, 16, 6000⟩
def F.srvCal_f_cal_t (d : Nat) : Fld := ⟨0x48 + clusterSlot d 4, 16, 16, 8000⟩
def F.srvCal_cal_amp (d : Nat) : Fld := ⟨0x48 + clusterSlot d 4, 32, 16, 655⟩
def F.srvCal_cal_trk (d : Nat) : Fld := ⟨0x48 + clusterSlot d 4, 48, 16, 20000⟩
def F.loopCfg_n_sec (d l : Nat) : Fld := ⟨(0x1000 + 0x400 * l) + clusterSlot d 4, 0, 3, 0⟩
def F.loopCfg_o3_sec (d l : Nat) : Fld := ⟨(0x1000 + 0x400 * l) + clusterSlot d 4, 3, 2, 0⟩
def F.loopCfg_o3 (d l : Nat) : Fld := ⟨(0x1000 + 0x400 * l) + clusterSlot d 4, 5, 1, 0⟩
def F.loopCfg_in_shift (d l : Nat) : Fld := ⟨(0x1000 + 0x400 * l) + clusterSlot d 4, 6, 4, (if l < 2 then 3 else 0)⟩
def F.loopCfg_int_en (d l : Nat) : Fld := ⟨(0x1000 + 0x400 * l) + clusterSlot d 4, 10, 1, 1⟩
def F.loopK_gain (d l : Nat) : Fld := ⟨(0x1008 + 0x400 * l) + clusterSlot d 4, 0, 32, 0x10000000⟩
def F.loopK_ki (d l : Nat) : Fld := ⟨(0x1008 + 0x400 * l) + clusterSlot d 4, 32, 32, 0⟩
def F.loopLim_int_max (d l : Nat) : Fld := ⟨(0x1010 + 0x400 * l) + clusterSlot d 4, 0, 32, 0x800000⟩
def F.loopLim_out_max (d l : Nat) : Fld := ⟨(0x1010 + 0x400 * l) + clusterSlot d 4, 32, 32, (if l = 3 then 0x28F5C else 0x1000000)⟩
def F.loopSec_coef (d l s k : Nat) : Fld := ⟨(0x1018 + 0x400 * l + 0x20 * s + 4 * k) + clusterSlot d 4, 0, 32, (if k = 0 then 0x10000000 else 0)⟩
def F.loopFf_kff (d l : Nat) : Fld := ⟨(0x1098 + 0x400 * l) + clusterSlot d 4, 0, 32, 0⟩
def F.traceCtrl_en (d : Nat) : Fld := ⟨0x2000 + clusterSlot d 4, 0, 1, 0⟩
def F.traceCtrl_freeze (d : Nat) : Fld := ⟨0x2000 + clusterSlot d 4, 1, 1, 0⟩
def F.traceCtrl_rearm (d : Nat) : Fld := ⟨0x2000 + clusterSlot d 4, 2, 1, 0⟩
def F.traceCtrl_frozen (d : Nat) : Fld := ⟨0x2000 + clusterSlot d 4, 3, 1, 0⟩
def F.traceCtrl_ev_mask (d : Nat) : Fld := ⟨0x2000 + clusterSlot d 4, 4, 4, 7⟩
def F.traceCtrl_index (d : Nat) : Fld := ⟨0x2000 + clusterSlot d 4, 8, 15, 0⟩
def F.traceBase_base (d : Nat) : Fld := ⟨0x2008 + clusterSlot d 4, 0, 64, 0⟩
def F.traceLast_t (d : Nat) : Fld := ⟨0x2010 + clusterSlot d 4, 0, 64, 0⟩
def F.btlCtrl_kp (d : Nat) : Fld := ⟨0x3000 + clusterSlot d 4, 0, 4, 3⟩
def F.btlCtrl_ki (d : Nat) : Fld := ⟨0x3000 + clusterSlot d 4, 4, 4, 10⟩
def F.btlCtrl_kp_acq (d : Nat) : Fld := ⟨0x3000 + clusterSlot d 4, 8, 4, 1⟩
def F.btlCtrl_ki_acq (d : Nat) : Fld := ⟨0x3000 + clusterSlot d 4, 12, 4, 6⟩
def F.btlCtrl_wob_inv (d : Nat) : Fld := ⟨0x3000 + clusterSlot d 4, 16, 1, 0⟩
def F.btlCtrl_wob_def (d : Nat) : Fld := ⟨0x3000 + clusterSlot d 4, 17, 7, 50⟩
def F.btlStatus_state (d : Nat) : Fld := ⟨0x3004 + clusterSlot d 4, 0, 3, 0⟩
def F.btlStatus_zone (d : Nat) : Fld := ⟨0x3004 + clusterSlot d 4, 3, 7, 0⟩
def F.btlStatus_band (d : Nat) : Fld := ⟨0x3004 + clusterSlot d 4, 10, 17, 0⟩
def F.btlRate_rate (d : Nat) : Fld := ⟨0x3008 + clusterSlot d 4, 0, 32, 0⟩
def F.btlMarks_disagree (d : Nat) : Fld := ⟨0x300C + clusterSlot d 4, 0, 16, 0⟩
def F.btlMarks_reseats (d : Nat) : Fld := ⟨0x300C + clusterSlot d 4, 16, 8, 0⟩
def F.btlMarks_lost (d : Nat) : Fld := ⟨0x300C + clusterSlot d 4, 24, 8, 0⟩
def F.spinReq_op (d : Nat) : Fld := ⟨0x0 + clusterSlot d 5, 0, 3, 0⟩
def F.spinReq_target (d : Nat) : Fld := ⟨0x0 + clusterSlot d 5, 16, 16, 0⟩
def F.spinStatus_state (d : Nat) : Fld := ⟨0x4 + clusterSlot d 5, 0, 4, 0⟩
def F.spinStatus_lock (d : Nat) : Fld := ⟨0x4 + clusterSlot d 5, 4, 1, 0⟩
def F.spinStatus_place (d : Nat) : Fld := ⟨0x4 + clusterSlot d 5, 5, 1, 0⟩
def F.spinStatus_duty_limited (d : Nat) : Fld := ⟨0x4 + clusterSlot d 5, 6, 1, 0⟩
def F.spinStatus_req_waiting (d : Nat) : Fld := ⟨0x4 + clusterSlot d 5, 7, 1, 0⟩
def F.spinStatus_req_refused (d : Nat) : Fld := ⟨0x4 + clusterSlot d 5, 8, 1, 0⟩
def F.spinStatus_attempts (d : Nat) : Fld := ⟨0x4 + clusterSlot d 5, 9, 3, 0⟩
def F.spinStatus_pred_run (d : Nat) : Fld := ⟨0x4 + clusterSlot d 5, 12, 4, 0⟩
def F.spinStatus_target (d : Nat) : Fld := ⟨0x4 + clusterSlot d 5, 16, 16, 0⟩
def F.spinMeas_speed (d : Nat) : Fld := ⟨0x8 + clusterSlot d 5, 0, 16, 0⟩
def F.spinMeas_emf (d : Nat) : Fld := ⟨0x8 + clusterSlot d 5, 16, 16, 0⟩
def F.spinMeas_vbus (d : Nat) : Fld := ⟨0x8 + clusterSlot d 5, 32, 16, 0⟩
def F.spinMeas_iq (d : Nat) : Fld := ⟨0x8 + clusterSlot d 5, 48, 16, 0⟩
def F.spinMotor_r_s (d : Nat) : Fld := ⟨0x10 + clusterSlot d 5, 0, 16, 0⟩
def F.spinMotor_l_s (d : Nat) : Fld := ⟨0x10 + clusterSlot d 5, 16, 16, 0⟩
def F.spinMotor_ke (d : Nat) : Fld := ⟨0x10 + clusterSlot d 5, 32, 16, 0⟩
def F.spinMotor_pole_pairs (d : Nat) : Fld := ⟨0x10 + clusterSlot d 5, 48, 3, 4⟩
def F.spinMotor_dir_inv (d : Nat) : Fld := ⟨0x10 + clusterSlot d 5, 51, 1, 0⟩
def F.spinCur_kp_i (d : Nat) : Fld := ⟨0x18 + clusterSlot d 5, 0, 32, 0⟩
def F.spinCur_ki_i (d : Nat) : Fld := ⟨0x18 + clusterSlot d 5, 32, 32, 0⟩
def F.spinSpd_kp_w (d : Nat) : Fld := ⟨0x20 + clusterSlot d 5, 0, 32, 0⟩
def F.spinSpd_ki_w (d : Nat) : Fld := ⟨0x20 + clusterSlot d 5, 32, 32, 0⟩
def F.spinObs_k_i (d : Nat) : Fld := ⟨0x28 + clusterSlot d 5, 0, 16, 0⟩
def F.spinObs_k_e (d : Nat) : Fld := ⟨0x28 + clusterSlot d 5, 16, 16, 0⟩
def F.spinObs_k_w (d : Nat) : Fld := ⟨0x28 + clusterSlot d 5, 32, 16, 0⟩
def F.spinObs_k_th (d : Nat) : Fld := ⟨0x28 + clusterSlot d 5, 48, 16, 0⟩
def F.spinLim_i_max (d : Nat) : Fld := ⟨0x30 + clusterSlot d 5, 0, 16, 2000⟩
def F.spinLim_i_brake (d : Nat) : Fld := ⟨0x30 + clusterSlot d 5, 16, 16, 1500⟩
def F.spinLim_acc_max (d : Nat) : Fld := ⟨0x30 + clusterSlot d 5, 32, 16, 600⟩
def F.spinLim_dec_max (d : Nat) : Fld := ⟨0x30 + clusterSlot d 5, 48, 16, 600⟩
def F.spinSeq_stop_spd (d : Nat) : Fld := ⟨0x38 + clusterSlot d 5, 0, 16, 100⟩
def F.spinSeq_pulse_spd (d : Nat) : Fld := ⟨0x38 + clusterSlot d 5, 16, 16, 2500⟩
def F.spinSeq_hand_spd (d : Nat) : Fld := ⟨0x38 + clusterSlot d 5, 32, 16, 1000⟩
def F.spinSeq_brake_spd (d : Nat) : Fld := ⟨0x38 + clusterSlot d 5, 48, 16, 1000⟩
def F.spinStart_i_align (d : Nat) : Fld := ⟨0x40 + clusterSlot d 5, 0, 16, 800⟩
def F.spinStart_align_ms (d : Nat) : Fld := ⟨0x40 + clusterSlot d 5, 16, 8, 200⟩
def F.spinStart_ramp_ms (d : Nat) : Fld := ⟨0x40 + clusterSlot d 5, 24, 8, 100⟩
def F.spinStart_i_ramp (d : Nat) : Fld := ⟨0x40 + clusterSlot d 5, 32, 16, 1000⟩
def F.spinStart_ramp_acc (d : Nat) : Fld := ⟨0x40 + clusterSlot d 5, 48, 12, 200⟩
def F.spinStart_start_tries (d : Nat) : Fld := ⟨0x40 + clusterSlot d 5, 60, 3, 2⟩
def F.spinLos_los_n (d : Nat) : Fld := ⟨0x48 + clusterSlot d 5, 0, 4, 4⟩
def F.spinLos_emf_tol (d : Nat) : Fld := ⟨0x48 + clusterSlot d 5, 4, 7, 25⟩
def F.spinLos_acc_fac (d : Nat) : Fld := ⟨0x48 + clusterSlot d 5, 11, 3, 2⟩
def F.spinLos_pred_max (d : Nat) : Fld := ⟨0x48 + clusterSlot d 5, 14, 4, 8⟩
def F.spinLos_catch_ok (d : Nat) : Fld := ⟨0x48 + clusterSlot d 5, 18, 6, 16⟩
def F.spinLos_recatch_n (d : Nat) : Fld := ⟨0x48 + clusterSlot d 5, 24, 3, 3⟩
def F.spinLos_recatch_ms (d : Nat) : Fld := ⟨0x48 + clusterSlot d 5, 32, 8, 60⟩
def F.spinLos_sense_ms (d : Nat) : Fld := ⟨0x48 + clusterSlot d 5, 40, 8, 4⟩
def F.spinLos_catch_ms (d : Nat) : Fld := ⟨0x48 + clusterSlot d 5, 48, 8, 20⟩
def F.spinLos_brake_chk (d : Nat) : Fld := ⟨0x48 + clusterSlot d 5, 56, 8, 50⟩
def F.spinDlim_duty_lim (d : Nat) : Fld := ⟨0x50 + clusterSlot d 5, 0, 16, 61440⟩
def F.spinDlim_v_reg (d : Nat) : Fld := ⟨0x50 + clusterSlot d 5, 16, 16, 13200⟩
def F.spinCnt_losses (d : Nat) : Fld := ⟨0x58 + clusterSlot d 5, 0, 16, 0⟩
def F.spinCnt_recatches (d : Nat) : Fld := ⟨0x58 + clusterSlot d 5, 16, 16, 0⟩
def F.spinCnt_brakes (d : Nat) : Fld := ⟨0x58 + clusterSlot d 5, 32, 16, 0⟩
def F.spinCnt_predictions (d : Nat) : Fld := ⟨0x58 + clusterSlot d 5, 48, 16, 0⟩
def F.axisReq_op (d x : Nat) : Fld := ⟨(0x0 + 0x100 * x) + clusterSlot d 6, 0, 4, 0⟩
def F.axisReq_start (d x : Nat) : Fld := ⟨(0x0 + 0x100 * x) + clusterSlot d 6, 4, 2, 0⟩
def F.axisReq_target (d x : Nat) : Fld := ⟨(0x0 + 0x100 * x) + clusterSlot d 6, 32, 32, 0⟩
def F.axisStatus_pos (d x : Nat) : Fld := ⟨(0x8 + 0x100 * x) + clusterSlot d 6, 0, 32, 0⟩
def F.axisStatus_state (d x : Nat) : Fld := ⟨(0x8 + 0x100 * x) + clusterSlot d 6, 32, 3, 0⟩
def F.axisStatus_level (d x : Nat) : Fld := ⟨(0x8 + 0x100 * x) + clusterSlot d 6, 35, 3, 0⟩
def F.axisStatus_homed (d x : Nat) : Fld := ⟨(0x8 + 0x100 * x) + clusterSlot d 6, 38, 1, 0⟩
def F.axisStatus_reduced (d x : Nat) : Fld := ⟨(0x8 + 0x100 * x) + clusterSlot d 6, 39, 1, 0⟩
def F.axisStatus_req_waiting (d x : Nat) : Fld := ⟨(0x8 + 0x100 * x) + clusterSlot d 6, 40, 1, 0⟩
def F.axisStatus_req_refused (d x : Nat) : Fld := ⟨(0x8 + 0x100 * x) + clusterSlot d 6, 41, 1, 0⟩
def F.axisProf_a (d x : Nat) : Fld := ⟨(0x10 + 0x100 * x) + clusterSlot d 6, 0, 16, 2000⟩
def F.axisProf_d (d x : Nat) : Fld := ⟨(0x10 + 0x100 * x) + clusterSlot d 6, 16, 16, 2000⟩
def F.axisProf_v_max (d x : Nat) : Fld := ⟨(0x10 + 0x100 * x) + clusterSlot d 6, 32, 16, 1000⟩
def F.axisProf_d_es (d x : Nat) : Fld := ⟨(0x10 + 0x100 * x) + clusterSlot d 6, 48, 16, 6000⟩
def F.axisRes_th1 (d x : Nat) : Fld := ⟨(0x18 + 0x100 * x) + clusterSlot d 6, 0, 16, 150⟩
def F.axisRes_th2 (d x : Nat) : Fld := ⟨(0x18 + 0x100 * x) + clusterSlot d 6, 16, 16, 300⟩
def F.axisRes_th3 (d x : Nat) : Fld := ⟨(0x18 + 0x100 * x) + clusterSlot d 6, 32, 16, 600⟩
def F.axisRes_th4 (d x : Nat) : Fld := ⟨(0x18 + 0x100 * x) + clusterSlot d 6, 48, 16, 1200⟩
def F.axisCur_i_run (d x : Nat) : Fld := ⟨(0x20 + 0x100 * x) + clusterSlot d 6, 0, 16, 400⟩
def F.axisCur_ss_pct (d x : Nat) : Fld := ⟨(0x20 + 0x100 * x) + clusterSlot d 6, 16, 7, 30⟩
def F.axisCur_hyst (d x : Nat) : Fld := ⟨(0x20 + 0x100 * x) + clusterSlot d 6, 23, 3, 1⟩
def F.axisCur_ss_delay (d x : Nat) : Fld := ⟨(0x20 + 0x100 * x) + clusterSlot d 6, 32, 16, 200⟩
def F.axisCur_home_pct (d x : Nat) : Fld := ⟨(0x20 + 0x100 * x) + clusterSlot d 6, 48, 7, 50⟩
def F.axisHome_home_len (d x : Nat) : Fld := ⟨(0x28 + 0x100 * x) + clusterSlot d 6, 0, 32, 0x10000⟩
def F.axisHome_home_spd (d x : Nat) : Fld := ⟨(0x28 + 0x100 * x) + clusterSlot d 6, 32, 16, 200⟩
def F.axisHome_i_err (d x : Nat) : Fld := ⟨(0x28 + 0x100 * x) + clusterSlot d 6, 48, 16, 150⟩
def F.sledPark_pos (d : Nat) : Fld := ⟨0x30 + clusterSlot d 6, 0, 32, 0⟩
def F.hlinkCtrl_enable (d : Nat) : Fld := ⟨0x0 + clusterSlot d 7, 0, 1, 1⟩
def F.hlinkCtrl_retrain (d : Nat) : Fld := ⟨0x0 + clusterSlot d 7, 1, 1, 0⟩
def F.hlinkCtrl_lane_disable (d : Nat) : Fld := ⟨0x0 + clusterSlot d 7, 2, 4, 0⟩
def F.hlinkCtrl_srv_miss_max (d : Nat) : Fld := ⟨0x0 + clusterSlot d 7, 6, 3, 3⟩
def F.hlinkCtrl_rt_max (d : Nat) : Fld := ⟨0x0 + clusterSlot d 7, 16, 8, 160⟩
def F.hlinkStatus_state (d : Nat) : Fld := ⟨0x4 + clusterSlot d 7, 0, 3, 0⟩
def F.hlinkStatus_burn_ok (d : Nat) : Fld := ⟨0x4 + clusterSlot d 7, 3, 1, 0⟩
def F.hlinkStatus_lane_up (d : Nat) : Fld := ⟨0x4 + clusterSlot d 7, 4, 4, 0⟩
def F.hlinkStatus_beam_missing (d : Nat) : Fld := ⟨0x4 + clusterSlot d 7, 8, 4, 0⟩
def F.hlinkStatus_srv_lane (d : Nat) : Fld := ⟨0x4 + clusterSlot d 7, 12, 2, 0⟩
def F.hlinkStatus_rt (d : Nat) : Fld := ⟨0x4 + clusterSlot d 7, 16, 8, 0⟩
def F.hlinkStatus_passes (d : Nat) : Fld := ⟨0x4 + clusterSlot d 7, 24, 4, 1⟩
def F.hlinkLane_discards (d n : Nat) : Fld := ⟨(0x8 + 0x4 * n) + clusterSlot d 7, 0, 16, 0⟩
def F.hlinkLane_losses (d n : Nat) : Fld := ⟨(0x8 + 0x4 * n) + clusterSlot d 7, 16, 8, 0⟩
def F.hlinkLane_cmd_resends (d n : Nat) : Fld := ⟨(0x8 + 0x4 * n) + clusterSlot d 7, 24, 8, 0⟩
def F.hlinkSrv_lost_total (d : Nat) : Fld := ⟨0x18 + clusterSlot d 7, 0, 16, 0⟩
def F.hlinkSrv_lost_run (d : Nat) : Fld := ⟨0x18 + clusterSlot d 7, 16, 3, 0⟩
def F.hlinkSrv_servo_loss (d : Nat) : Fld := ⟨0x18 + clusterSlot d 7, 19, 1, 0⟩
def F.hlinkSrv_train_fail (d : Nat) : Fld := ⟨0x18 + clusterSlot d 7, 20, 12, 0⟩
def F.hlinkTelem_value (d i : Nat) : Fld := ⟨(0x20 + 0x8 * i) + clusterSlot d 7, 0, 48, 0⟩
def F.hlinkTelem_age (d i : Nat) : Fld := ⟨(0x20 + 0x8 * i) + clusterSlot d 7, 48, 16, 0⟩
def F.jd_sync_min (d : Nat) : Fld := ⟨0x1000 + clusterSlot d 7, 0, 6, 42⟩
def F.jd_sync_win (d : Nat) : Fld := ⟨0x1000 + clusterSlot d 7, 6, 5, 24⟩
def F.jd_tol (d : Nat) : Fld := ⟨0x1000 + clusterSlot d 7, 11, 3, 2⟩
def F.jd_acq_win (d : Nat) : Fld := ⟨0x1000 + clusterSlot d 7, 14, 11, 1024⟩
def F.jd_nbr_llr_scale (d : Nat) : Fld := ⟨0x1000 + clusterSlot d 7, 25, 2, 2⟩
def F.jdt_t0 (d : Nat) : Fld := ⟨0x1008 + clusterSlot d 7, 0, 8, 1⟩
def F.jdt_t1 (d : Nat) : Fld := ⟨0x1008 + clusterSlot d 7, 8, 8, 2⟩
def F.jdt_t2 (d : Nat) : Fld := ⟨0x1008 + clusterSlot d 7, 16, 8, 2⟩
def F.jdt_t3 (d : Nat) : Fld := ⟨0x1008 + clusterSlot d 7, 24, 8, 2⟩
def F.jdt_t4 (d : Nat) : Fld := ⟨0x1008 + clusterSlot d 7, 32, 8, 1⟩
def F.jdt_lvl_unit (d : Nat) : Fld := ⟨0x1008 + clusterSlot d 7, 40, 8, 32⟩
def F.jdt_flag_min (d : Nat) : Fld := ⟨0x1008 + clusterSlot d 7, 48, 6, 8⟩
def F.retryRung_converged (d n : Nat) : Fld := ⟨(0x2000 + 0x4 * (n - 1)) + clusterSlot d 7, 0, 16, 0⟩
def F.retryRung_tried (d n : Nat) : Fld := ⟨(0x2000 + 0x4 * (n - 1)) + clusterSlot d 7, 16, 16, 0⟩
def F.burnCtrl_rec_thr (d : Nat) : Fld := ⟨0x3000 + clusterSlot d 7, 0, 8, 24⟩
def F.burnCtrl_abandon_max (d : Nat) : Fld := ⟨0x3000 + clusterSlot d 7, 8, 3, 2⟩
def F.burnCtrl_lead (d : Nat) : Fld := ⟨0x3000 + clusterSlot d 7, 16, 8, 32⟩
def F.burnStatus_state (d : Nat) : Fld := ⟨0x3004 + clusterSlot d 7, 0, 2, 0⟩
def F.burnStatus_queued (d : Nat) : Fld := ⟨0x3004 + clusterSlot d 7, 2, 5, 0⟩
def F.burnStatus_open (d : Nat) : Fld := ⟨0x3004 + clusterSlot d 7, 7, 1, 0⟩
def F.burnStatus_rewrites (d : Nat) : Fld := ⟨0x3004 + clusterSlot d 7, 8, 8, 0⟩
def F.burnStatus_position (d : Nat) : Fld := ⟨0x3004 + clusterSlot d 7, 16, 13, 0⟩
def F.burnNext_psa (d l : Nat) : Fld := ⟨(0x3008 + 0x4 * l) + clusterSlot d 7, 0, 31, 0⟩
def F.burnQ_desc (d : Nat) : Fld := ⟨0x3028 + clusterSlot d 7, 0, 64, 0⟩
def F.burnCnt_complete (d : Nat) : Fld := ⟨0x3030 + clusterSlot d 7, 0, 16, 0⟩
def F.burnCnt_spoiled (d : Nat) : Fld := ⟨0x3030 + clusterSlot d 7, 16, 16, 0⟩
def F.burnCnt_rewrites (d : Nat) : Fld := ⟨0x3030 + clusterSlot d 7, 32, 16, 0⟩
def F.burnCnt_terminators (d : Nat) : Fld := ⟨0x3030 + clusterSlot d 7, 48, 8, 0⟩
def F.burnCnt_opc_fail (d : Nat) : Fld := ⟨0x3030 + clusterSlot d 7, 56, 8, 0⟩
def F.opcLast_p_opt (d b : Nat) : Fld := ⟨(0x4000 + 0x8 * b) + clusterSlot d 7, 0, 16, 0⟩
def F.opcLast_layer (d b : Nat) : Fld := ⟨(0x4000 + 0x8 * b) + clusterSlot d 7, 16, 3, 0⟩
def F.opcLast_side (d b : Nat) : Fld := ⟨(0x4000 + 0x8 * b) + clusterSlot d 7, 19, 1, 0⟩
def F.opcLast_valid (d b : Nat) : Fld := ⟨(0x4000 + 0x8 * b) + clusterSlot d 7, 20, 1, 0⟩
def F.opcLast_test_psa (d b : Nat) : Fld := ⟨(0x4000 + 0x8 * b) + clusterSlot d 7, 32, 31, 0⟩
def F.discTray_open_pos (d : Nat) : Fld := ⟨0x5000 + clusterSlot d 7, 0, 32, 0⟩
def F.discTray_clamp_pos (d : Nat) : Fld := ⟨0x5000 + clusterSlot d 7, 32, 32, 0⟩
def F.discStatus_state (d : Nat) : Fld := ⟨0x5008 + clusterSlot d 7, 0, 3, 0⟩
def F.discStatus_side (d : Nat) : Fld := ⟨0x5008 + clusterSlot d 7, 3, 1, 0⟩
def F.discStatus_foreign (d : Nat) : Fld := ⟨0x5008 + clusterSlot d 7, 4, 1, 0⟩
def F.discId_id (d : Nat) : Fld := ⟨0x5010 + clusterSlot d 7, 0, 64, 0⟩
def F.hcal_ld_trim (d : Nat) : Fld := ⟨0x6000 + clusterSlot d 7, 0, 8, 128⟩
def F.hcal_q_trim (d : Nat) : Fld := ⟨0x6000 + clusterSlot d 7, 8, 32, 0x80808080⟩
def F.hcal_ok (d : Nat) : Fld := ⟨0x6000 + clusterSlot d 7, 40, 1, 0⟩
def F.spinup_spinup_max (r : Nat) : Fld := ⟨0x0 + regionBase r, 0, 3, 2⟩
def F.spinup_spinup_active (r : Nat) : Fld := ⟨0x0 + regionBase r, 8, 3, 0⟩
def F.spinup_spinup_waiting (r : Nat) : Fld := ⟨0x0 + regionBase r, 16, 6, 0⟩
def F.decCtrl_iter_first (r : Nat) : Fld := ⟨0x1000 + regionBase r, 0, 6, 12⟩
def F.decCtrl_iter_retry (r : Nat) : Fld := ⟨0x1000 + regionBase r, 6, 6, 48⟩
def F.decCtrl_beta (r : Nat) : Fld := ⟨0x1000 + regionBase r, 12, 4, 4⟩
def F.decCtrl_read_corr_max (r : Nat) : Fld := ⟨0x1000 + regionBase r, 16, 16, 3072⟩
def F.decRetry_ceiling (r : Nat) : Fld := ⟨0x1004 + regionBase r, 0, 3, 7⟩
def F.decRetry_r4_step (r : Nat) : Fld := ⟨0x1004 + regionBase r, 3, 3, 4⟩
def F.decRetry_r5_step (r : Nat) : Fld := ⟨0x1004 + regionBase r, 6, 8, 30⟩
def F.decRetry_budget_ms (r : Nat) : Fld := ⟨0x1004 + regionBase r, 16, 16, 2000⟩
def F.decVerify_v_iter (r : Nat) : Fld := ⟨0x1008 + regionBase r, 0, 4, 6⟩
def F.decVerify_v_synd3_max (r : Nat) : Fld := ⟨0x1008 + regionBase r, 4, 10, 48⟩
def F.decVerify_v_corr_max (r : Nat) : Fld := ⟨0x1008 + regionBase r, 14, 16, 384⟩
def F.decPool_busy (r : Nat) : Fld := ⟨0x100C + regionBase r, 0, 8, 0⟩
def F.decPool_parked (r : Nat) : Fld := ⟨0x100C + regionBase r, 8, 5, 0⟩
def F.decPool_verify_wait (r : Nat) : Fld := ⟨0x100C + regionBase r, 16, 8, 0⟩
def F.opcCtrl_step (r : Nat) : Fld := ⟨0x2000 + regionBase r, 0, 4, 4⟩
def F.opcCtrl_beta_target (r : Nat) : Fld := ⟨0x2000 + regionBase r, 4, 10, 40⟩
def F.opcCtrl_gamma (r : Nat) : Fld := ⟨0x2000 + regionBase r, 14, 8, 128⟩
def F.opcCtrl_tries (r : Nat) : Fld := ⟨0x2000 + regionBase r, 22, 3, 3⟩
def F.opcCtrl_margin (r : Nat) : Fld := ⟨0x2000 + regionBase r, 25, 7, 0⟩
def F.opcLayer_p_def (r l : Nat) : Fld := ⟨(0x2008 + 0x8 * l) + regionBase r, 0, 16, 10000⟩
def F.opcLayer_p_min (r l : Nat) : Fld := ⟨(0x2008 + 0x8 * l) + regionBase r, 16, 16, 4000⟩
def F.opcLayer_p_max (r l : Nat) : Fld := ⟨(0x2008 + 0x8 * l) + regionBase r, 32, 16, 30000⟩
def F.ws0_bias (r : Nat) : Fld := ⟨0x3000 + regionBase r, 0, 8, 64⟩
def F.ws0_cool (r : Nat) : Fld := ⟨0x3000 + regionBase r, 8, 8, 13⟩
def F.ws_t_top (r c : Nat) : Fld := ⟨(0x3004 + 0x4 * (c - 1)) + regionBase r, 0, 6, ([26, 20, 18, 18, 18, 16, 16].getD (c - 1) 0)⟩
def F.ws_d_top (r c : Nat) : Fld := ⟨(0x3004 + 0x4 * (c - 1)) + regionBase r, 6, 6, ([2, 0, 0, 0, 0, 0, 0].getD (c - 1) 0)⟩
def F.ws_t_mp (r c : Nat) : Fld := ⟨(0x3004 + 0x4 * (c - 1)) + regionBase r, 12, 6, ([0, 0, 12, 12, 12, 12, 12].getD (c - 1) 0)⟩
def F.ws_t_lp (r c : Nat) : Fld := ⟨(0x3004 + 0x4 * (c - 1)) + regionBase r, 18, 6, ([0, 14, 14, 14, 14, 14, 14].getD (c - 1) 0)⟩
def F.ws_t_cl (r c : Nat) : Fld := ⟨(0x3004 + 0x4 * (c - 1)) + regionBase r, 24, 6, ([12, 12, 14, 16, 16, 18, 18].getD (c - 1) 0)⟩
def F.fcStatus_state (r c : Nat) : Fld := ⟨(0x4000 + 0x100 * c) + regionBase r, 0, 3, 0⟩
def F.fcStatus_targets (r c : Nat) : Fld := ⟨(0x4000 + 0x100 * c) + regionBase r, 3, 8, 0⟩
def F.fcStatus_rate (r c : Nat) : Fld := ⟨(0x4000 + 0x100 * c) + regionBase r, 16, 12, 0⟩
def F.fcCfg_pair_dist (r c : Nat) : Fld := ⟨(0x4004 + 0x100 * c) + regionBase r, 0, 3, 0⟩
def F.fcCfg_down (r c : Nat) : Fld := ⟨(0x4004 + 0x100 * c) + regionBase r, 3, 1, 0⟩
def F.fcErr_refresh (r c : Nat) : Fld := ⟨(0x4008 + 0x100 * c) + regionBase r, 0, 16, 0⟩
def F.fcErr_uncorr (r c : Nat) : Fld := ⟨(0x4008 + 0x100 * c) + regionBase r, 16, 16, 0⟩
def F.fcErr_prog_fail (r c : Nat) : Fld := ⟨(0x4008 + 0x100 * c) + regionBase r, 32, 8, 0⟩
def F.fcErr_erase_fail (r c : Nat) : Fld := ⟨(0x4008 + 0x100 * c) + regionBase r, 40, 8, 0⟩
def F.fcErr_retired (r c : Nat) : Fld := ⟨(0x4008 + 0x100 * c) + regionBase r, 48, 16, 0⟩
def F.bucket_depth (r : Nat) : Fld := ⟨0x5000 + regionBase r, 0, 8, 16⟩
def F.bucket_level (r : Nat) : Fld := ⟨0x5000 + regionBase r, 8, 8, 0⟩
def F.bucket_leak_min (r : Nat) : Fld := ⟨0x5000 + regionBase r, 16, 12, 10⟩
def F.dramCtrl_narrow (e : Nat) : Fld := ⟨0x0 + dieBase e, 0, 1, 0⟩
def F.dramCtrl_scrub_en (e : Nat) : Fld := ⟨0x0 + dieBase e, 1, 1, 1⟩
def F.dramCtrl_merge_ns (e : Nat) : Fld := ⟨0x0 + dieBase e, 16, 8, 100⟩
def F.dramScrub_scrub_min (e : Nat) : Fld := ⟨0x4 + dieBase e, 0, 16, 1440⟩
def F.dramScrub_pos (e : Nat) : Fld := ⟨0x4 + dieBase e, 16, 10, 0⟩
def F.dramScrub_passes (e : Nat) : Fld := ⟨0x4 + dieBase e, 26, 6, 0⟩
def F.dramErr_corrected (e : Nat) : Fld := ⟨0x8 + dieBase e, 0, 32, 0⟩
def F.dramErr_uncorr (e : Nat) : Fld := ⟨0x8 + dieBase e, 32, 16, 0⟩
def F.dramErr_narrow_refused (e : Nat) : Fld := ⟨0x8 + dieBase e, 48, 8, 0⟩
def F.dramErr_evictions (e : Nat) : Fld := ⟨0x8 + dieBase e, 56, 8, 0⟩
def F.dramUe_addr (e : Nat) : Fld := ⟨0x10 + dieBase e, 0, 34, 0⟩
def F.tilePoison_tile (e : Nat) : Fld := ⟨0x1000 + dieBase e, 0, 21, 0⟩
def F.tilePoison_use (e : Nat) : Fld := ⟨0x1000 + dieBase e, 21, 3, 0⟩
def F.tilePoison_poisoned (e : Nat) : Fld := ⟨0x1000 + dieBase e, 32, 16, 0⟩
def F.tilePoison_quarantined (e : Nat) : Fld := ⟨0x1000 + dieBase e, 48, 16, 0⟩
def F.snoopCfg_en (e v : Nat) : Fld := ⟨(0x2000 + 0x20 * v) + dieBase e, 0, 1, 0⟩
def F.snoopCfg_poly (e v : Nat) : Fld := ⟨(0x2000 + 0x20 * v) + dieBase e, 1, 2, 0⟩
def F.snoopCfg_kind (e v : Nat) : Fld := ⟨(0x2000 + 0x20 * v) + dieBase e, 3, 3, 0⟩
def F.snoopCfg_index (e v : Nat) : Fld := ⟨(0x2000 + 0x20 * v) + dieBase e, 6, 12, 0⟩
def F.snoopCfg_engine (e v : Nat) : Fld := ⟨(0x2000 + 0x20 * v) + dieBase e, 18, 1, 0⟩
def F.snoopRun_run (e v : Nat) : Fld := ⟨(0x2008 + 0x20 * v) + dieBase e, 0, 64, 0⟩
def F.snoopCount_count (e v : Nat) : Fld := ⟨(0x2010 + 0x20 * v) + dieBase e, 0, 64, 0⟩
def F.contLast_master (e : Nat) : Fld := ⟨0x3000 + dieBase e, 0, 9, 0⟩
def F.contLast_space (e : Nat) : Fld := ⟨0x3000 + dieBase e, 9, 1, 0⟩
def F.contLast_write (e : Nat) : Fld := ⟨0x3000 + dieBase e, 10, 1, 0⟩
def F.contLast_addr (e : Nat) : Fld := ⟨0x3000 + dieBase e, 16, 48, 0⟩
def F.calCtrl_upd_ms (e : Nat) : Fld := ⟨0x4000 + dieBase e, 0, 10, 100⟩
def F.calCtrl_rewrite_c (e : Nat) : Fld := ⟨0x4000 + dieBase e, 10, 4, 5⟩
def F.calStatus_done (e : Nat) : Fld := ⟨0x4008 + dieBase e, 0, 1, 0⟩
def F.calStatus_method (e : Nat) : Fld := ⟨0x4008 + dieBase e, 1, 1, 0⟩
def F.calStatus_record_ok (e : Nat) : Fld := ⟨0x4008 + dieBase e, 2, 1, 0⟩
def F.calStatus_implausible (e : Nat) : Fld := ⟨0x4008 + dieBase e, 8, 8, 0⟩
def F.calStatus_fallbacks (e : Nat) : Fld := ⟨0x4008 + dieBase e, 16, 8, 0⟩
def F.calStatus_last_id (e : Nat) : Fld := ⟨0x4008 + dieBase e, 24, 8, 0⟩
def F.calStatus_last_inst (e : Nat) : Fld := ⟨0x4008 + dieBase e, 32, 8, 0⟩
def F.calStatus_t_cal (e : Nat) : Fld := ⟨0x4008 + dieBase e, 40, 8, 0⟩
def F.calStatus_t_now (e : Nat) : Fld := ⟨0x4008 + dieBase e, 48, 16, 0⟩
def F.calSel_id (e : Nat) : Fld := ⟨0x4010 + dieBase e, 0, 8, 0⟩
def F.calSel_inst (e : Nat) : Fld := ⟨0x4010 + dieBase e, 8, 8, 0⟩
def F.calVal_applied (e : Nat) : Fld := ⟨0x4014 + dieBase e, 0, 8, 0⟩
def F.calVal_measured (e : Nat) : Fld := ⟨0x4014 + dieBase e, 8, 8, 0⟩
def F.calVal_delta (e : Nat) : Fld := ⟨0x4014 + dieBase e, 16, 12, 0⟩
def F.calVal_source (e : Nat) : Fld := ⟨0x4014 + dieBase e, 28, 2, 0⟩
def F.lichenCnt_seq (e : Nat) : Fld := ⟨0x5000 + dieBase e, 0, 32, 0⟩
def F.lichenCnt_dropped (e : Nat) : Fld := ⟨0x5000 + dieBase e, 32, 16, 0⟩
def F.chain_sys_addr : Fld := ⟨0x50000000 + 0x0, 0, 10, 0⟩
def F.chain_addr_valid : Fld := ⟨0x50000000 + 0x0, 10, 1, 0⟩
def F.chain_head : Fld := ⟨0x50000000 + 0x0, 11, 1, 0⟩
def F.chain_overflow : Fld := ⟨0x50000000 + 0x0, 12, 1, 0⟩
def F.chain_chain_lost : Fld := ⟨0x50000000 + 0x0, 13, 1, 0⟩
def F.chain_mismatch : Fld := ⟨0x50000000 + 0x0, 14, 1, 0⟩
def F.chain_hop_delay : Fld := ⟨0x50000000 + 0x0, 16, 16, 0⟩
def F.axesGo_go : Fld := ⟨0x50000000 + 0x100000, 0, 1, 0⟩
def F.shape_k (i : Nat) : Fld := ⟨0x50000000 + (0x200000 + 0x4 * i), 0, 5, (if i = 0 then 20 else 0)⟩
def F.shape_m (i : Nat) : Fld := ⟨0x50000000 + (0x200000 + 0x4 * i), 5, 4, (if i = 0 then 4 else 0)⟩
def F.shape_q (i : Nat) : Fld := ⟨0x50000000 + (0x200000 + 0x4 * i), 9, 8, (if i = 0 then 1 else 0)⟩
def F.shape_en (i : Nat) : Fld := ⟨0x50000000 + (0x200000 + 0x4 * i), 17, 1, (if i = 0 then 1 else 0)⟩
def F.frondCtrl_seal_s : Fld := ⟨0x50000000 + 0x200020, 0, 16, 600⟩
def F.frondCtrl_burn_lead : Fld := ⟨0x50000000 + 0x200020, 16, 16, 2000⟩
def F.frondCtrl_run_step : Fld := ⟨0x50000000 + 0x200020, 32, 16, 1200⟩
def F.frondCtrl_reorder : Fld := ⟨0x50000000 + 0x200020, 48, 8, 8⟩
def F.frondCtrl_extra_par : Fld := ⟨0x50000000 + 0x200020, 56, 3, 1⟩
def F.frondCtrl2_grant : Fld := ⟨0x50000000 + 0x200028, 0, 16, 256⟩
def F.frondCtrl2_place_wait : Fld := ⟨0x50000000 + 0x200028, 16, 16, 300⟩
def F.frondStatus_open : Fld := ⟨0x50000000 + 0x20002C, 0, 8, 0⟩
def F.frondStatus_waiting : Fld := ⟨0x50000000 + 0x20002C, 8, 8, 0⟩
def F.frondStatus_burning : Fld := ⟨0x50000000 + 0x20002C, 16, 8, 0⟩
def F.frondStatus_returned : Fld := ⟨0x50000000 + 0x20002C, 24, 8, 0⟩
def F.mossCtrl_op_pct : Fld := ⟨0x50000000 + 0x300000, 0, 8, 7⟩
def F.mossCtrl_spare_pct : Fld := ⟨0x50000000 + 0x300000, 8, 4, 2⟩
def F.mossCtrl_gc_start : Fld := ⟨0x50000000 + 0x300000, 16, 8, 3⟩
def F.mossCtrl_gc_stop : Fld := ⟨0x50000000 + 0x300000, 24, 8, 5⟩
def F.mossCtrl_reloc_share : Fld := ⟨0x50000000 + 0x300000, 32, 8, 25⟩
def F.mossCtrl_rebuild_share : Fld := ⟨0x50000000 + 0x300000, 40, 8, 50⟩
def F.mossCtrl_refresh_thr : Fld := ⟨0x50000000 + 0x300000, 48, 8, 96⟩
def F.mossCtrl_dirty_pct : Fld := ⟨0x50000000 + 0x300000, 56, 8, 25⟩
def F.mossCtrl2_jflush_us : Fld := ⟨0x50000000 + 0x300008, 0, 16, 50⟩
def F.mossCtrl2_wl_spread : Fld := ⟨0x50000000 + 0x300008, 16, 8, 200⟩
def F.mossCtrl2_ckpt_mib : Fld := ⟨0x50000000 + 0x300008, 24, 8, 255⟩
def F.mossStatus_mounted : Fld := ⟨0x50000000 + 0x30000C, 0, 1, 0⟩
def F.mossStatus_degraded : Fld := ⟨0x50000000 + 0x30000C, 1, 1, 0⟩
def F.mossStatus_offline : Fld := ⟨0x50000000 + 0x30000C, 2, 1, 0⟩
def F.mossStatus_rebuilding : Fld := ⟨0x50000000 + 0x30000C, 3, 1, 0⟩
def F.mossStatus_sdiscard : Fld := ⟨0x50000000 + 0x30000C, 4, 1, 0⟩
def F.mossStatus_down : Fld := ⟨0x50000000 + 0x30000C, 8, 8, 0⟩
def F.mossStatus_free : Fld := ⟨0x50000000 + 0x30000C, 16, 10, 0⟩
def F.mossWear_min : Fld := ⟨0x50000000 + 0x300010, 0, 32, 0⟩
def F.mossWear_max : Fld := ⟨0x50000000 + 0x300010, 32, 32, 0⟩
def F.mossCache_hits : Fld := ⟨0x50000000 + 0x300018, 0, 32, 0⟩
def F.mossCache_misses : Fld := ⟨0x50000000 + 0x300018, 32, 32, 0⟩
def F.mossProgress_op : Fld := ⟨0x50000000 + 0x300020, 0, 3, 0⟩
def F.mossProgress_done : Fld := ⟨0x50000000 + 0x300020, 8, 10, 0⟩
def F.hostCfg_mode : Fld := ⟨0x50000000 + 0x400000, 0, 2, 0⟩
def F.hostCfg_fec_en : Fld := ⟨0x50000000 + 0x400000, 2, 1, 1⟩
def F.hostCfg_udp_port : Fld := ⟨0x50000000 + 0x400000, 16, 16, 24960⟩
def F.hostPort_exists (p : Nat) : Fld := ⟨0x50000000 + (0x400004 + 0x4 * p), 0, 1, 0⟩
def F.hostPort_up (p : Nat) : Fld := ⟨0x50000000 + (0x400004 + 0x4 * p), 1, 1, 0⟩
def F.hostPort_fec (p : Nat) : Fld := ⟨0x50000000 + (0x400004 + 0x4 * p), 2, 1, 0⟩
def F.hostPort_lpi (p : Nat) : Fld := ⟨0x50000000 + (0x400004 + 0x4 * p), 3, 1, 0⟩
def F.hostPort_drops (p : Nat) : Fld := ⟨0x50000000 + (0x400004 + 0x4 * p), 16, 16, 0⟩
def F.qcpStatus_sessions : Fld := ⟨0x50000000 + 0x500000, 0, 9, 0⟩
def F.qcpStatus_queues : Fld := ⟨0x50000000 + 0x500000, 9, 10, 0⟩
def F.qcpStatus_contexts : Fld := ⟨0x50000000 + 0x500000, 19, 13, 0⟩
def F.qcpCnt_bad_tag : Fld := ⟨0x50000000 + 0x500008, 0, 32, 0⟩
def F.qcpCnt_replays : Fld := ⟨0x50000000 + 0x500008, 32, 16, 0⟩
def F.qcpCnt_hello_refused : Fld := ⟨0x50000000 + 0x500008, 48, 16, 0⟩
def F.qcpBreach_data_max : Fld := ⟨0x50000000 + 0x500010, 0, 8, 16⟩
def F.qcpBreach_replay_max : Fld := ⟨0x50000000 + 0x500010, 8, 8, 64⟩
def F.qcpBreach_cap_max : Fld := ⟨0x50000000 + 0x500010, 16, 16, 1024⟩
def F.qdef_moss : Fld := ⟨0x50000000 + 0x500018, 0, 16, 0⟩
def F.qdef_ctx_max : Fld := ⟨0x50000000 + 0x500018, 16, 12, 256⟩
def F.qdef_share : Fld := ⟨0x50000000 + 0x500018, 28, 8, 16⟩
def F.qdef_cap : Fld := ⟨0x50000000 + 0x500018, 36, 12, 0⟩
def F.quota_moss (i : Nat) : Fld := ⟨0x50000000 + (0x501000 + 0x10 * i), 0, 16, 0⟩
def F.quota_ctx_max (i : Nat) : Fld := ⟨0x50000000 + (0x501000 + 0x10 * i), 16, 12, 256⟩
def F.quota_share (i : Nat) : Fld := ⟨0x50000000 + (0x501000 + 0x10 * i), 28, 8, 16⟩
def F.quota_cap (i : Nat) : Fld := ⟨0x50000000 + (0x501000 + 0x10 * i), 36, 12, 0⟩
def F.use_moss (i : Nat) : Fld := ⟨0x50000000 + (0x501008 + 0x10 * i), 0, 32, 0⟩
def F.use_contexts (i : Nat) : Fld := ⟨0x50000000 + (0x501008 + 0x10 * i), 32, 13, 0⟩
def F.use_frozen (i : Nat) : Fld := ⟨0x50000000 + (0x501008 + 0x10 * i), 45, 1, 0⟩
def F.use_over (i : Nat) : Fld := ⟨0x50000000 + (0x501008 + 0x10 * i), 46, 1, 0⟩
def F.pwrCtrl_haze_s : Fld := ⟨0x50000000 + 0x600000, 0, 16, 900⟩
def F.pwrCtrl_overcast_s : Fld := ⟨0x50000000 + 0x600000, 16, 16, 3600⟩
def F.pwrCtrl_drive_idle_s : Fld := ⟨0x50000000 + 0x600000, 32, 16, 300⟩
def F.pwrStatus_state : Fld := ⟨0x50000000 + 0x600008, 0, 2, 0⟩
def F.pwrStatus_waking : Fld := ⟨0x50000000 + 0x600008, 2, 1, 0⟩
def F.skyCtrl_domain : Fld := ⟨0x50000000 + 0x700000, 0, 8, 0⟩
def F.skyCtrl_tick_en : Fld := ⟨0x50000000 + 0x700000, 8, 1, 1⟩
def F.skyCtrl_tick_out : Fld := ⟨0x50000000 + 0x700000, 9, 1, 1⟩
def F.skyCtrl_slew_ppm : Fld := ⟨0x50000000 + 0x700000, 16, 8, 100⟩
def F.skyCtrl_hold_s : Fld := ⟨0x50000000 + 0x700000, 24, 8, 10⟩
def F.skyStatus_state : Fld := ⟨0x50000000 + 0x700004, 0, 2, 0⟩
def F.skyStatus_valid : Fld := ⟨0x50000000 + 0x700004, 2, 1, 0⟩
def F.skyStatus_source : Fld := ⟨0x50000000 + 0x700004, 3, 2, 0⟩
def F.skyStatus_ptp_port : Fld := ⟨0x50000000 + 0x700004, 5, 3, 0⟩
def F.skyStatus_gm_seen : Fld := ⟨0x50000000 + 0x700004, 8, 1, 0⟩
def F.skyStatus_tick_seen : Fld := ⟨0x50000000 + 0x700004, 9, 1, 0⟩
def F.skyNow_ns : Fld := ⟨0x50000000 + 0x700008, 0, 64, 0⟩
def F.skyFrac_frac : Fld := ⟨0x50000000 + 0x700010, 0, 16, 0⟩
def F.skyOffset_offset : Fld := ⟨0x50000000 + 0x700018, 0, 32, 0⟩
def F.skyOffset_corr : Fld := ⟨0x50000000 + 0x700018, 32, 32, 0⟩
def F.skyGm_clock_id : Fld := ⟨0x50000000 + 0x700020, 0, 64, 0⟩
def F.skyCnt_tick_lost : Fld := ⟨0x50000000 + 0x700028, 0, 16, 0⟩
def F.skyCnt_discarded : Fld := ⟨0x50000000 + 0x700028, 16, 16, 0⟩
def F.skyCnt_disagree : Fld := ⟨0x50000000 + 0x700028, 32, 16, 0⟩
def F.skyCnt_invalid : Fld := ⟨0x50000000 + 0x700028, 48, 16, 0⟩
def F.trust_owned : Fld := ⟨0x50000000 + 0x800000, 0, 1, 0⟩
def F.trust_bootstrap : Fld := ⟨0x50000000 + 0x800000, 1, 1, 0⟩
def F.trust_window_open : Fld := ⟨0x50000000 + 0x800000, 2, 1, 0⟩
def F.trust_window_held : Fld := ⟨0x50000000 + 0x800000, 3, 1, 0⟩
def F.trust_holder : Fld := ⟨0x50000000 + 0x800000, 4, 9, 0⟩
def F.trust_seal_open : Fld := ⟨0x50000000 + 0x800000, 13, 1, 0⟩
def F.trust_seal_presence : Fld := ⟨0x50000000 + 0x800000, 14, 1, 0⟩
def F.trust_seal_exhausted : Fld := ⟨0x50000000 + 0x800000, 15, 1, 0⟩
def F.trust_debug_unlocked : Fld := ⟨0x50000000 + 0x800000, 16, 1, 0⟩
def F.trust_member : Fld := ⟨0x50000000 + 0x800000, 17, 1, 0⟩
def F.trust_disposed : Fld := ⟨0x50000000 + 0x800000, 18, 1, 0⟩
def F.trustWindow_remaining : Fld := ⟨0x50000000 + 0x800004, 0, 17, 0⟩
def F.otp_rollback : Fld := ⟨0x50000000 + 0x800008, 0, 11, 0⟩
def F.otp_seals : Fld := ⟨0x50000000 + 0x800008, 11, 11, 0⟩
def F.otp_epoch : Fld := ⟨0x50000000 + 0x800008, 22, 6, 0⟩
def F.otp_revoked : Fld := ⟨0x50000000 + 0x800008, 28, 4, 0⟩
def F.group_seat : Fld := ⟨0x50000000 + 0x800010, 0, 5, 0⟩
def F.group_k : Fld := ⟨0x50000000 + 0x800010, 5, 5, 0⟩
def F.group_n : Fld := ⟨0x50000000 + 0x800010, 10, 5, 0⟩
def F.win_en (i : Nat) : Fld := ⟨0x50000000 + (0x900000 + 0x10 * i), 0, 1, 0⟩
def F.win_rd (i : Nat) : Fld := ⟨0x50000000 + (0x900000 + 0x10 * i), 1, 1, 0⟩
def F.win_wr (i : Nat) : Fld := ⟨0x50000000 + (0x900000 + 0x10 * i), 2, 1, 0⟩
def F.win_space (i : Nat) : Fld := ⟨0x50000000 + (0x900000 + 0x10 * i), 3, 1, 0⟩
def F.win_base (i : Nat) : Fld := ⟨0x50000000 + (0x900000 + 0x10 * i), 12, 52, 0⟩
def F.win_end (i : Nat) : Fld := ⟨0x50000000 + (0x900000 + 0x10 * i), 76, 52, 0⟩
def F.mst_frozen (i : Nat) : Fld := ⟨0x50000000 + (0x920000 + 0x4 * i), 0, 1, 0⟩
def F.mst_violations (i : Nat) : Fld := ⟨0x50000000 + (0x920000 + 0x4 * i), 8, 8, 0⟩
def F.straps_hmode : Fld := ⟨0x50000000 + 0xA00000, 0, 2, 0⟩
def F.straps_cal_mode : Fld := ⟨0x50000000 + 0xA00000, 2, 1, 0⟩
def F.straps_test_n : Fld := ⟨0x50000000 + 0xA00000, 3, 1, 0⟩
def F.bootProgress_step : Fld := ⟨0x50000000 + 0xA00004, 0, 4, 0⟩
def F.bootProgress_open : Fld := ⟨0x50000000 + 0xA00004, 4, 8, 0⟩
def F.bootProgress_ms : Fld := ⟨0x50000000 + 0xA00004, 16, 16, 0⟩
def F.lichenCtrl_freeze : Fld := ⟨0x50000000 + 0xB00000, 0, 1, 0⟩
def F.lichenCtrl_rearm : Fld := ⟨0x50000000 + 0xB00000, 1, 1, 0⟩
def F.lichenCtrl_frozen : Fld := ⟨0x50000000 + 0xB00000, 2, 1, 0⟩
def F.lichenCtrl_saved : Fld := ⟨0x50000000 + 0xB00000, 3, 1, 0⟩
def F.lichenCtrl_f_sky : Fld := ⟨0x50000000 + 0xB00000, 4, 1, 0⟩
def F.lichenFreeze_f : Fld := ⟨0x50000000 + 0xB00008, 0, 64, 0⟩
def F.lichenTrig_event (i : Nat) : Fld := ⟨0x50000000 + (0xB00010 + 0x4 * i), 0, 10, 0⟩
def F.lichenTrig_en (i : Nat) : Fld := ⟨0x50000000 + (0xB00010 + 0x4 * i), 10, 1, 0⟩
def F.lichenSaved_copy : Fld := ⟨0x50000000 + 0xB00030, 0, 32, 0⟩
def F.lichenSaved_n0 : Fld := ⟨0x50000000 + 0xB00030, 32, 16, 0⟩
def F.lichenSaved_n1 : Fld := ⟨0x50000000 + 0xB00030, 48, 16, 0⟩
def F.svcRetired_retired : Fld := ⟨0x50000000 + 0xC00000, 0, 24, 0⟩
def F.thermCtrl_therm_c : Fld := ⟨0x50000000 + 0xD00000, 0, 8, 100⟩
def F.thermCtrl_hyst : Fld := ⟨0x50000000 + 0xD00000, 8, 4, 5⟩
def F.thermStatus_tmax : Fld := ⟨0x50000000 + 0xD00004, 0, 16, 0⟩
def F.thermStatus_therm : Fld := ⟨0x50000000 + 0xD00004, 16, 1, 0⟩
def F.thermStatus_trips : Fld := ⟨0x50000000 + 0xD00004, 24, 8, 0⟩
def F.thermLife_equiv_h : Fld := ⟨0x50000000 + 0xD00008, 0, 32, 0⟩
def F.thermLife_hours : Fld := ⟨0x50000000 + 0xD00008, 32, 32, 0⟩
def F.clk_dref0_ok : Fld := ⟨0x50000000 + 0xE00000, 0, 1, 0⟩
def F.clk_dref1_ok : Fld := ⟨0x50000000 + 0xE00000, 1, 1, 0⟩
def F.clk_href0_ok : Fld := ⟨0x50000000 + 0xE00000, 2, 1, 0⟩
def F.clk_href1_ok : Fld := ⟨0x50000000 + 0xE00000, 3, 1, 0⟩
def F.clk_brownout : Fld := ⟨0x50000000 + 0xE00000, 4, 1, 0⟩
def F.evCfg_en (i : Nat) : Fld := ⟨0x50000000 + (0xF00000 + 0x4 * i), 0, 1, (if eventDefined i then 1 else 0)⟩
def F.evCfg_latch (i : Nat) : Fld := ⟨0x50000000 + (0xF00000 + 0x4 * i), 1, 1, 0⟩
def F.evCfg_host (i : Nat) : Fld := ⟨0x50000000 + (0xF00000 + 0x4 * i), 2, 1, (if eventRoute i .host then 1 else 0)⟩
def F.evCfg_alert (i : Nat) : Fld := ⟨0x50000000 + (0xF00000 + 0x4 * i), 3, 1, (if eventRoute i .alert then 1 else 0)⟩
def F.evCfg_lichen (i : Nat) : Fld := ⟨0x50000000 + (0xF00000 + 0x4 * i), 4, 1, (if eventRoute i .lichen then 1 else 0)⟩
def F.evCnt_count (i : Nat) : Fld := ⟨0x50000000 + (0xF01000 + 0x4 * i), 0, 32, 0⟩
def F.evCtrl_gap_us : Fld := ⟨0x50000000 + 0xF02000, 0, 16, 1000⟩
def F.evCtrl_resend_ms : Fld := ⟨0x50000000 + 0xF02000, 16, 16, 1000⟩
def F.evSeq_seq : Fld := ⟨0x50000000 + 0xF02008, 0, 64, 1⟩
def F.rcvCtrl_slot : Fld := ⟨0x50000000 + 0x1000000, 0, 1, 0⟩
def F.rcvCtrl_erase : Fld := ⟨0x50000000 + 0x1000000, 1, 1, 0⟩
def F.rcvCtrl_busy : Fld := ⟨0x50000000 + 0x1000000, 2, 1, 0⟩
def F.rcvCtrl_addr : Fld := ⟨0x50000000 + 0x1000000, 8, 24, 0⟩
def F.rcvData_data : Fld := ⟨0x50000000 + 0x1000004, 0, 32, 0⟩
def F.i2c_refused : Fld := ⟨0x50000000 + 0x1100000, 0, 16, 0⟩

/-- Access codes of register tables (00_scope.md). No register of the spec has an RWP field. -/
inductive Access where
  | ro | rw | w1c | wo | rc
deriving DecidableEq, Repr

/-- What a written value is stored as, where the register's table says so. -/
inductive Stored where
  | any
  | clamp (lo hi : Nat)
  | zeroAs (v : Nat)
  | atLeast (f : Fld) (hi : Nat)
deriving DecidableEq, Repr

/-- A field with its access code and what a written value is stored as. -/
structure FieldDef where
  fld : Fld
  access : Access
  stored : Stored
deriving DecidableEq, Repr

/-- A register or an array of registers of a block: offset of the first, spacing, number of them, words of one,
and the fields of element `j`. A table entry of the manual, no part of the state. -/
structure RegDef where
  off : Nat
  stride : Nat
  count : Nat
  words : Nat
  fields : Nat → List FieldDef

/-- Registers of a `unit` block in offset order (R574). -/
def unitRegs (u : Nat) : List RegDef := [
  ⟨0x0, 0x4, 1, 1, fun _ => [⟨F.rsRatio_r_hat u, .ro, .any⟩]⟩,
  ⟨0x4, 0x4, 1, 1, fun _ => [⟨F.rsGaps_gaps u, .rc, .any⟩, ⟨F.rsGaps_lost u, .rc, .any⟩]⟩,
  ⟨0x100, 0x4, 1, 1, fun _ => [⟨F.tim_offset u, .rw, .any⟩, ⟨F.tim_valid u, .rw, .any⟩, ⟨F.tim_k_off u, .rw, .any⟩, ⟨F.tim_coarse_n u, .rw, .clamp 1 7⟩]⟩,
  ⟨0x104, 0x4, 1, 1, fun _ => [⟨F.vtim_offset u, .rw, .any⟩, ⟨F.vtim_valid u, .rw, .any⟩, ⟨F.vtim_k_off u, .rw, .any⟩, ⟨F.vtim_coarse_n u, .rw, .clamp 1 7⟩]⟩,
  ⟨0x200, 0x4, 1, 1, fun _ => [⟨F.agc_ko u, .rw, .any⟩, ⟨F.agc_kg u, .rw, .any⟩, ⟨F.agc_ka u, .rw, .any⟩, ⟨F.agc_trk_add u, .rw, .any⟩, ⟨F.agc_hold_len u, .rw, .clamp 1 65535⟩]⟩,
  ⟨0x204, 0x4, 1, 1, fun _ => [⟨F.agcx_target u, .rw, .any⟩, ⟨F.agcx_acq_len u, .rw, .any⟩, ⟨F.agcx_reacq_len u, .rw, .any⟩]⟩,
  ⟨0x208, 0x8, 1, 2, fun _ => [⟨F.lvl_o u, .ro, .any⟩, ⟨F.lvl_g u, .ro, .any⟩, ⟨F.lvl_a u, .ro, .any⟩, ⟨F.lvl_held u, .ro, .any⟩, ⟨F.lvl_acquiring u, .ro, .any⟩]⟩,
  ⟨0x300, 0x4, 1, 1, fun _ => [⟨F.dfd_thr_drop u, .rw, .any⟩, ⟨F.dfd_thr_rise u, .rw, .any⟩, ⟨F.dfd_env_len u, .rw, .clamp 8 63⟩, ⟨F.dfd_pad u, .rw, .any⟩, ⟨F.dfd_srv_en u, .rw, .any⟩]⟩,
  ⟨0x304, 0x4, 1, 1, fun _ => [⟨F.dfdcnt_spans u, .rc, .any⟩, ⟨F.dfdcnt_expiries u, .rc, .any⟩]⟩,
  ⟨0x400, 0x4, 1, 1, fun _ => [⟨F.eqc_set u, .rw, .any⟩, ⟨F.eqc_adapt u, .rw, .any⟩, ⟨F.eqc_fix_centre u, .rw, .any⟩, ⟨F.eqc_ke u, .rw, .any⟩, ⟨F.eqc_kx u, .rw, .any⟩]⟩,
  ⟨0x404, 0x4, 15, 1, fun j => [⟨F.eqa_coef u j, .rw, .any⟩]⟩,
  ⟨0x440, 0x4, 15, 1, fun j => [⟨F.eqb_coef u j, .rw, .any⟩]⟩,
  ⟨0x47C, 0x4, 5, 1, fun j => [⟨F.xla_coef u j, .rw, .any⟩]⟩,
  ⟨0x490, 0x4, 5, 1, fun j => [⟨F.xha_coef u j, .rw, .any⟩]⟩,
  ⟨0x4A4, 0x4, 5, 1, fun j => [⟨F.xlb_coef u j, .rw, .any⟩]⟩,
  ⟨0x4B8, 0x4, 5, 1, fun j => [⟨F.xhb_coef u j, .rw, .any⟩]⟩,
  ⟨0x600, 0x4, 1, 1, fun _ => [⟨F.sync_report u, .ro, .any⟩, ⟨F.sync_score_a u, .ro, .any⟩, ⟨F.sync_score_b u, .ro, .any⟩, ⟨F.sync_disp u, .ro, .any⟩]⟩,
  ⟨0x604, 0x4, 1, 1, fun _ => [⟨F.syncstat_fallbacks u, .rc, .any⟩, ⟨F.syncstat_pairs u, .rc, .any⟩]⟩,
  ⟨0x700, 0x8, 1, 2, fun _ => [⟨F.decCnt_first_ok u, .rc, .any⟩, ⟨F.decCnt_retried u, .rc, .any⟩, ⟨F.decCnt_lost u, .rc, .any⟩, ⟨F.decCnt_overruns u, .rc, .any⟩, ⟨F.decCnt_conflicts u, .rc, .any⟩]⟩,
  ⟨0x708, 0x8, 1, 2, fun _ => [⟨F.decLast_verdict u, .ro, .any⟩]⟩]

/-- Registers of a `srv` block in offset order (R574). -/
def srvRegs (d : Nat) : List RegDef := [
  ⟨0x0, 0x4, 1, 1, fun _ => [⟨F.srvReq_op d, .wo, .any⟩, ⟨F.srvReq_layer d, .wo, .any⟩, ⟨F.srvReq_band d, .wo, .any⟩, ⟨F.srvReq_k d, .wo, .any⟩]⟩,
  ⟨0x4, 0x4, 1, 1, fun _ => [⟨F.srvCtrl_tilt_en d, .rw, .any⟩, ⟨F.srvCtrl_sled_en d, .rw, .any⟩, ⟨F.srvCtrl_fe_pol d, .rw, .any⟩, ⟨F.srvCtrl_pp_pol d, .rw, .any⟩, ⟨F.srvCtrl_commit d, .wo, .any⟩, ⟨F.srvCtrl_pred_k d, .rw, .any⟩, ⟨F.srvCtrl_reacq_max d, .rw, .any⟩, ⟨F.srvCtrl_ramp d, .rw, .clamp 1 255⟩]⟩,
  ⟨0x8, 0x4, 1, 1, fun _ => [⟨F.srvStatus_fstate d, .ro, .any⟩, ⟨F.srvStatus_tstate d, .ro, .any⟩, ⟨F.srvStatus_layer d, .ro, .any⟩, ⟨F.srvStatus_layer_ok d, .ro, .any⟩, ⟨F.srvStatus_wi d, .ro, .any⟩, ⟨F.srvStatus_req_busy d, .ro, .any⟩, ⟨F.srvStatus_req_queued d, .ro, .any⟩, ⟨F.srvStatus_req_refused d, .w1c, .any⟩, ⟨F.srvStatus_pass d, .ro, .any⟩, ⟨F.srvStatus_cal_ok d, .ro, .any⟩]⟩,
  ⟨0x10, 0x8, 1, 2, fun _ => [⟨F.srvSense_fe_gain d, .rw, .any⟩, ⟨F.srvSense_fe_off d, .rw, .any⟩, ⟨F.srvSense_pp_amp d, .rw, .any⟩, ⟨F.srvSense_pp_off d, .rw, .any⟩]⟩,
  ⟨0x18, 0x8, 1, 2, fun _ => [⟨F.srvQoff_q_off d, .ro, .any⟩, ⟨F.srvQoff_tilt_off d, .ro, .any⟩]⟩,
  ⟨0x20, 0x8, 1, 2, fun _ => [⟨F.srvMech_pp_nm d, .rw, .any⟩, ⟨F.srvMech_tilt_gain d, .rw, .any⟩, ⟨F.srvMech_trk_dc d, .rw, .any⟩, ⟨F.srvMech_sled_pitch d, .rw, .any⟩]⟩,
  ⟨0x28, 0x8, 1, 2, fun _ => [⟨F.srvAcq_sweep_max d, .rw, .any⟩, ⟨F.srvAcq_sweep_ms d, .rw, .any⟩, ⟨F.srvAcq_sum_acq d, .rw, .any⟩, ⟨F.srvAcq_f_settle d, .rw, .any⟩, ⟨F.srvAcq_t_settle d, .rw, .any⟩, ⟨F.srvAcq_v_cap d, .rw, .any⟩]⟩,
  ⟨0x30, 0x8, 1, 2, fun _ => [⟨F.srvGuard_def_frac d, .rw, .any⟩, ⟨F.srvGuard_loss_frac d, .rw, .any⟩, ⟨F.srvGuard_loss_n d, .rw, .any⟩, ⟨F.srvGuard_def_max d, .rw, .any⟩, ⟨F.srvGuard_wi_trk d, .rw, .any⟩, ⟨F.srvGuard_wi_foc d, .rw, .any⟩, ⟨F.srvGuard_wi_n d, .rw, .clamp 1 7⟩, ⟨F.srvGuard_off_trk d, .rw, .any⟩]⟩,
  ⟨0x38, 0x8, 1, 2, fun _ => [⟨F.srvSeek_fine_max d, .rw, .any⟩, ⟨F.srvSeek_a_max d, .rw, .any⟩, ⟨F.srvSeek_v_max d, .rw, .any⟩, ⟨F.srvSeek_kv d, .rw, .any⟩, ⟨F.srvSeek_sled_db d, .rw, .any⟩]⟩,
  ⟨0x40, 0x8, 1, 2, fun _ => [⟨F.srvJump_kick d, .rw, .any⟩, ⟨F.srvJump_kick_len d, .rw, .any⟩, ⟨F.srvJump_brake_len d, .rw, .any⟩, ⟨F.srvJump_brake_lvl d, .rw, .any⟩, ⟨F.srvJump_jump_to d, .rw, .any⟩]⟩,
  ⟨0x48, 0x8, 1, 2, fun _ => [⟨F.srvCal_f_cal_f d, .rw, .any⟩, ⟨F.srvCal_f_cal_t d, .rw, .any⟩, ⟨F.srvCal_cal_amp d, .rw, .any⟩, ⟨F.srvCal_cal_trk d, .rw, .any⟩]⟩,
  ⟨0x1000, 0x400, 4, 1, fun j => [⟨F.loopCfg_n_sec d j, .rw, .clamp 0 4⟩, ⟨F.loopCfg_o3_sec d j, .rw, .any⟩, ⟨F.loopCfg_o3 d j, .rw, .any⟩, ⟨F.loopCfg_in_shift d j, .rw, .any⟩, ⟨F.loopCfg_int_en d j, .rw, .any⟩]⟩,
  ⟨0x1008, 0x400, 4, 2, fun j => [⟨F.loopK_gain d j, .rw, .any⟩, ⟨F.loopK_ki d j, .rw, .any⟩]⟩,
  ⟨0x1010, 0x400, 4, 2, fun j => [⟨F.loopLim_int_max d j, .rw, .any⟩, ⟨F.loopLim_out_max d j, .rw, .any⟩]⟩,
  ⟨0x1018, 4, 32, 1, fun j => if j % 8 = 7 then [] else [⟨F.loopSec_coef d 0 (j / 8) (j % 8), .rw, .any⟩]⟩,
  ⟨0x1418, 4, 32, 1, fun j => if j % 8 = 7 then [] else [⟨F.loopSec_coef d 1 (j / 8) (j % 8), .rw, .any⟩]⟩,
  ⟨0x1818, 4, 32, 1, fun j => if j % 8 = 7 then [] else [⟨F.loopSec_coef d 2 (j / 8) (j % 8), .rw, .any⟩]⟩,
  ⟨0x1C18, 4, 32, 1, fun j => if j % 8 = 7 then [] else [⟨F.loopSec_coef d 3 (j / 8) (j % 8), .rw, .any⟩]⟩,
  ⟨0x1098, 0x400, 4, 1, fun j => if j = 1 ∨ j = 3 then [⟨F.loopFf_kff d j, .rw, .any⟩] else []⟩,
  ⟨0x2000, 0x4, 1, 1, fun _ => [⟨F.traceCtrl_en d, .rw, .any⟩, ⟨F.traceCtrl_freeze d, .wo, .any⟩, ⟨F.traceCtrl_rearm d, .wo, .any⟩, ⟨F.traceCtrl_frozen d, .ro, .any⟩, ⟨F.traceCtrl_ev_mask d, .rw, .any⟩, ⟨F.traceCtrl_index d, .ro, .any⟩]⟩,
  ⟨0x2008, 0x8, 1, 2, fun _ => [⟨F.traceBase_base d, .rw, .any⟩]⟩,
  ⟨0x2010, 0x8, 1, 2, fun _ => [⟨F.traceLast_t d, .ro, .any⟩]⟩,
  ⟨0x3000, 0x4, 1, 1, fun _ => [⟨F.btlCtrl_kp d, .rw, .any⟩, ⟨F.btlCtrl_ki d, .rw, .any⟩, ⟨F.btlCtrl_kp_acq d, .rw, .any⟩, ⟨F.btlCtrl_ki_acq d, .rw, .any⟩, ⟨F.btlCtrl_wob_inv d, .rw, .any⟩, ⟨F.btlCtrl_wob_def d, .rw, .clamp 1 100⟩]⟩,
  ⟨0x3004, 0x4, 1, 1, fun _ => [⟨F.btlStatus_state d, .ro, .any⟩, ⟨F.btlStatus_zone d, .ro, .any⟩, ⟨F.btlStatus_band d, .ro, .any⟩]⟩,
  ⟨0x3008, 0x4, 1, 1, fun _ => [⟨F.btlRate_rate d, .ro, .any⟩]⟩,
  ⟨0x300C, 0x4, 1, 1, fun _ => [⟨F.btlMarks_disagree d, .rc, .any⟩, ⟨F.btlMarks_reseats d, .rc, .any⟩, ⟨F.btlMarks_lost d, .rc, .any⟩]⟩]

/-- Registers of a `spin` block in offset order (R574). -/
def spinRegs (d : Nat) : List RegDef := [
  ⟨0x0, 0x4, 1, 1, fun _ => [⟨F.spinReq_op d, .wo, .any⟩, ⟨F.spinReq_target d, .wo, .clamp 1000 12000⟩]⟩,
  ⟨0x4, 0x4, 1, 1, fun _ => [⟨F.spinStatus_state d, .ro, .any⟩, ⟨F.spinStatus_lock d, .ro, .any⟩, ⟨F.spinStatus_place d, .ro, .any⟩, ⟨F.spinStatus_duty_limited d, .ro, .any⟩, ⟨F.spinStatus_req_waiting d, .ro, .any⟩, ⟨F.spinStatus_req_refused d, .w1c, .any⟩, ⟨F.spinStatus_attempts d, .ro, .any⟩, ⟨F.spinStatus_pred_run d, .ro, .any⟩, ⟨F.spinStatus_target d, .ro, .any⟩]⟩,
  ⟨0x8, 0x8, 1, 2, fun _ => [⟨F.spinMeas_speed d, .ro, .any⟩, ⟨F.spinMeas_emf d, .ro, .any⟩, ⟨F.spinMeas_vbus d, .ro, .any⟩, ⟨F.spinMeas_iq d, .ro, .any⟩]⟩,
  ⟨0x10, 0x8, 1, 2, fun _ => [⟨F.spinMotor_r_s d, .rw, .any⟩, ⟨F.spinMotor_l_s d, .rw, .any⟩, ⟨F.spinMotor_ke d, .rw, .any⟩, ⟨F.spinMotor_pole_pairs d, .ro, .any⟩, ⟨F.spinMotor_dir_inv d, .rw, .any⟩]⟩,
  ⟨0x18, 0x8, 1, 2, fun _ => [⟨F.spinCur_kp_i d, .rw, .any⟩, ⟨F.spinCur_ki_i d, .rw, .any⟩]⟩,
  ⟨0x20, 0x8, 1, 2, fun _ => [⟨F.spinSpd_kp_w d, .rw, .any⟩, ⟨F.spinSpd_ki_w d, .rw, .any⟩]⟩,
  ⟨0x28, 0x8, 1, 2, fun _ => [⟨F.spinObs_k_i d, .rw, .any⟩, ⟨F.spinObs_k_e d, .rw, .any⟩, ⟨F.spinObs_k_w d, .rw, .any⟩, ⟨F.spinObs_k_th d, .rw, .any⟩]⟩,
  ⟨0x30, 0x8, 1, 2, fun _ => [⟨F.spinLim_i_max d, .rw, .any⟩, ⟨F.spinLim_i_brake d, .rw, .any⟩, ⟨F.spinLim_acc_max d, .rw, .any⟩, ⟨F.spinLim_dec_max d, .rw, .any⟩]⟩,
  ⟨0x38, 0x8, 1, 2, fun _ => [⟨F.spinSeq_stop_spd d, .rw, .any⟩, ⟨F.spinSeq_pulse_spd d, .rw, .any⟩, ⟨F.spinSeq_hand_spd d, .rw, .any⟩, ⟨F.spinSeq_brake_spd d, .rw, .any⟩]⟩,
  ⟨0x40, 0x8, 1, 2, fun _ => [⟨F.spinStart_i_align d, .rw, .any⟩, ⟨F.spinStart_align_ms d, .rw, .any⟩, ⟨F.spinStart_ramp_ms d, .rw, .any⟩, ⟨F.spinStart_i_ramp d, .rw, .any⟩, ⟨F.spinStart_ramp_acc d, .rw, .any⟩, ⟨F.spinStart_start_tries d, .rw, .any⟩]⟩,
  ⟨0x48, 0x8, 1, 2, fun _ => [⟨F.spinLos_los_n d, .rw, .clamp 1 15⟩, ⟨F.spinLos_emf_tol d, .rw, .any⟩, ⟨F.spinLos_acc_fac d, .rw, .clamp 1 7⟩, ⟨F.spinLos_pred_max d, .rw, .any⟩, ⟨F.spinLos_catch_ok d, .rw, .clamp 1 63⟩, ⟨F.spinLos_recatch_n d, .rw, .any⟩, ⟨F.spinLos_recatch_ms d, .rw, .any⟩, ⟨F.spinLos_sense_ms d, .rw, .clamp 1 255⟩, ⟨F.spinLos_catch_ms d, .rw, .any⟩, ⟨F.spinLos_brake_chk d, .rw, .any⟩]⟩,
  ⟨0x50, 0x4, 1, 1, fun _ => [⟨F.spinDlim_duty_lim d, .rw, .clamp 32768 65535⟩, ⟨F.spinDlim_v_reg d, .rw, .any⟩]⟩,
  ⟨0x58, 0x8, 1, 2, fun _ => [⟨F.spinCnt_losses d, .rc, .any⟩, ⟨F.spinCnt_recatches d, .rc, .any⟩, ⟨F.spinCnt_brakes d, .rc, .any⟩, ⟨F.spinCnt_predictions d, .rc, .any⟩]⟩]

/-- Registers of a `axes` block in offset order (R574). -/
def axesRegs (d : Nat) : List RegDef := [
  ⟨0x0, 0x100, 2, 2, fun j => [⟨F.axisReq_op d j, .wo, .any⟩, ⟨F.axisReq_start d j, .wo, .any⟩, ⟨F.axisReq_target d j, .wo, .any⟩]⟩,
  ⟨0x8, 0x100, 2, 2, fun j => [⟨F.axisStatus_pos d j, .ro, .any⟩, ⟨F.axisStatus_state d j, .ro, .any⟩, ⟨F.axisStatus_level d j, .ro, .any⟩, ⟨F.axisStatus_homed d j, .ro, .any⟩, ⟨F.axisStatus_reduced d j, .ro, .any⟩, ⟨F.axisStatus_req_waiting d j, .ro, .any⟩, ⟨F.axisStatus_req_refused d j, .w1c, .any⟩]⟩,
  ⟨0x10, 0x100, 2, 2, fun j => [⟨F.axisProf_a d j, .rw, .clamp 1 65535⟩, ⟨F.axisProf_d d j, .rw, .clamp 1 65535⟩, ⟨F.axisProf_v_max d j, .rw, .clamp 1 65535⟩, ⟨F.axisProf_d_es d j, .rw, .any⟩]⟩,
  ⟨0x18, 0x100, 2, 2, fun j => [⟨F.axisRes_th1 d j, .rw, .any⟩, ⟨F.axisRes_th2 d j, .rw, .any⟩, ⟨F.axisRes_th3 d j, .rw, .any⟩, ⟨F.axisRes_th4 d j, .rw, .any⟩]⟩,
  ⟨0x20, 0x100, 2, 2, fun j => [⟨F.axisCur_i_run d j, .rw, .any⟩, ⟨F.axisCur_ss_pct d j, .rw, .any⟩, ⟨F.axisCur_hyst d j, .rw, .any⟩, ⟨F.axisCur_ss_delay d j, .rw, .any⟩, ⟨F.axisCur_home_pct d j, .rw, .any⟩]⟩,
  ⟨0x28, 0x100, 2, 2, fun j => [⟨F.axisHome_home_len d j, .rw, .any⟩, ⟨F.axisHome_home_spd d j, .rw, .any⟩, ⟨F.axisHome_i_err d j, .rw, .any⟩]⟩,
  ⟨0x30, 0x4, 1, 1, fun _ => [⟨F.sledPark_pos d, .rw, .any⟩]⟩]

/-- Registers of a `ccom` block in offset order (R574). -/
def ccomRegs (d : Nat) : List RegDef := [
  ⟨0x0, 0x4, 1, 1, fun _ => [⟨F.hlinkCtrl_enable d, .rw, .any⟩, ⟨F.hlinkCtrl_retrain d, .wo, .any⟩, ⟨F.hlinkCtrl_lane_disable d, .rw, .any⟩, ⟨F.hlinkCtrl_srv_miss_max d, .rw, .clamp 1 7⟩, ⟨F.hlinkCtrl_rt_max d, .rw, .clamp 0 166⟩]⟩,
  ⟨0x4, 0x4, 1, 1, fun _ => [⟨F.hlinkStatus_state d, .ro, .any⟩, ⟨F.hlinkStatus_burn_ok d, .ro, .any⟩, ⟨F.hlinkStatus_lane_up d, .ro, .any⟩, ⟨F.hlinkStatus_beam_missing d, .ro, .any⟩, ⟨F.hlinkStatus_srv_lane d, .ro, .any⟩, ⟨F.hlinkStatus_rt d, .ro, .any⟩, ⟨F.hlinkStatus_passes d, .ro, .any⟩]⟩,
  ⟨0x8, 0x4, 4, 1, fun j => [⟨F.hlinkLane_discards d j, .rc, .any⟩, ⟨F.hlinkLane_losses d j, .rc, .any⟩, ⟨F.hlinkLane_cmd_resends d j, .rc, .any⟩]⟩,
  ⟨0x18, 0x4, 1, 1, fun _ => [⟨F.hlinkSrv_lost_total d, .rc, .any⟩, ⟨F.hlinkSrv_lost_run d, .ro, .any⟩, ⟨F.hlinkSrv_servo_loss d, .w1c, .any⟩, ⟨F.hlinkSrv_train_fail d, .rc, .any⟩]⟩,
  ⟨0x20, 0x8, 4, 2, fun j => [⟨F.hlinkTelem_value d j, .ro, .any⟩, ⟨F.hlinkTelem_age d j, .ro, .any⟩]⟩,
  ⟨0x1000, 0x4, 1, 1, fun _ => [⟨F.jd_sync_min d, .rw, .clamp 0 48⟩, ⟨F.jd_sync_win d, .rw, .any⟩, ⟨F.jd_tol d, .rw, .any⟩, ⟨F.jd_acq_win d, .rw, .any⟩, ⟨F.jd_nbr_llr_scale d, .rw, .any⟩]⟩,
  ⟨0x1008, 0x8, 1, 2, fun _ => [⟨F.jdt_t0 d, .rw, .any⟩, ⟨F.jdt_t1 d, .rw, .any⟩, ⟨F.jdt_t2 d, .rw, .any⟩, ⟨F.jdt_t3 d, .rw, .any⟩, ⟨F.jdt_t4 d, .rw, .any⟩, ⟨F.jdt_lvl_unit d, .rw, .any⟩, ⟨F.jdt_flag_min d, .rw, .any⟩]⟩,
  ⟨0x2000, 0x4, 7, 1, fun j => [⟨F.retryRung_converged d (j + 1), .rc, .any⟩, ⟨F.retryRung_tried d (j + 1), .rc, .any⟩]⟩,
  ⟨0x3000, 0x4, 1, 1, fun _ => [⟨F.burnCtrl_rec_thr d, .rw, .any⟩, ⟨F.burnCtrl_abandon_max d, .rw, .clamp 1 7⟩, ⟨F.burnCtrl_lead d, .rw, .clamp 4 255⟩]⟩,
  ⟨0x3004, 0x4, 1, 1, fun _ => [⟨F.burnStatus_state d, .ro, .any⟩, ⟨F.burnStatus_queued d, .ro, .any⟩, ⟨F.burnStatus_open d, .ro, .any⟩, ⟨F.burnStatus_rewrites d, .ro, .any⟩, ⟨F.burnStatus_position d, .ro, .any⟩]⟩,
  ⟨0x3008, 0x4, 8, 1, fun j => [⟨F.burnNext_psa d j, .rw, .any⟩]⟩,
  ⟨0x3028, 0x8, 1, 2, fun _ => [⟨F.burnQ_desc d, .wo, .any⟩]⟩,
  ⟨0x3030, 0x8, 1, 2, fun _ => [⟨F.burnCnt_complete d, .rc, .any⟩, ⟨F.burnCnt_spoiled d, .rc, .any⟩, ⟨F.burnCnt_rewrites d, .rc, .any⟩, ⟨F.burnCnt_terminators d, .rc, .any⟩, ⟨F.burnCnt_opc_fail d, .rc, .any⟩]⟩,
  ⟨0x4000, 0x8, 4, 2, fun j => [⟨F.opcLast_p_opt d j, .ro, .any⟩, ⟨F.opcLast_layer d j, .ro, .any⟩, ⟨F.opcLast_side d j, .ro, .any⟩, ⟨F.opcLast_valid d j, .ro, .any⟩, ⟨F.opcLast_test_psa d j, .ro, .any⟩]⟩,
  ⟨0x5000, 0x8, 1, 2, fun _ => [⟨F.discTray_open_pos d, .rw, .any⟩, ⟨F.discTray_clamp_pos d, .rw, .any⟩]⟩,
  ⟨0x5008, 0x4, 1, 1, fun _ => [⟨F.discStatus_state d, .ro, .any⟩, ⟨F.discStatus_side d, .ro, .any⟩, ⟨F.discStatus_foreign d, .ro, .any⟩]⟩,
  ⟨0x5010, 0x8, 1, 2, fun _ => [⟨F.discId_id d, .ro, .any⟩]⟩,
  ⟨0x6000, 0x8, 1, 2, fun _ => [⟨F.hcal_ld_trim d, .ro, .any⟩, ⟨F.hcal_q_trim d, .ro, .any⟩, ⟨F.hcal_ok d, .ro, .any⟩]⟩]

/-- Registers of a `rcom` block in offset order (R574). -/
def rcomRegs (r : Nat) : List RegDef := [
  ⟨0x0, 0x4, 1, 1, fun _ => [⟨F.spinup_spinup_max r, .rw, .clamp 0 6⟩, ⟨F.spinup_spinup_active r, .ro, .any⟩, ⟨F.spinup_spinup_waiting r, .ro, .any⟩]⟩,
  ⟨0x1000, 0x4, 1, 1, fun _ => [⟨F.decCtrl_iter_first r, .rw, .clamp 1 48⟩, ⟨F.decCtrl_iter_retry r, .rw, .atLeast (F.decCtrl_iter_first r) 48⟩, ⟨F.decCtrl_beta r, .rw, .any⟩, ⟨F.decCtrl_read_corr_max r, .rw, .any⟩]⟩,
  ⟨0x1004, 0x4, 1, 1, fun _ => [⟨F.decRetry_ceiling r, .rw, .any⟩, ⟨F.decRetry_r4_step r, .rw, .clamp 1 7⟩, ⟨F.decRetry_r5_step r, .rw, .clamp 1 255⟩, ⟨F.decRetry_budget_ms r, .rw, .any⟩]⟩,
  ⟨0x1008, 0x4, 1, 1, fun _ => [⟨F.decVerify_v_iter r, .ro, .any⟩, ⟨F.decVerify_v_synd3_max r, .rw, .any⟩, ⟨F.decVerify_v_corr_max r, .rw, .any⟩]⟩,
  ⟨0x100C, 0x4, 1, 1, fun _ => [⟨F.decPool_busy r, .ro, .any⟩, ⟨F.decPool_parked r, .ro, .any⟩, ⟨F.decPool_verify_wait r, .rc, .any⟩]⟩,
  ⟨0x2000, 0x4, 1, 1, fun _ => [⟨F.opcCtrl_step r, .rw, .clamp 1 10⟩, ⟨F.opcCtrl_beta_target r, .rw, .any⟩, ⟨F.opcCtrl_gamma r, .rw, .any⟩, ⟨F.opcCtrl_tries r, .rw, .clamp 1 7⟩, ⟨F.opcCtrl_margin r, .rw, .any⟩]⟩,
  ⟨0x2008, 0x8, 8, 2, fun j => [⟨F.opcLayer_p_def r j, .rw, .any⟩, ⟨F.opcLayer_p_min r j, .rw, .any⟩, ⟨F.opcLayer_p_max r j, .rw, .any⟩]⟩,
  ⟨0x3000, 0x4, 1, 1, fun _ => [⟨F.ws0_bias r, .rw, .any⟩, ⟨F.ws0_cool r, .rw, .any⟩]⟩,
  ⟨0x3004, 0x4, 7, 1, fun j => [⟨F.ws_t_top r (j + 1), .rw, .any⟩, ⟨F.ws_d_top r (j + 1), .rw, .any⟩, ⟨F.ws_t_mp r (j + 1), .rw, .any⟩, ⟨F.ws_t_lp r (j + 1), .rw, .any⟩, ⟨F.ws_t_cl r (j + 1), .rw, .any⟩]⟩,
  ⟨0x4000, 0x100, 2, 1, fun j => [⟨F.fcStatus_state r j, .ro, .any⟩, ⟨F.fcStatus_targets r j, .ro, .any⟩, ⟨F.fcStatus_rate r j, .ro, .any⟩]⟩,
  ⟨0x4004, 0x100, 2, 1, fun j => [⟨F.fcCfg_pair_dist r j, .rw, .any⟩, ⟨F.fcCfg_down r j, .rw, .any⟩]⟩,
  ⟨0x4008, 0x100, 2, 2, fun j => [⟨F.fcErr_refresh r j, .rc, .any⟩, ⟨F.fcErr_uncorr r j, .rc, .any⟩, ⟨F.fcErr_prog_fail r j, .rc, .any⟩, ⟨F.fcErr_erase_fail r j, .rc, .any⟩, ⟨F.fcErr_retired r j, .ro, .any⟩]⟩,
  ⟨0x5000, 0x4, 1, 1, fun _ => [⟨F.bucket_depth r, .rw, .clamp 1 255⟩, ⟨F.bucket_level r, .ro, .any⟩, ⟨F.bucket_leak_min r, .rw, .clamp 1 4095⟩]⟩]

/-- Registers of a `dcom` block in offset order (R574). -/
def dcomRegs (e : Nat) : List RegDef := [
  ⟨0x0, 0x4, 1, 1, fun _ => [⟨F.dramCtrl_narrow e, .rw, .any⟩, ⟨F.dramCtrl_scrub_en e, .rw, .any⟩, ⟨F.dramCtrl_merge_ns e, .rw, .clamp 1 255⟩]⟩,
  ⟨0x4, 0x4, 1, 1, fun _ => [⟨F.dramScrub_scrub_min e, .rw, .clamp 1 65535⟩, ⟨F.dramScrub_pos e, .ro, .any⟩, ⟨F.dramScrub_passes e, .rc, .any⟩]⟩,
  ⟨0x8, 0x8, 1, 2, fun _ => [⟨F.dramErr_corrected e, .rc, .any⟩, ⟨F.dramErr_uncorr e, .rc, .any⟩, ⟨F.dramErr_narrow_refused e, .rc, .any⟩, ⟨F.dramErr_evictions e, .rc, .any⟩]⟩,
  ⟨0x10, 0x8, 1, 2, fun _ => [⟨F.dramUe_addr e, .ro, .any⟩]⟩,
  ⟨0x1000, 0x8, 1, 2, fun _ => [⟨F.tilePoison_tile e, .ro, .any⟩, ⟨F.tilePoison_use e, .ro, .any⟩, ⟨F.tilePoison_poisoned e, .rc, .any⟩, ⟨F.tilePoison_quarantined e, .ro, .any⟩]⟩,
  ⟨0x2000, 0x20, 16, 1, fun j => [⟨F.snoopCfg_en e j, .rw, .any⟩, ⟨F.snoopCfg_poly e j, .rw, .any⟩, ⟨F.snoopCfg_kind e j, .rw, .any⟩, ⟨F.snoopCfg_index e j, .rw, .any⟩, ⟨F.snoopCfg_engine e j, .ro, .any⟩]⟩,
  ⟨0x2008, 0x20, 16, 2, fun j => [⟨F.snoopRun_run e j, .rw, .any⟩]⟩,
  ⟨0x2010, 0x20, 16, 2, fun j => [⟨F.snoopCount_count e j, .ro, .any⟩]⟩,
  ⟨0x3000, 0x8, 1, 2, fun _ => [⟨F.contLast_master e, .ro, .any⟩, ⟨F.contLast_space e, .ro, .any⟩, ⟨F.contLast_write e, .ro, .any⟩, ⟨F.contLast_addr e, .ro, .any⟩]⟩,
  ⟨0x4000, 0x4, 1, 1, fun _ => [⟨F.calCtrl_upd_ms e, .rw, .clamp 10 1023⟩, ⟨F.calCtrl_rewrite_c e, .rw, .any⟩]⟩,
  ⟨0x4008, 0x8, 1, 2, fun _ => [⟨F.calStatus_done e, .ro, .any⟩, ⟨F.calStatus_method e, .ro, .any⟩, ⟨F.calStatus_record_ok e, .ro, .any⟩, ⟨F.calStatus_implausible e, .ro, .any⟩, ⟨F.calStatus_fallbacks e, .ro, .any⟩, ⟨F.calStatus_last_id e, .ro, .any⟩, ⟨F.calStatus_last_inst e, .ro, .any⟩, ⟨F.calStatus_t_cal e, .ro, .any⟩, ⟨F.calStatus_t_now e, .ro, .any⟩]⟩,
  ⟨0x4010, 0x4, 1, 1, fun _ => [⟨F.calSel_id e, .rw, .any⟩, ⟨F.calSel_inst e, .rw, .any⟩]⟩,
  ⟨0x4014, 0x4, 1, 1, fun _ => [⟨F.calVal_applied e, .ro, .any⟩, ⟨F.calVal_measured e, .ro, .any⟩, ⟨F.calVal_delta e, .ro, .any⟩, ⟨F.calVal_source e, .ro, .any⟩]⟩,
  ⟨0x5000, 0x8, 1, 2, fun _ => [⟨F.lichenCnt_seq e, .ro, .any⟩, ⟨F.lichenCnt_dropped e, .rc, .any⟩]⟩]

/-- Registers of a `pkg` block in offset order (R574). -/
def pkgRegs : List RegDef := [
  ⟨0x0, 0x4, 1, 1, fun _ => [⟨F.chain_sys_addr, .ro, .any⟩, ⟨F.chain_addr_valid, .ro, .any⟩, ⟨F.chain_head, .ro, .any⟩, ⟨F.chain_overflow, .ro, .any⟩, ⟨F.chain_chain_lost, .ro, .any⟩, ⟨F.chain_mismatch, .w1c, .any⟩, ⟨F.chain_hop_delay, .ro, .any⟩]⟩,
  ⟨0x100000, 0x4, 1, 1, fun _ => [⟨F.axesGo_go, .wo, .any⟩]⟩,
  ⟨0x200000, 0x4, 8, 1, fun j => [⟨F.shape_k j, .rw, .any⟩, ⟨F.shape_m j, .rw, .any⟩, ⟨F.shape_q j, .rw, .any⟩, ⟨F.shape_en j, .rw, .any⟩]⟩,
  ⟨0x200020, 0x8, 1, 2, fun _ => [⟨F.frondCtrl_seal_s, .rw, .clamp 1 65535⟩, ⟨F.frondCtrl_burn_lead, .rw, .any⟩, ⟨F.frondCtrl_run_step, .rw, .clamp 600 65535⟩, ⟨F.frondCtrl_reorder, .rw, .clamp 1 255⟩, ⟨F.frondCtrl_extra_par, .rw, .any⟩]⟩,
  ⟨0x200028, 0x4, 1, 1, fun _ => [⟨F.frondCtrl2_grant, .rw, .clamp 1 65535⟩, ⟨F.frondCtrl2_place_wait, .rw, .any⟩]⟩,
  ⟨0x20002C, 0x4, 1, 1, fun _ => [⟨F.frondStatus_open, .ro, .any⟩, ⟨F.frondStatus_waiting, .ro, .any⟩, ⟨F.frondStatus_burning, .ro, .any⟩, ⟨F.frondStatus_returned, .ro, .any⟩]⟩,
  ⟨0x300000, 0x8, 1, 2, fun _ => [⟨F.mossCtrl_op_pct, .rw, .any⟩, ⟨F.mossCtrl_spare_pct, .rw, .any⟩, ⟨F.mossCtrl_gc_start, .rw, .any⟩, ⟨F.mossCtrl_gc_stop, .rw, .any⟩, ⟨F.mossCtrl_reloc_share, .rw, .any⟩, ⟨F.mossCtrl_rebuild_share, .rw, .any⟩, ⟨F.mossCtrl_refresh_thr, .rw, .any⟩, ⟨F.mossCtrl_dirty_pct, .rw, .any⟩]⟩,
  ⟨0x300008, 0x4, 1, 1, fun _ => [⟨F.mossCtrl2_jflush_us, .rw, .clamp 1 65535⟩, ⟨F.mossCtrl2_wl_spread, .rw, .clamp 1 255⟩, ⟨F.mossCtrl2_ckpt_mib, .rw, .zeroAs 16⟩]⟩,
  ⟨0x30000C, 0x4, 1, 1, fun _ => [⟨F.mossStatus_mounted, .ro, .any⟩, ⟨F.mossStatus_degraded, .ro, .any⟩, ⟨F.mossStatus_offline, .ro, .any⟩, ⟨F.mossStatus_rebuilding, .ro, .any⟩, ⟨F.mossStatus_sdiscard, .ro, .any⟩, ⟨F.mossStatus_down, .ro, .any⟩, ⟨F.mossStatus_free, .ro, .any⟩]⟩,
  ⟨0x300010, 0x8, 1, 2, fun _ => [⟨F.mossWear_min, .ro, .any⟩, ⟨F.mossWear_max, .ro, .any⟩]⟩,
  ⟨0x300018, 0x8, 1, 2, fun _ => [⟨F.mossCache_hits, .rc, .any⟩, ⟨F.mossCache_misses, .rc, .any⟩]⟩,
  ⟨0x300020, 0x4, 1, 1, fun _ => [⟨F.mossProgress_op, .ro, .any⟩, ⟨F.mossProgress_done, .ro, .any⟩]⟩,
  ⟨0x400000, 0x4, 1, 1, fun _ => [⟨F.hostCfg_mode, .rw, .any⟩, ⟨F.hostCfg_fec_en, .rw, .any⟩, ⟨F.hostCfg_udp_port, .rw, .any⟩]⟩,
  ⟨0x400004, 0x4, 8, 1, fun j => [⟨F.hostPort_exists j, .ro, .any⟩, ⟨F.hostPort_up j, .ro, .any⟩, ⟨F.hostPort_fec j, .ro, .any⟩, ⟨F.hostPort_lpi j, .ro, .any⟩, ⟨F.hostPort_drops j, .rc, .any⟩]⟩,
  ⟨0x500000, 0x4, 1, 1, fun _ => [⟨F.qcpStatus_sessions, .ro, .any⟩, ⟨F.qcpStatus_queues, .ro, .any⟩, ⟨F.qcpStatus_contexts, .ro, .any⟩]⟩,
  ⟨0x500008, 0x8, 1, 2, fun _ => [⟨F.qcpCnt_bad_tag, .rc, .any⟩, ⟨F.qcpCnt_replays, .rc, .any⟩, ⟨F.qcpCnt_hello_refused, .rc, .any⟩]⟩,
  ⟨0x500010, 0x4, 1, 1, fun _ => [⟨F.qcpBreach_data_max, .rw, .clamp 1 255⟩, ⟨F.qcpBreach_replay_max, .rw, .clamp 1 255⟩, ⟨F.qcpBreach_cap_max, .rw, .clamp 1 65535⟩]⟩,
  ⟨0x500018, 0x8, 1, 2, fun _ => [⟨F.qdef_moss, .rw, .any⟩, ⟨F.qdef_ctx_max, .rw, .clamp 1 4095⟩, ⟨F.qdef_share, .rw, .clamp 1 255⟩, ⟨F.qdef_cap, .rw, .any⟩]⟩,
  ⟨0x501000, 0x10, 256, 2, fun j => [⟨F.quota_moss j, .rw, .any⟩, ⟨F.quota_ctx_max j, .rw, .clamp 1 4095⟩, ⟨F.quota_share j, .rw, .clamp 1 255⟩, ⟨F.quota_cap j, .rw, .any⟩]⟩,
  ⟨0x501008, 0x10, 256, 2, fun j => [⟨F.use_moss j, .ro, .any⟩, ⟨F.use_contexts j, .ro, .any⟩, ⟨F.use_frozen j, .ro, .any⟩, ⟨F.use_over j, .ro, .any⟩]⟩,
  ⟨0x600000, 0x8, 1, 2, fun _ => [⟨F.pwrCtrl_haze_s, .rw, .any⟩, ⟨F.pwrCtrl_overcast_s, .rw, .any⟩, ⟨F.pwrCtrl_drive_idle_s, .rw, .any⟩]⟩,
  ⟨0x600008, 0x4, 1, 1, fun _ => [⟨F.pwrStatus_state, .ro, .any⟩, ⟨F.pwrStatus_waking, .ro, .any⟩]⟩,
  ⟨0x700000, 0x4, 1, 1, fun _ => [⟨F.skyCtrl_domain, .rw, .clamp 0 127⟩, ⟨F.skyCtrl_tick_en, .rw, .any⟩, ⟨F.skyCtrl_tick_out, .rw, .any⟩, ⟨F.skyCtrl_slew_ppm, .rw, .clamp 1 200⟩, ⟨F.skyCtrl_hold_s, .rw, .any⟩]⟩,
  ⟨0x700004, 0x4, 1, 1, fun _ => [⟨F.skyStatus_state, .ro, .any⟩, ⟨F.skyStatus_valid, .ro, .any⟩, ⟨F.skyStatus_source, .ro, .any⟩, ⟨F.skyStatus_ptp_port, .ro, .any⟩, ⟨F.skyStatus_gm_seen, .ro, .any⟩, ⟨F.skyStatus_tick_seen, .ro, .any⟩]⟩,
  ⟨0x700008, 0x8, 1, 2, fun _ => [⟨F.skyNow_ns, .ro, .any⟩]⟩,
  ⟨0x700010, 0x4, 1, 1, fun _ => [⟨F.skyFrac_frac, .ro, .any⟩]⟩,
  ⟨0x700018, 0x8, 1, 2, fun _ => [⟨F.skyOffset_offset, .ro, .any⟩, ⟨F.skyOffset_corr, .ro, .any⟩]⟩,
  ⟨0x700020, 0x8, 1, 2, fun _ => [⟨F.skyGm_clock_id, .ro, .any⟩]⟩,
  ⟨0x700028, 0x8, 1, 2, fun _ => [⟨F.skyCnt_tick_lost, .rc, .any⟩, ⟨F.skyCnt_discarded, .rc, .any⟩, ⟨F.skyCnt_disagree, .rc, .any⟩, ⟨F.skyCnt_invalid, .rc, .any⟩]⟩,
  ⟨0x800000, 0x4, 1, 1, fun _ => [⟨F.trust_owned, .ro, .any⟩, ⟨F.trust_bootstrap, .ro, .any⟩, ⟨F.trust_window_open, .ro, .any⟩, ⟨F.trust_window_held, .ro, .any⟩, ⟨F.trust_holder, .ro, .any⟩, ⟨F.trust_seal_open, .ro, .any⟩, ⟨F.trust_seal_presence, .ro, .any⟩, ⟨F.trust_seal_exhausted, .ro, .any⟩, ⟨F.trust_debug_unlocked, .ro, .any⟩, ⟨F.trust_member, .ro, .any⟩, ⟨F.trust_disposed, .ro, .any⟩]⟩,
  ⟨0x800004, 0x4, 1, 1, fun _ => [⟨F.trustWindow_remaining, .ro, .any⟩]⟩,
  ⟨0x800008, 0x8, 1, 2, fun _ => [⟨F.otp_rollback, .ro, .any⟩, ⟨F.otp_seals, .ro, .any⟩, ⟨F.otp_epoch, .ro, .any⟩, ⟨F.otp_revoked, .ro, .any⟩]⟩,
  ⟨0x800010, 0x4, 1, 1, fun _ => [⟨F.group_seat, .ro, .any⟩, ⟨F.group_k, .ro, .any⟩, ⟨F.group_n, .ro, .any⟩]⟩,
  ⟨0x900000, 0x10, 5776, 4, fun j => [⟨F.win_en j, .ro, .any⟩, ⟨F.win_rd j, .ro, .any⟩, ⟨F.win_wr j, .ro, .any⟩, ⟨F.win_space j, .ro, .any⟩, ⟨F.win_base j, .ro, .any⟩, ⟨F.win_end j, .ro, .any⟩]⟩,
  ⟨0x920000, 0x4, 361, 1, fun j => [⟨F.mst_frozen j, .ro, .any⟩, ⟨F.mst_violations j, .rc, .any⟩]⟩,
  ⟨0xA00000, 0x4, 1, 1, fun _ => [⟨F.straps_hmode, .ro, .any⟩, ⟨F.straps_cal_mode, .ro, .any⟩, ⟨F.straps_test_n, .ro, .any⟩]⟩,
  ⟨0xA00004, 0x4, 1, 1, fun _ => [⟨F.bootProgress_step, .ro, .any⟩, ⟨F.bootProgress_open, .ro, .any⟩, ⟨F.bootProgress_ms, .ro, .any⟩]⟩,
  ⟨0xB00000, 0x4, 1, 1, fun _ => [⟨F.lichenCtrl_freeze, .wo, .any⟩, ⟨F.lichenCtrl_rearm, .wo, .any⟩, ⟨F.lichenCtrl_frozen, .ro, .any⟩, ⟨F.lichenCtrl_saved, .ro, .any⟩, ⟨F.lichenCtrl_f_sky, .ro, .any⟩]⟩,
  ⟨0xB00008, 0x8, 1, 2, fun _ => [⟨F.lichenFreeze_f, .ro, .any⟩]⟩,
  ⟨0xB00010, 0x4, 8, 1, fun j => [⟨F.lichenTrig_event j, .rw, .any⟩, ⟨F.lichenTrig_en j, .rw, .any⟩]⟩,
  ⟨0xB00030, 0x8, 1, 2, fun _ => [⟨F.lichenSaved_copy, .ro, .any⟩, ⟨F.lichenSaved_n0, .ro, .any⟩, ⟨F.lichenSaved_n1, .ro, .any⟩]⟩,
  ⟨0xC00000, 0x4, 1, 1, fun _ => [⟨F.svcRetired_retired, .ro, .any⟩]⟩,
  ⟨0xD00000, 0x4, 1, 1, fun _ => [⟨F.thermCtrl_therm_c, .rw, .clamp 80 110⟩, ⟨F.thermCtrl_hyst, .rw, .clamp 1 15⟩]⟩,
  ⟨0xD00004, 0x4, 1, 1, fun _ => [⟨F.thermStatus_tmax, .ro, .any⟩, ⟨F.thermStatus_therm, .ro, .any⟩, ⟨F.thermStatus_trips, .ro, .any⟩]⟩,
  ⟨0xD00008, 0x8, 1, 2, fun _ => [⟨F.thermLife_equiv_h, .ro, .any⟩, ⟨F.thermLife_hours, .ro, .any⟩]⟩,
  ⟨0xE00000, 0x4, 1, 1, fun _ => [⟨F.clk_dref0_ok, .ro, .any⟩, ⟨F.clk_dref1_ok, .ro, .any⟩, ⟨F.clk_href0_ok, .ro, .any⟩, ⟨F.clk_href1_ok, .ro, .any⟩, ⟨F.clk_brownout, .w1c, .any⟩]⟩,
  ⟨0xF00000, 0x4, 576, 1, fun j => [⟨F.evCfg_en j, .rw, .any⟩, ⟨F.evCfg_latch j, .w1c, .any⟩, ⟨F.evCfg_host j, .rw, .any⟩, ⟨F.evCfg_alert j, .rw, .any⟩, ⟨F.evCfg_lichen j, .rw, .any⟩]⟩,
  ⟨0xF01000, 0x4, 576, 1, fun j => [⟨F.evCnt_count j, .rc, .any⟩]⟩,
  ⟨0xF02000, 0x4, 1, 1, fun _ => [⟨F.evCtrl_gap_us, .rw, .clamp 1 65535⟩, ⟨F.evCtrl_resend_ms, .rw, .clamp 1 65535⟩]⟩,
  ⟨0xF02008, 0x8, 1, 2, fun _ => [⟨F.evSeq_seq, .ro, .any⟩]⟩,
  ⟨0x1000000, 0x4, 1, 1, fun _ => [⟨F.rcvCtrl_slot, .rw, .any⟩, ⟨F.rcvCtrl_erase, .wo, .any⟩, ⟨F.rcvCtrl_busy, .ro, .any⟩, ⟨F.rcvCtrl_addr, .rw, .any⟩]⟩,
  ⟨0x1000004, 0x4, 1, 1, fun _ => [⟨F.rcvData_data, .wo, .any⟩]⟩,
  ⟨0x1100000, 0x4, 1, 1, fun _ => [⟨F.i2c_refused, .rc, .any⟩]⟩]


end Sys2Proof.Machine
end

