-- ==== Sys2Proof/Machine/State.lean ====
section
/-! DEFINITION. The state of the block as plain data, and the state after reset. Register fields live in `Chip.flds`,
one value per field; everything else the spec gives the machine has a structure of its own chapter. -/
namespace Sys2Proof.Machine

/-- Containment and freezing of one cluster (R20, R26): taken out by a fault, frozen after a violation. -/
structure Held where
  out : Bool
  frozen : Bool
deriving DecidableEq, Repr, Inhabited

/-- Region-wide state (R20 to R34): containment, a freeze of the region's domain (R26), and the pointer of the spin-up arbiter. -/
structure RegionLevel where
  out : Bool
  frozen : Bool
  spinPtr : Nat
deriving DecidableEq, Repr, Inhabited

/-- Die-wide state (R20 to R36): containment, loss of the other die's heartbeat, arbiter pointers. -/
structure DieLevel where
  out : Bool
  otherLost : Bool
  fabricPtr : Nat
deriving DecidableEq, Repr, Inhabited

/-- The address chain beyond its register (R40 to R51): the address before a re-enumeration, whether a hop delay is
held (R452) and an outstanding probe. `resetAt` is the instant of the last cold reset, from which the keeper timer counts. -/
structure ChainSt where
  oldAddr : Option Nat
  hasHop : Bool
  probeAt : Option Nat
  resetAt : Nat
deriving DecidableEq, Repr, Inhabited

/-- Sky time of one die (R445, R446): value at an instant in 2^-48 ns, and the correction per nanosecond in 2^-48 ns. -/
structure DieClock where
  base : Int
  at_ : Nat
  corr : Int
deriving DecidableEq, Repr, Inhabited

/-- A PTP master as its Announce messages describe it (R450). -/
structure Master where
  port : Nat
  clockId : Nat
  dataset : Nat
  syncLog : Int
  lastSync : Nat
deriving DecidableEq, Repr, Inhabited

/-- Sky time beyond its registers (R445 to R457): the clock of each die, masters heard, the selected one, whether ACQUIRE has stepped, offsets counted in
ACQUIRE, offsets beyond the limit in LOCK, the last tick edge and the last used one, when holdover began, the last tick sent. -/
structure SkySt where
  clock : Tab DieClock
  masters : List Master
  selected : Option Master
  stepped : Bool
  good : Nat
  bad : Nat
  lastEdge : Option Nat
  lastUsed : Option Nat
  holdSince : Nat
  lastTick : Nat
deriving DecidableEq, Repr, Inhabited

/-- Servo subframe, the 48 bytes of R98 as fields; signed fields keep their bits. -/
structure Subframe where
  seq : Nat
  flags : Nat
  quad : List Nat
  sums : List Nat
  ldMon : Nat
  iFocus : Nat
  iTrack : Nat
  iTilt : Nat
  iPhase : List Nat
  vBus : Nat
  uPhase : List Nat
  iStep : List Nat
  tilt : Nat
deriving DecidableEq, Repr, Inhabited

/-- Set-point area, the 48 bytes of R104 as fields; signed fields keep their bits. -/
structure SetPoint where
  seq : Nat
  flags : Nat
  dFocus : Nat
  dTrack : Nat
  dTilt : Nat
  pServo : Nat
  pBeam : List Nat
  duty : List Nat
  cStep : List Nat
  sledAt : Nat
  trayAt : Nat
deriving DecidableEq, Repr, Inhabited

/-- One lane of a port (R88, R96, R100, R118 to R120): phase of its training (0 idle, 1 training, 2 ready, 3 locked,
4 passed ALIGN), round trip, the runs that lose it, faults of its queue in the last superframe, the run of accepted superframes since it
rejoined, whether its servo copies are used, the copy it delivered in this servo period, the last sf_num. -/
structure LaneSt where
  phase : Nat
  rt : Nat
  discRun : Nat
  lateRun : Nat
  queueFaults : Nat
  okRun : Nat
  servoUse : Bool
  copy : Option Subframe
  lastSf : Option Nat
deriving DecidableEq, Repr, Inhabited

/-- The scramblers of a lane, transmit and receive: the last 58 payload bits on the line, the newest in bit 0 (R86). -/
structure LaneScr where
  tx : Nat
  rx : Nat
deriving DecidableEq, Repr, Inhabited

/-- A command block of the head link (R107 to R109): its sequence, contents, lane, sends so far, and whether it waits to be sent. -/
structure HeadCmd where
  seq : Nat
  op : Nat
  addr : Nat
  data : Nat
  lane : Nat
  sends : Nat
  due : Bool
deriving DecidableEq, Repr, Inhabited

/-- What became of a command (R107, R109): done, unknown address, or link error. -/
inductive HeadEnd where
  | done | unknownAddress | linkError
deriving DecidableEq, Repr, Inhabited

/-- The head link of a port beyond its registers: next transmit superframe number (R89), lanes detecting signal (R118),
expected sf_seq (R115), unsaturated run of lost subframes (R116), commands outstanding and waiting, ended commands with the address and data of
their response,
set-point area to be sent (R104) and transmit mode, identity read at the last UP (R134), whether it was new there (R530), the instant SEEK was last
entered and whether a training failed since the last reset (R511). -/
structure LinkSt where
  txSf : Nat
  detect : Nat
  expSeq : Option Nat
  lostRun : Nat
  cmds : List HeadCmd
  waiting : List HeadCmd
  ended : List (Nat × HeadEnd × Nat × Nat)
  nextSeq : Nat
  point : SetPoint
  mode : Nat
  identity : Nat
  newHead : Bool
  seekAt : Nat
  failed : Bool
deriving DecidableEq, Repr, Inhabited

/-- The four fields of an address mark (R61). -/
structure Mark where
  side : Nat
  layer : Nat
  band : Nat
  mark : Nat
deriving DecidableEq, Repr, Inhabited

/-- Where the loop stands from an instant of a superframe interval on (R135, R137): the interval's number, the part of it gone by in 2^-32, the
track index and the rate there, in 2^-32 channel bit. An interval has a second one where a zone begins within it. -/
structure LoopMark where
  n : Nat
  tau : Int
  theta : Int
  rate : Int
deriving DecidableEq, Repr, Inhabited

/-- The band timing loop of a cluster beyond its registers (R60 to R63, R135 to R140). Phase and rate are in 2^-32 channel bit; track indices and
wobble periods are counted on without a break, `turn` being the track index of the first channel bit of the band turn `at_`. `interval` is the
superframe interval that begins at `theta`, `starts` the latest intervals, newest first. `wob` is the wobble period under way with its sums, `decs`
the decisions of those before it, newest first, true for an inverted wobble; `amu` is the first wobble of the AMU whose mark is judged next, `pred`
the mark predicted for it; `last` the mark of the AMU before it, or in SEARCH the last mark found with its first wobble `lastAt`, if it was valid;
`seen` the last wobble at which SEARCH has looked for an AMU. `errs` are the |ε| of the mean of R137; `lowRun` and `highRun` those of R140, `defect`
the servo-track flag and `flagged` the stretches of wobble periods it covers, the end open while it is up. `gaveUp` marks a loop that a third
acquisition failure ended. -/
structure BtlSt where
  theta : Int
  rate : Int
  interval : Nat
  starts : List LoopMark
  iRef : Int
  wob : Int
  partI : Int
  partQ : Int
  decs : List Bool
  errs : List Int
  acqFails : Nat
  gaveUp : Bool
  at_ : Option Mark
  turn : Int
  amu : Int
  pred : Option Mark
  last : Option Mark
  lastAt : Int
  seen : Int
  invalidRun : Nat
  lowRun : Nat
  highRun : Nat
  defect : Bool
  flagged : List (Int × Option Int)
  target : Nat
  wobbles : List Int
deriving DecidableEq, Repr, Inhabited

/-- One channel bit of a unit (R141 to R159): track index, resampler output, level-loop values, equaliser output, defect
causes (bit 0 drop, 1 rise, 2 servo track, 3 gap), ideal level and decision, soft decision. -/
structure BitRec where
  idx : Int
  x : Int
  u : Int
  w : Int
  z : Int
  flag : Nat
  zIdeal : Int
  tent : Bool
  llr : Int
deriving DecidableEq, Repr, Inhabited

/-- A codeword slot of a unit (R178): the slot's address, pass offset, sync report, the framings to be
decoded and their origins against oP, the erasure spans and the timing-error sum with its bits of each framing, the attempt under way, its parked
state, and what the first of two candidates ended with. `phase`: 0 awaiting a grant, 1 on a decoder, 2 parked. `base` is the track index of oP; the
framings are filled in, at `since`, when their last bit is detected. `won` is what the first of two candidates came to: converged or its cause,
iterations, weight at the end and after iteration 3, corrected bits, word. -/
structure DecSlot where
  psa : Nat
  offset : Int
  sync : Nat
  base : Int
  frames : List (List Int)
  origins : List Int
  cand : Nat
  twoCand : Bool
  spans : List (List (Nat × Nat))
  dts : List (Int × Nat)
  verify : Bool
  rung : Nat
  reread : Bool
  iters : Nat
  limit : Nat
  post : List Int
  msgs : List Int
  synd3 : Nat
  phase : Nat
  erased : Bool
  setB : Bool
  feedback : Bool
  won : List Nat
  pUsed : Bool
  since : Nat
deriving DecidableEq, Repr, Inhabited

/-- A sector that a unit goes through, from its prediction on (R138, R139, R160, R170, R185): track index of its predicted origin, address, pass
offset, whether the prediction is unavailable after a re-seat, whether it was issued in HOLD, whether its framing is decided, the coefficient
set a re-read calls for, and the levels fed back in the place of the two neighbours. -/
structure SecSt where
  base : Int
  psa : Nat
  offset : Int
  predOff : Bool
  flywheel : Bool
  decided : Bool
  force : Option Nat
  fbLow : List Int
  fbHigh : List Int
deriving DecidableEq, Repr, Inhabited

/-- A data-beam unit beyond its registers (R130 to R161): samples held and the index after the last, gaps, anchors of the latest superframes (number,
first sample, phase, newest first), next track index, channel bits newest first, level loops as deviations in 2^-24 (gain from 1), envelope reference in
2^-12 (0 before the first), the track index up to which each defect cause reaches, bits the flag has been up, whether a gap is among its causes and
whether a hold has expired in it, acquisition steps left, coarse learning run, pass offset told, sectors under way newest first, the sector decided
last, codeword slots. -/
structure UnitSt where
  out : Bool
  samples : List Nat
  sampEnd : Nat
  gaps : List (Nat × Nat)
  anchors : List (Nat × Nat × Nat)
  nextIdx : Int
  hist : List BitRec
  o : Int
  gDev : Int
  a : Int
  eRef : Int
  ahead : List Int
  flagRun : Nat
  flagGap : Bool
  expired : Bool
  acq : Nat
  coarseRun : Nat
  coarseD : Int
  offset : Int
  verifying : Bool
  secs : List SecSt
  lastDecided : Nat
  slots : List DecSlot
deriving DecidableEq, Repr, Inhabited

/-- The decoder pool of a region beyond its registers (R179, R180): the unit and address on each decoder, and the arbiter pointer. -/
structure PoolSt where
  decoders : Tab (Option (Nat × Nat))
  ptr : Nat
deriving DecidableEq, Repr, Inhabited

/-- What a sector of a read extent has come to (R182 to R193). -/
inductive SectorEnd where
  | pending | converged | lost
deriving DecidableEq, Repr, Inhabited

/-- A sector a cluster reads (R185 to R193): its address, payload index, the next re-read pass it waits for (0 none, 1 plain, then
rung 3, rung 4 at + and −, rung 5 at + and −, rung 6, rung 7), verdict, decoded bytes with the header, syndrome weights of sets A and B, the origin its
framing used against oP, whether this visit has framed it, when it converged, whether it has taken rung 6. -/
structure SectorRec where
  psa : Nat
  index : Nat
  offset : Int
  state : SectorEnd
  waits : Nat
  rung : Nat
  verdict : Nat
  bytes : List Nat
  weightA : Option Nat
  weightB : Option Nat
  touched : Bool
  origin : Int
  doneAt : Nat
  six : Bool
deriving DecidableEq, Repr, Inhabited

/-- A read extent of a cluster (R123 to R128, R188 to R193): the command that owns it, the pinna it belongs to, first PSA,
number of sectors, the first one's slot within the run, ceiling and budget captured at the start, what to do with a lost sector, and whether
the run's rewrite slots are read with it, so that every copy of a payload index belongs to one extent (R75, R80, R192). -/
structure Extent where
  owner : Nat
  frond : Nat
  pinna : Nat
  run : Nat
  psa : Nat
  count : Nat
  base : Nat
  ceiling : Nat
  budgetMs : Nat
  repair : Bool
  rewrites : Bool
deriving DecidableEq, Repr, Inhabited

/-- The reading of a cluster (R123 to R128, R188 to R194): extents waiting, the one under way with its sectors, planned
pass offsets still to run, the beams missing when the plan was made, the beams missing at any time since the extent began, the re-read pass and its visits
left (4 × band turn + pass offset + 1), sectors converged before the visit, whether a rung-6 visit is the repeated one, the budget's window
with its end, the spindle target to return to after rung 7, whether a speed change waits, the instant of the extent's first sector,
finished reads by PSA with their command, that instant and their sectors, and the command whose extent began last. -/
structure ReadSt where
  queue : List Extent
  cur : Option Extent
  sectors : List SectorRec
  passes : List Int
  planMissing : Nat
  gone : Nat
  pass : Nat
  visits : List Nat
  convergedBefore : Nat
  repeated : Bool
  inBudget : Bool
  budgetEnd : Option Nat
  slow : Option Nat
  slowWait : Bool
  began : Option Nat
  done : List (Nat × Nat × List SectorRec)
  recent : Nat
deriving DecidableEq, Repr, Inhabited

/-- A run descriptor as queued (R199); `over` marks one that OVERBURN placed (R426). -/
structure RunDesc where
  frond : Nat
  pinna : Nat
  run : Nat
  runs : Nat
  side : Nat
  layer : Nat
  src : Nat
  launch : Nat
  overburn : Bool
deriving DecidableEq, Repr, Inhabited

/-- A used rewrite slot of the run (R76, R78): payload index, slot, cause of the earlier failure, verdict of this copy. -/
structure Rewrite where
  index : Nat
  slot : Nat
  cause : Nat
  outcome : Option Nat
deriving DecidableEq, Repr, Inhabited

/-- The codeword the formatter keeps until its slot's verdict arrives (R213): slot, codeword bits as one number, payload index. -/
structure KeptWord where
  slot : Nat
  word : Nat
  index : Option Nat
deriving DecidableEq, Repr, Inhabited

/-- The run being burned (R74 to R79, R201, R214 to R221): first position, next slot to commit, rewrites, kept codewords,
ledger copies that passed and that were judged, burn_start and burn_end, powers, test block, completion, the lsn of its open-run record, the ledger record
once its first copy is committed, payload tiles fetched so far. -/
structure RunSt where
  desc : RunDesc
  firstPos : Nat
  slot : Nat
  rewrites : List Rewrite
  kept : List KeptWord
  passed : Nat
  judged : Nat
  burnStart : Nat
  burnEnd : Nat
  power : List Nat
  testPsa : Nat
  complete : Bool
  openLsn : Nat
  ledger : List Nat
  fetched : Nat
deriving DecidableEq, Repr, Inhabited

/-- An optimum power calibration (R206 to R212): test blocks used so far, the block under measurement, centre powers, the
beams still without a result. `forClose` marks the calibration before a terminator (R224); `slot` counts the block's slots committed, `lsn` is its
LAYERSIDE record, `edges` are the channel bits burned at each set-point area from the first one after SYNC-A on, and `search` is the search for the first
unrecorded position of a test zone that the catalogue has no entry for: whether it is the inner one, and the bounds (R84). -/
structure CalSt where
  blocks : Nat
  psa : Nat
  centre : List Nat
  need : List Nat
  forClose : Bool
  slot : Nat
  lsn : Nat
  edges : List Nat
  search : Option (Bool × Nat × Nat)
deriving DecidableEq, Repr, Inhabited

/-- Closing of a spoiled run (R222 to R226): the run, its first position, the bounds of the binary search, the position
found, terminator slots committed, judged and passed. -/
structure CloseSt where
  desc : RunDesc
  firstPos : Nat
  lo : Nat
  hi : Nat
  found : Option Nat
  slot : Nat
  kept : List KeptWord
  judged : Nat
  passed : Nat
deriving DecidableEq, Repr, Inhabited

/-- Burning of a cluster beyond its registers (R198 to R226, R597): run queue, the run, calibration and closing under
way, symbols waiting for transmission per track (R102), index of the next bit within the run, the write-strategy entries answered done by the NH-5,
superframes until the first committed symbol is sent (R214), bits in the last superframe and superframes since the last with any, the cause of an
interruption that waits for the symbols committed to be sent, whether no further slot is committed before it, whether the loaded disc's open runs wait for
the next load (R222, R224), the tiles fetched ahead, by slot (R201), and the first passage of the waiting run's first position after its launch, when
the cluster was not ready for it (R313). -/
structure BurnSt where
  queue : List RunDesc
  run : Option RunSt
  cal : Option CalSt
  close : Option CloseSt
  lines : List (List Nat)
  bitIndex : Nat
  bitPhase : Int
  strategy : List Nat
  delay : Nat
  lastBits : Nat
  quiet : Nat
  stop : Option Nat
  ending : Bool
  noClose : Bool
  tiles : List (Nat × Nat)
  missed : Option Nat
deriving DecidableEq, Repr, Inhabited

/-- A request to the servo engine (R252). -/
inductive ServoReq where
  | acquire (layer : Nat)
  | seek (band : Nat)
  | jump (layer : Nat)
  | passOffset (k : Int)
  | calibrate
deriving DecidableEq, Repr

/-- One compensator (R236 to R239): three states of each of four sections, integrator, previous output, saturation. Signals
are in 2^-24 of their unit. -/
structure LoopSt where
  sec : List (Int × Int × Int)
  integ : Int
  out : Int
  sat : Bool
deriving DecidableEq, Repr, Inhabited

/-- A calibrated set of a layer-side (R255 to R257): side, layer, the sensor values, the two gains, and which of its quantities were implausible (bit 0
the push-pull values, bit 1 the focus gain, bit 2 the tracking gain). -/
structure ServoCal where
  side : Nat
  layer : Nat
  feGain : Nat
  feOff : Nat
  ppAmp : Nat
  ppOff : Nat
  gainF : Nat
  gainT : Nat
  bad : Nat
deriving DecidableEq, Repr, Inhabited

/-- The focus state machine's own values (R243 to R248): target layer, S-curves counted, tries, sweep output, S-curve under
measurement (peak SUM and both FE peaks), last S-curve, periods in the state, settle run and its SUM total, SUM_ref, loss
run, hold length, run of recovery, saved integrator, direction, reacquisitions, corrections, jumps left. -/
structure FocusSt where
  target : Nat
  count : Nat
  tries : Nat
  sweepOut : Int
  peakSum : Nat
  peakHi : Int
  peakLo : Int
  fePP : Int
  feMid : Int
  inCurve : Bool
  periods : Nat
  settleRun : Nat
  settleSum : Nat
  sumRef : Nat
  lossRun : Nat
  holdLen : Nat
  recover : Nat
  saved : Int
  dir : Int
  reacq : Nat
  corrections : Nat
  jumpPeriods : Nat
  acquiring : Bool
deriving DecidableEq, Repr, Inhabited

/-- The tracking state machine's own values (R245, R246, R249 to R251): settle, off-track and write-inhibit runs, crossings counted and periods
since the last, crossing speed in nm/s, band turns, corrections, the kept integrator, sled accumulator, the last push-pull error, whether the sled took a
long seek's move. -/
structure TrackSt where
  settleRun : Nat
  offRun : Nat
  wiTrk : Nat
  wiFoc : Nat
  crossings : Nat
  sinceCross : Nat
  vHat : Nat
  present : Nat
  target : Nat
  seeking : Bool
  corrections : Nat
  kept : Int
  sledAcc : Int
  err1 : Int
  sledRefused : Bool
deriving DecidableEq, Repr, Inhabited

/-- A reference that ramps (R233): value in force, where the ramp goes, periods left, settled periods after it. -/
structure RampSt where
  cur : Int
  goal : Int
  left : Nat
deriving DecidableEq, Repr, Inhabited

/-- The servo engine's state for one cluster beyond its registers (R227 to R259): active parameter bank, the four loops
(focus, track, tilt, sled), two earlier values of fe_n, pp_n and tilt, held SUM, references, the two state machines,
the focus output while it ramps, requests, calibration under way with its sums, kept sets, loops stopped after servo loss, read
power, whether the offsets and the head trims of this UP are done, correlation sums and periods of a gain or sine calibration, the implausible quantities of
the set in use, the values that register writes loaded for what a calibration changes (R257). -/
structure ServoSt where
  bank : Tab Nat
  focus : LoopSt
  track : LoopSt
  tilt : LoopSt
  sled : LoopSt
  fe1 : Int
  fe2 : Int
  pp1 : Int
  pp2 : Int
  tilt1 : Int
  tilt2 : Int
  sum1 : Nat
  outRamp : RampSt
  xRef : RampSt
  fOff : RampSt
  f : FocusSt
  t : TrackSt
  running : Option ServoReq
  waiting : Option ServoReq
  settleAfter : Nat
  calStep : Nat
  calRound : Nat
  calFirst : Nat
  ppMax : Int
  ppMin : Int
  ppCross : Nat
  offSum : List Int
  offN : Nat
  sets : List ServoCal
  stopped : Bool
  readPower : Nat
  offDone : Bool
  trimDone : Bool
  calSum : List Int
  calN : Nat
  calBad : Nat
  loaded : Tab Nat
deriving DecidableEq, Repr, Inhabited

/-- A spindle request that waits (R273), targets in 0.01 rev/s. -/
inductive SpinReq where
  | start (target : Nat)
  | stop
  | setSpeed (target : Nat)
deriving DecidableEq, Repr

/-- The back-EMF observer and the loops of R262 to R270. Currents in µA, voltages in µV, angles in 2^-32 turn, speeds in
2^-16 rad/s (electrical) for `w` and 10^-6 rev/s for `fRef` and the history. -/
structure ObserverSt where
  ia : Int
  ib : Int
  ea : Int
  eb : Int
  th : Int
  w : Int
  xd : Int
  xq : Int
  xw : Int
  fRef : Int
  iq : Int
  limited : Bool
  clamped : Bool
  duty : List Nat
  hist : List Int
  initSpeed : Int
deriving DecidableEq, Repr, Inhabited

/-- A spindle beyond its registers (R260 to R282): observer, filtered supply in µV, the start that is pending after a
brake, the waiting request, start failures, the sense window (samples, sum of |u|, last angle, advance, last vector), loss
instant and speed, plausible and implausible runs, usable run, open-loop speed and angle, short count, when the place
was asked for and how long it was waited for, a climb that waits for a place (R280), whether the last PWM period was driven
throughout and whether the present one has been so far (R267), last known speed in 0.01 rev/s, the over-current flag of the last subframe, a brake check or the coast of a park under way. -/
structure SpinSt where
  obs : ObserverSt
  vBus : Int
  pending : Option Nat
  waiting : Option SpinReq
  fails : Nat
  senseN : Nat
  senseU : Int
  senseLast : Option Int
  senseAdv : Int
  senseA : Int
  senseB : Int
  lossAt : Nat
  lossSpeed : Nat
  plausRun : Nat
  implausRun : Nat
  usableRun : Nat
  predRun : Nat
  fOpen : Int
  thOpen : Int
  shorts : Nat
  askedAt : Nat
  waited : Nat
  climb : Bool
  driven : Bool
  drivenNow : Bool
  lastSpeed : Nat
  overCurrent : Bool
  checking : Bool
  parking : Bool
deriving DecidableEq, Repr, Inhabited

/-- How an axis request starts (R290). -/
inductive AxisStart where
  | atOnce | shared | launch
deriving DecidableEq, Repr, Inhabited

/-- An axis request (R290, R293): target position or distance in microsteps. -/
inductive AxisReq where
  | moveTo (target : Int) (start : AxisStart)
  | moveBy (dist : Int) (start : AxisStart)
  | home (start : AxisStart)
  | park
deriving DecidableEq, Repr

/-- What a move captures at its start (R285, R292, R293): acceleration, deceleration and speed in full steps per second
(squared), level thresholds, hysteresis, phase current in 0.01 mA, whether it is a home or an emergency stop; speed² in 1/128, whether it slows, the timer
counts to its next step, whether it has passed a full-step position, its direction. -/
structure MoveSt where
  target : Int
  a : Nat
  d : Nat
  vMax : Nat
  th : List Nat
  hyst : Nat
  amps : Nat
  home : Bool
  emergency : Bool
  dEs : Nat
  v2 : Nat
  slowing : Bool
  timer : Nat
  firstFull : Bool
  dir : Int
deriving DecidableEq, Repr, Inhabited

/-- An axis beyond its registers (R283 to R294): the move under way, the armed and the waiting request, deviation run, the
step to be placed in this period, follow microsteps waiting. -/
structure AxisSt where
  move : Option MoveSt
  armed : Option AxisReq
  waiting : Option AxisReq
  errRun : Nat
  placed : Option Nat
  follow : Int
deriving DecidableEq, Repr, Inhabited

/-- State of an object (R295 to R301). -/
inductive ObjState where
  | opened | committed | void | discarded
deriving DecidableEq, Repr, Inhabited

/-- An extent of an object (R305): first object block, frond, first frond block, blocks. -/
structure ExtentRec where
  oblock : Nat
  frond : Nat
  fblock : Nat
  blocks : Nat
deriving DecidableEq, Repr, Inhabited

/-- A grant of frond space (R305): frond, first block, end, next block to use. -/
structure GrantRec where
  frond : Nat
  first : Nat
  last : Nat
  next : Nat
deriving DecidableEq, Repr, Inhabited

/-- Object record of the catalogue (R295 to R301, R323): `received` and `staged` are the bytes at each level, `part` the
plaintext bytes of a block that no put has filled yet, `waits` the lsns whose durability stages the bytes up to an offset, with the running
check there, `stagedRun` the running check over the staged bytes. -/
structure ObjRec where
  id : Nat
  state : ObjState
  shape : Nat
  level : Nat
  declared : Nat
  length : Nat
  salt : Nat
  poly : Nat
  check : Nat
  running : Nat
  owner : Nat
  session : Nat
  extents : List ExtentRec
  grant : Option GrantRec
  staged : Nat
  part : List Nat
  waits : List (Nat × Nat × Nat)
  stagedRun : Nat
deriving DecidableEq, Repr, Inhabited

/-- State of a frond (R307). -/
inductive FrondState where
  | opened | sealing | parity | placing | burning | burned
deriving DecidableEq, Repr, Inhabited

/-- State of a pinna (R323). -/
inductive PinnaState where
  | staged | burning | complete | returned
deriving DecidableEq, Repr, Inhabited

/-- Pinna record (R323): moss-tier address, drive, disc, side, layer, PSA of each run, runs complete, spoiled attempts per disc and layer-side (R226),
whether its moss-tier copy is freed (R361), the instant at which its run 0 is or would have been launched, whether a warm reset has left it idle (R598). -/
structure PinnaRec where
  state : PinnaState
  moss : Nat
  port : Nat
  disc : Nat
  side : Nat
  layer : Nat
  firstPsa : List (Nat × Nat)
  runsDone : List Nat
  spoils : List (Nat × Nat × Nat)
  mossGone : Bool
  launch : Nat
  idle : Bool
deriving DecidableEq, Repr, Inhabited

/-- Frond record (R302 to R313, R323): shape values captured at opening, state, fill pointer, extents, grants still held, times, pinnae, whether its wait for
drives is over (R311), whether it is discarded, the lsn of its last record, whether its parity is computed, the instant at which it came to PLACING. -/
structure FrondRec where
  id : Nat
  shape : Nat
  k : Nat
  m : Nat
  q : Nat
  state : FrondState
  fill : Nat
  nExtents : Nat
  granted : Nat
  openedAt : Nat
  sealedAt : Nat
  t0 : Nat
  pinnae : List PinnaRec
  waitedOut : Bool
  discarded : Bool
  recLsn : Nat
  coded : Bool
  placingAt : Nat
deriving DecidableEq, Repr, Inhabited

/-- A layer-side of a disc (R323): next free position as a PSA, next test block of each zone where the catalogue has an entry (R84), closed flag, open
run. -/
structure LayerSide where
  next : Nat
  testIn : Option Nat
  testOut : Option Nat
  closed : Bool
  openRun : Option (Nat × Nat × Nat × Nat)
deriving DecidableEq, Repr, Inhabited

/-- Disc record (R323): layer-sides numbered 8 × side + layer; complete runs of each side with their first PSA, latest last. -/
structure DiscRec where
  id : Nat
  foreign : Bool
  sides : Tab LayerSide
  runs : List (Nat × Nat × Nat × Nat × Nat)
deriving DecidableEq, Repr, Inhabited

/-- A disc load or unload under way (R324 to R328): disc named (0 for new), side, its command as session × 4,096 + context, how far it is (0 loading,
2 waiting for its record, 9 a burn that is to stop, 10 spindle stopping for an unload, 11 sled parking, 12 tray opening, 20 and 22 the same after a failed
load), the record it waits for, the layers that the identity check has found unrecorded. -/
structure LoadSt where
  disc : Nat
  isNew : Bool
  side : Nat
  cmd : Option Nat
  checked : Nat
  lsn : Nat
  blank : Nat
deriving DecidableEq, Repr, Inhabited

/-- A restore read (R314 to R320): its command as session × 4,096 + context, the object (0 for a frond read) with the plaintext bytes
wanted, the blocks to deliver in order (number reported, frond, frond block), how many are dealt with, the data with the ranges delivered,
sectors rebuilt, blocks lost and blocks that failed their tag, sectors in hand and erasures (frond, row, pinna), rows rebuilt, rows given up
and rows under repair (frond, row), when the first sector was read, ceiling and budget captured for each region (R191), and what the clusters handed over
as lost: PSA, cause, and frond, row, pinna (R193). -/
structure RestoreSt where
  cmd : Nat
  object : Nat
  offset : Nat
  length : Nat
  blocks : List (Nat × Nat × Nat)
  next : Nat
  data : List Nat
  ranges : List (Nat × Nat)
  repaired : Nat
  lost : List Nat
  authFailed : List Nat
  rows : List ((Nat × Nat × Nat) × List Nat)
  erased : List (Nat × Nat × Nat)
  rebuilt : List (Nat × Nat)
  given : List (Nat × Nat)
  repair : List (Nat × Nat)
  began : Option Nat
  retry : List (Nat × Nat)
  handed : List (Nat × Nat × (Nat × Nat × Nat))
deriving DecidableEq, Repr, Inhabited

/-- The catalogue and the frond engine (R295 to R328, R598, R599): records, loads under way and discs held by drive, sequences, the region pointers of R309, the T0 of
the previous frond, changes kept while the pool takes no writes, restores under way, and the readers chosen at the request of each read that waits for its
launch, by its command (R314, R316). -/
structure CatSt where
  objects : List ObjRec
  fronds : List FrondRec
  discs : List DiscRec
  loads : Tab (Option LoadSt)
  held : Tab (Option (Nat × Nat))
  frondSeq : Nat
  discSeq : Nat
  placePtr : Tab Nat
  lastT0 : Nat
  kept : List (List Nat)
  restores : List RestoreSt
  plans : List (Nat × List (Nat × Extent))
deriving DecidableEq, Repr, Inhabited

/-- A flash page as programmed, with its metadata (R332): kind 0 data, 1 parity, 2 journal, 3 map, 4 anchor, 5 pad. `data` are the bytes before the
encryption of R334; of a parity page `coded` is the exclusive or of the stored bytes of its row's data pages, followed by that of their metadata (R335). -/
structure PageRec where
  space : Nat
  kind : Nat
  row : Nat
  granule : Nat
  lsn : Nat
  set : Nat
  keyRgn : Nat
  data : List Nat
  coded : List Nat
deriving DecidableEq, Repr, Inhabited

/-- A map entry (R340): state 0 unmapped, 1 mapped, 2 lost. -/
structure MapEnt where
  state : Nat
  ch : Nat
  tgt : Nat
  blk : Nat
  pg : Nat
deriving DecidableEq, Repr, Inhabited

/-- A journal record (R348) and the page that holds it, once written: its set, row and journal page sequence. -/
structure JRec where
  lsn : Nat
  type : Nat
  more : Bool
  payload : List Nat
  page : Option (Nat × Nat × Nat)
deriving DecidableEq, Repr, Inhabited

/-- An entry of the lichen record (R532); its check is computed when it is read. -/
structure LichenEntry where
  time : Nat
  seq : Nat
  sysAddr : Nat
  path : Nat
  code : Nat
  flags : Nat
  data : List Nat
deriving DecidableEq, Repr, Inhabited

/-- A page of a lichen block (R541): its copy number, round, die and entries, and the digest of the identity that wrote it (R546). -/
structure LichenPage where
  copy : Nat
  round : Nat
  die : Nat
  entries : List LichenEntry
  writer : Nat
deriving DecidableEq, Repr, Inhabited

/-- The lichen block of a flash target (R540, R541, R545): how many blocks lie above it that failed, whether the target has none left, its pages in the
order of their programs, how many of its pages are no longer erased, the pages of the saved copy held in DRAM to be programmed again, and whether its
erase is awaited. -/
structure LichenBlock where
  taken : Nat
  absent : Bool
  pages : List LichenPage
  spent : Nat
  held : List LichenPage
  due : Bool
deriving DecidableEq, Repr, Inhabited

/-- A flash channel beyond its registers (R329, R330, R354, R359 to R362): module serial, whether its anchors
carry this pool's identifier (none for a blank one), whether a module is present, parameters of accepted targets, remapped positions by target × 2^18 +
position, reserve blocks left by target and at first, blocks that failed one program, erase counts and retired blocks by target × 2^18 + block,
serial of the last CHANNEL record, lichen blocks by target. -/
structure ChanSt where
  serial : Nat
  anchor : Option Bool
  present : Bool
  targets : Tab TargetParams
  remap : Tab (Option Nat)
  reserve : Tab Nat
  reserve0 : Nat
  progFailed : List Nat
  erases : Tab Nat
  retired : List Nat
  lastSerial : Nat
  lichen : Tab LichenBlock
deriving DecidableEq, Repr, Inhabited

/-- A stripe set (R335, R336, R343, R344): phase 0 free, 1 open, 2 closed, 3 pending erase; stream; members; next slot to fill;
channels whose program of a row passed, by row; failed programs; marks of draining and refresh; members still to be erased, the lsn up to
which records must be durable before an erase; whether its SET_CLOSE says mixed, and its ranges otherwise (R366); whether it takes journal pages (R347). -/
structure SetRec where
  phase : Nat
  stream : Nat
  members : Nat
  row : Nat
  slot : Nat
  passed : Tab Nat
  fails : List (Nat × Nat)
  drain : Bool
  refresh : Bool
  erasing : Nat
  after : Nat
  mixed : Bool
  ranges : List (Nat × Nat × Nat)
  journal : Bool
deriving DecidableEq, Repr, Inhabited

/-- A granule write on its way to durability (R345): its place, the lsn its command waits for, the record that maps it, and the map
entry before it. -/
structure GranuleWrite where
  set : Nat
  row : Nat
  ch : Nat
  space : Nat
  granule : Nat
  lsn : Nat
  rec_ : Nat
  old : MapEnt
deriving DecidableEq, Repr, Inhabited

/-- A secure discard (R366, R367): the granule ranges (space, first, count), sets still to be erased, sets at first, the waiting
command, object concerned. -/
structure SecureDiscard where
  opId : Nat
  ranges : List (Nat × Nat × Nat)
  sets : List Nat
  total : Nat
  cmd : Option (Nat × Nat)
  object : Nat
deriving DecidableEq, Repr, Inhabited

/-- A bed namespace (R337, R338, R407): whether it exists, size in granules, creating session. -/
structure NsRec where
  active : Bool
  size : Nat
  creator : Nat
deriving DecidableEq, Repr, Inhabited

/-- The flash pool beyond its registers (R329 to R367, R440 to R442): pool identifier, the spare and over-provisioning percent of its last format (none: formatted
elsewhere), geometry, channels, sets, open set of each
stream, map by space × 2^32 + granule, pages by place, the sequences of journal records, journal pages and checkpoints, the first record a replay needs,
records not yet in a page and in pages since the checkpoint, granule writes not durable, cached map pages with used and dirty marks, journal bytes since the
checkpoint and its instant, relocation, secure discards and their numbers, rebuild, a sanitise or format, the bed namespaces, and the anchors by channel. -/
structure MossSt where
  poolId : Nat
  fmt : Option (Nat × Nat)
  nb : Nat
  pages : Nat
  raw : Nat
  chans : Tab ChanSt
  sets : Tab SetRec
  openSet : Tab (Option Nat)
  map : Tab MapEnt
  flash : Tab PageRec
  lsn : Nat
  jseq : Nat
  cseq : Nat
  replay : Nat
  buf : List JRec
  recs : List JRec
  writes : List GranuleWrite
  cache : List (Nat × Bool × Bool)
  jBytes : Nat
  ckptAt : Nat
  gc : Bool
  discards : List SecureDiscard
  opNext : Nat
  rebuild : Option (Nat × Nat × Nat × Nat)
  op : Option (Bool × Nat × Nat)
  ns : Tab NsRec
  anchors : Tab (Nat × Nat)
deriving DecidableEq, Repr, Inhabited

/-- A tile's table entry (R369, R376 to R380): state 0 free, 1 filling, 2 valid, 3 poisoned, 4 quarantined. -/
structure TileRec where
  check : Nat
  beats : Nat
  state : Nat
  uses : Nat
  length : Nat
  owner : Nat
  freeing : Bool
  waiting : List (Nat × Nat)
deriving DecidableEq, Repr, Inhabited

/-- A merge buffer entry (R374, R375, R377): block, mask, the 64 bytes, since when, whether it gathers a tile beat. -/
structure MergeEntry where
  block : Nat
  mask : Nat
  data : List Nat
  since : Nat
  tile : Bool
deriving DecidableEq, Repr, Inhabited

/-- The buffer of a die beyond its registers (R372 to R387): merge buffer, uncorrectable blocks, next block of the scrubber,
bytes each snoop unit has counted, contexts waiting for a unit with their arbiter's pointer, and since when each bucket leaks. -/
structure BufferSt where
  merge : List MergeEntry
  bad : List Nat
  scrubNext : Nat
  snoopCount : Tab Nat
  snoopWait : List (Nat × Nat)
  snoopPtr : Nat
  leakAt : Tab Nat
deriving DecidableEq, Repr, Inhabited

/-- A command as its COMMAND payload carries it (R415), with session, queue, context and tag. -/
structure Cmd where
  session : Nat
  queue : Nat
  ctx : Nat
  tag : Nat
  opcode : Nat
  cflags : Nat
  dlen : Nat
  p0 : Nat
  p1 : Nat
  p2 : Nat
  p3 : Nat
  T : Nat
  W : Nat
  action : Nat
deriving DecidableEq, Repr, Inhabited

/-- State of a local context (R403 to R406): free; holding a command not yet fetched; active; completed with retained data. -/
inductive CtxPhase where
  | free | waiting | active | retained
deriving DecidableEq, Repr, Inhabited

/-- What an active command waits for (R300, R404, R427 to R431, R437, R460): data still to arrive, its bed effect point, a journal
record and its granule writes being durable, an object level, its launch, its drive, another activity that completes it, or a
snoop unit. -/
inductive CtxWait where
  | nothing | dataOut | effect | durable (lsns : List Nat) | level (object level : Nat) | launch | drive | activity | snoop
deriving DecidableEq, Repr, Inhabited

/-- A local context of a session (R403 to R406, R417): command, what it waits for, parse number, whether its bed effect has happened (R429), ranges granted
and received, tiles of its phase, stored STATUS, whether a STATUS or READY is owed to a frozen session (R502), firing instant, late and delayed flags, the
object it acts on, its snoop unit and hardware context number (R387, R407), whether its check held (R300). -/
structure CtxSt where
  phase : CtxPhase
  cmd : Cmd
  wait : CtxWait
  parse : Nat
  effect : Bool
  granted : List (Nat × Nat)
  got : List (Nat × Nat)
  tiles : List Nat
  status : Option (List Nat)
  held : Bool
  fired : Nat
  late : Bool
  delayed : Bool
  object : Nat
  snoop : Option Nat
  hw : Nat
  ok : Bool
deriving DecidableEq, Repr, Inhabited

/-- A session (R396 to R409, R480 to R489): established, credential, rights, bootstrap, keys, serving die, peer, sequence numbers, the
numbers seen below the highest, breaches with the keeper second they count in, ingress tokens and the instant they were last filled, open queues, the
queue arbiter, contexts, last tags by context plus one, the contexts in the order their commands came. -/
structure SessSt where
  live : Bool
  cred : Nat
  rights : Nat
  bootstrap : Bool
  key : Nat
  die : Nat
  port : Nat
  peer : Nat
  high : Nat
  seen : List Nat
  txSeq : Nat
  second : Nat
  dataBreach : Nat
  replayBreach : Nat
  capBreach : Nat
  tokens : Nat
  tokensAt : Nat
  queues : Nat
  queuePtr : Nat
  ctx : Tab CtxSt
  lastTag : Tab Nat
  order : List Nat
deriving DecidableEq, Repr, Inhabited

/-- A pending handshake (R396, R397). -/
structure Handshake where
  session : Nat
  hostKey : Nat
  nonce : Nat
  cred : Nat
  die : Nat
  port : Nat
  peer : Nat
  key : Nat
  since : Nat
  reply : List Nat
  tx : Nat
deriving DecidableEq, Repr, Inhabited

/-- A host port's network configuration (R391): IPv4 address and prefix, VLAN, IPv6 address and prefix, stored and in force. -/
structure NetCfg where
  data : List Nat
  applied : List Nat
deriving DecidableEq, Repr, Inhabited

/-- The transport beyond its registers (R388 to R414): sessions by number, handshakes, network configurations, parse counter, drives a wake waits for,
the mode of the host ports in force (R388), the action identifiers that have fired (R434). -/
structure HostSt where
  sess : Tab SessSt
  shakes : List Handshake
  net : Tab NetCfg
  parse : Nat
  wakeFor : List Nat
  modeNext : Nat
  acted : List Nat
deriving DecidableEq, Repr, Inhabited

/-- A launch that has not fired (R460 to R464). -/
structure LaunchRec where
  action : Nat
  T : Nat
  W : Nat
  opcode : Nat
  session : Nat
  ctx : Nat
deriving DecidableEq, Repr, Inhabited

/-- A credential (R480, R481): identifier, public key, rights; bit 8 of the rights marks an owner. -/
structure CredRec where
  id : Nat
  key : Nat
  rights : Nat
deriving DecidableEq, Repr, Inhabited

/-- A firmware image in a slot (R466, R467): version, anti-rollback value, signing key digest number, body length, measurement, and
whether its signature and body digest verify. -/
structure ImageRec where
  present : Bool
  version : Nat
  rollback : Nat
  signer : Nat
  length : Nat
  measure : Nat
  good : Bool
deriving DecidableEq, Repr, Inhabited

/-- A firmware activation (R437, R438): start, the command, the slot being started, the HELLOs held in arrival order. -/
structure Activation where
  since : Nat
  session : Nat
  ctx : Nat
  slot : Nat
  hellos : List (Nat × Nat × Nat × Nat × Nat)
deriving DecidableEq, Repr, Inhabited

/-- Trust beyond its registers (R465 to R496): package seed, vendor key digests, salts of destroyed objects, credentials, group root and own share,
group identifier, image slots (0, 1 keeper; 2, 3 application), running and staged slots, activation, press recognised, release of the open window in keeper time, runs of seal samples that differ and agree, when the seal closed again and the session its
presence is bound to. -/
structure TrustSt where
  seed : Nat
  vendors : List Nat
  destroyed : List (Nat × Nat)
  creds : List CredRec
  root : Nat
  share : Nat
  groupId : Nat
  images : Tab ImageRec
  keeperSlot : Nat
  appSlot : Nat
  staged : Option Nat
  act : Option Activation
  pressed : Bool
  released : Option Nat
  sealDiff : Nat
  sealSame : Nat
  sealClosedAt : Option Nat
  sealBound : Nat
deriving DecidableEq, Repr, Inhabited

/-- A calibrated instance (R519 to R528, R531): the five set points, flags, measured code, delta, applied code and where it comes from (0 main path, 1 kept value, 2 fallback, 3 default);
delta in 1/100 code. The trim record keeps codes, flags and delta. -/
structure TrimRec where
  codes : List Nat
  flags : Nat
  measured : Nat
  delta : Int
  applied : Nat
  source : Nat
deriving DecidableEq, Repr, Inhabited

/-- Power-up of a die (R509 to R531): training failures, DRAM trained, trims in force and entries of the trim record by quantity × 256 + instance, the
record's sequence and method, its last write, a deferred write, junction temperatures in 0.25 °C, the instant the temperature was last read. -/
structure BootSt where
  trainFails : Nat
  trained : Bool
  trims : Tab TrimRec
  record : Tab TrimRec
  recSeq : Nat
  recMethod : Nat
  recordAt : Option Nat
  recordDue : Bool
  tCal : Int
  tNow : Int
  tempAt : Nat
deriving DecidableEq, Repr, Inhabited

/-- Power-up of the package and its supply (R509 to R515, R540 to R545, R569 to R573): sequence begun at RESET_N's rise, application running,
HAZE reached, flash discovered, mount tried, the instant PFAIL_N asserted, the copy under way, RESET_N low, holding in reset after a trip, the instant up
to which the life figures count, their parts not yet in whole hours (weighted and plain, in ns), the figures stored in SPI NOR, factory test. -/
structure PowerSt where
  running : Bool
  app : Bool
  haze : Bool
  discovered : Bool
  mountTried : Bool
  pfail : Option Nat
  copying : Bool
  resetLow : Bool
  tripped : Bool
  lifeAt : Nat
  lifeRest : Nat
  hoursRest : Nat
  lifeStored : Nat
  hoursStored : Nat
  testMode : Bool
deriving DecidableEq, Repr, Inhabited

/-- Commands of OVERBURN (R426): session, context, frond, and the pinnae still to be overburned. -/
structure ServiceSt where
  overburns : List (Nat × Nat × Nat × List Nat)
deriving DecidableEq, Repr, Inhabited

/-- Folding of one event's host records (R585): when its last record went, the raises folded since, and the last of them. -/
structure FoldSt where
  lastAt : Option Nat
  folded : Nat
  path : Nat
  data : List Nat
deriving DecidableEq, Repr, Inhabited

/-- A host record as kept for resending (R586, R587). -/
structure HostRec where
  seq : Nat
  time : Nat
  sysAddr : Nat
  path : Nat
  event : Nat
  flags : Nat
  count : Nat
  suppressed : Nat
  data : List Nat
deriving DecidableEq, Repr, Inhabited

/-- A session's subscription (R587, R588): acknowledged sequence, highest sequence sent, and the instant from which
`resend_ms` counts. -/
structure SubSt where
  acked : Nat
  sentTo : Nat
  since : Nat
deriving DecidableEq, Repr, Inhabited

/-- Events beyond their registers (R585, R587, R588): folding by event, host records kept, subscriptions by session. -/
structure EventSt where
  folds : Tab FoldSt
  kept : List HostRec
  subs : Tab (Option SubSt)
deriving DecidableEq, Repr, Inhabited

/-- The lichen record beyond its registers: the two rings, oldest entry first (R532), the copy number and entries by die of the saved copy found at
the last mount and the digest of the identity that wrote it (R544, R546), whether recording has stopped at a power failure (R541), the entry
that froze the record where an entry did (R536), and the highest copy number found at the last mount (R541). -/
structure LichenSt where
  ring0 : List LichenEntry
  ring1 : List LichenEntry
  savedCopy : Nat
  stopped : Bool
  saved : List (Nat × LichenEntry)
  savedFrom : Option Nat
  trigger : Option LichenEntry
  found : Nat
deriving DecidableEq, Repr, Inhabited

/-- A word latched when the low word of a wide register is read alone (R576): requester, register, next word index, words. -/
structure WordLatch where
  requester : Nat
  addr : Nat
  words : List Nat
deriving DecidableEq, Repr, Inhabited

/-- Management access beyond the register file (R576, R582): latched words, recovery, keeper slot images, a write that waits for the programming under way. -/
structure MgmtSt where
  latches : List WordLatch
  recovery : Bool
  slotImage : Tab Nat
  heldWrite : Option Nat
deriving DecidableEq, Repr, Inhabited

/-- What the package sends outside itself, and answers to a bus master inside it (`bus`: kind 0 data, 1 poison, 2 address error, 3
narrow-write error, 4 refused, 5 stalled, 6 done), in the order it is sent. -/
inductive Out where
  | token (bits : Nat)
  | probe
  | probeEcho
  | tick (widthNs : Nat)
  | superframe (port lane : Nat) (blocks : List (Nat × Nat))
  | eventPacket (session : Nat) (records : List HostRec)
  | gapRecord (session seq firstLost number : Nat)
  | i2cData (bytes : List Nat)
  | i2cNack
  | qcp (type session queue seq ctx tag flags offset : Nat) (payload : List Nat)
  | frame (port kind : Nat) (data : List Nat)
  | program (ch tgt blk pg : Nat)
  | erase (ch tgt blk : Nat)
  | resetDie (die : Nat)
  | bus (master kind : Nat) (data : List Nat)
deriving DecidableEq, Repr

/-- Everything the block holds but its queue of commands and its DRAM bytes: the nanoseconds gone by, the register fields by key, the counter of the
free values, what has been sent, and the state of each part; `traceAt` is when each cluster's servo trace froze (R259), `catSnaps` the catalogue as each record
not yet durable left it (R322). -/
structure Chip where
  now : Nat
  flds : Tab Nat
  free : Nat
  sent : List Out
  ev : EventSt
  lichen : LichenSt
  mgmt : MgmtSt
  clu : Tab Held
  rgn : Tab RegionLevel
  die : Tab DieLevel
  chain : ChainSt
  sky : SkySt
  lane : Tab LaneSt
  scr : Tab LaneScr
  link : Tab LinkSt
  btl : Tab BtlSt
  unit : Tab UnitSt
  pool : Tab PoolSt
  read : Tab ReadSt
  burn : Tab BurnSt
  servo : Tab ServoSt
  traceAt : Tab Nat
  spin : Tab SpinSt
  axis : Tab AxisSt
  cat : CatSt
  moss : MossSt
  tiles : Tab TileRec
  buf : Tab BufferSt
  host : HostSt
  launches : List LaunchRec
  trust : TrustSt
  boot : Tab BootSt
  power : PowerSt
  svc : ServiceSt
  catSnaps : List (Nat × CatSt)
deriving DecidableEq, Repr, Inhabited

/-- The block: commands waiting, first in first out; DRAM bytes (R368, R369); and the rest. -/
structure State where
  pending : List Instr
  dram : List Host.Cell
  chip : Chip
deriving DecidableEq, Repr

/-- Faults of the block: none is raised by any command; the constructor keeps the type of reasons closed. -/
inductive Fault where
  /-- Raised by no command: safe, since nothing ends in it. -/
  | none
deriving DecidableEq, Repr

/-- Refusals of the block. -/
inductive Refusal where
  /-- A command without a meaning yet, by its mnemonic; raised by the dispatch only. Safe: nothing is claimed of it. -/
  | notModelled (mnemonic : String)
deriving DecidableEq, Repr

/-- The block at reset: nothing waits, no DRAM byte is listed, every register field reads its reset value. -/
def State.reset : State := ⟨[], [], default⟩

end Sys2Proof.Machine
end

