-- ==== Sys2Proof/Machine/Operands.lean ====
section
/-! DEFINITION. Numbering (R1 to R9), level paths (R18), disc geometry (R52 to R58), physical sector addresses (R72)
and address marks (R61, R62). -/
namespace Sys2Proof.Machine

/-- Region of a port (R3). -/
def portRegion (d : Nat) : Nat := d / 6

/-- Die of a port (R3). -/
def portDie (d : Nat) : Nat := d / 12

/-- Ports of a region (R3). -/
def regionPorts (r : Nat) : List Nat := (List.range 6).map (6 * r + ·)

/-- Ports of a die (R3). -/
def diePorts (e : Nat) : List Nat := (List.range 12).map (12 * e + ·)

/-- Units of a cluster (R5). -/
def portUnits (d : Nat) : List Nat := (List.range 4).map (4 * d + ·)

/-- A level path from its fields (R18). -/
def levelPath (level die rgn clu slot : Nat) : Nat := level * 2 ^ 13 + die * 2 ^ 12 + rgn * 2 ^ 11 + clu * 2 ^ 8 + slot * 2 ^ 5

/-- Path of a data-beam unit (R18). -/
def unitPath (u : Nat) : Nat := levelPath 0 (u / 48) (u / 24 % 2) (u / 4 % 6) (u % 4)

/-- Path of a cluster, or of one of its sub-blocks: slot 4 srv, 5 spin, 6 axes, 7 the cluster (R18). -/
def clusterPath (d slot : Nat) : Nat := levelPath 1 (d / 12) (d / 6 % 2) (d % 6) slot

/-- Path of a region-common block (R18). -/
def regionPath (r : Nat) : Nat := levelPath 2 (r / 2) (r % 2) 6 7

/-- Path of a die-common block (R18). -/
def diePath (e : Nat) : Nat := levelPath 3 e 0 7 7

/-- Path of the package (R18). -/
def packagePath : Nat := 0x8000

/-- First band turn of a zone (R56). -/
def zoneStart (z : Nat) : Nat := 32 + 346 * z + (z - 6)

/-- Zone of a band turn; the test zones are timed as zones 0 and 97 (R56, R58). -/
def zoneOf (b : Nat) : Nat :=
  if b < 32 then 0 else if b < 2108 then (b - 32) / 346 else min 97 ((b - 26) / 347)

/-- Sectors per revolution in a zone (R56). -/
def zoneSectors (z : Nat) : Nat := 68 + z

/-- Sectors per revolution of a band turn. -/
def sectorsOf (b : Nat) : Nat := zoneSectors (zoneOf b)

/-- Sector positions from the inner end of a layer-side up to a band turn. -/
def positionsBefore (b : Nat) : Nat :=
  if b < 32 then b * 68
  else
    let z := zoneOf b
    ((List.range z).map fun y => (zoneStart (y + 1) - zoneStart y) * zoneSectors y).sum + 32 * 68 + (b - zoneStart z) * zoneSectors z

/-- A sector position counted along the spiral, from its band turn and angular index. -/
def positionOf (b k : Nat) : Nat := positionsBefore b + k

/-- The band turn of a position along the spiral: the highest one that begins at or before it. -/
def bandOf (p : Nat) : Nat :=
  let z := ((List.range 98).filter fun y => positionsBefore (zoneStart y) ≤ p).getLastD 0
  if p < 32 * 68 then p / 68 else zoneStart z + (p - positionsBefore (zoneStart z)) / zoneSectors z

/-- The angular index of a position along the spiral. -/
def angleOf (p : Nat) : Nat := p - positionsBefore (bandOf p)

/-- First position of the user area, of the spare band area, of the outer test zone, and the end (R73). -/
def userStart : Nat := positionOf 32 0
def spareStart : Nat := positionOf 33696 0
def outerTestStart : Nat := positionOf 34032 0
def layerEnd : Nat := positionOf 34063 0 + 165

/-- Physical sector address (R72). -/
def psaOf (side layer band k track : Nat) : Nat := side * 2 ^ 30 + layer * 2 ^ 27 + band * 2 ^ 10 + k * 4 + track

def psaSide (a : Nat) : Nat := a / 2 ^ 30 % 2
def psaLayer (a : Nat) : Nat := a / 2 ^ 27 % 8
def psaBand (a : Nat) : Nat := a / 2 ^ 10 % 2 ^ 17
def psaAngle (a : Nat) : Nat := a / 4 % 256
def psaTrack (a : Nat) : Nat := a % 4

/-- A PSA that addresses a sector: a band turn of the layer-side, an angular index below its S (R55, R72). -/
def psaValid (a : Nat) : Bool := decide (a < 2 ^ 31) && decide (psaBand a ≤ 34063) && decide (psaAngle a < sectorsOf (psaBand a))

/-- Position along the spiral of a PSA. -/
def psaPosition (a : Nat) : Nat := positionOf (psaBand a) (psaAngle a)

/-- The PSA of a position along the spiral. -/
def positionPsa (side layer p track : Nat) : Nat := psaOf side layer (bandOf p) (angleOf p) track

/-- The PSA of slot `i` of a run whose first position is `p` (R74). -/
def slotPsa (side layer p i : Nat) : Nat := positionPsa side layer (p + i / 4) (i % 4)

/-- Radius of the servo track at a band turn in µm (R55). -/
def radiusUm (b : Nat) : Nat := 23968 + b

/-- The 32 bits of an address mark before its check (R61). -/
def markBits (m : Mark) : Nat := m.side * 2 ^ 31 + m.layer * 2 ^ 28 + m.band * 2 ^ 11 + m.mark

/-- The 40 bits of an address mark (R61). -/
def encodeMark (m : Mark) : Nat := markBits m * 256 + crc8 (beBits 32 (markBits m))

/-- An address mark read from 40 bits, when its check holds (R61, R62). -/
def decodeMark (w : Nat) : Option Mark :=
  let v := w / 256 % 2 ^ 32
  if crc8 (beBits 32 v) = w % 256 then
    some ⟨v / 2 ^ 31, v / 2 ^ 28 % 8, v / 2 ^ 11 % 2 ^ 17, v % 2 ^ 11⟩
  else none

/-- The mark that follows a mark by succession (R62). -/
def markNext (m : Mark) : Mark :=
  if m.mark + 1 < 10 * sectorsOf m.band then { m with mark := m.mark + 1 }
  else { m with mark := 0, band := m.band + 1 }

end Sys2Proof.Machine
end

