-- ==== Sys2Proof/Machine/Flags.lean ====
section
/-! DEFINITION. Reading and writing register fields of the chip, and status conditions computed from the state: what a
port reads and burns with (R123 to R127), and ALERT_N (R584). -/
namespace Sys2Proof.Machine

/-- A meaning that changes the chip and leaves the queue and the DRAM bytes. -/
def State.nextChip (s : State) (c : Chip) : Host.Outcome State Fault Refusal := .next { s with chip := c }

/-- A change of the chip that leaves the queue and the DRAM bytes. -/
def State.withChip (s : State) (f : Chip → Chip) : State := { s with chip := f s.chip }

/-- The value of a register field. -/
def Chip.rd (c : Chip) (f : Fld) : Nat := fldGet c.flds f

/-- The chip with a register field written. -/
def Chip.wr (c : Chip) (f : Fld) (v : Nat) : Chip := { c with flds := fldSet c.flds f v }

/-- A one-bit field as a Bool. -/
def Chip.rdb (c : Chip) (f : Fld) : Bool := c.rd f == 1

/-- Writes a one-bit field. -/
def Chip.wrb (c : Chip) (f : Fld) (b : Bool) : Chip := c.wr f b.toNat

/-- Reads a signed field. -/
def Chip.rdi (c : Chip) (f : Fld) : Int := signed f.width (c.rd f)

/-- Writes a signed field. -/
def Chip.wri (c : Chip) (f : Fld) (x : Int) : Chip := c.wr f (unsigned f.width x)

/-- Adds to a counting field, which saturates. -/
def Chip.bump (c : Chip) (f : Fld) (n : Nat := 1) : Chip := c.wr f (satAdd f.width (c.rd f) n)

/-- Writes a value into a field, saturated to its width. -/
def Chip.wrSat (c : Chip) (f : Fld) (v : Nat) : Chip := c.wr f (min v (2 ^ f.width - 1))

/-- A value nothing constrains, and the chip with the counter advanced. -/
def Chip.draw (c : Chip) : Nat × Chip := (Config.freeValue c.free, { c with free := c.free + 1 })

/-- Sends something outside. -/
def Chip.emit (c : Chip) (o : Out) : Chip := { c with sent := c.sent ++ [o] }

def Chip.modClu (c : Chip) (d : Nat) (f : Held → Held) : Chip := { c with clu := tabMod c.clu d f }
def Chip.modRgn (c : Chip) (r : Nat) (f : RegionLevel → RegionLevel) : Chip := { c with rgn := tabMod c.rgn r f }
def Chip.modDie (c : Chip) (e : Nat) (f : DieLevel → DieLevel) : Chip := { c with die := tabMod c.die e f }
def Chip.modLane (c : Chip) (n : Nat) (f : LaneSt → LaneSt) : Chip := { c with lane := tabMod c.lane n f }
def Chip.modScr (c : Chip) (n : Nat) (f : LaneScr → LaneScr) : Chip := { c with scr := tabMod c.scr n f }
def Chip.modLink (c : Chip) (d : Nat) (f : LinkSt → LinkSt) : Chip := { c with link := tabMod c.link d f }
def Chip.modBtl (c : Chip) (d : Nat) (f : BtlSt → BtlSt) : Chip := { c with btl := tabMod c.btl d f }
def Chip.modUnit (c : Chip) (u : Nat) (f : UnitSt → UnitSt) : Chip := { c with unit := tabMod c.unit u f }
def Chip.modPool (c : Chip) (r : Nat) (f : PoolSt → PoolSt) : Chip := { c with pool := tabMod c.pool r f }
def Chip.modRead (c : Chip) (d : Nat) (f : ReadSt → ReadSt) : Chip := { c with read := tabMod c.read d f }
def Chip.modBurn (c : Chip) (d : Nat) (f : BurnSt → BurnSt) : Chip := { c with burn := tabMod c.burn d f }
def Chip.modServo (c : Chip) (d : Nat) (f : ServoSt → ServoSt) : Chip := { c with servo := tabMod c.servo d f }
def Chip.modSpin (c : Chip) (d : Nat) (f : SpinSt → SpinSt) : Chip := { c with spin := tabMod c.spin d f }
def Chip.modAxis (c : Chip) (x : Nat) (f : AxisSt → AxisSt) : Chip := { c with axis := tabMod c.axis x f }
def Chip.modCat (c : Chip) (f : CatSt → CatSt) : Chip := { c with cat := f c.cat }
def Chip.cluSt (c : Chip) (d : Nat) : Held := tabGet c.clu d
def Chip.rgnSt (c : Chip) (r : Nat) : RegionLevel := tabGet c.rgn r
def Chip.dieSt (c : Chip) (e : Nat) : DieLevel := tabGet c.die e
def Chip.laneSt (c : Chip) (n : Nat) : LaneSt := tabGet c.lane n
def Chip.laneScr (c : Chip) (n : Nat) : LaneScr := tabGet c.scr n
def Chip.linkSt (c : Chip) (d : Nat) : LinkSt := tabGet c.link d
def Chip.btlSt (c : Chip) (d : Nat) : BtlSt := tabGet c.btl d
def Chip.unitSt (c : Chip) (u : Nat) : UnitSt := tabGet c.unit u
def Chip.poolSt (c : Chip) (r : Nat) : PoolSt := tabGet c.pool r
def Chip.readSt (c : Chip) (d : Nat) : ReadSt := tabGet c.read d
def Chip.burnSt (c : Chip) (d : Nat) : BurnSt := tabGet c.burn d
def Chip.servoSt (c : Chip) (d : Nat) : ServoSt := tabGet c.servo d
def Chip.spinSt (c : Chip) (d : Nat) : SpinSt := tabGet c.spin d
def Chip.axisSt (c : Chip) (x : Nat) : AxisSt := tabGet c.axis x

/-- The die whose keeper serves the package: the lowest-numbered healthy one (R25). -/
def Chip.servingDie (c : Chip) : Nat := if (c.dieSt 0).out then 1 else 0

/-- A port's link state, 5 being UP (R118). -/
def Chip.portUp (c : Chip) (d : Nat) : Bool := c.rd (F.hlinkStatus_state d) == 5

/-- The lane of a port and lane number. -/
def laneNo (d n : Nat) : Nat := 4 * d + n

/-- Beams missing of a port: lane lost or held down, or unit faulted (R123). -/
def Chip.missingMask (c : Chip) (d : Nat) : Nat :=
  ((List.range 4).filter fun b =>
    !(c.rd (F.hlinkStatus_lane_up d)).testBit b || (c.rd (F.hlinkCtrl_lane_disable d)).testBit b || (c.unitSt (4 * d + b)).out).foldl
      (fun m b => m + 2 ^ b) 0

/-- The pass plan of R124 by the mask of missing beams: passes in the order 0, −1, +1, each with the beams that read in it. -/
def passPlan (missing : Nat) : List (Int × List Nat) :=
  match missing with
  | 0 => [(0, [0, 1, 2, 3])]
  | 1 => [(0, [1, 2, 3]), (-1, [1])]
  | 2 => [(0, [0, 2, 3]), (1, [0])]
  | 4 => [(0, [0, 1, 3]), (-1, [3])]
  | 8 => [(0, [0, 1, 2]), (1, [2])]
  | 5 => [(0, [1, 3]), (-1, [1, 3])]
  | 10 => [(0, [0, 2]), (1, [0, 2])]
  | 9 => [(0, [1, 2]), (-1, [1]), (1, [2])]
  | 6 => [(0, [0, 3]), (-1, [3]), (1, [0])]
  | 3 => [(0, [2, 3]), (-1, [2])]
  | 12 => [(0, [0, 1]), (1, [1])]
  | 14 => [(0, [0]), (1, [0])]
  | 13 => [(0, [1]), (-1, [1]), (1, [1])]
  | 11 => [(0, [2]), (-1, [2]), (1, [2])]
  | 7 => [(0, [3]), (-1, [3])]
  | _ => []

/-- The data track a beam reads in a pass at an offset, as the plan of R124 counts it. DEDUCED, notes/assumptions/6.md. -/
def trackOf (b : Nat) (k : Int) : Nat := ((b : Int) + k).toNat

/-- The tracks a plan reads (R124, R126). -/
def planTracks (missing : Nat) : List Nat :=
  (List.range 4).filter fun t => (passPlan missing).any fun p => p.2.any fun b => trackOf b p.1 == t

/-- Recomputes a port's beam_missing, burn_ok, round trip and passes from its lanes and units (R123, R127). While the port is not UP the field shows
no missing beam. DESIGN CHOICE, notes/assumptions/78.md. -/
def Chip.refreshPort (c : Chip) (d : Nat) : Chip :=
  let miss := c.missingMask d
  let c := c.modRead d fun r => { r with gone := r.gone ||| miss }
  let up := c.rd (F.hlinkStatus_lane_up d)
  let rt := ((maskList 4 up).map fun n => (c.laneSt (laneNo d n)).rt).foldl max 0
  (((c.wr (F.hlinkStatus_beam_missing d) (if c.portUp d then miss else 0)).wrb (F.hlinkStatus_burn_ok d) (c.portUp d && miss == 0 && up == 15)).wrSat
    (F.hlinkStatus_rt d) rt).wr (F.hlinkStatus_passes d) (passPlan miss).length

/-- A drive that a fault or servo loss has isolated, or whose engine or region or die is out or frozen (R20, R26, R116). -/
def Chip.contained (c : Chip) (d : Nat) : Bool :=
  (c.cluSt d).out || (c.cluSt d).frozen || (c.servoSt d).stopped || (c.rgnSt (portRegion d)).out || (c.dieSt (portDie d)).out

/-- The servo engine of a drive's region is out, with its region or its die (R20): no loop, request or spin-up of the drive goes on. -/
def Chip.engineOut (c : Chip) (d : Nat) : Bool := (c.rgnSt (portRegion d)).out || (c.dieSt (portDie d)).out

/-- A flash channel lies in a region or a die that is out: no module on it is seen (R20, R22, R23). -/
def Chip.channelOut (c : Chip) (ch : Nat) : Bool := (c.rgnSt (ch / 2)).out || (c.dieSt (ch / 4)).out

/-- The engine of a flash channel runs: its region's domain is not frozen (R26). -/
def Chip.channelRuns (c : Chip) (ch : Nat) : Bool := !(c.rgnSt (ch / 2)).frozen

/-- A region with its die is out (R20). -/
def Chip.regionOut (c : Chip) (r : Nat) : Bool := (c.rgnSt r).out || (c.dieSt (r / 2)).out

/-- The frond slice that has a row, of region t mod 4, can work on it: while frozen it waits, while it is out another region's does its rows (R20, R26, R318).
DESIGN CHOICE, notes/assumptions/101.md. -/
def Chip.sliceRuns (c : Chip) (t : Nat) : Bool :=
  let runs (r : Nat) : Bool := !c.regionOut r && !(c.rgnSt r).frozen
  if c.regionOut (t % 4) then (List.range 4).any runs else runs (t % 4)

/-- A drive may burn: `burn_ok` (R127), and it is not contained. -/
def Chip.mayBurn (c : Chip) (d : Nat) : Bool := c.rdb (F.hlinkStatus_burn_ok d) && !c.contained d

/-- FAULT_N is asserted: a die is in recovery or out (R556). -/
def Chip.faultN (c : Chip) : Bool := c.mgmt.recovery || (c.dieSt 0).out || (c.dieSt 1).out

/-- ALERT_N is asserted: some event has both latch and alert set (R584). -/
def Chip.alertN (c : Chip) : Bool := (List.range 576).any fun i => c.rdb (F.evCfg_latch i) && c.rdb (F.evCfg_alert i)

/-- Sky time of a die in 2^-48 ns (R445). -/
def Chip.skyUnits (c : Chip) (e : Nat) : Int :=
  let k := tabGet c.sky.clock e
  k.base + ((c.now : Int) - (k.at_ : Int)) * (2 ^ 48 + k.corr)

/-- Sky time of a die in whole nanoseconds (R444, R447). -/
def Chip.skyNs (c : Chip) (e : Nat) : Nat := (c.skyUnits e / 2 ^ 48).toNat

/-- Sky time of the package: the serving die's (R446). -/
def Chip.sky_ (c : Chip) : Nat := c.skyNs c.servingDie

/-- Sky time is valid (R454). -/
def Chip.skyValid (c : Chip) : Bool := c.rdb F.skyStatus_valid

/-- The identity private key, the public key, and its digest (R471). -/
def Chip.identityKey (c : Chip) : Nat := Config.derive 5 [c.trust.seed]
def Chip.identityPub (c : Chip) : Nat := Config.publicKey c.identityKey
def Chip.idDigest (c : Chip) : Nat := Config.sha384 (beBytes 97 c.identityPub)

/-- The keeper timer in ns: 40 ns counts since the last cold reset (R14, R537). -/
def Chip.keeper (c : Chip) : Nat := (c.now - c.chain.resetAt) / 40 * 40

/-- Seal presence is held at this instant of the keeper timer: until 120 s after the loop closed, half-open (R14, R488). -/
def Chip.sealHeld (c : Chip) : Bool :=
  c.rdb F.trust_seal_presence && c.trust.sealClosedAt.all fun t => decide (c.keeper < t + 120 * 10 ^ 9)

end Sys2Proof.Machine
end

