-- ==== Sys2Proof/Machine/Ops.lean ====
section
/-! DEFINITION. Events, host records and the lichen record (R532 to R538, R583 to R588), saving and restoring across resets
(R595), and DRAM bytes. -/
namespace Sys2Proof.Machine

/-! ### Stamps -/

/-- The time field of an entry or record on a die (R532). -/
def Chip.stamp (c : Chip) (e : Nat) : Nat := if c.skyValid then c.skyNs e else c.keeper

/-- The flags of an entry or record on a die (R532). -/
def Chip.stampFlags (c : Chip) (e : Nat) : Nat := c.skyValid.toNat + 2 * e

/-- The system address with its valid bit (R532). -/
def Chip.sysAddr (c : Chip) : Nat := c.rd F.chain_sys_addr + 2 ^ 15 * c.rd F.chain_addr_valid

/-- The die whose ring takes an entry of a path: the path's die, or the serving die at package level (R534). -/
def Chip.pathDie (c : Chip) (path : Nat) : Nat := if 4 ≤ path / 2 ^ 13 then c.servingDie else path / 2 ^ 12 % 2

/-! ### Host route (R585 to R588) -/

/-- Session `s` receives no EVENT packet while frozen (R588). -/
def Chip.sessionFrozen (c : Chip) (s : Nat) : Bool := c.rdb (F.use_frozen s)

/-- The records after a number among those kept. -/
def recordsAfter (kept : List HostRec) (n : Nat) : List HostRec := kept.filter fun r => n < r.seq

/-- Records cut into packets of at most 127 (R586). -/
def packets (s : Nat) : Nat → List HostRec → List Out
  | 0, _ => []
  | _, [] => []
  | n + 1, rs => .eventPacket s (rs.take 127) :: packets s n (rs.drop 127)

/-- Sends to the subscribed session `s` + 1 the records after `start`: one gap record in the place of those no longer kept, then the kept ones
(R587). -/
def Chip.sendRecords (c : Chip) (s : Nat) (sub : SubSt) (start : Nat) : Chip :=
  let kept := c.ev.kept
  let last := c.rd F.evSeq_seq - 1
  let oldest := (kept.head?.map (·.seq)).getD (last + 1)
  let gap : List Out := if start + 1 < oldest then [.gapRecord (s + 1) (oldest - 1) (start + 1) (oldest - 1 - start)] else []
  let out := gap ++ packets (s + 1) kept.length (recordsAfter kept start)
  let sub' : SubSt := { sub with sentTo := last, since := c.now }
  if out = [] then c
  else { c with sent := c.sent ++ out, ev := { c.ev with subs := tabSet c.ev.subs s (some sub') } }

/-- Sends a new record to every subscribed session that is not frozen (R587, R588). -/
def Chip.sendAll (c : Chip) : Chip :=
  c.ev.subs.foldl (fun c e => match e.2 with
    | some sub => if c.sessionFrozen e.1 then c else c.sendRecords e.1 sub sub.sentTo
    | none => c) c

/-- Makes one host record and sends it (R585 to R587). -/
def Chip.hostRecord (c : Chip) (i path : Nat) (data : List Nat) (suppressed : Nat) : Chip :=
  let seq := c.rd F.evSeq_seq
  let e := c.pathDie path
  let r : HostRec := ⟨seq, c.stamp e, c.sysAddr, path, i, c.stampFlags e, c.rd (F.evCnt_count i), suppressed, data⟩
  let kept := c.ev.kept ++ [r]
  let c := { c with ev := { c.ev with
    kept := kept.drop (kept.length - 4096)
    folds := tabSet c.ev.folds i ⟨some c.now, 0, path, data⟩ } }
  (c.wr F.evSeq_seq (seq + 1)).sendAll

/-- The end of the interval in which one event sends one record (R585). -/
def Chip.gapEnd (c : Chip) (last : Nat) : Nat := last + c.rd F.evCtrl_gap_us * 1000

/-- The host route of a raise: a record, or a fold into the next one while the interval of the last record runs (R14, R585). -/
def Chip.hostRoute (c : Chip) (i path : Nat) (data : List Nat) : Chip :=
  let f : FoldSt := tabGet c.ev.folds i
  match f.lastAt with
  | some t =>
    if c.now < c.gapEnd t then
      { c with ev := { c.ev with folds := tabSet c.ev.folds i { f with folded := f.folded + 1, path := path, data := data } } }
    else c.hostRecord i path data f.folded
  | none => c.hostRecord i path data 0

/-- Counts a raise and acts on every route but the lichen record (R583). -/
def Chip.raiseCore (c : Chip) (i path : Nat) (data : List Nat) : Chip :=
  let c := c.bump (F.evCnt_count i)
  if c.rdb (F.evCfg_en i) then
    let c := c.wr (F.evCfg_latch i) 1
    if c.rdb (F.evCfg_host i) then c.hostRoute i path (padTo 32 data) else c
  else c

/-- The raise writes a lichen entry (R583, R585). -/
def Chip.lichenRouted (c : Chip) (i : Nat) : Bool := c.rdb (F.evCfg_en i) && c.rdb (F.evCfg_lichen i)

/-! ### Lichen record (R532 to R538) -/

def Chip.ring (c : Chip) (e : Nat) : List LichenEntry := if e = 0 then c.lichen.ring0 else c.lichen.ring1

def Chip.setRing (c : Chip) (e : Nat) (l : List LichenEntry) : Chip :=
  { c with lichen := if e = 0 then { c.lichen with ring0 := l } else { c.lichen with ring1 := l } }

def Chip.frozenRecord (c : Chip) : Bool := c.rdb F.lichenCtrl_frozen

/-- One entry less stored while the record is frozen (R537). -/
def Chip.dropEntry (c : Chip) (e : Nat) : Chip := c.bump (F.lichenCnt_dropped e)

/-- Whether an entry is stamped before the freeze instant, in the base in which it is stamped (R537). -/
def beforeFreeze (sky : Option Nat) (keeper : Nat) (x : LichenEntry) : Bool :=
  if x.flags.testBit 0 then
    match sky with
    | some f => decide (x.time < f)
    | none => true
  else decide (x.time < keeper)

/-- The place of an entry among those of its cycle: ascending level path, then code; containment entries of one die follow in ascending master number,
their first byte of data (R500, R534). -/
def LichenEntry.place (x : LichenEntry) : Nat :=
  (x.path * 2 ^ 16 + x.code) * 2 ^ 8 + if x.code = 453 ∨ x.code = 485 then x.data.headD 0 else 0

/-- Whether an entry of a die's ring carries the stamp that die gives at this instant: the entries of one cycle. -/
def Chip.thisCycle (c : Chip) (e : Nat) (x : LichenEntry) : Bool := x.time == c.stamp e && x.flags == c.stampFlags e

/-- The entries at the end of a die's ring that are of this cycle and come after a place in its order (R534). -/
def Chip.laterEntries (c : Chip) (e place : Nat) : List LichenEntry :=
  ((c.ring e).reverse.takeWhile fun y => c.thisCycle e y && decide (place < y.place)).reverse

/-- Puts an entry into a die's ring at its place among those of its cycle; seq runs on through the ring, and the oldest entry goes when the ring is
full (R532, R534). The power-failure entry is the last one (R541). -/
def Chip.storeEntry (c : Chip) (e : Nat) (x : LichenEntry) : Chip :=
  let later := if x.code = 0x0400 then [] else c.laterEntries e x.place
  let seq := c.rd (F.lichenCnt_seq e)
  let first := (later.head?.map LichenEntry.seq).getD seq
  let ring := (c.ring e).take ((c.ring e).length - later.length) ++
    { x with seq := first } :: later.map fun y => { y with seq := (y.seq + 1) % 2 ^ 32 }
  (c.setRing e (ring.drop (ring.length - 32768))).wr (F.lichenCnt_seq e) (seq + 1)

/-- A ring of which only some entries stay: those that go are counted in dropped, and seq runs on from the entries that stay (R535, R537). -/
def Chip.keepEntries (c : Chip) (e : Nat) (keep : List LichenEntry) : Chip :=
  let gone := (c.ring e).length - keep.length
  ((c.setRing e keep).wr (F.lichenCnt_seq e) (c.rd (F.lichenCnt_seq e) + 2 ^ 32 - gone)).bump (F.lichenCnt_dropped e) gone

/-- An entry is the trigger: of the entries of its cycle, on either die, those that follow it are not stored (R536). -/
def Chip.cutAfter (c : Chip) (x : LichenEntry) : Chip :=
  let cut (c : Chip) (e : Nat) : Chip := c.keepEntries e ((c.ring e).take ((c.ring e).length - (c.laterEntries e x.place).length))
  let c := cut (cut c 0) 1
  { c with lichen := { c.lichen with trigger := some x } }

/-- A cluster's trace freezes at this instant, unless it is frozen (R259). -/
def Chip.freezeTrace (c : Chip) (d : Nat) : Chip :=
  if c.rdb (F.traceCtrl_frozen d) then c else { c.wr (F.traceCtrl_frozen d) 1 with traceAt := tabSet c.traceAt d c.now }

/-- Every cluster's trace freezes (R259, R537). -/
def Chip.freezeTraces (c : Chip) : Chip := (List.range 24).foldl Chip.freezeTrace c

/-- Freezes the record: the instant in both bases, and for a launch, a register write or a die fault the entries stamped at or
after it are removed and counted (R536, R537). The record-frozen event is raised while the record is frozen. -/
def Chip.freezeRecord (c : Chip) (trigger : Nat) (sky : Option Nat) (keeper : Nat) : Chip :=
  if c.frozenRecord then c
  else
    let cut (c : Chip) (e : Nat) : Chip := c.keepEntries e ((c.ring e).filter (beforeFreeze sky keeper))
    let c := if trigger = 2 then c else cut (cut c 0) 1
    let c := (((c.wr F.lichenCtrl_frozen 1).wrb F.lichenCtrl_f_sky sky.isSome).wr F.lichenFreeze_f (sky.getD keeper)).freezeTraces
    let routed := c.lichenRouted 549
    let c := c.raiseCore 549 packagePath (beBytes 8 (sky.getD keeper) ++ [trigger])
    if routed then c.dropEntry c.servingDie else c

/-- Whether a code matches an enabled trigger (R536). -/
def Chip.triggers (c : Chip) (code : Nat) : Bool :=
  (List.range 8).any fun i => c.rdb (F.lichenTrig_en i) && c.rd (F.lichenTrig_event i) == code

/-- Whether an entry is of the cycle of the entry that froze the record and precedes it: it is kept (R536). -/
def Chip.precedesTrigger (c : Chip) (x : LichenEntry) : Bool :=
  match c.lichen.trigger with
  | some t => c.thisCycle (c.pathDie t.path) t && decide (x.place < t.place)
  | none => false

/-- Writes an entry, or counts it while the record is frozen; after a power failure nothing is recorded (R533 to R538, R541). -/
def Chip.lichenWrite (c : Chip) (code path : Nat) (data : List Nat) : Chip :=
  let e := c.pathDie path
  let x : LichenEntry := ⟨c.stamp e, 0, c.sysAddr, path, code, c.stampFlags e, padTo 32 data⟩
  if c.lichen.stopped then c
  else if c.frozenRecord then
    if c.precedesTrigger x then (if c.triggers code then (c.storeEntry e x).cutAfter x else c.storeEntry e x) else c.dropEntry e
  else
    let c := c.storeEntry e x
    if c.triggers code then
      (c.cutAfter x).freezeRecord 2 (if c.skyValid then some x.time else none) (if c.skyValid then c.keeper else x.time)
    else c

/-- Releases a frozen record: the rearmed entry is written, its event raised, recording resumes (R538). -/
def Chip.rearmRecord (c : Chip) (session : Nat) : Chip :=
  if c.frozenRecord then
    let f := c.rd F.lichenFreeze_f
    let c := ((c.wr F.lichenCtrl_frozen 0).wr F.lichenCtrl_f_sky 0).wr F.lichenFreeze_f 0
    let c := { c with lichen := { c.lichen with trigger := none } }
    let c := c.lichenWrite 0x0407 packagePath (beBytes 2 session ++ beBytes 8 f)
    let routed := c.lichenRouted 550
    let c := c.raiseCore 550 packagePath []
    if routed then c.lichenWrite 550 packagePath [] else c
  else c

/-- Raises an event: it is counted, and when enabled latched and routed; a reserved identifier is never raised (R583, R589). -/
def Chip.raise (c : Chip) (i path : Nat) (data : List Nat) : Chip :=
  if eventDefined i then
    let routed := c.lichenRouted i
    let c := c.raiseCore i path data
    if routed then c.lichenWrite i path data else c
  else c

/-- A cluster event (R590), its path naming the cluster or a sub-block. -/
def Chip.raiseClu (c : Chip) (d k slot : Nat) (data : List Nat) : Chip := c.raise (16 * d + k) (clusterPath d slot) data

/-- A unit's event in its cluster's block (R33, R590). -/
def Chip.raiseUnit (c : Chip) (u k : Nat) (data : List Nat) : Chip := c.raise (16 * (u / 4) + k) (unitPath u) data

/-- A region event (R591). -/
def Chip.raiseRgn (c : Chip) (r k : Nat) (data : List Nat) : Chip := c.raise (384 + 16 * r + k) (regionPath r) data

/-- A die event (R592). -/
def Chip.raiseDie (c : Chip) (e k : Nat) (data : List Nat) : Chip := c.raise (448 + 32 * e + k) (diePath e) data

/-- A package event (R593). -/
def Chip.raisePkg (c : Chip) (k : Nat) (data : List Nat) : Chip := c.raise (512 + k) packagePath data

/-- The 64 bytes of a lichen entry (R532). -/
def lichenBytes (x : LichenEntry) : List Nat :=
  let b := beBytes 8 x.time ++ beBytes 4 x.seq ++ beBytes 2 x.sysAddr ++ beBytes 2 x.path ++ beBytes 2 x.code ++ [x.flags] ++
    List.replicate 5 0 ++ padTo 32 x.data
  b ++ beBytes 8 (crc64 b)

/-! ### Spin-up places (R30 to R32) -/

/-- The waiting starts of a region are admitted in rotating priority while places are free (R31, R32, R34). -/
def Chip.spinupFree (c : Chip) (r : Nat) : Bool := c.rd (F.spinup_spinup_active r) < c.rd (F.spinup_spinup_max r)

/-! ### DRAM bytes (R368, R369) -/

/-- The byte an unlisted address reads as: power-up writes zeros to every usable block (R509). -/
def dramDefault : BitVec 8 := 0

/-- Whether an address lies in one of the two usable ranges of 7 GiB (R369). -/
def dramMapped (a : Nat) : Bool :=
  decide (a < 7 * 2 ^ 30) || (decide (0x200000000 ≤ a) && decide (a < 0x200000000 + 7 * 2 ^ 30))

/-- The byte at an address. -/
def memRead : List Host.Cell → Nat → BitVec 8
  | [], _ => dramDefault
  | (k, v) :: t, a => if a = k then v else memRead t a

/-- Lists a byte, keeping the addresses rising. -/
def memInsert : List Host.Cell → Nat → BitVec 8 → List Host.Cell
  | [], a, v => [(a, v)]
  | (k, w) :: t, a, v =>
    if a < k then (a, v) :: (k, w) :: t
    else if a = k then (a, v) :: t
    else (k, w) :: memInsert t a v

/-- Writes a byte: the value an unlisted address reads as is not listed; outside the usable ranges nothing is written (R369). -/
def memWrite (m : List Host.Cell) (a : Nat) (v : BitVec 8) : List Host.Cell :=
  if dramMapped a then
    if v = dramDefault then m.filter fun e => e.1 != a else memInsert m a v
  else m

/-- Reads bytes from rising addresses. -/
def memReads (m : List Host.Cell) (a n : Nat) : List Nat := (List.range n).map fun i => (memRead m (a + i)).toNat

/-- Writes bytes at rising addresses. -/
def memWrites (m : List Host.Cell) : Nat → List Nat → List Host.Cell
  | _, [] => m
  | a, b :: bs => memWrites (memWrite m a (BitVec.ofNat 8 b)) (a + 1) bs

/-- The canonical form of the DRAM: addresses strictly rising, mapped, and no byte equal to what an unlisted address reads as. -/
def memWf (m : List Host.Cell) : Bool :=
  decide ((m.map (·.1)).Pairwise (· < ·)) && m.all fun e => dramMapped e.1 && e.2 != dramDefault

end Sys2Proof.Machine
end

