-- ==== Sys2Proof/Machine/Journal.lean ====
section
/-! DEFINITION. The catalogue's records and the journal that keeps them (R322, R323, R344 to R348, R599): look-ups, places of the flash pool, records and
their durability; and the freeing of tiles (R378). -/
namespace Sys2Proof.Machine

/-! ### Catalogue look-ups (R323) -/

def findObj (l : List ObjRec) (i : Nat) : Option ObjRec := l.find? fun o => o.id == i
def findFrond (l : List FrondRec) (i : Nat) : Option FrondRec := l.find? fun o => o.id == i
def findDisc (l : List DiscRec) (i : Nat) : Option DiscRec := l.find? fun o => o.id == i

def Chip.modObj (c : Chip) (i : Nat) (f : ObjRec → ObjRec) : Chip :=
  c.modCat fun k => { k with objects := k.objects.map fun o => if o.id = i then f o else o }
def Chip.modFrond (c : Chip) (i : Nat) (f : FrondRec → FrondRec) : Chip :=
  c.modCat fun k => { k with fronds := k.fronds.map fun o => if o.id = i then f o else o }
def Chip.modDisc (c : Chip) (i : Nat) (f : DiscRec → DiscRec) : Chip :=
  c.modCat fun k => { k with discs := k.discs.map fun o => if o.id = i then f o else o }

/-- Changes one pinna of a frond. -/
def Chip.modPinna (c : Chip) (fr pi : Nat) (f : PinnaRec → PinnaRec) : Chip :=
  c.modFrond fr fun r => { r with pinnae := r.pinnae.zipIdx.map fun e => if e.2 = pi then f e.1 else e.1 }

/-- Changes one layer-side of a disc, numbered 8 × side + layer. -/
def Chip.modSide (c : Chip) (disc ls : Nat) (f : LayerSide → LayerSide) : Chip :=
  c.modDisc disc fun r => { r with sides := tabMod r.sides ls f }

/-- The disc loaded in a drive and its side: LOADED and not foreign (R324, R326). -/
def Chip.loadedDisc (c : Chip) (d : Nat) : Option (Nat × Nat) :=
  if c.rd (F.discStatus_state d) = 5 ∧ c.rd (F.discStatus_foreign d) = 0 then
    some (c.rd (F.discId_id d), c.rd (F.discStatus_side d))
  else none

/-- A layer-side of a disc in the catalogue. -/
def Chip.layerSide (c : Chip) (disc ls : Nat) : LayerSide :=
  tabGet ((findDisc c.cat.discs disc).map (·.sides) |>.getD []) ls

/-- Recounts the frond states in their register (R307). -/
def Chip.refreshFronds (c : Chip) : Chip :=
  let fs := c.cat.fronds
  let openMask := ((List.range 8).filter fun s => fs.any fun f => f.shape == s && f.state == .opened).foldl (fun m s => m + 2 ^ s) 0
  let waiting := (fs.filter fun f => f.state == .sealing || f.state == .parity || f.state == .placing).length
  let burning := (fs.filter fun f => f.state == .burning).length
  let returned := (fs.map fun f => (f.pinnae.filter fun p => p.state == .returned).length).sum
  (((c.wr F.frondStatus_open openMask).wrSat F.frondStatus_waiting waiting).wrSat F.frondStatus_burning burning).wrSat
    F.frondStatus_returned returned

/-! ### The pool (R329, R336, R346) -/

def Chip.modMoss (c : Chip) (f : MossSt → MossSt) : Chip := { c with moss := f c.moss }
def Chip.chan (c : Chip) (ch : Nat) : ChanSt := tabGet c.moss.chans ch
def Chip.modChan (c : Chip) (ch : Nat) (f : ChanSt → ChanSt) : Chip := c.modMoss fun m => { m with chans := tabMod m.chans ch f }
def Chip.setSt (c : Chip) (s : Nat) : SetRec := tabGet c.moss.sets s
def Chip.modSet (c : Chip) (s : Nat) (f : SetRec → SetRec) : Chip := c.modMoss fun m => { m with sets := tabMod m.sets s f }

/-- A channel's status register fields: FC2r + c belongs to region r (R8). -/
def Chip.fcState (c : Chip) (ch : Nat) : Nat := c.rd (F.fcStatus_state (ch / 2) (ch % 2))

/-- A channel that takes part in forming sets: healthy or rebuilding (R336, R360, R363). -/
def Chip.chUsable (c : Chip) (ch : Nat) : Bool := c.fcState ch == 2 || c.fcState ch == 4

/-- A channel whose pages can be read. -/
def Chip.chReads (c : Chip) (ch : Nat) : Bool := c.chUsable ch

/-- No sanitise or format replaces the pool (R441). -/
def Chip.poolStands (c : Chip) : Bool := c.moss.op.isNone

/-- The pool takes writes: mounted, not offline, no sanitise or format runs, power has not failed (R346, R361, R441,
R599). -/
def Chip.poolWrites (c : Chip) : Bool := c.rdb F.mossStatus_mounted && !c.rdb F.mossStatus_offline && c.poolStands && c.power.pfail.isNone

/-- Block reserve and over-provisioning of the pool as it was last formatted: a write to the registers applies at the next format. DESIGN CHOICE,
notes/assumptions/32.md: a pool formatted elsewhere has the registers' reset values. -/
def Chip.sparePct (c : Chip) : Nat := c.moss.fmt.elim F.mossCtrl_spare_pct.reset (·.1)
def Chip.opPct (c : Chip) : Nat := c.moss.fmt.elim F.mossCtrl_op_pct.reset (·.2)

/-! ### Places (R335, R340) -/

/-- The number a page's place is kept under. -/
def placeKey (ch tgt blk pg : Nat) : Nat := ((ch * 8 + tgt) * 2 ^ 18 + blk) * 2 ^ 12 + pg

/-- Number of a target's block or position. -/
def tgtBlk (tgt blk : Nat) : Nat := tgt * 2 ^ 18 + blk

/-- A position with no replacement block (R348, RETIRE). -/
def noBlock : Nat := 0xFFFFFFFF

/-- The block a channel's remap table holds for a set: none when its position has no block (R335, R354). Positions lie on the blocks in
rising order, after the anchors of target 0, until they are remapped. DESIGN CHOICE, notes/assumptions/8.md. -/
def Chip.setBlock (c : Chip) (ch s : Nat) : Option Nat :=
  let t := s / c.moss.nb
  let b := s % c.moss.nb
  match tabFind (c.chan ch).remap (tgtBlk t b) with
  | some (some k) => if k = noBlock then none else some k
  | _ => if (tabFind (c.chan ch).targets t).isNone then none else some (if t = 0 then b + 2 else b)

/-- The target index of a set. -/
def Chip.setTarget (c : Chip) (s : Nat) : Nat := s / c.moss.nb

/-- Sets of the pool: those of every target that some channel accepts. -/
def Chip.setCount (c : Chip) : Nat :=
  if c.moss.nb = 0 then 0
  else c.moss.nb * ((List.range 8).filter fun t => (List.range 8).any fun ch => (tabFind (c.chan ch).targets t).isSome).length

/-- Members a set would be formed with now (R336). -/
def Chip.formMembers (c : Chip) (s : Nat) : Nat :=
  ((List.range 8).filter fun ch => c.chUsable ch && (c.setBlock ch s).isSome).foldl (fun m ch => m + 2 ^ ch) 0

/-- Member channels of a set, ascending. -/
def SetRec.channels (r : SetRec) : List Nat := maskList 8 r.members

/-- The parity channel of a row (R335). -/
def SetRec.parity (r : SetRec) (s row : Nat) : Nat := r.channels.getD ((s + row) % r.channels.length) 0

/-- The data channels of a row, ascending. -/
def SetRec.dataChannels (r : SetRec) (s row : Nat) : List Nat := r.channels.filter (· != r.parity s row)

/-- The last row of a set. -/
def Chip.lastRow (c : Chip) : Nat := c.moss.pages - 1

/-- Erase count of a set: the sum over its members' blocks (R343, R358). -/
def Chip.setErases (c : Chip) (s : Nat) : Nat :=
  ((List.range 8).map fun ch => (c.setBlock ch s).elim 0 fun b => tabGet (c.chan ch).erases (tgtBlk (c.setTarget s) b)).sum

/-- Free sets. -/
def Chip.freeSets (c : Chip) : Nat := c.setCount - (c.moss.sets.filter fun e => e.2.phase != 0).length

/-- Recounts the free sets (pkg.moss.status.free). -/
def Chip.refreshFree (c : Chip) : Chip := c.wr F.mossStatus_free (if c.setCount = 0 then 0 else c.freeSets * 1000 / c.setCount)

/-! ### Journal (R345, R347, R348) -/

/-- Bytes of a record: envelope and padded payload. -/
def recordBytes (r : JRec) : List Nat :=
  let p := padTo ((r.payload.length + 7) / 8 * 8) r.payload
  [r.type, r.more.toNat] ++ beBytes 2 r.payload.length ++ [0, 0, 0, 0] ++ beBytes 8 r.lsn ++ p

/-- Takes the next lsn, which pages written before their record carry (R332, R348). -/
def Chip.takeLsn (c : Chip) : Nat × Chip := (c.moss.lsn + 1, c.modMoss fun m => { m with lsn := m.lsn + 1 })

/-- Appends a journal record under an lsn taken for it; the buffer stays in lsn order (R348, R364). -/
def Chip.recordAt (c : Chip) (lsn type : Nat) (payload : List Nat) (more : Bool := false) : Chip :=
  c.modMoss fun m => { m with
    buf := (m.buf.filter fun r => decide (r.lsn < lsn)) ++ ⟨lsn, type, more, payload, none⟩ :: m.buf.filter fun r => decide (lsn < r.lsn)
    jBytes := m.jBytes + 16 + (payload.length + 7) / 8 * 8 }

/-- Appends a journal record; it receives the next lsn (R348). -/
def Chip.record (c : Chip) (type : Nat) (payload : List Nat) (more : Bool := false) : Chip :=
  c.modMoss fun m => { m with
    lsn := m.lsn + 1
    buf := m.buf ++ [⟨m.lsn + 1, type, more, payload, none⟩]
    jBytes := m.jBytes + 16 + (payload.length + 7) / 8 * 8 }

/-- Appends a catalogue record; what the catalogue is with it is what a power loss after its durability leaves (R322, R348). -/
def Chip.catRecord (c : Chip) (type : Nat) (payload : List Nat) (more : Bool := false) : Chip :=
  let c := c.record type payload more
  { c with catSnaps := c.catSnaps ++ [(c.moss.lsn, c.cat)] }

/-- The lsn of the newest record. -/
def Chip.lastLsn (c : Chip) : Nat := c.moss.lsn

/-- Appends a catalogue record, or keeps it while the pool takes no writes (R322, R599). -/
def Chip.catalogue (c : Chip) (type : Nat) (payload : List Nat) (more : Bool := false) : Chip :=
  if c.poolWrites && c.cat.kept == [] then c.catRecord type payload more
  else c.modCat fun k => { k with kept := k.kept ++ [type :: more.toNat :: payload] }

/-- What waits on the newest catalogue change: its lsn, or 0 while the change is kept. -/
def Chip.catLsn (c : Chip) : Nat := if c.cat.kept = [] then c.moss.lsn else 0

/-- The last row of a set that is programmed: of a closed one, the last that is. DEDUCED, notes/assumptions/105.md. -/
def Chip.endRow (c : Chip) (s : Nat) : Nat := if (c.setSt s).phase = 1 then c.lastRow else (c.setSt s).row - 1

/-- Row safety: every member has programmed the row `pair_dist` further on, or the last one, and every program of those rows passed (R344). -/
def Chip.rowSafe (c : Chip) (s row : Nat) : Bool :=
  let r := c.setSt s
  r.phase == 0 || r.channels.all fun ch =>
    !c.chUsable ch ||
    let pd := c.rd (F.fcCfg_pair_dist (ch / 2) (ch % 2))
    (List.range (min (row + pd) (c.endRow s) + 1 - row)).all fun i =>
      (tabGet r.passed (row + i)).testBit ch && !r.fails.contains (row + i, ch)

/-- A record is durable: its page's row is safe (R345); lsn 0 stands for a kept change, durable once nothing is kept or buffered. -/
def Chip.recDurable (c : Chip) (lsn : Nat) : Bool :=
  if lsn = 0 then c.cat.kept == [] && c.moss.buf == []
  else !(c.moss.buf.any fun r => r.lsn == lsn) && c.moss.recs.all fun r => r.lsn != lsn ||
    (match r.page with | some p => c.rowSafe p.1 p.2.1 | none => false)

/-- Everything a command waits for is durable: its records, and the rows of the granules they map (R345). -/
def Chip.allDurable (c : Chip) (lsns : List Nat) : Bool :=
  lsns.all fun l => c.recDurable l && !(c.moss.writes.any fun w => w.lsn == l)

/-! ### Catalogue records (R323, R348) -/

def objStateCode : ObjState → Nat
  | .opened => 0 | .committed => 1 | .void => 2 | .discarded => 3

def frondStateCode : FrondState → Nat
  | .opened => 0 | .sealing => 1 | .parity => 2 | .placing => 3 | .burning => 4 | .burned => 5

def pinnaStateCode : PinnaState → Nat
  | .staged => 0 | .burning => 1 | .complete => 2 | .returned => 3

/-- SEQ record: the next sequences. -/
def Chip.logSeq (c : Chip) : Chip := c.catalogue 0x20 (beBytes 8 (c.cat.frondSeq + 1) ++ beBytes 8 (c.cat.discSeq + 1))

/-- OBJECT record. -/
def Chip.logObject (c : Chip) (i : Nat) : Chip :=
  match findObj c.cat.objects i with
  | none => c
  | some o => c.catalogue 0x21 (beBytes 8 i ++ [objStateCode o.state, o.shape, o.level, o.poly, 0, 0, 0, 0] ++ beBytes 16 o.owner ++
      beBytes 8 o.declared ++ beBytes 8 o.length ++ beBytes 16 o.salt ++ beBytes 8 o.check ++ beBytes 8 o.running)

/-- EXTENT record. -/
def Chip.logExtent (c : Chip) (i : Nat) (e : ExtentRec) : Chip :=
  c.catalogue 0x22 (beBytes 8 i ++ beBytes 8 e.oblock ++ beBytes 8 e.frond ++ beBytes 4 e.fblock ++ beBytes 4 e.blocks)

/-- Manifest blocks for a number of extents (R306). -/
def manifestBlocks (n : Nat) : Nat := (64 + 64 * n + 4095) / 4096

/-- FROND record. -/
def Chip.logFrond (c : Chip) (i : Nat) : Chip :=
  match findFrond c.cat.fronds i with
  | none => c
  | some f => c.catalogue 0x23 (beBytes 8 i ++ [f.k, f.m] ++ beBytes 2 f.q ++ [frondStateCode f.state, f.shape, 0, 0] ++ beBytes 8 f.sealedAt ++
      beBytes 8 f.t0 ++ beBytes 4 (manifestBlocks f.nExtents) ++ [0, 0, 0, 0])

/-- Spoiled attempts of a pinna on one disc (R226). -/
def PinnaRec.spoilsOn (p : PinnaRec) (disc : Nat) : Nat := ((p.spoils.filter fun e => e.1 == disc).map (·.2.2)).sum

/-- PINNA record: the PSAs of its runs in order. -/
def Chip.logPinna (c : Chip) (fr pi : Nat) : Chip :=
  match (findFrond c.cat.fronds fr).bind fun f => f.pinnae[pi]? with
  | none => c
  | some p => c.catalogue 0x24 (beBytes 8 fr ++ [pi, pinnaStateCode p.state, p.spoilsOn p.disc, p.side, p.layer, 0] ++
      beBytes 2 p.firstPsa.length ++ beBytes 8 p.moss ++ beBytes 8 p.disc ++
      (p.firstPsa.mergeSort fun a b => decide (a.1 ≤ b.1)).flatMap fun e => beBytes 4 e.2)

/-- LAYERSIDE record; a test zone without an entry has all ones in its field. DESIGN CHOICE, notes/assumptions/94.md. -/
def Chip.logSide (c : Chip) (disc ls : Nat) : Chip :=
  let l := c.layerSide disc ls
  let test (start : Nat) (t : Option Nat) : Nat := t.elim 0xFFFFFFFF fun n => positionPsa (ls / 8) (ls % 8) (start + n) 0
  let foreign := ((findDisc c.cat.discs disc).map (·.foreign)).getD false
  c.catalogue 0x25 (beBytes 8 disc ++ [ls / 8, ls % 8, foreign.toNat, l.closed.toNat, 0, 0, 0, 0] ++ beBytes 4 l.next ++
    beBytes 4 (test 0 l.testIn) ++ beBytes 4 (test outerTestStart l.testOut) ++ [0, 0, 0, 0])

/-- LOAD record. -/
def Chip.logLoad (c : Chip) (port side disc : Nat) : Chip := c.catalogue 0x26 ([port, side, 0, 0, 0, 0, 0, 0] ++ beBytes 8 disc)

/-- RUN_OPEN record, the open-run record of R219. -/
def Chip.logRunOpen (c : Chip) (disc fr pi run side layer psa : Nat) : Chip :=
  c.catalogue 0x27 (beBytes 8 disc ++ beBytes 8 fr ++ [pi, run, side, layer] ++ beBytes 4 psa)

/-- RUN_CLOSE record: outcome 0 complete, 1 terminated. -/
def Chip.logRunClose (c : Chip) (disc fr pi run outcome psa term : Nat) : Chip :=
  c.catalogue 0x28 (beBytes 8 disc ++ beBytes 8 fr ++ [pi, run, outcome, 0] ++ beBytes 4 psa ++ beBytes 4 term ++ [0, 0, 0, 0])

/-! ### Tiles that are given back (R378, R380) -/

/-- A use or a fill of a tile ends and its owner frees it: at once with no use left, otherwise when uses reach 0 (R378, R380). The zeroing of
a poisoned tile is a command of its own. -/
def freeTiles (m : Tab TileRec) (ts : List Nat) : Tab TileRec :=
  ts.foldl (fun m t =>
    let r : TileRec := tabGet m t
    if r.state = 3 ∨ r.uses ≠ 0 then tabSet m t { r with freeing := true } else tabSet m t default) m

/-- An entry of the merge buffer gathers a beat of a tile. -/
def MergeEntry.ofTile (m : MergeEntry) (t : Nat) : Bool := m.tile && m.block / 0x200000000 == t / 2 ^ 20 && m.block % 0x200000000 / 4096 == t % 2 ^ 20

/-- Gathered beats of tiles that are free again are given up. -/
def Chip.dropGathered (c : Chip) (ts : List Nat) : Chip :=
  ts.foldl (fun c t =>
    if (tabFind c.tiles t).isNone ∧ (tabGet c.buf (t / 2 ^ 20)).merge.any (·.ofTile t) then
      { c with buf := tabMod c.buf (t / 2 ^ 20) fun x => { x with merge := x.merge.filter fun m => !m.ofTile t } }
    else c) c

def Chip.freeTiles (c : Chip) (ts : List Nat) : Chip := { c with tiles := Machine.freeTiles c.tiles ts }.dropGathered ts

end Sys2Proof.Machine
end

