-- ==== Sys2Proof/Machine/Profile.lean ====
section
/-! DEFINITION. The profile of an axis move (08_spindle_and_axes.md, R283 to R286, R292, R594): levels, speeds, timer counts, phase currents; and bisection.
Speeds are kept as v² in 1/128 (full step/s)², so that no step rounds them. -/
namespace Sys2Proof.Machine

/-- The largest P below `2^n + lo` that a monotone test accepts, by bisection upward from `lo`. -/
def bisect (p : Nat → Bool) : Nat → Nat → Nat
  | 0, lo => lo
  | n + 1, lo => if p (lo + 2 ^ n) then bisect p n (lo + 2 ^ n) else bisect p n lo

/-! ### Levels (R284) -/

/-- Microsteps of a step at a level (R284). -/
def levelSteps (k : Nat) : Nat := [1, 4, 16, 64, 256].getD k 1

/-- v ≥ th_j, and the same with the hysteresis. -/
def atLeast (v2 th : Nat) : Bool := decide (128 * th ^ 2 ≤ v2)
def atLeastHyst (v2 th hyst : Nat) : Bool := decide (128 * th ^ 2 * (8 - hyst) ^ 2 ≤ 64 * v2)

/-- The highest level whose threshold a test accepts; level 0 has the threshold 0. -/
def highestLevel (p : Nat → Bool) (th : List Nat) : Nat :=
  ((List.range 5).filter fun j => j == 0 || p (th.getD (j - 1) 0)).getLastD 0

/-- The level of the step that leaves a position (R284): it changes at full-step positions only, up to the highest level reached or down with the
hysteresis; it is 0 up to the first full-step position of a move and from the last one before the target, which an emergency stop has no more. -/
def nextLevel (m : MoveSt) (level : Nat) (pos : Int) : Nat :=
  if pos % 256 ≠ 0 then level
  else if !m.firstFull || (!m.emergency && decide ((m.target - pos).natAbs ≤ 256)) then 0
  else
    let up := highestLevel (fun t => atLeast m.v2 t) m.th
    let down := highestLevel (fun t => atLeastHyst m.v2 t m.hyst) m.th
    if level < 4 ∧ atLeast m.v2 (m.th.getD level 0) then up
    else if 0 < level ∧ !atLeastHyst m.v2 (m.th.getD (level - 1) 0) m.hyst then down
    else level

/-! ### Speeds and intervals (R285, R292) -/

/-- v_next² after a step of n microsteps with r to go after it, and whether the third term sets it below v (R285, R292). -/
def nextSpeed (m : MoveSt) (n r : Nat) : Nat × Bool :=
  if m.emergency then (m.v2 - m.dEs * n, true)
  else
    let cap := min (128 * m.vMax ^ 2) (m.v2 + m.a * n)
    let third := m.d * r
    (min cap third, decide (third < cap) && decide (third < m.v2))

/-- √x + √y ≤ b, without roots. -/
def rootsWithin (x y b : Nat) : Bool := decide (x + y ≤ b ^ 2) && decide (4 * x * y ≤ (b ^ 2 - x - y) ^ 2)

/-- The timer counts of a step of n microsteps between two speeds: 2Δ / (v + v_next) in 10 ns, to the nearest count, a half up, at least 246 (R285, R594).
Between two speeds of 0 the quotient is a free value. DESIGN CHOICE, notes/assumptions/16.md. -/
def stepCounts (n v2 v2' : Nat) : Nat :=
  if v2 = 0 ∧ v2' = 0 then max 246 (Config.quotByZero n).toNat
  else max 246 (bisect (fun t => rootsWithin ((2 * t - 1) ^ 2 * 128 * v2) ((2 * t - 1) ^ 2 * 128 * v2') (2 * n * 10 ^ 8)) 32 0)

/-- The next step of a move, from the level in force and a position: its level, its microsteps, the speed after it and whether the move slows. -/
def MoveSt.step (m : MoveSt) (level : Nat) (pos : Int) : Nat × Nat × Nat × Bool :=
  let k := nextLevel m level pos
  let left := (m.target - pos).natAbs
  let n := if m.emergency then levelSteps k else min (levelSteps k) left
  let v := nextSpeed m n (left - n)
  (k, n, v.1, m.slowing || v.2)

/-- The timer is loaded with the interval to the next step (R286). -/
def MoveSt.load (m : MoveSt) (level : Nat) (pos : Int) : MoveSt :=
  let p := m.step level pos
  { m with timer := stepCounts p.2.1 m.v2 p.2.2.1 }

/-- Phase demands at a position, in mA, from a current in 0.01 mA (R283, R594). -/
def phaseAmps (amps : Nat) (pos : Int) : Int × Int :=
  let a := (pos + 128) * 2 ^ 22
  (roundDiv (amps * cosTurn a) (100 * 2 ^ 30), roundDiv (amps * sinTurn a) (100 * 2 ^ 30))

end Sys2Proof.Machine
end

