-- ==== Sys2Proof/Machine/DriveOps.lean ====
section
/-! DEFINITION. What several families do to one drive: spin-up places, motor and pickup stops, ends of reads, interruptions of
a burn (R220 to R222), a port that leaves UP (R118, R121, R273, R307, R328). -/
namespace Sys2Proof.Machine

/-! ### Set-points of the head (R104) -/

def Chip.setPoint (c : Chip) (d : Nat) (f : SetPoint → SetPoint) : Chip := c.modLink d fun l => { l with point := f l.point }

/-- Sets or clears a flag of the next set-point area: 0 pwm_valid, 1 laser_en, 2 write_en, 3 coast, 4 short (R104). -/
def Chip.pointFlag (c : Chip) (d i : Nat) (b : Bool) : Chip := c.setPoint d fun p => { p with flags := maskSet p.flags i b }

/-! ### Spin-up places (R30) -/

/-- Releases a spin-up place and any waiting for one. -/
def Chip.releasePlace (c : Chip) (d : Nat) : Chip :=
  let r := portRegion d
  let c := c.wr (F.spinup_spinup_waiting r) (maskSet (c.rd (F.spinup_spinup_waiting r)) (d % 6) false)
  if c.rdb (F.spinStatus_place d) then
    (c.wr (F.spinStatus_place d) 0).wr (F.spinup_spinup_active r) (c.rd (F.spinup_spinup_active r) - 1)
  else c

/-- Asks for a spin-up place: the start waits to be admitted (R31). -/
def Chip.askPlace (c : Chip) (d : Nat) : Chip :=
  let r := portRegion d
  (c.wr (F.spinup_spinup_waiting r) (maskSet (c.rd (F.spinup_spinup_waiting r)) (d % 6) true)).modSpin d
    fun s => { s with askedAt := c.now }

/-! ### Band timing loop and pickup -/

/-- The band timing loop stops and issues no predictions (R137). -/
def Chip.btlOff (c : Chip) (d : Nat) : Chip :=
  (c.wr (F.btlStatus_state d) 0).modBtl d fun b => { b with at_ := none, pred := none, last := none, invalidRun := 0 }

/-- The operation under way at a drive has ended and none waits: the band timing loop stops (R137). -/
def Chip.endOperation (c : Chip) (d : Nat) : Chip :=
  let r := c.readSt d
  let b := c.burnSt d
  if r.cur.isNone && r.queue == [] && b.run.isNone && b.cal.isNone && b.close.isNone && b.queue == [] then c.btlOff d else c

/-- The length of a ramp of 1 ms in servo periods (R247). -/
def rampMs : Nat := 407

/-- Focus output ramps to 0 over 1 ms from where it is (R247). -/
def Chip.rampDown (c : Chip) (d : Nat) : Chip :=
  c.modServo d fun s => { s with outRamp := ⟨s.focus.out, 0, rampMs⟩ }

/-! ### Ends of burns (R200, R202, R218 to R226, R597) -/

/-- An interruption of R220 that stops a burn at once; the others are underrun or tile poison (9), abandonment (10), and a warm reset or an abort (11). -/
def causeAtOnce (cause : Nat) : Bool := cause != 9 && cause != 10 && cause != 11

/-- Recounts the queued descriptors (R199). -/
def Chip.refreshQueue (c : Chip) (d : Nat) : Chip := c.wr (F.burnStatus_queued d) (c.burnSt d).queue.length

/-- Discards the queued descriptors of a pinna and returns it to the frond engine (R200, R212, R222, R226). -/
def Chip.returnPinna (c : Chip) (d frond pinna run : Nat) : Chip :=
  let c := c.modBurn d fun b => { b with queue := b.queue.filter (fun q => !(q.frond == frond && q.pinna == pinna)), missed := none }
  let c := (c.modPinna frond pinna fun p => if p.state = .complete then p else { p with state := .returned }).logPinna frond pinna
  ((c.refreshQueue d).refreshFronds).raiseClu d 8 7 (1 :: beBytes 8 frond ++ [pinna, run] ++ beBytes 8 0)

/-- A pinna is still placed on a drive's loaded disc: one that has been placed elsewhere meanwhile is not returned for a run of it here. -/
def Chip.placedHere (c : Chip) (d frond pinna : Nat) : Bool :=
  ((findFrond c.cat.fronds frond).bind fun f => f.pinnae[pinna]?).any fun p =>
    p.state == .burning && p.port == d && p.disc == c.rd (F.discId_id d)

/-- Returns a pinna that is still placed here. -/
def Chip.returnPlaced (c : Chip) (d frond pinna run : Nat) : Chip :=
  if c.placedHere d frond pinna then c.returnPinna d frond pinna run else c

/-- The next free position of a layer of the loaded side, in its register and in the catalogue (R200, R226). -/
def Chip.setNext (c : Chip) (d layer p : Nat) : Chip :=
  let side := c.rd (F.discStatus_side d)
  let a := positionPsa side layer p 0
  let c := c.wr (F.burnNext_psa d layer) a
  match c.loadedDisc d with
  | some (disc, sd) => c.modSide disc (8 * sd + layer) fun l => { l with next := a }
  | none => c

/-- Whether a spoiled run can be closed at once (R222). -/
def Chip.canClose (c : Chip) (d : Nat) : Bool := c.mayBurn d && (c.loadedDisc d).isSome

/-- Writing is over: write_en and write mode end, symbols not yet sent are dropped, tiles fetched ahead are freed, and no run, calibration or closing
is under way. -/
def Chip.writeOver (c : Chip) (d : Nat) : Chip :=
  let c := (c.pointFlag d 2 false).modLink d fun l => { l with mode := if l.mode = 2 then 1 else l.mode }
  let c := c.freeTiles ((c.burnSt d).tiles.map (·.2))
  ((c.modBurn d fun b => { b with
    run := none, cal := none, close := none, lines := [], delay := 0, quiet := 0, lastBits := 0, stop := none, ending := false, tiles := [] }).wr
      (F.burnStatus_state d) 0).endOperation d

/-- One more spoiled attempt of a pinna on a layer-side of a disc. -/
def PinnaRec.spoil (p : PinnaRec) (disc ls : Nat) : PinnaRec :=
  let mine (e : Nat × Nat × Nat) : Bool := e.1 == disc && e.2.1 == ls
  { p with spoils := (disc, ls, ((p.spoils.find? mine).map (·.2.2)).getD 0 + 1) :: p.spoils.filter fun e => !mine e }

/-- A run stops spoiled: its record stays open, the attempt is counted, the event raised; when it cannot be closed at once its pinna is returned and its
closing waits for the disc's next load; a power loss or a cold reset ends the rest (R218 to R222). -/
def Chip.spoilRun (c : Chip) (d cause : Nat) (r : RunSt) : Chip :=
  let q := r.desc
  let c := ((c.writeOver d).wr (F.burnStatus_open d) 1).bump (F.burnCnt_spoiled d)
  let disc := c.rd (F.discId_id d)
  let c := (c.modPinna q.frond q.pinna fun p => p.spoil disc (8 * q.side + q.layer)).logPinna q.frond q.pinna
  let c := c.raiseClu d 7 7 ([1, cause] ++ beBytes 4 (positionPsa q.side q.layer r.firstPos 0) ++ beBytes 8 q.frond ++ [q.pinna, q.run])
  if c.canClose d then c
  else
    let c := c.modBurn d fun b => { b with noClose := true }
    if cause = 0 || cause = 1 then c else c.returnPlaced d q.frond q.pinna q.run

/-- A run is left after its last verdict, or interrupted when complete: its descriptor is done (R199, R221). -/
def Chip.leaveRun (c : Chip) (d : Nat) : Chip := c.writeOver d

/-- An overburn stops where it is; its descriptor keeps its place (R199, R426). -/
def Chip.stopOver (c : Chip) (d : Nat) : Chip := c.writeOver d

/-- A closing ends with its run still open: it is tried again at once where it can, and at the disc's next load otherwise; then the pinna is returned
(R222, R224). -/
def Chip.closeLeft (c : Chip) (d : Nat) (q : RunDesc) : Chip :=
  let c := c.writeOver d
  if c.canClose d then c else (c.modBurn d fun b => { b with noClose := true }).returnPlaced d q.frond q.pinna q.run

/-- An interruption of R220 takes effect: a calibration ends without a result (R597), a closing leaves its run open (R224), a complete run is left (R221),
any other run is spoiled. -/
def Chip.stopBurn (c : Chip) (d cause : Nat) : Chip :=
  let b := c.burnSt d
  match b.run, b.close with
  | some r, _ => if r.desc.overburn then c.stopOver d else if r.complete then c.leaveRun d else c.spoilRun d cause r
  | none, some x => c.closeLeft d x.desc
  | none, none => if b.cal.isSome then c.writeOver d else c

/-- Symbols committed are all sent: an interruption that waited for it takes effect (R220). -/
def Chip.burnDrained (c : Chip) (d : Nat) : Chip :=
  let b := c.burnSt d
  match b.stop with
  | some cause => if b.ending && b.lines.all (· == []) then c.stopBurn d cause else c
  | none => c

/-- The next slot that is committed begins a position, or none is under way. -/
def BurnSt.atBoundary (b : BurnSt) : Bool :=
  let n := match b.run, b.close, b.cal with
    | some r, _, _ => r.slot
    | none, some x, none => x.slot
    | none, _, some k => k.slot
    | none, none, none => 0
  n % 4 == 0

/-- An interruption of R220: at once; or, for underrun and tile poison after the slots committed, and for abandonment, a warm reset or an abort at the next
position boundary. -/
def Chip.burnInterrupt (c : Chip) (d cause : Nat) : Chip :=
  let b := c.burnSt d
  if b.run.isNone && b.cal.isNone && b.close.isNone then c
  else if causeAtOnce cause then c.stopBurn d cause
  else (c.modBurn d fun b => { b with stop := some (b.stop.getD cause), ending := b.ending || cause == 9 || b.atBoundary }).burnDrained d

/-! ### Ends of reads (R121, R193, R194) -/

/-- The unit that read a track in a pass at an offset, as the plan counts beams (R124, R125). -/
def beamOf (track : Nat) (k : Int) : Nat := ((track : Int) - k).toNat

/-- A slot is free again; a decoder still on it stops (R178). -/
def Chip.dropSlot (c : Chip) (u psa : Nat) : Chip :=
  let c := c.modUnit u fun s => { s with slots := s.slots.filter fun x => x.psa != psa }
  c.modPool (u / 24) fun p => { p with decoders := p.decoders.filter fun e => e.2 != some (u, psa) }

/-- Every slot of a port at an address is free again. -/
def Chip.dropSlots (c : Chip) (d psa : Nat) : Chip := (portUnits d).foldl (fun c u => c.dropSlot u psa) c

/-- A lost payload index is handed to the frond engine with its PSA and cause: it becomes an erasure of its row in the restore that reads it (R193,
R318). -/
def Chip.handToFrond (c : Chip) (x : Extent) (index psa cause : Nat) : Chip :=
  let key := (x.frond, x.run * 16384 + index, x.pinna)
  c.modCat fun k => { k with restores := k.restores.map fun r =>
    if r.cmd = x.owner ∧ x.frond ≠ 0 ∧ index < 16384 then { r with
      rows := r.rows.filter fun e => e.1 != key, erased := key :: r.erased, handed := (psa, cause, key) :: r.handed } else r }

/-- The verdict word of R182 from its fields. -/
def verdictWord (sync iter rung state cause : Nat) (budget erased setB fb : Bool) (synd3 corr span : Nat) : Nat :=
  sync % 256 + 2 ^ 8 * (iter % 64) + 2 ^ 14 * (rung % 8) + 2 ^ 17 * (state % 8) + 2 ^ 20 * (cause % 16) + 2 ^ 24 * budget.toNat
    + 2 ^ 25 * erased.toNat + 2 ^ 26 * setB.toNat + 2 ^ 27 * fb.toNat + 2 ^ 28 * min synd3 1023 + 2 ^ 38 * min corr 65535
    + 2 ^ 54 * min span 1023

/-- Sub-code of the sector event of a lost sector (R590): copy conflict, budget, any other. -/
def lostSub (cause : Nat) (budget : Bool) : Nat := if cause = 4 then 1 else if budget then 3 else 0

/-- The cause in a verdict word (R182). -/
def verdictCause (v : Nat) : Nat := v / 2 ^ 20 % 16

/-- Whether a payload index may still be resolved by another copy: a rewrite slot is pending, or a copy of it is, or one has converged (R80, R192). -/
def ReadSt.copyLeft (r : ReadSt) (index psa : Nat) : Bool :=
  r.sectors.any fun s => s.psa != psa && ((s.state == .pending && (s.index == index || decide (16384 ≤ s.index))) || (s.state == .converged && s.index == index))

/-- A sector that is lost, with its final verdict (R182, R193). -/
def SectorRec.lostFor (s : SectorRec) (cause : Nat) (budget : Bool) : SectorRec :=
  { s with
    state := .lost, waits := 0
    verdict := s.verdict % 2 ^ 17 + 2 ^ 17 * 2 + 2 ^ 20 * cause + 2 ^ 24 * budget.toNat + s.verdict / 2 ^ 25 * 2 ^ 25 }

/-- A lost sector is reported: its verdict is final, counted, and its event raised once (R184, R590). -/
def Chip.reportLost (c : Chip) (d : Nat) (s : SectorRec) (cause : Nat) (budget : Bool) : Chip :=
  let u := 4 * d + beamOf (psaTrack s.psa) s.offset
  ((c.bump (F.decCnt_lost u)).wr (F.decLast_verdict u) (s.lostFor cause budget).verdict).raiseUnit u 6
    ([lostSub cause budget, u % 4] ++ beBytes 4 s.psa ++ [cause])

/-- A sector of the current extent is lost: it is reported, its slot is free; its payload index is handed to the frond engine unless its command was aborted
or a copy of it is left (R178, R184, R192 to R194). -/
def Chip.loseSector (c : Chip) (d psa cause : Nat) (budget : Bool) : Chip :=
  let rd := c.readSt d
  match rd.cur, rd.sectors.find? fun s => s.psa == psa && s.state == .pending with
  | some x, some s =>
    let c := c.modRead d fun r => { r with sectors := r.sectors.map fun t => if t.psa = psa then t.lostFor cause budget else t }
    let c := (c.reportLost d s cause budget).dropSlots d psa
    if cause = 9 || !x.repair || (cause != 4 && (c.readSt d).copyLeft s.index psa) then c else c.handToFrond x s.index psa cause
  | _, _ => c

/-- Lost payload indices that waited for a copy are handed to the frond engine when the last rewrite slot of the extent is final and none has
resolved them (R192, R193). -/
def Chip.handLeft (c : Chip) (d : Nat) : Chip :=
  let rd := c.readSt d
  match rd.cur with
  | some x =>
    if !x.rewrites || rd.sectors.any (fun s => s.state == .pending && decide (16384 ≤ s.index)) then c
    else
      (rd.sectors.filter fun s => s.state == .lost && decide (s.index < 16384) && verdictCause s.verdict != 9 && !rd.copyLeft s.index s.psa).foldl
        (fun c s => c.handToFrond x s.index s.psa (verdictCause s.verdict)) c
  | none => c

/-- The offset of the pass that reads a track, in a plan for missing beams (R124). -/
def planOffset (missing t : Nat) : Option Int :=
  ((passPlan missing).find? fun p => p.2.any fun b => trackOf b p.1 == t).map (·.1)

/-- The slot of a PSA counted along a layer-side. -/
def slotOf (a : Nat) : Nat := 4 * psaPosition a + psaTrack a

/-- The PSA of a slot counted along the layer-side of another PSA. -/
def slotAddr (a q : Nat) : Nat := positionPsa (psaSide a) (psaLayer a) (q / 4) (q % 4)

/-- The slots of an extent as addresses with their index: its sectors, and the run's rewrite slots where they are read with it (R75). -/
def Extent.slots (x : Extent) : List (Nat × Nat) :=
  (List.range x.count).map (fun i => (slotAddr x.psa (slotOf x.psa + i), x.base + i)) ++
    if x.rewrites then (List.range 232).map fun j => (slotAddr x.psa (slotOf x.psa - x.base + 16384 + j), 16384 + j) else []

/-- The sectors of an extent, each with the offset of the pass that reads its track (R124, R432). -/
def Extent.makeSectors (x : Extent) (missing : Nat) : List SectorRec :=
  x.slots.map fun e =>
    { (default : SectorRec) with
      psa := e.1, index := e.2, offset := (planOffset missing (psaTrack e.1)).getD 0, state := .pending, verdict := 2 ^ 17 }

/-- An extent begins: its plan is made for the beams missing now, which count as absent until it ends; the level loops take acquisition steps;
sectors on tracks no pass reads are lost (R119, R123, R126, R128, R149, R156). -/
def Chip.beginExtent (c : Chip) (d : Nat) (x : Extent) : Chip :=
  let miss := c.missingMask d
  let c := c.modRead d fun r => { r with
    cur := some x, sectors := x.makeSectors miss, passes := (passPlan miss).map (·.1), planMissing := miss, gone := miss, pass := 0
    visits := [], repeated := false, inBudget := false, budgetEnd := none, slowWait := false, began := none }
  let c := (portUnits d).foldl (fun c u => c.modUnit u fun s => { s with acq := c.rd (F.agcx_acq_len u) }) c
  let out := ((c.readSt d).sectors.filter fun s => (planOffset miss (psaTrack s.psa)).isNone).map (·.psa)
  out.foldl (fun c a => c.loseSector d a 8 false) c

/-- The extent under way is over: what no copy resolved is handed over, a read by PSA keeps its sectors for its command, and with nothing left to do the
band timing loop stops (R137, R193). -/
def Chip.finishExtent (c : Chip) (d : Nat) : Chip :=
  let c := c.handLeft d
  (c.modRead d fun r => { r with
    done := match r.cur with
      | some x => if x.frond = 0 then r.done ++ [(x.owner, r.began.getD 0, r.sectors)] else r.done
      | none => r.done
    cur := none, sectors := [], passes := [], pass := 0, visits := [], inBudget := false, budgetEnd := none, slowWait := false }).endOperation d

/-- Loses every pending sector of the extent under way, and ends it. -/
def Chip.loseExtent (c : Chip) (d cause : Nat) : Chip :=
  let psas := ((c.readSt d).sectors.filter fun s => s.state == .pending).map (·.psa)
  (psas.foldl (fun c a => c.loseSector d a cause false) c).finishExtent d

/-- Loses the sectors of an extent that waits: they are reported and handed over, and a read by PSA keeps them for its command (R194). -/
def Chip.loseWaiting (c : Chip) (d cause : Nat) (x : Extent) : Chip :=
  let ss := x.makeSectors (c.missingMask d)
  let c := ss.foldl (fun c s =>
    let c := c.reportLost d s cause false
    if cause = 9 || !x.repair then c else c.handToFrond x s.index s.psa cause) c
  if x.frond = 0 then c.modRead d fun r => { r with done := r.done ++ [(x.owner, 0, ss.map fun s => s.lostFor cause false)] } else c

/-- Ends the reading of a drive: every pending sector, those of waiting extents too, is lost with the cause drive fault (R194). -/
def Chip.endReads (c : Chip) (d cause : Nat) : Chip :=
  let xs := (c.readSt d).queue
  let c := c.modRead d fun r => { r with queue := [] }
  let c := if (c.readSt d).cur.isSome then c.loseExtent d cause else c
  xs.foldl (fun c x => c.loseWaiting d cause x) c

/-- The verdict of a sector in flight whose samples stop: no sync, with the report of its framing where that was decided, and the row of R166 without
framing where it was not (R121, R169, R170). -/
def cutVerdict (sync : Nat) (verify : Bool) : Nat := verdictWord sync 0 0 (if verify then 4 else 1) 2 false false false false 0 0 0

/-- A pending sector of a beam that was in flight ends unread, with its verdict. -/
def SectorRec.cutShort (t : SectorRec) (beam : Nat) (cut : List (Nat × Nat)) : SectorRec :=
  match cut.find? fun e => e.1 == t.psa with
  | some e => if t.state = .pending ∧ beamOf (psaTrack t.psa) t.offset = beam then { t with touched := false, verdict := e.2 } else t
  | none => t

/-- Sectors in flight on a unit end with the no-sync verdict, and its samples and bits are dropped; a sector that was read is read in an added pass
and does not enter the ladder (R121, R128, R169, R186). -/
def Chip.endInFlight (c : Chip) (u : Nat) : Chip :=
  let s := c.unitSt u
  let cut : List (Nat × Nat) := ((s.slots.filter fun x => x.frames == []).map fun x => (x.psa, cutVerdict x.sync x.verify)) ++
    (s.secs.reverse.filter fun x => !x.decided && decide (x.base ≤ s.nextIdx)).map fun x => (x.psa, cutVerdict (13 + 32 * x.flywheel.toNat) s.verifying)
  let c := c.modRead (u / 4) fun r => { r with sectors := r.sectors.map fun t => t.cutShort (u % 4) cut }
  let c := match cut.getLast? with
    | some e => c.wr (F.decLast_verdict u) e.2
    | none => c
  c.modUnit u fun s => { s with hist := [], samples := [], gaps := [], anchors := [], secs := [], slots := s.slots.filter fun x => x.frames != [] }

/-! ### Pickup, motors and the port -/

/-- Sets the trace frozen for an event selected in ev_mask: 0 focus lost, 1 off-track, 2 servo loss, 3 write inhibit (R259). -/
def Chip.traceEvent (c : Chip) (d i : Nat) : Chip :=
  if (c.rd (F.traceCtrl_ev_mask d)).testBit i then c.freezeTrace d else c

/-- The servo engine asserts write inhibit, and the cluster stops a burn in write mode; a run that still seeks its first position has nothing to stop
(R246, R220). DEDUCED, notes/assumptions/98.md. -/
def Chip.writeInhibit (c : Chip) (d : Nat) : Chip :=
  let c := c.wr (F.srvStatus_wi d) 1
  if (c.linkSt d).mode = 2 then (c.traceEvent d 3).burnInterrupt d 8 else c

/-- A loop that is open: no output, its integrator as it was (R239). -/
def LoopSt.opened (l : LoopSt) : LoopSt := { (default : LoopSt) with integ := l.integ }

/-- Tracking opens; outside a burn nothing else follows, within one write inhibit stops it (R246, R249). -/
def Chip.trackOff (c : Chip) (d : Nat) : Chip :=
  let follow := c.rd (F.srvStatus_tstate d) = 3
  let c := (c.wr (F.srvStatus_tstate d) 0).modServo d fun s =>
    { s with t := { s.t with settleRun := 0, offRun := 0, seeking := false }, track := default, tilt := s.tilt.opened, sled := s.sled.opened }
  if follow then c.writeInhibit d else c

/-- A retract: takes effect at once, discards any waiting request, tracking opens, the output ramps to 0 (R247, R252). -/
def Chip.retract (c : Chip) (d : Nat) : Chip :=
  let c := (c.trackOff d).rampDown d
  let c := ((c.wr (F.srvStatus_fstate d) 0).wr (F.srvStatus_req_busy d) 0).wr (F.srvStatus_req_queued d) 0
  (c.modServo d fun s => { s with running := none, waiting := none, calStep := 0 }).btlOff d

/-- Axis 0 is the sled and axis 1 the tray of a port. -/
def axisNo (d x : Nat) : Nat := 2 * d + x

/-- An emergency stop: the move goes on with the emergency deceleration, the target and any waiting request are discarded; with no
emergency deceleration no further step is made; an armed axis is disarmed (R290, R292). -/
def Chip.axisStop (c : Chip) (d x : Nat) : Chip :=
  let st := c.axisSt (axisNo d x)
  let c := (c.wr (F.axisStatus_req_waiting d x) 0).modAxis (axisNo d x) fun a => { a with armed := none, waiting := none }
  match st.move with
  | some m =>
    if c.rd (F.axisProf_d_es d x) = 0 || m.v2 = 0 then
      (c.wr (F.axisStatus_state d x) 0).modAxis (axisNo d x) fun a => { a with move := none }
    else
      (c.wr (F.axisStatus_state d x) 5).modAxis (axisNo d x) fun a =>
        { a with move := some { m with emergency := true, dEs := 10 * c.rd (F.axisProf_d_es d x) } }
  | none => if c.rd (F.axisStatus_state d x) = 1 then c.wr (F.axisStatus_state d x) 0 else c

/-- The winding current at standstill in 0.01 mA: running current, reduced after the delay of R289. -/
def Chip.axisAmps (c : Chip) (d x : Nat) : Nat :=
  c.rd (F.axisCur_i_run d x) * if c.rdb (F.axisStatus_reduced d x) then c.rd (F.axisCur_ss_pct d x) else 100

/-- Starts a move: the profile, thresholds and current in the registers are captured, the current returns to running, level 0, the timer runs to the first
step (R284 to R286, R289, R293). A move without `homed`, but for a home, is refused. -/
def Chip.axisBegin (c : Chip) (d x : Nat) (q : AxisReq) : Chip :=
  let pos := c.rdi (F.axisStatus_pos d x)
  let isHome := match q with | .home _ => true | _ => false
  if !isHome && c.rd (F.axisStatus_homed d x) = 0 then
    let c := c.wr (F.axisStatus_req_refused d x) 1
    if (c.axisSt (axisNo d x)).armed.isSome then (c.wr (F.axisStatus_state d x) 0).modAxis (axisNo d x) fun a => { a with armed := none } else c
  else
    let target := match q with
      | .moveTo t _ => t
      | .moveBy t _ => pos + t
      | .home _ => pos - (c.rd (F.axisHome_home_len d x) : Int)
      | .park => c.rdi (F.sledPark_pos d)
    let m : MoveSt := {
      target := target
      a := 10 * c.rd (F.axisProf_a d x)
      d := 10 * c.rd (F.axisProf_d d x)
      vMax := if isHome then c.rd (F.axisHome_home_spd d x) else c.rd (F.axisProf_v_max d x)
      th := [c.rd (F.axisRes_th1 d x), c.rd (F.axisRes_th2 d x), c.rd (F.axisRes_th3 d x), c.rd (F.axisRes_th4 d x)]
      hyst := c.rd (F.axisCur_hyst d x)
      amps := c.rd (F.axisCur_i_run d x) * if isHome then c.rd (F.axisCur_home_pct d x) else 100
      home := isHome
      emergency := false
      dEs := 0
      v2 := 0
      slowing := false
      timer := 0
      firstFull := false
      dir := if pos < target then 1 else -1 }
    let c := ((c.wr (F.axisStatus_level d x) 0).wr (F.axisStatus_reduced d x) 0).wr (F.axisStatus_state d x) (if target = pos then 0 else 2)
    c.modAxis (axisNo d x) fun a =>
      { a with armed := none, errRun := if isHome then 0 else a.errRun, move := if target = pos then none else some (m.load 0 pos) }

/-- An axis takes a request: not a move without `homed`, nothing but a home in a fault, not a third (R290, R293, R294). -/
def Chip.axisTakes (c : Chip) (d x : Nat) (isHome : Bool) : Bool :=
  let st := c.axisSt (axisNo d x)
  let busy := st.move.isSome || st.armed.isSome
  (isHome || c.rd (F.axisStatus_state d x) != 6) && (if busy then st.waiting.isNone else isHome || c.rdb (F.axisStatus_homed d x))

/-- A request to an axis: a fault is cleared by a home only; a request that starts later arms the axis; one request runs and one
waits, a third is refused (R290, R293, R294). -/
def Chip.axisRequest (c : Chip) (d x : Nat) (q : AxisReq) : Chip :=
  let st := c.axisSt (axisNo d x)
  let isHome := match q with | .home _ => true | _ => false
  let start := match q with | .moveTo _ s => s | .moveBy _ s => s | .home s => s | .park => .atOnce
  if c.rd (F.axisStatus_state d x) = 6 && !isHome then c.wr (F.axisStatus_req_refused d x) 1
  else if st.move.isSome || st.armed.isSome then
    if st.waiting.isSome then c.wr (F.axisStatus_req_refused d x) 1
    else (c.wr (F.axisStatus_req_waiting d x) 1).modAxis (axisNo d x) fun a => { a with waiting := some q }
  else if start = .atOnce ∨ (!isHome && c.rd (F.axisStatus_homed d x) == 0) then c.axisBegin d x q
  else (c.wr (F.axisStatus_state d x) 1).modAxis (axisNo d x) fun a => { a with armed := some q }

/-- Motor outputs coast or are shorted in the next set-point areas (R105, R260). -/
def Chip.motorFlags (c : Chip) (d : Nat) (coast short : Bool) : Chip := (c.pointFlag d 3 coast).pointFlag d 4 short

/-- A spindle state with the outputs it drives (R273). -/
def Chip.setSpin (c : Chip) (d st : Nat) : Chip :=
  let drives := st = 3 || st = 4 || st = 5 || st = 6 || st = 7 || st = 10
  (c.wr (F.spinStatus_state d) st).motorFlags d (!drives && st != 8) (st == 8)

/-- The spindle enters BRAKE: counted, lock cleared, n_s from the last known speed (R281). -/
def Chip.enterBrake (c : Chip) (d : Nat) : Chip :=
  let fast := c.rd (F.spinSeq_pulse_spd d) < (c.spinSt d).lastSpeed
  (((c.setSpin d 8).wr (F.spinStatus_lock d) 0).bump (F.spinCnt_brakes d)).modSpin d fun s => { s with shorts := if fast then 1 else 10, parking := false, checking := false }

/-- A sense window opens (R274). -/
def Chip.openSense (c : Chip) (d st : Nat) : Chip :=
  (c.setSpin d st).modSpin d fun s => { s with senseN := 0, senseU := 0, senseLast := none, senseAdv := 0 }

/-- Steps 1 and 2 of R279: outputs coast, the place is released, the pickup is parked, the sled stopped and parked. -/
def Chip.parkPickup (c : Chip) (d : Nat) : Chip :=
  let c := ((c.motorFlags d true false).releasePlace d).retract d
  let c := (c.pointFlag d 1 false).modLink d fun l => { l with mode := 0 }
  (c.axisStop d 0).axisRequest d 0 .park

/-- Parks a drive: pickup parked, spindle coasts for 2 ms and then short-brakes (R21, R273, R279). -/
def Chip.parkDrive (c : Chip) (d : Nat) : Chip :=
  let c := c.parkPickup d
  let c := ((c.wr (F.spinStatus_req_waiting d) 0).enterBrake d).motorFlags d true false
  c.modSpin d fun s => { s with pending := none, waiting := none, climb := false, parking := true, checking := false }

/-- Servo loss or the port leaving UP stop the spindle where it is: coast, no place, no requests (R273). -/
def Chip.spinStopped (c : Chip) (d : Nat) : Chip :=
  let c := ((c.releasePlace d).wr (F.spinStatus_lock d) 0).wr (F.spinStatus_req_waiting d) 0
  (c.modSpin d fun s => { s with pending := none, waiting := none, climb := false }).setSpin d 0

/-- The disc state of a port that leaves UP: the disc must be loaded again, its servo sets are discarded (R257, R328). -/
def Chip.discGone (c : Chip) (d : Nat) : Chip :=
  ((((c.wr (F.discStatus_state d) 0).wr (F.discStatus_foreign d) 0).wr (F.discId_id d) 0).modServo d fun s => { s with sets := [] }).modCat fun k =>
    { k with loads := tabSet k.loads d none, held := tabSet k.held d none }

/-- Every pinna with descriptors queued on a drive is returned (R307). -/
def Chip.returnQueue (c : Chip) (d : Nat) : Chip :=
  (c.burnSt d).queue.foldl (fun c q =>
    if (c.burnSt d).queue.any fun p => p.frond == q.frond && p.pinna == q.pinna then c.returnPinna d q.frond q.pinna q.run else c) c

/-- A port enters SEEK (R118). -/
def Chip.toSeek (c : Chip) (d : Nat) : Chip := (c.wr (F.hlinkStatus_state d) 1).modLink d fun l => { l with seekAt := c.now }

/-- A port leaves UP: set-point traffic stops, the burn stops (drive removal), reads end, the spindle and loops stop, the disc must
be loaded again, queued pinnae are returned (R118, R229, R273, R307, R328). Head commands outstanding and waiting end without a result.
DESIGN CHOICE, notes/assumptions/79.md. -/
def Chip.leaveUp (c : Chip) (d st : Nat) : Chip :=
  let wasUp := c.portUp d
  let c := (List.range 4).foldl (fun c n => c.modLane (laneNo d n) fun _ => default) c
  let c := (((if st = 1 then c.toSeek d else c.wr (F.hlinkStatus_state d) st)).wr (F.hlinkStatus_lane_up d) 0).refreshPort d
  if wasUp then
    let c := c.burnInterrupt d 3
    let c := (((c.retract d).endReads d 10).spinStopped d).discGone d
    let c := (c.returnQueue d).modLink d fun l => { l with cmds := [], waiting := [], expSeq := none, detect := 0, mode := 0, point := default }
    (c.axisStop d 0).axisStop d 1
  else c.modLink d fun l => { l with detect := 0 }

/-- The port-lost event of a port that was UP (R118). -/
def Chip.portLost (c : Chip) (d st : Nat) : Chip :=
  if c.portUp d then (c.leaveUp d st).raiseClu d 0 7 (1 :: beBytes 8 (c.linkSt d).identity) else c.leaveUp d st

/-- Servo loss is declared: lasers and writes off, demands zero, coast; the loops stay stopped until a command to the drive; the
drive behaves as after a cluster fault (R116, R194, R259, R273). -/
def Chip.servoLoss (c : Chip) (d : Nat) : Chip :=
  let run := c.rd (F.hlinkSrv_lost_run d)
  let c := c.burnInterrupt d 4
  let c := ((c.wr (F.hlinkSrv_servo_loss d) 1).endReads d 10).traceEvent d 2
  let c := ((c.retract d).spinStopped d).modServo d fun s => { s with stopped := true, outRamp := default, focus := default }
  let c := c.setPoint d fun p => { p with flags := 8, dFocus := 0, dTrack := 0, dTilt := 0 }
  (c.raiseClu d 3 7 [run]).refreshPort d

end Sys2Proof.Machine
end

