-- ==== Sys2Proof/Machine/QcpOps.lean ====
section
/-! DEFINITION. What every family of host commands uses of the transport (12_host_transport_and_sessions.md, R415 to R419): sessions,
contexts, packets sent, completion of a command, and tiles of a data phase (R369, R376 to R380). -/
namespace Sys2Proof.Machine

/-! ### Sessions and contexts -/

def Chip.sess (c : Chip) (n : Nat) : SessSt := tabGet c.host.sess n
def Chip.modHost (c : Chip) (f : HostSt → HostSt) : Chip := { c with host := f c.host }
def Chip.modSess (c : Chip) (n : Nat) (f : SessSt → SessSt) : Chip := c.modHost fun h => { h with sess := tabMod h.sess n f }
def Chip.ctxSt (c : Chip) (n x : Nat) : CtxSt := tabGet (c.sess n).ctx x
def Chip.modCtx (c : Chip) (n x : Nat) (f : CtxSt → CtxSt) : Chip := c.modSess n fun s => { s with ctx := tabMod s.ctx x f }

/-- A context is held from the fetch of its command until it is free again (R403). -/
def CtxSt.isHeld (x : CtxSt) : Bool := x.phase == .active || x.phase == .retained

/-- Contexts a session holds. -/
def SessSt.heldCount (s : SessSt) : Nat := (s.ctx.filter fun e => e.2.isHeld).length

/-- Established sessions, lowest number first. -/
def Chip.liveSessions (c : Chip) : List Nat := (c.host.sess.filter fun e => e.2.live).map (·.1)

/-- Moss-tier quota in bytes; 0 is no limit (R407). -/
def Chip.quotaMoss (c : Chip) (n : Nat) : Nat := c.rd (F.quota_moss (n - 1)) * 2 ^ 30

/-- Bytes of moss-tier space a session uses: frond blocks granted to its objects and not released, and its namespaces (R407). -/
def Chip.mossUse (c : Chip) (n : Nat) : Nat :=
  let live (f : Nat) : Bool := (findFrond c.cat.fronds f).elim false fun r => r.state != .burned
  let objs := c.cat.objects.filter fun o => o.session == n
  let ext := (objs.map fun o => ((o.extents.filter fun e => live e.frond).map (·.blocks)).sum
    + (o.grant.elim 0 fun g => if live g.frond then g.last - g.next else 0)).sum
  let ns := ((c.moss.ns.filter fun e => e.2.active && e.2.creator == n).map fun e => e.2.size * 16384).sum
  ext * 4096 + ns

/-- Recounts the transport's registers (12_host_transport_and_sessions.md, registers). -/
def Chip.refreshHost (c : Chip) : Chip :=
  let ls := c.liveSessions
  let c := ((c.wr F.qcpStatus_sessions ls.length).wr F.qcpStatus_queues (ls.map fun n => popCount 16 (c.sess n).queues).sum).wr
    F.qcpStatus_contexts (ls.map fun n => (c.sess n).heldCount).sum
  ls.foldl (fun c n =>
    let moss := c.mossUse n
    let held := (c.sess n).heldCount
    let past := (c.quotaMoss n != 0 && decide (c.quotaMoss n < moss)) || decide (c.rd (F.quota_ctx_max (n - 1)) < held)
    ((c.wrSat (F.use_moss (n - 1)) (moss / 2 ^ 20)).wr (F.use_contexts (n - 1)) held).wrb (F.use_over (n - 1)) past) c

/-- Sends a packet of a session: the next number of its direction (R393, R399). -/
def Chip.sendQcp (c : Chip) (n type queue ctx tag flags offset : Nat) (payload : List Nat) : Chip :=
  let seq := (c.sess n).txSeq + 1
  (c.modSess n fun s => { s with txSeq := seq }).emit (.qcp type n queue seq ctx tag flags offset payload)

/-- Sends a context's stored STATUS, or owes it while the session is frozen (R406, R502). -/
def Chip.sendStatus (c : Chip) (n x : Nat) : Chip :=
  let k := c.ctxSt n x
  match k.status with
  | none => c
  | some p =>
    if c.sessionFrozen (n - 1) then c.modCtx n x fun k => { k with held := true }
    else (c.modCtx n x fun k => { k with held := false }).sendQcp n 0x11 k.cmd.queue x k.cmd.tag 0 0 p

/-- Opcodes whose completion the lichen record takes (R533). -/
def serviceOpcode (op : Nat) : Bool :=
  (decide (0x66 ≤ op) && decide (op ≤ 0x68)) || (decide (0xA4 ≤ op) && decide (op ≤ 0xA6)) || (decide (0xC0 ≤ op) && decide (op ≤ 0xCE))

/-- The STATUS payload (R417): code, flags, completion data. -/
def statusPayload (code flags : Nat) (data : List Nat) : List Nat := beBytes 2 code ++ beBytes 2 flags ++ [0, 0, 0, 0] ++ data.take 8184

/-- Whether a context's command is one of a data-in phase, whose tiles are retained (R405, opcode tables). -/
def dataInOpcode (op : Nat) : Bool :=
  [0x01, 0x07, 0x22, 0x26, 0x27, 0x42, 0x46, 0x63, 0x83, 0xE0, 0xE4].contains op

/-- Releases the snoop unit of a context (R384, R387). -/
def Chip.releaseSnoop (c : Chip) (n x : Nat) : Chip :=
  match (c.ctxSt n x).snoop with
  | none => c
  | some u =>
    let e := (c.sess n).die
    ((c.wr (F.snoopCfg_engine e u) 0).wr (F.snoopCfg_en e u) 0).modCtx n x fun k => { k with snoop := none }

/-- A command ends with its one STATUS (R415, R417, R439): the status is stored, tiles of a data-out phase are freed, a data-in phase keeps
its tiles, the context is freed or retained, service and trust commands are recorded. -/
def Chip.complete (c : Chip) (n x code flags : Nat) (data : List Nat) : Chip :=
  let k := c.ctxSt n x
  if k.phase = .active ∨ k.phase = .waiting then
    let keep := dataInOpcode k.cmd.opcode && k.tiles != []
    let c := c.releaseSnoop n x
    let c := if keep then c else c.freeTiles k.tiles
    let c := c.modCtx n x fun k => { k with
      phase := if keep then .retained else .free, wait := .nothing, status := some (statusPayload code flags data)
      tiles := if keep then k.tiles else [], granted := [] }
    let c := (c.modSess n fun s => { s with order := s.order.filter (· != x) }).sendStatus n x
    let c := if serviceOpcode k.cmd.opcode then
        c.lichenWrite 0x0406 packagePath ([k.cmd.opcode, 0] ++ beBytes 2 n ++ beBytes 2 code ++ beBytes 8 k.cmd.p0)
      else c
    c.refreshHost
  else c

/-- A command that fails has no effect beyond its status (R418). -/
def Chip.fail (c : Chip) (n x code : Nat) : Chip := c.complete n x code 0 []

/-- A command that succeeds. -/
def Chip.ok (c : Chip) (n x : Nat) (data : List Nat := []) : Chip := c.complete n x 0 0 data

/-- Flags of a completion: late bit 0, repaired bit 1, delayed bit 2, level bits 5:4 (R417). -/
def completionFlags (late repaired delayed : Bool) (level : Nat) : Nat := late.toNat + 2 * repaired.toNat + 4 * delayed.toNat + 16 * level

/-- A launched command that is not a read completes with delay and fired (R417): the delay is reported when late or delayed. -/
def Chip.completeLaunched (c : Chip) (n x : Nat) (began : Nat) : Chip :=
  let k := c.ctxSt n x
  let delay := began - k.fired
  let delayed := k.fired != 0 && decide (0 < delay)
  c.complete n x 0 (completionFlags k.late false (delayed && !k.late) 0)
    (beBytes 8 (if k.fired = 0 then 0 else if k.late || delayed then delay else 0) ++ beBytes 8 k.fired)

/-- Contexts in a state, as (session, context), lowest first. -/
def Chip.contexts (c : Chip) (p : CtxSt → Bool) : List (Nat × Nat) :=
  c.host.sess.flatMap fun e => if e.2.live then (e.2.ctx.filter fun k => p k.2).map fun k => (e.1, k.1) else []

/-- Contexts in parse order. -/
def Chip.contextsParsed (c : Chip) (p : CtxSt → Bool) : List (Nat × Nat) :=
  (c.contexts p).mergeSort fun a b => decide ((c.ctxSt a.1 a.2).parse ≤ (c.ctxSt b.1 b.2).parse)

/-! ### Tiles (R369, R376 to R380) -/

/-- Address of a tile (R369). -/
def tileAddr (t : Nat) : Nat := t / 2 ^ 20 * 0x200000000 + t % 2 ^ 20 * 4096

/-- The tile check: CRC-64 over the tile's bytes and its number (R376). -/
def tileCheck (t : Nat) (bs : List Nat) : Nat := crc64 (padTo 4096 bs ++ beBytes 8 t)

/-- Tile table entry as the 32 bytes that lie in the stack's tile table (11_buffer_tiles_and_checks.md). -/
def tileEntryBytes (r : TileRec) : List Nat :=
  beBytes 8 r.check ++ beBytes 8 r.beats ++ [r.state, r.uses] ++ beBytes 2 r.length ++ beBytes 4 r.owner ++ List.replicate 8 0

/-- The first free tiles from a number on: tiles without an entry. -/
def freeFrom (m : Tab TileRec) (stop : Nat) : Nat → Nat → Nat → List Nat
  | 0, _, _ => []
  | fuel + 1, need, t =>
    if need = 0 ∨ stop ≤ t then []
    else if (tabFind m t).isNone then t :: freeFrom m stop fuel (need - 1) (t + 1) else freeFrom m stop fuel need (t + 1)

/-- Free tiles of the die's own stack first, then of the other stack; a die that is out has none (R369, R370). -/
def Chip.chooseTiles (c : Chip) (die n : Nat) : List Nat :=
  let m := c.tiles
  let from_ (e n : Nat) : List Nat := if (tabGet c.die e).out then [] else freeFrom m ((e + 1) * 2 ^ 20) (n + m.length) n (e * 2 ^ 20)
  let own := from_ die n
  own ++ from_ (1 - die) (n - own.length)

/-- Takes free tiles for an owner; each begins a fill (R378). -/
def Chip.takeTiles (c : Chip) (die owner n : Nat) : List Nat × Chip :=
  let ts := c.chooseTiles die n
  (ts, { c with tiles := ts.foldl (fun m t => tabSet m t { (default : TileRec) with state := 1, owner := owner }) c.tiles })

/-- Bytes in pieces of a size. -/
def chunks (size : Nat) : Nat → List Nat → List (List Nat)
  | 0, _ => []
  | _, [] => []
  | n + 1, bs => bs.take size :: chunks size n (bs.drop size)

/-- Context owner of a tile: session × 4,096 + local context (R407, tile table). -/
def ctxOwner (n x : Nat) : Nat := n * 4096 + x

/-- Whole blocks of a tile have been written: none of them is uncorrectable any more (R374). -/
def Chip.cleanTile (c : Chip) (t : Nat) : Chip :=
  if (tabGet c.buf (t / 2 ^ 20)).bad = [] then c
  else { c with buf := tabMod c.buf (t / 2 ^ 20) fun x => { x with
    bad := x.bad.filter fun b => !(decide (tileAddr t ≤ b) && decide (b < tileAddr t + 4096)) } }

/-- Fills tiles with bytes and closes them: the bytes in DRAM, the check over the zero-filled tile. A tile that is not filling takes nothing (R376 to
R378). -/
def State.fillTiles (s : State) (ts : List Nat) (bs : List Nat) : State :=
  (ts.zip (chunks 4096 ts.length bs)).foldl (fun s e =>
    let full := padTo 4096 e.2
    if (tabGet s.chip.tiles e.1).state = 1 then
      { s with
        dram := memWrites s.dram (tileAddr e.1) full
        chip := { s.chip with tiles := tabMod s.chip.tiles e.1 fun r =>
          { r with state := 2, check := tileCheck e.1 full, beats := 2 ^ 64 - 1, length := e.2.length } }.cleanTile e.1 }
    else s) s

/-- Bytes of a tile as DRAM holds them. -/
def State.tileBytes (s : State) (t : Nat) : List Nat := memReads s.dram (tileAddr t) 4096

/-- A use of a tile: it is valid, its stack is there, and its recomputed check matches (R370, R379). -/
def State.tileGood (s : State) (t : Nat) : Bool :=
  let r : TileRec := tabGet s.chip.tiles t
  r.state == 2 && !(tabGet s.chip.die (t / 2 ^ 20)).out && tileCheck t (s.tileBytes t) == r.check

/-- A tile becomes poisoned by a use: every use of it fails, the event names the tile and the use; a tile that is poisoned or holds no content stays as it
is (R380). -/
def Chip.poisonTile (c : Chip) (t use : Nat) : Chip :=
  let e := t / 2 ^ 20
  if (tabGet c.tiles t).state ≠ 1 ∧ (tabGet c.tiles t).state ≠ 2 then c else
  let c := { c with tiles := tabMod c.tiles t fun r => { r with state := 3 } }
  (((c.wr (F.tilePoison_tile e) t).wr (F.tilePoison_use e) use).bump (F.tilePoison_poisoned e)).raiseDie e 2 (beBytes 4 t ++ [use])

/-- Bytes of a range within a run of tiles. -/
def State.tilesRange (s : State) (ts : List Nat) (start len : Nat) : List Nat :=
  let first := start / 4096
  let n := (start + len + 4095) / 4096 - first
  (((ts.drop first).take n).flatMap s.tileBytes |>.drop (start - first * 4096)).take len

/-- DATA_IN packets of a byte range of a context's phase, at most 8,192 bytes each, every tile checked before its packet; the last packet of
the phase sets flag bit 1 (R379, R395, R405). Answers whether every tile was good. -/
def State.sendRange (s : State) (n x start stop total : Nat) : State × Bool :=
  let k := s.chip.ctxSt n x
  let ts := (k.tiles.drop (start / 4096)).take ((stop + 4095) / 4096 - start / 4096)
  match ts.find? fun t => !s.tileGood t with
  | some t => ({ s with chip := s.chip.poisonTile t 1 }, false)
  | none =>
    let bytes := s.tilesRange k.tiles start (stop - start)
    let ps := chunks 8192 bytes.length bytes
    let chip := (ps.zipIdx).foldl (fun c e =>
      let off := start + 8192 * e.2
      c.sendQcp n 0x13 k.cmd.queue x k.cmd.tag (if off + e.1.length = total then 2 else 0) off e.1) s.chip
    ({ s with chip := chip }, true)

end Sys2Proof.Machine
end

