-- ==== Sys2Proof/Machine/Snoop.lean ====
section
/-! DEFINITION. CRC snoop units (R383 to R387), stored bytes of flash pages (R334), and the data-in phase of a command (R405). -/
namespace Sys2Proof.Machine

def Chip.bufSt (c : Chip) (e : Nat) : BufferSt := tabGet c.buf e
def Chip.modBuf (c : Chip) (e : Nat) (f : BufferSt → BufferSt) : Chip := { c with buf := tabMod c.buf e f }

/-! ### Snoop units (R383 to R387) -/

/-- Width of a polynomial code. -/
def snoopWidth (poly : Nat) : Nat := if poly = 2 then 64 else if poly = 3 then 16 else 32

/-- A running CRC in final form over further bytes (R383, R386). -/
def snoopStep (poly run : Nat) (bs : List Nat) : Nat :=
  if poly = 0 then crcRef 0x82F63B78 (run ^^^ 0xFFFFFFFF) bs ^^^ 0xFFFFFFFF
  else if poly = 1 then crcRef 0xEDB88320 (run ^^^ 0xFFFFFFFF) bs ^^^ 0xFFFFFFFF
  else if poly = 2 then crcBits 64 0x42F0E1EBA9EA3693 run (bytesBits bs)
  else crcBits 16 0x1021 run (bytesBits bs)

/-- The value `run` has before any byte, in final form: the initial value of the polynomial (R383, R386). -/
def snoopInit (poly : Nat) : Nat := if poly = 3 then 0xFFFF else 0

/-- A unit sees bytes of its stream. -/
def Chip.snoopFeed (c : Chip) (e u : Nat) (bs : List Nat) : Chip :=
  if c.rdb (F.snoopCfg_en e u) then
    (c.wr (F.snoopRun_run e u) (snoopStep (c.rd (F.snoopCfg_poly e u)) (c.rd (F.snoopRun_run e u)) bs)).modBuf e fun x =>
      { x with snoopCount := tabMod x.snoopCount u (· + bs.length) }
  else c

/-- Every unit of a die attached to a stream sees its bytes (R384). -/
def Chip.snoopStream (c : Chip) (e kind index : Nat) (bs : List Nat) : Chip :=
  (List.range 16).foldl (fun c u =>
    if c.rd (F.snoopCfg_kind e u) = kind ∧ c.rd (F.snoopCfg_index e u) = index then c.snoopFeed e u bs else c) c

/-- A free unit of a die: not running. -/
def Chip.freeSnoop (c : Chip) (e : Nat) : Option Nat :=
  (List.range 16).find? fun u => !c.rdb (F.snoopCfg_en e u) && !c.rdb (F.snoopCfg_engine e u)

/-- The object engine takes a unit for a context's put or get: polynomial and running value from the object (R298, R384, R386). -/
def Chip.takeSnoop (c : Chip) (n x u : Nat) (ingress : Bool) (poly run : Nat) : Chip :=
  let e := (c.sess n).die
  let c := (((c.wr (F.snoopCfg_engine e u) 1).wr (F.snoopCfg_en e u) 1).wr (F.snoopCfg_poly e u) poly).wr (F.snoopCfg_kind e u) (if ingress then 0 else 1)
  let c := ((c.wr (F.snoopCfg_index e u) (c.ctxSt n x).hw).wr (F.snoopRun_run e u) run).modBuf e fun b => { b with snoopCount := tabSet b.snoopCount u 0 }
  c.modCtx n x fun k => { k with snoop := some u }

/-! ### Stored bytes (R334, key table of 15_trust_presence_containment.md) -/

/-- The key root: the group root of a member, otherwise the local root of the epoch. `Config.derive` is labelled 1 "NQ wrap", 2 "NQ root",
3 "NQ obj", 4 "NQ moss", 5 "NQ identity", 6 "NQ seat". -/
def Chip.keyRoot (c : Chip) : Nat :=
  if c.rdb F.trust_member then c.trust.root else Config.derive 2 [c.trust.seed, c.rd F.otp_epoch]

/-- The stored bytes of a granule in a page: under the moss-tier key of the channel's region, with the tweak of its space and number;
a parity page has the exclusive or of its row's (R334, R335, R477). -/
def Chip.storedBytes (c : Chip) (p : PageRec) : List Nat :=
  if p.kind = 1 then p.coded.take 16384
  else padTo 16384 (Config.xtsSeal (Config.derive 4 [c.keyRoot, c.moss.poolId, p.keyRgn]) (p.space * 2 ^ 32 + p.granule) p.data)

/-- The 64 bytes of a page's metadata (R332). -/
def Chip.pageMeta (c : Chip) (p : PageRec) : List Nat :=
  [p.space % 256, p.kind] ++ beBytes 2 p.row ++ beBytes 4 p.granule ++ beBytes 8 p.lsn ++ beBytes 4 p.set ++ [p.keyRgn] ++ List.replicate 35 0 ++
    beBytes 8 (crc64 (c.storedBytes p))

/-! ### Data-in phases (R405) -/

/-- Sends the data-in phase of a command from tiles that it fills: the context keeps the tiles; egress units see them (R384, R405). -/
def State.sendData (s : State) (n x : Nat) (bytes : List Nat) : State :=
  let (ts, chip) := s.chip.takeTiles (s.chip.sess n).die (ctxOwner n x) ((bytes.length + 4095) / 4096)
  let s := { s with chip := chip.modCtx n x fun k => { k with tiles := ts, got := [(0, bytes.length)] } }.fillTiles ts bytes
  let s := (s.sendRange n x 0 bytes.length bytes.length).1
  { s with chip := s.chip.snoopStream (s.chip.sess n).die 1 (s.chip.ctxSt n x).hw bytes }

/-- A read command succeeds: its data, then its STATUS (R405). -/
def State.answer (s : State) (n x : Nat) (bytes data : List Nat) : State :=
  let s := s.sendData n x bytes
  { s with chip := s.chip.ok n x data }

end Sys2Proof.Machine
end

