-- ==== Sys2Proof/Machine/MossOps.lean ====
section
/-! DEFINITION. The flash pool as the other families use it (10_moss_tier_flash.md): map, granule writes and reads, stripe sets, journal pages. -/
namespace Sys2Proof.Machine

/-! ### Map (R340 to R342) -/

def mapKey (space granule : Nat) : Nat := space * 2 ^ 32 + granule

/-- A map entry as 64 bits (R340). -/
def entryBits (e : MapEnt) : Nat :=
  let v := e.ch + e.tgt * 2 ^ 3 + e.blk * 2 ^ 6 + e.pg * 2 ^ 24 + e.state * 2 ^ 36
  v + crc8 (beBits 56 v) * 2 ^ 56

def Chip.mapEnt (c : Chip) (space granule : Nat) : MapEnt := tabGet c.moss.map (mapKey space granule)

/-- The map page of a granule: 2,048 entries in space order (R341). -/
def mapPage (space granule : Nat) : Nat := mapKey space granule / 2048

/-- The clock hand passes: pages used since the last sweep are passed over once, the first clean unused page leaves (R342). -/
def evictMap (l : List (Nat × Bool × Bool)) : List (Nat × Bool × Bool) :=
  match l.find? fun e => !e.2.1 && !e.2.2 with
  | some v => l.filter fun e => e.1 != v.1
  | none =>
    match l.find? fun e => !e.2.2 with
    | some v => (l.filter fun e => e.1 != v.1).map fun e => (e.1, false, e.2.2)
    | none => l

/-- A lookup brings a map page into the cache: counted as a hit or a miss; a change makes it dirty (R342). -/
def Chip.touchMap (c : Chip) (page : Nat) (dirty : Bool) : Chip :=
  let hit := c.moss.cache.any fun e => e.1 == page
  let c := if hit then c.bump F.mossCache_hits else c.bump F.mossCache_misses
  c.modMoss fun m =>
    let l := if hit then m.cache.map fun e => if e.1 = page then (e.1, true, e.2.2 || dirty) else e
      else (if 131072 ≤ m.cache.length then evictMap m.cache else m.cache) ++ [(page, true, dirty)]
    { m with cache := l }

/-- Changes a map entry (R352). -/
def Chip.setMap (c : Chip) (space granule : Nat) (e : MapEnt) : Chip :=
  (c.touchMap (mapPage space granule) true).modMoss fun m => { m with map := tabSet m.map (mapKey space granule) e }

/-- Map lookups for the granules of a range of bytes (R342). -/
def Chip.lookUp (c : Chip) (space addr len : Nat) : Chip :=
  let p0 := mapPage space (addr / 16384)
  (List.range (mapPage space ((addr + len + 16383) / 16384 - 1) + 1 - p0)).foldl (fun c i => c.touchMap (p0 + i) false) c

/-- The page at a map entry's place. -/
def Chip.pageAt (c : Chip) (ch tgt blk pg : Nat) : Option PageRec := tabFind c.moss.flash (placeKey ch tgt blk pg)

/-- Exclusive or of byte strings. -/
def xorBytes (a b : List Nat) : List Nat := (a.zip b).map fun e => e.1 ^^^ e.2

/-- Bytes under the key stream of a key and a nonce: enciphering and deciphering alike (GCM, R297, R474). -/
def aesBytes (key nonce : Nat) (bs : List Nat) : List Nat :=
  xorBytes bs ((List.range bs.length).map fun i => Config.aesStream key nonce i % 256)

/-- Ciphertext and tag of some bytes (R297, R474, R493). -/
def aesSeal (key nonce : Nat) (aad plain : List Nat) : List Nat :=
  aesBytes key nonce plain ++ beBytes 16 (Config.aesTag key nonce aad (aesBytes key nonce plain))

/-- The bytes of a ciphertext whose tag holds. -/
def aesOpen (key nonce : Nat) (aad cipher tag : List Nat) : Option (List Nat) :=
  if tag = beBytes 16 (Config.aesTag key nonce aad cipher) then some (aesBytes key nonce cipher) else none

/-- A granule of zeros. -/
def zeroGranule : List Nat := List.replicate 16384 0

/-- A page of a row of a set, by its channel. -/
def Chip.pageOf (c : Chip) (ch s row : Nat) : Option PageRec := (c.setBlock ch s).bind fun b => c.pageAt ch (c.setTarget s) b row

/-- Stored bytes and metadata of a page, as channel parity takes them (R335). -/
def Chip.codedBytes (c : Chip) (p : PageRec) : List Nat := if p.kind = 1 then p.coded else c.storedBytes p ++ c.pageMeta p

/-- Stored bytes and metadata of zeros. -/
def zeroCoded : List Nat := List.replicate 16448 0

/-- The parity page of a row: the exclusive or of its data pages (R335). -/
def Chip.parityPage (c : Chip) (s row : Nat) : PageRec :=
  let r := c.setSt s
  let ps := (r.dataChannels s row).filterMap fun ch => c.pageOf ch s row
  ⟨0, 1, row, 0, 0, s, r.parity s row / 2, (ps.map (·.data)).foldl xorBytes zeroGranule, (ps.map c.codedBytes).foldl xorBytes zeroCoded⟩

/-- Rebuilds a member's page with its metadata from the other members of its row (R335, R336). -/
def Chip.rebuildRec (c : Chip) (ch s row : Nat) : Option PageRec :=
  let r := c.setSt s
  let pages := (r.channels.filter (· != ch)).map fun k => if c.chReads k then c.pageOf k s row else none
  if !(pages.all Option.isSome) then none
  else if r.parity s row = ch then some (c.parityPage s row)
  else
    let ps := pages.filterMap id
    let m := ((ps.map c.codedBytes).foldl xorBytes zeroCoded).drop 16384
    let f (o n : Nat) : Nat := beNat ((m.drop o).take n)
    some ⟨f 0 1, f 1 1, f 2 2, f 4 4, f 8 8, f 16 4, f 20 1, (ps.map (·.data)).foldl xorBytes zeroGranule, []⟩

/-- The content of a member's page, rebuilt. -/
def Chip.rebuildPage (c : Chip) (ch s row : Nat) : Option (List Nat) := (c.rebuildRec ch s row).map (·.data)

/-- The set and row that a place belongs to, from the page's own metadata. -/
def Chip.placeSet (c : Chip) (ch tgt blk : Nat) : Option Nat :=
  (List.range c.moss.nb).map (tgt * c.moss.nb + ·) |>.find? fun s => c.setBlock ch s == some blk

/-- Content of a mapped granule: its page, or the page rebuilt from the row; none when both fail (R333, R335). -/
def Chip.entryData (c : Chip) (e : MapEnt) : Option (List Nat) :=
  match (if c.chReads e.ch then c.pageAt e.ch e.tgt e.blk e.pg else none) with
  | some p => some p.data
  | none => (c.placeSet e.ch e.tgt e.blk).bind fun s => c.rebuildPage e.ch s e.pg

/-- A granule's content: zeros when unmapped, none when lost (R340). -/
def Chip.readGranule (c : Chip) (space granule : Nat) : Option (List Nat) :=
  let e := c.mapEnt space granule
  if e.state = 0 then some zeroGranule else if e.state = 2 then none else c.entryData e

/-- Bytes of a space from an address: none when a granule they lie in is lost. -/
def Chip.readSpace (c : Chip) (space addr len : Nat) : Option (List Nat) :=
  let g0 := addr / 16384
  let gs := (List.range ((addr + len + 16383) / 16384 - g0)).map fun i => c.readGranule space (g0 + i)
  if gs.all Option.isSome then some (((gs.flatMap (·.getD [])).drop (addr - g0 * 16384)).take len) else none

/-! ### Stripe sets (R336, R343, R344) -/

/-- Stream of a space: 0 moss, 1 bed, 2 relocation, 3 system (R343). -/
def spaceStream (space : Nat) : Nat := if space = 0 then 0 else if space ≤ 60 then 1 else 3

/-- The free set a stream takes: lowest erase count, or the highest for relocation; the first of equals (R343). -/
def Chip.chooseSet (c : Chip) (stream : Nat) : Option Nat :=
  let free := (List.range c.setCount).filter fun s => (c.setSt s).phase == 0 && decide (2 ≤ popCount 8 (c.formMembers s))
  free.foldl (fun b s =>
    match b with
    | none => some s
    | some o =>
      if (if stream = 2 then decide (c.setErases o < c.setErases s) else decide (c.setErases s < c.setErases o)) then some s else some o) none

/-- Erase counts of a set's eight members, 4 bytes each (R348). -/
def Chip.eraseCounts (c : Chip) (s : Nat) : List Nat :=
  (List.range 8).flatMap fun ch => beBytes 4 ((c.setBlock ch s).elim 0 fun b => tabGet (c.chan ch).erases (tgtBlk (c.setTarget s) b))

/-- Opens a set for a stream (R336, R343); of the system stream's, journal pages have their own (R347). -/
def Chip.openSet (c : Chip) (stream : Nat) (journal : Bool := false) : Option (Nat × Chip) :=
  match tabGet c.moss.openSet stream with
  | some s => some (s, c)
  | none =>
    (c.chooseSet stream).map fun s =>
      let m := c.formMembers s
      let c := c.modSet s fun _ => { (default : SetRec) with phase := 1, stream := stream, members := m, journal := journal }
      let c := c.modMoss fun x => { x with openSet := tabSet x.openSet stream (some s) }
      (s, (c.record 0x04 (beBytes 4 s ++ [stream, m, 0, 0] ++ c.eraseCounts s)).refreshFree)

/-- Mapped granules of a set, as (space, granule). -/
def Chip.validIn (c : Chip) (s : Nat) : List (Nat × Nat) :=
  let r := c.setSt s
  let t := c.setTarget s
  (c.moss.map.filter fun e => e.2.state == 1 && e.2.tgt == t && r.members.testBit e.2.ch && c.setBlock e.2.ch s == some e.2.blk).map
    fun e => (e.1 / 2 ^ 32, e.1 % 2 ^ 32)

/-- Ranges of consecutive granules, for SET_CLOSE: at most 16, otherwise mixed (R348). -/
def granuleRanges : List (Nat × Nat) → List (Nat × Nat × Nat)
  | [] => []
  | e :: t =>
    match granuleRanges t with
    | (sp, g, n) :: r => if sp = e.1 ∧ g = e.2 + 1 then (sp, e.2, n + 1) :: r else (e.1, e.2, 1) :: (sp, g, n) :: r
    | [] => [(e.1, e.2, 1)]

/-- Payload of SET_CLOSE (R348). -/
def closePayload (s rows : Nat) (rs : List (Nat × Nat × Nat)) : List Nat :=
  beBytes 4 s ++ beBytes 2 rows ++ [if rs.length ≤ 16 then rs.length else 255, 0] ++
    (if rs.length ≤ 16 then rs.flatMap fun e => [e.1, 0, 0, 0] ++ beBytes 4 e.2.1 ++ beBytes 4 e.2.2 ++ [0, 0, 0, 0] else [])

/-- The granules of which a set holds a page, live or stale, in rising order. -/
def Chip.setGranules (c : Chip) (s : Nat) : List (Nat × Nat) :=
  let ks := (c.moss.flash.filter fun e => e.2.set == s && (e.2.kind == 0 || e.2.kind == 2 || e.2.kind == 3)).map fun e => mapKey e.2.space e.2.granule
  ((ks.mergeSort (· ≤ ·)).eraseDups).map fun k => (k / 2 ^ 32, k % 2 ^ 32)

/-- Closes a set with the rows it has: SET_CLOSE names every granule it holds, live or stale, as R366 needs (R348). -/
def Chip.closeAt (c : Chip) (s rows : Nat) : Chip :=
  let stream := (c.setSt s).stream
  let rs := granuleRanges (c.setGranules s)
  let mixed := decide (16 < rs.length)
  let c := c.modSet s fun r => { r with phase := 2, row := rows, slot := 0, mixed := mixed, ranges := if mixed then [] else rs }
  let c := c.modMoss fun m => { m with openSet := if tabGet m.openSet stream = some s then tabSet m.openSet stream none else m.openSet }
  c.record 0x05 (closePayload s rows rs)

/-- Starts the program of a page at a set's row and channel that is not down: the page as it will stand, and the command to the flash (R332, R335). -/
def Chip.programPage (c : Chip) (s row ch : Nat) (p : PageRec) : Chip :=
  match (if c.chUsable ch then c.setBlock ch s else none) with
  | none => c
  | some b =>
    let c := (c.modMoss fun m => { m with flash := tabInsert m.flash (placeKey ch (c.setTarget s) b row) p }).emit (.program ch (c.setTarget s) b row)
    c.snoopStream (ch / 4) 2 (ch % 4) (c.storedBytes p)

/-- Writes a row's parity page (R335). -/
def Chip.writeParity (c : Chip) (s row : Nat) : Chip := c.programPage s row ((c.setSt s).parity s row) (c.parityPage s row)

/-- After a page the set's next slot, or the next row with the parity written (R335, R343). -/
def Chip.stepSlot (c : Chip) (s : Nat) : Chip :=
  let r := c.setSt s
  if (r.dataChannels s r.row).length ≤ r.slot + 1 then (c.writeParity s r.row).modSet s fun x => { x with row := x.row + 1, slot := 0 }
  else c.modSet s fun x => { x with slot := x.slot + 1 }

/-- A pad page of a set's row (R332, R344). -/
def padPage (s row ch : Nat) : PageRec := ⟨0, 5, row, 0, 0, s, ch / 2, zeroGranule, []⟩

/-- Pads fill what is left of the row under way, so that it has its parity. -/
def fillRow : Nat → Chip → Nat → Chip
  | 0, c, _ => c
  | n + 1, c, s =>
    let r := c.setSt s
    if r.slot = 0 then c
    else
      let ch := (r.dataChannels s r.row).getD r.slot 0
      fillRow n ((c.programPage s r.row ch (padPage s r.row ch)).stepSlot s) s

/-- Closes an open set: the row under way is filled first (R335, R348). -/
def Chip.closeSet (c : Chip) (s : Nat) : Chip :=
  let c := fillRow 8 c s
  c.closeAt s (c.setSt s).row

/-- After a page the next slot; a full set is closed (R335, R343). -/
def Chip.nextSlot (c : Chip) (s : Nat) : Chip :=
  let c := c.stepSlot s
  if c.moss.pages ≤ (c.setSt s).row then c.closeSet s else c

/-- Journal pages and the pages of space 63 go to sets of their own: the system stream's open set is closed when it takes the other kind (R343, R347).
DEDUCED, notes/assumptions/105.md. -/
def Chip.splitSystem (c : Chip) (journal : Bool) : Chip :=
  match tabGet c.moss.openSet 3 with
  | some s => if (c.setSt s).journal = journal then c else c.closeSet s
  | none => c

/-- Where a page was placed: set, row and channel. -/
structure Place where
  set : Nat
  row : Nat
  ch : Nat
deriving DecidableEq, Repr, Inhabited

/-- The next slot of a stream's open set takes a page. -/
def Chip.placePage (c : Chip) (stream kind space granule lsn : Nat) (data : List Nat) : Option Place × Chip :=
  let journal := stream == 3 && (kind == 2 || (kind == 5 && (tabGet c.moss.openSet 3).any fun s => (c.setSt s).journal))
  match (if stream = 3 then c.splitSystem journal else c).openSet stream journal with
  | none => (none, c)
  | some o =>
    let s := o.1
    let r := o.2.setSt s
    let ch := (r.dataChannels s r.row).getD r.slot 0
    let pg : PageRec := ⟨space, kind, r.row, granule, lsn, s, ch / 2, data, []⟩
    (some ⟨s, r.row, ch⟩, (o.2.programPage s r.row ch pg).nextSlot s)

/-- The entry of a page's place. -/
def Chip.entryOf (c : Chip) (p : Place) : MapEnt := ⟨1, p.ch, c.setTarget p.set, (c.setBlock p.ch p.set).getD 0, p.row⟩

/-- Writes at most 256 consecutive granules of a space through a stream: each page carries the lsn of the MAP_WRITE record that maps it, the map is updated as
the record receives its lsn (R339, R345, R348, R352). -/
def Chip.writeBatch (c : Chip) (stream space g0 : Nat) (datas : List (List Nat)) : Nat × Chip :=
  let (lsn, c) := c.takeLsn
  let r := datas.zipIdx.foldl (fun (x : Chip × List Nat) e =>
    let g := g0 + e.2
    match x.1.placePage stream 0 space g lsn e.1 with
    | (none, _) => x
    | (some p, c) =>
      let ent := c.entryOf p
      let old := c.mapEnt space g
      let c := c.modMoss fun m => { m with writes := m.writes ++ [⟨p.set, p.row, p.ch, space, g, lsn, lsn, old⟩] }
      (c.setMap space g ent, x.2 ++ beBytes 8 (entryBits ent))) (c, [])
  (lsn, r.1.recordAt lsn 0x01 ([space, 0] ++ beBytes 2 datas.length ++ beBytes 4 g0 ++ r.2))

/-- Lists of at most 256. -/
def batches {α : Type} : Nat → List α → List (List α)
  | 0, _ => []
  | _, [] => []
  | n + 1, l => l.take 256 :: batches n (l.drop 256)

/-- Writes consecutive granules of a space through a stream; answers the lsns of their MAP_WRITE records (R348). -/
def Chip.writeGranules (c : Chip) (stream space g0 : Nat) (datas : List (List Nat)) : List Nat × Chip :=
  (batches datas.length datas).zipIdx.foldl (fun x e =>
    let r := x.2.writeBatch stream space (g0 + 256 * e.2) e.1
    (x.1 ++ [r.1], r.2)) ([], c)

/-- A granule's content with some bytes replaced (R339). -/
def patchBytes (old : List Nat) (off : Nat) (bs : List Nat) : List Nat := old.take off ++ bs ++ old.drop (off + bs.length)

/-- Writes bytes at an address of a space: every granule they touch is merged and written whole (R339). Answers the lsns to wait for. What a lost granule
holds beside them is a free value. DESIGN CHOICE, notes/assumptions/35.md. -/
def Chip.writeSpace (c : Chip) (stream space addr : Nat) (bs : List Nat) : List Nat × Chip :=
  let g0 := addr / 16384
  let n := (addr + bs.length + 16383) / 16384 - g0
  if bs = [] then ([], c)
  else
    let olds := (List.range n).map fun i => c.readGranule space (g0 + i)
    let old := olds.zipIdx.flatMap fun e => e.1.getD (beBytes 16384 (Config.freeValue (c.free + e.2)))
    let c := if olds.all Option.isSome then c else { c with free := c.free + n }
    c.writeGranules stream space g0 (chunks 16384 n (patchBytes old (addr - g0 * 16384) bs))

/-- Writes a journal page from the buffered records that fit; they are then in that page (R347). -/
def Chip.writeJournalPage (c : Chip) : Chip :=
  let take := (c.moss.buf.foldl (fun (a : List JRec × Nat) r =>
    let n := a.2 + (recordBytes r).length
    if n ≤ 16344 ∧ a.1.length + 1 ≤ 65535 then (a.1 ++ [r], n) else (a.1, 16345)) ([], 0)).1
  match take with
  | [] => c
  | r0 :: _ =>
    let body := take.flatMap recordBytes
    let j := c.moss.jseq
    let head := beBytes 4 0x4A524E4C ++ beBytes 4 j ++ beBytes 8 r0.lsn ++ beBytes 2 take.length ++ beBytes 2 (32 + body.length) ++
      [0, 0, 0, 0] ++ beBytes 8 (c.moss.poolId / 2 ^ 64)
    let page := padTo 16376 (head ++ body)
    match c.placePage 3 2 62 j r0.lsn (page ++ beBytes 8 (crc64 page)) with
    | (none, c) => c
    | (some p, c) =>
      c.modMoss fun m => { m with
        jseq := j + 1
        map := tabSet m.map (mapKey 62 j) (c.entryOf p)
        buf := m.buf.drop take.length
        recs := m.recs ++ take.map fun r => { r with page := some (p.set, p.row, j) } }

/-- Writes every buffered record; a journal page may open a set, whose record follows in a later page. -/
def Chip.writeJournal : Nat → Chip → Chip
  | 0, c => c
  | n + 1, c => if c.moss.buf = [] then c else writeJournal n c.writeJournalPage

/-- Trims granules: they are marked unmapped in a TRIM record (R350, R365). -/
def Chip.trimGranules (c : Chip) (space g n : Nat) : Chip :=
  let c := c.record 0x02 ([space, 0, 0, 0] ++ beBytes 4 g ++ beBytes 4 n ++ [0, 0, 0, 0])
  let hit (k : Nat) : Bool := decide (mapKey space g ≤ k) && decide (k < mapKey space g + n)
  let pages := ((c.moss.map.filter fun e => hit e.1).map fun e => e.1 / 2048).eraseDups
  (pages.foldl (fun c p => c.touchMap p true) c).modMoss fun m => { m with map := m.map.filter fun e => !hit e.1 }

/-- A trim that is a hint (R365): it is taken or dropped, and which is free. -/
def Chip.trimHint (c : Chip) (space g n : Nat) : Chip :=
  let x := c.draw
  if x.1 % 2 = 0 then x.2.trimGranules space g n else x.2

/-- Bytes of a pinna sector's user data in the moss tier (R199, R303). -/
def Chip.pinnaSector (c : Chip) (p : PinnaRec) (t : Nat) : Option (List Nat) := c.readSpace 0 (p.moss + 4096 * t) 4096

end Sys2Proof.Machine
end

