-- ==== Sys2Proof/Machine/Flash.lean ====
section
/-! DEFINITION. The moss tier and bed namespaces in flash (10_moss_tier_flash.md): discovery, reads, programs and durability, checkpoints,
relocation, failed blocks, channel loss and rebuild, mount, secure discard. -/
namespace Sys2Proof.Machine

/-! ### What durability releases (R299 to R301, R307, R345) -/

/-- Whether every frond of an object is BURNED with its record durable (R299). -/
def Chip.objBurned (c : Chip) (o : ObjRec) : Bool :=
  o.extents.all fun e =>
    match findFrond c.cat.fronds e.frond with
    | some f => f.state == .burned && c.recDurable f.recLsn
    | none => false

/-- The highest level an object's data have reached: 0 RECEIVED, 1 STAGED, 2 BURNED (R299, R300). -/
def Chip.objLevel (c : Chip) (o : ObjRec) : Nat :=
  if o.waits ≠ [] then 0 else if o.state = .committed ∧ c.objBurned o then 2 else if o.length ≤ o.staged then 1 else 0

/-- Stages the bytes of an object whose records and granules are durable, oldest first (R299, R345). -/
def stageObject (durable : Nat → Bool) (o : ObjRec) : ObjRec :=
  let go := o.waits.takeWhile fun w => durable w.1
  { o with staged := go.foldl (fun m w => max m w.2.1) o.staged, stagedRun := (go.getLast?.map (·.2.2)).getD o.stagedRun, waits := o.waits.drop go.length }

/-- Completes the commands whose durability or level is reached (R300, R425, R427). -/
def Chip.settleCommands (c : Chip) : Chip :=
  (c.contextsParsed fun k => k.phase == .active).foldl (fun c e =>
    let k := c.ctxSt e.1 e.2
    match k.wait with
    | .durable ls =>
      if c.allDurable ls then
        c.complete e.1 e.2 0 (if k.cmd.opcode = 0x43 then 16 else 0) []
      else c
    | .level i lv =>
      match findObj c.cat.objects i with
      | none => c
      | some o =>
        let closing := k.cmd.cflags.testBit 0
        let reached := c.objLevel o
        if closing then
          if o.state = .committed ∧ lv ≤ reached then c.complete e.1 e.2 0 (16 * reached) [] else c
        else if min lv 1 = 0 ∨ k.cmd.p1 + k.cmd.dlen ≤ o.staged then
          c.complete e.1 e.2 0 (if k.cmd.p1 + k.cmd.dlen ≤ o.staged then 16 else 0) []
        else c
    | _ => c) c

/-- A burned frond whose record is durable releases its moss-tier images: TRIM records at once (R307, R350). -/
def Chip.releaseFrond (c : Chip) (f : FrondRec) : Chip :=
  let c := (f.pinnae.filter fun p => !p.mossGone).foldl (fun c p => c.trimGranules 0 (p.moss / 16384) (f.q * 4096)) c
  c.modFrond f.id fun r => { r with pinnae := r.pinnae.map fun p => { p with mossGone := true } }

/-- A checkpoint whose record is durable: the anchors name it, records before its replay point are dropped (R349, R364). -/
def Chip.settleCheckpoint (c : Chip) : Chip :=
  match (c.moss.recs.filter fun r => r.type == 0x0A && c.recDurable r.lsn).getLast? with
  | none => c
  | some r =>
    let cs := beNat (r.payload.take 8)
    let rp := beNat ((r.payload.drop 8).take 8)
    if cs = (tabGet c.moss.anchors 8).1 then c
    else
      let ready := (List.range 8).filter c.chUsable
      let old := c.moss.recs.filter fun x => decide (x.lsn < rp)
      let kept := c.moss.recs.filter fun x => !decide (x.lsn < rp)
      c.modMoss fun m => { m with
        anchors := (8 :: ready).foldl (fun a ch => tabSet a ch (cs, r.lsn)) m.anchors
        replay := rp
        recs := kept
        map := m.map.filter fun e => !(e.1 / 2 ^ 32 == 62 && old.any fun x =>
          (x.page.any fun p => p.2.2 == e.1 % 2 ^ 32) && !(kept.any fun y => y.page == x.page)) }

/-- A set waits for the erase of its members on channels that are not down, once every record so far is durable (R351). -/
def Chip.awaitErase (c : Chip) (s : Nat) : Chip :=
  let c' := c.modSet s fun r => { r with phase := 3, after := c.moss.lsn }
  c'.modSet s fun r => { r with erasing := (r.channels.filter c'.chUsable).foldl (fun m ch => m + 2 ^ ch) 0 }

/-- Closed sets left without a valid granule wait for their erase; one that overwrites or trims emptied gets a PENDING_ERASE record
(R351). -/
def Chip.sweepEmpty (c : Chip) : Chip :=
  (c.moss.sets.filter fun e => e.2.phase == 2).foldl (fun c e =>
    if c.validIn e.1 = [] ∧ !(c.moss.recs.any fun r => r.page.any fun p => p.1 == e.1) then
      (c.record 0x07 (beBytes 4 e.1 ++ [0, 0, 0, 0])).awaitErase e.1
    else c) c

/-- A map page's 2,048 entries as bytes (R340, R341). -/
def Chip.mapPageBytes (c : Chip) (page : Nat) : List Nat :=
  (List.range 2048).flatMap fun i => beBytes 8 (entryBits (tabGet c.moss.map (page * 2048 + i)))

/-- Writes a page of space 63, which its map entry then names; answers the entry (R341, R349). -/
def Chip.writeSystem (c : Chip) (granule : Nat) (data : List Nat) : Option MapEnt × Chip :=
  match c.placePage 3 3 63 granule (c.moss.lsn + 1) data with
  | (none, c) => (none, c)
  | (some p, c) => (some (c.entryOf p), c.modMoss fun m => { m with map := tabSet m.map (mapKey 63 granule) (c.entryOf p) })

/-- Writes a dirty map page into space 63; it is clean then (R342). -/
def Chip.writeMapPage (c : Chip) (page : Nat) : Chip :=
  match c.writeSystem page (c.mapPageBytes page) with
  | (none, _) => c
  | (some _, c) => c.modMoss fun m => { m with cache := m.cache.map fun e => if e.1 = page then (e.1, e.2.1, false) else e }

/-- While more than `dirty_pct` of the cache of 131,072 map pages is dirty, dirty pages are written back in clock order (R341, R342). -/
def writeBack : Nat → Chip → Chip
  | 0, c => c
  | n + 1, c =>
    let dirty := c.moss.cache.filter fun e => e.2.2
    match dirty.head? with
    | some e => if c.poolWrites && decide (c.rd F.mossCtrl_dirty_pct * 131072 < 100 * dirty.length) then writeBack n (c.writeMapPage e.1) else c
    | none => c

/-- A command as session × 4,096 + context, while it is still the active one of an opcode. -/
def Chip.stillRuns (c : Chip) (cmd : Option Nat) (op : Nat) : Option (Nat × Nat) :=
  cmd.bind fun v =>
    let k := c.ctxSt (v / 4096) (v % 4096)
    if k.phase = .active ∧ k.cmd.opcode = op then some (v / 4096, v % 4096) else none

/-- A disc is loaded once its load record is durable (R322, R324). -/
def Chip.settleLoads (c : Chip) : Chip :=
  (List.range 24).foldl (fun c d =>
    match tabGet c.cat.loads d with
    | none => c
    | some l =>
      if l.checked ≠ 2 ∨ !c.recDurable l.lsn then c
      else
        let c := (c.wr (F.discStatus_state d) 5).modCat fun x => { x with loads := tabSet x.loads d none }
        match c.stillRuns l.cmd 0x61 with
        | some e => c.ok e.1 e.2 (beBytes 8 (c.rd (F.discId_id d)) ++ [c.rd (F.discStatus_foreign d)])
        | none => c) c

/-- Acts on everything that has become durable. -/
def Chip.settle (c : Chip) : Chip :=
  let c := c.modMoss fun m => { m with writes := m.writes.filter fun w => !(c.rowSafe w.set w.row && c.recDurable w.rec_) }
  let snaps : List (Nat × CatSt) := match (c.catSnaps.filter fun s => c.recDurable s.1).getLast? with
    | some s => s :: c.catSnaps.filter fun t => decide (s.1 < t.1)
    | none => c.catSnaps
  let c := { c with catSnaps := snaps }
  let c := c.modCat fun k => { k with objects := k.objects.map (stageObject fun l => c.allDurable [l]) }
  let c := (c.cat.fronds.filter fun f => c.poolWrites && f.state == .burned && c.recDurable f.recLsn && f.pinnae.any fun p => !p.mossGone).foldl
    (fun c f => c.releaseFrond f) c
  let c := c.settleCheckpoint.sweepEmpty
  (((writeBack c.moss.cache.length c).settleLoads).settleCommands).refreshHost

/-! ### Discovery (R329, R330) -/

/-- Conditions on a target (R330). -/
def targetOk (p : TargetParams) : Bool :=
  p.dataBytes == 16384 && decide (1864 ≤ p.spareBytes) && decide (256 ≤ p.pages) && decide (p.pages ≤ 4096) && decide (p.blocks ≤ 262144) && p.nvddr3

/-- Pages per block of the pool's first accepted target. -/
def Chip.firstPages (c : Chip) : Option Nat := (c.moss.chans.flatMap fun e => e.2.targets.map (·.2.pages)).head?

/-- One target's parameter page: accepted, or refused with its event. -/
def Chip.discoverTarget (c : Chip) (ch t : Nat) (p : TargetParams) : Chip :=
  if targetOk p && (c.firstPages.getD p.pages == p.pages) then
    let c := c.modChan ch fun k => { k with targets := tabSet k.targets t p }
    let f := F.fcStatus_targets (ch / 2) (ch % 2)
    ((c.wr f (maskSet (c.rd f) t true)).wrSat (F.fcStatus_rate (ch / 2) (ch % 2)) (min p.rate 2400)).modMoss fun m => { m with pages := p.pages }
  else c.raiseRgn (ch / 2) 4 [ch, t]

/-- Positions of a target that sets can use, the reserve and the lichen block set aside (R335, R540). -/
def usableBlocks (t : Nat) (p : TargetParams) (spare : Nat) : Nat := p.blocks - (if t = 0 then 2 else 0) - 1 - p.blocks * spare / 100

/-- Geometry of the accepted targets: N_b and the raw granules (R335, R338). -/
def Chip.geometry (c : Chip) (spare : Nat) : Nat × Nat :=
  let ts := c.moss.chans.flatMap fun e => e.2.targets
  let nbs := ts.map fun e => usableBlocks e.1 e.2 spare
  (nbs.foldl min (nbs.headD 0), (ts.map fun e => e.2.blocks * e.2.pages).sum)

/-- Modules found at discovery: channel, serial, whether the anchors carry this pool's identifier (none when blank); then each target's parameter page in rising order (R329, R330). A
module on a channel that was down is not admitted yet; one that was being rebuilt goes on (R362, R363). -/
def Chip.discover (c : Chip) (mods : List (Nat × Nat × Option Bool)) (found : List (Nat × Nat × TargetParams)) : Chip :=
  let c := mods.foldl (fun c m => (c.modChan m.1 fun k => { k with serial := m.2.1, anchor := m.2.2, present := true }).wr
    (F.fcStatus_state (m.1 / 2) (m.1 % 2)) 1) c
  let c := found.foldl (fun c e => if (c.chan e.1).present then c.discoverTarget e.1 e.2.1 e.2.2 else c) c
  let c := mods.foldl (fun c m =>
    let st := if c.moss.rebuild.any fun b => b.1 == m.1 then 4 else if (c.rd F.mossStatus_down).testBit m.1 then 5 else 2
    c.wr (F.fcStatus_state (m.1 / 2) (m.1 % 2)) st) c
  let g := c.geometry (c.sparePct)
  let c := c.modMoss fun m => { m with raw := g.2, nb := if m.nb = 0 then g.1 else m.nb }
  let c := mods.foldl (fun c m => c.modChan m.1 fun k => { k with
    reserve0 := ((k.targets.map fun e => e.2.blocks * c.sparePct / 100)).headD 0
    reserve := k.targets.map fun e => (e.1, ((tabFind k.reserve e.1).getD (e.2.blocks * c.sparePct / 100))) }) c
  { c with power := { c.power with discovered := true } }

def execFlashDiscovery (mods : List (Nat × Nat × Option Bool)) (found : List (Nat × Nat × TargetParams)) (s : State) :
    Host.Outcome State Fault Refusal := s.nextChip (s.chip.discover mods found)

/-! ### Relocation (R350 to R353, R356, R357) -/

/-- In OVERCAST the flash is idle: relocation and rebuild are paused (R410). -/
def Chip.flashIdle (c : Chip) : Bool := c.rd F.pwrStatus_state == 2 && !c.rdb F.pwrStatus_waking

/-- A granule is lost: its map state in a RELOC entry, and its event with the frond and pinna of space 0 (R357). -/
def Chip.loseGranule (c : Chip) (space g : Nat) : Chip :=
  let e := c.mapEnt space g
  let c := c.record 0x03 (beBytes 4 ((c.placeSet e.ch e.tgt e.blk).getD 0) ++ [0, 1, 0, 0, space, 0, 0, 0] ++ beBytes 4 g ++
    beBytes 8 (entryBits e) ++ beBytes 8 (entryBits { e with state := 2 }))
  let c := c.setMap space g { e with state := 2 }
  let owner := c.cat.fronds.findSome? fun f => (f.pinnae.zipIdx.find? fun p =>
    space == 0 && !p.1.mossGone && decide (p.1.moss ≤ g * 16384) && decide (g * 16384 < p.1.moss + f.q * 2 ^ 26)).map fun p => (f.id, p.2)
  c.raisePkg 24 ([space] ++ beBytes 4 g ++ beBytes 8 ((owner.map (·.1)).getD 0) ++ [(owner.map (·.2)).getD 0])

/-- Kind of the page that holds a granule of a space (R332, R337). -/
def spaceKind (space : Nat) : Nat := if space = 62 then 2 else if space = 63 then 3 else 0

/-- Copies a granule into the relocation stream, under an lsn taken for its RELOC record; none when no set takes it or its content is lost (R351). -/
def Chip.copyGranule (c : Chip) (space g : Nat) : Option (Nat × Place × Chip) :=
  (c.entryData (c.mapEnt space g)).bind fun data =>
    let (lsn, c) := c.takeLsn
    match c.placePage 2 (spaceKind space) space g lsn data with
    | (none, _) => none
    | (some p, c) => some (lsn, p, c)

/-- A copy that has passed its verify-read is committed by its RELOC record; the map changes as it still holds the old value. A set left without a valid
granule then waits for its erase (R351, R352). -/
def Chip.commitCopy (c : Chip) (space g lsn : Nat) (p : Place) : Chip :=
  let e := c.mapEnt space g
  let src := c.placeSet e.ch e.tgt e.blk
  let new := c.entryOf p
  let c := c.setMap space g new
  let empty := match src with | some s => decide (c.validIn s = []) && (c.setSt s).phase == 2 | none => false
  let c := c.recordAt lsn 0x03 (beBytes 4 (src.getD 0) ++ [0, 1, empty.toNat, 0, space, 0, 0, 0] ++ beBytes 4 g ++ beBytes 8 (entryBits e) ++
    beBytes 8 (entryBits new))
  let c := c.modMoss fun m => { m with
    writes := m.writes ++ [⟨p.set, p.row, p.ch, space, g, lsn, lsn, e⟩]
    recs := m.recs.map fun r => if space = 62 ∧ (r.page.any fun q => q.2.2 == g) then { r with page := some (p.set, p.row, g) } else r }
  match src with
  | some s => if empty then c.awaitErase s else c
  | none => c

/-- Moves a granule whose copy passes its verify-read; one whose content is lost is marked so (R351, R357). -/
def Chip.relocate (c : Chip) (space g : Nat) : Chip :=
  if (c.entryData (c.mapEnt space g)).isNone then c.loseGranule space g
  else
    match c.copyGranule space g with
    | some (lsn, p, c) => c.commitCopy space g lsn p
    | none => c

/-- Whether relocation runs (R350): from free sets below gc_start until gc_stop. -/
def Chip.refreshGc (c : Chip) : Chip :=
  let free := c.freeSets * 100
  let low := decide (free < c.rd F.mossCtrl_gc_start * c.setCount)
  let high := decide (c.rd F.mossCtrl_gc_stop * c.setCount ≤ free)
  c.modMoss fun m => { m with gc := low || (m.gc && !high) }

/-- The victim of relocation: the closed set with the fewest valid granules that holds no live journal page (R350). -/
def Chip.victim (c : Chip) : Option Nat :=
  let cs := (c.moss.sets.filter fun e => e.2.phase == 2 && !(c.moss.recs.any fun r => r.page.any fun p => p.1 == e.1)).map (·.1)
  cs.foldl (fun b s => match b with
    | none => some s
    | some o => if (c.validIn s).length < (c.validIn o).length then some s else some o) none

/-- Erase counts of all blocks that are not retired: least and greatest (R358). -/
def Chip.wear (c : Chip) : Nat × Nat :=
  let ls := c.moss.chans.flatMap fun e => (e.2.erases.filter fun b => !e.2.retired.contains b.1).map (·.2)
  (if (c.moss.chans.map fun e => e.2.erases.length).sum < (c.moss.chans.flatMap fun e => e.2.targets.map fun t => t.2.blocks).sum then 0
    else ls.foldl min (ls.headD 0), ls.foldl max 0)

/-- The set wear levelling moves: the closed set with the lowest mean erase count that holds valid granules (R358). -/
def Chip.wearVictim (c : Chip) : Option Nat :=
  let w := c.wear
  if w.2 - w.1 ≤ c.rd F.mossCtrl2_wl_spread then none
  else
    let cs := (c.moss.sets.filter fun e => e.2.phase == 2 && decide (c.validIn e.1 ≠ [])).map (·.1)
    cs.foldl (fun b s => match b with
      | none => some s
      | some o => if c.setErases s * popCount 8 (c.setSt o).members < c.setErases o * popCount 8 (c.setSt s).members then some s else some o) none

/-- Some set that drains or is queued for refresh still holds valid granules: it goes ahead of ordinary victims (R333, R355). -/
def Chip.urgent (c : Chip) : Bool := c.moss.sets.any fun e => e.2.phase == 2 && (e.2.drain || e.2.refresh) && c.validIn e.1 != []

/-- Whether a set's granules are to be relocated: draining, refresh, a secure discard, and after those relocation and wear levelling (R333, R350, R355, R358,
R366). -/
def Chip.relocates (c : Chip) (s : Nat) : Bool :=
  let r := c.setSt s
  r.drain || r.refresh || ((c.moss.discards.head?).any fun d => d.sets.contains s) ||
    (!c.urgent && ((c.moss.gc && c.victim == some s) || c.wearVictim == some s))

/-- Granules a secure discard names. -/
def SecureDiscard.covers (d : SecureDiscard) (space g : Nat) : Bool :=
  d.ranges.any fun r => r.1 == space && decide (r.2.1 ≤ g) && decide (g < r.2.1 + r.2.2)

/-- A copy whose verify-read fails counts as a program failure of its destination block: the set of that block is drained (R355, R356). -/
def Chip.programFailure (c : Chip) (s ch : Nat) : Chip :=
  match c.setBlock ch s with
  | none => c
  | some b =>
    let key := tgtBlk (c.setTarget s) b
    let c := (c.bump (F.fcErr_prog_fail (ch / 2) (ch % 2))).record 0x09 ([ch, c.setTarget s, 0, 0] ++ beBytes 4 b)
    let c := c.modChan ch fun k => { k with progFailed := key :: k.progFailed }
    let c := c.modSet s fun r => { r with drain := true }
    if (c.setSt s).phase = 1 then c.closeSet s else c

/-- A copy that fails its verify-read stays an orphan, counts as a program failure of its destination, and is made again (R356). -/
def Chip.recopy (c : Chip) (space g : Nat) : Chip :=
  match c.copyGranule space g with
  | some (_, p, c) => (c.programFailure p.set p.ch).relocate space g
  | none => c.relocate space g

def execRelocateGranule (space g : Nat) (verifyOk : Bool) (s : State) : Host.Outcome State Fault Refusal :=
  if s.chip.flashIdle then .next s else
  let c := s.chip
  let e := c.mapEnt space g
  s.nextChip (
    if c.poolWrites && e.state == 1 && (c.placeSet e.ch e.tgt e.blk).any c.relocates then
      ((if verifyOk then c.relocate space g else c.recopy space g).refreshGc).settle
    else c)

/-! ### Page reads (R333) -/

/-- The granule mapped to a place. -/
def Chip.granuleAt (c : Chip) (ch tgt blk pg : Nat) : Option (Nat × Nat) :=
  (c.moss.map.find? fun e => e.2.state == 1 && e.2.ch == ch && e.2.tgt == tgt && e.2.blk == blk && e.2.pg == pg).map
    fun e => (e.1 / 2 ^ 32, e.1 % 2 ^ 32)

/-- A page read completes with the corrections of its eight codewords, or none for one that failed: a page with more than refresh_thr
corrections queues its set, one that failed is rebuilt from its row and relocated (R333, R335). -/
def Chip.pageRead (c : Chip) (ch tgt blk pg : Nat) (words : List (Option Nat)) : Chip :=
  let c := match c.pageAt ch tgt blk pg with
    | some p => c.snoopStream (ch / 4) 3 (ch % 4) (c.storedBytes p)
    | none => c
  let bad := words.any fun w => w.all fun n => decide (120 < n)
  if bad then
    let c := c.bump (F.fcErr_uncorr (ch / 2) (ch % 2))
    let c := c.modMoss fun m => { m with flash := tabErase m.flash (placeKey ch tgt blk pg) }
    match c.granuleAt ch tgt blk pg with
    | some g => if c.poolWrites then c.relocate g.1 g.2 else c
    | none => c
  else if (words.any fun w => w.any fun n => decide (c.rd F.mossCtrl_refresh_thr < n)) then
    let c := c.bump (F.fcErr_refresh (ch / 2) (ch % 2))
    match c.placeSet ch tgt blk with
    | some s => c.modSet s fun r => { r with refresh := true }
    | none => c
  else c

def execFlashPageRead (ch tgt blk pg : Nat) (words : List (Option Nat)) (s : State) : Host.Outcome State Fault Refusal :=
  s.nextChip (if s.chip.chUsable ch && s.chip.channelRuns ch && s.chip.poolStands then (s.chip.pageRead ch tgt blk pg words).settle else s.chip)

/-! ### Programs (R344, R345, R355) -/

/-- A granule of a failed row is written again: a page of the system stream is mapped anew; another granule has its write or its relocation recorded again, by
MAP_WRITE, or by RELOC in the relocation stream (R355, R356). -/
def Chip.rewritePage (c : Chip) (s row : Nat) (stream : Nat) (g : Nat × Nat) (p : PageRec) : Chip :=
  let old := c.mapEnt g.1 g.2
  let (lsn, c) := if g.1 < 62 then c.takeLsn else (p.lsn, c)
  match c.placePage stream p.kind g.1 g.2 lsn p.data with
  | (none, _) => c
  | (some q, c) =>
    let new := c.entryOf q
    let c := c.setMap g.1 g.2 new
    if 62 ≤ g.1 then
      c.modMoss fun m => { m with
        recs := m.recs.map fun x => if g.1 = 62 ∧ (x.page.any fun y => y.2.2 == g.2) then { x with page := some (q.set, q.row, g.2) } else x }
    else
      let c := if stream = 2 then c.recordAt lsn 0x03 (beBytes 4 s ++ [0, 1, 0, 0, g.1, 0, 0, 0] ++ beBytes 4 g.2 ++ beBytes 8 (entryBits old) ++ beBytes 8 (entryBits new))
        else c.recordAt lsn 0x01 ([g.1, 0, 0, 1] ++ beBytes 4 g.2 ++ beBytes 8 (entryBits new))
      c.modMoss fun m =>
        let mine (w : GranuleWrite) : Bool := w.set == s && w.row == row && w.space == g.1 && w.granule == g.2
        let ws := m.writes.map fun w => if mine w then { w with set := q.set, row := q.row, ch := q.ch, rec_ := lsn } else w
        let more : List GranuleWrite := if m.writes.any mine then [] else [⟨q.set, q.row, q.ch, g.1, g.2, lsn, lsn, old⟩]
        { m with writes := ws ++ more }

/-- The granules of a failed row are written again in the next row of an open set of the same stream (R355). -/
def Chip.rewriteRow (c : Chip) (s row : Nat) : Chip :=
  let r := c.setSt s
  (r.dataChannels s row).foldl (fun c ch =>
    match c.setBlock ch s with
    | none => c
    | some b =>
      match c.granuleAt ch (c.setTarget s) b row, c.pageAt ch (c.setTarget s) b row with
      | some g, some p => c.rewritePage s row r.stream g p
      | _, _ => c) c

/-- A page program completes (R344, R355). -/
def Chip.programDone (c : Chip) (s row ch : Nat) (ok : Bool) : Chip :=
  let r := c.setSt s
  if r.phase = 0 ∨ !r.channels.contains ch then c
  else if ok then c.modSet s fun r => { r with passed := tabMod r.passed row fun m => maskSet m ch true }
  else
    let c := (c.modSet s fun r => { r with fails := (row, ch) :: r.fails }).programFailure s ch
    c.rewriteRow s row

/-- Pad pages fill the rest of a set's row. -/
def padRow : Nat → Chip → Nat → Nat → Chip
  | 0, c, _, _ => c
  | n + 1, c, stream, s =>
    let c := (c.placePage stream 5 0 0 0 zeroGranule).2
    if (c.setSt s).slot = 0 ∨ (c.setSt s).phase ≠ 1 then c else padRow n c stream s

/-- Pads rows until the rows written so far have as many behind them as pair_dist asks (R344). -/
def padRows : Nat → Chip → Nat → Chip
  | 0, c, _ => c
  | n + 1, c, stream =>
    match tabGet c.moss.openSet stream with
    | none => c
    | some s => padRows n (padRow 8 c stream s) stream

/-- The largest pair_dist of a set's members. -/
def Chip.pairDist (c : Chip) (s : Nat) : Nat :=
  ((c.setSt s).channels.map fun ch => c.rd (F.fcCfg_pair_dist (ch / 2) (ch % 2))).foldl max 0

/-- A durable write or record of a stream waits for its row to become safe; a record not yet in a page waits for one of the system stream (R344). -/
def Chip.streamWaits (c : Chip) (stream : Nat) : Bool :=
  let mine (s : Nat) : Bool := (c.setSt s).phase == 1 && (c.setSt s).stream == stream
  (c.moss.writes.any fun w => mine w.set && !c.rowSafe w.set w.row) ||
    (stream == 3 && (c.moss.buf != [] || c.moss.recs.any fun r => r.page.any fun p => mine p.1 && !c.rowSafe p.1 p.2.1))

/-- `jflush_us` have passed with something of a stream waiting: buffered records are written, and pads make the rows safe (R344). -/
def execJflushTimeout (stream : Nat) (s : State) : Host.Outcome State Fault Refusal :=
  let c := s.chip
  s.nextChip (
    if c.poolWrites && c.streamWaits stream then
      let c := if stream = 3 then Chip.writeJournal (c.moss.buf.length + 2) c else c
      match tabGet c.moss.openSet stream with
      | none => c.settle
      | some o =>
        let c := if (c.setSt o).slot = 0 then c else padRow 8 c stream o
        (padRows (c.pairDist o) c stream).settle
    else c)

/-! ### Checkpoint (R342, R349) -/

/-- The set table: a set's phase and its members' erase counts. -/
def Chip.setTable (c : Chip) : List Nat := (List.range c.setCount).flatMap fun s => (c.setSt s).phase :: c.eraseCounts s

/-- The directory: the map entry of every map page written (R341). -/
def Chip.directory (c : Chip) : List Nat := (c.moss.map.filter fun e => e.1 / 2 ^ 32 == 63).flatMap fun e => beBytes 8 (entryBits e.2)

/-- A checkpoint (R349). -/
def Chip.checkpoint (c : Chip) : Chip :=
  let replay := c.moss.lsn + 1
  let dirty := (c.moss.cache.filter fun e => e.2.2).map (·.1)
  let c := dirty.foldl Chip.writeMapPage c
  let body := c.directory ++ c.setTable
  let c := (chunks 16384 (body.length / 16384 + 1) body).zipIdx.foldl (fun c e =>
    (c.writeSystem (2 ^ 20 + 1 + e.2) (padTo 16384 e.1)).2) c
  match c.writeSystem (2 ^ 20) (padTo 16384 c.directory) with
  | (none, _) => c
  | (some e, c) =>
    let c := c.record 0x0A (beBytes 8 (c.moss.cseq + 1) ++ beBytes 8 replay ++ beBytes 8 (entryBits e))
    Chip.writeJournal (c.moss.buf.length + 2) (c.modMoss fun m => { m with cseq := m.cseq + 1, jBytes := 0, ckptAt := c.now })

def execCheckpoint (s : State) : Host.Outcome State Fault Refusal :=
  let c := s.chip
  let due := c.rd F.mossCtrl2_ckpt_mib * 2 ^ 20 ≤ c.moss.jBytes ∨ (60 * 10 ^ 9 ≤ c.now - c.moss.ckptAt ∧ c.moss.jBytes ≠ 0)
  s.nextChip (if c.poolWrites && decide due then c.checkpoint.settle else c)

/-! ### Erases and retired blocks (R354, R355, R360) -/

/-- The replacement block of a target's reserve: its reserve blocks follow the blocks of the sets. -/
def Chip.replacement (c : Chip) (ch t : Nat) : Option Nat :=
  let k := c.chan ch
  let left := tabGet k.reserve t
  if left = 0 then none else some (c.moss.nb + (if t = 0 then 2 else 0) + (k.reserve0 - left - (tabGet k.lichen t).taken))

/-- A retirement is recorded, counted and reported, and with it a reserve that falls below a quarter (R354). -/
def Chip.noteRetired (c : Chip) (ch t b : Nat) (rep : Option Nat) (cause left : Nat) : Chip :=
  let c := c.record 0x08 ([ch, t, cause, 0] ++ beBytes 4 b ++ beBytes 4 (rep.getD noBlock) ++ [0, 0, 0, 0])
  let c := (c.bump (F.fcErr_retired (ch / 2) (ch % 2))).raiseRgn (ch / 2) 5 ([ch, t, cause] ++ beBytes 4 b)
  let all := (c.chan ch).reserve0
  if (left - 1) * 4 < all ∧ ¬ left * 4 < all then c.raiseRgn (ch / 2) 6 [ch, t] else c

/-- A block is retired: its position takes a replacement from the reserve, or none; recorded, counted, reported (R354). -/
def Chip.retire (c : Chip) (ch s b cause : Nat) : Chip :=
  let t := c.setTarget s
  let pos := tgtBlk t (s % c.moss.nb)
  let rep := c.replacement ch t
  let left := tabGet (c.chan ch).reserve t
  let c := c.modChan ch fun k => { k with
    remap := tabSet k.remap pos (some (rep.getD noBlock)), reserve := tabSet k.reserve t (left - 1), retired := tgtBlk t b :: k.retired }
  c.noteRetired ch t b rep cause left

/-- A member of a set is erased, or gone with its channel; with the last one the set is free (R348, R351, R353). -/
def Chip.memberErased (c : Chip) (s ch : Nat) : Chip :=
  let left := maskSet (c.setSt s).erasing ch false
  let c := c.modSet s fun r => { r with erasing := left }
  if left = 0 then
    let c := c.record 0x06 (beBytes 4 s ++ [0, 0, 0, 0] ++ c.eraseCounts s)
    let c := c.modSet s fun _ => default
    let c := c.modMoss fun m => { m with discards := m.discards.map fun d => { d with sets := d.sets.filter (· != s) } }
    c.refreshFree.refreshGc
  else c

/-- An erase of one member of a set that is pending its erase (R351, R354, R355). -/
def Chip.eraseDone (c : Chip) (s ch : Nat) (ok : Bool) : Chip :=
  let r := c.setSt s
  let ready := !(c.moss.buf.any fun x => decide (x.lsn ≤ r.after)) && c.moss.recs.all fun x => decide (r.after < x.lsn) || c.recDurable x.lsn
  if r.phase ≠ 3 ∨ !r.erasing.testBit ch ∨ !ready then c
  else
    match c.setBlock ch s with
    | none => c
    | some b =>
      let t := c.setTarget s
      let key := tgtBlk t b
      let lo := placeKey ch t b 0
      let c := c.modMoss fun m => { m with flash := m.flash.filter fun e => !(decide (lo ≤ e.1) && decide (e.1 < lo + 4096)) }
      let twice := 2 ≤ ((c.chan ch).progFailed.filter (· == key)).length
      let c := if ok then
          let c := c.modChan ch fun k => { k with erases := tabMod k.erases key (· + 1) }
          if twice then c.retire ch s b 1 else c
        else (c.bump (F.fcErr_erase_fail (ch / 2) (ch % 2))).retire ch s b 0
      let w := c.wear
      ((c.wrSat F.mossWear_min w.1).wrSat F.mossWear_max w.2).memberErased s ch

/-- Recomputes pkg.moss.progress: sanitise, format, secure discard or rebuild (R441). -/
def Chip.refreshProgress (c : Chip) : Chip :=
  let m := c.moss
  let p (op done total : Nat) : Chip := (c.wr F.mossProgress_op (op + 1)).wr F.mossProgress_done (if total = 0 then 1000 else done * 1000 / total)
  match m.op, m.discards, m.rebuild with
  | some (sani, cur, tot), _, _ => p (if sani then 0 else 1) cur tot
  | none, d :: _, _ => p 2 (d.total - d.sets.length) d.total
  | none, [], some (_, _, done, tot) => p 3 done tot
  | none, [], none => (c.wr F.mossProgress_op 0).wr F.mossProgress_done 0

/-! ### Erases of a sanitise or format (R440 to R442) -/

/-- What a sanitise or format erases, in order, as (channel, target, first block, blocks): every block of every accepted target, the anchor
blocks last. -/
def Chip.eraseRuns (c : Chip) : List (Nat × Nat × Nat × Nat) :=
  let ts := (List.range 8).flatMap fun ch => if c.chUsable ch then (c.chan ch).targets.map fun (t : Nat × TargetParams) => (ch, t.1, t.2.blocks) else []
  (ts.map fun e => let a := if e.2.1 = 0 then 2 else 0; (e.1, e.2.1, a, e.2.2 - a)) ++
    (ts.filter fun e => e.2.1 == 0).map fun e => (e.1, 0, 0, min 2 e.2.2)

/-- Blocks erased in all. -/
def Chip.eraseTotal (c : Chip) : Nat := (c.eraseRuns.map fun e => e.2.2.2).sum

/-- The block a cursor names, as (channel, target, block). -/
def blockAt : List (Nat × Nat × Nat × Nat) → Nat → Option (Nat × Nat × Nat)
  | [], _ => none
  | (ch, t, b, n) :: rest, k => if k < n then some (ch, t, b + k) else blockAt rest (k - n)

/-! ### Lichen blocks (R540, R541, R544, R545) -/

def Chip.lichenBlk (c : Chip) (ch t : Nat) : LichenBlock := tabGet (c.chan ch).lichen t

def Chip.modLichen (c : Chip) (ch t : Nat) (f : LichenBlock → LichenBlock) : Chip := c.modChan ch fun k => { k with lichen := tabMod k.lichen t f }

/-- The number of a target's lichen block: its highest one, or the next below those that failed (R540). -/
def Chip.lichenNo (c : Chip) (ch t : Nat) : Nat := (tabGet (c.chan ch).targets t : TargetParams).blocks - 1 - (c.lichenBlk ch t).taken

/-- The erased pages of a lichen block. -/
def Chip.lichenRoom (c : Chip) (ch t : Nat) : Nat := c.moss.pages - (c.lichenBlk ch t).spent

/-- The accepted targets of the channels in use. -/
def Chip.poolTargets (c : Chip) : List (Nat × Nat) :=
  (List.range 8).flatMap fun ch => if c.chUsable ch then (c.chan ch).targets.map fun t => (ch, t.1) else []

/-- The pages of space 61, with their targets. -/
def Chip.lichenPages (c : Chip) : List LichenPage := c.poolTargets.flatMap fun e => (c.lichenBlk e.1 e.2).pages

/-- FLASH_ERASE_DONE and FLASH_PROGRAM_DONE name the lichen block of target t by this number plus t, which no stripe set has. DESIGN CHOICE,
notes/assumptions/111.md. -/
def lichenSet : Nat := 2 ^ 21

/-- A lichen block is without erased pages from here on, or with all of them. -/
def LichenBlock.wiped (b : LichenBlock) : LichenBlock := { b with pages := [], spent := 0, due := false }

/-- A lichen block fails its erase: it is retired, and the next-highest block of the target's reserve takes its place and is erased in turn; with no
reserve the target takes no part in the copy any more (R354, R540). -/
def Chip.lichenFailed (c : Chip) (ch t : Nat) : Chip :=
  let b := c.lichenNo ch t
  let left := tabGet (c.chan ch).reserve t
  let rep := if left = 0 then none else some (b - 1)
  let c := (c.bump (F.fcErr_erase_fail (ch / 2) (ch % 2))).modChan ch fun k => { k with reserve := tabSet k.reserve t (left - 1), retired := tgtBlk t b :: k.retired }
  let c := c.modLichen ch t fun l => if left = 0 then { (default : LichenBlock) with taken := l.taken, absent := true } else { l.wiped with taken := l.taken + 1, due := true }
  c.noteRetired ch t b rep 0 left

/-- The erase of a lichen block that has too few erased pages ends (R545). -/
def Chip.lichenErased (c : Chip) (ch t : Nat) (ok : Bool) : Chip :=
  if !(c.lichenBlk ch t).due then c
  else if ok then (c.modLichen ch t LichenBlock.wiped).modChan ch fun k => { k with erases := tabMod k.erases (tgtBlk t (c.lichenNo ch t)) (· + 1) }
  else c.lichenFailed ch t

/-- A page of the saved copy is programmed again after the erase, from page 0 on; one that fails its program goes into the next page (R545). -/
def Chip.lichenProgrammed (c : Chip) (ch t : Nat) (ok : Bool) : Chip :=
  let l := c.lichenBlk ch t
  if l.due then c
  else
    match l.held with
    | [] => c
    | p :: rest =>
      if ok then c.modLichen ch t fun l => { l with pages := l.pages ++ [p], spent := l.spent + 1, held := rest }
      else (c.modLichen ch t fun l => { l with spent := l.spent + 1 }).bump (F.fcErr_prog_fail (ch / 2) (ch % 2))

/-- At mount, a lichen block with fewer than 8 erased pages has its pages of the saved copy read into DRAM and awaits its erase (R545). -/
def Chip.renewLichen (c : Chip) : Chip :=
  c.poolTargets.foldl (fun c e =>
    if (c.lichenBlk e.1 e.2).absent || decide (8 ≤ c.lichenRoom e.1 e.2) then c
    else c.modLichen e.1 e.2 fun l => { l with held := l.pages.filter fun p => p.copy == c.lichen.savedCopy, due := true }) c

/-- Every lichen block is erased (R548). -/
def Chip.wipeLichen (c : Chip) : Chip := c.poolTargets.foldl (fun c e => c.modLichen e.1 e.2 fun l => { l.wiped with held := [] }) c

/-- The block at the cursor is erased; one that fails its erase, or a sanitise's read-back, is retired (R354, R440). -/
def Chip.opErase (c : Chip) (ok : Bool) : Chip :=
  match c.moss.op with
  | none => c
  | some (sani, cur, total) =>
    match blockAt c.eraseRuns cur with
    | none => c
    | some (ch, t, b) =>
      let lo := placeKey ch t b 0
      let key := tgtBlk t b
      let c := c.modMoss fun m => { m with flash := m.flash.filter fun e => !(decide (lo ≤ e.1) && decide (e.1 < lo + 4096)), op := some (sani, cur + 1, total) }
      let mine := b == c.lichenNo ch t && !(c.lichenBlk ch t).absent
      let c := if mine then c.modLichen ch t fun l => { l.wiped with held := [] } else c
      let c := if ok then c.modChan ch fun k => { k with erases := tabMod k.erases key (· + 1) }
        else
          let c := c.modChan ch fun k => { k with retired := if k.retired.contains key then k.retired else key :: k.retired }
          ((c.bump (F.fcErr_erase_fail (ch / 2) (ch % 2))).bump (F.fcErr_retired (ch / 2) (ch % 2))).raiseRgn (ch / 2) 5 ([ch, t, 0] ++ beBytes 4 b)
      c.refreshProgress

/-- An erase ends: of a set's member, of a lichen block, or of the block at the cursor of a sanitise or format. -/
def execFlashEraseDone (set ch : Nat) (ok : Bool) (s : State) : Host.Outcome State Fault Refusal :=
  if !s.chip.channelRuns ch then .next s
  else if lichenSet ≤ set then s.nextChip (if s.chip.poolWrites then (s.chip.lichenErased ch (set - lichenSet) ok).settle else s.chip)
  else s.nextChip (if s.chip.poolStands then (s.chip.eraseDone set ch ok).settle else s.chip.opErase ok)

/-- The completion reaches the channel's engine, which takes none while its region is frozen (R26). -/
def execFlashProgramDone (set row ch : Nat) (ok : Bool) (s : State) : Host.Outcome State Fault Refusal :=
  if !s.chip.channelRuns ch then .next s
  else if lichenSet ≤ set then s.nextChip (if s.chip.poolWrites then s.chip.lichenProgrammed ch (set - lichenSet) ok else s.chip)
  else s.nextChip ((s.chip.programDone set row ch ok).settle)

/-! ### Channels (R359 to R363) -/

/-- Recounts degraded and offline from the channels that are down (R360, R361). -/
def Chip.refreshDown (c : Chip) : Chip :=
  let n := popCount 8 (c.rd F.mossStatus_down)
  (c.wrb F.mossStatus_degraded (n == 1)).wrb F.mossStatus_offline (decide (2 ≤ n))

/-- What a FLUSH waits for can no longer reach STAGED while the pool is offline: it fails with the number of such writes (R361, R431). -/
def Chip.flushOffline (c : Chip) : Chip :=
  (c.contextsParsed fun k => k.phase == .active && k.cmd.opcode == 0x45).foldl (fun c e =>
    match (c.ctxSt e.1 e.2).wait with
    | .durable ls => c.complete e.1 e.2 0x0405 0 (beBytes 4 (ls.filter fun l => !c.allDurable [l]).length)
    | _ => c) c

/-- Open sets with a member on a channel that is down are closed, and such a member is erased no more, while the pool takes writes (R336, R360). -/
def Chip.closeBroken (c : Chip) : Chip :=
  if !c.poolWrites then c
  else
    let lost (m : Nat) : List Nat := (maskList 8 m).filter fun ch => !c.chUsable ch
    let sets := (c.moss.sets.filter fun e => e.2.phase == 1 && lost e.2.members != []).map (·.1)
    let pend := (c.moss.sets.filter fun e => e.2.phase == 3).flatMap fun e => (lost e.2.erasing).map fun ch => (e.1, ch)
    pend.foldl (fun c e => c.memberErased e.1 e.2) (sets.foldl Chip.closeSet c)

/-- A channel goes down: recorded, reported; with a second one the pool is offline (R359, R361). Open sets it belongs to are closed. -/
def Chip.channelDown (c : Chip) (ch cause : Nat) : Chip :=
  let r := ch / 2
  if (c.rd F.mossStatus_down).testBit ch then c
  else
    let c := if c.poolWrites then c.record 0x0B ([ch, 1, 0, 0, 0, 0, 0, 0] ++ beBytes 16 (c.chan ch).serial) else c
    let c := ((c.wr (F.fcStatus_state r (ch % 2)) 3).wr (F.fcCfg_down r (ch % 2)) 1).modChan ch fun k => { k with lastSerial := k.serial }
    let c := c.modMoss fun m => { m with rebuild := if m.rebuild.any fun b => b.1 == ch then none else m.rebuild }
    let c := (c.wr F.mossStatus_down (maskSet (c.rd F.mossStatus_down) ch true)).refreshDown
    let c := (if c.moss.rebuild = none then (c.wr F.mossStatus_rebuilding 0) else c).closeBroken
    let c := c.raiseRgn r 2 [ch, cause]
    if 2 ≤ popCount 8 (c.rd F.mossStatus_down) then (c.raisePkg 23 [c.rd F.mossStatus_down]).flushOffline else c

def execChannelDown (ch cause : Nat) (s : State) : Host.Outcome State Fault Refusal :=
  s.nextChip ((s.chip.channelDown (ch % 8) cause).settle)

def execFcDownWrite (ch : Nat) (value : Bool) (s : State) : Host.Outcome State Fault Refusal :=
  s.nextChip (if value then (s.chip.channelDown (ch % 8) 2).settle else s.chip)

/-- Sets whose membership a channel's members must be rebuilt in (R363). -/
def Chip.rebuildSets (c : Chip) (ch : Nat) : List Nat :=
  (c.moss.sets.filter fun e => e.2.phase != 0 && e.2.members.testBit ch && e.2.phase != 3).map (·.1)

/-- The rebuild ends: the channel is healthy again (R363). -/
def Chip.rebuildEnd (c : Chip) (ch : Nat) : Chip :=
  let c := c.record 0x0B ([ch, 0, 0, 0, 0, 0, 0, 0] ++ beBytes 16 (c.chan ch).serial)
  let c := ((c.wr (F.fcStatus_state (ch / 2) (ch % 2)) 2).wr F.mossStatus_rebuilding 0).modMoss fun m => { m with rebuild := none }
  c.refreshProgress.raiseRgn (ch / 2) 7 [ch]

/-- A module on a down channel is admitted and rebuilt (R362, R363): `fresh` clears what the module held. -/
def Chip.admitModule (c : Chip) (ch : Nat) (fresh : Bool) : Chip :=
  let c := c.modChan ch fun k => if fresh then { k with anchor := some true, remap := [], erases := [], retired := [], progFailed := [], lichen := [] } else k
  let c := if fresh then c.modMoss fun m => { m with flash := m.flash.filter fun e => !(e.1 / 2 ^ 33 == ch) } else c
  let c := ((c.wr (F.fcStatus_state (ch / 2) (ch % 2)) 4).wr (F.fcCfg_down (ch / 2) (ch % 2)) 0).wr F.mossStatus_down (maskSet (c.rd F.mossStatus_down) ch false)
  let c := c.refreshDown.closeBroken
  let total := ((c.rebuildSets ch).map fun s => (c.setSt s).row).sum
  let c := (c.wr F.mossStatus_rebuilding 1).modMoss fun m => { m with rebuild := some (ch, 0, 0, total) }
  (if c.poolWrites then c.record 0x0B ([ch, 2, 0, 0, 0, 0, 0, 0] ++ beBytes 16 (c.chan ch).serial) else c).refreshProgress

/-- A module arrives on a down channel with its targets' parameter pages: the one that left is admitted at once, any other waits for FLASH_ADMIT (R330,
R362). While its region or die is out, nothing arrives on a channel (R22, R23). -/
def execModuleArrival (ch serial : Nat) (anchor : Option Bool) (found : List (Nat × TargetParams)) (s : State) : Host.Outcome State Fault Refusal :=
  let c := s.chip
  s.nextChip (
    if (c.rd F.mossStatus_down).testBit ch && !c.channelOut ch then
      let c := c.modChan ch fun k => { k with serial := serial, anchor := anchor, present := true }
      let c := (c.modChan ch fun k => { k with targets := [] }).wr (F.fcStatus_targets (ch / 2) (ch % 2)) 0
      let c := found.foldl (fun c e => c.discoverTarget ch e.1 e.2) c
      if anchor = some true ∧ serial = (c.chan ch).lastSerial then (c.admitModule ch false).settle
      else (c.wr (F.fcStatus_state (ch / 2) (ch % 2)) 5).raiseRgn (ch / 2) 3 ([ch] ++ beBytes 16 serial)
    else c)

/-- The next row to be rebuilt: of the sets in rising order, the written rows in rising order, counted from the start (R363). -/
def nextRow (rows : List (Nat × Nat)) : Nat → Option (Nat × Nat)
  | n => match rows with
    | [] => none
    | (s, k) :: t => if n < k then some (s, n) else nextRow t (n - k)

def execRebuildRow (s : State) : Host.Outcome State Fault Refusal :=
  if s.chip.flashIdle then .next s else
  let c := s.chip
  match c.moss.rebuild with
  | none => .next s
  | some (ch, at_, done, total) =>
    if c.rdb F.mossStatus_offline then .next s
    else
      match nextRow ((c.rebuildSets ch).map fun k => (k, (c.setSt k).row)) at_ with
      | none => s.nextChip ((c.rebuildEnd ch).settle)
      | some (k, row) =>
        let c := match c.rebuildRec ch k row with
          | some p => c.programPage k row ch p
          | none => c
        let c := c.modMoss fun m => { m with rebuild := some (ch, at_ + 1, done + 1, total) }
        let last := (nextRow ((c.rebuildSets ch).map fun k => (k, (c.setSt k).row)) (at_ + 1)).elim true fun n => n.1 != k
        let c := if last then c.record 0x0C ([3, 0, 0, 0] ++ beBytes 4 ch ++ beBytes 8 (at_ + 1) ++ beBytes 8 total) else c
        let c := if (nextRow ((c.rebuildSets ch).map fun k => (k, (c.setSt k).row)) (at_ + 1)).isNone then c.rebuildEnd ch else c
        s.nextChip (c.refreshProgress.settle)

/-! ### Mount, power loss (R343, R346, R353, R364) -/

/-- A namespace change whose record did not become durable is undone: its record tells which way (R337, R346). -/
def undoNs (t : Tab NsRec) (r : JRec) : Tab NsRec :=
  tabSet t (r.payload.headD 0) { active := r.payload.getD 1 0 == 0, size := beNat ((r.payload.drop 8).take 8), creator := 0 }

/-- What a power loss or cold reset leaves of the pool: writes that were not durable never happened, records not durable are gone, the
catalogue is that of its last durable record (R339, R346, R353, R599). -/
def Chip.cutPool (c : Chip) : Chip :=
  let undo := (c.moss.writes.filter fun w => !(c.rowSafe w.set w.row && c.recDurable w.rec_)).reverse
  let map := undo.foldl (fun m w => tabSet m (mapKey w.space w.granule) w.old) c.moss.map
  let keep := c.moss.recs.takeWhile fun r => c.recDurable r.lsn
  let ns := ((c.moss.recs.drop keep.length ++ c.moss.buf).filter fun r => r.type == 0x0D).foldr (fun r t => undoNs t r)
    (c.moss.ns.map fun (e : Nat × NsRec) => (e.1, { e.2 with creator := 0 }))
  let cat := match (c.catSnaps.filter fun s => c.recDurable s.1).getLast? with | some s => s.2 | none => c.cat
  let last := (keep.getLast?.map (·.lsn)).getD (if c.moss.recs = [] ∧ c.moss.buf = [] then c.moss.lsn else c.moss.replay)
  let cat : CatSt := { cat with kept := [], restores := [], plans := [], loads := [], held := [] }
  let c := { c with cat := cat, catSnaps := [] }
  c.modMoss fun m => { m with
    map := map, writes := [], buf := [], recs := keep, ns := ns
    lsn := last, cache := [], gc := false, openSet := []
    op := m.op.map fun (o : Bool × Nat × Nat) => (o.1, o.2.1 / 256 * 256, o.2.2)
    discards := m.discards.map fun d => { d with cmd := none }
    chans := m.chans.map fun (e : Nat × ChanSt) => (e.1, { e.2 with
      lichen := e.2.lichen.map fun (l : Nat × LichenBlock) => (l.1, { l.2 with held := [], due := false }) }) }

/-- The rows of a set up to its last safe one (R344, R364). -/
def Chip.safeRows (c : Chip) (s : Nat) : Nat := ((List.range (c.setSt s).row).takeWhile (c.rowSafe s)).length

/-- The saved copy as the lichen blocks hold it: of the pages of the highest copy number, each die's entries in the order of their seq (R544). -/
def Chip.readCopy (c : Chip) : LichenSt :=
  let ps := c.lichenPages
  let top := (ps.map (·.copy)).foldl max 0
  let mine := ps.filter fun p => p.copy == top
  let entries (e : Nat) : List (Nat × LichenEntry) :=
    (((mine.filter fun p => p.die == e).flatMap (·.entries)).mergeSort fun x y => decide (x.seq ≤ y.seq)).map fun x => (e, x)
  { c.lichen with found := top, savedCopy := top, saved := entries 0 ++ entries 1, savedFrom := mine.head?.map (·.writer) }

/-- The saved copy that a mount finds is shown; one written by another package gives its hop delay to a package of the same address (R47, R544,
R546). The power-failure entry of the copy carries the address and the delay (R533). -/
def Chip.findCopy (c : Chip) : Chip :=
  let c := { c with lichen := c.readCopy }
  match c.lichen.savedFrom with
  | none => c
  | some w =>
    let n (e : Nat) : Nat := (c.lichen.saved.filter fun x => x.1 == e).length
    let c := (((c.wr F.lichenCtrl_saved 1).wr F.lichenSaved_copy c.lichen.savedCopy).wrSat F.lichenSaved_n0 (n 0)).wrSat F.lichenSaved_n1 (n 1)
    let c := c.raisePkg 39 (beBytes 8 c.lichen.savedCopy)
    match (c.lichen.saved.filter fun x => x.2.code == 0x0400).getLast? with
    | some x =>
      if w ≠ c.idDigest ∧ c.rdb F.chain_addr_valid ∧ beNat (x.2.data.take 2) = c.sysAddr then
        { c.wr F.chain_hop_delay (beNat ((x.2.data.drop 2).take 2)) with chain := { c.chain with hasHop := true } }
      else c
    | none => c

/-- The anchors of some module present carry the pool's identifier. -/
def Chip.anchored (c : Chip) : Bool := c.moss.chans.any fun (e : Nat × ChanSt) => e.2.present && e.2.anchor == some true

/-- Mount: the anchors, the journal, open sets closed at their last safe row, pending sets left to their erase, operations resumed; a pool
whose key root does not match stays unmounted (R364, R477). Channels of the pool whose module is gone are down (R359). A saved copy of the lichen
record is found (R544). -/
def Chip.mount (c : Chip) (keyMatches : Bool) : Chip :=
  let c := { c with power := { c.power with mountTried := true } }
  if c.rdb F.mossStatus_mounted || !c.power.discovered || !keyMatches || c.rdb F.trust_disposed || !c.anchored || decide (2 ≤ popCount 8 (c.rd F.mossStatus_down)) then c
  else
    let c := (c.moss.sets.filter fun e => e.2.phase == 1).foldl (fun c e => c.closeAt e.1 (c.safeRows e.1)) c
    let c := c.modMoss fun m => { m with openSet := [], ckptAt := c.now }
    let c := (c.wr F.mossStatus_mounted 1).refreshDown
    let gone := (List.range 8).filter fun ch => (c.chan ch).reserve != [] && !(c.chan ch).present
    let c := gone.foldl (fun c ch => c.channelDown ch 0) c
    let c := (c.wrb F.mossStatus_sdiscard (c.moss.discards != [])).findCopy.renewLichen
    (c.refreshFree.refreshGc).refreshProgress

def execPoolMount (keyMatches : Bool) (s : State) : Host.Outcome State Fault Refusal :=
  s.nextChip ((s.chip.mount keyMatches).settle)

/-! ### Discard (R365 to R367) -/

/-- The SET_CLOSE ranges of a set meet those of a discard, or it is mixed (R366). -/
def Chip.setMeets (c : Chip) (s : Nat) (d : SecureDiscard) : Bool :=
  let r := c.setSt s
  r.mixed || r.ranges.any fun a => d.ranges.any fun b => a.1 == b.1 && decide (a.2.1 < b.2.1 + b.2.2) && decide (b.2.1 < a.2.1 + a.2.2)

/-- A secure discard begins: open sets are closed, granules that hold other blocks as well are written again without those of the object
(`kept`), the rest of the ranges is unmapped so that relocation moves only granules outside them, and the closed sets that met the ranges are to be
erased (R366). -/
def Chip.beginDiscard (c : Chip) (d : SecureDiscard) (kept : List (Nat × List Nat)) : Chip :=
  let open_ := (c.moss.sets.filter fun e => e.2.phase == 1).map (·.1)
  let c := open_.foldl Chip.closeSet c
  let sets := ((c.moss.sets.filter fun e => e.2.phase == 2 || e.2.phase == 3).map (·.1)).filter fun s => c.setMeets s d
  let c := kept.foldl (fun c g => (c.writeGranules 0 0 g.1 [g.2]).2) c
  let d := { d with
    sets := sets, total := sets.length, ranges := d.ranges.filter fun r => !(r.1 == 0 && kept.any fun g => g.1 == r.2.1) }
  let c := d.ranges.foldl (fun c r => c.trimGranules r.1 r.2.1 r.2.2) c
  let c := c.record 0x0C ([2, 0, 0, 0] ++ beBytes 4 d.opId ++ beBytes 8 0 ++ beBytes 8 d.total)
  ((c.modMoss fun m => { m with discards := m.discards ++ [d], opNext := m.opNext + 1 }).wr F.mossStatus_sdiscard 1).refreshProgress

/-- The first secure discard is complete once every such set is erased: its event, and its command (R366). -/
def Chip.discardDone (c : Chip) : Chip :=
  match c.moss.discards with
  | [] => c
  | d :: rest =>
    if d.sets ≠ [] then c
    else
      let c := c.record 0x0C ([2, 0, 0, 0] ++ beBytes 4 d.opId ++ beBytes 8 d.total ++ beBytes 8 d.total)
      let c := (c.modMoss fun m => { m with discards := rest }).wrb F.mossStatus_sdiscard (rest != [])
      let c := c.refreshProgress.raisePkg 25 (beBytes 8 d.object)
      match d.cmd with
      | some k => c.ok k.1 k.2
      | none => c

def execSecureDiscardDone (s : State) : Host.Outcome State Fault Refusal :=
  s.nextChip (if s.chip.poolWrites then s.chip.discardDone.settle else s.chip)

/-! ### Catalogue changes kept (R599) -/

def execCatalogueFlush (s : State) : Host.Outcome State Fault Refusal :=
  let c := s.chip
  s.nextChip (
    if c.poolWrites then
      let ks := c.cat.kept
      let c := c.modCat fun k => { k with kept := [] }
      (ks.foldl (fun c k => c.catRecord (k.headD 0) (k.drop 2) (k.getD 1 0 == 1)) c).settle
    else c)

end Sys2Proof.Machine
end

