-- ==== Sys2Proof/Machine/Link.lean ====
section
/-! DEFINITION. The head link (03_head_link.md): superframes, commands and retry, bring-up, lanes. -/
namespace Sys2Proof.Machine

/-! ### Scrambler (R86) -/

/-- The scrambler x^58 + x^39 + 1 on one payload bit: the line bit is the payload bit plus the line bits 39 and 58 places before it. `s` holds
the last 58 line bits, the newest in bit 0. -/
def scrTap (s : Nat) (b : Bool) : Bool := (b != s.testBit 38) != s.testBit 57

/-- The line bits after one more. -/
def scrPush (s : Nat) (b : Bool) : Nat := (2 * s + b.toNat) % 2 ^ 58

/-- Scrambles bits `i` on of a payload, bit 0 first (R91): the line bits as a number, and the scrambler after them. -/
def scrambleBits (v : Nat) : Nat → Nat → Nat × Nat → Nat × Nat
  | 0, _, a => a
  | n + 1, i, (out, s) =>
    let b := scrTap s (v.testBit i)
    scrambleBits v n (i + 1) (out + (if b then 2 ^ i else 0), scrPush s b)

/-- Descrambles bits `i` on of a line payload: each line bit plus the line bits 39 and 58 places before it. -/
def descrambleBits (v : Nat) : Nat → Nat → Nat × Nat → Nat × Nat
  | 0, _, a => a
  | n + 1, i, (out, s) =>
    let b := scrTap s (v.testBit i)
    descrambleBits v n (i + 1) (out + (if b then 2 ^ i else 0), scrPush s (v.testBit i))

/-- The payloads of blocks scrambled in order; sync headers are not scrambled. The scrambler runs on from block to block. -/
def scrambleBlocks : Nat → List (Nat × Nat) → List (Nat × Nat) × Nat
  | s, [] => ([], s)
  | s, b :: bs =>
    let r := scrambleBits b.2 64 0 (0, s)
    let t := scrambleBlocks r.2 bs
    ((b.1, r.1) :: t.1, t.2)

/-- The payloads of blocks on the line descrambled in order. -/
def descrambleBlocks : Nat → List (Nat × Nat) → List (Nat × Nat) × Nat
  | s, [] => ([], s)
  | s, b :: bs =>
    let r := descrambleBits b.2 64 0 (0, s)
    let t := descrambleBlocks r.2 bs
    ((b.1, r.1) :: t.1, t.2)

/-! ### Blocks (R91 to R93) -/

/-- A block is its sync header (1 data, 2 control) and its 64-bit payload. -/
abbrev Block := Nat × Nat

def blockType (b : Block) : Nat := b.2 % 256

def isControl (b : Block) (t : Nat) : Bool := b.1 == 2 && blockType b == t

def isData (b : Block) : Bool := b.1 == 1

/-- The nine bytes that a block contributes to the check (R93). -/
def blockBytes (b : Block) : List Nat := b.1 :: leBytes 8 b.2

/-- The superframe check over blocks 0 to 62 (R93). -/
def superframeCheck (bs : List Block) : Nat := crc32c ((bs.take 63).flatMap blockBytes)

/-- The check block (R92). -/
def checkBlock (bs : List Block) : Block := (2, 0xE1 + superframeCheck bs * 256)

def idleBlock : Block := (2, 0)

/-- Data blocks from bytes, eight a block, byte 0 in bits 7:0 (R91). -/
def byteBlocks : Nat → List Nat → List Block
  | 0, _ => []
  | n + 1, bs => (1, leNat (padTo 8 bs)) :: byteBlocks n (bs.drop 8)

/-- The bytes of data blocks (R91). -/
def blocksBytes (bs : List Block) : List Nat := bs.flatMap fun b => leBytes 8 b.2

/-- The sample area holds full blocks, then at most one partial block, then idle blocks (R95). -/
def sampleAreaOk : List Block → Bool
  | [] => true
  | b :: bs =>
    if isData b then sampleAreaOk bs
    else if b.1 == 2 && decide (0x10 ≤ blockType b) && decide (blockType b ≤ 0x17) then bs.all (isControl · 0)
    else (b :: bs).all (isControl · 0)

/-- The samples of a sample area (R92, R95). -/
def areaSamples (bs : List Block) : List Nat :=
  bs.flatMap fun b =>
    if isData b then leBytes 8 b.2
    else if 0x10 ≤ blockType b ∧ blockType b ≤ 0x17 then leBytes (blockType b - 0x10) (b.2 / 256) else []

/-- The format of a receive superframe: every block has a type listed for its position (R91, R92). -/
def receiveFormatOk (bs : List Block) : Bool :=
  let at_ (i : Nat) : Block := bs.getD i (0, 0)
  let sf := (at_ 0).2 / 256 % 65536
  bs.length == 64 && isControl (at_ 0) 0x78 && sampleAreaOk ((bs.drop 1).take 52)
    && ((bs.drop 53).take 3).all isData
    && (if sf % 6 == 0 then ((bs.drop 56).take 6).all isData
        else ((bs.drop 56).take 6).all fun b => isControl b 0x48 || isControl b 0)
    && (isControl (at_ 62) 0x38 || isControl (at_ 62) 0x48 || isControl (at_ 62) 0)
    && isControl (at_ 63) 0xE1 && decide ((at_ 63).2 < 2 ^ 40)

/-- A receive superframe is accepted: its format is right and its check holds (R93). -/
def superframeOk (bs : List Block) : Bool :=
  receiveFormatOk bs && (bs.getD 63 (0, 0)).2 / 256 == superframeCheck bs

/-- The servo subframe from its 48 bytes (R98). -/
def parseSubframe (b : List Nat) : Subframe :=
  let w (i : Nat) : Nat := leNat ((b.drop i).take 2)
  { seq := w 0, flags := b.getD 2 0, quad := [w 4, w 6, w 8, w 10], sums := [w 12, w 14, w 16, w 18], ldMon := w 20,
    iFocus := w 22, iTrack := w 24, iTilt := w 26, iPhase := [w 28, w 30, w 32], vBus := w 34,
    uPhase := [w 36, w 38, w 40], iStep := (b.drop 42).take 4, tilt := w 46 }

/-- The 48 bytes of a set-point area (R104). -/
def pointBytes (p : SetPoint) : List Nat :=
  let two (l : List Nat) (n : Nat) : List Nat := (List.range n).flatMap fun i => leBytes 2 (l.getD i 0)
  leBytes 2 p.seq ++ [p.flags, 0] ++ leBytes 2 p.dFocus ++ leBytes 2 p.dTrack ++ leBytes 2 p.dTilt ++ leBytes 2 p.pServo
    ++ two p.pBeam 4 ++ two p.duty 3 ++ two p.cStep 4 ++ [min p.sledAt 245, min p.trayAt 245] ++ List.replicate 12 0

/-! ### Transmit -/

/-- Write blocks from symbols: sixteen a full block, then one partial block of up to fourteen, then idle (R102). -/
def writeBlocks : Nat → List Nat → List Block
  | 0, _ => []
  | n + 1, sy =>
    let pack (l : List Nat) : Nat := l.foldr (fun s a => s % 16 + 16 * a) 0
    if 16 ≤ sy.length then (1, pack (sy.take 16)) :: writeBlocks n (sy.drop 16)
    else if sy = [] then idleBlock :: writeBlocks n []
    else (2, 0x20 + min sy.length 14 + 256 * pack (sy.take 14)) :: writeBlocks n []

/-- A command block (R107). -/
def commandBlock (h : HeadCmd) : Block :=
  (2, 0x30 + h.seq * 2 ^ 8 + h.op * 2 ^ 14 + h.addr * 2 ^ 16 + h.data * 2 ^ 32)

/-- The write symbols that go with the next superframe out of those that wait: the channel bits whose leading edges fall in its interval, and the phase
of the first one of the interval after (R101). A rest of fifteen has no block type (R92): its last symbol goes with the superframe after. DESIGN CHOICE,
notes/assumptions/7.md. -/
def frameSymbols (rate phase : Int) (waiting : Nat) : Nat × Int :=
  let n := ((rate - phase + (2 ^ 32 - 1)) / 2 ^ 32).toNat
  let k := min n waiting
  if k % 16 = 15 then (k - 1, phase + (k - 1 : Nat) * 2 ^ 32 - rate) else (k, phase + n * 2 ^ 32 - rate)

/-- What a port's write symbols come to in the next superframe: none before the delay of R214 has gone by. -/
def Chip.symbolsNow (c : Chip) (d : Nat) : Nat × Int :=
  let b := c.burnSt d
  if b.delay = 0 then frameSymbols (c.btlSt d).rate b.bitPhase ((b.lines.map (·.length)).foldl max 0) else (0, b.bitPhase)

/-- The command blocks that a lane's next superframe carries: at most three (R91, R107). -/
def LinkSt.carried (l : LinkSt) (n : Nat) : List HeadCmd := (l.cmds.filter fun h => h.due && h.lane == n).take 3

/-- The blocks 0 to 63 of a transmit superframe on a lane (R90, R91, R101 to R105). -/
def Chip.transmitBlocks (c : Chip) (d n : Nat) : List Block :=
  let l := c.linkSt d
  let b := c.burnSt d
  let rate := (c.btlSt d).rate
  let writing := l.mode = 2
  let head : Block := (2, 0x78 + l.txSf * 2 ^ 8 + n * 2 ^ 24 + l.mode * 2 ^ 26)
  let timing : Block :=
    if writing then (2, 0x2F + b.bitIndex % 65536 * 2 ^ 8 + (roundDiv rate (2 ^ 18)).toNat % 2 ^ 24 * 2 ^ 24
      + (b.bitPhase / 2 ^ 26).toNat % 2 ^ 16 * 2 ^ 48) else idleBlock
  let area := if writing then writeBlocks 51 ((b.lines.getD n []).take (c.symbolsNow d).1) else List.replicate 51 idleBlock
  let cmds := (l.carried n).map commandBlock
  let point :=
    if l.txSf % 6 = 2 ∧ c.portUp d then
      byteBlocks 6 (pointBytes { l.point with flags := maskSet l.point.flags 0 (l.txSf % 60 == 2) })
    else List.replicate 6 idleBlock
  let bs := [head, timing] ++ area ++ cmds ++ List.replicate (3 - cmds.length) idleBlock ++ point ++ [idleBlock]
  bs ++ [checkBlock bs]

/-- A lane sends its superframe, scrambled (R86, R89). -/
def Chip.sendLane (c : Chip) (d n : Nat) (bs : List Block) : Chip :=
  let r := scrambleBlocks (c.laneScr (laneNo d n)).tx bs
  (c.emit (.superframe d n r.1)).modScr (laneNo d n) fun s => { s with tx := r.2 }

/-- The four lanes of a port start a transmit superframe; the number advances, write symbols and commands that it carries are taken from their
queues, telemetry grows older by one superframe (R89, R90, R101, R107). In OFF, SEEK and TRAIN no superframe is sent (R118). -/
def Chip.transmit (c : Chip) (d : Nat) : Chip :=
  if c.rd (F.hlinkStatus_state d) < 3 then c
  else
    let f := c.symbolsNow d
    let l := c.linkSt d
    let c := (List.range 4).foldl (fun k n => k.sendLane d n (c.transmitBlocks d n)) c
    let c := if l.mode = 2 then
        (c.modBurn d fun b => { b with
          delay := b.delay - 1
          lines := b.lines.map (·.drop f.1)
          bitIndex := b.bitIndex + f.1
          bitPhase := f.2
          lastBits := f.1
          quiet := if f.1 = 0 then b.quiet + 1 else 0 }).burnDrained d
      else c
    let sent (h : HeadCmd) : HeadCmd := if (l.carried h.lane).any fun k => k.seq == h.seq then { h with due := false } else h
    let c := c.modLink d fun l => { l with txSf := (l.txSf + 1) % 61440, cmds := l.cmds.map sent }
    (List.range 4).foldl (fun c i => c.bump (F.hlinkTelem_age d i)) c

/-! ### Receive -/

/-- Extends a 16-bit sample counter to the count nearest above one already held (R130). -/
def extendCount (last cnt : Nat) : Nat := last + (cnt + 65536 - last % 65536) % 65536

/-- Takes the samples of an accepted superframe into the lane's unit: gap accounting (R96, R132), anchor (R130), rate estimate
(R131), samples held. A unit without an anchor goes on at the loop's phase. -/
def Chip.takeSamples (c : Chip) (u sf cnt phase : Nat) (samples : List Nat) (verify : Bool) : Chip :=
  let st := c.unitSt u
  let j := if st.anchors = [] then cnt else extendCount st.sampEnd cnt
  let lost := if st.anchors = [] then 0 else j - st.sampEnd
  let c := if lost = 0 then c else (c.bump (F.rsGaps_gaps u)).bump (F.rsGaps_lost u) lost
  let rh : Int := c.rd (F.rsRatio_r_hat u)
  let c := match st.anchors with
    | (_, j0, p0) :: _ =>
      let r : Int := ((j : Int) - j0) * 2 ^ 20 + ((p0 : Int) - phase) * 2 ^ 14
      if lost = 0 then c.wr (F.rsRatio_r_hat u) (rh + (r - rh) / 64).toNat else c
    | [] => c
  let th := (c.btlSt (u / 4)).theta
  c.modUnit u fun s =>
    let all := s.samples ++ List.replicate lost 128 ++ samples
    { s with
      samples := all.drop (all.length - 1280)
      sampEnd := j + samples.length
      gaps := (if lost = 0 then s.gaps else (st.sampEnd, j) :: s.gaps).take 8
      nextIdx := if s.anchors = [] then -(-th / 2 ^ 32) else s.nextIdx
      anchors := ((sf, j, phase) :: s.anchors).take 4
      verifying := verify }

/-- A subframe copy of a lane: kept for the release of its period, or counted late (R100, R112, R120). -/
def Chip.takeCopy (c : Chip) (d n : Nat) (f : Subframe) : Chip :=
  match (c.linkSt d).expSeq with
  | none => (c.modLink d fun l => { l with expSeq := some f.seq }).modLane (laneNo d n) fun s => { s with copy := some f, lateRun := 0 }
  | some e =>
    if (e + 65536 - f.seq) % 65536 ≠ 0 ∧ (e + 65536 - f.seq) % 65536 < 32768 then
      c.modLane (laneNo d n) fun s => { s with lateRun := s.lateRun + 1 }
    else c.modLane (laneNo d n) fun s => { s with copy := some f, lateRun := 0 }

/-- Keeps a telemetry item (03_head_link.md, telemetry). -/
def Chip.takeTelemetry (c : Chip) (d : Nat) (b : Block) : Chip :=
  let i := b.2 / 256 % 256
  if isControl b 0x48 && decide (i < 4) then (c.wr (F.hlinkTelem_value d i) (b.2 / 2 ^ 16)).wr (F.hlinkTelem_age d i) 0 else c

/-! ### Command blocks (R107 to R110) -/

/-- The lowest-numbered lane of a port that is up. -/
def Chip.lowestLane (c : Chip) (d : Nat) : Option Nat := (maskList 4 (c.rd (F.hlinkStatus_lane_up d))).head?

/-- Moves waiting commands out while fewer than four are outstanding (R108). -/
def Chip.pumpCommands (c : Chip) (d : Nat) : Chip :=
  let l := c.linkSt d
  match c.lowestLane d with
  | none => c
  | some n =>
    let go := l.waiting.take (4 - l.cmds.length)
    let numbered := go.zipIdx.map fun e => { e.1 with seq := (l.nextSeq + e.2) % 64, lane := n, sends := 1, due := true }
    c.modLink d fun l => { l with
      cmds := l.cmds ++ numbered, waiting := l.waiting.drop go.length, nextSeq := (l.nextSeq + go.length) % 64 }

/-- Hands a command to the port: it is sent as soon as fewer than four are outstanding (R107, R108). -/
def Chip.headSend (c : Chip) (d op addr data : Nat) : Chip :=
  (c.modLink d fun l => { l with waiting := l.waiting ++ [⟨0, op % 4, addr % 65536, data % 2 ^ 32, 0, 0, false⟩] }).pumpCommands d

/-- A command ends with a result for its requester; a write of the strategy table that is done is noted (R109, R203). -/
def Chip.headEnd (c : Chip) (d : Nat) (h : HeadCmd) (e : HeadEnd) (addr data : Nat) : Chip :=
  let c := c.modLink d fun l => { l with cmds := l.cmds.filter fun k => k.seq != h.seq, ended := (l.ended ++ [(h.seq, e, addr, data)]).drop ((l.ended.length + 1) - 32) }
  let c := if h.op = 0 ∧ 0x200 ≤ h.addr ∧ h.addr ≤ 0x207 ∧ e = .done then
      c.modBurn d fun b => { b with strategy := (List.range 8).map fun i => if i = h.addr - 0x200 then h.data + 1 else b.strategy.getD i 0 }
    else c
  c.pumpCommands d

/-- A response completes its command; busy leaves it to be sent again; a response to no outstanding seq is discarded (R107, R109, R110). Status 3, which
R107 does not define, is taken as busy. DESIGN CHOICE, notes/assumptions/80.md. -/
def Chip.headResponse (c : Chip) (d seq status addr data : Nat) : Chip :=
  match (c.linkSt d).cmds.find? fun h => h.seq == seq with
  | none => c
  | some h =>
    if status = 0 then c.headEnd d h .done addr data
    else if status = 1 then c.headEnd d h .unknownAddress addr data
    else c

/-- The response block of a superframe (R107). -/
def Chip.responseBlock (c : Chip) (d : Nat) (b : Block) : Chip :=
  c.headResponse d (b.2 / 2 ^ 8 % 64) (b.2 / 2 ^ 14 % 4) (b.2 / 2 ^ 16 % 2 ^ 16) (b.2 / 2 ^ 32 % 2 ^ 32)

/-- A command without an answer is sent again with the same seq, on its lane if that is up and otherwise on the lowest one; after
16 sends it fails with a link error (R109). -/
def Chip.headRetry (c : Chip) (d seq : Nat) : Chip :=
  match (c.linkSt d).cmds.find? fun h => h.seq == seq with
  | none => c
  | some h =>
    if 16 ≤ h.sends then c.headEnd d h .linkError h.addr 0
    else
      let up := c.rd (F.hlinkStatus_lane_up d)
      let n := if up.testBit h.lane then h.lane else (c.lowestLane d).getD h.lane
      (c.bump (F.hlinkLane_cmd_resends d n)).modLink d fun l => { l with cmds := l.cmds.map fun k =>
        if k.seq = seq then { k with lane := n, sends := k.sends + 1, due := true } else k }

/-- A receive superframe of a lane ends: discarded whole on a queue fault, a failed check or a format error; otherwise its samples,
wobble samples, servo subframe, telemetry or response are taken (R86, R88, R93 to R100, R107, R130, R131). `line` are the blocks on the line, `faults` the
overflows and underflows of the lane's queue within the superframe. The descrambler runs on a lane that is not up too. -/
def Chip.receive (c : Chip) (d n : Nat) (line : List Block) (faults : Nat) : Chip :=
  let r := descrambleBlocks (c.laneScr (laneNo d n)).rx line
  let bs := r.1
  let c := c.modScr (laneNo d n) fun s => { s with rx := r.2 }
  if !(c.rd (F.hlinkStatus_lane_up d)).testBit n then c
  else
    let c := c.modLane (laneNo d n) fun s => { s with queueFaults := faults }
    if faults ≠ 0 || !superframeOk bs then
      (c.bump (F.hlinkLane_discards d n)).modLane (laneNo d n) fun s => { s with discRun := s.discRun + 1, okRun := 0 }
    else
      let h := (bs.getD 0 (0, 0)).2
      let sf := h / 2 ^ 8 % 2 ^ 16
      let c := c.modLane (laneNo d n) fun s => { s with discRun := 0, okRun := s.okRun + 1, lastSf := some sf }
      let c := if h / 2 ^ 26 % 8 = n then
          c.takeSamples (laneNo d n) sf (h / 2 ^ 32 % 2 ^ 16) (h / 2 ^ 48 % 64) (areaSamples ((bs.drop 1).take 52)) (h / 2 ^ 29 % 4 == 2)
        else c
      let c := c.modBtl d fun b => { b with wobbles := (blocksBytes ((bs.drop 53).take 3)).map (signed 8), interval := sf }
      let c := if sf % 6 = 0 then c.takeCopy d n (parseSubframe (blocksBytes ((bs.drop 56).take 6)))
        else ((bs.drop 56).take 6).foldl (fun c b => c.takeTelemetry d b) c
      let last := bs.getD 62 (0, 0)
      if isControl last 0x38 then c.responseBlock d last else c.takeTelemetry d last

/-- The strategy words `rcom.ws[0]` to `[7]` that the NH-5's table takes (R203). -/
def Chip.strategyWord (c : Chip) (r i : Nat) : Nat :=
  if i = 0 then c.rd (F.ws0_bias r) + c.rd (F.ws0_cool r) * 2 ^ 8
  else c.rd (F.ws_t_top r i) + c.rd (F.ws_d_top r i) * 2 ^ 6 + c.rd (F.ws_t_mp r i) * 2 ^ 12 + c.rd (F.ws_t_lp r i) * 2 ^ 18
    + c.rd (F.ws_t_cl r i) * 2 ^ 24

/-- Writes the strategy entries that the NH-5 does not hold yet and that no command on its way writes (R203). -/
def Chip.sendStrategy (c : Chip) (d : Nat) : Chip :=
  (List.range 8).foldl (fun c i =>
    let w := c.strategyWord (portRegion d) i
    let under := ((c.linkSt d).cmds ++ (c.linkSt d).waiting).any fun h => h.op == 0 && h.addr == 0x200 + i && h.data == w
    if (c.burnSt d).strategy.getD i 0 = w + 1 || under then c else c.headSend d 0 (0x200 + i) w) c

/-- The NH-5 holds every strategy entry as the registers have it (R203). -/
def Chip.strategyDone (c : Chip) (d : Nat) : Bool :=
  (List.range 8).all fun i => (c.burnSt d).strategy.getD i 0 == c.strategyWord (portRegion d) i + 1

/-- The head trims, the offsets and the strategy writes of this UP are complete (R530). -/
def Chip.headReady (c : Chip) (d : Nat) : Bool :=
  (c.servoSt d).trimDone && (c.servoSt d).offDone && (List.range 8).all fun i => (c.burnSt d).strategy.getD i 0 != 0

/-! ### Bring-up (R118) -/

/-- A training failure is counted, its event raised, and the port returns to SEEK (R118). -/
def Chip.trainFail (c : Chip) (d : Nat) : Chip :=
  let c := (List.range 4).foldl (fun c n => c.modLane (laneNo d n) fun _ => default) c
  (((c.bump (F.hlinkSrv_train_fail d)).toSeek d).modLink d fun l => { l with failed := true }).raiseClu d 0 7 (2 :: beBytes 8 (c.linkSt d).identity)

/-- A write of the port's enable field; a port stays in OFF until step 7 of power-up (R118, R531). -/
def Chip.portEnable (c : Chip) (d : Nat) (en : Bool) : Chip :=
  let c := c.wrb (F.hlinkCtrl_enable d) en
  if en then if c.rd (F.hlinkStatus_state d) = 0 ∧ 7 ≤ c.rd F.bootProgress_step then c.toSeek d else c
  else c.portLost d 0

/-- A write of 1 to retrain returns a port that is not OFF to SEEK (R118). -/
def Chip.portRetrain (c : Chip) (d : Nat) : Chip :=
  if c.rd (F.hlinkStatus_state d) = 0 then c else c.portLost d 1

/-- Signal on some lanes for 1 ms starts their training (R118). -/
def Chip.signalDetect (c : Chip) (d lanes : Nat) : Chip :=
  if c.rd (F.hlinkStatus_state d) = 1 ∧ lanes % 16 ≠ 0 then
    (c.wr (F.hlinkStatus_state d) 2).modLink d fun l => { l with detect := lanes % 16 }
  else c

/-- Training ends on some lanes: the port goes to LOCK with them, or with none counts a failure (R118). -/
def Chip.trainEnd (c : Chip) (d ready : Nat) : Chip :=
  if c.rd (F.hlinkStatus_state d) = 2 then
    let ok := (c.linkSt d).detect &&& ready
    if ok = 0 then c.trainFail d else (c.wr (F.hlinkStatus_state d) 3).modLink d fun l => { l with detect := ok }
  else c

/-- A lane passes ALIGN: the lane and beam fields match and the round trip is within rt_max (R90, R93, R118). -/
def Chip.laneAligns (c : Chip) (d n laneF beamF rt : Nat) : Bool :=
  laneF == n && (beamF == n || beamF == 7) && decide (rt ≤ c.rd (F.hlinkCtrl_rt_max d)) && !(c.rd (F.hlinkCtrl_lane_disable d)).testBit n

/-- Lanes achieve block lock and consecutive sf_num: the port moves to ALIGN, lanes failing the checks are marked down, with none
left a failure is counted; a lane that training marked down is not among them (R113, R118). Each lane found is given by its number, its fields and its
round trip. -/
def Chip.blockLock (c : Chip) (d : Nat) (found : List (Nat × Nat × Nat × Nat)) : Chip :=
  if c.rd (F.hlinkStatus_state d) = 3 ∧ found ≠ [] then
    let pass := found.filter fun f => decide (f.1 < 4) && (c.linkSt d).detect.testBit f.1 && c.laneAligns d f.1 f.2.1 f.2.2.1 f.2.2.2
    if pass = [] then c.trainFail d
    else
      let c := pass.foldl (fun c f => c.modLane (laneNo d f.1) fun s => { s with phase := 4, rt := f.2.2.2, servoUse := true }) c
      let mask := ((List.range 4).filter fun n => pass.any fun f => f.1 == n).foldl (fun m n => m + 2 ^ n) 0
      (c.wr (F.hlinkStatus_state d) 4).wr (F.hlinkStatus_lane_up d) mask
  else c

/-- A port comes UP with an identity: other than the last one, it resets the phase offsets; servo traffic and the head trims begin (R118, R134,
R254, R530). -/
def Chip.portComesUp (c : Chip) (d identity : Nat) : Chip :=
  let new := (c.linkSt d).identity != identity
  let c := if !new then c
    else (portUnits d).foldl (fun c u =>
      (((c.wr (F.tim_offset u) 0).wr (F.tim_valid u) 0).wr (F.vtim_offset u) 9280).wr (F.vtim_valid u) 0
        |>.wr (F.tim_k_off u) 3 |>.wr (F.tim_coarse_n u) 3 |>.wr (F.vtim_k_off u) 3 |>.wr (F.vtim_coarse_n u) 3) c
  let c := (c.wr (F.hlinkStatus_state d) 5).modLink d fun l => { l with identity := identity, newHead := new, expSeq := none, point := default, lostRun := 0 }
  let c := (c.wr (F.hlinkSrv_lost_run d) 0).refreshPort d
  let c := c.modServo d fun s => { s with offSum := [], offN := 0, offDone := false, trimDone := false }
  let c := c.modBurn d fun b => { b with strategy := [] }
  c.raiseClu d 0 7 (0 :: beBytes 8 identity)

/-- The identity read completes in ALIGN (R118). -/
def Chip.identityCheck (c : Chip) (d identity : Nat) (supported : Bool) : Chip :=
  if c.rd (F.hlinkStatus_state d) = 4 then
    if supported then c.portComesUp d identity
    else ((c.wr (F.hlinkCtrl_enable d) 0).leaveUp d 0).raiseClu d 0 7 (3 :: beBytes 8 identity)
  else c

/-! ### Lanes of a port that is UP (R119 to R121) -/

/-- A down lane of a port that is UP is retrained alone; passing ALIGN it is up again, its servo copies and its beam not yet in use (R119). -/
def Chip.laneRetrain (c : Chip) (d n : Nat) (ok : Bool) (laneF beamF rt : Nat) : Chip :=
  if c.portUp d && !(c.rd (F.hlinkStatus_lane_up d)).testBit n && ok && c.laneAligns d n laneF beamF rt then
    let c := c.modLane (laneNo d n) fun _ => { (default : LaneSt) with phase := 4, rt := rt }
    (c.wr (F.hlinkStatus_lane_up d) (maskSet (c.rd (F.hlinkStatus_lane_up d)) n true)).refreshPort d
  else c

/-- After 16 consecutive accepted superframes a retrained lane's servo copies are used (R119). -/
def Chip.laneRejoin (c : Chip) (d n : Nat) : Chip :=
  if 16 ≤ (c.laneSt (laneNo d n)).okRun then c.modLane (laneNo d n) fun s => { s with servoUse := true } else c

/-- A lane that is up goes down: its samples stop, sectors in flight on its beam end no-sync, the beam is missing, commands move to the lowest
lane up (R121, R123). -/
def Chip.laneDown (c : Chip) (d n : Nat) : Chip :=
  let c := (c.wr (F.hlinkStatus_lane_up d) (maskSet (c.rd (F.hlinkStatus_lane_up d)) n false)).modLane (laneNo d n) fun _ => default
  let c := (c.endInFlight (laneNo d n)).refreshPort d
  match c.lowestLane d with
  | some k => c.modLink d fun l => { l with cmds := l.cmds.map fun h => if h.lane = n then { h with lane := k } else h }
  | none => c

/-- A burn is spoiled by a lane that went down; with no lane left the port is lost (R118, R220). -/
def Chip.afterLane (c : Chip) (d : Nat) : Chip :=
  let c := if c.rd (F.hlinkStatus_lane_up d) = 0 then c else c.burnInterrupt d 2
  if c.portUp d && c.rd (F.hlinkStatus_lane_up d) == 0 then c.portLost d 1 else c

/-- The condition of R120 holds of a lane: 0 block lock is lost, which the lane's own receiver finds; 1 eight superframes in a row discarded or without
a header; 2 eight subframe copies in a row late; 3 two queue faults in one superframe. -/
def Chip.lossHolds (c : Chip) (d n condition : Nat) : Bool :=
  let l := c.laneSt (laneNo d n)
  if condition = 0 then true
  else if condition = 1 then decide (8 ≤ l.discRun)
  else if condition = 2 then decide (8 ≤ l.lateRun)
  else condition == 3 && decide (2 ≤ l.queueFaults)

/-- A lane that is up is lost: counted and reported (R120, R121). -/
def Chip.laneLost (c : Chip) (d n condition : Nat) : Chip :=
  if (c.rd (F.hlinkStatus_lane_up d)).testBit n && c.lossHolds d n condition then
    (((c.bump (F.hlinkLane_losses d n)).laneDown d n).raiseClu d 1 7 [n, condition]).afterLane d
  else c

/-- Lanes a write to lane_disable holds down (R119, R123). -/
def Chip.holdLanes (c : Chip) (d : Nat) : Chip :=
  ((List.range 4).filter fun n => (c.rd (F.hlinkCtrl_lane_disable d)).testBit n && (c.rd (F.hlinkStatus_lane_up d)).testBit n).foldl
    (fun c n => (c.laneDown d n).afterLane d) (c.refreshPort d)

/-- Two consecutive lost subframes stop a burn (R117, R220). -/
def Chip.lossBurnStop (c : Chip) (d : Nat) : Chip :=
  if 2 ≤ (c.linkSt d).lostRun then c.burnInterrupt d 4 else c

/-- More lost subframes in a row than the register allows are servo loss (R116). -/
def Chip.servoLossCheck (c : Chip) (d : Nat) : Chip :=
  if c.rd (F.hlinkCtrl_srv_miss_max d) < (c.linkSt d).lostRun then c.servoLoss d else c

end Sys2Proof.Machine
end

