-- ==== Sys2Proof/Machine/ReadChannel.lean ====
section
/-! DEFINITION. The band timing loop and the beam read channel (04_beam_read_channel.md), up to the sync decision. -/
namespace Sys2Proof.Machine

/-! ### Band timing loop (R135 to R140) -/

/-- Channel bits per superframe at a number of sectors and a speed in 10^-6 rev/s, in 2^-32 (R137). -/
def nominalRate (sectors : Nat) (f : Int) : Int := (sectors : Int) * 40320 * f * 4096 * 2 ^ 32 / 10 ^ 16

/-- The spindle's speed estimate in 10^-6 rev/s (R266). -/
def Chip.fHat (c : Chip) (d : Nat) : Int := (c.spinSt d).obs.hist.headD 0

/-- Writes the loop's rate register (2^-22 channel bit). -/
def Chip.showRate (c : Chip) (d : Nat) : Chip := c.wr (F.btlRate_rate d) ((c.btlSt d).rate / 2 ^ 10).toNat

/-! The wobble use of an AMU (R60): 63 periods, of which 15 to 18 are the sync wobbles and 19 to 58 the 40 data wobbles, bit 39 first. -/

/-- Wobble periods of an AMU, and the first sync and data wobbles (R60). -/
def amuWobbles : Nat := 63
def syncWobble : Nat := 15
def dataWobble : Nat := 19

/-- The sync wobbles: inverted, inverted, normal, inverted; true is an inverted wobble (R60). -/
def syncWobbles : List Bool := [true, true, false, true]

/-- The wobbles of an AMU that carries a mark, true for an inverted one: a data bit 1 is an inverted wobble (R60, R61). -/
def amuPattern (m : Mark) : List Bool :=
  List.replicate 15 false ++ syncWobbles ++ beBits 40 (encodeMark m) ++ List.replicate 4 false

/-- Wobble decisions kept. -/
def decsKept : Nat := 1024

/-- The decision of a wobble period, true for an inverted one, of those kept (R135). -/
def BtlSt.decision (b : BtlSt) (k : Int) : Bool := if k < b.wob then (b.decs[(b.wob - 1 - k).toNat]?).getD false else false

/-- The decisions of wobbles `i` to `i` + n − 1 of the AMU that begins at a wobble. -/
def BtlSt.wobbleBits (b : BtlSt) (amu : Int) (i n : Nat) : List Bool := (List.range n).map fun (j : Nat) => b.decision (amu + ((i + j : Nat) : Int))

/-- The 40 data wobbles of the AMU that begins at a wobble, an inverted wobble read as 1 (R138). -/
def BtlSt.markWord (b : BtlSt) (amu : Int) : Nat := bitsNat (b.wobbleBits amu dataWobble 40)

/-- The last data wobble of the AMU that begins at a wobble is decided. -/
def BtlSt.amuRead (b : BtlSt) (amu : Int) : Bool := decide (amu + 58 < b.wob)

/-- The length of a band turn in 2^-32 channel bit (R129). -/
def turnLength (band : Nat) : Int := 40320 * (sectorsOf band : Nat) * 2 ^ 32

/-- Where an interval's phase and rate lead with a rate: to the phase at its end, and past the first channel bit of the next band turn on with
the rate of that turn's zone (R136, R137). The next turn's rate is answered when it is reached. -/
def BtlSt.lead (b : BtlSt) (r : Int) : Int × Option Int :=
  let th := b.theta + r
  match b.at_ with
  | none => (th, none)
  | some p =>
    let bound := b.turn * 2 ^ 32 + turnLength p.band
    if th < bound then (th, none)
    else
      let s := (sectorsOf p.band : Int)
      let s' := (sectorsOf (p.band + 1) : Int)
      (bound + (th - bound) * s' / s, some (r * s' / s))

/-- Publishes the interval that begins at the loop's phase: its start, and within it the first channel bit of a band turn of another zone (R135, R137). -/
def BtlSt.publish (b : BtlSt) : BtlSt :=
  let first : LoopMark := ⟨b.interval, 0, b.theta, b.rate⟩
  let more : List LoopMark :=
    match b.at_, b.lead b.rate with
    | some p, (_, some r) =>
      let bound := b.turn * 2 ^ 32 + turnLength p.band
      [⟨b.interval, divFree ((bound - b.theta) * 2 ^ 32) b.rate, bound, r⟩]
    | _, _ => []
  { b with starts := (more ++ first :: b.starts).take 8 }

/-- The loop enters ACQ for a target band turn: rate loaded, means and runs cleared. Phase and I_ref stay as they are. DESIGN CHOICE,
notes/assumptions/81.md (R137). -/
def Chip.btlAcquire (c : Chip) (d target : Nat) : Chip :=
  let r := nominalRate (sectorsOf target) (c.fHat d)
  (((c.wr (F.btlStatus_state d) 1).modBtl d fun b =>
    { b with
      rate := r, starts := [], wob := b.theta / 2 ^ 38, partI := 0, partQ := 0, errs := [], at_ := none, pred := none, last := none, invalidRun := 0
      lowRun := 0, highRun := 0, defect := false, flagged := [], target := target }.publish).wr
      (F.btlStatus_zone d) (zoneOf target)).showRate d

/-- A start of the loop by an ordered operation, with the spindle at lock (R137): the units go on at the loop's phase. -/
def Chip.btlStart (c : Chip) (d target : Nat) : Chip :=
  if c.rdb (F.spinStatus_lock d) then
    let c := (c.modBtl d fun b => { b with acqFails := 0, gaveUp := false }).btlAcquire d target
    let th := (c.btlSt d).theta
    (portUnits d).foldl (fun c u => c.modUnit u fun s => { s with nextIdx := -(-th / 2 ^ 32), hist := [], secs := [] }) c
  else c

/-- An operation is ordered at a drive whose loop is OFF while focus is in LOCK and tracking in FOLLOW: the loop starts for its band turn (R137). -/
def Chip.btlOrder (c : Chip) (d target : Nat) : Chip :=
  if c.rd (F.btlStatus_state d) = 0 ∧ c.rd (F.srvStatus_fstate d) = 3 ∧ c.rd (F.srvStatus_tstate d) = 3 then c.btlStart d target else c

/-- 64 / 2π in 2^-32. -/
def radPerPeriod : Int := 43748177639

/-- What a wobble period's sums give: the phase error in 2^-32 channel bit (R135). -/
def phaseError (i q iRef : Int) : Int :=
  let dq := if 0 ≤ i then q else -q
  divFree (dq * radPerPeriod) (max (i.natAbs : Int) (iRef / 8))

/-- The servo-track defect flag after a wobble period: up with the second low period in a row, from the first of them on; down after the second
in a row that is not low (R140). -/
def BtlSt.judgeDefect (b : BtlSt) (low : Bool) : BtlSt :=
  let lowRun := if low then b.lowRun + 1 else 0
  let highRun := if low then 0 else b.highRun + 1
  let b := { b with lowRun := lowRun, highRun := highRun }
  if !b.defect && decide (2 ≤ lowRun) then { b with defect := true, flagged := ((b.wob - 1, none) :: b.flagged).take 16 }
  else if b.defect && decide (2 ≤ highRun) then
    { b with
      defect := false
      flagged := match b.flagged with
        | (s, _) :: t => (s, some (b.wob + 1)) :: t
        | [] => [] }
  else b

/-- The wobble period under way ends: decision, error, running mean, the defect flag (R135, R140). -/
def btlPeriod (def_ : Nat) (b : BtlSt) : BtlSt × Int :=
  let e := phaseError b.partI b.partQ b.iRef
  let low := decide ((b.partI.natAbs : Int) * 100 < (def_ : Int) * b.iRef)
  let b := b.judgeDefect low
  ({ b with
      iRef := Config.wobbleMean b.iRef b.partI.natAbs
      decs := (decide (b.partI < 0) :: b.decs).take decsKept
      wob := b.wob + 1, partI := 0, partQ := 0
      errs := ((e.natAbs : Int) :: b.errs).take 256 }, e)

/-- Ends wobble periods up to the one of a phase, each with its error. -/
def btlPeriods (def_ : Nat) : Nat → BtlSt × List Int → BtlSt × List Int
  | 0, x => x
  | n + 1, x => let p := btlPeriod def_ x.1; btlPeriods def_ n (p.1, p.2 :: x.2)

/-- Takes one wobble sample at a phase: the first one of a new wobble period ends those before it (R135). -/
def btlSample (def_ : Nat) (x : BtlSt × List Int) (t : Nat) (w : Int) : BtlSt × List Int :=
  let th := x.1.theta + x.1.rate * t / 24
  let x := btlPeriods def_ (th / 2 ^ 38 - x.1.wob).toNat x
  let b := x.1
  let psi := th / 2 ^ 6
  ({ b with partI := b.partI + w * sinTurn psi / 2 ^ 30, partQ := b.partQ + w * cosTurn psi / 2 ^ 30 }, x.2)

/-- The next interval of the loop: rate and phase updated by the state's gains, in HOLD the phase by the rate alone; past its end the next band turn
begins (R129, R136, R137). -/
def BtlSt.advance (b : BtlSt) (hold : Bool) (kp ki : Nat) (mean : Int) : BtlSt :=
  let r := if hold then b.rate else b.rate + mean / 2 ^ ki
  let l := b.lead r
  let b := { b with rate := l.2.getD r, theta := l.1 + if hold then 0 else mean / 2 ^ kp, interval := (b.interval + 1) % 61440, wobbles := [] }
  match l.2, b.at_ with
  | some _, some p => { b with turn := b.turn + 40320 * (sectorsOf p.band : Nat), at_ := some { p with band := p.band + 1 } }
  | _, _ => b

/-- Shows the present band turn and its zone. -/
def Chip.showBand (c : Chip) (d : Nat) : Chip :=
  match (c.btlSt d).at_ with
  | some p => (c.wr (F.btlStatus_band d) p.band).wr (F.btlStatus_zone d) (zoneOf p.band)
  | none => c

/-- Whether a stretch of flagged wobble periods, widened by some channel bits, covers a track index. -/
def flagCovers (pad : Nat) (f : Int × Option Int) (m : Int) : Bool :=
  decide (64 * f.1 - pad ≤ m) && f.2.all fun e => decide (m < 64 * e + pad)

/-- The bits of a unit that a servo-track flag covers carry it, those gone through before it rose too (R140, R151). -/
def Chip.flagUnits (c : Chip) (d : Nat) (b : BtlSt) : Chip :=
  (portUnits d).foldl (fun c u =>
    if c.rdb (F.dfd_srv_en u) then
      let pad := c.rd (F.dfd_pad u)
      c.modUnit u fun s => { s with hist := s.hist.map fun h => if b.flagged.any fun f => flagCovers pad f h.idx then { h with flag := h.flag ||| 4 } else h }
    else c) c

/-- Once per superframe: phase error averaged over the wobble periods that end in it, rate and phase updated by the state's gains, ACQ judged, the
defect flag moved (R136, R137, R140). -/
def Chip.btlUpdate (c : Chip) (d : Nat) : Chip :=
  let st := c.rd (F.btlStatus_state d)
  if st = 0 then c
  else
    let b := c.btlSt d
    let inv : Int := if c.rdb (F.btlCtrl_wob_inv d) then -1 else 1
    let (b', es) : BtlSt × List Int := (b.wobbles.zipIdx).foldl (fun x e => btlSample (c.rd (F.btlCtrl_wob_def d)) x e.2 (inv * e.1)) (b, [])
    let mean := if es = [] then 0 else roundDiv es.sum es.length
    let st' : Nat := if st = 1 ∧ b'.errs.length = 256 ∧ b'.errs.sum ≤ (512 * 2 ^ 32 : Int) then 2
      else if st = 3 ∧ b'.defect ∧ !b.defect then 4
      else if st = 4 ∧ !b'.defect then 3 else st
    let kp := if st' = 1 then c.rd (F.btlCtrl_kp_acq d) else c.rd (F.btlCtrl_kp d)
    let ki := if st' = 1 then c.rd (F.btlCtrl_ki_acq d) else c.rd (F.btlCtrl_ki d)
    let b' := (b'.advance (st' == 4) kp ki mean).publish
    let b' := if st = 1 ∧ st' = 2 then { b' with seen := b'.wob, last := none } else b'
    let c := if b'.flagged = b.flagged then c else c.flagUnits d b'
    (((c.modBtl d fun _ => b').wr (F.btlStatus_state d) st').showRate d).showBand d

/-- An acquisition failure: counted; the third in a row ends the loop with its event (R137). -/
def Chip.btlAcqFail (c : Chip) (d : Nat) : Chip :=
  let n := (c.btlSt d).acqFails + 1
  if 3 ≤ n then
    ((c.modBtl d fun b => { b with acqFails := 0, gaveUp := true }).btlOff d).raiseClu d 4 4 (0 :: beBytes 4 (c.rd (F.btlStatus_band d)))
  else (c.modBtl d fun b => { b with acqFails := n }).btlAcquire d (c.btlSt d).target

/-- 2 ms in ACQ (R137). -/
def Chip.btlAcqTimeout (c : Chip) (d : Nat) : Chip := if c.rd (F.btlStatus_state d) = 1 then c.btlAcqFail d else c

/-- 40 AMU in SEARCH (R137, R138). -/
def Chip.btlSearchTimeout (c : Chip) (d : Nat) : Chip := if c.rd (F.btlStatus_state d) = 2 then c.btlAcqFail d else c

/-- HOLD longer than 40,320 channel bits stops a burn at once (R220). -/
def Chip.btlHoldTimeout (c : Chip) (d : Nat) : Chip := if c.rd (F.btlStatus_state d) = 4 then c.burnInterrupt d 7 else c

/-- The loop's position is taken from a mark, that of the AMU which begins at a wobble; phase and rate are kept (R129, R138, R139). -/
def BtlSt.place (b : BtlSt) (m : Mark) (amu : Int) : BtlSt :=
  { b with
    at_ := some { m with mark := 0 }, turn := 64 * amu - 4032 * (m.mark : Int), last := some m, invalidRun := 0, pred := some (markNext m)
    amu := amu + amuWobbles }

/-- The next AMU is to be judged. -/
def BtlSt.nextAmu (b : BtlSt) (p : Mark) (last : Option Mark) : BtlSt :=
  { b with last := last, invalidRun := if last.isSome then 0 else b.invalidRun + 1, pred := some (markNext p), amu := b.amu + amuWobbles }

/-- What SEARCH finds (R138): the first wobble, after those looked at, at which the sync pattern is followed by a mark whose CRC checks. -/
def BtlSt.findMark (b : BtlSt) : Option (Int × Mark) :=
  ((List.range (b.wob - 59 - b.seen).toNat).map fun (i : Nat) => b.seen + 1 + (i : Int)).findSome? fun s =>
    if b.wobbleBits s syncWobble 4 = syncWobbles then (decodeMark (b.markWord s)).map fun m => (s, m) else none

/-- The AMU whose mark the loop judges next is one whose data wobbles are all decided: its mark, valid or not (R61, R138). -/
inductive MarkSeen where
  | nothing
  | invalid
  | found (m : Mark)
deriving DecidableEq, Repr

/-- What an address mark does to the loop, what was read, and whether it brought the loop to LOCK or re-seated it (R63, R138, R139). In LOCK and HOLD the
AMU lies at its predicted place; in SEARCH it is the next one found. -/
def Chip.addressMark (c : Chip) (d : Nat) : Chip × MarkSeen × Bool :=
  let st := c.rd (F.btlStatus_state d)
  let b := c.btlSt d
  if st = 3 ∨ st = 4 then
    match b.pred with
    | none => (c, .nothing, false)
    | some p =>
      if !b.amuRead b.amu then (c, .nothing, false)
      else
        match decodeMark (b.markWord b.amu) with
        | none => (c.modBtl d fun b => b.nextAmu p none, .invalid, false)
        | some m =>
          if m = p then (c.modBtl d fun b => b.nextAmu p (some m), .found m, false)
          else
            let c := c.bump (F.btlMarks_disagree d)
            if b.last.map markNext = some m then
              let c := (c.bump (F.btlMarks_reseats d)).modBtl d fun b => b.place m b.amu
              let c := (c.wr (F.btlStatus_state d) 3).showBand d
              let c := (portUnits d).foldl (fun c u => c.modUnit u fun s => { s with
                acq := c.rd (F.agcx_acq_len u), secs := s.secs.map fun x => if x.decided then x else { x with predOff := true } }) c
              ((c.raiseClu d 4 4 (1 :: beBytes 4 m.band)).burnInterrupt d 6, .found m, true)
            else (c.modBtl d fun b => b.nextAmu p (some m), .found m, false)
  else if st = 2 then
    match b.findMark with
    | none => (c.modBtl d fun b => { b with seen := max b.seen (b.wob - 59) }, .nothing, false)
    | some (s, m) =>
      if b.last.map markNext = some m && b.lastAt + amuWobbles == s then
        let c := c.modBtl d fun b => { b with acqFails := 0 }.place m s
        ((c.wr (F.btlStatus_state d) 3).showBand d, .found m, true)
      else (c.modBtl d fun b => { b with last := some m, lastAt := s, seen := s }, .found m, false)
  else (c, .nothing, false)

/-- Forty marks in a row were not valid: the position is lost, no more predictions are issued (R63, R137, R139, R220). -/
def Chip.positionLost (c : Chip) (d : Nat) : Chip :=
  let st := c.rd (F.btlStatus_state d)
  if (st = 3 ∨ st = 4) ∧ 40 ≤ (c.btlSt d).invalidRun then
    let c := ((c.bump (F.btlMarks_lost d)).wr (F.btlStatus_state d) 2).modBtl d fun b =>
      { b with at_ := none, pred := none, last := none, invalidRun := 0, seen := b.wob }
    (c.raiseClu d 4 4 (2 :: beBytes 4 (c.rd (F.btlStatus_band d)))).burnInterrupt d 6
  else c

/-! ### Channel bits (R141 to R160) -/

/-- The channel bit at a track index, of bits held newest first. -/
def histAt (h : List BitRec) (idx : Int) : Option BitRec :=
  match h with
  | [] => none
  | b :: _ => if b.idx < idx then none else (h.drop (b.idx - idx).toNat).head?

/-- The offset of a unit is learned or written: the verify spot's in write mode (R133, R146). -/
def Chip.learned (c : Chip) (u : Nat) : Bool := c.rdb (if (c.unitSt u).verifying then F.vtim_valid u else F.tim_valid u)

/-- The phase offset field of a unit, in 1/64 channel bit: the verify spot's in write mode (R133, R143). -/
def Chip.offsetField (c : Chip) (u : Nat) : Int := c.rdi (if (c.unitSt u).verifying then F.vtim_offset u else F.tim_offset u)

/-- The phase offset a unit uses: 0 while it is not learned (R133, R143, R146). -/
def Chip.phaseOffset (c : Chip) (u : Nat) : Int := if c.learned u then c.offsetField u else 0

/-- How many superframe intervals later than another an interval is; none when it is the earlier one (R89). -/
def intervalsAfter (n m : Nat) : Option Nat := let k := (n + 61440 - m) % 61440; if k < 30720 then some k else none

/-- The anchor of the latest superframe of a unit that is not later than an interval, with the intervals in between (R130, R141). -/
def UnitSt.anchorFor (s : UnitSt) (n : Nat) : Option (Nat × Nat × Nat) :=
  s.anchors.findSome? fun a => (intervalsAfter n a.1).map fun k => (k, a.2)

/-- Where a place of the loop's timeline lies among those it has published: the latest that begins at or before it (R141). -/
def BtlSt.markAt (b : BtlSt) (m : Int) : Option LoopMark := b.starts.find? fun l => decide (l.theta ≤ m)

/-- Head sample position of a track index in 2^-24 sample (R141): from the anchor of the superframe interval in which the index, with the unit's offset,
falls; from an earlier one where that superframe was not received (R132). None before the loop has reached it. -/
def Chip.samplePos (c : Chip) (u : Nat) (m : Int) : Option Int :=
  let s := c.unitSt u
  let x := m * 2 ^ 32 + c.phaseOffset u * 2 ^ 26
  match (c.btlSt (u / 4)).markAt x with
  | none => none
  | some l =>
    match s.anchorFor l.n with
    | none => none
    | some (k, j, phi) =>
      let rh : Int := c.rd (F.rsRatio_r_hat u)
      some ((j : Int) * 2 ^ 24 - (phi : Int) * 2 ^ 18 + rh * 16 * k + rh * l.tau * 16 / 2 ^ 32 + divFree (rh * 16 * (x - l.theta)) l.rate)

/-- A held sample by its index, offset binary (R142); none where it is missing or not held. -/
def sampleAt (s : UnitSt) (i : Int) : Option Int :=
  let first := (s.sampEnd : Int) - s.samples.length
  if i < first ∨ (s.sampEnd : Int) ≤ i ∨ s.gaps.any (fun g => decide ((g.1 : Int) ≤ i) && decide (i < g.2)) then none
  else some ((s.samples.getD (i - first).toNat 128 : Int) - 128)

/-- The interpolator: 8 taps of phase p on samples i − 3 to i + 4, four units a sample step, saturated; none when a sample is
missing (R132, R142). -/
def interpolate (s : UnitSt) (pos : Int) : Option Int :=
  let i := pos / 2 ^ 24
  let p := (pos % 2 ^ 24 * 64 + 2 ^ 23) / 2 ^ 24
  let (i, p) := if p = 64 then (i + 1, 0) else (i, p)
  let taps := (List.range 8).map fun (t : Nat) => (sampleAt s (i - 3 + (t : Int))).map (· * Config.interpTap p.toNat t)
  if taps.any Option.isNone then none
  else some (clampInt 511 (roundDiv (4 * (taps.map (·.getD 0)).sum) (2 ^ 16)))

/-- Drop and rise thresholds in 0.5 dB steps, compared without roots: E against E_ref × 10^(±t / 40), E_ref in 2^-12 (R151). -/
def dropsBelow (e eRef : Int) (t : Nat) : Bool := decide ((e * 2 ^ 12) ^ 40 * 10 ^ t < eRef ^ 40)
def risesAbove (e eRef : Int) (t : Nat) : Bool := decide (eRef ^ 40 * 10 ^ t < (e * 2 ^ 12) ^ 40)

/-- The level chain of R147 in 2^-24: u, then the levelled and saturated w. -/
def levelChain (s : UnitSt) (x : Int) : Int × Int :=
  let u := x * 2 ^ 24 - s.o
  let v := (2 ^ 24 + s.gDev) * u / 2 ^ 24
  let w := if 0 ≤ v then v * (2 ^ 24 + s.a) / 2 ^ 24 else v * (2 ^ 24 - s.a) / 2 ^ 24
  (u, clampInt 511 (roundDiv w (2 ^ 24)))

/-- The level loops learn from a bit whose flag is settled, with acquisition steps while those last (R148, R149, R150). They work in 2^-24 and round
down. DESIGN CHOICE, notes/assumptions/84.md. -/
def Chip.levelUpdate (c : Chip) (u : Nat) (s : UnitSt) (b : BitRec) : UnitSt :=
  let add := if 0 < s.acq then 0 else c.rd (F.agc_trk_add u)
  let target : Int := c.rd (F.agcx_target u)
  let aw : Int := b.w.natAbs
  let o := clampInt (256 * 2 ^ 24) (s.o + b.u / 2 ^ (c.rd (F.agc_ko u) + add))
  let g := 2 ^ 24 + s.gDev
  let g' := g + divFree (g * (target - aw)) (target * 2 ^ (c.rd (F.agc_kg u) + add))
  let g' := max (2 ^ 21) (min (7999 * 2 ^ 24 / 1000) g')
  let sgn : Int := if b.w < 0 then -1 else if b.w = 0 then 0 else 1
  let a := clampInt (2 ^ 22) (s.a - divFree (sgn * (aw - target) * 2 ^ 24) (target * 2 ^ (c.rd (F.agc_ka u) + add)))
  { s with o := o, gDev := g' - 2 ^ 24, a := a }

/-- The level loops may learn now: no flag is up and none covers the bit; after a hold has expired they do under the flag too, for the acquisition
steps it gave them (R150, R152). -/
def UnitSt.mayLearn (s : UnitSt) (b : BitRec) : Bool := (s.flagRun == 0 && b.flag == 0) || (s.expired && decide (0 < s.acq))

/-- Shows the level loops in their register (04, lvl). -/
def Chip.showLevels (c : Chip) (u : Nat) : Chip :=
  let s := c.unitSt u
  ((((c.wri (F.lvl_o u) (s.o / 2 ^ 19)).wr (F.lvl_g u) ((2 ^ 24 + s.gDev) / 2 ^ 11).toNat).wri (F.lvl_a u) (s.a / 2 ^ 12)).wrb (F.lvl_held u)
    (0 < s.flagRun)).wrb (F.lvl_acquiring u) (0 < s.acq)

/-- The beams that read in a pass at an offset, by the plan for missing beams (R124). -/
def planBeams (missing : Nat) (k : Int) : List Nat := (((passPlan missing).find? fun p => p.1 == k).map (·.2)).getD []

/-- The offset of the pass or re-read visit under way (R124, R188): visits are numbered 4 × band turn + offset + 1. -/
def ReadSt.offsetNow (r : ReadSt) : Int :=
  match r.visits with
  | v :: _ => (v % 4 : Nat) - 1
  | [] => r.passes.headD 0

/-- Whether a beam reads in the pass under way: one of its plan's beams, or in a visit one that a waiting sector was read by, that has not been missing since
the extent began; or any that is not missing when no extent is read (R119, R124, R156). -/
def Chip.beamReads (c : Chip) (d b : Nat) : Bool :=
  let r := c.readSt d
  match r.cur with
  | some _ =>
    !r.gone.testBit b && ((planBeams r.planMissing r.offsetNow).contains b ||
      r.sectors.any fun s => s.state == .pending && s.waits != 0 && s.offset == r.offsetNow && beamOf (psaTrack s.psa) s.offset == b)
  | none => !(c.rd (F.hlinkStatus_beam_missing d)).testBit b

/-- The sector of a unit in which a track index lies: the latest whose predicted origin it has passed. -/
def UnitSt.secAt (s : UnitSt) (idx : Int) : Option SecSt := s.secs.find? fun x => decide (x.base ≤ idx)

/-- The address of the sector a unit goes through, for its events. -/
def UnitSt.psaNow (s : UnitSt) : Nat := ((s.secAt s.nextIdx).map (·.psa)).getD 0

/-- The level output of a neighbour unit at a track index, as a cross term takes it: zero while its flag is up, none where no
healthy unit reads the adjacent track (R155, R156, R158). Feedback levels stand in where they are held (R160). -/
def Chip.crossInput (c : Chip) (u : Nat) (high : Bool) (idx : Int) : Option Int :=
  let s := c.unitSt u
  let fb := ((s.secAt idx).map fun x => (if high then x.fbHigh else x.fbLow)[(idx - x.base).toNat]?).join
  match fb with
  | some z => some z
  | none =>
    let b := u % 4
    if (high && b == 3) || (!high && b == 0) then none
    else
      let v := if high then u + 1 else u - 1
      if c.beamReads (u / 4) (v % 4) then
        (histAt (c.unitSt v).hist idx).map fun r => if r.flag = 0 then r.w else 0
      else none

/-- The coefficient set in use at a track index: the one a re-read calls for, or the selected one (R155, R185, R187). -/
def Chip.eqSet (c : Chip) (u : Nat) (idx : Int) : Nat := (((c.unitSt u).secAt idx).bind (·.force)).getD (c.rd (F.eqc_set u))

/-- The coefficients of a set: c, l, h (R155). -/
def Chip.coeffs (c : Chip) (u set : Nat) : List Int × List Int × List Int :=
  if set = 0 then
    ((List.range 15).map fun i => c.rdi (F.eqa_coef u i), (List.range 5).map fun j => c.rdi (F.xla_coef u j), (List.range 5).map fun j => c.rdi (F.xha_coef u j))
  else
    ((List.range 15).map fun i => c.rdi (F.eqb_coef u i), (List.range 5).map fun j => c.rdi (F.xlb_coef u j), (List.range 5).map fun j => c.rdi (F.xhb_coef u j))

/-- The equaliser's output at a track index (R155). -/
def Chip.equalise (c : Chip) (u : Nat) (h : List BitRec) (n : Int) : Int :=
  let (cs, ls, hs) := c.coeffs u (c.eqSet u n)
  let own := (cs.zipIdx.map fun e => e.1 * ((histAt h (n + 7 - e.2)).map (·.w)).getD 0).sum
  let cross (co : List Int) (high : Bool) : Int := (co.zipIdx.map fun e => e.1 * (c.crossInput u high (n + 2 - e.2)).getD 0).sum
  roundDiv (own + cross ls false + cross hs true) (2 ^ 10)

/-- The target taps t_0 to t_4 (R159). -/
def Chip.targetTaps (c : Chip) (d : Nat) : List Int :=
  [F.jdt_t0 d, F.jdt_t1 d, F.jdt_t2 d, F.jdt_t3 d, F.jdt_t4 d].map c.rdi

/-- The ideal level of a bit sequence, newest bit first (R159). -/
def idealLevel (unit : Int) (taps : List Int) (bits : List Bool) : Int :=
  unit * ((taps.zip bits).map fun e => if e.2 then e.1 else -e.1).sum

/-- The four newest bits of a detector state, newest in bit 0. -/
def stateBits (s : Nat) : List Bool := (List.range 4).map fun k => s.testBit k

/-- The branch metric (z − ẑ)² of taking a bit in a state (R159). -/
def branchMetric (unit : Int) (taps : List Int) (s : Nat) (b : Bool) (z : Int) : Int :=
  let e := z - idealLevel unit taps (b :: stateBits s)
  e * e

/-- Least metric of an option list. -/
def leastInt (l : List Int) : Int := l.foldl min (l.headD 0)

/-- Forward metrics of the 16 states after one more bit. -/
def forwardStep (unit : Int) (taps : List Int) (al : List Int) (z : Int) : List Int :=
  (List.range 16).map fun s' =>
    let b := s'.testBit 0
    leastInt ([s' / 2, s' / 2 + 8].map fun s => al.getD s 0 + branchMetric unit taps s b z)

/-- Backward metrics of the 16 states before a bit. -/
def backwardStep (unit : Int) (taps : List Int) (be : List Int) (z : Int) : List Int :=
  (List.range 16).map fun s =>
    leastInt ([false, true].map fun b => be.getD ((2 * s + b.toNat) % 16) 0 + branchMetric unit taps s b z)

/-- Forward metrics before each bit. -/
def forwardAll (unit : Int) (taps : List Int) : List Int → List Int → List (List Int)
  | _, [] => []
  | al, z :: zs => al :: forwardAll unit taps (forwardStep unit taps al z) zs

/-- Backward metrics after each bit. -/
def backwardAll (unit : Int) (taps : List Int) : List Int → List (List Int)
  | [] => []
  | [_] => [List.replicate 16 0]
  | _ :: z' :: zs =>
    let r := backwardAll unit taps (z' :: zs)
    backwardStep unit taps (r.headD []) z' :: r

/-- Max-log-MAP soft decisions over a window: least metric with the bit 0 less that with the bit 1, positive for a mark, scaled and
saturated to ±31 (R159). -/
def mapSoft (unit : Int) (taps zs : List Int) : List Int :=
  let al := forwardAll unit taps (List.replicate 16 0) zs
  let be := backwardAll unit taps zs
  ((zs.zip al).zip be).map fun e =>
    let best (b : Bool) : Int := leastInt ((List.range 16).map fun s =>
      e.1.2.getD s 0 + branchMetric unit taps s b e.1.1 + e.2.getD ((2 * s + b.toNat) % 16) 0)
    let diff := best false - best true
    let m : Int := min (Config.llrMag diff.natAbs) 31
    if diff < 0 then -m else m

/-- The factor of R158 on an LLR magnitude: 1, 3/4, 1/2, 1/4, rounded towards zero. DESIGN CHOICE, notes/assumptions/84.md. -/
def neighbourScale (code : Nat) (l : Int) : Int := if l < 0 then -(l.natAbs * (4 - code) / 4 : Nat) else (l.natAbs * (4 - code) / 4 : Nat)

/-- Writes the soft decisions of the window of 64 bits that the newest equalised bits complete, with 32 bits of warm-up on each side
(R158, R159). -/
def Chip.detect (c : Chip) (u : Nat) (h : List BitRec) (k : Int) : List BitRec :=
  if (k + 1) % 64 ≠ 32 then h
  else
    let d := u / 4
    let zs := (List.range 128).map fun (i : Nat) => ((histAt h (k - 127 + (i : Int))).map (·.z)).getD 0
    let soft := mapSoft (c.rd (F.jdt_lvl_unit d)) (c.targetTaps d) zs
    h.map fun b =>
      let p := b.idx - (k - 127)
      if 32 ≤ p ∧ p < 96 then
        let l := soft.getD p.toNat 0
        let nbr := (List.range 5).any fun j => [false, true].any fun hi =>
          let v := if hi then u + 1 else u - 1
          (if hi then decide (u % 4 < 3) else decide (0 < u % 4)) && c.beamReads d (v % 4) &&
            ((histAt (c.unitSt v).hist (b.idx - 2 + j)).map (·.flag != 0)).getD false
        { b with llr := if nbr then neighbourScale (c.rd (F.jd_nbr_llr_scale d)) l else l }
      else b

/-- Some bit of those that an update at an index takes from the unit's own beam is flagged, or not held (R157). -/
def nearFlag (h : List BitRec) (t : Int) : Bool :=
  (List.range 15).any fun i => ((histAt h (t + 7 - i)).map (·.flag != 0)).getD true

/-- The shift of the cross terms: kx, or acquisition steps for a neighbour that is fed back, which are trk_add smaller. DESIGN CHOICE,
notes/assumptions/90.md (R157, R160). -/
def Chip.crossShift (c : Chip) (u : Nat) (high : Bool) (idx : Int) : Nat :=
  let fed := ((c.unitSt u).secAt idx).any fun x => (if high then x.fbHigh else x.fbLow) != []
  if fed then c.rd (F.eqc_kx u) - c.rd (F.agc_trk_add u) else c.rd (F.eqc_kx u)

/-- Least-mean-squares adaptation of the selected set on the bit at index t (R157, R158). The new coefficients, where no flag covers the
bits concerned; a step is counted in LSBs of the coefficient, rounded to the nearest, and a coefficient saturates. DESIGN CHOICE,
notes/assumptions/84.md. -/
def Chip.adapt (c : Chip) (u : Nat) (h : List BitRec) (t : Int) : Chip :=
  match histAt h t with
  | none => c
  | some b =>
    if c.rd (F.eqc_adapt u) = 0 ∨ nearFlag h t then c
    else
      let err := b.z - b.zIdeal
      let set := c.eqSet u t
      let (cs, ls, hs) := c.coeffs u set
      let setA := set = 0
      let lim (x : Int) : Int := max (-2048) (min 2047 x)
      let c := cs.zipIdx.foldl (fun c e =>
        if e.2 = 7 ∧ c.rdb (F.eqc_fix_centre u) then c
        else
          let w := ((histAt h (t + 7 - e.2)).map (·.w)).getD 0
          let v := lim (e.1 - roundDiv (err * w) (2 ^ c.rd (F.eqc_ke u)))
          c.wri (if setA then F.eqa_coef u e.2 else F.eqb_coef u e.2) v) c
      let flagUp (high : Bool) : Bool :=
        (List.range 5).any fun j => ((histAt (c.unitSt (if high then u + 1 else u - 1)).hist (t + 2 - j)).map (·.flag != 0)).getD false
      let cross (c : Chip) (co : List Int) (high : Bool) (fld : Nat → Fld) : Chip :=
        let k := c.crossShift u high t
        co.zipIdx.foldl (fun c e =>
          match c.crossInput u high (t + 2 - e.2) with
          | some w => c.wri (fld e.2) (lim (e.1 - roundDiv (err * w) (2 ^ k)))
          | none => c) c
      let fed (high : Bool) : Bool := ((c.unitSt u).secAt t).any fun x => (if high then x.fbHigh else x.fbLow) != []
      let c := if !fed false && flagUp false then c else cross c ls false fun j => if setA then F.xla_coef u j else F.xlb_coef u j
      if !fed true && flagUp true then c else cross c hs true fun j => if setA then F.xha_coef u j else F.xhb_coef u j

/-- Marks bits in a range of track indices with defect causes. -/
def markFlags (h : List BitRec) (start stop : Int) (cause : Nat) : List BitRec :=
  h.map fun b => if start ≤ b.idx ∧ b.idx < stop then { b with flag := b.flag ||| cause } else b

/-- The defect flag of the newest bit and of those that its envelope judges: drop, rise, servo track, gap; widened by pad on each side (R140, R151). The
envelope window of an even length reaches one bit further back than ahead of the bit it is centred on, and the first envelope measured is taken as the
reference. DESIGN CHOICE, notes/assumptions/83.md. -/
def Chip.defects (c : Chip) (u : Nat) (s : UnitSt) (gap : Bool) : UnitSt × Nat :=
  let n := c.rd (F.dfd_env_len u)
  let pad := c.rd (F.dfd_pad u)
  let xs := (s.hist.take n).map (·.x)
  let e := xs.foldl max (xs.headD 0) - xs.foldl min (xs.headD 0)
  let full := decide (xs.length = n)
  let s := if full ∧ s.eRef = 0 then { s with eRef := e * 2 ^ 12 } else s
  let dr := full && dropsBelow e s.eRef (c.rd (F.dfd_thr_drop u))
  let ri := full && risesAbove e s.eRef (c.rd (F.dfd_thr_rise u))
  let here := ((s.hist.head?).map (·.idx)).getD 0
  let centre := here - ((n - 1) / 2 : Nat)
  let sv := c.rdb (F.dfd_srv_en u) && (c.btlSt (u / 4)).flagged.any fun f => flagCovers pad f here
  -- each cause: whether it arises now, and the bit it is found at
  let found : List (Bool × Int) := [(dr, centre), (ri, centre), (false, here), (gap, here)]
  let ahead := found.zipIdx.map fun f => if f.1.1 then max (s.ahead.getD f.2 0) (f.1.2 + pad + 1) else s.ahead.getD f.2 0
  let hist := found.zipIdx.foldl (fun h f => if f.1.1 then markFlags h (f.1.2 - pad) (f.1.2 + pad + 1) (2 ^ f.2) else h) s.hist
  let hist := found.zipIdx.foldl (fun h f => if f.1.1 || decide (ahead.getD f.2 0 ≤ here) || s.ahead == [] then h else markFlags h here (here + 1) (2 ^ f.2)) hist
  let hist := if sv then markFlags hist here (here + 1) 4 else hist
  let flag := ((hist.head?).map (·.flag)).getD 0
  let up := flag != 0
  let wasUp := decide (0 < s.flagRun)
  let s := { s with
    hist := hist
    ahead := ahead
    flagRun := if up then s.flagRun + 1 else 0
    flagGap := if up then s.flagGap || flag.testBit 3 else false
    expired := up && s.expired
    acq := if wasUp && !up then max (s.acq - 1) (if s.flagGap then c.rd (F.agcx_acq_len u) else c.rd (F.agcx_reacq_len u)) else s.acq - 1
    eRef := if up || !full then s.eRef else s.eRef + (e * 2 ^ 12 - s.eRef) / 4096 }
  (s, if up && !wasUp then 1 else 0)

/-- Spans of codeword bits that a flagged stretch of frame positions covers (R154): payload indices, whole DC-control words. -/
def stretchSpan (s e : Int) : Option (Nat × Nat) :=
  let clip (p : Int) : Int :=
    if p < 112 then 0 else if p ≤ 10144 then p - 112 else if p < 10192 then 10032 else min (p - 160) 40128
  let ps := clip s
  let pe := clip e
  if ps < pe then some (32 * (ps / 33).toNat, 32 * ((pe - 1) / 33).toNat + 32) else none

/-- Joins spans that overlap or adjoin, in rising order (R154). -/
def joinSpans : List (Nat × Nat) → List (Nat × Nat)
  | [] => []
  | a :: t =>
    match joinSpans t with
    | [] => [a]
    | b :: r => if b.1 ≤ a.2 then (min a.1 b.1, max a.2 b.2) :: r else a :: b :: r

/-- Merges the two neighbours with the smallest gap, the earliest of equals (R154). -/
def mergeSmallest (l : List (Nat × Nat)) : List (Nat × Nat) :=
  let gaps := (l.zip (l.drop 1)).map fun e => e.2.1 - e.1.2
  let least := gaps.foldl min (gaps.headD 0)
  let i := gaps.findIdx (· == least)
  match l.drop i with
  | a :: b :: t => l.take i ++ (a.1, b.2) :: t
  | _ => l

/-- At most eight spans (R154). -/
def limitSpans : Nat → List (Nat × Nat) → List (Nat × Nat)
  | 0, l => l
  | n + 1, l => if l.length ≤ 8 then l else limitSpans n (mergeSmallest l)

/-- The flagged stretches of frame positions, from bits oldest first. -/
def stretches (bits : List (Int × Bool)) : List (Int × Int) :=
  (bits.foldl (fun (a : List (Int × Int)) b =>
    if b.2 then
      match a with
      | (s, e) :: t => if e = b.1 then (s, b.1 + 1) :: t else (b.1, b.1 + 1) :: a
      | [] => [(b.1, b.1 + 1)]
    else a) []).reverse

/-- The erasure spans of a sector whose origin lies at a track index (R154). -/
def sectorSpans (h : List BitRec) (origin : Int) : List (Nat × Nat) :=
  let bits := (h.reverse.map fun b => (b.idx - origin, b.flag != 0)).filter fun e => decide (0 ≤ e.1) && decide (e.1 < 40320)
  let l := joinSpans ((stretches bits).filterMap fun e => stretchSpan e.1 e.2)
  limitSpans l.length l

/-- Codeword bits covered by spans, the defect span (R154). -/
def spanBits (l : List (Nat × Nat)) : Nat := (l.map fun e => e.2 - e.1).sum

/-! ### Scrambler and DC control (R68, R69, R161) -/

/-- The scrambler's initial state for a PSA (R68). -/
def scramblerSeed (psa : Nat) : Nat := if psa % 2 ^ 15 = 0 then 0x7FFF else psa % 2 ^ 15

/-- Scrambler outputs from a state (R68). -/
def scramblerBits : Nat → Nat → List Bool
  | 0, _ => []
  | n + 1, s =>
    let out := s.testBit 14 != s.testBit 13
    out :: scramblerBits n ((s * 2 + out.toNat) % 2 ^ 15)

/-- The 32 LLRs of one framed 33-bit word (R161). -/
def wordLlr (flagMin : Nat) (w : List Int) : List Int :=
  match w with
  | [] => []
  | f :: ds =>
    let ds := if 0 < f then ds.map (- ·) else ds
    if f.natAbs < flagMin then ds.map (clampInt f.natAbs) else ds

/-- Cuts a list into words of 33. -/
def words33 : Nat → List Int → List (List Int)
  | 0, _ => []
  | n + 1, l => l.take 33 :: words33 n (l.drop 33)

/-- The codeword LLR of a sector framed at an origin (R65, R69, R161). -/
def frameLlr (flagMin psa : Nat) (h : List BitRec) (origin : Int) : List Int :=
  let bits := (h.reverse.filter fun b => decide (origin ≤ b.idx) && decide (b.idx < origin + 40320))
  let llr (p n : Nat) : List Int := ((bits.drop p).take n).map (·.llr)
  let ws := words33 1216 (llr 112 10032 ++ llr 10192 30096)
  let cw := ws.flatMap (wordLlr flagMin)
  (cw.zip (scramblerBits 38912 (scramblerSeed psa))).map fun e => if e.2 then -e.1 else e.1

/-- The timing errors e_t of a sector's payload bits that no flag covers, of a framing at an origin (R144). -/
def timingErrors (h : List BitRec) (origin : Int) : List Int :=
  (h.zip (h.drop 1)).filterMap fun e =>
    let p := e.1.idx - origin
    if ((112 ≤ p ∧ p < 10144) ∨ (10192 ≤ p ∧ p < 40288)) ∧ e.1.flag = 0 then some (e.2.zIdeal * e.1.z - e.1.zIdeal * e.2.z) else none

/-- The sector that begins at a track index, by the loop's position: of the present band turn, the one before or the one after it (R62, R64, R129): band turn
and angular index. -/
def BtlSt.sectorAt (b : BtlSt) (p : Mark) (base : Int) : Nat × Nat :=
  let k := (base - b.turn) / 40320
  let s := sectorsOf p.band
  if k < 0 then (p.band - 1, (k + sectorsOf (p.band - 1)).toNat)
  else if k.toNat < s then (p.band, k.toNat) else (p.band + 1, k.toNat - s)

/-- The spot is settled on the track it is to read: no servo request runs, focus holds, tracking follows, the references have settled (R233). -/
def Chip.spotReady (c : Chip) (d : Nat) : Bool :=
  let s := c.servoSt d
  let f := c.rd (F.srvStatus_fstate d)
  s.running.isNone && (f == 3 || f == 4) && c.rd (F.srvStatus_tstate d) == 3 && s.xRef.left == 0 && s.fOff.left == 0 && decide (256 ≤ s.settleAfter)

/-- The loop issues the prediction of the sector that begins at a track index, for a unit whose beam reads in the pass under way, reads a position that a
closing or a calibration looks for, or follows a burn (R125, R138, R223). A prediction issued in HOLD is marked flywheel. -/
def Chip.issueSector (c : Chip) (u : Nat) (base : Int) : Chip :=
  let d := u / 4
  let b := c.btlSt d
  let st := c.rd (F.btlStatus_state d)
  let s := c.unitSt u
  match b.at_ with
  | none => c
  | some p =>
    let search := (c.burnSt d).close.isSome || (c.burnSt d).cal.isSome
    if (st != 3 && st != 4) || s.secs.any (fun x => x.base == base) || !(s.verifying || ((search || c.beamReads d (u % 4)) && c.spotReady d)) then c
    else
      let k := b.sectorAt p base
      let x : SecSt := { (default : SecSt) with
        base := base, psa := psaOf p.side p.layer k.1 k.2 (trackOf (u % 4) s.offset), offset := s.offset, flywheel := st == 4 }
      c.modUnit u fun s => { s with secs := (x :: s.secs).take 4 }

/-- How long before its origin a sector's prediction is issued: one AMU. DESIGN CHOICE, notes/assumptions/82.md. -/
def issueLead : Int := 4032

/-- The loop has come to LOCK or has been re-seated: the prediction of the next sector is issued to the units at once (R138, R139). -/
def Chip.issueNext (c : Chip) (d : Nat) : Chip :=
  let b := c.btlSt d
  let m := -(-b.theta / 2 ^ 32)
  let base := b.turn + -(-(m - b.turn) / 40320) * 40320
  (portUnits d).foldl (fun c u => c.issueSector u base) c

/-- Fills the framings of slots whose last bit is detected by now (R144, R154, R162, R167). -/
def Chip.fillSlots (c : Chip) (u : Nat) (newest : Int) : Chip :=
  let fm := c.rd (F.jdt_flag_min (u / 4))
  c.modUnit u fun s => { s with slots := s.slots.map fun x =>
    if x.frames = [] ∧ x.origins ≠ [] ∧ x.base + 40320 + 2200 ≤ newest then
      { x with
        frames := x.origins.map fun o => frameLlr fm x.psa s.hist (x.base + o)
        spans := x.origins.map fun o => sectorSpans s.hist (x.base + o)
        dts := x.origins.map fun o => let e := timingErrors s.hist (x.base + o); (e.sum, e.length)
        since := c.now }
    else x }

/-- Channel bits a unit keeps: those of every framing of a sector until its last bit is detected (R162). -/
def histLength : Nat := 45056

/-- A unit takes in its next channel bit, resampled from its window of samples: levelled, judged for defects, equalised, adapted; soft decisions follow
when their window is complete (R141 to R159). -/
def Chip.bitStep (c : Chip) (u : Nat) (x : Option Int) : Chip :=
  let s := c.unitSt u
  let d := u / 4
  let m := s.nextIdx
  let lv := levelChain s (x.getD 0)
  let rec_ : BitRec := ⟨m, x.getD 0, lv.1, lv.2, 0, 0, 0, false, 0⟩
  let s := { s with hist := (rec_ :: s.hist).take histLength, nextIdx := m + 1 }
  let (s, spans) := c.defects u s x.isNone
  let s := match histAt s.hist (m - 48) with
    | some b => if s.mayLearn b then c.levelUpdate u s b else s
    | none => s
  let k := m - 7
  let z := c.equalise u s.hist k
  let h := s.hist.map fun b => if b.idx = k then { b with z := z } else b
  let t := k - 16
  let around := (List.range 33).map fun (i : Nat) => ((histAt h (k - (i : Int))).map (·.z)).getD 0
  let dec := Config.tentative around
  let prior := (List.range 5).map fun (i : Nat) => if i = 0 then dec else ((histAt h (t - (i : Int))).map (·.tent)).getD false
  let lvl := idealLevel (c.rd (F.jdt_lvl_unit d)) (c.targetTaps d) prior
  let h := h.map fun b => if b.idx = t then { b with tent := dec, zIdeal := lvl } else b
  let s := { s with hist := c.detect u h k }
  let c := c.modUnit u fun _ => s
  let c := if 0 < s.flagRun then c else c.adapt u s.hist t
  let c := if spans = 0 then c else c.bump (F.dfdcnt_spans u)
  let c := (c.showLevels u).fillSlots u m
  if (m + issueLead - (c.btlSt d).turn) % 40320 = 0 then c.issueSector u (m + issueLead) else c

/-- A unit processes its next channel bit, once the last sample of its window has arrived (R125, R132, R133, R141); until then, in OFF, and while it is frozen or
out, it waits (R20, R26). A bit whose window misses a sample is zero and carries the gap cause. DEDUCED, notes/assumptions/87.md. -/
def Chip.channelBit (c : Chip) (u : Nat) : Chip :=
  let s := c.unitSt u
  if s.out || c.contained (u / 4) || c.rd (F.btlStatus_state (u / 4)) == 0 then c
  else
    match c.samplePos u s.nextIdx with
    | none => c
    | some x => if (s.sampEnd : Int) ≤ x / 2 ^ 24 + 5 then c else c.bitStep u (interpolate s x)

/-- The defect flag has been up for hold_len bits: the loops reacquire from their held values with acquisition steps for acq_len bits, the expiry is counted
and reported once (R149, R152). When those bits have gone by and the flag is still up, the loops hold again. DEDUCED, notes/assumptions/91.md. -/
def Chip.holdExpiry (c : Chip) (u : Nat) : Chip :=
  let s := c.unitSt u
  if c.rd (F.agc_hold_len u) ≤ s.flagRun ∧ !s.expired then
    let c := c.modUnit u fun s => { s with acq := c.rd (F.agcx_acq_len u), expired := true }
    ((c.bump (F.dfdcnt_expiries u)).showLevels u).raiseUnit u 5 ([0, u % 4] ++ beBytes 4 s.psaNow)
  else c

/-! ### Sync decision (R162 to R170) -/

/-- The sync patterns of R65. -/
def syncA : List Bool := beBits 48 0xFF8E3F007E00
def syncB : List Bool := beBits 48 0xFC7FC0E00FC0

/-- Agreeing bits of 48 decisions with a pattern; a bit flagged gap disagrees (R164). -/
def syncScore (h : List BitRec) (p : Int) (pattern : List Bool) : Nat :=
  ((pattern.zipIdx).filter fun e =>
    match histAt h (p + e.2) with
    | some b => b.tent == e.1 && !b.flag.testBit 3
    | none => false).length

/-- The found mark of a window about a centre: the best hit, nearest the centre, the earlier of equals (R164). Its position and score. -/
def findSync (h : List BitRec) (base centre : Int) (half minScore : Nat) (pattern : List Bool) : Option (Int × Nat) :=
  let ps := (List.range (2 * half + 1)).map fun (i : Nat) => centre - (half : Int) + (i : Int)
  let hits := (ps.map fun p => (p, syncScore h (base + p) pattern)).filter fun e => decide (minScore ≤ e.2)
  hits.foldl (fun best e =>
    match best with
    | none => some e
    | some b =>
      if b.2 < e.2 then some e
      else if b.2 = e.2 ∧ (e.1 - centre).natAbs < (b.1 - centre).natAbs then some e else some b) none

/-- Two origins agree (R165). -/
def originsAgree (tol : Nat) (a b : Int) : Bool := decide ((a - b).natAbs ≤ tol)

/-- The middle of three numbers. -/
def median3 (a b c : Int) : Int := max (min a b) (min (max a b) c)

/-- The decision of R166 from the available origins: the framings in order, whether they are two candidates, and the code. -/
def syncDecide (tol : Nat) (a b p : Option Int) : List Int × Bool × Nat :=
  match a, b, p with
  | some a, some b, some p =>
    let ab := originsAgree tol a b
    let ap := originsAgree tol a p
    let bp := originsAgree tol b p
    if (ab && ap) || (ab && bp) || (ap && bp) then ([median3 a b p], false, 0)
    else if ap then ([a, p], false, 2)
    else if bp then ([b, p], false, 4)
    else if ab then ([a, b], false, 5)
    else ([a, b], true, 7)
  | some a, none, some p => if originsAgree tol a p then ([a, p], false, 1) else ([a, p], true, 8)
  | none, some b, some p => if originsAgree tol b p then ([b, p], false, 3) else ([b, p], true, 9)
  | some a, some b, none => if originsAgree tol a b then ([a, b], false, 6) else ([a, b], true, 7)
  | none, none, some p => ([p], false, 10)
  | some a, none, none => ([a], false, 11)
  | none, some b, none => ([b], false, 12)
  | none, none, none => ([], false, 13)

/-- Drops a fallback equal to the origin used (R167). -/
def dedupOrigins (l : List Int) : List Int :=
  match l with
  | [x, y] => if x = y then [x] else [x, y]
  | l => l

/-- The windows of a sector's sync search, as its centre and half-width, SYNC-A first (R146, R163): with the offset learned about the prediction as
issued; SYNC-B about the prediction, or about a SYNC-A found without one, or with neither about the offset-free prediction. -/
def Chip.windowA (c : Chip) (u : Nat) : Int × Nat :=
  (64, if c.learned u then c.rd (F.jd_sync_win (u / 4)) else c.rd (F.jd_acq_win (u / 4)))

def Chip.windowB (c : Chip) (u : Nat) (pAvail : Bool) (oA : Option Int) : Int × Nat :=
  let win := c.rd (F.jd_sync_win (u / 4))
  if pAvail then (10144, win)
  else
    match oA with
    | some o => (o + 10144, win)
    | none => (10144 - roundDiv (c.phaseOffset u) 64, c.rd (F.jd_acq_win (u / 4)))

/-- What a sync decision comes to: nothing to decide, a codeword in a slot, or a sector that ends without one for its cause: 2 no sync, 7 slot overrun
(R169, R178). -/
inductive SyncEnd where
  | nothing
  | slot (x : DecSlot)
  | none_ (x : DecSlot) (cause : Nat)
deriving DecidableEq, Repr

/-- The sync decision of a unit's oldest sector without one (R162 to R166, R169, R170, R178): marks are sought, the framing is decided and
reported; a framed codeword takes a slot or is a slot overrun. -/
def Chip.syncDecision (c : Chip) (u : Nat) : Chip × SyncEnd :=
  let d := u / 4
  let s := c.unitSt u
  match s.secs.reverse.find? fun x => !x.decided with
  | none => (c, .nothing)
  | some x =>
    let pAvail := c.learned u && !x.predOff
    let mn := c.rd (F.jd_sync_min d)
    let wa := c.windowA u
    let a := findSync s.hist x.base wa.1 wa.2 mn syncA
    let oA := a.map (·.1 - 64)
    let wb := c.windowB u pAvail oA
    let b := findSync s.hist x.base wb.1 wb.2 mn syncB
    let oB := b.map (·.1 - 10144)
    let dec := syncDecide (c.rd (F.jd_tol d)) oA oB (if pAvail then some 0 else none)
    let report := dec.2.2 + 32 * x.flywheel.toNat
    let c := (((c.wr (F.sync_report u) report).wr (F.sync_score_a u) ((a.map (·.2)).getD 0)).wr (F.sync_score_b u) ((b.map (·.2)).getD 0)).wri
      (F.sync_disp u) (clampInt 31 (dec.1.headD 0))
    let c := if dec.2.1 then
        (c.bump (F.syncstat_pairs u)).raiseUnit u 5 ([1, u % 4] ++ beBytes 4 x.psa)
      else c
    let c := c.modUnit u fun s => { s with
      lastDecided := x.psa, secs := s.secs.map fun y => if y.base = x.base then { y with decided := true } else y }
    let origins := dedupOrigins dec.1
    let slot : DecSlot := { (default : DecSlot) with
      psa := x.psa, offset := x.offset, sync := report, base := x.base, origins := if s.verifying then origins.take 1 else origins
      twoCand := dec.2.1 && !s.verifying, verify := s.verifying, setB := c.eqSet u x.base == 1, pUsed := pAvail
      feedback := x.fbLow != [] || x.fbHigh != [] }
    if origins = [] then (c, .none_ slot 2)
    else if 4 ≤ s.slots.length then
      ((c.bump (F.decCnt_overruns u)).raiseUnit u 6 ([2, u % 4] ++ beBytes 4 x.psa ++ [7]), .none_ slot 7)
    else (c.modUnit u fun s => { s with slots := s.slots ++ [slot] }, .slot slot)

end Sys2Proof.Machine
end

