-- ==== Sys2Proof/Machine/Format.lean ====
section
/-! DEFINITION. The sector code (R171 to R177) and the sector format on the disc (R65 to R71, R102): encoding, decoding by segments, and
the channel bits and write symbols of a slot. -/
namespace Sys2Proof.Machine

/-! ### The parity-check matrix (R171 to R173) -/

/-- The non-zero blocks of H as (block row, block column, shift): information columns first, in column order, then the parity columns. -/
def ldpcBlocks : List (Nat × Nat × Nat) :=
  ((List.range 257).flatMap fun j =>
    (List.range (if j < 213 then 4 else 3)).map fun q => ((5 * j + 12 * q) % 47, j, (37 * j * (q + 1) + 11 * q) % 128))
  ++ [(0, 257, 1), (23, 257, 0), (46, 257, 1)]
  ++ (List.range 46).flatMap fun t => [(t, 258 + t, 0), (t + 1, 258 + t, 0)]

/-- The blocks of a block row as (block column, shift, number of the block in H). -/
def rowBlocks (r : Nat) : List (Nat × Nat × Nat) :=
  ((ldpcBlocks.zipIdx).filter fun e => e.1.1 == r).map fun e => (e.1.2.1, e.1.2.2, e.2)

/-- A block of 128 bits with bit i of the number standing for element i. -/
def blockOf (bs : List Bool) : Nat := bs.foldr (fun b a => b.toNat + 2 * a) 0

/-- The elements of a block. -/
def blockBits (v : Nat) : List Bool := (List.range 128).map fun i => v.testBit i

/-- shift(v, s)[i] = v[(i + s) mod 128] (R173). -/
def blockShift (v s : Nat) : Nat := (v / 2 ^ s + v * 2 ^ (128 - s)) % 2 ^ 128

/-- The blocks of a bit string. -/
def blocksOf (n : Nat) (bs : List Bool) : List Nat := (List.range n).map fun j => blockOf ((bs.drop (128 * j)).take 128)

/-- The sums a[r] over the information columns (R173). -/
def rowSums (us : List Nat) : List Nat :=
  (List.range 47).map fun r => (rowBlocks r).foldl (fun a e => if e.1 < 257 then a ^^^ blockShift (us.getD e.1 0) e.2.1 else a) 0

/-- The parity blocks from p[t] on: p[t + 1] = a[t] ⊕ p[t] ⊕ (p[0] when t = 23) (R173). -/
def parityFrom (as_ : List Nat) (p0 : Nat) : Nat → Nat → Nat → List Nat
  | 0, _, _ => []
  | n + 1, t, p =>
    let q := as_.getD t 0 ^^^ p ^^^ (if t = 23 then p0 else 0)
    q :: parityFrom as_ p0 n (t + 1) q

/-- The 47 parity blocks of the information blocks (R173). -/
def parityBlocks (us : List Nat) : List Nat :=
  let a := rowSums us
  let p0 := a.foldl (· ^^^ ·) 0
  let p1 := a.getD 0 0 ^^^ blockShift p0 1
  p0 :: p1 :: parityFrom a p0 45 1 p1

/-- The codeword of 32,896 information bits (R67, R173). -/
def ldpcEncode (info : List Bool) : List Bool := info ++ (parityBlocks (blocksOf 257 info)).flatMap blockBits

/-! ### Decoding (R174, R175) -/

/-- The edges of one check row: bit and message number. -/
def rowEdges (bl : List (Nat × Nat × Nat)) (i : Nat) : List (Nat × Nat) :=
  bl.map fun e => (128 * e.1 + (i + e.2.1) % 128, 128 * e.2.2 + i)

/-- One check row of a layer: messages and posteriors after it (R174). -/
def checkRow (beta : Int) (es : List (Nat × Nat)) (st : Array Int × Array Int) : Array Int × Array Int :=
  let qs := es.map fun e => clampInt 511 (st.1.getD e.1 0 - st.2.getD e.2 0)
  let z := qs.zipIdx
  (es.zip z).foldl (fun st e =>
    let others := (z.filter fun o => o.2 != e.2.2).map (·.1)
    let mag : Int := (others.map fun q => (q.natAbs : Int)).foldl min 511
    let neg := (others.filter fun q => q < 0).length % 2 = 1
    let v := min (max (mag - beta) 0) 127
    let m := if neg then -v else v
    (st.1.setIfInBounds e.1.1 (clampInt 511 (e.2.1 + m)), st.2.setIfInBounds e.1.2 m)) st

/-- One iteration over the 47 block rows (R174). -/
def ldpcIteration (beta : Int) (st : Array Int × Array Int) : Array Int × Array Int :=
  (List.range 47).foldl (fun st r =>
    let bl := rowBlocks r
    (List.range 128).foldl (fun st i => checkRow beta (rowEdges bl i) st) st) st

/-- Unsatisfied rows of H at the hard decisions of the posteriors (R174). -/
def syndromeWeight (l : Array Int) : Nat :=
  ((List.range 47).map fun r =>
    let bl := rowBlocks r
    ((List.range 128).filter fun i => ((rowEdges bl i).filter fun e => 0 < l.getD e.1 0).length % 2 == 1).length).sum

/-- What a decode segment ends with: posteriors, messages, iterations used by the attempt so far, syndrome weights after its last iteration
and after iteration 3. -/
structure Segment where
  post : Array Int
  msgs : Array Int
  iters : Nat
  weight : Nat
  synd3 : Nat

/-- Runs at most `n` iterations of an attempt with a limit (R174, R175, R180). -/
def ldpcRun (beta : Int) (limit : Nat) : Nat → Segment → Segment
  | 0, g => g
  | n + 1, g =>
    if limit ≤ g.iters then g
    else
      let st := ldpcIteration beta (g.post, g.msgs)
      let w := syndromeWeight st.1
      let it := g.iters + 1
      let g' : Segment := ⟨st.1, st.2, it, w, if it = 3 then w else g.synd3⟩
      if w = 0 then g' else ldpcRun beta limit n g'

/-- The hard decisions of posteriors (R174). -/
def hardBits (post : List Int) : List Bool := post.map fun l => decide (0 < l)

/-- Bits whose decision differs from the sign of their LLR; LLRs of zero are not counted (R176). -/
def correctedBits (lam post : List Int) : Nat :=
  ((lam.zip post).filter fun e => e.1 != 0 && (decide (0 < e.1) != decide (0 < e.2))).length

/-! ### Sector header (R70) -/

/-- The header with its CRC. -/
def sectorHeader (psa kind seq frond pinna run : Nat) : Nat :=
  let v := psa % 2 ^ 31 * 2 ^ 97 + kind % 8 * 2 ^ 94 + seq % 2 ^ 14 * 2 ^ 80 + frond % 2 ^ 48 * 2 ^ 32 + pinna % 32 * 2 ^ 27
    + run % 256 * 2 ^ 19 + 1 * 2 ^ 16
  v + crc16 (beBits 112 (v / 2 ^ 16))

def headerPsa (h : Nat) : Nat := h / 2 ^ 97 % 2 ^ 31
def headerKind (h : Nat) : Nat := h / 2 ^ 94 % 8
def headerSeq (h : Nat) : Nat := h / 2 ^ 80 % 2 ^ 14
def headerFrond (h : Nat) : Nat := h / 2 ^ 32 % 2 ^ 48
def headerPinna (h : Nat) : Nat := h / 2 ^ 27 % 32
def headerRun (h : Nat) : Nat := h / 2 ^ 19 % 256

/-- The header's CRC holds and its address is that of the slot (R71). -/
def headerGood (h psa : Nat) : Bool := crc16 (beBits 112 (h / 2 ^ 16)) == h % 2 ^ 16 && headerPsa h == psa

/-- The codeword of a slot: user bytes, header, parity (R67). -/
def sectorCodeword (user : List Nat) (header : Nat) : List Bool := ldpcEncode (bytesBits (padTo 4096 user) ++ beBits 128 header)

/-! ### Scrambling, DC control, framing, classes (R65 to R69, R102) -/

/-- The scrambled codeword of a slot at an address (R68). -/
def scramble (psa : Nat) (cw : List Bool) : List Bool :=
  (cw.zip (scramblerBits cw.length (scramblerSeed psa))).map fun e => e.1 != e.2

/-- Running digital sum of a word. -/
def wordSum (w : List Bool) : Int := (w.map fun b => if b then (1 : Int) else -1).sum

/-- The words of R69: each takes the form with the smaller absolute running sum at its end, flag 0 on a tie. -/
def dcWords : Nat → Int → List Bool → List Bool
  | 0, _, _ => []
  | n + 1, s, bs =>
    let w := bs.take 32
    let plain := s - 1 + wordSum w
    let flipped := s + 1 - wordSum w
    if flipped.natAbs < plain.natAbs then (true :: w.map (!·)) ++ dcWords n flipped (bs.drop 32)
    else (false :: w) ++ dcWords n plain (bs.drop 32)

/-- The 40,320 channel bits of a slot from its codeword and address (R65, R66). -/
def channelBits (psa : Nat) (cw : List Bool) : List Bool :=
  let pay := dcWords 1216 0 (scramble psa cw)
  beBits 64 0xF0F0F0F0F0F0F0F0 ++ syncA ++ pay.take 10032 ++ syncB ++ pay.drop 10032 ++ beBits 32 0xCCCCCCCC

/-- Runs of equal bits as (bit, length). -/
def bitRuns : List Bool → List (Bool × Nat)
  | [] => []
  | b :: t =>
    match bitRuns t with
    | (v, n) :: r => if v = b then (v, n + 1) :: r else (b, 1) :: (v, n) :: r
    | [] => [(b, 1)]

/-- The length class of a run (R102). -/
def lengthClass (n : Nat) : Nat := if n ≤ 4 then n else if n ≤ 6 then 5 else if n ≤ 10 then 6 else 7

/-- Write symbols of channel bits: the bit and its run's class (R102). -/
def writeSymbols (bs : List Bool) : List Nat :=
  (bitRuns bs).flatMap fun r => List.replicate r.2 (8 * r.1.toNat + lengthClass r.2)

/-- The ideal levels of a sector's channel bits, for feedback: the bits before the sector are those of a postamble (R65, R159, R160). -/
def sectorLevels (unit : Int) (taps : List Int) (bits : List Bool) : List Int :=
  let all := [true, true, false, false] ++ bits
  (List.range bits.length).map fun i => idealLevel unit taps ((List.range 5).map fun j => all.getD (i + 4 - j) false)

end Sys2Proof.Machine
end

