-- ==== Sys2Proof/Machine/Burn.lean ====
section
/-! DEFINITION. Burning and read-after-write (06_burning_and_verify.md): the run queue, optimum power calibration, slots, verify and
rewrite, and the closing of spoiled runs. -/
namespace Sys2Proof.Machine

/-! ### Descriptors (R199) -/

/-- A run descriptor read from its 32 bytes (R199). -/
def parseDesc (b : List Nat) : RunDesc :=
  let f (o n : Nat) : Nat := leNat ((b.drop o).take n)
  ⟨f 0 6, f 6 1, f 7 1, if f 8 1 = 0 then 256 else f 8 1, f 9 1 % 2, f 9 1 / 2 % 8, f 16 8, f 24 8, false⟩

/-- Enqueues a descriptor; ignored when sixteen are queued (R199). -/
def Chip.enqueueRun (c : Chip) (d : Nat) (q : RunDesc) : Chip :=
  if 16 ≤ (c.burnSt d).queue.length then c
  else (c.modBurn d fun b => { b with queue := b.queue ++ [q] }).refreshQueue d

/-- A descriptor's DRAM address is written to ccom.burn.q. -/
def execBurnQueueWrite (d addr : Nat) (s : State) : Host.Outcome State Fault Refusal :=
  s.nextChip (s.chip.enqueueRun d (parseDesc (memReads s.dram addr 32)))

/-! ### Powers (R205, R209 to R212) -/

/-- P × (r / rCal)^(γ / 256), rounded to 1 µW: the largest P' with P' − 1/2 at most the exact power (R205, R594). -/
def scalePower (p r rCal gamma : Nat) : Nat :=
  bisect (fun q => decide ((2 * q - 1) ^ 256 * rCal ^ gamma ≤ (2 * p) ^ 256 * r ^ gamma)) 20 0

/-- The power of a beam from its last calibration, at a radius (R205). -/
def Chip.beamPower (c : Chip) (d b layer r : Nat) : Nat :=
  let g := portRegion d
  let p := scalePower (c.rd (F.opcLast_p_opt d b)) r (radiusUm (psaBand (c.rd (F.opcLast_test_psa d b)))) (c.rd (F.opcCtrl_gamma g))
  max (c.rd (F.opcLayer_p_min g layer)) (min (c.rd (F.opcLayer_p_max g layer)) p)

/-- The centre power of a calibration's first test block (R209). -/
def Chip.centrePower (c : Chip) (d b side layer testPsa : Nat) : Nat :=
  let g := portRegion d
  if c.rdb (F.opcLast_valid d b) && c.rd (F.opcLast_side d b) == side && c.rd (F.opcLast_layer d b) == layer then
    scalePower (c.rd (F.opcLast_p_opt d b)) (radiusUm (psaBand testPsa)) (radiusUm (psaBand (c.rd (F.opcLast_test_psa d b)))) (c.rd (F.opcCtrl_gamma g))
  else c.rd (F.opcLayer_p_def g layer)

/-- P_j of step j, rounded to 1 µW (R209). -/
def stepPower (pc s j : Nat) : Nat := (roundDiv ((pc : Int) * (200 + (2 * (j : Int) - 7) * s)) 200).toNat

/-- The mean of measured values; with none the spec states no value. DESIGN CHOICE, notes/assumptions/27.md. -/
def meanOf (l : List Int) : Rat := if l = [] then (Config.quotByZero 0 : Rat) else (l.sum : Rat) / ((l.length : Int) : Rat)

/-- β from A_hi, A_lo and x_0 (R210). -/
def betaOf (hi lo x0 : Rat) : Rat :=
  let n := (hi - x0) + (lo - x0)
  if hi = lo then (Config.quotByZero n.floor : Rat) else n / (hi - lo)

/-- β of the resampler outputs of one step: maximum and minimum over each whole block of 64 bits, mean over all (R210). A last block with fewer bits has no
maximum and minimum. DESIGN CHOICE, notes/assumptions/27.md. -/
def stepBeta (xs : List Int) : Rat :=
  let blocks := (List.range (xs.length / 64)).map fun i => (xs.drop (64 * i)).take 64
  betaOf (meanOf (blocks.map fun b => b.foldl max (b.headD 0))) (meanOf (blocks.map fun b => b.foldl min (b.headD 0))) (meanOf xs)

/-- The calibrated power from the step powers and the measured β (R211); none without a crossing. -/
def crossing (target : Rat) (margin : Int) (ps : List Nat) (bs : List Rat) : Option Nat :=
  ((List.range 7).find? fun j => decide (bs.getD j 0 ≤ target) && decide (target < bs.getD (j + 1) 0)).map fun j =>
    let b0 := bs.getD j 0
    let p0 : Rat := (ps.getD j 0 : Int)
    let p1 : Rat := (ps.getD (j + 1) 0 : Int)
    (roundHalfUp ((p0 + (target - b0) / (bs.getD (j + 1) 0 - b0) * (p1 - p0)) * (1 + (margin : Rat) / 400))).toNat

/-- A result is plausible (R211). -/
def plausible (pMin pMax : Nat) (bs : List Rat) (p : Nat) : Bool :=
  ((bs.zip (bs.drop 1)).all fun e => decide (e.1 - 1 / 100 ≤ e.2)) && decide (pMin ≤ p) && decide (p ≤ pMax)

/-- The next centre power of a beam that failed (R212). -/
def nextCentre (target : Rat) (s pc : Nat) (bs : List Rat) : Nat :=
  if bs.all fun b => decide (b ≤ target) then (roundDiv ((pc : Int) * (100 + 4 * s)) 100).toNat
  else if bs.all fun b => decide (target < b) then (roundDiv ((pc : Int) * (100 - 4 * s)) 100).toNat
  else pc

/-! ### Calibration (R206 to R212, R313, R597) -/

/-- Test blocks of the inner and the outer test zone (R73). -/
def innerTests : Nat := 2176
def outerTests : Nat := 5280

/-- A test zone's blocks are used up. -/
def usedUp (n : Nat) (t : Option Nat) : Bool := t.any fun k => decide (n ≤ k)

/-- A layer-side with both test zones used up is closed to burning (R85). -/
def LayerSide.isClosed (l : LayerSide) : Bool := l.closed || (usedUp innerTests l.testIn && usedUp outerTests l.testOut)

/-- The test zone that the catalogue has no entry for, the inner one first (R84). -/
def LayerSide.unknownTest (l : LayerSide) : Option Bool :=
  if l.testIn.isNone then some true else if l.testOut.isNone then some false else none

/-- The position of a block of a test zone. -/
def testPosition (inner : Bool) (n : Nat) : Nat := if inner then n else outerTestStart + n

/-- The test zone whose next block lies nearer the radius of a run's first position; the inner one on a tie, the other when one is used up
(R207). The block's position and whether it is an inner one. -/
def chooseTest (l : LayerSide) (first : Nat) : Option (Nat × Bool) :=
  let pin := testPosition true (l.testIn.getD 0)
  let pout := testPosition false (l.testOut.getD 0)
  let dist (p : Nat) : Nat := ((radiusUm (bandOf p) : Int) - radiusUm (bandOf first)).natAbs
  if usedUp innerTests l.testIn then if usedUp outerTests l.testOut then none else some (pout, false)
  else if usedUp outerTests l.testOut then some (pin, true)
  else if dist pin ≤ dist pout then some (pin, true) else some (pout, false)

/-- The first position of a run on a layer-side, when it has room (R82, R83, R200). -/
def runPlace (next : Nat) (spoiled : Bool) : Option Nat :=
  if next + 4160 ≤ spareStart then some (max next userStart)
  else if spoiled && decide (max next spareStart + 4160 ≤ outerTestStart) then some (max next spareStart)
  else none

/-- The record of a pinna. -/
def Chip.pinna (c : Chip) (frond pinna : Nat) : Option PinnaRec := (findFrond c.cat.fronds frond).bind fun f => f.pinnae[pinna]?

/-- A pinna was spoiled or abandoned on a layer-side of a disc (R83). -/
def Chip.spoiledOn (c : Chip) (frond pinna disc ls : Nat) : Bool :=
  (c.pinna frond pinna).any fun p => p.spoils.any fun e => e.1 == disc && e.2.1 == ls

/-- Where the run at the head of a drive's queue would begin (R200). -/
def Chip.headPlace (c : Chip) (d : Nat) (q : RunDesc) : Option Nat :=
  match c.loadedDisc d with
  | none => none
  | some (disc, _) =>
    let ls := 8 * q.side + q.layer
    if (c.layerSide disc ls).isClosed then none
    else runPlace (psaPosition (c.rd (F.burnNext_psa d q.layer))) (c.spoiledOn q.frond q.pinna disc ls)

/-- Sets the next free block of a test zone; a layer-side whose zones are then used up is closed to burning; the record is journaled (R84, R85, R207). -/
def Chip.setTest (c : Chip) (disc ls : Nat) (inner : Bool) (n : Nat) : Chip :=
  let c := c.modSide disc ls fun l => if inner then { l with testIn := some n } else { l with testOut := some n }
  (c.modSide disc ls fun l => { l with closed := l.isClosed }).logSide disc ls

/-- Takes the next test block of a calibration: the catalogue's entry is advanced, and the block is burned once that is durable; a zone without an entry is
searched first (R84, R207, R209). None when both test zones are used up. -/
def Chip.takeTest (c : Chip) (d : Nat) (q : RunDesc) (first : Nat) (k : CalSt) : Option Chip :=
  match c.loadedDisc d with
  | none => none
  | some (disc, _) =>
    let ls := 8 * q.side + q.layer
    let l := c.layerSide disc ls
    let begin_ (c : Chip) (k : CalSt) : Chip := c.modBurn d fun b => { b with cal := some k }
    match l.unknownTest with
    | some inner => some (begin_ c { k with search := some (inner, 0, if inner then innerTests else outerTests) })
    | none =>
      (chooseTest l first).map fun t =>
        let c := c.setTest disc ls t.2 ((if t.2 then l.testIn else l.testOut).getD 0 + 1)
        let psa := positionPsa q.side q.layer t.1 0
        let centre := if k.centre = [] then (List.range 4).map fun b => c.centrePower d b q.side q.layer psa else k.centre
        begin_ c { k with blocks := k.blocks + 1, psa := psa, centre := centre, slot := 0, lsn := c.catLsn, edges := [], search := none }

/-- A fresh calibration. -/
def freshCal (forClose : Bool) : CalSt := { (default : CalSt) with need := [0, 1, 2, 3], forClose := forClose }

/-- Nothing is being burned, calibrated or closed on a drive. -/
def BurnSt.idle (b : BurnSt) : Bool := b.run.isNone && b.cal.isNone && b.close.isNone

/-- A drive may burn: burn_ok, a disc of the catalogue loaded without an open run, no extent being read, nothing burned (R127, R222, R321). -/
def Chip.burnReady (c : Chip) (d : Nat) : Bool :=
  c.mayBurn d && (c.loadedDisc d).isSome && !c.rdb (F.burnStatus_open d) && (c.readSt d).cur.isNone && (c.burnSt d).idle

/-- A calibration fails on its last test block (R212, R224): counted, reported, the queued descriptors of the pinna returned; a run to be closed stays open
until the disc's next load. -/
def Chip.calFailed (c : Chip) (d : Nat) (q : RunDesc) : Chip :=
  let c := (c.bump (F.burnCnt_opc_fail d)).raiseClu d 8 7 (0 :: beBytes 8 q.frond ++ [q.pinna, q.run] ++ beBytes 8 0)
  if (c.burnSt d).close.isSome then
    ((c.writeOver d).modBurn d fun b => { b with noClose := true }).returnPlaced d q.frond q.pinna q.run
  else (c.writeOver d).returnPinna d q.frond q.pinna q.run

/-- The calibration before a terminator begins once the position for it is found (R224); both test zones used up, it fails. -/
def Chip.calibrateClose (c : Chip) (d : Nat) : Chip :=
  let b := c.burnSt d
  match b.close, b.cal with
  | some x, none =>
    if x.found.isNone || x.slot ≠ 0 then c
    else if !c.strategyDone d then c.sendStrategy d
    else (c.takeTest d x.desc x.firstPos (freshCal true)).getD (c.calFailed d x.desc)
  | _, _ => c

/-- The run at the head of the queue is calibrated, or its pinna is returned for want of room (R200, R206, R313); strategy entries that have changed are
written first (R203). A run of OVERBURN takes no calibration (R426). The calibration of a closing that waited for the strategy begins here too (R224). -/
def Chip.calibrationStart (c : Chip) (d : Nat) : Chip :=
  if (c.burnSt d).close.isSome then c.calibrateClose d
  else
    match (c.burnSt d).queue.head? with
    | none => c
    | some q =>
      if q.overburn || !c.burnReady d || c.rd (F.discStatus_side d) != q.side then c
      else
        match c.headPlace d q with
        | none => c.returnPinna d q.frond q.pinna q.run
        | some p =>
          if !c.strategyDone d then c.sendStrategy d
          else
            match c.takeTest d q p (freshCal false) with
            | some c => c.wr (F.burnStatus_state d) 1
            | none => c.returnPinna d q.frond q.pinna q.run

def baseRunCalibrationStart (d : Nat) (s : State) : Host.Outcome State Fault Refusal := s.nextChip (s.chip.calibrationStart d)

/-- The descriptor a calibration serves and the first position its test zone is chosen by: the head of the queue, or the run being closed. -/
def Chip.calFor (c : Chip) (d : Nat) (k : CalSt) : Option (RunDesc × Nat) :=
  if k.forClose then (c.burnSt d).close.map fun x => (x.desc, x.firstPos)
  else (c.burnSt d).queue.head?.map fun q => (q, (c.headPlace d q).getD userStart)

/-- The resampler outputs of a beam over a step of its test slot, oldest first: the first 64 channel bits after each change of power left out (R209, R210). -/
def Chip.stepBits (c : Chip) (d b : Nat) (k : CalSt) (j : Nat) : List Int :=
  let s := c.unitSt (4 * d + b)
  match s.secs.find? fun x => x.psa == k.psa + b with
  | none => []
  | some x =>
    let edge (i : Nat) : Int := x.base + (k.edges.getD i 0 : Nat)
    ((s.hist.filter fun r => decide (edge (2 * j) + 64 ≤ r.idx) && decide (r.idx < edge (2 * j + 2))).map (·.x)).reverse

/-- Takes one beam's measurement (R210 to R212): a plausible result is kept, otherwise a new centre power. -/
def Chip.takeBeam (c : Chip) (d : Nat) (q : RunDesc) (psa : Nat) (x : Chip × CalSt) (b : Nat) (bs : List Rat) : Chip × CalSt :=
  let g := portRegion d
  let s := c.rd (F.opcCtrl_step g)
  let target : Rat := (c.rdi (F.opcCtrl_beta_target g) : Rat) / 1000
  let pc := x.2.centre.getD b 0
  let r := crossing target (c.rdi (F.opcCtrl_margin g)) ((List.range 8).map fun j => stepPower pc s j) bs
  match r.filter fun p => plausible (c.rd (F.opcLayer_p_min g q.layer)) (c.rd (F.opcLayer_p_max g q.layer)) bs p with
  | some p =>
    (((((x.1.wr (F.opcLast_p_opt d b) p).wr (F.opcLast_layer d b) q.layer).wr (F.opcLast_side d b) q.side).wr (F.opcLast_valid d b) 1).wr
      (F.opcLast_test_psa d b) psa, { x.2 with need := x.2.need.filter (· != b) })
  | none => (x.1, { x.2 with centre := x.2.centre.set b (nextCentre target s pc bs) })

/-- Write mode ends (R202). -/
def Chip.endWriting (c : Chip) (d : Nat) : Chip :=
  (portUnits d).foldl (fun c u => c.modUnit u fun s => { s with verifying := false })
    ((c.pointFlag d 2 false).modLink d fun l => { l with mode := if l.mode = 2 then 1 else l.mode })

/-- A test block that is burned and measured: β of each beam's eight steps gives its power or a new centre; with a beam left over the next test block
is taken, up to `tries` (R210 to R212). -/
def Chip.opcMeasured (c : Chip) (d : Nat) : Chip :=
  match (c.burnSt d).cal with
  | none => c
  | some k =>
    match c.calFor d k with
    | none => c
    | some (q, first) =>
      if k.slot < 4 || k.need == [] then c
      else
        let c := c.endWriting d
        let r := k.need.foldl (fun x b => c.takeBeam d q k.psa x b ((List.range 8).map fun j => stepBeta (c.stepBits d b k j))) (c, k)
        let c := r.1.modBurn d fun b => { b with cal := some r.2, lines := [] }
        if r.2.need = [] then c
        else if c.rd (F.opcCtrl_tries (portRegion d)) ≤ r.2.blocks then c.calFailed d q
        else (c.takeTest d q first r.2).getD (c.calFailed d q)

def baseOpcMeasureComplete (d : Nat) (s : State) : Host.Outcome State Fault Refusal := s.nextChip (s.chip.opcMeasured d)

/-! ### A run (R198 to R202, R214 to R219, R313) -/

/-- A calibration has a result for every beam. -/
def BurnSt.calibrated (b : BurnSt) (forClose : Bool) : Bool := b.cal.elim false fun k => k.need == [] && k.forClose == forClose

/-- Slot 0 of the run at the head begins at a passage of its first position at or after its launch: the open-run record is written, first_psa journaled.
At a passage at which the cluster is not ready the run becomes late, which is reported when it begins (R199, R219, R313, R321). -/
def Chip.slot0 (c : Chip) (d : Nat) : Chip :=
  match (c.burnSt d).queue.head?, c.loadedDisc d with
  | some q, some (disc, _) =>
    let now := c.skyNs (portDie d)
    if (now < q.launch && q.launch != 0) || (c.burnSt d).run.isSome then c
    else
      let ready := if q.overburn then c.burnReady d && c.strategyDone d
        else (c.burnSt d).calibrated false && c.mayBurn d && (c.readSt d).cur.isNone
      let place := if q.overburn then some (psaPosition q.src) else c.headPlace d q
      match (if ready then place else none) with
      | none => if q.launch = 0 then c else c.modBurn d fun b => { b with missed := some (b.missed.getD now) }
      | some p =>
        let psa := positionPsa q.side q.layer p 0
        let c := if q.overburn then c
          else
            let c := c.modSide disc (8 * q.side + q.layer) fun l => { l with openRun := some (q.frond, q.pinna, q.run, psa) }
            let c := c.modPinna q.frond q.pinna fun p => { p with
              state := if p.state = .complete then p.state else .burning
              firstPsa := (p.firstPsa.filter fun e => e.1 != q.run) ++ [(q.run, psa)] }
            (c.logRunOpen disc q.frond q.pinna q.run q.side q.layer psa).logPinna q.frond q.pinna
        let r : RunSt := { (default : RunSt) with
          desc := q, firstPos := p, openLsn := c.catLsn
          testPsa := ((c.burnSt d).cal.map (·.psa)).getD 0 }
        let delay := now - (c.burnSt d).missed.getD now
        let c := c.modBurn d fun b => { b with run := some r, cal := none, missed := none, tiles := [] }
        let c := (c.wr (F.burnStatus_state d) 2).wr (F.burnStatus_rewrites d) 0
        if 0 < delay then c.raiseClu d 8 7 (2 :: beBytes 8 q.frond ++ [q.pinna, q.run] ++ beBytes 8 delay) else c
  | _, _ => c

def baseRunSlot0Start (d : Nat) (s : State) : Host.Outcome State Fault Refusal := s.nextChip (s.chip.slot0 d)

/-- The rewrite table entry of R78. -/
def rewriteEntry (r : Rewrite) : List Nat := beBytes 2 r.index ++ beBytes 2 r.slot ++ [r.cause, r.outcome.getD 0, 0, 0]

/-- The payload of a run, read for the ledger's digest. -/
def Chip.runPayload (c : Chip) (q : RunDesc) : List Nat := (List.range 16384).flatMap fun i => (c.readSpace 0 (q.src + 4096 * i) 4096).getD []

/-- The ledger record of a run (R78, R216). -/
def Chip.ledger (c : Chip) (d : Nat) (r : RunSt) : List Nat :=
  let q := r.desc
  let used := (r.rewrites.mergeSort fun a b => decide (a.slot ≤ b.slot)).filter fun e => decide (e.slot < 16616)
  let head := beBytes 4 0x4C454447 ++ beBytes 2 1 ++ beBytes 2 used.length ++ beBytes 8 q.frond ++ [q.pinna, q.run, q.runs % 256, 0] ++
    beBytes 4 (positionPsa q.side q.layer r.firstPos 0) ++ beBytes 8 (c.rd (F.discId_id d)) ++ beBytes 8 r.burnStart ++ beBytes 8 r.burnEnd ++
    beBytes 4 r.testPsa ++ (r.power.flatMap (beBytes 2)) ++ beBytes 2 (c.rd F.chain_sys_addr) ++ [0, 0] ++
    (beBytes 48 c.idDigest).take 16 ++ beBytes 48 (Config.sha384 (c.runPayload q))
  let body := padTo 4088 (padTo 0x80 head ++ used.flatMap rewriteEntry)
  body ++ beBytes 8 (crc64 body)

/-- Kind, seq and payload index of a slot of a run (R70, R74 to R77, R215). -/
def RunSt.slotKind (r : RunSt) (n : Nat) : Nat × Nat × Option Nat :=
  if n < 16384 then (0, n, some n)
  else if n < 16616 then
    match r.rewrites.find? fun e => e.slot == n with
    | some e => (1, e.index, some e.index)
    | none => (2, n - 16384, none)
  else if n < 16624 then (2, n - 16384, none)
  else (3, n - 16624, none)

/-- A slot's symbols go to its track's line (R198). -/
def Chip.placeSlot (c : Chip) (d n psa : Nat) (cw : List Bool) : Chip :=
  let sy := writeSymbols (channelBits psa cw)
  c.modBurn d fun b => { b with lines := (List.range 4).map fun t => if t = n % 4 then b.lines.getD t [] ++ sy else b.lines.getD t [] }

/-- Write mode begins with a slot 0: the first symbol follows the commit by ten superframes, and every unit's verify spot reads (R133, R202, R214). -/
def Chip.beginWriting (c : Chip) (d : Nat) : Chip :=
  let c := c.modLink d fun l => { l with mode := 2 }
  (portUnits d).foldl (fun c u => c.modUnit u fun s => { s with verifying := true })
    (c.modBurn d fun b => { b with lines := [[], [], [], []], bitIndex := 0, bitPhase := 0, delay := 10, lastBits := 0, quiet := 0 })

/-- Whether a slot needs a tile: payload and rewrite slots (R198). -/
def RunSt.needsTile (r : RunSt) (n : Nat) : Bool := (r.slotKind n).2.2.isSome && !r.desc.overburn

/-- The next slot whose tile is fetched: payload slots in order and rewrite slots, up to `lead` MiB ahead of the formatter (R201, R215). -/
def RunSt.nextFetch (r : RunSt) (tiles : List (Nat × Nat)) (lead : Nat) : Option Nat :=
  let ahead := r.slot + 256 * lead
  if r.desc.overburn then none
  else if r.fetched < 16384 ∧ r.fetched < ahead then some r.fetched
  else
    let free := r.rewrites.filter fun e => decide (r.slot ≤ e.slot) && decide (e.slot < ahead) && !tiles.any fun t => t.1 == e.slot
    ((free.map (·.slot)).mergeSort (· ≤ ·)).head?

/-- Owner of the tiles that a cluster's formatter holds. DESIGN CHOICE, notes/assumptions/95.md. -/
def formatterOwner (d : Nat) : Nat := 2 ^ 31 + d

/-- The next tile of a run arrives from the moss tier, where its page can be read, a tile is free, and the channels that bring it run (R26, R198, R201). -/
def State.fetchTile (s : State) (d : Nat) : State :=
  let b := s.chip.burnSt d
  match b.run with
  | none => s
  | some r =>
    let g := portRegion d
    match r.nextFetch b.tiles (s.chip.rd (F.burnCtrl_lead d)) with
    | none => s
    | some n =>
      let i := ((r.slotKind n).2.2).getD 0
      if (s.chip.rgnSt g).out || (s.chip.rgnSt g).frozen || s.chip.rdb F.mossStatus_offline then s
      else
        match s.chip.readSpace 0 (r.desc.src + 4096 * i) 4096, s.chip.takeTiles (portDie d) (formatterOwner d) 1 with
        | some bytes, ([t], c) =>
          let c := (c.lookUp 0 (r.desc.src + 4096 * i) 4096).modBurn d fun b => { b with
            tiles := b.tiles ++ [(n, t)], run := some (if n = r.fetched then { r with fetched := r.fetched + 1 } else r) }
          ({ s with chip := c } : State).fillTiles [t] bytes
        | _, _ => s

/-- Some further tiles arrive. -/
def State.fetchTiles (d : Nat) : Nat → State → State
  | 0, s => s
  | n + 1, s => fetchTiles d n (s.fetchTile d)

/-- A run of OVERBURN is burned whole: its descriptor leaves the queue; with no run of its pinna left the pinna is overburned, and with no
pinna left the command completes (R426). -/
def Chip.overDone (c : Chip) (d : Nat) (r : RunSt) : Chip :=
  let q := r.desc
  let c := ((c.stopOver d).modBurn d fun b => { b with queue := b.queue.drop 1 }).refreshQueue d
  if (c.burnSt d).queue.any fun x => x.overburn && x.frond == q.frond && x.pinna == q.pinna then c
  else
    let left := c.svc.overburns.map fun o => if o.2.2.1 = q.frond then (o.1, o.2.1, o.2.2.1, o.2.2.2.filter (· != q.pinna)) else o
    let c := (left.filter fun o => o.2.2.2 == []).foldl (fun c o => c.ok o.1 o.2.1) c
    { c with svc := { c.svc with overburns := left.filter fun o => o.2.2.2 != [] } }

/-- Commits the next slot of a run with the user data of its tile, where it has one: slot 0 begins write mode and fixes burn_start and the powers, the
first ledger copy fixes burn_end and the record, which all copies carry (R77, R198, R214 to R216). Overburned slots carry random bytes (R426). burn_start and
burn_end are the instants at which the first bit is sent on the lanes. DEDUCED, notes/assumptions/29.md. -/
def Chip.commitSlot (c : Chip) (d : Nat) (r : RunSt) (tile : List Nat) : Chip :=
  let n := r.slot
  let q := r.desc
  let t := c.skyNs (portDie d) + 4096
  let c := if n = 0 then c.beginWriting d else c
  let r := if n = 0 then { r with
      burnStart := t
      power := (List.range 4).map fun b =>
        if q.overburn then c.rd (F.opcLayer_p_max (portRegion d) q.layer) else c.beamPower d b q.layer (radiusUm (bandOf r.firstPos)) } else r
  let r := if n = 16624 then { r with burnEnd := t } else r
  let r := if n = 16624 ∧ !q.overburn then { r with ledger := c.ledger d r } else r
  let k := r.slotKind n
  let x := if q.overburn then c.draw else (0, c)
  let user := if q.overburn then beBytes 4096 x.1 else if k.2.2.isSome then tile else if k.1 = 3 then r.ledger else []
  let psa := slotPsa q.side q.layer r.firstPos n
  let cw := sectorCodeword user (sectorHeader psa k.1 k.2.1 q.frond q.pinna q.run)
  let r := { r with slot := n + 1, kept := if q.overburn then [] else r.kept ++ [⟨n, bitsNat cw, k.2.2⟩] }
  ((x.2.placeSlot d n psa cw).wr (F.burnStatus_position d) (n / 4)).modBurn d fun b => { b with run := some r }

/-- The commit of the next slot of a run, once its open-run record is durable: a tile that is not there, or fails its check, interrupts the run (R201, R214,
R219, R379); a tile whose bytes are taken is freed. -/
def State.commitRun (s : State) (d : Nat) (r : RunSt) : State :=
  let c := s.chip
  let n := r.slot
  let chip (c : Chip) : State := { s with chip := c }
  if 16640 ≤ n then (if r.desc.overburn && (c.burnSt d).lines.all (· == []) then chip (c.overDone d r) else s)
  else if n == 0 && !r.desc.overburn && !c.recDurable r.openLsn then s
  else if !r.needsTile n then chip (c.commitSlot d r [])
  else
    match (c.burnSt d).tiles.find? fun e => e.1 == n with
    | none => chip (c.burnInterrupt d 9)
    | some e =>
      if s.tileGood e.2 then
        chip (((c.commitSlot d r (s.tileBytes e.2)).modBurn d fun b => { b with tiles := b.tiles.filter (· != e) }).freeTiles [e.2])
      else chip ((c.poisonTile e.2 4).burnInterrupt d 9)

/-- The commit of the next slot of a test block, once the catalogue's entry is durable and the strategy stands (R203, R207, R208). -/
def Chip.commitTest (c : Chip) (d : Nat) (k : CalSt) : Chip :=
  match c.calFor d k with
  | none => c
  | some (q, _) =>
    if k.search.isSome || k.need == [] || 4 ≤ k.slot || !c.recDurable k.lsn || !c.strategyDone d then c
    else
      let n := k.slot
      let c := if n = 0 then c.beginWriting d else c
      let psa := k.psa + n
      (c.placeSlot d n psa (sectorCodeword [] (sectorHeader psa 5 0 q.frond q.pinna q.run))).modBurn d fun b => { b with cal := some { k with slot := n + 1 } }

/-- First position of a terminator placed at position f of a run (R224, R225). -/
def terminatorPos (firstPos f : Nat) : Nat :=
  if firstPos < spareStart ∧ spareStart ≤ firstPos + f + 1 then spareStart else firstPos + f

/-- The commit of the next slot of a terminator (R81, R224). -/
def Chip.commitTerm (c : Chip) (d : Nat) (x : CloseSt) : Chip :=
  match x.found with
  | none => c
  | some f =>
    if 8 ≤ x.slot || !((c.burnSt d).calibrated true || 0 < x.slot) then c
    else
      let n := x.slot
      let c := if n = 0 then c.beginWriting d else c
      let psa := slotPsa x.desc.side x.desc.layer (terminatorPos x.firstPos f) n
      let user := beBytes 4 (positionPsa x.desc.side x.desc.layer x.firstPos 0)
      let cw := sectorCodeword user (sectorHeader psa 4 n x.desc.frond x.desc.pinna x.desc.run)
      (c.placeSlot d n psa cw).modBurn d fun b => { b with cal := none, close := some { x with slot := n + 1, kept := x.kept ++ [⟨n, bitsNat cw, none⟩] } }

/-- A run is being burned or closed, or a test block is burned or looked for: no read extent begins (R321). DEDUCED, notes/assumptions/29.md. -/
def BurnSt.busy (b : BurnSt) : Bool := b.run.isSome || b.close.isSome || b.cal.any fun k => k.need != []

/-- The commit instant of a slot: an interruption that waits takes no further slot at its position boundary; nothing begins while write inhibit is asserted or
a calibration of the servo runs (R246, R257); else the next slot of the run, the test block or
the terminator is committed (R214, R220). -/
def State.commit (s : State) (d : Nat) : State :=
  let c := s.chip
  let b := c.burnSt d
  let chip (c : Chip) : State := { s with chip := c }
  if b.stop.isSome && (b.ending || b.atBoundary) then chip ((c.modBurn d fun b => { b with ending := true }).burnDrained d)
  else if (c.linkSt d).mode ≠ 2 ∧ (c.rdb (F.srvStatus_wi d) ∨ (c.servoSt d).calStep ≠ 0) then s
  else
    match b.run, b.close, b.cal with
    | some r, _, _ => s.commitRun d r
    | none, some x, some k => chip (if k.need != [] then c.commitTest d k else c.commitTerm d x)
    | none, some x, none => chip (c.commitTerm d x)
    | none, none, some k => chip (c.commitTest d k)
    | none, none, none => s

/-- A slot's commit instant comes, `arrived` further tiles having been fetched by then. A frozen cluster's formatter fetches and commits nothing (R26). -/
def baseSlotCommit (d arrived : Nat) (s : State) : Host.Outcome State Fault Refusal :=
  if (s.chip.cluSt d).frozen then .next s else .next ((s.fetchTiles d arrived).commit d)

/-- The next position boundary of an interrupted burn arrives: nothing further is committed, and when the symbols committed are sent it stops (R220). -/
def baseBurnStop (d : Nat) (s : State) : Host.Outcome State Fault Refusal :=
  let b := s.chip.burnSt d
  if b.stop.isSome && b.atBoundary then s.nextChip ((s.chip.modBurn d fun b => { b with ending := true }).burnDrained d) else .next s

/-! ### Closing a spoiled run (R222 to R226) -/

/-- Layer-sides of a disc that hold an open run. -/
def Chip.openSides (c : Chip) (disc : Nat) : List Nat := (List.range 16).filter fun ls => (c.layerSide disc ls).openRun.isSome

/-- Shows whether the loaded disc holds an open run. -/
def Chip.refreshOpen (c : Chip) (d : Nat) : Chip :=
  match c.loadedDisc d with
  | some (disc, _) => c.wrb (F.burnStatus_open d) ((c.openSides disc) != [])
  | none => c.wr (F.burnStatus_open d) 0

/-- Begins the search for the first unrecorded position of an open run of the loaded side, unless its closing waits for the next load (R222 to R224). -/
def Chip.closeStart (c : Chip) (d : Nat) : Chip :=
  match c.loadedDisc d with
  | none => c
  | some (disc, side) =>
    match (c.openSides disc).find? fun ls => ls / 8 == side with
    | none => c
    | some ls =>
      if !c.mayBurn d || !(c.burnSt d).idle || (c.burnSt d).noClose then c
      else
        match (c.layerSide disc ls).openRun with
        | none => c
        | some (fr, pi, run, psa) =>
          let q : RunDesc := { (default : RunDesc) with frond := fr, pinna := pi, run := run, side := side, layer := ls % 8 }
          let x : CloseSt := { (default : CloseSt) with desc := q, firstPos := psaPosition psa, hi := 4161 }
          (c.modBurn d fun b => { b with close := some x }).wr (F.burnStatus_state d) 3

def execSpoiledRunClose (d : Nat) (s : State) : Host.Outcome State Fault Refusal := s.nextChip (s.chip.closeStart d)

/-- The envelope at each channel bit, newest first, by the bit it is centred on (R151). -/
def envelopes (n : Nat) : List BitRec → List (Int × Int)
  | [] => []
  | b :: t =>
    let w := ((b :: t).take n).map (·.x)
    if w.length = n then (b.idx - ((n - 1) / 2 : Nat), w.foldl max b.x - w.foldl min b.x) :: envelopes n t else []

/-- Channel bits of a unit's sector whose envelope is at least `rec_thr` head sample steps, of four LSBs of x each (R142, R223). -/
def Chip.recordedBits (c : Chip) (u : Nat) (base : Int) : Nat :=
  let least : Int := 4 * (c.rd (F.burnCtrl_rec_thr (u / 4)) : Int)
  ((envelopes (c.rd (F.dfd_env_len u)) (c.unitSt u).hist).filter fun e =>
    decide (base ≤ e.1) && decide (e.1 < base + 40320) && decide (least ≤ e.2)).length

/-- Whether a position is recorded: on some track more than 1,024 channel bits have the envelope of R223. None before a beam has gone over it. -/
def Chip.recordedAt (c : Chip) (d psa : Nat) : Option Bool :=
  let seen := (portUnits d).filterMap fun u =>
    ((c.unitSt u).secs.find? fun x => x.psa - psaTrack x.psa == psa && decide (x.base + 40320 ≤ (c.unitSt u).nextIdx)).map fun x => (u, x.base)
  if seen = [] then none else some (seen.any fun e => decide (1024 < c.recordedBits e.1 e.2))

/-- The next reading of a binary search for the first unrecorded one of a row of positions. -/
def halve (lo hi : Nat) (rec : Bool) : Nat × Nat :=
  let mid := (lo + hi) / 2
  if rec then (mid + 1, hi) else (lo, mid)

/-- Side, layer and position that a search under way reads next (R84, R223). -/
def Chip.searchPlace (c : Chip) (d : Nat) : Option (Nat × Nat × Nat) :=
  let b := c.burnSt d
  match b.cal, b.close with
  | some k, x =>
    k.search.bind fun t => (if k.forClose then x.map (·.desc) else b.queue.head?).map fun q => (q.side, q.layer, testPosition t.1 ((t.2.1 + t.2.2) / 2))
  | none, some x => if x.found.isSome then none else some (x.desc.side, x.desc.layer, x.firstPos + (x.lo + x.hi) / 2)
  | none, none => none

/-- The search for a test zone's next free block goes on; at its end the catalogue has its entry, and the calibration goes on (R84). -/
def Chip.testSearch (c : Chip) (d : Nat) (k : CalSt) (t : Bool × Nat × Nat) (rec : Bool) : Chip :=
  let h := halve t.2.1 t.2.2 rec
  if h.1 < h.2 then c.modBurn d fun b => { b with cal := some { k with search := some (t.1, h) } }
  else
    match c.calFor d k, c.loadedDisc d with
    | some (q, first), some (disc, _) =>
      let c := c.setTest disc (8 * q.side + q.layer) t.1 h.1
      (c.takeTest d q first { k with search := none }).getD (if k.forClose then c.calFailed d q else (c.writeOver d).returnPinna d q.frond q.pinna q.run)
    | _, _ => c

/-- One reading of a search completes, once a beam has gone over the position in the middle (R84, R223); when the first unrecorded position of a run is
found, the terminator is calibrated for (R224). -/
def Chip.closeReading (c : Chip) (d : Nat) : Chip :=
  match (c.searchPlace d).bind fun p => c.recordedAt d (positionPsa p.1 p.2.1 p.2.2 0) with
  | none => c
  | some rec =>
    let b := c.burnSt d
    match b.cal.bind fun k => k.search.map fun t => (k, t), b.close with
    | some (k, t), _ => c.testSearch d k t rec
    | none, some x =>
      let h := halve x.lo x.hi rec
      (c.modBurn d fun b => { b with close := some { x with lo := h.1, hi := h.2, found := if h.1 < h.2 then none else some h.1 } }).calibrateClose d
    | none, none => c

def baseCloseSearchReading (d : Nat) (s : State) : Host.Outcome State Fault Refusal := s.nextChip (s.chip.closeReading d)

/-- A run is closed by its terminator (R224, R226): journaled, the next free position moves past run and terminator, the descriptor at the head
serves again unless the pinna has had its attempts on this disc; a pinna placed elsewhere since is left there. -/
def Chip.closed (c : Chip) (d : Nat) (x : CloseSt) (f : Nat) : Chip :=
  let q := x.desc
  let disc := c.rd (F.discId_id d)
  let term := terminatorPos x.firstPos f
  let c := ((c.endWriting d).writeOver d).bump (F.burnCnt_terminators d)
  let c := c.modSide disc (8 * q.side + q.layer) fun l => { l with openRun := none }
  let c := c.logRunClose disc q.frond q.pinna q.run 1 (positionPsa q.side q.layer x.firstPos 0) (positionPsa q.side q.layer term 0)
  let c := ((c.setNext d q.layer (term + 2)).logSide disc (8 * q.side + q.layer)).refreshOpen d
  if c.rd (F.burnCtrl_abandon_max d) ≤ ((c.pinna q.frond q.pinna).map (·.spoilsOn disc)).getD 0 then c.returnPlaced d q.frond q.pinna q.run else c

/-! ### Verify and rewrite (R213 to R218) -/

/-- The lowest-numbered rewrite slot whose burn has not begun and that no rewrite has taken (R76, R215). -/
def RunSt.freeRewrite (r : RunSt) : Option Nat :=
  ((List.range 232).map (16384 + ·)).find? fun n => decide (r.slot ≤ n) && !r.rewrites.any fun e => e.slot == n

/-- A pinna's runs are all complete. -/
def Chip.pinnaComplete (c : Chip) (fr pi run runs : Nat) : Chip :=
  c.modPinna fr pi fun p =>
    let done := if p.runsDone.contains run then p.runsDone else p.runsDone ++ [run]
    { p with runsDone := done, state := if runs ≤ done.length then .complete else p.state }

/-- A run is complete (R217): journaled, counted, its descriptor leaves the queue; the layer-side's next position lies after its position 4,159 (R82, R200,
R221). -/
def Chip.runComplete (c : Chip) (d : Nat) (r : RunSt) : Chip :=
  let q := r.desc
  let disc := c.rd (F.discId_id d)
  let psa := positionPsa q.side q.layer r.firstPos 0
  let c := c.modBurn d fun b => { b with run := some { r with complete := true }, queue := b.queue.drop 1, missed := none }
  let c := ((c.refreshQueue d).bump (F.burnCnt_complete d)).modSide disc (8 * q.side + q.layer) fun l => { l with openRun := none }
  let c := c.modDisc disc fun k => { k with runs := k.runs ++ [(q.side, q.frond, q.pinna, q.run, psa)] }
  let c := (c.pinnaComplete q.frond q.pinna q.run q.runs).logRunClose disc q.frond q.pinna q.run 0 psa 0
  let c := ((c.logPinna q.frond q.pinna).setNext d q.layer (r.firstPos + 4160)).logSide disc (8 * q.side + q.layer)
  (c.refreshOpen d).raiseClu d 7 7 ([0, 0] ++ beBytes 4 psa ++ beBytes 8 q.frond ++ [q.pinna, q.run])

/-- The verdict of a slot of the run being burned (R76, R79, R213, R215, R217, R218): a failed payload sector or rewrite takes a rewrite slot or
abandons the run; the fourth passing ledger copy completes it; after the sixteenth the run is left. -/
def Chip.runVerdict (c : Chip) (d : Nat) (r : RunSt) (n : Nat) (pass : Bool) (cause : Nat) : Chip :=
  let k := r.kept.find? fun e => e.slot == n
  let r := { r with
    kept := r.kept.filter fun e => e.slot != n
    rewrites := r.rewrites.map fun e => if e.slot = n then { e with outcome := some (if pass then 0 else 1) } else e }
  match k with
  | none => c
  | some w =>
    let put (r : RunSt) : Chip := c.modBurn d fun b => { b with run := some r }
    match w.index with
    | some i =>
      if pass then put r
      else
        match r.freeRewrite with
        | some s =>
          let c := put { r with rewrites := r.rewrites ++ [⟨i, s, cause, none⟩] }
          (c.bump (F.burnCnt_rewrites d)).wr (F.burnStatus_rewrites d) (r.rewrites.length + 1)
        | none => (put r).burnInterrupt d 10
    | none =>
      if n < 16624 then put r
      else
        let r := { r with judged := r.judged + 1, passed := if pass then r.passed + 1 else r.passed }
        let c := put r
        let c := if r.passed = 4 ∧ pass then c.runComplete d r else c
        if 16 ≤ r.judged then
          if 4 ≤ r.passed then (c.endWriting d).leaveRun d else (c.endWriting d).spoilRun d 10 r
        else c

/-- The verdict of a terminator slot (R224). -/
def Chip.termVerdict (c : Chip) (d : Nat) (x : CloseSt) (n : Nat) (pass : Bool) : Chip :=
  if x.kept.any fun e => e.slot == n then
    let x := { x with kept := x.kept.filter fun e => e.slot != n, judged := x.judged + 1, passed := if pass then x.passed + 1 else x.passed }
    let c := c.modBurn d fun b => { b with close := some x }
    if x.judged < 8 then c
    else if 2 ≤ x.passed then c.closed d x (x.found.getD 0)
    else (c.endWriting d).closeLeft d x.desc
  else c

/-- The slot of the run or terminator under way at an address. -/
def slotAt (firstPos psa : Nat) : Nat := 4 * (psaPosition psa - firstPos) + psaTrack psa

/-- The codeword the formatter keeps for a slot at an address (R196, R213). -/
def Chip.keptAt (c : Chip) (d psa : Nat) : Option Nat :=
  let b := c.burnSt d
  match b.run, b.close with
  | some r, _ => (r.kept.find? fun e => e.slot == slotAt r.firstPos psa).map (·.word)
  | none, some x => (x.kept.find? fun e => e.slot == slotAt (terminatorPos x.firstPos (x.found.getD 0)) psa).map (·.word)
  | none, none => none

/-- A verify verdict reaches the formatter: whether the sector passes, and the ledger's cause (R197, R213). -/
def Chip.verifyVerdict (c : Chip) (d psa : Nat) (pass : Bool) (cause : Nat) : Chip :=
  let b := c.burnSt d
  match b.run, b.close with
  | some r, _ => c.runVerdict d r (slotAt r.firstPos psa) pass cause
  | none, some x => c.termVerdict d x (slotAt (terminatorPos x.firstPos (x.found.getD 0)) psa) pass
  | none, none => c

/-! ### Powers of the next set-point area (R205, R209) -/

/-- Every slot of what is being burned is committed. -/
def BurnSt.noMore (b : BurnSt) : Bool :=
  match b.run, b.close, b.cal with
  | some r, _, _ => b.ending || decide (16640 ≤ r.slot)
  | none, some x, none => b.ending || decide (8 ≤ x.slot)
  | none, _, some k => b.ending || decide (4 ≤ k.slot) || k.slot == 0
  | none, none, none => true

/-- write_en in the next set-point area: set in the last area that acts at or before the first channel bit, cleared in the first one that acts at or after the
end of the last slot (R202). The area goes with the next superframe and acts one superframe later, and channel bits are burned two superframes after they are
sent (R104, R114). DEDUCED, notes/assumptions/96.md. -/
def Chip.writeEnable (c : Chip) (d : Nat) : Chip :=
  let b := c.burnSt d
  if b.lines.any (· != []) && decide (b.delay ≤ 4) then c.pointFlag d 2 true
  else if b.lines.all (· == []) && b.noMore && decide (1 ≤ b.quiet) then c.pointFlag d 2 false
  else c

/-- The channel bit burned when the next set-point area acts (R104, R114); see `writeEnable`. -/
def BurnSt.burnedAt (b : BurnSt) : Nat := b.bitIndex - b.lastBits

/-- Write peak powers of the next set-point area (R205, R209): in a test block the centre power, the eight steps of two areas each from the first one after
SYNC-A on, the centre power again; otherwise the calibrated powers at the radius of the current band turn. -/
def Chip.writePowers (c : Chip) (d : Nat) : Chip :=
  let b := c.burnSt d
  let band := c.rd (F.btlStatus_band d)
  let at_ (layer : Nat) : List Nat := (List.range 4).map fun i => c.beamPower d i layer (radiusUm band)
  let set (c : Chip) (p : List Nat) : Chip := (c.setPoint d fun x => { x with pBeam := p }).writeEnable d
  match b.run, b.cal, b.close with
  | some r, _, _ => set c (if r.desc.overburn then r.power else at_ r.desc.layer)
  | none, some k, _ =>
    if k.slot = 0 || k.search.isSome || k.need == [] then set c k.centre
    else
      let s := c.rd (F.opcCtrl_step (portRegion d))
      let n := k.edges.length
      let step := decide (112 ≤ b.burnedAt) && decide (n < 16)
      let c := set c (k.centre.map fun pc => if step then stepPower pc s (n / 2) else pc)
      if 112 ≤ b.burnedAt ∧ n < 17 then c.modBurn d fun b => { b with cal := some { k with edges := k.edges ++ [b.burnedAt] } } else c
  | none, none, some x => set c (at_ x.desc.layer)
  | none, none, none => if (c.linkSt d).point.flags.testBit 1 then c.setPoint d fun x => { x with pBeam := List.replicate 4 (c.servoSt d).readPower } else c

end Sys2Proof.Machine
end

