-- ==== Sys2Proof/Machine/Servo.lean ====
section
/-! DEFINITION. The servo engine (07_servo_engine.md): input stage, compensators, the focus and tracking state machines, requests and
calibration. The period of a whole region is in Release.lean. -/
namespace Sys2Proof.Machine

/-! ### Arithmetic (R236 to R239). Signals in 2^-24 of their unit. -/

/-- Saturation of a signal at ±128 and of a section state at ±32,768 (R236). -/
def sat32 (x : Int) : Int := max (-2 ^ 31) (min (2 ^ 31 - 1) x)
def sat40 (x : Int) : Int := max (-2 ^ 39) (min (2 ^ 39 - 1) x)

/-- A Q3.28 coefficient times a signal, rounded to the signal LSB (R236). -/
def qmul (k x : Int) : Int := roundDiv (k * x) (2 ^ 28)

/-- The parameters of one loop from a bank: sections as (b0, b1, b2, b3, a1, a2, a3), shift, gain, ki, limits, integrator enable. -/
structure LoopPar where
  sections : List (List Int)
  shift : Nat
  gain : Int
  ki : Int
  intMax : Int
  outMax : Int
  intEn : Bool

/-- The loop registers of a cluster's loop: 0 focus, 1 track, 2 tilt, 3 sled. -/
def loopFields (d l : Nat) : List Fld :=
  [F.loopCfg_n_sec d l, F.loopCfg_o3_sec d l, F.loopCfg_o3 d l, F.loopCfg_in_shift d l, F.loopCfg_int_en d l, F.loopK_gain d l, F.loopK_ki d l,
    F.loopLim_int_max d l, F.loopLim_out_max d l] ++
    ((List.range 4).flatMap fun s => (List.range 7).map fun k => F.loopSec_coef d l s k) ++ [F.loopFf_kff d l]

/-- The active bank's loop parameters (R237, R253). -/
def Chip.loopPar (c : Chip) (d l : Nat) : LoopPar :=
  let b := (c.servoSt d).bank
  let g (f : Fld) : Nat := fldGet b f
  let s (f : Fld) : Int := signed f.width (g f)
  let third (i : Nat) : Bool := g (F.loopCfg_o3 d l) == 1 && g (F.loopCfg_o3_sec d l) == i
  { sections := (List.range (g (F.loopCfg_n_sec d l))).map fun i =>
      (List.range 7).map fun k => if (k == 3 || k == 6) && !third i then 0 else s (F.loopSec_coef d l i k)
    shift := g (F.loopCfg_in_shift d l)
    gain := s (F.loopK_gain d l)
    ki := s (F.loopK_ki d l)
    intMax := s (F.loopLim_int_max d l)
    outMax := s (F.loopLim_out_max d l)
    intEn := g (F.loopCfg_int_en d l) == 1 }

/-- One section (R237): coefficients b0, b1, b2, b3, a1, a2, a3. -/
def sectionStep (k : List Int) (st : Int × Int × Int) (x : Int) : (Int × Int × Int) × Int :=
  let g (i : Nat) : Int := k.getD i 0
  let y := sat32 (qmul (g 0) x + st.1)
  ((sat40 (qmul (g 1) x - qmul (g 4) y + st.2.1), sat40 (qmul (g 2) x - qmul (g 5) y + st.2.2), sat40 (qmul (g 3) x - qmul (g 6) y)), y)

/-- The sections in order. -/
def runSections : List (List Int) → List (Int × Int × Int) → Int → List (Int × Int × Int) × Int
  | [], st, x => (st, x)
  | k :: ks, st, x =>
    let r := sectionStep k (st.headD (0, 0, 0)) x
    let t := runSections ks (st.drop 1) r.2
    (r.1 :: t.1, t.2)

/-- One period of a loop (R238, R239): error, feed-forward, injection, integrator hold. The state after it, and the raw output before the
injection. -/
def loopStep (p : LoopPar) (e ff inj : Int) (hold : Bool) (st : LoopSt) : LoopSt × Int :=
  let x0 := sat32 (e * 2 ^ p.shift)
  let r := runSections p.sections st.sec x0
  let v := qmul p.gain r.2
  let i := if p.intEn && !hold && !st.sat then max (-p.intMax) (min p.intMax (st.integ + qmul p.ki x0)) else st.integ
  let raw := v + i + ff
  let u := max (-p.outMax) (min p.outMax (raw + inj))
  (⟨r.1, i, u, u != raw + inj⟩, raw)

/-- A loop as it closes: sections at zero, the integrator as named (R239). -/
def closedLoop (i : Int) : LoopSt := ⟨[], i, i, false⟩

/-- A demand in units of 10 µA from an output, and back (R240). -/
def demand10 (u : Int) : Int := max (-32768) (min 32767 (roundDiv (u * 32767) (2 ^ 24)))
def fromDemand (x : Int) : Int := roundDiv (x * 2 ^ 24) 32767

/-- A value crosses zero between two periods. -/
def crossesZero (p q : Int) : Bool := (decide (p < 0) && decide (0 ≤ q)) || (decide (0 < p) && decide (q ≤ 0))

/-! ### Input stage (R228, R230, R242) -/

/-- Inputs of a period: fe_n, pp_n, tilt in 2^-24 of a sensor LSB, SUM, whether they are predicted. -/
structure Inputs where
  fe : Int
  pp : Int
  tilt : Int
  sum : Nat
  predicted : Bool

/-- The dark offset of a quadrant (srv.qoff). -/
def Chip.quadOff (c : Chip) (d i : Nat) : Int := signed 12 (c.rd (F.srvQoff_q_off d) / 2 ^ (12 * i))

/-- The inputs of a delivered subframe, or those predicted for a lost one (R230, R242). -/
def Chip.servoInputs (c : Chip) (d : Nat) (f : Option Subframe) : Inputs :=
  let s := c.servoSt d
  match f with
  | some f =>
    let q (i : Nat) : Int := (f.quad.getD i 0 : Int) - c.quadOff d i
    let sum := q 0 + q 1 + q 2 + q 3
    let norm (x : Int) (neg : Bool) : Int := if sum < 256 then 0 else
      let v := roundDiv (x * 2 ^ 24) sum.toNat
      if neg then -v else v
    ⟨norm ((q 0 + q 2) - (q 1 + q 3)) (c.rdb (F.srvCtrl_fe_pol d)), norm ((q 0 + q 1) - (q 2 + q 3)) (c.rdb (F.srvCtrl_pp_pol d)),
      signed 16 f.tilt * 2 ^ 24, sum.toNat, false⟩
  | none =>
    let k : Int := [0, 1, 2, 4].getD (c.rd (F.srvCtrl_pred_k d)) 0
    let p (a b : Int) : Int := a + roundDiv ((a - b) * k) 4
    ⟨p s.fe1 s.fe2, p s.pp1 s.pp2, p s.tilt1 s.tilt2, s.sum1, true⟩

/-- One period of a reference ramp (R233). -/
def RampSt.next (r : RampSt) : RampSt :=
  if r.left = 0 then r
  else if r.left = 1 then { r with cur := r.goal, left := 0 }
  else { r with cur := r.cur + (r.goal - r.cur) / r.left, left := r.left - 1 }

/-- 2^40 / 2π. -/
def invTwoPi40 : Int := 174992710554

/-- θr in 2^-32 turn from x_ref in 2^-24 µm, with p = 1.00 µm (R232). -/
def thetaRef (x : Int) : Int := x * 2 ^ 8

/-- pp_n − pp_amp × sin θr, in 2^-24 (R232, R249). -/
def Chip.ppError (c : Chip) (d : Nat) (pp x : Int) : Int := pp - roundDiv ((c.rd (F.srvSense_pp_amp d) : Int) * 512 * sinTurn (thetaRef x)) (2 ^ 30)

/-- The focus error, a signal (R231, R236). -/
def Chip.focusError (c : Chip) (d : Nat) (fe : Int) : Int :=
  sat32 (roundDiv ((c.rd (F.srvSense_fe_gain d) : Int) * (fe - c.rdi (F.srvSense_fe_off d) * 512)) 4096 - (c.servoSt d).fOff.cur)

/-- The tracking error, a signal (R232, R236). -/
def Chip.trackError (c : Chip) (d : Nat) (pp : Int) : Int :=
  let x := (c.servoSt d).xRef.cur
  let num := c.ppError d pp x
  let den := (c.rd (F.srvSense_pp_amp d) : Int) * 512 * cosTurn (thetaRef x) / 2 ^ 30
  sat32 (divFree (-(num * invTwoPi40)) (den * 2 ^ 16))

/-- The tilt error, a signal (R234, R236). -/
def Chip.tiltError (c : Chip) (d : Nat) (tilt : Int) : Int :=
  sat32 (roundDiv (-((c.rd (F.srvMech_tilt_gain d) : Int) * (tilt - c.rdi (F.srvQoff_tilt_off d) * 2 ^ 24))) 3276800)

/-- An error lies within a limit in nm. -/
def withinNm (e : Int) (nm : Nat) : Bool := decide ((e.natAbs : Int) * 1000 ≤ (nm : Int) * 2 ^ 24)

/-! ### Requests (R252) -/

/-- A sled-follow or tracking output value when the lens starts a sweep: −sweep_max to +sweep_max as outputs. -/
def Chip.sweepMax (c : Chip) (d : Nat) : Int := fromDemand (c.rd (F.srvAcq_sweep_max d))

/-- The kept calibration of a layer-side. -/
def Chip.servoCal (c : Chip) (d layer : Nat) : Option ServoCal :=
  (c.servoSt d).sets.find? fun k => k.side == c.rd (F.discStatus_side d) && k.layer == layer

/-- Writes a loop gain to both banks (R253, R256). -/
def Chip.setGain (c : Chip) (d l g : Nat) : Chip :=
  let f := F.loopK_gain d l
  (c.wr f g).modServo d fun s => { s with bank := fldSet s.bank f g }

/-- The gain in force of a loop, as the bits of its field (R253, R256). -/
def Chip.activeGain (c : Chip) (d l : Nat) : Nat := fldGet (c.servoSt d).bank (F.loopK_gain d l)

/-- What a calibration of the servo changes: the sensor values and the gains of focus and tracking (R255, R256). -/
def calFields (d : Nat) : List Fld :=
  [F.srvSense_fe_gain d, F.srvSense_fe_off d, F.srvSense_pp_amp d, F.srvSense_pp_off d, F.loopK_gain d 0, F.loopK_gain d 1]

/-- A register write loads the values that a calibration may change later (R257). -/
def Chip.noteLoaded (c : Chip) (d : Nat) (written : Fld → Bool) : Chip :=
  ((calFields d).filter written).foldl (fun c f => c.modServo d fun s => { s with loaded := fldSet s.loaded f (c.rd f) }) c

/-- The values of a calibrated set come into force, the gains in both banks. -/
def Chip.applyCal (c : Chip) (d : Nat) (k : ServoCal) : Chip :=
  let c := (((c.wr (F.srvSense_fe_gain d) k.feGain).wr (F.srvSense_fe_off d) k.feOff).wr (F.srvSense_pp_amp d) k.ppAmp).wr (F.srvSense_pp_off d) k.ppOff
  ((c.setGain d 0 k.gainF).setGain d 1 k.gainT).modServo d fun s => { s with calBad := k.bad }

/-- The values that register writes loaded, as a set. -/
def Chip.loadedCal (c : Chip) (d : Nat) : ServoCal :=
  let g (f : Fld) : Nat := fldGet (c.servoSt d).loaded f
  ⟨0, 0, g (F.srvSense_fe_gain d), g (F.srvSense_fe_off d), g (F.srvSense_pp_amp d), g (F.srvSense_pp_off d), g (F.loopK_gain d 0), g (F.loopK_gain d 1), 0⟩

/-- Uses the kept set of a layer-side, or the loaded values when there is none (R257). DEDUCED, notes/assumptions/99.md. -/
def Chip.useCal (c : Chip) (d layer : Nat) : Chip :=
  match c.servoCal d layer with
  | none => (c.applyCal d (c.loadedCal d)).wr (F.srvStatus_cal_ok d) 0
  | some k => (c.applyCal d k).wrb (F.srvStatus_cal_ok d) (k.bad == 0)

/-- The sweep of an acquisition begins (R247): tracking, tilt and sled open, lasers at read power, output towards −sweep_max. The read powers
are given by no rule: they are free values. -/
def Chip.startSweep (c : Chip) (d layer : Nat) : Chip :=
  let c := c.trackOff d
  let out := (c.servoSt d).focus.out
  let p0 := c.draw
  let p1 := p0.2.draw
  let c := (p1.2.pointFlag d 1 true).modLink d fun l => { l with mode := if l.mode = 0 then 1 else l.mode }
  let c := c.setPoint d fun p => { p with pServo := p0.1 % 65536, pBeam := List.replicate 4 (p1.1 % 65536) }
  (c.wr (F.srvStatus_fstate d) 1).modServo d fun s => { s with
    readPower := p1.1 % 65536
    outRamp := default
    f := { s.f with target := layer, count := 0, tries := 0, sweepOut := out, dir := -1, inCurve := false, jumpPeriods := 0, acquiring := true } }

/-- A single-layer jump begins from LOCK (R247). -/
def Chip.kick (c : Chip) (d : Nat) (dir : Int) : Chip :=
  let c := c.trackOff d
  (c.wr (F.srvStatus_fstate d) 5).modServo d fun s => { s with
    f := { s.f with saved := s.focus.integ, dir := dir, periods := 0, jumpPeriods := 0, count := 0, inCurve := true, acquiring := false } }

/-- A reference goes to a new value over the ramp (R233). -/
def Chip.setRef (c : Chip) (d : Nat) (x f : Int) : Chip :=
  let n := c.rd (F.srvCtrl_ramp d)
  c.modServo d fun s => { s with
    xRef := if s.xRef.goal = x then s.xRef else ⟨s.xRef.cur, x, n⟩
    fOff := if s.fOff.goal = f then s.fOff else ⟨s.fOff.cur, f, n⟩
    settleAfter := 0 }

/-- 0.20 µm and one 64th of it, in 2^-24 µm (R123, R232). -/
def pitchUm (k : Int) : Int := roundDiv (k * 2 ^ 24) 5
def pitch64 (n : Int) : Int := roundDiv (n * 2 ^ 24) 320

/-- A seek from FOLLOW: fine within fine_max band turns, otherwise a sled move; tracking leaves FOLLOW, so write inhibit is asserted (R246, R249, R251). -/
def Chip.beginSeek (c : Chip) (d b : Nat) : Chip :=
  let here := c.rd (F.btlStatus_band d)
  let c := (c.writeInhibit d).modServo d fun s => { s with t := { s.t with present := here, target := b, seeking := true, crossings := 0, sinceCross := 0, vHat := 0, err1 := 0, settleRun := 0 } }
  if (Int.natAbs ((b : Int) - here)) ≤ c.rd (F.srvSeek_fine_max d) then
    (c.wr (F.srvStatus_tstate d) 4).modServo d fun s => { s with t := { s.t with kept := s.track.integ } }
  else
    let dist := divFree (((b : Int) - here) * 256000) ((c.rd (F.srvMech_sled_pitch d) : Int) * 100)
    let c := (c.wr (F.srvStatus_tstate d) 5).modServo d fun s => { s with
      track := default, sled := default, t := { s.t with sledRefused := !c.axisTakes d 0 false } }
    c.axisRequest d 0 (.moveBy dist .atOnce)

/-- A request refused (R252). -/
def Chip.refuseServo (c : Chip) (d : Nat) : Chip := c.wr (F.srvStatus_req_refused d) 1

/-- Whether focus is in LOCK and tracking in FOLLOW. -/
def Chip.following (c : Chip) (d : Nat) : Bool := c.rd (F.srvStatus_fstate d) == 3 && c.rd (F.srvStatus_tstate d) == 3

/-- A seek, jump or pass offset may run: focus in LOCK, tracking in FOLLOW, write_en clear (R252). -/
def Chip.mayMove (c : Chip) (d : Nat) : Bool := c.following d && !(c.linkSt d).point.flags.testBit 2

/-- A burn is under way at a drive: no calibration runs (R257). -/
def Chip.burning (c : Chip) (d : Nat) : Bool := (c.burnSt d).run.isSome || (c.linkSt d).mode == 2

/-- The measurement of a loop's gain begins, or begins again: step 3 focus, step 4 tracking; the gain before the first round is kept (R255, R256). -/
def Chip.gainStart (c : Chip) (d step : Nat) : Chip :=
  c.modServo d fun s => { s with calStep := step, calRound := 0, calN := 0, calSum := [], calFirst := c.activeGain d (step - 3) }

/-- Starts a request at the head (R252): an acquire needs focus OFF with the spindle at lock and waits for the offsets of R254; a seek, jump or
pass offset needs LOCK and FOLLOW with write_en clear; an engine that is out takes none (R20). -/
def Chip.beginServo (c : Chip) (d : Nat) (q : ServoReq) : Chip :=
  let take (c : Chip) : Chip := (c.wr (F.srvStatus_req_busy d) 1).modServo d fun s => { s with running := some q }
  if c.engineOut d then c.refuseServo d
  else match q with
  | .acquire l =>
    if c.rd (F.srvStatus_fstate d) = 0 ∧ c.rdb (F.spinStatus_lock d) then
      let c := ((take c).useCal d l).modServo d fun s => { s with stopped := false, f := { s.f with target := l, reacq := 0, corrections := 0 }, calRound := 0, calStep := if (c.servoCal d l).isSome then 0 else 1 }
      if c.headReady d then c.startSweep d l else c
    else c.refuseServo d
  | .seek b => if c.mayMove d then (take c).modServo d (fun s => { s with t := { s.t with corrections := 0 } }) |>.beginSeek d b else c.refuseServo d
  | .jump l =>
    if c.mayMove d then
      let here := c.rd (F.srvStatus_layer d)
      let c := (take c).modServo d fun s => { s with f := { s.f with target := l, corrections := 0 } }
      if l = here then (c.wr (F.srvStatus_req_busy d) 0).modServo d fun s => { s with running := none }
      else ((c.wr (F.srvStatus_layer_ok d) 0).btlOff d).kick d (if here < l then 1 else -1)
    else c.refuseServo d
  | .passOffset k =>
    if c.mayMove d then ((take c).wri (F.srvStatus_pass d) k).setRef d (pitchUm k) (c.servoSt d).fOff.goal else c.refuseServo d
  | .calibrate =>
    if c.following d && !c.burning d then (take c).gainStart d 3 else c.refuseServo d

/-- The running request ends; the waiting one reaches the head (R252). -/
def Chip.servoDone (c : Chip) (d : Nat) : Chip :=
  let w := (c.servoSt d).waiting
  let c := ((c.wr (F.srvStatus_req_busy d) 0).wr (F.srvStatus_req_queued d) 0).modServo d fun s => { s with running := none, waiting := none }
  match w with
  | some q => c.beginServo d q
  | none => c

/-- A request arrives (R252): refused while writing for a seek, jump or pass offset, one runs and one waits. A command to a drive ends the stop
that servo loss left (R116). -/
def Chip.servoRequest (c : Chip) (d : Nat) (q : ServoReq) : Chip :=
  let moves := match q with | .seek _ => true | .jump _ => true | .passOffset _ => true | _ => false
  if moves && (c.linkSt d).point.flags.testBit 2 then c.refuseServo d
  else
    match (c.servoSt d).running, (c.servoSt d).waiting with
    | none, _ => c.beginServo d q
    | some _, none => (c.wr (F.srvStatus_req_queued d) 1).modServo d fun s => { s with waiting := some q }
    | some _, some _ => c.refuseServo d

def execSrvAcquire (d layer : Nat) (s : State) : Host.Outcome State Fault Refusal := s.nextChip (s.chip.servoRequest d (.acquire (layer % 8)))
def execSrvSeek (d band : Nat) (s : State) : Host.Outcome State Fault Refusal := s.nextChip (s.chip.servoRequest d (.seek (band % 2 ^ 17)))
def execSrvLayerJump (d layer : Nat) (s : State) : Host.Outcome State Fault Refusal := s.nextChip (s.chip.servoRequest d (.jump (layer % 8)))
def baseSrvRetract (d : Nat) (s : State) : Host.Outcome State Fault Refusal := s.nextChip (s.chip.retract d)

/-- The pass offset of the two bits of srv.req.k: 00 and 10 are 0, 01 is +1, 11 is −1. -/
def passOf (k : Nat) : Int := if k % 4 = 1 then 1 else if k % 4 = 3 then -1 else 0

def execSrvPassOffset (d k : Nat) (s : State) : Host.Outcome State Fault Refusal := s.nextChip (s.chip.servoRequest d (.passOffset (passOf k)))
def execSrvCalibrateGains (d : Nat) (s : State) : Host.Outcome State Fault Refusal := s.nextChip (s.chip.servoRequest d .calibrate)

/-- Every shadow bank of the cluster becomes active for the next computation window (R253). -/
def Chip.commitBanks (c : Chip) (d : Nat) : Chip :=
  ((List.range 4).flatMap (loopFields d)).foldl (fun c f => c.modServo d fun s => { s with bank := fldSet s.bank f (c.rd f) }) c

def execSrvCommit (d : Nat) (s : State) : Host.Outcome State Fault Refusal := s.nextChip (s.chip.commitBanks d)

/-! ### Loss and the focus states (R244, R247, R248) -/

/-- The focus event of R590. -/
def Chip.focusEvent (c : Chip) (d sub : Nat) : Chip := c.raiseClu d 9 4 [sub, (c.servoSt d).f.target]

/-- A request that cannot go on without focus ends; an acquire and a jump go on with the reacquisition. DEDUCED, notes/assumptions/19.md. -/
def Chip.endUnfocused (c : Chip) (d : Nat) : Chip :=
  match (c.servoSt d).running with
  | some (.seek _) | some (.passOffset _) => c.servoDone d
  | some .calibrate => (c.modServo d fun s => { s with calStep := 0 }).servoDone d
  | _ => c

/-- Focus is lost (R246, R247): write inhibit, the band timing loop and tracking stop, the output ramps to 0 over 1 ms. -/
def Chip.focusLost (c : Chip) (d : Nat) : Chip :=
  let c := (c.traceEvent d 0).writeInhibit d
  let c := (((c.wr (F.srvStatus_fstate d) 8).btlOff d).trackOff d).rampDown d
  (c.modServo d fun s => { s with f := { s.f with reacq := s.f.reacq + 1, lossRun := 0, holdLen := 0 } }).endUnfocused d

/-- The ramp of LOST is over (R247): a reacquisition while the count allows one, otherwise OFF with its event. -/
def Chip.lostOver (c : Chip) (d : Nat) : Chip :=
  let f := (c.servoSt d).f
  if f.reacq ≤ c.rd (F.srvCtrl_reacq_max d) then c.startSweep d f.target
  else ((c.wr (F.srvStatus_fstate d) 0).focusEvent d 1).servoDone d

/-- Focus reaches LOCK (R247 to R249, R255): SUM_ref; the counted layer moves on; the next single-layer jump, the tracking sine of a first
acquisition, or capture follows. -/
def Chip.focusSettled (c : Chip) (d : Nat) : Chip :=
  let s := c.servoSt d
  if c.rd (F.srvStatus_fstate d) ≠ 2 ∨ s.f.settleRun < 256 then c
  else
    let here := c.rd (F.srvStatus_layer d)
    let layer := if s.f.acquiring then s.f.target else ((here : Int) + s.f.dir).toNat
    let c := ((c.wr (F.srvStatus_fstate d) 3).wr (F.srvStatus_layer d) layer).wr (F.srvStatus_layer_ok d) 0
    let c := c.modServo d fun s => { s with f := { s.f with sumRef := s.f.settleSum / 256, periods := 0, lossRun := 0, holdLen := 0, recover := 0, acquiring := false } }
    if layer ≠ s.f.target then c.kick d (if layer < s.f.target then 1 else -1)
    else
      let c := if s.f.acquiring then c else c.useCal d layer
      if s.calStep = 1 ∨ s.calStep = 2 then c.modServo d fun s => { s with calStep := 2, calN := 0, ppMax := -2 ^ 31, ppMin := 2 ^ 31, ppCross := 0 }
      else (c.wr (F.srvStatus_tstate d) 1).modServo d fun s => { s with t := { s.t with sinceCross := 0, vHat := 0, settleRun := 0 } }

def baseFocusSettled (d : Nat) (s : State) : Host.Outcome State Fault Refusal := s.nextChip (s.chip.focusSettled d)

/-- 4,096 periods in SETTLE (R247). -/
def baseFocusSettleTimeout (d : Nat) (s : State) : Host.Outcome State Fault Refusal :=
  let c := s.chip
  s.nextChip (if c.rd (F.srvStatus_fstate d) = 2 ∧ 4096 ≤ (c.servoSt d).f.periods then c.focusLost d else c)

/-- A loss under R244. -/
def baseFocusLost (d : Nat) (s : State) : Host.Outcome State Fault Refusal :=
  let c := s.chip
  let f := (c.servoSt d).f
  let st := c.rd (F.srvStatus_fstate d)
  let lost := (st = 3 ∨ st = 4) ∧ (c.rd (F.srvGuard_loss_n d) ≤ f.lossRun ∨ (st = 4 ∧ c.rd (F.srvGuard_def_max d) ≤ f.holdLen))
  s.nextChip (if lost then c.focusLost d else c)

/-- The kick of a layer jump ends (R247). -/
def execFocusKickEnd (d : Nat) (s : State) : Host.Outcome State Fault Refusal :=
  let c := s.chip
  s.nextChip (if c.rd (F.srvStatus_fstate d) = 5 ∧ c.rd (F.srvJump_kick_len d) ≤ (c.servoSt d).f.periods then
    (c.wr (F.srvStatus_fstate d) 6).modServo d fun s => { s with f := { s.f with periods := 0 } } else c)

/-- jump_to periods since a layer-jump request (R247). -/
def baseFocusJumpTimeout (d : Nat) (s : State) : Host.Outcome State Fault Refusal :=
  let c := s.chip
  let st := c.rd (F.srvStatus_fstate d)
  s.nextChip (if (st = 6 ∨ st = 7) ∧ c.rd (F.srvJump_jump_to d) ≤ (c.servoSt d).f.jumpPeriods then (c.focusEvent d 2).focusLost d else c)

/-- Servo periods in 1 s. -/
def periodsPerSecond : Nat := 406902

/-- One second of continuous LOCK or HOLD (R247). -/
def execFocusReacqReset (d : Nat) (s : State) : Host.Outcome State Fault Refusal :=
  let c := s.chip
  let st := c.rd (F.srvStatus_fstate d)
  s.nextChip (if (st = 3 ∨ st = 4) ∧ periodsPerSecond ≤ (c.servoSt d).f.periods then
    c.modServo d fun s => { s with f := { s.f with reacq := 0 } } else c)

/-! ### Tracking states (R245, R246, R249, R251) -/

/-- The tracking event of R590, with the current band turn. -/
def Chip.trackEvent (c : Chip) (d sub : Nat) : Chip := c.raiseClu d 10 4 (sub :: beBytes 4 (c.rd (F.btlStatus_band d)))

/-- A state of tracking with its loop open. -/
def Chip.toTrack (c : Chip) (d st : Nat) : Chip :=
  (c.wr (F.srvStatus_tstate d) st).modServo d fun s => { s with track := default, t := { s.t with settleRun := 0, offRun := 0, sinceCross := 0, vHat := 0 } }

/-- Off track (R245): from FOLLOW with its event, trace freeze and write inhibit; from TSETTLE back to CAPTURE only. -/
def Chip.offTrack (c : Chip) (d : Nat) : Chip :=
  let st := c.rd (F.srvStatus_tstate d)
  if (c.servoSt d).t.offRun < 4 then c
  else if st = 3 then (((c.traceEvent d 1).trackEvent d 2).writeInhibit d).toTrack d 1
  else if st = 2 then c.toTrack d 1
  else c

def baseOffTrack (d : Nat) (s : State) : Host.Outcome State Fault Refusal := s.nextChip (s.chip.offTrack d)

/-- Conditions of write inhibit that are runs of periods (R246). -/
def Chip.inhibits (c : Chip) (d : Nat) : Bool :=
  let s := c.servoSt d
  let n := c.rd (F.srvGuard_wi_n d)
  decide (n ≤ s.t.wiTrk) || decide (n ≤ s.t.wiFoc) || decide (16 < s.f.holdLen)

def execWriteInhibit (d : Nat) (s : State) : Host.Outcome State Fault Refusal :=
  s.nextChip (if s.chip.inhibits d then s.chip.writeInhibit d else s.chip)

/-- Tracking enters FOLLOW (R249): the band timing loop is ordered to acquire; an acquisition goes on with the gain calibrations of a first one
or is done, a jump is done; a gain measurement that the loss of the track cut is begun again (R255). -/
def Chip.trackSettled (c : Chip) (d : Nat) : Chip :=
  let s := c.servoSt d
  if c.rd (F.srvStatus_tstate d) ≠ 2 ∨ s.t.settleRun < 256 then c
  else
    let target := if s.t.seeking then s.t.target else c.rd (F.btlStatus_band d)
    let c := (if c.inhibits d then c.wr (F.srvStatus_tstate d) 3 else (c.wr (F.srvStatus_tstate d) 3).wr (F.srvStatus_wi d) 0).btlStart d target
    if s.calStep = 2 then c.gainStart d 3
    else if s.calStep = 3 ∨ s.calStep = 4 then c.modServo d fun s => { s with calN := 0, calSum := [] }
    else match s.running with
    | some (.acquire _) | some (.jump _) => c.servoDone d
    | _ => c

def baseTrackSettled (d : Nat) (s : State) : Host.Outcome State Fault Refusal := s.nextChip (s.chip.trackSettled d)

/-- A seek is over, or a request whose tracking failed ends, and a calibration in it. -/
def Chip.endTracking (c : Chip) (d : Nat) : Chip := (c.modServo d fun s => { s with calStep := 0, t := { s.t with seeking := false } }).servoDone d

/-- 100 ms in CAPTURE (R249). -/
def baseCaptureTimeout (d : Nat) (s : State) : Host.Outcome State Fault Refusal :=
  let c := s.chip
  s.nextChip (if c.rd (F.srvStatus_tstate d) = 1 then ((c.trackEvent d 0).toTrack d 0).endTracking d else c)

/-- 20 ms since a fine seek request (R249). -/
def baseFineSeekTimeout (d : Nat) (s : State) : Host.Outcome State Fault Refusal :=
  let c := s.chip
  s.nextChip (if c.rd (F.srvStatus_tstate d) = 4 then ((c.trackEvent d 1).toTrack d 1).endTracking d else c)

/-- The band timing loop reports LOCK at a band turn during a seek (R249): complete there, otherwise corrected; the third correction fails. -/
def Chip.seekArrives (c : Chip) (d b : Nat) : Chip :=
  let t := (c.servoSt d).t
  if !t.seeking || c.rd (F.srvStatus_tstate d) != 3 then c
  else if b = t.target then c.endTracking d
  else if 2 ≤ t.corrections then (c.trackEvent d 1).endTracking d
  else (c.modServo d fun s => { s with t := { s.t with corrections := t.corrections + 1 } }).beginSeek d t.target

/-- The sled axis reports a long seek's move complete (R249), with no other move before it. -/
def Chip.sledArrives (c : Chip) (d : Nat) : Chip :=
  if c.rd (F.srvStatus_tstate d) = 5 ∧ (c.axisSt (axisNo d 0)).move.isNone then c.toTrack d 1 else c

/-- The sled's move of a long seek ends in a fault, or the axis does not take it: the seek fails (R294). -/
def Chip.sledFaults (c : Chip) (d : Nat) : Chip :=
  if c.rd (F.srvStatus_tstate d) = 5 then ((c.trackEvent d 1).toTrack d 0).endTracking d else c

/-- A valid mark names the layer once the band timing loop is in LOCK (R248). -/
def Chip.layerMark (c : Chip) (d layer : Nat) : Chip :=
  let here := c.rd (F.srvStatus_layer d)
  if c.rdb (F.srvStatus_layer_ok d) || c.rd (F.srvStatus_fstate d) != 3 then c
  else if layer = here then (c.wr (F.srvStatus_layer_ok d) 1).modServo d fun s => { s with f := { s.f with corrections := 0 } }
  else
    let f := (c.servoSt d).f
    if 3 ≤ f.corrections then (c.focusEvent d 3).retract d
    else
      let c := (c.wr (F.srvStatus_layer d) layer).modServo d fun s => { s with f := { s.f with corrections := f.corrections + 1 } }
      (c.btlOff d).kick d (if layer < f.target then 1 else -1)

/-- A reference ramp and its settling are over: the pass offset may be used (R233). -/
def Chip.passSettled (c : Chip) (d : Nat) : Bool :=
  let s := c.servoSt d
  s.xRef.left == 0 && s.fOff.left == 0 && decide (256 ≤ s.settleAfter)

def execPassOffsetSettled (d : Nat) (s : State) : Host.Outcome State Fault Refusal :=
  let c := s.chip
  s.nextChip (match (c.servoSt d).running with
    | some (.passOffset _) => if c.passSettled d then c.servoDone d else c
    | _ => c)

/-! ### Calibration (R254 to R257) -/

/-- The calibration-implausible event (R257, R590). The spec gives no numbers to the servo quantities: the number is a free value. -/
def Chip.servoImplausible (c : Chip) (d : Nat) (code : Int) : Chip :=
  let q := c.draw
  (q.2.wr (F.srvStatus_cal_ok d) 0).raiseClu d 11 4 ([0, q.1 % 256, 0] ++ beBytes 2 (unsigned 16 code))

/-- An acquire that waits for what R530 asks for begins once that is complete, with the spindle at lock (R247). -/
def Chip.tryAcquire (c : Chip) (d : Nat) : Chip :=
  match (c.servoSt d).running with
  | some (.acquire l) => if c.rd (F.srvStatus_fstate d) = 0 ∧ c.headReady d ∧ c.rdb (F.spinStatus_lock d) then c.startSweep d l else c
  | _ => c

/-- The offsets of R254 are set from the means of 4,096 subframes; an implausible one keeps its value. The strategy entries are written next (R203,
R530). -/
def Chip.offsetsDone (c : Chip) (d : Nat) : Chip :=
  let s := c.servoSt d
  if s.offDone || s.offN < 4096 then c
  else
    let mean (i : Nat) : Int := roundDiv (s.offSum.getD i 0) s.offN
    let quads := (List.range 4).map mean
    let c := match quads.find? fun q => decide (2047 < q.natAbs) with
      | some q => c.servoImplausible d q
      | none => c.wr (F.srvQoff_q_off d) ((quads.zipIdx.map fun (e : Int × Nat) => unsigned 12 e.1 * 2 ^ (12 * e.2)).sum)
    let c := if 4096 < (mean 4).natAbs then c.servoImplausible d (mean 4) else c.wri (F.srvQoff_tilt_off d) (mean 4)
    ((c.modServo d fun s => { s with offDone := true }).sendStrategy d).tryAcquire d

def execOffsetCalibrationDone (d : Nat) (s : State) : Host.Outcome State Fault Refusal := s.nextChip (s.chip.offsetsDone d)

/-- Servo periods of the 20 ms sine. -/
def sinePeriods : Nat := 8139

/-- An implausible quantity of a set keeps its value, with the event; a plausible one is so marked (R257). -/
def Chip.quantityBad (c : Chip) (d q : Nat) (code : Int) : Chip :=
  (c.modServo d fun s => { s with calBad := maskSet s.calBad q true }).servoImplausible d code
def Chip.quantityOk (c : Chip) (d q : Nat) : Chip := c.modServo d fun s => { s with calBad := maskSet s.calBad q false }

/-- The tracking sine ends with focus in LOCK (R249, R255): pp_amp and pp_off, then capture. -/
def Chip.sineDone (c : Chip) (d : Nat) : Chip :=
  let s := c.servoSt d
  if s.calStep ≠ 2 ∨ c.rd (F.srvStatus_fstate d) ≠ 3 ∨ c.rd (F.srvStatus_tstate d) ≠ 0 ∨ s.calN < sinePeriods then c
  else
    let c := if s.ppCross < 4 then c.quantityBad d 0 s.ppCross
      else ((c.wr (F.srvSense_pp_amp d) (roundDiv (s.ppMax - s.ppMin) 1024).toNat).wri (F.srvSense_pp_off d) (roundDiv (s.ppMax + s.ppMin) 1024)).quantityOk d 0
    c.toTrack d 1

def execTrackSineCalDone (d : Nat) (s : State) : Host.Outcome State Fault Refusal := s.nextChip (s.chip.sineDone d)

/-- The injection frequency of the loop under calibration: step 3 focus, step 4 tracking. -/
def Chip.calFreq (c : Chip) (d : Nat) : Nat := if (c.servoSt d).calStep = 3 then c.rd (F.srvCal_f_cal_f d) else c.rd (F.srvCal_f_cal_t d)

/-- Servo periods of 64 cycles of the injection. -/
def Chip.calPeriods (c : Chip) (d : Nat) : Nat := if c.calFreq d = 0 then 0 else (64 * 10 ^ 10 + 24576 * c.calFreq d - 1) / (24576 * c.calFreq d)

/-- The calibrated set of a layer-side is kept; cal_ok shows whether all of it is plausible (R257). -/
def Chip.keepCal (c : Chip) (d : Nat) : Chip :=
  let side := c.rd (F.discStatus_side d)
  let layer := c.rd (F.srvStatus_layer d)
  let k : ServoCal := {
    side := side, layer := layer, feGain := c.rd (F.srvSense_fe_gain d), feOff := c.rd (F.srvSense_fe_off d), ppAmp := c.rd (F.srvSense_pp_amp d)
    ppOff := c.rd (F.srvSense_pp_off d), gainF := c.activeGain d 0, gainT := c.activeGain d 1, bad := (c.servoSt d).calBad }
  (c.wrb (F.srvStatus_cal_ok d) (k.bad == 0)).modServo d fun s => { s with sets := (s.sets.filter fun x => !(x.side == side && x.layer == layer)) ++ [k] }

/-- The calibration of one loop's gain ends: the other loop's follows, or the set is kept and the request is done (R255 to R257). -/
def Chip.gainEnds (c : Chip) (d : Nat) : Chip :=
  if (c.servoSt d).calStep = 3 then c.gainStart d 4
  else ((c.modServo d fun s => { s with calStep := 0 }).keepCal d).servoDone d

/-- 20 log10 |L| lies within 0.5 dB: |L|^40 between 1/10 and 10, from squares (R256). -/
def withinHalfDb (a2 b2 : Nat) : Bool := decide (a2 ^ 20 ≤ 10 * b2 ^ 20) && decide (b2 ^ 20 ≤ 10 * a2 ^ 20)

/-- The gain before the first round is used again: the set kept of the layer-side gives it where there is one (R257). -/
def Chip.keepGain (c : Chip) (d l : Nat) : Chip :=
  let k := (c.servoCal d (c.rd (F.srvStatus_layer d))).getD (c.loadedCal d)
  c.setGain d l (if l = 0 then k.gainF else k.gainT)

/-- The gain |g| / |L| with the sign of g, as the bits of its field: |L|² = a2 / b2 (R236, R256); a loop that answers nothing gives a free value. -/
def nextGain (g : Int) (a2 b2 : Nat) : Nat :=
  let g2 : Int := if a2 = 0 then Config.quotByZero (g.natAbs ^ 2 * b2 : Nat) else (g.natAbs ^ 2 * b2 / a2 : Nat)
  let n := min (Nat.sqrt g2.toNat) (2 ^ 31 - 1)
  unsigned 32 (if g < 0 then -n else n)

/-- A gain measurement is complete (R256, R257): |L| = |A| / |B| from the correlations; the gain in force is adjusted and the measurement repeated, or ends. -/
def Chip.gainRound (c : Chip) (d : Nat) : Chip :=
  let s := c.servoSt d
  let l := if s.calStep = 3 then 0 else 1
  if (s.calStep ≠ 3 ∧ s.calStep ≠ 4) ∨ s.calN < c.calPeriods d ∨ s.calN = 0 then c
  else
    let g (i : Nat) : Nat := (s.calSum.getD i 0).natAbs
    let a2 := g 0 ^ 2 + g 1 ^ 2
    let b2 := g 2 ^ 2 + g 3 ^ 2
    let gain := signed 32 (c.activeGain d l)
    let first := (signed 32 s.calFirst).natAbs
    let fails (c : Chip) : Chip := ((c.keepGain d l).quantityBad d (l + 1) 0).gainEnds d
    if a2 ≠ 0 ∧ withinHalfDb a2 b2 then
      if 4 * gain.natAbs < first ∨ 4 * first < gain.natAbs then fails c else (c.quantityOk d (l + 1)).gainEnds d
    else if 3 ≤ s.calRound then fails c
    else (c.setGain d l (nextGain gain a2 b2)).modServo d fun s => { s with calRound := s.calRound + 1, calN := 0, calSum := [] }

def baseGainCalRound (d : Nat) (s : State) : Host.Outcome State Fault Refusal := s.nextChip (s.chip.gainRound d)

/-! ### Servo trace (R259) -/

def execTraceFreeze (d : Nat) (s : State) : Host.Outcome State Fault Refusal := s.nextChip (s.chip.freezeTrace d)
def execTraceRearm (d : Nat) (s : State) : Host.Outcome State Fault Refusal := s.nextChip (s.chip.wr (F.traceCtrl_frozen d) 0)

/-! ### Loss of subframes (R116, R117) -/

def baseServoLoss (d : Nat) (s : State) : Host.Outcome State Fault Refusal := s.nextChip (s.chip.servoLossCheck d)
def baseSubframeLossBurnStop (d : Nat) (s : State) : Host.Outcome State Fault Refusal := s.nextChip (s.chip.lossBurnStop d)

end Sys2Proof.Machine
end

