-- ==== Sys2Proof/Machine/Motion.lean ====
section
/-! DEFINITION. The motor pipeline of a spindle and the motion axes (08_spindle_and_axes.md). Currents in µA, voltages in µV, angles in 2^-32 turn,
electrical speeds in 2^-16 rad/s, speeds in 10^-6 rev/s. -/
namespace Sys2Proof.Machine

/-! ### Units -/

/-- 8π × 65,536 × 10^6: electrical speed in 2^-16 rad/s against speed in 10^-6 rev/s, four pole pairs (R266). -/
def speedFactor : Nat := 1647099329165

/-- f̂ of an electrical speed, and back (R266). -/
def speedOf (w : Int) : Int := roundDiv (w * 10 ^ 12) speedFactor
def omegaOf (f : Int) : Int := roundDiv (f * speedFactor) (10 ^ 12)

/-- Angle passed in n PWM periods of T = 24.576 µs, in halves of a period. -/
def angleIn (w : Int) (halves : Int) : Int := roundDiv (w * halves * 256336978) (2 * 10 ^ 9)

/-- A product with the sine or the cosine of an angle. -/
def bySin (x th : Int) : Int := roundDiv (x * sinTurn th) (2 ^ 30)
def byCos (x th : Int) : Int := roundDiv (x * cosTurn th) (2 ^ 30)

/-- The amplitude-invariant Clarke transform (R262). -/
def clarke (a b c : Int) : Int × Int := (roundDiv (2 * a - b - c) 3, roundDiv ((b - c) * 5773502692) (10 ^ 10))

/-- The Park transform and its inverse (R262, R264). -/
def park (v : Int × Int) (th : Int) : Int × Int := (byCos v.1 th + bySin v.2 th, byCos v.2 th - bySin v.1 th)
def unpark (v : Int × Int) (th : Int) : Int × Int := (byCos v.1 th - bySin v.2 th, bySin v.1 th + byCos v.2 th)

/-- Magnitude of a vector. -/
def magnitude (v : Int × Int) : Int := Nat.sqrt (v.1 * v.1 + v.2 * v.2).toNat

/-- The angle within a quarter turn of a vector with a > 0 and b ≥ 0, by bisection: the largest one at or before the vector. -/
def quarterAngle (a b : Int) : Int := bisect (fun p => decide (a * sinTurn p ≤ b * cosTurn p)) 30 0

/-- The angle of a vector in 2^-32 turn; that of the zero vector is a free value. DESIGN CHOICE, notes/assumptions/16.md. -/
def vectorAngle (v : Int × Int) : Int :=
  let a := v.1
  let b := v.2
  if 0 < a ∧ 0 ≤ b then quarterAngle a b
  else if a ≤ 0 ∧ 0 < b then 2 ^ 30 + quarterAngle b (-a)
  else if a < 0 ∧ b ≤ 0 then 2 ^ 31 + quarterAngle (-a) (-b)
  else if 0 ≤ a ∧ b < 0 then 3 * 2 ^ 30 + quarterAngle (-b) a
  else Config.quotByZero 0

/-- Phases in order, b and c exchanged where dir_inv is set (R262). -/
def Chip.phases (c : Chip) (d : Nat) (l : List Nat) (unit : Int) : Int × Int × Int :=
  let x (i : Nat) : Int := signed 16 (l.getD i 0) * unit
  if c.rdb (F.spinMotor_dir_inv d) then (x 0, x 2, x 1) else (x 0, x 1, x 2)

/-! ### Observer (R266 to R269) -/

/-- Ke × f for a speed in 10^-6 rev/s, in µV; ke is in 0.01 mV per rev/s. -/
def Chip.emfAt (c : Chip) (d : Nat) (f : Int) : Int := (c.rd (F.spinMotor_ke d) : Int) * 10 * f / 10 ^ 6

/-- One observer update (R266): the applied voltage vector, and the sampled current where the sample is usable. -/
def Chip.observe (c : Chip) (d : Nat) (o : ObserverSt) (v : Int × Int) (sample : Option (Int × Int)) : ObserverSt :=
  let rs : Int := c.rd (F.spinMotor_r_s d)
  let ls : Int := c.rd (F.spinMotor_l_s d)
  let drive (vx ix ex : Int) : Int := divFree (24576 * (vx - rs * ix / 1000 - ex)) (100 * ls)
  match sample with
  | some i =>
    let ea := i.1 - o.ia
    let eb := i.2 - o.ib
    let ki : Int := c.rd (F.spinObs_k_i d)
    let ke : Int := c.rd (F.spinObs_k_e d)
    let ia := o.ia + drive v.1 o.ia o.ea + roundDiv (ki * ea) 65536
    let ib := o.ib + drive v.2 o.ib o.eb + roundDiv (ki * eb) 65536
    let na := o.ea - roundDiv (ke * ea) 256
    let nb := o.eb - roundDiv (ke * eb) 256
    let eps := divFree (-(byCos na o.th + bySin nb o.th) * 65536) (max (magnitude (na, nb)) 100000)
    let w := o.w + roundDiv ((c.rd (F.spinObs_k_w d) : Int) * eps) 100
    { o with
      ia := ia, ib := ib, ea := na, eb := nb, w := w
      th := (o.th + angleIn w 2 + roundDiv ((c.rd (F.spinObs_k_th d) : Int) * eps * 159154943) (10 ^ 9)) % 2 ^ 32
      hist := (speedOf w :: o.hist).take 17 }
  | none =>
    { o with
      ia := o.ia + drive v.1 o.ia o.ea, ib := o.ib + drive v.2 o.ib o.eb
      th := (o.th + angleIn o.w 2) % 2 ^ 32, hist := (speedOf o.w :: o.hist).take 17 }

/-- A usable sample is plausible (R276): the change over sixteen PWM periods, and the back-EMF against Ke × |f̂|. -/
def Chip.plausibleSample (c : Chip) (d : Nat) (o : ObserverSt) : Bool :=
  let f := o.hist.headD o.initSpeed
  let f16 := o.hist.getD 16 o.initSpeed
  let lim := (c.rd (F.spinLos_acc_fac d) * c.rd (F.spinLim_acc_max d) * 3932 / 100 : Nat)
  let e2 := (o.ea * o.ea + o.eb * o.eb) * 10 ^ 4
  let x := c.emfAt d f.natAbs
  let tol : Int := c.rd (F.spinLos_emf_tol d)
  let lo := max (100 - tol) 0 * x
  let hi := (100 + tol) * x
  decide ((f - f16).natAbs ≤ lim) && decide (lo * lo ≤ e2) && decide (e2 ≤ hi * hi)

/-! ### Current loops and duties (R263, R264) -/

/-- The duty limit applies: while it is in force, and from the prediction that exceeds pred_max on (R269). -/
def Chip.dutyLimited (c : Chip) (d : Nat) : Bool := c.rdb (F.spinStatus_duty_limited d) || decide (c.rd (F.spinLos_pred_max d) < (c.spinSt d).predRun)

/-- The limit of the voltage vector: m × v_bus_f / √3, m = 1, or 2 × duty_lim − 1 under the duty limit (R264, R269). -/
def Chip.voltLimit (c : Chip) (d : Nat) (vBus : Int) : Int :=
  let m : Int := if c.dutyLimited d then 2 * (c.rd (F.spinDlim_duty_lim d) : Int) - 65536 else 65536
  roundDiv (roundDiv (m * vBus) 65536 * 5773502692) (10 ^ 10)

/-- Duties from a voltage vector in the dq frame at an angle (R264): codes of the three phases, and whether the vector was shortened. -/
def Chip.duties (c : Chip) (d : Nat) (vBus vd vq tha : Int) : List Nat × Bool :=
  let lim := c.voltLimit d vBus
  let short := decide (lim * lim < vd * vd + vq * vq)
  let vd' := if short then clampInt lim vd else vd
  let q : Int := if short then Nat.sqrt (lim * lim - vd' * vd').toNat else vq.natAbs
  let vq' := if vq < 0 then -q else q
  let v := unpark (vd', vq') tha
  let a := v.1
  let b := -(v.1 / 2) + roundDiv (v.2 * 8660254038) (10 ^ 10)
  let g := -(v.1 / 2) - roundDiv (v.2 * 8660254038) (10 ^ 10)
  let cm := (max a (max b g) + min a (min b g)) / 2
  let code (x : Int) : Nat := (max 0 (min 65535 (32768 + divFree ((x - cm) * 65536) vBus))).toNat
  ([code a, code b, code g], short)

/-- The current loops at a sample (R263, R275): references in the frame of an angle, the angle the voltage is applied at. -/
def Chip.currentLoop (c : Chip) (d : Nat) (vBus : Int) (o : ObserverSt) (i : Int × Int) (idRef iqRef th tha : Int) : ObserverSt :=
  let p := park i th
  let kp := c.rdi (F.spinCur_kp_i d)
  let ki := c.rdi (F.spinCur_ki_i d)
  let ed := idRef - p.1
  let eq := iqRef - p.2
  let r := c.duties d vBus (qmul kp ed + o.xd) (qmul kp eq + o.xq) tha
  { o with
    xd := if o.limited then o.xd else o.xd + qmul ki ed
    xq := if o.limited then o.xq else o.xq + qmul ki eq
    limited := r.2, iq := p.2, duty := r.1 ++ o.duty.take 3 }

/-- The speed loop (R270, R275): f_ref moves towards the target, iq_ref follows. -/
def Chip.speedLoop (c : Chip) (d : Nat) (vBus : Int) (o : ObserverSt) (target : Int) : ObserverSt × Int :=
  let up := roundDiv ((c.rd (F.spinLim_acc_max d) : Int) * 24576) 10000
  let down := roundDiv ((c.rd (F.spinLim_dec_max d) : Int) * 24576) 10000
  let fRef := if o.fRef < target then min target (o.fRef + up) else max target (o.fRef - down)
  let f := o.hist.headD o.initSpeed
  let e := fRef - f
  let lim : Int := c.rd (F.spinLim_i_max d) * 1000
  let raw := qmul (c.rdi (F.spinSpd_kp_w d)) e + o.xw
  let iq := clampInt lim raw
  let iq := if (c.rd (F.spinDlim_v_reg d) : Int) * 1000 < vBus then max 0 iq else iq
  ({ o with fRef := fRef, xw := if o.clamped then o.xw else o.xw + qmul (c.rdi (F.spinSpd_ki_w d)) e, clamped := iq != raw }, iq)

/-! ### States (R273 to R282) -/

/-- A target in 0.01 rev/s limited to 1,000 to 12,000 (spin.req). -/
def clampTarget (t : Nat) : Nat := max 1000 (min 12000 t)

/-- Three duties as they leave, b and c exchanged where dir_inv is set (R262). -/
def Chip.dutyOut (c : Chip) (d : Nat) (l : List Nat) : List Nat :=
  if c.rdb (F.spinMotor_dir_inv d) then [l.getD 0 0, l.getD 2 0, l.getD 1 0] else l

/-- A start asks for a place (R31, R273); refused while r_s, l_s or ke is zero (R272). -/
def Chip.spinStart (c : Chip) (d target : Nat) : Chip :=
  if c.rd (F.spinMotor_r_s d) = 0 ∨ c.rd (F.spinMotor_l_s d) = 0 ∨ c.rd (F.spinMotor_ke d) = 0 then c.wr (F.spinStatus_req_refused d) 1
  else (((c.wr (F.spinStatus_target d) target).setSpin d 1).modSpin d fun s => { s with fails := 0, pending := none, waited := 0 }).askPlace d

/-- A change of target in RUN: lock clears, no place is taken (R271). -/
def Chip.spinTarget (c : Chip) (d target : Nat) : Chip := (c.wr (F.spinStatus_target d) target).wr (F.spinStatus_lock d) 0

/-- Carries out a request from STOPPED or RUN (R273); a spin-up that is stopped holds its place no longer, and a climb no longer waits (R30). -/
def Chip.spinBegin (c : Chip) (d : Nat) (q : SpinReq) : Chip :=
  let st := c.rd (F.spinStatus_state d)
  match q with
  | .start t => if st = 0 then c.spinStart d t else c.spinTarget d t
  | .stop => if st = 6 then (((c.spinTarget d 0).releasePlace d).modSpin d fun s => { s with climb := false }).setSpin d 7 else c
  | .setSpeed t => c.spinTarget d t

/-- The request that waits runs once the spindle is STOPPED or in RUN (R273, R279). -/
def Chip.spinNext (c : Chip) (d : Nat) : Chip :=
  match (c.spinSt d).waiting with
  | some q => ((c.wr (F.spinStatus_req_waiting d) 0).modSpin d fun s => { s with waiting := none }).spinBegin d q
  | none => c

/-- A request arrives (R273): it runs from STOPPED or RUN, otherwise it waits, a third is refused, as every one while the engine is out (R20). -/
def Chip.spinRequest (c : Chip) (d : Nat) (q : SpinReq) : Chip :=
  let st := c.rd (F.spinStatus_state d)
  if c.engineOut d then c.wr (F.spinStatus_req_refused d) 1
  else if st = 0 ∨ st = 6 then c.spinBegin d q
  else if (c.spinSt d).waiting.isSome then c.wr (F.spinStatus_req_refused d) 1
  else (c.wr (F.spinStatus_req_waiting d) 1).modSpin d fun s => { s with waiting := some q }

def execSpindleStart (d target : Nat) (s : State) : Host.Outcome State Fault Refusal := s.nextChip (s.chip.spinRequest d (.start (clampTarget target)))
def execSpindleSetSpeed (d target : Nat) (s : State) : Host.Outcome State Fault Refusal :=
  s.nextChip (s.chip.spinRequest d (.setSpeed (clampTarget target)))

/-- The spindle enters STOPPED; a waiting request runs (R273). -/
def Chip.spinStop0 (c : Chip) (d : Nat) : Chip := (((c.releasePlace d).wr (F.spinStatus_lock d) 0).setSpin d 0).spinNext d

def baseSpindleStop (d : Nat) (s : State) : Host.Outcome State Fault Refusal := s.nextChip (s.chip.spinRequest d .stop)

/-- A park request (R273): 2 ms of coast, then BRAKE; a pending start is discarded. -/
def Chip.spinPark (c : Chip) (d : Nat) : Chip :=
  let c := ((c.releasePlace d).enterBrake d).motorFlags d true false
  c.modSpin d fun s => { s with pending := none, climb := false, parking := true }

def execSpindlePark (d : Nat) (s : State) : Host.Outcome State Fault Refusal := s.nextChip (s.chip.spinPark d)

/-- The 2 ms coast of a park ends (R273). -/
def execParkCoastEnd (d : Nat) (s : State) : Host.Outcome State Fault Refusal :=
  let c := s.chip
  s.nextChip (if (c.spinSt d).parking then (c.motorFlags d false true).modSpin d fun s => { s with parking := false } else c)

/-- One waiting port of a region is admitted; how long it waited is kept for its completion event (R30, R31, R273, R280). -/
def Chip.admitPort (c : Chip) (r n : Nat) : Chip :=
  let d := 6 * r + n
  let c := (c.wr (F.spinup_spinup_waiting r) (maskSet (c.rd (F.spinup_spinup_waiting r)) n false)).wr (F.spinup_spinup_active r)
    (c.rd (F.spinup_spinup_active r) + 1)
  let c := ((c.wr (F.spinStatus_place d) 1).modRgn r fun g => { g with spinPtr := arbNext 6 n }).modSpin d fun s => { s with waited := c.now - s.askedAt }
  if c.rd (F.spinStatus_state d) = 1 then c.openSense d 2 else c.modSpin d fun s => { s with climb := false }

/-- Waiting starts are admitted while places are free (R31, R32, R34). -/
def Chip.admitSpinups : Nat → Chip → Nat → Chip
  | 0, c, _ => c
  | n + 1, c, r =>
    if c.spinupFree r && !c.engineOut (6 * r) then
      match arbitrate 6 (c.rgnSt r).spinPtr fun i => (c.rd (F.spinup_spinup_waiting r)).testBit i with
      | some i => admitSpinups n (c.admitPort r i) r
      | none => c
    else c

def execSpinupAdmit (r : Nat) (s : State) : Host.Outcome State Fault Refusal := s.nextChip (Chip.admitSpinups 6 s.chip r)

/-- A write of spinup_max; 7 is stored as 6 (R32). -/
def execSpinupMaxWrite (r v : Nat) (s : State) : Host.Outcome State Fault Refusal :=
  s.nextChip (Chip.admitSpinups 6 (s.chip.wr (F.spinup_spinup_max r) (if v % 8 = 7 then 6 else v)) r)

/-- The sensed speed in 10^-6 rev/s (R274). -/
def Chip.sensedSpeed (c : Chip) (d : Nat) : Int :=
  divFree ((c.spinSt d).senseAdv * 250000000) ((c.rd (F.spinLos_sense_ms d) : Int) * 2 ^ 32)

/-- The motor counts as stopped (R274). -/
def Chip.sensedStopped (c : Chip) (d : Nat) : Bool :=
  let s := c.spinSt d
  let stop := (c.rd (F.spinSeq_stop_spd d) : Int) * 10000
  let u := divFree s.senseU s.senseN
  decide ((c.sensedSpeed d).natAbs < stop) || decide (u < c.emfAt d stop)

/-- The observer is initialised to catch a turning motor: angle and back-EMF of the last vector, advanced by f_s to the first use (R277). -/
def Chip.catchInit (c : Chip) (d : Nat) : Chip :=
  let f := c.sensedSpeed d
  let w := omegaOf f
  let s := c.spinSt d
  let e := unpark (s.senseA, s.senseB) (angleIn w 2)
  let o : ObserverSt := { (default : ObserverSt) with
    ea := e.1, eb := e.2, w := w, th := ((s.senseLast.getD 0) - 2 ^ 30 + angleIn w 2) % 2 ^ 32
    xq := divFree s.senseU s.senseN, fRef := f, initSpeed := f }
  c.modSpin d fun s => { s with obs := o, plausRun := 0, implausRun := 0, usableRun := 0, lastSpeed := (f / 10000).natAbs }

/-- The outcome of a loss of synchronism (R279, R590). -/
def Chip.lossEvent (c : Chip) (d outcome : Nat) : Chip :=
  c.raiseClu d 13 5 ([outcome, c.rd (F.spinStatus_attempts d)] ++ beBytes 2 (c.spinSt d).lossSpeed)

/-- The spindle coasts after a loss: the next attempt while one remains and the window is open, otherwise the brake (R279). -/
def Chip.nextAttempt (c : Chip) (d : Nat) : Chip :=
  let s := c.spinSt d
  let n := c.rd (F.spinStatus_attempts d)
  if n < c.rd (F.spinLos_recatch_n d) ∧ c.now < s.lossAt + c.rd (F.spinLos_recatch_ms d) * 10 ^ 6 then
    (c.wr (F.spinStatus_attempts d) (n + 1)).openSense d 9
  else (c.lossEvent d 1).enterBrake d

/-- A sense window closes (R273, R274, R279, R282); the sensed speed is the last known one (R281). -/
def Chip.senseEnd (c : Chip) (d : Nat) : Chip :=
  let st := c.rd (F.spinStatus_state d)
  let c := c.modSpin d fun s => { s with lastSpeed := (c.sensedSpeed d / 10000).natAbs }
  let s := c.spinSt d
  let stopped := c.sensedStopped d
  let forward := !stopped && decide (0 < c.sensedSpeed d)
  let target := c.rd (F.spinStatus_target d)
  if st = 2 then
    if stopped then (c.setSpin d 3).modSpin d fun s => { s with obs := default }
    else if forward then (c.catchInit d).setSpin d 5
    else ((c.releasePlace d).enterBrake d).modSpin d fun s => { s with pending := some target }
  else if st = 9 then
    if stopped then (c.lossEvent d 2).spinStop0 d
    else if forward then (c.catchInit d).setSpin d 10
    else (c.lossEvent d 1).enterBrake d
  else if st = 8 && s.checking then
    if stopped then
      let c := c.modSpin d fun s => { s with pending := none, checking := false }
      match s.pending with
      | some t => c.spinStart d t
      | none => c.spinStop0 d
    else (c.motorFlags d false true).modSpin d fun s => { s with checking := false }
  else c

def baseSenseWindowEnd (d : Nat) (s : State) : Host.Outcome State Fault Refusal := s.nextChip (s.chip.senseEnd d)

/-- align_ms elapse: the ramp begins, the observer from rest (R275, R276). -/
def execAlignEnd (d : Nat) (s : State) : Host.Outcome State Fault Refusal :=
  let c := s.chip
  s.nextChip (if c.rd (F.spinStatus_state d) = 3 then
    (c.setSpin d 4).modSpin d fun s => { s with fOpen := 0, thOpen := 0, plausRun := 0, implausRun := 0, obs := { s.obs with ea := 0, eb := 0, th := 0, w := 0, hist := [], initSpeed := 0 } } else c)

/-- ramp_ms without handover (R273): counted; another sense window, or the start is given up with its event. -/
def Chip.rampTimeout (c : Chip) (d : Nat) : Chip :=
  if c.rd (F.spinStatus_state d) ≠ 4 then c
  else
    let n := (c.spinSt d).fails + 1
    let c := c.modSpin d fun s => { s with fails := n }
    if n ≤ c.rd (F.spinStart_start_tries d) then c.openSense d 2
    else (c.raiseClu d 12 5 (1 :: beBytes 2 (c.rd (F.spinMeas_speed d)) ++ beBytes 4 0)).spinStop0 d

/-- catch_ok plausible samples (R273, R280): the speed loop closes; after a re-catch below the target the climb waits for a place. -/
def Chip.catchSuccess (c : Chip) (d : Nat) : Chip :=
  let st := c.rd (F.spinStatus_state d)
  let s := c.spinSt d
  if s.plausRun < c.rd (F.spinLos_catch_ok d) then c
  else if st = 5 then (c.setSpin d 6).spinNext d
  else if st = 10 then
    let f := s.obs.hist.headD s.obs.initSpeed
    let c := c.modSpin d fun s => { s with obs := { s.obs with fRef := f } }
    let c := ((c.bump (F.spinCnt_recatches d)).lossEvent d 0).setSpin d 6
    let c := if f * 1000 < (c.rd (F.spinStatus_target d) : Int) * 10000 * 995 then (c.modSpin d fun s => { s with climb := true }).askPlace d else c
    c.spinNext d
  else c

def baseCatchSuccess (d : Nat) (s : State) : Host.Outcome State Fault Refusal := s.nextChip (s.chip.catchSuccess d)

/-- A catch fails (R273): a start stays pending behind the brake; a re-catch goes on with the next attempt. -/
def Chip.catchFails (c : Chip) (d : Nat) : Chip :=
  let st := c.rd (F.spinStatus_state d)
  if st = 5 then
    let t := c.rd (F.spinStatus_target d)
    ((c.releasePlace d).enterBrake d).modSpin d fun s => { s with pending := some t }
  else if st = 10 then (c.setSpin d 9).nextAttempt d
  else c

def baseCatchTimeout (d : Nat) (s : State) : Host.Outcome State Fault Refusal := s.nextChip (s.chip.catchFails d)

/-- Speed and target agree within parts per thousand. -/
def Chip.speedWithin (c : Chip) (d permille : Nat) : Bool :=
  let t := (c.rd (F.spinStatus_target d) : Int) * 10000
  let f := (c.spinSt d).obs.hist.headD (c.spinSt d).obs.initSpeed
  decide (((f - t).natAbs : Int) * 1000 ≤ t * permille)

/-- 100 ms within 0.5 % of the target (R30): lock is reported with the wait for a place (R31), any place is released. -/
def Chip.spinLock (c : Chip) (d : Nat) : Chip :=
  if c.rd (F.spinStatus_state d) = 6 ∧ c.rd (F.spinStatus_lock d) = 0 ∧ c.speedWithin d 5 then
    let wait := (c.spinSt d).waited / 10 ^ 6
    let c := ((c.releasePlace d).wr (F.spinStatus_lock d) 1).modSpin d fun s => { s with waited := 0 }
    c.raiseClu d 12 5 (0 :: beBytes 2 (c.rd (F.spinMeas_speed d)) ++ beBytes 4 wait)
  else c

/-- 10 ms more than 1 % from the target (R271). -/
def execSpindleLockLost (d : Nat) (s : State) : Host.Outcome State Fault Refusal :=
  let c := s.chip
  s.nextChip (if c.speedWithin d 10 then c else c.wr (F.spinStatus_lock d) 0)

/-- Loss of synchronism (R278, R279): coast, place released, pickup parked, read pass ended, the first re-catch attempt. -/
def Chip.lossOfSync (c : Chip) (d : Nat) : Chip :=
  let s := c.spinSt d
  if c.rd (F.spinStatus_state d) = 6 ∧ (c.rd (F.spinLos_los_n d) ≤ s.implausRun ∨ s.overCurrent) then
    let c := ((c.bump (F.spinCnt_losses d)).wr (F.spinStatus_lock d) 0).modSpin d fun s => { s with
      lossAt := c.now, lossSpeed := (s.obs.hist.headD s.obs.initSpeed / 10000).natAbs, climb := false, implausRun := 0 }
    let c := ((c.parkPickup d).endReads d 10).wr (F.spinStatus_attempts d) 0
    c.nextAttempt d
  else c

def baseLossOfSync (d : Nat) (s : State) : Host.Outcome State Fault Refusal := s.nextChip (s.chip.lossOfSync d)

/-- The re-catch window closes: no further sense window opens (R279). -/
def baseRecatchWindowEnd (d : Nat) (s : State) : Host.Outcome State Fault Refusal :=
  let c := s.chip
  let st := c.rd (F.spinStatus_state d)
  s.nextChip (if st = 9 ∨ st = 10 then c.wr (F.spinStatus_attempts d) (max (c.rd (F.spinStatus_attempts d)) (c.rd (F.spinLos_recatch_n d))) else c)

/-- A brake check coasts for one sense window (R282). -/
def baseBrakeCheck (d : Nat) (s : State) : Host.Outcome State Fault Refusal :=
  let c := s.chip
  s.nextChip (if c.rd (F.spinStatus_state d) = 8 ∧ !(c.spinSt d).parking then
    let c := (c.openSense d 8).motorFlags d true false
    c.modSpin d fun s => { s with checking := true } else c)

/-- More predictions in a row than pred_max (R269). -/
def execDutyLimitEnter (d : Nat) (s : State) : Host.Outcome State Fault Refusal :=
  let c := s.chip
  s.nextChip (if c.rd (F.spinLos_pred_max d) < (c.spinSt d).predRun ∧ c.rd (F.spinStatus_duty_limited d) = 0 then
    (c.wr (F.spinStatus_duty_limited d) 1).raiseClu d 12 5 (2 :: beBytes 2 (c.rd (F.spinMeas_speed d)) ++ beBytes 4 0) else c)

/-- Sixteen consecutive usable samples (R269). -/
def execDutyLimitExit (d : Nat) (s : State) : Host.Outcome State Fault Refusal :=
  let c := s.chip
  s.nextChip (if 16 ≤ (c.spinSt d).usableRun then c.wr (F.spinStatus_duty_limited d) 0 else c)

/-! ### The motor pipeline of a servo period (R260 to R282) -/

/-- The sense window takes the terminal voltages of a subframe with its coast flag set (R260, R274). -/
def Chip.senseTake (c : Chip) (d : Nat) (f : Subframe) : Chip :=
  let st := c.rd (F.spinStatus_state d)
  if f.flags.testBit 2 && (st == 2 || st == 9 || (st == 8 && (c.spinSt d).checking)) then
    let p := c.phases d f.uPhase 1000
    let v := clarke p.1 p.2.1 p.2.2
    let psi := vectorAngle v % 2 ^ 32
    c.modSpin d fun s => { s with
      senseN := s.senseN + 1, senseU := s.senseU + magnitude v, senseA := v.1, senseB := v.2, senseLast := some psi
      senseAdv := s.senseAdv + s.senseLast.elim 0 fun l => signed 32 ((psi - l) % 2 ^ 32).toNat }
  else c

/-- The speeds and currents shown (spin.meas). -/
def Chip.showMeas (c : Chip) (d : Nat) : Chip :=
  let s := c.spinSt d
  let f := s.obs.hist.headD s.obs.initSpeed
  (((c.wri (F.spinMeas_speed d) (f / 10000)).wr (F.spinMeas_emf d) (magnitude (s.obs.ea, s.obs.eb) / 1000).toNat).wr (F.spinMeas_vbus d)
    (s.vBus / 1000).toNat).wri (F.spinMeas_iq d) (s.obs.iq / 1000)

/-- Sample runs after the observer: predictions, plausible and implausible runs (R268, R276, R278). -/
def Chip.sampleRuns (c : Chip) (d : Nat) (usable : Bool) (o : ObserverSt) : Chip :=
  let ok := c.plausibleSample d o
  let c := if usable then c else c.bump (F.spinCnt_predictions d)
  let c := c.modSpin d fun s => { s with
    obs := o
    lastSpeed := (o.hist.headD o.initSpeed / 10000).natAbs
    predRun := if usable then 0 else s.predRun + 1
    usableRun := if usable then s.usableRun + 1 else 0
    plausRun := if usable then (if ok then s.plausRun + 1 else 0) else s.plausRun
    implausRun := if usable then (if ok then 0 else s.implausRun + 1) else s.implausRun }
  c.wr (F.spinStatus_pred_run d) (min 15 (c.spinSt d).predRun)

/-- The spindle states whose outputs are driven (R273). -/
def spinDrives (st : Nat) : Bool := st == 3 || st == 4 || st == 5 || st == 6 || st == 7 || st == 10

/-- One PWM period's computation (R261, R263 to R270, R275): the observer after a period driven throughout, loops, duties, and the changes of state that its
results make; in BRAKE the count of shorted areas, which a brake check leaves (R267, R281, R282). -/
def Chip.pwmPeriod (c : Chip) (d : Nat) (f : Option Subframe) : Chip :=
  let s := c.spinSt d
  let st := c.rd (F.spinStatus_state d)
  let fresh := f.elim false fun f => f.flags.testBit 0
  let usable := f.elim false fun f => f.flags.testBit 0 && !f.flags.testBit 1 && !f.flags.testBit 4
  let cur := (f.filter fun _ => usable).map fun f => let p := c.phases d f.iPhase 1000; clarke p.1 p.2.1 p.2.2
  if st = 8 then
    let pk := (f.filter fun _ => fresh).map fun f => (f.iPhase.map fun x => (signed 16 x).natAbs).foldl max 0
    let lim := c.rd (F.spinLim_i_brake d)
    match pk with
    | some p => c.modSpin d fun s => { s with
        shorts := if s.checking || s.parking then s.shorts else if lim < p then s.shorts - 1 else if 8 * p < 7 * lim then min 10 (s.shorts + 1) else s.shorts }
    | none => c
  else if spinDrives st then
    let old : List Int := (s.obs.duty.drop 3).map fun (x : Nat) => roundDiv ((x : Int) * s.vBus) 65536
    let v := clarke (old.getD 0 0) (old.getD 1 0) (old.getD 2 0)
    let o := if s.driven then c.observe d s.obs v cur else s.obs
    let c := if s.driven then c.sampleRuns d usable o else c
    let i := cur.getD (o.ia, o.ib)
    let target := (c.rd (F.spinStatus_target d) : Int) * 10000
    let c :=
      if st = 3 then c.modSpin d fun x => { x with obs := c.currentLoop d s.vBus o i (c.rd (F.spinStart_i_align d) * 1000) 0 0 0 }
      else if st = 4 then
        let fOl := s.fOpen + roundDiv ((c.rd (F.spinStart_ramp_acc d) : Int) * 24576) 10000
        let th := (s.thOpen + angleIn (omegaOf fOl) 2) % 2 ^ 32
        let o := c.currentLoop d s.vBus o i 0 (c.rd (F.spinStart_i_ramp d) * 1000) th (th + angleIn (omegaOf fOl) 3)
        let c := c.modSpin d fun x => { x with obs := o, fOpen := fOl, thOpen := th }
        if (c.rd (F.spinSeq_hand_spd d) : Int) * 10000 ≤ fOl ∧ c.rd (F.spinLos_catch_ok d) ≤ (c.spinSt d).plausRun then
          let c := c.modSpin d fun x => { x with obs := { x.obs with xw := c.rd (F.spinStart_i_ramp d) * 1000, fRef := x.obs.hist.headD 0 } }
          (c.setSpin d 6).spinNext d
        else c
      else
        let goal := if s.climb then o.fRef else if st = 7 then 0 else target
        let sp := if st = 6 ∨ st = 7 then c.speedLoop d s.vBus o goal else (o, 0)
        let o := c.currentLoop d s.vBus sp.1 i 0 sp.2 o.th (o.th + angleIn o.w 3)
        c.modSpin d fun x => { x with obs := o }
    let c := c.showMeas d
    let fHat := o.hist.headD o.initSpeed
    if (st = 5 ∨ st = 10) ∧ usable ∧ 0 < (c.spinSt d).implausRun then c.catchFails d
    else if st = 7 ∧ fHat < (c.rd (F.spinSeq_brake_spd d) : Int) * 10000 then c.enterBrake d
    else c
  else c

/-- Coast and short of the next set-point area, by its place in its PWM period, and whether the period is driven throughout (R260, R265, R267, R281). -/
def Chip.motorArea (c : Chip) (d idx : Nat) : Chip :=
  let s := c.spinSt d
  let st := c.rd (F.spinStatus_state d)
  let low := decide (s.vBus < 1000000)
  let short := st = 8 && !s.checking && !s.parking && decide (idx < s.shorts)
  let coast := !short && (!spinDrives st || low)
  let c := (c.motorFlags d coast short).setPoint d fun p => { p with duty := c.dutyOut d (s.obs.duty.take 3) }
  let on := !coast && !short
  c.modSpin d fun s => if idx = 0 then { s with driven := s.drivenNow, drivenNow := on } else { s with drivenNow := s.drivenNow && on }

/-- The motor pipeline of a servo period: supply filter, sensing, a re-catch that over-current ends (R273), a fresh sample or the prediction of a lost one, the
next area. -/
def Chip.motorPeriod (c : Chip) (d : Nat) (f : Option Subframe) : Chip :=
  let idx := (c.linkSt d).txSf % 60 / 6
  let c := match f with
    | some f => (c.modSpin d fun s => { s with vBus := s.vBus + roundDiv ((f.vBus : Int) * 1000 - s.vBus) 8, overCurrent := f.flags.testBit 4 }).senseTake d f
    | none => c
  let c := if (c.spinSt d).overCurrent ∧ f.isSome ∧ c.rd (F.spinStatus_state d) = 10 then c.catchFails d else c
  let fresh := f.elim (idx == 1) fun f => f.flags.testBit 0
  let c := if fresh then c.pwmPeriod d f else c
  c.motorArea d idx

/-! ### Axes (R283 to R294) -/

/-- The winding currents of an axis now: zero in a fault, the move's current while it moves, otherwise running or standstill current. -/
def Chip.axisCurrents (c : Chip) (d x : Nat) : Int × Int :=
  let st := c.axisSt (axisNo d x)
  let amps := if c.rd (F.axisStatus_state d x) = 6 then 0 else match st.move with | some m => m.amps | none => c.axisAmps d x
  phaseAmps amps (c.rdi (F.axisStatus_pos d x))

/-- Writes both axes' currents and the delay of the one that stepped into the next set-point area (R287). -/
def Chip.axisArea (c : Chip) (d : Nat) : Chip :=
  let s := c.axisCurrents d 0
  let t := c.axisCurrents d 1
  let at_ (x : Nat) : Nat := ((c.axisSt (axisNo d x)).placed).getD 0
  let c := c.setPoint d fun p => { p with cStep := [unsigned 16 s.1, unsigned 16 s.2, unsigned 16 t.1, unsigned 16 t.2], sledAt := at_ 0, trayAt := at_ 1 }
  (c.modAxis (axisNo d 0) fun a => { a with placed := none }).modAxis (axisNo d 1) fun a => { a with placed := none }

/-- A move ends at its last step (R286, R293): a home sets position 0 and homed; the waiting request starts. -/
def Chip.moveEnds (c : Chip) (d x : Nat) (m : MoveSt) : Chip :=
  let c := if m.home && !m.emergency then (c.wr (F.axisStatus_pos d x) 0).wr (F.axisStatus_homed d x) 1 else c
  let w := (c.axisSt (axisNo d x)).waiting
  let c := ((c.wr (F.axisStatus_state d x) 0).wr (F.axisStatus_level d x) 0).modAxis (axisNo d x) fun a => { a with move := none, waiting := none }
  match w with
  | some q => (c.wr (F.axisStatus_req_waiting d x) 0).axisRequest d x q
  | none => c

/-- The step timer expires (R284 to R287, R292): one step is placed with its delay after t0, the next interval computed. Answers whether a move
that was not an emergency stop ended. -/
def Chip.axisStep (c : Chip) (d x delayNs : Nat) : Chip × Bool :=
  match (c.axisSt (axisNo d x)).move with
  | none => (c, false)
  | some m =>
    let pos := c.rdi (F.axisStatus_pos d x)
    let p := m.step (c.rd (F.axisStatus_level d x)) pos
    let pos' := pos + m.dir * p.2.1
    let m' := { m with v2 := p.2.2.1, slowing := p.2.2.2, firstFull := m.firstFull || pos' % 256 == 0 }
    let st := if m.emergency then 5 else if m'.slowing then 4 else if m'.v2 = 128 * m.vMax ^ 2 then 3 else 2
    let c := ((c.wri (F.axisStatus_pos d x) pos').wr (F.axisStatus_level d x) p.1).wr (F.axisStatus_state d x) st
    let c := c.modAxis (axisNo d x) fun a => { a with move := some (m'.load p.1 pos'), placed := some (min (delayNs / 10) 245) }
    if (if m.emergency then m'.v2 = 0 else pos' = m.target) then (c.moveEnds d x m, !m.emergency) else (c, false)

/-- How a request starts: 1 shared, 2 launch, 0 and 3 at once (axes.X.req). -/
def startOf (k : Nat) : AxisStart := if k = 1 then .shared else if k = 2 then .launch else .atOnce

def execAxisMoveTo (d x : Nat) (target : Int) (start : Nat) (s : State) : Host.Outcome State Fault Refusal :=
  s.nextChip (s.chip.axisRequest d x (.moveTo target (startOf start)))
def execAxisMoveBy (d x : Nat) (dist : Int) (start : Nat) (s : State) : Host.Outcome State Fault Refusal :=
  s.nextChip (s.chip.axisRequest d x (.moveBy dist (startOf start)))
def execAxisHome (d x start : Nat) (s : State) : Host.Outcome State Fault Refusal := s.nextChip (s.chip.axisRequest d x (.home (startOf start)))
def execAxisPark (d : Nat) (s : State) : Host.Outcome State Fault Refusal := s.nextChip (s.chip.axisRequest d 0 .park)
def baseAxisEmergencyStop (d x : Nat) (s : State) : Host.Outcome State Fault Refusal := s.nextChip (s.chip.axisStop d x)

/-- A disarm ends an axis's wait (R290). -/
def execAxisDisarm (d x : Nat) (s : State) : Host.Outcome State Fault Refusal :=
  let c := s.chip
  s.nextChip (if (c.axisSt (axisNo d x)).armed.isSome then
    (c.wr (F.axisStatus_state d x) 0).modAxis (axisNo d x) fun a => { a with armed := none } else c)

/-- The way an armed request starts. -/
def AxisReq.start : AxisReq → AxisStart
  | .moveTo _ s => s | .moveBy _ s => s | .home s => s | .park => .atOnce

/-- Fires an axis armed for a way of starting. -/
def Chip.fireAxis (c : Chip) (how : AxisStart) (d x : Nat) : Chip :=
  match (c.axisSt (axisNo d x)).armed with
  | some q => if q.start = how then c.axisBegin d x q else c
  | none => c

/-- A write to pkg.axes.go fires every axis armed for the shared start in both dies (R290). -/
def Chip.sharedStart (c : Chip) : Chip := (List.range 48).foldl (fun c n => c.fireAxis .shared (n / 2) (n % 2)) c

def execSharedStart (s : State) : Host.Outcome State Fault Refusal := s.nextChip s.chip.sharedStart

/-- ss_delay ms without a step (R289). -/
def execAxisStandstill (d x : Nat) (s : State) : Host.Outcome State Fault Refusal :=
  let c := s.chip
  s.nextChip (if (c.axisSt (axisNo d x)).move.isNone then c.wr (F.axisStatus_reduced d x) 1 else c)

/-- The sled follows: tracking in FOLLOW with sled_en set, or in FINE by its feed-forward (R241, R288). DEDUCED, notes/assumptions/100.md. -/
def Chip.followMode (c : Chip) (d : Nat) : Bool :=
  (c.rd (F.srvStatus_tstate d) == 3 || c.rd (F.srvStatus_tstate d) == 4) && c.rdb (F.srvCtrl_sled_en d)

/-- Follow microsteps: one a period in follow mode, a profile move discards them (R288, R289). -/
def Chip.followStep (c : Chip) (d : Nat) : Chip :=
  let a := c.axisSt (axisNo d 0)
  if a.move.isSome || c.rd (F.axisStatus_state d 0) = 6 then c.modAxis (axisNo d 0) fun a => { a with follow := 0 }
  else if a.follow = 0 ∨ !c.followMode d then c
  else
    let s : Int := if 0 < a.follow then 1 else -1
    let c := (c.wri (F.axisStatus_pos d 0) (c.rdi (F.axisStatus_pos d 0) + s)).wr (F.axisStatus_reduced d 0) 0
    c.modAxis (axisNo d 0) fun a => { a with follow := a.follow - s, placed := some 0 }

/-- Counts periods in which a sensed phase current differs from its demand by more than i_err (R294). -/
def Chip.axisCheck (c : Chip) (d x : Nat) (f : Subframe) : Chip :=
  let dem := c.axisCurrents d x
  let sense (i : Nat) : Int := signed 8 (f.iStep.getD (2 * x + i) 0) * 10
  let lim := c.rd (F.axisHome_i_err d x)
  let bad := decide (lim < (sense 0 - dem.1).natAbs) || decide (lim < (sense 1 - dem.2).natAbs)
  c.modAxis (axisNo d x) fun a => { a with errRun := if bad then a.errRun + 1 else 0 }

/-- An axis fault (R294): stepping stops, homed clears, the event; answers whether the axis faulted. -/
def Chip.axisFault (c : Chip) (d x : Nat) : Chip × Bool :=
  if (c.axisSt (axisNo d x)).errRun < 64 ∨ c.rd (F.axisStatus_state d x) = 6 then (c, false)
  else
    let c := ((c.wr (F.axisStatus_state d x) 6).wr (F.axisStatus_homed d x) 0).wr (F.axisStatus_req_waiting d x) 0
    let c := c.modAxis (axisNo d x) fun a => { a with move := none, armed := none, waiting := none, follow := 0 }
    (c.raiseClu d 14 6 [x, 0, 0], true)

end Sys2Proof.Machine
end

