-- ==== Sys2Proof/Machine/Buffer.lean ====
section
/-! DEFINITION. Buffer memory, tile checks and CRC snoop units (11_buffer_tiles_and_checks.md). -/
namespace Sys2Proof.Machine

def Chip.modTile (c : Chip) (t : Nat) (f : TileRec → TileRec) : Chip := { c with tiles := tabMod c.tiles t f }
def Chip.tileSt (c : Chip) (t : Nat) : TileRec := tabGet c.tiles t

/-! ### Addresses (R369) -/

/-- Stack of a DRAM address. -/
def stackOf (a : Nat) : Nat := a / 0x200000000

/-- The tile an address lies in, in the tile area of its stack. -/
def addrTile (a : Nat) : Option Nat :=
  if dramMapped a ∧ a % 0x200000000 < 2 ^ 32 then some (stackOf a * 2 ^ 20 + a % 0x200000000 / 4096) else none

/-- The first tile whose entry lies in the block of an address of a tile table (R369, tile table). -/
def tableTile (a : Nat) : Option Nat :=
  let b := a % 0x200000000
  if 0x140000000 ≤ b ∧ b < 0x142000000 then some (stackOf a * 2 ^ 20 + (b - 0x140000000) / 64 * 2) else none

/-- An address lies in a half of the map cache (R369). -/
def inMapCache (a : Nat) : Bool := decide (0x100000000 ≤ a % 0x200000000) && decide (a % 0x200000000 < 0x140000000)

/-- Region whose bucket counts errors at an address (R373). -/
def bucketRegion (a : Nat) : Nat := 2 * stackOf a + (if a % 0x200000000 < 7 * 2 ^ 29 then 0 else 1)

/-! ### Errors (R371 to R373) -/

/-- The leak timer of a region has ticked and its level has not fallen yet; the timer runs on from reset (R373). -/
def Chip.leakDue (c : Chip) (r : Nat) : Bool :=
  decide (tabGet (c.bufSt (r / 2)).leakAt (r % 2) + c.rd (F.bucket_leak_min r) * 60 * 10 ^ 9 ≤ c.now)

/-- A tick that is due: the level falls by one when it is above 0 (R373). -/
def Chip.leak (c : Chip) (r : Nat) : Chip :=
  if c.leakDue r then
    (c.wr (F.bucket_level r) (c.rd (F.bucket_level r) - 1)).modBuf (r / 2) fun x => { x with
      leakAt := tabMod x.leakAt (r % 2) (· + c.rd (F.bucket_leak_min r) * 60 * 10 ^ 9) }
  else c

/-- A correctable error: counted, and the region's bucket fills or overflows with its event; a tick of the same cycle comes first (R373). -/
def Chip.correctable (c : Chip) (a : Nat) : Chip :=
  let r := bucketRegion a
  let c := (c.bump (F.dramErr_corrected (stackOf a))).leak r
  let l := c.rd (F.bucket_level r)
  if l < c.rd (F.bucket_depth r) then c.wr (F.bucket_level r) (l + 1) else c.raiseRgn r 1 [l]

/-- An uncorrectable error: counted and reported, and the block stays bad. In a tile it poisons the tile; a page of the map cache is read again from
flash, or built again from flash and journal, and so written whole (R352, R372, R380; DEDUCED, notes/assumptions/107.md). -/
def Chip.uncorrectable (c : Chip) (a : Nat) : Chip :=
  let e := stackOf a
  let b := a / 64 * 64
  let again := inMapCache a && c.rdb F.mossStatus_mounted && !c.rdb F.mossStatus_offline
  let c := c.modBuf e fun x => { x with bad := if again then x.bad.filter (· != b) else if x.bad.contains b then x.bad else b :: x.bad }
  let c := ((c.bump (F.dramErr_uncorr e)).wr (F.dramUe_addr e) b).raiseDie e 1 (beBytes 8 b)
  match addrTile a with
  | some t => c.poisonTile t 0
  | none => c

def Chip.badBlock (c : Chip) (a : Nat) : Bool := (c.bufSt (stackOf a)).bad.contains (a / 64 * 64)

/-! ### Merge buffer (R374, R375) -/

/-- The bytes of a mask, over old ones. -/
def mergeBytes (old new : List Nat) (mask : Nat) : List Nat :=
  ((old.zip new).zipIdx).map fun e => if mask.testBit e.2 then e.1.2 else e.1.1

/-- A tile's entry as 32 bytes of its table give it. -/
def TileRec.fromBytes (r : TileRec) (bs : List Nat) : TileRec :=
  { r with
    check := beNat (bs.take 8), beats := beNat ((bs.drop 8).take 8), state := bs.getD 16 0, uses := bs.getD 17 0
    length := beNat ((bs.drop 18).take 2), owner := beNat ((bs.drop 20).take 4) }

/-- The bytes that DRAM holds at an address; the tile tables hold the entries of the tiles (R369). -/
def State.readBytes (s : State) (a n : Nat) : List Nat :=
  (List.range n).map fun i =>
    match tableTile (a + i) with
    | some t => (tileEntryBytes (s.chip.tileSt (t + (a + i) % 64 / 32))).getD ((a + i) % 32) 0
    | none => (memRead s.dram (a + i)).toNat

/-- A block is written whole: its check bytes with it, an entry of the merge buffer for it is discarded (R371, R375). -/
def State.writeBlock (s : State) (b : Nat) (bs : List Nat) : State :=
  let chip := s.chip.modBuf (stackOf b) fun x => { x with merge := x.merge.filter (fun k => k.block != b), bad := x.bad.filter (· != b) }
  match tableTile b with
  | some t => { s with chip := (chip.modTile t fun r => r.fromBytes bs).modTile (t + 1) fun r => r.fromBytes (bs.drop 32) }
  | none => { s with dram := memWrites s.dram b bs, chip := chip }

/-- An entry leaves by a write of the whole block or by read-modify-write; one that meets an uncorrectable error writes nothing (R375). -/
def State.writeEntry (s : State) (e : Nat) (m : MergeEntry) : State :=
  if m.mask = 2 ^ 64 - 1 then s.writeBlock m.block m.data
  else if s.chip.badBlock m.block then
    { s with chip := (s.chip.modBuf e fun x => { x with merge := x.merge.filter fun k => k.block != m.block }).uncorrectable m.block }
  else s.writeBlock m.block (mergeBytes (s.readBytes m.block 64) m.data m.mask)

/-- A block that is read: an entry of the merge buffer for it leaves first (R375). -/
def State.flushBlock (s : State) (a : Nat) : State :=
  match (s.chip.bufSt (stackOf a)).merge.find? fun k => k.block == a / 64 * 64 && !k.tile with
  | some k => s.writeEntry (stackOf a) k
  | none => s

/-- Puts a narrow write into the merge buffer: into the block's entry, or a new one, the oldest that holds no tile beat leaving when none is
free; a full entry is written at once (R374, R375, R377). Answers none when a tile beat must stall. -/
def State.mergeWrite (s : State) (a : Nat) (bs : List Nat) (tile : Bool) : Option State :=
  let e := stackOf a
  let b := a / 64 * 64
  let off := a - b
  let x := s.chip.bufSt e
  let mask := ((List.range bs.length).map fun i => 2 ^ (off + i)).sum
  let put (m : MergeEntry) : MergeEntry := { m with mask := m.mask ||| mask, data := patchBytes m.data off bs }
  match x.merge.find? fun m => m.block == b with
  | some m =>
    let m := put m
    let s := { s with chip := s.chip.modBuf e fun y => { y with merge := y.merge.map fun k => if k.block = b then m else k } }
    some (if m.mask = 2 ^ 64 - 1 ∧ !m.tile then s.writeEntry e m else s)
  | none =>
    if tile && decide (48 ≤ (x.merge.filter (·.tile)).length) then none
    else
      let s := if 64 ≤ x.merge.length then
          match x.merge.find? fun m => !m.tile with
          | some m => let s := s.writeEntry e m; { s with chip := s.chip.bump (F.dramErr_evictions e) }
          | none => s
        else s
      some { s with chip := s.chip.modBuf e fun y => { y with merge := y.merge ++ [put ⟨b, 0, List.replicate 64 0, s.chip.now, tile⟩] } }

/-- A beat of a filling tile is complete: written once and marked (R377). -/
def State.writeBeat (s : State) (t n : Nat) (bs : List Nat) : State :=
  let s := s.writeBlock (tileAddr t + 64 * n) bs
  { s with chip := s.chip.modTile t fun r => { r with beats := r.beats ||| 2 ^ n } }

/-- A write into a tile that is being filled: beats are written at most once, narrower writes are gathered, and stall when 48 entries hold
beats (R377, R378). Answers the state and the bus result. -/
def State.tileWrite (s : State) (t off : Nat) (bs : List Nat) : State × Nat :=
  let r := s.chip.tileSt t
  let n := off / 64
  if r.state ≠ 1 ∨ 4096 < off + bs.length ∨ 64 < off % 64 + bs.length ∨ r.beats.testBit n then (s, 4)
  else if bs.length = 64 then (s.writeBeat t n bs, 6)
  else
    match s.mergeWrite (tileAddr t + off) bs true with
    | none => (s, 5)
    | some s =>
      match (s.chip.bufSt (stackOf (tileAddr t))).merge.find? fun m => m.block == tileAddr t + 64 * n && m.mask == 2 ^ 64 - 1 with
      | some m => (s.writeBeat t n m.data, 6)
      | none => (s, 6)

/-- Pieces of a write that lie in one 64-byte block each. -/
def blockPieces : Nat → Nat → List Nat → List (Nat × List Nat)
  | 0, _, _ => []
  | _, _, [] => []
  | n + 1, a, bs => let k := 64 - a % 64; (a, bs.take k) :: blockPieces n (a + k) (bs.drop k)

/-- One piece of a master's write (R369, R374, R378). -/
def State.writePiece (s : State) (m a : Nat) (bs : List Nat) : State :=
  let e := stackOf a
  let answer (s : State) (k : Nat) : State := { s with chip := s.chip.emit (.bus m k []) }
  if !dramMapped a || !dramMapped (a + bs.length - 1) then answer s 2
  else if (s.chip.dieSt e).out then answer s 1
  else
    match addrTile a with
    | some t => let w := s.tileWrite t (a - tileAddr t) bs; answer w.1 w.2
    | none =>
      if bs.length = 64 then answer (s.writeBlock a bs) 6
      else if s.chip.rdb (F.dramCtrl_narrow e) then
        let s := { s with chip := (s.chip.bump (F.dramErr_narrow_refused e)).raiseDie e 4 (beBytes 2 m ++ beBytes 8 a) }
        answer s 3
      else
        match s.mergeWrite a bs false with
        | some s => answer s 6
        | none => answer s 5

/-- A frozen master starts no transaction (R26, R500). -/
def Chip.busFrozen (c : Chip) (m : Nat) : Bool := decide (m ≤ 360) && c.rdb (F.mst_frozen m)

def execDramWrite (m a : Nat) (bs : List Nat) (s : State) : Host.Outcome State Fault Refusal :=
  .next (if s.chip.busFrozen m then s else (blockPieces bs.length a bs).foldl (fun s p => s.writePiece m p.1 p.2) s)

/-- The block that a read gives: bytes of a beat that is being gathered are seen over it (R375, R377; DEDUCED, notes/assumptions/107.md). -/
def State.seenBlock (s : State) (b : Nat) : List Nat :=
  match (s.chip.bufSt (stackOf b)).merge.find? fun k => k.block == b with
  | some k => mergeBytes (s.readBytes b 64) k.data k.mask
  | none => s.readBytes b 64

/-- A master's read of a block: what the merge buffer holds of it is written first, then the block is judged by its error (0 none, 1
correctable, 2 uncorrectable): corrected data are written back, an uncorrectable block answers poison (R369, R370, R372, R375). -/
def State.readBlock (s : State) (m a err : Nat) : State :=
  let e := stackOf a
  let b := a / 64 * 64
  let answer (s : State) (k : Nat) (d : List Nat) : State := { s with chip := s.chip.emit (.bus m k d) }
  if !dramMapped a then answer s 2 []
  else if (s.chip.dieSt e).out then answer s 1 []
  else
    let s := s.flushBlock a
    if err = 2 || s.chip.badBlock a then answer { s with chip := s.chip.uncorrectable a } 1 []
    else
      let s := if err = 1 then { s with chip := s.chip.correctable a } else s
      answer s 0 (s.seenBlock b)

def execDramRead (m a err : Nat) (s : State) : Host.Outcome State Fault Refusal :=
  .next (if s.chip.busFrozen m then s else s.readBlock m a err)

/-- The leak timer of a region ticks (R373). -/
def execBucketLeakTick (r : Nat) (s : State) : Host.Outcome State Fault Refusal := s.nextChip (s.chip.leak r)

/-- An entry older than merge_ns, counted in 10 ns, is written (R375). -/
def execMergeEntryAge (e block : Nat) (s : State) : Host.Outcome State Fault Refusal :=
  match (s.chip.bufSt e).merge.find? fun m => m.block == block && !m.tile with
  | some m => .next (if m.since + 10 * s.chip.rd (F.dramCtrl_merge_ns e) ≤ s.chip.now then s.writeEntry e m else s)
  | none => .next s

def execTileBeatWrite (m t off : Nat) (bs : List Nat) (s : State) : Host.Outcome State Fault Refusal :=
  if s.chip.busFrozen m then .next s
  else
    let w := s.tileWrite t off bs
    .next { w.1 with chip := w.1.chip.emit (.bus m w.2 []) }

/-- The uses that waited for a close read a valid tile; the uses over, a free that waited for them is made (R378, R380). -/
def Chip.usesEnd (c : Chip) (t : Nat) : Chip :=
  let r := c.tileSt t
  let c := r.waiting.foldl (fun c u => c.emit (.bus u.1 0 [])) c
  if r.freeing ∧ r.waiting ≠ [] then c.modTile t fun _ => default else c.modTile t fun r => { r with uses := r.uses - r.waiting.length, waiting := [] }

/-- The fill is closed: gathered bytes enter the tile, unwritten ones are zero, the check is fixed (R376, R377). -/
def execTileClose (t len : Nat) (s : State) : Host.Outcome State Fault Refusal :=
  let r := s.chip.tileSt t
  if r.state ≠ 1 then .next s
  else
    let e := stackOf (tileAddr t)
    let es := (s.chip.bufSt e).merge.filter (·.ofTile t)
    let bytes := (List.range 64).flatMap fun n =>
      if r.beats.testBit n then memReads s.dram (tileAddr t + 64 * n) 64
      else match es.find? fun m => m.block == tileAddr t + 64 * n with
        | some m => mergeBytes (List.replicate 64 0) m.data m.mask
        | none => List.replicate 64 0
    let chip := (s.chip.modBuf e fun x => { x with merge := x.merge.filter fun m => !m.ofTile t }).cleanTile t
    .next { s with
      dram := memWrites s.dram (tileAddr t) bytes
      chip := (chip.modTile t fun r => { r with state := 2, check := tileCheck t bytes, length := min len 4096 }).usesEnd t }

/-- The context that owns a tile, when one does. -/
def Chip.tileContext (c : Chip) (t : Nat) : Option (Nat × Nat) :=
  let o := (c.tileSt t).owner
  if (c.sess (o / 4096)).live && (c.ctxSt (o / 4096) (o % 4096)).tiles.contains t then some (o / 4096, o % 4096) else none

/-- The owner frees a tile whose uses are 0; a poisoned tile is zeroed, closed and read back: free on a match, else quarantined (R378, R380). -/
def execTileFree (t : Nat) (checkOk : Bool) (s : State) : Host.Outcome State Fault Refusal :=
  let r := s.chip.tileSt t
  let e := t / 2 ^ 20
  if r.uses ≠ 0 then s.nextChip (s.chip.modTile t fun r => { r with freeing := true })
  else if r.state = 3 then
    let dram := memWrites s.dram (tileAddr t) (List.replicate 4096 0)
    if checkOk then .next { s with dram := dram, chip := (s.chip.modTile t fun _ => default).cleanTile t }
    else
      .next { s with dram := dram, chip := ((s.chip.modTile t fun r => { r with state := 4 }).bump (F.tilePoison_quarantined e)).raiseDie e 3 (beBytes 4 t) }
  else if r.state = 4 then .next s
  else s.nextChip ((s.chip.modTile t fun _ => default).dropGathered [t])

/-- The scrubber reads its next block; a write waits until its write-back, so no other one comes between (R375, R381, R382). -/
def execScrubBlock (e err : Nat) (s : State) : Host.Outcome State Fault Refusal :=
  let b := (s.chip.bufSt e).scrubNext
  let a := e * 0x200000000 + 64 * b
  if s.chip.rdb (F.dramCtrl_scrub_en e) && !(s.chip.dieSt e).out then
    let s := s.flushBlock a
    let c := s.chip
    let c := if err = 2 || c.badBlock a then c.uncorrectable a else if err = 1 then c.correctable a else c
    let total := 7 * 2 ^ 24
    let next := b + 1
    let c := (c.modBuf e fun x => { x with scrubNext := if next = total then 0 else next }).wr (F.dramScrub_pos e) (if next = total then 0 else next * 1000 / total)
    s.nextChip (if next = total then c.bump (F.dramScrub_passes e) else c)
  else .next s

/-! ### Snoop units by register (R386) -/

def execSnoopRunWrite (e u v : Nat) (s : State) : Host.Outcome State Fault Refusal :=
  let c := s.chip
  s.nextChip (if c.rdb (F.snoopCfg_en e u) then c
    else (c.wr (F.snoopRun_run e u) (v % 2 ^ snoopWidth (c.rd (F.snoopCfg_poly e u)))).modBuf e fun x => { x with snoopCount := tabSet x.snoopCount u 0 })

def execSnoopRunRead (e u : Nat) (s : State) : Host.Outcome State Fault Refusal :=
  let c := s.chip
  s.nextChip ((c.wr (F.snoopCount_count e u) (tabGet (c.bufSt e).snoopCount u)).emit (.bus 0 0 (beBytes 8 (c.rd (F.snoopRun_run e u)))))

end Sys2Proof.Machine
end

