-- ==== Sys2Proof/Machine/Windows.lean ====
section
/-! DEFINITION. Masters, what the windows permit them, freezes and what isolates a master (15_trust_presence_containment.md, R497 to R501; R20, R26). A
transaction's space is 0 DRAM or 1 management; its kind 0 a read, 1 a write, 2 a read-modify-write. -/
namespace Sys2Proof.Machine

/-! ### Masters (R497) -/

/-- The kinds of masters, with their place. -/
inductive FabricMaster where
  | keeper (die : Nat) | app (die : Nat) | dma (die ch : Nat) | data (session : Nat) | cluster (port : Nat) | debug | unknown
deriving DecidableEq, Repr

/-- A master by its number. -/
def masterOf (m : Nat) : FabricMaster :=
  if m < 16 then (if m % 8 = 0 then .keeper (m / 8) else .app (m / 8))
  else if m < 80 then .dma ((m - 16) / 32) ((m - 16) % 32)
  else if m < 336 then .data (m - 79)
  else if m < 360 then .cluster (m - 336)
  else if m = 360 then .debug else .unknown

/-- The die on whose fabric a master issues. -/
def Chip.masterDie (c : Chip) (m : Nat) : Nat :=
  match masterOf m with
  | .keeper e | .app e | .dma e _ => e
  | .data n => (c.sess n).die
  | .cluster d => portDie d
  | .debug | .unknown => c.servingDie

/-! ### Windows (R499) -/

/-- The window table's addresses. -/
def inWindowTable (a : Nat) : Bool := decide (0x50900000 ≤ a) && decide (a < 0x50900000 + 16 * 16 * 361)

/-- A window of a master holds a transaction whole and grants its right (R499). -/
def Chip.windowPermits (c : Chip) (w space kind a len : Nat) : Bool :=
  c.rdb (F.win_en w) && c.rd (F.win_space w) == space && decide (c.rd (F.win_base w) * 4096 ≤ a) && decide (a + len ≤ c.rd (F.win_end w) * 4096) &&
    (kind == 1 || c.rdb (F.win_rd w)) && (kind == 0 || c.rdb (F.win_wr w))

/-- A data engine's access falls in one tile owned by a context of its session (R499). -/
def Chip.ownsTile (c : Chip) (n a len : Nat) : Bool :=
  match addrTile a with
  | some t => addrTile (a + len - 1) == some t && (c.tileSt t).owner / 4096 == n && (c.sess n).live
  | none => false

/-- A transaction is permitted: one window of the table as it stands; a data engine's in a tile of its session besides; a window table is the
keeper's to write (R498, R499). -/
def Chip.permits (c : Chip) (m space kind a len : Nat) : Bool :=
  ((List.range 16).any fun i => c.windowPermits (16 * m + i) space kind a len) &&
    (match masterOf m with
      | .data n => space == 0 && c.ownsTile n a len
      | .keeper _ => true
      | _ => space == 0 || kind == 0 || !((List.range len).any fun i => inWindowTable (a + i)))

/-! ### Violations and freezes (R26, R500, R501) -/

/-- The masters that freeze with a master: those of its freeze domain (R26, R497). The DMA channels of a region stop together, with its decoder pool, frond
slice and flash engines; the application cores of a die stop with its die-common DMA channels. DEDUCED, notes/assumptions/76.md. -/
def frozenWith (m : Nat) : List Nat :=
  match masterOf m with
  | .keeper _ | .unknown => []
  | .app e => ((List.range 7).map fun i => 8 * e + 1 + i) ++ (List.range 8).map fun i => 40 + 32 * e + i
  | .dma e ch =>
    if ch < 24 then (List.range 12).map fun i => 16 + 32 * e + ch / 12 * 12 + i
    else ((List.range 7).map fun i => 8 * e + 1 + i) ++ (List.range 8).map fun i => 40 + 32 * e + i
  | .data _ | .cluster _ | .debug => [m]

/-- The region whose domain freezes with a master, if one does (R26). -/
def frozenRegion (m : Nat) : Option Nat :=
  match masterOf m with
  | .dma e ch => if ch < 24 then some (2 * e + ch / 12) else none
  | _ => none

/-- The freeze domain of a master stops, its state preserved (R26, R500). -/
def Chip.freezeDomain (c : Chip) (m : Nat) : Chip :=
  let c := (frozenWith m).foldl (fun c i => c.wr (F.mst_frozen i) 1) c
  match frozenRegion m with
  | some r => c.modRgn r fun s => { s with frozen := true }
  | none => c

/-- A violation is counted, and the event and the record entry name it; nothing is performed, a read returns poison (R500). -/
def Chip.noteViolation (c : Chip) (m space kind a : Nat) : Chip :=
  let e := c.masterDie m
  let c := (c.bump (F.mst_violations m)).emit (.bus m 1 [])
  let c := (((c.wr (F.contLast_master e) m).wr (F.contLast_space e) space).wr (F.contLast_write e) (if kind = 0 then 0 else 1)).wr
    (F.contLast_addr e) (a % 2 ^ 48)
  c.raiseDie e 5 (beBytes 2 m ++ [space, if kind = 0 then 0 else 1] ++ beBytes 8 a)

/-- A cluster engine freezes; its burn stops, its drive goes on spinning and tracking (R26, R28, R501). -/
def Chip.freezeCluster (c : Chip) (d : Nat) : Chip :=
  ((c.freezeDomain (336 + d)).modClu d fun h => { h with frozen := true }).burnInterrupt d 11

/-- What a master belongs to is out: a cluster's engine is isolated from the fabric, a region's DMA channels and the masters of a die have gone with it (R20). -/
def Chip.masterOut (c : Chip) (m : Nat) : Bool :=
  (c.dieSt (c.masterDie m)).out || (match masterOf m with
    | .cluster d => (c.cluSt d).out || (c.servoSt d).stopped || (c.rgnSt (portRegion d)).out
    | .dma e ch => decide (ch < 24) && (c.rgnSt (2 * e + ch / 12)).out
    | _ => false)

/-- A master may issue: it is neither frozen nor out, the debug port is unlocked (R20, R500, R503). -/
def Chip.issues (c : Chip) (m : Nat) : Bool :=
  decide (m ≤ 360) && !c.rdb (F.mst_frozen m) && !c.masterOut m && (m != 360 || c.rdb F.trust_debug_unlocked)

end Sys2Proof.Machine
end

