-- ==== Sys2Proof/Machine/Release.lean ====
section
/-! DEFINITION. The servo period of a region (07_servo_engine.md, R227 to R259; R115, R116): the release of subframes, the five pipelines, the
next set-point area, the servo trace. -/
namespace Sys2Proof.Machine

/-! ### Release of a subframe (R100, R112, R115) -/

/-- The copy a period uses, with its lane: of the lowest-numbered lane that is up, whose copies are in use, and that delivered one (R100, R119). -/
def Chip.releasedCopy (c : Chip) (d : Nat) : Option (Nat × Subframe) :=
  ((maskList 4 (c.rd (F.hlinkStatus_lane_up d))).filterMap fun n =>
    let l := c.laneSt (laneNo d n)
    if l.servoUse then l.copy.map fun f => (n, f) else none).head?

/-- Takes a subframe, or counts it lost with its event (R115, R590); before the first subframe of this UP none is expected. -/
def Chip.takeRelease (c : Chip) (d : Nat) : Chip × Option Subframe :=
  let f := c.releasedCopy d
  let c := (List.range 4).foldl (fun c n => c.modLane (laneNo d n) fun s => { s with copy := none }) c
  match f, (c.linkSt d).expSeq with
  | some (n, x), _ =>
    (((c.wr (F.hlinkSrv_lost_run d) 0).wr (F.hlinkStatus_srv_lane d) n).modLink d fun l =>
      { l with expSeq := some ((x.seq + 1) % 65536), lostRun := 0, point := { l.point with seq := x.seq } }, some x)
  | none, none => (c, none)
  | none, some e =>
    let c := (c.bump (F.hlinkSrv_lost_total d)).bump (F.hlinkSrv_lost_run d)
    let c := c.modLink d fun l => { l with expSeq := some ((e + 1) % 65536), lostRun := l.lostRun + 1, point := { l.point with seq := e } }
    (c.raiseClu d 2 7 (beBytes 2 e ++ [c.rd (F.hlinkSrv_lost_run d)]), none)

/-- Sums the sensors while the offsets of this UP are measured, after the head trims, with the lasers off (R254, R530). -/
def Chip.offsetTake (c : Chip) (d : Nat) (f : Option Subframe) : Chip :=
  match f with
  | some f =>
    let s := c.servoSt d
    if !s.trimDone || s.offDone || decide (4096 ≤ s.offN) || (c.linkSt d).point.flags.testBit 1 then c
    else
      let v : List Int := (f.quad.map fun (x : Nat) => (x : Int)) ++ [signed 16 f.tilt]
      c.modServo d fun s => { s with offN := s.offN + 1, offSum := (List.range 5).map fun i => s.offSum.getD i 0 + v.getD i 0 }
  | none => c

/-! ### Focus (R243, R244, R247) -/

/-- A fraction of SUM_ref in 1/256 lies above SUM. -/
def belowFrac (sum frac ref : Nat) : Bool := decide (256 * sum < frac * ref)

/-- Whether the loops of focus and tracking are in a defect hold (R243). -/
def Chip.inHold (c : Chip) (d : Nat) : Bool := c.rd (F.srvStatus_fstate d) == 4

/-- The defect hold and the counts of R244 and R247 of a period in LOCK or HOLD that was not predicted. -/
def Chip.holdTests (c : Chip) (d : Nat) (i : Inputs) : Chip :=
  let st := c.rd (F.srvStatus_fstate d)
  let f := (c.servoSt d).f
  if st ≠ 3 ∧ st ≠ 4 then c
  else
    let low := belowFrac i.sum (c.rd (F.srvGuard_def_frac d)) f.sumRef
    let recover := if low then 0 else f.recover + 1
    let next := if st = 3 then (if low then 4 else 3) else if 4 ≤ recover then 3 else 4
    (c.wr (F.srvStatus_fstate d) next).modServo d fun s => { s with f := { s.f with
      recover := if st = 3 then 0 else recover
      holdLen := if next = 4 then f.holdLen + 1 else 0
      lossRun := if belowFrac i.sum (c.rd (F.srvGuard_loss_frac d)) f.sumRef then f.lossRun + 1 else 0 } }

/-- Closes focus (R239, R247): section states zero, the integrator as named. -/
def Chip.closeFocus (c : Chip) (d : Nat) (integ : Int) : Chip :=
  (c.wr (F.srvStatus_fstate d) 2).modServo d fun s => { s with
    focus := closedLoop integ, f := { s.f with periods := 0, settleRun := 0, settleSum := 0 } }

/-- Slope of the sweep in a period: 2 sweep_max in sweep_ms. -/
def Chip.sweepSlope (c : Chip) (d : Nat) : Int :=
  divFree (2 * c.sweepMax d * 24576) ((c.rd (F.srvAcq_sweep_ms d) : Int) * 10 ^ 7)

/-- The sensor calibration from the target S-curve of a first acquisition (R255, step 1). -/
def Chip.curveCal (c : Chip) (d : Nat) (pp mid : Int) : Chip :=
  let g := divFree ((c.rd (F.srvMech_pp_nm d) : Int) * 4096 * 2 ^ 24) (1000 * pp)
  ((c.wrSat (F.srvSense_fe_gain d) g.toNat).wri (F.srvSense_fe_off d) (roundDiv mid 512)).modServo d fun s => { s with calRound := 1 }

/-- The S-curve under the spot: a stretch of periods with SUM of at least 256, the level below which R230 gives fe_n as 0. One whose peak reaches
sum_acq is counted and recorded as it ends (R247). -/
def Chip.curveTake (c : Chip) (d : Nat) (i : Inputs) : Chip :=
  let f := (c.servoSt d).f
  if 256 ≤ i.sum then
    c.modServo d fun s => { s with f := { s.f with
      inCurve := true
      peakSum := if f.inCurve then max f.peakSum i.sum else i.sum
      peakHi := if f.inCurve then max f.peakHi i.fe else i.fe
      peakLo := if f.inCurve then min f.peakLo i.fe else i.fe } }
  else if f.inCurve then
    let counted := decide (c.rd (F.srvAcq_sum_acq d) ≤ f.peakSum)
    let pp := f.peakHi - f.peakLo
    let mid := (f.peakHi + f.peakLo) / 2
    let isTarget := counted && f.count == f.target
    let c := c.modServo d fun s => { s with f := { s.f with
      inCurve := false
      count := if counted then f.count + 1 else f.count
      fePP := if counted then pp else f.fePP
      feMid := if counted then mid else f.feMid } }
    if isTarget && (c.servoSt d).calStep == 1 then c.curveCal d pp mid else c
  else c

/-- One period of SWEEP (R247): S-curves are counted while the output rises. -/
def Chip.sweepPeriod (c : Chip) (d : Nat) (i : Inputs) (last : Int) : Chip :=
  let f := (c.servoSt d).f
  let lim := c.sweepMax d
  let slope := c.sweepSlope d
  if f.dir < 0 then
    let out := max (-lim) (f.sweepOut - slope)
    c.modServo d fun s => { s with
      focus := closedLoop out
      f := { s.f with sweepOut := out, dir := if out = -lim then 1 else -1, inCurve := false, count := 0 } }
  else
    let out := min lim (f.sweepOut + slope)
    let c := (c.modServo d fun s => { s with focus := closedLoop out, f := { s.f with sweepOut := out } }).curveTake d i
    let f := (c.servoSt d).f
    let ready := decide ((c.servoSt d).calStep ≠ 1) || (c.servoSt d).calRound == 1
    if ready && f.inCurve && f.count == f.target && decide (c.rd (F.srvAcq_sum_acq d) ≤ i.sum) && crossesZero last i.fe then c.closeFocus d out
    else if out = lim then
      if 3 ≤ f.tries + 1 then
        (((c.rampDown d).wr (F.srvStatus_fstate d) 0).focusEvent d 0).servoDone d
      else c.modServo d fun s => { s with f := { s.f with tries := f.tries + 1, count := 0, dir := -1, inCurve := false } }
    else c

/-- One period of KICK, COAST or BRAKE (R247): the output and the two changes of state that the error signal makes. -/
def Chip.jumpPeriod (c : Chip) (d : Nat) (i : Inputs) (last : Int) : Chip :=
  let st := c.rd (F.srvStatus_fstate d)
  let k := fromDemand (c.rd (F.srvJump_kick d))
  let c := c.modServo d fun s => { s with f := { s.f with
    periods := s.f.periods + 1, jumpPeriods := s.f.jumpPeriods + 1
    inCurve := decide (256 ≤ i.sum), count := if 256 ≤ i.sum ∧ !s.f.inCurve then 1 else s.f.count } }
  let f := (c.servoSt d).f
  let out (x : Int) (c : Chip) : Chip := c.modServo d fun s => { s with focus := closedLoop x }
  if st = 5 then out (f.saved + f.dir * k) c
  else if st = 6 then
    let level := (c.rd (F.srvJump_brake_lvl d) : Int) * f.fePP
    if f.count = 1 ∧ level ≤ 256 * (i.fe.natAbs : Int) then
      out (f.saved - f.dir * k) ((c.wr (F.srvStatus_fstate d) 7).modServo d fun s => { s with f := { s.f with periods := 0 } })
    else out f.saved c
  else if c.rd (F.srvJump_brake_len d) < f.periods ∧ c.rd (F.srvAcq_sum_acq d) ≤ i.sum ∧ crossesZero last i.fe then c.closeFocus d f.saved
  else out (f.saved - f.dir * k) c

/-- The sine injected into a loop under calibration, in output units, and the sine and cosine it is made of (R256). -/
def Chip.injection (c : Chip) (d : Nat) : Int × Int × Int :=
  let a : Int := ((c.servoSt d).calN * c.calFreq d * 24576 * 2 ^ 32 / 10 ^ 10 : Nat)
  let sn := sinTurn a
  (roundDiv ((c.rd (F.srvCal_cal_amp d) : Int) * 512 * sn) (2 ^ 30), sn, cosTurn a)

/-- Adds a period to the correlations of a gain calibration (R256). -/
def Chip.correlate (c : Chip) (d : Nat) (raw : Int) : Chip :=
  let j := c.injection d
  let v : List Int := [raw * j.2.1, raw * j.2.2, (raw + j.1) * j.2.1, (raw + j.1) * j.2.2]
  c.modServo d fun s => { s with calN := s.calN + 1, calSum := (List.range 4).map fun k => s.calSum.getD k 0 + v.getD k 0 }

/-- A gain calibration injects into a loop in this period: step 3 focus, step 4 tracking, in FOLLOW, until 64 cycles are measured. -/
def Chip.injecting (c : Chip) (d step : Nat) : Bool :=
  (c.servoSt d).calStep == step && c.following d && decide ((c.servoSt d).calN < c.calPeriods d)

/-- The closed focus loop runs (R238, R243). -/
def Chip.focusLoop (c : Chip) (d : Nat) (e : Int) (hold : Bool) : Chip :=
  let inj := c.injecting d 3
  let r := loopStep (c.loopPar d 0) e 0 (if inj then (c.injection d).1 else 0) hold (c.servoSt d).focus
  let c := c.modServo d fun s => { s with focus := r.1 }
  if inj then c.correlate d r.2 else c

/-- Focus of a period (R247): the error in µm that the guards use is answered. -/
def Chip.focusPeriod (c : Chip) (d : Nat) (i : Inputs) (last : Int) : Chip × Int :=
  let st := c.rd (F.srvStatus_fstate d)
  let e := c.focusError d i.fe
  if st = 1 then (c.sweepPeriod d i last, e)
  else if st = 5 ∨ st = 6 ∨ st = 7 then (c.jumpPeriod d i last, e)
  else if st = 2 then
    let c := c.focusLoop d e i.predicted
    let ok := withinNm e (c.rd (F.srvAcq_f_settle d))
    let c := c.modServo d fun s => { s with f := { s.f with
      periods := s.f.periods + 1
      settleRun := if ok then s.f.settleRun + 1 else 0
      settleSum := if !ok then 0 else if s.f.settleRun < 256 then s.f.settleSum + i.sum else s.f.settleSum } }
    (if !i.predicted && decide (i.sum < c.rd (F.srvAcq_sum_acq d)) then c.focusLost d else c, e)
  else if st = 3 ∨ st = 4 then
    let c := if i.predicted then c else c.holdTests d i
    let hold := c.inHold d
    let e := if hold then 0 else e
    ((c.focusLoop d e (hold || i.predicted)).modServo d fun s => { s with f := { s.f with periods := s.f.periods + 1 } }, e)
  else
    let c := c.modServo d fun s => { s with outRamp := s.outRamp.next, focus := closedLoop s.outRamp.next.cur }
    (if st = 8 ∧ (c.servoSt d).outRamp.left = 0 then c.lostOver d else c, e)

/-! ### Tracking, tilt and sled (R232 to R235, R245, R246, R249, R250, R255) -/

/-- A crossing of zero upwards, or downwards. -/
def zeroCross (up : Bool) (p q : Int) : Bool := if up then decide (p < 0) && decide (0 ≤ q) else decide (0 < p) && decide (q ≤ 0)

/-- v̂ in nm/s from the servo periods between crossings: 1.00 µm in n × 2.4576 µs. -/
def crossSpeed (n : Nat) : Nat := 406901041 / max n 1

/-- One period without a loop in CAPTURE (R249): v̂ from the crossings of pp_n, the close at a groove centre. -/
def Chip.capturePeriod (c : Chip) (d : Nat) (i : Inputs) (last : Int) : Chip :=
  let s := c.servoSt d
  let err := c.ppError d i.pp s.xRef.cur
  let n := s.t.sinceCross + 1
  let up := zeroCross true last i.pp
  let v := if up || s.t.vHat == 0 then crossSpeed n else s.t.vHat
  let close := zeroCross true s.t.err1 err && decide (v ≤ c.rd (F.srvAcq_v_cap d) * 10 ^ 6)
  let c := c.modServo d fun s => { s with
    track := default, t := { s.t with err1 := err, sinceCross := if up then 0 else n, vHat := if up then v else s.t.vHat } }
  if close then (c.wr (F.srvStatus_tstate d) 2).modServo d fun s => { s with t := { s.t with settleRun := 0, offRun := 0 } } else c

/-- The profile of FINE (R250) from the crossings counted and v̂ in nm/s: the commanded acceleration in m/s², and the velocity term in output units. -/
def Chip.fineProfile (c : Chip) (d : Nat) : Int × Int :=
  let t := (c.servoSt d).t
  let v := t.vHat
  let gap := ((t.target : Int) - t.present).natAbs
  let dir : Int := if t.present ≤ t.target then 1 else -1
  let rem := gap - t.crossings
  let a := c.rd (F.srvSeek_a_max d)
  let vMax := c.rd (F.srvSeek_v_max d) * 10 ^ 6
  if v ^ 2 < 2 * a * rem * 10 ^ 12 then (dir * if v < vMax then (a : Int) else 0, 0)
  else
    let vProf : Int := min vMax (Nat.sqrt (2 * a * rem * 10 ^ 12))
    (-dir * a, dir * roundDiv ((c.rd (F.srvSeek_kv d) : Int) * 256 * (vProf - v)) (10 ^ 6))

/-- The feed-forward kff × a_prof of the tracking or the sled loop (R241). -/
def Chip.feedForward (c : Chip) (d l : Nat) (acc : Int) : Int := qmul (signed 32 (fldGet (c.servoSt d).bank (F.loopFf_kff d l))) (sat32 (acc * 2 ^ 24))

/-- The output of FINE (R250). -/
def Chip.fineOut (c : Chip) (d : Nat) : Int :=
  let p := c.fineProfile d
  (c.servoSt d).t.kept + c.feedForward d 1 p.1 + p.2

/-- One period of FINE (R249, R250): crossings with the slope of a groove centre in the direction of motion are counted; the last one closes. -/
def Chip.finePeriod (c : Chip) (d : Nat) (i : Inputs) (last : Int) : Chip :=
  let t := (c.servoSt d).t
  let gap := ((t.target : Int) - t.present).natAbs
  let n := t.sinceCross + 1
  let hit := zeroCross (decide (t.present ≤ t.target)) last i.pp
  let crossings := if hit then t.crossings + 1 else t.crossings
  let v := if hit || t.crossings == 0 then crossSpeed n else t.vHat
  let c := c.modServo d fun s => { s with t := { s.t with crossings := crossings, sinceCross := if hit then 0 else n, vHat := v } }
  if hit && decide (gap ≤ crossings) then
    (c.wr (F.srvStatus_tstate d) 2).modServo d fun s => { s with track := closedLoop t.kept, t := { s.t with settleRun := 0, offRun := 0 } }
  else
    let u := c.fineOut d
    c.modServo d fun s => { s with track := { (default : LoopSt) with out := max (-2 ^ 24) (min (2 ^ 24) u) } }

/-- One period of the tracking sine in TRK_OFF (R255, step 2): 200 Hz of amplitude cal_trk, the extremes and crossings of pp_n. -/
def Chip.sinePeriod (c : Chip) (d : Nat) (i : Inputs) (last : Int) : Chip :=
  let s := c.servoSt d
  let a : Int := (s.calN * 200 * 24576 * 2 ^ 32 / 10 ^ 10 : Nat)
  let out := fromDemand (roundDiv ((c.rd (F.srvCal_cal_trk d) : Int) * sinTurn a) (2 ^ 30))
  c.modServo d fun s => { s with
    track := { (default : LoopSt) with out := out }
    calN := s.calN + 1, ppMax := max s.ppMax i.pp, ppMin := min s.ppMin i.pp
    ppCross := if 0 < s.calN ∧ crossesZero last i.pp then s.ppCross + 1 else s.ppCross }

/-- The closed tracking loop runs (R238, R243, R245, R249); after the last period of a ramp the periods within the settle limit count (R233). -/
def Chip.trackLoop (c : Chip) (d : Nat) (i : Inputs) (e : Int) (ramped : Bool) : Chip :=
  let inj := c.injecting d 4
  let hold := c.inHold d
  let r := loopStep (c.loopPar d 1) e 0 (if inj then (c.injection d).1 else 0) (hold || i.predicted) (c.servoSt d).track
  let c := c.modServo d fun s => { s with track := r.1 }
  let c := if inj then c.correlate d r.2 else c
  let settled := withinNm e (c.rd (F.srvAcq_t_settle d))
  let c := c.modServo d fun s => { s with
    settleAfter := if ramped && settled then s.settleAfter + 1 else 0
    t := { s.t with settleRun := if settled then s.t.settleRun + 1 else 0 } }
  if i.predicted then c
  else c.modServo d fun s => { s with t := { s.t with offRun := if withinNm e (c.rd (F.srvGuard_off_trk d)) then 0 else s.t.offRun + 1 } }

/-- The guard tests of a period that was not predicted: the runs of periods beyond the write-inhibit limits; write inhibit ends while tracking follows and
no condition of it holds (R242, R246). -/
def Chip.guardTests (c : Chip) (d : Nat) (ef et : Int) : Chip :=
  let c := c.modServo d fun s => { s with t := { s.t with
    wiTrk := if withinNm et (c.rd (F.srvGuard_wi_trk d)) then 0 else s.t.wiTrk + 1
    wiFoc := if withinNm ef (c.rd (F.srvGuard_wi_foc d)) then 0 else s.t.wiFoc + 1 } }
  if c.following d && !c.inhibits d then c.wr (F.srvStatus_wi d) 0 else c

/-- LONG waits for the sled axis (R249): a move it did not take has failed, and with nothing left to move it has arrived. -/
def Chip.longPeriod (c : Chip) (d : Nat) : Chip :=
  let a := c.axisSt (axisNo d 0)
  if (c.servoSt d).t.sledRefused then c.sledFaults d
  else if a.armed.isNone && a.waiting.isNone then c.sledArrives d
  else c

/-- Tracking of a period (R249): the error in µm is answered. -/
def Chip.trackPeriod (c : Chip) (d : Nat) (i : Inputs) (last : Int) (ramped : Bool) : Chip × Int :=
  let st := c.rd (F.srvStatus_tstate d)
  let e := if c.inHold d then 0 else c.trackError d i.pp
  if st = 0 then
    let s := c.servoSt d
    if s.calStep = 2 ∧ c.rd (F.srvStatus_fstate d) = 3 ∧ s.calN < sinePeriods then (c.sinePeriod d i last, e)
    else (c.modServo d fun s => { s with track := default }, e)
  else if st = 1 then (c.capturePeriod d i last, e)
  else if st = 4 then (c.finePeriod d i last, e)
  else if st = 2 ∨ st = 3 then (c.trackLoop d i e ramped, e)
  else ((c.modServo d fun s => { s with track := default }).longPeriod d, e)

/-- The tilt loop runs in FOLLOW while tilt_en is set (R234, R249). -/
def Chip.tiltPeriod (c : Chip) (d : Nat) (i : Inputs) : Chip :=
  if c.rd (F.srvStatus_tstate d) = 3 ∧ c.rdb (F.srvCtrl_tilt_en d) then
    let r := loopStep (c.loopPar d 2) (c.tiltError d i.tilt) 0 0 i.predicted (c.servoSt d).tilt
    c.modServo d fun s => { s with tilt := r.1 }
  else c.modServo d fun s => { s with tilt := s.tilt.opened }

/-- Lens displacement from the tracking output of the period before (R235). -/
def Chip.lensOffset (c : Chip) (d : Nat) (u : Int) : Int := sat32 (roundDiv ((c.rd (F.srvMech_trk_dc d) : Int) * u) 100)

/-- A sled output is accumulated; each whole microstep goes to the sled axis as position demand (R240). -/
def Chip.sledOut (c : Chip) (d : Nat) (u : Int) : Chip :=
  let acc := (c.servoSt d).t.sledAcc + u
  let whole := acc / 2 ^ 24
  (c.modServo d fun s => { s with t := { s.t with sledAcc := acc - whole * 2 ^ 24 } }).modAxis (axisNo d 0) fun a => { a with follow := a.follow + whole }

/-- The sled follow runs in FOLLOW while sled_en is set; in FINE its loop is open and its output the feed-forward alone (R235, R240, R241). In LONG the sled
discards what its loop demands (R288). DEDUCED, notes/assumptions/100.md. -/
def Chip.sledPeriod (c : Chip) (d : Nat) (i : Inputs) (u : Int) : Chip :=
  if c.rd (F.srvStatus_tstate d) = 3 ∧ c.rdb (F.srvCtrl_sled_en d) then
    let es := c.lensOffset d u
    let e := if (es.natAbs : Int) * 100 < (c.rd (F.srvSeek_sled_db d) : Int) * 2 ^ 24 then 0 else es
    let r := loopStep (c.loopPar d 3) e 0 0 i.predicted (c.servoSt d).sled
    (c.modServo d fun s => { s with sled := r.1 }).sledOut d r.1.out
  else
    let c := c.modServo d fun s => { s with sled := s.sled.opened }
    if c.rd (F.srvStatus_tstate d) = 4 ∧ c.rdb (F.srvCtrl_sled_en d) then
      c.sledOut d (clampInt (c.loopPar d 3).outMax (c.feedForward d 3 (c.fineProfile d).1))
    else c

/-! ### The period (R228) -/

/-- What a period leaves for its trace record: e_f, e_t, e_tilt, e_s, SUM, whether the inputs were predicted, and whether the integrators of focus and
tracking were held. -/
structure PeriodOut where
  ef : Int
  et : Int
  tilt : Int
  es : Int
  sum : Nat
  predicted : Bool
  heldF : Bool
  heldT : Bool

/-- A loop's integrator did not update in a period: the loop is open, on hold, or saturated the period before (R239). -/
def LoopSt.held (l : LoopSt) (closed hold : Bool) : Bool := !closed || hold || l.sat

/-- The loops of a cluster in a period: input stage, references, focus, tracking, tilt, sled, guards, demands. -/
def Chip.loopsPeriod (c : Chip) (d : Nat) (f : Option Subframe) : Chip × PeriodOut :=
  let i := c.servoInputs d f
  let s := c.servoSt d
  let u1 := s.track.out
  let c := c.modServo d fun s => { s with
    fe1 := i.fe, fe2 := s.fe1, pp1 := i.pp, pp2 := s.pp1, tilt1 := i.tilt, tilt2 := s.tilt1, sum1 := i.sum, xRef := s.xRef.next, fOff := s.fOff.next }
  let fst := c.rd (F.srvStatus_fstate d)
  let a := c.focusPeriod d i s.fe1
  let tst := a.1.rd (F.srvStatus_tstate d)
  let hold := i.predicted || a.1.inHold d
  let b := a.1.trackPeriod d i s.pp1 (s.xRef.left == 0 && s.fOff.left == 0)
  let c := (b.1.tiltPeriod d i).sledPeriod d i u1
  let c := if i.predicted then c else c.guardTests d a.2 b.2
  let v := c.servoSt d
  let c := c.setPoint d fun p => { p with
    dFocus := unsigned 16 (demand10 v.focus.out), dTrack := unsigned 16 (demand10 v.track.out), dTilt := unsigned 16 (demand10 v.tilt.out) }
  (c, ⟨a.2, b.2, c.tiltError d i.tilt, c.lensOffset d u1, i.sum, i.predicted,
    s.focus.held (fst == 2 || fst == 3 || fst == 4) hold, s.track.held (tst == 2 || tst == 3) hold⟩)

/-- A cluster's slot of a period (R20, R115, R116, R228, R229, R254, R260): with its port not UP nothing is kept, and a die that is out runs none; after a
servo loss, or with the region out, the loops stand and the motors go on. -/
def Chip.slotPeriod (c : Chip) (d : Nat) : Chip × Option PeriodOut :=
  if !c.portUp d || (c.dieSt (portDie d)).out then (c, none)
  else
    let r := c.takeRelease d
    let c := r.1.offsetTake d r.2
    let p := if (c.servoSt d).stopped then (c, none) else let p := c.loopsPeriod d r.2; (p.1, some p.2)
    let c := p.1.motorPeriod d r.2
    let c := match r.2 with
      | some f => (c.axisCheck d 0 f).axisCheck d 1 f
      | none => c
    (((c.followStep d).writePowers d).axisArea d, p.2)

/-! ### Servo trace (R258, R259) -/

/-- A signal in 2^-24 of its unit as a signed field of 16 bits, saturating, k of its LSB a unit. -/
def traceField (x : Int) (k : Nat) : List Nat := leBytes 2 (unsigned 16 (max (-32768) (min 32767 (roundDiv (x * k) (2 ^ 24)))))

/-- The 32 bytes of a trace record (R258). -/
def Chip.traceRecord (c : Chip) (d : Nat) (o : PeriodOut) : List Nat :=
  let p := (c.linkSt d).point
  let bit (i : Nat) (b : Bool) : Nat := if b then 2 ^ i else 0
  let flags := bit 0 o.predicted + bit 1 (c.inHold d) + bit 2 (p.flags.testBit 2) + bit 3 (c.rdb (F.srvStatus_wi d)) + bit 4 o.heldF + bit 5 o.heldT
  let sled := c.rdi (F.axisStatus_pos d 0) + (c.axisSt (axisNo d 0)).follow
  leBytes 2 p.seq ++ [flags, c.rd (F.srvStatus_fstate d) + 16 * c.rd (F.srvStatus_tstate d)] ++ leBytes 2 (o.sum / 4) ++
    traceField o.ef 10000 ++ traceField o.et 10000 ++ traceField o.tilt 1000 ++
    leBytes 2 p.dFocus ++ leBytes 2 p.dTrack ++ leBytes 2 p.dTilt ++ traceField o.es 100 ++ leBytes 4 (unsigned 32 sled) ++
    leBytes 4 (c.rd (F.btlStatus_band d) + 2 ^ 17 * c.rd (F.srvStatus_layer d) + 2 ^ 20 * c.rd (F.discStatus_side d)) ++
    leBytes 2 (c.rd (F.spinMeas_speed d)) ++ [0, 0]

/-- The records of a trace ring. -/
def traceRing : Nat := 26042

/-- A period's record is written while the trace is enabled, unless its t0, 640 ns before the release, lies at or after the freeze instant (R227, R258,
R259); it goes through the window of the cluster engine, and one that no window permits is a violation (R499, R500). -/
def State.traceWrite (s : State) (d : Nat) (o : PeriodOut) : State :=
  let c := s.chip
  let m := 336 + d
  if c.rdb (F.traceCtrl_en d) && (!c.rdb (F.traceCtrl_frozen d) || decide (c.now < tabGet c.traceAt d + 640)) && c.issues m then
    let i := c.rd (F.traceCtrl_index d)
    let a := c.rd (F.traceBase_base d) / 64 * 64 + 32 * i
    if c.permits m 0 1 a 32 then
      let s := s.withChip fun c =>
        (c.wr (F.traceCtrl_index d) (if i + 1 < traceRing then i + 1 else 0)).wr (F.traceLast_t d) (c.skyNs (portDie d) - 640)
      s.writePiece m a (c.traceRecord d o)
    else s.withChip fun c => (c.noteViolation m 0 1 a).freezeCluster d
  else s

/-- One cluster: its slot, then its trace record in the output stage. -/
def releaseCluster (s : State) (d : Nat) : State :=
  let r := s.chip.slotPeriod d
  let s := { s with chip := r.1 }
  match r.2 with
  | some o => s.traceWrite d o
  | none => s

/-- The release instant of a region: its six clusters in the order of their slots (R228). -/
def baseSubframeRelease (r : Nat) (s : State) : Host.Outcome State Fault Refusal := .next ((regionPorts r).foldl releaseCluster s)

end Sys2Proof.Machine
end

