-- ==== Sys2Proof/Machine/Decoding.lean ====
section
/-! DEFINITION. Decoding, sector verdicts and the retry ladder (05_decoding_and_retry.md): the decoder pool, ends of attempts, the passes of
a read extent. -/
namespace Sys2Proof.Machine

/-! ### Sectors of the extent under way -/

/-- The pending sector of a drive's extent at an address. -/
def Chip.pendingSector (c : Chip) (d psa : Nat) : Option SectorRec :=
  (c.readSt d).sectors.find? fun s => s.psa == psa && s.state == .pending

/-- Changes the sector at an address. -/
def Chip.modSector (c : Chip) (d psa : Nat) (f : SectorRec → SectorRec) : Chip :=
  c.modRead d fun r => { r with sectors := r.sectors.map fun s => if s.psa = psa then f s else s }

/-- Re-read pass codes in their order (R188): 1 plain, 2 rung 3, 3 and 4 rung 4 at + and −, 5 and 6 rung 5 at + and −, 7 rung 6, 8 rung 7. -/
def passRung (p : Nat) : Nat := [0, 0, 3, 4, 4, 5, 5, 6, 7].getD p 0

/-- The neighbour sectors of a sector at its angular index (R160): the adjacent tracks, across the band edge within a zone. -/
def neighbours (a : Nat) : List (Bool × Nat) :=
  let t := psaTrack a
  let b := psaBand a
  let at_ (band track : Nat) : Nat := psaOf (psaSide a) (psaLayer a) band (psaAngle a) track
  let low := if 0 < t then [(false, at_ b (t - 1))] else if 0 < b ∧ zoneOf (b - 1) = zoneOf b then [(false, at_ (b - 1) 3)] else []
  let high := if t < 3 then [(true, at_ b (t + 1))] else if zoneOf (b + 1) = zoneOf b then [(true, at_ (b + 1) 0)] else []
  low ++ high

/-- The converged sector in hand at an address. -/
def Chip.inHand (c : Chip) (d a : Nat) : Option SectorRec :=
  (c.readSt d).sectors.find? fun s => s.psa == a && s.state == .converged && s.bytes != []

/-- Some neighbour of a sector has converged (R186). -/
def Chip.hasNeighbour (c : Chip) (d a : Nat) : Bool := (neighbours a).any fun n => (c.inHand d n.2).isSome

/-- The steps of the ladder in order, as rung and pass code (R185, R188). -/
def ladder : List (Nat × Nat) := [(1, 0), (2, 0), (3, 2), (4, 3), (4, 4), (5, 5), (5, 6), (6, 7), (7, 8)]

/-- The next step after a failure (R186, R188, R191): `from_` is how many steps of the ladder lie behind. -/
def Chip.nextStep (c : Chip) (d psa from_ cause span : Nat) : Option (Nat × Nat) :=
  let ceiling := ((c.readSt d).cur.map (·.ceiling)).getD 0
  let noSlot := cause == 2 || cause == 3 || cause == 7
  (ladder.drop from_).find? fun e =>
    decide (e.1 ≤ ceiling) && !((e.1 == 1 || e.1 == 2) && noSlot) && !(e.1 == 2 && span == 0) && !(e.1 == 6 && !c.hasNeighbour d psa)

/-- Steps of the ladder that lie behind with an attempt: of rung 1 or 2 in its slot, or of a re-read pass. -/
def stepsBehind (rung pass : Nat) : Nat := if pass ≤ 1 then rung else pass + 1

/-- A unit of the port holds a slot for a sector: its attempt is under way. -/
def Chip.decoding (c : Chip) (d psa : Nat) : Bool := (portUnits d).any fun u => (c.unitSt u).slots.any fun x => x.psa == psa

/-- The band turn and pass offset of a visit (4 × band turn + offset + 1). -/
def visitOf (s : SectorRec) : Nat := 4 * psaBand s.psa + (s.offset + 1).toNat
def visitBand (v : Nat) : Nat := v / 4
def visitOffset (v : Nat) : Int := (v % 4 : Nat) - 1

/-! ### Slots and grants (R178 to R180) -/

/-- Changes the slot of a unit at an address. -/
def Chip.modSlot (c : Chip) (u psa : Nat) (f : DecSlot → DecSlot) : Chip :=
  c.modUnit u fun s => { s with slots := s.slots.map fun x => if x.psa = psa then f x else x }

/-- Shows the pool (rcom.dec.pool). -/
def Chip.showPool (c : Chip) (r : Nat) : Chip :=
  let busy := ((List.range 8).filter fun k => (tabGet (c.poolSt r).decoders k).isSome).foldl (fun m k => m + 2 ^ k) 0
  let parked := ((List.range 24).map fun i => ((c.unitSt (24 * r + i)).slots.filter fun x => x.phase == 2).length).sum
  (c.wr (F.decPool_busy r) busy).wr (F.decPool_parked r) parked

/-- A slot waits for its first segment of a first attempt, a fallback or a second candidate. -/
def DecSlot.fresh (x : DecSlot) : Bool := x.frames != [] && x.phase == 0 && (x.rung == 0 || x.cand == 1)

/-- A slot waits for a retry segment. -/
def DecSlot.again (x : DecSlot) : Bool := x.frames != [] && x.phase == 0 && x.rung != 0 && x.cand == 0

/-- The iteration limit of a slot's next attempt (R174, R185, R187, R195). -/
def Chip.attemptLimit (c : Chip) (r : Nat) (x : DecSlot) : Nat :=
  if x.verify then c.rd (F.decVerify_v_iter r) else if x.rung = 0 then c.rd (F.decCtrl_iter_first r) else c.rd (F.decCtrl_iter_retry r)

/-- An attempt of the unit needs its entry of the segment store: it is parked, or on a decoder for a segment that is not its last (R180). -/
def UnitSt.storeUsed (s : UnitSt) : Bool := s.slots.any fun x => x.phase == 2 || (x.phase == 1 && decide (x.iters + 12 < x.limit))

/-- The slot a unit requests a decoder for (R179): its oldest codeword that waits for a first attempt, a fallback or a second candidate, otherwise its oldest
retry segment. The unit has one entry of the segment store: while an attempt needs it, no attempt of more than one segment begins (R180). DEDUCED,
notes/assumptions/89.md. -/
def Chip.request (c : Chip) (u : Nat) : Option DecSlot :=
  let s := c.unitSt u
  if s.out then none
  else
    let may (x : DecSlot) : Bool := decide (c.attemptLimit (u / 24) x ≤ 12) || !s.storeUsed
    ((s.slots.find? fun x => x.fresh && may x).or (s.slots.find? fun x => x.phase == 2)).or (s.slots.find? fun x => x.again && may x)

/-- The erasure spans of the framing under way (R154). -/
def DecSlot.span (x : DecSlot) : List (Nat × Nat) := x.spans.getD x.cand []

/-- The codeword LLRs of an attempt: of its framing, zero within the erasure spans where they are applied (R174, R185, R187). -/
def DecSlot.llrs (x : DecSlot) : List Int :=
  let l := x.frames.getD x.cand []
  if x.erased then (l.zipIdx).map fun e => if x.span.any fun p => decide (p.1 ≤ e.2) && decide (e.2 < p.2) then 0 else e.1 else l

/-- A decoder is granted to a unit's slot (R174, R180, R185): a new attempt begins with L = 4λ, a parked one goes on. -/
def Chip.grantSlot (c : Chip) (r k u : Nat) (x : DecSlot) : Chip :=
  let d := u / 4
  let erased := x.rung == 2 || (decide (3 ≤ x.rung) && x.span != [])
  let new : DecSlot := if x.phase = 2 then x
    else
      let y := { x with erased := erased }
      { y with limit := c.attemptLimit r x, iters := 0, synd3 := 0, post := y.llrs.map (4 * ·), msgs := List.replicate 138112 0 }
  let c := if x.phase ≠ 2 ∧ x.rung ≠ 0 ∧ x.cand = 0 then c.bump (F.retryRung_tried d x.rung) else c
  let wait := (c.now - x.since) / 1000
  let c := if x.verify then c.wrSat (F.decPool_verify_wait r) (max (c.rd (F.decPool_verify_wait r)) wait) else c
  (c.modSlot u x.psa fun _ => { new with phase := 1 }).modPool r fun p => { p with decoders := tabSet p.decoders k (some (u, x.psa)), ptr := arbNext 24 (u % 24) }

/-- The pool of a region goes on: the region is neither out nor frozen (R20, R26). -/
def Chip.poolRuns (c : Chip) (r : Nat) : Bool := !(c.rgnSt r).out && !(c.rgnSt r).frozen && !(c.dieSt (r / 2)).out

/-- One grant for each free decoder, in ascending number, R34 once a grant (R179). -/
def Chip.grantFree (c : Chip) (r : Nat) : Chip :=
  if !c.poolRuns r then c
  else
    ((List.range 8).foldl (fun c k =>
      if (tabGet (c.poolSt r).decoders k).isSome then c
      else
        match arbitrate 24 (c.poolSt r).ptr fun i => (c.request (24 * r + i)).isSome with
        | some i =>
          match c.request (24 * r + i) with
          | some x => c.grantSlot r k (24 * r + i) x
          | none => c
        | none => c) c).showPool r

def execDecoderGrant (r : Nat) (s : State) : Host.Outcome State Fault Refusal := s.nextChip (s.chip.grantFree r)

/-! ### Learning the phase offset (R144 to R146) -/

/-- The fine change of the offset in 1/64 channel bit (R144). -/
def Chip.fineStep (c : Chip) (u k : Nat) (x : DecSlot) : Int :=
  let lvl : Int := c.rd (F.jdt_lvl_unit (u / 4))
  let e := x.dts.getD x.cand (0, 0)
  clampInt 8 (divFree (-(e.1 * 64)) ((e.2 : Int) * lvl * lvl * 2 ^ k))

/-- What a codeword that converged teaches its unit: the fine change, and of a sector that converged, `sector`, the first offset or the coarse step
(R144, R145, R146). -/
def Chip.learn (c : Chip) (u : Nat) (x : DecSlot) (sector : Bool) : Chip :=
  let f := if x.verify then F.vtim_offset u else F.tim_offset u
  let valid := if x.verify then F.vtim_valid u else F.tim_valid u
  let k := c.rd (if x.verify then F.vtim_k_off u else F.tim_k_off u)
  let n := c.rd (if x.verify then F.vtim_coarse_n u else F.tim_coarse_n u)
  let origin := x.origins.getD x.cand 0
  if !c.rdb valid then if sector then (c.wri f (64 * origin)).wr valid 1 else c
  else
    let fine := c.fineStep u k x
    if !sector then c.wri f (c.rdi f + fine)
    else
      let s := c.unitSt u
      let run := if !x.pUsed || origin == 0 then 0 else if origin = s.coarseD then s.coarseRun + 1 else 1
      let step := decide (n ≤ run) && run != 0
      (c.wri f (c.rdi f + fine + if step then 64 * origin else 0)).modUnit u fun s =>
        { s with coarseRun := if step then 0 else run, coarseD := origin }

/-! ### Ends of attempts -/

/-- What an attempt ended with: iterations, weights at the end and after iteration 3, corrected bits, decoded bits, and the cause of its failure,
0 when it converged and passed R71. -/
structure Attempt where
  iters : Nat
  weight : Nat
  synd3 : Nat
  corr : Nat
  bits : List Bool
  cause : Nat

/-- The header of decoded bits (R67, R70). -/
def headerOf (bits : List Bool) : Nat := bitsNat ((bits.drop 32768).take 128)

/-- Judges a segment that ended an attempt (R175 to R177). -/
def Chip.judge (c : Chip) (r : Nat) (x : DecSlot) (g : Segment) : Attempt :=
  let post := g.post.toList
  let bits := hardBits post
  let corr := correctedBits x.llrs post
  let conv := decide (g.weight = 0) && (x.verify || decide (corr ≤ c.rd (F.decCtrl_read_corr_max r)))
  ⟨g.iters, g.weight, g.synd3, corr, bits, if !conv then 1 else if headerGood (headerOf bits) x.psa then 0 else 3⟩

/-- The verdict word of an attempt (R182). -/
def DecSlot.verdict (x : DecSlot) (a : Attempt) (state cause : Nat) : Nat :=
  verdictWord (x.sync + if x.cand = 1 then 16 else 0) a.iters x.rung state cause false x.erased x.setB x.feedback a.synd3
    (if a.cause = 0 ∨ a.cause = 3 then a.corr else 0) (spanBits x.span / 32)

/-- The bytes of a decoded sector: 4,096 user bytes and 16 of the header. -/
def sectorBytes (bits : List Bool) : List Nat := beBytes 4112 (bitsNat (bits.take 32896))

/-- A frond extent's sector with its bytes goes to the restore that reads it, which keeps the first one of an index (R80, R315, R318). -/
def Chip.feedRestore (c : Chip) (x : Extent) (index : Nat) (bytes : List Nat) : Chip :=
  if x.frond = 0 ∨ 16384 ≤ index then c
  else
    let key := (x.frond, x.run * 16384 + index, x.pinna)
    c.modCat fun k => { k with restores := k.restores.map fun r =>
      if r.cmd = x.owner ∧ !(r.rows.any fun e => e.1 == key) then
        { r with rows := (key, bytes.take 4096) :: r.rows, erased := r.erased.filter (· != key) } else r }

/-- The units and slots of copies of an index that are pending are cancelled (R192). -/
def Chip.cancelCopies (c : Chip) (d index psa : Nat) : Chip :=
  let copies := ((c.readSt d).sectors.filter fun s => s.index == index && s.psa != psa && s.state == .pending).map (·.psa)
  copies.foldl (fun c a => (c.dropSlots d a).modSector d a fun s => { s with state := .converged, waits := 0, bytes := [] }) c

/-- A copy of an index that converged in this cycle has other user data (R80, R192). -/
def Chip.conflicts (c : Chip) (d index psa : Nat) (bytes : List Nat) : Bool :=
  (c.readSt d).sectors.any fun s =>
    s.index == index && s.psa != psa && s.state == .converged && s.doneAt == c.now && s.bytes != [] && s.bytes.take 4096 != bytes.take 4096

/-- An index of the extent is settled: a copy of it has converged, or a conflict has ended it (R192). -/
def Chip.settledIndex (c : Chip) (d index psa : Nat) : Bool :=
  (c.readSt d).sectors.any fun s => s.index == index && s.psa != psa &&
    ((s.state == .converged && s.bytes != []) || (s.state == .lost && verdictCause s.verdict == 4))

/-- The index a converged sector carries: a used rewrite slot of a run names its payload index in its header (R75, R76). -/
def indexOf (x : Extent) (s : SectorRec) (header : Nat) : Nat :=
  if x.frond ≠ 0 ∧ 16384 ≤ s.index ∧ headerKind header = 1 then headerSeq header else s.index

/-- A copy conflict (R80, R184, R192): the index is lost at once whatever is left to its other copies; the data of the copy that converged in this cycle is
not used, and that sector's final verdict stands as delivered. -/
def Chip.copyConflict (c : Chip) (u index psa : Nat) : Chip :=
  let d := u / 4
  let c := (c.bump (F.decCnt_conflicts u)).modSector d psa fun s => { s with index := index }
  let left := ((c.readSt d).sectors.filter fun s => s.index == index && s.state == .pending).map (·.psa)
  left.foldl (fun c p => c.loseSector d p 4 false) c

/-- A sector converges (R80, R182, R184, R192): its final verdict, the resolution of its index, or a copy conflict. -/
def Chip.sectorConverges (c : Chip) (u : Nat) (x : DecSlot) (a : Attempt) : Chip :=
  let d := u / 4
  match c.pendingSector d x.psa, (c.readSt d).cur with
  | some s, some e =>
    let bytes := sectorBytes a.bits
    let index := indexOf e s (headerOf a.bits)
    if e.frond ≠ 0 ∧ c.conflicts d index x.psa bytes then c.copyConflict u index x.psa
    else
      let settled := c.settledIndex d index x.psa
      let c := c.modSector d x.psa fun s => { s with
        state := .converged, waits := 0, index := index, bytes := bytes, doneAt := c.now, verdict := x.verdict a 0 0
        origin := x.origins.getD x.cand 0 }
      if e.frond = 0 then c
      else if settled then c.handLeft d
      else ((c.cancelCopies d index x.psa).feedRestore e index bytes).handLeft d
  | _, _ => c

/-- The sync report shows the framing that its sector's attempt reported, while that is the sector decided last (R170). -/
def Chip.reportAlt (c : Chip) (u : Nat) (x : DecSlot) : Chip :=
  if x.cand = 1 ∧ (c.unitSt u).lastDecided = x.psa then c.wr (F.sync_report u) (x.sync + 16) else c

/-- A read attempt converged and passed R71 (R144, R145, R182). -/
def Chip.readConverged (c : Chip) (u : Nat) (x : DecSlot) (a : Attempt) : Chip :=
  let c := ((c.wr (F.decLast_verdict u) (x.verdict a 0 0)).reportAlt u x).learn u x true
  let c := if x.rung = 0 then c.bump (F.decCnt_first_ok u) else c.bump (F.retryRung_converged (u / 4) x.rung)
  (c.sectorConverges u x a).dropSlot u x.psa

/-- A pending sector takes its next step, in its slot or in a re-read pass, or is lost (R185, R186, R188, R193). -/
def Chip.advance (c : Chip) (d psa from_ cause span : Nat) : Chip :=
  match c.nextStep d psa from_ cause span with
  | some (_, 0) => c
  | some (_, p) => c.modSector d psa fun s => { s with waits := p, touched := false, six := s.six || p == 7 }
  | none => c.loseSector d psa cause false

/-- The syndrome weight that stands for a set in the choice of R187: of attempts up to rung 3 that did not end in an address mismatch. -/
def Chip.noteWeight (c : Chip) (d : Nat) (x : DecSlot) (a : Attempt) : Chip :=
  if 3 < x.rung ∨ a.cause = 3 then c
  else c.modSector d x.psa fun s => if x.setB then { s with weightB := some a.weight } else { s with weightA := some a.weight }

/-- A read attempt failed (R184 to R189): pending, then its next step. A codeword that converged and failed R71 has taught the unit's offset (R144). -/
def Chip.readFailed (c : Chip) (u : Nat) (x : DecSlot) (a : Attempt) : Chip :=
  let d := u / 4
  let word := x.verdict a 1 a.cause
  let c := (c.wr (F.decLast_verdict u) word).reportAlt u x
  let c := if a.cause = 3 then c.learn u x false else c
  match c.pendingSector d x.psa with
  | none => c.dropSlot u x.psa
  | some s =>
    let c := (c.noteWeight d x a).modSector d x.psa fun s => { s with verdict := word, rung := x.rung }
    let next := c.nextStep d x.psa (stepsBehind x.rung s.waits) a.cause (spanBits x.span)
    let c := if x.rung = 0 ∧ s.waits ≤ 1 ∧ next.isSome then c.bump (F.decCnt_retried u) else c
    if s.waits = 7 ∧ (c.readSt d).pass = 7 ∧ (c.readSt d).visits.head? = some (visitOf s) then c.dropSlot u x.psa
    else
      match next with
      | some (r, 0) => c.modSlot u x.psa fun y => { y with rung := r, phase := 0, cand := 0, iters := 0, won := [] }
      | _ => (c.dropSlot u x.psa).advance d x.psa (stepsBehind x.rung s.waits) a.cause (spanBits x.span)

/-- The cause of a verify failure by the first criterion not met, as verdict and ledger codes (R196, R197); none when it passes. -/
def Chip.verifyCause (c : Chip) (u : Nat) (x : DecSlot) (a : Attempt) (kept : Nat) : Option (Nat × Nat) :=
  let r := u / 24
  let code := x.sync % 16
  if !(code ≤ 4 || (code == 6 && !c.rdb (F.vtim_valid u))) then some (2, 3)
  else if a.cause ≠ 0 ∨ bitsNat a.bits ≠ kept then some (if a.cause = 3 then 3 else 1, 0)
  else if c.rd (F.decVerify_v_synd3_max r) < a.synd3 then some (5, 1)
  else if c.rd (F.decVerify_v_corr_max r) < a.corr then some (6, 2)
  else none

/-- A verify attempt ends (R195 to R197): its verdict goes to the cluster engine. -/
def Chip.verifyEnds (c : Chip) (u : Nat) (x : DecSlot) (a : Attempt) : Chip :=
  let d := u / 4
  match c.keptAt d x.psa with
  | none => c.dropSlot u x.psa
  | some kept =>
    let v := c.verifyCause u x a kept
    let c := c.wr (F.decLast_verdict u) (x.verdict a (if v.isNone then 3 else 4) ((v.map (·.1)).getD 0))
    let c := if a.cause = 0 then c.learn u x true else if a.cause = 3 then c.learn u x false else c
    (c.dropSlot u x.psa).verifyVerdict d x.psa v.isNone ((v.map (·.2)).getD 0)

/-- The first of two candidates as kept until the second ends: its cause, iterations, weight at the end and after iteration 3, corrected bits, word
(R168). -/
def keepFirst (a : Attempt) : List Nat := [a.cause, a.iters, a.weight, a.synd3, a.corr, if a.cause = 0 then bitsNat a.bits else 0]

/-- The first candidate as an attempt. -/
def firstKept (w : List Nat) : Attempt :=
  let g (i : Nat) : Nat := w.getD i 0
  ⟨g 1, g 2, g 3, g 4, if g 0 = 0 then beBits 38912 (g 5) else [], g 0⟩

/-- A read attempt's framing ends (R167, R168): a fallback or the second candidate follows, or the attempt is decided. The sector enters the ladder framed at the
origin used, or at the first candidate; of two candidates that both converge and lie equally far from oP the first wins. DESIGN CHOICE,
notes/assumptions/85.md. -/
def Chip.framingEnds (c : Chip) (u : Nat) (x : DecSlot) (a : Attempt) : Chip :=
  let framing := x.rung = 0 ∨ 3 ≤ x.rung
  let again := c.modSlot u x.psa fun y => { y with cand := 1, phase := 0, iters := 0, won := if x.twoCand then keepFirst a else [], since := c.now }
  if framing ∧ x.cand = 0 ∧ 1 < x.frames.length ∧ (x.twoCand ∨ a.cause = 1) then
    if x.twoCand then again else again.bump (F.syncstat_fallbacks u)
  else if x.cand = 1 ∧ x.twoCand then
    let f := firstKept x.won
    let firstNearer := !x.pUsed || decide ((x.origins.getD 0 0).natAbs ≤ (x.origins.getD 1 0).natAbs)
    if f.cause = 0 ∧ (a.cause ≠ 0 ∨ firstNearer) then c.readConverged u { x with cand := 0 } f
    else if a.cause = 0 then c.readConverged u x a
    else c.readFailed u { x with cand := 0 } f
  else if a.cause = 0 then c.readConverged u x a
  else c.readFailed u (if a.cause = 3 then x else { x with cand := 0 }) a

/-! ### Read extents (R123 to R128, R188 to R194) -/

/-- An order of the cluster engine to the servo engine, given when it can be taken. -/
def Chip.order (c : Chip) (d : Nat) (q : ServoReq) : Chip :=
  let s := c.servoSt d
  if s.waiting.isNone && (s.running.isSome || c.following d) then c.servoRequest d q else c

/-- Orders the spot to a layer, band turn and pass offset. -/
def Chip.orderSpot (c : Chip) (d layer band : Nat) (k : Int) : Chip :=
  let c := if c.rd (F.srvStatus_layer d) = layer then c else c.order d (.jump layer)
  let c := if c.rd (F.btlStatus_band d) = band then c else c.order d (.seek band)
  if (c.servoSt d).xRef.goal = pitchUm k then c else c.order d (.passOffset k)

/-- The four units are told the pass offset, and with it the tracks they read (R125). -/
def Chip.tellUnits (c : Chip) (d : Nat) (k : Int) : Chip :=
  (List.range 4).foldl (fun c b => c.modUnit (4 * d + b) fun s => { s with offset := k }) c

/-- The pass under way at the head of the plan begins. -/
def Chip.beginPass (c : Chip) (d : Nat) : Chip :=
  match (c.readSt d).cur, (c.readSt d).passes.head? with
  | some x, some k => (c.tellUnits d k).orderSpot d (psaLayer x.psa) (psaBand x.psa) k
  | _, _ => c

/-- When the read that an extent belongs to fired: 0 without a launch, at its fetch. -/
def Chip.firedAt (c : Chip) (x : Extent) : Nat := (c.ctxSt (x.owner / 4096) (x.owner % 4096)).fired

/-- The run at the head of a drive's queue comes before an extent that waits: it is still to be calibrated; or its launch has fired before the read's, or while
the read was under way (R206, R313, R321). -/
def Chip.runFirst (c : Chip) (d : Nat) (x : Extent) : Bool :=
  let b := c.burnSt d
  match b.queue.head? with
  | none => false
  | some q =>
    c.mayBurn d && (c.loadedDisc d).isSome && !c.rdb (F.burnStatus_open d) && c.rd (F.discStatus_side d) == q.side &&
      (b.cal.isNone || (decide (q.launch ≤ c.skyNs (portDie d)) && (decide (q.launch ≤ c.firedAt x) || (c.readSt d).recent == x.owner)))

/-- The next extent begins where none is under way, nothing is being burned, and no run of the drive comes first (R128, R321). -/
def Chip.wakeReads (c : Chip) (d : Nat) : Chip :=
  let r := c.readSt d
  match r.cur, r.queue with
  | none, x :: t =>
    if (c.burnSt d).busy || c.runFirst d x then c
    else
      let c := ((c.modRead d fun r => { r with queue := t, recent := x.owner }).beginExtent d x).btlOrder d (psaBand x.psa)
      if (c.readSt d).sectors.all fun s => s.state != .pending then c.finishExtent d else c.beginPass d
  | _, _ => c

/-- An extent is handed to a cluster. -/
def Chip.readExtent (c : Chip) (d : Nat) (x : Extent) : Chip := (c.modRead d fun r => { r with queue := r.queue ++ [x] }).wakeReads d

/-- Ascending list without repeats. -/
def ascending (l : List Nat) : List Nat := (l.mergeSort (· ≤ ·)).eraseDups

/-- Sectors waiting for a re-read pass. -/
def ReadSt.waiting (r : ReadSt) (p : Nat) : List SectorRec := r.sectors.filter fun s => s.state == .pending && s.waits == p

/-- The servo references of a visit: the pass offset with the rung-4 step, and the rung-5 focus step (R185, R231, R232). -/
def Chip.visitRefs (c : Chip) (d p : Nat) (k : Int) : Chip :=
  let r := portRegion d
  let s4 : Int := c.rd (F.decRetry_r4_step r)
  let s5 : Int := c.rd (F.decRetry_r5_step r)
  let x := pitchUm k + if p = 3 then pitch64 s4 else if p = 4 then -pitch64 s4 else 0
  let f := if p = 5 then roundDiv (s5 * 2 ^ 24) 1000 else if p = 6 then -roundDiv (s5 * 2 ^ 24) 1000 else 0
  c.setRef d x f

/-- The budget has ended (R14, R191). -/
def Chip.budgetOver (c : Chip) (d : Nat) : Bool := (c.readSt d).inBudget && ((c.readSt d).budgetEnd.any fun e => decide (e ≤ c.now))

/-- Sectors that wait for a visit that may not begin become lost (R191). -/
def Chip.budgetLost (c : Chip) (d : Nat) : Chip :=
  let r := c.readSt d
  let here := r.visits.head?
  let out := (r.sectors.filter fun s => s.state == .pending && s.waits != 0 && !s.touched && !(s.waits == r.pass && some (visitOf s) == here)).map (·.psa)
  out.foldl (fun c a => c.loseSector d a (((c.pendingSector d a).map fun s => s.verdict / 2 ^ 20 % 16).getD 0) true) c

/-- 60 rev/s in 0.01 rev/s (R185). -/
def slowTarget : Nat := 6000

/-- The spindle can take a request now (R190, R273). -/
def Chip.spinTakes (c : Chip) (d : Nat) : Bool :=
  let st := c.rd (F.spinStatus_state d)
  st = 0 || st = 6 || (c.spinSt d).waiting.isNone

/-- The speed change that begins the rung-7 pass: placed as soon as the spindle can take it (R190). -/
def Chip.slowDown (c : Chip) (d : Nat) : Chip :=
  if (c.readSt d).slow.isSome then c
  else if c.spinTakes d then
    let t := c.rd (F.spinStatus_target d)
    ((c.modRead d fun r => { r with slow := some t, slowWait := false }).btlOff d).spinRequest d (.setSpeed slowTarget)
  else c.modRead d fun r => { r with slowWait := true }

/-- The change back at the end of the rung-7 pass, however it ends: placed as soon as the spindle can take it (R190). -/
def Chip.speedUp (c : Chip) (d : Nat) : Chip :=
  let r := c.readSt d
  match r.slow with
  | some t =>
    if r.cur.isSome && r.pass == 8 && r.visits != [] || !c.spinTakes d then c
    else ((c.modRead d fun r => { r with slow := none }).btlOff d).spinRequest d (.setSpeed t)
  | none => c

/-- The visit under way: units told their tracks, references set, the seek ordered (R188). -/
def Chip.aimVisit (c : Chip) (d : Nat) : Chip :=
  let r := c.readSt d
  match r.cur, r.visits.head? with
  | some x, some v => ((c.tellUnits d (visitOffset v)).orderSpot d (psaLayer x.psa) (visitBand v) (visitOffset v)).visitRefs d r.pass (visitOffset v)
  | _, _ => c

/-- A visit begins (R188). A sector whose attempt is under way is not read again. -/
def Chip.beginVisit (c : Chip) (d : Nat) : Chip :=
  let r := c.readSt d
  match r.visits.head? with
  | some v =>
    let c := c.modRead d fun r => { r with
      repeated := false, convergedBefore := (r.sectors.filter fun s => s.state == .converged && psaBand s.psa == visitBand v).length
      sectors := r.sectors.map fun s => if s.waits = r.pass ∧ visitOf s = v ∧ !c.decoding d s.psa then { s with touched := false } else s }
    c.aimVisit d
  | none => c

/-- Sectors waiting for rung 6 without a converged neighbour skip it (R186). -/
def Chip.skipSix (c : Chip) (d : Nat) : Chip :=
  ((c.readSt d).waiting 7).foldl (fun c s => if c.hasNeighbour d s.psa then c else (c.modSector d s.psa fun s => { s with six := false }).advance d s.psa 8 (verdictCause s.verdict) 0) c

/-- The extent has no pending sector left: it ends, the speed goes back, the next extent begins. -/
def Chip.extentOver (c : Chip) (d : Nat) : Chip :=
  let c := c.visitRefs d 0 0
  ((c.finishExtent d).speedUp d).wakeReads d

/-- Sectors whose beam has been lost since the plan was made take the offset that the new plan gives their track, or are lost with the cause track unreadable
(R126, R128, R192). A sector whose attempt is under way keeps its place. -/
def Chip.replan (c : Chip) (d : Nat) : Chip :=
  let r := c.readSt d
  let hit := r.sectors.filter fun s => s.state == .pending && r.gone.testBit (beamOf (psaTrack s.psa) s.offset) && !c.decoding d s.psa
  let lost := (hit.filter fun s => (planOffset r.gone (psaTrack s.psa)).isNone).map (·.psa)
  let c := lost.foldl (fun c a => c.loseSector d a 8 false) c
  let moved := hit.map (·.psa)
  c.modRead d fun r => { r with
    planMissing := if hit = [] then r.planMissing else r.gone
    sectors := r.sectors.map fun s => if s.state = .pending ∧ moved.contains s.psa then
      { s with offset := (planOffset r.gone (psaTrack s.psa)).getD 0, touched := false } else s }

/-- The next re-read pass: the first in order that a sector waits for; within the budget its visits are made in ascending order (R188, R191). The rung-7 pass
waits until the spindle can take its speed change (R190). -/
def Chip.nextReread (c : Chip) (d : Nat) : Chip :=
  let r := c.readSt d
  if r.cur.isNone || r.passes != [] || r.visits != [] || !r.inBudget then c
  else
    let c := c.replan d
    let c := if c.budgetOver d then c.budgetLost d else c
    let c := if (c.readSt d).waiting 7 != [] && ((List.range 7).all fun p => p == 0 || (c.readSt d).waiting p == []) then c.skipSix d else c
    let r := c.readSt d
    match ([1, 2, 3, 4, 5, 6, 7, 8] : List Nat).find? fun p => (r.waiting p).any fun s => !s.touched with
    | some p =>
      let vs := ascending (((r.waiting p).filter fun s => !s.touched).map visitOf)
      let c := if p = 8 then c.slowDown d else c
      if (c.readSt d).slowWait then c else (c.modRead d fun r => { r with pass := p, visits := vs }).beginVisit d
    | none => if r.sectors.all fun s => s.state != .pending then c.extentOver d else c

/-- The planned passes are over: the budget's window begins and the re-reads follow (R188, R191). -/
def Chip.plannedOver (c : Chip) (d : Nat) : Chip :=
  match (c.readSt d).cur with
  | none => c
  | some x =>
    let stop := if x.budgetMs = 65535 then none else some (c.now + x.budgetMs * 10 ^ 6)
    (c.modRead d fun r => { r with passes := [], inBudget := true, budgetEnd := stop }).nextReread d

/-- Sectors of the extent that no pass has framed (R121, R128). -/
def ReadSt.unread (r : ReadSt) : List SectorRec := r.sectors.filter fun s => s.state == .pending && s.waits == 0 && !s.touched

/-- A read pass completes (R123, R126, R128): the next planned one begins. After the last, the sectors that a lost beam left unread are read in passes added
for the beams that remain, or are lost where no pass reaches them; the other sectors still unread take the no-sync step of the ladder. -/
def Chip.readPassEnd (c : Chip) (d : Nat) : Chip :=
  let r := c.readSt d
  if r.cur.isNone then c.wakeReads d
  else if r.inBudget then c
  else
    match r.passes with
    | _ :: k :: t => (c.modRead d fun r => { r with passes := k :: t }).beginPass d
    | _ =>
      let left := r.unread.filter fun s => !c.decoding d s.psa
      let cut := left.filter fun s => r.gone.testBit (beamOf (psaTrack s.psa) s.offset)
      let c := (left.filter fun s => !(r.gone.testBit (beamOf (psaTrack s.psa) s.offset))).foldl (fun c s => c.advance d s.psa 0 2 0) c
      let c := c.replan d
      let again := (c.readSt d).unread.filter fun s => cut.any fun t => t.psa == s.psa
      let ks := (passPlan (c.readSt d).gone).map (·.1) |>.filter fun k => again.any fun s => s.offset == k
      if ks = [] then c.plannedOver d else (c.modRead d fun r => { r with passes := ks }).beginPass d

def baseReadPassEnd (d : Nat) (s : State) : Host.Outcome State Fault Refusal := s.nextChip (s.chip.readPassEnd d)

/-- A visit ends (R188, R189): sectors it did not frame fail with no sync; a rung-6 visit is repeated once; sectors whose beam was lost are read in the same pass
at the offset of the new plan (R192); the next visit or pass follows. -/
def Chip.visitEnd (c : Chip) (d : Nat) : Chip :=
  let r := c.readSt d
  match r.visits with
  | [] => c
  | v :: t =>
    let here := (r.waiting r.pass).filter fun s => visitOf s == v
    let more := decide (r.convergedBefore < (r.sectors.filter fun s => s.state == .converged && psaBand s.psa == visitBand v).length)
    if r.pass = 7 ∧ !r.repeated ∧ more ∧ here ≠ [] then
      c.modRead d fun r => { r with
        repeated := true
        sectors := r.sectors.map fun s => if visitOf s = v ∧ s.waits = 7 ∧ !c.decoding d s.psa then { s with touched := false } else s }
    else
      let cut := here.filter fun s => r.gone.testBit (beamOf (psaTrack s.psa) s.offset)
      let missed := here.filter fun s => !c.decoding d s.psa && (!s.touched || (r.pass == 7 && s.rung == 6)) && !(cut.any fun e => e.psa == s.psa)
      let c := c.modRead d fun r => { r with visits := t }
      let c := missed.foldl (fun c s => c.advance d s.psa (stepsBehind 0 r.pass) (if s.touched then verdictCause s.verdict else 2) 0) c
      let c := c.replan d
      let again := ((c.readSt d).waiting r.pass).filter fun s => cut.any fun e => e.psa == s.psa
      let t := ascending (t ++ again.map visitOf)
      let c := c.modRead d fun r => { r with visits := t }
      if t = [] then (c.speedUp d).nextReread d
      else if c.budgetOver d then ((c.modRead d fun r => { r with visits := [] }).budgetLost d).nextReread d
      else c.beginVisit d

def baseRereadVisitEnd (d : Nat) (s : State) : Host.Outcome State Fault Refusal := s.nextChip (s.chip.visitEnd d)

/-- The budget's window ends (R191): no further visit begins, waiting sectors are lost with budget_stop; a speed change that still waits is
not made. -/
def Chip.budgetExpiry (c : Chip) (d : Nat) : Chip :=
  if c.budgetOver d then
    let c := c.modRead d fun r => { r with visits := r.visits.take 1, slowWait := false }
    ((c.budgetLost d).speedUp d).nextReread d
  else c

def baseRetryBudgetExpiry (d : Nat) (s : State) : Host.Outcome State Fault Refusal := s.nextChip (s.chip.budgetExpiry d)

/-! ### A unit goes on to a sector (R160, R187, R188) -/

/-- The set a re-read at rung 4 or above equalises with (R187). -/
def SectorRec.betterSet (s : SectorRec) : Nat :=
  match s.weightA, s.weightB with
  | some a, some b => if b < a then 1 else 0
  | none, some _ => 1
  | _, none => 0

/-- ẑ of a converged neighbour over a sector, counted from the sector's first track index (R160). -/
def Chip.feedbackLevels (c : Chip) (d a : Nat) : List Int :=
  match c.inHand d a with
  | none => []
  | some s =>
    let bits := channelBits s.psa (ldpcEncode (bytesBits (padTo 4112 s.bytes)))
    let l := sectorLevels (c.rd (F.jdt_lvl_unit d)) (c.targetTaps d) bits
    if 0 ≤ s.origin then List.replicate s.origin.toNat 0 ++ l else l.drop (-s.origin).toNat

/-- What a re-read asks of a unit for the sector it goes on to: the coefficient set, and in the passes of rungs 6 and 7 the neighbours' feedback, for rung 7
where rung 6 was taken (R155, R160, R185, R187). -/
def Chip.prepareSector (c : Chip) (u : Nat) (x : SecSt) : SecSt :=
  let d := u / 4
  let p := (c.readSt d).pass
  match c.pendingSector d x.psa with
  | some s =>
    if p < 2 ∨ s.waits ≠ p ∨ (c.readSt d).visits = [] then x
    else
      let fb (high : Bool) : List Int :=
        if p = 7 ∨ (p = 8 ∧ s.six) then (((neighbours s.psa).find? fun n => n.1 == high).map fun n => c.feedbackLevels d n.2).getD [] else []
      { x with force := some (if p = 2 then 1 else s.betterSet), fbLow := fb false, fbHigh := fb true }
  | none => x

/-- The sectors of a unit that it has not reached yet are prepared. -/
def Chip.prepareUnit (c : Chip) (u : Nat) : Chip :=
  c.modUnit u fun s => { s with secs := s.secs.map fun x => if s.nextIdx ≤ x.base then c.prepareSector u x else x }

/-- One channel bit of a unit; a sector whose prediction it brings is prepared. -/
def execChannelBitProcess (u : Nat) (s : State) : Host.Outcome State Fault Refusal :=
  let c := s.chip.channelBit u
  s.nextChip (if (c.unitSt u).secs = (s.chip.unitSt u).secs then c else c.prepareUnit u)

/-! ### The sync decision of a sector (R166, R169, R178, R188) -/

/-- The first sector of an extent is read (R417). -/
def Chip.firstSector (c : Chip) (d : Nat) : Chip :=
  match (c.readSt d).cur with
  | none => c
  | some x =>
    let c := c.modRead d fun r => { r with began := some (r.began.getD (c.skyNs (portDie d))) }
    c.modCat fun k => { k with restores := k.restores.map fun r =>
      if r.cmd = x.owner then { r with began := some (r.began.getD (c.skyNs (portDie d))) } else r }

/-- Whether a unit reads a pending sector now: its beam is the one that the plan reads the track with, in the pass at that offset, or in a visit of the pass the
sector waits for (R124, R188). -/
def ReadSt.due (r : ReadSt) (beam : Nat) (offset : Int) (s : SectorRec) : Bool :=
  beamOf (psaTrack s.psa) s.offset == beam && s.offset == offset &&
    if r.inBudget then r.visits.head? == some (visitOf s) && s.waits == r.pass && s.waits != 0 else s.waits == 0 && !s.touched

/-- A sector framed by the unit: its slot takes the rung of the pass, or is given up when no attempt on it is due. -/
def Chip.tagSlot (c : Chip) (u : Nat) (x : DecSlot) : Chip :=
  let d := u / 4
  let r := c.readSt d
  match c.pendingSector d x.psa with
  | some s =>
    if r.due (u % 4) x.offset s then
      ((c.firstSector d).modSlot u x.psa fun x => { x with rung := passRung s.waits, reread := decide (0 < s.waits) }).modSector d x.psa
        fun s => { s with touched := true }
    else c.dropSlot u x.psa
  | none => c.dropSlot u x.psa

/-- A sector that ends without a slot (R169, R178, R182, R184, R188, R197): of a burn it fails verify with that verdict; of a read its verdict is pending with the
rung of the pass, and its next step follows. -/
def Chip.noSlot (c : Chip) (u : Nat) (x : DecSlot) (cause : Nat) : Chip :=
  let d := u / 4
  if x.verify then
    if (c.keptAt d x.psa).isSome then
      (c.wr (F.decLast_verdict u) (verdictWord x.sync 0 0 4 cause false false x.setB x.feedback 0 0 0)).verifyVerdict d x.psa false (if cause = 2 then 3 else 0)
    else c
  else
    match c.pendingSector d x.psa with
    | none => c
    | some s =>
      if !(c.readSt d).due (u % 4) x.offset s then c
      else
        let word := verdictWord x.sync 0 (passRung s.waits) 1 cause false false x.setB x.feedback 0 0 0
        let c := ((c.wr (F.decLast_verdict u) word).firstSector d).modSector d x.psa fun s => { s with touched := true, verdict := word }
        if s.waits = 0 ∧ cause = 7 then c.modSector d x.psa fun s => { s with waits := 1, touched := false }
        else
          let c := if s.waits ≤ 1 ∧ (c.nextStep d x.psa (stepsBehind 0 s.waits) cause 0).isSome then c.bump (F.decCnt_retried u) else c
          c.advance d x.psa (stepsBehind 0 s.waits) cause 0

def baseSyncDecision (u : Nat) (s : State) : Host.Outcome State Fault Refusal :=
  let r := s.chip.syncDecision u
  s.nextChip (match r.2 with
    | .none_ x cause => ((r.1.noSlot u x cause).nextReread (u / 4)).wakeReads (u / 4)
    | .slot x => if !x.verify then r.1.tagSlot u x else if (r.1.keptAt (u / 4) x.psa).isSome then r.1 else r.1.dropSlot u x.psa
    | .nothing => r.1)

/-! ### Segments (R180) -/

/-- A decoder ends its segment (R174 to R177, R180): the attempt is decided, or parked. A pool that is out or frozen goes on with nothing (R20, R26). -/
def Chip.segmentEnd (c : Chip) (r k : Nat) : Chip :=
  match if c.poolRuns r then tabGet (c.poolSt r).decoders k else none with
  | none => c
  | some (u, psa) =>
    let c := c.modPool r fun p => { p with decoders := tabSet p.decoders k none }
    match (c.unitSt u).slots.find? fun x => x.psa == psa with
    | none => c.showPool r
    | some x =>
      let g := ldpcRun (c.rd (F.decCtrl_beta r)) x.limit 12 ⟨x.post.toArray, x.msgs.toArray, x.iters, 1, x.synd3⟩
      let c := if g.weight = 0 ∨ x.limit ≤ g.iters then
          let x := { x with iters := g.iters, synd3 := g.synd3 }
          let a := c.judge r x g
          let c := if x.verify then c.verifyEnds u x a else c.framingEnds u x a
          (c.nextReread (u / 4)).wakeReads (u / 4)
        else c.modSlot u psa fun y => { y with phase := 2, post := g.post.toList, msgs := g.msgs.toList, iters := g.iters, synd3 := g.synd3 }
      c.showPool r

def baseDecodeSegmentEnd (r k : Nat) (s : State) : Host.Outcome State Fault Refusal := s.nextChip (s.chip.segmentEnd r k)

end Sys2Proof.Machine
end

