-- ==== Sys2Proof/Machine/Opcodes.lean ====
section
/-! DEFINITION. What the opcode tables say of each opcode (13_command_reference.md, R416, R420). -/
namespace Sys2Proof.Machine

/-- The gate of an opcode (R420). -/
inductive Gate where
  | any | owner | presence | sealQ | head
deriving DecidableEq, Repr

/-- Direction of the data phase. -/
inductive Phase where
  | none | dataOut | dataIn
deriving DecidableEq, Repr

/-- What the opcode tables say of an opcode: gate, whether it is a status command or launchable, its phase with the largest length and the
length's unit; `exact` marks a phase of one length. -/
structure OpRow where
  op : Nat
  gate : Gate
  status : Bool
  launch : Bool
  phase : Phase
  limit : Nat
  unit : Nat
  exact : Bool
deriving DecidableEq, Repr

/-- A row without a phase. -/
def plainRow (op : Nat) (g : Gate) (st : Bool) : OpRow := ⟨op, g, st, false, .none, 0, 1, true⟩
/-- A launchable row without a phase. -/
def launchRow (op : Nat) : OpRow := ⟨op, .any, false, true, .none, 0, 1, true⟩
/-- A row with a data-in phase of at most a length. -/
def inRow (op : Nat) (g : Gate) (st la : Bool) (limit unit : Nat) : OpRow := ⟨op, g, st, la, .dataIn, limit, unit, false⟩
/-- A row with a data-out phase of at most a length, or exactly it. -/
def outRow (op : Nat) (g : Gate) (limit unit : Nat) (exact : Bool) : OpRow := ⟨op, g, false, false, .dataOut, limit, unit, exact⟩

/-- The opcode tables. -/
def opRows : List OpRow := [
  plainRow 0x00 .any true, inRow 0x01 .any true false 4096 1, plainRow 0x02 .any false, plainRow 0x03 .any false, plainRow 0x04 .any true,
  plainRow 0x05 .any true, plainRow 0x06 .any true, inRow 0x07 .owner true false 8192 1, plainRow 0x08 .owner false, outRow 0x09 .owner 32 32 true,
  plainRow 0x20 .any false, outRow 0x21 .any (2 ^ 32 - 1) 1 false, inRow 0x22 .any false true (2 ^ 32 - 1) 1, plainRow 0x23 .any true,
  plainRow 0x24 .any false, plainRow 0x25 .any false, inRow 0x26 .any true false 8192 1, inRow 0x27 .any false true (2 ^ 32 - 4096) 4096,
  plainRow 0x28 .any true, plainRow 0x29 .owner false,
  plainRow 0x40 .any false, plainRow 0x41 .any false, inRow 0x42 .any false false (2 ^ 26) 4096, outRow 0x43 .any (2 ^ 26) 4096 false,
  plainRow 0x44 .any false, plainRow 0x45 .any false, inRow 0x46 .any true false 8192 1,
  plainRow 0x60 .any true, plainRow 0x61 .any false, plainRow 0x62 .any false, inRow 0x63 .any false true (1019 * 4096) 4096, launchRow 0x64,
  launchRow 0x65, plainRow 0x66 .owner false, plainRow 0x67 .owner false, plainRow 0x68 .owner false,
  plainRow 0x80 .any true, launchRow 0x81, plainRow 0x82 .any false, inRow 0x83 .any true false 8192 1,
  plainRow 0xA0 .any true, outRow 0xA1 .owner 64 4 false, plainRow 0xA2 .any true, plainRow 0xA3 .any false, plainRow 0xA4 .head false,
  plainRow 0xA5 .owner false, plainRow 0xA6 .owner false,
  outRow 0xC0 .owner (2 ^ 24) 1 false, plainRow 0xC1 .presence false, plainRow 0xC2 .presence false, plainRow 0xC3 .presence false,
  plainRow 0xC4 .owner false, outRow 0xC5 .presence 128 128 true, outRow 0xC6 .owner 128 128 true, plainRow 0xC7 .owner false,
  plainRow 0xC8 .any true, plainRow 0xC9 .presence false, plainRow 0xCA .presence false, outRow 0xCB .sealQ 128 128 true, plainRow 0xCC .sealQ false,
  outRow 0xCD .sealQ 2048 128 false, outRow 0xCE .sealQ 8192 1 false,
  inRow 0xE0 .any true false (2 ^ 22) 64, plainRow 0xE1 .any false, plainRow 0xE2 .owner false, plainRow 0xE3 .presence false,
  inRow 0xE4 .any true false 833344 1]

/-- The row of an opcode; an opcode without one is unknown or reserved (0x0101). -/
def opRow (op : Nat) : Option OpRow := opRows.find? fun r => r.op == op

end Sys2Proof.Machine
end

