-- ==== Sys2Proof/Machine/Transport.lean ====
section
/-! DEFINITION. Host ports, handshakes, packets and sequence, contexts and data phases, quotas (12_host_transport_and_sessions.md). -/
namespace Sys2Proof.Machine

/-! ### Host ports (R388 to R391) -/

/-- A port exists in a mode (R388). -/
def portExists (mode p : Nat) : Bool := if mode = 1 then decide (p < 2) else if mode = 2 then decide (p < 5) else decide (p < 8)

/-- Lanes of a port in a mode (R388). -/
def portLanes (mode p : Nat) : List Nat :=
  if mode = 1 then (List.range 4).map (4 * p + ·) else if mode = 2 then (if p = 0 then [0, 1, 2, 3] else [p + 3]) else [p]

/-- Host ports as they are in the mode in force (R388). -/
def Chip.setPorts (c : Chip) (mode : Nat) : Chip :=
  (List.range 8).foldl (fun c p => (((c.wrb (F.hostPort_exists p) (portExists mode p)).wr (F.hostPort_up p) 0).wr (F.hostPort_fec p) 0).wr
    (F.hostPort_lpi p) 0) { c with host := { c.host with modeNext := mode } }

/-- Every lane of a port is trained: link up; Clause 74 FEC is used when enabled and asked for; the stored addresses apply (R389, R391). -/
def execHostLinkUp (p : Nat) (partnerFec : Bool) (s : State) : Host.Outcome State Fault Refusal :=
  let c := s.chip
  let lanes := !(portLanes c.host.modeNext p).any fun l => (c.dieSt (l / 4)).out
  s.nextChip (if c.rdb (F.hostPort_exists p) && !c.rdb (F.hostPort_up p) && lanes then
      let c := (c.wr (F.hostPort_up p) 1).wrb (F.hostPort_fec p) (partnerFec && c.rdb F.hostCfg_fec_en)
      let c := c.modHost fun h => { h with net := tabMod h.net p fun k => { k with applied := k.data } }
      c.raisePkg 7 [p]
    else c)

/-- What a received frame is (R390, R391): 0 ARP request, 1 neighbour solicitation, 2 ICMP echo request, 3 a UDP datagram to `udp_port`, 4 a
PTP message, 5 bad FCS, above 9,216 bytes or an IP fragment, 6 anything else. Hardware answers the first three; 3 and 4 are taken by their own
commands; the rest is dropped. -/
def execHostFrame (p kind : Nat) (data : List Nat) (s : State) : Host.Outcome State Fault Refusal :=
  let c := s.chip
  s.nextChip (if !c.rdb (F.hostPort_up p) then c
    else if kind ≤ 2 then c.emit (.frame p kind data)
    else if kind = 3 ∨ kind = 4 then c
    else c.bump (F.hostPort_drops p))

/-! ### Sequence, replay, breaches (R399, R400) -/

/-- A session is frozen with its event (R400, R502). -/
def Chip.freezeSession (c : Chip) (n kind : Nat) : Chip :=
  if c.sessionFrozen (n - 1) then c else (c.wr (F.use_frozen (n - 1)) 1).raisePkg 10 (beBytes 2 n ++ [kind])

/-- A breach: 0 data, 1 replay, 2 rate cap; counted over one second of the keeper timer (R400). -/
def Chip.breach (c : Chip) (n kind : Nat) : Chip :=
  let sec := c.keeper / 10 ^ 9
  let c := c.modSess n fun s =>
    let s := if s.second = sec then s else { s with second := sec, dataBreach := 0, replayBreach := 0, capBreach := 0 }
    if kind = 0 then { s with dataBreach := s.dataBreach + 1 }
    else if kind = 1 then { s with replayBreach := s.replayBreach + 1 } else { s with capBreach := s.capBreach + 1 }
  let s := c.sess n
  let past := if kind = 0 then decide (c.rd F.qcpBreach_data_max < s.dataBreach)
    else if kind = 1 then decide (c.rd F.qcpBreach_replay_max < s.replayBreach) else decide (c.rd F.qcpBreach_cap_max < s.capBreach)
  if past then c.freezeSession n kind else c

/-- A packet's header and whether its tag verifies: session, seq, port and peer it came from. -/
structure Arrival where
  session : Nat
  seq : Nat
  tagOk : Bool
  port : Nat
  peer : Nat
deriving DecidableEq, Repr, Inhabited

/-- A packet of an established session passes its tag and is no replay; a replay is counted and a breach (R392, R394, R399). -/
def Chip.accept (c : Chip) (a : Arrival) : Bool × Chip :=
  let s := c.sess a.session
  if !s.live || !a.tagOk then (false, c.bump F.qcpCnt_bad_tag)
  else if a.seq + 1024 ≤ s.high || s.seen.contains a.seq then
    let c := c.bump F.qcpCnt_replays
    (false, if c.sessionFrozen (a.session - 1) then c else c.breach a.session 1)
  else
    let high := max s.high a.seq
    (true, c.modSess a.session fun s => { s with high := high, seen := (a.seq :: s.seen).filter fun q => decide (high < q + 1024), port := a.port, peer := a.peer })

/-! ### Handshakes (R396, R397, R482) -/

/-- The keeper's activation pause holds fetching and HELLOs (R437). -/
def Chip.paused (c : Chip) : Bool := c.trust.act.isSome

/-- The first session number neither established nor pending. -/
def Chip.freeSession (c : Chip) : Option Nat :=
  (List.range 256).map (· + 1) |>.find? fun n => !(c.sess n).live && !(c.host.shakes.any fun h => h.session == n)

/-- Whether a HELLO's credential is accepted: enrolled, or a bootstrap session where R482 allows one (R397, R479, R482). -/
def Chip.helloAccepted (c : Chip) (cred : Nat) : Bool :=
  if cred = 0 then
    (!c.rdb F.trust_owned || c.sealHeld) && !c.rdb F.trust_bootstrap && !(c.host.shakes.any fun h => h.cred == 0)
  else !c.rdb F.trust_disposed && c.trust.creds.any fun k => k.id == cred

/-- A HELLO refused with a status: no session, no signature, counted and reported (R397). -/
def Chip.refuseHello (c : Chip) (status : Nat) : Chip :=
  ((c.bump F.qcpCnt_hello_refused).raisePkg 9 (beBytes 2 status)).emit (.qcp 0x02 0 0 0 0 0 0 0 (beBytes 2 status ++ List.replicate 227 0))

/-- A HELLO (R395 to R397): the controller's ephemeral key, nonce, signature and session keys are values nothing constrains. -/
def Chip.hello (c : Chip) (port peer hostKey nonce cred : Nat) : Chip :=
  match c.host.shakes.find? fun h => h.hostKey == hostKey && h.nonce == nonce with
  | some h => c.emit (.qcp 0x02 0 0 0 0 0 0 0 h.reply)
  | none =>
    if !c.helloAccepted cred then c.refuseHello 0x0303
    else if 256 ≤ c.liveSessions.length then c.refuseHello 0x0205
    else if 16 ≤ c.host.shakes.length then c.refuseHello 0x0206
    else
      match c.freeSession with
      | none => c.refuseHello 0x0205
      | some n =>
        let (k, c) := c.draw
        let (r, c) := c.draw
        let (sig, c) := c.draw
        let (key, c) := c.draw
        let reply := beBytes 2 0 ++ beBytes 2 n ++ beBytes 97 k ++ beBytes 32 r ++ beBytes 96 sig
        let lanes := portLanes c.host.modeNext port
        let h : Handshake := ⟨n, hostKey, nonce, cred, min 1 (lanes.headD 0 / 4), port, peer, key, c.now, reply, 0⟩
        (c.modHost fun x => { x with shakes := x.shakes ++ [h] }).emit (.qcp 0x02 0 0 0 0 0 0 0 reply)

def execHello (port peer hostKey nonce cred : Nat) (s : State) : Host.Outcome State Fault Refusal :=
  let c := s.chip
  s.nextChip (match c.trust.act with
    | some a => { c with trust := { c.trust with act := some { a with hellos := a.hellos ++ [(port, peer, hostKey, nonce, cred)] } } }
    | none => c.hello port peer hostKey nonce cred)

/-- Rights of a credential; an owner holds every class, a bootstrap session classes 0x00 and 0xC0 (R481, R482). -/
def Chip.credRights (c : Chip) (cred : Nat) : Nat :=
  if cred = 0 then 2 ^ 0 + 2 ^ 6
  else match c.trust.creds.find? fun k => k.id == cred with
    | some k => if k.rights.testBit 8 then 511 else k.rights % 256
    | none => 0

/-- A FINISH (R396, R397, R399, R407): sealed under the new keys with seq 1; a valid signature, or a bootstrap session, establishes the session
with its quota and queue 0; an invalid one is answered 0x0303 while the handshake goes on (R418). For a session that stands it is a replay. -/
def execFinish (n : Nat) (tagOk sigOk : Bool) (s : State) : Host.Outcome State Fault Refusal :=
  let c := s.chip
  match c.host.shakes.find? fun h => h.session == n with
  | none => s.nextChip (c.accept ⟨n, 1, tagOk, (c.sess n).port, (c.sess n).peer⟩).2
  | some h =>
    if !tagOk then s.nextChip (c.bump F.qcpCnt_bad_tag)
    else if sigOk || h.cred == 0 then
      let c := c.modHost fun x => { x with shakes := x.shakes.filter fun k => k.session != n }
      let i := n - 1
      let c := (((c.wr (F.quota_moss i) (c.rd F.qdef_moss)).wr (F.quota_ctx_max i) (c.rd F.qdef_ctx_max)).wr (F.quota_share i) (c.rd F.qdef_share)).wr
        (F.quota_cap i) (c.rd F.qdef_cap)
      let c := (c.wr (F.use_frozen i) 0).modSess n fun _ => { (default : SessSt) with
        live := true, cred := h.cred, rights := c.credRights h.cred, bootstrap := h.cred == 0, key := h.key, die := h.die, port := h.port, peer := h.peer
        high := 1, seen := [1], tokens := 2 ^ 20, tokensAt := c.now, queues := 1, txSeq := h.tx }
      let c := if h.cred = 0 then c.wr F.trust_bootstrap 1 else c
      s.nextChip ((c.sendQcp n 0x04 0 0 0 0 0 (beBytes 2 0)).refreshHost)
    else
      let c := c.modHost fun x => { x with shakes := x.shakes.map fun k => if k.session = n then { k with tx := k.tx + 1 } else k }
      s.nextChip (c.emit (.qcp 0x04 n 0 (h.tx + 1) 0 0 0 0 (beBytes 2 0x0303)))

/-- A pending handshake 1 s after its HELLO_REPLY is discarded (R397). -/
def execHandshakeTimeout (n : Nat) (s : State) : Host.Outcome State Fault Refusal :=
  s.nextChip (s.chip.modHost fun h => { h with shakes := h.shakes.filter fun k => !(k.session == n && decide (k.since + 10 ^ 9 ≤ s.chip.now)) })

/-! ### Commands and contexts (R401, R403, R406) -/

/-- A command from a COMMAND payload (R415). -/
def parseCmd (n q x tag : Nat) (p : List Nat) : Cmd :=
  let f (o l : Nat) : Nat := beNat ((p.drop o).take l)
  ⟨n, q, x, tag, f 0 1, f 1 1, f 4 4, f 8 8, f 16 8, f 24 8, f 32 8, f 40 8, f 48 8, f 56 8⟩

/-- Ranges of a phase still missing, from the granted ones (R406). -/
def missingRanges (granted got : List (Nat × Nat)) : List (Nat × Nat) :=
  got.foldl (fun rs g => rs.flatMap fun r =>
    [(r.1, min r.2 g.1), (max r.1 g.2, r.2)].filter fun x => decide (x.1 < x.2)) granted

/-- READY for a range. -/
def Chip.sendReady (c : Chip) (n x : Nat) (r : Nat × Nat) : Chip :=
  let k := c.ctxSt n x
  c.sendQcp n 0x14 k.cmd.queue x k.cmd.tag 0 0 (beBytes 8 r.1 ++ beBytes 8 r.2)

/-- Releases a context's retained data; the tag stays its last (R403, R405). -/
def Chip.releaseCtx (c : Chip) (n x : Nat) : Chip :=
  let k := c.ctxSt n x
  if k.phase = .retained then
    ((c.freeTiles k.tiles).modCtx n x fun k => { k with phase := .free, tiles := [] }).refreshHost
  else c

/-- A STATUS for a COMMAND that no context takes. -/
def Chip.bareStatus (c : Chip) (n q x tag code : Nat) : Chip := c.sendQcp n 0x11 q x tag 0 0 (statusPayload code 0 [])

/-- Hardware contexts in use (R403). -/
def Chip.hwUsed (c : Chip) : List Nat := (c.contexts fun k => k.isHeld || k.phase == .waiting).map fun e => (c.ctxSt e.1 e.2).hw

/-- The lowest free hardware context (R403). -/
def Chip.freeHw (c : Chip) : Option Nat := (List.range 4096).find? fun h => !c.hwUsed.contains h

/-- A new command is stored in its context, to be fetched in its queue's arrival order (R402, R406). -/
def Chip.storeCmd (c : Chip) (k : Cmd) : Chip :=
  let hw := c.freeHw.getD 0
  (c.modSess k.session fun s => { s with
    ctx := tabSet s.ctx k.ctx { (default : CtxSt) with phase := .waiting, cmd := k, hw := hw }
    lastTag := tabSet s.lastTag k.ctx (k.tag + 1)
    order := s.order ++ [k.ctx] }).refreshHost

/-- A COMMAND against its context (R401, R406, R415, R437, R502). -/
def Chip.command (c : Chip) (a : Arrival) (q x tag : Nat) (payload : List Nat) : Chip :=
  let n := a.session
  let (go, c) := c.accept a
  if !go then c
  else if c.sessionFrozen (n - 1) then c.bareStatus n q x tag 0x0305
  else if !(c.sess n).queues.testBit q then c.bareStatus n q x tag 0x0105
  else
    let k := c.ctxSt n x
    let same := tabGet (c.sess n).lastTag x == tag + 1
    match k.phase with
    | .active | .waiting =>
      if same then
        if k.wait = .dataOut then (missingRanges k.granted k.got).foldl (fun c r => c.sendReady n x r) c else c
      else c.bareStatus n q x tag 0x0106
    | .free | .retained =>
      if same then c.sendStatus n x
      else
        let c := c.releaseCtx n x
        let cmd := parseCmd n q x tag payload
        if c.rd (F.quota_ctx_max (n - 1)) ≤ x ∨ c.rd (F.quota_ctx_max (n - 1)) ≤ (c.sess n).heldCount then c.bareStatus n q x tag 0x0201
        else if c.freeHw.isNone then c.bareStatus n q x tag (if c.paused then 0x0202 else 0x0201)
        else
          let c := c.storeCmd cmd
          if payload.length ≠ 64 then c.fail n x 0x0102 else if (opRow cmd.opcode).isNone then c.fail n x 0x0101 else c

def execCommand (session seq : Nat) (tagOk : Bool) (port peer queue ctx tag : Nat) (payload : List Nat) (s : State) :
    Host.Outcome State Fault Refusal := s.nextChip (s.chip.command ⟨session, seq, tagOk, port, peer⟩ queue ctx tag payload)

/-! ### Data phases (R404, R405, R407) -/

/-- Tokens of a session's ingress cap now: at most 1 MiB, filled at the cap rate (R407). -/
def Chip.tokensNow (c : Chip) (n : Nat) : Nat :=
  let s := c.sess n
  min (2 ^ 20) (s.tokens + (c.now - s.tokensAt) * c.rd (F.quota_cap (n - 1)) / 80)

/-- Takes tokens for a DATA_OUT; none when too few are there. A cap of 0 asks none (R407). -/
def Chip.takeTokens (c : Chip) (n bytes : Nat) : Option Chip :=
  if c.rd (F.quota_cap (n - 1)) = 0 then some c
  else
    let t := c.tokensNow n
    if bytes ≤ t then some (c.modSess n fun s => { s with tokens := t - bytes, tokensAt := c.now }) else none

/-- A READY grants a range of a data-out phase when there is room for its tiles (R404, R502). -/
def execReadyGrant (n x start stop : Nat) (s : State) : Host.Outcome State Fault Refusal :=
  let c := s.chip
  let k := c.ctxSt n x
  if k.phase = .active ∧ k.wait = .dataOut ∧ start < stop ∧ stop ≤ k.cmd.dlen ∧ !c.sessionFrozen (n - 1) then
    let need := (stop + 4095) / 4096 - k.tiles.length
    let t := c.takeTiles (c.sess n).die (ctxOwner n x) need
    if t.1.length < need then .next s
    else s.nextChip ((t.2.modCtx n x fun k => { k with tiles := k.tiles ++ t.1, granted := k.granted ++ [(start, stop)] }).sendReady n x (start, stop))
  else .next s

/-- Bytes of a phase that have arrived, without gap from the start. -/
def contiguous (got : List (Nat × Nat)) : Nat → Nat → Nat
  | 0, n => n
  | fuel + 1, n =>
    match got.find? fun g => decide (g.1 ≤ n) && decide (n < g.2) with
    | some g => contiguous got fuel g.2
    | none => n

/-- Bytes that have arrived in all. -/
def gotBytes (got : List (Nat × Nat)) : Nat := (got.map fun g => g.2 - g.1).sum

/-- Writes bytes of a phase into its tiles, those that are being filled (R378). -/
def writePhase (filling : Nat → Bool) (m : List Host.Cell) (tiles : List Nat) (off : Nat) (bs : List Nat) : List Host.Cell :=
  (blockPieces bs.length off bs).foldl (fun m p =>
    match tiles[p.1 / 4096]? with
    | some t => if filling t then memWrites m (tileAddr t + p.1 % 4096) p.2 else m
    | none => m) m

/-- The beats of a phase's `i`th tile that have arrived whole (R377). -/
def phaseBeats (got : List (Nat × Nat)) (i : Nat) : Nat :=
  ((List.range 64).map fun n => if missingRanges [(4096 * i + 64 * n, 4096 * i + 64 * n + 64)] got = [] then 2 ^ n else 0).sum

/-- Marks the beats of the tiles that some ranges of a phase touch. -/
def Chip.markBeats (c : Chip) (tiles : List Nat) (got parts : List (Nat × Nat)) : Chip :=
  let touched := (parts.flatMap fun p => (List.range ((p.2 + 4095) / 4096 - p.1 / 4096)).map (p.1 / 4096 + ·)).eraseDups
  touched.foldl (fun c i =>
    match tiles[i]? with
    | some t => if (c.tileSt t).state = 1 then c.modTile t fun r => { r with beats := phaseBeats got i } else c
    | none => c) c

/-- Takes the new bytes of a DATA_OUT within granted ranges into tiles; the ingress snoop unit sees them in offset order (R385, R404). -/
def State.takeData (s : State) (n x off : Nat) (bs : List Nat) : State :=
  let k := s.chip.ctxSt n x
  let parts := (missingRanges k.granted k.got).filterMap fun r =>
    let a := max r.1 off
    let b := min r.2 (off + bs.length)
    if a < b then some (a, b) else none
  let dram := parts.foldl (fun m p => writePhase (fun t => (s.chip.tileSt t).state == 1) m k.tiles p.1 ((bs.drop (p.1 - off)).take (p.2 - p.1))) s.dram
  let got := k.got ++ parts
  let before := contiguous k.got k.got.length 0
  let after := contiguous got got.length 0
  let s := { s with dram := dram, chip := (s.chip.modCtx n x fun k => { k with got := got }).markBeats k.tiles got parts }
  if before < after then
    { s with chip := s.chip.snoopStream (s.chip.sess n).die 0 k.hw (s.tilesRange k.tiles before (after - before)) }
  else s

/-- Closes the tiles of a phase that has arrived whole: their checks are fixed (R376, R377). -/
def State.closePhase (s : State) (n x : Nat) : State :=
  let k := s.chip.ctxSt n x
  s.fillTiles k.tiles (s.tilesRange k.tiles 0 k.cmd.dlen)

/-- A RESEND (R400, R405, R406). -/
def execResend (session seq : Nat) (tagOk : Bool) (port peer ctx tag start stop : Nat) (s : State) : Host.Outcome State Fault Refusal :=
  let (go, c) := s.chip.accept ⟨session, seq, tagOk, port, peer⟩
  let k := c.ctxSt session ctx
  if !go || c.sessionFrozen (session - 1) then s.nextChip c
  else if k.isHeld && k.cmd.tag == tag then
    if k.tiles = [] ∨ k.wait = .dataOut then s.nextChip c
    else
      let total := match k.got with | g :: _ => g.2 | [] => k.cmd.dlen
      .next ({ s with chip := c }.sendRange session ctx (min start total) (min stop total) total).1
  else if tabGet (c.sess session).lastTag ctx = tag + 1 then s.nextChip (c.bareStatus session k.cmd.queue ctx tag 0x0107)
  else s.nextChip (c.breach session 0)

/-- A RELEASE (R400, R405). -/
def execRelease (session seq : Nat) (tagOk : Bool) (port peer ctx tag : Nat) (s : State) : Host.Outcome State Fault Refusal :=
  let (go, c) := s.chip.accept ⟨session, seq, tagOk, port, peer⟩
  let k := c.ctxSt session ctx
  if !go || c.sessionFrozen (session - 1) then s.nextChip c
  else if k.isHeld && k.cmd.tag == tag then s.nextChip (c.releaseCtx session ctx)
  else s.nextChip (c.breach session 0)

/-- An EVENT_ACK advances the session's acknowledged sequence (R587). -/
def execEventAck (session seq : Nat) (tagOk : Bool) (port peer number : Nat) (s : State) : Host.Outcome State Fault Refusal :=
  let (go, c) := s.chip.accept ⟨session, seq, tagOk, port, peer⟩
  if !go || c.sessionFrozen (session - 1) then s.nextChip c
  else
    match tabGet c.ev.subs (session - 1) with
    | some sub =>
      if sub.acked < number then
        s.nextChip { c with ev := { c.ev with subs := tabSet c.ev.subs (session - 1) (some { sub with acked := number, since := c.now }) } }
      else s.nextChip c
    | none => s.nextChip c

/-! ### Quotas (R407 to R409) -/

/-- Whether a session's use lies above its quota. -/
def Chip.overQuota (c : Chip) (n : Nat) : Bool :=
  (c.quotaMoss n != 0 && decide (c.quotaMoss n < c.mossUse n)) || decide (c.rd (F.quota_ctx_max (n - 1)) < (c.sess n).heldCount)

/-- A quota write takes effect; one below current use sets `over` and raises the event (R409). -/
def Chip.quotaWritten (c : Chip) (n : Nat) : Chip :=
  let c := c.refreshHost
  if c.overQuota n then (c.wr (F.use_over (n - 1)) 1).raisePkg 11 (beBytes 2 n) else c.wr (F.use_over (n - 1)) 0

def execQuotaWrite (n moss ctxMax share cap : Nat) (s : State) : Host.Outcome State Fault Refusal :=
  let i := n - 1
  let c := s.chip
  s.nextChip (if 1 ≤ n ∧ n ≤ 256 then
      ((((c.wr (F.quota_moss i) moss).wr (F.quota_ctx_max i) (max 1 ctxMax)).wr (F.quota_share i) (max 1 share)).wr (F.quota_cap i) cap).quotaWritten n
    else c)

/-- An allocation of moss-tier bytes fits a session's quota (R408). -/
def Chip.quotaFits (c : Chip) (n bytes : Nat) : Bool := c.quotaMoss n == 0 || decide (c.mossUse n + bytes ≤ c.quotaMoss n)

end Sys2Proof.Machine
end

