-- ==== Sys2Proof/Machine/Objects.lean ====
section
/-! DEFINITION. Objects, grants of frond space, frond states up to the parity, and manifests (09_objects_and_fronds.md, R295 to R307; R422). -/
namespace Sys2Proof.Machine

/-! ### Keys (R474 and the key table of 15_trust_presence_containment.md) -/

/-- The key of an object by its salt. -/
def Chip.objKey (c : Chip) (id salt : Nat) : Nat := Config.derive 3 [c.keyRoot, salt, id % 2 ^ 64]

/-- Block `b` of an object as it is stored: ciphertext, zeros up to byte 4,079, tag; the identifier is authenticated with it (R297, R474). -/
def Chip.sealBlock (c : Chip) (id salt b : Nat) (plain : List Nat) : List Nat :=
  let r := aesSeal (c.objKey id salt) b (beBytes 8 id) plain
  padTo 4080 (r.take plain.length) ++ r.drop plain.length

/-- The plaintext of a stored block of `n` bytes, when its tag holds. A destroyed object has no key (R320, R478). -/
def Chip.openBlock (c : Chip) (id salt b n : Nat) (blk : List Nat) : Option (List Nat) :=
  if c.trust.destroyed.contains (id % 2 ^ 64, salt) then none
  else aesOpen (c.objKey id salt) b (beBytes 8 id) (blk.take n) (blk.drop 4080)

/-! ### Shapes and fronds (R302 to R307, R323) -/

/-- Band runs of a shape entry: 0 means 256. -/
def qOf (q : Nat) : Nat := if q = 0 then 256 else q

/-- A shape entry is enabled and within the limits of R302. -/
def Chip.shapeOk (c : Chip) (s : Nat) : Bool :=
  let k := c.rd (F.shape_k s)
  let m := c.rd (F.shape_m s)
  c.rdb (F.shape_en s) && decide (1 ≤ k) && decide (k ≤ 20) && decide (1 ≤ m) && decide (m ≤ 8) && decide (k + m ≤ 24) && decide (qOf (c.rd (F.shape_q s)) ≤ 256)

/-- Blocks of a frond. -/
def FrondRec.blocks (f : FrondRec) : Nat := f.k * f.q * 16384

/-- A grant of a size fits beside the manifest for one more extent (R306). -/
def FrondRec.fits (f : FrondRec) (n : Nat) : Bool :=
  decide (f.nExtents + 1 ≤ 65535) && decide (f.fill + n + manifestBlocks (f.nExtents + 1) ≤ f.blocks)

/-- The lowest free place of the moss tier for an image, among the starts and ends of the images there are. DESIGN CHOICE, notes/assumptions/31.md. -/
def Chip.freeMoss (c : Chip) (size : Nat) : Nat :=
  let used := c.cat.fronds.flatMap fun f => (f.pinnae.filter fun p => !p.mossGone).map fun p => (p.moss, p.moss + f.q * 2 ^ 26)
  let starts := (0 :: used.map (·.2)).mergeSort (· ≤ ·)
  (starts.find? fun a => used.all fun u => decide (a + size ≤ u.1) || decide (u.2 ≤ a)).getD 0

/-- A new pinna with its image in the moss tier. -/
def Chip.addPinna (c : Chip) (fr q : Nat) : Chip :=
  let a := c.freeMoss (q * 2 ^ 26)
  c.modFrond fr fun f => { f with pinnae := f.pinnae ++ [⟨.staged, a, 0, 0, 0, 0, [], [], [], false, 0, false⟩] }

/-- Opens a frond of a shape: the next identifier, the shape's values captured, its images placed (R302, R305, R323). -/
def Chip.openFrond (c : Chip) (s : Nat) : Nat × Chip :=
  let seq := c.cat.frondSeq + 1
  let i := c.rd F.chain_sys_addr % 2 ^ 10 * 2 ^ 38 + seq
  let f : FrondRec := ⟨i, s, c.rd (F.shape_k s), c.rd (F.shape_m s), qOf (c.rd (F.shape_q s)), .opened, 0, 0, 0, c.now, 0, 0, [], false, false, 0, false, 0⟩
  let c := c.modCat fun k => { k with frondSeq := seq, fronds := k.fronds ++ [f] }
  let c := (List.range (f.k + f.m)).foldl (fun c _ => c.addPinna i f.q) c
  let c := (c.logSeq).logFrond i
  (i, ((List.range (f.k + f.m)).foldl (fun c p => c.logPinna i p) c).refreshFronds)

/-- Stops granting in a frond: it is SEALING, and grants in it end where they are (R307). -/
def Chip.sealFrond (c : Chip) (i : Nat) : Chip :=
  let c := c.modFrond i fun f => if f.state = .opened then { f with state := .sealing } else f
  let c := c.modCat fun k => { k with objects := k.objects.map fun o =>
    match o.grant with
    | some g => if g.frond = i then { o with grant := none } else o
    | none => o }
  (c.logFrond i).refreshFronds

/-- The open frond of a shape. -/
def Chip.frondOpen (c : Chip) (s : Nat) : Option FrondRec := c.cat.fronds.find? fun f => f.shape == s && f.state == .opened

/-- The size of an object's next grant (R305): as large as a declared length needs at first, and never more than an empty frond of its shape
holds beside a manifest of one block. -/
def Chip.grantSize (c : Chip) (o : ObjRec) : Nat :=
  let cap := c.rd (F.shape_k o.shape) * qOf (c.rd (F.shape_q o.shape)) * 16384 - 1
  let n := c.rd F.frondCtrl2_grant
  min cap (if o.extents = [] ∧ o.declared ≠ 0 then min n ((o.declared + 4079) / 4080) else n)

/-- Grants space to an object: in its shape's open frond where it fits, otherwise that frond is sealed and the grant is made in the next
(R305, R306). None without a system address for a new frond, with the shape disabled, or beyond the quota: the status is answered. -/
def Chip.grant (c : Chip) (i : Nat) : Nat × Chip :=
  match findObj c.cat.objects i with
  | none => (0x0502, c)
  | some o =>
    let n := c.grantSize o
    let fits := (c.frondOpen o.shape).any fun f => f.fits n
    if !(c.quotaFits o.session (n * 4096)) then (0x0201, c)
    else if !fits && !c.shapeOk o.shape then (0x0507, c)
    else if !fits && !c.rdb F.chain_addr_valid then (0x0109, c)
    else
      let (fr, c) : Nat × Chip :=
        match c.frondOpen o.shape with
        | some f => if fits then (f.id, c) else (c.sealFrond f.id).openFrond o.shape
        | none => c.openFrond o.shape
      match findFrond c.cat.fronds fr with
      | none => (0x0502, c)
      | some f =>
        let c := c.modFrond fr fun r => { r with
          fill := r.fill + n, granted := r.granted + n, openedAt := if r.granted = 0 then c.now else r.openedAt }
        (0, c.modObj i fun o => { o with grant := some ⟨fr, f.fill, f.fill + n, f.fill⟩ })

/-- Gives the next block of an object's space, after a new grant where none is left: the frond and its block, or a status (R305). -/
def Chip.takeBlock (c : Chip) (i ob : Nat) : Nat × Option (Nat × Nat) × Chip :=
  let left (c : Chip) : Option GrantRec := ((findObj c.cat.objects i).bind (·.grant)).filter fun g => decide (g.next < g.last)
  let (st, c) := if (left c).isSome then (0, c) else c.grant i
  match left c with
  | none => (if st = 0 then 0x0502 else st, none, c)
  | some g =>
    let joins := ((findObj c.cat.objects i).bind fun o => o.extents.getLast?).any fun e =>
      e.frond == g.frond && e.fblock + e.blocks == g.next && e.oblock + e.blocks == ob
    let c := c.modObj i fun o => { o with
      grant := some { g with next := g.next + 1 }
      extents := if joins then o.extents.dropLast ++ (o.extents.getLast?.map fun e => { e with blocks := e.blocks + 1 }).toList
        else o.extents ++ [⟨ob, g.frond, g.next, 1⟩] }
    let c := if joins then c else c.modFrond g.frond fun f => { f with nExtents := f.nExtents + 1 }
    (0, some (g.frond, g.next), c)

/-- Gives the places of consecutive object blocks. -/
def takeBlocks : Nat → Chip → Nat → Nat → Nat × List (Nat × Nat) × Chip
  | 0, c, _, _ => (0, [], c)
  | n + 1, c, i, ob =>
    match c.takeBlock i ob with
    | (st, none, c) => (st, [], c)
    | (_, some p, c) =>
      let r := takeBlocks n c i (ob + 1)
      (r.1, p :: r.2.1, r.2.2)

/-- Moss-tier address of a frond block: block j lies in data pinna j mod k at sector j / k (R304). -/
def FrondRec.mossOf (f : FrondRec) (j : Nat) : Nat := ((f.pinnae[j % f.k]?).map (·.moss)).getD 0 + 4096 * (j / f.k)

/-- Runs of bytes at rising addresses joined, for fewer granule writes. -/
def joinWrites (ws : List (Nat × List Nat)) : List (Nat × List Nat) :=
  (ws.mergeSort fun a b => decide (a.1 ≤ b.1)).foldl (fun acc w =>
    match acc.getLast? with
    | some l => if l.1 + l.2.length = w.1 then acc.dropLast ++ [(l.1, l.2 ++ w.2)] else acc ++ [w]
    | none => [w]) []

/-- Writes bytes into moss-tier images through the moss stream; answers what durability waits for (R299, R339). -/
def Chip.writeImages (c : Chip) (ws : List (Nat × List Nat)) : List Nat × Chip :=
  (joinWrites ws).foldl (fun x w =>
    let r := x.2.writeSpace 0 0 w.1 w.2
    (x.1 ++ r.1, r.2)) ([], c)

/-! ### Puts (R296 to R301, R422) -/

/-- Object blocks that a length fills. -/
def objBlocks (n : Nat) : Nat := (n + 4079) / 4080

/-- The puts of an object that have not ended, in parse order. -/
def Chip.putsOf (c : Chip) (i : Nat) : List (Nat × Nat) :=
  c.contextsParsed fun k => k.phase == .active && k.cmd.opcode == 0x21 && k.cmd.p0 == i && k.object == i && !k.ok

/-- The next expected offset of an object: the end of the last put parsed that has not failed (R422). -/
def Chip.nextOffset (c : Chip) (i : Nat) : Nat :=
  match (c.putsOf i).getLast? with
  | some e => (c.ctxSt e.1 e.2).cmd.p1 + (c.ctxSt e.1 e.2).cmd.dlen
  | none => ((findObj c.cat.objects i).map (·.length)).getD 0

/-- A put that fails takes every put of the object parsed after it with it (R422). -/
def Chip.failPut (c : Chip) (n x code : Nat) : Chip :=
  let k := c.ctxSt n x
  let later := (c.putsOf k.object).filter fun e => decide (k.parse < (c.ctxSt e.1 e.2).parse)
  later.foldl (fun c e => c.fail e.1 e.2 0x0503) (c.fail n x code)

/-- Journals an object with the extents a put added to or opened. -/
def Chip.logPut (c : Chip) (i firstNew : Nat) : Chip :=
  match findObj c.cat.objects i with
  | none => c
  | some o => ((o.extents.drop firstNew).foldl (fun c e => c.logExtent i e) c).logObject i

/-- At the close the unused blocks of the last grant go back when it ends at the fill pointer (R305). -/
def Chip.giveBack (c : Chip) (i : Nat) : Chip :=
  match (findObj c.cat.objects i).bind (·.grant) with
  | none => c
  | some g =>
    let c := c.modFrond g.frond fun f => if f.fill = g.last then { f with fill := g.next } else f
    c.modObj i fun o => { o with grant := none }

/-- The engine takes a put whose data have arrived in order: whole blocks, and at the close the last one, are sealed and written to their
images, their records journaled; the put then waits for its level. At the close the check is compared (R297 to R300). -/
def Chip.takePut (c : Chip) (n x : Nat) (bs : List Nat) : Chip :=
  let k := c.ctxSt n x
  let i := k.object
  match findObj c.cat.objects i with
  | none => c.failPut n x 0x0502
  | some o =>
    let close := k.cmd.cflags.testBit 0
    let data := o.part ++ bs
    let ob := o.length / 4080
    let cnt := if close then (data.length + 4079) / 4080 else data.length / 4080
    match takeBlocks cnt c i ob with
    | (0, places, c) =>
      let run := snoopStep o.poly o.running bs
      let len := o.length + bs.length
      let blocks := (chunks 4080 cnt data).zipIdx.zip places |>.map fun e =>
        (((findFrond c.cat.fronds e.2.1).map fun f => f.mossOf e.2.2).getD 0, c.sealBlock i o.salt (ob + e.1.2) e.1.1)
      let (lsns, c) := c.writeImages blocks
      let good := !close || decide (k.cmd.p2 = run)
      let c := c.modObj i fun o => { o with
        length := len, running := run, part := if close then [] else data.drop (4080 * cnt)
        state := if close then (if good then .committed else .void) else o.state
        check := if close then run else o.check }
      let c := if close then c.giveBack i else c
      let c := c.logPut i (o.extents.length - 1)
      let c := c.modObj i fun o => { o with
        waits := o.waits ++ (lsns.map fun l => (l, o.staged, o.stagedRun)) ++ [(c.catLsn, len, run)] }
      if good then c.modCtx n x fun k => { k with wait := .level i o.level, ok := true }
      else c.failPut n x 0x0406
    | (st, _, _) => c.failPut n x (if st = 0 then 0x0502 else st)

/-- Bytes of a put's phase, every tile checked before its use by the crypto engine (R379). -/
def State.putBytes (s : State) (n x : Nat) : Option (List Nat) × State :=
  let k := s.chip.ctxSt n x
  match k.tiles.find? fun t => !s.tileGood t with
  | some t => (none, { s with chip := s.chip.poisonTile t 2 })
  | none => (some (s.tilesRange k.tiles 0 k.cmd.dlen), s)

/-- Takes the puts of an object whose data have arrived, in parse order, up to the first that still waits for data (R422). -/
def State.advancePuts : Nat → State → Nat → State
  | 0, s, _ => s
  | fuel + 1, s, i =>
    match (s.chip.putsOf i).head? with
    | none => s
    | some e =>
      let k := s.chip.ctxSt e.1 e.2
      if k.wait ≠ .activity then s
      else if !s.chip.poolWrites then { s with chip := s.chip.failPut e.1 e.2 0x0405 }
      else
        let s' : State :=
          match s.putBytes e.1 e.2 with
          | (none, s) => { s with chip := s.chip.failPut e.1 e.2 0x0401 }
          | (some bs, s) => { s with chip := s.chip.takePut e.1 e.2 bs }
        State.advancePuts fuel s' i

/-- Everything an object's puts can do now, and what that completes. -/
def State.runPuts (s : State) (i : Nat) : State :=
  let s := s.advancePuts ((s.chip.putsOf i).length + 1) i
  { s with chip := s.chip.settle }

/-- A create whose identifier an older, void or discarded object still has: the older record keeps its blocks under a number no host can name. -/
def Chip.shelve (c : Chip) (i : Nat) : Chip :=
  let n := (c.cat.objects.filter fun o => o.id % 2 ^ 64 == i).length
  c.modObj i fun o => { o with id := i + 2 ^ 64 * n }

/-- The data that had not reached STAGED are discarded: objects go back to the bytes staged, and their grants keep zeros (R299, R307). -/
def Chip.dropUnstaged (c : Chip) : Chip :=
  c.modCat fun k => { k with objects := k.objects.map fun o =>
    if (o.state = .opened ∨ o.state = .committed) ∧ o.staged < o.length then
      let b := objBlocks o.staged
      { o with
        state := .opened, length := o.staged, running := o.stagedRun, part := [], grant := none, waits := []
        extents := (o.extents.filter fun e => decide (e.oblock < b)).map fun e => { e with blocks := min e.blocks (b - e.oblock) } }
    else o }

/-! ### The manifest (R306) -/

/-- The last extent of an object in the catalogue. -/
def ObjRec.isLast (o : ObjRec) (e : ExtentRec) : Bool := o.extents.getLast? == some e

/-- Manifest entry of an extent. -/
def manifestEntry (o : ObjRec) (e : ExtentRec) : List Nat :=
  let closed := o.state != .opened
  let last := closed && o.isLast e
  let tail := if o.length = 0 then 0 else (o.length - 1) % 4080 + 1
  beBytes 8 (o.id % 2 ^ 64) ++ beBytes 8 e.oblock ++ beBytes 4 e.blocks ++ beBytes 4 e.fblock ++ beBytes 2 (if last then tail else 0) ++
    beBytes 2 (last.toNat + 2 * (o.state == .void).toNat + 4 * (o.state == .opened).toNat) ++ [0, 0, 0, 0] ++ beBytes 16 o.salt ++
    beBytes 8 (if last then o.check else 0) ++ beBytes 8 0

/-- The extents of a frond with their objects, in order of their first block. -/
def Chip.frondExtents (c : Chip) (i : Nat) : List (ObjRec × ExtentRec) :=
  (c.cat.objects.flatMap fun o => (o.extents.filter fun e => e.frond == i).map fun e => (o, e)).mergeSort fun a b =>
    decide (a.2.fblock ≤ b.2.fblock)

/-- The manifest of a frond with its seal time. -/
def Chip.manifest (c : Chip) (f : FrondRec) (sealedAt : Nat) : List Nat :=
  let es := c.frondExtents f.id
  let body := es.flatMap fun e => manifestEntry e.1 e.2
  let m := manifestBlocks es.length
  let head := beBytes 4 0x46524E44 ++ beBytes 2 1 ++ beBytes 2 es.length ++ beBytes 8 f.id ++ [f.k, f.m, f.q % 256, f.shape] ++ beBytes 4 m ++
    beBytes 8 sealedAt ++ List.replicate 24 0
  padTo (4096 * m) (head ++ beBytes 8 (crc64 (head ++ body)) ++ body)

/-- Every granted block of a frond that holds data is STAGED (R307). -/
def Chip.frondStaged (c : Chip) (i : Nat) : Bool :=
  (c.frondExtents i).all fun e => e.1.state == .discarded || decide (min (4080 * (e.2.oblock + e.2.blocks)) e.1.length ≤ e.1.staged)

/-! ### Parity (R303) -/

/-- Product in GF(2^16) under x^16 + x^12 + x^3 + x + 1. -/
def gfMulBits : Nat → Nat → Nat → Nat
  | 0, _, _ => 0
  | n + 1, a, b =>
    let r := gfMulBits n a b * 2
    let r := if r.testBit 16 then r ^^^ 0x1100B else r
    -- bit n of b is the highest one not yet taken
    if b.testBit (15 - n) then r ^^^ a else r

def gfMul (a b : Nat) : Nat := gfMulBits 16 a b

/-- a to the power 2^n − 2 gives the inverse: 2^16 − 2 by squaring. -/
def gfInvSteps : Nat → Nat → Nat → Nat
  | 0, _, r => r
  | n + 1, a, r => gfInvSteps n (gfMul a a) (gfMul r (gfMul a a))

def gfInv (a : Nat) : Nat := gfInvSteps 15 a 1

/-- The coefficient of data pinna j in parity p_i. -/
def parityCoef (i j : Nat) : Nat := gfInv ((32 + i) ^^^ j)

/-- Symbols of a sector: two bytes each, the first the high one. -/
def symbolsOf : List Nat → List Nat
  | a :: b :: t => (a * 256 + b) :: symbolsOf t
  | _ => []

/-- Bytes of symbols. -/
def symbolBytes (ss : List Nat) : List Nat := ss.flatMap fun s => [s / 256 % 256, s % 256]

/-- A weighted sum of sectors. -/
def combine (ws : List (Nat × List Nat)) : List Nat :=
  symbolBytes ((ws.map fun w => (symbolsOf w.2).map (gfMul w.1)).foldl (fun a b => (a.zip b).map fun e => e.1 ^^^ e.2) (List.replicate 2048 0))

/-- A sector of zeros. -/
def zeroSector : List Nat := List.replicate 4096 0

/-- The sector of parity p_i in row t, from the data images; a data sector that is lost stands as a free value. DESIGN CHOICE, notes/assumptions/35.md. -/
def Chip.paritySector (c : Chip) (f : FrondRec) (i t : Nat) : List Nat :=
  combine ((List.range f.k).map fun j => (parityCoef i j, ((f.pinnae[j]?).bind fun p => c.pinnaSector p t).getD
    (beBytes 4096 (Config.freeValue (c.free + t * f.k + j)))))

/-- The slices of the four regions, each over its quarter of the rows, write the parity pinnae of a frond once every slice can work (R26, R303, R307). -/
def Chip.writeParities (c : Chip) (f : FrondRec) : Chip :=
  if (List.range 4).all c.sliceRuns then
    let free := c.free + f.q * 16384 * f.k
    let ps := (List.range f.m).map fun i => (List.range (f.q * 16384)).flatMap fun t => c.paritySector f i t
    let c := ps.zipIdx.foldl (fun c e =>
      let a := ((f.pinnae[f.k + e.2]?).map (·.moss)).getD 0
      (c.writeSpace 0 0 a e.1).2) { c with free := free }
    c.modFrond f.id fun r => { r with coded := true }
  else c

/-! ### Frond states to PLACING (R307) -/

/-- `seal_s` have passed since the first grant of an open frond. -/
def execFrondSealTimeout (frond : Nat) (s : State) : Host.Outcome State Fault Refusal :=
  let c := s.chip
  s.nextChip (match findFrond c.cat.fronds frond with
    | some f => if f.state = .opened ∧ c.poolStands ∧ f.fill ≠ 0 ∧ f.openedAt + c.rd F.frondCtrl_seal_s * 10 ^ 9 ≤ c.now then c.sealFrond frond else c
    | none => c)

/-- Every block of a SEALING frond is STAGED: the manifest goes into the images, the seal is journaled, and the frond slices write the parity. -/
def Chip.sealingDone (c : Chip) (f : FrondRec) : Chip :=
  let t := c.sky_
  let bs := c.manifest f t
  let m := bs.length / 4096
  let ws := (chunks 4096 m bs).zipIdx.map fun e => (f.mossOf (f.blocks - m + e.2), e.1)
  let c := (c.writeImages ws).2
  let c := c.modFrond f.id fun r => { r with state := .parity, sealedAt := t, nExtents := (c.frondExtents f.id).length }
  ((c.logFrond f.id).writeParities f).refreshFronds

def execFrondSealingDone (frond : Nat) (s : State) : Host.Outcome State Fault Refusal :=
  let c := s.chip
  s.nextChip (match findFrond c.cat.fronds frond with
    | some f => if f.state = .sealing ∧ c.frondStaged frond ∧ c.poolWrites then (c.sealingDone f).settle else c
    | none => c)

/-- The granules of a frond's parity images that are not durable yet. -/
def Chip.parityPending (c : Chip) (f : FrondRec) : Bool :=
  (f.pinnae.drop f.k).any fun p => c.moss.writes.any fun w =>
    w.space == 0 && decide (p.moss / 16384 ≤ w.granule) && decide (w.granule < p.moss / 16384 + f.q * 4096)

/-- All parity pinnae are staged: the frond waits for its drives. Slices that were frozen at the seal write them first. -/
def execFrondParityDone (frond : Nat) (s : State) : Host.Outcome State Fault Refusal :=
  let c := s.chip
  s.nextChip (match findFrond c.cat.fronds frond with
    | some f =>
      if f.state ≠ .parity ∨ !c.poolStands then c
      else if !f.coded then (if c.poolWrites then c.writeParities f else c)
      else if c.parityPending f then c
      else ((c.modFrond frond fun r => { r with state := .placing, placingAt := c.now }).logFrond frond).refreshFronds
    | none => c)

end Sys2Proof.Machine
end

