-- ==== Sys2Proof/Machine/Fronds.lean ====
section
/-! DEFINITION. Placement, burn choreography and restore reads (09_objects_and_fronds.md, R307 to R321, R598; R426). -/
namespace Sys2Proof.Machine

/-! ### Placement (R308 to R311) -/

/-- A disc holds a pinna of a frond: placed on it, or with a run of it, complete, spoiled or open (R222, R308). -/
def Chip.discHolds (c : Chip) (f : FrondRec) (disc : Nat) : Bool :=
  (f.pinnae.any fun p => ((p.state == .burning || p.state == .complete) && p.disc == disc) || 0 < p.spoilsOn disc) ||
  (findDisc c.cat.discs disc).any fun r => (r.runs.any fun e => e.2.1 == f.id) || r.sides.any fun l => l.2.openRun.any fun o => o.1 == f.id

/-- A layer-side takes `q` further runs: no open run, not closed to burning, room in the user area (R82, R308). -/
def LayerSide.takes (l : LayerSide) (q : Nat) : Bool :=
  l.openRun.isNone && !l.closed && !l.isClosed && decide (max (psaPosition l.next) userStart + 4160 * q ≤ spareStart)

/-- The disc, side and layer a drive would take a pinna of a frond on, when it is eligible (R308). -/
def Chip.eligible (c : Chip) (f : FrondRec) (d : Nat) : Option (Nat × Nat × Nat) :=
  if c.portUp d && c.mayBurn d then
    match c.loadedDisc d with
    | some (disc, side) =>
      if c.discHolds f disc then none
      else ((List.range 8).find? fun l => (c.layerSide disc (8 * side + l)).takes f.q).map fun l => (disc, side, l)
    | none => none
  else none

/-- Eligible drives of a region. -/
def Chip.eligibleIn (c : Chip) (f : FrondRec) (r : Nat) : List Nat := (regionPorts r).filter fun d => (c.eligible f d).isSome

/-- The region the next pinna goes to, by the counts so far and the drives left (R309). -/
def nextRegion (avail counts : Nat → Nat) : Option Nat :=
  let cand := ([0, 2, 1, 3] : List Nat).filter fun r => decide (counts r < avail r)
  let die (r : Nat) : Nat := counts (r / 2 * 2) + counts (r / 2 * 2 + 1)
  cand.foldl (fun b r =>
    match b with
    | none => some r
    | some o => if counts r < counts o ∨ (counts r = counts o ∧ die r < die o) then some r else some o) none

/-- Hands out pinnae one at a time; answers how many each region gets (R309). -/
def handOut (avail : Nat → Nat) : Nat → (List Nat) → List Nat
  | 0, cs => cs
  | n + 1, cs =>
    match nextRegion avail (fun r => cs.getD r 0) with
    | some r => handOut avail n (cs.zipIdx.map fun e => if e.2 = r then e.1 + 1 else e.1)
    | none => cs

/-- Counts within one of each other per region and per die (R309). -/
def balanced (cs : List Nat) : Bool :=
  let g (r : Nat) : Nat := cs.getD r 0
  let hi := (List.range 4).map g |>.foldl max 0
  (List.range 4).all (fun r => decide (hi ≤ g r + 1)) && decide (g 0 + g 1 ≤ g 2 + g 3 + 1) && decide (g 2 + g 3 ≤ g 0 + g 1 + 1)

/-- Takes drives of a region by its rotating pointer (R34, R309). -/
def Chip.takeDrives : Nat → Chip → Nat → List Nat → List Nat × Chip
  | 0, c, _, _ => ([], c)
  | n + 1, c, r, ds =>
    match arbitrate 6 (tabGet c.cat.placePtr r) (fun i => ds.contains (6 * r + i)) with
    | some i =>
      let c := c.modCat fun k => { k with placePtr := tabSet k.placePtr r (arbNext 6 i) }
      let x := Chip.takeDrives n c r (ds.filter (· != 6 * r + i))
      ((6 * r + i) :: x.1, x.2)
    | none => ([], c)

/-- One drive from each region in turn, each region's in ascending order (R309). -/
def inTurn (per : List (List Nat)) : List Nat :=
  (List.range 6).flatMap fun j => per.flatMap fun ds => ((ds.mergeSort (· ≤ ·))[j]?).toList

/-- A pinna goes to a drive: its disc, side and layer, the launch of its run 0. -/
def Chip.placePinna (c : Chip) (f : FrondRec) (pi d launch : Nat) : Chip :=
  match c.eligible f d with
  | some (disc, side, layer) =>
    (c.modPinna f.id pi fun p => { p with
      state := .burning, port := d, disc := disc, side := side, layer := layer, firstPsa := [], runsDone := [], launch := launch, idle := false }).logPinna f.id pi
  | none => c

/-- Run instants lie `run_step` apart from T0 on: the first one at least `burn_lead` ahead (R311, R312). -/
def Chip.runInstant (c : Chip) (f : FrondRec) : Nat :=
  let step := c.rd F.frondCtrl_run_step * 10 ^ 6
  let least := c.sky_ + c.rd F.frondCtrl_burn_lead * 10 ^ 6
  f.t0 + (least - f.t0 + step - 1) / step * step

/-- The descriptors of a pinna's runs that are neither complete nor queued (R199, R312). -/
def Chip.dueRuns (c : Chip) (f : FrondRec) (pi : Nat) (p : PinnaRec) : List RunDesc :=
  let queued := ((c.burnSt p.port).queue.filter fun q => q.frond == f.id && q.pinna == pi).map (·.run)
  ((List.range f.q).filter fun r => !p.runsDone.contains r && !queued.contains r).map fun r =>
    ⟨f.id, pi, r, f.q, p.side, p.layer, p.moss + r * 2 ^ 26, p.launch + r * c.rd F.frondCtrl_run_step * 10 ^ 6, false⟩

/-- Tops up a drive's queue with the runs of the pinnae it burns, earliest launch first (R199); runs a warm reset took out wait for their
requeue (R598). -/
def Chip.topUp (c : Chip) (d : Nat) : Chip :=
  if !c.poolStands then c else
  let due := c.cat.fronds.flatMap fun f =>
    if f.state = .burning then f.pinnae.zipIdx.flatMap fun e => if e.1.state = .burning ∧ !e.1.idle ∧ e.1.port = d then c.dueRuns f e.2 e.1 else [] else []
  (due.mergeSort fun a b => decide (a.launch ≤ b.launch)).foldl (fun c q => c.enqueueRun d q) c

/-- The number of pinnae of a shape. -/
def FrondRec.width (f : FrondRec) : Nat := f.k + f.m

/-- Places a frond with counts by region: T0, every pinna's drive, descriptors (R309, R312). -/
def Chip.placeFrond (c : Chip) (f : FrondRec) (counts : List Nat) : Chip :=
  let (per, c) := (List.range 4).foldl (fun (x : List (List Nat) × Chip) r =>
    let t := Chip.takeDrives (counts.getD r 0) x.2 r (x.2.eligibleIn f r)
    (x.1 ++ [t.1], t.2)) ([], c)
  let ms := 10 ^ 6
  let least := max (c.sky_ + c.rd F.frondCtrl_burn_lead * ms) (c.cat.lastT0 + c.rd F.frondCtrl_run_step * ms)
  let t0 := (least + ms - 1) / ms * ms
  let ds := inTurn per
  let c := ds.zipIdx.foldl (fun c e => c.placePinna f e.2 e.1 t0) c
  let c := (c.modCat fun k => { k with lastT0 := t0 }).modFrond f.id fun r => { r with state := .burning, t0 := t0 }
  (ds.foldl (fun c d => c.topUp d) (c.logFrond f.id)).refreshFronds

/-- Drives are chosen for a frond in PLACING when the counts are balanced, or after `place_wait` with those there are (R309, R310). -/
def Chip.place (c : Chip) (f : FrondRec) : Chip :=
  let avail (r : Nat) : Nat := (c.eligibleIn f r).length
  let cs := handOut avail f.width [0, 0, 0, 0]
  if cs.sum < f.width then c
  else if balanced cs then c.placeFrond f cs
  else if f.waitedOut then (c.placeFrond f cs).raisePkg 19 (beBytes 8 f.id ++ [cs.foldl max 0])
  else c

def execFrondPlace (frond : Nat) (s : State) : Host.Outcome State Fault Refusal :=
  let c := s.chip
  s.nextChip (match findFrond c.cat.fronds frond with
    | some f => if f.state = .placing ∧ c.poolStands then c.place f else c
    | none => c)

/-- `place_wait` seconds have passed in PLACING (R310). -/
def execPlaceWaitExpiry (frond : Nat) (s : State) : Host.Outcome State Fault Refusal :=
  let c := s.chip
  s.nextChip (match findFrond c.cat.fronds frond with
    | some f =>
      if f.state = .placing ∧ c.poolStands ∧ f.placingAt + c.rd F.frondCtrl2_place_wait * 10 ^ 9 ≤ c.now then
        (c.modFrond frond fun r => { r with waitedOut := true }).place { f with waitedOut := true }
      else c
    | none => c)

/-- A returned pinna goes to an eligible drive of the region that holds the fewest pinnae of its frond, at a run instant (R311). -/
def Chip.placeAgain (c : Chip) (f : FrondRec) (pi : Nat) : Chip :=
  let held (r : Nat) : Nat := (f.pinnae.filter fun p => (p.state == .burning || p.state == .complete) && portRegion p.port == r).length
  let cand := (List.range 4).filter fun r => c.eligibleIn f r != []
  let reg := cand.foldl (fun (b : Option Nat) r => match b with | some o => if held r < held o then some r else b | none => some r) none
  match reg with
  | none => c
  | some r =>
    let t := Chip.takeDrives 1 c r (c.eligibleIn f r)
    match t.1 with
    | d :: _ => (((t.2.placePinna f pi d (c.runInstant f)).topUp d).refreshFronds).raisePkg 20 (beBytes 8 f.id ++ [pi, d])
    | [] => c

def execPinnaPlacedAgain (frond pinna : Nat) (s : State) : Host.Outcome State Fault Refusal :=
  let c := s.chip
  s.nextChip (match findFrond c.cat.fronds frond with
    | some f => if f.state = .burning ∧ c.poolStands ∧ (f.pinnae[pinna]?).any fun p => p.state == .returned then c.placeAgain f pinna else c
    | none => c)

/-- Every run of every pinna is complete: the frond is journaled as BURNED; its images go once that is durable (R307). -/
def execFrondBurned (frond : Nat) (s : State) : Host.Outcome State Fault Refusal :=
  let c := s.chip
  s.nextChip (match findFrond c.cat.fronds frond with
    | some f =>
      if f.state = .burning ∧ c.poolStands ∧ (f.pinnae.all fun p => p.state == .complete) ∧ f.pinnae.length = f.width then
        let c := (c.modFrond frond fun r => { r with state := .burned }).logFrond frond
        let c := (c.modFrond frond fun r => { r with recLsn := c.catLsn }).refreshFronds
        (c.raisePkg 18 (beBytes 8 frond)).settle
      else c
    | none => c)

/-- After a warm reset, once the application firmware runs, the runs of a burning pinna that are not complete are queued again from the next run instant on; without burn_ok or
its disc the pinna is returned (R598). -/
def execRunRequeue (frond pinna : Nat) (s : State) : Host.Outcome State Fault Refusal :=
  let c := s.chip
  s.nextChip (match findFrond c.cat.fronds frond with
    | some f =>
      match f.pinnae[pinna]? with
      | some p =>
        if !c.power.app ∨ f.state ≠ .burning ∨ p.state ≠ .burning ∨ !c.poolStands ∨ (c.burnSt p.port).queue.any (fun q => q.frond == frond && q.pinna == pinna) then c
        else if c.mayBurn p.port && c.loadedDisc p.port == some (p.disc, p.side) then
          let r0 := ((List.range f.q).find? fun r => !p.runsDone.contains r).getD 0
          (c.modPinna frond pinna fun p => { p with idle := false, launch := c.runInstant f - r0 * c.rd F.frondCtrl_run_step * 10 ^ 6 }).topUp p.port
        else ((c.modPinna frond pinna fun p => { p with state := .returned }).logPinna frond pinna).refreshFronds
      | none => c
    | none => c)

/-! ### Overburning (R426) -/

/-- Queues the runs of a pinna to be overburned on a drive that holds its disc. -/
def Chip.queueOver (c : Chip) (f : FrondRec) (pi : Nat) (p : PinnaRec) (d : Nat) : Chip :=
  (List.range f.q).foldl (fun c r =>
    if (c.burnSt d).queue.any fun q => q.overburn && q.frond == f.id && q.pinna == pi && q.run == r then c
    else c.enqueueRun d ⟨f.id, pi, r, f.q, p.side, p.layer, 0, 0, true⟩) c

/-- Every pinna still to be overburned whose disc a drive holds is queued there. -/
def Chip.queueOvers (c : Chip) : Chip :=
  c.svc.overburns.foldl (fun c o =>
    match findFrond c.cat.fronds o.2.2.1 with
    | some f => o.2.2.2.foldl (fun c pi =>
        match f.pinnae[pi]? with
        | some p =>
          match (List.range 24).find? fun d => c.loadedDisc d == some (p.disc, p.side) && c.mayBurn d with
          | some d => c.queueOver f pi p d
          | none => c
        | none => c) c
    | none => c) c

/-- Pinnae still to be overburned whose disc is being loaded in a drive are queued there. -/
def Chip.queueOversOn (c : Chip) (d disc side : Nat) : Chip :=
  c.svc.overburns.foldl (fun c o =>
    match findFrond c.cat.fronds o.2.2.1 with
    | some f => o.2.2.2.foldl (fun c pi =>
        match f.pinnae[pi]? with
        | some p => if p.disc = disc ∧ p.side = side ∧ c.mayBurn d then c.queueOver f pi p d else c
        | none => c) c
    | none => c) c

/-! ### Restore reads (R314 to R320) -/

/-- The number a command's restore and extents carry. -/
def cmdKey (n x : Nat) : Nat := n * 4096 + x

def Chip.restore (c : Chip) (n x : Nat) : Option RestoreSt := c.cat.restores.find? fun r => r.cmd == cmdKey n x

def Chip.modRestore (c : Chip) (n x : Nat) (f : RestoreSt → RestoreSt) : Chip :=
  c.modCat fun k => { k with restores := k.restores.map fun r => if r.cmd = cmdKey n x then f r else r }

/-- The drive that reads a pinna: UP, not retired, not contained, with the disc and side loaded. -/
def Chip.readerOf (c : Chip) (p : PinnaRec) : Option Nat :=
  (List.range 24).find? fun d => c.portUp d && !c.contained d && !(c.rd F.svcRetired_retired).testBit d && c.loadedDisc d == some (p.disc, p.side)

/-- A frond that is read from its images in the moss tier (R301). -/
def FrondRec.inMoss (f : FrondRec) : Bool := f.pinnae.all fun p => !p.mossGone

/-- Ceiling rung and budget of a read in a region: as its retry field gives them, otherwise the registers' (R191, retry field of
13_command_reference.md). -/
def Chip.retryOf (c : Chip) (p2 r : Nat) : Nat × Nat :=
  (if p2.testBit 3 then p2 % 8 else c.rd (F.decRetry_ceiling r), if p2.testBit 32 then p2 / 2 ^ 16 % 2 ^ 16 else c.rd (F.decRetry_budget_ms r))

/-- The extents that read rows `t0` to `t1` of a pinna: one for each band run, its payload slots with the run's rewrite slots (R75, R80, R192, R303). -/
def pinnaExtents (owner ceiling budget : Nat) (fr : Nat) (pi : Nat) (p : PinnaRec) (t0 t1 : Nat) : List Extent :=
  (List.range (t1 / 16384 + 1 - t0 / 16384)).flatMap fun i =>
    let r := t0 / 16384 + i
    match p.firstPsa.find? fun e => e.1 == r with
    | none => []
    | some e =>
      let a := if i = 0 then t0 % 16384 else 0
      let b := if r = t1 / 16384 then t1 % 16384 else 16383
      [⟨owner, fr, pi, r, slotAddr e.2 (slotOf e.2 + a), b + 1 - a, a, ceiling, budget, true, true⟩]

/-- A drive gets ready for a launch or a read: its spindle is started, focus is acquired (R314, R410). -/
def Chip.wakeDrive (c : Chip) (d layer : Nat) : Chip :=
  if !c.portUp d then c
  else if c.rd (F.spinStatus_state d) = 0 ∧ (c.spinSt d).waiting.isNone then c.spinRequest d (.start 12000)
  else if c.rdb (F.spinStatus_lock d) && c.rd (F.srvStatus_fstate d) == 0 && (c.servoSt d).running.isNone then c.servoRequest d (.acquire layer)
  else c

/-- The pinnae of a frond a read of rows takes: the data pinnae with wanted blocks in those rows, and e + `extra_par` parity pinnae on
readable drives (R315, R316). -/
def Chip.readPinnae (c : Chip) (f : FrondRec) (t0 t1 first last : Nat) : List Nat :=
  let data := (List.range f.k).filter fun j => (List.range (t1 + 1 - t0)).any fun i => decide (first ≤ (t0 + i) * f.k + j) && decide ((t0 + i) * f.k + j ≤ last)
  let can (pi : Nat) : Bool := (f.pinnae[pi]?).any fun p => (c.readerOf p).isSome
  let e := (data.filter fun j => !can j).length
  data.filter can ++ (((List.range f.m).map (f.k + ·)).filter can).take (min f.m (e + c.rd F.frondCtrl_extra_par))

/-- The readers of one range of a frond's blocks: every reader, with its extents. -/
def Chip.readers (c : Chip) (owner p2 : Nat) (f : FrondRec) (first count : Nat) : List (Nat × Extent) :=
  if f.inMoss || count == 0 then []
  else
    let last := first + count - 1
    let t0 := first / f.k
    let t1 := last / f.k
    (c.readPinnae f t0 t1 first last).flatMap fun pi =>
      match f.pinnae[pi]? with
      | none => []
      | some p =>
        match c.readerOf p with
        | none => []
        | some d =>
          let rt := c.retryOf p2 (portRegion d)
          (pinnaExtents owner rt.1 rt.2 f.id pi p t0 t1).map fun x => (d, x)

/-- The ranges of frond blocks a read command names: its own, or every extent of its object (R315). -/
def Chip.readRanges (c : Chip) (k : Cmd) : List (FrondRec × Nat × Nat) :=
  if k.opcode = 0x27 then ((findFrond c.cat.fronds k.p0).map fun f => (f, k.p1, k.dlen / 4096)).toList
  else ((findObj c.cat.objects k.p0).elim [] (·.extents)).filterMap fun e => (findFrond c.cat.fronds e.frond).map fun f => (f, e.fblock, e.blocks)

/-- All readers of a read command. -/
def Chip.allReaders (c : Chip) (n x : Nat) (k : Cmd) : List (Nat × Extent) :=
  (c.readRanges k).flatMap fun e => c.readers (cmdKey n x) k.p2 e.1 e.2.1 e.2.2

/-- The blocks a read command delivers, in order: the number reported, the frond and its block (R297, R317, R423). -/
def Chip.wantedBlocks (c : Chip) (k : Cmd) : List (Nat × Nat × Nat) :=
  if k.opcode = 0x27 then (List.range (k.dlen / 4096)).map fun i => (k.p1 + i, k.p0, k.p1 + i)
  else
    let b0 := k.p1 / 4080
    let b1 := objBlocks (k.p1 + k.dlen)
    (((findObj c.cat.objects k.p0).elim [] (·.extents)).flatMap fun e =>
      (List.range e.blocks).map fun i => (e.oblock + i, e.frond, e.fblock + i)).filter fun e => decide (b0 ≤ e.1) && decide (e.1 < b1)

/-- The readers of a read that waits for its launch, as they were chosen at its request (R316). -/
def Chip.planOf (c : Chip) (n x : Nat) : Option (List (Nat × Extent)) := (c.cat.plans.find? fun p => p.1 == cmdKey n x).map (·.2)

/-- A read that waits no longer has no plan. -/
def Chip.dropPlan (c : Chip) (n x : Nat) : Chip := c.modCat fun k => { k with plans := k.plans.filter fun p => p.1 != cmdKey n x }

/-- The drives of some readers are made ready. -/
def Chip.wakeReaders (c : Chip) (rs : List (Nat × Extent)) : Chip :=
  ((rs.map fun e => (e.1, psaLayer e.2.psa)).eraseDups).foldl (fun c e => c.wakeDrive e.1 e.2) c

/-- The drives of a new read have begun nothing of it. -/
def Chip.freshReaders (c : Chip) (ds : List Nat) (owner : Nat) : Chip :=
  ds.foldl (fun c d => c.modRead d fun r => { r with recent := if r.recent = owner then 0 else r.recent }) c

/-- A read's readers are chosen at its request and their drives made ready before its launch (R314, R316). -/
def Chip.planRead (c : Chip) (n x : Nat) (rs : List (Nat × Extent)) : Chip :=
  ((c.dropPlan n x).modCat fun k => { k with plans := k.plans ++ [(cmdKey n x, rs)] }).wakeReaders rs

/-- A reader whose drive still has the pinna's disc: one that has lost it since the request is missing (R318, R327). -/
def Chip.stillReads (c : Chip) (e : Nat × Extent) : Bool :=
  e.2.frond == 0 || (c.pinna e.2.frond e.2.pinna).any fun p => c.readerOf p == some e.1

/-- The unfired launches in the order in which they fire (R38). -/
def Chip.launchesInOrder (c : Chip) : List LaunchRec :=
  c.launches.mergeSort fun a b => decide (a.T < b.T ∨ (a.T = b.T ∧ a.action ≤ b.action))

/-- The first extent that a drive will read for the next launch planned on it. -/
def Chip.nextPlanned (c : Chip) (d : Nat) : Option Extent :=
  c.launchesInOrder.findSome? fun l => ((c.planOf l.session l.ctx).getD []).findSome? fun e => if e.1 = d then some e.2 else none

/-- Before its launch a read has its spot on the first position that a drive will read, while the drive has nothing else to do (R314). -/
def Chip.aimLaunch (c : Chip) (d : Nat) : Chip :=
  match c.nextPlanned d with
  | some x =>
    let r := c.readSt d
    let b := c.burnSt d
    if r.cur.isSome || r.queue != [] || b.busy || b.queue != [] || c.rd (F.discStatus_state d) ≠ 5 then c
    else c.orderSpot d (psaLayer x.psa) (psaBand x.psa) (((passPlan (c.missingMask d)).map (·.1)).headD 0)
  | none => c

/-- A read is released: its readers begin, and its blocks are delivered as they come (R314 to R317). It is delayed when a drive of it is not
ready or is burning (R313, R321, R417). -/
def Chip.releaseRead (c : Chip) (n x : Nat) : Chip :=
  let k := (c.ctxSt n x).cmd
  let rs := ((c.planOf n x).getD (c.allReaders n x k)).filter c.stillReads
  let late := rs.any fun e => !c.following e.1 || (c.burnSt e.1).run.isSome
  let c := ((c.dropPlan n x).freshReaders (rs.map (·.1)) (cmdKey n x)).wakeReaders rs
  let st : RestoreSt := { (default : RestoreSt) with
    cmd := cmdKey n x, object := if k.opcode = 0x27 then 0 else k.p0, offset := k.p1, length := k.dlen, blocks := c.wantedBlocks k
    data := List.replicate k.dlen 0, retry := (List.range 4).map (c.retryOf k.p2) }
  let c := (c.modCat fun a => { a with restores := a.restores ++ [st] }).modCtx n x fun y => { y with wait := .activity, delayed := late }
  rs.foldl (fun c e => c.readExtent e.1 e.2) c

/-- The sector of a frond's pinna and row a restore has in hand, read, rebuilt or in the moss tier, unless it counts as an erasure (R318). -/
def Chip.sectorOf (c : Chip) (r : RestoreSt) (f : FrondRec) (row pi : Nat) : Option (List Nat) :=
  match r.rows.find? fun e => e.1 == (f.id, row, pi) with
  | some e => some e.2
  | none =>
    if r.erased.contains (f.id, row, pi) then none
    else (f.pinnae[pi]?).bind fun p => if p.mossGone then none else c.pinnaSector p row

/-- Pinnae of a row whose sectors are in hand. -/
def Chip.rowHand (c : Chip) (r : RestoreSt) (f : FrondRec) (row : Nat) : List (Nat × List Nat) :=
  (List.range f.width).filterMap fun pi => (c.sectorOf r f row pi).map fun b => (pi, b)

/-- Solves a linear system over GF(2^16): rows of coefficients with their right-hand symbols. -/
def gfSolve : Nat → List (List Nat × List Nat) → List (List Nat)
  | 0, _ => []
  | n + 1, rows =>
    match rows.find? fun r => r.1.headD 0 != 0 with
    | none => List.replicate (n + 1) []
    | some p =>
      let inv := gfInv (p.1.headD 0)
      let pc := p.1.map (gfMul inv)
      let pr := p.2.map (gfMul inv)
      let rest := (rows.erase p).map fun r =>
        let h := r.1.headD 0
        (((r.1.zip pc).map fun e => e.1 ^^^ gfMul h e.2).drop 1, (r.2.zip pr).map fun e => e.1 ^^^ gfMul h e.2)
      let xs := gfSolve n rest
      (((pc.drop 1).zip xs).foldl (fun a e => (a.zip (e.2.map (gfMul e.1))).map fun y => y.1 ^^^ y.2) pr) :: xs

/-- Rebuilds the data sectors of a row that are not in hand from at least k that are (R303, R318). -/
def rebuildRow (k : Nat) (hand : List (Nat × List Nat)) : List (Nat × List Nat) :=
  let has (pi : Nat) : Option (List Nat) := (hand.find? fun e => e.1 == pi).map (·.2)
  let miss := (List.range k).filter fun j => (has j).isNone
  let par := (hand.filter fun e => decide (k ≤ e.1)).take miss.length
  let eqs := par.map fun e =>
    let known := (List.range k).filterMap fun j => (has j).map fun b => (parityCoef (e.1 - k) j, b)
    (miss.map (parityCoef (e.1 - k)), symbolsOf (xorBytes e.2 (combine known)))
  miss.zip ((gfSolve miss.length eqs).map symbolBytes)

/-- Blocks of a row a restore wants and has not in hand. -/
def Chip.rowWants (c : Chip) (r : RestoreSt) (f : FrondRec) (row : Nat) : List Nat :=
  (List.range f.k).filter fun j => (r.blocks.any fun b => b.2.1 == f.id && b.2.2 == row * f.k + j) && (c.sectorOf r f row j).isNone

/-- The frond slice rebuilds a row with at least k converged sectors (R318). -/
def execRowRebuild (session ctx frond row : Nat) (s : State) : Host.Outcome State Fault Refusal :=
  let c := s.chip
  s.nextChip (match c.restore session ctx, findFrond c.cat.fronds frond with
    | some r, some f =>
      let hand := c.rowHand r f row
      let want := c.rowWants r f row
      if want = [] ∨ hand.length < f.k ∨ r.given.contains (frond, row) ∨ !c.sliceRuns row then c
      else
        let new := (rebuildRow f.k hand).filter fun e => want.contains e.1
        c.modRestore session ctx fun r => { r with
          rows := (new.map fun e => ((frond, row, e.1), e.2)) ++ r.rows
          erased := r.erased.filter fun e => !(e.1 == frond && e.2.1 == row && want.contains e.2.2)
          rebuilt := (frond, row) :: r.rebuilt
          repaired := r.repaired + new.length }
    | _, _ => c)

/-- Every launched reader of a read has finished. -/
def Chip.readersDone (c : Chip) (n x : Nat) : Bool :=
  (List.range 24).all fun d =>
    let r := c.readSt d
    !(r.cur.any fun e => e.owner == cmdKey n x) && !(r.queue.any fun e => e.owner == cmdKey n x)

/-- A row with fewer than k converged sectors after its readers finished is read from the parity pinnae not read yet, with the ceiling and budget that
the command captured at its start (R191); with none left it is lost, with its event (R319). -/
def execRowRepair (session ctx frond row : Nat) (s : State) : Host.Outcome State Fault Refusal :=
  let c := s.chip
  s.nextChip (match c.restore session ctx, findFrond c.cat.fronds frond with
    | some r, some f =>
      if !c.readersDone session ctx || decide (f.k ≤ (c.rowHand r f row).length) || c.rowWants r f row == [] || r.given.contains (frond, row) then c
      else
        let left := ((List.range f.m).map (f.k + ·)).filterMap fun pi =>
          if (c.sectorOf r f row pi).isSome || r.erased.contains (frond, row, pi) || r.repair.contains (frond, row) then none
          else (f.pinnae[pi]?).bind fun p => (c.readerOf p).map fun d =>
            let rt := r.retry.getD (portRegion d) (0, 0)
            (pinnaExtents (cmdKey session ctx) rt.1 rt.2 frond pi p row row).map fun x => (d, x)
        if left = [] then
          (c.modRestore session ctx fun r => { r with given := (frond, row) :: r.given }).raisePkg 21 (beBytes 8 frond ++ beBytes 4 row)
        else
          let c := c.modRestore session ctx fun r => { r with repair := (frond, row) :: r.repair }
          left.flatten.foldl (fun c e => c.readExtent e.1 e.2) c
    | _, _ => c)

/-- A frond block holds data: of some extent, or of the manifest (R319). -/
def Chip.holdsData (c : Chip) (f : FrondRec) (j : Nat) : Bool :=
  ((c.frondExtents f.id).any fun e => decide (e.2.fblock ≤ j) && decide (j < e.2.fblock + e.2.blocks)) ||
    (decide (2 ≤ frondStateCode f.state) && decide (f.blocks - manifestBlocks f.nExtents ≤ j))

/-- What the next block of a restore comes to: bytes to deliver, lost, a failed tag, or nothing yet (R317 to R320). -/
inductive BlockEnd where
  | bytes (off : Nat) (bs : List Nat)
  | lost
  | badTag
  | authLost
  | wait
deriving DecidableEq, Repr

/-- Judges the next block. -/
def Chip.judgeBlock (c : Chip) (r : RestoreSt) (num : Nat) (f : FrondRec) (j : Nat) : BlockEnd :=
  let row := j / f.k
  match c.sectorOf r f row (j % f.k) with
  | none =>
    if !r.given.contains (f.id, row) then .wait
    else if r.object = 0 ∧ !c.holdsData f j then .bytes (4096 * num - 4096 * (r.offset)) zeroSector
    else .lost
  | some b =>
    if r.object = 0 then .bytes (4096 * (num - r.offset)) b
    else
      match findObj c.cat.objects r.object with
      | none => .authLost
      | some o =>
        let n := min 4080 (o.length - 4080 * num)
        match c.openBlock o.id o.salt num n b with
        | some p =>
          let a := max r.offset (4080 * num)
          let e := min (r.offset + r.length) (4080 * num + n)
          .bytes (a - r.offset) ((p.drop (a - 4080 * num)).take (e - a))
        | none => if r.rebuilt.contains (f.id, row) then .authLost else .badTag

/-- The next block of a read command is dealt with, in order: delivered, lost, or an erasure of its row when its tag fails; a rebuilt block
whose tag fails too is reported with its event (R317 to R320). -/
def Chip.deliver (c : Chip) (n x : Nat) : Chip :=
  match c.restore n x with
  | none => c
  | some r =>
    match r.blocks[r.next]? with
    | none => c
    | some b =>
      match findFrond c.cat.fronds b.2.1 with
      | none => c.modRestore n x fun r => { r with next := r.next + 1, lost := r.lost ++ [b.1] }
      | some f =>
        match c.judgeBlock r b.1 f b.2.2 with
        | .wait => c
        | .lost => c.modRestore n x fun r => { r with next := r.next + 1, lost := r.lost ++ [b.1] }
        | .authLost =>
          (c.modRestore n x fun r => { r with next := r.next + 1, authFailed := r.authFailed ++ [b.1] }).raisePkg 22 (beBytes 8 f.id ++ beBytes 4 b.2.2)
        | .badTag =>
          let key := (f.id, b.2.2 / f.k, b.2.2 % f.k)
          c.modRestore n x fun r => { r with rows := r.rows.filter fun e => e.1 != key, erased := key :: r.erased }
        | .bytes off bs =>
          let c := (if f.inMoss then c.lookUp 0 (f.mossOf b.2.2) 4096 else c).modRestore n x fun r => { r with
            next := r.next + 1, data := patchBytes r.data off bs
            ranges := match r.ranges.getLast? with
              | some g => if g.2 = off then r.ranges.dropLast ++ [(g.1, off + bs.length)] else r.ranges ++ [(off, off + bs.length)]
              | none => [(off, off + bs.length)] }
          let c := c.snoopStream (c.sess n).die 1 (c.ctxSt n x).hw bs
          if f.inMoss then c else c.snoopStream (b.2.2 / f.k % 4 / 2) 4 (b.2.2 / f.k % 2) bs

/-- How many of a reader's own sectors lie beyond the next block to be delivered (R317). -/
def RestoreSt.lead (r : RestoreSt) (x : Extent) (k : Nat) : Nat :=
  match r.blocks[r.next]? with
  | none => 0
  | some b =>
    let mine (row : Nat) : Bool := if b.2.1 = x.frond then decide (b.2.2 / k < row) else (r.blocks.drop r.next).any fun e => e.2.1 == x.frond
    (r.rows.filter fun e => e.1.1 == x.frond && e.1.2.2 == x.pinna && mine e.1.2.1).length

/-- A reader that has passed the limit of `reorder` MiB of its own sectors seeks back one band turn at the end of a revolution, and reads it again (R317). -/
def Chip.holdReader (c : Chip) (d band : Nat) : Chip :=
  let rd := c.readSt d
  match rd.cur with
  | none => c
  | some x =>
    match c.cat.restores.find? fun r => r.cmd == x.owner && x.frond != 0, findFrond c.cat.fronds x.frond with
    | some r, some f =>
      if rd.inBudget || decide (r.lead x f.k ≤ 256 * c.rd F.frondCtrl_reorder) then c else c.order d (.seek (band - 1))
    | _, _ => c

/-- Sends a phase from bytes of which only some ranges are delivered (R319, R405). -/
def State.sendRanges (s : State) (n x : Nat) (data : List Nat) (ranges : List (Nat × Nat)) : State :=
  if ranges = [] then s
  else
    let (ts, chip) := s.chip.takeTiles (s.chip.sess n).die (ctxOwner n x) ((data.length + 4095) / 4096)
    let s := { s with chip := chip.modCtx n x fun k => { k with tiles := ts, got := ranges } }.fillTiles ts data
    let total := (ranges.getLast?.map (·.2)).getD 0
    ranges.foldl (fun s g => (s.sendRange n x g.1 g.2 total).1) s

/-- The completion of a read: bytes, repaired, lost, delay, fired, list (R417). -/
def CtxSt.readData (k : CtxSt) (bytes repaired lost began : Nat) (list : List Nat) : List Nat :=
  let delay := if k.fired ≠ 0 ∧ (k.late ∨ k.delayed) then began - k.fired else 0
  beBytes 8 bytes ++ beBytes 4 repaired ++ beBytes 4 lost ++ beBytes 8 delay ++ beBytes 8 k.fired ++ (list.take 1019).flatMap (beBytes 8)

/-- Flags of a read's completion. -/
def CtxSt.readFlags (k : CtxSt) (repaired : Nat) : Nat := completionFlags k.late (repaired != 0) (k.fired != 0 && k.delayed && !k.late) 0

/-- A restore whose blocks are all dealt with ends: its data go out and its command completes (R319, R320, R417). -/
def State.endRestore (s : State) (n x : Nat) : State :=
  match s.chip.restore n x with
  | none => s
  | some r =>
    if r.next < r.blocks.length ∨ s.chip.sessionFrozen (n - 1) then s
    else
      let k := s.chip.ctxSt n x
      let s := s.sendRanges n x r.data r.ranges
      let bad := (r.lost ++ r.authFailed).mergeSort (· ≤ ·)
      let code := if r.authFailed ≠ [] then 0x0404 else if r.lost ≠ [] then 0x0403 else 0
      let bytes := (r.ranges.map fun g => g.2 - g.1).sum
      let c := s.chip.complete n x code (k.readFlags r.repaired) (k.readData bytes r.repaired bad.length (r.began.getD 0) bad)
      { s with chip := c.modCat fun a => { a with restores := a.restores.filter fun r => r.cmd != cmdKey n x } }

/-- The next block of a restore lies in the moss tier, which the pool serves no longer: the status its command fails with (R361). -/
def Chip.restoreCut (c : Chip) (n x : Nat) : Nat :=
  match (c.restore n x).bind fun r => r.blocks[r.next]? with
  | some b => if (findFrond c.cat.fronds b.2.1).any FrondRec.inMoss && c.rdb F.mossStatus_offline then 0x0405 else 0
  | none => 0

/-- Delivery of the next block; a read of the moss tier fails once the pool is offline. -/
def execBlockDelivery (session ctx : Nat) (s : State) : Host.Outcome State Fault Refusal :=
  let code := s.chip.restoreCut session ctx
  if code ≠ 0 then s.nextChip ((s.chip.modCat fun a => { a with restores := a.restores.filter fun r => r.cmd != cmdKey session ctx }).fail session ctx code)
  else .next ({ s with chip := s.chip.deliver session ctx }.endRestore session ctx)

/-! ### Reads by PSA (R417, R432) -/

/-- The extent of a PSA read, with its ceiling and budget. -/
def Chip.psaExtent (c : Chip) (n x : Nat) (k : Cmd) : Nat × Extent :=
  let rt := c.retryOf k.p2 (portRegion k.p0)
  (k.p0, ⟨cmdKey n x, 0, 0, 0, k.p1, k.dlen / 4096, 0, rt.1, rt.2, false, false⟩)

/-- A PSA read is released to its drive (R314, R432). -/
def Chip.releasePsaRead (c : Chip) (n x : Nat) : Chip :=
  let k := (c.ctxSt n x).cmd
  let d := k.p0
  let late := !c.following d || (c.burnSt d).run.isSome
  let c := (((c.dropPlan n x).freshReaders [d] (cmdKey n x)).wakeDrive d (psaLayer k.p1)).modCtx n x fun y => { y with wait := .activity, delayed := late }
  c.readExtent d (c.psaExtent n x k).2

/-- The owner of the extent by which a disc's identity is read (R325): no command's. -/
def checkOwner : Nat := 0

/-- Answers the finished PSA reads of a drive: lost sectors as zeros, every verdict word listed (R194, R432). -/
def State.answerReads (s : State) (d : Nat) : State :=
  let waits (e : Nat × Nat × List SectorRec) : Bool := e.1 == checkOwner || s.chip.sessionFrozen (e.1 / 4096 - 1)
  let ds := (s.chip.readSt d).done.filter fun e => !waits e
  if ds = [] then s else
  let s := { s with chip := s.chip.modRead d fun r => { r with done := r.done.filter waits } }
  ds.foldl (fun s e =>
    let n := e.1 / 4096
    let x := e.1 % 4096
    let k := s.chip.ctxSt n x
    if k.phase ≠ .active ∨ k.cmd.opcode ≠ 0x63 then s
    else
      let lost := e.2.2.filter fun t => t.state == .lost
      let fault := lost.any fun t => t.verdict / 2 ^ 20 % 16 == 10
      let bytes := e.2.2.flatMap fun t => if t.state = .converged then padTo 4096 t.bytes else zeroSector
      let s := s.sendData n x bytes
      let data := k.readData bytes.length 0 e.2.2.length e.2.1 (e.2.2.map (·.verdict))
      { s with chip := s.chip.complete n x (if fault then 0x0607 else if lost ≠ [] then 0x0407 else 0) (k.readFlags 0) data }) s

end Sys2Proof.Machine
end

