-- ==== Sys2Proof/Machine/Discs.lean ====
section
/-! DEFINITION. Disc exchange (R324 to R328), and what the mechanism's events bring: address marks, spindle lock and failure, axis steps and
faults. The hooks at the end follow a drive after any command that may have changed it. -/
namespace Sys2Proof.Machine

/-- The order a read waits for is given again once the band timing loop is in LOCK. -/
def Chip.readAgain (c : Chip) (d : Nat) : Chip :=
  match (c.readSt d).cur with
  | none => c.wakeReads d
  | some _ => if (c.readSt d).visits = [] then c.beginPass d else c.aimVisit d

/-- The load under way at a drive. -/
def Chip.load (c : Chip) (d : Nat) : Option LoadSt := tabGet c.cat.loads d
def Chip.setLoad (c : Chip) (d : Nat) (l : Option LoadSt) : Chip := c.modCat fun k => { k with loads := tabSet k.loads d l }

/-- The last complete run of a disc's side: the one closed last (R325). -/
def Chip.lastRun (c : Chip) (disc side : Nat) : Option (Nat × Nat × Nat × Nat × Nat) :=
  (findDisc c.cat.discs disc).bind fun r => (r.runs.filter fun e => e.1 == side).getLast?

/-- The position that the identity check looks at next for being unrecorded (R325): on each layer in turn the next free position, or for a new disc the first
of the user area. -/
def Chip.blankPlace (c : Chip) (l : LoadSt) : Nat :=
  if l.isNew then positionPsa l.side l.blank userStart 0
  else positionPsa l.side l.blank (psaPosition (c.layerSide l.disc (8 * l.side + l.blank)).next) 0

/-- The identity check of a drive looks for unrecorded positions: of a new disc, or of a disc of the catalogue without a run on the side (R325). -/
def Chip.blankCheck (c : Chip) (d : Nat) : Option LoadSt :=
  (c.load d).filter fun l => c.rd (F.discStatus_state d) == 4 && l.checked == 0 && (l.isNew ||
    ((findDisc c.cat.discs l.disc).isSome && (c.lastRun l.disc l.side).isNone))

/-- Layer and band turn that a burn, a calibration, a search, a closing or an identity check under way needs the spot on. -/
def Chip.burnSpot (c : Chip) (d : Nat) : Option (Nat × Nat) :=
  let b := c.burnSt d
  if let some l := c.blankCheck d then some (l.blank, psaBand (c.blankPlace l)) else
  match c.searchPlace d, b.run, b.cal, b.close with
  | some p, _, _, _ => some (p.2.1, bandOf p.2.2)
  | none, some r, _, _ => some (r.desc.layer, bandOf (r.firstPos + r.slot / 4))
  | none, none, some k, x =>
    if k.need != [] then some (psaLayer k.psa, psaBand k.psa)
    else
      match x, b.queue.head? with
      | some x, _ => some (x.desc.layer, bandOf (terminatorPos x.firstPos (x.found.getD 0)))
      | none, some q => (c.headPlace d q).map fun p => (q.layer, bandOf p)
      | none, none => none
  | none, none, none, some x => some (x.desc.layer, bandOf (terminatorPos x.firstPos (x.found.getD 0) + x.slot / 4))
  | none, none, none, none => none

/-- While nothing is written, the spot is ordered to where a burn, a calibration or a search needs it. DEDUCED, notes/assumptions/29.md. -/
def Chip.aimBurn (c : Chip) (d : Nat) : Chip :=
  match c.burnSpot d with
  | some p => if (c.linkSt d).mode = 2 || (c.readSt d).cur.isSome then c else c.orderSpot d p.1 p.2 0
  | none => c

/-- The band turn a read or a burn under way at a drive needs next (R137). -/
def Chip.bandWanted (c : Chip) (d : Nat) : Option Nat :=
  let r := c.readSt d
  match c.burnSpot d, r.cur with
  | some x, _ => some x.2
  | none, some x => some ((r.visits.head?.map visitBand).getD (psaBand x.psa))
  | none, none => none

/-- The band timing loop of an operation under way starts again after a change of speed or a loss, unless its third acquisition failure ended it (R137,
R190). -/
def Chip.keepTiming (c : Chip) (d : Nat) : Chip :=
  match c.bandWanted d with
  | some b => if (c.btlSt d).gaveUp then c else c.btlOrder d b
  | none => c

/-- What waits at a drive for its spindle or its loop: the change of speed at the ends of a rung-7 pass, and that pass (R190), and the loop (R137). -/
def Chip.keepReading (c : Chip) (d : Nat) : Chip :=
  let c := c.speedUp d
  let c := if (c.readSt d).slowWait && c.spinTakes d then c.nextReread d else c
  ((c.wakeReads d).aimLaunch d).keepTiming d

/-! ### Loads (R324, R325) -/

/-- The tray goes to a position, homed first when it is not. -/
def Chip.trayTo (c : Chip) (d : Nat) (pos : Int) : Chip :=
  let c := if c.rdb (F.axisStatus_homed d 1) then c else c.axisRequest d 1 (.home .atOnce)
  c.axisRequest d 1 (.moveTo pos .atOnce)

/-- An axis with nothing to do. -/
def Chip.axisIdle (c : Chip) (d x : Nat) : Bool :=
  let a := c.axisSt (axisNo d x)
  a.move.isNone && a.armed.isNone && a.waiting.isNone

/-- A load fails: the spindle stops and the tray opens, the disc's servo sets are discarded, the command fails, the event is raised (R257, R324, R590). -/
def Chip.loadFail (c : Chip) (d code : Nat) : Chip :=
  match c.load d with
  | none => c
  | some l =>
    let c := ((c.retract d).pointFlag d 1 false).spinRequest d .stop
    let c := ((c.wr (F.discStatus_state d) 0).modServo d fun s => { s with sets := [] }).setLoad d (some { l with checked := 20, cmd := none })
    let c := c.raiseClu d 14 7 (4 :: beBytes 2 code)
    match c.stillRuns l.cmd 0x61 with
    | some e => c.fail e.1 e.2 code
    | none => c

/-- A disc's record as a new disc starts with it: nothing burned. -/
def newDisc (i : Nat) : DiscRec :=
  let sides := (List.range 16).map fun ls => (ls, { (default : LayerSide) with
    testIn := some 0, testOut := some 0, next := positionPsa (ls / 8) (ls % 8) userStart 0 })
  ⟨i, false, sides, []⟩

/-- A ledger copy that carries a disc's identifier (R78, R325). -/
def ledgerNames (disc : Nat) (b : List Nat) : Bool := beNat ((b.drop 24).take 8) == disc && crc64 (b.take 4088) == beNat ((b.drop 4088).take 8)

/-- The extent of the sixteen ledger copies of a run that begins at an address, read for the identity check (R74, R325). -/
def Chip.ledgerExtent (c : Chip) (d psa : Nat) : Extent :=
  let rt := c.retryOf 0 (portRegion d)
  ⟨checkOwner, 0, 0, 0, slotAddr psa (slotOf psa + 16624), 16, 0, rt.1, rt.2, false, false⟩

/-- CHECK begins: a disc with a complete run on the side has that run's ledger copies read (R325). -/
def Chip.beginCheck (c : Chip) (d : Nat) : Chip :=
  let c := c.wr (F.discStatus_state d) 4
  match (c.load d).bind fun l => if l.isNew then none else c.lastRun l.disc l.side with
  | some e => c.readExtent d (c.ledgerExtent d e.2.2.2.2)
  | none => c

/-- What the identity check has come to (R325): whether the ledger copies read name the disc, or the position looked at is unrecorded; nothing yet while the
reading goes on. A disc that the catalogue does not know, and a drive that cannot read, are not confirmed. DEDUCED, notes/assumptions/102.md. -/
def Chip.identitySeen (c : Chip) (d : Nat) (l : LoadSt) : Option Bool :=
  if c.contained d || (c.rd (F.spinStatus_state d) == 0 && (c.spinSt d).waiting.isNone) then some false
  else if (c.blankCheck d).isSome then (c.recordedAt d (c.blankPlace l)).map (!·)
  else if (c.lastRun l.disc l.side).isNone then some false
  else ((c.readSt d).done.find? fun e => e.1 == checkOwner).map fun e => e.2.2.any fun t => t.state == .converged && ledgerNames l.disc t.bytes

/-- The foreign flag of a disc's record, journaled with the layer-sides of a side where it changes (R323, R326, R348). -/
def Chip.markForeign (c : Chip) (disc side : Nat) (b : Bool) : Chip :=
  if (findDisc c.cat.discs disc).any fun r => r.foreign != b then
    (List.range 8).foldl (fun c y => c.logSide disc (8 * side + y)) (c.modDisc disc fun r => { r with foreign := b })
  else c

/-- The identity is confirmed: the next free positions come from the catalogue, open runs are reported, the load record is written; queued burns
of OVERBURN follow (R200, R222, R324, R325). -/
def Chip.identified (c : Chip) (d : Nat) (l : LoadSt) : Chip :=
  let (disc, c) : Nat × Chip :=
    if l.isNew then
      let i := c.rd F.chain_sys_addr % 2 ^ 10 * 2 ^ 54 + (c.cat.discSeq + 1)
      let c := (c.modCat fun k => { k with discSeq := k.discSeq + 1, discs := k.discs ++ [newDisc i] }).logSeq
      (i, (List.range 16).foldl (fun c ls => c.logSide i ls) c)
    else (l.disc, c)
  let c := (((c.wr (F.discId_id d) disc).wr (F.discStatus_side d) l.side).wr (F.discStatus_foreign d) 0).markForeign disc l.side false
  let c := (List.range 8).foldl (fun c y => c.wr (F.burnNext_psa d y) (c.layerSide disc (8 * l.side + y)).next) c
  let c := (List.range 4).foldl (fun c b => c.wr (F.opcLast_valid d b) 0) c
  let c := (c.wrb (F.burnStatus_open d) (c.openSides disc != [])).modBurn d fun b => { b with noClose := false }
  let c := (c.openSides disc).foldl (fun c ls =>
    match (c.layerSide disc ls).openRun with
    | some o => if ls / 8 = l.side then c.raiseClu d 7 7 ([2, 0] ++ beBytes 4 o.2.2.2 ++ beBytes 8 o.1 ++ [o.2.1, o.2.2.1]) else c
    | none => c) c
  let c := (c.modCat fun k => { k with held := tabSet k.held d (some (disc, l.side)) }).logLoad d l.side disc
  (c.setLoad d (some { l with disc := disc, checked := 2, lsn := c.catLsn })).queueOversOn d disc l.side

/-- The identity is not confirmed: the disc is foreign (R324, R326). -/
def Chip.foreignDisc (c : Chip) (d : Nat) (l : LoadSt) : Chip :=
  let c := ((c.wr (F.discId_id d) 0).wr (F.discStatus_side d) l.side).wr (F.discStatus_foreign d) 1
  let c := c.markForeign l.disc l.side true
  let c := (c.modCat fun k => { k with held := tabSet k.held d (some (l.disc, l.side)) }).logLoad d l.side l.disc
  (c.setLoad d (some { l with checked := 2, lsn := c.catLsn })).raiseClu d 14 7 [5, 0, 0]

/-- One step of the identity check (R325): a layer found unrecorded is followed by the next one; otherwise the disc is confirmed or foreign. -/
def Chip.identityStep (c : Chip) (d : Nat) (l : LoadSt) : Chip :=
  match c.identitySeen d l with
  | none => c
  | some ok =>
    if ok && (c.blankCheck d).isSome && decide (l.blank < 7) then c.setLoad d (some { l with blank := l.blank + 1 })
    else
      let c := c.modRead d fun r => { r with done := r.done.filter fun e => e.1 != checkOwner }
      (if ok then c.identified d l else c.foreignDisc d l).settle

/-- A DISC_LOAD begins (R324). -/
def Chip.beginLoad (c : Chip) (n x d disc side : Nat) : Chip :=
  let c := c.modRead d fun r => { r with done := r.done.filter fun e => e.1 != checkOwner }
  let c := (c.wr (F.discStatus_state d) 1).setLoad d (some ⟨disc, disc == 0, side, some (cmdKey n x), 0, 0, 0⟩)
  (c.modCtx n x fun k => { k with wait := .activity }).trayTo d (c.rdi (F.discTray_clamp_pos d))

/-- The spindle stops for an unload (R327). -/
def Chip.stopForUnload (c : Chip) (d : Nat) (l : LoadSt) : Chip :=
  (((c.retract d).pointFlag d 1 false).spinRequest d .stop).setLoad d (some { l with checked := 10 })

/-- A DISC_UNLOAD begins (R327): under force a burn is aborted, which it waits for, and reads end with a drive fault (R194, R220). -/
def Chip.beginUnload (c : Chip) (n x d : Nat) : Chip :=
  let c := ((c.wr (F.discStatus_state d) 6).burnInterrupt d 11).endReads d 10
  let l : LoadSt := ⟨c.rd (F.discId_id d), false, c.rd (F.discStatus_side d), some (cmdKey n x), 9, 0, 0⟩
  (c.setLoad d (some l)).modCtx n x fun k => { k with wait := .activity }

/-- The tray has come to rest after an unload, at `open_pos` unless its move has failed, which the spec does not treat (DESIGN CHOICE,
notes/assumptions/103.md): the load record is cleared, kept servo sets and calibrations are discarded (R257, R327). -/
def Chip.unloaded (c : Chip) (d : Nat) (l : LoadSt) : Chip :=
  let c := (((c.wr (F.discStatus_state d) 0).wr (F.discStatus_foreign d) 0).wr (F.discId_id d) 0).wr (F.burnStatus_open d) 0
  let c := (c.modCat fun k => { k with held := tabSet k.held d none, loads := tabSet k.loads d none }).logLoad d 0 0
  let c := c.modServo d fun s => { s with sets := [] }
  match c.stillRuns l.cmd 0x62 with
  | some e => (c.modCtx e.1 e.2 fun k => { k with wait := .durable [c.catLsn] }).settle
  | none => c

/-! ### What follows a drive's events -/

/-- One step of a load, an unload or a failed load, when what it waits for has happened (R324, R327). -/
def Chip.loadStep (c : Chip) (d : Nat) : Chip :=
  match c.load d with
  | none => c
  | some l =>
    let st := c.rd (F.discStatus_state d)
    let stopped := c.rd (F.spinStatus_state d) = 0
    if l.checked = 9 then if (c.burnSt d).idle then c.stopForUnload d l else c
    else if l.checked = 10 then
      if stopped then (c.axisRequest d 0 .park).setLoad d (some { l with checked := 11 }) else c
    else if l.checked = 11 then
      if c.axisIdle d 0 then (c.trayTo d (c.rdi (F.discTray_open_pos d))).setLoad d (some { l with checked := 12 }) else c
    else if l.checked = 12 then if c.axisIdle d 1 then c.unloaded d l else c
    else if l.checked = 20 then
      if stopped then (c.trayTo d (c.rdi (F.discTray_open_pos d))).setLoad d (some { l with checked := 22 }) else c
    else if l.checked = 22 then if c.axisIdle d 1 then c.setLoad d none else c
    else if st = 1 then
      if c.axisIdle d 1 then
        if c.rdi (F.axisStatus_pos d 1) = c.rdi (F.discTray_clamp_pos d) ∧ c.rdb (F.axisStatus_homed d 1) then
          (c.spinRequest d (.start 12000)).wr (F.discStatus_state d) 2
        else c.loadFail d 0x0602
      else c
    else if st = 2 then
      if c.rdb (F.spinStatus_lock d) then (c.servoRequest d (.acquire 0)).wr (F.discStatus_state d) 3
      else if stopped ∧ (c.spinSt d).waiting.isNone then c.loadFail d 0x0602 else c
    else if st = 3 then
      if (c.servoSt d).running.isNone && !c.following d then c.loadFail d 0x0602 else c
    else c

/-- Commands of a load or unload whose drive has left UP fail (R328, R439). -/
def Chip.loadGone (c : Chip) (d : Nat) : Chip :=
  if (c.load d).isSome then c
  else
    (c.contexts fun k => k.phase == .active && k.wait == .activity && (k.cmd.opcode == 0x61 || k.cmd.opcode == 0x62) && k.cmd.p0 == d).foldl
      (fun c e => c.fail e.1 e.2 0x0605) c

/-- A drive that has reads or runs waiting and whose spindle is at lock acquires focus (R412, R414). -/
def Chip.resumeDrive (c : Chip) (d : Nat) : Chip :=
  if c.rd (F.discStatus_state d) ≠ 5 then c
  else
    match (c.readSt d).cur, (c.burnSt d).queue, c.nextPlanned d with
    | some x, _, _ => c.wakeDrive d (psaLayer x.psa)
    | none, q :: _, _ => c.wakeDrive d q.layer
    | none, [], some x => c.wakeDrive d (psaLayer x.psa)
    | none, [], none => c

/-- What follows a command at one drive: disc loads, ended reads, run descriptors (R199, R324, R327, R432). -/
def State.driveHooks (s : State) (d : Nat) : State :=
  let c := ((((((s.chip.loadStep d).loadStep d).loadStep d).loadGone d).topUp d).aimBurn d).keepReading d
  { s with chip := c }.answerReads d

/-- A SPIN start is complete when the last named spindle's start is admitted (R417). -/
def Chip.spinHooks (c : Chip) : Chip :=
  (c.contexts fun k => k.phase == .active && k.wait == .activity && k.cmd.opcode == 0x64).foldl (fun c e =>
    let k := c.ctxSt e.1 e.2
    if (maskList 24 k.cmd.p0).any fun d => c.rd (F.spinStatus_state d) == 1 || (c.spinSt d).waiting.isSome then c
    else c.completeLaunched e.1 e.2 c.sky_) c

/-- An AXIS_MOVE that waited behind another request is complete when its move starts (R417). -/
def Chip.axisHooks (c : Chip) : Chip :=
  (c.contexts fun k => k.phase == .active && k.wait == .activity && k.cmd.opcode == 0x65).foldl (fun c e =>
    let k := (c.ctxSt e.1 e.2).cmd
    if (c.axisSt (axisNo k.p0 (k.p1 % 2))).waiting.isSome then c else c.completeLaunched e.1 e.2 c.sky_) c

/-- The hooks of every drive, and of commands that name several. -/
def State.allHooks (s : State) : State :=
  let s := (List.range 24).foldl State.driveHooks s
  { s with chip := s.chip.spinHooks.axisHooks }

/-- A meaning followed by the hooks of every drive. -/
def hooked (o : Host.Outcome State Fault Refusal) : Host.Outcome State Fault Refusal :=
  match o with
  | .next s => .next s.allHooks
  | .fault f => .fault f
  | .refused r => .refused r

def execDiscIdentityCheck (d : Nat) (s : State) : Host.Outcome State Fault Refusal :=
  let c := s.chip
  hooked (s.nextChip (match c.load d with
    | some l => if c.rd (F.discStatus_state d) ≠ 4 ∨ l.checked ≠ 0 then c else c.identityStep d l
    | none => c))

/-! ### Marks, spindle and axes -/

/-- What an address mark brings (R63, R317, R138, R139, R248, R249, R324): the loop's place; on LOCK or a re-seat the units' next sector is predicted; on LOCK a seek
arrives and a read goes on; a valid mark names the layer, and to a load its side. -/
def Chip.markRead (c : Chip) (d : Nat) : Chip :=
  let lock := c.rd (F.btlStatus_state d) == 2
  let turn := if c.rd (F.btlStatus_state d) = 2 then none else (c.btlSt d).pred.filter fun p => p.mark == 0
  let r := c.addressMark d
  let held (c : Chip) : Chip := if r.2.1 = .nothing then c else (turn.map fun p => c.holdReader d p.band).getD c
  match r.2.1 with
  | .found m =>
    let c := held r.1
    let c := if r.2.2 && lock then ((c.seekArrives d m.band).layerMark d m.layer).readAgain d
      else if c.rd (F.btlStatus_state d) = 3 then c.layerMark d m.layer else c
    let c := if r.2.2 then c.issueNext d else c
    if c.rd (F.discStatus_state d) = 3 ∧ c.rd (F.btlStatus_state d) = 3 then
      if (c.load d).any fun l => l.side == m.side then c.beginCheck d else c.loadFail d 0x0603
    else c
  | _ => held r.1

def execAddressMark (d : Nat) (s : State) : Host.Outcome State Fault Refusal := hooked (s.nextChip (s.chip.markRead d))
def execPositionLost (d : Nat) (s : State) : Host.Outcome State Fault Refusal := hooked (s.nextChip (s.chip.positionLost d))
def execSpindleLock (d : Nat) (s : State) : Host.Outcome State Fault Refusal := hooked (s.nextChip (((s.chip.spinLock d).resumeDrive d).tryAcquire d))
def execRampTimeout (d : Nat) (s : State) : Host.Outcome State Fault Refusal := hooked (s.nextChip (s.chip.rampTimeout d))

/-- A step is placed; at a move's end the sled's seek or the disc exchange goes on. -/
def execAxisStep (d x delayNs : Nat) (s : State) : Host.Outcome State Fault Refusal :=
  let r := s.chip.axisStep d x delayNs
  hooked (s.nextChip (if r.2 && x == 0 then r.1.sledArrives d else r.1))

/-- An axis fault: a sled move of a seek has failed, and a load has (R249, R294, R324). -/
def execAxisFault (d x : Nat) (s : State) : Host.Outcome State Fault Refusal :=
  let r := s.chip.axisFault d x
  hooked (s.nextChip (
    if !r.2 then r.1
    else
      let c := if x = 0 then r.1.sledFaults d else r.1
      let st := c.rd (F.discStatus_state d)
      if 1 ≤ st ∧ st ≤ 3 then c.loadFail d 0x0602 else c))

end Sys2Proof.Machine
end

