-- ==== Sys2Proof/Machine/Drives.lean ====
section
/-! DEFINITION. Commands to a drive whose meanings stand in the files of the servo engine, the motors, the decoders and the burning, followed by
what they bring to the drive's load, reads and run queue. -/
namespace Sys2Proof.Machine

def execFocusSettleTimeout (d : Nat) (s : State) : Host.Outcome State Fault Refusal := hooked (baseFocusSettleTimeout d s)
def execFocusSettled (d : Nat) (s : State) : Host.Outcome State Fault Refusal := hooked (baseFocusSettled d s)
def execFocusLost (d : Nat) (s : State) : Host.Outcome State Fault Refusal := hooked (baseFocusLost d s)
def execFocusJumpTimeout (d : Nat) (s : State) : Host.Outcome State Fault Refusal := hooked (baseFocusJumpTimeout d s)
def execCaptureTimeout (d : Nat) (s : State) : Host.Outcome State Fault Refusal := hooked (baseCaptureTimeout d s)
def execFineSeekTimeout (d : Nat) (s : State) : Host.Outcome State Fault Refusal := hooked (baseFineSeekTimeout d s)
def execOffTrack (d : Nat) (s : State) : Host.Outcome State Fault Refusal := hooked (baseOffTrack d s)
def execSrvRetract (d : Nat) (s : State) : Host.Outcome State Fault Refusal := hooked (baseSrvRetract d s)
def execServoLoss (d : Nat) (s : State) : Host.Outcome State Fault Refusal := hooked (baseServoLoss d s)
def execSubframeLossBurnStop (d : Nat) (s : State) : Host.Outcome State Fault Refusal := hooked (baseSubframeLossBurnStop d s)
def execTrackSettled (d : Nat) (s : State) : Host.Outcome State Fault Refusal := hooked (baseTrackSettled d s)
def execGainCalRound (d : Nat) (s : State) : Host.Outcome State Fault Refusal := hooked (baseGainCalRound d s)
def execSenseWindowEnd (d : Nat) (s : State) : Host.Outcome State Fault Refusal := hooked (baseSenseWindowEnd d s)
def execLossOfSync (d : Nat) (s : State) : Host.Outcome State Fault Refusal := hooked (baseLossOfSync d s)
def execRecatchWindowEnd (d : Nat) (s : State) : Host.Outcome State Fault Refusal := hooked (baseRecatchWindowEnd d s)
def execCatchTimeout (d : Nat) (s : State) : Host.Outcome State Fault Refusal := hooked (baseCatchTimeout d s)
def execCatchSuccess (d : Nat) (s : State) : Host.Outcome State Fault Refusal := hooked (baseCatchSuccess d s)
def execBrakeCheck (d : Nat) (s : State) : Host.Outcome State Fault Refusal := hooked (baseBrakeCheck d s)
def execSpindleStop (d : Nat) (s : State) : Host.Outcome State Fault Refusal := hooked (baseSpindleStop d s)
def execAxisEmergencyStop (d x : Nat) (s : State) : Host.Outcome State Fault Refusal := hooked (baseAxisEmergencyStop d x s)
def execSubframeRelease (r : Nat) (s : State) : Host.Outcome State Fault Refusal := hooked (baseSubframeRelease r s)
def execDecodeSegmentEnd (r k : Nat) (s : State) : Host.Outcome State Fault Refusal := hooked (baseDecodeSegmentEnd r k s)
def execReadPassEnd (d : Nat) (s : State) : Host.Outcome State Fault Refusal := hooked (baseReadPassEnd d s)
def execRereadVisitEnd (d : Nat) (s : State) : Host.Outcome State Fault Refusal := hooked (baseRereadVisitEnd d s)
def execRetryBudgetExpiry (d : Nat) (s : State) : Host.Outcome State Fault Refusal := hooked (baseRetryBudgetExpiry d s)
def execSyncDecision (u : Nat) (s : State) : Host.Outcome State Fault Refusal := hooked (baseSyncDecision u s)
def execBurnStop (d : Nat) (s : State) : Host.Outcome State Fault Refusal := hooked (baseBurnStop d s)
def execSlotCommit (d arrived : Nat) (s : State) : Host.Outcome State Fault Refusal := hooked (baseSlotCommit d arrived s)
def execCloseSearchReading (d : Nat) (s : State) : Host.Outcome State Fault Refusal := hooked (baseCloseSearchReading d s)
def execOpcMeasureComplete (d : Nat) (s : State) : Host.Outcome State Fault Refusal := hooked (baseOpcMeasureComplete d s)
def execRunCalibrationStart (d : Nat) (s : State) : Host.Outcome State Fault Refusal := hooked (baseRunCalibrationStart d s)
def execRunSlot0Start (d : Nat) (s : State) : Host.Outcome State Fault Refusal := hooked (baseRunSlot0Start d s)

/-! ### The head link (03_head_link.md) -/

def execTransmitSuperframe (d : Nat) (s : State) : Host.Outcome State Fault Refusal := s.nextChip (s.chip.transmit d)

/-- A receive superframe of a lane ends: its blocks as they come on the line, and how often the lane's queue overflowed or underflowed within it (R86, R88, R93); a
response in it may be what a waiting acquire needs. -/
def execReceiveSuperframe (d n : Nat) (line : List (Nat × Nat)) (faults : Nat) (s : State) : Host.Outcome State Fault Refusal :=
  s.nextChip ((s.chip.receive d n line faults).tryAcquire d)
def execHeadCommandSend (d op addr data : Nat) (s : State) : Host.Outcome State Fault Refusal := s.nextChip (s.chip.headSend d op addr data)
def execHeadResponse (d seq status addr data : Nat) (s : State) : Host.Outcome State Fault Refusal :=
  s.nextChip ((s.chip.headResponse d seq status addr data).tryAcquire d)
def execHeadCommandRetry (d seq : Nat) (s : State) : Host.Outcome State Fault Refusal := s.nextChip (s.chip.headRetry d seq)
def execPortEnable (d : Nat) (en : Bool) (s : State) : Host.Outcome State Fault Refusal := hooked (s.nextChip (s.chip.portEnable d en))
def execPortRetrain (d : Nat) (s : State) : Host.Outcome State Fault Refusal := hooked (s.nextChip (s.chip.portRetrain d))
def execPortSignalDetect (d lanes : Nat) (s : State) : Host.Outcome State Fault Refusal := s.nextChip (s.chip.signalDetect d lanes)

/-- The lanes that report ready at the end of training (R118). -/
def execTrainReady (d lanes : Nat) (s : State) : Host.Outcome State Fault Refusal := s.nextChip (s.chip.trainEnd d lanes)

/-- The training limit passes with no lane ready, and the lock limit with none locked (R118). -/
def execTrainTimeout (d : Nat) (s : State) : Host.Outcome State Fault Refusal :=
  s.nextChip (if s.chip.rd (F.hlinkStatus_state d) = 2 then s.chip.trainFail d else s.chip)
def execLockTimeout (d : Nat) (s : State) : Host.Outcome State Fault Refusal :=
  s.nextChip (if s.chip.rd (F.hlinkStatus_state d) = 3 then s.chip.trainFail d else s.chip)

/-- Lanes that locked, each with its lane field, beam field and round trip (R118). -/
def execBlockLock (d : Nat) (found : List (Nat × Nat × Nat × Nat)) (s : State) : Host.Outcome State Fault Refusal :=
  s.nextChip (s.chip.blockLock d found)
def execLaneRetrain (d n : Nat) (ok : Bool) (laneF beamF rt : Nat) (s : State) : Host.Outcome State Fault Refusal :=
  s.nextChip (s.chip.laneRetrain d n ok laneF beamF rt)
def execLaneRejoin (d n : Nat) (s : State) : Host.Outcome State Fault Refusal := s.nextChip (s.chip.laneRejoin d n)
def execLaneLost (d n condition : Nat) (s : State) : Host.Outcome State Fault Refusal := hooked (s.nextChip (s.chip.laneLost d n condition))

/-! ### Band timing loop and read channel (04_beam_read_channel.md) -/

def execBtlUpdate (d : Nat) (s : State) : Host.Outcome State Fault Refusal := s.nextChip (s.chip.btlUpdate d)
def execBtlAcqTimeout (d : Nat) (s : State) : Host.Outcome State Fault Refusal := s.nextChip (s.chip.btlAcqTimeout d)
def execBtlSearchTimeout (d : Nat) (s : State) : Host.Outcome State Fault Refusal := s.nextChip (s.chip.btlSearchTimeout d)
def execBtlHoldTimeout (d : Nat) (s : State) : Host.Outcome State Fault Refusal := hooked (s.nextChip (s.chip.btlHoldTimeout d))
def execHoldExpiry (u : Nat) (s : State) : Host.Outcome State Fault Refusal := s.nextChip (s.chip.holdExpiry u)

end Sys2Proof.Machine
end

