-- ==== Sys2Proof/Machine/SkyTime.lean ====
section
/-! DEFINITION. Sky time: PTP, SKY_TICK, states and discipline (R444 to R457). Offsets are in 0.25 ns, signed, positive when this package is
ahead. -/
namespace Sys2Proof.Machine

def Chip.modSky (c : Chip) (f : SkySt → SkySt) : Chip := { c with sky := f c.sky }

/-- Sets a die's sky time in 2^-48 ns and its correction (R445). -/
def Chip.setClock (c : Chip) (e : Nat) (v corr : Int) : Chip := c.modSky fun k => { k with clock := tabSet k.clock e ⟨v, c.now, corr⟩ }

/-- The whole-nanosecond instants at which R454 counts windows. -/
def skyMs : Nat := 10 ^ 6

/-- Drops a launch before it fires: its readers are forgotten, an axis it armed is disarmed (R290, R316, R439, R462). -/
def Chip.dropLaunch (c : Chip) (l : LaunchRec) : Chip :=
  let k := c.ctxSt l.session l.ctx
  let c := { c with launches := c.launches.filter fun m => m.action != l.action }.dropPlan l.session l.ctx
  if l.opcode = 0x65 then
    let d := k.cmd.p0
    let x := k.cmd.p1 % 2
    let c := c.modAxis (axisNo d x) fun a => { a with armed := none }
    if c.rd (F.axisStatus_state d x) = 1 then c.wr (F.axisStatus_state d x) 0 else c
  else c

/-- Every host launch that has not fired completes with a status and does nothing (R462). -/
def Chip.cancelLaunches (c : Chip) (code : Nat) : Chip :=
  c.launches.foldl (fun c l => (c.dropLaunch l).fail l.session l.ctx code) c

/-- Sky time stops being valid: counted, reported with the state entered, unfired launches cancelled (R454, R462). -/
def Chip.skyInvalid (c : Chip) (st : Nat) : Chip :=
  let c := ((c.wr F.skyStatus_valid 0).wr F.skyStatus_state st).wr F.skyStatus_source 0
  let c := (c.bump F.skyCnt_invalid).modSky fun k => { k with stepped := false, good := 0, bad := 0 }
  (c.cancelLaunches 0x0702).raisePkg 13 [st]

/-- The source in use changes with its event; the offsets of the new one are counted anew (R454, R455). -/
def Chip.skySource (c : Chip) (src : Nat) : Chip :=
  let old := c.rd F.skyStatus_source
  if old = src then c else ((c.wr F.skyStatus_source src).modSky fun k => { k with bad := 0 }).raisePkg 14 [old, src]

/-- The package uses edges on SKY_TICK_IN (R452, R457). -/
def Chip.admitsTick (c : Chip) : Bool := !c.rdb F.chain_head && c.rdb F.skyCtrl_tick_en && c.chain.hasHop

/-- Edges are admitted, and one has been used within the last 3 ms (R455). -/
def Chip.tickPresent (c : Chip) : Bool := c.admitsTick && c.sky.lastUsed.any fun t => decide (c.now < t + 3 * skyMs)

/-- The correction of a die's counter is held to a limit that has become lower (R445). -/
def Chip.limitSlew (c : Chip) : Chip :=
  let limit : Int := (c.rd F.skyCtrl_slew_ppm * 2 ^ 48 / 10 ^ 6 : Nat)
  (List.range 2).foldl (fun c e =>
    let corr := (tabGet c.sky.clock e).corr
    if limit < corr.natAbs then c.setClock e (c.skyUnits e) (if corr < 0 then -limit else limit) else c) c

/-- Slews both dies towards zero offset: the sign is given, the size, at most `slew_ppm`, is a value nothing constrains (R445, R454). -/
def Chip.slew (c : Chip) (offset : Int) : Chip :=
  let limit := c.rd F.skyCtrl_slew_ppm * 2 ^ 48 / 10 ^ 6
  let (v, c) := c.draw
  let m : Int := (v % (limit + 1) : Nat)
  let corr : Int := if offset = 0 then 0 else if 0 < offset then -m else m
  let c := (c.setClock 0 (c.skyUnits 0) corr).setClock 1 (c.skyUnits 1) corr
  (c.wri F.skyOffset_offset offset).wri F.skyOffset_corr (roundDiv (corr * 10 ^ 9) (2 ^ 48))

/-- An offset of the source in use while sky time is valid (R454). -/
def Chip.skyOffset (c : Chip) (offset : Int) (src : Nat) : Chip :=
  let big := decide (40000 < offset.natAbs)
  if c.rd F.skyStatus_state = 3 then
    if big then ((c.wri F.skyOffset_offset offset).skyInvalid 1) else (((c.wr F.skyStatus_state 2).skySource src).modSky fun k => { k with bad := 0 }).slew offset
  else if big then
    let n := c.sky.bad + 1
    let c := (c.wri F.skyOffset_offset offset).modSky fun k => { k with bad := n }
    if 4 ≤ n then c.skyInvalid 1 else c.slew offset
  else (c.modSky fun k => { k with bad := 0 }).slew offset

/-- The best master among those heard: least data set comparison key, then lowest port (R450). -/
def bestMaster (ms : List Master) : Option Master :=
  ms.foldl (fun b m => match b with
    | none => some m
    | some o => if m.dataset < o.dataset ∨ (m.dataset = o.dataset ∧ m.port < o.port) then some m else some o) none

/-- Selects a master: its port and identity are shown, a change of identity is reported, FREE moves to ACQUIRE (R450, R454). -/
def Chip.selectMaster (c : Chip) : Chip :=
  match bestMaster c.sky.masters with
  | none => (c.modSky fun k => { k with selected := none }).wr F.skyStatus_gm_seen 0
  | some m =>
    let changed := c.rdb F.skyStatus_gm_seen && c.rd F.skyGm_clock_id != m.clockId
    let c := (c.modSky fun k => { k with selected := some m }).wr F.skyStatus_gm_seen 1
    let c := (c.wr F.skyStatus_ptp_port m.port).wr F.skyGm_clock_id m.clockId
    let c := if changed then c.raisePkg 15 (beBytes 8 m.clockId) else c
    if c.rd F.skyStatus_state = 0 then (c.wr F.skyStatus_state 1).modSky fun k => { k with stepped := false, good := 0 } else c

/-- Four Sync intervals in ns (R456). -/
def fourSyncs (syncLog : Int) : Nat := if 0 ≤ syncLog then 4 * 10 ^ 9 * 2 ^ syncLog.toNat else 4 * 10 ^ 9 / 2 ^ (-syncLog).toNat

/-- No Sync of a master arrived within four of its Sync intervals (R456). -/
def Chip.silent (c : Chip) (m : Master) : Bool := decide (m.lastSync + fourSyncs m.syncLog ≤ c.now)

/-- A master is selected, and its Sync messages arrive (R455, R456). -/
def Chip.ptpPresent (c : Chip) : Bool := c.sky.selected.any fun m => !c.silent m

def Master.sameAs (m o : Master) : Bool := o.port == m.port && o.clockId == m.clockId

/-- The masters heard without one that fell silent while it was selected; one that is heard again is new (R450). -/
def Chip.heardMasters (c : Chip) : List Master :=
  match c.sky.selected with
  | some m => if c.silent m then c.sky.masters.filter fun o => !m.sameAs o else c.sky.masters
  | none => c.sky.masters

/-- An Announce of a master on a port: domain, identity, the rank the data set comparison of IEEE 1588 gives it, its Sync interval as a power of
two in seconds (R449, R450). -/
def execPtpAnnounce (port domain clockId dataset : Nat) (syncLog : Int) (s : State) : Host.Outcome State Fault Refusal :=
  let c := s.chip
  s.nextChip (if domain = c.rd F.skyCtrl_domain ∧ c.rdb (F.hostPort_up port) ∧ -7 ≤ syncLog ∧ syncLog ≤ 1 then
      let old := c.heardMasters.find? fun m => m.port == port && m.clockId == clockId
      let m : Master := ⟨port, clockId, dataset, syncLog, (old.map (·.lastSync)).getD c.now⟩
      (c.modSky fun k => { k with masters := m :: c.heardMasters.filter fun o => !m.sameAs o }).selectMaster
    else c)

/-- A Sync and Delay_Resp pair of the selected master gives an offset and an estimate of sky time in ns (R449, R454). -/
def Chip.ptpOffset (c : Chip) (offset : Int) (estimate : Nat) : Chip :=
  match c.sky.selected with
  | none => c
  | some m =>
    let m := { m with lastSync := c.now }
    let c := c.modSky fun k => { k with
      selected := some m, masters := k.masters.map fun o => if o.port = m.port ∧ o.clockId = m.clockId then m else o }
    let st := c.rd F.skyStatus_state
    if st = 1 then
      if !c.sky.stepped then
        (((c.setClock 0 (estimate * 2 ^ 48) 0).setClock 1 (estimate * 2 ^ 48) 0).modSky fun k => { k with stepped := true, good := 0 }).wri
          F.skyOffset_offset offset
      else
        let good := if offset.natAbs ≤ 4000 then c.sky.good + 1 else 0
        let c := (c.wri F.skyOffset_offset offset).modSky fun k => { k with good := good }
        if 16 ≤ good then
          let src := if c.tickPresent then 2 else 1
          let c := ((c.wr F.skyStatus_state 2).wr F.skyStatus_valid 1).wr F.skyStatus_source src
          (c.modSky fun k => { k with good := 0, bad := 0 }).raisePkg 12 [src]
        else c
    else if (st = 2 ∧ c.rd F.skyStatus_source = 1) ∨ st = 3 then c.skyOffset offset 1
    else c

def execPtpOffset (offset : Int) (estimate : Nat) (s : State) : Host.Outcome State Fault Refusal := s.nextChip (s.chip.ptpOffset offset estimate)

/-- The source in use is lost with no other one present: HOLDOVER (R454). -/
def Chip.holdover (c : Chip) : Chip :=
  ((c.wr F.skyStatus_state 3).modSky fun k => { k with holdSince := c.now }).skySource 0

/-- PTP is gone: ACQUIRE ends in FREE, and LOCK on PTP turns to the tick or to HOLDOVER (R454 to R456). -/
def Chip.ptpGone (c : Chip) : Chip :=
  let st := c.rd F.skyStatus_state
  if st = 1 then (c.wr F.skyStatus_state 0).modSky fun k => { k with stepped := false, good := 0 }
  else if st = 2 ∧ c.rd F.skyStatus_source = 1 then (if c.tickPresent then c.skySource 2 else c.holdover)
  else c

/-- Masters are no longer received: the algorithm chooses again, and PTP is lost when it finds none (R450, R456). -/
def Chip.dropMasters (c : Chip) (gone : Master → Bool) : Chip :=
  if c.sky.masters.any gone then
    let c := (c.modSky fun k => { k with masters := k.masters.filter fun m => !gone m }).selectMaster
    if c.sky.selected.isNone then c.ptpGone else c
  else c

/-- A port that was up goes down, and its masters are no longer received (R389, R450). -/
def Chip.hostDown (c : Chip) (p : Nat) : Chip :=
  if c.rdb (F.hostPort_up p) then
    ((((c.wr (F.hostPort_up p) 0).wr (F.hostPort_fec p) 0).wr (F.hostPort_lpi p) 0).raisePkg 8 [p]).dropMasters fun m => m.port == p
  else c

/-- A host port loses a lane (R389). -/
def execHostLinkDown (p : Nat) (s : State) : Host.Outcome State Fault Refusal := s.nextChip (s.chip.hostDown p)

/-- No Sync of the selected master arrived within four of its Sync intervals (R456): the algorithm chooses again among the other masters heard, and a
lone master stays selected. -/
def Chip.ptpLost (c : Chip) : Chip :=
  (if c.heardMasters.isEmpty then c else (c.modSky fun k => { k with masters := c.heardMasters }).selectMaster).ptpGone

def execPtpLost (s : State) : Host.Outcome State Fault Refusal :=
  let c := s.chip
  s.nextChip (match c.sky.selected with
    | some m => if c.silent m then c.ptpLost else c
    | none => c)

/-- The distance of a number of ns from the nearest multiple, signed. -/
def fromMultiple (q : Int) (unit : Nat) : Int := q - ((2 * q + unit) / (2 * unit)) * unit

/-- An edge on SKY_TICK_IN of a width in ns, stamped `frac` quarters of a nanosecond after the whole nanosecond (R448, R452, R453). -/
def execSkyTickEdge (width frac : Nat) (s : State) : Host.Outcome State Fault Refusal :=
  let c := s.chip
  if !c.admitsTick then .next s
  else
    let q : Int := (c.sky_ * 4 + frac % 4 : Nat) - (c.rd F.chain_hop_delay : Nat)
    let offset := fromMultiple q (4 * skyMs)
    let close := c.sky.lastEdge.any fun t => decide (c.now < t + 10000)
    let c := c.modSky fun k => { k with lastEdge := some c.now }
    if 20000 < offset.natAbs ∨ width < 50 ∨ close then s.nextChip (c.bump F.skyCnt_discarded)
    else
      let c := (c.modSky fun k => { k with lastUsed := some c.now }).wr F.skyStatus_tick_seen 1
      let sec := fromMultiple q (4 * 10 ^ 9)
      let c := if 200 ≤ width ∧ 4 * 500000 < sec.natAbs then (c.bump F.skyCnt_disagree).raisePkg 17 (beBytes 8 (unsigned 64 (sec / 4))) else c
      let st := c.rd F.skyStatus_state
      s.nextChip (if st = 2 then (c.skySource 2).skyOffset offset 2 else if st = 3 then c.skyOffset offset 2 else c)

/-- Edges are no longer admitted: a package that used them turns to PTP or to HOLDOVER (R452, R454, R455). -/
def Chip.tickDenied (c : Chip) : Chip :=
  if !c.admitsTick ∧ c.rd F.skyStatus_state = 2 ∧ c.rd F.skyStatus_source = 2 then (if c.ptpPresent then c.skySource 1 else c.holdover) else c

/-- 3 ms without a used edge: SKY_TICK is lost, and the source moves to PTP, or to HOLDOVER without a master (R454 to R456). -/
def execSkyTickLost (s : State) : Host.Outcome State Fault Refusal :=
  let c := s.chip
  s.nextChip (if c.rdb F.skyStatus_tick_seen && !c.tickPresent then
      let c := ((c.wr F.skyStatus_tick_seen 0).bump F.skyCnt_tick_lost).raisePkg 16 []
      if c.rd F.skyStatus_state = 2 ∧ c.rd F.skyStatus_source = 2 then (if c.ptpPresent then c.skySource 1 else c.holdover) else c
    else c)

/-- The whole milliseconds of sky time one cycle ago (R447). -/
def Chip.msBefore (c : Chip) : Nat :=
  let e := c.servingDie
  ((c.skyUnits e - 2 ^ 48 - (tabGet c.sky.clock e).corr) / 2 ^ 48).toNat / skyMs

/-- A whole millisecond of valid sky time is reached: one tick, 300 ns at a whole second and 100 ns otherwise (R447, R451, R457). -/
def execSkyTickOut (s : State) : Host.Outcome State Fault Refusal :=
  let c := s.chip
  let ms := c.sky_ / skyMs
  s.nextChip (if c.skyValid && c.rdb F.skyCtrl_tick_out && ms != c.sky.lastTick && c.msBefore != ms then
      (c.modSky fun k => { k with lastTick := ms }).emit (.tick (if ms % 1000 = 0 then 300 else 100))
    else c)

/-- `hold_s` have passed in HOLDOVER (R454). -/
def execHoldoverTimeout (s : State) : Host.Outcome State Fault Refusal :=
  let c := s.chip
  s.nextChip (if c.rd F.skyStatus_state = 3 ∧ c.sky.holdSince + c.rd F.skyCtrl_hold_s * 10 ^ 9 ≤ c.now then c.skyInvalid 0 else c)

/-- Die 1's counter is disciplined to die 0's: it comes within 2 ns, and never runs backwards (R445, R446). -/
def execSkyDieCompare (s : State) : Host.Outcome State Fault Refusal :=
  let c := s.chip
  if (c.dieSt 0).out || (c.dieSt 1).out then .next s
  else
    let a := c.skyUnits 0
    let b := c.skyUnits 1
    let near := max b (min (max b (a - 2 ^ 49)) (a + 2 ^ 49))
    s.nextChip (c.setClock 1 near (tabGet c.sky.clock 0).corr)

end Sys2Proof.Machine
end

