-- ==== Sys2Proof/Machine/Fetch.lean ====
section
/-! DEFINITION. The fetch of a host command: order, gates, field checks, launches (13_command_reference.md, R402, R415 to R420, R434, R460, R461,
R486 to R489), and what ends a command early (R421, R439). -/
namespace Sys2Proof.Machine

/-! ### Gates (R420, R479, R481, R486 to R489) -/

/-- The session is an owner session. -/
def SessSt.isOwner (s : SessSt) : Bool := s.bootstrap || s.rights.testBit 8

/-- A presence window is open at this instant of the keeper timer, under the half-open rule of R14 (R485, R487). -/
def Chip.windowOpen (c : Chip) : Bool := c.rdb F.trust_window_open && c.trust.released.any fun t => decide (c.keeper < t + 120 * 10 ^ 9)

/-- Presence as a gate: 0 when the session holds the window (R487). -/
def Chip.presenceGate (c : Chip) (n : Nat) : Nat :=
  if !c.windowOpen || !c.rdb F.trust_window_held then 0x0301 else if c.rd F.trust_holder = n then 0 else 0x0308

/-- The gate of a row for a session: 0, or the status (R420, R468, R479, R487, R489). A disposed package and one without an application serve only
what R479 and R468 name; those sections give the refusal no status of its own. -/
def Chip.gateCode (c : Chip) (n : Nat) (r : OpRow) : Nat :=
  let s := c.sess n
  if !s.rights.testBit (r.op / 32) && !s.rights.testBit 8 then 0x0304
  else if c.rdb F.trust_disposed && !([0x00, 0x01, 0xC8] : List Nat).contains r.op then 0x0304
  else if !c.power.app && !([0x01, 0xC8, 0xC0, 0xC1] : List Nat).contains r.op then 0x0304
  else
    match r.gate with
    | .any => 0
    | .owner => if s.isOwner then 0 else 0x0304
    | .head => if s.isOwner && c.rdb F.chain_head then 0 else 0x0304
    | .presence => if s.isOwner then c.presenceGate n else 0x0304
    | .sealQ =>
      if !s.isOwner then 0x0304
      else if !c.sealHeld || c.rdb F.trust_seal_exhausted then 0x0302
      else if c.trust.sealBound ≠ 0 ∧ c.trust.sealBound ≠ n then 0x0308 else 0

/-! ### Fields (R415, R416, R460, R549) -/

/-- The ports a command names: the one of its parameter, or those of a SPIN mask. -/
def Cmd.ports (k : Cmd) : List Nat :=
  if k.opcode = 0x64 then maskList 24 k.p0
  else if ([0x60, 0x61, 0x62, 0x63, 0x65, 0x66, 0x67, 0xE4] : List Nat).contains k.opcode then [k.p0] else []

/-- The field checks every row shares. -/
def fieldCode (k : Cmd) (r : OpRow) : Nat :=
  let badLength := match r.phase with
    | .none => k.dlen != 0
    | _ => decide (r.limit < k.dlen) || k.dlen % r.unit != 0 || (r.exact && k.dlen != r.limit)
  if badLength then 0x0102
  else if k.T ≠ 0 ∧ (!r.launch ∨ k.action = 0 ∨ 2 ^ 64 ≤ k.T + k.W) then 0x0102
  else if k.ports.any fun d => decide (24 ≤ d) then 0x0102
  else 0

/-- A command names a retired port (R419, R549). -/
def Chip.retiredCode (c : Chip) (k : Cmd) : Nat :=
  if k.opcode ≠ 0x60 ∧ k.opcode ≠ 0x67 ∧ k.ports.any (fun d => (c.rd F.svcRetired_retired).testBit d) then 0x0608 else 0

/-- The context that the fetch takes exceeds the session's quota (R403, R408). -/
def Chip.contextCode (c : Chip) (n : Nat) : Nat := if c.rd (F.quota_ctx_max (n - 1)) < (c.sess n).heldCount then 0x0201 else 0

/-- A package without an address answers status commands only, IDENTIFY and the management status commands among them (R44, R420; DEDUCED, notes/assumptions/77.md).
A launch is accepted with an address, sky time and a free action identifier, in the order of R419 (R434). -/
def Chip.launchCode (c : Chip) (k : Cmd) (r : OpRow) : Nat :=
  if !c.rdb F.chain_addr_valid && !r.status then 0x0109
  else if k.T = 0 then 0
  else if !c.skyValid then 0x0702
  else if c.launches.any fun l => l.action == k.action then 0x0703 else 0

/-! ### Fetch (R402, R403, R419) -/

/-- A queue's oldest waiting command, by its context. -/
def SessSt.queueHead (s : SessSt) (q : Nat) : Option Nat :=
  s.order.find? fun x => (tabGet s.ctx x).phase == .waiting && (tabGet s.ctx x).cmd.queue == q

/-- The waiting command a session gives next: of the queue R34 chooses (R402). -/
def SessSt.nextFetch (s : SessSt) : Option Nat := (arbitrate 16 s.queuePtr fun q => (s.queueHead q).isSome).bind s.queueHead

/-- Whether a command is the next of its session and may be fetched now: no activation pause, and no second Q command while one runs (R402, R437, R489). -/
def Chip.canFetch (c : Chip) (n x : Nat) (r : OpRow) : Bool :=
  (c.sess n).live && !c.paused && (c.sess n).nextFetch == some x && (c.ctxSt n x).cmd.opcode == r.op &&
    !(r.gate == .sealQ && (c.contexts fun k => k.phase == .active && ([0xCB, 0xCC, 0xCD, 0xCE] : List Nat).contains k.cmd.opcode) != [])

/-- The command is fetched: it becomes active with the next parse number, its queue's pointer moves on, the context
counts as held (R34, R402, R403, R429). -/
def Chip.fetched (c : Chip) (n x : Nat) : Chip :=
  let q := (c.ctxSt n x).cmd.queue
  let c := c.modHost fun h => { h with parse := h.parse + 1 }
  ((c.modSess n fun s => { s with queuePtr := arbNext 16 q }).modCtx n x fun k => { k with phase := .active, parse := c.host.parse }).refreshHost

/-- The first Q command fetched during a seal presence binds it to its session (R489). -/
def Chip.bindSeal (c : Chip) (n : Nat) (r : OpRow) : Chip :=
  if r.gate == .sealQ && c.gateCode n r == 0 && !c.sessionFrozen (n - 1) then { c with trust := { c.trust with sealBound := n } } else c

/-- The checks of a fetch in the order of R419; 0 when all hold. SANITISE and FORMAT meet a running one with a status of their own (R441). -/
def Chip.fetchCode (c : Chip) (n : Nat) (k : Cmd) (r : OpRow) (fields resources : Nat) : Nat :=
  let first (l : List Nat) : Nat := (l.find? (· != 0)).getD 0
  first [if c.sessionFrozen (n - 1) then 0x0305 else 0, if c.moss.op.isSome && !r.status && r.op != 0xC2 && r.op != 0xC3 then 0x0108 else 0, c.gateCode n r,
    Machine.fieldCode k r, fields, c.retiredCode k, c.contextCode n, resources, c.launchCode k r]

/-! ### Power states at a fetch (R410, R411) -/

/-- OVERCAST serves these without a wake. -/
def OpRow.servedAsleep (r : OpRow) : Bool := r.status || decide (r.op < 0x20) || (decide (0xA0 ≤ r.op) && decide (r.op < 0xC0)) || r.op == 0x80

/-- A command needs a drive (R411). -/
def Chip.needsDrive (c : Chip) (n x : Nat) (k : Cmd) : Bool :=
  ([0x27, 0x61, 0x62, 0x63, 0x64, 0x65] : List Nat).contains k.opcode || (k.opcode == 0x22 && c.allReaders n x k != [])

/-- The package wakes from OVERCAST: ports are taken up again, and the wake is over with POWER_WAKE_COMPLETE (R411, R413). -/
def Chip.beginWake (c : Chip) : Chip :=
  if c.rdb F.pwrStatus_waking then c
  else
    let ds := (List.range 24).filter fun d => !(c.rd F.svcRetired_retired).testBit d && c.host.wakeFor.contains d
    let c := ds.foldl (fun c d => if c.rd (F.hlinkStatus_state d) = 0 then (c.wr (F.hlinkCtrl_enable d) 1).toSeek d else c) c
    let c := (List.range 8).foldl (fun c p => c.wr (F.hostPort_lpi p) 0) c
    c.wr F.pwrStatus_waking 1

/-- The power state changes with its event. -/
def Chip.setPower (c : Chip) (st : Nat) : Chip :=
  let old := c.rd F.pwrStatus_state
  if old = st then c else (c.wr F.pwrStatus_state st).raisePkg 6 [old, st]

/-! ### Launches (R417, R460, R461) -/

/-- The axis request of an AXIS_MOVE (R290, R433): op in bits [7:4] as in `axes.X.req`. -/
def axisReqOf (k : Cmd) (start : AxisStart) : Option AxisReq :=
  let op := k.p1 / 16 % 16
  let target := signed 32 k.p2
  if op = 1 then some (.moveTo target start) else if op = 2 then some (.moveBy target start) else if op = 3 then some (.home start)
  else if op = 4 ∧ k.p1 % 2 = 0 then some .park else none

/-- An AXIS_MOVE given at once, or fired. -/
def Chip.axisMoveNow (c : Chip) (k : Cmd) : Chip :=
  let d := k.p0
  let x := k.p1 % 2
  let op := k.p1 / 16 % 16
  if op = 5 then c.axisStop d x
  else if op = 6 then
    if (c.axisSt (axisNo d x)).armed.isSome then (c.wr (F.axisStatus_state d x) 0).modAxis (axisNo d x) fun a => { a with armed := none } else c
  else
    match axisReqOf k .atOnce with
    | some q => c.axisRequest d x q
    | none => c

/-- Fires a launched AXIS_MOVE: the armed axis starts; one that still waits behind another request starts when it can, delayed. -/
def Chip.axisFire (c : Chip) (n x : Nat) (k : Cmd) : Chip :=
  let d := k.p0
  let ax := axisNo d (k.p1 % 2)
  let op := k.p1 / 16 % 16
  if 1 ≤ op ∧ op ≤ 3 then
    if (c.axisSt ax).armed.isSome then c.fireAxis .launch d (k.p1 % 2)
    else
      (c.modAxis ax fun a => { a with waiting := a.waiting.map fun q => if q.start = .launch then (axisReqOf k .atOnce).getD q else q }).modCtx n x
        fun y => { y with delayed := true }
  else c.axisMoveNow k

/-- A SPIN request to a drive (R433). -/
def Chip.spinOne (c : Chip) (d op target : Nat) : Chip :=
  if op = 1 then c.spinRequest d (.start (clampTarget target)) else c.spinRequest d .stop

/-- An object read takes a snoop unit on its egress, or waits for one before its data phase (R384, R387). -/
def State.needUnit (s : State) (n x : Nat) (go : State → State) : State :=
  let c := s.chip
  let k := c.ctxSt n x
  let e := (c.sess n).die
  if k.snoop.isSome then go s
  else
    match c.freeSnoop e, findObj c.cat.objects k.object with
    | some u, some o =>
      let put := k.cmd.opcode = 0x21
      go { s with chip := c.takeSnoop n x u (decide put) o.poly (if put then o.running else snoopInit o.poly) }
    | none, _ =>
      { s with chip := (c.modCtx n x fun y => { y with wait := .snoop }).modBuf e fun b => { b with snoopWait := b.snoopWait ++ [(n, x)] } }
    | _, none => go s

/-- The fetch stamp of a launch: the sky time of the die that serves the session (R460). -/
def Chip.fetchStamp (c : Chip) (n : Nat) : Nat := if (c.dieSt (c.sess n).die).out then c.sky_ else c.skyNs (c.sess n).die

/-- The package is in OVERCAST, or on its way out of it. -/
def Chip.asleep (c : Chip) : Bool := c.rd F.pwrStatus_state == 2

/-- What an action starts when it fires, or at once without a launch (R417, R433, R461, R463). In OVERCAST what needs a drive begins when the wake
is complete, delayed (R414). -/
def State.fireAction (s : State) (n x : Nat) : State :=
  let c := s.chip
  let k := (c.ctxSt n x).cmd
  if c.asleep && k.opcode != 0x81 then { s with chip := c.modCtx n x fun y => { y with wait := .drive, delayed := true } }
  else if k.opcode = 0x22 then s.needUnit n x fun s => { s with chip := s.chip.releaseRead n x }.endRestore n x
  else if k.opcode = 0x27 then { s with chip := c.releaseRead n x }.endRestore n x
  else if k.opcode = 0x63 then { s with chip := c.releasePsaRead n x }
  else if k.opcode = 0x64 then
    let c := (maskList 24 k.p0).foldl (fun c d => c.spinOne d (k.p1 % 4) (k.p1 / 2 ^ 16 % 2 ^ 16)) c
    { s with chip := if k.p1 % 4 = 1 then c.modCtx n x fun y => { y with wait := .activity } else c.completeLaunched n x c.sky_ }
  else if k.opcode = 0x65 then
    let ax := axisNo k.p0 (k.p1 % 2)
    let before := (c.axisSt ax).waiting
    let c := if k.T = 0 then c.axisMoveNow k else c.axisFire n x k
    -- a request that waits behind another completes the command when its move starts (R290, R417)
    if (c.axisSt ax).waiting.isSome && (c.axisSt ax).waiting != before then
      { s with chip := c.modCtx n x fun y => { y with wait := .activity, delayed := true } }
    else { s with chip := c.completeLaunched n x c.sky_ }
  else if k.opcode = 0x81 then
    let at_ := if k.T = 0 then (if c.skyValid then some c.sky_ else none) else some (c.ctxSt n x).fired
    let c := c.freezeRecord 0 at_ c.keeper
    { s with chip := c.completeLaunched n x c.sky_ }
  else s

/-- A launch is missed: it does nothing; an axis it names raises its event (R290, R434, R460). -/
def Chip.missLaunch (c : Chip) (n x : Nat) (k : Cmd) : Chip :=
  let c := if k.opcode = 0x65 then c.raiseClu k.p0 14 6 ((2 + k.p1 % 2) :: beBytes 2 0x0701) else c
  c.fail n x 0x0701

/-- The drives of an accepted launch are made ready, its axis armed (R290, R314). -/
def Chip.readyLaunch (c : Chip) (n x : Nat) (k : Cmd) : Chip :=
  if k.opcode = 0x22 ∨ k.opcode = 0x27 then c.planRead n x (c.allReaders n x k)
  else if k.opcode = 0x63 then c.planRead n x [c.psaExtent n x k]
  else if k.opcode = 0x65 then
    match axisReqOf k .launch with
    | some q => if q = .park then c else c.axisRequest k.p0 (k.p1 % 2) q
    | none => c
  else c

/-- A launch that is still to fire is accepted; its drives are made ready, in OVERCAST once the wake is complete (R414, R460). -/
def Chip.acceptLaunch (c : Chip) (n x : Nat) (k : Cmd) : Chip :=
  let c := { c with launches := c.launches ++ [(⟨k.action, k.T, k.W, k.opcode, n, x⟩ : LaunchRec)] }
  let c := c.modHost fun h => { h with acted := h.acted.filter (· != k.action) }
  let c := c.modCtx n x fun y => { y with wait := .launch }
  if c.asleep then c else c.readyLaunch n x k

/-- An action identifier has fired (R434, R460). -/
def Chip.noteFired (c : Chip) (action : Nat) : Chip := c.modHost fun h => { h with acted := action :: h.acted.filter (· != action) }

/-- Execution of a launchable command at its fetch: at once without a launch or within its window, armed before T, missed after it (R460). -/
def State.launchOrFire (s : State) (n x : Nat) (k : Cmd) : State :=
  let now := s.chip.fetchStamp n
  if k.T = 0 then s.fireAction n x
  else if now < k.T then { s with chip := s.chip.acceptLaunch n x k }
  else if now < k.T + k.W then
    ({ s with chip := (s.chip.modCtx n x fun y => { y with late := true, fired := now + 1 }).noteFired k.action }.fireAction n x)
  else { s with chip := s.chip.missLaunch n x k }

/-- A launch past its window is missed before anything else is looked at; otherwise the command fails with a code or goes on (R434, R460). -/
def State.launchChecked (s : State) (n x : Nat) (k : Cmd) (code : Nat) : State :=
  if k.T ≠ 0 ∧ k.T + k.W ≤ s.chip.fetchStamp n then { s with chip := s.chip.missLaunch n x k }
  else if code ≠ 0 then { s with chip := s.chip.fail n x code } else s.launchOrFire n x k

/-- A command of the host is fetched and executed: `pick` tells the rows of one opcode apart, `fields` and `resources` are what the row adds to the
checks of R419, `body` its execution. A
command that is not the next of its session stays where it is; in OVERCAST, one that OVERCAST does not serve wakes the package and is fetched
after the wake, but for a launch, which is accepted at once (R411, R414, R419). -/
def State.fetchWith (s : State) (n x op : Nat) (pick : Cmd → Bool) (fields resources : Chip → Cmd → Nat) (body : State → Cmd → State) :
    Host.Outcome State Fault Refusal :=
  match opRow op with
  | none => .next s
  | some r =>
    if !s.chip.canFetch n x r || !pick (s.chip.ctxSt n x).cmd then .next s
    else
      let k := (s.chip.ctxSt n x).cmd
      let asleep := s.chip.asleep && !r.servedAsleep
      if asleep && k.T == 0 then s.nextChip s.chip.beginWake
      else
        let c := (s.chip.fetched n x).bindSeal n r
        let code := c.fetchCode n k r (fields c k) (resources c k)
        if code ≠ 0 then hooked (s.nextChip (c.fail n x code))
        else
          let launch := k.T != 0 && decide (c.fetchStamp n < k.T + k.W ∨ c.fetchStamp n < k.T)
          let c :=
            if asleep then (if launch then c.beginWake else c)
            else if c.rd F.pwrStatus_state = 1 && (c.needsDrive n x k || launch) then (c.setPower 0).wr F.pwrStatus_waking 1 else c
          hooked (.next (body { s with chip := c } k))

/-- Every command of an opcode. -/
def anyCmd (_ : Cmd) : Bool := true

/-- No check beyond the shared ones. -/
def noCheck (_ : Chip) (_ : Cmd) : Nat := 0

/-- The launch of an action whose instant the counter has reached (R447, R461). -/
def Chip.dueLaunch (c : Chip) (action : Nat) : Option LaunchRec :=
  c.launches.find? fun l => l.action == action && decide (l.T ≤ c.sky_)

/-- The drives a launch is aimed at. -/
def Chip.launchPorts (c : Chip) (l : LaunchRec) : List Nat :=
  let k := (c.ctxSt l.session l.ctx).cmd
  if l.opcode = 0x22 ∨ l.opcode = 0x27 then ((c.planOf l.session l.ctx).getD (c.allReaders l.session l.ctx k)).map (·.1) else k.ports

/-- The launches that run with a due one, itself last: those of the same instant that share a drive with it and have a lower action identifier, in ascending
order (R38). -/
def Chip.launchOrder (c : Chip) (l : LaunchRec) : List LaunchRec :=
  let ds := c.launchPorts l
  let before := c.launches.filter fun m => m.T == l.T && decide (m.action < l.action) && (c.launchPorts m).any ds.contains
  (before.mergeSort fun a b => decide (a.action ≤ b.action)) ++ [l]

/-- One launch fires: it is no longer waiting, and its action starts (R461). -/
def State.fireLaunch (s : State) (l : LaunchRec) : State :=
  let c := { s.chip with launches := s.chip.launches.filter fun m => m.action != l.action }
  let c := (c.modCtx l.session l.ctx fun y => { y with fired := l.T, wait := .activity }).noteFired l.action
  { s with chip := c }.fireAction l.session l.ctx

/-- LAUNCH_FIRE: the counter reaches the instant of an accepted launch; those of that instant aimed at the same drive fire in ascending order of their action
identifiers (R38, R447, R461). -/
def execLaunchFire (action : Nat) (s : State) : Host.Outcome State Fault Refusal :=
  match s.chip.dueLaunch action with
  | none => .next s
  | some l => hooked (.next ((s.chip.launchOrder l).foldl State.fireLaunch s))

/-! ### Commands that end early (R421, R439) -/

/-- The reads of a command end: every pending sector of its extents, those waiting too, is lost with the cause aborted, its restore is dropped (R194, R439). -/
def Chip.abortReads (c : Chip) (n x : Nat) : Chip :=
  let key := cmdKey n x
  let c := (c.dropPlan n x).modCat fun k => { k with restores := k.restores.filter fun r => r.cmd != key }
  (List.range 24).foldl (fun c d =>
    let xs := (c.readSt d).queue.filter fun e => e.owner == key
    let c := c.modRead d fun r => { r with queue := r.queue.filter fun e => e.owner != key }
    let c := xs.foldl (fun c x => c.loseWaiting d 9 x) c
    let c := if (c.readSt d).cur.any fun e => e.owner == key then ((c.loseExtent d 9).speedUp d).wakeReads d else c
    c.modRead d fun r => { r with done := r.done.filter fun e => e.1 != key }) c

/-- Other activities no longer answer to a command. -/
def Chip.forget (c : Chip) (n x : Nat) : Chip :=
  let key := cmdKey n x
  let c := c.modCat fun k => { k with loads := k.loads.map fun e => (e.1, e.2.map fun l => if l.cmd = some key then { l with cmd := none } else l) }
  let c := c.modMoss fun m => { m with discards := m.discards.map fun d => if d.cmd = some (n, x) then { d with cmd := none } else d }
  { c with svc := { c.svc with overburns := c.svc.overburns.map fun o => if o.1 = n ∧ o.2.1 = x then (0, 0, o.2.2) else o } }

/-- A command, waiting or active, ends with a status before its time; retained data of the context are released (R439). -/
def Chip.endCommand (c : Chip) (n x code : Nat) : Chip :=
  let k := c.ctxSt n x
  if k.phase = .retained then c.releaseCtx n x
  else if k.phase = .free then c
  else
    let c := (c.launches.filter fun l => l.session == n && l.ctx == x).foldl Chip.dropLaunch c
    let c := (c.abortReads n x).forget n x
    (if k.phase = .active ∧ k.cmd.opcode = 0x21 ∧ !k.ok then c.failPut n x code else c.fail n x code).releaseCtx n x

/-- Every command of a session but one ends (R421, R439). -/
def Chip.endCommands (c : Chip) (n code : Nat) (but : Option Nat) : Chip :=
  ((c.sess n).ctx.map (·.1)).foldl (fun c x => if but = some x then c else c.endCommand n x code) c

/-- A window closes: cause 0 expiry, 1 press, 2 session, 3 takeover (R485). -/
def Chip.closeWindow (c : Chip) (cause : Nat) : Chip :=
  if c.rdb F.trust_window_open then
    ((({ c with trust := { c.trust with released := none } }.wr F.trust_window_open 0).wr F.trust_window_held 0).wr F.trust_holder 0).raisePkg 29 [cause]
  else c

/-- A session ends (R398): its commands, its presence window, its subscription, its number and queues. -/
def Chip.endSession (c : Chip) (n : Nat) : Chip :=
  if !(c.sess n).live then c
  else
    let c := c.endCommands n 0x0801 none
    let c := if c.rd F.trust_holder = n then c.closeWindow 2 else c
    let c := if (c.sess n).bootstrap then c.wr F.trust_bootstrap 0 else c
    let c := { c with ev := { c.ev with subs := tabSet c.ev.subs (n - 1) none } }
    let c := c.modCat fun a => { a with objects := a.objects.map fun o => if o.session = n then { o with session := 0 } else o }
    let c := c.modMoss fun m => { m with ns := m.ns.map fun e => if e.2.creator = n then (e.1, { e.2 with creator := 0 }) else e }
    let c := c.modHost fun h => { h with sess := tabSet h.sess n default }
    ((((c.wr (F.use_frozen (n - 1)) 0).wr (F.use_moss (n - 1)) 0).wr (F.use_contexts (n - 1)) 0).wr (F.use_over (n - 1)) 0).refreshHost

end Sys2Proof.Machine
end

