-- ==== Sys2Proof/Machine/SessionCmds.lean ====
section
/-! DEFINITION. Session and identify commands (13_command_reference.md, opcodes 0x00 to 0x1F). -/
namespace Sys2Proof.Machine

/-- The command starts its data-out phase; a phase of no bytes is over at once (R404). -/
def State.startPhase (s : State) (n x : Nat) (k : Cmd) (done : State → State) : State :=
  if k.dlen = 0 then done s else { s with chip := s.chip.modCtx n x fun y => { y with wait := .dataOut } }

/-- The bytes of a data-out phase, every tile checked before its use (R379): none when one is poisoned, which the use marks. -/
def State.phaseBytes (s : State) (n x use : Nat) : Option (List Nat) × State :=
  let k := s.chip.ctxSt n x
  match k.tiles.find? fun t => !s.tileGood t with
  | some t => (none, { s with chip := s.chip.poisonTile t use })
  | none => (some (s.tilesRange k.tiles 0 k.cmd.dlen), s)

/-! ### Lists (R596) -/

/-- How many of a list's entries fit in a length, whole. -/
def fitting : List (List Nat) → Nat → Nat
  | [], _ => 0
  | e :: t, n => if e.length ≤ n then fitting t (n - e.length) + 1 else 0

/-- Sends whole entries and completes with their number and whether more exist (R596). -/
def State.answerList (s : State) (n x : Nat) (k : Cmd) (entries : List (List Nat)) : State :=
  let m := fitting entries k.dlen
  s.answer n x (entries.take m).flatten (beBytes 4 m ++ [if m < entries.length then 1 else 0])

/-- Entries whose layout no rule gives: each is a value nothing constrains, of the size of its list. -/
def freeEntries (op : Nat) : List Nat → Chip → List (List Nat) × Chip
  | [], c => ([], c)
  | _ :: t, c =>
    let d := c.draw
    let r := freeEntries op t d.2
    (beBytes (Config.entrySize op) d.1 :: r.1, r.2)

/-- Sends a list of such entries. -/
def State.answerFree (s : State) (n x : Nat) (k : Cmd) (ids : List Nat) : State :=
  let r := freeEntries k.opcode ids s.chip
  { s with chip := r.2 }.answerList n x k r.1

/-! ### NOP, IDENTIFY -/

/-- NOP completes with success. -/
def execNop (session ctx : Nat) (s : State) : Host.Outcome State Fault Refusal :=
  s.fetchWith session ctx 0x00 anyCmd noCheck noCheck fun s _ => s.withChip fun c => c.ok session ctx

/-- A flag at a bit of a word. -/
def flag (b : Bool) (n : Nat) : Nat := if b then 2 ^ n else 0

/-- The flags of the identify data. -/
def Chip.identifyFlags (c : Chip) (n : Nat) : Nat :=
  flag (c.rdb F.chain_head) 0 + flag (!(c.dieSt 0).out) 1 + flag (!(c.dieSt 1).out) 2 + flag (c.rdb F.mossStatus_mounted) 3 +
    flag (c.rdb F.mossStatus_degraded) 4 + flag (c.rdb F.mossStatus_offline) 5 + flag c.skyValid 6 + flag (c.rdb F.trust_window_open) 7 +
    flag (c.rd F.trust_holder == n) 8 + c.rd F.pwrStatus_state * 512 + flag (c.rdb F.lichenCtrl_frozen) 11 + flag c.moss.op.isSome 12

/-- The byte of a drive in the identify data. -/
def Chip.identifyDrive (c : Chip) (d : Nat) : Nat :=
  let disc := if c.rd (F.discStatus_state d) = 5 then (if c.rdb (F.discStatus_foreign d) then 2 else 1) else 0
  c.rd (F.hlinkStatus_state d) + flag (c.rdb (F.hlinkStatus_burn_ok d)) 3 + disc * 16 + flag (c.rd (F.spinStatus_state d) != 0) 6 +
    flag ((c.rd F.svcRetired_retired).testBit d) 7

/-- L of R338: the logical capacity of the pool in granules. -/
def Chip.logicalGranules (c : Chip) : Nat := c.moss.raw * 7 * (100 - c.sparePct) * (100 - c.opPct) / 80000

/-- The word of a shape register (pkg.frond.shape). -/
def Chip.shapeWord (c : Chip) (i : Nat) : Nat :=
  c.rd (F.shape_k i) + c.rd (F.shape_m i) * 2 ^ 5 + c.rd (F.shape_q i) * 2 ^ 9 + c.rd (F.shape_en i) * 2 ^ 17

/-- Versions of the running keeper and application images. -/
def Chip.keeperImage (c : Chip) : ImageRec := tabGet c.trust.images c.trust.keeperSlot
def Chip.appImage (c : Chip) : ImageRec := if c.power.app then tabGet c.trust.images (2 + c.trust.appSlot) else default

/-- The identify data (R443). -/
def Chip.identify (c : Chip) (n : Nat) : List Nat :=
  let ns := (c.moss.ns.filter fun e => e.2.active).map (·.1)
  beBytes 4 0x4E514944 ++ beBytes 2 1 ++ beBytes 2 0x2496 ++ [Config.dieRev 0 % 256, Config.dieRev 1 % 256] ++ beBytes 2 c.sysAddr ++
    beBytes 4 (c.identifyFlags n) ++ beBytes 8 Config.serial ++ beBytes 8 (Config.macBase % 2 ^ 48) ++ beBytes 48 c.idDigest ++
    beBytes 8 c.keeperImage.version ++ beBytes 8 c.appImage.version ++ beBytes 4 (c.rd F.otp_rollback) ++ beBytes 4 (c.rd F.otp_seals) ++
    beBytes 4 6000 ++ beBytes 4 25000 ++ beBytes 2 256 ++ beBytes 2 512 ++ beBytes 2 4096 ++ beBytes 2 8192 ++ [c.host.modeNext] ++
    [((List.range 8).map fun p => flag (c.rdb (F.hostPort_up p)) p).sum] ++ beBytes 2 (c.rd F.hostCfg_udp_port) ++ beBytes 4 0 ++
    beBytes 8 (c.moss.raw * 16384) ++ beBytes 8 c.logicalGranules ++ beBytes 8 ((ns.map fun i => 2 ^ i).sum) ++ beBytes 8 0 ++
    ((List.range 8).flatMap fun i => beBytes 4 (c.shapeWord i)) ++ ((List.range 24).map c.identifyDrive) ++ beBytes 8 c.sky_

/-- IDENTIFY sends the identify data, as many bytes of it as its length names. -/
def execIdentify (session ctx : Nat) (s : State) : Host.Outcome State Fault Refusal :=
  s.fetchWith session ctx 0x01 anyCmd noCheck noCheck fun s k => s.answer session ctx ((padTo 4096 (s.chip.identify session)).take k.dlen) []

/-! ### Queues (R401) -/

/-- QUEUE_OPEN opens queue 1 to 15. -/
def execQueueOpen (session ctx : Nat) (s : State) : Host.Outcome State Fault Refusal :=
  s.fetchWith session ctx 0x02 anyCmd
    (fun c k => if k.p0 < 1 ∨ 15 < k.p0 ∨ (c.sess session).queues.testBit k.p0 then 0x0102 else 0)
    (fun c _ => if 512 ≤ c.rd F.qcpStatus_queues then 0x0204 else 0)
    fun s k => s.withChip fun c => (c.modSess session fun y => { y with queues := maskSet y.queues k.p0 true }).refreshHost.ok session ctx

/-- QUEUE_CLOSE closes a queue of which no command is incomplete. A queue that is not open is an invalid field. -/
def execQueueClose (session ctx : Nat) (s : State) : Host.Outcome State Fault Refusal :=
  s.fetchWith session ctx 0x03 anyCmd
    (fun c k => if k.p0 < 1 ∨ 15 < k.p0 ∨ !(c.sess session).queues.testBit k.p0 then 0x0102 else 0) noCheck
    fun s k => s.withChip fun c =>
      let busy := (c.sess session).ctx.any fun e => e.1 != ctx && (e.2.phase == .waiting || e.2.phase == .active) && e.2.cmd.queue == k.p0
      if busy || k.queue == k.p0 then c.fail session ctx 0x0106
      else (c.modSess session fun y => { y with queues := maskSet y.queues k.p0 false }).refreshHost.ok session ctx

/-! ### SESSION_RESET, ABORT, SESSION_UNFREEZE (R421, R439, R502) -/

/-- SESSION_RESET ends every other command of its session and completes. -/
def execSessionReset (session ctx : Nat) (s : State) : Host.Outcome State Fault Refusal :=
  s.fetchWith session ctx 0x04 anyCmd noCheck noCheck fun s _ => s.withChip fun c => (c.endCommands session 0x0801 (some ctx)).ok session ctx

/-- ABORT ends one command that is stored or active, by context and tag. -/
def execAbort (session ctx : Nat) (s : State) : Host.Outcome State Fault Refusal :=
  s.fetchWith session ctx 0x05 anyCmd noCheck noCheck fun s k => s.withChip fun c =>
    let t := c.ctxSt session k.p0
    if (t.phase = .active ∨ t.phase = .waiting) ∧ t.cmd.tag = k.p1 then ((c.endCommand session k.p0 0x0803).releaseCtx session k.p0).ok session ctx
    else c.fail session ctx 0x0102

/-- Clears a session's breach counts and the freeze; stored STATUS packets and READY for every range still missing go out (R502). -/
def Chip.unfreezeSession (c : Chip) (n : Nat) : Chip :=
  let c := ((c.wr (F.use_frozen (n - 1)) 0).wr (F.mst_frozen (79 + n)) 0).modSess n fun y => { y with dataBreach := 0, replayBreach := 0, capBreach := 0 }
  let c := (c.sess n).ctx.foldl (fun c e =>
    let k := c.ctxSt n e.1
    let c := if k.held then (c.modCtx n e.1 fun y => { y with held := false }).sendStatus n e.1 else c
    if k.phase = .active ∧ k.wait = .dataOut then (missingRanges k.granted k.got).foldl (fun c r => c.sendReady n e.1 r) c else c) c
  match tabGet c.ev.subs (n - 1) with
  | some sub => c.sendRecords (n - 1) sub sub.acked
  | none => c

/-- The reads of a session that ended while it was frozen are answered (R502). -/
def State.answerHeld (s : State) (n : Nat) : State :=
  let s := (List.range 24).foldl State.answerReads s
  (s.chip.sess n).ctx.foldl (fun s e => s.endRestore n e.1) s

/-- SESSION_UNFREEZE releases a frozen session. -/
def execSessionUnfreeze (session ctx : Nat) (s : State) : Host.Outcome State Fault Refusal :=
  s.fetchWith session ctx 0x08 anyCmd noCheck noCheck fun s k =>
    if !(s.chip.sess k.p0).live then s.withChip fun c => c.fail session ctx 0x0502
    else (if s.chip.sessionFrozen (k.p0 - 1) then (s.withChip fun c => c.unfreezeSession k.p0).answerHeld k.p0 else s).withChip fun c => c.ok session ctx

/-- A session is ended with a CLOSE to its host (R398, R439, R481): its commands first. -/
def Chip.closeSession (c : Chip) (n : Nat) : Chip :=
  if (c.sess n).live then ((c.endCommands n 0x0801 none).sendQcp n 0x3F 0 0 0 0 0 (beBytes 2 0)).endSession n else c

/-- CLOSE names the session it ends: its sender's own, or, from an owner session, any (R398); it is served while the session is frozen too (R502). -/
def execClose (session seq : Nat) (tagOk : Bool) (port peer target : Nat) (s : State) : Host.Outcome State Fault Refusal :=
  let (go, c) := s.chip.accept ⟨session, seq, tagOk, port, peer⟩
  s.nextChip (if go && (target == session || (c.sess session).isOwner) then c.closeSession target else c)

/-! ### PROGRESS, SESSION_LIST, NET_CONFIG -/

/-- The cursor and total of what PROGRESS reports (R441). -/
def Chip.progressData (c : Chip) : List Nat :=
  let done := c.rd F.mossProgress_done
  let total := match c.moss.op with
    | some o => o.2.2
    | none => match c.moss.discards.head? with
      | some d => d.total
      | none => match c.moss.rebuild with
        | some r => r.2.2.2
        | none => 0
  let cursor := match c.moss.op with
    | some o => o.2.1
    | none => match c.moss.discards.head? with
      | some d => d.total - d.sets.length
      | none => match c.moss.rebuild with
        | some r => r.2.2.1
        | none => 0
  [c.rd F.mossProgress_op, 0, 0, 0, 0, 0, 0, 0] ++ beBytes 8 cursor ++ beBytes 8 total ++ beBytes 2 done

def execProgress (session ctx : Nat) (s : State) : Host.Outcome State Fault Refusal :=
  s.fetchWith session ctx 0x06 anyCmd noCheck noCheck fun s _ => s.withChip fun c => c.ok session ctx c.progressData

/-- SESSION_LIST sends an entry per established session. -/
def execSessionList (session ctx : Nat) (s : State) : Host.Outcome State Fault Refusal :=
  s.fetchWith session ctx 0x07 anyCmd noCheck noCheck fun s k => s.answerFree session ctx k s.chip.liveSessions

/-- The data of a NET_CONFIG have arrived: they are stored for a port or for all, and apply at its next link up (R391). -/
def State.netConfigData (s : State) (n x : Nat) : State :=
  let k := (s.chip.ctxSt n x).cmd
  match s.phaseBytes n x 2 with
  | (none, s) => s.withChip fun c => c.fail n x 0x0401
  | (some bs, s) =>
    let ps := if k.cflags.testBit 0 then List.range 8 else [k.p0]
    s.withChip fun c => (c.modHost fun h => { h with net := ps.foldl (fun t p => tabMod t p fun y => { y with data := bs }) h.net }).ok n x

/-- NET_CONFIG. -/
def execNetConfig (session ctx : Nat) (s : State) : Host.Outcome State Fault Refusal :=
  s.fetchWith session ctx 0x09 anyCmd
    (fun c k => if !k.cflags.testBit 0 ∧ (8 ≤ k.p0 ∨ !c.rdb (F.hostPort_exists k.p0)) then 0x0102 else 0) noCheck
    fun s k => s.startPhase session ctx k fun s => s

end Sys2Proof.Machine
end

