-- ==== Sys2Proof/Machine/ObjectCmds.lean ====
section
/-! DEFINITION. Object and frond commands (13_command_reference.md, opcodes 0x20 to 0x3F; R295 to R301, R366, R384, R387, R415 to R426, R478). -/
namespace Sys2Proof.Machine

/-- Why the pool cannot serve a command that needs it (R361): 0 when it can. -/
def Chip.poolCode (c : Chip) : Nat :=
  if c.rdb F.mossStatus_offline then 0x0405 else if !c.rdb F.mossStatus_mounted then 0x0408 else 0

/-- The object a command names: in the catalogue and not discarded. -/
def Chip.liveObj (c : Chip) (i : Nat) : Option ObjRec := (findObj c.cat.objects i).filter fun o => o.state != .discarded

/-- A command fails, or goes on. -/
def State.failOr (s : State) (n x code : Nat) (go : State → State) : State :=
  if code ≠ 0 then s.withChip fun c => c.fail n x code else go s

/-! ### OBJ_CREATE (R295, R298, R300, R302, R474) -/

/-- Checks of OBJ_CREATE in its execution. -/
def Chip.createCode (c : Chip) (k : Cmd) : Nat :=
  let shape := if k.p2.testBit 3 then k.p2 % 8 else 0
  if (c.liveObj k.p0).any fun o => o.state == .opened || o.state == .committed then 0x0501
  else if 2 ^ 40 < k.p1 then 0x0504
  else if !c.shapeOk shape then 0x0507
  else c.poolCode

/-- A new open object in the catalogue, with a random salt. -/
def Chip.createObject (c : Chip) (n : Nat) (k : Cmd) : Chip :=
  let c := if (findObj c.cat.objects k.p0).isSome then c.shelve k.p0 else c
  let r := c.draw
  let poly := k.p2 / 64 % 4
  let o : ObjRec := { (default : ObjRec) with
    id := k.p0, state := .opened, shape := if k.p2.testBit 3 then k.p2 % 8 else 0, level := k.p2 / 16 % 4, declared := k.p1
    salt := r.1 % 2 ^ 128, poly := poly, running := snoopInit poly, stagedRun := snoopInit poly, owner := (c.sess n).cred, session := n }
  (r.2.modCat fun a => { a with objects := a.objects ++ [o] }).logObject k.p0

/-- OBJ_CREATE completes when its catalogue record is durable (R322). -/
def execObjCreate (session ctx : Nat) (s : State) : Host.Outcome State Fault Refusal :=
  s.fetchWith session ctx 0x20 anyCmd (fun _ k => if k.p0 = 0 ∨ 3 ≤ k.p2 / 16 % 4 then 0x0102 else 0) noCheck
    fun s k => s.failOr session ctx (s.chip.createCode k) fun s => s.withChip fun c =>
      let c := c.createObject session k
      (c.modCtx session ctx fun y => { y with wait := .durable [c.catLsn], object := k.p0 }).settle

/-! ### OBJ_PUT (R296 to R300, R387, R422) -/

/-- Checks of OBJ_PUT in its execution. -/
def Chip.putCode (c : Chip) (k : Cmd) : Nat :=
  match c.liveObj k.p0 with
  | none => 0x0502
  | some o =>
    let close := k.cflags.testBit 0
    let closing := (c.putsOf k.p0).any fun e => (c.ctxSt e.1 e.2).cmd.cflags.testBit 0
    if o.state = .void then 0x0505
    else if o.state = .committed ∨ closing ∨ k.p1 ≠ c.nextOffset k.p0 then 0x0503
    else if 2 ^ 40 < k.p1 + k.dlen ∨ (close ∧ o.declared ≠ 0 ∧ k.p1 + k.dlen ≠ o.declared) then 0x0504
    else c.poolCode

/-- The data of a put have arrived: it is taken when the puts before it are (R422). -/
def State.putData (s : State) (n x : Nat) : State :=
  (s.withChip fun c => c.modCtx n x fun y => { y with wait := .activity }).runPuts (s.chip.ctxSt n x).cmd.p0

/-- Blocks that grants give an object until it holds at least `need` more, one grant after another (R305). -/
def grantTotal (first next need : Nat) : Nat := if need ≤ first then first else first + (need - first + next - 1) / next * next

/-- Resources of OBJ_PUT: the grants its blocks need fit the quota of the object's session (R305, R408, R419). -/
def Chip.putRoom (c : Chip) (k : Cmd) : Nat :=
  match findObj c.cat.objects k.p0 with
  | none => 0
  | some o =>
    let has := (o.extents.map (·.blocks)).sum + o.grant.elim 0 fun g => g.last - g.next
    let need := objBlocks (k.p1 + k.dlen) - has
    if c.putCode k ≠ 0 ∨ need = 0 then 0
    else
      let total := grantTotal (c.grantSize o) (c.grantSize { o with declared := 0 }) need
      if c.quotaFits o.session (total * 4096) then 0 else 0x0201

/-- OBJ_PUT: its data phase starts once it has a snoop unit. -/
def execObjPut (session ctx : Nat) (s : State) : Host.Outcome State Fault Refusal :=
  s.fetchWith session ctx 0x21 anyCmd noCheck (fun c k => c.putRoom k)
    fun s k => s.failOr session ctx (s.chip.putCode k) fun s =>
      (s.withChip fun c => c.modCtx session ctx fun y => { y with object := k.p0 }).needUnit session ctx fun s =>
        s.startPhase session ctx k fun s => s.putData session ctx

/-- The requester among contexts that wait for a unit of a die that R34 takes next, by hardware context (R387). -/
def Chip.snoopNext (c : Chip) (e : Nat) : Option (Nat × Nat) :=
  let w := (c.bufSt e).snoopWait.filter fun v => (c.ctxSt v.1 v.2).phase == .active && (c.ctxSt v.1 v.2).wait == .snoop
  (arbitrate 4096 (c.bufSt e).snoopPtr fun h => w.any fun v => (c.ctxSt v.1 v.2).hw == h).bind fun h =>
    w.find? fun v => (c.ctxSt v.1 v.2).hw == h

/-- A unit of a die is free: the next waiting put or get takes it and starts its data phase (R34, R387). -/
def execSnoopUnitAdmit (e : Nat) (s : State) : Host.Outcome State Fault Refusal :=
  match s.chip.freeSnoop e, s.chip.snoopNext e with
  | some _, some v =>
    let k := s.chip.ctxSt v.1 v.2
    let s := s.withChip fun c => (c.modBuf e fun b => { b with
      snoopWait := b.snoopWait.filter (· != v), snoopPtr := arbNext 4096 k.hw }).modCtx v.1 v.2 fun y => { y with wait := .nothing }
    hooked (.next (if k.cmd.opcode = 0x21 then
      s.needUnit v.1 v.2 fun s => s.startPhase v.1 v.2 k.cmd fun s => s.putData v.1 v.2
    else s.fireAction v.1 v.2))
  | _, _ => .next s

/-! ### OBJ_GET, FROND_READ (R301, R314 to R320, R423) -/

/-- Checks of OBJ_GET in its execution. -/
def Chip.getCode (c : Chip) (k : Cmd) : Nat :=
  match c.liveObj k.p0 with
  | none => 0x0502
  | some o =>
    if o.state = .void then 0x0505
    else if o.state = .opened then 0x0506
    else if o.length < k.p1 + k.dlen then 0x0104
    else if (c.readRanges k).any fun e => e.1.inMoss then c.poolCode else 0

/-- OBJ_GET, at once or at its launch. -/
def execObjGet (session ctx : Nat) (s : State) : Host.Outcome State Fault Refusal :=
  s.fetchWith session ctx 0x22 anyCmd noCheck noCheck
    fun s k => (s.withChip fun c => c.modCtx session ctx fun y => { y with object := k.p0 }).launchChecked session ctx k (s.chip.getCode k)

/-- A FROND_READ names whole blocks within the frond (R423). -/
def Chip.frondReadField (c : Chip) (k : Cmd) : Nat :=
  match findFrond c.cat.fronds k.p0 with
  | none => if k.dlen = 0 then 0x0102 else 0
  | some f => if k.dlen = 0 ∨ f.blocks < k.p1 + k.dlen / 4096 then 0x0102 else 0

/-- Checks of FROND_READ in its execution. -/
def Chip.frondReadCode (c : Chip) (k : Cmd) : Nat :=
  match findFrond c.cat.fronds k.p0 with
  | none => 0x0502
  | some f => if f.inMoss then c.poolCode else 0

def execFrondRead (session ctx : Nat) (s : State) : Host.Outcome State Fault Refusal :=
  s.fetchWith session ctx 0x27 anyCmd Chip.frondReadField noCheck
    fun s k => s.launchChecked session ctx k (s.chip.frondReadCode k)

/-! ### Status and lists (R424, R596) -/

/-- Completion data of OBJ_STATUS. -/
def Chip.objStatusData (c : Chip) (o : ObjRec) : List Nat :=
  let fs := (o.extents.map (·.frond)).eraseDups
  let burned := fs.filter fun i => (findFrond c.cat.fronds i).any fun f => f.state == .burned
  [objStateCode o.state, c.objLevel o, 0, 0, 0, 0, 0, 0] ++ beBytes 8 o.length ++ beBytes 4 fs.length ++ beBytes 4 burned.length

def execObjStatus (session ctx : Nat) (s : State) : Host.Outcome State Fault Refusal :=
  s.fetchWith session ctx 0x23 anyCmd noCheck noCheck fun s k => s.withChip fun c =>
    match findObj c.cat.objects k.p0 with
    | some o => c.ok session ctx (c.objStatusData o)
    | none => c.fail session ctx 0x0502

/-- The 16 bytes of a pinna in FROND_STATUS. -/
def pinnaStatusBytes (p : PinnaRec) : List Nat := [pinnaStateCode p.state, p.side, p.layer, 0] ++ beBytes 4 p.port ++ beBytes 8 p.disc

/-- Completion data of FROND_STATUS: 24 entries, those beyond the frond's pinnae zero. -/
def FrondRec.statusData (f : FrondRec) : List Nat :=
  [frondStateCode f.state, f.k, f.m, 0] ++ beBytes 2 f.q ++ [0, 0] ++ beBytes 8 f.t0 ++ padTo 384 ((f.pinnae.take 24).flatMap pinnaStatusBytes)

def execFrondStatus (session ctx : Nat) (s : State) : Host.Outcome State Fault Refusal :=
  s.fetchWith session ctx 0x28 anyCmd noCheck noCheck fun s k => s.withChip fun c =>
    match findFrond c.cat.fronds k.p0 with
    | some f => c.ok session ctx f.statusData
    | none => c.fail session ctx 0x0502

/-- OBJ_LIST: an entry per object from a first identifier on, in rising order. -/
def execObjList (session ctx : Nat) (s : State) : Host.Outcome State Fault Refusal :=
  s.fetchWith session ctx 0x26 anyCmd noCheck noCheck fun s k =>
    s.answerFree session ctx k (((s.chip.cat.objects.filter fun o => decide (k.p0 ≤ o.id) && decide (o.id < 2 ^ 64) && o.state != .discarded).map
      (·.id)).mergeSort (· ≤ ·))

/-! ### OBJ_SEAL (R307) -/

/-- OBJ_SEAL seals the open frond of a shape; it completes when the change is durable (R322). -/
def execObjSeal (session ctx : Nat) (s : State) : Host.Outcome State Fault Refusal :=
  s.fetchWith session ctx 0x24 anyCmd noCheck noCheck fun s k => s.withChip fun c =>
    if 8 ≤ k.p0 ∨ !c.shapeOk k.p0 then c.fail session ctx 0x0507
    else
      match c.frondOpen k.p0 with
      | none => c.ok session ctx
      | some f =>
        let c := c.sealFrond f.id
        (c.modCtx session ctx fun y => { y with wait := .durable [c.catLsn] }).settle

/-! ### OBJ_DISCARD (R365, R366, R425, R478) -/

/-- The frond blocks of an object, as (frond, block). -/
def ObjRec.frondBlocks (o : ObjRec) : List (Nat × Nat) := o.extents.flatMap fun e => (List.range e.blocks).map fun i => (e.frond, e.fblock + i)

/-- The moss-tier addresses of an object's blocks, in fronds that still have their images (R304, R307). -/
def Chip.mossBlocks (c : Chip) (o : ObjRec) (states : FrondState → Bool) : List Nat :=
  o.frondBlocks.filterMap fun b => (findFrond c.cat.fronds b.1).bind fun f => if f.inMoss && states f.state then some (f.mossOf b.2) else none

/-- Granules of which every block is among some addresses (R365). -/
def wholeGranules (as : List Nat) : List Nat :=
  ((as.map (· / 16384)).eraseDups).filter fun g => (List.range 4).all fun i => as.contains (g * 16384 + 4096 * i)

/-- A discard is refused: no such object, or a put or get of it is active (R425). -/
def Chip.discardCode (c : Chip) (n x : Nat) (k : Cmd) : Nat :=
  if (c.liveObj k.p0).isNone then 0x0502
  else if (c.contexts fun y => y.phase == .active && (y.cmd.opcode == 0x21 || y.cmd.opcode == 0x22) && y.object == k.p0).any (· != (n, x)) then 0x0106
  else c.poolCode

/-- The object is discarded in the catalogue. -/
def Chip.markDiscarded (c : Chip) (i : Nat) : Chip := (c.modObj i fun o => { o with state := .discarded, grant := none, part := [] }).logObject i

/-- OBJ_DISCARD without secure: trims granules of fronds whose parity is still to be computed (R365), completes when the record is durable. -/
def execObjDiscard (session ctx : Nat) (s : State) : Host.Outcome State Fault Refusal :=
  s.fetchWith session ctx 0x25 (fun k => !k.cflags.testBit 0) noCheck noCheck
    fun s k => s.failOr session ctx (s.chip.discardCode session ctx k) fun s => s.withChip fun c =>
      let gs := ((c.liveObj k.p0).map fun o => wholeGranules (c.mossBlocks o fun st => st == .opened || st == .sealing)).getD []
      let c := c.markDiscarded k.p0
      let lsn := c.catLsn
      let c := gs.foldl (fun c g => c.trimHint 0 g 1) c
      (c.modCtx session ctx fun y => { y with wait := .durable [lsn] }).settle

/-- The key of an object is destroyed: its identifier and salt enter the discard set (R478). -/
def Chip.destroyKey (c : Chip) (i : Nat) : Chip :=
  match findObj c.cat.objects i with
  | none => c
  | some o => { c with trust := { c.trust with destroyed := c.trust.destroyed ++ [(i, o.salt)] } }

/-- OBJ_DISCARD with secure: the secure discard of R366 over the granules of its blocks; one that holds other blocks too is written again without them. -/
def Chip.secureObject (c : Chip) (n x i : Nat) : Chip :=
  match findObj c.cat.objects i with
  | none => c
  | some o =>
    let as := c.mossBlocks o fun _ => true
    let whole := wholeGranules as
    let part := ((as.map (· / 16384)).eraseDups).filter fun g => !whole.contains g
    let kept := part.filterMap fun g => (c.readGranule 0 g).map fun old =>
      (g, (as.filter fun a => a / 16384 == g).foldl (fun b a => patchBytes b (a % 16384) zeroSector) old)
    let c := (c.markDiscarded i).destroyKey i
    c.beginDiscard { (default : SecureDiscard) with
      opId := c.moss.opNext, ranges := (whole ++ part).map fun g => (0, g, 1), cmd := some (n, x), object := i } kept

def execObjDiscardSecure (session ctx : Nat) (s : State) : Host.Outcome State Fault Refusal :=
  s.fetchWith session ctx 0x25 (fun k => k.cflags.testBit 0) noCheck noCheck
    fun s k => s.failOr session ctx (s.chip.discardCode session ctx k) fun s => s.withChip fun c =>
      ((c.modCtx session ctx fun y => { y with wait := .activity }).secureObject session ctx k.p0).settle

/-! ### OVERBURN (R426) -/

/-- OVERBURN is refused: no such frond, an object of it not discarded, a drive without burn_ok that holds a disc of it. -/
def Chip.overburnCode (c : Chip) (k : Cmd) : Nat :=
  match findFrond c.cat.fronds k.p0 with
  | none => 0x0502
  | some f =>
    if (c.frondExtents f.id).any fun e => e.1.state != .discarded then 0x0102
    else if (List.range 24).any fun d => !c.rdb (F.hlinkStatus_burn_ok d) &&
        f.pinnae.any fun p => p.firstPsa != [] && c.loadedDisc d == some (p.disc, p.side) then 0x0601
    else 0

def execOverburn (session ctx : Nat) (s : State) : Host.Outcome State Fault Refusal :=
  s.fetchWith session ctx 0x29 anyCmd noCheck noCheck
    fun s k => s.failOr session ctx (s.chip.overburnCode k) fun s => s.withChip fun c =>
      let ps := ((findFrond c.cat.fronds k.p0).elim [] fun f => f.pinnae.zipIdx.filter fun e => e.1.firstPsa != []).map (·.2)
      if ps = [] then c.ok session ctx
      else
        let c := c.modCtx session ctx fun y => { y with wait := .activity }
        { c with svc := { c.svc with overburns := c.svc.overburns ++ [(session, ctx, k.p0, ps)] } }.queueOvers

end Sys2Proof.Machine
end

