-- ==== Sys2Proof/Machine/BedCmds.lean ====
section
/-! DEFINITION. Bed namespace commands (13_command_reference.md, opcodes 0x40 to 0x5F; R337 to R340, R365, R366, R427 to R431). -/
namespace Sys2Proof.Machine

/-! ### Namespaces (R337, R338, R408) -/

def Chip.ns (c : Chip) (i : Nat) : NsRec := tabGet c.moss.ns i

/-- NAMESPACE record (R348). -/
def Chip.logNs (c : Chip) (i : Nat) (active : Bool) : Chip := c.record 0x0D ([i, active.toNat, 0, 0, 0, 0, 0, 0] ++ beBytes 8 (c.ns i).size)

/-- Resources of NS_CREATE: the sum of sizes within L, the quota (R338, R408); they are the mounted pool's, which R512 asks for. -/
def Chip.nsRoom (c : Chip) (n : Nat) (k : Cmd) : Nat :=
  let sum := (c.moss.ns.map fun e => if e.2.active then e.2.size else 0).sum
  if !c.rdb F.mossStatus_mounted then 0 else if c.logicalGranules < sum + k.p1 then 0x0203 else if !c.quotaFits n (k.p1 * 16384) then 0x0201 else 0

/-- NS_CREATE completes when its record is durable. -/
def execNsCreate (session ctx : Nat) (s : State) : Host.Outcome State Fault Refusal :=
  s.fetchWith session ctx 0x40 anyCmd (fun _ k => if 60 ≤ k.p0 then 0x0102 else 0) (fun c k => c.nsRoom session k)
    fun s k => s.failOr session ctx (if k.p0 = 0 ∨ (s.chip.ns k.p0).active then 0x0508 else s.chip.poolCode) fun s => s.withChip fun c =>
      let c := c.modMoss fun m => { m with ns := tabSet m.ns k.p0 ⟨true, k.p1, session⟩ }
      let c := c.logNs k.p0 true
      ((c.modCtx session ctx fun y => { y with wait := .durable [c.lastLsn] }).refreshHost).settle

/-- NS_LIST: an entry per active namespace, in rising order. -/
def execNsList (session ctx : Nat) (s : State) : Host.Outcome State Fault Refusal :=
  s.fetchWith session ctx 0x46 anyCmd noCheck noCheck fun s k =>
    s.answerFree session ctx k ((s.chip.moss.ns.filter fun e => e.2.active).map (·.1))

/-! ### Order (R429) -/

/-- The namespace of a bed command and the blocks it covers; NS_DELETE covers every block. -/
def Cmd.bedRange (k : Cmd) : Nat × Nat × Nat :=
  if k.opcode = 0x41 then (k.p0, 0, 2 ^ 64) else if k.opcode = 0x44 then (k.p0, k.p1, k.p1 + k.p2) else (k.p0, k.p1, k.p1 + k.dlen / 4096)

def Cmd.isBed (k : Cmd) : Bool := ([0x41, 0x42, 0x43, 0x44] : List Nat).contains k.opcode

/-- Two bed commands overlap: the same namespace and ranges that meet; NS_DELETE overlaps every command of its namespace (R429). -/
def Cmd.overlaps (a b : Cmd) : Bool :=
  a.isBed && b.isBed && a.p0 == b.p0 &&
    (a.opcode == 0x41 || b.opcode == 0x41 || (decide (a.bedRange.2.1 < b.bedRange.2.2) && decide (b.bedRange.2.1 < a.bedRange.2.2)))

/-- A command's effect point is held by no earlier-parsed overlapping command that has neither reached its own nor failed (R429). -/
def Chip.effectFree (c : Chip) (n x : Nat) : Bool :=
  let k := c.ctxSt n x
  (c.contexts fun y => y.phase == .active && !y.effect && decide (y.parse < k.parse) && y.cmd.overlaps k.cmd) == []

/-- What a bed command of a namespace is refused with: reserved, absent or being deleted by an earlier command, out of range (R322, R428). -/
def Chip.bedCode (c : Chip) (k : Cmd) : Nat :=
  let ns := c.ns k.p0
  let r := k.bedRange
  if k.p0 = 0 then 0x0508
  else if !ns.active || (c.contexts fun y => y.phase == .active && y.cmd.opcode == 0x41 && y.cmd.p0 == k.p0 && decide (y.wait = .effect)) != [] then 0x0502
  else if k.opcode ≠ 0x41 ∧ 4 * ns.size < r.2.2 then 0x0104 else 0

/-- A bed command waits for its effect point. -/
def State.waitEffect (s : State) (n x : Nat) : State := s.withChip fun c => c.modCtx n x fun y => { y with wait := .effect }

/-- BED_READ. -/
def execBedRead (session ctx : Nat) (s : State) : Host.Outcome State Fault Refusal :=
  s.fetchWith session ctx 0x42 anyCmd Chip.bedCode noCheck fun s _ => s.failOr session ctx s.chip.poolCode fun s => s.waitEffect session ctx

/-- BED_WRITE: its data phase does not wait (R429). -/
def execBedWrite (session ctx : Nat) (s : State) : Host.Outcome State Fault Refusal :=
  s.fetchWith session ctx 0x43 anyCmd Chip.bedCode noCheck
    fun s k => s.failOr session ctx s.chip.poolCode fun s => s.startPhase session ctx k fun s => s.waitEffect session ctx

/-- BED_TRIM. -/
def execBedTrim (session ctx : Nat) (s : State) : Host.Outcome State Fault Refusal :=
  s.fetchWith session ctx 0x44 anyCmd Chip.bedCode noCheck fun s _ => s.failOr session ctx s.chip.poolCode fun s => s.waitEffect session ctx

/-- NS_DELETE, without and with secure. -/
def execNsDelete (session ctx : Nat) (s : State) : Host.Outcome State Fault Refusal :=
  s.fetchWith session ctx 0x41 (fun k => !k.cflags.testBit 0) Chip.bedCode noCheck
    fun s _ => s.failOr session ctx s.chip.poolCode fun s => s.waitEffect session ctx

def execNsDeleteSecure (session ctx : Nat) (s : State) : Host.Outcome State Fault Refusal :=
  s.fetchWith session ctx 0x41 (fun k => k.cflags.testBit 0) Chip.bedCode noCheck
    fun s _ => s.failOr session ctx s.chip.poolCode fun s => s.waitEffect session ctx

/-! ### Effect points (R427 to R430) -/

/-- The effect of a read: its blocks are captured and sent; a lost granule fails it (R340, R429). -/
def State.bedReadEffect (s : State) (n x : Nat) (k : Cmd) : State :=
  match s.chip.readSpace (k.p0 + 1) (4096 * k.p1) k.dlen with
  | some bs => (s.withChip fun c => c.lookUp (k.p0 + 1) (4096 * k.p1) k.dlen).answer n x bs []
  | none => s.withChip fun c => c.fail n x 0x0402

/-- The effect of a write: its blocks become the visible content, all at once; with early it completes at RECEIVED, otherwise when durable
(R427, R429). -/
def State.bedWriteEffect (s : State) (n x : Nat) (k : Cmd) : State :=
  match s.phaseBytes n x 3 with
  | (none, s) => s.withChip fun c => c.fail n x 0x0401
  | (some bs, s) => s.withChip fun c =>
    let r := c.writeSpace 1 (k.p0 + 1) (4096 * k.p1) bs
    if k.cflags.testBit 0 then r.2.ok n x else r.2.modCtx n x fun y => { y with wait := .durable r.1 }

/-- The effect of a trim: map entries of the granules it covers entirely are marked (R365, R427). -/
def Chip.bedTrimEffect (c : Chip) (n x : Nat) (k : Cmd) : Chip :=
  let g0 := (k.p1 + 3) / 4
  let g1 := (k.p1 + k.p2) / 4
  (if g0 < g1 then c.trimHint (k.p0 + 1) g0 (g1 - g0) else c).ok n x

/-- The effect of NS_DELETE: the namespace is gone; with secure its space is discarded before the command completes (R366, R428). -/
def Chip.nsDeleteEffect (c : Chip) (n x : Nat) (k : Cmd) : Chip :=
  let size := (c.ns k.p0).size
  let c := (c.logNs k.p0 false).modMoss fun m => { m with ns := tabMod m.ns k.p0 fun r => { r with active := false, creator := 0 } }
  let lsn := c.lastLsn
  if k.cflags.testBit 0 then
    (c.modCtx n x fun y => { y with wait := .activity }).beginDiscard { (default : SecureDiscard) with
      opId := c.moss.opNext, ranges := [(k.p0 + 1, 0, size)], cmd := some (n, x) } []
  else (c.trimGranules (k.p0 + 1) 0 size).modCtx n x fun y => { y with wait := .durable [lsn] }

/-- A bed command reaches its effect point. -/
def execBedEffectPoint (session ctx : Nat) (s : State) : Host.Outcome State Fault Refusal :=
  let y := s.chip.ctxSt session ctx
  if y.phase ≠ .active ∨ y.wait ≠ .effect ∨ !y.cmd.isBed ∨ !s.chip.effectFree session ctx ∨ s.chip.sessionFrozen (session - 1) then .next s
  else
    let k := y.cmd
    let s := s.withChip fun c => c.modCtx session ctx fun y => { y with effect := true }
    let s := s.failOr session ctx s.chip.poolCode fun s =>
      if k.opcode = 0x42 then s.bedReadEffect session ctx k
      else if k.opcode = 0x43 then s.bedWriteEffect session ctx k
      else if k.opcode = 0x44 then s.withChip fun c => c.bedTrimEffect session ctx k
      else s.withChip fun c => c.nsDeleteEffect session ctx k
    s.nextChip s.chip.settle

/-! ### FLUSH (R431) -/

/-- What a FLUSH waits for: the granule writes of acknowledged bed writes, those no command waits for, and the puts acknowledged at RECEIVED. -/
def Chip.flushLsns (c : Chip) : List Nat :=
  let waited := (c.contexts fun y => y.phase == .active).flatMap fun e => match (c.ctxSt e.1 e.2).wait with
    | .durable ls => ls
    | _ => []
  let bed := (c.moss.writes.filter fun w => decide (1 ≤ w.space) && decide (w.space ≤ 60) && !waited.contains w.lsn).map (·.lsn)
  let puts := (c.cat.objects.filter fun o => o.level == 0).flatMap fun o => o.waits.map (·.1)
  ((bed ++ puts).filter fun l => !c.allDurable [l]).eraseDups

def execFlush (session ctx : Nat) (s : State) : Host.Outcome State Fault Refusal :=
  s.fetchWith session ctx 0x45 anyCmd noCheck noCheck fun s _ => s.withChip fun c =>
    let ls := c.flushLsns
    let c := (c.modCtx session ctx fun y => { y with wait := .durable ls }).settle
    if c.rdb F.mossStatus_offline && ls != [] then c.flushOffline else c

end Sys2Proof.Machine
end

