-- ==== Sys2Proof/Machine/Chain.lean ====
section
/-! DEFINITION. The address chain: tokens, enumeration, hop delay, heartbeat and breaks (R39 to R51). -/
namespace Sys2Proof.Machine

def Chip.modChain (c : Chip) (f : ChainSt → ChainSt) : Chip := { c with chain := f c.chain }

/-- The 30 bits of a token (R41): start 0, type, value, reserved, crc over type, value and reserved, stop 1. -/
def tokenBits (type value : Nat) : Nat :=
  let body := type % 16 * 2 ^ 16 + value % 2048 * 2 ^ 5
  body * 2 ^ 9 + crc8 (beBits 20 body) * 2 + 1

/-- A token's type and value, when its crc holds and its stop bit is 1 (R41, R42). -/
def readToken (w : Nat) : Option (Nat × Nat) :=
  let body := w / 2 ^ 9 % 2 ^ 20
  if w % 2 = 1 ∧ w / 2 ^ 29 % 2 = 0 ∧ w / 2 % 256 = crc8 (beBits 20 body) then some (body / 2 ^ 16, body / 2 ^ 5 % 2048) else none

/-- A valid token ends a break of the chain (R49). -/
def Chip.tokenHeard (c : Chip) : Chip := c.wr F.chain_chain_lost 0

/-- A package takes an address: it stays latched, and a change is reported with the old and new values (R43, R46, R51). -/
def Chip.takeAddress (c : Chip) (a : Nat) : Chip :=
  let c := (c.wr F.chain_sys_addr a).wr F.chain_addr_valid 1
  let c := match c.chain.oldAddr with
    | some o => if o = a then c else c.raisePkg 3 (beBytes 2 o ++ beBytes 2 a)
    | none => c
  c.modChain fun k => { k with oldAddr := some a }

/-- Measures the hop downstream and forwards the own address (R43, R45). The probe is the edge on SKY_TICK_OUT alone: no token of type 0x3 is sent, since R45
names none (DESIGN CHOICE, notes/assumptions/74.md). -/
def Chip.forwardAddress (c : Chip) : Chip :=
  let c := (c.emit .probe).modChain fun k => { k with probeAt := some c.now }
  c.emit (.token (tokenBits 1 (c.rd F.chain_sys_addr)))

/-- ADDR_IN low without a transition for 2 ms: the head takes address 0 and begins the enumeration (R40, R43). -/
def execHeadStrapDetect (s : State) : Host.Outcome State Fault Refusal :=
  let c := s.chip
  s.nextChip (if c.rdb F.chain_head then c
    else
      let c := (c.wr F.chain_head 1).wr F.chain_hop_delay 0
      if c.rdb F.chain_addr_valid then c else (c.takeAddress 0).forwardAddress)

/-- A package without a latched address, other than the head, receives an address value: 1023 and 1024 are overflow (R43, R44). So is any higher value, to
which R41 gives no meaning (DESIGN CHOICE, notes/assumptions/74.md). -/
def Chip.addressValue (c : Chip) (v : Nat) : Chip :=
  if 1023 ≤ v then ((c.wr F.chain_overflow 1).raisePkg 0 (beBytes 2 v)).emit (.token (tokenBits 1 1024))
  else ((c.takeAddress (v + 1)).wr F.chain_overflow 0).forwardAddress

/-- ADDRESS_TOKEN: a token ends on ADDR_IN. A valid one of another type, a delay probe token among them, only ends a break (R41, R42, R49;
notes/assumptions/74.md). -/
def execAddressToken (w : Nat) (s : State) : Host.Outcome State Fault Refusal :=
  let c := s.chip
  match readToken w with
  | some (1, v) =>
    let c := c.tokenHeard
    s.nextChip (if c.rdb F.chain_addr_valid then
        if v + 1 = c.rd F.chain_sys_addr then c
        else (c.wr F.chain_mismatch 1).raisePkg 1 (beBytes 2 (c.rd F.chain_sys_addr) ++ beBytes 2 (v + 1))
      else if c.rdb F.chain_head then c else c.addressValue v)
  | some _ => s.nextChip s.chip.tokenHeard
  | none => .next s

/-- Clears the latched address and the hop delay and forwards the re-enumerate token (R50). The old address is kept to be reported (R51). -/
def Chip.reEnumerate (c : Chip) : Chip :=
  let old := if c.rdb F.chain_addr_valid then some (c.rd F.chain_sys_addr) else c.chain.oldAddr
  let c := ((c.wr F.chain_sys_addr 0).wr F.chain_addr_valid 0).wr F.chain_hop_delay 0
  (c.modChain fun k => { k with oldAddr := old, hasHop := false, probeAt := none }).tickDenied.emit (.token (tokenBits 2 0))

def execReEnumerateToken (w : Nat) (s : State) : Host.Outcome State Fault Refusal :=
  match readToken w with
  | some (2, _) => s.nextChip s.chip.tokenHeard.reEnumerate
  | _ => .next s

/-- A probe edge arrives while no hop delay is held: it is returned after the fixed turnaround (R45, R452). -/
def execDelayProbeEcho (s : State) : Host.Outcome State Fault Refusal :=
  s.nextChip (if s.chip.chain.hasHop || s.chip.rdb F.chain_head then s.chip else s.chip.emit .probeEcho)

/-- The probe returns after a round trip in 0.25 ns: hop delay = (round trip − 100 ns) / 2, sent downstream (R45, R594). -/
def execDelayProbeReturn (roundTrip : Nat) (s : State) : Host.Outcome State Fault Refusal :=
  let c := s.chip
  s.nextChip (match c.chain.probeAt with
    | some _ =>
      let d := (roundDiv ((roundTrip : Int) - 400) 2).toNat
      (c.modChain fun k => { k with probeAt := none }).emit (.token (tokenBits 4 d))
    | none => c)

/-- A hop-delay token: its value is stored, with its lichen entry (R45, R533). -/
def execHopDelayToken (w : Nat) (s : State) : Host.Outcome State Fault Refusal :=
  match readToken w with
  | some (4, v) =>
    let c := s.chip.tokenHeard
    let c := (c.wr F.chain_hop_delay v).modChain fun k => { k with hasHop := true }
    s.nextChip (c.lichenWrite 0x0402 packagePath (beBytes 2 v))
  | _ => .next s

/-- Every 100 ms a package with an address sends its token (R47). -/
def execAddressHeartbeat (s : State) : Host.Outcome State Fault Refusal :=
  let c := s.chip
  s.nextChip (if c.rdb F.chain_addr_valid then c.emit (.token (tokenBits 1 (c.rd F.chain_sys_addr)))
    else c)

/-- 350 ms without a valid token: the chain is lost; the address stays (R49). -/
def execChainLost (s : State) : Host.Outcome State Fault Refusal :=
  let c := s.chip
  s.nextChip (if c.rdb F.chain_chain_lost then c else (c.wr F.chain_chain_lost 1).raisePkg 2 [])

end Sys2Proof.Machine
end

