-- ==== Sys2Proof/Machine/Registers.lean ====
section
/-! DEFINITION. Management accesses: addresses, words, latches, access codes and what a write starts (R15 to R17, R435, R574 to R582, R589,
R595). -/
namespace Sys2Proof.Machine

/-! ### Addresses (R15 to R17, R574, R575) -/

/-- Whether an address is accepted (R16, R17). -/
def addressOk (a : Nat) : Bool :=
  let slot := a / 2 ^ 23 % 8
  let unit := a / 2 ^ 20 % 8
  if a / 2 ^ 28 = 5 then true
  else if a / 2 ^ 28 = 4 then
    decide (slot ≤ 5) || (slot == 6 && unit == 7) || (slot == 7 && unit == 7 && a / 2 ^ 26 % 2 == 0)
  else false

/-- Port, region and die of a die-resident address (R15). -/
def addrPort (a : Nat) : Nat := a / 2 ^ 27 % 2 * 12 + a / 2 ^ 26 % 2 * 6 + a / 2 ^ 23 % 8
def addrRegion (a : Nat) : Nat := a / 2 ^ 27 % 2 * 2 + a / 2 ^ 26 % 2
def addrDie (a : Nat) : Nat := a / 2 ^ 27 % 2

/-- The registers of the block an address lies in, and the block's base. -/
def regBlock (a : Nat) : Nat × List RegDef :=
  if a / 2 ^ 28 = 5 then (0x50000000, pkgRegs)
  else
    let base := a / 2 ^ 20 * 2 ^ 20
    let slot := a / 2 ^ 23 % 8
    let unit := a / 2 ^ 20 % 8
    let d := addrPort a
    (base,
      if slot = 6 then rcomRegs (addrRegion a) else if slot = 7 then dcomRegs (addrDie a)
      else if unit < 4 then unitRegs (4 * d + unit) else if unit = 4 then srvRegs d else if unit = 5 then spinRegs d
      else if unit = 6 then axesRegs d else ccomRegs d)

/-- A register: its address, its number in its array, its words and fields. -/
structure RegRef where
  addr : Nat
  index : Nat
  words : Nat
  fields : List FieldDef

/-- The register an address falls in (R574); none where the offset holds no register (R575). -/
def findReg (a : Nat) : Option RegRef :=
  let b := regBlock a
  let off := a - b.1
  let hit (r : RegDef) : Bool :=
    decide (r.off ≤ off) && decide ((off - r.off) / r.stride < r.count) && decide ((off - r.off) % r.stride < 4 * r.words)
  (b.2.find? hit).map fun r =>
    let j := (off - r.off) / r.stride
    ⟨b.1 + r.off + j * r.stride, j, r.words, r.fields j⟩

/-! ### Values -/

/-- Time left in the open presence window in ms; 0 when none (pkg.trust.window). -/
def Chip.windowLeft (c : Chip) : Nat :=
  if c.rdb F.trust_window_open then ((c.trust.released.map fun t => t + 120 * 10 ^ 9 - c.keeper).getD 0) / 10 ^ 6 else 0

/-- The trim that a die's `cal.sel` names (R531). -/
def Chip.selTrim (c : Chip) (e : Nat) : TrimRec := tabGet (tabGet c.boot e).trims (c.rd (F.calSel_id e) * 256 + c.rd (F.calSel_inst e))

/-- A port that R511 still waits for: enabled, not retired, not UP, without a counted training failure, and not in SEEK for 600 ms. -/
def Chip.portOpen (c : Chip) (d : Nat) : Bool :=
  c.rdb (F.hlinkCtrl_enable d) && !(c.rd F.svcRetired_retired).testBit d && !c.portUp d && !(c.linkSt d).failed &&
    !(c.rd (F.hlinkStatus_state d) == 1 && decide ((c.linkSt d).seekAt + 600 * 10 ^ 6 ≤ c.now)) && !(c.dieSt (portDie d)).out

/-- The steps of power-up not yet complete, bit n for step n + 1 (pkg.boot.progress, R509, R511, R513). -/
def Chip.openSteps (c : Chip) : Nat :=
  let dies := [0, 1].filter fun e => !(c.dieSt e).out
  if !c.power.running then 0
  else
    ([(1, c.power.testMode || c.mgmt.recovery), (2, !c.rdb F.chain_addr_valid), (3, dies.any fun e => !c.rdb (F.calStatus_done e)),
      (4, dies.any fun e => !(tabGet c.boot e).trained), (5, !(c.rdb F.mossStatus_mounted || c.power.mountTried)),
      (6, decide (c.rd F.bootProgress_step < 7) || (List.range 24).any c.portOpen), (7, !c.power.haze)] : List (Nat × Bool)).foldl
        (fun m (b : Nat × Bool) => if b.2 then m + 2 ^ b.1 else m) 0

/-- The value a field reads as: fields that report a counter or a selection show it, a write-only field reads as zero. -/
def Chip.fieldValue (c : Chip) (f : FieldDef) : Nat :=
  if f.access = .wo then 0
  else if f.fld = F.skyNow_ns then c.sky_ % 2 ^ 64
  else if f.fld = F.trustWindow_remaining then c.windowLeft % 2 ^ 17
  else if f.fld.addr = (F.calVal_applied 0).addr ∨ f.fld.addr = (F.calVal_applied 1).addr then
    let t := c.selTrim (addrDie f.fld.addr)
    if f.fld.lsb = 0 then t.applied % 256 else if f.fld.lsb = 8 then t.measured % 256
    else if f.fld.lsb = 16 then unsigned 12 (roundDiv (t.delta * 64) 100) else t.source % 4
  else if f.fld = F.bootProgress_open then c.openSteps
  else c.rd f.fld

/-- A register's bits (R11, R13): reserved bits read as zero. The recovery block reads as zero outside recovery (R582). -/
def Chip.regValue (c : Chip) (r : RegRef) : Nat :=
  if (r.addr = F.rcvCtrl_slot.addr ∨ r.addr = F.rcvData_data.addr) ∧ !c.mgmt.recovery then 0
  else (r.fields.map fun f => c.fieldValue f * 2 ^ f.fld.lsb).sum

/-- Word `i` of a register's bits. -/
def wordOf (v i : Nat) : Nat := v / 2 ^ (32 * i) % 2 ^ 32

/-- A field lies in whole or in part in word `i` of its register. -/
def fieldInWord (f : Fld) (i : Nat) : Bool := decide (f.lsb / 32 ≤ i) && decide (i ≤ (f.lsb + f.width - 1) / 32)

/-! ### Reads (R435, R576, R577) -/

/-- Latches the words above the lowest one for the next read of each by a requester (R576). -/
def Chip.latchHigh (c : Chip) (req : Nat) (r : RegRef) (v : Nat) : Chip :=
  let new := (List.range (r.words - 1)).map fun i => (⟨req, r.addr + 4 * (i + 1), [wordOf v (i + 1)]⟩ : WordLatch)
  let old := c.mgmt.latches.filter fun l => !(l.requester == req && new.any fun k => k.addr == l.addr)
  { c with mgmt := { c.mgmt with latches := old ++ new } }

/-- RC fields of a word clear (R577). -/
def Chip.clearRead (c : Chip) (r : RegRef) (i : Nat) : Chip :=
  r.fields.foldl (fun c f => if f.access = .rc ∧ fieldInWord f.fld i then c.wr f.fld 0 else c) c

/-- The die whose snoop block holds a register, when it is `cfg` (at 0) or `run` (at 8) of a unit. -/
def snoopDie (r : RegRef) (off : Nat) : Option Nat :=
  (List.range 2).find? fun e => r.addr == (F.snoopCfg_en e r.index).addr + off && decide (r.index < 16)

/-- A read of a snoop unit's `run` latches its count (R386). -/
def Chip.latchCount (c : Chip) (r : RegRef) : Chip :=
  match snoopDie r 8 with
  | some e => c.wr (F.snoopCount_count e r.index) (tabGet (c.bufSt e).snoopCount r.index)
  | none => c

/-- A read of the low word of `pkg.sky.now` latches the fraction into `pkg.sky.frac`. -/
def Chip.latchFrac (c : Chip) (r : RegRef) : Chip :=
  if r.addr = F.skyNow_ns.addr then c.wr F.skyFrac_frac (((c.skyUnits c.servingDie).toNat / 2 ^ 32) % 2 ^ 16) else c

/-- Reads one word of an access to `[start, stop)` by a requester: sampled with its register where the access covers it whole, the lowest word
alone latches the others, a latched word is given once. `c0` is the chip as the access began; `clear` is set for REG_READ. -/
def Chip.readWord (c0 c : Chip) (req start stop : Nat) (clear : Bool) (a : Nat) : Nat × Chip :=
  match findReg a with
  | none => (0, c)
  | some r =>
    let i := (a - r.addr) / 4
    let v := if r.addr = F.skyFrac_frac.addr then c.regValue r else c0.regValue r
    let latched := c.mgmt.latches.find? fun l => l.requester == req && l.addr == a
    let (w, c) : Nat × Chip :=
      if i = 0 then (wordOf v 0, let c := (c.latchCount r).latchFrac r
        if a + 4 * r.words ≤ stop then c else c.latchHigh req r v)
      else if start ≤ r.addr then (wordOf v i, c)
      else match latched with
        | some l => (l.words.headD 0, { c with mgmt := { c.mgmt with latches := c.mgmt.latches.filter (· != l) } })
        | none => (wordOf v i, c.latchCount r)
    (w, if clear then c.clearRead r i else c)

/-- Reads words from an address (R435). -/
def Chip.readWords (c0 : Chip) (req start n : Nat) (clear : Bool) : List Nat × Chip :=
  (List.range n).foldl (fun (x : List Nat × Chip) i =>
    let r := c0.readWord x.2 req start (start + 4 * n) clear (start + 4 * i)
    (x.1 ++ [r.1], r.2)) ([], c0)

/-- The first word of a register by an address of it, without side effects. -/
def Chip.word (c : Chip) (a : Nat) : Nat := (findReg a).elim 0 fun r => wordOf (c.regValue r) ((a - r.addr) / 4)

/-! ### Writes (R435, R581, R589, R595) -/

/-- What a written value is stored as. -/
def Stored.value (c : Chip) : Stored → Nat → Nat
  | .any, v => v
  | .clamp lo hi, v => max lo (min hi v)
  | .zeroAs d, v => if v = 0 then d else v
  | .atLeast f hi, v => max (c.rd f) (min hi v)

/-- Which fields an access may write: all, or W1C fields only (R581). -/
inductive WriteKind where
  | all | latches
deriving DecidableEq, Repr

/-- A field that a write does not store itself: snoop running values act as R386 says, reserved events ignore writes (R589), the recovery block
is written in recovery only (R582). -/
def writeSkips (r : RegRef) (f : Fld) : Bool :=
  let u : Nat := (f.addr - (F.snoopRun_run 0 0).addr) / 32
  let u1 : Nat := (f.addr - (F.snoopRun_run 1 0).addr) / 32
  f == F.snoopRun_run 0 u || f == F.snoopRun_run 1 u1 || (f.addr == (F.evCfg_en r.index).addr && !eventDefined r.index) ||
    (f.addr == F.rcvCtrl_slot.addr) || (f.addr == F.rcvData_data.addr)

/-- A register that takes no write: the configuration of a snoop unit that the object engine holds (R384, `dieN.dcom.snoop[u].cfg`). -/
def Chip.regHeld (c : Chip) (r : RegRef) : Bool :=
  match snoopDie r 0 with
  | some e => c.rdb (F.snoopCfg_engine e r.index)
  | none => false

/-- Stores written words into a register's fields: W1C bits written 1 clear, RO and RC fields and reserved bits ignore the write. `ws` gives
the written words by number. -/
def Chip.storeReg (c : Chip) (kind : WriteKind) (r : RegRef) (ws : List (Nat × Nat)) : Chip :=
  let val := (ws.map fun w => w.2 % 2 ^ 32 * 2 ^ (32 * w.1)).sum
  r.fields.foldl (fun c f =>
    if !(ws.any fun w => fieldInWord f.fld w.1) || writeSkips r f.fld || c.regHeld r then c
    else
      let put := val / 2 ^ f.fld.lsb % 2 ^ f.fld.width
      let old := c.rd f.fld
      match f.access with
      | .w1c => c.wr f.fld (old - (old &&& put))
      | .rw | .wo =>
        if kind = .latches then c
        else
          let kept := (List.range r.words).filter fun i => fieldInWord f.fld i && !(ws.any fun w => w.1 == i)
          let keep := (kept.map fun i => wordOf (old * 2 ^ f.fld.lsb) i * 2 ^ (32 * i)).sum / 2 ^ f.fld.lsb
          c.wr f.fld (f.stored.value c (put + keep))
      | .ro | .rc => c) c

/-- The state after a meaning; what stops leaves it. -/
def State.after (s : State) (m : State → Host.Outcome State Fault Refusal) : State :=
  match m s with
  | .next t => t
  | _ => s

/-- An order given through a request register of the servo engine, the spindle or an axis. -/
def State.requestWritten (s : State) (a : Nat) : State :=
  let c := s.chip
  let d := addrPort a
  let unit := a / 2 ^ 20 % 8
  if unit = 4 then
    let layer := c.rd (F.srvReq_layer d)
    match c.rd (F.srvReq_op d) with
    | 1 => s.after (execSrvAcquire d layer)
    | 2 => s.after (execSrvSeek d (c.rd (F.srvReq_band d)))
    | 3 => s.after (execSrvLayerJump d layer)
    | 4 => s.after (execSrvRetract d)
    | 5 => s.after (execSrvPassOffset d (c.rd (F.srvReq_k d)))
    | 6 => s.after (execSrvCalibrateGains d)
    | _ => s
  else if unit = 5 then
    match c.rd (F.spinReq_op d) with
    | 1 => s.after (execSpindleStart d (c.rd (F.spinReq_target d)))
    | 2 => s.after (execSpindleStop d)
    | 3 => s.after (execSpindleSetSpeed d (c.rd (F.spinReq_target d)))
    | 4 => s.after (execSpindlePark d)
    | _ => s
  else
    let x := a / 0x100 % 2
    let start := c.rd (F.axisReq_start d x)
    let target := c.rdi (F.axisReq_target d x)
    match c.rd (F.axisReq_op d x) with
    | 1 => s.after (execAxisMoveTo d x target start)
    | 2 => s.after (execAxisMoveBy d x target start)
    | 3 => s.after (execAxisHome d x start)
    | 4 => if x = 0 then s.after (execAxisPark d) else s
    | 5 => s.after (execAxisEmergencyStop d x)
    | 6 => s.after (execAxisDisarm d x)
    | _ => s

/-- What a write to a register of a port starts: requests, the values a calibration may change (R257), `srv.ctrl.commit`, the trace, `hlink.ctrl`, `burn.q`. -/
def State.portWritten (s0 s : State) (a : Nat) (ws : List (Nat × Nat)) : State :=
  let c := s.chip
  let d := addrPort a
  let unit := a / 2 ^ 20 % 8
  let off := a % 2 ^ 20
  let low := ws.any fun w => w.1 == 0
  let bit (n : Nat) : Bool := ws.any fun w => w.1 == 0 && w.2.testBit n
  if unit < 4 ∧ off = 0x100 then s.withChip fun c => c.wr (F.tim_valid (4 * d + unit)) 1
  else if unit < 4 ∧ off = 0x104 then s.withChip fun c => c.wr (F.vtim_valid (4 * d + unit)) 1
  else if (unit = 4 ∧ off = 0) ∨ (unit = 5 ∧ off = 0) ∨ (unit = 6 ∧ (off = 0 ∨ off = 0x100) ∧ low) then s.requestWritten a
  else if unit = 4 ∧ (calFields d).any (fun f => f.addr % 2 ^ 20 == off) then
    s.withChip fun c => c.noteLoaded d fun f => f.addr % 2 ^ 20 == off && ws.any fun w => fieldInWord f w.1
  else if unit = 4 ∧ off = 4 then (if bit 4 then s.after (execSrvCommit d) else s)
  else if unit = 4 ∧ off = 0x2000 then
    let s := if bit 1 then s.after (execTraceFreeze d) else s
    if bit 2 then s.after (execTraceRearm d) else s
  else if unit = 7 ∧ off = 0 then
    let en := c.rdb (F.hlinkCtrl_enable d)
    let s := if en != s0.chip.rdb (F.hlinkCtrl_enable d) then s.after (execPortEnable d en) else s
    let s := s.withChip fun c => c.holdLanes d
    if bit 1 then s.after (execPortRetrain d) else s
  else if unit = 7 ∧ off = 0x3028 then (if ws.any fun w => w.1 == 1 then s.after (execBurnQueueWrite d (c.rd (F.burnQ_desc d))) else s)
  else s

/-- THERM_N against the hotter die's junction: asserted with the warning event at `therm_c`, released `hyst` below it, held while a trip holds the
dies in reset (R573). -/
def Chip.judgeTherm (c : Chip) : Chip :=
  let hot := c.rdi F.thermStatus_tmax
  let limit : Int := 4 * (c.rd F.thermCtrl_therm_c : Int)
  if limit ≤ hot then (if c.rdb F.thermStatus_therm then c else (c.wr F.thermStatus_therm 1).raisePkg 41 (beBytes 2 (unsigned 16 hot)))
  else if hot ≤ limit - 4 * (c.rd F.thermCtrl_hyst : Int) ∧ !c.power.tripped then c.wr F.thermStatus_therm 0 else c

/-- What a write to any other register starts. -/
def State.commonWritten (s0 s : State) (r : RegRef) (ws : List (Nat × Nat)) : State :=
  let c := s.chip
  let a := r.addr
  let bit (n : Nat) : Bool := ws.any fun w => w.1 == 0 && w.2.testBit n
  if a / 2 ^ 28 = 5 then
    if a = F.axesGo_go.addr then (if bit 0 then s.after execSharedStart else s)
    else if a = F.lichenCtrl_freeze.addr then
      let s := if bit 0 then s.withChip fun c => c.freezeRecord 1 (if c.skyValid then some c.sky_ else none) c.keeper else s
      if bit 1 then s.withChip fun c => c.rearmRecord 0 else s
    else if a = (F.quota_moss r.index).addr then s.withChip fun c => c.quotaWritten (r.index + 1)
    else if a = F.thermCtrl_therm_c.addr then s.withChip Chip.judgeTherm
    else if a = F.mossCtrl_op_pct.addr then s.withChip Chip.refreshGc
    else if a = F.skyCtrl_domain.addr then
      s.withChip fun c => (if c.rd F.skyCtrl_domain ≠ s0.chip.rd F.skyCtrl_domain then c.dropMasters fun _ => true else c).limitSlew.tickDenied
    else s
  else if a / 2 ^ 23 % 8 = 6 then
    let g := addrRegion a
    if a = (F.spinup_spinup_max g).addr then s.after (execSpinupMaxWrite g (c.rd (F.spinup_spinup_max g)))
    else if a = (F.fcCfg_down g r.index).addr then
      let ch := 2 * g + r.index
      (s.after (execFcDownWrite ch (c.rdb (F.fcCfg_down g r.index)))).withChip fun c =>
        c.wrb (F.fcCfg_down g r.index) ((c.rd F.mossStatus_down).testBit ch)
    else s
  else
    let e := addrDie a
    if a = (F.snoopRun_run e r.index).addr then
      let old := c.rd (F.snoopRun_run e r.index)
      let v := ((List.range 2).map fun i => ((ws.find? fun w => w.1 == i).elim (wordOf old i) (·.2)) * 2 ^ (32 * i)).sum
      s.after (execSnoopRunWrite e r.index v)
    else s

/-- A write of words to one register: fields stored, then what the register starts. -/
def State.writeReg (s : State) (kind : WriteKind) (r : RegRef) (ws : List (Nat × Nat)) : State :=
  let t := s.withChip fun c => c.storeReg kind r ws
  if kind = .latches then t
  else if r.addr / 2 ^ 28 = 4 ∧ r.addr / 2 ^ 23 % 8 ≤ 5 then s.portWritten t r.addr ws else s.commonWritten t r ws

/-- Words written from an address, some left out by a mask, register by register (R435). -/
def State.writeWords (s : State) (kind : WriteKind) (start : Nat) (ws : List (Option Nat)) : State :=
  let hits := ws.zipIdx.filterMap fun e => e.1.bind fun v => (findReg (start + 4 * e.2)).map fun r => (r, ((start + 4 * e.2 - r.addr) / 4, v))
  let regs := (hits.map fun h => h.1.addr).eraseDups
  regs.foldl (fun s a =>
    match hits.find? fun h => h.1.addr == a with
    | some h => s.writeReg kind h.1 ((hits.filter fun k => k.1.addr == a).map (·.2))
    | none => s) s

/-! ### Register commands -/

/-- REGISTER_WRITE: words written at an address from inside the package; a refused address is not accessed (R16, R17, R595). -/
def execRegisterWrite (addr : Nat) (words : List Nat) (s : State) : Host.Outcome State Fault Refusal :=
  .next (if (List.range words.length).all fun i => addressOk (addr + 4 * i) then s.writeWords .all addr (words.map some) else s)

/-- Writing 1 to pkg.lichen.ctrl.freeze, and to rearm (R536, R538). -/
def execLichenFreezeWrite (s : State) : Host.Outcome State Fault Refusal :=
  s.nextChip (s.chip.freezeRecord 1 (if s.chip.skyValid then some s.chip.sky_ else none) s.chip.keeper)
def execLichenRearmWrite (s : State) : Host.Outcome State Fault Refusal := s.nextChip (s.chip.rearmRecord 0)

/-- REG_READ and REG_WRITE name whole words at addresses that R16 and R17 accept. -/
def regAddressCode (a n : Nat) : Nat := if (List.range n).all fun i => addressOk (a + 4 * i) then 0 else 0x0103

/-- REG_READ: the words, most significant byte first (R435). -/
def execRegRead (session ctx : Nat) (s : State) : Host.Outcome State Fault Refusal :=
  s.fetchWith session ctx 0xA0 anyCmd
    (fun _ k => if k.p1 < 1 ∨ 64 < k.p1 ∨ k.p0 % 4 ≠ 0 then 0x0102 else regAddressCode k.p0 k.p1) noCheck
    fun s k => s.withChip fun c =>
      let r := c.readWords 0 k.p0 k.p1 true
      r.2.ok session ctx (r.1.flatMap (beBytes 4))

/-- The words of a REG_WRITE have arrived: those its mask names are applied in one sequence (R435). -/
def State.regWriteData (s : State) (n x : Nat) : State :=
  let k := (s.chip.ctxSt n x).cmd
  match s.phaseBytes n x 2 with
  | (none, s) => s.withChip fun c => c.fail n x 0x0401
  | (some bs, s) =>
    let ws := (List.range k.p1).map fun i => if k.p2.testBit i then some (beNat ((bs.drop (4 * i)).take 4)) else none
    (s.writeWords .all k.p0 ws).withChip fun c => c.ok n x

def execRegWrite (session ctx : Nat) (s : State) : Host.Outcome State Fault Refusal :=
  s.fetchWith session ctx 0xA1 anyCmd
    (fun _ k => if k.p1 < 1 ∨ 16 < k.p1 ∨ k.dlen ≠ 4 * k.p1 ∨ k.p0 % 4 ≠ 0 then 0x0102 else regAddressCode k.p0 k.p1) noCheck
    fun s k => s.startPhase session ctx k fun s => s

/-- EVENT_READ: per event its enable, latch, routes and count, leaving the counts (R577, R583, pkg.ev.cfg). -/
def Chip.eventBytes (c : Chip) (i : Nat) : List Nat :=
  beBytes 2 (c.rd (F.evCfg_en i) + c.rd (F.evCfg_latch i) * 2 + c.rd (F.evCfg_host i) * 4 + c.rd (F.evCfg_alert i) * 8 + c.rd (F.evCfg_lichen i) * 16) ++
    beBytes 4 (c.rd (F.evCnt_count i))

def execEventRead (session ctx : Nat) (s : State) : Host.Outcome State Fault Refusal :=
  s.fetchWith session ctx 0xA2 anyCmd (fun _ k => if k.p1 < 1 ∨ 64 < k.p1 ∨ 576 < k.p0 + k.p1 then 0x0102 else 0) noCheck
    fun s k => s.withChip fun c => c.ok session ctx ((List.range k.p1).flatMap fun i => c.eventBytes (k.p0 + i))

/-- EVENT_SUB: a subscription starts at the record after the latest one (R588). -/
def execEventSub (session ctx : Nat) (s : State) : Host.Outcome State Fault Refusal :=
  s.fetchWith session ctx 0xA3 anyCmd noCheck noCheck fun s k => s.withChip fun c =>
    let last := c.rd F.evSeq_seq - 1
    let sub : Option SubSt := if k.p0.testBit 0 then some ⟨last, last, c.now⟩ else none
    { c with ev := { c.ev with subs := tabSet c.ev.subs (session - 1) sub } }.ok session ctx

/-! ### Events in time (R585, R587) -/

/-- A gap_us interval ends with folded raises: a host record carries them (R585). -/
def execEventGapExpiry (event : Nat) (s : State) : Host.Outcome State Fault Refusal :=
  let c := s.chip
  let f := tabGet c.ev.folds event
  s.nextChip (match f.lastAt with
    | some t => if f.folded ≠ 0 ∧ c.gapEnd t ≤ c.now then c.hostRecord event f.path f.data f.folded else c
    | none => c)

/-- resend_ms pass without an advancing EVENT_ACK: the unacknowledged records are sent again (R587). -/
def execEventResend (session : Nat) (s : State) : Host.Outcome State Fault Refusal :=
  let c := s.chip
  s.nextChip (match tabGet c.ev.subs (session - 1) with
    | some sub =>
      if !c.sessionFrozen (session - 1) ∧ sub.since + c.rd F.evCtrl_resend_ms * 10 ^ 6 ≤ c.now then c.sendRecords (session - 1) sub sub.acked else c
    | none => c)

/-! ### I2C target and recovery (R577 to R582) -/

/-- The words of a transaction of `n` words whose addresses R16 and R17 accept, up to the first refused one: the offset does not pass into an address that is
refused (DEDUCED, notes/assumptions/75.md). -/
def acceptedWords (addr n : Nat) : Nat := ((List.range n).takeWhile fun i => addressOk (addr + 4 * i)).length

/-- A read transaction of `n` bytes from an address: each word least significant byte first, high words latched, RC fields left (R12, R576, R577, R579,
R580). Bytes past the last accepted word read as zero. -/
def execI2cRead (addr n : Nat) (s : State) : Host.Outcome State Fault Refusal :=
  if addressOk addr then
    let r := s.chip.readWords 1 addr (acceptedWords addr ((n + 3) / 4)) false
    s.nextChip (r.2.emit (.i2cData (padTo n (r.1.flatMap (leBytes 4)))))
  else s.nextChip (s.chip.emit .i2cNack)

/-- A word falls on a field of access RW or WO (R581; the spec gives no RWP field). -/
def writableWord (a : Nat) : Bool :=
  (findReg a).elim false fun r => r.fields.any fun f => (f.access == .rw || f.access == .wo) && fieldInWord f.fld ((a - r.addr) / 4)

/-- A keeper slot's word as programmed, kept by the bits programmed to 0; an erased slot holds all ones. -/
def Chip.slotWord (c : Chip) (slot a : Nat) : Nat := 2 ^ 32 - 1 - tabGet c.mgmt.slotImage (slot * 2 ^ 24 + a)

/-- A write to the recovery block in recovery (R582): `data` programs four bytes at `addr` and advances it; `ctrl` sets the slot and the offset or
erases. While busy it is held. An image that is not erased first is spoiled by what is programmed over it. -/
def Chip.recoveryWrite (c : Chip) (isData : Bool) (v : Nat) : Chip :=
  if !c.mgmt.recovery then c
  else if c.rdb F.rcvCtrl_busy then { c with mgmt := { c.mgmt with heldWrite := some (isData.toNat * 2 ^ 32 + v) } }
  else if isData then
    let a := c.rd F.rcvCtrl_addr / 4 * 4
    let key := c.rd F.rcvCtrl_slot * 2 ^ 24 + a
    let slot := c.rd F.rcvCtrl_slot
    let c := { c with
      mgmt := { c.mgmt with slotImage := tabMod c.mgmt.slotImage key fun x => x ||| (2 ^ 32 - 1 - v % 2 ^ 32) }
      trust := { c.trust with images := tabMod c.trust.images slot fun i => if i.present then { i with good := false } else i } }
    (c.wr F.rcvCtrl_addr (a + 4)).wr F.rcvCtrl_busy 1
  else
    let c := (c.wr F.rcvCtrl_slot (v % 2)).wr F.rcvCtrl_addr (v / 2 ^ 8 / 4 * 4)
    if v.testBit 1 then
      let c := { c with
        mgmt := { c.mgmt with slotImage := c.mgmt.slotImage.filter fun e => e.1 / 2 ^ 24 != v % 2 }
        trust := { c.trust with images := tabErase c.trust.images (v % 2) } }
      (c.wr F.rcvCtrl_addr 0).wr F.rcvCtrl_busy 1
    else c

/-- Whether a word address lies in the recovery block. -/
def inRecoveryBlock (a : Nat) : Bool := a == F.rcvCtrl_slot.addr || a == F.rcvData_data.addr

/-- A write transaction: each complete word writes W1C fields; others with the debug port unlocked, or in the recovery block in recovery;
otherwise it is counted where it falls on a writable field (R579 to R581). -/
def State.i2cWord (s : State) (a v : Nat) : State :=
  let c := s.chip
  if inRecoveryBlock a && c.mgmt.recovery then s.withChip fun c => c.recoveryWrite (a == F.rcvData_data.addr) v
  else if c.rdb F.trust_debug_unlocked then s.writeWords .all a [some v]
  else
    let s := s.writeWords .latches a [some v]
    if writableWord a then s.withChip fun c => c.bump F.i2c_refused else s

/-- The complete words of the data bytes of a write, each least significant byte first; the bytes of an incomplete one are discarded (R12, R579). -/
def i2cWords : List Nat → List Nat
  | a :: b :: x :: y :: t => leNat [a, b, x, y] :: i2cWords t
  | _ => []

/-- I2C_WRITE: the data bytes of a write transaction at an address (R579 to R581). -/
def execI2cWrite (addr : Nat) (bs : List Nat) (s : State) : Host.Outcome State Fault Refusal :=
  if addressOk addr then
    let ws := i2cWords bs
    .next ((ws.take (acceptedWords addr ws.length)).zipIdx.foldl (fun s w => s.i2cWord (addr + 4 * w.2) w.1) s)
  else s.nextChip (s.chip.emit .i2cNack)

/-- Writing erase in recovery erases a keeper slot and sets addr to 0 (R582). -/
def execRcvErase (slot : Nat) (s : State) : Host.Outcome State Fault Refusal := s.nextChip (s.chip.recoveryWrite false (slot % 2 + 2))

/-- A write to pkg.rcv.data in recovery (R582). -/
def execRcvDataWrite (data : Nat) (s : State) : Host.Outcome State Fault Refusal := s.nextChip (s.chip.recoveryWrite true data)

/-- An erase or a program of a keeper slot ends; a write held by SCL stretching proceeds (R582). -/
def execRcvBusyClear (s : State) : Host.Outcome State Fault Refusal :=
  let c := s.chip
  s.nextChip (if c.rdb F.rcvCtrl_busy then
      let c := c.wr F.rcvCtrl_busy 0
      match c.mgmt.heldWrite with
      | some w => { c with mgmt := { c.mgmt with heldWrite := none } }.recoveryWrite (decide (2 ^ 32 ≤ w)) (w % 2 ^ 32)
      | none => c
    else c)

end Sys2Proof.Machine
end

