-- ==== Sys2Proof/Machine/DriveCmds.lean ====
section
/-! DEFINITION. Commands of drives, discs, media, time and launches (13_command_reference.md, opcodes 0x60 to 0x9F), REENUMERATE, and what ends a
DRIVE_ADMIT. -/
namespace Sys2Proof.Machine

/-! ### Drives and discs -/

/-- DRIVE_STATUS: the four status registers and the disc identifier (R416). -/
def execDriveStatus (session ctx : Nat) (s : State) : Host.Outcome State Fault Refusal :=
  s.fetchWith session ctx 0x60 anyCmd noCheck noCheck fun s k => s.withChip fun c =>
    let d := k.p0
    let words := [F.hlinkStatus_state d, F.spinStatus_state d, F.srvStatus_fstate d, F.discStatus_state d].map fun f => c.word f.addr
    c.ok session ctx (words.flatMap (beBytes 4) ++ beBytes 8 (c.rd (F.discId_id d)))

/-- Why a DISC_LOAD is refused before the tray moves (R324); a new disc takes an identifier from the system address (R44). -/
def Chip.loadCode (c : Chip) (k : Cmd) : Nat :=
  if c.rd (F.discStatus_state k.p0) ≠ 0 ∨ (c.load k.p0).isSome then 0x0604
  else if !c.portUp k.p0 then 0x0605
  else if c.poolCode ≠ 0 then c.poolCode
  else if k.p1 = 0 ∧ !c.rdb F.chain_addr_valid then 0x0109 else 0

/-- DISC_LOAD. -/
def execDiscLoad (session ctx : Nat) (s : State) : Host.Outcome State Fault Refusal :=
  s.fetchWith session ctx 0x61 anyCmd noCheck noCheck fun s k => s.failOr session ctx (s.chip.loadCode k) fun s =>
    s.withChip fun c => c.beginLoad session ctx k.p0 k.p1 (k.cflags % 2)

/-- A drive is calibrating, burning or closing, has descriptors queued, or a read pass in progress (R327). -/
def Chip.driveBusy (c : Chip) (d : Nat) : Bool :=
  !(c.burnSt d).idle || (c.burnSt d).queue != [] || (c.readSt d).cur.isSome

/-- Why a DISC_UNLOAD is refused (R327); one that meets another exchange under way is refused under force too. -/
def Chip.unloadCode (c : Chip) (k : Cmd) : Nat :=
  if !c.portUp k.p0 then 0x0605
  else if (c.load k.p0).isSome ∨ (!k.cflags.testBit 0 ∧ c.driveBusy k.p0) then 0x0604 else 0

/-- DISC_UNLOAD. -/
def execDiscUnload (session ctx : Nat) (s : State) : Host.Outcome State Fault Refusal :=
  s.fetchWith session ctx 0x62 anyCmd noCheck noCheck fun s k => s.failOr session ctx (s.chip.unloadCode k) fun s =>
    s.withChip fun c => c.beginUnload session ctx k.p0

/-- A PSA range: its first PSA addresses a sector and its last lies on the same layer-side (R72, R432). -/
def psaRangeOk (a n : Nat) : Bool :=
  psaValid a && (n == 0 || decide (slotOf a + n ≤ 4 * layerEnd))

/-- The port of a command is UP, or one that a wake brings back (R410, R414). -/
def Chip.portServes (c : Chip) (d : Nat) : Bool := c.portUp d || (c.asleep && c.host.wakeFor.contains d)

/-- PSA_READ. -/
def execPsaRead (session ctx : Nat) (s : State) : Host.Outcome State Fault Refusal :=
  s.fetchWith session ctx 0x63 anyCmd (fun _ k => if psaRangeOk k.p1 (k.dlen / 4096) then 0 else 0x0104) noCheck fun s k =>
    let code := if !s.chip.portServes k.p0 then 0x0605 else if s.chip.rd (F.discStatus_state k.p0) ≠ 5 then 0x0602 else 0
    if k.dlen = 0 ∧ k.T = 0 ∧ code = 0 then s.answer session ctx [] ((s.chip.ctxSt session ctx).readData 0 0 0 0 [])
    else s.launchChecked session ctx k code

/-- The two rows of SPIN differ in the op of their parameter; another op is an invalid field. -/
def Cmd.isStart (k : Cmd) : Bool := k.p1 % 4 == 1

/-- Fields of SPIN. -/
def spinField (_ : Chip) (k : Cmd) : Nat := if k.p1 % 4 = 1 ∨ k.p1 % 4 = 2 then (if 2 ^ 24 ≤ k.p0 then 0x0102 else 0) else 0x0102

/-- A SPIN that names a port that is not UP acts on no drive. -/
def State.spinBody (n x : Nat) (s : State) (k : Cmd) : State :=
  s.launchChecked n x k (if (maskList 24 k.p0).all s.chip.portServes then 0 else 0x0605)

/-- SPIN with op 1. -/
def execSpinUpSchedule (session ctx : Nat) (s : State) : Host.Outcome State Fault Refusal :=
  s.fetchWith session ctx 0x64 Cmd.isStart spinField noCheck (State.spinBody session ctx)

/-- SPIN with op 2, and what is refused of SPIN. -/
def execSpinStopSchedule (session ctx : Nat) (s : State) : Host.Outcome State Fault Refusal :=
  s.fetchWith session ctx 0x64 (fun k => !k.isStart) spinField noCheck (State.spinBody session ctx)

/-- AXIS_MOVE: op 1 to 6 of `axes.X.req`; a park is a sled's (R293). -/
def execAxisMove (session ctx : Nat) (s : State) : Host.Outcome State Fault Refusal :=
  s.fetchWith session ctx 0x65 anyCmd
    (fun _ k =>
      let op := k.p1 / 16 % 16
      if op < 1 ∨ 6 < op ∨ (op = 4 ∧ k.p1 % 2 = 1) then 0x0102 else 0) noCheck
    fun s k => s.launchChecked session ctx k (if s.chip.portServes k.p0 then 0 else 0x0605)

/-! ### Service of drives and modules (R362, R433, R549, R550) -/

/-- A drive is retired: parked without braking, its port OFF, which stops the spindle (R273, R549). -/
def Chip.retire_ (c : Chip) (d : Nat) : Chip :=
  let c := ((c.parkPickup d).wr (F.hlinkCtrl_enable d) 0).leaveUp d 0
  (c.wr F.svcRetired_retired (maskSet (c.rd F.svcRetired_retired) d true)).raisePkg 40 [d]

/-- DRIVE_RETIRE. -/
def execDriveRetire (session ctx : Nat) (s : State) : Host.Outcome State Fault Refusal :=
  s.fetchWith session ctx 0x66 anyCmd noCheck noCheck fun s k =>
    s.failOr session ctx (if (s.chip.load k.p0).isSome ∨ s.chip.driveBusy k.p0 then 0x0604 else 0) fun s =>
      s.withChip fun c => (c.retire_ k.p0).ok session ctx

/-- Completes the DRIVE_ADMITs of a port with a status. -/
def Chip.endAdmits (c : Chip) (d code : Nat) : Chip :=
  (c.contexts fun k => k.phase == .active && k.cmd.opcode == 0x67 && k.cmd.p0 == d).foldl
    (fun c e => if code = 0 then c.ok e.1 e.2 else c.fail e.1 e.2 code) c

/-- DRIVE_ADMIT: the port is enabled; the command waits for UP. -/
def execDriveAdmit (session ctx : Nat) (s : State) : Host.Outcome State Fault Refusal :=
  s.fetchWith session ctx 0x67 anyCmd noCheck noCheck fun s k => s.withChip fun c =>
    let d := k.p0
    let c := c.wr F.svcRetired_retired (maskSet (c.rd F.svcRetired_retired) d false)
    let c := (c.portEnable d true).modCtx session ctx fun y => { y with wait := .activity }
    if c.portUp d then c.ok session ctx else c

/-- A port is not UP 2 s after a DRIVE_ADMIT (R550). -/
def execDriveAdmitTimeout (d : Nat) (s : State) : Host.Outcome State Fault Refusal :=
  s.nextChip (if s.chip.portUp d then s.chip else s.chip.endAdmits d 0x0605)

/-- The read of a port's identity completes in ALIGN; UP ends what waits for it (R118, R550). -/
def execPortIdentityCheck (d identity : Nat) (supported : Bool) (s : State) : Host.Outcome State Fault Refusal :=
  let c := s.chip.identityCheck d identity supported
  hooked (s.nextChip (if c.portUp d then c.endAdmits d 0 else c))

/-- FLASH_ADMIT: a module present on a down channel is erased, and its rebuild starts (R362, R363). -/
def execFlashAdmit (session ctx : Nat) (s : State) : Host.Outcome State Fault Refusal :=
  s.fetchWith session ctx 0x68 anyCmd (fun c k => if k.p0 < 8 ∧ c.rd (F.fcStatus_state (k.p0 / 2) (k.p0 % 2)) = 5 then 0 else 0x0102) noCheck
    fun s k => s.withChip fun c => ((c.admitModule k.p0 true).ok session ctx).settle

/-! ### Time and launches -/

/-- TIME_GET: sky time in IEEE 1588 form with its fraction (R444). -/
def execTimeGet (session ctx : Nat) (s : State) : Host.Outcome State Fault Refusal :=
  s.fetchWith session ctx 0x80 anyCmd noCheck noCheck fun s _ => s.withChip fun c =>
    let ns := c.sky_
    let frac := ((c.skyUnits c.servingDie).toNat / 2 ^ 32) % 2 ^ 16
    c.ok session ctx (beBytes 6 (ns / 10 ^ 9) ++ beBytes 4 (ns % 10 ^ 9) ++ beBytes 2 frac ++ [c.skyValid.toNat, 0, 0, 0])

/-- LAUNCH_FREEZE. -/
def execLaunchFreeze (session ctx : Nat) (s : State) : Host.Outcome State Fault Refusal :=
  s.fetchWith session ctx 0x81 anyCmd noCheck noCheck fun s k => s.launchChecked session ctx k 0

/-- LAUNCH_CANCEL: an unfired launch completes with 0x0803; one whose instant has come fires (R434). -/
def execLaunchCancel (session ctx : Nat) (s : State) : Host.Outcome State Fault Refusal :=
  s.fetchWith session ctx 0x82 anyCmd noCheck noCheck fun s k => s.withChip fun c =>
    match c.launches.find? fun l => l.action == k.p0 with
    | some l => if l.T ≤ c.sky_ then c.fail session ctx 0x0106 else (((c.dropLaunch l).abortReads l.session l.ctx).fail l.session l.ctx 0x0803).ok session ctx
    | none => c.fail session ctx (if c.host.acted.contains k.p0 then 0x0106 else 0x0502)

/-- LAUNCH_LIST: unfired launches in ascending T, then action (R596). -/
def execLaunchList (session ctx : Nat) (s : State) : Host.Outcome State Fault Refusal :=
  s.fetchWith session ctx 0x83 anyCmd noCheck noCheck fun s k =>
    let ls := s.chip.launchesInOrder
    s.answerList session ctx k (ls.map fun l => beBytes 8 l.action ++ beBytes 8 l.T ++ beBytes 8 l.W ++ [l.opcode] ++ beBytes 2 l.session ++ beBytes 5 0)

/-- REENUMERATE: the head sends the token, and its address again (R43, R50). -/
def execReenumerate (session ctx : Nat) (s : State) : Host.Outcome State Fault Refusal :=
  s.fetchWith session ctx 0xA4 anyCmd noCheck noCheck fun s _ => s.withChip fun c =>
    ((c.ok session ctx).emit (.token (tokenBits 2 0))).forwardAddress

end Sys2Proof.Machine
end

