-- ==== Sys2Proof/Machine/Power.lean ====
section
/-! DEFINITION. The package power states (R410 to R414): CLEAR, HAZE, OVERCAST. The timers' commands assert that their time has passed without what
restarts them; what the block itself can tell is checked. -/
namespace Sys2Proof.Machine

/-- A pending launch names a drive. -/
def Chip.launchNames (c : Chip) (d : Nat) (l : LaunchRec) : Bool :=
  let k := (c.ctxSt l.session l.ctx).cmd
  k.ports.contains d || ((k.opcode == 0x22 || k.opcode == 0x27) && ((c.planOf l.session l.ctx).getD (c.allReaders l.session l.ctx k)).any fun e => e.1 == d)

/-- A drive is active (R411). -/
def Chip.driveActive (c : Chip) (d : Nat) : Bool :=
  c.driveBusy d || (c.readSt d).queue != [] || (c.load d).isSome || c.launches.any (c.launchNames d)

/-- A drive rests: pickup and sled parked, spindle stopped; its disc stays loaded (R410, R412). -/
def Chip.restDrive (c : Chip) (d : Nat) : Chip :=
  if c.portUp d then (((c.retract d).pointFlag d 1 false).axisRequest d 0 .park).spinRequest d .stop else c

/-- A timer of `pkg.pwr.ctrl` that is not disabled. -/
def Chip.timerOn (c : Chip) (f : Fld) : Bool := c.rd f != 0

/-- HAZE_TIMEOUT: no drive has been active for `haze_s` (R411). -/
def execHazeTimeout (s : State) : Host.Outcome State Fault Refusal :=
  let c := s.chip
  if c.rd F.pwrStatus_state = 0 ∧ c.power.haze ∧ c.timerOn F.pwrCtrl_haze_s ∧ !((List.range 24).any c.driveActive) then
    s.nextChip (((List.range 24).foldl Chip.restDrive c).setPower 1)
  else .next s

/-- A drive has not been active for `drive_idle_s` in CLEAR (R412). -/
def execDriveIdleTimeout (d : Nat) (s : State) : Host.Outcome State Fault Refusal :=
  let c := s.chip
  if c.rd F.pwrStatus_state = 0 ∧ c.timerOn F.pwrCtrl_drive_idle_s ∧ !c.driveActive d then s.nextChip (c.restDrive d) else .next s

/-- Secure discard, rebuild, sanitise and format are idle (R411). -/
def Chip.flashQuiet (c : Chip) : Bool := c.moss.discards == [] && c.moss.rebuild.isNone && c.moss.op.isNone

/-- A port is taken to OFF with its NH-5 asleep; disc state and load record stay (R328, R410). -/
def Chip.sleepPort (c : Chip) (d : Nat) : Chip :=
  let keep := [F.discStatus_state d, F.discStatus_side d, F.discStatus_foreign d, F.discId_id d].map fun f => (f, c.rd f)
  let k := c.cat
  let c := ((c.wr (F.hlinkCtrl_enable d) 0).leaveUp d 0).modCat fun a => { a with loads := k.loads, held := k.held }
  keep.foldl (fun c e => c.wr e.1 e.2) c

/-- Low-power idle of a host port that is up: whether its partner supports it is a value nothing constrains (R410). -/
def Chip.lpiPort (c : Chip) (p : Nat) : Chip :=
  if c.rdb (F.hostPort_up p) then
    let d := c.draw
    d.2.wr (F.hostPort_lpi p) (d.1 % 2)
  else c

/-- OVERCAST_TIMEOUT: no waking command has been fetched for `overcast_s` in HAZE (R411). -/
def execOvercastTimeout (s : State) : Host.Outcome State Fault Refusal :=
  let c := s.chip
  if c.rd F.pwrStatus_state = 1 ∧ !c.rdb F.pwrStatus_waking ∧ c.timerOn F.pwrCtrl_overcast_s ∧ c.flashQuiet then
    let ds := (List.range 24).filter fun d => c.rdb (F.hlinkCtrl_enable d)
    let c := if c.poolWrites then c.checkpoint else c
    let c := ds.foldl Chip.sleepPort c
    let c := (List.range 8).foldl Chip.lpiPort c
    s.nextChip ((c.modHost fun h => { h with wakeFor := ds }).setPower 2).settle
  else .next s

/-- POWER_WAKE_COMPLETE: what waited for the wake goes on in CLEAR: launches are made ready, fired ones begin (R411, R414). -/
def execPowerWakeComplete (s : State) : Host.Outcome State Fault Refusal :=
  let c := s.chip
  if !c.asleep then s.nextChip (c.wr F.pwrStatus_waking 0)
  else if c.rdb F.pwrStatus_waking then
    let c := ((c.wr F.pwrStatus_waking 0).setPower 0).modHost fun h => { h with wakeFor := [] }
    let c := c.launches.foldl (fun c l => c.readyLaunch l.session l.ctx (c.ctxSt l.session l.ctx).cmd) c
    let held := c.contexts fun k => k.phase == .active && k.wait == .drive
    hooked (.next (held.foldl (fun s e => s.fireAction e.1 e.2) { s with chip := c }))
  else .next s

end Sys2Proof.Machine
end

