-- ==== Sys2Proof/Machine/Levels.lean ====
section
/-! DEFINITION. Faults at the levels and what they take out (01_levels_and_addresses.md, R20 to R28), and the loss of a die to the other one. The cause
of a fault is 0 a storage error or 1 a watchdog. -/
namespace Sys2Proof.Machine

/-- A unit is out: its channel's sectors in flight end, its beam is missing, a burn stops at once (R20, R123, R220). -/
def Chip.unitFault (c : Chip) (u cause : Nat) : Chip :=
  if (c.unitSt u).out then c
  else
    let d := u / 4
    let c := ((c.modUnit u fun s => { s with out := true }).endInFlight u).refreshPort d
    (c.burnInterrupt d 12).raiseUnit u 15 [0, u % 4, cause]

/-- A cluster is out: that drive is isolated from the fabric; its burn stops and its reads end, servo and spindle go on (R20, R28, R194, R220). -/
def Chip.clusterFault (c : Chip) (d cause : Nat) : Chip :=
  if (c.cluSt d).out then c
  else ((((c.modClu d fun h => { h with out := true }).burnInterrupt d 5).endReads d 10).refreshPort d).raiseClu d 15 7 [1, 0, cause]

/-- The safety sequencer parks a drive through its head link, without the servo engine (R21, R24). -/
def Chip.safetyPark (c : Chip) (d : Nat) : Chip :=
  let c := (c.burnInterrupt d 5).endReads d 10
  if c.portUp d then (c.modServo d fun s => { s with stopped := true }).parkDrive d else c

/-- The region's decoders, and what waits for them, are gone. -/
def Chip.dropPool (c : Chip) (r : Nat) : Chip :=
  let c := (regionPorts r).foldl (fun c d => (portUnits d).foldl (fun c u => c.modUnit u fun s => { s with slots := [] }) c) c
  (c.modPool r fun _ => default).showPool r

/-- A flash channel goes with its region or die: it is down, and a module that waited on it is no longer seen (R20, R22). -/
def Chip.channelGone (c : Chip) (ch : Nat) : Chip :=
  (c.channelDown ch 0).wr (F.fcStatus_state (ch / 2) (ch % 2)) 3

/-- A region is out: its six drives are parked, its flash channels are down, its decoders stop (R20 to R22). -/
def Chip.regionFault (c : Chip) (r cause : Nat) : Chip :=
  if (c.rgnSt r).out then c
  else
    let c := c.modRgn r fun s => { s with out := true }
    let c := ((regionPorts r).foldl Chip.safetyPark c).dropPool r
    let c := (c.channelGone (2 * r)).channelGone (2 * r + 1)
    c.raiseRgn r 0 [cause]

/-- The stack of a die that is out: its merge buffer is lost, its tiles count as poisoned, its snoop units stop (R370). -/
def Chip.dropStack (c : Chip) (e : Nat) : Chip :=
  let c := { c with tiles := c.tiles.map fun (t : Nat × TileRec) => if t.1 / 2 ^ 20 = e ∧ (t.2.state = 1 ∨ t.2.state = 2) then (t.1, { t.2 with state := 3 }) else t }
  let c := c.modBuf e fun _ => default
  (List.range 16).foldl (fun c v => c.wr (F.snoopCfg_en e v) 0) c

/-- A drive of a die that is out: nothing of it goes on, its head link carries no more set-points, and the spindle coasts (R20, R106). -/
def Chip.dieDrive (c : Chip) (d : Nat) : Chip :=
  let c := ((c.burnInterrupt d 5).endReads d 10).retract d
  (c.spinStopped d).modServo d fun s => { s with stopped := true }

/-- A die is out: the record freezes at that instant, and its regions, host lanes, stack and flash channels are gone (R20, R23, R370, R536). -/
def Chip.dieFault (c : Chip) (e : Nat) : Chip :=
  if (c.dieSt e).out then c
  else
    let c := c.freezeRecord 3 (if c.skyValid then some c.sky_ else none) c.keeper
    let c := c.modDie e fun s => { s with out := true }
    let c := ((diePorts e).foldl Chip.dieDrive c).dropStack e
    let c := (List.range 2).foldl (fun c i => (c.modRgn (2 * e + i) fun s => { s with out := true }).dropPool (2 * e + i)) c
    let c := (List.range 8).foldl (fun c p => if (portLanes c.host.modeNext p).any fun l => l / 4 == e then c.hostDown p else c) c
    (List.range 4).foldl (fun c i => c.channelGone (4 * e + i)) c

def execUnitFault (u cause : Nat) (s : State) : Host.Outcome State Fault Refusal := hooked (s.nextChip (s.chip.unitFault u (cause % 2)))
def execClusterFault (d cause : Nat) (s : State) : Host.Outcome State Fault Refusal := hooked (s.nextChip (s.chip.clusterFault d (cause % 2)))
def execRegionFault (r cause : Nat) (s : State) : Host.Outcome State Fault Refusal := hooked (s.nextChip (s.chip.regionFault r (cause % 2)))
def execDieFault (e : Nat) (s : State) : Host.Outcome State Fault Refusal := hooked (s.nextChip (s.chip.dieFault e))

/-- A keeper's watchdog or violation: a die fault, and the die is reset (R27). -/
def Chip.keeperFault (c : Chip) (e : Nat) : Chip := (c.dieFault e).emit (.resetDie e)

/-- A level's watchdog expires (R20, R27): level 0 unit, 1 cluster, 2 region, 3 the keeper core of a die. -/
def execWatchdogExpiry (level index : Nat) (s : State) : Host.Outcome State Fault Refusal :=
  let c := s.chip
  hooked (s.nextChip (match level with
    | 0 => c.unitFault index 1
    | 1 => c.clusterFault index 1
    | 2 => c.regionFault index 1
    | 3 => c.keeperFault index
    | _ => c))

/-- A die hears no heartbeat of the other for 50 µs: it parks the other die's drives whose head links still answer, given by a mask over that
die's ports (R24). -/
def execOtherDieLost (e answering : Nat) (s : State) : Host.Outcome State Fault Refusal :=
  let c := s.chip
  hooked (s.nextChip (
    if (c.dieSt e).otherLost ∨ (c.dieSt e).out then c
    else
      let c := (c.modDie e fun k => { k with otherLost := true }).raiseDie e 0 []
      ((maskList 12 answering).map fun i => (diePorts (1 - e)).getD i 0).foldl Chip.safetyPark c))

/-- The surviving keeper takes over the package-level functions: an open presence window closes, the record freezes, the event is raised (R25,
R485, R536). -/
def execKeeperTakeover (s : State) : Host.Outcome State Fault Refusal :=
  let c := s.chip
  if !(c.dieSt 0).out || (c.dieSt 1).out then .next s
  else
    let c := (c.freezeRecord 3 (if c.skyValid then some c.sky_ else none) c.keeper).closeWindow 3
    s.nextChip (c.raisePkg 4 [1])

end Sys2Proof.Machine
end

