-- ==== Sys2Proof/Machine/Firmware.lean ====
section
/-! DEFINITION. Firmware images, activation and attestation (15_trust_presence_containment.md, R465 to R473, R510; 13_command_reference.md, R437,
R438). Slots are numbered 0 and 1 keeper, 2 and 3 application. -/
namespace Sys2Proof.Machine

def Chip.modTrust (c : Chip) (f : TrustSt → TrustSt) : Chip := { c with trust := f c.trust }

/-! ### Images (R466, R467, R470, R510) -/

/-- Bytes of a field of a header. -/
def fieldNat (bs : List Nat) (off len : Nat) : Nat := beNat ((bs.drop off).take len)

/-- The largest body for which an image, header and body, fits its slot of 16 MiB (R466). -/
def bodyMax : Nat := 2 ^ 24 - 352

/-- An image of a kind as its bytes spell it: whether its magic, kind, key, signature and body are right, and its header fields. The vendor key
is given by its number in OTP. -/
def readImage (kind : Nat) (vendors : List Nat) (bs : List Nat) : ImageRec :=
  let key := (bs.drop 0x48).take 97
  let signer := vendors.findIdx (· == Config.sha384 key)
  let len := fieldNat bs 0x14 4
  let body := (bs.drop 352).take len
  let good := fieldNat bs 0 4 == 0x4E514657 && fieldNat bs 6 2 == kind && decide (kind ≤ 1) && decide (len ≤ bodyMax) &&
    decide (signer < vendors.length) &&
    Config.ecdsaVerify (beNat key) (Config.sha384 (bs.take 0x100)) (fieldNat bs 0x100 96) && decide (352 + len ≤ bs.length) &&
    decide (Config.sha384 body = fieldNat bs 0x18 48)
  { present := true, version := fieldNat bs 8 8, rollback := fieldNat bs 0x10 4, signer := signer, length := len
    measure := Config.sha384 (bs.take 352 ++ body), good := good }

/-- An image of a kind (0 application, 1 keeper) is sound: all of R467 but the anti-rollback counter; a keeper's body is at most 1 MiB (R510). -/
def Chip.imageSound (c : Chip) (kind : Nat) (i : ImageRec) : Bool :=
  i.present && i.good && !(c.rd F.otp_revoked).testBit i.signer && (kind == 0 || decide (i.length ≤ 2 ^ 20))

/-- An image is valid (R467). -/
def Chip.imageValid (c : Chip) (kind : Nat) (i : ImageRec) : Bool := c.imageSound kind i && decide (c.rd F.otp_rollback ≤ i.rollback)

/-- The slot of a kind that boots: the valid one with the higher version, the first when they are equal (R467). -/
def Chip.bootSlot (c : Chip) (kind : Nat) : Option Nat :=
  let s0 := if kind = 1 then 0 else 2
  let i (k : Nat) : ImageRec := tabGet c.trust.images (s0 + k)
  match c.imageValid kind (i 0), c.imageValid kind (i 1) with
  | true, true => some (if (i 0).version < (i 1).version then 1 else 0)
  | true, false => some 0
  | false, true => some 1
  | false, false => none

/-- The anti-rollback counter is raised, never lowered; it stays at 1,024 when its fuses are blown (R470). -/
def Chip.raiseRollback (c : Chip) (v : Nat) : Chip :=
  let v := min v 1024
  if c.rd F.otp_rollback < v then (c.wr F.otp_rollback v).raisePkg 33 (beBytes 4 v) else c

/-! ### FW_STAGE (R469) -/

/-- A FW_STAGE runs beside this one. -/
def Chip.staging (c : Chip) (n x : Nat) : Bool :=
  (c.contexts fun k => k.phase == .active && k.cmd.opcode == 0xC0).any fun e => e != (n, x)

/-- FW_STAGE takes its image. -/
def execFwStage (session ctx : Nat) (s : State) : Host.Outcome State Fault Refusal :=
  s.fetchWith session ctx 0xC0 anyCmd noCheck noCheck fun s k =>
    if s.chip.staging session ctx then s.withChip fun c => c.fail session ctx 0x0106
    else s.startPhase session ctx k fun s => s.withChip fun c => c.fail session ctx 0x0306

/-- The image of a FW_STAGE has arrived: it is verified and written into the slot of its kind that is not running; an application image is then
ready for activation (R467, R469). -/
def State.stageData (s : State) (n x : Nat) : State :=
  match s.phaseBytes n x 1 with
  | (none, s) => s.withChip fun c => c.fail n x 0x0401
  | (some bs, s) => s.withChip fun c =>
    let kind := fieldNat bs 6 2
    let i := readImage kind c.trust.vendors bs
    if !c.imageSound kind i then c.fail n x 0x0306
    else if i.rollback < c.rd F.otp_rollback then c.fail n x 0x0307
    else
      let slot := if kind = 1 then 1 - c.trust.keeperSlot else 2 + (1 - c.trust.appSlot)
      let c := c.modTrust fun t => { t with images := tabSet t.images slot i, staged := if kind = 0 then some (1 - t.appSlot) else t.staged }
      { c with mgmt := { c.mgmt with slotImage := c.mgmt.slotImage.filter fun e => e.1 / 2 ^ 24 != slot } }.ok n x

/-! ### Activation (R437, R438) -/

/-- FW_ACTIVATE: with nothing staged it completes at once; otherwise queues are topped up, fetching pauses and the staged image is started. -/
def execFwActivate (session ctx : Nat) (s : State) : Host.Outcome State Fault Refusal :=
  s.fetchWith session ctx 0xC1 anyCmd noCheck noCheck fun s _ => s.withChip fun c =>
    match c.trust.staged with
    | none => c.ok session ctx
    | some slot =>
      let i : ImageRec := tabGet c.trust.images (2 + slot)
      if !c.imageValid 0 i then c.fail session ctx 0x0306
      else
        let c := (List.range 24).foldl (fun c d => if c.portUp d then c.topUp d else c) c
        let c := c.lichenWrite 0x0403 packagePath (beBytes 8 i.version ++ beBytes 8 c.appImage.version)
        let a : Activation := ⟨c.now, session, ctx, slot, []⟩
        (c.modTrust fun t => { t with act := some a, staged := none }).modCtx session ctx fun y => { y with wait := .activity }

/-- The pause ends: its entry, the command's status, the HELLOs held (R437, R438). -/
def Chip.endPause (c : Chip) (a : Activation) (status : Nat) : Chip :=
  let c := c.modTrust fun t => { t with act := none }
  let c := c.lichenWrite 0x0404 packagePath (beBytes 8 c.appImage.version ++ beBytes 2 status ++ beBytes 4 ((c.now - a.since) / 1000))
  let k := c.ctxSt a.session a.ctx
  let c := if k.phase = .active ∧ k.cmd.opcode = 0xC1 then c.complete a.session a.ctx status 0 [] else c
  a.hellos.foldl (fun c h => c.hello h.1 h.2.1 h.2.2.1 h.2.2.2.1 h.2.2.2.2) c

/-- The firmware reports ready: of an activation, or, without one, the image started at the last cold reset (R437, R470). -/
def execFwReady (s : State) : Host.Outcome State Fault Refusal :=
  let c := s.chip
  s.nextChip (match c.trust.act with
    | some a =>
      if a.since + 170 * 10 ^ 6 < c.now then c else
      let c := { c.modTrust fun t => { t with appSlot := a.slot } with power := { c.power with app := true } }
      (c.endPause a 0).raiseRollback c.appImage.rollback
    | none => if c.power.app then c.raiseRollback c.appImage.rollback else c)

/-- 170 ms without a report: the previous image is restarted and resumes (R438). -/
def execFwActivateTimeout (s : State) : Host.Outcome State Fault Refusal :=
  let c := s.chip
  s.nextChip (match c.trust.act with
    | some a => if a.since + 170 * 10 ^ 6 ≤ c.now then c.endPause a 0x0309 else c
    | none => c)

/-! ### ATTEST (R471 to R473) -/

/-- The flags of the attestation report. -/
def Chip.attestFlags (c : Chip) : Nat :=
  flag (c.rdb F.trust_owned) 0 + flag (c.rdb F.trust_debug_unlocked) 1 + flag (c.rdb F.trust_member) 2 + flag (c.rdb F.trust_disposed) 3 +
    flag c.sealHeld 4 + flag (c.rd F.otp_epoch == 63) 5

/-- Identifiers of the owner credentials, ascending. -/
def Chip.ownerIds (c : Chip) : List Nat := ((c.trust.creds.filter fun k => k.rights.testBit 8).map (·.id)).mergeSort (· ≤ ·)

/-- The report's first 256 bytes (R472). -/
def Chip.reportBody (c : Chip) (k : Cmd) : List Nat :=
  beBytes 4 0x4E514154 ++ beBytes 2 1 ++ beBytes 2 c.sysAddr ++ beBytes 8 Config.serial ++ beBytes 8 k.p0 ++ beBytes 8 k.p1 ++ beBytes 8 k.p2 ++
    beBytes 8 k.p3 ++ beBytes 8 c.keeperImage.version ++ beBytes 8 c.appImage.version ++ beBytes 48 c.keeperImage.measure ++
    beBytes 48 c.appImage.measure ++ beBytes 4 (c.rd F.otp_rollback) ++ beBytes 4 (c.rd F.otp_seals) ++ beBytes 4 c.attestFlags ++
    beBytes 4 (c.rd F.otp_epoch) ++ beBytes 8 (if c.skyValid then c.sky_ else 0) ++ beBytes 16 (if c.rdb F.trust_member then c.trust.groupId else 0) ++
    beBytes 48 (Config.sha384 (c.ownerIds.flatMap (beBytes 16))) ++ List.replicate 8 0

/-- The signed report (R472, R473). -/
def Chip.report (c : Chip) (k : Cmd) : List Nat :=
  let b := c.reportBody k
  b ++ beBytes 96 (Config.ecdsaSign c.identityKey (Config.sha384 b))

/-- ATTEST. -/
def execAttest (session ctx : Nat) (s : State) : Host.Outcome State Fault Refusal :=
  s.fetchWith session ctx 0xC8 anyCmd noCheck noCheck fun s k => s.withChip fun c =>
    c.ok session ctx (c.report k ++ beBytes 2 Config.certificate.length ++ Config.certificate)

end Sys2Proof.Machine
end

