-- ==== Sys2Proof/Machine/Sanitise.lean ====
section
/-! DEFINITION. Sanitise and format (13_command_reference.md, R440 to R442; R477). -/
namespace Sys2Proof.Machine

/-- Commands that are active but for one and the status commands end (R441). -/
def Chip.abortForFormat (c : Chip) (n x : Nat) : Chip :=
  (c.contexts fun k => k.phase == .active).foldl (fun c e =>
    if e = (n, x) ∨ (opRow (c.ctxSt e.1 e.2).cmd.opcode).any (·.status) then c else c.endCommand e.1 e.2 0x0108) c

/-- What burns of every drive stop at the next position boundary, and their run queues are emptied (R220, R439, R441). -/
def Chip.stopBurns (c : Chip) : Chip :=
  (List.range 24).foldl (fun c d => ((c.burnInterrupt d 11).modBurn d fun b => { b with queue := [] }).refreshQueue d) c

/-- Every parameter page is read again (R330, R440). -/
def Chip.rereadTargets (c : Chip) (found : List (Nat × Nat × TargetParams)) : Chip :=
  let c := (List.range 8).foldl (fun c ch =>
    if c.chUsable ch then (c.modChan ch fun k => { k with targets := [] }).wr (F.fcStatus_targets (ch / 2) (ch % 2)) 0 else c) c
  found.foldl (fun c e => if c.chUsable e.1 then c.discoverTarget e.1 e.2.1 e.2.2 else c) c

/-- A pool identifier is drawn (R440). -/
def Chip.newPoolId (c : Chip) : Chip :=
  let d := c.draw
  d.2.modMoss fun m => { m with poolId := d.1 % 2 ^ 128 }

/-- The operation begins: it is recorded and its command completes; commands end, burns stop, the old pool's map and sets are given up, a
sanitise takes its new pool identifier, and with it new moss-tier keys, before the first erase (R440, R441, R477). -/
def Chip.beginOp (c : Chip) (n x : Nat) (sani : Bool) (found : List (Nat × Nat × TargetParams)) : Chip :=
  if c.moss.op.isSome then c.fail n x 0x0106
  else
    let c := (c.abortForFormat n x).stopBurns
    let c := c.rereadTargets found
    let c := if sani then c.newPoolId else c
    let c := { c with catSnaps := [] }
    let c := c.modMoss fun m => { m with
      op := some (sani, 0, c.eraseTotal), sets := [], openSet := [], map := [], buf := [], recs := [], writes := [], cache := [], jBytes := 0
      discards := [], rebuild := none, gc := false }
    let c := (c.wr F.mossStatus_sdiscard 0).wr F.mossStatus_rebuilding 0
    c.refreshProgress.ok n x

/-- SANITISE; `found` is what reading the parameter pages again gives. -/
def execSanitise (session ctx : Nat) (found : List (Nat × Nat × TargetParams)) (s : State) : Host.Outcome State Fault Refusal :=
  s.fetchWith session ctx 0xC2 anyCmd noCheck noCheck fun s _ => s.withChip fun c => c.beginOp session ctx true found

/-- FORMAT. -/
def execFormat (session ctx : Nat) (found : List (Nat × Nat × TargetParams)) (s : State) : Host.Outcome State Fault Refusal :=
  s.fetchWith session ctx 0xC3 anyCmd noCheck noCheck fun s _ => s.withChip fun c => c.beginOp session ctx false found

/-- The remap entries of a target: positions lie on its blocks that are not retired, in rising order (R335, R354). -/
def newRemap (nb t blocks : Nat) (retired : List Nat) : Tab (Option Nat) :=
  let first := if t = 0 then 2 else 0
  let good := ((List.range blocks).drop first).filter fun b => !retired.contains (tgtBlk t b)
  (List.range nb).filterMap fun p =>
    let b := good.getD p noBlock
    if b = p + first then none else some (tgtBlk t p, some b)

/-- New remap tables and reserves of a channel (R338, R440). -/
def ChanSt.renew (k : ChanSt) (nb spare : Nat) : ChanSt :=
  let gone (t : Nat) : Nat := (k.retired.filter fun b => b / 2 ^ 18 == t).length
  { k with
    remap := k.targets.flatMap fun (t : Nat × TargetParams) => newRemap nb t.1 t.2.blocks k.retired
    reserve0 := (k.targets.map fun (t : Nat × TargetParams) => t.2.blocks * spare / 100).headD 0
    reserve := k.targets.map fun (t : Nat × TargetParams) => (t.1, t.2.blocks * spare / 100 - gone t.1)
    lichen := k.targets.map fun (t : Nat × TargetParams) =>
      let taken := ((List.range (gone t.1 + 1)).find? fun i => !k.retired.contains (tgtBlk t.1 (t.2.blocks - 1 - i))).getD 0
      (t.1, { (default : LichenBlock) with taken := taken, absent := decide (t.2.blocks * spare / 100 < gone t.1) })
    progFailed := [], anchor := some true }

/-- The new pool: the lichen blocks were erased with the others; geometry, tables, an empty catalogue and empty bed namespaces; only the SEQ record's numbers go on (R440). -/
def Chip.newPool (c : Chip) (sani : Bool) : Chip :=
  let c := if sani then c else c.newPoolId
  let spare := c.rd F.mossCtrl_spare_pct
  let g := c.geometry spare
  let c := c.modMoss fun m => { m with
    fmt := some (spare, c.rd F.mossCtrl_op_pct), nb := g.1, raw := g.2, op := none, ns := [], lsn := 0, jseq := 0, cseq := 0, replay := 0, ckptAt := c.now, anchors := [] }
  let c := (List.range 8).foldl (fun c ch => if c.chUsable ch then c.modChan ch fun k => k.renew g.1 spare
    else c.modChan ch fun k => { k with anchor := k.anchor.map fun _ => false }) c
  let c := c.modCat fun k => { (default : CatSt) with
    frondSeq := k.frondSeq, discSeq := k.discSeq, placePtr := k.placePtr, lastT0 := k.lastT0, loads := k.loads, held := k.held }
  let c := { c with svc := default, lichen := { c.lichen with saved := [], savedFrom := none, savedCopy := 0, found := 0 } }
  let c := (((c.wr F.lichenCtrl_saved 0).wr F.lichenSaved_copy 0).wr F.lichenSaved_n0 0).wr F.lichenSaved_n1 0
  let c := (c.wr F.mossStatus_mounted 1).refreshDown
  ((c.logSeq.refreshFree).refreshFronds).refreshProgress

/-- The last block is erased: the new pool stands, the event is raised (R440, R442). -/
def execSanitiseFormatEnd (s : State) : Host.Outcome State Fault Refusal :=
  let c := s.chip
  s.nextChip (match c.moss.op with
    | some (sani, cur, total) => if total ≤ cur then ((c.newPool sani).raisePkg 26 [if sani then 0 else 1]).settle else c
    | none => c)

end Sys2Proof.Machine
end

