-- ==== Sys2Proof/Machine/Presence.lean ====
section
/-! DEFINITION. Button presence, seal presence, credentials and owners, and the key root (15_trust_presence_containment.md, R479 to R489). -/
namespace Sys2Proof.Machine

/-! ### Button presence (R484 to R487) -/

/-- A press: PRESENCE_N has been low for 20 ms; an open window closes (R484, R485). -/
def execPresencePress (s : State) : Host.Outcome State Fault Refusal :=
  s.nextChip ((s.chip.modTrust fun t => { t with pressed := true }).closeWindow 1)

/-- A release after a press: the window opens, unclaimed (R484, R485). -/
def execPresenceRelease (s : State) : Host.Outcome State Fault Refusal :=
  let c := s.chip
  s.nextChip (if c.trust.pressed then
      let c := c.modTrust fun t => { t with pressed := false, released := some c.keeper }
      (((c.wr F.trust_window_open 1).wr F.trust_window_held 0).wr F.trust_holder 0).raisePkg 27 []
    else c)

/-- The window's end is reached (R485). -/
def execPresenceWindowExpiry (s : State) : Host.Outcome State Fault Refusal :=
  let c := s.chip
  s.nextChip (if c.rdb F.trust_window_open && !c.windowOpen then c.closeWindow 0 else c)

/-- PRESENCE_CLAIM (R486). -/
def execPresenceClaim (session ctx : Nat) (s : State) : Host.Outcome State Fault Refusal :=
  s.fetchWith session ctx 0xC4 anyCmd noCheck noCheck fun s _ => s.withChip fun c =>
    if !c.windowOpen then c.fail session ctx 0x0301
    else if !c.rdb F.trust_window_held then
      (((c.wr F.trust_window_held 1).wr F.trust_holder session).raisePkg 28 (beBytes 2 session)).ok session ctx
    else if c.rd F.trust_holder = session then c.ok session ctx
    else c.fail session ctx 0x0308

/-! ### Seal presence (R488) -/

/-- An opening finds the counter full, or its fuse does not read back: no presence is granted, now or ever (R488). -/
def Chip.exhaustSeal (c : Chip) : Chip := if c.rdb F.trust_seal_exhausted then c else (c.wr F.trust_seal_exhausted 1).raisePkg 31 []

/-- The loop opens: a fuse is blown and read back, then presence is granted, bound to no session yet (R488, R489). -/
def Chip.openSeal (c : Chip) (fuseOk : Bool) : Chip :=
  let c := c.wr F.trust_seal_open 1
  let n := c.rd F.otp_seals
  if 1024 ≤ n then c.exhaustSeal
  else if !fuseOk then c.exhaustSeal
  else
    let c := (c.wr F.otp_seals (n + 1)).wr F.trust_seal_presence 1
    (c.modTrust fun t => { t with sealClosedAt := none, sealBound := 0 }).raisePkg 30 (beBytes 4 (n + 1))

/-- A sample of SEAL_B that matches the pattern or not; four in a row that differ open the loop, 64 that match close it. `fuseOk` is whether the
fuse of an opening reads back. -/
def execSealSample (matched fuseOk : Bool) (s : State) : Host.Outcome State Fault Refusal :=
  let c := s.chip
  s.nextChip (if matched then
      let c := c.modTrust fun t => { t with sealDiff := 0, sealSame := min 64 (t.sealSame + 1) }
      if c.trust.sealSame = 64 ∧ c.rdb F.trust_seal_open then
        let c := c.wr F.trust_seal_open 0
        if c.rdb F.trust_seal_presence then c.modTrust fun t => { t with sealClosedAt := some c.keeper } else c
      else c
    else
      let c := c.modTrust fun t => { t with sealSame := 0, sealDiff := min 4 (t.sealDiff + 1) }
      if c.trust.sealDiff = 4 ∧ !c.rdb F.trust_seal_open then
        c.openSeal fuseOk
      else c)

/-- 120 s after the loop has closed the presence ends. -/
def execSealPresenceExpiry (s : State) : Host.Outcome State Fault Refusal :=
  let c := s.chip
  s.nextChip (match c.trust.sealClosedAt with
    | some t => if t + 120 * 10 ^ 9 ≤ c.keeper then
        (c.wr F.trust_seal_presence 0).modTrust fun k => { k with sealClosedAt := none, sealBound := 0 }
      else c
    | none => c)

/-! ### Credentials (R480 to R483) -/

/-- The public key of a credential's 128 bytes: an uncompressed key of 97 bytes and 31 zeros (R480). -/
def credentialKey (bs : List Nat) : Option (List Nat) :=
  if bs.length = 128 ∧ bs.headD 0 = 4 ∧ bs.drop 97 = List.replicate 31 0 then some (bs.take 97) else none

/-- The identifier of a key: the first 16 bytes of its SHA-384 (R480). -/
def keyId (key : List Nat) : Nat := Config.sha384 key / 2 ^ 256 % 2 ^ 128

/-- Owners enrolled. -/
def Chip.owners (c : Chip) : Nat := (c.trust.creds.filter fun k => k.rights.testBit 8).length

/-- The owned bit follows the owners. -/
def Chip.refreshOwned (c : Chip) : Chip := c.wrb F.trust_owned (decide (c.owners ≠ 0))

/-- The record of a credential with its rights, when it may be enrolled (R480, R481). -/
def Chip.enrolment (c : Chip) (bs : List Nat) (rights : Nat) : Option CredRec :=
  (credentialKey bs).bind fun key =>
    if c.trust.creds.any (fun k => k.id == keyId key) || decide (64 ≤ c.trust.creds.length) || (rights.testBit 8 && decide (8 ≤ c.owners)) then none
    else some ⟨keyId key, beNat key, rights⟩

/-- The bootstrap sessions, which end when an owner is enrolled (R482). -/
def Chip.endBootstrap (c : Chip) : Chip := (c.liveSessions.filter fun n => (c.sess n).bootstrap).foldl Chip.closeSession c

/-- The data of OWNER_ENROL or CRED_ENROL have arrived (R480, R481, R483). -/
def State.enrolData (s : State) (n x rights : Nat) : State :=
  match s.phaseBytes n x 1 with
  | (none, s) => s.withChip fun c => c.fail n x 0x0401
  | (some bs, s) => s.withChip fun c =>
    match c.enrolment bs rights with
    | none => c.fail n x 0x0102
    | some k =>
      let c := ((c.modTrust fun t => { t with creds := t.creds ++ [k] }).refreshOwned).ok n x
      if rights.testBit 8 then c.endBootstrap else c

/-- OWNER_ENROL takes its credential. -/
def execOwnerEnrol (session ctx : Nat) (s : State) : Host.Outcome State Fault Refusal :=
  s.fetchWith session ctx 0xC5 anyCmd noCheck noCheck fun s k => s.startPhase session ctx k fun s => s

/-- CRED_ENROL: rights outside the eight classes are refused (R481). -/
def execCredEnrol (session ctx : Nat) (s : State) : Host.Outcome State Fault Refusal :=
  s.fetchWith session ctx 0xC6 anyCmd (fun _ k => if 256 ≤ k.p0 then 0x0102 else 0) noCheck fun s k => s.startPhase session ctx k fun s => s

/-- Sessions of the credentials removed end, one's own command's after its completion (R481, R483). -/
def Chip.closeOf (c : Chip) (gone : Nat → Bool) : Chip :=
  (c.liveSessions.filter fun n => !(c.sess n).bootstrap && gone (c.sess n).cred).foldl Chip.closeSession c

/-- CRED_REVOKE removes a credential, never the last owner (R481). -/
def execCredRevoke (session ctx : Nat) (s : State) : Host.Outcome State Fault Refusal :=
  s.fetchWith session ctx 0xC7 anyCmd noCheck noCheck fun s k => s.withChip fun c =>
    let id := k.p0 * 2 ^ 64 + k.p1
    match c.trust.creds.find? fun e => e.id == id with
    | none => c.fail session ctx 0x0502
    | some e =>
      if e.rights.testBit 8 ∧ c.owners = 1 then c.fail session ctx 0x0102
      else (((c.modTrust fun t => { t with creds := t.creds.filter fun f => f.id != id }).refreshOwned).ok session ctx).closeOf (· == id)

/-- The data of OWNER_TRANSFER have arrived: every credential goes, with its sessions; the new one is the only owner (R483). -/
def State.transferData (s : State) (n x : Nat) : State :=
  match s.phaseBytes n x 1 with
  | (none, s) => s.withChip fun c => c.fail n x 0x0401
  | (some bs, s) => s.withChip fun c =>
    match credentialKey bs with
    | none => c.fail n x 0x0102
    | some key =>
      let old := c.trust.creds.map (·.id)
      let owner : CredRec := ⟨keyId key, beNat key, 256⟩
      ((((c.modTrust fun t => { t with creds := [owner] }).refreshOwned).ok n x).closeOf old.contains).endBootstrap

/-- OWNER_TRANSFER takes its credential. -/
def execOwnerTransfer (session ctx : Nat) (s : State) : Host.Outcome State Fault Refusal :=
  s.fetchWith session ctx 0xCB anyCmd noCheck noCheck fun s k => s.startPhase session ctx k fun s => s

/-! ### The key root (R476, R477, R479) -/

/-- A pool no longer matches the key root: it is unmounted until it does (R477). -/
def Chip.rootChanged (c : Chip) : Chip := c.wr F.mossStatus_mounted 0

/-- The group is left: root, share and identifier go. -/
def Chip.leaveGroup (c : Chip) : Chip :=
  ((((c.modTrust fun t => { t with root := 0, share := 0, groupId := 0 }).wr F.trust_member 0).wr F.group_seat 0).wr F.group_k 0).wr F.group_n 0

/-- An epoch fuse is blown; with `dispose` set or the last fuse blown, the disposed fuse too (R479). -/
def Chip.resetKeyRoot (c : Chip) (dispose : Bool) : Chip :=
  let e := min 63 (c.rd F.otp_epoch + 1)
  let dead := dispose || e == 63 || c.rdb F.trust_disposed
  let c := ((c.wr F.otp_epoch e).wrb F.trust_disposed dead).modTrust fun t => { t with creds := [] }
  ((c.refreshOwned).leaveGroup.rootChanged).raisePkg 34 (beBytes 4 e ++ [dead.toNat])

/-- KEYROOT_RESET. -/
def execKeyrootReset (session ctx : Nat) (s : State) : Host.Outcome State Fault Refusal :=
  s.fetchWith session ctx 0xCC anyCmd noCheck noCheck fun s k => s.withChip fun c => (c.resetKeyRoot (k.cflags.testBit 0)).ok session ctx

end Sys2Proof.Machine
end

