-- ==== Sys2Proof/Machine/Groups.lean ====
section
/-! DEFINITION. Key continuity groups: shares, records, KCG_FORM and the three kinds of KCG_JOIN (15_trust_presence_containment.md, R491 to R496). -/
namespace Sys2Proof.Machine

/-! ### Shares (R491) -/

/-- Twice an element of GF(2^8) with field polynomial x^8 + x^4 + x^3 + x + 1. -/
def gf8Double (a : Nat) : Nat := if a < 128 then 2 * a else (2 * a) ^^^ 0x11B

/-- A product in GF(2^8), over the bits of the second factor. -/
def gf8Mul (a b : Nat) : Nat :=
  ((List.range 8).foldl (fun (x : Nat × Nat) i => (if b.testBit i then x.1 ^^^ x.2 else x.1, gf8Double x.2)) (0, a)).1

/-- A power in GF(2^8). -/
def gf8Pow (a : Nat) : Nat → Nat
  | 0 => 1
  | n + 1 => gf8Mul a (gf8Pow a n)

/-- The inverse of a non-zero element. -/
def gf8Inv (a : Nat) : Nat := gf8Pow a 254

/-- The value at a point of the polynomial whose coefficients are given from the constant one up. -/
def gf8Eval (coeffs : List Nat) (x : Nat) : Nat := coeffs.foldr (fun a r => gf8Mul r x ^^^ a) 0

/-- The value at `x` of the polynomial through points with distinct abscissas (R494). -/
def gf8Interpolate (pts : List (Nat × Nat)) (x : Nat) : Nat :=
  pts.foldl (fun r p =>
    let others := (pts.map (·.1)).filter (· != p.1)
    let w := others.foldl (fun w o => gf8Mul w (gf8Mul (x ^^^ o) (gf8Inv (p.1 ^^^ o)))) p.2
    r ^^^ w) 0

/-- f applied byte by byte: the shares of a seat, from the 48 bytes of G and those of the other coefficients. -/
def shareOf (g : List Nat) (coeffs : List (List Nat)) (seat : Nat) : List Nat :=
  (List.range 48).map fun i => gf8Eval (g.getD i 0 :: coeffs.map fun k => k.getD i 0) seat

/-- f at a point from shares of 48 bytes by seat. -/
def joinShares (shares : List (Nat × List Nat)) (x : Nat) : List Nat :=
  (List.range 48).map fun i => gf8Interpolate (shares.map fun s => (s.1, s.2.getD i 0)) x

/-- "NQ group". -/
def groupLabel : List Nat := [0x4E, 0x51, 0x20, 0x67, 0x72, 0x6F, 0x75, 0x70]

/-- The group identifier of G (R491). -/
def groupIdOf (g : List Nat) : Nat := Config.sha384 (groupLabel ++ g) / 2 ^ 256 % 2 ^ 128

/-! ### Records (R493) -/

/-- A group record's plain fields: group, kind, recipient's seat, k, n, signer's seat, digest of the recipient's key, salt, payload. -/
structure GroupRec where
  group : Nat
  kind : Nat
  seat : Nat
  k : Nat
  n : Nat
  sender : Nat
  recipient : Nat
  salt : Nat
  payload : List Nat
deriving DecidableEq, Repr, Inhabited

/-- The record's first 0x60 bytes. -/
def GroupRec.head (r : GroupRec) : List Nat :=
  beBytes 16 r.group ++ [r.kind, r.seat, r.k, r.n, r.sender] ++ List.replicate 11 0 ++ beBytes 48 r.recipient ++ beBytes 16 r.salt

/-- The key of a record between two identities: HKDF over their ECDH secret with the record's salt. -/
def recordKey (own other salt : Nat) : Nat := Config.derive 6 [Config.ecdh own other, salt]

/-- The 304 bytes of a record, sealed to the recipient's public key and signed by this package. -/
def Chip.groupRecord (c : Chip) (recipientKey : Nat) (r : GroupRec) : List Nat :=
  let h := r.head
  let sealed := aesSeal (recordKey c.identityKey recipientKey r.salt) Config.recordNonce h (padTo 96 r.payload)
  let b := h ++ sealed
  b ++ beBytes 96 (Config.ecdsaSign c.identityKey (Config.sha384 b))

/-- A record addressed to this package, when its recipient, its tag and its signature hold (R493, R496). -/
def Chip.openRecord (c : Chip) (bs : List Nat) : Option GroupRec :=
  let h := bs.take 0x60
  let f (o l : Nat) : Nat := fieldNat bs o l
  let sender := Config.seatKey (f 0 16) (f 0x14 1)
  let key := recordKey c.identityKey sender (f 0x50 16)
  if bs.length = 304 ∧ f 0x20 48 = c.idDigest ∧ Config.ecdsaVerify sender (Config.sha384 (bs.take 0xD0)) (f 0xD0 96) then
    (aesOpen key Config.recordNonce h ((bs.drop 0x60).take 96) ((bs.drop 0xC0).take 16)).map fun plain =>
      ⟨f 0 16, f 0x10 1, f 0x11 1, f 0x12 1, f 0x13 1, f 0x14 1, f 0x20 48, f 0x50 16, plain⟩
  else none

/-! ### Membership -/

/-- The package takes a seat: its key root is G from then on (R492, R494, R496). -/
def Chip.takeSeat (c : Chip) (g share : List Nat) (seat k n : Nat) : Chip :=
  let id := groupIdOf g
  let c := c.modTrust fun t => { t with root := beNat g, share := beNat share, groupId := id }
  ((((c.wr F.trust_member 1).wr F.group_seat seat).wr F.group_k k).wr F.group_n n).raisePkg 35 (seat :: beBytes 16 id)

/-- A package may join: it is no member and its catalogue holds no object (R496). -/
def Chip.mayJoin (c : Chip) : Bool := !c.rdb F.trust_member && c.cat.objects == []

/-- A random 48-byte coefficient for each number. -/
def drawCoeffs : Nat → Chip → List (List Nat) × Chip
  | 0, c => ([], c)
  | n + 1, c =>
    let d := c.draw
    let r := drawCoeffs n d.2
    (beBytes 48 d.1 :: r.1, r.2)

/-- The seat records of seats 2 to n, each with a fresh salt (R492, R493). -/
def seatRecords (g : List Nat) (coeffs : List (List Nat)) (k n : Nat) : List (List Nat × Nat) → Chip → List Nat × Chip
  | [], c => ([], c)
  | (key, seat) :: rest, c =>
    let d := c.draw
    let r : GroupRec := ⟨groupIdOf g, 1, seat, k, n, 1, Config.sha384 key, d.1 % 2 ^ 128, g ++ shareOf g coeffs seat⟩
    let t := seatRecords g coeffs k n rest d.2
    (d.2.groupRecord (beNat key) r ++ t.1, t.2)

/-- KCG_FORM on a member list (R492): none where the use is not allowed; otherwise the records it returns. -/
def Chip.formGroup (c : Chip) (k n : Nat) (bs : List Nat) : Option (List Nat × Chip) :=
  let keys := (chunks 128 n bs).map credentialKey
  if 2 ≤ k ∧ k ≤ n ∧ n ≤ 16 ∧ bs.length = 128 * n ∧ !c.rdb F.trust_member ∧ keys.all Option.isSome ∧
      keys.headD none = some (beBytes 97 c.identityPub) then
    let g := beBytes 48 c.keyRoot
    let co := drawCoeffs (k - 1) c
    let r := seatRecords g co.1 k n (((keys.map (·.getD [])).zipIdx 1).drop 1) co.2
    some (r.1, r.2.takeSeat g (shareOf g co.1 1) 1 k n)
  else none

/-- The member list of a KCG_FORM has arrived. -/
def State.formData (s : State) (n x : Nat) : State :=
  let k := (s.chip.ctxSt n x).cmd
  match s.phaseBytes n x 1 with
  | (none, s) => s.withChip fun c => c.fail n x 0x0401
  | (some bs, s) => s.withChip fun c =>
    match c.formGroup k.p0 k.p1 bs with
    | none => c.fail n x 0x0102
    | some r => r.2.ok n x r.1

/-- KCG_FORM takes its member list. -/
def execKcgForm (session ctx : Nat) (s : State) : Host.Outcome State Fault Refusal :=
  s.fetchWith session ctx 0xCD anyCmd noCheck noCheck fun s k => s.startPhase session ctx k fun s => s.formData session ctx

/-! ### KCG_JOIN (R494 to R496) -/

/-- Kind 1: a seat record installs G and this seat's share. -/
def Chip.joinSeat (c : Chip) (bs : List Nat) : Option (List Nat × Chip) :=
  if !c.mayJoin then none
  else (c.openRecord bs).bind fun r =>
    if r.kind = 1 then some ([], (c.takeSeat (r.payload.take 48) (r.payload.drop 48) r.seat r.k r.n).rootChanged) else none

/-- A joiner's report and certificate satisfy R495. -/
def Chip.joinerOk (c : Chip) (report cert : List Nat) : Bool :=
  let vendors := c.trust.vendors.zipIdx.filter fun v => !(c.rd F.otp_revoked).testBit v.2
  report.length == 352 && Config.ecdsaVerify (Config.certKey cert) (Config.sha384 (report.take 0x100)) (fieldNat report 0x100 96) &&
    (vendors.any fun v => Config.certVerify v.1 cert) && !(fieldNat report 0xA8 4).testBit 3 &&
    decide (fieldNat report 0x10 32 = Config.sha384 (beBytes 16 c.trust.groupId) / 2 ^ 128 % 2 ^ 256)

/-- Kind 2: a member releases its share to the joiner that fills a seat, as the command's completion data. -/
def Chip.joinRelease (c : Chip) (bs : List Nat) : Option (List Nat × Chip) :=
  let seat := fieldNat bs 0 1
  let report := (bs.drop 4).take 352
  let cert := (bs.drop 358).take (fieldNat bs 356 2)
  if c.rdb F.trust_member ∧ 1 ≤ seat ∧ seat ≤ c.rd F.group_n ∧ c.joinerOk report cert then
    let d := c.draw
    let key := Config.certKey cert
    let r : GroupRec := ⟨c.trust.groupId, 2, seat, c.rd F.group_k, c.rd F.group_n, c.rd F.group_seat, Config.sha384 (beBytes 97 key), d.1 % 2 ^ 128,
      beBytes 48 c.trust.share ++ List.replicate 48 0⟩
    some (c.groupRecord key r, d.2)
  else none

/-- Kind 3: the joiner reconstructs G from k release records of distinct seats, checks it against the group identifier and takes its seat. -/
def Chip.joinAdmit (c : Chip) (bs : List Nat) : Option (List Nat × Chip) :=
  let recs := (chunks 304 (bs.length / 304 + 1) bs).map c.openRecord
  if !c.mayJoin || !recs.all Option.isSome then none
  else
    match recs.filterMap id with
    | [] => none
    | r :: rest =>
      let all := r :: rest
      let agree := all.all fun e => e.kind == 2 && e.group == r.group && e.k == r.k && e.n == r.n && e.seat == r.seat
      let froms := all.map (·.sender)
      let shares := all.map fun e => (e.sender, e.payload.take 48)
      let g := joinShares shares 0
      if agree && decide (all.length = r.k) && decide (froms.Nodup) && (froms.all fun f => decide (1 ≤ f) && decide (f ≤ 16)) && decide (groupIdOf g = r.group) then
        some ([], (c.takeSeat g (joinShares shares r.seat) r.seat r.k r.n).rootChanged)
      else none

/-- What a kind does with the data after its number. -/
def Chip.joinKind (c : Chip) (kind : Nat) (bs : List Nat) : Option (List Nat × Chip) :=
  match kind with
  | 1 => c.joinSeat bs
  | 2 => c.joinRelease bs
  | 3 => c.joinAdmit bs
  | _ => none

/-- The kind a KCG_JOIN's data name. -/
def State.joinNamed (s : State) (n x : Nat) : Nat := fieldNat (s.tilesRange (s.chip.ctxSt n x).tiles 0 4) 0 4

/-- The data of a KCG_JOIN have arrived: a kind that R494 does not name is an invalid field; the others wait for the command of their kind. -/
def State.joinData (s : State) (n x : Nat) : State :=
  let kind := s.joinNamed n x
  if 1 ≤ kind ∧ kind ≤ 3 ∧ 4 ≤ (s.chip.ctxSt n x).cmd.dlen then { s with chip := s.chip.modCtx n x fun y => { y with wait := .activity } }
  else s.withChip fun c => c.fail n x 0x0102

/-- Performs a KCG_JOIN of a kind. -/
def State.joinPerform (s : State) (n x kind : Nat) : State :=
  match s.phaseBytes n x 1 with
  | (none, s) => s.withChip fun c => c.fail n x 0x0401
  | (some bs, s) => s.withChip fun c =>
    match c.joinKind kind (bs.drop 4) with
    | none => c.fail n x 0x0102
    | some r => r.2.ok n x r.1

/-- A KCG_JOIN command of a kind: fetched, or, once its data have arrived and name that kind, performed. -/
def State.join (s : State) (n x kind : Nat) : Host.Outcome State Fault Refusal :=
  let k := s.chip.ctxSt n x
  if k.phase = .active ∧ k.cmd.opcode = 0xCE ∧ k.wait = .activity then
    if s.joinNamed n x = kind then .next (s.joinPerform n x kind) else .next s
  else s.fetchWith n x 0xCE anyCmd noCheck noCheck fun s k => s.startPhase n x k fun s => s.joinData n x

def execKcgJoinTakeSeat (session ctx : Nat) (s : State) : Host.Outcome State Fault Refusal := s.join session ctx 1
def execKcgJoinRelease (session ctx : Nat) (s : State) : Host.Outcome State Fault Refusal := s.join session ctx 2
def execKcgJoinAdmit (session ctx : Nat) (s : State) : Host.Outcome State Fault Refusal := s.join session ctx 3

end Sys2Proof.Machine
end

