-- ==== Sys2Proof/Machine/Containment.lean ====
section
/-! DEFINITION. Windows set by the keeper, violations, transactions of the fabric, the debug port (15_trust_presence_containment.md, R498 to R506; R36). -/
namespace Sys2Proof.Machine

/-! ### Windows (R498, R499) -/

/-- Two ranges share a byte. -/
def overlaps (a b x y : Nat) : Bool := decide (max a x < min b y)

/-- Sets window `i` of master `m`. -/
def Chip.setWindow (c : Chip) (m i : Nat) (en rd wr space : Bool) (base stop : Nat) : Chip :=
  let w := 16 * m + i
  (((((c.wrb (F.win_en w) en).wrb (F.win_rd w) rd).wrb (F.win_wr w) wr).wrb (F.win_space w) space).wr (F.win_base w) (base / 4096)).wr
    (F.win_end w) (stop / 4096)

/-- A range lies within one of the usable ranges of DRAM (R369, R498). -/
def inDram (base stop : Nat) : Bool :=
  decide (stop ≤ 7 * 2 ^ 30) || (decide (0x200000000 ≤ base) && decide (stop ≤ 0x200000000 + 7 * 2 ^ 30))

/-- The keeper refuses a request (R498). -/
def refusesWindow (m : Nat) (wr space : Bool) (base stop : Nat) : Bool :=
  match masterOf m with
  | .keeper _ | .unknown => true
  | k =>
    if space then overlaps base stop 0x50900000 (0x50900000 + 16 * 16 * 361) || overlaps base stop F.otp_rollback.addr (F.otp_rollback.addr + 8)
    else !inDram base stop ||
      (wr && (match k with | .app _ => true | _ => false) && (List.range 2).any fun e => overlaps base stop (Config.keeperArea e).1 (Config.keeperArea e).2)

/-- WINDOW_REQUEST: an entry asked for by application firmware is set, or refused (R498). -/
def execWindowRequest (m idx : Nat) (en rd wr space : Bool) (base stop : Nat) (s : State) : Host.Outcome State Fault Refusal :=
  let c := s.chip
  s.nextChip (if 16 ≤ idx ∨ (en && refusesWindow m wr space (base / 4096 * 4096) (stop / 4096 * 4096)) ∨ 361 ≤ m ∨ (m < 16 ∧ m % 8 = 0) then
      c.emit (.bus m 4 [])
    else (c.setWindow m idx en rd wr space base stop).emit (.bus m 6 []))

/-! ### Violations (R500 to R502) -/

/-- A violation: nothing is performed, a read returns poison; the master freezes with its domain and its consequences, the event and the record entry name
it. A keeper is not frozen: its die is out (R26, R27, R400, R500, R501). -/
def Chip.violation (c : Chip) (m space kind a : Nat) : Chip :=
  let c := c.noteViolation m space kind a
  match masterOf m with
  | .keeper d => c.keeperFault d
  | .data n => (c.freezeDomain m).wr (F.use_frozen (n - 1)) 1
  | .cluster d => c.freezeCluster d
  | _ => c.freezeDomain m

/-- The keeper writes words of window tables, but not of its own (R498). -/
def Chip.writeTable (c : Chip) (a : Nat) : List Nat → Chip
  | [] => c
  | v :: vs =>
    let w := (a - 0x50900000) / 16
    let i := a / 4 % 4
    let m := w / 16
    let old := c.rd (F.win_en w) + c.rd (F.win_rd w) * 2 + c.rd (F.win_wr w) * 4 + c.rd (F.win_space w) * 8 + c.rd (F.win_base w) * 2 ^ 12 +
      c.rd (F.win_end w) * 2 ^ 76
    let v' := old - wordOf old i * 2 ^ (32 * i) + v % 2 ^ 32 * 2 ^ (32 * i)
    let c := if inWindowTable a && !(decide (m < 16) && m % 8 == 0) then
        c.setWindow m (w % 16) (v'.testBit 0) (v'.testBit 1) (v'.testBit 2) (v'.testBit 3) (v' / 2 ^ 12 % 2 ^ 52 * 4096) (v' / 2 ^ 76 % 2 ^ 52 * 4096)
      else c
    writeTable c (a + 4) vs

/-- Words of a transaction's data, most significant byte first (R12). -/
def dataWords : List Nat → List Nat
  | a :: b :: x :: y :: t => beNat [a, b, x, y] :: dataWords t
  | _ => []

/-- A permitted transaction is performed. -/
def State.transact (s : State) (m space kind a len : Nat) (data : List Nat) : State :=
  if space = 0 then
    let s := if kind = 1 then s
      else (List.range ((a % 64 + len + 63) / 64)).foldl (fun s i => s.readBlock m (a / 64 * 64 + 64 * i) 0) s
    if kind = 0 then s else (blockPieces len a (padTo len data)).foldl (fun s p => s.writePiece m p.1 p.2) s
  else
    let n := len / 4
    if !((List.range n).all fun i => addressOk (a + 4 * i)) then s.withChip fun c => c.emit (.bus m 2 [])
    else
      let s := if kind = 1 then s
        else s.withChip fun c => let r := c.readWords (m + 1000) a n true; r.2.emit (.bus m 0 (r.1.flatMap (beBytes 4)))
      if kind = 0 then s
      else
        let ws := dataWords (padTo len data)
        let s := if inWindowTable a then s.withChip fun c => c.writeTable a ws else s.writeWords .all a (ws.map some)
        s.withChip fun c => c.emit (.bus m 6 [])

/-- A fabric transaction is granted and judged; a keeper's grant does not move the pointer of its die's arbiter (R34, R36, R499, R500). -/
def execFabricTransaction (m space kind a len : Nat) (data : List Nat) (s : State) : Host.Outcome State Fault Refusal :=
  let c := s.chip
  if !c.issues m then .next s
  else
    let e := c.masterDie m
    let keeper := match masterOf m with | .keeper _ => true | _ => false
    let c := if keeper then c else c.modDie e fun k => { k with fabricPtr := arbNext 361 m }
    if c.permits m (space % 2) (kind % 3) a len then hooked (.next ({ s with chip := c }.transact m (space % 2) (kind % 3) a len data))
    else hooked (s.nextChip (c.violation m (space % 2) (kind % 3) a))

/-! ### MASTER_UNFREEZE, DEBUG_UNLOCK (R503 to R506) -/

/-- What a level path names for MASTER_UNFREEZE (R18, R505): nothing for a unit or a path of no such level. -/
inductive Domain where
  | cluster (port : Nat) | region (r : Nat) | die (e : Nat) | package
deriving DecidableEq, Repr

def domainOf (p : Nat) : Option Domain :=
  match (List.range 24).find? fun d => clusterPath d 7 == p with
  | some d => some (.cluster d)
  | none =>
    match (List.range 4).find? fun r => regionPath r == p with
    | some r => some (.region r)
    | none =>
      match (List.range 2).find? fun e => diePath e == p with
      | some e => some (.die e)
      | none => if p = packagePath then some .package else none

/-- The masters a domain's reset releases (R497). -/
def Domain.masters : Domain → List Nat
  | .cluster d => [336 + d]
  | .region r => (List.range 12).map fun i => 16 + 32 * (r / 2) + 12 * (r % 2) + i
  | .die e => ((List.range 7).map fun i => 8 * e + 1 + i) ++ (List.range 32).map fun i => 16 + 32 * e + i
  | .package => [360]

/-- Resets a cluster: its engine and units run again, what it was reading has ended; registers keep their values (R26, R505, R595). -/
def Chip.resetCluster (c : Chip) (d : Nat) : Chip :=
  let c := (c.endReads d 10).modClu d fun _ => default
  ((portUnits d).foldl (fun c u => c.modUnit u fun s => { s with out := false }) c).refreshPort d

/-- Resets a region: its decoder pool, slice and flash engines run again, and its arbiters' pointers are at 0 (R26, R34, R505). -/
def Chip.resetRegion (c : Chip) (r : Nat) : Chip :=
  ((c.dropPool r).modRgn r fun _ => default).modCat fun k => { k with placePtr := tabErase k.placePtr r }

/-- A master of the domain, or the domain itself, is frozen (R26, R505). -/
def Chip.domainFrozen (c : Chip) (k : Domain) : Bool :=
  (k.masters.any fun m => c.rdb (F.mst_frozen m)) || (match k with
    | .region r => (c.rgnSt r).frozen
    | _ => false)

/-- Resets a domain: every master of it leaves the reset unfrozen. -/
def Chip.resetDomain (c : Chip) (k : Domain) : Chip :=
  let c := k.masters.foldl (fun c m => c.wr (F.mst_frozen m) 0) c
  match k with
  | .cluster d => c.resetCluster d
  | .region r => c.resetRegion r
  | .die _ => c
  | .package => c.wr F.trust_debug_unlocked 0

/-- MASTER_UNFREEZE. -/
def execMasterUnfreeze (session ctx : Nat) (s : State) : Host.Outcome State Fault Refusal :=
  s.fetchWith session ctx 0xCA anyCmd noCheck noCheck fun s k => s.withChip fun c =>
    match domainOf k.p0 with
    | none => c.fail session ctx 0x0102
    | some d =>
      if c.domainFrozen d then (c.resetDomain d).ok session ctx else c.fail session ctx 0x0102

/-- DEBUG_UNLOCK: windows over the general areas and the management address space, never over tiles or keys (R503). -/
def Chip.unlockDebug (c : Chip) (n : Nat) : Chip :=
  let c := (c.setWindow 360 0 true true true false 0x142000000 0x1C0000000).setWindow 360 1 true true true false 0x342000000 0x3C0000000
  let c := c.setWindow 360 2 true true true true 0x40000000 0x60000000
  (c.wr F.trust_debug_unlocked 1).raisePkg 36 (beBytes 2 n)

def execDebugUnlock (session ctx : Nat) (s : State) : Host.Outcome State Fault Refusal :=
  s.fetchWith session ctx 0xC9 anyCmd noCheck noCheck fun s _ => s.withChip fun c => (c.unlockDebug session).ok session ctx

end Sys2Proof.Machine
end

