-- ==== Sys2Proof/Machine/Service.lean ====
section
/-! DEFINITION. Reading, marking, rearming and clearing the lichen record, and servo traces (17_service_and_lichen_record.md, R547, R548). -/
namespace Sys2Proof.Machine

/-- Two rings merged on time, each in its own order; the first one's entry comes first when times are equal (R547). -/
def mergeRings : Nat → List LichenEntry → List LichenEntry → List LichenEntry
  | 0, a, b => a ++ b
  | _, [], b => b
  | _, a, [] => a
  | n + 1, x :: a, y :: b => if x.time ≤ y.time then x :: mergeRings n a (y :: b) else y :: mergeRings n (x :: a) b

/-- The entries of a source: 0 merged, 1 and 2 the dies' rings, 3 the saved copy, read as a merge too. -/
def Chip.lichenSource (c : Chip) (src : Nat) : List LichenEntry :=
  let l := c.lichen
  let saved (e : Nat) : List LichenEntry := (l.saved.filter fun x => x.1 == e).map (·.2)
  match src with
  | 0 => mergeRings (l.ring0.length + l.ring1.length) l.ring0 l.ring1
  | 1 => l.ring0
  | 2 => l.ring1
  | _ => mergeRings l.saved.length (saved 0) (saved 1)

/-- LICHEN_READ: whole entries from a start, as many as exist and fit; none is overwritten between fetch and sending here (R547, R596). -/
def execLichenRead (session ctx : Nat) (s : State) : Host.Outcome State Fault Refusal :=
  s.fetchWith session ctx 0xE0 anyCmd
    (fun c k => if 3 < k.p0 ∨ (k.p0 = 3 ∧ !c.rdb F.lichenCtrl_saved) then 0x0102 else 0) noCheck fun s k =>
      let es := ((s.chip.lichenSource k.p0).drop k.p1).take (k.dlen / 64)
      s.answer session ctx (es.flatMap lichenBytes)
        (beBytes 4 es.length ++ beBytes 4 0 ++ [s.chip.rd F.lichenCtrl_frozen, 0, 0, 0] ++ beBytes 8 (s.chip.rd F.lichenFreeze_f) ++
          beBytes 8 (s.chip.rd F.lichenSaved_copy))

/-- LICHEN_MARK writes the host's 32 bytes (R533). -/
def execLichenMark (session ctx : Nat) (s : State) : Host.Outcome State Fault Refusal :=
  s.fetchWith session ctx 0xE1 anyCmd noCheck noCheck fun s k => s.withChip fun c =>
    (c.lichenWrite 0x0405 packagePath (beBytes 8 k.p0 ++ beBytes 8 k.p1 ++ beBytes 8 k.p2 ++ beBytes 8 k.p3)).ok session ctx

/-- LICHEN_REARM (R538). -/
def execLichenRearm (session ctx : Nat) (s : State) : Host.Outcome State Fault Refusal :=
  s.fetchWith session ctx 0xE2 anyCmd noCheck noCheck fun s _ => s.withChip fun c => (c.rearmRecord session).ok session ctx

/-- The saved copy is erased: every lichen block is (R548). -/
def Chip.clearCopy (c : Chip) : Chip :=
  let c := { c.wipeLichen with lichen := { c.lichen with saved := [], savedFrom := none, savedCopy := 0 } }
  (((c.wr F.lichenCtrl_saved 0).wr F.lichenSaved_copy 0).wr F.lichenSaved_n0 0).wr F.lichenSaved_n1 0

/-- Both rings are erased and their seq restarts, a freeze is released, and the clear entry is the first of the emptied ring (R535, R548). -/
def Chip.clearRecord (c : Chip) (session : Nat) (copy : Bool) : Chip :=
  let c := { c with lichen := { c.lichen with ring0 := [], ring1 := [], trigger := none } }
  let c := (c.wr (F.lichenCnt_seq 0) 0).wr (F.lichenCnt_seq 1) 0
  let c := ((c.wr F.lichenCtrl_frozen 0).wr F.lichenCtrl_f_sky 0).wr F.lichenFreeze_f 0
  let c := if copy then c.clearCopy else c
  c.lichenWrite 0x0408 packagePath (beBytes 2 session ++ [copy.toNat])

/-- LICHEN_CLEAR. -/
def execLichenClear (session ctx : Nat) (s : State) : Host.Outcome State Fault Refusal :=
  s.fetchWith session ctx 0xE3 anyCmd noCheck noCheck fun s k => s.withChip fun c => (c.clearRecord session (k.cflags.testBit 0)).ok session ctx

/-- The records of a port's trace ring, oldest first: from the record that is written next round to the one before it (R258, R547). -/
def State.traceBytes (s : State) (d : Nat) : List Nat :=
  let base := s.chip.rd (F.traceBase_base d) / 64 * 64
  let i := s.chip.rd (F.traceCtrl_index d)
  memReads s.dram (base + 32 * i) (32 * (traceRing - i)) ++ memReads s.dram base (32 * i)

/-- TRACE_READ. -/
def execTraceRead (session ctx : Nat) (s : State) : Host.Outcome State Fault Refusal :=
  s.fetchWith session ctx 0xE4 anyCmd noCheck noCheck fun s k =>
    if !s.chip.rdb (F.traceCtrl_en k.p0) then s.withChip fun c => c.fail session ctx 0x0605
    else
      s.answer session ctx ((s.traceBytes k.p0).take k.dlen)
        ([s.chip.rd (F.traceCtrl_frozen k.p0), 0, 0, 0, 0, 0, 0, 0] ++ beBytes 8 (s.chip.rd (F.traceLast_t k.p0)))

end Sys2Proof.Machine
end

