-- ==== Sys2Proof/Machine/Resets.lean ====
section
/-! DEFINITION. The reset levels: cold, warm and die reset (R514, R595; 13_command_reference.md, R439). -/
namespace Sys2Proof.Machine

/-- The fields a cold reset does not return to a written reset value: those of OTP, SPI NOR and the straps, the latched address, and what the rings of the
lichen record are (R46, R465, R507, R514, R535, R538, R595). -/
def keptFields : List Fld :=
  [F.otp_rollback, F.otp_seals, F.otp_epoch, F.otp_revoked, F.trust_owned, F.trust_seal_exhausted, F.trust_member, F.trust_disposed, F.group_seat,
    F.group_k, F.group_n, F.straps_hmode, F.straps_cal_mode, F.straps_test_n, F.svcRetired_retired, F.thermStatus_trips, F.chain_sys_addr,
    F.chain_addr_valid, F.lichenCnt_seq 0, F.lichenCnt_seq 1, F.lichenCtrl_frozen, F.lichenCtrl_f_sky, F.lichenFreeze_f, F.mossStatus_down]

/-- The register file after a cold reset; THERM_N stays asserted while a trip holds the dies in reset (R573). -/
def Chip.coldFields (c : Chip) : Tab Nat :=
  let m := keptFields.foldl (fun m f => fldSet m f (c.rd f)) []
  let m := fldSet (fldSet m F.thermLife_equiv_h c.power.lifeStored) F.thermLife_hours c.power.hoursStored
  if c.power.tripped then fldSet (fldSet m F.thermStatus_therm 1) F.thermStatus_tmax (c.rd F.thermStatus_tmax) else m

/-- What SPI NOR keeps of a die's power-up: its trim record (R525); its sensor goes on. -/
def BootSt.cold (b : BootSt) : BootSt :=
  { (default : BootSt) with record := b.record, recSeq := b.recSeq, recMethod := b.recMethod, tNow := b.tNow }

/-- What SPI NOR and OTP keep of trust (R465, R466, R480). -/
def TrustSt.cold (t : TrustSt) : TrustSt :=
  { (default : TrustSt) with
    seed := t.seed, vendors := t.vendors, destroyed := t.destroyed, creds := t.creds, root := t.root, share := t.share, groupId := t.groupId
    images := t.images }

/-- A cold reset: burns stop, then only flash, SPI NOR, OTP, the latched address and the lichen rings stay; its entry is written (R439, R514, R533,
R539, R595). The sequence begins again at RESET_RELEASE. -/
def Chip.coldReset (c : Chip) (cause session : Nat) : Chip :=
  let c := ((List.range 24).foldl (fun c d => c.burnInterrupt d 1) c).cutPool
  let c' : Chip := { (default : Chip) with
    now := c.now, free := c.free, sent := c.sent, flds := c.coldFields
    lichen := { c.lichen with stopped := false }
    mgmt := { (default : MgmtSt) with slotImage := c.mgmt.slotImage }
    chain := { (default : ChainSt) with oldAddr := c.chain.oldAddr, resetAt := c.now }
    link := c.link.map fun (e : Nat × LinkSt) => (e.1, { (default : LinkSt) with identity := e.2.identity })
    cat := { c.cat with placePtr := [] }
    moss := { c.moss with chans := c.moss.chans.map fun (e : Nat × ChanSt) => (e.1, { e.2 with present := false, targets := [] }) }
    host := { (default : HostSt) with net := c.host.net }
    trust := c.trust.cold
    boot := c.boot.map fun (e : Nat × BootSt) => (e.1, e.2.cold)
    power := { (default : PowerSt) with tripped := c.power.tripped, lifeStored := c.power.lifeStored, hoursStored := c.power.hoursStored, lifeAt := c.now } }
  c'.lichenWrite 0x0401 packagePath ([1, cause] ++ beBytes 2 session)

/-- COLD_RESET: its status is sent before the reset (R439). -/
def execColdReset (session ctx : Nat) (s : State) : Host.Outcome State Fault Refusal :=
  s.fetchWith session ctx 0xA6 anyCmd noCheck noCheck fun s _ => s.withChip fun c => (c.ok session ctx).coldReset 1 session

/-- Writes of beds that have not reached their effect point never happened (R439). -/
def Chip.undoBeds (c : Chip) : Chip :=
  let undo := (c.moss.writes.filter fun w => decide (2 ≤ w.space) && decide (w.space ≤ 60)).reverse
  c.modMoss fun m => { m with
    map := undo.foldl (fun t w => tabSet t (mapKey w.space w.granule) w.old) m.map
    writes := m.writes.filter fun w => !(decide (2 ≤ w.space) && decide (w.space ≤ 60)) }

/-- The host ports take the mode asked for (R388). -/
def Chip.changeMode (c : Chip) : Chip :=
  let mode := c.rd F.hostCfg_mode
  if mode = c.host.modeNext then c else ((List.range 8).foldl Chip.hostDown c).setPorts mode

/-- Axes armed for a launch are disarmed (R439). -/
def Chip.disarmLaunches (c : Chip) : Chip :=
  (List.range 48).foldl (fun c i =>
    if (c.axisSt i).armed.any fun q => q.start == .launch then
      (c.wr (F.axisStatus_state (i / 2) (i % 2)) 0).modAxis i fun a => { a with armed := none }
    else c) c

/-- What a warm reset does: every command ends, what reached only RECEIVED is gone, burns stop at the next position boundary with their queues
emptied; servo, spindles, sessions and registers stay (R299, R388, R439, R595). -/
def Chip.warmReset (c : Chip) (session : Nat) : Chip :=
  let c := c.liveSessions.foldl (fun c n => c.endCommands n 0x0802 none) c
  let c := ((c.dropUnstaged).undoBeds).stopBurns
  let c := c.modCat fun k => { k with fronds := k.fronds.map fun f => { f with pinnae := f.pinnae.map fun p =>
    if p.state = .burning then { p with idle := true } else p } }
  let c := (({ c with svc := default }.modTrust fun t => { t with act := none }).disarmLaunches).changeMode
  (c.lichenWrite 0x0401 packagePath ([0, 1] ++ beBytes 2 session)).settle

/-- WARM_RESET: its own status was committed before the reset (R439). -/
def execWarmReset (session ctx : Nat) (s : State) : Host.Outcome State Fault Refusal :=
  s.fetchWith session ctx 0xA5 anyCmd noCheck noCheck fun s _ => s.withChip fun c => (c.ok session ctx).warmReset session

/-! ### Die reset (R27, R514, R595) -/

/-- A field of a die's registers. -/
def dieField (e key : Nat) : Bool := key / 128 / 2 ^ 28 == 4 && key / 128 / 2 ^ 27 % 2 == e

/-- The entries of a table whose numbers lie outside one die's share of it. -/
def otherDie {α : Type} (t : Tab α) (share e : Nat) : Tab α := t.filter fun x => x.1 / share != e

/-- The register file after a die reset; the ring's sequence and the state of the flash channels are what they are (R535, R595). -/
def Chip.dieFields (c : Chip) (e : Nat) : Tab Nat :=
  [F.lichenCnt_seq e, F.fcStatus_state (2 * e) 0, F.fcStatus_state (2 * e) 1, F.fcStatus_state (2 * e + 1) 0, F.fcStatus_state (2 * e + 1) 1].foldl
    (fun m f => fldSet m f (c.rd f)) (c.flds.filter fun x => !dieField e x.1)

/-- A die is reset after its fault: its registers and everything of its drives return to reset values, its masters leave the reset unfrozen; the
identities last recorded and its trim record stay; calibration, training and bring-up follow by their own commands. -/
def Chip.dieReset (c : Chip) (e : Nat) : Chip :=
  let heads := (diePorts e).map fun d => (d, (c.linkSt d).identity)
  let c := { c with
    flds := c.dieFields e, clu := otherDie c.clu 12 e, rgn := otherDie c.rgn 2 e, lane := otherDie c.lane 48 e, scr := otherDie c.scr 48 e, traceAt := otherDie c.traceAt 12 e, link := otherDie c.link 12 e
    btl := otherDie c.btl 12 e, unit := otherDie c.unit 48 e, pool := otherDie c.pool 2 e, read := otherDie c.read 12 e, burn := otherDie c.burn 12 e
    servo := otherDie c.servo 12 e, spin := otherDie c.spin 12 e, axis := otherDie c.axis 24 e, buf := otherDie c.buf 1 e }
  let c := heads.foldl (fun c h => c.modLink h.1 fun l => { l with identity := h.2 }) c
  let c := ((c.modDie e fun _ => default).modDie (1 - e) fun k => { k with otherLost := false })
  let c := { c with boot := tabMod c.boot e BootSt.cold, cat := { c.cat with placePtr := otherDie c.cat.placePtr 2 e } }
  let masters := (Domain.die e).masters ++ ((List.range 2).flatMap fun i => (Domain.region (2 * e + i)).masters) ++
    (diePorts e).flatMap fun d => (Domain.cluster d).masters
  let c := masters.foldl (fun c m => c.wr (F.mst_frozen m) 0) c
  c.lichenWrite 0x0401 (diePath e) ([2, 2] ++ beBytes 2 0)

/-- DIE_RESET follows a die fault (R27). -/
def execDieReset (e : Nat) (s : State) : Host.Outcome State Fault Refusal :=
  s.nextChip (if (s.chip.dieSt e).out then s.chip.dieReset e else s.chip)

/-- RESET_N falls: a cold reset, at once, or at the end of the copy of a power failure (R509, R560). -/
def execResetNFall (s : State) : Host.Outcome State Fault Refusal :=
  let c := s.chip
  s.nextChip (
    if c.power.resetLow then c
    else if c.power.copying then { c with power := { c.power with resetLow := true } }
    else
      let c := c.coldReset 0 0
      { c with power := { c.power with resetLow := true } })

end Sys2Proof.Machine
end

