-- ==== Sys2Proof/Machine/PowerUp.lean ====
section
/-! DEFINITION. The power-up sequence, calibration and trims (16_power_up_and_calibration.md, R507 to R531). Temperatures are in 0.25 °C. -/
namespace Sys2Proof.Machine

def Chip.modBoot (c : Chip) (e : Nat) (f : BootSt → BootSt) : Chip := { c with boot := tabMod c.boot e f }
def Chip.bootSt (c : Chip) (e : Nat) : BootSt := tabGet c.boot e
def Chip.modPower (c : Chip) (f : PowerSt → PowerSt) : Chip := { c with power := f c.power }

/-- A step of the sequence begins (pkg.boot.progress). -/
def Chip.stepBegun (c : Chip) (n : Nat) : Chip := c.wr F.bootProgress_step (max n (c.rd F.bootProgress_step))

/-- Dies that are not out. -/
def Chip.liveDies (c : Chip) : List Nat := [0, 1].filter fun e => !(c.dieSt e).out

/-! ### Steps 2 and 3: straps and keeper boot (R467, R507 to R510) -/

/-- Straps are latched: HMODE also gives the host ports (R388, R507, R508). -/
def Chip.latchStraps (c : Chip) (hmode calMode testN : Nat) : Chip :=
  let c := ((c.wr F.straps_hmode hmode).wr F.straps_cal_mode calMode).wr F.straps_test_n testN
  (c.wr F.hostCfg_mode hmode).setPorts (hmode % 4)

/-- The bytes of a keeper slot written through the recovery window (R582). -/
def Chip.slotBytes (c : Chip) (slot n : Nat) : List Nat := (List.range ((n + 3) / 4)).flatMap fun i => leBytes 4 (c.slotWord slot (4 * i))

/-- A keeper slot's image: as loaded or staged, or as the recovery window has programmed it. -/
def Chip.keeperSlotImage (c : Chip) (slot : Nat) : ImageRec :=
  let i : ImageRec := tabGet c.trust.images slot
  if i.present || c.mgmt.slotImage.all fun e => e.1 / 2 ^ 24 != slot then i
  else readImage 1 c.trust.vendors (c.slotBytes slot (352 + min (2 ^ 20) (fieldNat (c.slotBytes slot 352) 0x14 4)))

/-- The images of a kind that are present and not valid are reported (R467, R593). -/
def Chip.reportImages (c : Chip) (kind s0 : Nat) : Chip :=
  [0, 1].foldl (fun c k =>
    let i : ImageRec := tabGet c.trust.images (s0 + k)
    if i.present && !c.imageValid kind i then c.raisePkg 32 [kind, k] else c) c

/-- The mask ROM sets the windows of a keeper; what they hold is not stated (R498). -/
def Chip.keeperWindows (c : Chip) (m : Nat) : Chip :=
  (List.range 16).foldl (fun c i =>
    let (v, c) := c.draw
    c.setWindow m i (v.testBit 0) (v.testBit 1) (v.testBit 2) (v.testBit 3) (v / 2 ^ 12 % 2 ^ 52 * 4096) (v / 2 ^ 76 % 2 ^ 52 * 4096)) c

/-- Both keepers boot: the valid slot with the higher version runs; with none the package stays in recovery (R467, R468). -/
def Chip.bootKeeper (c : Chip) : Chip :=
  let imgs := [(0, c.keeperSlotImage 0), (1, c.keeperSlotImage 1)]
  let c := c.modTrust fun t => { t with images := imgs.foldl (fun m (e : Nat × ImageRec) => tabSet m e.1 e.2) t.images }
  match c.bootSlot 1 with
  | some k =>
    let c := (c.reportImages 1 0).modTrust fun t => { t with keeperSlot := k }
    ((c.keeperWindows 0).keeperWindows 8).refreshOwned.stepBegun 4
  | none => { c with mgmt := { c.mgmt with recovery := true } }

/-- Whether the seq values of a ring's entries are consecutive. -/
def inSequence : List LichenEntry → Bool
  | x :: y :: l => y.seq == (x.seq + 1) % 2 ^ 32 && inSequence (y :: l)
  | _ => true

/-- At power-up a ring that does not hold at least 32 valid entries in sequence is cleared (R535). -/
def Chip.checkRing (c : Chip) (e : Nat) (held : Bool) : Chip :=
  if held && decide (32 ≤ (c.ring e).length) && inSequence (c.ring e) then c else (c.setRing e []).wr (F.lichenCnt_seq e) 0

/-- A power-up loses the latched address (R46), checks the rings (R535, R539), and has its entry (R533). -/
def Chip.fromPower (c : Chip) (held0 held1 : Bool) : Chip :=
  let c := ((c.wr F.chain_sys_addr 0).wr F.chain_addr_valid 0).modChain fun k => { k with oldAddr := none }
  ((c.checkRing 0 held0).checkRing 1 held1).lichenWrite 0x0401 packagePath [3, 0]

/-- RESET_N rises: the sequence begins. `powerUp` tells a power-up from a cold reset; `held0` and `held1` tell whether the rings in SRAM came through
it whole. -/
def execResetRelease (hmode calMode testN : Nat) (powerUp held0 held1 : Bool) (s : State) : Host.Outcome State Fault Refusal :=
  let c := s.chip
  let cool := decide ((c.bootSt 0).tNow < 380) && decide ((c.bootSt 1).tNow < 380)
  s.nextChip (
    if c.power.running || (c.power.tripped && !(c.power.resetLow && cool)) then c
    else
      let c := if powerUp then c.fromPower held0 held1 else c
      let c := c.modPower fun p => { p with running := true, resetLow := false, tripped := false, lifeAt := c.now, testMode := testN % 2 == 0 }
      let c := (c.modChain fun k => { k with resetAt := c.now }).latchStraps (hmode % 4) (calMode % 2) (testN % 2)
      let c := [F.clk_dref0_ok, F.clk_dref1_ok, F.clk_href0_ok, F.clk_href1_ok].foldl (fun c f => c.wr f 1) (c.stepBegun 3)
      if testN % 2 = 0 then c else c.bootKeeper)

/-! ### Step 4: calibration (R516 to R529) -/

/-- Quantities 6 to 10 are 1 to 5 for the host lanes (R520). -/
def calKind (id : Nat) : Nat := if 6 ≤ id ∧ id ≤ 10 then id - 5 else id

/-- Instances of each quantity on a die (R520). -/
def calCounts : List Nat := [1, 48, 48, 12, 48, 48, 4, 4, 4, 4, 4, 4, 4, 1]

/-- Plausible code range and dmax of a quantity (R520). -/
def calLimits (id : Nat) : Nat × Nat × Nat :=
  match calKind id with
  | 0 => (0x20, 0xE0, 8)
  | 3 => (0x20, 0xE0, 16)
  | 4 | 12 => (0x10, 0xF0, 16)
  | 5 => (0x40, 0xC0, 12)
  | _ => (0x30, 0xD0, 12)

/-- Whether a quantity has a fallback (R520). -/
def calFallback (id : Nat) : Bool := calKind id != 3

/-- The number a trim is kept under. -/
def trimKey (id inst : Nat) : Nat := id * 256 + inst

/-- The majority of 16 decisions; the value `v` decides where they are split evenly, which the spec leaves open. DESIGN CHOICE,
notes/assumptions/110.md. -/
def majority (v i n : Nat) : Bool := if n = 8 then v.testBit i else decide (8 < n)

/-- The code a search by successive approximation ends with, from the decision of each bit, bit 7 first (R519). -/
def searchCode (bits : List Bool) : Nat := bitsNat (bits.take 8)

/-- c_m of a reading (R519). -/
def codeOf (r : CalReading) (v : Nat) : Nat := searchCode (r.votes.zipIdx.map fun e => majority v e.2 e.1)

/-- The tap of the fallback: the first, from the tap of the reset state towards the comparator's flip, at which the decision changes; it is not
plausible at either end of the range (R524). -/
def tapOf (r : CalReading) (v : Nat) : Option Nat :=
  let up (i : Nat) : Bool := majority v (16 + i) (r.taps.getD i 0)
  let way := if up r.tapStart then (List.range r.taps.length).filter fun i => decide (r.tapStart < i)
    else ((List.range r.taps.length).filter fun i => decide (i < r.tapStart)).reverse
  (way.find? fun i => up i != up r.tapStart).filter fun i => i != 0 && i + 1 != r.taps.length

/-- The ratio test of quantity 0 (R520). -/
def ratioOf (r : CalReading) : Bool := decide (80 * r.iInt ≤ 100 * r.iRef) && decide (100 * r.iRef ≤ 120 * r.iInt)

/-- The interpolated value of five set points at a temperature, in 1/100 code (R526). -/
def trimAt (codes : List Nat) (t : Int) : Int :=
  if t ≤ -20 then 100 * (codes.getD 0 0 : Int)
  else if 380 ≤ t then 100 * (codes.getD 4 0 : Int)
  else
    let k := ((t + 20) / 100).toNat
    100 * (codes.getD k 0 : Int) + (t + 20) % 100 * ((codes.getD (k + 1) 0 : Int) - (codes.getD k 0 : Int))

/-- The applied code at a temperature, halves rounded up (R526). -/
def trimCode (codes : List Nat) (delta t : Int) : Nat := (max 0 (min 255 (roundDiv (trimAt codes t + delta) 100))).toNat

/-- Set points at −5, 20, 45, 70 and 95 °C in 0.25 °C (R525). -/
def trimPoints : List Int := [-20, 80, 180, 280, 380]

/-- The points that lie within `rewrite_c` of T_cal take the measured characteristic (R527). -/
def rewritePoints (codes : List Nat) (delta t : Int) (win : Nat) : List Nat :=
  trimPoints.zipIdx.map fun e =>
    if win ≠ 0 ∧ (t - e.1).natAbs ≤ 4 * win then trimCode codes delta e.1 else codes.getD e.2 0

/-- Whether a reading is a plausible main-path result against its entry of the trim record; without an entry, or under another method, the code range
alone judges (R521, R523, R529). -/
def calPlausible (r : CalReading) (code : Nat) (old : TrimRec) (judge : Bool) (t : Int) : Bool :=
  let (lo, hi, dmax) := calLimits r.id
  decide (lo ≤ code) && decide (code ≤ hi) && (r.id != 0 || ratioOf r) &&
    (!judge || decide ((100 * (code : Int) - trimAt old.codes t).natAbs ≤ 100 * dmax))

/-- The trim that a plausible result gives: a new entry at all five points, or the delta against the entry, its near points rewritten when the
methods agree (R523, R526, R527, R529). -/
def plausibleTrim (code : Nat) (old : TrimRec) (judge : Bool) (t : Int) (win : Nat) : TrimRec :=
  if old.codes = [] then ⟨List.replicate 5 code, 0, code, 0, code, 0⟩
  else
    let codes := if judge then rewritePoints old.codes (100 * (code : Int) - trimAt old.codes t) t win else old.codes
    let delta := 100 * (code : Int) - trimAt codes t
    ⟨codes, if codes = old.codes then old.flags % 2 else 0, code, delta, trimCode codes delta t, 0⟩

/-- The trim of a result that is not plausible: the fallback's tap, the kept value, or 0x80 (R522 to R524). -/
def implausibleTrim (code : Nat) (old : TrimRec) (fallback : Option Nat) (t : Int) : TrimRec :=
  let codes := if old.codes = [] then List.replicate 5 0x80 else old.codes
  match fallback with
  | some tap => ⟨codes, old.flags % 2 + 2, code, old.delta, tap, 2⟩
  | none =>
    if old.codes = [] then ⟨codes, 4, code, 0, 0x80, 3⟩
    else ⟨codes, old.flags % 2 + 4, code, old.delta, trimCode codes old.delta t, 1⟩

/-- One instance is calibrated (R519 to R524). The fallback of quantity 0 is the other method, which gives no tap and always holds, and changes the
method of the rest. DESIGN CHOICE, notes/assumptions/110.md. -/
def Chip.calibrateOne (c : Chip) (e : Nat) (r : CalReading) : Chip :=
  let (v, c) := c.draw
  let code := codeOf r v
  let b := c.bootSt e
  let old : TrimRec := tabGet b.record (trimKey r.id r.inst)
  let judge := old.codes != [] && b.recMethod == c.rd (F.calStatus_method e)
  let set (c : Chip) (t : TrimRec) : Chip := c.modBoot e fun b => { b with trims := tabSet b.trims (trimKey r.id r.inst) t }
  if calPlausible r code old judge b.tCal then set c (plausibleTrim code old judge b.tCal (c.rd (F.calCtrl_rewrite_c e)))
  else
    let c := (((c.bump (F.calStatus_implausible e)).wr (F.calStatus_last_id e) r.id).wr (F.calStatus_last_inst e) r.inst).raiseDie e 6 [r.id, r.inst, code]
    let fallback := if r.id = 0 then (if c.rd (F.calStatus_method e) = 0 then some (v / 2 ^ 16 % 256) else none)
      else if calFallback r.id then tapOf r v else none
    let c := set c (implausibleTrim code old fallback b.tCal)
    if fallback.isSome then
      let c := (c.bump (F.calStatus_fallbacks e)).raiseDie e 7 [r.id, r.inst]
      if r.id = 0 then c.wr (F.calStatus_method e) 1 else c
    else c

/-- The readings in ascending order of quantity and instance (R520). -/
def calOrder (readings : List CalReading) : List CalReading :=
  calCounts.zipIdx.flatMap fun n => (List.range n.1).filterMap fun i => readings.find? fun r => r.id == n.2 && r.inst == i

/-- T_cal as its register shows it (dieN.dcom.cal.status). -/
def tCalField (t : Int) : Nat := (max 0 (min 255 (roundDiv t 2 + 40))).toNat

/-- Step 4 on a die (R516 to R524). -/
def Chip.calibrate (c : Chip) (e : Nat) (tCal : Int) (readings : List CalReading) : Chip :=
  let c := c.modBoot e fun b => { b with tCal := tCal, tNow := tCal }
  let c := ((c.wr (F.calStatus_t_cal e) (tCalField tCal)).wri (F.calStatus_t_now e) tCal).wr (F.calStatus_method e) (c.rd F.straps_cal_mode)
  let c := if (c.bootSt e).recSeq = 0 then c.raiseDie e 8 [] else c.wr (F.calStatus_record_ok e) 1
  let c := (calOrder readings).foldl (fun c r => c.calibrateOne e r) c
  let c := c.wr (F.calStatus_done e) 1
  if c.liveDies.all fun d => c.rdb (F.calStatus_done d) then c.stepBegun 5 else c

def execCalibrationRun (e : Nat) (tCal : Int) (readings : List CalReading) (s : State) : Host.Outcome State Fault Refusal :=
  let c := s.chip
  s.nextChip (if c.rd F.bootProgress_step < 4 ∨ (c.dieSt e).out ∨ c.rdb (F.calStatus_done e) then c else c.calibrate e tCal readings)

/-! ### Step 5: DRAM (R509, R513) -/

/-- A drive port of a die starts in step 7 (R118, R531). -/
def Chip.startPorts (c : Chip) (ds : List Nat) : Chip :=
  ds.foldl (fun c d =>
    if c.rdb (F.hlinkCtrl_enable d) && !(c.rd F.svcRetired_retired).testBit d && !(c.dieSt (portDie d)).out then c.portEnable d true else c) c

/-- The stack holds zeros after training (R509). -/
def State.zeroStack (s : State) (e : Nat) : State :=
  { s with dram := s.dram.filter fun x => !(decide (e * 0x200000000 ≤ x.1) && decide (x.1 < e * 0x200000000 + 7 * 2 ^ 30)) }

/-- Training ends: the stack is usable; after three failures the die is out. In operation, a die that was reset begins its step 7 (R513, R514). -/
def execDramTrainingDone (e : Nat) (ok : Bool) (s : State) : Host.Outcome State Fault Refusal :=
  let c := s.chip
  if !c.rdb (F.calStatus_done e) ∨ (c.bootSt e).trained ∨ (c.dieSt e).out then .next s
  else if ok then
    let c := c.modBoot e fun b => { b with trained := true }
    let c := if 7 ≤ c.rd F.bootProgress_step then (c.startPorts (diePorts e)).modBoot e fun b => { b with recordDue := true } else c
    hooked (.next ({ s with chip := c }.zeroStack e))
  else
    let n := (c.bootSt e).trainFails + 1
    let c := c.modBoot e fun b => { b with trainFails := n }
    hooked (s.nextChip (if n < 3 then c else (c.raiseDie e 9 [3]).dieFault e))

/-! ### Steps 6 to 8 (R467, R470, R509, R511, R512) -/

/-- The application images are verified and the valid one with the higher version starts; with none the keeper serves alone (R467, R468). Steps 6
and 7 begin. -/
def execAppStart (s : State) : Host.Outcome State Fault Refusal :=
  let c := s.chip
  if 7 ≤ c.rd F.bootProgress_step ∨ c.rd F.bootProgress_step < 5 ∨ !(c.liveDies.all fun e => (c.bootSt e).trained) then .next s
  else
    let c := c.reportImages 0 2
    let c := match c.bootSlot 0 with
      | some k => (c.modTrust fun t => { t with appSlot := k }).modPower fun p => { p with app := true }
      | none => c
    hooked (s.nextChip ((c.stepBegun 7).startPorts (List.range 24)))

/-- A trim as the record's entry keeps it (R522, R525). -/
def TrimRec.entry (t : TrimRec) : TrimRec := { t with measured := 0, applied := 0, source := 0 }

/-- Writes a die's trim record (R525, R529, R531). -/
def Chip.writeRecord (c : Chip) (e : Nat) : Chip :=
  c.modBoot e fun b => { b with
    record := b.trims.foldl (fun m (t : Nat × TrimRec) => tabSet m t.1 t.2.entry) b.record
    recMethod := if b.recSeq = 0 then c.rd (F.calStatus_method e) else b.recMethod
    recSeq := b.recSeq + 1, recordAt := some c.now, recordDue := false }

/-- e^(x / 2^40) in 2^-40, for x between -12 and 6 in 2^-40: the sixteenth power of the series at a sixteenth of it. -/
def expFix (x : Int) : Int :=
  let y := x / 16
  let s := ((List.range 16).foldl (fun (a : Int × Int) (i : Nat) => (a.1 + a.2, a.2 * y / (2 ^ 40 * ((i : Int) + 1)))) (0, 2 ^ 40)).1
  (List.range 4).foldl (fun s _ => s * s / 2 ^ 40) s

/-- The Arrhenius weight of a junction temperature in 0.25 °C against 80 °C, in 2^-16: exp (E / k × (1 / 353.15 K − 1 / T)) with E of 0.7 eV (R572)
and k of 8.617333 × 10^-5 eV/K. PRESUMED, notes/assumptions/59.md. -/
def lifeWeight (t : Int) : Nat :=
  let kelvin := 27315 + 25 * t
  (roundDiv (expFix ((7 * 10 ^ 12 * (kelvin - 35315) * 2 ^ 40) / (8617333 * 35315 * kelvin))) (2 ^ 24)).toNat

/-- Counts the life figures up to now, at the hotter die's temperature (R572). -/
def Chip.countLife (c : Chip) : Chip :=
  let p := c.power
  let hour := 3600 * 10 ^ 9
  let w := p.lifeRest + (c.now - p.lifeAt) * lifeWeight (c.rdi F.thermStatus_tmax)
  let t := p.hoursRest + (c.now - p.lifeAt)
  let c := (c.bump F.thermLife_equiv_h (w / (hour * 2 ^ 16))).bump F.thermLife_hours (t / hour)
  c.modPower fun p => { p with lifeAt := c.now, lifeRest := w % (hour * 2 ^ 16), hoursRest := t % hour }

/-- Stores the life figures (R572). -/
def Chip.storeLife (c : Chip) : Chip :=
  let c := c.countLife
  c.modPower fun p => { p with lifeStored := c.rd F.thermLife_equiv_h, hoursStored := c.rd F.thermLife_hours }

/-- HAZE is entered: the power state, the time it took, the keeper's anti-rollback value, trim records, life figures (R470, R511, R531, R572). -/
def Chip.enterHaze (c : Chip) : Chip :=
  let c := (c.setPower 1).stepBegun 8
  let c := (c.wrSat F.bootProgress_ms ((c.now - c.chain.resetAt) / 10 ^ 6)).modPower fun p => { p with haze := true }
  let c := (c.raiseRollback c.keeperImage.rollback).storeLife
  if c.power.pfail.isSome then c else c.liveDies.foldl Chip.writeRecord c

/-- The sequence runs and has not reached HAZE; the package is neither in recovery nor in factory test. -/
def Chip.poweringUp (c : Chip) : Bool := c.power.running && !c.power.haze && !c.mgmt.recovery && !c.power.testMode

/-- What R511 asks for holds. -/
def Chip.hazeReady (c : Chip) : Bool :=
  decide (7 ≤ c.rd F.bootProgress_step) && (c.liveDies.all fun e => c.rdb (F.calStatus_done e) && (c.bootSt e).trained) &&
    (c.rdb F.mossStatus_mounted || c.power.mountTried || decide (2 ≤ popCount 8 (c.rd F.mossStatus_down))) &&
    (List.range 24).all fun d => !c.portOpen d

def execHazeEntry (s : State) : Host.Outcome State Fault Refusal :=
  s.nextChip (if s.chip.poweringUp && s.chip.hazeReady then s.chip.enterHaze else s.chip)

/-- 10 s after RESET_N rose (R511). -/
def execPowerUpTimeout (s : State) : Host.Outcome State Fault Refusal :=
  let c := s.chip
  s.nextChip (if c.poweringUp && decide (c.chain.resetAt + 10 ^ 10 ≤ c.now) then (c.raisePkg 5 [c.openSteps]).enterHaze else c)

/-! ### Trims in operation (R528, R530, R531, R573) -/

/-- A code moves by at most 1 LSB towards the applied code of the temperature; fallback results and head trims do not move (R528). -/
def TrimRec.follow (t : TrimRec) (temp : Int) : TrimRec :=
  if 1 < t.source then t
  else
    let goal := trimCode t.codes t.delta temp
    { t with applied := if t.applied < goal then t.applied + 1 else if goal < t.applied then t.applied - 1 else t.applied }

/-- A die's temperature is read: the hotter die's, THERM_N with its hysteresis and the warning event (R573). -/
def Chip.readTemp (c : Chip) (e : Nat) (temp : Int) : Chip :=
  let c := (c.countLife.modBoot e fun b => { b with tNow := temp }).wri (F.calStatus_t_now e) temp
  (c.wri F.thermStatus_tmax (max (c.bootSt 0).tNow (c.bootSt 1).tNow)).judgeTherm

/-- The next reading of a die's temperature is due (R528). -/
def Chip.tempDue (c : Chip) (e : Nat) : Bool := decide ((c.bootSt e).tempAt + c.rd (F.calCtrl_upd_ms e) * 10 ^ 6 ≤ c.now)

/-- TRIM_TEMP_UPDATE: every `upd_ms` a die reads its temperature, also while a trip holds it in reset (R528, R573). -/
def execTrimTempUpdate (e : Nat) (temp : Int) (s : State) : Host.Outcome State Fault Refusal :=
  let due := s.chip.tempDue e
  let c := if due then s.chip.modBoot e fun b => { b with tempAt := s.chip.now } else s.chip
  if !due then .next s
  else if c.power.tripped then s.nextChip (c.readTemp e temp)
  else if !c.rdb (F.calStatus_done e) ∨ (c.dieSt e).out then .next s
  else
    s.nextChip ((c.readTemp e temp).modBoot e fun b => { b with
      trims := b.trims.map fun (t : Nat × TrimRec) => (t.1, if t.1 / 256 < 14 then t.2.follow temp else t.2) })

/-- Quantity and instance of a head trim: 0 the laser monitor, 1 to 4 quadrants A to D (R520). -/
def headQuantity (d i : Nat) : Nat × Nat := if i = 0 then (14, d % 12) else (15, 4 * (d % 12) + i - 1)

/-- The code a head trim is left at and where it comes from: a plausible one, the last trim recorded for the same head, or 0x80 (R530). -/
def Chip.headCode (c : Chip) (d i code : Nat) (plausible : Bool) : Nat × Nat :=
  let q := headQuantity d i
  let b := c.bootSt (portDie d)
  let last : TrimRec := (tabFind b.trims (trimKey q.1 q.2)).getD (tabGet b.record (trimKey q.1 q.2))
  if plausible then (code, 0) else if (c.linkSt d).newHead ∨ last.codes = [] then (0x80, 3) else (last.codes.headD 0x80, 1)

/-- One head trim ends: written to the head, kept for the record, an implausible one reported (R522, R530). -/
def Chip.headTrim (c : Chip) (d i code : Nat) (plausible : Bool) : Chip :=
  let q := headQuantity d i
  let v := c.headCode d i code plausible
  let c := if plausible then c else c.raiseClu d 11 7 ([1, q.1, q.2] ++ beBytes 2 code)
  let c := c.modBoot (portDie d) fun b => { b with
    trims := tabSet b.trims (trimKey q.1 q.2) ⟨[v.1, 0, 0, 0, 0], if plausible then 0 else 4, code, 0, v.1, v.2⟩ }
  c.headSend d 0 (0x180 + i) v.1

/-- A trim record is due: at once, or a minute after the last write (R531). Before HAZE it is written there. -/
def Chip.recordWanted (c : Chip) (e : Nat) : Chip :=
  let free := (c.bootSt e).recordAt.all fun t => decide (t + 60 * 10 ^ 9 ≤ c.now)
  if !c.power.haze then c
  else if free ∧ c.power.pfail.isNone then c.writeRecord e
  else c.modBoot e fun b => { b with recordDue := true }

/-- A residual of a head trim is within its limits: 20 µW of the laser monitor, 256 LSB of a quadrant (R520, R521). -/
def residualOk (i : Nat) (r : Int) : Bool := decide (r.natAbs ≤ if i = 0 then 20 else 256)

/-- HEAD_TRIM_DONE: the five converters of a head have been searched together, each by eight decisions, and their residuals judged; the offsets of
R254 are measured next (R519 to R521, R530). -/
def Chip.headTrims (c : Chip) (d : Nat) (decisions : List (List Bool)) (residuals : List Int) : Chip :=
  let e := portDie d
  let codes := decisions.map searchCode
  let plausible := residuals.zipIdx.map fun x => residualOk x.2 x.1
  let heads (c : Chip) : List (List Nat) := (List.range 5).map fun i =>
    (tabGet (c.bootSt e).record (trimKey (headQuantity d i).1 (headQuantity d i).2) : TrimRec).codes
  let vals := (List.range 5).map fun i => (c.headCode d i (codes.getD i 0 % 256) (plausible.getD i false)).1
  let old := heads c
  let c := (List.range 5).foldl (fun c i => c.headTrim d i (codes.getD i 0 % 256) (plausible.getD i false)) c
  let c := (c.wr (F.hcal_ld_trim d) (vals.getD 0 0)).wr (F.hcal_q_trim d) (leNat (vals.drop 1))
  let c := (c.wrb (F.hcal_ok d) ((List.range 5).all fun i => plausible.getD i false)).modServo d fun s => { s with trimDone := true }
  if vals.map (fun v => [v, 0, 0, 0, 0]) = old then c else c.recordWanted e

def execHeadTrimDone (d : Nat) (decisions : List (List Bool)) (residuals : List Int) (s : State) : Host.Outcome State Fault Refusal :=
  let c := s.chip
  s.nextChip (if c.portUp d && !(c.servoSt d).trimDone then c.headTrims d decisions residuals else c)

/-- A deferred trim record is written once its minute has passed; that of a die reset when the die's step 7 ends (R531). -/
def execTrimRecordWrite (e : Nat) (s : State) : Host.Outcome State Fault Refusal :=
  let c := s.chip
  let stepOver := (c.bootSt e).recordAt.isSome || (diePorts e).all fun d => !c.portOpen d
  s.nextChip (if (c.bootSt e).recordDue && stepOver then c.recordWanted e else c)

end Sys2Proof.Machine
end

