-- ==== Sys2Proof/Machine/Supply.lean ====
section
/-! DEFINITION. The supply, the copy of the lichen record at power failure, reference clocks and temperature (17_service_and_lichen_record.md, R541 to
R543; 18_balls_electrical_package.md, R559, R560, R569 to R573). -/
namespace Sys2Proof.Machine

/-- The data of the power-failure entry (R533). -/
def Chip.failData (c : Chip) : List Nat :=
  let status := c.word F.chain_sys_addr.addr
  let sky := c.word F.skyStatus_state.addr
  beBytes 2 c.sysAddr ++ beBytes 2 (c.rd F.chain_hop_delay) ++ [status / 2 ^ 10 % 64, sky % 32]

/-- PFAIL_N asserts: each die writes its entry, recording stops, burns stop at once; no program of the pool is started any more (R220, R346, R541). -/
def Chip.powerFail (c : Chip) : Chip :=
  if c.power.pfail.isSome then c
  else
    let c := c.liveDies.foldl (fun c e => c.lichenWrite 0x0400 (diePath e) c.failData) c
    let c := { c with lichen := { c.lichen with stopped := true }, power := { c.power with pfail := some c.now, copying := true } }
    (List.range 24).foldl (fun c d => c.burnInterrupt d 0) c

def execPowerFail (s : State) : Host.Outcome State Fault Refusal := hooked (s.nextChip s.chip.powerFail)

/-- A target takes part in the copy of a die with one page more than the `n` it has: it is an accepted one of the die's own channels, in use, with a
lichen block that has an erased page, and the programs end within the 3.0 ms (R540, R541). -/
def Chip.copyTarget (c : Chip) (e ch t n : Nat) : Bool :=
  ch / 4 == e && !(c.dieSt e).out && c.chUsable ch && (c.chan ch).targets.any (fun k => k.1 == t && decide ((n + 1) * k.2.tprog ≤ 3000)) &&
    !(c.lichenBlk ch t).absent && decide (0 < c.lichenRoom ch t)

/-- Lichen pages are programmed on targets, named by 8 × channel + target, in the order in which their programs began: each takes the 256 newest entries
that are left (R541). `done` is how many pages each target has taken. -/
def copyPages (e : Nat) : List Nat → List LichenEntry → Tab Nat → Chip → Chip
  | [], _, _, c => c
  | k :: ks, left, done, c =>
    let n := tabGet done k
    if left ≠ [] ∧ c.copyTarget e (k / 8) (k % 8) n then
      let p : LichenPage := ⟨c.lichen.found + 1, n, e, left.drop (left.length - 256), c.idDigest⟩
      copyPages e ks (left.take (left.length - 256)) (tabSet done k (n + 1))
        (c.modLichen (k / 8) (k % 8) fun l => { l with pages := l.pages ++ [p], spent := l.spent + 1 })
    else copyPages e ks left done c

/-- The copy as far as pages of each die were programmed; without a mounted pool there is none (R541 to R543). -/
def Chip.saveCopy (c : Chip) (pages0 pages1 : List Nat) : Chip :=
  if !c.rdb F.mossStatus_mounted then c else copyPages 1 pages1 (c.ring 1) [] (copyPages 0 pages0 (c.ring 0) [] c)

/-- The copy ends: a fall of RESET_N that waited takes effect, a trip holds the dies in reset, otherwise the package waits for a cold reset (R543, R560,
R573). -/
def Chip.copyEnd (c : Chip) (pages0 pages1 : List Nat) : Chip :=
  if !c.power.copying then c
  else
    let c := (c.saveCopy pages0 pages1).modPower fun p => { p with copying := false }
    if c.power.resetLow then (c.coldReset 0 0).modPower fun p => { p with resetLow := true }
    else if c.power.tripped then c.coldReset 0 0
    else c

def execLichenCopyEnd (pages0 pages1 : List Nat) (s : State) : Host.Outcome State Fault Refusal := s.nextChip (s.chip.copyEnd pages0 pages1)

/-- A rail is low for 1 µs: as a fall of RESET_N; a copy under way ends with the pages whose programs have ended (R559). -/
def execBrownOut (pages0 pages1 : List Nat) (s : State) : Host.Outcome State Fault Refusal :=
  let c := s.chip
  let c := if c.power.copying then c.saveCopy pages0 pages1 else c
  s.nextChip ((c.coldReset 0 0).wr F.clk_brownout 1)

/-- A reference is lost: 0 and 1 the drive-lane reference of a die, 2 and 3 its host-lane reference, 4 the crystal (R569). -/
def Chip.refLost (c : Chip) (which : Nat) : Chip :=
  let c := match which with
    | 0 => c.wr F.clk_dref0_ok 0
    | 1 => c.wr F.clk_dref1_ok 0
    | 2 => c.wr F.clk_href0_ok 0
    | 3 => c.wr F.clk_href1_ok 0
    | _ => c
  let c := if which < 4 then c.raisePkg 43 [c.word F.clk_dref0_ok.addr % 16] else c
  if which < 2 then (diePorts which).foldl (fun c d => if c.portUp d then c.portLost d 1 else c) c
  else if which < 4 then
    (List.range 8).foldl (fun c p => if (portLanes c.host.modeNext p).any fun l => l / 4 == which - 2 then c.hostDown p else c) c
  else (c.dieFault 0).dieFault 1

def execRefclkLost (which : Nat) (s : State) : Host.Outcome State Fault Refusal :=
  if which ≤ 4 then hooked (s.nextChip (s.chip.refLost which)) else .next s

/-- A junction reaches 115 °C: the trip is counted and reported, then as at a power failure, and the dies are held in reset after the copy (R573). -/
def execThermalTrip (e : Nat) (temp : Int) (s : State) : Host.Outcome State Fault Refusal :=
  let c := s.chip
  if temp < 460 ∨ c.power.tripped then .next s
  else
    let c := ((c.readTemp e temp).wr F.thermStatus_therm 1).bump F.thermStatus_trips
    let c := (c.raisePkg 42 (beBytes 2 (c.rd F.thermStatus_tmax))).modPower fun p => { p with tripped := true }
    if c.power.pfail.isSome ∧ !c.power.copying then s.nextChip (c.coldReset 0 0) else hooked (s.nextChip c.powerFail)

/-- LIFE_STORE: every hour (R572). -/
def execLifeStore (s : State) : Host.Outcome State Fault Refusal := s.nextChip s.chip.storeLife

end Sys2Proof.Machine
end

