-- ==== Sys2Proof/Machine/DataOut.lean ====
section
/-! DEFINITION. DATA_OUT packets, and what each command does once its data have arrived (12_host_transport_and_sessions.md, R400, R404, R407). -/
namespace Sys2Proof.Machine

/-- The data-out phase of a command is over: the command goes on. -/
def State.dataDone (s : State) (n x : Nat) : State :=
  let s := s.withChip fun c => c.modCtx n x fun k => { k with wait := .nothing }
  let k := (s.chip.ctxSt n x).cmd
  match k.opcode with
  | 0x09 => s.netConfigData n x
  | 0x21 => s.putData n x
  | 0x43 => s.waitEffect n x
  | 0xA1 => s.regWriteData n x
  | 0xC0 => s.stageData n x
  | 0xC5 => s.enrolData n x 256
  | 0xC6 => s.enrolData n x k.p0
  | 0xCB => s.transferData n x
  | 0xCD => s.formData n x
  | 0xCE => s.joinData n x
  | _ => s

/-- The bytes of a DATA_OUT that the rate cap lets through (R404). -/
def State.dataOut (s : State) (n x off : Nat) (bs : List Nat) : State :=
  let s := s.takeData n x off bs
  let k := s.chip.ctxSt n x
  if k.cmd.dlen ≤ gotBytes k.got then (s.closePhase n x).dataDone n x else s

/-- A DATA_OUT: for a context that is not in a data-out phase it is a breach; one that finds too few tokens is discarded and a breach; bytes outside the
granted ranges and bytes that have arrived already are discarded (R400, R404, R407). A frozen session's data are discarded (R502). -/
def execDataOut (session seq : Nat) (tagOk : Bool) (port peer ctx tag off : Nat) (payload : List Nat) (s : State) :
    Host.Outcome State Fault Refusal :=
  let (go, c) := s.chip.accept ⟨session, seq, tagOk, port, peer⟩
  let k := c.ctxSt session ctx
  if !go || c.sessionFrozen (session - 1) then s.nextChip c
  else if k.phase != .active || k.wait != .dataOut || k.cmd.tag != tag then s.nextChip (c.breach session 0)
  else
    match c.takeTokens session payload.length with
    | none => s.nextChip (c.breach session 2)
    | some c => hooked (.next ({ s with chip := c }.dataOut session ctx off payload))

/-! ### Uses of tiles (R379, R380) -/

/-- What fails with a use of a tile: the read, put or write that owns the tile; a run with its formatter (R201, R379). A row of parity or of a rebuild is
made again when its command comes again. -/
def Chip.failUse (c : Chip) (t use : Nat) : Chip :=
  let o := (c.tileSt t).owner
  if use = 4 then (if formatterOwner 0 ≤ o then c.burnInterrupt (o - formatterOwner 0) 9 else c)
  else match c.tileContext t with
    | some k => if use ≤ 3 then c.fail k.1 k.2 0x0401 else c
    | none => c

/-- A use of a tile (1 egress, 2 crypto, 3 flash program, 4 formatter, 5 parity, 6 rebuild): it acts only on a match; on a mismatch the tile is
poisoned and what uses it fails; a use asked for during the fill waits for its close (R379, R380). -/
def execTileUseCheck (m t use : Nat) (s : State) : Host.Outcome State Fault Refusal :=
  let r := s.chip.tileSt t
  if s.tileGood t then s.nextChip (s.chip.emit (.bus m 0 []))
  else if r.state = 2 ∨ r.state = 3 then hooked (s.nextChip (((s.chip.poisonTile t use).failUse t use).emit (.bus m 1 [])))
  else if r.state = 1 ∧ r.uses < 255 then
    s.nextChip ((s.chip.modTile t fun r => { r with uses := r.uses + 1, waiting := r.waiting ++ [(m, use)] }).emit (.bus m 5 []))
  else s.nextChip (s.chip.emit (.bus m 4 []))

end Sys2Proof.Machine
end

