-- ==== Sys2Proof/Machine/Dispatch.lean ====
section
/-! DEFINITION. One arm per command, each a call of its meaning. -/
namespace Sys2Proof.Machine

def exec (i : Instr) (s : State) : Host.Outcome State Fault Refusal :=
  match i with
  | .unitFault u cause => Sys2Proof.Machine.execUnitFault u cause s
  | .clusterFault d cause => Sys2Proof.Machine.execClusterFault d cause s
  | .regionFault r cause => Sys2Proof.Machine.execRegionFault r cause s
  | .dieFault e => Sys2Proof.Machine.execDieFault e s
  | .watchdogExpiry level index => Sys2Proof.Machine.execWatchdogExpiry level index s
  | .otherDieLost e answering => Sys2Proof.Machine.execOtherDieLost e answering s
  | .keeperTakeover => Sys2Proof.Machine.execKeeperTakeover s
  | .spinupAdmit r => Sys2Proof.Machine.execSpinupAdmit r s
  | .spinupMaxWrite r v => Sys2Proof.Machine.execSpinupMaxWrite r v s
  | .headStrapDetect => Sys2Proof.Machine.execHeadStrapDetect s
  | .addressToken w => Sys2Proof.Machine.execAddressToken w s
  | .reEnumerateToken w => Sys2Proof.Machine.execReEnumerateToken w s
  | .delayProbeEcho => Sys2Proof.Machine.execDelayProbeEcho s
  | .delayProbeReturn roundTrip => Sys2Proof.Machine.execDelayProbeReturn roundTrip s
  | .hopDelayToken w => Sys2Proof.Machine.execHopDelayToken w s
  | .addressHeartbeat => Sys2Proof.Machine.execAddressHeartbeat s
  | .chainLost => Sys2Proof.Machine.execChainLost s
  | .addressMark d => Sys2Proof.Machine.execAddressMark d s
  | .positionLost d => Sys2Proof.Machine.execPositionLost d s
  | .transmitSuperframe d => Sys2Proof.Machine.execTransmitSuperframe d s
  | .receiveSuperframe d n line faults => Sys2Proof.Machine.execReceiveSuperframe d n line faults s
  | .subframeRelease r => Sys2Proof.Machine.execSubframeRelease r s
  | .servoLoss d => Sys2Proof.Machine.execServoLoss d s
  | .subframeLossBurnStop d => Sys2Proof.Machine.execSubframeLossBurnStop d s
  | .headCommandSend d op addr data => Sys2Proof.Machine.execHeadCommandSend d op addr data s
  | .headResponse d seq status addr data => Sys2Proof.Machine.execHeadResponse d seq status addr data s
  | .headCommandRetry d seq => Sys2Proof.Machine.execHeadCommandRetry d seq s
  | .portEnable d en => Sys2Proof.Machine.execPortEnable d en s
  | .portRetrain d => Sys2Proof.Machine.execPortRetrain d s
  | .portSignalDetect d lanes => Sys2Proof.Machine.execPortSignalDetect d lanes s
  | .trainReady d lanes => Sys2Proof.Machine.execTrainReady d lanes s
  | .trainTimeout d => Sys2Proof.Machine.execTrainTimeout d s
  | .blockLock d found => Sys2Proof.Machine.execBlockLock d found s
  | .lockTimeout d => Sys2Proof.Machine.execLockTimeout d s
  | .portIdentityCheck d identity supported => Sys2Proof.Machine.execPortIdentityCheck d identity supported s
  | .laneRetrain d n ok laneF beamF rt => Sys2Proof.Machine.execLaneRetrain d n ok laneF beamF rt s
  | .laneRejoin d n => Sys2Proof.Machine.execLaneRejoin d n s
  | .laneLost d n condition => Sys2Proof.Machine.execLaneLost d n condition s
  | .btlUpdate d => Sys2Proof.Machine.execBtlUpdate d s
  | .btlAcqTimeout d => Sys2Proof.Machine.execBtlAcqTimeout d s
  | .btlSearchTimeout d => Sys2Proof.Machine.execBtlSearchTimeout d s
  | .btlHoldTimeout d => Sys2Proof.Machine.execBtlHoldTimeout d s
  | .channelBitProcess u => Sys2Proof.Machine.execChannelBitProcess u s
  | .holdExpiry u => Sys2Proof.Machine.execHoldExpiry u s
  | .syncDecision u => Sys2Proof.Machine.execSyncDecision u s
  | .decoderGrant r => Sys2Proof.Machine.execDecoderGrant r s
  | .decodeSegmentEnd r k => Sys2Proof.Machine.execDecodeSegmentEnd r k s
  | .readPassEnd d => Sys2Proof.Machine.execReadPassEnd d s
  | .rereadVisitEnd d => Sys2Proof.Machine.execRereadVisitEnd d s
  | .retryBudgetExpiry d => Sys2Proof.Machine.execRetryBudgetExpiry d s
  | .burnQueueWrite d addr => Sys2Proof.Machine.execBurnQueueWrite d addr s
  | .runCalibrationStart d => Sys2Proof.Machine.execRunCalibrationStart d s
  | .opcMeasureComplete d => Sys2Proof.Machine.execOpcMeasureComplete d s
  | .runSlot0Start d => Sys2Proof.Machine.execRunSlot0Start d s
  | .slotCommit d arrived => Sys2Proof.Machine.execSlotCommit d arrived s
  | .burnStop d => Sys2Proof.Machine.execBurnStop d s
  | .spoiledRunClose d => Sys2Proof.Machine.execSpoiledRunClose d s
  | .closeSearchReading d => Sys2Proof.Machine.execCloseSearchReading d s
  | .focusSettleTimeout d => Sys2Proof.Machine.execFocusSettleTimeout d s
  | .focusSettled d => Sys2Proof.Machine.execFocusSettled d s
  | .focusLost d => Sys2Proof.Machine.execFocusLost d s
  | .focusKickEnd d => Sys2Proof.Machine.execFocusKickEnd d s
  | .focusJumpTimeout d => Sys2Proof.Machine.execFocusJumpTimeout d s
  | .focusReacqReset d => Sys2Proof.Machine.execFocusReacqReset d s
  | .offTrack d => Sys2Proof.Machine.execOffTrack d s
  | .writeInhibit d => Sys2Proof.Machine.execWriteInhibit d s
  | .trackSettled d => Sys2Proof.Machine.execTrackSettled d s
  | .captureTimeout d => Sys2Proof.Machine.execCaptureTimeout d s
  | .fineSeekTimeout d => Sys2Proof.Machine.execFineSeekTimeout d s
  | .passOffsetSettled d => Sys2Proof.Machine.execPassOffsetSettled d s
  | .srvAcquire d layer => Sys2Proof.Machine.execSrvAcquire d layer s
  | .srvSeek d band => Sys2Proof.Machine.execSrvSeek d band s
  | .srvLayerJump d layer => Sys2Proof.Machine.execSrvLayerJump d layer s
  | .srvRetract d => Sys2Proof.Machine.execSrvRetract d s
  | .srvPassOffset d k => Sys2Proof.Machine.execSrvPassOffset d k s
  | .srvCalibrateGains d => Sys2Proof.Machine.execSrvCalibrateGains d s
  | .srvCommit d => Sys2Proof.Machine.execSrvCommit d s
  | .offsetCalibrationDone d => Sys2Proof.Machine.execOffsetCalibrationDone d s
  | .trackSineCalDone d => Sys2Proof.Machine.execTrackSineCalDone d s
  | .gainCalRound d => Sys2Proof.Machine.execGainCalRound d s
  | .traceFreeze d => Sys2Proof.Machine.execTraceFreeze d s
  | .traceRearm d => Sys2Proof.Machine.execTraceRearm d s
  | .dutyLimitEnter d => Sys2Proof.Machine.execDutyLimitEnter d s
  | .dutyLimitExit d => Sys2Proof.Machine.execDutyLimitExit d s
  | .spindleStart d target => Sys2Proof.Machine.execSpindleStart d target s
  | .spindleStop d => Sys2Proof.Machine.execSpindleStop d s
  | .spindleSetSpeed d target => Sys2Proof.Machine.execSpindleSetSpeed d target s
  | .spindlePark d => Sys2Proof.Machine.execSpindlePark d s
  | .parkCoastEnd d => Sys2Proof.Machine.execParkCoastEnd d s
  | .senseWindowEnd d => Sys2Proof.Machine.execSenseWindowEnd d s
  | .alignEnd d => Sys2Proof.Machine.execAlignEnd d s
  | .rampTimeout d => Sys2Proof.Machine.execRampTimeout d s
  | .catchSuccess d => Sys2Proof.Machine.execCatchSuccess d s
  | .catchTimeout d => Sys2Proof.Machine.execCatchTimeout d s
  | .spindleLock d => Sys2Proof.Machine.execSpindleLock d s
  | .spindleLockLost d => Sys2Proof.Machine.execSpindleLockLost d s
  | .lossOfSync d => Sys2Proof.Machine.execLossOfSync d s
  | .recatchWindowEnd d => Sys2Proof.Machine.execRecatchWindowEnd d s
  | .brakeCheck d => Sys2Proof.Machine.execBrakeCheck d s
  | .axisStep d x delayNs => Sys2Proof.Machine.execAxisStep d x delayNs s
  | .axisStandstill d x => Sys2Proof.Machine.execAxisStandstill d x s
  | .axisMoveTo d x target start => Sys2Proof.Machine.execAxisMoveTo d x target start s
  | .axisMoveBy d x dist start => Sys2Proof.Machine.execAxisMoveBy d x dist start s
  | .axisHome d x start => Sys2Proof.Machine.execAxisHome d x start s
  | .axisPark d => Sys2Proof.Machine.execAxisPark d s
  | .axisEmergencyStop d x => Sys2Proof.Machine.execAxisEmergencyStop d x s
  | .axisDisarm d x => Sys2Proof.Machine.execAxisDisarm d x s
  | .sharedStart => Sys2Proof.Machine.execSharedStart s
  | .axisFault d x => Sys2Proof.Machine.execAxisFault d x s
  | .frondSealTimeout frond => Sys2Proof.Machine.execFrondSealTimeout frond s
  | .frondSealingDone frond => Sys2Proof.Machine.execFrondSealingDone frond s
  | .frondParityDone frond => Sys2Proof.Machine.execFrondParityDone frond s
  | .frondPlace frond => Sys2Proof.Machine.execFrondPlace frond s
  | .placeWaitExpiry frond => Sys2Proof.Machine.execPlaceWaitExpiry frond s
  | .pinnaPlacedAgain frond pinna => Sys2Proof.Machine.execPinnaPlacedAgain frond pinna s
  | .frondBurned frond => Sys2Proof.Machine.execFrondBurned frond s
  | .runRequeue frond pinna => Sys2Proof.Machine.execRunRequeue frond pinna s
  | .launchFire action => Sys2Proof.Machine.execLaunchFire action s
  | .rowRebuild session ctx frond row => Sys2Proof.Machine.execRowRebuild session ctx frond row s
  | .rowRepair session ctx frond row => Sys2Proof.Machine.execRowRepair session ctx frond row s
  | .blockDelivery session ctx => Sys2Proof.Machine.execBlockDelivery session ctx s
  | .catalogueFlush => Sys2Proof.Machine.execCatalogueFlush s
  | .discIdentityCheck d => Sys2Proof.Machine.execDiscIdentityCheck d s
  | .flashDiscovery mods found => Sys2Proof.Machine.execFlashDiscovery mods found s
  | .flashPageRead ch tgt blk pg words => Sys2Proof.Machine.execFlashPageRead ch tgt blk pg words s
  | .flashProgramDone set row ch ok => Sys2Proof.Machine.execFlashProgramDone set row ch ok s
  | .jflushTimeout stream => Sys2Proof.Machine.execJflushTimeout stream s
  | .checkpoint => Sys2Proof.Machine.execCheckpoint s
  | .relocateGranule space g verifyOk => Sys2Proof.Machine.execRelocateGranule space g verifyOk s
  | .flashEraseDone set ch ok => Sys2Proof.Machine.execFlashEraseDone set ch ok s
  | .channelDown ch cause => Sys2Proof.Machine.execChannelDown ch cause s
  | .fcDownWrite ch value => Sys2Proof.Machine.execFcDownWrite ch value s
  | .moduleArrival ch serial anchor found => Sys2Proof.Machine.execModuleArrival ch serial anchor found s
  | .rebuildRow => Sys2Proof.Machine.execRebuildRow s
  | .poolMount keyMatches => Sys2Proof.Machine.execPoolMount keyMatches s
  | .secureDiscardDone => Sys2Proof.Machine.execSecureDiscardDone s
  | .dramRead m a err => Sys2Proof.Machine.execDramRead m a err s
  | .bucketLeakTick r => Sys2Proof.Machine.execBucketLeakTick r s
  | .dramWrite m a bs => Sys2Proof.Machine.execDramWrite m a bs s
  | .mergeEntryAge e block => Sys2Proof.Machine.execMergeEntryAge e block s
  | .tileBeatWrite m t off bs => Sys2Proof.Machine.execTileBeatWrite m t off bs s
  | .tileClose t len => Sys2Proof.Machine.execTileClose t len s
  | .tileUseCheck m t use => Sys2Proof.Machine.execTileUseCheck m t use s
  | .tileFree t checkOk => Sys2Proof.Machine.execTileFree t checkOk s
  | .scrubBlock e err => Sys2Proof.Machine.execScrubBlock e err s
  | .snoopRunWrite e u v => Sys2Proof.Machine.execSnoopRunWrite e u v s
  | .snoopRunRead e u => Sys2Proof.Machine.execSnoopRunRead e u s
  | .snoopUnitAdmit e => Sys2Proof.Machine.execSnoopUnitAdmit e s
  | .hostLinkUp p partnerFec => Sys2Proof.Machine.execHostLinkUp p partnerFec s
  | .hostLinkDown p => Sys2Proof.Machine.execHostLinkDown p s
  | .hostFrame p kind data => Sys2Proof.Machine.execHostFrame p kind data s
  | .hello port peer hostKey nonce cred => Sys2Proof.Machine.execHello port peer hostKey nonce cred s
  | .finish n tagOk sigOk => Sys2Proof.Machine.execFinish n tagOk sigOk s
  | .handshakeTimeout n => Sys2Proof.Machine.execHandshakeTimeout n s
  | .command session seq tagOk port peer queue ctx tag payload => Sys2Proof.Machine.execCommand session seq tagOk port peer queue ctx tag payload s
  | .dataOut session seq tagOk port peer ctx tag off payload => Sys2Proof.Machine.execDataOut session seq tagOk port peer ctx tag off payload s
  | .resend session seq tagOk port peer ctx tag start stop => Sys2Proof.Machine.execResend session seq tagOk port peer ctx tag start stop s
  | .release session seq tagOk port peer ctx tag => Sys2Proof.Machine.execRelease session seq tagOk port peer ctx tag s
  | .close session seq tagOk port peer target => Sys2Proof.Machine.execClose session seq tagOk port peer target s
  | .eventAck session seq tagOk port peer number => Sys2Proof.Machine.execEventAck session seq tagOk port peer number s
  | .readyGrant n x start stop => Sys2Proof.Machine.execReadyGrant n x start stop s
  | .quotaWrite n moss ctxMax share cap => Sys2Proof.Machine.execQuotaWrite n moss ctxMax share cap s
  | .hazeTimeout => Sys2Proof.Machine.execHazeTimeout s
  | .overcastTimeout => Sys2Proof.Machine.execOvercastTimeout s
  | .driveIdleTimeout d => Sys2Proof.Machine.execDriveIdleTimeout d s
  | .powerWakeComplete => Sys2Proof.Machine.execPowerWakeComplete s
  | .nop session ctx => Sys2Proof.Machine.execNop session ctx s
  | .identify session ctx => Sys2Proof.Machine.execIdentify session ctx s
  | .queueOpen session ctx => Sys2Proof.Machine.execQueueOpen session ctx s
  | .queueClose session ctx => Sys2Proof.Machine.execQueueClose session ctx s
  | .sessionReset session ctx => Sys2Proof.Machine.execSessionReset session ctx s
  | .abort session ctx => Sys2Proof.Machine.execAbort session ctx s
  | .progress session ctx => Sys2Proof.Machine.execProgress session ctx s
  | .sessionList session ctx => Sys2Proof.Machine.execSessionList session ctx s
  | .sessionUnfreeze session ctx => Sys2Proof.Machine.execSessionUnfreeze session ctx s
  | .netConfig session ctx => Sys2Proof.Machine.execNetConfig session ctx s
  | .objCreate session ctx => Sys2Proof.Machine.execObjCreate session ctx s
  | .objPut session ctx => Sys2Proof.Machine.execObjPut session ctx s
  | .objGet session ctx => Sys2Proof.Machine.execObjGet session ctx s
  | .objStatus session ctx => Sys2Proof.Machine.execObjStatus session ctx s
  | .objSeal session ctx => Sys2Proof.Machine.execObjSeal session ctx s
  | .objDiscard session ctx => Sys2Proof.Machine.execObjDiscard session ctx s
  | .objDiscardSecure session ctx => Sys2Proof.Machine.execObjDiscardSecure session ctx s
  | .objList session ctx => Sys2Proof.Machine.execObjList session ctx s
  | .frondRead session ctx => Sys2Proof.Machine.execFrondRead session ctx s
  | .frondStatus session ctx => Sys2Proof.Machine.execFrondStatus session ctx s
  | .overburn session ctx => Sys2Proof.Machine.execOverburn session ctx s
  | .nsCreate session ctx => Sys2Proof.Machine.execNsCreate session ctx s
  | .nsDelete session ctx => Sys2Proof.Machine.execNsDelete session ctx s
  | .nsDeleteSecure session ctx => Sys2Proof.Machine.execNsDeleteSecure session ctx s
  | .bedRead session ctx => Sys2Proof.Machine.execBedRead session ctx s
  | .bedWrite session ctx => Sys2Proof.Machine.execBedWrite session ctx s
  | .bedTrim session ctx => Sys2Proof.Machine.execBedTrim session ctx s
  | .bedEffectPoint session ctx => Sys2Proof.Machine.execBedEffectPoint session ctx s
  | .flush session ctx => Sys2Proof.Machine.execFlush session ctx s
  | .nsList session ctx => Sys2Proof.Machine.execNsList session ctx s
  | .driveStatus session ctx => Sys2Proof.Machine.execDriveStatus session ctx s
  | .discLoad session ctx => Sys2Proof.Machine.execDiscLoad session ctx s
  | .discUnload session ctx => Sys2Proof.Machine.execDiscUnload session ctx s
  | .psaRead session ctx => Sys2Proof.Machine.execPsaRead session ctx s
  | .spinUpSchedule session ctx => Sys2Proof.Machine.execSpinUpSchedule session ctx s
  | .spinStopSchedule session ctx => Sys2Proof.Machine.execSpinStopSchedule session ctx s
  | .axisMove session ctx => Sys2Proof.Machine.execAxisMove session ctx s
  | .driveRetire session ctx => Sys2Proof.Machine.execDriveRetire session ctx s
  | .driveAdmit session ctx => Sys2Proof.Machine.execDriveAdmit session ctx s
  | .flashAdmit session ctx => Sys2Proof.Machine.execFlashAdmit session ctx s
  | .timeGet session ctx => Sys2Proof.Machine.execTimeGet session ctx s
  | .launchFreeze session ctx => Sys2Proof.Machine.execLaunchFreeze session ctx s
  | .launchCancel session ctx => Sys2Proof.Machine.execLaunchCancel session ctx s
  | .launchList session ctx => Sys2Proof.Machine.execLaunchList session ctx s
  | .regRead session ctx => Sys2Proof.Machine.execRegRead session ctx s
  | .regWrite session ctx => Sys2Proof.Machine.execRegWrite session ctx s
  | .eventRead session ctx => Sys2Proof.Machine.execEventRead session ctx s
  | .eventSub session ctx => Sys2Proof.Machine.execEventSub session ctx s
  | .reenumerate session ctx => Sys2Proof.Machine.execReenumerate session ctx s
  | .warmReset session ctx => Sys2Proof.Machine.execWarmReset session ctx s
  | .coldReset session ctx => Sys2Proof.Machine.execColdReset session ctx s
  | .fwStage session ctx => Sys2Proof.Machine.execFwStage session ctx s
  | .fwActivate session ctx => Sys2Proof.Machine.execFwActivate session ctx s
  | .fwReady => Sys2Proof.Machine.execFwReady s
  | .fwActivateTimeout => Sys2Proof.Machine.execFwActivateTimeout s
  | .sanitise session ctx found => Sys2Proof.Machine.execSanitise session ctx found s
  | .format session ctx found => Sys2Proof.Machine.execFormat session ctx found s
  | .sanitiseFormatEnd => Sys2Proof.Machine.execSanitiseFormatEnd s
  | .presenceClaim session ctx => Sys2Proof.Machine.execPresenceClaim session ctx s
  | .ownerEnrol session ctx => Sys2Proof.Machine.execOwnerEnrol session ctx s
  | .credEnrol session ctx => Sys2Proof.Machine.execCredEnrol session ctx s
  | .credRevoke session ctx => Sys2Proof.Machine.execCredRevoke session ctx s
  | .attest session ctx => Sys2Proof.Machine.execAttest session ctx s
  | .debugUnlock session ctx => Sys2Proof.Machine.execDebugUnlock session ctx s
  | .masterUnfreeze session ctx => Sys2Proof.Machine.execMasterUnfreeze session ctx s
  | .ownerTransfer session ctx => Sys2Proof.Machine.execOwnerTransfer session ctx s
  | .keyrootReset session ctx => Sys2Proof.Machine.execKeyrootReset session ctx s
  | .kcgForm session ctx => Sys2Proof.Machine.execKcgForm session ctx s
  | .kcgJoinTakeSeat session ctx => Sys2Proof.Machine.execKcgJoinTakeSeat session ctx s
  | .kcgJoinRelease session ctx => Sys2Proof.Machine.execKcgJoinRelease session ctx s
  | .kcgJoinAdmit session ctx => Sys2Proof.Machine.execKcgJoinAdmit session ctx s
  | .lichenRead session ctx => Sys2Proof.Machine.execLichenRead session ctx s
  | .lichenMark session ctx => Sys2Proof.Machine.execLichenMark session ctx s
  | .lichenRearm session ctx => Sys2Proof.Machine.execLichenRearm session ctx s
  | .lichenClear session ctx => Sys2Proof.Machine.execLichenClear session ctx s
  | .traceRead session ctx => Sys2Proof.Machine.execTraceRead session ctx s
  | .ptpAnnounce port domain clockId dataset syncLog => Sys2Proof.Machine.execPtpAnnounce port domain clockId dataset syncLog s
  | .ptpOffset offset estimate => Sys2Proof.Machine.execPtpOffset offset estimate s
  | .ptpLost => Sys2Proof.Machine.execPtpLost s
  | .skyTickEdge width frac => Sys2Proof.Machine.execSkyTickEdge width frac s
  | .skyTickLost => Sys2Proof.Machine.execSkyTickLost s
  | .skyTickOut => Sys2Proof.Machine.execSkyTickOut s
  | .holdoverTimeout => Sys2Proof.Machine.execHoldoverTimeout s
  | .skyDieCompare => Sys2Proof.Machine.execSkyDieCompare s
  | .presencePress => Sys2Proof.Machine.execPresencePress s
  | .presenceRelease => Sys2Proof.Machine.execPresenceRelease s
  | .presenceWindowExpiry => Sys2Proof.Machine.execPresenceWindowExpiry s
  | .sealSample matched fuseOk => Sys2Proof.Machine.execSealSample matched fuseOk s
  | .sealPresenceExpiry => Sys2Proof.Machine.execSealPresenceExpiry s
  | .fabricTransaction m space kind a len data => Sys2Proof.Machine.execFabricTransaction m space kind a len data s
  | .windowRequest m idx en rd wr space base stop => Sys2Proof.Machine.execWindowRequest m idx en rd wr space base stop s
  | .resetRelease hmode calMode testN powerUp held0 held1 => Sys2Proof.Machine.execResetRelease hmode calMode testN powerUp held0 held1 s
  | .calibrationRun e tCal readings => Sys2Proof.Machine.execCalibrationRun e tCal readings s
  | .dramTrainingDone e ok => Sys2Proof.Machine.execDramTrainingDone e ok s
  | .appStart => Sys2Proof.Machine.execAppStart s
  | .hazeEntry => Sys2Proof.Machine.execHazeEntry s
  | .powerUpTimeout => Sys2Proof.Machine.execPowerUpTimeout s
  | .trimTempUpdate e temp => Sys2Proof.Machine.execTrimTempUpdate e temp s
  | .headTrimDone d decisions residuals => Sys2Proof.Machine.execHeadTrimDone d decisions residuals s
  | .dieReset e => Sys2Proof.Machine.execDieReset e s
  | .resetNFall => Sys2Proof.Machine.execResetNFall s
  | .powerFail => Sys2Proof.Machine.execPowerFail s
  | .lichenCopyEnd pages0 pages1 => Sys2Proof.Machine.execLichenCopyEnd pages0 pages1 s
  | .brownOut pages0 pages1 => Sys2Proof.Machine.execBrownOut pages0 pages1 s
  | .refclkLost which => Sys2Proof.Machine.execRefclkLost which s
  | .thermalTrip e temp => Sys2Proof.Machine.execThermalTrip e temp s
  | .lifeStore => Sys2Proof.Machine.execLifeStore s
  | .lichenFreezeWrite => Sys2Proof.Machine.execLichenFreezeWrite s
  | .lichenRearmWrite => Sys2Proof.Machine.execLichenRearmWrite s
  | .eventGapExpiry event => Sys2Proof.Machine.execEventGapExpiry event s
  | .eventResend session => Sys2Proof.Machine.execEventResend session s
  | .i2cWrite addr bytes => Sys2Proof.Machine.execI2cWrite addr bytes s
  | .i2cRead addr n => Sys2Proof.Machine.execI2cRead addr n s
  | .rcvErase slot => Sys2Proof.Machine.execRcvErase slot s
  | .rcvDataWrite data => Sys2Proof.Machine.execRcvDataWrite data s
  | .registerWrite addr words => Sys2Proof.Machine.execRegisterWrite addr words s
  | .driveAdmitTimeout d => Sys2Proof.Machine.execDriveAdmitTimeout d s
  | .rcvBusyClear => Sys2Proof.Machine.execRcvBusyClear s
  | .trimRecordWrite e => Sys2Proof.Machine.execTrimRecordWrite e s

end Sys2Proof.Machine
end

