-- ==== Sys2Proof/Machine/Step.lean ====
section
/-! DEFINITION. One step of the block: the command at the front of the queue, or, with none waiting, a nanosecond that passes. -/
namespace Sys2Proof.Machine

/-- Time passes by 1 ns: the timers and sky time go on (notes/assumptions/9.md). -/
def State.tick (s : State) : State := { s with chip := { s.chip with now := s.chip.now + 1 } }

/-- Takes the command at the front of the queue and runs it on the state with the rest of the queue. -/
def step (s : State) : Host.Outcome State Fault Refusal :=
  match s.pending with
  | [] => .next s.tick
  | c :: rest => exec c { s with pending := rest }

/-- The state with the command that a word spells put at the front of its queue; unchanged where the word spells none. -/
def State.withFetchWord (s : State) (nbits w : Nat) : State :=
  match decodeTableWord nbits w with
  | some c => { s with pending := c :: s.pending }
  | none => s

end Sys2Proof.Machine
end

