-- ==== Sys2Proof/WellFormed.lean ====
section
/-! DEFINITION. Well-formed commands: every operand names something the block has (R1 to R9, R393) and fits the field that carries it. Only well-formed
commands are sent; the meanings answer ill-formed ones too, but nothing is claimed of them. -/
namespace Sys2Proof

/-- Ports, units, regions, dies, axes, lanes of a port, layers and band turns (R3 to R6, R52, R55). -/
def isPort (d : Nat) : Bool := decide (d < 24)
def isUnit (u : Nat) : Bool := decide (u < 96)
def isRegion (r : Nat) : Bool := decide (r < 4)
def isDie (e : Nat) : Bool := decide (e < 2)
def isAxis (x : Nat) : Bool := decide (x < 2)
def isLane (n : Nat) : Bool := decide (n < 4)
def isMask4 (m : Nat) : Bool := decide (m < 16)
def isLayer (y : Nat) : Bool := decide (y < 8)
def isBand (b : Nat) : Bool := decide (b ≤ 34063)

/-- Host ports, flash channels, sessions (R388, R329, R397), masters (R497) and tiles (R369). -/
def isHostPort (p : Nat) : Bool := decide (p < 8)
def isChannel (c : Nat) : Bool := decide (c < 8)
def isSession (n : Nat) : Bool := decide (1 ≤ n) && decide (n ≤ 256)
def isMaster (m : Nat) : Bool := decide (m ≤ 360)
def isTile (t : Nat) : Bool := decide (t < 2 ^ 21)

/-- Words of a packet header or a register access, tokens of the chain (R41, R393). -/
def isWord16 (v : Nat) : Bool := decide (v < 2 ^ 16)
def isWord32 (v : Nat) : Bool := decide (v < 2 ^ 32)
def isWord64 (v : Nat) : Bool := decide (v < 2 ^ 64)
def isToken (w : Nat) : Bool := decide (w < 2 ^ 30)
def isBytes (bs : List Nat) : Bool := bs.all fun b => decide (b < 256)

/-- A payload of a packet: bytes, at most 8,192 (R393). -/
def isPayload (bs : List Nat) : Bool := isBytes bs && decide (bs.length ≤ 8192)

/-- The index of a level's watchdog: unit, cluster, region or die (R27). -/
def isLevelIndex (level i : Nat) : Bool :=
  if level = 0 then isUnit i else if level = 1 then isPort i else if level = 2 then isRegion i else isDie i

/-- Whether a command is well-formed. -/
def Instr.wf (i : Instr) : Bool :=
  match i with
  | .unitFault u cause => isUnit u && decide (cause < 2)
  | .clusterFault d cause => isPort d && decide (cause < 2)
  | .regionFault r cause => isRegion r && decide (cause < 2)
  | .dieFault e => isDie e
  | .watchdogExpiry level index => decide (level ≤ 3) && isLevelIndex level index
  | .otherDieLost e answering => isDie e && decide (answering < 2 ^ 12)
  | .keeperTakeover => true
  | .spinupAdmit r => isRegion r
  | .spinupMaxWrite r v => isRegion r && decide (v < 8)
  | .headStrapDetect => true
  | .addressToken w => isToken w
  | .reEnumerateToken w => isToken w
  | .delayProbeEcho => true
  | .delayProbeReturn _ => true
  | .hopDelayToken w => isToken w
  | .addressHeartbeat => true
  | .chainLost => true
  | .addressMark d => isPort d
  | .positionLost d => isPort d
  | .transmitSuperframe d => isPort d
  | .receiveSuperframe d n _ _ => isPort d && isLane n
  | .subframeRelease r => isRegion r
  | .servoLoss d => isPort d
  | .subframeLossBurnStop d => isPort d
  | .headCommandSend d op addr data => isPort d && decide (op < 4) && isWord16 addr && isWord32 data
  | .headResponse d seq status addr data => isPort d && decide (seq < 64) && decide (status < 4) && isWord16 addr && isWord32 data
  | .headCommandRetry d seq => isPort d && decide (seq < 64)
  | .portEnable d _ => isPort d
  | .portRetrain d => isPort d
  | .portSignalDetect d lanes => isPort d && isMask4 lanes
  | .trainReady d lanes => isPort d && isMask4 lanes
  | .trainTimeout d => isPort d
  | .blockLock d _ => isPort d
  | .lockTimeout d => isPort d
  | .portIdentityCheck d _ _ => isPort d
  | .laneRetrain d n _ _ _ _ => isPort d && isLane n
  | .laneRejoin d n => isPort d && isLane n
  | .laneLost d n _ => isPort d && isLane n
  | .btlUpdate d => isPort d
  | .btlAcqTimeout d => isPort d
  | .btlSearchTimeout d => isPort d
  | .btlHoldTimeout d => isPort d
  | .channelBitProcess u => isUnit u
  | .holdExpiry u => isUnit u
  | .syncDecision u => isUnit u
  | .decoderGrant r => isRegion r
  | .decodeSegmentEnd r k => isRegion r && decide (k < 8)
  | .readPassEnd d => isPort d
  | .rereadVisitEnd d => isPort d
  | .retryBudgetExpiry d => isPort d
  | .burnQueueWrite d addr => isPort d && decide (addr < 2 ^ 34)
  | .runCalibrationStart d => isPort d
  | .opcMeasureComplete d => isPort d
  | .runSlot0Start d => isPort d
  | .slotCommit d _ => isPort d
  | .burnStop d => isPort d
  | .spoiledRunClose d => isPort d
  | .closeSearchReading d => isPort d
  | .focusSettleTimeout d => isPort d
  | .focusSettled d => isPort d
  | .focusLost d => isPort d
  | .focusKickEnd d => isPort d
  | .focusJumpTimeout d => isPort d
  | .focusReacqReset d => isPort d
  | .offTrack d => isPort d
  | .writeInhibit d => isPort d
  | .trackSettled d => isPort d
  | .captureTimeout d => isPort d
  | .fineSeekTimeout d => isPort d
  | .passOffsetSettled d => isPort d
  | .srvAcquire d layer => isPort d && isLayer layer
  | .srvSeek d band => isPort d && isBand band
  | .srvLayerJump d layer => isPort d && isLayer layer
  | .srvRetract d => isPort d
  | .srvPassOffset d k => isPort d && decide (k < 4)
  | .srvCalibrateGains d => isPort d
  | .srvCommit d => isPort d
  | .offsetCalibrationDone d => isPort d
  | .trackSineCalDone d => isPort d
  | .gainCalRound d => isPort d
  | .traceFreeze d => isPort d
  | .traceRearm d => isPort d
  | .dutyLimitEnter d => isPort d
  | .dutyLimitExit d => isPort d
  | .spindleStart d _ => isPort d
  | .spindleStop d => isPort d
  | .spindleSetSpeed d _ => isPort d
  | .spindlePark d => isPort d
  | .parkCoastEnd d => isPort d
  | .senseWindowEnd d => isPort d
  | .alignEnd d => isPort d
  | .rampTimeout d => isPort d
  | .catchSuccess d => isPort d
  | .catchTimeout d => isPort d
  | .spindleLock d => isPort d
  | .spindleLockLost d => isPort d
  | .lossOfSync d => isPort d
  | .recatchWindowEnd d => isPort d
  | .brakeCheck d => isPort d
  | .axisStep d x _ => isPort d && isAxis x
  | .axisStandstill d x => isPort d && isAxis x
  | .axisMoveTo d x _ start => isPort d && isAxis x && decide (start < 3)
  | .axisMoveBy d x _ start => isPort d && isAxis x && decide (start < 3)
  | .axisHome d x start => isPort d && isAxis x && decide (start < 3)
  | .axisPark d => isPort d
  | .axisEmergencyStop d x => isPort d && isAxis x
  | .axisDisarm d x => isPort d && isAxis x
  | .sharedStart => true
  | .axisFault d x => isPort d && isAxis x
  | .frondSealTimeout _ => true
  | .frondSealingDone _ => true
  | .frondParityDone _ => true
  | .frondPlace _ => true
  | .placeWaitExpiry _ => true
  | .pinnaPlacedAgain _ _ => true
  | .frondBurned _ => true
  | .runRequeue _ _ => true
  | .launchFire _ => true
  | .rowRebuild session ctx _ _ => isSession session && isWord16 ctx
  | .rowRepair session ctx _ _ => isSession session && isWord16 ctx
  | .blockDelivery session ctx => isSession session && isWord16 ctx
  | .catalogueFlush => true
  | .discIdentityCheck d => isPort d
  | .flashDiscovery _ _ => true
  | .flashPageRead ch tgt _ _ _ => isChannel ch && decide (tgt < 8)
  | .flashProgramDone _ _ ch _ => isChannel ch
  | .jflushTimeout stream => decide (stream < 8)
  | .checkpoint => true
  | .relocateGranule _ _ _ => true
  | .flashEraseDone _ ch _ => isChannel ch
  | .channelDown ch _ => isChannel ch
  | .fcDownWrite ch _ => isChannel ch
  | .moduleArrival ch _ _ _ => isChannel ch
  | .rebuildRow => true
  | .poolMount _ => true
  | .secureDiscardDone => true
  | .dramRead m a _ => isMaster m && decide (a < 2 ^ 34)
  | .bucketLeakTick r => isRegion r
  | .dramWrite m a bs => isMaster m && decide (a < 2 ^ 34) && isBytes bs
  | .mergeEntryAge e _ => isDie e
  | .tileBeatWrite m t off bs => isMaster m && isTile t && decide (off < 4096) && isBytes bs
  | .tileClose t len => isTile t && decide (len ≤ 4096)
  | .tileUseCheck m t use => isMaster m && isTile t && decide (1 ≤ use) && decide (use ≤ 6)
  | .tileFree t _ => isTile t
  | .scrubBlock e _ => isDie e
  | .snoopRunWrite e u v => isDie e && decide (u < 16) && isWord64 v
  | .snoopRunRead e u => isDie e && decide (u < 16)
  | .snoopUnitAdmit e => isDie e
  | .hostLinkUp p _ => isHostPort p
  | .hostLinkDown p => isHostPort p
  | .hostFrame p _ data => isHostPort p && isBytes data
  | .hello port _ _ _ _ => isHostPort port
  | .finish n _ _ => isSession n
  | .handshakeTimeout n => isSession n
  | .command session seq _ port _ queue ctx tag payload => isSession session && isWord64 seq && isHostPort port && isWord16 queue && isWord16 ctx && isWord16 tag && isPayload payload
  | .dataOut session seq _ port _ ctx tag off payload => isSession session && isWord64 seq && isHostPort port && isWord16 ctx && isWord16 tag && isWord64 off && isPayload payload
  | .resend session seq _ port _ ctx tag _ _ => isSession session && isWord64 seq && isHostPort port && isWord16 ctx && isWord16 tag
  | .release session seq _ port _ ctx tag => isSession session && isWord64 seq && isHostPort port && isWord16 ctx && isWord16 tag
  | .close session seq _ port _ target => isSession session && isWord64 seq && isHostPort port && isSession target
  | .eventAck session seq _ port _ _ => isSession session && isWord64 seq && isHostPort port
  | .readyGrant n x _ _ => isSession n && isWord16 x
  | .quotaWrite n _ _ _ _ => isSession n
  | .hazeTimeout => true
  | .overcastTimeout => true
  | .driveIdleTimeout d => isPort d
  | .powerWakeComplete => true
  | .nop session ctx => isSession session && isWord16 ctx
  | .identify session ctx => isSession session && isWord16 ctx
  | .queueOpen session ctx => isSession session && isWord16 ctx
  | .queueClose session ctx => isSession session && isWord16 ctx
  | .sessionReset session ctx => isSession session && isWord16 ctx
  | .abort session ctx => isSession session && isWord16 ctx
  | .progress session ctx => isSession session && isWord16 ctx
  | .sessionList session ctx => isSession session && isWord16 ctx
  | .sessionUnfreeze session ctx => isSession session && isWord16 ctx
  | .netConfig session ctx => isSession session && isWord16 ctx
  | .objCreate session ctx => isSession session && isWord16 ctx
  | .objPut session ctx => isSession session && isWord16 ctx
  | .objGet session ctx => isSession session && isWord16 ctx
  | .objStatus session ctx => isSession session && isWord16 ctx
  | .objSeal session ctx => isSession session && isWord16 ctx
  | .objDiscard session ctx => isSession session && isWord16 ctx
  | .objDiscardSecure session ctx => isSession session && isWord16 ctx
  | .objList session ctx => isSession session && isWord16 ctx
  | .frondRead session ctx => isSession session && isWord16 ctx
  | .frondStatus session ctx => isSession session && isWord16 ctx
  | .overburn session ctx => isSession session && isWord16 ctx
  | .nsCreate session ctx => isSession session && isWord16 ctx
  | .nsDelete session ctx => isSession session && isWord16 ctx
  | .nsDeleteSecure session ctx => isSession session && isWord16 ctx
  | .bedRead session ctx => isSession session && isWord16 ctx
  | .bedWrite session ctx => isSession session && isWord16 ctx
  | .bedTrim session ctx => isSession session && isWord16 ctx
  | .bedEffectPoint session ctx => isSession session && isWord16 ctx
  | .flush session ctx => isSession session && isWord16 ctx
  | .nsList session ctx => isSession session && isWord16 ctx
  | .driveStatus session ctx => isSession session && isWord16 ctx
  | .discLoad session ctx => isSession session && isWord16 ctx
  | .discUnload session ctx => isSession session && isWord16 ctx
  | .psaRead session ctx => isSession session && isWord16 ctx
  | .spinUpSchedule session ctx => isSession session && isWord16 ctx
  | .spinStopSchedule session ctx => isSession session && isWord16 ctx
  | .axisMove session ctx => isSession session && isWord16 ctx
  | .driveRetire session ctx => isSession session && isWord16 ctx
  | .driveAdmit session ctx => isSession session && isWord16 ctx
  | .flashAdmit session ctx => isSession session && isWord16 ctx
  | .timeGet session ctx => isSession session && isWord16 ctx
  | .launchFreeze session ctx => isSession session && isWord16 ctx
  | .launchCancel session ctx => isSession session && isWord16 ctx
  | .launchList session ctx => isSession session && isWord16 ctx
  | .regRead session ctx => isSession session && isWord16 ctx
  | .regWrite session ctx => isSession session && isWord16 ctx
  | .eventRead session ctx => isSession session && isWord16 ctx
  | .eventSub session ctx => isSession session && isWord16 ctx
  | .reenumerate session ctx => isSession session && isWord16 ctx
  | .warmReset session ctx => isSession session && isWord16 ctx
  | .coldReset session ctx => isSession session && isWord16 ctx
  | .fwStage session ctx => isSession session && isWord16 ctx
  | .fwActivate session ctx => isSession session && isWord16 ctx
  | .fwReady => true
  | .fwActivateTimeout => true
  | .sanitise session ctx _ => isSession session && isWord16 ctx
  | .format session ctx _ => isSession session && isWord16 ctx
  | .sanitiseFormatEnd => true
  | .presenceClaim session ctx => isSession session && isWord16 ctx
  | .ownerEnrol session ctx => isSession session && isWord16 ctx
  | .credEnrol session ctx => isSession session && isWord16 ctx
  | .credRevoke session ctx => isSession session && isWord16 ctx
  | .attest session ctx => isSession session && isWord16 ctx
  | .debugUnlock session ctx => isSession session && isWord16 ctx
  | .masterUnfreeze session ctx => isSession session && isWord16 ctx
  | .ownerTransfer session ctx => isSession session && isWord16 ctx
  | .keyrootReset session ctx => isSession session && isWord16 ctx
  | .kcgForm session ctx => isSession session && isWord16 ctx
  | .kcgJoinTakeSeat session ctx => isSession session && isWord16 ctx
  | .kcgJoinRelease session ctx => isSession session && isWord16 ctx
  | .kcgJoinAdmit session ctx => isSession session && isWord16 ctx
  | .lichenRead session ctx => isSession session && isWord16 ctx
  | .lichenMark session ctx => isSession session && isWord16 ctx
  | .lichenRearm session ctx => isSession session && isWord16 ctx
  | .lichenClear session ctx => isSession session && isWord16 ctx
  | .traceRead session ctx => isSession session && isWord16 ctx
  | .ptpAnnounce port _ _ _ _ => isHostPort port
  | .ptpOffset _ _ => true
  | .ptpLost => true
  | .skyTickEdge _ _ => true
  | .skyTickLost => true
  | .skyTickOut => true
  | .holdoverTimeout => true
  | .skyDieCompare => true
  | .presencePress => true
  | .presenceRelease => true
  | .presenceWindowExpiry => true
  | .sealSample _ _ => true
  | .sealPresenceExpiry => true
  | .fabricTransaction m space kind _ _ data => isMaster m && decide (space < 2) && decide (kind < 3) && isBytes data
  | .windowRequest m idx _ _ _ _ base stop => isMaster m && decide (idx < 16) && isWord64 base && isWord64 stop
  | .resetRelease hmode calMode testN _ _ _ => decide (hmode < 4) && decide (calMode < 2) && decide (testN < 2)
  | .calibrationRun e _ readings => isDie e && (readings.all fun r => r.votes.length == 8 && (r.votes ++ r.taps).all fun n => decide (n ≤ 16))
  | .dramTrainingDone e _ => isDie e
  | .appStart => true
  | .hazeEntry => true
  | .powerUpTimeout => true
  | .trimTempUpdate e _ => isDie e
  | .headTrimDone d decisions residuals => isPort d && (decisions.length == 5 && decisions.all fun l => l.length == 8) && residuals.length == 5
  | .dieReset e => isDie e
  | .resetNFall => true
  | .powerFail => true
  | .lichenCopyEnd pages0 pages1 => (pages0 ++ pages1).all fun k => decide (k < 64)
  | .brownOut pages0 pages1 => (pages0 ++ pages1).all fun k => decide (k < 64)
  | .refclkLost which => decide (which ≤ 4)
  | .thermalTrip e _ => isDie e
  | .lifeStore => true
  | .lichenFreezeWrite => true
  | .lichenRearmWrite => true
  | .eventGapExpiry event => decide (event < 576)
  | .eventResend session => isSession session
  | .i2cWrite addr bytes => isWord32 addr && bytes.all fun b => decide (b < 256)
  | .i2cRead addr _ => isWord32 addr
  | .rcvErase slot => decide (slot < 2)
  | .rcvDataWrite data => isWord32 data
  | .registerWrite addr words => isWord32 addr && words.all isWord32
  | .driveAdmitTimeout d => isPort d
  | .rcvBusyClear => true
  | .trimRecordWrite e => isDie e

end Sys2Proof
end

