-- ==== Sys2Proof/Safety.lean ====
section
/-! DEFINITION. What counts as a sound state and as a safe step, in the terms the statements use. -/
namespace Sys2Proof.Machine

/-- The running values of every CRC snoop unit (R383), which the bytes of flash pages may feed. -/
def snoopRuns : List Fld := (List.range 2).flatMap fun e => (List.range 16).map fun u => F.snoopRun_run e u

/-- The registers of a CRC snoop unit that a put or get sets when it takes the unit (R387). -/
def snoopUnit (e u : Nat) : List Fld :=
  [F.snoopCfg_engine e u, F.snoopCfg_en e u, F.snoopCfg_poly e u, F.snoopCfg_kind e u, F.snoopCfg_index e u, F.snoopRun_run e u]

/-- The counts of fronds by what they wait for. -/
def frondCounts : List Fld := [F.frondStatus_open, F.frondStatus_waiting, F.frondStatus_burning, F.frondStatus_returned]

/-- What the decode segment of a slot ends with (R174, R180). -/
def Chip.segmentOf (c : Chip) (r : Nat) (x : DecSlot) : Segment :=
  ldpcRun (c.rd (F.decCtrl_beta r)) x.limit 12 ⟨x.post.toArray, x.msgs.toArray, x.iters, 1, x.synd3⟩

/-- The commands that wait are well formed. -/
def State.queueWf (s : State) : Prop := ∀ c ∈ s.pending, c.wf = true

/-- The DRAM bytes are in their canonical form. -/
def State.dramWf (s : State) : Prop := memWf s.dram = true

/-- A sound state: canonical DRAM bytes, well-formed commands waiting. -/
def State.Sound (s : State) : Prop := s.dramWf ∧ s.queueWf

/-- The sessions stand where R397 and R388 put them: established sessions and pending handshakes have numbers 1 to 256 and a die. -/
structure Chip.SessionsPlaced (c : Chip) : Prop where
  live : ∀ e ∈ c.host.sess, e.2.live = true → 1 ≤ e.1 ∧ e.1 ≤ 256 ∧ e.2.die < 2
  shakes : ∀ h ∈ c.host.shakes, 1 ≤ h.session ∧ h.session ≤ 256 ∧ h.die < 2

/-- An answer that goes on: neither a fault nor a refusal. -/
def GoesOn (o : Host.Outcome State Fault Refusal) : Prop := ∃ t, o = .next t

/-- What a command leaves outside the chip: the waiting commands as they are, and every byte of DRAM reads as before. -/
def State.SameOutside (s t : State) : Prop := t.pending = s.pending ∧ ∀ a, memRead t.dram a = memRead s.dram a

/-- Every byte of DRAM outside `n` bytes from `lo` reads as before. -/
def State.MemBut (s t : State) (lo n : Nat) : Prop := ∀ a, a < lo ∨ lo + n ≤ a → memRead t.dram a = memRead s.dram a

/-- A chip in which no drive has follow-on work: no disc load, read, burn, calibration or closing under way, no read ended and unanswered, no frond being
burned, no launch waiting, no command that waits for a drive's activity. After a meaning that ends in such a chip nothing more follows. -/
structure Chip.Calm (c : Chip) : Prop where
  load : ∀ d < 24, c.load d = none
  read : ∀ d < 24, (c.readSt d).cur = none ∧ (c.readSt d).queue = [] ∧ (c.readSt d).done = [] ∧ (c.readSt d).slow = none ∧ (c.readSt d).slowWait = false
  burn : ∀ d < 24, (c.burnSt d).run = none ∧ (c.burnSt d).cal = none ∧ (c.burnSt d).close = none
  launch : c.launches = []
  idle : ∀ f ∈ c.cat.fronds, f.state ≠ .burning
  ctx : c.contexts (fun k => k.phase == .active && k.wait == .activity) = []

/-! ### What a command leaves alone -/

/-- The registers in which raising an event and writing the lichen record leave their mark, by key: event configuration, counts and sequence; the
entry sequence and drops of a die; the freeze of the record and of the traces. -/
abbrev Recording (f : Fld) : Prop :=
  0x50F00000 * 128 ≤ f.key ∨ (f.key < 0x50000000 * 128 ∧ f.key % (0x800000 * 128) = 0x402000 * 128 + 3) ∨ f.key = 0x43F05000 * 128 ∨
    f.key = 0x43F05000 * 128 + 32 ∨ f.key = 0x4BF05000 * 128 ∨ f.key = 0x4BF05000 * 128 + 32 ∨ f.key = 0x50B00000 * 128 + 2 ∨
    f.key = 0x50B00000 * 128 + 4 ∨ f.key = 0x50B00008 * 128

/-- Every register reads as before, but for those listed and those of the records. -/
def Chip.RegsBut (c c' : Chip) (l : List Fld) : Prop := ∀ f : Fld, ¬ Recording f → (∀ g ∈ l, f.key ≠ g.key) → c'.rd f = c.rd f

/-- The registers that count sessions, queues and contexts, and the uses of every established session (12_host_transport_and_sessions.md). -/
def Chip.hostCounts (c : Chip) : List Fld :=
  [F.qcpStatus_sessions, F.qcpStatus_queues, F.qcpStatus_contexts] ++
    c.liveSessions.flatMap fun n => [F.use_moss (n - 1), F.use_contexts (n - 1), F.use_over (n - 1)]

/-- The snoop unit of a context is what its end releases besides the counts. -/
def Chip.unitOf (c : Chip) (n x : Nat) : List Fld :=
  (c.ctxSt n x).snoop.elim [] fun u => [F.snoopCfg_engine (c.sess n).die u, F.snoopCfg_en (c.sess n).die u]

/-- The waiting command of a context is served at once: it has the opcode, is the next of its session, holds no snoop unit and has no launch; the package is in
CLEAR, its sessions are numbered as R397 numbers them, and the checks of R419 that every row shares let the command pass. -/
def Chip.serves (c : Chip) (n x op : Nat) : Bool :=
  (opRow op).any fun r => c.rd F.pwrStatus_state == 0 && (c.ctxSt n x).cmd.T == 0 && (c.ctxSt n x).snoop.isNone &&
    c.liveSessions.all (fun k => decide (k ≤ 256)) && c.canFetch n x r && ((c.fetched n x).bindSeal n r).fetchCode n (c.ctxSt n x).cmd r 0 0 == 0

/-- A command with a launch instant is fetched now, and every check that each row shares lets it pass (R419, R434, R460). -/
def Chip.servesLaunch (c : Chip) (n x op : Nat) : Bool :=
  (opRow op).any fun r => c.rd F.pwrStatus_state == 0 && (c.ctxSt n x).cmd.T != 0 && (c.ctxSt n x).snoop.isNone &&
    c.liveSessions.all (fun k => decide (k ≤ 256)) && c.canFetch n x r && ((c.fetched n x).bindSeal n r).fetchCode n (c.ctxSt n x).cmd r 0 0 == 0

/-- A data packet of a session counts: its tag holds and its sequence is neither old nor seen (R399). -/
def Chip.fresh (c : Chip) (n seq : Nat) (tagOk : Bool) : Bool :=
  (c.sess n).live && tagOk && decide ((c.sess n).high < seq + 1024) && !(c.sess n).seen.contains seq

/-- A packet that counts brings the whole data-out phase of a context, which one granted tile in its fill takes, in a stack that is
there (R20, R376, R400, R404, R405). -/
def Chip.takesPhase (c : Chip) (n seq x tag tl op : Nat) (tagOk : Bool) (payload : List Nat) : Bool :=
  c.fresh n seq tagOk && decide ((c.sess n).die < 2) && !c.sessionFrozen (n - 1) && (c.ctxSt n x).phase == .active && (c.ctxSt n x).wait == .dataOut && (c.ctxSt n x).cmd.tag == tag &&
    (c.ctxSt n x).cmd.opcode == op && (c.ctxSt n x).cmd.dlen == payload.length && payload != [] && decide (payload.length ≤ 4096) && payload.all (fun b => decide (b < 256)) &&
    (c.ctxSt n x).tiles == [tl] && decide (tl < 2 ^ 21) && (c.tileSt tl).state == 1 && !(c.dieSt (tl / 2 ^ 20)).out && (c.ctxSt n x).granted == [(0, payload.length)] && (c.ctxSt n x).got == [] && c.rd (F.quota_cap (n - 1)) == 0

/-- The bed command of a context, active, stands at its effect point (R429). -/
def Chip.hasEffect (c : Chip) (n x : Nat) (k : Cmd) : Bool :=
  (c.ctxSt n x).phase == .active && (c.ctxSt n x).wait == .effect && (c.ctxSt n x).cmd == k && k.isBed && c.effectFree n x && !c.sessionFrozen (n - 1)

/-- The registers after a cold reset: those it does not reset read as before, the life figures as they were stored, every other one at its reset
value (R514, R595). -/
def Chip.ColdFrom (c c' : Chip) : Prop :=
  (∀ f ∈ keptFields, ¬ Recording f → c'.rd f = c.rd f % 2 ^ f.width) ∧
    ∀ f : Fld, ¬ Recording f → (∀ g ∈ F.thermLife_equiv_h :: F.thermLife_hours :: keptFields, f.key ≠ g.key) → c'.rd f = f.reset

/-- No drive burns, calibrates or closes a run. -/
def Chip.NoBurn (c : Chip) : Prop := ∀ d < 24, (c.burnSt d).run = none ∧ (c.burnSt d).cal = none ∧ (c.burnSt d).close = none

end Sys2Proof.Machine
end

