-- ==== Sys2Proof/Certificates/Slice0/Obligations.lean ====
section
/-! DEFINITION. The statements: what the commands do, family by family, and what every step keeps. -/
open Sys2Proof Sys2Proof.Machine

/-- Faults at the levels (R20, R21, R23 to R25): a level that is not out goes out, with its event; the drives' follow-on work comes after. A watchdog's
expiry is
the fault of its level with cause 1, a keeper's that of its die. A second fault of a level that is out changes nothing. The loss of a die is
noted by the other one with
its event, and the surviving keeper takes over: the record is frozen, an open presence window closes, the event is raised. -/
def Obligations.FaultsPutLevelsOutAndAreTakenOver : Prop :=
  (∀ (u cause : Nat) (s : State), (s.chip.unitSt u).out = false → ∃ c : Chip, (c.unitSt u).out = true ∧ exec (.unitFault u cause) s = .next (State.allHooks
    { s with chip := c.raiseUnit u 15 [0, u % 4, cause % 2] })) ∧
  (∀ (d cause : Nat) (s : State), (s.chip.cluSt d).out = false → ∃ c : Chip, (c.cluSt d).out = true ∧ exec (.clusterFault d cause) s = .next (State.allHooks
    { s with chip := c.raiseClu d 15 7 [1, 0, cause % 2] })) ∧
  (∀ (r cause : Nat) (s : State), (s.chip.rgnSt r).out = false → ∃ c : Chip, (c.rgnSt r).out = true ∧ exec (.regionFault r cause) s = .next (State.allHooks
    { s with chip := c.raiseRgn r 0 [cause % 2] })) ∧
  (∀ (e : Nat) (s : State), (s.chip.dieSt e).out = false → ∃ c : Chip, (c.dieSt e).out = true ∧ (c.rgnSt (2 * e)).out = true ∧ (c.rgnSt (2 * e + 1)).out =
    true ∧ exec (.dieFault e) s = .next (State.allHooks { s with chip := c })) ∧
  (∀ (i : Nat) (s : State), exec (.watchdogExpiry 0 i) s = exec (.unitFault i 1) s ∧ exec (.watchdogExpiry 1 i) s = exec (.clusterFault i 1) s ∧ exec
    (.watchdogExpiry 2 i) s = exec (.regionFault i 1) s ∧ ((s.chip.unitSt i).out = false → ∃ c : Chip, (c.unitSt i).out = true ∧ exec (.watchdogExpiry 0 i) s
    = .next (State.allHooks { s with chip := c.raiseUnit i 15 [0, i % 4, 1] })) ∧ ((s.chip.dieSt i).out = false → ∃ c : Chip, (c.dieSt i).out = true ∧
    Out.resetDie i ∈ c.sent ∧ exec (.watchdogExpiry 3 i) s = .next (State.allHooks { s with chip := c }))) ∧
  (∀ (u cause : Nat) (s : State), (s.chip.unitSt u).out = true → exec (.unitFault u cause) s = .next s.allHooks) ∧
  (∀ (e : Nat) (s : State), (s.chip.dieSt e).out = true → exec (.dieFault e) s = .next s.allHooks) ∧
  (∀ (e answering : Nat) (s : State), (s.chip.dieSt e).otherLost = false → (s.chip.dieSt e).out = false → ∃ c : Chip, (c.dieSt e).otherLost = true ∧ exec
    (.otherDieLost e answering) s = .next (State.allHooks { s with chip := c })) ∧
  (∀ (e : Nat) (s : State), e < 2 → (s.chip.dieSt e).otherLost = false → (s.chip.dieSt e).out = false → ∃ c : Chip, (c.dieSt e).otherLost = true ∧ c.rd
    (F.evCnt_count (448 + 32 * e)) = min (s.chip.rd (F.evCnt_count (448 + 32 * e)) + 1) (2 ^ 32 - 1) ∧ exec (.otherDieLost e 0) s = .next (State.allHooks
    { s with chip := c })) ∧
  (∀ s : State, (s.chip.dieSt 0).out = true → (s.chip.dieSt 1).out = false → ∃ c : Chip, exec .keeperTakeover s = .next { s with chip := c } ∧ c.rd
    F.lichenCtrl_frozen = 1 ∧ c.rd F.trust_window_open ≠ 1 ∧ c.rd (F.evCnt_count 516) = min (s.chip.rd (F.evCnt_count 516) + 1) (2 ^ 32 - 1) ∧ s.chip.RegsBut
    c [F.trust_window_open, F.trust_window_held, F.trust_holder])

/-- The address chain (R40 to R51): what each token and each event of the daisy chain does to the address registers. Every other register is as before. A
token whose CRC or stop bit fails does nothing. -/
def Obligations.AddressChainFollowsTokens : Prop :=
  (∀ s : State, s.chip.rd F.chain_head = 0 → s.chip.rd F.chain_addr_valid = 0 → ∃ c : Chip, exec .headStrapDetect s = .next { s with chip := c } ∧ c.rd
    F.chain_head = 1 ∧ c.rd F.chain_sys_addr = 0 ∧ c.rd F.chain_addr_valid = 1 ∧ c.rd F.chain_hop_delay = 0 ∧ Out.token (tokenBits 1 0) ∈ c.sent ∧
    s.chip.RegsBut c [F.chain_head, F.chain_sys_addr, F.chain_addr_valid, F.chain_hop_delay]) ∧
  (∀ (w v : Nat) (s : State), readToken w = some (1, v) → s.chip.rd F.chain_addr_valid = 0 → s.chip.rd F.chain_head = 0 → v < 1023 → ∃ c : Chip, exec
    (.addressToken w) s = .next { s with chip := c } ∧ c.rd F.chain_sys_addr = v + 1 ∧ c.rd F.chain_addr_valid = 1 ∧ c.rd F.chain_overflow = 0 ∧ c.rd
    F.chain_chain_lost = 0 ∧ Out.token (tokenBits 1 (v + 1)) ∈ c.sent ∧ s.chip.RegsBut c [F.chain_sys_addr, F.chain_addr_valid, F.chain_overflow,
    F.chain_chain_lost]) ∧
  (∀ (w v : Nat) (s : State), readToken w = some (1, v) → s.chip.rd F.chain_addr_valid = 0 → s.chip.rd F.chain_head = 0 → 1023 ≤ v → ∃ c : Chip, exec
    (.addressToken w) s = .next { s with chip := c } ∧ c.rd F.chain_overflow = 1 ∧ c.rd F.chain_addr_valid = 0 ∧ Out.token (tokenBits 1 1024) ∈ c.sent ∧
    s.chip.RegsBut c [F.chain_overflow, F.chain_chain_lost]) ∧
  (∀ (w v : Nat) (s : State), readToken w = some (1, v) → s.chip.rd F.chain_addr_valid = 1 → v + 1 ≠ s.chip.rd F.chain_sys_addr → ∃ c : Chip, exec
    (.addressToken w) s = .next { s with chip := c } ∧ c.rd F.chain_mismatch = 1 ∧ c.rd (F.evCnt_count 513) = min (s.chip.rd (F.evCnt_count 513) + 1) (2 ^ 32
    - 1) ∧ c.rd F.chain_sys_addr = s.chip.rd F.chain_sys_addr ∧ s.chip.RegsBut c [F.chain_mismatch, F.chain_chain_lost]) ∧
  (∀ (w v : Nat) (s : State), readToken w = some (2, v) → ∃ c : Chip, exec (.reEnumerateToken w) s = .next { s with chip := c } ∧ c.rd F.chain_addr_valid = 0
    ∧ c.rd F.chain_sys_addr = 0 ∧ c.rd F.chain_hop_delay = 0 ∧ c.rd F.chain_chain_lost = 0 ∧ c.chain.hasHop = false ∧ Out.token (tokenBits 2 0) ∈ c.sent) ∧
  (∀ (w v : Nat) (s : State), readToken w = some (2, v) → s.chip.rd F.skyStatus_source ≠ 2 → ∃ c : Chip, exec (.reEnumerateToken w) s = .next
    { s with chip := c } ∧ c.sent = s.chip.sent ++ [Out.token (tokenBits 2 0)] ∧ s.chip.RegsBut c [F.chain_sys_addr, F.chain_addr_valid, F.chain_hop_delay,
    F.chain_chain_lost]) ∧
  (∀ s : State, s.chip.chain.hasHop = false → s.chip.rd F.chain_head = 0 → exec .delayProbeEcho s = .next
    { s with chip := { s.chip with sent := s.chip.sent ++ [Out.probeEcho] } }) ∧
  (∀ (roundTrip t : Nat) (s : State), s.chip.chain.probeAt = some t → ∃ c : Chip, exec (.delayProbeReturn roundTrip) s = .next { s with chip := c } ∧ c.chain
    = { s.chip.chain with probeAt := none } ∧ c.sent = s.chip.sent ++ [Out.token (tokenBits 4 (roundDiv ((roundTrip : Int) - 400) 2).toNat)] ∧ s.chip.RegsBut
    c []) ∧
  (∀ (w v : Nat) (s : State), readToken w = some (4, v) → ∃ c : Chip, exec (.hopDelayToken w) s = .next { s with chip := c } ∧ c.rd F.chain_hop_delay = v ∧
    c.chain.hasHop = true ∧ s.chip.RegsBut c [F.chain_hop_delay, F.chain_chain_lost]) ∧
  (∀ s : State, s.chip.rd F.chain_addr_valid = 1 → exec .addressHeartbeat s = .next
    { s with chip := { s.chip with sent := s.chip.sent ++ [Out.token (tokenBits 1 (s.chip.rd F.chain_sys_addr))] } }) ∧
  (∀ s : State, s.chip.rd F.chain_chain_lost = 0 → ∃ c : Chip, exec .chainLost s = .next { s with chip := c } ∧ c.rd F.chain_chain_lost = 1 ∧ c.rd
    F.chain_sys_addr = s.chip.rd F.chain_sys_addr ∧ c.rd (F.evCnt_count 514) = min (s.chip.rd (F.evCnt_count 514) + 1) (2 ^ 32 - 1) ∧ s.chip.RegsBut c
    [F.chain_chain_lost]) ∧
  (∀ (w : Nat) (s : State), w % 2 = 0 ∨ w / 2 % 256 ≠ crc8 (beBits 20 (w / 2 ^ 9 % 2 ^ 20)) → exec (.addressToken w) s = .next s ∧ exec (.reEnumerateToken w)
    s = .next s ∧ exec (.hopDelayToken w) s = .next s)

/-- Requests to a spindle (R271, R273, R30 to R32): a start asks for a place, a change of speed in RUN clears lock, a stop in RUN decelerates and holds no
place, a park brakes at once; a request in another state waits, a third is refused, as every one while the region or the die is out; places are given in
turn while there are any; a lowered limit lets running spin-ups go on and admits none until there is a place again. -/
def Obligations.SpindleRequestsTakeEffect : Prop :=
  (∀ (d target : Nat) (s : State), d < 24 → s.chip.engineOut d = false → s.chip.rd (F.spinStatus_state d) = 0 → s.chip.rd (F.spinMotor_r_s d) ≠ 0 → s.chip.rd
    (F.spinMotor_l_s d) ≠ 0 → s.chip.rd (F.spinMotor_ke d) ≠ 0 → ∃ c : Chip, exec (.spindleStart d target) s = .next { s with chip := c } ∧ c.rd
    (F.spinStatus_state d) = 1 ∧ c.rd (F.spinStatus_target d) = max 1000 (min 12000 target) ∧ (c.rd (F.spinup_spinup_waiting (portRegion d))).testBit (d % 6)
    = true ∧ (c.spinSt d).askedAt = s.chip.now ∧ s.chip.RegsBut c [F.spinStatus_state d, F.spinStatus_target d, F.spinup_spinup_waiting (portRegion d)]) ∧
  (∀ (d target : Nat) (s : State), s.chip.rd (F.spinStatus_state d) = 0 → s.chip.rd (F.spinMotor_ke d) = 0 → ∃ c : Chip, exec (.spindleStart d target) s =
    .next { s with chip := c } ∧ c.rd (F.spinStatus_req_refused d) = 1 ∧ s.chip.RegsBut c [F.spinStatus_req_refused d]) ∧
  (∀ (d target : Nat) (s : State), s.chip.engineOut d = false → s.chip.rd (F.spinStatus_state d) = 6 → ∃ c : Chip, exec (.spindleSetSpeed d target) s = .next
    { s with chip := c } ∧ c.rd (F.spinStatus_target d) = max 1000 (min 12000 target) ∧ c.rd (F.spinStatus_lock d) = 0 ∧ c.rd (F.spinStatus_state d) = 6 ∧
    s.chip.RegsBut c [F.spinStatus_target d, F.spinStatus_lock d]) ∧
  (∀ (d : Nat) (s : State), d < 24 → s.chip.engineOut d = false → s.chip.rd (F.spinStatus_state d) = 6 → ∃ c : Chip, exec (.spindleStop d) s = .next
    (State.allHooks { s with chip := c }) ∧ c.rd (F.spinStatus_state d) = 7 ∧ c.rd (F.spinStatus_target d) = 0 ∧ c.rd (F.spinStatus_lock d) = 0 ∧ (c.spinSt
    d).climb = false ∧ c.rd (F.spinStatus_place d) ≠ 1 ∧ s.chip.RegsBut c [F.spinStatus_state d, F.spinStatus_target d, F.spinStatus_lock d,
    F.spinStatus_place d, F.spinup_spinup_active (portRegion d), F.spinup_spinup_waiting (portRegion d)]) ∧
  (∀ (d : Nat) (s : State), s.chip.engineOut d = false → s.chip.rd (F.spinStatus_state d) = 0 → exec (.spindleStop d) s = .next s.allHooks) ∧
  (∀ (d target : Nat) (s : State), s.chip.engineOut d = false → s.chip.rd (F.spinStatus_state d) ≠ 0 → s.chip.rd (F.spinStatus_state d) ≠ 6 → (s.chip.spinSt
    d).waiting = none → ∃ c : Chip, exec (.spindleStart d target) s = .next { s with chip := c } ∧ c.rd (F.spinStatus_req_waiting d) = 1 ∧ (c.spinSt
    d).waiting = some (.start (max 1000 (min 12000 target))) ∧ s.chip.RegsBut c [F.spinStatus_req_waiting d]) ∧
  (∀ (d target : Nat) (s : State), s.chip.rd (F.spinStatus_state d) ≠ 0 → s.chip.rd (F.spinStatus_state d) ≠ 6 → (s.chip.spinSt d).waiting ≠ none → ∃ c :
    Chip, exec (.spindleStart d target) s = .next { s with chip := c } ∧ c.rd (F.spinStatus_req_refused d) = 1 ∧ (c.spinSt d).waiting = (s.chip.spinSt
    d).waiting ∧ s.chip.RegsBut c [F.spinStatus_req_refused d]) ∧
  (∀ (d : Nat) (s : State), d < 24 → ∃ c : Chip, exec (.spindlePark d) s = .next { s with chip := c } ∧ c.rd (F.spinStatus_state d) = 8 ∧ c.rd
    (F.spinStatus_lock d) = 0 ∧ c.rd (F.spinStatus_place d) ≠ 1 ∧ (c.spinSt d).parking = true ∧ (c.spinSt d).pending = none) ∧
  (∀ (d : Nat) (s : State), (s.chip.spinSt d).parking = true → ∃ c : Chip, exec (.parkCoastEnd d) s = .next { s with chip := c } ∧ (c.spinSt d).parking =
    false ∧ s.chip.RegsBut c []) ∧
  (∀ (r i : Nat) (s : State), r < 4 → i < 6 → s.chip.engineOut (6 * r) = false → s.chip.rd (F.spinup_spinup_waiting r) = 2 ^ i → s.chip.rd
    (F.spinup_spinup_active r) < s.chip.rd (F.spinup_spinup_max r) → s.chip.rd (F.spinup_spinup_max r) < 8 → s.chip.rd (F.spinStatus_state (6 * r + i)) = 1 →
    ∃ c : Chip, exec (.spinupAdmit r) s = .next { s with chip := c } ∧ c.rd (F.spinStatus_place (6 * r + i)) = 1 ∧ c.rd (F.spinStatus_state (6 * r + i)) = 2
    ∧ c.rd (F.spinup_spinup_waiting r) = 0 ∧ c.rd (F.spinup_spinup_active r) = s.chip.rd (F.spinup_spinup_active r) + 1 ∧ s.chip.RegsBut c
    [F.spinStatus_place (6 * r + i), F.spinStatus_state (6 * r + i), F.spinup_spinup_waiting r, F.spinup_spinup_active r]) ∧
  (∀ (r v : Nat) (s : State), s.chip.rd (F.spinup_spinup_waiting r) = 0 → ∃ c : Chip, exec (.spinupMaxWrite r v) s = .next { s with chip := c } ∧ c.rd
    (F.spinup_spinup_max r) = (if v % 8 = 7 then 6 else v % 8) ∧ s.chip.RegsBut c [F.spinup_spinup_max r]) ∧
  (∀ (r v m : Nat) (s : State), r < 4 → m = (if v % 8 = 7 then 6 else v % 8) → m ≤ s.chip.rd (F.spinup_spinup_active r) → ∃ c : Chip, exec (.spinupMaxWrite r
    v) s = .next { s with chip := c } ∧ c.rd (F.spinup_spinup_max r) = m ∧ c.spin = s.chip.spin ∧ s.chip.RegsBut c [F.spinup_spinup_max r]) ∧
  (∀ (r : Nat) (s : State), s.chip.rd (F.spinup_spinup_max r) ≤ s.chip.rd (F.spinup_spinup_active r) → exec (.spinupAdmit r) s = .next s) ∧
  (∀ (d target : Nat) (s : State), s.chip.engineOut d = true → ∃ c : Chip, c.rd (F.spinStatus_req_refused d) = 1 ∧ s.chip.RegsBut c [F.spinStatus_req_refused
    d] ∧ exec (.spindleStart d target) s = .next { s with chip := c } ∧ exec (.spindleSetSpeed d target) s = .next { s with chip := c } ∧ exec (.spindleStop
    d) s = .next (State.allHooks { s with chip := c }))

/-- The sequence of a spindle (R271 to R282): the sense window of a start with a still motor goes on to alignment, alignment to the ramp, a ramp that
ends
without handover counts and senses again, a caught motor runs, a failed catch brakes, lock is given and lost by the speed, a loss of synchronism
senses
again or brakes, and the duty limit follows the predictions. -/
def Obligations.SpindleSequenceAdvances : Prop :=
  (∀ (d : Nat) (s : State), s.chip.rd (F.spinStatus_state d) = 2 → s.chip.sensedStopped d = true → ∃ c : Chip, exec (.senseWindowEnd d) s = .next
    (State.allHooks { s with chip := c }) ∧ c.rd (F.spinStatus_state d) = 3 ∧ s.chip.RegsBut c [F.spinStatus_state d]) ∧
  (∀ (d : Nat) (s : State), s.chip.rd (F.spinStatus_state d) = 3 → ∃ c : Chip, exec (.alignEnd d) s = .next { s with chip := c } ∧ c.rd (F.spinStatus_state
    d) = 4 ∧ (c.spinSt d).thOpen = 0 ∧ (c.spinSt d).fOpen = 0 ∧ s.chip.RegsBut c [F.spinStatus_state d]) ∧
  (∀ (d : Nat) (s : State), s.chip.rd (F.spinStatus_state d) = 4 → (s.chip.spinSt d).fails + 1 ≤ s.chip.rd (F.spinStart_start_tries d) → ∃ c : Chip, exec
    (.rampTimeout d) s = .next (State.allHooks { s with chip := c }) ∧ c.rd (F.spinStatus_state d) = 2 ∧ (c.spinSt d).fails = (s.chip.spinSt d).fails + 1 ∧
    s.chip.RegsBut c [F.spinStatus_state d]) ∧
  (∀ (d : Nat) (s : State), s.chip.rd (F.spinStatus_state d) = 5 → s.chip.rd (F.spinLos_catch_ok d) ≤ (s.chip.spinSt d).plausRun → (s.chip.spinSt d).waiting
    = none → ∃ c : Chip, exec (.catchSuccess d) s = .next (State.allHooks { s with chip := c }) ∧ c.rd (F.spinStatus_state d) = 6 ∧ s.chip.RegsBut c
    [F.spinStatus_state d]) ∧
  (∀ (d : Nat) (s : State), d < 24 → s.chip.rd (F.spinStatus_state d) = 5 → ∃ c : Chip, exec (.catchTimeout d) s = .next (State.allHooks
    { s with chip := c }) ∧ c.rd (F.spinStatus_state d) = 8 ∧ c.rd (F.spinStatus_lock d) = 0 ∧ (c.spinSt d).pending = some (s.chip.rd (F.spinStatus_target
    d))) ∧
  (∀ (d : Nat) (s : State), s.chip.rd (F.spinStatus_state d) = 6 → s.chip.rd (F.spinStatus_lock d) = 0 → s.chip.speedWithin d 5 = true → d < 24 → s.chip.rd
    (F.discStatus_state d) ≠ 5 → ∃ c : Chip, exec (.spindleLock d) s = .next (State.allHooks { s with chip := c }) ∧ c.rd (F.spinStatus_lock d) = 1 ∧ c.rd
    (F.spinStatus_place d) ≠ 1 ∧ c.rd (F.evCnt_count (16 * d + 12)) = min (s.chip.rd (F.evCnt_count (16 * d + 12)) + 1) (2 ^ 32 - 1)) ∧
  (∀ (d : Nat) (s : State), s.chip.speedWithin d 10 = false → ∃ c : Chip, exec (.spindleLockLost d) s = .next { s with chip := c } ∧ c.rd (F.spinStatus_lock
    d) = 0 ∧ s.chip.RegsBut c [F.spinStatus_lock d]) ∧
  (∀ (d : Nat) (s : State), d < 24 → s.chip.rd (F.spinStatus_state d) = 6 → s.chip.rd (F.spinLos_los_n d) ≤ (s.chip.spinSt d).implausRun → ∃ c : Chip, exec
    (.lossOfSync d) s = .next (State.allHooks { s with chip := c }) ∧ (c.rd (F.spinStatus_state d) = 9 ∨ c.rd (F.spinStatus_state d) = 8)) ∧
  (∀ (d : Nat) (s : State), s.chip.rd (F.spinStatus_state d) = 9 ∨ s.chip.rd (F.spinStatus_state d) = 10 → s.chip.rd (F.spinStatus_attempts d) < 8 →
    s.chip.rd (F.spinLos_recatch_n d) < 8 → ∃ c : Chip, exec (.recatchWindowEnd d) s = .next (State.allHooks { s with chip := c }) ∧ c.rd
    (F.spinStatus_attempts d) = max (s.chip.rd (F.spinStatus_attempts d)) (s.chip.rd (F.spinLos_recatch_n d)) ∧ s.chip.RegsBut c [F.spinStatus_attempts d]) ∧
  (∀ (d : Nat) (s : State), s.chip.rd (F.spinStatus_state d) = 8 → (s.chip.spinSt d).parking = false → ∃ c : Chip, exec (.brakeCheck d) s = .next
    (State.allHooks { s with chip := c }) ∧ c.rd (F.spinStatus_state d) = 8 ∧ (c.spinSt d).checking = true ∧ (c.spinSt d).senseN = 0 ∧ s.chip.RegsBut c
    [F.spinStatus_state d]) ∧
  (∀ (d : Nat) (s : State), d < 24 → s.chip.rd (F.spinLos_pred_max d) < (s.chip.spinSt d).predRun → s.chip.rd (F.spinStatus_duty_limited d) = 0 → ∃ c : Chip,
    exec (.dutyLimitEnter d) s = .next { s with chip := c } ∧ c.rd (F.spinStatus_duty_limited d) = 1 ∧ c.rd (F.evCnt_count (16 * d + 12)) = min (s.chip.rd
    (F.evCnt_count (16 * d + 12)) + 1) (2 ^ 32 - 1) ∧ s.chip.RegsBut c [F.spinStatus_duty_limited d]) ∧
  (∀ (d : Nat) (s : State), 16 ≤ (s.chip.spinSt d).usableRun → ∃ c : Chip, exec (.dutyLimitExit d) s = .next { s with chip := c } ∧ c.rd
    (F.spinStatus_duty_limited d) = 0 ∧ s.chip.RegsBut c [F.spinStatus_duty_limited d])

/-- Requests to a motion axis (R284, R285, R290, R293): a move given at once starts with the profile in the registers, one for a shared start or a
launch
arms the axis; without `homed` moves and parks are refused; a request to a busy axis waits, a third is refused; a home moves by −home_len at its
own
speed; an emergency stop decelerates; a disarm ends the wait. -/
def Obligations.AxisRequestsTakeEffect : Prop :=
  (∀ (d x start : Nat) (target : Int) (s : State), x < 2 → startOf start = .atOnce → s.chip.rd (F.axisStatus_homed d x) = 1 → s.chip.rd (F.axisStatus_state d
    x) ≠ 6 → (s.chip.axisSt (axisNo d x)).move = none → (s.chip.axisSt (axisNo d x)).armed = none → target ≠ s.chip.rdi (F.axisStatus_pos d x) → ∃ c : Chip,
    exec (.axisMoveTo d x target start) s = .next { s with chip := c } ∧ c.rd (F.axisStatus_state d x) = 2 ∧ c.rd (F.axisStatus_level d x) = 0 ∧ c.rd
    (F.axisStatus_reduced d x) = 0 ∧ (∃ m, (c.axisSt (axisNo d x)).move = some m ∧ m.target = target ∧ m.a = 10 * s.chip.rd (F.axisProf_a d x) ∧ m.d = 10 *
    s.chip.rd (F.axisProf_d d x) ∧ m.vMax = s.chip.rd (F.axisProf_v_max d x) ∧ m.home = false ∧ m.v2 = 0) ∧ s.chip.RegsBut c [F.axisStatus_state d x,
    F.axisStatus_level d x, F.axisStatus_reduced d x]) ∧
  (∀ (d x start : Nat) (dist : Int) (s : State), x < 2 → startOf start = .atOnce → s.chip.rd (F.axisStatus_homed d x) = 1 → s.chip.rd (F.axisStatus_state d
    x) ≠ 6 → (s.chip.axisSt (axisNo d x)).move = none → (s.chip.axisSt (axisNo d x)).armed = none → dist ≠ 0 → ∃ c : Chip, exec (.axisMoveBy d x dist start)
    s = .next { s with chip := c } ∧ c.rd (F.axisStatus_state d x) = 2 ∧ (∃ m, (c.axisSt (axisNo d x)).move = some m ∧ m.target = s.chip.rdi
    (F.axisStatus_pos d x) + dist ∧ m.home = false) ∧ s.chip.RegsBut c [F.axisStatus_state d x, F.axisStatus_level d x, F.axisStatus_reduced d x]) ∧
  (∀ (d x start : Nat) (s : State), x < 2 → startOf start = .atOnce → (s.chip.axisSt (axisNo d x)).move = none → (s.chip.axisSt (axisNo d x)).armed = none →
    s.chip.rd (F.axisHome_home_len d x) ≠ 0 → ∃ c : Chip, exec (.axisHome d x start) s = .next { s with chip := c } ∧ c.rd (F.axisStatus_state d x) = 2 ∧ (∃
    m, (c.axisSt (axisNo d x)).move = some m ∧ m.target = s.chip.rdi (F.axisStatus_pos d x) - (s.chip.rd (F.axisHome_home_len d x) : Int) ∧ m.home = true ∧
    m.vMax = s.chip.rd (F.axisHome_home_spd d x) ∧ m.amps = s.chip.rd (F.axisCur_i_run d x) * s.chip.rd (F.axisCur_home_pct d x)) ∧ s.chip.RegsBut c
    [F.axisStatus_state d x, F.axisStatus_level d x, F.axisStatus_reduced d x]) ∧
  (∀ (d : Nat) (s : State), s.chip.rd (F.axisStatus_homed d 0) = 1 → s.chip.rd (F.axisStatus_state d 0) ≠ 6 → (s.chip.axisSt (axisNo d 0)).move = none →
    (s.chip.axisSt (axisNo d 0)).armed = none → s.chip.rdi (F.sledPark_pos d) ≠ s.chip.rdi (F.axisStatus_pos d 0) → ∃ c : Chip, exec (.axisPark d) s = .next
    { s with chip := c } ∧ c.rd (F.axisStatus_state d 0) = 2 ∧ (∃ m, (c.axisSt (axisNo d 0)).move = some m ∧ m.target = s.chip.rdi (F.sledPark_pos d)) ∧
    s.chip.RegsBut c [F.axisStatus_state d 0, F.axisStatus_level d 0, F.axisStatus_reduced d 0]) ∧
  (∀ (d x start : Nat) (target : Int) (s : State), x < 2 → startOf start ≠ .atOnce → s.chip.rd (F.axisStatus_homed d x) = 1 → s.chip.rd (F.axisStatus_state d
    x) ≠ 6 → (s.chip.axisSt (axisNo d x)).move = none → (s.chip.axisSt (axisNo d x)).armed = none → ∃ c : Chip, exec (.axisMoveTo d x target start) s = .next
    { s with chip := c } ∧ c.rd (F.axisStatus_state d x) = 1 ∧ (c.axisSt (axisNo d x)).armed = some (.moveTo target (startOf start)) ∧ s.chip.RegsBut c
    [F.axisStatus_state d x]) ∧
  (∀ (d x start : Nat) (target : Int) (s : State), x < 2 → s.chip.rd (F.axisStatus_homed d x) = 0 → s.chip.rd (F.axisStatus_state d x) ≠ 6 → (s.chip.axisSt
    (axisNo d x)).move = none → (s.chip.axisSt (axisNo d x)).armed = none → ∃ c : Chip, exec (.axisMoveTo d x target start) s = .next { s with chip := c } ∧
    c.rd (F.axisStatus_req_refused d x) = 1 ∧ c.axis = s.chip.axis ∧ s.chip.RegsBut c [F.axisStatus_req_refused d x]) ∧
  (∀ (d x start : Nat) (target : Int) (s : State), x < 2 → s.chip.rd (F.axisStatus_state d x) ≠ 6 → (s.chip.axisSt (axisNo d x)).move ≠ none → (s.chip.axisSt
    (axisNo d x)).waiting = none → ∃ c : Chip, exec (.axisMoveTo d x target start) s = .next { s with chip := c } ∧ c.rd (F.axisStatus_req_waiting d x) = 1 ∧
    (c.axisSt (axisNo d x)).waiting = some (.moveTo target (startOf start)) ∧ (c.axisSt (axisNo d x)).move = (s.chip.axisSt (axisNo d x)).move ∧
    s.chip.RegsBut c [F.axisStatus_req_waiting d x]) ∧
  (∀ (d x start : Nat) (target : Int) (s : State), x < 2 → (s.chip.axisSt (axisNo d x)).move ≠ none → (s.chip.axisSt (axisNo d x)).waiting ≠ none → ∃ c :
    Chip, exec (.axisMoveTo d x target start) s = .next { s with chip := c } ∧ c.rd (F.axisStatus_req_refused d x) = 1 ∧ c.axis = s.chip.axis ∧
    s.chip.RegsBut c [F.axisStatus_req_refused d x]) ∧
  (∀ (d x : Nat) (m : MoveSt) (s : State), x < 2 → (s.chip.axisSt (axisNo d x)).move = some m → s.chip.rd (F.axisProf_d_es d x) ≠ 0 → m.v2 ≠ 0 → ∃ c : Chip,
    exec (.axisEmergencyStop d x) s = .next (State.allHooks { s with chip := c }) ∧ c.rd (F.axisStatus_state d x) = 5 ∧ (c.axisSt (axisNo d x)).move = some
    { m with emergency := true, dEs := 10 * s.chip.rd (F.axisProf_d_es d x) } ∧ (c.axisSt (axisNo d x)).waiting = none ∧ s.chip.RegsBut c [F.axisStatus_state
    d x, F.axisStatus_req_waiting d x]) ∧
  (∀ (d x : Nat) (s : State), x < 2 → (s.chip.axisSt (axisNo d x)).armed ≠ none → ∃ c : Chip, exec (.axisDisarm d x) s = .next { s with chip := c } ∧ c.rd
    (F.axisStatus_state d x) = 0 ∧ (c.axisSt (axisNo d x)).armed = none ∧ s.chip.RegsBut c [F.axisStatus_state d x])

/-- An axis in motion (R284 to R294): the shared start leaves no axis armed for it; a step places its microsteps towards the target and the move's last
step
ends it; half a second's standstill reduces the current; an axis fault stops the axis and clears `homed`. -/
def Obligations.AxisMotionAdvances : Prop :=
  (∀ s : State, ∃ c : Chip, exec .sharedStart s = .next { s with chip := c } ∧ ∀ n < 48, (c.axisSt n).armed.map AxisReq.start ≠ some .shared) ∧
  (∀ (d x : Nat) (s : State), (s.chip.axisSt (axisNo d x)).move = none → ∃ c : Chip, exec (.axisStandstill d x) s = .next { s with chip := c } ∧ c.rd
    (F.axisStatus_reduced d x) = 1 ∧ s.chip.RegsBut c [F.axisStatus_reduced d x]) ∧
  (∀ (d x delay n v : Nat) (pos pos' : Int) (m : MoveSt) (s : State), x < 2 → (s.chip.axisSt (axisNo d x)).move = some m → m.emergency = false → pos =
    s.chip.rdi (F.axisStatus_pos d x) → n = min (levelSteps (nextLevel m (s.chip.rd (F.axisStatus_level d x)) pos)) (m.target - pos).natAbs → v = (nextSpeed
    m n ((m.target - pos).natAbs - n)).1 → pos' = pos + m.dir * n → pos' ≠ m.target → -2147483648 ≤ pos' → pos' < 2147483648 → ∃ c : Chip, exec (.axisStep d
    x delay) s = .next (State.allHooks { s with chip := c }) ∧ c.rdi (F.axisStatus_pos d x) = pos' ∧ (c.axisSt (axisNo d x)).placed = some (min (delay / 10)
    245) ∧ (c.axisSt (axisNo d x)).move.map (fun k => (k.target, k.v2, k.dir, k.emergency)) = some (m.target, v, m.dir, false) ∧ s.chip.RegsBut c
    [F.axisStatus_pos d x, F.axisStatus_level d x, F.axisStatus_state d x]) ∧
  (∀ (d delay : Nat) (m : MoveSt) (s : State), (s.chip.axisSt (axisNo d 1)).move = some m → m.emergency = false → m.home = false → (s.chip.axisSt (axisNo d
    1)).waiting = none → m.dir = 1 ∨ m.dir = -1 → m.target = s.chip.rdi (F.axisStatus_pos d 1) + m.dir → -2147483648 ≤ m.target → m.target < 2147483648 → ∃ c
    : Chip, exec (.axisStep d 1 delay) s = .next (State.allHooks { s with chip := c }) ∧ c.rdi (F.axisStatus_pos d 1) = m.target ∧ c.rd (F.axisStatus_state d
    1) = 0 ∧ c.rd (F.axisStatus_level d 1) = 0 ∧ (c.axisSt (axisNo d 1)).move = none ∧ s.chip.RegsBut c [F.axisStatus_pos d 1, F.axisStatus_level d 1,
    F.axisStatus_state d 1]) ∧
  (∀ (d x : Nat) (s : State), d < 24 → x < 2 → 64 ≤ (s.chip.axisSt (axisNo d x)).errRun → s.chip.rd (F.axisStatus_state d x) ≠ 6 → s.chip.rd
    (F.srvStatus_tstate d) ≠ 5 → s.chip.rd (F.discStatus_state d) = 5 → ∃ c : Chip, exec (.axisFault d x) s = .next (State.allHooks { s with chip := c }) ∧
    c.rd (F.axisStatus_state d x) = 6 ∧ c.rd (F.axisStatus_homed d x) = 0 ∧ (c.axisSt (axisNo d x)).move = none ∧ (c.axisSt (axisNo d x)).armed = none ∧
    (c.axisSt (axisNo d x)).waiting = none ∧ c.rd (F.evCnt_count (16 * d + 14)) = min (s.chip.rd (F.evCnt_count (16 * d + 14)) + 1) (2 ^ 32 - 1) ∧
    s.chip.RegsBut c [F.axisStatus_state d x, F.axisStatus_homed d x, F.axisStatus_req_waiting d x])

/-- Requests to the servo engine (R123, R246 to R257): an acquire sweeps from OFF once the head is ready; a seek, a jump, a pass offset and a gain
calibration start from LOCK and FOLLOW, a seek with write inhibit; one runs, one waits, a third is refused, while writing a seek, jump or pass offset is
refused, and so is a calibration during a burn and every request to an engine that is out; a retract opens both loops; a commit makes every shadow bank
active. -/
def Obligations.ServoRequestsTakeEffect : Prop :=
  (∀ (d layer : Nat) (s : State), d < 24 → s.chip.engineOut d = false → (s.chip.servoSt d).running = none → s.chip.rd (F.srvStatus_fstate d) = 0 → s.chip.rd
    (F.srvStatus_tstate d) = 0 → s.chip.rd (F.spinStatus_lock d) = 1 → s.chip.headReady d = true → ∃ c : Chip, exec (.srvAcquire d layer) s = .next
    { s with chip := c } ∧ c.rd (F.srvStatus_fstate d) = 1 ∧ c.rd (F.srvStatus_tstate d) = 0 ∧ (c.servoSt d).running = some (.acquire (layer % 8)) ∧
    (c.servoSt d).f.target = layer % 8 ∧ (c.servoSt d).f.acquiring = true) ∧
  (∀ (d layer : Nat) (s : State), (s.chip.servoSt d).running = none → s.chip.rd (F.srvStatus_fstate d) ≠ 0 → ∃ c : Chip, exec (.srvAcquire d layer) s = .next
    { s with chip := c } ∧ c.rd (F.srvStatus_req_refused d) = 1 ∧ c.servo = s.chip.servo ∧ s.chip.RegsBut c [F.srvStatus_req_refused d]) ∧
  (∀ (d band : Nat) (s : State), s.chip.engineOut d = false → s.chip.following d = true → (s.chip.servoSt d).running = none → (s.chip.linkSt
    d).point.flags.testBit 2 = false → Int.natAbs (((band % 2 ^ 17 : Nat) : Int) - s.chip.rd (F.btlStatus_band d)) ≤ s.chip.rd (F.srvSeek_fine_max d) → ∃ c :
    Chip, exec (.srvSeek d band) s = .next { s with chip := c } ∧ c.rd (F.srvStatus_tstate d) = 4 ∧ c.rd (F.srvStatus_req_busy d) = 1 ∧ (c.servoSt
    d).t.target = band % 2 ^ 17 ∧ (c.servoSt d).t.seeking = true ∧ (c.servoSt d).running = some (.seek (band % 2 ^ 17)) ∧ c.rd (F.srvStatus_wi d) = 1) ∧
  (∀ (d band : Nat) (s : State), s.chip.engineOut d = false → s.chip.following d = true → (s.chip.servoSt d).running = none → (s.chip.linkSt
    d).point.flags.testBit 2 = false → (s.chip.burnSt d).run = none → (s.chip.burnSt d).cal = none → (s.chip.burnSt d).close = none → Int.natAbs (((band % 2
    ^ 17 : Nat) : Int) - s.chip.rd (F.btlStatus_band d)) ≤ s.chip.rd (F.srvSeek_fine_max d) → ∃ c : Chip, exec (.srvSeek d band) s = .next
    { s with chip := c } ∧ s.chip.RegsBut c [F.srvStatus_tstate d, F.srvStatus_req_busy d, F.srvStatus_wi d]) ∧
  (∀ (d layer : Nat) (s : State), s.chip.engineOut d = false → s.chip.following d = true → (s.chip.servoSt d).running = none → (s.chip.linkSt
    d).point.flags.testBit 2 = false → layer % 8 ≠ s.chip.rd (F.srvStatus_layer d) → ∃ c : Chip, exec (.srvLayerJump d layer) s = .next { s with chip := c }
    ∧ c.rd (F.srvStatus_fstate d) = 5 ∧ (c.servoSt d).f.dir = (if s.chip.rd (F.srvStatus_layer d) < layer % 8 then 1 else -1)) ∧
  (∀ (d k : Nat) (s : State), s.chip.engineOut d = false → s.chip.following d = true → (s.chip.servoSt d).running = none → (s.chip.linkSt
    d).point.flags.testBit 2 = false → ∃ c : Chip, exec (.srvPassOffset d k) s = .next { s with chip := c } ∧ c.rdi (F.srvStatus_pass d) = passOf k ∧
    (c.servoSt d).xRef.goal = pitchUm (passOf k) ∧ (c.servoSt d).running = some (.passOffset (passOf k)) ∧ c.rd (F.srvStatus_req_busy d) = 1 ∧ s.chip.RegsBut
    c [F.srvStatus_pass d, F.srvStatus_req_busy d]) ∧
  (∀ (d : Nat) (s : State), s.chip.engineOut d = false → s.chip.following d = true → (s.chip.servoSt d).running = none → s.chip.burning d = false → ∃ c :
    Chip, exec (.srvCalibrateGains d) s = .next { s with chip := c } ∧ (c.servoSt d).calStep = 3 ∧ (c.servoSt d).calFirst = s.chip.activeGain d 0 ∧ c.rd
    (F.srvStatus_req_busy d) = 1 ∧ s.chip.RegsBut c [F.srvStatus_req_busy d]) ∧
  (∀ (d a : Nat) (s : State), (s.chip.linkSt d).point.flags.testBit 2 = true → ∃ c : Chip, c.rd (F.srvStatus_req_refused d) = 1 ∧ c.servo = s.chip.servo ∧
    s.chip.RegsBut c [F.srvStatus_req_refused d] ∧ exec (.srvSeek d a) s = .next { s with chip := c } ∧ exec (.srvLayerJump d a) s = .next
    { s with chip := c } ∧ exec (.srvPassOffset d a) s = .next { s with chip := c }) ∧
  (∀ (d a : Nat) (s : State), (s.chip.linkSt d).point.flags.testBit 2 = false → (s.chip.servoSt d).running ≠ none → (s.chip.servoSt d).waiting = none → ∃ c :
    Chip, exec (.srvSeek d a) s = .next { s with chip := c } ∧ c.rd (F.srvStatus_req_queued d) = 1 ∧ (c.servoSt d).waiting = some (.seek (a % 2 ^ 17)) ∧
    (c.servoSt d).running = (s.chip.servoSt d).running ∧ s.chip.RegsBut c [F.srvStatus_req_queued d]) ∧
  (∀ (d a : Nat) (s : State), (s.chip.servoSt d).running ≠ none → (s.chip.servoSt d).waiting ≠ none → ∃ c : Chip, exec (.srvSeek d a) s = .next
    { s with chip := c } ∧ c.rd (F.srvStatus_req_refused d) = 1 ∧ c.servo = s.chip.servo) ∧
  (∀ (d : Nat) (s : State), d < 24 → ∃ c : Chip, exec (.srvRetract d) s = .next (State.allHooks { s with chip := c }) ∧ c.rd (F.srvStatus_fstate d) = 0 ∧
    c.rd (F.srvStatus_req_busy d) = 0 ∧ c.rd (F.srvStatus_req_queued d) = 0 ∧ c.rd (F.btlStatus_state d) = 0 ∧ (c.servoSt d).running = none ∧ (c.servoSt
    d).waiting = none) ∧
  (∀ (d : Nat) (s : State), (∀ l < 4, ∀ f ∈ loopFields d l, s.chip.rd f < 2 ^ f.width) → ∃ c : Chip, exec (.srvCommit d) s = .next { s with chip := c } ∧ (∀
    l < 4, ∀ f ∈ loopFields d l, fldGet (c.servoSt d).bank f = s.chip.rd f) ∧ s.chip.RegsBut c []) ∧
  (∀ (d a : Nat) (s : State), s.chip.engineOut d = true → (s.chip.servoSt d).running = none → ∃ c : Chip, c.rd (F.srvStatus_req_refused d) = 1 ∧ c.servo =
    s.chip.servo ∧ s.chip.RegsBut c [F.srvStatus_req_refused d] ∧ exec (.srvAcquire d a) s = .next { s with chip := c } ∧ exec (.srvSeek d a) s = .next
    { s with chip := c } ∧ exec (.srvLayerJump d a) s = .next { s with chip := c } ∧ exec (.srvPassOffset d a) s = .next { s with chip := c } ∧ exec
    (.srvCalibrateGains d) s = .next { s with chip := c })

/-- The focus states (R244 to R248): settling ends in LOCK and capture follows; a timeout, a loss or a jump that takes too long leads to LOST, with write
inhibit set, tracking and the band timing loop off and the reacquisition counted; a kick ends in coasting, a second of LOCK forgives the reacquisitions,
and a servo loss (R116) stops the drive. -/
def Obligations.FocusStatesAdvance : Prop :=
  (∀ (d : Nat) (s : State), s.chip.rd (F.srvStatus_fstate d) = 2 → 256 ≤ (s.chip.servoSt d).f.settleRun → (s.chip.servoSt d).f.acquiring = true →
    (s.chip.servoSt d).calStep = 0 → (s.chip.servoSt d).f.target < 8 → ∃ c : Chip, exec (.focusSettled d) s = .next (State.allHooks { s with chip := c }) ∧
    c.rd (F.srvStatus_fstate d) = 3 ∧ c.rd (F.srvStatus_layer d) = (s.chip.servoSt d).f.target ∧ c.rd (F.srvStatus_layer_ok d) = 0 ∧ c.rd (F.srvStatus_tstate
    d) = 1 ∧ (c.servoSt d).f.sumRef = (s.chip.servoSt d).f.settleSum / 256 ∧ s.chip.RegsBut c [F.srvStatus_fstate d, F.srvStatus_layer d,
    F.srvStatus_layer_ok d, F.srvStatus_tstate d]) ∧
  (∀ (d : Nat) (s : State), d < 24 → s.chip.rd (F.srvStatus_fstate d) = 2 → 4096 ≤ (s.chip.servoSt d).f.periods → ∃ c : Chip, exec (.focusSettleTimeout d) s
    = .next (State.allHooks { s with chip := c }) ∧ c.rd (F.srvStatus_fstate d) = 8 ∧ c.rd (F.srvStatus_tstate d) = 0 ∧ c.rd (F.srvStatus_wi d) = 1 ∧ c.rd
    (F.btlStatus_state d) = 0 ∧ (c.servoSt d).f.reacq = (s.chip.servoSt d).f.reacq + 1) ∧
  (∀ (d : Nat) (s : State), d < 24 → s.chip.rd (F.srvStatus_fstate d) = 3 → s.chip.rd (F.srvGuard_loss_n d) ≤ (s.chip.servoSt d).f.lossRun → ∃ c : Chip, exec
    (.focusLost d) s = .next (State.allHooks { s with chip := c }) ∧ c.rd (F.srvStatus_fstate d) = 8 ∧ c.rd (F.srvStatus_tstate d) = 0 ∧ c.rd (F.srvStatus_wi
    d) = 1 ∧ c.rd (F.btlStatus_state d) = 0 ∧ (c.servoSt d).f.reacq = (s.chip.servoSt d).f.reacq + 1) ∧
  (∀ (d : Nat) (s : State), d < 24 → s.chip.rd (F.srvStatus_fstate d) = 6 → s.chip.rd (F.srvJump_jump_to d) ≤ (s.chip.servoSt d).f.jumpPeriods → ∃ c : Chip,
    exec (.focusJumpTimeout d) s = .next (State.allHooks { s with chip := c }) ∧ c.rd (F.srvStatus_fstate d) = 8 ∧ c.rd (F.srvStatus_tstate d) = 0 ∧ c.rd
    (F.srvStatus_wi d) = 1 ∧ c.rd (F.btlStatus_state d) = 0 ∧ (c.servoSt d).f.reacq = (s.chip.servoSt d).f.reacq + 1) ∧
  (∀ (d : Nat) (s : State), s.chip.rd (F.srvStatus_fstate d) = 5 → s.chip.rd (F.srvJump_kick_len d) ≤ (s.chip.servoSt d).f.periods → ∃ c : Chip, exec
    (.focusKickEnd d) s = .next { s with chip := c } ∧ c.rd (F.srvStatus_fstate d) = 6 ∧ (c.servoSt d).f.periods = 0 ∧ s.chip.RegsBut c [F.srvStatus_fstate
    d]) ∧
  (∀ (d : Nat) (s : State), s.chip.rd (F.srvStatus_fstate d) = 3 → periodsPerSecond ≤ (s.chip.servoSt d).f.periods → ∃ c : Chip, exec (.focusReacqReset d) s
    = .next { s with chip := c } ∧ (c.servoSt d).f.reacq = 0 ∧ s.chip.RegsBut c []) ∧
  (∀ (d : Nat) (s : State), d < 24 → s.chip.rd (F.hlinkCtrl_srv_miss_max d) < (s.chip.linkSt d).lostRun → (s.chip.servoSt d).stopped = false → ∃ c : Chip,
    exec (.servoLoss d) s = .next (State.allHooks { s with chip := c }) ∧ (c.servoSt d).stopped = true) ∧
  (∀ (d : Nat) (s : State), (s.chip.linkSt d).lostRun ≤ s.chip.rd (F.hlinkCtrl_srv_miss_max d) → exec (.servoLoss d) s = .next s.allHooks) ∧
  (∀ (d : Nat) (r : RunSt) (s : State), 2 ≤ (s.chip.linkSt d).lostRun → (s.chip.burnSt d).run = some r → ∃ c : Chip, exec (.subframeLossBurnStop d) s = .next
    (State.allHooks { s with chip := c }) ∧ c = s.chip.burnInterrupt d 4)

/-- The tracking states and the calibrations (R245 to R257): settled tracking follows, off track goes back to capture, timeouts end the request, a
settled
pass offset ends its request, the offsets are set, the sine's end opens capture, a gain round is kept or repeated; write inhibit is set, a trace
freezes and
is armed again. -/
def Obligations.TrackingAndCalibrationAdvance : Prop :=
  (∀ (d : Nat) (s : State), s.chip.rd (F.srvStatus_tstate d) = 2 → 256 ≤ (s.chip.servoSt d).t.settleRun → (s.chip.servoSt d).running = none → s.chip.rd
    (F.spinStatus_lock d) = 0 → s.chip.inhibits d = false → ∃ c : Chip, exec (.trackSettled d) s = .next (State.allHooks { s with chip := c }) ∧ c.rd
    (F.srvStatus_tstate d) = 3 ∧ c.rd (F.srvStatus_wi d) = 0 ∧ s.chip.RegsBut c [F.srvStatus_tstate d, F.srvStatus_wi d]) ∧
  (∀ (d : Nat) (s : State), s.chip.rd (F.srvStatus_tstate d) = 3 ∨ s.chip.rd (F.srvStatus_tstate d) = 2 → 4 ≤ (s.chip.servoSt d).t.offRun → ∃ c : Chip, exec
    (.offTrack d) s = .next (State.allHooks { s with chip := c }) ∧ c.rd (F.srvStatus_tstate d) = 1) ∧
  (∀ (d : Nat) (s : State), d < 24 → s.chip.rd (F.srvStatus_tstate d) = 1 → (s.chip.servoSt d).waiting = none → ∃ c : Chip, exec (.captureTimeout d) s =
    .next (State.allHooks { s with chip := c }) ∧ c.rd (F.srvStatus_tstate d) = 0 ∧ (c.servoSt d).running = none ∧ c.rd (F.srvStatus_req_busy d) = 0 ∧ c.rd
    (F.evCnt_count (16 * d + 10)) = min (s.chip.rd (F.evCnt_count (16 * d + 10)) + 1) (2 ^ 32 - 1) ∧ s.chip.RegsBut c [F.srvStatus_tstate d,
    F.srvStatus_req_busy d, F.srvStatus_req_queued d]) ∧
  (∀ (d : Nat) (s : State), d < 24 → s.chip.rd (F.srvStatus_tstate d) = 4 → (s.chip.servoSt d).waiting = none → ∃ c : Chip, exec (.fineSeekTimeout d) s =
    .next (State.allHooks { s with chip := c }) ∧ c.rd (F.srvStatus_tstate d) = 1 ∧ (c.servoSt d).running = none ∧ (c.servoSt d).t.seeking = false ∧
    s.chip.RegsBut c [F.srvStatus_tstate d, F.srvStatus_req_busy d, F.srvStatus_req_queued d]) ∧
  (∀ (d : Nat) (k : Int) (s : State), (s.chip.servoSt d).running = some (.passOffset k) → s.chip.passSettled d = true → (s.chip.servoSt d).waiting = none → ∃
    c : Chip, exec (.passOffsetSettled d) s = .next { s with chip := c } ∧ (c.servoSt d).running = none ∧ c.rd (F.srvStatus_req_busy d) = 0 ∧ s.chip.RegsBut
    c [F.srvStatus_req_busy d, F.srvStatus_req_queued d]) ∧
  (∀ (d : Nat) (s : State), (s.chip.servoSt d).offDone = false → 4096 ≤ (s.chip.servoSt d).offN → (s.chip.servoSt d).running = none → (∀ i < 8,
    (s.chip.burnSt d).strategy.getD i 0 = s.chip.strategyWord (portRegion d) i + 1) → (∀ i < 5, (s.chip.servoSt d).offSum.getD i 0 = 0) → ∃ c : Chip, exec
    (.offsetCalibrationDone d) s = .next { s with chip := c } ∧ (c.servoSt d).offDone = true ∧ c.rd (F.srvQoff_q_off d) = 0 ∧ c.rd (F.srvQoff_tilt_off d) = 0
    ∧ s.chip.RegsBut c [F.srvQoff_q_off d, F.srvQoff_tilt_off d]) ∧
  (∀ (d : Nat) (s : State), (s.chip.servoSt d).calStep = 2 → s.chip.rd (F.srvStatus_fstate d) = 3 → s.chip.rd (F.srvStatus_tstate d) = 0 → sinePeriods ≤
    (s.chip.servoSt d).calN → 4 ≤ (s.chip.servoSt d).ppCross → ∃ c : Chip, exec (.trackSineCalDone d) s = .next { s with chip := c } ∧ c.rd
    (F.srvStatus_tstate d) = 1 ∧ (c.servoSt d).calBad.testBit 0 = false ∧ c.rd (F.srvSense_pp_amp d) = (roundDiv ((s.chip.servoSt d).ppMax - (s.chip.servoSt
    d).ppMin) 1024).toNat % 2 ^ (F.srvSense_pp_amp d).width ∧ s.chip.RegsBut c [F.srvStatus_tstate d, F.srvSense_pp_amp d, F.srvSense_pp_off d]) ∧
  (∀ (d a2 b2 g first : Nat) (s : State), (s.chip.servoSt d).calStep = 3 → s.chip.calPeriods d ≤ (s.chip.servoSt d).calN → (s.chip.servoSt d).calN ≠ 0 → a2 =
    ((s.chip.servoSt d).calSum.getD 0 0).natAbs ^ 2 + ((s.chip.servoSt d).calSum.getD 1 0).natAbs ^ 2 → b2 = ((s.chip.servoSt d).calSum.getD 2 0).natAbs ^ 2
    + ((s.chip.servoSt d).calSum.getD 3 0).natAbs ^ 2 → a2 ≠ 0 → withinHalfDb a2 b2 = true → g = (signed 32 (s.chip.activeGain d 0)).natAbs → first = (signed
    32 (s.chip.servoSt d).calFirst).natAbs → first ≤ 4 * g → g ≤ 4 * first → ∃ c : Chip, exec (.gainCalRound d) s = .next (State.allHooks
    { s with chip := c }) ∧ (c.servoSt d).calStep = 4 ∧ (c.servoSt d).calRound = 0 ∧ (c.servoSt d).calFirst = s.chip.activeGain d 1 ∧ (c.servoSt
    d).calBad.testBit 1 = false ∧ s.chip.RegsBut c []) ∧
  (∀ (d : Nat) (s : State), s.chip.inhibits d = true → (s.chip.burnSt d).run = none → (s.chip.burnSt d).cal = none → (s.chip.burnSt d).close = none → ∃ c :
    Chip, exec (.writeInhibit d) s = .next { s with chip := c } ∧ c.rd (F.srvStatus_wi d) = 1 ∧ s.chip.RegsBut c [F.srvStatus_wi d]) ∧
  (∀ (d : Nat) (s : State), ∃ c : Chip, exec (.traceFreeze d) s = .next { s with chip := c } ∧ c.rd (F.traceCtrl_frozen d) = 1 ∧ (s.chip.rd
    (F.traceCtrl_frozen d) = 0 → tabGet c.traceAt d = s.chip.now) ∧ s.chip.RegsBut c [F.traceCtrl_frozen d]) ∧
  (∀ (d : Nat) (s : State), ∃ c : Chip, exec (.traceRearm d) s = .next { s with chip := c } ∧ c.rd (F.traceCtrl_frozen d) = 0 ∧ s.chip.RegsBut c
    [F.traceCtrl_frozen d])

/-- The band timing loop (R136, R137, R220): an update takes the samples of the superframe; in HOLD it coasts at its rate; an acquisition that fails
is
counted and begun again, the third in a row ends the loop with its event; a HOLD too long interrupts a burn; in another state these change nothing. -/
def Obligations.BandTimingLoopMoves : Prop :=
  (∀ (d : Nat) (s : State), s.chip.rd (F.btlStatus_state d) ≠ 0 → ∃ c : Chip, exec (.btlUpdate d) s = .next { s with chip := c } ∧ (c.btlSt d).wobbles = [] ∧
    s.chip.RegsBut c [F.btlStatus_state d, F.btlRate_rate d, F.btlStatus_band d, F.btlStatus_zone d]) ∧
  (∀ (d : Nat) (s : State), s.chip.rd (F.btlStatus_state d) = 4 → (s.chip.btlSt d).wobbles = [] → (s.chip.btlSt d).defect = true → (s.chip.btlSt d).at_ =
    none → ∃ c : Chip, exec (.btlUpdate d) s = .next { s with chip := c } ∧ (c.btlSt d).rate = (s.chip.btlSt d).rate ∧ (c.btlSt d).theta = (s.chip.btlSt
    d).theta + (s.chip.btlSt d).rate ∧ c.rd (F.btlStatus_state d) = 4 ∧ s.chip.RegsBut c [F.btlStatus_state d, F.btlRate_rate d]) ∧
  (∀ (d : Nat) (s : State), s.chip.rd (F.btlStatus_state d) = 3 → (s.chip.btlSt d).wobbles = [] → (s.chip.btlSt d).at_ = none → ∃ c : Chip, exec (.btlUpdate
    d) s = .next { s with chip := c } ∧ c.rd (F.btlStatus_state d) = 3 ∧ (c.btlSt d).rate = (s.chip.btlSt d).rate ∧ (c.btlSt d).theta = (s.chip.btlSt
    d).theta + (s.chip.btlSt d).rate ∧ s.chip.RegsBut c [F.btlStatus_state d, F.btlRate_rate d]) ∧
  (∀ (d : Nat) (s : State), s.chip.rd (F.btlStatus_state d) = 0 → exec (.btlUpdate d) s = .next s) ∧
  (∀ (d : Nat) (s : State), s.chip.rd (F.btlStatus_state d) = 1 → (s.chip.btlSt d).acqFails < 2 → ∃ c : Chip, exec (.btlAcqTimeout d) s = .next
    { s with chip := c } ∧ c.rd (F.btlStatus_state d) = 1 ∧ (c.btlSt d).acqFails = (s.chip.btlSt d).acqFails + 1 ∧ (c.btlSt d).rate = nominalRate (sectorsOf
    (s.chip.btlSt d).target) (s.chip.fHat d) ∧ s.chip.RegsBut c [F.btlStatus_state d, F.btlStatus_zone d, F.btlRate_rate d]) ∧
  (∀ (d : Nat) (s : State), d < 24 → s.chip.rd (F.btlStatus_state d) = 1 → 2 ≤ (s.chip.btlSt d).acqFails → ∃ c : Chip, exec (.btlAcqTimeout d) s = .next
    { s with chip := c } ∧ c.rd (F.btlStatus_state d) = 0 ∧ (c.btlSt d).acqFails = 0 ∧ c.rd (F.evCnt_count (16 * d + 4)) = min (s.chip.rd (F.evCnt_count (16
    * d + 4)) + 1) (2 ^ 32 - 1) ∧ s.chip.RegsBut c [F.btlStatus_state d]) ∧
  (∀ (d : Nat) (s : State), s.chip.rd (F.btlStatus_state d) = 2 → (s.chip.btlSt d).acqFails < 2 → ∃ c : Chip, exec (.btlSearchTimeout d) s = .next
    { s with chip := c } ∧ c.rd (F.btlStatus_state d) = 1 ∧ (c.btlSt d).acqFails = (s.chip.btlSt d).acqFails + 1 ∧ (c.btlSt d).errs = [] ∧ s.chip.RegsBut c
    [F.btlStatus_state d, F.btlStatus_zone d, F.btlRate_rate d]) ∧
  (∀ (d : Nat) (s : State), s.chip.rd (F.btlStatus_state d) ≠ 2 → exec (.btlSearchTimeout d) s = .next s) ∧
  (∀ (d : Nat) (r : RunSt) (s : State), s.chip.rd (F.btlStatus_state d) = 4 → (s.chip.burnSt d).run = some r → ∃ c : Chip, exec (.btlHoldTimeout d) s = .next
    (State.allHooks { s with chip := c }) ∧ c = s.chip.stopBurn d 7) ∧
  (∀ (d : Nat) (s : State), s.chip.rd (F.btlStatus_state d) ≠ 4 → exec (.btlHoldTimeout d) s = .next s.allHooks)

/-- Address marks (R61, R63, R137 to R139): in SEARCH the first mark found among the wobble decisions gives LOCK with its position where it is the neighbour,
one AMU on, of the mark before it, and is noted otherwise; in LOCK the AMU at its predicted place confirms, an invalid one counts, another one counts a
disagreement, and two that agree re-seat; forty invalid ones in a row lose the position. -/
def Obligations.AddressMarksPlaceTheLoop : Prop :=
  (∀ (d : Nat) (a : Int) (m p : Mark) (s : State), s.chip.rd (F.btlStatus_state d) = 2 → (s.chip.btlSt d).findMark = some (a, m) → (s.chip.btlSt d).last =
    some p → markNext p = m → (s.chip.btlSt d).lastAt + 63 = a → (s.chip.servoSt d).t.seeking = false → s.chip.rd (F.srvStatus_fstate d) ≠ 3 → (s.chip.readSt
    d).cur = none → (s.chip.readSt d).queue = [] → s.chip.rd (F.discStatus_state d) ≠ 3 → m.band < 2 ^ 17 → ∃ c : Chip, exec (.addressMark d) s = .next
    (State.allHooks { s with chip := c }) ∧ c.rd (F.btlStatus_state d) = 3 ∧ c.rd (F.btlStatus_band d) = m.band ∧ (c.btlSt d).pred = some (markNext m) ∧
    (c.btlSt d).turn = 64 * a - 4032 * (m.mark : Int) ∧ (c.btlSt d).theta = (s.chip.btlSt d).theta ∧ (c.btlSt d).rate = (s.chip.btlSt d).rate ∧ (c.btlSt
    d).acqFails = 0 ∧ s.chip.RegsBut c [F.btlStatus_state d, F.btlStatus_band d, F.btlStatus_zone d]) ∧
  (∀ (d : Nat) (a : Int) (m : Mark) (s : State), s.chip.rd (F.btlStatus_state d) = 2 → (s.chip.btlSt d).findMark = some (a, m) → ¬((s.chip.btlSt d).last.map
    markNext = some m ∧ (s.chip.btlSt d).lastAt + 63 = a) → ∃ c : Chip, exec (.addressMark d) s = .next (State.allHooks { s with chip := c }) ∧ (c.btlSt
    d).last = some m ∧ (c.btlSt d).lastAt = a ∧ (c.btlSt d).seen = a ∧ c.rd (F.btlStatus_state d) = 2 ∧ s.chip.RegsBut c []) ∧
  (∀ (d : Nat) (s : State), s.chip.rd (F.btlStatus_state d) = 2 → (s.chip.btlSt d).findMark = none → ∃ c : Chip, exec (.addressMark d) s = .next
    (State.allHooks { s with chip := c }) ∧ (c.btlSt d).last = (s.chip.btlSt d).last ∧ (c.btlSt d).seen = max (s.chip.btlSt d).seen ((s.chip.btlSt d).wob -
    59) ∧ s.chip.RegsBut c []) ∧
  (∀ (d : Nat) (p : Mark) (s : State), s.chip.rd (F.btlStatus_state d) = 3 → (s.chip.btlSt d).pred = some p → (s.chip.btlSt d).amuRead (s.chip.btlSt d).amu =
    true → decodeMark ((s.chip.btlSt d).markWord (s.chip.btlSt d).amu) = none → p.mark ≠ 0 → ∃ c : Chip, exec (.addressMark d) s = .next (State.allHooks
    { s with chip := c }) ∧ (c.btlSt d).last = none ∧ (c.btlSt d).invalidRun = (s.chip.btlSt d).invalidRun + 1 ∧ (c.btlSt d).pred = some (markNext p) ∧
    (c.btlSt d).amu = (s.chip.btlSt d).amu + 63 ∧ s.chip.RegsBut c []) ∧
  (∀ (d : Nat) (p : Mark) (s : State), s.chip.rd (F.btlStatus_state d) = 3 → (s.chip.btlSt d).pred = some p → (s.chip.btlSt d).amuRead (s.chip.btlSt d).amu =
    true → decodeMark ((s.chip.btlSt d).markWord (s.chip.btlSt d).amu) = some p → p.mark ≠ 0 → s.chip.rd (F.srvStatus_fstate d) ≠ 3 → s.chip.rd
    (F.discStatus_state d) ≠ 3 → ∃ c : Chip, exec (.addressMark d) s = .next (State.allHooks { s with chip := c }) ∧ (c.btlSt d).last = some p ∧ (c.btlSt
    d).invalidRun = 0 ∧ (c.btlSt d).pred = some (markNext p) ∧ (c.btlSt d).amu = (s.chip.btlSt d).amu + 63 ∧ s.chip.RegsBut c []) ∧
  (∀ (d : Nat) (m p : Mark) (s : State), s.chip.rd (F.btlStatus_state d) = 3 → (s.chip.btlSt d).pred = some p → (s.chip.btlSt d).amuRead (s.chip.btlSt d).amu
    = true → decodeMark ((s.chip.btlSt d).markWord (s.chip.btlSt d).amu) = some m → m ≠ p → p.mark ≠ 0 → (s.chip.btlSt d).last.map markNext ≠ some m →
    s.chip.rd (F.srvStatus_fstate d) ≠ 3 → s.chip.rd (F.discStatus_state d) ≠ 3 → ∃ c : Chip, exec (.addressMark d) s = .next (State.allHooks
    { s with chip := c }) ∧ (c.btlSt d).last = some m ∧ (c.btlSt d).pred = some (markNext p) ∧ c.rd (F.btlMarks_disagree d) = min (s.chip.rd
    (F.btlMarks_disagree d) + 1) (2 ^ 16 - 1) ∧ s.chip.RegsBut c [F.btlMarks_disagree d]) ∧
  (∀ (d : Nat) (m p q : Mark) (s : State), d < 24 → s.chip.rd (F.btlStatus_state d) = 3 → (s.chip.btlSt d).pred = some p → (s.chip.btlSt d).amuRead
    (s.chip.btlSt d).amu = true → decodeMark ((s.chip.btlSt d).markWord (s.chip.btlSt d).amu) = some m → m ≠ p → p.mark ≠ 0 → (s.chip.btlSt d).last = some q
    → markNext q = m → s.chip.rd (F.srvStatus_fstate d) ≠ 3 → s.chip.rd (F.discStatus_state d) ≠ 3 → (s.chip.burnSt d).run = none → (s.chip.burnSt d).cal =
    none → (s.chip.burnSt d).close = none → m.band < 2 ^ 17 → ∃ c : Chip, exec (.addressMark d) s = .next (State.allHooks { s with chip := c }) ∧ (c.btlSt
    d).pred = some (markNext m) ∧ (c.btlSt d).turn = 64 * (s.chip.btlSt d).amu - 4032 * (m.mark : Int) ∧ (c.btlSt d).theta = (s.chip.btlSt d).theta ∧ c.rd
    (F.btlStatus_band d) = m.band ∧ c.rd (F.btlStatus_state d) = 3 ∧ c.rd (F.btlMarks_disagree d) = min (s.chip.rd (F.btlMarks_disagree d) + 1) (2 ^ 16 - 1)
    ∧ c.rd (F.btlMarks_reseats d) = min (s.chip.rd (F.btlMarks_reseats d) + 1) (2 ^ 8 - 1) ∧ c.rd (F.evCnt_count (16 * d + 4)) = min (s.chip.rd
    (F.evCnt_count (16 * d + 4)) + 1) (2 ^ 32 - 1) ∧ s.chip.RegsBut c [F.btlStatus_state d, F.btlStatus_band d, F.btlStatus_zone d, F.btlMarks_disagree d,
    F.btlMarks_reseats d]) ∧
  (∀ (d : Nat) (s : State), d < 24 → s.chip.rd (F.btlStatus_state d) = 3 → 40 ≤ (s.chip.btlSt d).invalidRun → (s.chip.burnSt d).run = none → (s.chip.burnSt
    d).cal = none → (s.chip.burnSt d).close = none → ∃ c : Chip, exec (.positionLost d) s = .next (State.allHooks { s with chip := c }) ∧ c.rd
    (F.btlStatus_state d) = 2 ∧ (c.btlSt d).pred = none ∧ (c.btlSt d).last = none ∧ c.rd (F.btlMarks_lost d) = min (s.chip.rd (F.btlMarks_lost d) + 1) (2 ^ 8
    - 1) ∧ c.rd (F.evCnt_count (16 * d + 4)) = min (s.chip.rd (F.evCnt_count (16 * d + 4)) + 1) (2 ^ 32 - 1) ∧ s.chip.RegsBut c [F.btlStatus_state d,
    F.btlMarks_lost d]) ∧
  (∀ (d : Nat) (s : State), (s.chip.btlSt d).invalidRun < 40 → exec (.positionLost d) s = .next s.allHooks)

/-- A unit of the read channel (R20, R121, R141, R152, R166, R169, R178): a unit that is out or contained, whose loop is off, whose place is not published or
whose window of samples has not arrived makes no bits, another makes one more; a defect flag up for hold_len bits makes its loops reacquire and is
counted, once; a sync decision takes the sector under way that has none, opens a slot, without an origin it is a no sync with its verdict, with four
slots taken an overrun. -/
def Obligations.UnitsReadAndFrame : Prop :=
  (∀ (u : Nat) (s : State), (s.chip.unitSt u).out = true ∨ s.chip.contained (u / 4) = true ∨ s.chip.rd (F.btlStatus_state (u / 4)) = 0 ∨ s.chip.samplePos u
    (s.chip.unitSt u).nextIdx = none → exec (.channelBitProcess u) s = .next s) ∧
  (∀ (u : Nat) (x : Int) (s : State), (s.chip.unitSt u).out = false → s.chip.contained (u / 4) = false → s.chip.rd (F.btlStatus_state (u / 4)) ≠ 0 →
    s.chip.samplePos u (s.chip.unitSt u).nextIdx = some x → x / 2 ^ 24 + 5 < (s.chip.unitSt u).sampEnd → s.chip.rd (F.eqc_adapt u) = 0 → ∃ c : Chip, exec
    (.channelBitProcess u) s = .next { s with chip := c } ∧ (c.unitSt u).nextIdx = (s.chip.unitSt u).nextIdx + 1 ∧ s.chip.RegsBut c [F.lvl_o u, F.lvl_g u,
    F.lvl_a u, F.lvl_held u, F.lvl_acquiring u, F.dfdcnt_spans u]) ∧
  (∀ (u : Nat) (x : Int) (s : State), s.chip.samplePos u (s.chip.unitSt u).nextIdx = some x → ((s.chip.unitSt u).sampEnd : Int) ≤ x / 2 ^ 24 + 5 → exec
    (.channelBitProcess u) s = .next s) ∧
  (∀ (u : Nat) (s : State), u < 96 → s.chip.rd (F.agc_hold_len u) ≤ (s.chip.unitSt u).flagRun → (s.chip.unitSt u).expired = false → ∃ c : Chip, exec
    (.holdExpiry u) s = .next { s with chip := c } ∧ (c.unitSt u).acq = s.chip.rd (F.agcx_acq_len u) ∧ c.rd (F.dfdcnt_expiries u) = min (s.chip.rd
    (F.dfdcnt_expiries u) + 1) (2 ^ 16 - 1) ∧ c.rd (F.evCnt_count (16 * (u / 4) + 5)) = min (s.chip.rd (F.evCnt_count (16 * (u / 4) + 5)) + 1) (2 ^ 32 - 1) ∧
    (c.unitSt u).expired = true ∧ s.chip.RegsBut c [F.lvl_o u, F.lvl_g u, F.lvl_a u, F.lvl_held u, F.lvl_acquiring u, F.dfdcnt_expiries u]) ∧
  (∀ (u : Nat) (s : State), (s.chip.unitSt u).flagRun < s.chip.rd (F.agc_hold_len u) ∨ (s.chip.unitSt u).expired = true → exec (.holdExpiry u) s = .next s) ∧
  (∀ (u : Nat) (x : SecSt) (t : SectorRec) (s : State), (s.chip.unitSt u).secs = [x] → x.decided = false → x.predOff = false → s.chip.rd (F.tim_valid u) = 1
    → (s.chip.unitSt u).hist = [] → 0 < s.chip.rd (F.jd_sync_min (u / 4)) → (s.chip.unitSt u).verifying = false → (s.chip.unitSt u).slots = [] →
    s.chip.pendingSector (u / 4) x.psa = some t → (s.chip.readSt (u / 4)).due (u % 4) x.offset t = true → (s.chip.readSt (u / 4)).cur = none → ∃ c : Chip,
    exec (.syncDecision u) s = .next (State.allHooks { s with chip := c }) ∧ c.rd (F.sync_report u) = 10 + 32 * x.flywheel.toNat ∧ (c.unitSt u).slots.map
    (·.psa) = [x.psa] ∧ (c.unitSt u).slots.map (·.origins) = [[0]] ∧ (c.unitSt u).slots.map (·.rung) = [passRung t.waits] ∧ (c.unitSt u).lastDecided = x.psa
    ∧ (c.unitSt u).secs = [{ x with decided := true }] ∧ s.chip.RegsBut c [F.sync_report u, F.sync_score_a u, F.sync_score_b u, F.sync_disp u]) ∧
  (∀ (u : Nat) (x : SecSt) (s : State), (s.chip.unitSt u).secs = [x] → x.decided = false → s.chip.rd (F.tim_valid u) = 0 ∨ x.predOff = true → (s.chip.unitSt
    u).hist = [] → 0 < s.chip.rd (F.jd_sync_min (u / 4)) → (s.chip.unitSt u).verifying = false → (s.chip.readSt (u / 4)).cur = none → (s.chip.readSt (u /
    4)).sectors = [] → (s.chip.readSt (u / 4)).queue = [] → ∃ c : Chip, exec (.syncDecision u) s = .next (State.allHooks { s with chip := c }) ∧ c.rd
    (F.sync_report u) = 13 + 32 * x.flywheel.toNat ∧ (c.unitSt u).lastDecided = x.psa ∧ (c.unitSt u).secs = [{ x with decided := true }] ∧ (c.unitSt u).slots
    = (s.chip.unitSt u).slots ∧ s.chip.RegsBut c [F.sync_report u, F.sync_score_a u, F.sync_score_b u, F.sync_disp u]) ∧
  (∀ (u : Nat) (x : SecSt) (s : State), u < 96 → (s.chip.unitSt u).secs = [x] → x.decided = false → x.predOff = false → s.chip.rd (F.tim_valid u) = 1 →
    (s.chip.unitSt u).hist = [] → 0 < s.chip.rd (F.jd_sync_min (u / 4)) → (s.chip.unitSt u).verifying = false → (s.chip.readSt (u / 4)).cur = none →
    (s.chip.readSt (u / 4)).sectors = [] → (s.chip.readSt (u / 4)).queue = [] → 4 ≤ (s.chip.unitSt u).slots.length → ∃ c : Chip, exec (.syncDecision u) s =
    .next (State.allHooks { s with chip := c }) ∧ c.rd (F.decCnt_overruns u) = min (s.chip.rd (F.decCnt_overruns u) + 1) (2 ^ 8 - 1) ∧ (c.unitSt
    u).lastDecided = x.psa ∧ (c.unitSt u).secs = [{ x with decided := true }] ∧ (c.unitSt u).slots = (s.chip.unitSt u).slots ∧ c.rd (F.evCnt_count (16 * (u /
    4) + 6)) = min (s.chip.rd (F.evCnt_count (16 * (u / 4) + 6)) + 1) (2 ^ 32 - 1) ∧ s.chip.RegsBut c [F.sync_report u, F.sync_score_a u, F.sync_score_b u,
    F.sync_disp u, F.decCnt_overruns u]) ∧
  (∀ (u : Nat) (x : SecSt) (t : SectorRec) (e : Extent) (s : State), (s.chip.unitSt u).secs = [x] → x.decided = false → s.chip.rd (F.tim_valid u) = 0 →
    (s.chip.unitSt u).hist = [] → 0 < s.chip.rd (F.jd_sync_min (u / 4)) → (s.chip.unitSt u).verifying = false → (s.chip.readSt (u / 4)).cur = some e →
    (s.chip.readSt (u / 4)).inBudget = false → 3 ≤ e.ceiling → s.chip.pendingSector (u / 4) x.psa = some t → (s.chip.readSt (u / 4)).due (u % 4) x.offset t =
    true → ∃ c : Chip, exec (.syncDecision u) s = .next (State.allHooks { s with chip := c }) ∧ c.rd (F.sync_report u) = 13 + 32 * x.flywheel.toNat ∧ c.rd
    (F.decLast_verdict u) = verdictWord (13 + 32 * x.flywheel.toNat) 0 0 1 2 false false (s.chip.eqSet u x.base == 1) (x.fbLow != [] || x.fbHigh != []) 0 0 0
    ∧ (c.pendingSector (u / 4) x.psa).map (·.waits) = some 2 ∧ (c.unitSt u).slots = (s.chip.unitSt u).slots ∧ (c.unitSt u).lastDecided = x.psa ∧ (c.unitSt
    u).secs = [{ x with decided := true }]) ∧
  (∀ (u : Nat) (s : State), (∀ x ∈ (s.chip.unitSt u).secs, x.decided = true) → exec (.syncDecision u) s = .next s.allHooks)

/-- The decoder pool (R20, R26, R179, R180, R182, R184): a lone request is granted the first free decoder and its slot is decoded; a segment that ends
unfinished parks its attempt and frees the decoder; a first attempt that converges is counted, its verdict shown and its slot freed; a decoder without a
slot, and a pool that is out or frozen, do nothing. -/
def Obligations.DecodersServeSlots : Prop :=
  (∀ (r u : Nat) (x : DecSlot) (s : State), r < 4 → u / 24 = r → s.chip.poolRuns r = true → (∀ k < 8, tabGet (s.chip.poolSt r).decoders k = none) →
    (s.chip.unitSt u).out = false → (s.chip.unitSt u).slots = [x] → x.fresh = true → x.verify = false → (∀ i < 24, 24 * r + i ≠ u → (s.chip.unitSt (24 * r +
    i)).slots = []) → ∃ c : Chip, exec (.decoderGrant r) s = .next { s with chip := c } ∧ tabGet (c.poolSt r).decoders 0 = some (u, x.psa) ∧ (∀ k < 8, 0 < k
    → tabGet (c.poolSt r).decoders k = none) ∧ (c.unitSt u).slots.map (·.phase) = [1] ∧ (c.unitSt u).slots.map (·.limit) = [s.chip.rd (F.decCtrl_iter_first
    r)] ∧ (c.unitSt u).slots.map (·.iters) = [0] ∧ c.rd (F.decPool_busy r) = 1 ∧ c.rd (F.decPool_parked r) = 0 ∧ s.chip.RegsBut c [F.decPool_busy r,
    F.decPool_parked r]) ∧
  (∀ (r k : Nat) (s : State), s.chip.poolRuns r = false → exec (.decoderGrant r) s = .next s ∧ exec (.decodeSegmentEnd r k) s = .next s.allHooks) ∧
  (∀ (r k : Nat) (s : State), tabGet (s.chip.poolSt r).decoders k = none → exec (.decodeSegmentEnd r k) s = .next s.allHooks) ∧
  (∀ (r k u psa : Nat) (x : DecSlot) (s : State), s.chip.poolRuns r = true → tabGet (s.chip.poolSt r).decoders k = some (u, psa) → (s.chip.unitSt u).slots =
    [x] → x.psa = psa → ∃ c : Chip, exec (.decodeSegmentEnd r k) s = .next (State.allHooks { s with chip := c }) ∧ ((s.chip.segmentOf r x).weight ≠ 0 →
    (s.chip.segmentOf r x).iters < x.limit → tabGet (c.poolSt r).decoders k = none ∧ (c.unitSt u).slots =
    [{ x with phase := 2, post := (s.chip.segmentOf r x).post.toList, msgs := (s.chip.segmentOf r x).msgs.toList, iters := (s.chip.segmentOf r x).iters, synd3 := (s.chip.segmentOf r x).synd3 }]
    ∧ s.chip.RegsBut c [F.decPool_busy r, F.decPool_parked r]) ∧ (r < 4 → u < 96 → x.verify = false → x.rung = 0 → x.cand = 0 → x.twoCand = false →
    (s.chip.segmentOf r x).weight = 0 → (s.chip.judge r { x with iters := (s.chip.segmentOf r x).iters, synd3 := (s.chip.segmentOf r x).synd3 }
    (s.chip.segmentOf r x)).cause = 0 → (s.chip.readSt (u / 4)).cur = none → (s.chip.readSt (u / 4)).sectors = [] → (s.chip.readSt (u / 4)).queue = [] →
    tabGet (c.poolSt r).decoders k = none ∧ (c.unitSt u).slots = [] ∧ c.rd (F.decCnt_first_ok u) = min (s.chip.rd (F.decCnt_first_ok u) + 1) (2 ^ 16 - 1) ∧
    c.rd (F.decLast_verdict u) / 2 ^ 17 % 8 = 0 ∧ s.chip.RegsBut c [F.decPool_busy r, F.decPool_parked r, F.decCnt_first_ok u, F.decLast_verdict u,
    F.tim_offset u, F.tim_valid u]))

/-- The passes of a read extent and the release of subframes (R115, R123, R188, R191): a planned pass that ends is followed by the next, with its tracks told
to
the units; a visit that ends with nothing pending ends the extent and hands its sectors over; before its end the budget does nothing; a subframe that
no lane
delivers is counted lost with its event, a delivered one ends the run of losses. -/
def Obligations.ReadPassesGoOn : Prop :=
  (∀ (d : Nat) (k0 k : Int) (t : List Int) (x : Extent) (s : State), (s.chip.readSt d).cur = some x → (s.chip.readSt d).inBudget = false → (s.chip.readSt
    d).passes = k0 :: k :: t → (s.chip.servoSt d).running = none → s.chip.following d = false → ∃ c : Chip, exec (.readPassEnd d) s = .next (State.allHooks
    { s with chip := c }) ∧ (c.readSt d).passes = k :: t ∧ (∀ b < 4, (c.unitSt (4 * d + b)).offset = k) ∧ s.chip.RegsBut c []) ∧
  (∀ (d : Nat) (s : State), (s.chip.readSt d).cur = none → (s.chip.readSt d).queue = [] → exec (.readPassEnd d) s = .next s.allHooks) ∧
  (∀ (d v : Nat) (x : Extent) (s : State), (s.chip.readSt d).cur = some x → (s.chip.readSt d).visits = [v] → (s.chip.readSt d).passes = [] → (s.chip.readSt
    d).inBudget = true → (∀ e ∈ (s.chip.readSt d).sectors, e.state ≠ .pending) → (s.chip.readSt d).slow = none → (s.chip.readSt d).queue = [] → x.frond = 0 →
    x.rewrites = false → ∃ c : Chip, exec (.rereadVisitEnd d) s = .next (State.allHooks { s with chip := c }) ∧ (c.readSt d).cur = none ∧ (c.readSt d).visits
    = [] ∧ (c.readSt d).done = (s.chip.readSt d).done ++ [(x.owner, (s.chip.readSt d).began.getD 0, (s.chip.readSt d).sectors)] ∧ s.chip.RegsBut c
    [F.btlStatus_state d]) ∧
  (∀ (d : Nat) (s : State), (s.chip.readSt d).visits = [] → exec (.rereadVisitEnd d) s = .next s.allHooks) ∧
  (∀ (d e : Nat) (x : Extent) (s : State), (s.chip.readSt d).cur = some x → (s.chip.readSt d).inBudget = true → (s.chip.readSt d).budgetEnd = some e → e ≤
    s.chip.now → (s.chip.readSt d).passes = [] → (s.chip.readSt d).visits = [] → (∀ e ∈ (s.chip.readSt d).sectors, e.state ≠ .pending) → (s.chip.readSt
    d).slow = none → (s.chip.readSt d).queue = [] → x.rewrites = false → ∃ c : Chip, exec (.retryBudgetExpiry d) s = .next (State.allHooks
    { s with chip := c }) ∧ (c.readSt d).cur = none ∧ s.chip.RegsBut c [F.btlStatus_state d]) ∧
  (∀ (d : Nat) (s : State), s.chip.budgetOver d = false → exec (.retryBudgetExpiry d) s = .next s.allHooks) ∧
  (∀ (r d e : Nat) (s : State), r < 4 → d / 6 = r → s.chip.portUp d = true → s.chip.engineOut d = false → (∀ i < 6, 6 * r + i ≠ d → s.chip.portUp (6 * r + i)
    = false) → (s.chip.servoSt d).stopped = true → s.chip.rd (F.traceCtrl_en d) = 0 → s.chip.releasedCopy d = none → (s.chip.linkSt d).expSeq = some e → ∃ c
    : Chip, exec (.subframeRelease r) s = .next (State.allHooks { s with chip := c }) ∧ (c.linkSt d).expSeq = some ((e + 1) % 65536) ∧ (c.linkSt d).lostRun =
    (s.chip.linkSt d).lostRun + 1 ∧ c.rd (F.hlinkSrv_lost_total d) = min (s.chip.rd (F.hlinkSrv_lost_total d) + 1) (2 ^ 16 - 1) ∧ c.rd (F.evCnt_count (16 * d
    + 2)) = min (s.chip.rd (F.evCnt_count (16 * d + 2)) + 1) (2 ^ 32 - 1) ∧ s.chip.RegsBut c [F.hlinkSrv_lost_total d, F.hlinkSrv_lost_run d]) ∧
  (∀ (r d n : Nat) (f : Subframe) (s : State), r < 4 → d / 6 = r → s.chip.portUp d = true → s.chip.engineOut d = false → (∀ i < 6, 6 * r + i ≠ d →
    s.chip.portUp (6 * r + i) = false) → (s.chip.servoSt d).stopped = true → s.chip.rd (F.traceCtrl_en d) = 0 → s.chip.releasedCopy d = some (n, f) → ∃ c :
    Chip, exec (.subframeRelease r) s = .next (State.allHooks { s with chip := c }) ∧ (c.linkSt d).expSeq = some ((f.seq + 1) % 65536) ∧ (c.linkSt d).lostRun
    = 0 ∧ c.rd (F.hlinkSrv_lost_run d) = 0 ∧ c.rd (F.hlinkStatus_srv_lane d) = n ∧ s.chip.RegsBut c [F.hlinkSrv_lost_run d, F.hlinkStatus_srv_lane d]) ∧
  (∀ (r : Nat) (s : State), (∀ i < 6, s.chip.portUp (6 * r + i) = false) → exec (.subframeRelease r) s = .next s.allHooks)

/-- Superframes of the head link (R86, R88 to R96, R101 to R105, R118): from LOCK on four lanes send one each, scrambled, and the number advances; before,
none is sent; what a lane receives is descrambled; a superframe that fails its check is discarded whole and counted; an accepted one gives its number and
its wobble samples; a lane that is down gives nothing. -/
def Obligations.HeadLinkCarriesSuperframes : Prop :=
  (∀ (d : Nat) (s : State), s.chip.rd (F.hlinkStatus_state d) < 3 → exec (.transmitSuperframe d) s = .next s) ∧
  (∀ (d : Nat) (s : State), 3 ≤ s.chip.rd (F.hlinkStatus_state d) → (s.chip.linkSt d).mode ≠ 2 → (s.chip.linkSt d).cmds.length ≤ 3 → ∃ c : Chip, exec
    (.transmitSuperframe d) s = .next { s with chip := c } ∧ c.sent = s.chip.sent ++ (List.range 4).map (fun n => Out.superframe d n (scrambleBlocks
    (s.chip.laneScr (laneNo d n)).tx (s.chip.transmitBlocks d n)).1) ∧ (c.linkSt d).txSf = ((s.chip.linkSt d).txSf + 1) % 61440 ∧ (∀ h ∈ (c.linkSt d).cmds,
    h.due = false) ∧ s.chip.RegsBut c [F.hlinkTelem_age d 0, F.hlinkTelem_age d 1, F.hlinkTelem_age d 2, F.hlinkTelem_age d 3]) ∧
  (∀ (d n : Nat) (line : List (Nat × Nat)) (faults : Nat) (s : State), (s.chip.rd (F.hlinkStatus_lane_up d)).testBit n = false → (s.chip.servoSt d).running =
    none → ∃ c : Chip, exec (.receiveSuperframe d n line faults) s = .next { s with chip := c } ∧ (c.laneScr (laneNo d n)).rx = (descrambleBlocks
    (s.chip.laneScr (laneNo d n)).rx line).2 ∧ c.lane = s.chip.lane ∧ c.unit = s.chip.unit ∧ s.chip.RegsBut c []) ∧
  (∀ (d n : Nat) (line : List (Nat × Nat)) (faults : Nat) (s : State), (s.chip.rd (F.hlinkStatus_lane_up d)).testBit n = true → (s.chip.servoSt d).running =
    none → faults ≠ 0 ∨ superframeOk (descrambleBlocks (s.chip.laneScr (laneNo d n)).rx line).1 = false → ∃ c : Chip, exec (.receiveSuperframe d n line
    faults) s = .next { s with chip := c } ∧ (c.laneScr (laneNo d n)).rx = (descrambleBlocks (s.chip.laneScr (laneNo d n)).rx line).2 ∧ c.rd
    (F.hlinkLane_discards d n) = min (s.chip.rd (F.hlinkLane_discards d n) + 1) (2 ^ 16 - 1) ∧ (c.laneSt (laneNo d n)).discRun = (s.chip.laneSt (laneNo d
    n)).discRun + 1 ∧ (c.laneSt (laneNo d n)).okRun = 0 ∧ (c.laneSt (laneNo d n)).queueFaults = faults ∧ c.unit = s.chip.unit ∧ s.chip.RegsBut c
    [F.hlinkLane_discards d n]) ∧
  (∀ (d n : Nat) (line : List (Nat × Nat)) (s : State), n < 4 → (s.chip.rd (F.hlinkStatus_lane_up d)).testBit n = true → (s.chip.servoSt d).running = none →
    superframeOk (descrambleBlocks (s.chip.laneScr (laneNo d n)).rx line).1 = true → isControl ((descrambleBlocks (s.chip.laneScr (laneNo d n)).rx
    line).1.getD 62 (0, 0)) 0x38 = false → ∃ c : Chip, exec (.receiveSuperframe d n line 0) s = .next { s with chip := c } ∧ (c.laneScr (laneNo d n)).rx =
    (descrambleBlocks (s.chip.laneScr (laneNo d n)).rx line).2 ∧ (c.laneSt (laneNo d n)).discRun = 0 ∧ (c.laneSt (laneNo d n)).okRun = (s.chip.laneSt (laneNo
    d n)).okRun + 1 ∧ (c.laneSt (laneNo d n)).lastSf = some (((descrambleBlocks (s.chip.laneScr (laneNo d n)).rx line).1.getD 0 (0, 0)).2 / 2 ^ 8 % 2 ^ 16) ∧
    (c.btlSt d).wobbles = (blocksBytes (((descrambleBlocks (s.chip.laneScr (laneNo d n)).rx line).1.drop 53).take 3)).map (signed 8) ∧ s.chip.RegsBut c
    ([F.rsGaps_gaps (laneNo d n), F.rsGaps_lost (laneNo d n), F.rsRatio_r_hat (laneNo d n)] ++ (List.range 4).map (F.hlinkTelem_value d) ++ (List.range
    4).map (F.hlinkTelem_age d)))

/-- Command blocks of the head link (R107 to R110): with fewer than four outstanding a command is numbered and due on the lowest lane that is up, with four
it
waits; a response ends its command, one to no outstanding number is discarded; a command without an answer is sent again, after 16 sends it fails. -/
def Obligations.HeadCommandsEndOnce : Prop :=
  (∀ (d op addr data n : Nat) (s : State), (s.chip.linkSt d).cmds.length < 4 → (s.chip.linkSt d).waiting = [] → s.chip.lowestLane d = some n → ∃ c : Chip,
    exec (.headCommandSend d op addr data) s = .next { s with chip := c } ∧ (c.linkSt d).waiting = [] ∧ (c.linkSt d).cmds = (s.chip.linkSt d).cmds ++
    [⟨(s.chip.linkSt d).nextSeq % 64, op % 4, addr % 65536, data % 2 ^ 32, n, 1, true⟩] ∧ (c.linkSt d).nextSeq = ((s.chip.linkSt d).nextSeq + 1) % 64 ∧
    s.chip.RegsBut c []) ∧
  (∀ (d op addr data : Nat) (s : State), (s.chip.linkSt d).cmds.length = 4 → ∃ c : Chip, exec (.headCommandSend d op addr data) s = .next
    { s with chip := c } ∧ (c.linkSt d).cmds = (s.chip.linkSt d).cmds ∧ (c.linkSt d).waiting = (s.chip.linkSt d).waiting ++ [⟨0, op % 4, addr % 65536, data %
    2 ^ 32, 0, 0, false⟩] ∧ s.chip.RegsBut c []) ∧
  (∀ (d status addr data : Nat) (h : HeadCmd) (s : State), (s.chip.linkSt d).cmds = [h] → (s.chip.linkSt d).waiting = [] → status < 2 → (s.chip.servoSt
    d).running = none → ∃ c : Chip, exec (.headResponse d h.seq status addr data) s = .next { s with chip := c } ∧ (c.linkSt d).cmds = [] ∧ (c.linkSt
    d).ended.getLast? = some (h.seq, if status = 0 then HeadEnd.done else HeadEnd.unknownAddress, addr, data) ∧ s.chip.RegsBut c []) ∧
  (∀ (d i addr data : Nat) (h : HeadCmd) (s : State), (s.chip.linkSt d).cmds = [h] → (s.chip.linkSt d).waiting = [] → (s.chip.servoSt d).running = none →
    h.op = 0 → i < 8 → h.addr = 0x200 + i → ∃ c : Chip, exec (.headResponse d h.seq 0 addr data) s = .next { s with chip := c } ∧ (c.burnSt d).strategy.getD
    i 0 = h.data + 1 ∧ s.chip.RegsBut c []) ∧
  (∀ (d seq status addr data : Nat) (s : State), (∀ h ∈ (s.chip.linkSt d).cmds, h.seq ≠ seq) ∨ 2 ≤ status → (s.chip.servoSt d).running = none → exec
    (.headResponse d seq status addr data) s = .next s) ∧
  (∀ (d : Nat) (h : HeadCmd) (s : State), (s.chip.linkSt d).cmds = [h] → h.sends < 16 → (s.chip.rd (F.hlinkStatus_lane_up d)).testBit h.lane = true → ∃ c :
    Chip, exec (.headCommandRetry d h.seq) s = .next { s with chip := c } ∧ (c.linkSt d).cmds = [{ h with sends := h.sends + 1, due := true }] ∧ c.rd
    (F.hlinkLane_cmd_resends d h.lane) = min (s.chip.rd (F.hlinkLane_cmd_resends d h.lane) + 1) (2 ^ 8 - 1) ∧ s.chip.RegsBut c [F.hlinkLane_cmd_resends d
    h.lane]) ∧
  (∀ (d : Nat) (h : HeadCmd) (s : State), (s.chip.linkSt d).cmds = [h] → (s.chip.linkSt d).waiting = [] → 16 ≤ h.sends → ∃ c : Chip, exec (.headCommandRetry
    d h.seq) s = .next { s with chip := c } ∧ (c.linkSt d).cmds = [] ∧ (c.linkSt d).ended.getLast? = some (h.seq, HeadEnd.linkError, h.addr, 0) ∧
    s.chip.RegsBut c [])

/-- Bring-up of a port (R118, R530, R531): enabled after step 7 it seeks, with signal it trains, with ready lanes it locks, with aligned lanes it aligns,
with a
supported identity it is UP; each limit that passes is a counted training failure and a return to SEEK; a retrain leaves the state; disabled it is
OFF. -/
def Obligations.PortsTrainAndComeUp : Prop :=
  (∀ (d : Nat) (s : State), s.chip.rd (F.hlinkStatus_state d) = 0 → 7 ≤ s.chip.rd F.bootProgress_step → ∃ c : Chip, exec (.portEnable d true) s = .next
    (State.allHooks { s with chip := c }) ∧ c.rd (F.hlinkStatus_state d) = 1 ∧ c.rd (F.hlinkCtrl_enable d) = 1 ∧ s.chip.RegsBut c [F.hlinkStatus_state d,
    F.hlinkCtrl_enable d]) ∧
  (∀ (d : Nat) (s : State), d < 24 → s.chip.rd (F.hlinkStatus_state d) ≠ 5 → ∃ c : Chip, exec (.portEnable d false) s = .next (State.allHooks
    { s with chip := c }) ∧ c.rd (F.hlinkStatus_state d) = 0 ∧ c.rd (F.hlinkCtrl_enable d) = 0 ∧ c.rd (F.hlinkStatus_lane_up d) = 0 ∧ s.chip.RegsBut c
    [F.hlinkStatus_state d, F.hlinkCtrl_enable d, F.hlinkStatus_lane_up d, F.hlinkStatus_beam_missing d, F.hlinkStatus_burn_ok d, F.hlinkStatus_rt d,
    F.hlinkStatus_passes d]) ∧
  (∀ (d : Nat) (s : State), s.chip.rd (F.hlinkStatus_state d) = 0 → exec (.portRetrain d) s = .next s.allHooks) ∧
  (∀ (d : Nat) (s : State), d < 24 → s.chip.rd (F.hlinkStatus_state d) ≠ 0 → s.chip.rd (F.hlinkStatus_state d) ≠ 5 → ∃ c : Chip, exec (.portRetrain d) s =
    .next (State.allHooks { s with chip := c }) ∧ c.rd (F.hlinkStatus_state d) = 1 ∧ c.rd (F.hlinkStatus_lane_up d) = 0 ∧ s.chip.RegsBut c
    [F.hlinkStatus_state d, F.hlinkStatus_lane_up d, F.hlinkStatus_beam_missing d, F.hlinkStatus_burn_ok d, F.hlinkStatus_rt d, F.hlinkStatus_passes d]) ∧
  (∀ (d lanes : Nat) (s : State), s.chip.rd (F.hlinkStatus_state d) = 1 → lanes % 16 ≠ 0 → ∃ c : Chip, exec (.portSignalDetect d lanes) s = .next
    { s with chip := c } ∧ c.rd (F.hlinkStatus_state d) = 2 ∧ (c.linkSt d).detect = lanes % 16 ∧ s.chip.RegsBut c [F.hlinkStatus_state d]) ∧
  (∀ (d lanes : Nat) (s : State), s.chip.rd (F.hlinkStatus_state d) = 2 → (s.chip.linkSt d).detect &&& lanes ≠ 0 → ∃ c : Chip, exec (.trainReady d lanes) s =
    .next { s with chip := c } ∧ c.rd (F.hlinkStatus_state d) = 3 ∧ (c.linkSt d).detect = (s.chip.linkSt d).detect &&& lanes ∧ s.chip.RegsBut c
    [F.hlinkStatus_state d]) ∧
  (∀ (d : Nat) (s : State), d < 24 → s.chip.rd (F.hlinkStatus_state d) = 2 → ∃ c : Chip, exec (.trainTimeout d) s = .next { s with chip := c } ∧ exec
    (.trainReady d 0) s = .next { s with chip := c } ∧ c.rd (F.hlinkStatus_state d) = 1 ∧ c.rd (F.hlinkSrv_train_fail d) = min (s.chip.rd
    (F.hlinkSrv_train_fail d) + 1) (2 ^ 12 - 1) ∧ c.rd (F.evCnt_count (16 * d)) = min (s.chip.rd (F.evCnt_count (16 * d)) + 1) (2 ^ 32 - 1) ∧ s.chip.RegsBut
    c [F.hlinkStatus_state d, F.hlinkSrv_train_fail d]) ∧
  (∀ (d : Nat) (s : State), d < 24 → s.chip.rd (F.hlinkStatus_state d) = 3 → ∃ c : Chip, exec (.lockTimeout d) s = .next { s with chip := c } ∧ c.rd
    (F.hlinkStatus_state d) = 1 ∧ c.rd (F.hlinkSrv_train_fail d) = min (s.chip.rd (F.hlinkSrv_train_fail d) + 1) (2 ^ 12 - 1) ∧ s.chip.RegsBut c
    [F.hlinkStatus_state d, F.hlinkSrv_train_fail d]) ∧
  (∀ (d n rt : Nat) (s : State), n < 4 → s.chip.rd (F.hlinkStatus_state d) = 3 → (s.chip.linkSt d).detect.testBit n = true → rt ≤ s.chip.rd
    (F.hlinkCtrl_rt_max d) → (s.chip.rd (F.hlinkCtrl_lane_disable d)).testBit n = false → ∃ c : Chip, exec (.blockLock d [(n, n, 7, rt)]) s = .next
    { s with chip := c } ∧ c.rd (F.hlinkStatus_state d) = 4 ∧ c.rd (F.hlinkStatus_lane_up d) = 2 ^ n ∧ (c.laneSt (laneNo d n)).rt = rt ∧ (c.laneSt (laneNo d
    n)).servoUse = true ∧ s.chip.RegsBut c [F.hlinkStatus_state d, F.hlinkStatus_lane_up d]) ∧
  (∀ (d identity : Nat) (s : State), d < 24 → s.chip.rd (F.hlinkStatus_state d) = 4 → s.chip.host.sess = [] → ∃ c : Chip, exec (.portIdentityCheck d identity
    true) s = .next (State.allHooks { s with chip := c }) ∧ c.rd (F.hlinkStatus_state d) = 5 ∧ (c.linkSt d).identity = identity ∧ (c.linkSt d).expSeq = none
    ∧ (c.servoSt d).offDone = false ∧ (c.servoSt d).trimDone = false ∧ (c.burnSt d).strategy = [] ∧ c.rd (F.evCnt_count (16 * d)) = min (s.chip.rd
    (F.evCnt_count (16 * d)) + 1) (2 ^ 32 - 1) ∧ s.chip.RegsBut c ([F.hlinkStatus_state d, F.hlinkSrv_lost_run d, F.hlinkStatus_beam_missing d,
    F.hlinkStatus_burn_ok d, F.hlinkStatus_rt d, F.hlinkStatus_passes d] ++ (portUnits d).flatMap fun u => [F.tim_offset u, F.tim_valid u, F.tim_k_off u,
    F.tim_coarse_n u, F.vtim_offset u, F.vtim_valid u, F.vtim_k_off u, F.vtim_coarse_n u])) ∧
  (∀ (d identity : Nat) (s : State), d < 24 → s.chip.rd (F.hlinkStatus_state d) = 4 → ∃ c : Chip, exec (.portIdentityCheck d identity false) s = .next
    (State.allHooks { s with chip := c }) ∧ c.rd (F.hlinkStatus_state d) = 0 ∧ c.rd (F.hlinkCtrl_enable d) = 0 ∧ c.rd (F.hlinkStatus_lane_up d) = 0 ∧
    s.chip.RegsBut c [F.hlinkStatus_state d, F.hlinkCtrl_enable d, F.hlinkStatus_lane_up d, F.hlinkStatus_beam_missing d, F.hlinkStatus_burn_ok d,
    F.hlinkStatus_rt d, F.hlinkStatus_passes d])

/-- Lanes of a port that is UP (R119 to R121): a down lane that trains and aligns is up again, its copies in use only after sixteen superframes in a row; a
lane
lost is counted and reported, and its commands move to the lowest lane up; a lane that is down is not lost again. -/
def Obligations.LanesComeAndGo : Prop :=
  (∀ (d n rt : Nat) (s : State), n < 4 → s.chip.portUp d = true → (s.chip.rd (F.hlinkStatus_lane_up d)).testBit n = false → rt ≤ s.chip.rd
    (F.hlinkCtrl_rt_max d) → (s.chip.rd (F.hlinkCtrl_lane_disable d)).testBit n = false → ∃ c : Chip, exec (.laneRetrain d n true n n rt) s = .next
    { s with chip := c } ∧ (c.rd (F.hlinkStatus_lane_up d)).testBit n = true ∧ (c.laneSt (laneNo d n)).servoUse = false ∧ (c.laneSt (laneNo d n)).rt = rt ∧
    s.chip.RegsBut c [F.hlinkStatus_lane_up d, F.hlinkStatus_beam_missing d, F.hlinkStatus_burn_ok d, F.hlinkStatus_rt d, F.hlinkStatus_passes d]) ∧
  (∀ (d n lane beam rt : Nat) (s : State), exec (.laneRetrain d n false lane beam rt) s = .next s) ∧
  (∀ (d n : Nat) (s : State), 16 ≤ (s.chip.laneSt (laneNo d n)).okRun → ∃ c : Chip, exec (.laneRejoin d n) s = .next { s with chip := c } ∧ (c.laneSt (laneNo
    d n)).servoUse = true ∧ s.chip.RegsBut c []) ∧
  (∀ (d n : Nat) (s : State), (s.chip.laneSt (laneNo d n)).okRun < 16 → exec (.laneRejoin d n) s = .next s) ∧
  (∀ (d n k condition : Nat) (s : State), d < 24 → n < 4 → s.chip.rd (F.hlinkStatus_lane_up d) = 2 ^ n + 2 ^ k → k < n → (s.chip.burnSt d).run = none →
    (s.chip.burnSt d).cal = none → (s.chip.burnSt d).close = none → ∃ c : Chip, exec (.laneLost d n condition) s = .next (State.allHooks
    { s with chip := c }) ∧ c.rd (F.hlinkStatus_lane_up d) = 2 ^ k ∧ c.rd (F.hlinkLane_losses d n) = min (s.chip.rd (F.hlinkLane_losses d n) + 1) (2 ^ 8 - 1)
    ∧ c.rd (F.evCnt_count (16 * d + 1)) = min (s.chip.rd (F.evCnt_count (16 * d + 1)) + 1) (2 ^ 32 - 1) ∧ (∀ h ∈ (c.linkSt d).cmds, h.lane ≠ n) ∧ (c.unitSt
    (laneNo d n)).samples = [] ∧ s.chip.RegsBut c [F.hlinkLane_losses d n, F.hlinkStatus_lane_up d, F.hlinkStatus_beam_missing d, F.hlinkStatus_burn_ok d,
    F.hlinkStatus_rt d, F.hlinkStatus_passes d, F.decLast_verdict (laneNo d n)]) ∧
  (∀ (d n condition : Nat) (s : State), (s.chip.rd (F.hlinkStatus_lane_up d)).testBit n = false → exec (.laneLost d n condition) s = .next s.allHooks)

/-- Run queue and power calibration (R199 to R212): a descriptor is read from DRAM and queued, with sixteen queued it is ignored; a calibration takes the
next test block for the head of the queue; a beam whose measured bits cross its target plausibly takes the power; a calibration that fails on its last
block is counted, reported, and its pinna's descriptors leave the queue. -/
def Obligations.RunsAreQueuedAndCalibrated : Prop :=
  (∀ (d addr : Nat) (s : State), (s.chip.burnSt d).queue.length < 16 → ∃ c : Chip, exec (.burnQueueWrite d addr) s = .next { s with chip := c } ∧ (c.burnSt
    d).queue = (s.chip.burnSt d).queue ++ [parseDesc (memReads s.dram addr 32)] ∧ c.rd (F.burnStatus_queued d) = (s.chip.burnSt d).queue.length + 1 ∧
    s.chip.RegsBut c [F.burnStatus_queued d]) ∧
  (∀ (d addr : Nat) (s : State), 16 ≤ (s.chip.burnSt d).queue.length → exec (.burnQueueWrite d addr) s = .next s) ∧
  (∀ (d : Nat) (s : State), (s.chip.burnSt d).queue = [] → exec (.runCalibrationStart d) s = .next s.allHooks) ∧
  (∀ (d disc side p : Nat) (q : RunDesc) (t : Nat × Bool) (s : State), (s.chip.burnSt d).queue.head? = some q → q.overburn = false → s.chip.burnReady d =
    true → s.chip.rd (F.discStatus_side d) = q.side → s.chip.loadedDisc d = some (disc, side) → s.chip.headPlace d q = some p → s.chip.strategyDone d = true
    → (s.chip.layerSide disc (8 * q.side + q.layer)).unknownTest = none → chooseTest (s.chip.layerSide disc (8 * q.side + q.layer)) p = some t → ∃ c : Chip,
    exec (.runCalibrationStart d) s = .next (State.allHooks { s with chip := c }) ∧ c.rd (F.burnStatus_state d) = 1 ∧ (c.burnSt d).cal.map (·.blocks) = some
    1 ∧ (c.burnSt d).cal.map (·.slot) = some 0 ∧ (c.burnSt d).cal.map (·.need) = some [0, 1, 2, 3] ∧ (c.burnSt d).cal.map (·.psa) = some (positionPsa q.side
    q.layer t.1 0) ∧ (c.burnSt d).queue = (s.chip.burnSt d).queue) ∧
  (∀ (d : Nat) (s : State), (s.chip.burnSt d).cal = none → exec (.opcMeasureComplete d) s = .next s.allHooks) ∧
  (∀ (d b p : Nat) (k : CalSt) (q : RunDesc) (s : State), d < 24 → b < 4 → (s.chip.burnSt d).cal = some k → k.need = [b] → k.slot = 4 → k.forClose = false →
    (s.chip.burnSt d).queue.head? = some q → p < 2 ^ 16 → q.layer < 8 → q.side < 2 → k.psa < 2 ^ 31 → crossing ((s.chip.rdi (F.opcCtrl_beta_target
    (portRegion d)) : Rat) / 1000) (s.chip.rdi (F.opcCtrl_margin (portRegion d))) ((List.range 8).map fun j => stepPower (k.centre.getD b 0) (s.chip.rd
    (F.opcCtrl_step (portRegion d))) j) ((List.range 8).map fun j => stepBeta (s.chip.stepBits d b k j)) = some p → plausible (s.chip.rd (F.opcLayer_p_min
    (portRegion d) q.layer)) (s.chip.rd (F.opcLayer_p_max (portRegion d) q.layer)) ((List.range 8).map fun j => stepBeta (s.chip.stepBits d b k j)) p = true
    → ∃ c : Chip, exec (.opcMeasureComplete d) s = .next (State.allHooks { s with chip := c }) ∧ (c.burnSt d).cal.map (·.need) = some [] ∧ c.rd
    (F.opcLast_p_opt d b) = p ∧ c.rd (F.opcLast_layer d b) = q.layer ∧ c.rd (F.opcLast_side d b) = q.side ∧ c.rd (F.opcLast_valid d b) = 1 ∧ c.rd
    (F.opcLast_test_psa d b) = k.psa ∧ (c.linkSt d).mode ≠ 2 ∧ s.chip.RegsBut c [F.opcLast_p_opt d b, F.opcLast_layer d b, F.opcLast_side d b,
    F.opcLast_valid d b, F.opcLast_test_psa d b]) ∧
  (∀ (d b : Nat) (k : CalSt) (q : RunDesc) (s : State), d < 24 → (s.chip.burnSt d).cal = some k → k.need = [b] → k.slot = 4 → k.forClose = false →
    (s.chip.burnSt d).close = none → (s.chip.burnSt d).queue = [q] → crossing ((s.chip.rdi (F.opcCtrl_beta_target (portRegion d)) : Rat) / 1000) (s.chip.rdi
    (F.opcCtrl_margin (portRegion d))) ((List.range 8).map fun j => stepPower (k.centre.getD b 0) (s.chip.rd (F.opcCtrl_step (portRegion d))) j) ((List.range
    8).map fun j => stepBeta (s.chip.stepBits d b k j)) = none → s.chip.rd (F.opcCtrl_tries (portRegion d)) ≤ k.blocks → ∃ c : Chip, exec
    (.opcMeasureComplete d) s = .next (State.allHooks { s with chip := c }) ∧ c.rd (F.burnStatus_state d) = 0 ∧ (c.burnSt d).cal = none ∧ (c.burnSt d).queue
    = [] ∧ c.rd (F.burnStatus_queued d) = 0 ∧ c.rd (F.burnCnt_opc_fail d) = min (s.chip.rd (F.burnCnt_opc_fail d) + 1) (2 ^ 8 - 1) ∧ s.chip.RegsBut c
    [F.burnStatus_state d, F.burnStatus_queued d, F.burnCnt_opc_fail d, F.btlStatus_state d, F.frondStatus_open, F.frondStatus_waiting,
    F.frondStatus_burning, F.frondStatus_returned])

/-- A run being burned (R26, R198 to R202, R213 to R220): slot 0 of a calibrated run begins it; a filler slot is committed and kept, so is a payload slot
whose tile is there and good, and the tile is given up; without its tile the burn stops once the symbols committed are sent; at the boundary of a
position after an interruption, with nothing left to send, it stops: the run is spoiled, counted, reported, its record left open; a frozen cluster and
one that burns nothing commit nothing. -/
def Obligations.RunsBeginAndCommitSlots : Prop :=
  (∀ (d disc side p : Nat) (q : RunDesc) (s : State), (s.chip.burnSt d).queue.head? = some q → q.overburn = false → q.launch = 0 → s.chip.loadedDisc d = some
    (disc, side) → (s.chip.burnSt d).calibrated false = true → (s.chip.burnSt d).run = none → (s.chip.readSt d).cur = none → s.chip.mayBurn d = true →
    s.chip.headPlace d q = some p → ∃ c : Chip, exec (.runSlot0Start d) s = .next (State.allHooks { s with chip := c }) ∧ (c.burnSt d).run.map (·.desc) =
    some q ∧ (c.burnSt d).run.map (·.firstPos) = some p ∧ (c.burnSt d).run.map (·.slot) = some 0 ∧ (c.burnSt d).cal = none ∧ c.rd (F.burnStatus_state d) = 2
    ∧ c.rd (F.burnStatus_rewrites d) = 0) ∧
  (∀ (d : Nat) (s : State), (s.chip.burnSt d).queue = [] → exec (.runSlot0Start d) s = .next s.allHooks) ∧
  (∀ (d arrived : Nat) (s : State), (s.chip.cluSt d).frozen = true ∨ ((s.chip.burnSt d).run = none ∧ (s.chip.burnSt d).close = none ∧ (s.chip.burnSt d).cal =
    none ∧ (s.chip.burnSt d).stop = none) → exec (.slotCommit d arrived) s = .next s.allHooks) ∧
  (∀ (d : Nat) (r : RunSt) (s : State), (s.chip.cluSt d).frozen = false → (s.chip.burnSt d).run = some r → (s.chip.linkSt d).mode = 2 → r.desc.overburn =
    false → 16616 ≤ r.slot → r.slot < 16624 → (s.chip.burnSt d).stop = none → ∃ c : Chip, exec (.slotCommit d 0) s = .next (State.allHooks
    { s with chip := c }) ∧ (c.burnSt d).run.map (·.slot) = some (r.slot + 1) ∧ (c.burnSt d).run.map (·.kept.map (·.slot)) = some (r.kept.map (·.slot) ++
    [r.slot]) ∧ c.rd (F.burnStatus_position d) = r.slot / 4 ∧ s.chip.RegsBut c [F.burnStatus_position d]) ∧
  (∀ (d t : Nat) (r : RunSt) (s : State), s.tileGood t = true → (s.chip.cluSt d).frozen = false → (s.chip.burnSt d).run = some r → (s.chip.linkSt d).mode = 2
    → r.desc.overburn = false → 0 < r.slot → r.slot < 16384 → (s.chip.burnSt d).stop = none → (s.chip.burnSt d).tiles.find? (fun e => e.1 == r.slot) = some
    (r.slot, t) → ∃ c : Chip, exec (.slotCommit d 0) s = .next (State.allHooks { s with chip := c }) ∧ (c.burnSt d).run.map (·.slot) = some (r.slot + 1) ∧
    (c.burnSt d).run.map (·.kept.map (·.index)) = some (r.kept.map (·.index) ++ [some r.slot]) ∧ (c.burnSt d).tiles = (s.chip.burnSt d).tiles.filter (· !=
    (r.slot, t)) ∧ c.rd (F.burnStatus_position d) = r.slot / 4 ∧ s.chip.RegsBut c [F.burnStatus_position d]) ∧
  (∀ (d : Nat) (r : RunSt) (s : State), (s.chip.cluSt d).frozen = false → (s.chip.burnSt d).run = some r → (s.chip.linkSt d).mode = 2 → r.desc.overburn =
    false → 0 < r.slot → r.slot < 16384 → (s.chip.burnSt d).stop = none → (s.chip.burnSt d).tiles.find? (fun e => e.1 == r.slot) = none → (s.chip.burnSt
    d).lines.all (· == []) = false → ∃ c : Chip, exec (.slotCommit d 0) s = .next (State.allHooks { s with chip := c }) ∧ (c.burnSt d).stop = some 9 ∧
    (c.burnSt d).ending = true ∧ (c.burnSt d).run = some r ∧ s.chip.RegsBut c []) ∧
  (∀ (d cause : Nat) (r : RunSt) (s : State), d < 24 → (s.chip.burnSt d).run = some r → (s.chip.burnSt d).stop = some cause → (s.chip.burnSt d).atBoundary =
    true → (s.chip.burnSt d).lines.all (· == []) = true → r.desc.overburn = false → r.complete = false → ∃ c : Chip, exec (.burnStop d) s = .next
    (State.allHooks { s with chip := c }) ∧ (c.burnSt d).run = none ∧ (c.burnSt d).stop = none ∧ c.rd (F.burnStatus_state d) = 0 ∧ c.rd (F.burnStatus_open d)
    = 1 ∧ c.rd (F.burnCnt_spoiled d) = min (s.chip.rd (F.burnCnt_spoiled d) + 1) (2 ^ 16 - 1) ∧ (c.linkSt d).mode ≠ 2 ∧ c.rd (F.evCnt_count (16 * d + 7)) =
    min (s.chip.rd (F.evCnt_count (16 * d + 7)) + 1) (2 ^ 32 - 1) ∧ s.chip.RegsBut c [F.burnStatus_state d, F.burnStatus_open d, F.burnCnt_spoiled d,
    F.burnStatus_queued d, F.btlStatus_state d, F.frondStatus_open, F.frondStatus_waiting, F.frondStatus_burning, F.frondStatus_returned]) ∧
  (∀ (d : Nat) (s : State), (s.chip.burnSt d).stop = none ∨ (s.chip.burnSt d).atBoundary = false → exec (.burnStop d) s = .next s.allHooks)

/-- The closing of a spoiled run (R84, R222 to R226): a drive that may burn and is idle begins the search on its open layer-side; a reading of the position
in the middle halves the search, upward past a recorded position and downward otherwise, for a test zone without an entry in the catalogue too; the
position found is calibrated for; without an open run or a search nothing happens. -/
def Obligations.SpoiledRunsAreSearchedAndClosed : Prop :=
  (∀ (d disc side ls fr pi run psa : Nat) (s : State), s.chip.loadedDisc d = some (disc, side) → (s.chip.openSides disc).find? (fun l => l / 8 == side) =
    some ls → s.chip.mayBurn d = true → (s.chip.burnSt d).idle = true → (s.chip.burnSt d).noClose = false → (s.chip.layerSide disc ls).openRun = some (fr,
    pi, run, psa) → ∃ c : Chip, exec (.spoiledRunClose d) s = .next { s with chip := c } ∧ c.rd (F.burnStatus_state d) = 3 ∧ (c.burnSt d).close.map
    (·.firstPos) = some (psaPosition psa) ∧ (c.burnSt d).close.map (·.lo) = some 0 ∧ (c.burnSt d).close.map (·.hi) = some 4161 ∧ s.chip.RegsBut c
    [F.burnStatus_state d]) ∧
  (∀ (d : Nat) (s : State), s.chip.loadedDisc d = none → exec (.spoiledRunClose d) s = .next s) ∧
  (∀ (d : Nat) (x : CloseSt) (s : State), (s.chip.burnSt d).cal = none → (s.chip.burnSt d).close = some x → x.found = none → s.chip.recordedAt d (positionPsa
    x.desc.side x.desc.layer (x.firstPos + (x.lo + x.hi) / 2) 0) = some true → (x.lo + x.hi) / 2 + 1 < x.hi → ∃ c : Chip, exec (.closeSearchReading d) s =
    .next (State.allHooks { s with chip := c }) ∧ (c.burnSt d).close = some { x with lo := (x.lo + x.hi) / 2 + 1 } ∧ s.chip.RegsBut c []) ∧
  (∀ (d : Nat) (x : CloseSt) (s : State), (s.chip.burnSt d).cal = none → (s.chip.burnSt d).close = some x → x.found = none → s.chip.recordedAt d (positionPsa
    x.desc.side x.desc.layer (x.firstPos + (x.lo + x.hi) / 2) 0) = some false → x.lo < (x.lo + x.hi) / 2 → ∃ c : Chip, exec (.closeSearchReading d) s = .next
    (State.allHooks { s with chip := c }) ∧ (c.burnSt d).close = some { x with hi := (x.lo + x.hi) / 2 } ∧ s.chip.RegsBut c []) ∧
  (∀ (d disc side : Nat) (x : CloseSt) (t : Nat × Bool) (s : State), (s.chip.burnSt d).cal = none → (s.chip.burnSt d).close = some x → x.found = none →
    s.chip.recordedAt d (positionPsa x.desc.side x.desc.layer (x.firstPos + (x.lo + x.hi) / 2) 0) = some true → x.lo ≤ x.hi → x.hi ≤ (x.lo + x.hi) / 2 + 1 →
    x.slot = 0 → s.chip.strategyDone d = true → s.chip.loadedDisc d = some (disc, side) → (s.chip.layerSide disc (8 * x.desc.side +
    x.desc.layer)).unknownTest = none → chooseTest (s.chip.layerSide disc (8 * x.desc.side + x.desc.layer)) x.firstPos = some t → ∃ c : Chip, exec
    (.closeSearchReading d) s = .next (State.allHooks { s with chip := c }) ∧ (c.burnSt d).close.map (·.found) = some (some ((x.lo + x.hi) / 2 + 1)) ∧
    (c.burnSt d).cal.map (·.forClose) = some true) ∧
  (∀ (d : Nat) (s : State), s.chip.searchPlace d = none → exec (.closeSearchReading d) s = .next s.allHooks) ∧
  (∀ (d lo hi : Nat) (inner : Bool) (k : CalSt) (q : RunDesc) (s : State), (s.chip.burnSt d).cal = some k → k.search = some (inner, lo, hi) → k.forClose =
    false → (s.chip.burnSt d).queue.head? = some q → s.chip.recordedAt d (positionPsa q.side q.layer (testPosition inner ((lo + hi) / 2)) 0) = some false →
    lo < (lo + hi) / 2 → ∃ c : Chip, exec (.closeSearchReading d) s = .next (State.allHooks { s with chip := c }) ∧ (c.burnSt d).cal = some
    { k with search := some (inner, lo, (lo + hi) / 2) } ∧ s.chip.RegsBut c [])

/-- Buffer memory (R369 to R375): what a master reads and writes. A hole and a die that is out answer so and change nothing; a block read gives its 64 bytes;
a correctable error is counted and fills the bucket, a full bucket raises its event, and where the leak timer ticks in the same cycle the level stays; an
uncorrectable one leaves the block bad and is reported; a full block is written at its address and nowhere else; a narrow write waits in the merge
buffer, or is refused where narrow writes are refused. -/
def Obligations.BufferMemoryReadsAndWrites : Prop :=
  (∀ (m a err : Nat) (s : State), dramMapped a = false → exec (.dramRead m a err) s = .next { s with chip := s.chip.emit (.bus m 2 []) }) ∧
  (∀ (m a err : Nat) (s : State), dramMapped a = true → (s.chip.dieSt (stackOf a)).out = true → exec (.dramRead m a err) s = .next
    { s with chip := s.chip.emit (.bus m 1 []) }) ∧
  (∀ (m a : Nat) (s : State), dramMapped a = true → a % 0x200000000 < 0x140000000 → (s.chip.dieSt (stackOf a)).out = false → (s.chip.bufSt (stackOf a)).merge
    = [] → s.chip.badBlock a = false → exec (.dramRead m a 0) s = .next { s with chip := s.chip.emit (.bus m 0 (memReads s.dram (a / 64 * 64) 64)) }) ∧
  (∀ (m a : Nat) (s : State), dramMapped a = true → (s.chip.dieSt (stackOf a)).out = false → (s.chip.bufSt (stackOf a)).merge = [] → s.chip.badBlock a =
    false → s.chip.leakDue (bucketRegion a) = false → s.chip.rd (F.bucket_level (bucketRegion a)) < s.chip.rd (F.bucket_depth (bucketRegion a)) → ∃ c : Chip,
    exec (.dramRead m a 1) s = .next { s with chip := c } ∧ c.rd (F.dramErr_corrected (stackOf a)) = min (s.chip.rd (F.dramErr_corrected (stackOf a)) + 1) (2
    ^ 32 - 1) ∧ c.rd (F.bucket_level (bucketRegion a)) = s.chip.rd (F.bucket_level (bucketRegion a)) + 1 ∧ s.chip.RegsBut c [F.dramErr_corrected (stackOf a),
    F.bucket_level (bucketRegion a)]) ∧
  (∀ (m a : Nat) (s : State), dramMapped a = true → (s.chip.dieSt (stackOf a)).out = false → (s.chip.bufSt (stackOf a)).merge = [] → s.chip.badBlock a =
    false → s.chip.leakDue (bucketRegion a) = false → s.chip.rd (F.bucket_depth (bucketRegion a)) ≤ s.chip.rd (F.bucket_level (bucketRegion a)) → ∃ c : Chip,
    exec (.dramRead m a 1) s = .next { s with chip := c } ∧ c.rd (F.evCnt_count (384 + 16 * bucketRegion a + 1)) = min (s.chip.rd (F.evCnt_count (384 + 16 *
    bucketRegion a + 1)) + 1) (2 ^ 32 - 1) ∧ s.chip.RegsBut c [F.dramErr_corrected (stackOf a)]) ∧
  (∀ (m a : Nat) (s : State), dramMapped a = true → (s.chip.dieSt (stackOf a)).out = false → (s.chip.bufSt (stackOf a)).merge = [] → s.chip.badBlock a =
    false → s.chip.leakDue (bucketRegion a) = true → 0 < s.chip.rd (F.bucket_level (bucketRegion a)) → s.chip.rd (F.bucket_level (bucketRegion a)) ≤
    s.chip.rd (F.bucket_depth (bucketRegion a)) → ∃ c : Chip, exec (.dramRead m a 1) s = .next { s with chip := c } ∧ c.rd (F.dramErr_corrected (stackOf a))
    = min (s.chip.rd (F.dramErr_corrected (stackOf a)) + 1) (2 ^ 32 - 1) ∧ c.rd (F.bucket_level (bucketRegion a)) = s.chip.rd (F.bucket_level (bucketRegion
    a)) ∧ s.chip.RegsBut c [F.dramErr_corrected (stackOf a), F.bucket_level (bucketRegion a)]) ∧
  (∀ (m a : Nat) (s : State), dramMapped a = true → 2 ^ 32 ≤ a % 0x200000000 → (s.chip.dieSt (stackOf a)).out = false → (s.chip.bufSt (stackOf a)).merge = []
    → ∃ c : Chip, exec (.dramRead m a 2) s = .next { s with chip := c } ∧ c.badBlock a = true ∧ c.rd (F.dramErr_uncorr (stackOf a)) = min (s.chip.rd
    (F.dramErr_uncorr (stackOf a)) + 1) (2 ^ 16 - 1) ∧ c.rd (F.dramUe_addr (stackOf a)) = a / 64 * 64 ∧ c.rd (F.evCnt_count (448 + 32 * stackOf a + 1)) = min
    (s.chip.rd (F.evCnt_count (448 + 32 * stackOf a + 1)) + 1) (2 ^ 32 - 1) ∧ Out.bus m 1 [] ∈ c.sent ∧ s.chip.RegsBut c [F.dramErr_uncorr (stackOf a),
    F.dramUe_addr (stackOf a)]) ∧
  (∀ (m a : Nat) (bs : List Nat) (s : State), bs.length = 64 → a % 64 = 0 → dramMapped a = true → (s.chip.dieSt (stackOf a)).out = false → 2 ^ 32 ≤ a %
    0x200000000 → ∃ t : State, exec (.dramWrite m a bs) s = .next t ∧ s.MemBut t a 64 ∧ (∀ i < 64, (memRead t.dram (a + i)).toNat = bs.getD i 0 % 256) ∧
    t.pending = s.pending ∧ t.chip.sent = s.chip.sent ++ [Out.bus m 6 []] ∧ t.chip.badBlock a = false ∧ s.chip.RegsBut t.chip []) ∧
  (∀ (m a : Nat) (bs : List Nat) (s : State), bs ≠ [] → a % 64 + bs.length ≤ 64 → bs.length ≠ 64 → dramMapped a = true → (s.chip.dieSt (stackOf a)).out =
    false → 2 ^ 32 ≤ a % 0x200000000 → s.chip.rd (F.dramCtrl_narrow (stackOf a)) = 1 → ∃ t : State, exec (.dramWrite m a bs) s = .next t ∧ s.MemBut t 0 0 ∧
    t.chip.rd (F.dramErr_narrow_refused (stackOf a)) = min (s.chip.rd (F.dramErr_narrow_refused (stackOf a)) + 1) (2 ^ 8 - 1) ∧ Out.bus m 3 [] ∈ t.chip.sent
    ∧ s.chip.RegsBut t.chip [F.dramErr_narrow_refused (stackOf a)]) ∧
  (∀ (m a : Nat) (bs : List Nat) (s : State), bs ≠ [] → a % 64 + bs.length ≤ 64 → bs.length ≠ 64 → dramMapped a = true → (s.chip.dieSt (stackOf a)).out =
    false → 2 ^ 32 ≤ a % 0x200000000 → s.chip.rd (F.dramCtrl_narrow (stackOf a)) = 0 → (s.chip.bufSt (stackOf a)).merge = [] → ∃ t : State, exec (.dramWrite
    m a bs) s = .next t ∧ s.MemBut t 0 0 ∧ (t.chip.bufSt (stackOf a)).merge.map (·.block) = [a / 64 * 64] ∧ (t.chip.bufSt (stackOf a)).merge.map (·.since) =
    [s.chip.now] ∧ t.chip.sent = s.chip.sent ++ [Out.bus m 6 []] ∧ s.chip.RegsBut t.chip []) ∧
  (∀ (m a : Nat) (bs : List Nat) (s : State), bs.length = 64 → a % 64 = 0 → dramMapped a = false → ∃ t : State, exec (.dramWrite m a bs) s = .next t ∧
    s.MemBut t 0 0 ∧ t.chip = s.chip.emit (.bus m 2 []))

/-- What the block does to buffer memory by itself (R373, R375, R381, R382): an old entry of the merge buffer is merged into its block and leaves, a young
one stays; the bucket leaks by one when its timer ticks; the scrubber goes on to its next block and counts a pass at the end of the stack. -/
def Obligations.BufferMemoryIsKept : Prop :=
  (∀ (e block : Nat) (k : MergeEntry) (s : State), (s.chip.bufSt e).merge = [k] → k.block = block → k.tile = false → k.mask ≠ 2 ^ 64 - 1 → k.data.length = 64
    → s.chip.badBlock block = false → (∀ i < 64, dramMapped (block + i) = true) → k.since + 10 * s.chip.rd (F.dramCtrl_merge_ns e) ≤ s.chip.now → ∃ t :
    State, exec (.mergeEntryAge e block) s = .next t ∧ s.MemBut t block 64 ∧ (t.chip.bufSt e).merge = [] ∧ (∀ i < 64, (memRead t.dram (block + i)).toNat = if
    k.mask.testBit i then k.data.getD i 0 % 256 else (memRead s.dram (block + i)).toNat) ∧ s.chip.RegsBut t.chip []) ∧
  (∀ (e block : Nat) (s : State), (∀ k ∈ (s.chip.bufSt e).merge, k.block = block → s.chip.now < k.since + 10 * s.chip.rd (F.dramCtrl_merge_ns e)) → exec
    (.mergeEntryAge e block) s = .next s) ∧
  (∀ (r : Nat) (s : State), s.chip.leakDue r = true → ∃ c : Chip, exec (.bucketLeakTick r) s = .next { s with chip := c } ∧ c.rd (F.bucket_level r) =
    s.chip.rd (F.bucket_level r) - 1 ∧ tabGet (c.bufSt (r / 2)).leakAt (r % 2) = tabGet (s.chip.bufSt (r / 2)).leakAt (r % 2) + s.chip.rd (F.bucket_leak_min
    r) * 60 * 10 ^ 9 ∧ s.chip.RegsBut c [F.bucket_level r]) ∧
  (∀ (r : Nat) (s : State), s.chip.leakDue r = false → exec (.bucketLeakTick r) s = .next s) ∧
  (∀ (e : Nat) (s : State), s.chip.rd (F.dramCtrl_scrub_en e) = 1 → (s.chip.dieSt e).out = false → (s.chip.bufSt e).scrubNext + 1 < 7 * 2 ^ 24 →
    s.chip.badBlock (e * 0x200000000 + 64 * (s.chip.bufSt e).scrubNext) = false → ∃ c : Chip, exec (.scrubBlock e 0) s = .next { s with chip := c } ∧
    (c.bufSt e).scrubNext = (s.chip.bufSt e).scrubNext + 1 ∧ c.rd (F.dramScrub_pos e) = ((s.chip.bufSt e).scrubNext + 1) * 1000 / (7 * 2 ^ 24) ∧
    s.chip.RegsBut c [F.dramScrub_pos e]) ∧
  (∀ (e : Nat) (s : State), s.chip.rd (F.dramCtrl_scrub_en e) = 1 → (s.chip.dieSt e).out = false → (s.chip.bufSt e).scrubNext + 1 = 7 * 2 ^ 24 →
    s.chip.badBlock (e * 0x200000000 + 64 * (s.chip.bufSt e).scrubNext) = false → ∃ c : Chip, exec (.scrubBlock e 0) s = .next { s with chip := c } ∧
    (c.bufSt e).scrubNext = 0 ∧ c.rd (F.dramScrub_pos e) = 0 ∧ c.rd (F.dramScrub_passes e) = min (s.chip.rd (F.dramScrub_passes e) + 1) (2 ^ 6 - 1) ∧
    s.chip.RegsBut c [F.dramScrub_pos e, F.dramScrub_passes e]) ∧
  (∀ (e err : Nat) (s : State), s.chip.rd (F.dramCtrl_scrub_en e) = 0 ∨ (s.chip.dieSt e).out = true → exec (.scrubBlock e err) s = .next s)

/-- Tiles and CRC snoop units (R376 to R380, R383 to R386): a beat of a filling tile is written once, anything else is answered as an error; a close zeroes
what is unwritten and fixes a check that
then holds; a use acts on a good tile; on a bad one it poisons the tile, counts and reports it; a used tile is
freed later, a poisoned one is zeroed and free
again, or quarantined. A write to a snoop unit's `run` sets it to its polynomial's width and restarts its
count, or is ignored while the unit runs; a read latches the count. -/
def Obligations.TilesAndSnoopUnitsAct : Prop :=
  (∀ (m k n : Nat) (bs : List Nat) (s : State), k < 2 ^ 21 → n < 64 → bs.length = 64 → (s.chip.tileSt k).state = 1 → (s.chip.tileSt k).beats.testBit n =
    false → ∃ t : State, exec (.tileBeatWrite m k (64 * n) bs) s = .next t ∧ s.MemBut t (tileAddr k + 64 * n) 64 ∧ (∀ i < 64, (memRead t.dram (tileAddr k +
    64 * n + i)).toNat = bs.getD i 0 % 256) ∧ (t.chip.tileSt k).beats.testBit n = true ∧ t.chip.sent = s.chip.sent ++ [Out.bus m 6 []] ∧ s.chip.RegsBut
    t.chip []) ∧
  (∀ (m k off : Nat) (bs : List Nat) (s : State), (s.chip.tileSt k).state ≠ 1 ∨ (s.chip.tileSt k).beats.testBit (off / 64) = true → exec (.tileBeatWrite m k
    off bs) s = .next { s with chip := s.chip.emit (.bus m 4 []) }) ∧
  (∀ (k len : Nat) (s : State), k < 2 ^ 21 → (s.chip.tileSt k).state = 1 → (s.chip.dieSt (stackOf (tileAddr k))).out = false → (s.chip.bufSt (stackOf
    (tileAddr k))).merge = [] → ∃ t : State, exec (.tileClose k len) s = .next t ∧ s.MemBut t (tileAddr k) 4096 ∧ (t.chip.tileSt k).state = 2 ∧
    (t.chip.tileSt k).length = min len 4096 ∧ t.tileGood k = true ∧ (∀ n < 64, ∀ i < 64, memRead t.dram (tileAddr k + 64 * n + i) = if (s.chip.tileSt
    k).beats.testBit n then memRead s.dram (tileAddr k + 64 * n + i) else 0) ∧ s.chip.RegsBut t.chip []) ∧
  (∀ (k len : Nat) (s : State), (s.chip.tileSt k).state ≠ 1 → exec (.tileClose k len) s = .next s) ∧
  (∀ (m k use : Nat) (s : State), s.tileGood k = true → exec (.tileUseCheck m k use) s = .next { s with chip := s.chip.emit (.bus m 0 []) }) ∧
  (∀ (m k use : Nat) (s : State), k < 2 ^ 21 → use < 8 → s.tileGood k = false → (s.chip.tileSt k).state = 2 → s.chip.tileContext k = none → ∃ c : Chip, exec
    (.tileUseCheck m k use) s = .next (State.allHooks { s with chip := c }) ∧ (c.tileSt k).state = 3 ∧ c.rd (F.tilePoison_tile (k / 2 ^ 20)) = k ∧ c.rd
    (F.tilePoison_use (k / 2 ^ 20)) = use ∧ c.rd (F.tilePoison_poisoned (k / 2 ^ 20)) = min (s.chip.rd (F.tilePoison_poisoned (k / 2 ^ 20)) + 1) (2 ^ 16 - 1)
    ∧ c.rd (F.evCnt_count (448 + 32 * (k / 2 ^ 20) + 2)) = min (s.chip.rd (F.evCnt_count (448 + 32 * (k / 2 ^ 20) + 2)) + 1) (2 ^ 32 - 1) ∧ s.chip.RegsBut c
    [F.tilePoison_tile (k / 2 ^ 20), F.tilePoison_use (k / 2 ^ 20), F.tilePoison_poisoned (k / 2 ^ 20)]) ∧
  (∀ (k : Nat) (ok : Bool) (s : State), (s.chip.tileSt k).uses ≠ 0 → ∃ c : Chip, exec (.tileFree k ok) s = .next { s with chip := c } ∧ (c.tileSt k).freeing
    = true ∧ (c.tileSt k).state = (s.chip.tileSt k).state ∧ s.chip.RegsBut c []) ∧
  (∀ (k : Nat) (ok : Bool) (s : State), (s.chip.tileSt k).uses = 0 → (s.chip.tileSt k).state ≤ 2 → ∃ c : Chip, exec (.tileFree k ok) s = .next
    { s with chip := c } ∧ c.tileSt k = default ∧ s.chip.RegsBut c []) ∧
  (∀ (k : Nat) (s : State), k < 2 ^ 21 → (s.chip.tileSt k).uses = 0 → (s.chip.tileSt k).state = 3 → ∃ t : State, exec (.tileFree k true) s = .next t ∧
    s.MemBut t (tileAddr k) 4096 ∧ (∀ i < 4096, memRead t.dram (tileAddr k + i) = 0) ∧ t.chip.tileSt k = default ∧ s.chip.RegsBut t.chip []) ∧
  (∀ (k : Nat) (s : State), k < 2 ^ 21 → (s.chip.tileSt k).uses = 0 → (s.chip.tileSt k).state = 3 → ∃ t : State, exec (.tileFree k false) s = .next t ∧
    s.MemBut t (tileAddr k) 4096 ∧ (t.chip.tileSt k).state = 4 ∧ t.chip.rd (F.tilePoison_quarantined (k / 2 ^ 20)) = min (s.chip.rd (F.tilePoison_quarantined
    (k / 2 ^ 20)) + 1) (2 ^ 16 - 1) ∧ t.chip.rd (F.evCnt_count (448 + 32 * (k / 2 ^ 20) + 3)) = min (s.chip.rd (F.evCnt_count (448 + 32 * (k / 2 ^ 20) + 3))
    + 1) (2 ^ 32 - 1) ∧ s.chip.RegsBut t.chip [F.tilePoison_quarantined (k / 2 ^ 20)]) ∧
  (∀ (e u v : Nat) (s : State), u < 16 → s.chip.rd (F.snoopCfg_en e u) = 0 → ∃ c : Chip, exec (.snoopRunWrite e u v) s = .next { s with chip := c } ∧ c.rd
    (F.snoopRun_run e u) = v % 2 ^ snoopWidth (s.chip.rd (F.snoopCfg_poly e u)) ∧ tabGet (c.bufSt e).snoopCount u = 0 ∧ s.chip.RegsBut c [F.snoopRun_run e
    u]) ∧
  (∀ (e u v : Nat) (s : State), s.chip.rd (F.snoopCfg_en e u) = 1 → exec (.snoopRunWrite e u v) s = .next s) ∧
  (∀ (e u : Nat) (s : State), tabGet (s.chip.bufSt e).snoopCount u < 2 ^ 64 → ∃ c : Chip, exec (.snoopRunRead e u) s = .next { s with chip := c } ∧ c.rd
    (F.snoopCount_count e u) = tabGet (s.chip.bufSt e).snoopCount u ∧ c.sent = s.chip.sent ++ [Out.bus 0 0 (beBytes 8 (s.chip.rd (F.snoopRun_run e u)))] ∧
    s.chip.RegsBut c [F.snoopCount_count e u])

/-- Host ports (R389 to R391): a port of the mode comes up with the FEC both sides want and its stored addresses, goes down, with PTP lost when its master
was the last; each
raises its event once. An up port answers what hardware answers, leaves datagrams and PTP messages to their own commands, and counts
the rest as dropped. -/
def Obligations.HostPortsComeAndGo : Prop :=
  (∀ (p : Nat) (fec : Bool) (s : State), p < 8 → s.chip.rd (F.hostPort_exists p) = 1 → s.chip.rd (F.hostPort_up p) = 0 → (∀ l ∈ portLanes
    s.chip.host.modeNext p, (s.chip.dieSt (l / 4)).out = false) → ∃ c : Chip, exec (.hostLinkUp p fec) s = .next { s with chip := c } ∧ c.rd (F.hostPort_up
    p) = 1 ∧ c.rd (F.hostPort_fec p) = (if fec = true ∧ s.chip.rd F.hostCfg_fec_en = 1 then 1 else 0) ∧ (tabGet c.host.net p).applied = (tabGet
    s.chip.host.net p).data ∧ (tabGet c.host.net p).data = (tabGet s.chip.host.net p).data ∧ c.rd (F.evCnt_count 519) = min (s.chip.rd (F.evCnt_count 519) +
    1) (2 ^ 32 - 1) ∧ s.chip.RegsBut c [F.hostPort_up p, F.hostPort_fec p]) ∧
  (∀ (p : Nat) (fec : Bool) (s : State), s.chip.rd (F.hostPort_exists p) = 0 ∨ s.chip.rd (F.hostPort_up p) = 1 ∨ (portLanes s.chip.host.modeNext p).any (fun
    l => (s.chip.dieSt (l / 4)).out) = true → exec (.hostLinkUp p fec) s = .next s) ∧
  (∀ (p : Nat) (s : State), p < 8 → s.chip.rd (F.hostPort_up p) = 1 → (∀ m ∈ s.chip.sky.masters, m.port ≠ p) → ∃ c : Chip, exec (.hostLinkDown p) s = .next
    { s with chip := c } ∧ c.rd (F.hostPort_up p) = 0 ∧ c.rd (F.hostPort_fec p) = 0 ∧ c.rd (F.hostPort_lpi p) = 0 ∧ c.rd (F.evCnt_count 520) = min (s.chip.rd
    (F.evCnt_count 520) + 1) (2 ^ 32 - 1) ∧ s.chip.RegsBut c [F.hostPort_up p, F.hostPort_fec p, F.hostPort_lpi p]) ∧
  (∀ (p : Nat) (m : Master) (s : State), p < 8 → s.chip.rd (F.hostPort_up p) = 1 → s.chip.sky.masters = [m] → m.port = p → s.chip.rd F.skyStatus_state = 2 →
    s.chip.rd F.skyStatus_source = 1 → s.chip.tickPresent = false → ∃ c : Chip, exec (.hostLinkDown p) s = .next { s with chip := c } ∧ c.rd (F.hostPort_up
    p) = 0 ∧ c.sky.masters = [] ∧ c.sky.selected = none ∧ c.rd F.skyStatus_gm_seen = 0 ∧ c.rd F.skyStatus_state = 3 ∧ c.sky.holdSince = s.chip.now ∧
    s.chip.RegsBut c [F.hostPort_up p, F.hostPort_fec p, F.hostPort_lpi p, F.skyStatus_gm_seen, F.skyStatus_state, F.skyStatus_source]) ∧
  (∀ (p : Nat) (s : State), s.chip.rd (F.hostPort_up p) = 0 → exec (.hostLinkDown p) s = .next s) ∧
  (∀ (p kind : Nat) (data : List Nat) (s : State), s.chip.rd (F.hostPort_up p) = 1 → kind ≤ 2 → exec (.hostFrame p kind data) s = .next
    { s with chip := s.chip.emit (.frame p kind data) }) ∧
  (∀ (p kind : Nat) (data : List Nat) (s : State), s.chip.rd (F.hostPort_up p) = 0 ∨ kind = 3 ∨ kind = 4 → exec (.hostFrame p kind data) s = .next s) ∧
  (∀ (p kind : Nat) (data : List Nat) (s : State), s.chip.rd (F.hostPort_up p) = 1 → 5 ≤ kind → ∃ c : Chip, exec (.hostFrame p kind data) s = .next
    { s with chip := c } ∧ c.rd (F.hostPort_drops p) = min (s.chip.rd (F.hostPort_drops p) + 1) (2 ^ 16 - 1) ∧ s.chip.RegsBut c [F.hostPort_drops p])

/-- Handshakes (R396 to R399, R407, R482): an accepted HELLO leaves a pending handshake under a number of its own, a refused one is counted, reported
and
answered, a repeated one gets its stored reply, one in an activation's pause is held; a FINISH with its tag and signature establishes the session
with the default
quota and queue 0, a bad tag is counted; after 1 s a pending handshake is gone. -/
def Obligations.HandshakesEstablishSessions : Prop :=
  (∀ (port peer hostKey nonce cred n : Nat) (s : State), s.chip.trust.act = none → (∀ h ∈ s.chip.host.shakes, h.hostKey ≠ hostKey ∨ h.nonce ≠ nonce) →
    s.chip.helloAccepted cred = true → s.chip.liveSessions.length < 256 → s.chip.host.shakes.length < 16 → s.chip.freeSession = some n → ∃ c : Chip, exec
    (.hello port peer hostKey nonce cred) s = .next { s with chip := c } ∧ c.host.shakes.dropLast = s.chip.host.shakes ∧ c.host.shakes.getLast?.map (fun h =>
    (h.session, h.hostKey, h.nonce, h.cred, h.since)) = some (n, hostKey, nonce, cred, s.chip.now) ∧ c.sent.getLast? = c.host.shakes.getLast?.map (fun h =>
    Out.qcp 0x02 0 0 0 0 0 0 0 h.reply) ∧ c.host.shakes.getLast?.map (fun h => h.reply.take 4) = some (beBytes 2 0 ++ beBytes 2 n) ∧ s.chip.RegsBut c []) ∧
  (∀ (port peer hostKey nonce cred : Nat) (s : State), s.chip.trust.act = none → (∀ h ∈ s.chip.host.shakes, h.hostKey ≠ hostKey ∨ h.nonce ≠ nonce) →
    s.chip.helloAccepted cred = false → ∃ c : Chip, exec (.hello port peer hostKey nonce cred) s = .next { s with chip := c } ∧ c.host.shakes =
    s.chip.host.shakes ∧ c.rd F.qcpCnt_hello_refused = min (s.chip.rd F.qcpCnt_hello_refused + 1) (2 ^ 16 - 1) ∧ c.rd (F.evCnt_count 521) = min (s.chip.rd
    (F.evCnt_count 521) + 1) (2 ^ 32 - 1) ∧ c.sent.getLast? = some (Out.qcp 0x02 0 0 0 0 0 0 0 (beBytes 2 0x0303 ++ List.replicate 227 0)) ∧ s.chip.RegsBut c
    [F.qcpCnt_hello_refused]) ∧
  (∀ (port peer hostKey nonce cred : Nat) (h : Handshake) (s : State), s.chip.trust.act = none → s.chip.host.shakes.find? (fun h => h.hostKey == hostKey &&
    h.nonce == nonce) = some h → exec (.hello port peer hostKey nonce cred) s = .next { s with chip := s.chip.emit (.qcp 0x02 0 0 0 0 0 0 0 h.reply) }) ∧
  (∀ (port peer hostKey nonce cred : Nat) (a : Activation) (s : State), s.chip.trust.act = some a → ∃ c : Chip, exec (.hello port peer hostKey nonce cred) s
    = .next { s with chip := c } ∧ c.trust.act = some { a with hellos := a.hellos ++ [(port, peer, hostKey, nonce, cred)] } ∧ c.host = s.chip.host ∧ c.sent =
    s.chip.sent ∧ s.chip.RegsBut c []) ∧
  (∀ (n : Nat) (sigOk : Bool) (h : Handshake) (s : State), 1 ≤ n → n ≤ 256 → s.chip.host.shakes.find? (fun h => h.session == n) = some h → sigOk = true ∨
    h.cred = 0 → ∃ c : Chip, exec (.finish n true sigOk) s = .next { s with chip := c } ∧ (c.sess n).live = true ∧ (c.sess n).cred = h.cred ∧ (c.sess
    n).rights = s.chip.credRights h.cred ∧ (c.sess n).key = h.key ∧ (c.sess n).queues = 1 ∧ (c.sess n).high = 1 ∧ (c.sess n).ctx = [] ∧ (∀ k ∈ c.host.shakes,
    k.session ≠ n) ∧ c.rd (F.quota_moss (n - 1)) = s.chip.rd F.qdef_moss % 2 ^ 16 ∧ c.rd (F.quota_ctx_max (n - 1)) = s.chip.rd F.qdef_ctx_max % 2 ^ 12 ∧ c.rd
    (F.quota_share (n - 1)) = s.chip.rd F.qdef_share % 2 ^ 8 ∧ c.rd (F.quota_cap (n - 1)) = s.chip.rd F.qdef_cap % 2 ^ 12 ∧ (h.cred = 0 → c.rd
    F.trust_bootstrap = 1) ∧ n ∈ c.liveSessions ∧ s.chip.RegsBut c ([F.quota_moss (n - 1), F.quota_ctx_max (n - 1), F.quota_share (n - 1), F.quota_cap (n -
    1), F.use_frozen (n - 1), F.trust_bootstrap] ++ c.hostCounts)) ∧
  (∀ (n : Nat) (sigOk tagOk : Bool) (s : State), tagOk = false ∨ s.chip.host.shakes.find? (fun h => h.session == n) = none → ∃ c : Chip, exec (.finish n
    tagOk sigOk) s = .next { s with chip := c } ∧ c.rd F.qcpCnt_bad_tag = min (s.chip.rd F.qcpCnt_bad_tag + 1) (2 ^ 32 - 1) ∧ c.host = s.chip.host ∧
    s.chip.RegsBut c [F.qcpCnt_bad_tag]) ∧
  (∀ (n : Nat) (s : State), ∃ c : Chip, exec (.handshakeTimeout n) s = .next { s with chip := c } ∧ c.host.shakes = s.chip.host.shakes.filter (fun h =>
    h.session != n || decide (s.chip.now < h.since + 10 ^ 9)) ∧ c.host.sess = s.chip.host.sess ∧ s.chip.RegsBut c [])

/-- COMMAND packets (R399 to R403, R406, R415): a bad tag and a replay are counted and go no further; a session that is frozen, a queue that is not open, a
context
that is in use or beyond the session's share is answered by a status; a command without an opcode row or of another length is stored and fails;
any other waits in
its context, last of its session, and a repeat of an ended command gets its status again. -/
def Obligations.CommandsComeAndAreStored : Prop :=
  (∀ (session seq port peer queue ctx tag : Nat) (payload : List Nat) (s : State), ∃ c : Chip, exec (.command session seq false port peer queue ctx tag
    payload) s = .next { s with chip := c } ∧ c.rd F.qcpCnt_bad_tag = min (s.chip.rd F.qcpCnt_bad_tag + 1) (2 ^ 32 - 1) ∧ c.host = s.chip.host ∧ c.sent =
    s.chip.sent ∧ s.chip.RegsBut c [F.qcpCnt_bad_tag]) ∧
  (∀ (session seq port peer queue ctx tag : Nat) (payload : List Nat) (s : State), (s.chip.sess session).live = true → seq + 1024 ≤ (s.chip.sess
    session).high ∨ seq ∈ (s.chip.sess session).seen → s.chip.rd (F.use_frozen (session - 1)) = 1 → ∃ c : Chip, exec (.command session seq true port peer
    queue ctx tag payload) s = .next { s with chip := c } ∧ c.rd F.qcpCnt_replays = min (s.chip.rd F.qcpCnt_replays + 1) (2 ^ 16 - 1) ∧ c.host = s.chip.host
    ∧ c.sent = s.chip.sent ∧ s.chip.RegsBut c [F.qcpCnt_replays]) ∧
  (∀ (session seq port peer queue ctx tag : Nat) (payload : List Nat) (s : State), (s.chip.sess session).live = true → seq + 1024 ≤ (s.chip.sess
    session).high ∨ seq ∈ (s.chip.sess session).seen → s.chip.rd (F.use_frozen (session - 1)) = 0 → (s.chip.sess session).second = s.chip.keeper / 10 ^ 9 →
    (s.chip.sess session).replayBreach < s.chip.rd F.qcpBreach_replay_max → ∃ c : Chip, exec (.command session seq true port peer queue ctx tag payload) s =
    .next { s with chip := c } ∧ c.rd F.qcpCnt_replays = min (s.chip.rd F.qcpCnt_replays + 1) (2 ^ 16 - 1) ∧ c.sent = s.chip.sent ∧ (c.sess
    session).replayBreach = (s.chip.sess session).replayBreach + 1 ∧ s.chip.RegsBut c [F.qcpCnt_replays]) ∧
  (∀ (session seq port peer queue ctx tag : Nat) (payload : List Nat) (s : State), (s.chip.sess session).live = true → (s.chip.sess session).high < seq → seq
    ∉ (s.chip.sess session).seen → s.chip.rd (F.use_frozen (session - 1)) = 1 → ∃ c : Chip, exec (.command session seq true port peer queue ctx tag payload)
    s = .next { s with chip := c } ∧ (c.sess session).high = seq ∧ (c.sess session).ctx = (s.chip.sess session).ctx ∧ c.sent = s.chip.sent ++ [Out.qcp 0x11
    session queue ((s.chip.sess session).txSeq + 1) ctx tag 0 0 (statusPayload 0x0305 0 [])] ∧ s.chip.RegsBut c []) ∧
  (∀ (session seq port peer queue ctx tag : Nat) (payload : List Nat) (s : State), (s.chip.sess session).live = true → (s.chip.sess session).high < seq → seq
    ∉ (s.chip.sess session).seen → s.chip.rd (F.use_frozen (session - 1)) = 0 → (s.chip.sess session).queues.testBit queue = false → ∃ c : Chip, exec
    (.command session seq true port peer queue ctx tag payload) s = .next { s with chip := c } ∧ (c.sess session).ctx = (s.chip.sess session).ctx ∧ c.sent =
    s.chip.sent ++ [Out.qcp 0x11 session queue ((s.chip.sess session).txSeq + 1) ctx tag 0 0 (statusPayload 0x0105 0 [])] ∧ s.chip.RegsBut c []) ∧
  (∀ (session seq port peer queue ctx tag : Nat) (payload : List Nat) (s : State), (s.chip.sess session).live = true → (s.chip.sess session).high < seq → seq
    ∉ (s.chip.sess session).seen → s.chip.rd (F.use_frozen (session - 1)) = 0 → (s.chip.sess session).queues.testBit queue = true → (s.chip.ctxSt session
    ctx).phase = .free → tabGet (s.chip.sess session).lastTag ctx ≠ tag + 1 → s.chip.rd (F.quota_ctx_max (session - 1)) ≤ ctx → ∃ c : Chip, exec (.command
    session seq true port peer queue ctx tag payload) s = .next { s with chip := c } ∧ (c.sess session).ctx = (s.chip.sess session).ctx ∧ c.sent =
    s.chip.sent ++ [Out.qcp 0x11 session queue ((s.chip.sess session).txSeq + 1) ctx tag 0 0 (statusPayload 0x0201 0 [])] ∧ s.chip.RegsBut c []) ∧
  (∀ (session seq port peer queue ctx tag hw : Nat) (payload : List Nat) (s : State), (s.chip.sess session).live = true → session ≤ 256 → (s.chip.sess
    session).high < seq → seq ∉ (s.chip.sess session).seen → s.chip.rd (F.use_frozen (session - 1)) = 0 → (s.chip.sess session).queues.testBit queue = true →
    (s.chip.ctxSt session ctx).phase = .free → tabGet (s.chip.sess session).lastTag ctx ≠ tag + 1 → ctx < s.chip.rd (F.quota_ctx_max (session - 1)) →
    (s.chip.sess session).heldCount < s.chip.rd (F.quota_ctx_max (session - 1)) → s.chip.freeHw = some hw → payload.length = 64 → (opRow (payload.getD 0
    0)).isSome = true → payload.getD 0 0 < 256 → ∃ c : Chip, exec (.command session seq true port peer queue ctx tag payload) s = .next { s with chip := c }
    ∧ (c.ctxSt session ctx).phase = .waiting ∧ (c.ctxSt session ctx).cmd = parseCmd session queue ctx tag payload ∧ (c.ctxSt session ctx).hw = hw ∧ (c.sess
    session).order = (s.chip.sess session).order ++ [ctx] ∧ tabGet (c.sess session).lastTag ctx = tag + 1 ∧ (c.sess session).high = seq ∧ c.sent =
    s.chip.sent ∧ s.chip.RegsBut c c.hostCounts) ∧
  (∀ (session seq port peer queue ctx tag hw : Nat) (payload : List Nat) (s : State), (s.chip.sess session).live = true → session ≤ 256 → (s.chip.sess
    session).high < seq → seq ∉ (s.chip.sess session).seen → s.chip.rd (F.use_frozen (session - 1)) = 0 → (s.chip.sess session).queues.testBit queue = true →
    (s.chip.ctxSt session ctx).phase = .free → tabGet (s.chip.sess session).lastTag ctx ≠ tag + 1 → ctx < s.chip.rd (F.quota_ctx_max (session - 1)) →
    (s.chip.sess session).heldCount < s.chip.rd (F.quota_ctx_max (session - 1)) → s.chip.freeHw = some hw → payload.length = 64 → payload.getD 0 0 = 0x69 → ∃
    c : Chip, exec (.command session seq true port peer queue ctx tag payload) s = .next { s with chip := c } ∧ (c.ctxSt session ctx).phase = .free ∧
    (c.ctxSt session ctx).status = some (statusPayload 0x0101 0 []) ∧ c.sent = s.chip.sent ++ [Out.qcp 0x11 session queue ((s.chip.sess session).txSeq + 1)
    ctx tag 0 0 (statusPayload 0x0101 0 [])] ∧ s.chip.RegsBut c c.hostCounts) ∧
  (∀ (session seq port peer queue ctx tag : Nat) (payload st : List Nat) (s : State), (s.chip.sess session).live = true → (s.chip.sess session).high < seq →
    seq ∉ (s.chip.sess session).seen → s.chip.rd (F.use_frozen (session - 1)) = 0 → (s.chip.sess session).queues.testBit queue = true → (s.chip.ctxSt session
    ctx).phase = .free → tabGet (s.chip.sess session).lastTag ctx = tag + 1 → (s.chip.ctxSt session ctx).status = some st → ∃ c : Chip, exec (.command
    session seq true port peer queue ctx tag payload) s = .next { s with chip := c } ∧ c.sent = s.chip.sent ++ [Out.qcp 0x11 session (s.chip.ctxSt session
    ctx).cmd.queue ((s.chip.sess session).txSeq + 1) ctx (s.chip.ctxSt session ctx).cmd.tag 0 0 st] ∧ s.chip.RegsBut c [])

/-- RESEND, RELEASE, EVENT_ACK, READY and quota writes (R404 to R409, R587): a RESEND of a retained range sends it again, one for a tag that is gone is
answered;
a RELEASE frees the context and its tiles; an acknowledgement moves on, never back; a READY grants a range when its tiles are there; a quota
write takes effect
and says whether the session's use lies above it. -/
def Obligations.PhasePacketsAndQuotas : Prop :=
  (∀ (n seq port peer ctx tag start stop tl : Nat) (s : State), s.tileGood tl = true → (s.chip.sess n).live = true → (s.chip.sess n).high < seq → seq ∉
    (s.chip.sess n).seen → s.chip.rd (F.use_frozen (n - 1)) = 0 → (s.chip.ctxSt n ctx).phase = .retained → (s.chip.ctxSt n ctx).cmd.tag = tag → (s.chip.ctxSt
    n ctx).tiles = [tl] → (s.chip.ctxSt n ctx).wait = .nothing → (s.chip.ctxSt n ctx).got = [] → start < stop → stop ≤ (s.chip.ctxSt n ctx).cmd.dlen → stop ≤
    4096 → ∃ c : Chip, exec (.resend n seq true port peer ctx tag start stop) s = .next { s with chip := c } ∧ c.sent = s.chip.sent ++ [Out.qcp 0x13 n
    (s.chip.ctxSt n ctx).cmd.queue ((s.chip.sess n).txSeq + 1) ctx tag (if stop = (s.chip.ctxSt n ctx).cmd.dlen then 2 else 0) start ((memReads s.dram
    (tileAddr tl + start) (stop - start)))] ∧ s.chip.RegsBut c []) ∧
  (∀ (n seq port peer ctx tag start stop : Nat) (s : State), (s.chip.sess n).live = true → (s.chip.sess n).high < seq → seq ∉ (s.chip.sess n).seen →
    s.chip.rd (F.use_frozen (n - 1)) = 0 → (s.chip.ctxSt n ctx).phase = .free → tabGet (s.chip.sess n).lastTag ctx = tag + 1 → ∃ c : Chip, exec (.resend n
    seq true port peer ctx tag start stop) s = .next { s with chip := c } ∧ c.sent = s.chip.sent ++ [Out.qcp 0x11 n (s.chip.ctxSt n ctx).cmd.queue
    ((s.chip.sess n).txSeq + 1) ctx tag 0 0 (statusPayload 0x0107 0 [])] ∧ s.chip.RegsBut c []) ∧
  (∀ (n seq port peer ctx tag : Nat) (s : State), (s.chip.sess n).live = true → (s.chip.sess n).high < seq → seq ∉ (s.chip.sess n).seen → s.chip.rd
    (F.use_frozen (n - 1)) = 0 → (s.chip.ctxSt n ctx).phase = .retained → (s.chip.ctxSt n ctx).cmd.tag = tag → (∀ t ∈ (s.chip.ctxSt n ctx).tiles, (tabGet
    s.chip.tiles t).state ≠ 3 ∧ (tabGet s.chip.tiles t).uses = 0) → ∃ c : Chip, exec (.release n seq true port peer ctx tag) s = .next { s with chip := c } ∧
    (c.ctxSt n ctx).phase = .free ∧ (c.ctxSt n ctx).tiles = [] ∧ (c.sess n).lastTag = (s.chip.sess n).lastTag ∧ (∀ t ∈ (s.chip.ctxSt n ctx).tiles, tabGet
    c.tiles t = default) ∧ s.chip.RegsBut c c.hostCounts) ∧
  (∀ (n seq port peer ctx tag : Nat) (s : State), (s.chip.sess n).live = true → (s.chip.sess n).high < seq → seq ∉ (s.chip.sess n).seen → s.chip.rd
    (F.use_frozen (n - 1)) = 0 → (s.chip.ctxSt n ctx).phase = .free → (s.chip.sess n).second = s.chip.keeper / 10 ^ 9 → s.chip.rd F.qcpBreach_data_max ≤
    (s.chip.sess n).dataBreach → n ≤ 256 → ∃ c : Chip, exec (.release n seq true port peer ctx tag) s = .next { s with chip := c } ∧ c.rd (F.use_frozen (n -
    1)) = 1 ∧ c.rd (F.evCnt_count 522) = min (s.chip.rd (F.evCnt_count 522) + 1) (2 ^ 32 - 1) ∧ s.chip.RegsBut c [F.use_frozen (n - 1)]) ∧
  (∀ (n seq port peer number : Nat) (sub : SubSt) (s : State), (s.chip.sess n).live = true → (s.chip.sess n).high < seq → seq ∉ (s.chip.sess n).seen →
    s.chip.rd (F.use_frozen (n - 1)) = 0 → tabGet s.chip.ev.subs (n - 1) = some sub → ∃ c : Chip, exec (.eventAck n seq true port peer number) s = .next
    { s with chip := c } ∧ tabGet c.ev.subs (n - 1) = some (if sub.acked < number then { sub with acked := number, since := s.chip.now } else sub) ∧ c.sent =
    s.chip.sent ∧ s.chip.RegsBut c []) ∧
  (∀ (n x start stop tl : Nat) (s : State), (s.chip.ctxSt n x).phase = .active → (s.chip.ctxSt n x).wait = .dataOut → start < stop → stop ≤ (s.chip.ctxSt n
    x).cmd.dlen → stop ≤ 4096 → s.chip.rd (F.use_frozen (n - 1)) = 0 → (s.chip.ctxSt n x).tiles = [] → s.chip.chooseTiles (s.chip.sess n).die 1 = [tl] → ∃ c
    : Chip, exec (.readyGrant n x start stop) s = .next { s with chip := c } ∧ (c.ctxSt n x).granted = (s.chip.ctxSt n x).granted ++ [(start, stop)] ∧
    (c.ctxSt n x).tiles = [tl] ∧ (c.tileSt tl).state = 1 ∧ (c.tileSt tl).owner = ctxOwner n x ∧ c.sent = s.chip.sent ++ [Out.qcp 0x14 n (s.chip.ctxSt n
    x).cmd.queue ((s.chip.sess n).txSeq + 1) x (s.chip.ctxSt n x).cmd.tag 0 0 (beBytes 8 start ++ beBytes 8 stop)] ∧ s.chip.RegsBut c []) ∧
  (∀ (n moss ctxMax share cap : Nat) (s : State), 1 ≤ n → n ≤ 256 → moss < 2 ^ 16 → 1 ≤ ctxMax → ctxMax < 2 ^ 12 → 1 ≤ share → share < 2 ^ 8 → cap < 2 ^ 12 →
    ∃ c : Chip, exec (.quotaWrite n moss ctxMax share cap) s = .next { s with chip := c } ∧ c.rd (F.quota_moss (n - 1)) = moss ∧ c.rd (F.quota_ctx_max (n -
    1)) = ctxMax ∧ c.rd (F.quota_share (n - 1)) = share ∧ c.rd (F.quota_cap (n - 1)) = cap ∧ c.rd (F.use_over (n - 1)) = (if (moss ≠ 0 ∧ moss * 2 ^ 30 <
    s.chip.mossUse n) ∨ ctxMax < (s.chip.sess n).heldCount then 1 else 0) ∧ c.rd (F.evCnt_count 523) = (if (moss ≠ 0 ∧ moss * 2 ^ 30 < s.chip.mossUse n) ∨
    ctxMax < (s.chip.sess n).heldCount then min (s.chip.rd (F.evCnt_count 523) + 1) (2 ^ 32 - 1) else s.chip.rd (F.evCnt_count 523)) ∧ s.chip.RegsBut c
    ([F.quota_moss (n - 1), F.quota_ctx_max (n - 1), F.quota_share (n - 1), F.quota_cap (n - 1), F.use_over (n - 1)] ++ c.hostCounts))

/-- Sky time from PTP (R444, R445, R449, R450, R454 to R456): an Announce of the domain gives a master and moves FREE to ACQUIRE; the first offset sets both
clocks, the sixteenth
good one locks with its event; in HOLDOVER a small offset locks again; a fourth offset beyond bounds makes sky time invalid; a
silent master means HOLDOVER, or FREE
from ACQUIRE; HOLDOVER ends after its seconds. -/
def Obligations.PtpAcquiresAndHoldsSkyTime : Prop :=
  (∀ (port clockId dataset : Nat) (syncLog : Int) (s : State), port < 8 → clockId < 2 ^ 64 → -7 ≤ syncLog → syncLog ≤ 1 → s.chip.rd (F.hostPort_up port) = 1
    → s.chip.sky.masters = [] → s.chip.rd F.skyStatus_gm_seen = 0 → s.chip.rd F.skyStatus_state = 0 → ∃ c : Chip, exec (.ptpAnnounce port (s.chip.rd
    F.skyCtrl_domain) clockId dataset syncLog) s = .next { s with chip := c } ∧ c.sky.selected = some ⟨port, clockId, dataset, syncLog, s.chip.now⟩ ∧
    c.sky.masters = [⟨port, clockId, dataset, syncLog, s.chip.now⟩] ∧ c.rd F.skyStatus_gm_seen = 1 ∧ c.rd F.skyStatus_ptp_port = port ∧ c.rd F.skyGm_clock_id
    = clockId ∧ c.rd F.skyStatus_state = 1 ∧ c.sky.stepped = false ∧ s.chip.RegsBut c [F.skyStatus_gm_seen, F.skyStatus_ptp_port, F.skyGm_clock_id,
    F.skyStatus_state]) ∧
  (∀ (port domain clockId dataset : Nat) (syncLog : Int) (s : State), domain ≠ s.chip.rd F.skyCtrl_domain ∨ s.chip.rd (F.hostPort_up port) = 0 ∨ syncLog < -7
    ∨ 1 < syncLog → exec (.ptpAnnounce port domain clockId dataset syncLog) s = .next s) ∧
  (∀ (offset : Int) (estimate : Nat) (m : Master) (s : State), s.chip.sky.selected = some m → s.chip.rd F.skyStatus_state = 1 → s.chip.sky.stepped = false →
    -2 ^ 31 ≤ offset → offset < 2 ^ 31 → ∃ c : Chip, exec (.ptpOffset offset estimate) s = .next { s with chip := c } ∧ tabGet c.sky.clock 0 = ⟨estimate * 2
    ^ 48, s.chip.now, 0⟩ ∧ tabGet c.sky.clock 1 = ⟨estimate * 2 ^ 48, s.chip.now, 0⟩ ∧ c.sky.stepped = true ∧ c.sky.good = 0 ∧ c.sky.selected.map
    (·.lastSync) = some s.chip.now ∧ c.rdi F.skyOffset_offset = offset ∧ s.chip.RegsBut c [F.skyOffset_offset]) ∧
  (∀ (offset : Int) (estimate : Nat) (m : Master) (s : State), s.chip.sky.selected = some m → s.chip.rd F.skyStatus_state = 1 → s.chip.sky.stepped = true →
    offset.natAbs ≤ 4000 → s.chip.sky.good < 15 → ∃ c : Chip, exec (.ptpOffset offset estimate) s = .next { s with chip := c } ∧ c.sky.good = s.chip.sky.good
    + 1 ∧ c.sky.clock = s.chip.sky.clock ∧ c.rdi F.skyOffset_offset = offset ∧ s.chip.RegsBut c [F.skyOffset_offset]) ∧
  (∀ (offset : Int) (estimate : Nat) (m : Master) (s : State), s.chip.sky.selected = some m → s.chip.rd F.skyStatus_state = 1 → s.chip.sky.stepped = true →
    4000 < offset.natAbs → ∃ c : Chip, exec (.ptpOffset offset estimate) s = .next { s with chip := c } ∧ c.sky.good = 0 ∧ s.chip.RegsBut c
    [F.skyOffset_offset]) ∧
  (∀ (offset : Int) (estimate : Nat) (m : Master) (s : State), s.chip.sky.selected = some m → s.chip.rd F.skyStatus_state = 1 → s.chip.sky.stepped = true →
    offset.natAbs ≤ 4000 → s.chip.sky.good = 15 → ∃ c : Chip, exec (.ptpOffset offset estimate) s = .next { s with chip := c } ∧ c.rd F.skyStatus_state = 2 ∧
    c.rd F.skyStatus_valid = 1 ∧ c.rd F.skyStatus_source = (if s.chip.tickPresent then 2 else 1) ∧ c.sky.bad = 0 ∧ c.rd (F.evCnt_count 524) = min (s.chip.rd
    (F.evCnt_count 524) + 1) (2 ^ 32 - 1) ∧ s.chip.RegsBut c [F.skyOffset_offset, F.skyStatus_state, F.skyStatus_valid, F.skyStatus_source]) ∧
  (∀ (offset : Int) (estimate : Nat) (m : Master) (s : State), s.chip.sky.selected = some m → s.chip.rd F.skyStatus_state = 3 → offset.natAbs ≤ 40000 → ∃ c :
    Chip, exec (.ptpOffset offset estimate) s = .next { s with chip := c } ∧ c.rd F.skyStatus_state = 2 ∧ c.rd F.skyStatus_source = 1 ∧ c.sky.bad = 0 ∧ c.rdi
    F.skyOffset_offset = offset ∧ c.skyUnits 0 = s.chip.skyUnits 0 ∧ c.skyUnits 1 = s.chip.skyUnits 1 ∧ (0 < offset → (tabGet c.sky.clock 0).corr ≤ 0) ∧
    (offset < 0 → 0 ≤ (tabGet c.sky.clock 0).corr) ∧ (offset = 0 → (tabGet c.sky.clock 0).corr = 0) ∧ ((tabGet c.sky.clock 0).corr.natAbs ≤ s.chip.rd
    F.skyCtrl_slew_ppm * 2 ^ 48 / 10 ^ 6) ∧ (tabGet c.sky.clock 1).corr = (tabGet c.sky.clock 0).corr ∧ s.chip.RegsBut c [F.skyOffset_offset,
    F.skyOffset_corr, F.skyStatus_state, F.skyStatus_source]) ∧
  (∀ (offset : Int) (estimate : Nat) (m : Master) (s : State), s.chip.sky.selected = some m → s.chip.rd F.skyStatus_state = 2 → s.chip.rd F.skyStatus_source
    = 1 → 40000 < offset.natAbs → 3 ≤ s.chip.sky.bad → s.chip.launches = [] → ∃ c : Chip, exec (.ptpOffset offset estimate) s = .next { s with chip := c } ∧
    c.rd F.skyStatus_state = 1 ∧ c.rd F.skyStatus_valid = 0 ∧ c.rd F.skyStatus_source = 0 ∧ c.sky.stepped = false ∧ c.rd F.skyCnt_invalid = min (s.chip.rd
    F.skyCnt_invalid + 1) (2 ^ 16 - 1) ∧ c.rd (F.evCnt_count 525) = min (s.chip.rd (F.evCnt_count 525) + 1) (2 ^ 32 - 1) ∧ s.chip.RegsBut c
    [F.skyOffset_offset, F.skyStatus_state, F.skyStatus_valid, F.skyStatus_source, F.skyCnt_invalid]) ∧
  (∀ (offset : Int) (estimate : Nat) (s : State), s.chip.sky.selected = none → exec (.ptpOffset offset estimate) s = .next s) ∧
  (∀ (m : Master) (s : State), s.chip.sky.selected = some m → s.chip.now < m.lastSync + fourSyncs m.syncLog → exec .ptpLost s = .next s) ∧
  (∀ (m : Master) (s : State), s.chip.sky.selected = some m → s.chip.sky.masters = [m] → m.lastSync + fourSyncs m.syncLog ≤ s.chip.now → s.chip.rd
    F.skyStatus_state = 2 → s.chip.rd F.skyStatus_source = 1 → s.chip.tickPresent = false → ∃ c : Chip, exec .ptpLost s = .next { s with chip := c } ∧
    c.sky.selected = some m ∧ c.sky.masters = [m] ∧ c.rd F.skyStatus_state = 3 ∧ c.rd F.skyStatus_source = 0 ∧ c.sky.holdSince = s.chip.now ∧ c.sky.clock =
    s.chip.sky.clock ∧ c.rd (F.evCnt_count 526) = min (s.chip.rd (F.evCnt_count 526) + 1) (2 ^ 32 - 1) ∧ s.chip.RegsBut c [F.skyStatus_state,
    F.skyStatus_source]) ∧
  (∀ (m : Master) (s : State), s.chip.sky.selected = some m → s.chip.sky.masters = [m] → m.lastSync + fourSyncs m.syncLog ≤ s.chip.now → s.chip.rd
    F.skyStatus_state = 1 → ∃ c : Chip, exec .ptpLost s = .next { s with chip := c } ∧ c.sky.stepped = false ∧ c.sky.good = 0 ∧ c.rd F.skyStatus_state = 0 ∧
    s.chip.RegsBut c [F.skyStatus_state]) ∧
  (∀ s : State, s.chip.rd F.skyStatus_state = 3 → s.chip.sky.holdSince + s.chip.rd F.skyCtrl_hold_s * 10 ^ 9 ≤ s.chip.now → s.chip.launches = [] → ∃ c :
    Chip, exec .holdoverTimeout s = .next { s with chip := c } ∧ c.rd F.skyStatus_state = 0 ∧ c.rd F.skyStatus_valid = 0 ∧ c.rd F.skyCnt_invalid = min
    (s.chip.rd F.skyCnt_invalid + 1) (2 ^ 16 - 1) ∧ c.rd (F.evCnt_count 525) = min (s.chip.rd (F.evCnt_count 525) + 1) (2 ^ 32 - 1) ∧ s.chip.RegsBut c
    [F.skyStatus_state, F.skyStatus_valid, F.skyStatus_source, F.skyCnt_invalid]) ∧
  (∀ s : State, s.chip.rd F.skyStatus_state ≠ 3 ∨ s.chip.now < s.chip.sky.holdSince + s.chip.rd F.skyCtrl_hold_s * 10 ^ 9 → exec .holdoverTimeout s = .next
    s)

/-- SKY_TICK (R446, R448, R451 to R457): edges count only on a package that takes them; a bad edge is discarded and counted, a good one is seen and, in LOCK,
becomes the
source; a lost tick is counted and hands over to PTP or HOLDOVER; valid sky time gives one pulse each millisecond, a longer one each second;
the dies' clocks come together. -/
def Obligations.SkyTicksCarrySkyTime : Prop :=
  (∀ (width frac : Nat) (s : State), s.chip.rd F.chain_head = 1 ∨ s.chip.rd F.skyCtrl_tick_en = 0 ∨ s.chip.chain.hasHop = false → exec (.skyTickEdge width
    frac) s = .next s) ∧
  (∀ (width frac : Nat) (s : State), s.chip.rd F.chain_head = 0 → s.chip.rd F.skyCtrl_tick_en = 1 → s.chip.chain.hasHop = true → width < 50 → ∃ c : Chip,
    exec (.skyTickEdge width frac) s = .next { s with chip := c } ∧ c.rd F.skyCnt_discarded = min (s.chip.rd F.skyCnt_discarded + 1) (2 ^ 16 - 1) ∧
    c.sky.lastEdge = some s.chip.now ∧ c.sky.lastUsed = s.chip.sky.lastUsed ∧ s.chip.RegsBut c [F.skyCnt_discarded]) ∧
  (∀ (width frac : Nat) (s : State), s.chip.rd F.chain_head = 0 → s.chip.rd F.skyCtrl_tick_en = 1 → s.chip.chain.hasHop = true → 50 ≤ width → width < 200 →
    s.chip.sky.lastEdge = none → s.chip.sky_ % 10 ^ 6 = 0 → s.chip.rd F.chain_hop_delay = frac % 4 → s.chip.rd F.skyStatus_state < 2 → ∃ c : Chip, exec
    (.skyTickEdge width frac) s = .next { s with chip := c } ∧ c.rd F.skyStatus_tick_seen = 1 ∧ c.sky.lastUsed = some s.chip.now ∧ c.sky.lastEdge = some
    s.chip.now ∧ s.chip.RegsBut c [F.skyStatus_tick_seen]) ∧
  (∀ (width frac : Nat) (s : State), s.chip.rd F.chain_head = 0 → s.chip.rd F.skyCtrl_tick_en = 1 → s.chip.chain.hasHop = true → 200 ≤ width →
    s.chip.sky.lastEdge = none → s.chip.sky_ % 10 ^ 9 = 0 → s.chip.rd F.chain_hop_delay = frac % 4 → s.chip.rd F.skyStatus_state = 2 → s.chip.rd
    F.skyStatus_source = 1 → ∃ c : Chip, exec (.skyTickEdge width frac) s = .next { s with chip := c } ∧ c.rd F.skyStatus_tick_seen = 1 ∧ c.sky.lastUsed =
    some s.chip.now ∧ c.rd F.skyStatus_source = 2 ∧ c.rdi F.skyOffset_offset = 0 ∧ (tabGet c.sky.clock 0).corr = 0 ∧ c.rd (F.evCnt_count 526) = min
    (s.chip.rd (F.evCnt_count 526) + 1) (2 ^ 32 - 1) ∧ s.chip.RegsBut c [F.skyStatus_tick_seen, F.skyStatus_source, F.skyOffset_offset, F.skyOffset_corr]) ∧
  (∀ (width frac : Nat) (s : State), s.chip.rd F.chain_head = 0 → s.chip.rd F.skyCtrl_tick_en = 1 → s.chip.chain.hasHop = true → 200 ≤ width →
    s.chip.sky.lastEdge = none → s.chip.sky_ % 10 ^ 9 = 10 ^ 6 → s.chip.rd F.chain_hop_delay = frac % 4 → s.chip.rd F.skyStatus_state < 2 → ∃ c : Chip, exec
    (.skyTickEdge width frac) s = .next { s with chip := c } ∧ c.rd F.skyStatus_tick_seen = 1 ∧ c.sky.lastUsed = some s.chip.now ∧ c.rd F.skyCnt_disagree =
    min (s.chip.rd F.skyCnt_disagree + 1) (2 ^ 16 - 1) ∧ c.rd (F.evCnt_count 529) = min (s.chip.rd (F.evCnt_count 529) + 1) (2 ^ 32 - 1) ∧ s.chip.RegsBut c
    [F.skyStatus_tick_seen, F.skyCnt_disagree]) ∧
  (∀ s : State, s.chip.rd F.skyStatus_tick_seen = 1 → s.chip.tickPresent = false → s.chip.rd F.skyStatus_state = 2 → s.chip.rd F.skyStatus_source = 2 →
    s.chip.sky.selected = none → ∃ c : Chip, exec .skyTickLost s = .next { s with chip := c } ∧ c.rd F.skyStatus_tick_seen = 0 ∧ c.rd F.skyStatus_state = 3 ∧
    c.rd F.skyStatus_source = 0 ∧ c.sky.holdSince = s.chip.now ∧ c.rd F.skyCnt_tick_lost = min (s.chip.rd F.skyCnt_tick_lost + 1) (2 ^ 16 - 1) ∧ c.rd
    (F.evCnt_count 528) = min (s.chip.rd (F.evCnt_count 528) + 1) (2 ^ 32 - 1) ∧ s.chip.RegsBut c [F.skyStatus_tick_seen, F.skyStatus_state,
    F.skyStatus_source, F.skyCnt_tick_lost]) ∧
  (∀ (m : Master) (s : State), s.chip.rd F.skyStatus_tick_seen = 1 → s.chip.tickPresent = false → s.chip.rd F.skyStatus_state = 2 → s.chip.rd
    F.skyStatus_source = 2 → s.chip.sky.selected = some m → s.chip.now < m.lastSync + fourSyncs m.syncLog → ∃ c : Chip, exec .skyTickLost s = .next
    { s with chip := c } ∧ c.rd F.skyStatus_tick_seen = 0 ∧ c.rd F.skyStatus_state = 2 ∧ c.rd F.skyStatus_source = 1 ∧ s.chip.RegsBut c
    [F.skyStatus_tick_seen, F.skyStatus_source, F.skyCnt_tick_lost]) ∧
  (∀ s : State, s.chip.rd F.skyStatus_tick_seen = 0 ∨ s.chip.tickPresent = true → exec .skyTickLost s = .next s) ∧
  (∀ s : State, s.chip.rd F.skyStatus_valid = 1 → s.chip.rd F.skyCtrl_tick_out = 1 → s.chip.sky_ / 10 ^ 6 ≠ s.chip.sky.lastTick → s.chip.msBefore ≠
    s.chip.sky_ / 10 ^ 6 → ∃ c : Chip, exec .skyTickOut s = .next { s with chip := c } ∧ c.sky.lastTick = s.chip.sky_ / 10 ^ 6 ∧ c.sent = s.chip.sent ++
    [Out.tick (if s.chip.sky_ / 10 ^ 6 % 1000 = 0 then 300 else 100)] ∧ s.chip.RegsBut c []) ∧
  (∀ s : State, s.chip.rd F.skyStatus_valid = 0 ∨ s.chip.rd F.skyCtrl_tick_out = 0 ∨ s.chip.sky_ / 10 ^ 6 = s.chip.sky.lastTick ∨ s.chip.msBefore =
    s.chip.sky_ / 10 ^ 6 → exec .skyTickOut s = .next s) ∧
  (∀ s : State, (s.chip.dieSt 0).out = false → (s.chip.dieSt 1).out = false → s.chip.skyUnits 0 ≤ s.chip.skyUnits 1 + 2 ^ 49 → s.chip.skyUnits 1 ≤
    s.chip.skyUnits 0 + 2 ^ 49 → ∃ c : Chip, exec .skyDieCompare s = .next { s with chip := c } ∧ c.skyUnits 1 = s.chip.skyUnits 1 ∧ c.skyUnits 0 =
    s.chip.skyUnits 0 ∧ (tabGet c.sky.clock 1).corr = (tabGet s.chip.sky.clock 0).corr ∧ s.chip.RegsBut c []) ∧
  (∀ s : State, (s.chip.dieSt 0).out = false → (s.chip.dieSt 1).out = false → s.chip.skyUnits 1 + 2 ^ 49 < s.chip.skyUnits 0 → ∃ c : Chip, exec
    .skyDieCompare s = .next { s with chip := c } ∧ c.skyUnits 1 = s.chip.skyUnits 0 - 2 ^ 49 ∧ c.skyUnits 0 = s.chip.skyUnits 0 ∧ s.chip.RegsBut c [])

/-- The supply, the references and the temperature (R541 to R543, R559, R569, R572, R573): a power failure is noted once, writes its entry and stops
recording; the copy programs the newest entries into a page of a target that has room and time for it, without a mounted pool nothing, and a reset that
waited takes effect at its end; a low rail is a cold reset with its flag; a lost reference is shown with its event; a junction at 115 °C trips, below it
nothing happens; the life figures are counted and stored. -/
def Obligations.SupplyAndTemperatureAct : Prop :=
  (∀ s : State, s.chip.power.pfail = none → s.chip.NoBurn → (s.chip.dieSt 0).out = false → s.chip.lichen.stopped = false → s.chip.frozenRecord = false → ∃ c
    : Chip, exec .powerFail s = .next (State.allHooks { s with chip := c }) ∧ c.power.pfail = some s.chip.now ∧ c.power.copying = true ∧ c.lichen.stopped =
    true ∧ (c.ring 0).getLast?.map (·.code) = some 0x0400 ∧ s.chip.RegsBut c []) ∧
  (∀ s : State, s.chip.power.pfail.isSome = true → exec .powerFail s = .next s.allHooks) ∧
  (∀ (p q : List Nat) (s : State), s.chip.power.copying = false → exec (.lichenCopyEnd p q) s = .next s) ∧
  (∀ (k : Nat) (s : State), s.chip.power.copying = true → s.chip.power.resetLow = false → s.chip.power.tripped = false → s.chip.rd F.mossStatus_mounted = 1 →
    s.chip.ring 0 ≠ [] → s.chip.copyTarget 0 (k / 8) (k % 8) 0 = true → ∃ c : Chip, exec (.lichenCopyEnd [k] []) s = .next { s with chip := c } ∧
    c.power.copying = false ∧ (c.lichenBlk (k / 8) (k % 8)).pages = (s.chip.lichenBlk (k / 8) (k % 8)).pages ++ [⟨s.chip.lichen.found + 1, 0, 0, (s.chip.ring
    0).drop ((s.chip.ring 0).length - 256), s.chip.idDigest⟩] ∧ (c.lichenBlk (k / 8) (k % 8)).spent = (s.chip.lichenBlk (k / 8) (k % 8)).spent + 1 ∧ c.lichen
    = s.chip.lichen ∧ s.chip.RegsBut c []) ∧
  (∀ (p q : List Nat) (s : State), s.chip.power.copying = true → s.chip.power.resetLow = false → s.chip.power.tripped = false → s.chip.rd
    F.mossStatus_mounted = 0 → ∃ c : Chip, exec (.lichenCopyEnd p q) s = .next { s with chip := c } ∧ c.power.copying = false ∧ c.lichen = s.chip.lichen ∧
    s.chip.RegsBut c []) ∧
  (∀ (p q : List Nat) (s : State), s.chip.power.copying = true → s.chip.power.resetLow = true → s.chip.power.tripped = false → s.chip.NoBurn → ∃ c : Chip,
    exec (.lichenCopyEnd p q) s = .next { s with chip := c } ∧ c.power.copying = false ∧ c.power.resetLow = true ∧ c.power.running = false ∧ c.power.pfail =
    none ∧ c.host.sess = [] ∧ c.launches = [] ∧ s.chip.ColdFrom c) ∧
  (∀ (p q : List Nat) (s : State), s.chip.power.copying = false → s.chip.power.tripped = false → s.chip.NoBurn → ∃ c : Chip, exec (.brownOut p q) s = .next
    { s with chip := c } ∧ c.rd F.clk_brownout = 1 ∧ c.host.sess = [] ∧ c.power.running = false ∧ c.tiles = [] ∧ (∀ f ∈ keptFields, ¬ Recording f → c.rd f =
    s.chip.rd f % 2 ^ f.width)) ∧
  (∀ (which : Nat) (f : Fld) (s : State), which < 2 → f = (if which = 0 then F.clk_dref0_ok else F.clk_dref1_ok) → (∀ d < 24, s.chip.rd (F.hlinkStatus_state
    d) ≠ 5) → ∃ c : Chip, exec (.refclkLost which) s = .next (State.allHooks { s with chip := c }) ∧ c.rd f = 0 ∧ c.rd (F.evCnt_count 555) = min (s.chip.rd
    (F.evCnt_count 555) + 1) (2 ^ 32 - 1) ∧ s.chip.RegsBut c [f]) ∧
  (∀ (which : Nat) (f : Fld) (s : State), which = 2 ∨ which = 3 → f = (if which = 2 then F.clk_href0_ok else F.clk_href1_ok) → (∀ p < 8, s.chip.rd
    (F.hostPort_up p) = 0) → ∃ c : Chip, exec (.refclkLost which) s = .next (State.allHooks { s with chip := c }) ∧ c.rd f = 0 ∧ c.rd (F.evCnt_count 555) =
    min (s.chip.rd (F.evCnt_count 555) + 1) (2 ^ 32 - 1) ∧ s.chip.RegsBut c [f]) ∧
  (∀ s : State, ∃ c : Chip, exec (.refclkLost 4) s = .next (State.allHooks { s with chip := c }) ∧ (c.dieSt 0).out = true ∧ (c.dieSt 1).out = true) ∧
  (∀ (which : Nat) (s : State), 4 < which → exec (.refclkLost which) s = .next s) ∧
  (∀ (e : Nat) (temp : Int) (s : State), temp < 460 ∨ s.chip.power.tripped = true → exec (.thermalTrip e temp) s = .next s) ∧
  (∀ (e : Nat) (temp : Int) (s : State), e < 2 → 460 ≤ temp → temp < 2 ^ 15 → s.chip.power.tripped = false → s.chip.power.pfail = none → s.chip.NoBurn → ∃ c
    : Chip, exec (.thermalTrip e temp) s = .next (State.allHooks { s with chip := c }) ∧ c.power.tripped = true ∧ c.power.pfail = some s.chip.now ∧
    c.power.copying = true ∧ c.rd F.thermStatus_therm = 1 ∧ c.rd F.thermStatus_trips = min (s.chip.rd F.thermStatus_trips + 1) (2 ^ 8 - 1) ∧ c.rdi
    (F.calStatus_t_now e) = temp ∧ c.rd (F.evCnt_count 554) = min (s.chip.rd (F.evCnt_count 554) + 1) (2 ^ 32 - 1) ∧ s.chip.RegsBut c [F.thermStatus_therm,
    F.thermStatus_trips, F.thermStatus_tmax, F.thermLife_equiv_h, F.thermLife_hours, F.calStatus_t_now e]) ∧
  (∀ s : State, ∃ c : Chip, exec .lifeStore s = .next { s with chip := c } ∧ c.rd F.thermLife_hours = min (s.chip.rd F.thermLife_hours +
    (s.chip.power.hoursRest + (s.chip.now - s.chip.power.lifeAt)) / (3600 * 10 ^ 9)) (2 ^ 32 - 1) ∧ c.power.lifeStored = c.rd F.thermLife_equiv_h ∧
    c.power.hoursStored = c.rd F.thermLife_hours ∧ c.power.lifeAt = s.chip.now ∧ s.chip.RegsBut c [F.thermLife_equiv_h, F.thermLife_hours])

/-- The package power states (R410 to R414): with no drive active the package goes to HAZE, a drive of its own rests; from HAZE it goes to OVERCAST; at the
end of a wake what
waited goes on in CLEAR. A timer of 0, another state or a drive in use leaves everything as it is. -/
def Obligations.PowerStatesFollowUse : Prop :=
  (∀ s : State, s.chip.rd F.pwrStatus_state = 0 → s.chip.power.haze = true → s.chip.rd F.pwrCtrl_haze_s ≠ 0 → (∀ d < 24, s.chip.driveActive d = false) → (∀ d
    < 24, s.chip.rd (F.hlinkStatus_state d) ≠ 5) → ∃ c : Chip, exec .hazeTimeout s = .next { s with chip := c } ∧ c.rd F.pwrStatus_state = 1 ∧ c.rd
    (F.evCnt_count 518) = min (s.chip.rd (F.evCnt_count 518) + 1) (2 ^ 32 - 1) ∧ s.chip.RegsBut c [F.pwrStatus_state]) ∧
  (∀ s : State, s.chip.rd F.pwrStatus_state = 0 → s.chip.power.haze = true → s.chip.rd F.pwrCtrl_haze_s ≠ 0 → (∀ d < 24, s.chip.driveActive d = false) → ∃ c
    : Chip, exec .hazeTimeout s = .next { s with chip := c } ∧ c.rd F.pwrStatus_state = 1 ∧ c.rd (F.evCnt_count 518) = min (s.chip.rd (F.evCnt_count 518) +
    1) (2 ^ 32 - 1)) ∧
  (∀ s : State, s.chip.rd F.pwrStatus_state ≠ 0 ∨ s.chip.power.haze = false ∨ s.chip.rd F.pwrCtrl_haze_s = 0 ∨ (∃ d < 24, s.chip.driveActive d = true) → exec
    .hazeTimeout s = .next s) ∧
  (∀ (d : Nat) (s : State), d < 24 → s.chip.rd F.pwrStatus_state = 0 → s.chip.rd F.pwrCtrl_drive_idle_s ≠ 0 → s.chip.driveActive d = false → s.chip.engineOut
    d = false → s.chip.rd (F.hlinkStatus_state d) = 5 → s.chip.rd (F.spinStatus_state d) = 6 → s.chip.rd (F.axisStatus_state d 0) < 6 → (s.chip.axisSt (2 *
    d)).move = none → (s.chip.axisSt (2 * d)).armed = none → s.chip.rd (F.axisStatus_homed d 0) = 1 → s.chip.rdi (F.sledPark_pos d) ≠ s.chip.rdi
    (F.axisStatus_pos d 0) → ∃ c : Chip, exec (.driveIdleTimeout d) s = .next { s with chip := c } ∧ c.rd (F.spinStatus_state d) = 7 ∧ c.rd
    (F.srvStatus_fstate d) = 0 ∧ c.rd (F.srvStatus_tstate d) = 0 ∧ (c.axisSt (2 * d)).move.map (·.target) = some (s.chip.rdi (F.sledPark_pos d)) ∧ c.rd
    (F.discStatus_state d) = s.chip.rd (F.discStatus_state d)) ∧
  (∀ (d : Nat) (s : State), s.chip.rd F.pwrStatus_state ≠ 0 ∨ s.chip.rd F.pwrCtrl_drive_idle_s = 0 ∨ s.chip.driveActive d = true ∨ s.chip.rd
    (F.hlinkStatus_state d) ≠ 5 → exec (.driveIdleTimeout d) s = .next s) ∧
  (∀ s : State, s.chip.rd F.pwrStatus_state = 1 → s.chip.rd F.pwrStatus_waking = 0 → s.chip.rd F.pwrCtrl_overcast_s ≠ 0 → s.chip.flashQuiet = true → (∀ n ∈
    s.chip.liveSessions, n ≤ 256) → s.chip.contexts (fun k => k.phase == .active) = [] → ∃ t : State, exec .overcastTimeout s = .next t ∧ t.chip.rd
    F.pwrStatus_state = 2 ∧ t.chip.host.wakeFor = (List.range 24).filter (fun d => s.chip.rd (F.hlinkCtrl_enable d) == 1) ∧ (∀ d < 24, s.chip.rd
    (F.hlinkCtrl_enable d) = 1 → t.chip.rd (F.hlinkCtrl_enable d) = 0 ∧ t.chip.rd (F.hlinkStatus_state d) = 0)) ∧
  (∀ s : State, s.chip.rd F.pwrStatus_state ≠ 1 ∨ s.chip.rd F.pwrStatus_waking = 1 ∨ s.chip.rd F.pwrCtrl_overcast_s = 0 ∨ s.chip.flashQuiet = false → exec
    .overcastTimeout s = .next s) ∧
  (∀ s : State, s.chip.rd F.pwrStatus_state ≠ 2 → ∃ c : Chip, exec .powerWakeComplete s = .next { s with chip := c } ∧ c.rd F.pwrStatus_waking = 0 ∧
    s.chip.RegsBut c [F.pwrStatus_waking]) ∧
  (∀ s : State, s.chip.rd F.pwrStatus_state = 2 → s.chip.rd F.pwrStatus_waking = 1 → s.chip.launches = [] → s.chip.contexts (fun k => k.phase == .active &&
    k.wait == .drive) = [] → ∃ c : Chip, exec .powerWakeComplete s = .next (State.allHooks { s with chip := c }) ∧ c.rd F.pwrStatus_state = 0 ∧ c.rd
    F.pwrStatus_waking = 0 ∧ c.host.wakeFor = [] ∧ c.rd (F.evCnt_count 518) = min (s.chip.rd (F.evCnt_count 518) + 1) (2 ^ 32 - 1) ∧ s.chip.RegsBut c
    [F.pwrStatus_state, F.pwrStatus_waking]) ∧
  (∀ s : State, s.chip.rd F.pwrStatus_state = 2 → s.chip.rd F.pwrStatus_waking = 0 → exec .powerWakeComplete s = .next s)

/-- RESET_N rising and falling (R467, R468, R507, R509, R514, R560): the straps are latched and give the ports of the mode, the references are there, the
valid keeper image
with the higher version runs; with none the package stays in recovery; a sequence that runs is not begun again; a fall is a cold
reset, held back by a copy under way. -/
def Obligations.PowerUpStartsTheKeeper : Prop :=
  (∀ (hmode calMode testN k : Nat) (h0 h1 : Bool) (s : State), s.chip.power.running = false → s.chip.power.tripped = false → testN % 2 = 1 → (tabGet
    s.chip.trust.images 0 : ImageRec).present = true → (tabGet s.chip.trust.images 1 : ImageRec).present = true → s.chip.bootSlot 1 = some k → ∃ c : Chip,
    exec (.resetRelease hmode calMode testN false h0 h1) s = .next { s with chip := c } ∧ c.power.running = true ∧ c.power.resetLow = false ∧
    c.power.testMode = false ∧ c.chain.resetAt = s.chip.now ∧ c.rd F.straps_hmode = hmode % 4 ∧ c.rd F.straps_cal_mode = calMode % 2 ∧ c.rd F.straps_test_n =
    1 ∧ c.rd F.hostCfg_mode = hmode % 4 ∧ (∀ p < 8, c.rd (F.hostPort_exists p) = (portExists (hmode % 4) p).toNat ∧ c.rd (F.hostPort_up p) = 0) ∧ c.rd
    F.clk_dref0_ok = 1 ∧ c.rd F.clk_dref1_ok = 1 ∧ c.rd F.clk_href0_ok = 1 ∧ c.rd F.clk_href1_ok = 1 ∧ c.trust.keeperSlot = k ∧ c.mgmt.recovery =
    s.chip.mgmt.recovery) ∧
  (∀ (hmode calMode testN : Nat) (h0 h1 : Bool) (s : State), s.chip.power.running = false → s.chip.power.tripped = false → testN % 2 = 1 → (tabGet
    s.chip.trust.images 0 : ImageRec).present = false → (tabGet s.chip.trust.images 1 : ImageRec).present = false → s.chip.mgmt.slotImage = [] → ∃ c : Chip,
    exec (.resetRelease hmode calMode testN false h0 h1) s = .next { s with chip := c } ∧ c.mgmt.recovery = true ∧ c.power.running = true ∧ c.rd
    F.bootProgress_step = max 3 (s.chip.rd F.bootProgress_step) % 16 ∧ s.chip.RegsBut c ([F.straps_hmode, F.straps_cal_mode, F.straps_test_n, F.hostCfg_mode,
    F.clk_dref0_ok, F.clk_dref1_ok, F.clk_href0_ok, F.clk_href1_ok, F.bootProgress_step] ++ (List.range 8).flatMap fun p => [F.hostPort_exists p,
    F.hostPort_up p, F.hostPort_fec p, F.hostPort_lpi p])) ∧
  (∀ (hmode calMode testN : Nat) (u h0 h1 : Bool) (s : State), s.chip.power.running = true → exec (.resetRelease hmode calMode testN u h0 h1) s = .next s) ∧
  (∀ s : State, s.chip.power.resetLow = false → s.chip.power.copying = false → s.chip.power.tripped = false → s.chip.NoBurn → ∃ c : Chip, exec .resetNFall s
    = .next { s with chip := c } ∧ c.power.resetLow = true ∧ c.power.running = false ∧ c.power.app = false ∧ c.host.sess = [] ∧ c.host.shakes = [] ∧
    c.launches = [] ∧ c.tiles = [] ∧ c.trust.creds = s.chip.trust.creds ∧ c.lichen.stopped = false ∧ c.now = s.chip.now ∧ s.chip.ColdFrom c) ∧
  (∀ s : State, s.chip.power.resetLow = false → s.chip.power.copying = true → ∃ c : Chip, exec .resetNFall s = .next { s with chip := c } ∧ c.power.resetLow
    = true ∧ c.power.copying = true ∧ c.host = s.chip.host ∧ s.chip.RegsBut c []) ∧
  (∀ s : State, s.chip.power.resetLow = true → exec .resetNFall s = .next s)

/-- Calibration, training and the way to HAZE (R509, R511 to R513, R516 to R526, R531): a die's calibration keeps a plausible result at all five points,
takes 80h where nothing
else is left, and ends; a trained stack holds zeros, a third failure puts the die out; the application starts with the port
bring-up; HAZE is entered when all is ready, or after 10 s. -/
def Obligations.DiesAreCalibratedAndTrained : Prop :=
  (∀ (e : Nat) (tCal : Int) (r : CalReading) (s : State), e < 2 → 4 ≤ s.chip.rd F.bootProgress_step → (s.chip.dieSt e).out = false → s.chip.rd
    (F.calStatus_done e) = 0 → (s.chip.bootSt e).record = [] → (s.chip.bootSt e).recSeq = 0 → r.id = 1 → r.inst < 48 → (∀ n ∈ r.votes, n ≠ 8) → 0x30 ≤
    searchCode (r.votes.map fun n => decide (8 < n)) → searchCode (r.votes.map fun n => decide (8 < n)) ≤ 0xD0 → -2 ^ 15 ≤ tCal → tCal < 2 ^ 15 → s.chip.rd
    F.straps_cal_mode < 2 → ∃ c : Chip, exec (.calibrationRun e tCal [r]) s = .next { s with chip := c } ∧ c.rd (F.calStatus_done e) = 1 ∧ c.rdi
    (F.calStatus_t_now e) = tCal ∧ c.rd (F.calStatus_method e) = s.chip.rd F.straps_cal_mode ∧ tabGet (c.bootSt e).trims (256 + r.inst) = ⟨List.replicate 5
    (searchCode (r.votes.map fun n => decide (8 < n))), 0, searchCode (r.votes.map fun n => decide (8 < n)), 0, searchCode (r.votes.map fun n => decide (8 <
    n)), 0⟩ ∧ (c.bootSt e).tCal = tCal ∧ s.chip.RegsBut c [F.calStatus_done e, F.calStatus_t_now e, F.calStatus_t_cal e, F.calStatus_method e,
    F.bootProgress_step]) ∧
  (∀ (e : Nat) (tCal : Int) (r : CalReading) (s : State), e < 2 → 4 ≤ s.chip.rd F.bootProgress_step → (s.chip.dieSt e).out = false → s.chip.rd
    (F.calStatus_done e) = 0 → (s.chip.bootSt e).record = [] → r.id = 3 → r.inst < 12 → (∀ n ∈ r.votes, n ≠ 8) → searchCode (r.votes.map fun n => decide (8 <
    n)) < 0x20 → ∃ c : Chip, exec (.calibrationRun e tCal [r]) s = .next { s with chip := c } ∧ c.rd (F.calStatus_done e) = 1 ∧ tabGet (c.bootSt e).trims
    (768 + r.inst) = ⟨List.replicate 5 0x80, 4, searchCode (r.votes.map fun n => decide (8 < n)), 0, 0x80, 3⟩ ∧ c.rd (F.calStatus_last_id e) = 3 ∧ c.rd
    (F.calStatus_last_inst e) = r.inst ∧ c.rd (F.calStatus_implausible e) = min (s.chip.rd (F.calStatus_implausible e) + 1) (2 ^ 8 - 1) ∧ c.rd (F.evCnt_count
    (448 + 32 * e + 6)) = min (s.chip.rd (F.evCnt_count (448 + 32 * e + 6)) + 1) (2 ^ 32 - 1)) ∧
  (∀ (e : Nat) (tCal : Int) (rs : List CalReading) (s : State), s.chip.rd F.bootProgress_step < 4 ∨ (s.chip.dieSt e).out = true ∨ s.chip.rd (F.calStatus_done
    e) = 1 → exec (.calibrationRun e tCal rs) s = .next s) ∧
  (∀ (e : Nat) (s : State), e < 2 → s.chip.rd (F.calStatus_done e) = 1 → (s.chip.bootSt e).trained = false → (s.chip.dieSt e).out = false → s.chip.rd
    F.bootProgress_step < 7 → ∃ t : State, exec (.dramTrainingDone e true) s = .next (State.allHooks t) ∧ (t.chip.bootSt e).trained = true ∧ (∀ a, e *
    0x200000000 ≤ a → a < e * 0x200000000 + 7 * 2 ^ 30 → memRead t.dram a = 0) ∧ s.MemBut t (e * 0x200000000) (7 * 2 ^ 30) ∧ s.chip.RegsBut t.chip []) ∧
  (∀ (e : Nat) (s : State), s.chip.rd (F.calStatus_done e) = 1 → (s.chip.bootSt e).trained = false → (s.chip.dieSt e).out = false → (s.chip.bootSt
    e).trainFails < 2 → ∃ c : Chip, exec (.dramTrainingDone e false) s = .next (State.allHooks { s with chip := c }) ∧ (c.bootSt e).trainFails =
    (s.chip.bootSt e).trainFails + 1 ∧ c.dieSt e = s.chip.dieSt e ∧ s.chip.RegsBut c []) ∧
  (∀ (e : Nat) (s : State), e < 2 → s.chip.rd (F.calStatus_done e) = 1 → (s.chip.bootSt e).trained = false → (s.chip.dieSt e).out = false → 2 ≤
    (s.chip.bootSt e).trainFails → ∃ c : Chip, exec (.dramTrainingDone e false) s = .next (State.allHooks { s with chip := c }) ∧ (c.dieSt e).out = true ∧
    (c.rgnSt (2 * e)).out = true ∧ (c.rgnSt (2 * e + 1)).out = true) ∧
  (∀ (e : Nat) (ok : Bool) (s : State), s.chip.rd (F.calStatus_done e) = 0 ∨ (s.chip.bootSt e).trained = true ∨ (s.chip.dieSt e).out = true → exec
    (.dramTrainingDone e ok) s = .next s) ∧
  (∀ (k : Nat) (s : State), 5 ≤ s.chip.rd F.bootProgress_step → s.chip.rd F.bootProgress_step < 7 → (s.chip.bootSt 0).trained = true → (s.chip.bootSt
    1).trained = true → s.chip.bootSlot 0 = some k → (∀ d < 24, s.chip.rd (F.hlinkCtrl_enable d) = 1 ∧ s.chip.rd (F.hlinkStatus_state d) = 0) → s.chip.rd
    F.svcRetired_retired = 0 → (s.chip.dieSt 0).out = false → (s.chip.dieSt 1).out = false → ∃ c : Chip, exec .appStart s = .next (State.allHooks
    { s with chip := c }) ∧ c.power.app = true ∧ c.trust.appSlot = k ∧ c.rd F.bootProgress_step = 7 ∧ (∀ d < 24, c.rd (F.hlinkStatus_state d) = 1) ∧
    s.chip.RegsBut c (F.bootProgress_step :: (List.range 24).map F.hlinkStatus_state)) ∧
  (∀ s : State, 7 ≤ s.chip.rd F.bootProgress_step ∨ s.chip.rd F.bootProgress_step < 5 → exec .appStart s = .next s) ∧
  (∀ s : State, s.chip.poweringUp = true → s.chip.hazeReady = true → s.chip.rd F.pwrStatus_state ≠ 1 → s.chip.rd F.bootProgress_step < 16 →
    s.chip.power.pfail = none → ∃ c : Chip, exec .hazeEntry s = .next { s with chip := c } ∧ c.rd F.pwrStatus_state = 1 ∧ c.power.haze = true ∧ 8 ≤ c.rd
    F.bootProgress_step ∧ c.rd F.bootProgress_ms = min ((s.chip.now - s.chip.chain.resetAt) / 10 ^ 6) (2 ^ 16 - 1) ∧ (∀ e < 2, (s.chip.dieSt e).out = false →
    (c.bootSt e).recSeq = (s.chip.bootSt e).recSeq + 1 ∧ (c.bootSt e).recordAt = some s.chip.now) ∧ s.chip.rd F.otp_rollback ≤ c.rd F.otp_rollback ∧
    s.chip.RegsBut c [F.pwrStatus_state, F.bootProgress_step, F.bootProgress_ms, F.thermLife_equiv_h, F.thermLife_hours, F.otp_rollback]) ∧
  (∀ s : State, s.chip.poweringUp = false ∨ s.chip.hazeReady = false → exec .hazeEntry s = .next s) ∧
  (∀ s : State, s.chip.poweringUp = true → s.chip.chain.resetAt + 10 ^ 10 ≤ s.chip.now → ∃ c : Chip, exec .powerUpTimeout s = .next { s with chip := c } ∧
    c.rd F.pwrStatus_state = 1 ∧ c.power.haze = true ∧ c.rd (F.evCnt_count 517) = min (s.chip.rd (F.evCnt_count 517) + 1) (2 ^ 32 - 1) ∧ s.chip.RegsBut c
    [F.pwrStatus_state, F.bootProgress_step, F.bootProgress_ms, F.thermLife_equiv_h, F.thermLife_hours, F.otp_rollback]) ∧
  (∀ s : State, s.chip.poweringUp = false ∨ s.chip.now < s.chip.chain.resetAt + 10 ^ 10 → exec .powerUpTimeout s = .next s)

/-- Trims in operation, and the reset of a die (R27, R514, R522, R528, R530, R531, R573, R595): codes move by one towards their applied code, once in each
period; a head's trims come from the decisions of its search, an implausible one of a new head stays at 80h; a deferred record is written once its minute
has passed; a die that is out returns with its registers at reset, its identities and its trim record kept. -/
def Obligations.TrimsFollowAndDiesAreReset : Prop :=
  (∀ (e : Nat) (temp : Int) (t : TrimRec) (k : Nat) (s : State), e < 2 → s.chip.tempDue e = true → s.chip.power.tripped = false → s.chip.rd (F.calStatus_done
    e) = 1 → (s.chip.dieSt e).out = false → -2 ^ 15 ≤ temp → temp < 2 ^ 15 → (s.chip.bootSt e).trims = [(k, t)] → k < 14 * 256 → t.source ≤ 1 → ∃ c : Chip,
    exec (.trimTempUpdate e temp) s = .next { s with chip := c } ∧ c.rdi (F.calStatus_t_now e) = temp ∧ (c.bootSt e).tNow = temp ∧ (c.bootSt e).tempAt =
    s.chip.now ∧ (tabGet (c.bootSt e).trims k : TrimRec).applied = (if t.applied < trimCode t.codes t.delta temp then t.applied + 1 else if trimCode t.codes
    t.delta temp < t.applied then t.applied - 1 else t.applied) ∧ s.chip.RegsBut c [F.calStatus_t_now e, F.thermStatus_tmax, F.thermStatus_therm,
    F.thermLife_equiv_h, F.thermLife_hours]) ∧
  (∀ (e : Nat) (temp : Int) (s : State), s.chip.tempDue e = false → exec (.trimTempUpdate e temp) s = .next s) ∧
  (∀ (e : Nat) (temp : Int) (s : State), s.chip.power.tripped = false → s.chip.rd (F.calStatus_done e) = 0 ∨ (s.chip.dieSt e).out = true → exec
    (.trimTempUpdate e temp) s = .next s) ∧
  (∀ (d : Nat) (a q0 q1 q2 q3 : List Bool) (s : State), d < 24 → s.chip.rd (F.hlinkStatus_state d) = 5 → (s.chip.servoSt d).trimDone = false →
    s.chip.power.haze = false → ∃ c : Chip, exec (.headTrimDone d [a, q0, q1, q2, q3] [20, -256, 256, 0, -1]) s = .next { s with chip := c } ∧ c.rd
    (F.hcal_ld_trim d) = searchCode a ∧ c.rd (F.hcal_q_trim d) = searchCode q0 + 256 * searchCode q1 + 65536 * searchCode q2 + 16777216 * searchCode q3 ∧
    c.rd (F.hcal_ok d) = 1 ∧ (c.servoSt d).trimDone = true ∧ (tabGet (c.bootSt (d / 12)).trims (14 * 256 + d % 12) : TrimRec).applied = searchCode a ∧
    (tabGet (c.bootSt (d / 12)).trims (15 * 256 + 4 * (d % 12) + 3) : TrimRec).applied = searchCode q3 ∧ s.chip.RegsBut c [F.hcal_ld_trim d, F.hcal_q_trim d,
    F.hcal_ok d]) ∧
  (∀ (d : Nat) (a q0 q1 q2 q3 : List Bool) (s : State), d < 24 → s.chip.rd (F.hlinkStatus_state d) = 5 → (s.chip.servoSt d).trimDone = false →
    s.chip.power.haze = false → (s.chip.linkSt d).newHead = true → ∃ c : Chip, exec (.headTrimDone d [a, q0, q1, q2, q3] [21, 0, 0, 0, -257]) s = .next
    { s with chip := c } ∧ c.rd (F.hcal_ld_trim d) = 0x80 ∧ c.rd (F.hcal_q_trim d) = searchCode q0 + 256 * searchCode q1 + 65536 * searchCode q2 + 16777216 *
    0x80 ∧ c.rd (F.hcal_ok d) = 0 ∧ (c.servoSt d).trimDone = true ∧ c.rd (F.evCnt_count (16 * d + 11)) = min (s.chip.rd (F.evCnt_count (16 * d + 11)) + 2) (2
    ^ 32 - 1) ∧ s.chip.RegsBut c [F.hcal_ld_trim d, F.hcal_q_trim d, F.hcal_ok d]) ∧
  (∀ (d : Nat) (decisions : List (List Bool)) (residuals : List Int) (s : State), s.chip.rd (F.hlinkStatus_state d) ≠ 5 ∨ (s.chip.servoSt d).trimDone = true
    → exec (.headTrimDone d decisions residuals) s = .next s) ∧
  (∀ (e at_ k : Nat) (r : TrimRec) (s : State), (s.chip.bootSt e).trims = [(k, r)] → (s.chip.bootSt e).recordDue = true → (s.chip.bootSt e).recordAt = some
    at_ → at_ + 60 * 10 ^ 9 ≤ s.chip.now → s.chip.power.haze = true → s.chip.power.pfail = none → ∃ c : Chip, exec (.trimRecordWrite e) s = .next
    { s with chip := c } ∧ (c.bootSt e).recSeq = (s.chip.bootSt e).recSeq + 1 ∧ (c.bootSt e).recordAt = some s.chip.now ∧ (c.bootSt e).recordDue = false ∧
    tabGet (c.bootSt e).record k = r.entry ∧ s.chip.RegsBut c []) ∧
  (∀ (e at_ : Nat) (s : State), (s.chip.bootSt e).recordAt = some at_ → s.chip.now < at_ + 60 * 10 ^ 9 → ∃ c : Chip, exec (.trimRecordWrite e) s = .next
    { s with chip := c } ∧ (c.bootSt e).recSeq = (s.chip.bootSt e).recSeq ∧ (c.bootSt e).recordDue = (s.chip.bootSt e).recordDue ∧ s.chip.RegsBut c []) ∧
  (∀ (e : Nat) (s : State), e < 2 → (s.chip.dieSt e).out = true → ∃ c : Chip, exec (.dieReset e) s = .next { s with chip := c } ∧ (c.dieSt e).out = false ∧
    (∀ d < 24, d / 12 = e → c.rd (F.hlinkStatus_state d) = 0 ∧ c.rd (F.spinStatus_state d) = 0 ∧ (c.burnSt d).run = none ∧ (c.readSt d).queue = [] ∧
    (c.linkSt d).identity = (s.chip.linkSt d).identity) ∧ (∀ d < 24, d / 12 ≠ e → c.rd (F.hlinkStatus_state d) = s.chip.rd (F.hlinkStatus_state d) ∧ c.burnSt
    d = s.chip.burnSt d) ∧ (c.bootSt e).record = (s.chip.bootSt e).record ∧ (c.bootSt e).trained = false ∧ c.rd (F.calStatus_done e) = 0 ∧ c.host =
    s.chip.host) ∧
  (∀ (e : Nat) (s : State), (s.chip.dieSt e).out = false → exec (.dieReset e) s = .next s)

/-- The fetch of a host command (R34, R402, R411, R418 to R421, R479 to R481, R502), for every opcode and whatever the row adds: a command that is not the
next of its session
stays; in OVERCAST one that is not served wakes the package and waits; a command that fails a check gets the status of the first
check that fails and does nothing
else; one that passes them all is executed on the state in which its context is active. -/
def Obligations.FetchMeetsItsChecks : Prop :=
  (∀ (n x op : Nat) (r : OpRow) (pick : Cmd → Bool) (fields resources : Chip → Cmd → Nat) (body : State → Cmd → State) (s : State), opRow op = some r →
    s.chip.canFetch n x r = false ∨ pick (s.chip.ctxSt n x).cmd = false → s.fetchWith n x op pick fields resources body = .next s) ∧
  (∀ (n x op : Nat) (r : OpRow) (fields resources : Chip → Cmd → Nat) (body : State → Cmd → State) (s : State), opRow op = some r → s.chip.canFetch n x r =
    true → s.chip.rd F.pwrStatus_state = 2 → r.servedAsleep = false → (s.chip.ctxSt n x).cmd.T = 0 → s.chip.rd F.pwrStatus_waking = 0 → ∃ c : Chip,
    s.fetchWith n x op anyCmd fields resources body = .next { s with chip := c } ∧ c.rd F.pwrStatus_waking = 1 ∧ c.host = s.chip.host ∧ (∀ d < 24, d ∈
    s.chip.host.wakeFor → (s.chip.rd F.svcRetired_retired).testBit d = false → c.rd (F.hlinkCtrl_enable d) = 1 ∨ s.chip.rd (F.hlinkStatus_state d) ≠ 0)) ∧
  (∀ (n x op : Nat) (r : OpRow) (fields resources : Chip → Cmd → Nat) (body : State → Cmd → State) (s : State), opRow op = some r → s.chip.canFetch n x r =
    true → s.chip.rd F.pwrStatus_state < 2 → n ≤ 256 → s.chip.rd (F.use_frozen (n - 1)) = 1 → ∃ c : Chip, s.fetchWith n x op anyCmd fields resources body =
    .next (State.allHooks { s with chip := c }) ∧ (c.ctxSt n x).status = some (statusPayload 0x0305 0 []) ∧ (c.ctxSt n x).phase ≠ .active ∧ (c.ctxSt n
    x).phase ≠ .waiting ∧ c.sent = s.chip.sent ∧ s.chip.RegsBut c (s.chip.unitOf n x ++ c.hostCounts)) ∧
  (∀ (n x op code : Nat) (r : OpRow) (fields resources : Chip → Cmd → Nat) (body : State → Cmd → State) (s : State), opRow op = some r → s.chip.canFetch n x
    r = true → s.chip.rd F.pwrStatus_state < 2 → r.gate ≠ .sealQ → s.chip.rd (F.use_frozen (n - 1)) = 0 → s.chip.moss.op = none → (s.chip.fetched n
    x).gateCode n r = code → code ≠ 0 → ∃ c : Chip, s.fetchWith n x op anyCmd fields resources body = .next (State.allHooks { s with chip := c }) ∧ (c.ctxSt
    n x).status = some (statusPayload code 0 []) ∧ (c.ctxSt n x).phase ≠ .active ∧ (c.ctxSt n x).phase ≠ .waiting ∧ s.chip.RegsBut c (s.chip.unitOf n x ++
    c.hostCounts)) ∧
  (∀ (n x op : Nat) (r : OpRow) (fields resources : Chip → Cmd → Nat) (body : State → Cmd → State) (s : State), opRow op = some r → s.chip.canFetch n x r =
    true → s.chip.rd F.pwrStatus_state < 2 → s.chip.rd (F.use_frozen (n - 1)) = 0 → r.status = false → op ≠ 0xC2 → op ≠ 0xC3 → n ≤ 256 →
    s.chip.moss.op.isSome = true → ∃ c : Chip, s.fetchWith n x op anyCmd fields resources body = .next (State.allHooks { s with chip := c }) ∧ (c.ctxSt n
    x).status = some (statusPayload 0x0108 0 []) ∧ (c.ctxSt n x).phase ≠ .active ∧ s.chip.RegsBut c (s.chip.unitOf n x ++ c.hostCounts)) ∧
  (∀ (n x op code : Nat) (r : OpRow) (fields resources : Chip → Cmd → Nat) (body : State → Cmd → State) (s : State), opRow op = some r → s.chip.serves n x op
    = true → r.gate ≠ .sealQ → fields (s.chip.fetched n x) (s.chip.ctxSt n x).cmd = code → code ≠ 0 → ∃ c : Chip, s.fetchWith n x op anyCmd fields resources
    body = .next (State.allHooks { s with chip := c }) ∧ (c.ctxSt n x).status = some (statusPayload code 0 []) ∧ (c.ctxSt n x).phase ≠ .active ∧ (c.ctxSt n
    x).phase ≠ .waiting ∧ s.chip.RegsBut c (s.chip.unitOf n x ++ c.hostCounts)) ∧
  (∀ (n x op : Nat) (r : OpRow) (fields resources : Chip → Cmd → Nat) (body : State → Cmd → State) (s : State), opRow op = some r → s.chip.serves n x op =
    true → r.gate ≠ .sealQ → fields (s.chip.fetched n x) (s.chip.ctxSt n x).cmd = 0 → resources (s.chip.fetched n x) (s.chip.ctxSt n x).cmd = 0 → ∃ c : Chip,
    s.fetchWith n x op anyCmd fields resources body = .next (State.allHooks (body { s with chip := c } (s.chip.ctxSt n x).cmd)) ∧ (c.ctxSt n x).phase =
    .active ∧ (c.ctxSt n x).cmd = (s.chip.ctxSt n x).cmd ∧ (c.ctxSt n x).parse = s.chip.host.parse + 1 ∧ (c.sess n).queuePtr = arbNext 16 (s.chip.ctxSt n
    x).cmd.queue ∧ s.chip.RegsBut c c.hostCounts)

/-- Commands of the session and identify group (R401, R415, R417, R441, R443, R596): NOP completes; IDENTIFY sends the identify data and keeps them;
QUEUE_OPEN and QUEUE_CLOSE set
the queue, a queue in use is not closed; PROGRESS answers what runs; SESSION_LIST answers one entry for each session that
fits. -/
def Obligations.SessionCommandsAnswer : Prop :=
  (∀ (n x : Nat) (s : State), s.chip.serves n x 0x00 = true → ∃ c : Chip, exec (.nop n x) s = .next (State.allHooks { s with chip := c }) ∧ (c.ctxSt n
    x).phase = .free ∧ (c.ctxSt n x).status = some (statusPayload 0 0 []) ∧ Out.qcp 0x11 n (s.chip.ctxSt n x).cmd.queue ((s.chip.sess n).txSeq + 1) x
    (s.chip.ctxSt n x).cmd.tag 0 0 (statusPayload 0 0 []) ∈ c.sent ∧ (∀ y < 4096, y ≠ x → c.ctxSt n y = s.chip.ctxSt n y) ∧ s.chip.RegsBut c (s.chip.unitOf n
    x ++ c.hostCounts)) ∧
  (∀ (n x tl : Nat) (s : State), s.chip.serves n x 0x01 = true → 0 < (s.chip.ctxSt n x).cmd.dlen → s.chip.chooseTiles (s.chip.sess n).die 1 = [tl] → tl < 2 ^
    21 → ∃ t : State, exec (.identify n x) s = .next (State.allHooks t) ∧ (t.chip.ctxSt n x).phase = .retained ∧ (t.chip.ctxSt n x).tiles = [tl] ∧
    (t.chip.ctxSt n x).status = some (statusPayload 0 0 []) ∧ Out.qcp 0x13 n (s.chip.ctxSt n x).cmd.queue ((s.chip.sess n).txSeq + 1) x (s.chip.ctxSt n
    x).cmd.tag 2 0 (((padTo 4096 (s.chip.identify n)).take (s.chip.ctxSt n x).cmd.dlen).map (· % 256)) ∈ t.chip.sent ∧ s.MemBut t (tileAddr tl) 4096) ∧
  (∀ (n x : Nat) (s : State), s.chip.serves n x 0x02 = true → 1 ≤ (s.chip.ctxSt n x).cmd.p0 → (s.chip.ctxSt n x).cmd.p0 ≤ 15 → (s.chip.sess n).queues.testBit
    (s.chip.ctxSt n x).cmd.p0 = false → (s.chip.fetched n x).rd F.qcpStatus_queues < 512 → ∃ c : Chip, exec (.queueOpen n x) s = .next (State.allHooks
    { s with chip := c }) ∧ (c.ctxSt n x).status = some (statusPayload 0 0 []) ∧ (c.ctxSt n x).phase = .free ∧ (∀ q < 16, (c.sess n).queues.testBit q = (q ==
    (s.chip.ctxSt n x).cmd.p0 || (s.chip.sess n).queues.testBit q)) ∧ s.chip.RegsBut c (s.chip.unitOf n x ++ c.hostCounts)) ∧
  (∀ (n x : Nat) (s : State), s.chip.serves n x 0x03 = true → 1 ≤ (s.chip.ctxSt n x).cmd.p0 → (s.chip.ctxSt n x).cmd.p0 ≤ 15 → (s.chip.sess n).queues.testBit
    (s.chip.ctxSt n x).cmd.p0 = true → (s.chip.ctxSt n x).cmd.queue ≠ (s.chip.ctxSt n x).cmd.p0 → (∀ e ∈ (s.chip.sess n).ctx, e.1 ≠ x → e.2.phase = .free ∨
    e.2.phase = .retained ∨ e.2.cmd.queue ≠ (s.chip.ctxSt n x).cmd.p0) → ∃ c : Chip, exec (.queueClose n x) s = .next (State.allHooks { s with chip := c }) ∧
    (c.ctxSt n x).status = some (statusPayload 0 0 []) ∧ (c.ctxSt n x).phase = .free ∧ (∀ q < 16, (c.sess n).queues.testBit q = (q != (s.chip.ctxSt n
    x).cmd.p0 && (s.chip.sess n).queues.testBit q)) ∧ s.chip.RegsBut c (s.chip.unitOf n x ++ c.hostCounts)) ∧
  (∀ (n x : Nat) (s : State), s.chip.serves n x 0x03 = true → 1 ≤ (s.chip.ctxSt n x).cmd.p0 → (s.chip.ctxSt n x).cmd.p0 ≤ 15 → (s.chip.sess n).queues.testBit
    (s.chip.ctxSt n x).cmd.p0 = true → (s.chip.ctxSt n x).cmd.queue = (s.chip.ctxSt n x).cmd.p0 → ∃ c : Chip, exec (.queueClose n x) s = .next
    (State.allHooks { s with chip := c }) ∧ (c.ctxSt n x).status = some (statusPayload 0x0106 0 []) ∧ (c.sess n).queues = (s.chip.sess n).queues ∧
    s.chip.RegsBut c (s.chip.unitOf n x ++ c.hostCounts)) ∧
  (∀ (n x : Nat) (s : State), s.chip.serves n x 0x06 = true → s.chip.moss.op = none → s.chip.moss.discards = [] → s.chip.moss.rebuild = none → ∃ c : Chip,
    exec (.progress n x) s = .next (State.allHooks { s with chip := c }) ∧ (c.ctxSt n x).status = some (statusPayload 0 0 ([s.chip.rd F.mossProgress_op, 0,
    0, 0, 0, 0, 0, 0] ++ beBytes 8 0 ++ beBytes 8 0 ++ beBytes 2 (s.chip.rd F.mossProgress_done))) ∧ s.chip.RegsBut c (s.chip.unitOf n x ++ c.hostCounts)) ∧
  (∀ (n x : Nat) (s : State), s.chip.serves n x 0x07 = true → s.chip.liveSessions = [n] → ∃ t : State, exec (.sessionList n x) s = .next (State.allHooks t) ∧
    (t.chip.ctxSt n x).status = some (statusPayload 0 0 (if Config.entrySize 7 ≤ (s.chip.ctxSt n x).cmd.dlen then beBytes 4 1 ++ [0] else beBytes 4 0 ++
    [1])) ∧ ((t.chip.ctxSt n x).phase = .retained ∨ (t.chip.ctxSt n x).phase = .free))

/-- What ends commands and sessions (R391, R398, R421, R439, R502): SESSION_RESET and ABORT give every command they end its status and complete;
SESSION_UNFREEZE releases a frozen session,
for one that is not established it fails; CLOSE ends its own session, or any for an owner; NET_CONFIG takes
its data. -/
def Obligations.SessionsAreEndedAndReleased : Prop :=
  (∀ (n x : Nat) (s : State), s.chip.serves n x 0x04 = true → s.chip.launches = [] → s.chip.cat.restores = [] → ∃ c : Chip, exec (.sessionReset n x) s =
    .next (State.allHooks { s with chip := c }) ∧ (c.ctxSt n x).status = some (statusPayload 0 0 []) ∧ (c.ctxSt n x).phase = .free ∧ (∀ y < 4096, y ≠ x →
    (c.ctxSt n y).phase = .free) ∧ (∀ y < 4096, y ≠ x → (s.chip.ctxSt n y).phase = .waiting → (c.ctxSt n y).status = some (statusPayload 0x0801 0 [])) ∧
    (c.sess n).live = true ∧ (c.sess n).lastTag = (s.chip.sess n).lastTag ∧ (c.sess n).queues = (s.chip.sess n).queues) ∧
  (∀ (n x : Nat) (s : State), s.chip.serves n x 0x04 = true → (∀ e ∈ (s.chip.sess n).ctx, e.1 ≠ x → e.2.phase = .free) → ∃ c : Chip, exec (.sessionReset n x)
    s = .next (State.allHooks { s with chip := c }) ∧ (c.ctxSt n x).status = some (statusPayload 0 0 []) ∧ s.chip.RegsBut c (s.chip.unitOf n x ++
    c.hostCounts)) ∧
  (∀ (n x y : Nat) (s : State), s.chip.serves n x 0x05 = true → (s.chip.ctxSt n x).cmd.p0 = y → y ≠ x → (s.chip.ctxSt n y).phase = .waiting → (s.chip.ctxSt n
    y).cmd.tag = (s.chip.ctxSt n x).cmd.p1 → s.chip.launches = [] → ∃ c : Chip, exec (.abort n x) s = .next (State.allHooks { s with chip := c }) ∧ (c.ctxSt
    n x).status = some (statusPayload 0 0 []) ∧ (c.ctxSt n x).phase = .free ∧ (c.ctxSt n y).phase = .free ∧ (c.ctxSt n y).status = some (statusPayload 0x0803
    0 []) ∧ (∀ z < 4096, z ≠ x → z ≠ y → (s.chip.ctxSt n z).phase = .waiting → (c.ctxSt n z) = (s.chip.ctxSt n z))) ∧
  (∀ (n x : Nat) (s : State), s.chip.serves n x 0x05 = true → (s.chip.ctxSt n (s.chip.ctxSt n x).cmd.p0).phase = .free → ∃ c : Chip, exec (.abort n x) s =
    .next (State.allHooks { s with chip := c }) ∧ (c.ctxSt n x).status = some (statusPayload 0x0102 0 []) ∧ s.chip.RegsBut c (s.chip.unitOf n x ++
    c.hostCounts)) ∧
  (∀ (n x : Nat) (s : State), s.chip.serves n x 0x08 = true → (s.chip.sess (s.chip.ctxSt n x).cmd.p0).live = false → ∃ c : Chip, exec (.sessionUnfreeze n x)
    s = .next (State.allHooks { s with chip := c }) ∧ (c.ctxSt n x).status = some (statusPayload 0x0502 0 []) ∧ s.chip.RegsBut c (s.chip.unitOf n x ++
    c.hostCounts)) ∧
  (∀ (n x m : Nat) (s : State), s.chip.serves n x 0x08 = true → (s.chip.ctxSt n x).cmd.p0 = m → 1 ≤ m → m ≤ 256 → (s.chip.sess m).live = true → (s.chip.sess
    m).ctx = [] → s.chip.rd (F.use_frozen (m - 1)) = 1 → (∀ k ∈ s.chip.liveSessions, 1 ≤ k ∧ k ≤ 256) → ∃ c : Chip, exec (.sessionUnfreeze n x) s = .next
    (State.allHooks { s with chip := c }) ∧ (c.ctxSt n x).status = some (statusPayload 0 0 []) ∧ c.rd (F.use_frozen (m - 1)) = 0 ∧ c.rd (F.mst_frozen (79 +
    m)) = 0 ∧ (c.sess m).dataBreach = 0 ∧ (c.sess m).replayBreach = 0 ∧ (c.sess m).capBreach = 0 ∧ s.chip.RegsBut c (F.use_frozen (m - 1) :: F.mst_frozen (79
    + m) :: s.chip.unitOf n x ++ c.hostCounts)) ∧
  (∀ (n seq port peer : Nat) (s : State), (s.chip.sess n).live = true → (s.chip.sess n).high < seq → seq ∉ (s.chip.sess n).seen → (s.chip.sess n).ctx = [] →
    s.chip.rd F.trust_holder ≠ n → (s.chip.sess n).bootstrap = false → ∃ c : Chip, exec (.close n seq true port peer n) s = .next { s with chip := c } ∧
    c.sess n = default ∧ tabGet c.ev.subs (n - 1) = none ∧ Out.qcp 0x3F n 0 ((s.chip.sess n).txSeq + 1) 0 0 0 0 (beBytes 2 0) ∈ c.sent ∧ c.rd (F.use_frozen
    (n - 1)) = 0 ∧ (∀ m ≤ 256, m ≠ n → c.sess m = s.chip.sess m) ∧ s.chip.RegsBut c (F.use_frozen (n - 1) :: F.use_moss (n - 1) :: F.use_contexts (n - 1) ::
    F.use_over (n - 1) :: c.hostCounts)) ∧
  (∀ (n seq port peer target : Nat) (s : State), (s.chip.sess n).live = true → (s.chip.sess n).high < seq → seq ∉ (s.chip.sess n).seen → target ≠ n →
    (s.chip.sess n).isOwner = false → ∃ c : Chip, exec (.close n seq true port peer target) s = .next { s with chip := c } ∧ (∀ m ≤ 256, (c.sess m).live =
    (s.chip.sess m).live) ∧ c.sent = s.chip.sent ∧ s.chip.RegsBut c []) ∧
  (∀ (n x : Nat) (s : State), s.chip.serves n x 0x09 = true → (s.chip.ctxSt n x).cmd.cflags.testBit 0 = true ∨ ((s.chip.ctxSt n x).cmd.p0 < 8 ∧ s.chip.rd
    (F.hostPort_exists (s.chip.ctxSt n x).cmd.p0) = 1) → (∀ k ∈ s.chip.liveSessions, k ≤ 256) → ∃ c : Chip, exec (.netConfig n x) s = .next (State.allHooks
    { s with chip := c }) ∧ (c.ctxSt n x).phase = .active ∧ (c.ctxSt n x).wait = .dataOut ∧ s.chip.RegsBut c c.hostCounts)

/-- Button and seal presence (R484 to R489): a release after a press opens the window unclaimed, a press or its end closes it, a claim takes it once; four
differing samples open
the seal loop, blow a fuse and grant presence, a full counter or a fuse that does not read back grants none; 64 matching samples
close it, 120 s later it ends. -/
def Obligations.PresenceOpensAndCloses : Prop :=
  (∀ s : State, s.chip.rd F.trust_window_open = 1 → ∃ c : Chip, exec .presencePress s = .next { s with chip := c } ∧ c.trust.pressed = true ∧
    c.trust.released = none ∧ c.rd F.trust_window_open = 0 ∧ c.rd F.trust_window_held = 0 ∧ c.rd F.trust_holder = 0 ∧ c.rd (F.evCnt_count 541) = min
    (s.chip.rd (F.evCnt_count 541) + 1) (2 ^ 32 - 1) ∧ s.chip.RegsBut c [F.trust_window_open, F.trust_window_held, F.trust_holder]) ∧
  (∀ s : State, s.chip.rd F.trust_window_open = 0 → ∃ c : Chip, exec .presencePress s = .next { s with chip := c } ∧ c.trust.pressed = true ∧
    c.trust.released = s.chip.trust.released ∧ s.chip.RegsBut c []) ∧
  (∀ s : State, s.chip.trust.pressed = true → ∃ c : Chip, exec .presenceRelease s = .next { s with chip := c } ∧ c.trust.pressed = false ∧ c.trust.released =
    some s.chip.keeper ∧ c.rd F.trust_window_open = 1 ∧ c.rd F.trust_window_held = 0 ∧ c.rd F.trust_holder = 0 ∧ c.rd (F.evCnt_count 539) = min (s.chip.rd
    (F.evCnt_count 539) + 1) (2 ^ 32 - 1) ∧ s.chip.RegsBut c [F.trust_window_open, F.trust_window_held, F.trust_holder]) ∧
  (∀ s : State, s.chip.trust.pressed = false → exec .presenceRelease s = .next s) ∧
  (∀ (t0 : Nat) (s : State), s.chip.rd F.trust_window_open = 1 → s.chip.trust.released = some t0 → t0 + 120 * 10 ^ 9 ≤ s.chip.keeper → ∃ c : Chip, exec
    .presenceWindowExpiry s = .next { s with chip := c } ∧ c.rd F.trust_window_open = 0 ∧ c.rd F.trust_holder = 0 ∧ c.rd (F.evCnt_count 541) = min (s.chip.rd
    (F.evCnt_count 541) + 1) (2 ^ 32 - 1) ∧ s.chip.RegsBut c [F.trust_window_open, F.trust_window_held, F.trust_holder]) ∧
  (∀ (t0 : Nat) (s : State), s.chip.rd F.trust_window_open = 0 ∨ (s.chip.trust.released = some t0 ∧ s.chip.keeper < t0 + 120 * 10 ^ 9) → exec
    .presenceWindowExpiry s = .next s) ∧
  (∀ (n x : Nat) (s : State), s.chip.serves n x 0xC4 = true → s.chip.windowOpen = true → s.chip.rd F.trust_window_held = 0 → n < 512 → ∃ c : Chip, exec
    (.presenceClaim n x) s = .next (State.allHooks { s with chip := c }) ∧ c.rd F.trust_window_held = 1 ∧ c.rd F.trust_holder = n ∧ (c.ctxSt n x).status =
    some (statusPayload 0 0 []) ∧ c.rd (F.evCnt_count 540) = min (s.chip.rd (F.evCnt_count 540) + 1) (2 ^ 32 - 1) ∧ s.chip.RegsBut c ([F.trust_window_held,
    F.trust_holder] ++ s.chip.unitOf n x ++ c.hostCounts)) ∧
  (∀ (n x : Nat) (s : State), s.chip.serves n x 0xC4 = true → s.chip.windowOpen = false → ∃ c : Chip, exec (.presenceClaim n x) s = .next (State.allHooks
    { s with chip := c }) ∧ (c.ctxSt n x).status = some (statusPayload 0x0301 0 []) ∧ s.chip.RegsBut c (s.chip.unitOf n x ++ c.hostCounts)) ∧
  (∀ (n x : Nat) (s : State), s.chip.serves n x 0xC4 = true → s.chip.windowOpen = true → s.chip.rd F.trust_window_held = 1 → s.chip.rd F.trust_holder ≠ n → ∃
    c : Chip, exec (.presenceClaim n x) s = .next (State.allHooks { s with chip := c }) ∧ (c.ctxSt n x).status = some (statusPayload 0x0308 0 []) ∧
    s.chip.RegsBut c (s.chip.unitOf n x ++ c.hostCounts)) ∧
  (∀ s : State, s.chip.trust.sealDiff = 3 → s.chip.rd F.trust_seal_open = 0 → s.chip.rd F.otp_seals < 1024 → ∃ c : Chip, exec (.sealSample false true) s =
    .next { s with chip := c } ∧ c.rd F.trust_seal_open = 1 ∧ c.rd F.otp_seals = s.chip.rd F.otp_seals + 1 ∧ c.rd F.trust_seal_presence = 1 ∧
    c.trust.sealBound = 0 ∧ c.trust.sealClosedAt = none ∧ c.rd (F.evCnt_count 542) = min (s.chip.rd (F.evCnt_count 542) + 1) (2 ^ 32 - 1) ∧ s.chip.RegsBut c
    [F.trust_seal_open, F.otp_seals, F.trust_seal_presence]) ∧
  (∀ (fuseOk : Bool) (s : State), s.chip.trust.sealDiff = 3 → s.chip.rd F.trust_seal_open = 0 → s.chip.rd F.trust_seal_exhausted = 0 → 1024 ≤ s.chip.rd
    F.otp_seals ∨ fuseOk = false → ∃ c : Chip, exec (.sealSample false fuseOk) s = .next { s with chip := c } ∧ c.rd F.trust_seal_open = 1 ∧ c.rd
    F.trust_seal_exhausted = 1 ∧ c.rd F.trust_seal_presence = s.chip.rd F.trust_seal_presence ∧ c.rd (F.evCnt_count 543) = min (s.chip.rd (F.evCnt_count 543)
    + 1) (2 ^ 32 - 1) ∧ s.chip.RegsBut c [F.trust_seal_open, F.trust_seal_exhausted]) ∧
  (∀ (fuseOk : Bool) (s : State), s.chip.trust.sealSame = 63 → s.chip.rd F.trust_seal_open = 1 → s.chip.rd F.trust_seal_presence = 1 → ∃ c : Chip, exec
    (.sealSample true fuseOk) s = .next { s with chip := c } ∧ c.rd F.trust_seal_open = 0 ∧ c.trust.sealClosedAt = some s.chip.keeper ∧ c.trust.sealDiff = 0
    ∧ s.chip.RegsBut c [F.trust_seal_open]) ∧
  (∀ (m fuseOk : Bool) (s : State), s.chip.trust.sealSame < 63 → s.chip.trust.sealDiff < 3 → ∃ c : Chip, exec (.sealSample m fuseOk) s = .next
    { s with chip := c } ∧ c.trust.sealSame = (if m = true then s.chip.trust.sealSame + 1 else 0) ∧ c.trust.sealDiff = (if m = true then 0 else
    s.chip.trust.sealDiff + 1) ∧ s.chip.RegsBut c []) ∧
  (∀ (t0 : Nat) (s : State), s.chip.trust.sealClosedAt = some t0 → t0 + 120 * 10 ^ 9 ≤ s.chip.keeper → ∃ c : Chip, exec .sealPresenceExpiry s = .next
    { s with chip := c } ∧ c.rd F.trust_seal_presence = 0 ∧ c.trust.sealBound = 0 ∧ c.trust.sealClosedAt = none ∧ s.chip.RegsBut c [F.trust_seal_presence]) ∧
  (∀ (t0 : Nat) (s : State), s.chip.trust.sealClosedAt = none ∨ (s.chip.trust.sealClosedAt = some t0 ∧ s.chip.keeper < t0 + 120 * 10 ^ 9) → exec
    .sealPresenceExpiry s = .next s)

/-- Credentials and the key root (R415, R476, R479 to R483, R487, R489): enrolments and transfers take their data; a credential is removed with its sessions,
never the last owner; a reset of the
key root blows a fuse, removes every credential, leaves the group and unmounts the pool, and disposes of the package
when asked to or at the last fuse. -/
def Obligations.CredentialsAndKeyRootChange : Prop :=
  (∀ (n x : Nat) (s : State), s.chip.serves n x 0xC5 = true → ∃ c : Chip, exec (.ownerEnrol n x) s = .next (State.allHooks { s with chip := c }) ∧ (c.ctxSt n
    x).phase = .active ∧ (c.ctxSt n x).wait = .dataOut ∧ c.trust = s.chip.trust ∧ s.chip.RegsBut c c.hostCounts) ∧
  (∀ (n x : Nat) (s : State), s.chip.serves n x 0xC6 = true → (s.chip.ctxSt n x).cmd.p0 < 256 → ∃ c : Chip, exec (.credEnrol n x) s = .next (State.allHooks
    { s with chip := c }) ∧ (c.ctxSt n x).phase = .active ∧ (c.ctxSt n x).wait = .dataOut ∧ c.trust = s.chip.trust ∧ s.chip.RegsBut c c.hostCounts) ∧
  (∀ (n x : Nat) (s : State), s.chip.serves n x 0xC6 = true → 256 ≤ (s.chip.ctxSt n x).cmd.p0 → ∃ c : Chip, exec (.credEnrol n x) s = .next (State.allHooks
    { s with chip := c }) ∧ (c.ctxSt n x).status = some (statusPayload 0x0102 0 []) ∧ s.chip.RegsBut c (s.chip.unitOf n x ++ c.hostCounts)) ∧
  (∀ (n x : Nat) (s : State), s.chip.serves n x 0xCB = true → ∃ c : Chip, exec (.ownerTransfer n x) s = .next (State.allHooks { s with chip := c }) ∧
    (c.ctxSt n x).phase = .active ∧ (c.ctxSt n x).wait = .dataOut ∧ c.trust.sealBound = n ∧ c.trust.creds = s.chip.trust.creds ∧ s.chip.RegsBut c
    c.hostCounts) ∧
  (∀ (n x id : Nat) (e : CredRec) (s : State), s.chip.serves n x 0xC7 = true → id = (s.chip.ctxSt n x).cmd.p0 * 2 ^ 64 + (s.chip.ctxSt n x).cmd.p1 →
    s.chip.trust.creds.find? (fun k => k.id == id) = some e → e.rights.testBit 8 = false ∨ s.chip.owners ≠ 1 → (∀ m ∈ s.chip.liveSessions, m ≤ 256 ∧
    (s.chip.sess m).cred ≠ id) → ∃ c : Chip, exec (.credRevoke n x) s = .next (State.allHooks { s with chip := c }) ∧ (c.ctxSt n x).status = some
    (statusPayload 0 0 []) ∧ c.trust.creds = s.chip.trust.creds.filter (fun k => k.id != id) ∧ c.rd F.trust_owned = (if c.owners = 0 then 0 else 1) ∧
    s.chip.RegsBut c (F.trust_owned :: s.chip.unitOf n x ++ c.hostCounts)) ∧
  (∀ (n x id : Nat) (e : CredRec) (s : State), s.chip.serves n x 0xC7 = true → id = (s.chip.ctxSt n x).cmd.p0 * 2 ^ 64 + (s.chip.ctxSt n x).cmd.p1 →
    s.chip.trust.creds.find? (fun k => k.id == id) = some e → e.rights.testBit 8 = true → s.chip.owners = 1 → ∃ c : Chip, exec (.credRevoke n x) s = .next
    (State.allHooks { s with chip := c }) ∧ (c.ctxSt n x).status = some (statusPayload 0x0102 0 []) ∧ c.trust = s.chip.trust ∧ s.chip.RegsBut c
    (s.chip.unitOf n x ++ c.hostCounts)) ∧
  (∀ (n x : Nat) (s : State), s.chip.serves n x 0xC7 = true → s.chip.trust.creds.find? (fun k => k.id == (s.chip.ctxSt n x).cmd.p0 * 2 ^ 64 + (s.chip.ctxSt n
    x).cmd.p1) = none → ∃ c : Chip, exec (.credRevoke n x) s = .next (State.allHooks { s with chip := c }) ∧ (c.ctxSt n x).status = some (statusPayload
    0x0502 0 []) ∧ c.trust = s.chip.trust ∧ s.chip.RegsBut c (s.chip.unitOf n x ++ c.hostCounts)) ∧
  (∀ (n x : Nat) (s : State), s.chip.serves n x 0xCC = true → (∀ m ∈ s.chip.liveSessions, m ≤ 256) → ∃ c : Chip, exec (.keyrootReset n x) s = .next
    (State.allHooks { s with chip := c }) ∧ (c.ctxSt n x).status = some (statusPayload 0 0 []) ∧ c.rd F.otp_epoch = min 63 (s.chip.rd F.otp_epoch + 1) ∧
    c.trust.creds = [] ∧ c.rd F.trust_owned = 0 ∧ c.rd F.trust_member = 0 ∧ c.trust.root = 0 ∧ c.trust.share = 0 ∧ c.rd F.mossStatus_mounted = 0 ∧ c.rd
    F.trust_disposed = (if (s.chip.ctxSt n x).cmd.cflags.testBit 0 = true ∨ 62 ≤ s.chip.rd F.otp_epoch ∨ s.chip.rd F.trust_disposed = 1 then 1 else 0) ∧ c.rd
    (F.evCnt_count 546) = min (s.chip.rd (F.evCnt_count 546) + 1) (2 ^ 32 - 1) ∧ s.chip.RegsBut c ([F.otp_epoch, F.trust_owned, F.trust_member,
    F.trust_disposed, F.group_seat, F.group_k, F.group_n, F.mossStatus_mounted] ++ s.chip.unitOf n x ++ c.hostCounts))

/-- Key continuity groups and firmware (R415, R437, R438, R467 to R472, R491 to R496): the commands take their data; a seat taken makes the package a member
with the group's key root; an
activation starts the staged image and pauses, its report or its end gives the command its status; the anti-rollback
counter only rises; ATTEST answers the signed report. -/
def Obligations.GroupsAndFirmwareStart : Prop :=
  (∀ (n x : Nat) (s : State), s.chip.serves n x 0xCD = true → 0 < (s.chip.ctxSt n x).cmd.dlen → ∃ c : Chip, exec (.kcgForm n x) s = .next (State.allHooks
    { s with chip := c }) ∧ (c.ctxSt n x).phase = .active ∧ (c.ctxSt n x).wait = .dataOut ∧ c.trust.sealBound = n ∧ c.trust.root = s.chip.trust.root ∧
    s.chip.RegsBut c c.hostCounts) ∧
  (∀ (n x kind : Nat) (s : State), s.chip.serves n x 0xCE = true → 0 < (s.chip.ctxSt n x).cmd.dlen → ∃ c : Chip, s.join n x kind = .next (State.allHooks
    { s with chip := c }) ∧ (c.ctxSt n x).phase = .active ∧ (c.ctxSt n x).wait = .dataOut ∧ c.trust.sealBound = n ∧ exec (.kcgJoinTakeSeat n x) s = s.join n
    x 1 ∧ exec (.kcgJoinRelease n x) s = s.join n x 2 ∧ exec (.kcgJoinAdmit n x) s = s.join n x 3 ∧ s.chip.RegsBut c c.hostCounts) ∧
  (∀ (n x tl : Nat) (s : State), s.tileGood tl = true → (s.chip.ctxSt n x).phase = .active → (s.chip.ctxSt n x).cmd.opcode = 0xCE → (s.chip.ctxSt n x).wait =
    .activity → (s.chip.ctxSt n x).tiles = [tl] → s.joinNamed n x = 1 → s.chip.rd F.trust_member = 1 ∨ s.chip.cat.objects ≠ [] → ∃ c : Chip, exec
    (.kcgJoinTakeSeat n x) s = .next { s with chip := c } ∧ (c.ctxSt n x).status = some (statusPayload 0x0102 0 []) ∧ c.trust = s.chip.trust ∧ s.chip.RegsBut
    c (s.chip.unitOf n x ++ c.hostCounts)) ∧
  (∀ (n x tl : Nat) (bs : List Nat) (s : State), s.tileGood tl = true → s.tilesRange [tl] 0 (s.chip.ctxSt n x).cmd.dlen = bs → (s.chip.ctxSt n x).phase =
    .active → (s.chip.ctxSt n x).cmd.opcode = 0xCE → (s.chip.ctxSt n x).wait = .activity → (s.chip.ctxSt n x).tiles = [tl] → s.joinNamed n x = 1 → (∀ m ∈
    s.chip.liveSessions, m ≤ 256) → s.chip.mayJoin = true → ∃ c : Chip, exec (.kcgJoinTakeSeat n x) s = .next { s with chip := c } ∧ (c.ctxSt n x).status =
    some (statusPayload (if (s.chip.openRecord (bs.drop 4)).any (fun r => r.kind == 1) then 0 else 0x0102) 0 []) ∧ (∀ r : GroupRec, s.chip.openRecord
    (bs.drop 4) = some r → r.kind = 1 → r.seat < 32 → r.k < 32 → r.n < 32 → c.rd F.trust_member = 1 ∧ c.rd F.group_seat = r.seat ∧ c.rd F.group_k = r.k ∧
    c.rd F.group_n = r.n ∧ c.trust.root = beNat (r.payload.take 48) ∧ c.trust.share = beNat (r.payload.drop 48) ∧ c.rd F.mossStatus_mounted = 0) ∧
    s.chip.RegsBut c ([F.trust_member, F.group_seat, F.group_k, F.group_n, F.mossStatus_mounted] ++ s.chip.unitOf n x ++ c.hostCounts)) ∧
  (∀ (n x tl : Nat) (bs : List Nat) (s : State), s.tileGood tl = true → s.tilesRange [tl] 0 (s.chip.ctxSt n x).cmd.dlen = bs → (s.chip.ctxSt n x).phase =
    .active → (s.chip.ctxSt n x).cmd.opcode = 0xCE → (s.chip.ctxSt n x).wait = .activity → (s.chip.ctxSt n x).tiles = [tl] → s.joinNamed n x = 2 → (∀ m ∈
    s.chip.liveSessions, m ≤ 256) → ∃ c : Chip, exec (.kcgJoinRelease n x) s = .next { s with chip := c } ∧ (c.ctxSt n x).status = some ((s.chip.joinRelease
    (bs.drop 4)).elim (statusPayload 0x0102 0 []) fun r => statusPayload 0 0 r.1) ∧ (∀ r : List Nat × Chip, s.chip.joinRelease (bs.drop 4) = some r →
    s.chip.rd F.trust_member = 1 ∧ 1 ≤ fieldNat bs 4 1 ∧ fieldNat bs 4 1 ≤ s.chip.rd F.group_n ∧ r.1.length = 304) ∧ c.trust = s.chip.trust ∧ s.chip.RegsBut
    c (s.chip.unitOf n x ++ c.hostCounts)) ∧
  (∀ (n x tl : Nat) (bs : List Nat) (s : State), s.tileGood tl = true → s.tilesRange [tl] 0 (s.chip.ctxSt n x).cmd.dlen = bs → (s.chip.ctxSt n x).phase =
    .active → (s.chip.ctxSt n x).cmd.opcode = 0xCE → (s.chip.ctxSt n x).wait = .activity → (s.chip.ctxSt n x).tiles = [tl] → s.joinNamed n x = 3 → (∀ m ∈
    s.chip.liveSessions, m ≤ 256) → ∃ c : Chip, exec (.kcgJoinAdmit n x) s = .next { s with chip := c } ∧ (c.ctxSt n x).status = some (statusPayload (if
    (s.chip.joinAdmit (bs.drop 4)).isSome then 0 else 0x0102) 0 []) ∧ ((s.chip.joinAdmit (bs.drop 4)).isSome = true → c.rd F.trust_member = 1 ∧ c.rd
    F.mossStatus_mounted = 0 ∧ c.trust.groupId = groupIdOf (joinShares (((chunks 304 ((bs.drop 4).length / 304 + 1) (bs.drop 4)).filterMap
    s.chip.openRecord).map fun e => (e.sender, e.payload.take 48)) 0)) ∧ ((s.chip.joinAdmit (bs.drop 4)).isSome = false → c.trust = s.chip.trust) ∧
    s.chip.RegsBut c ([F.trust_member, F.group_seat, F.group_k, F.group_n, F.mossStatus_mounted] ++ s.chip.unitOf n x ++ c.hostCounts)) ∧
  (∀ (n x kind : Nat) (s : State), (s.chip.ctxSt n x).phase = .active → (s.chip.ctxSt n x).cmd.opcode = 0xCE → (s.chip.ctxSt n x).wait = .activity →
    s.joinNamed n x ≠ kind → s.join n x kind = .next s) ∧
  (∀ (n x : Nat) (s : State), s.chip.serves n x 0xC0 = true → 0 < (s.chip.ctxSt n x).cmd.dlen → s.chip.contexts (fun k => k.phase == .active && k.cmd.opcode
    == 0xC0) = [] → ∃ c : Chip, exec (.fwStage n x) s = .next (State.allHooks { s with chip := c }) ∧ (c.ctxSt n x).phase = .active ∧ (c.ctxSt n x).wait =
    .dataOut ∧ c.trust = s.chip.trust ∧ s.chip.RegsBut c c.hostCounts) ∧
  (∀ (n x m y : Nat) (s : State), s.chip.serves n x 0xC0 = true → (m, y) ≠ (n, x) → (m, y) ∈ s.chip.contexts (fun k => k.phase == .active && k.cmd.opcode ==
    0xC0) → ∃ c : Chip, exec (.fwStage n x) s = .next (State.allHooks { s with chip := c }) ∧ (c.ctxSt n x).status = some (statusPayload 0x0106 0 []) ∧
    c.trust = s.chip.trust ∧ s.chip.RegsBut c (s.chip.unitOf n x ++ c.hostCounts)) ∧
  (∀ (n x : Nat) (s : State), s.chip.serves n x 0xC1 = true → s.chip.trust.staged = none → ∃ c : Chip, exec (.fwActivate n x) s = .next (State.allHooks
    { s with chip := c }) ∧ (c.ctxSt n x).status = some (statusPayload 0 0 []) ∧ c.trust = s.chip.trust ∧ s.chip.RegsBut c (s.chip.unitOf n x ++
    c.hostCounts)) ∧
  (∀ (n x slot : Nat) (s : State), s.chip.serves n x 0xC1 = true → s.chip.trust.staged = some slot → s.chip.imageValid 0 (tabGet s.chip.trust.images (2 +
    slot)) = true → (∀ d < 24, s.chip.rd (F.hlinkStatus_state d) ≠ 5) → (∀ m ∈ s.chip.liveSessions, m ≤ 256) → ∃ c : Chip, exec (.fwActivate n x) s = .next
    (State.allHooks { s with chip := c }) ∧ (c.ctxSt n x).phase = .active ∧ (c.ctxSt n x).wait = .activity ∧ c.trust.act = some ⟨s.chip.now, n, x, slot, []⟩
    ∧ c.trust.staged = none ∧ c.paused = true ∧ s.chip.RegsBut c c.hostCounts) ∧
  (∀ (a : Activation) (s : State), s.chip.trust.act = some a → a.hellos = [] → s.chip.now ≤ a.since + 170 * 10 ^ 6 → (s.chip.ctxSt a.session a.ctx).phase =
    .active → (s.chip.ctxSt a.session a.ctx).cmd.opcode = 0xC1 → (tabGet s.chip.trust.images (2 + a.slot) : ImageRec).rollback ≤ s.chip.rd F.otp_rollback →
    (∀ m ∈ s.chip.liveSessions, m ≤ 256) → ∃ c : Chip, exec .fwReady s = .next { s with chip := c } ∧ c.trust.act = none ∧ c.trust.appSlot = a.slot ∧
    c.power.app = true ∧ (c.ctxSt a.session a.ctx).status = some (statusPayload 0 0 []) ∧ s.chip.RegsBut c (s.chip.unitOf a.session a.ctx ++ c.hostCounts)) ∧
  (∀ (a : Activation) (s : State), s.chip.trust.act = some a → a.since + 170 * 10 ^ 6 < s.chip.now → exec .fwReady s = .next s) ∧
  (∀ (v : Nat) (s : State), s.chip.trust.act = none → s.chip.power.app = true → s.chip.appImage.rollback = v → s.chip.rd F.otp_rollback < v → v ≤ 1024 → ∃ c
    : Chip, exec .fwReady s = .next { s with chip := c } ∧ c.rd F.otp_rollback = v ∧ c.rd (F.evCnt_count 545) = min (s.chip.rd (F.evCnt_count 545) + 1) (2 ^
    32 - 1) ∧ s.chip.RegsBut c [F.otp_rollback]) ∧
  (∀ s : State, s.chip.trust.act = none → s.chip.power.app = false → exec .fwReady s = .next s) ∧
  (∀ (a : Activation) (s : State), s.chip.trust.act = some a → a.hellos = [] → (s.chip.ctxSt a.session a.ctx).phase = .active → (s.chip.ctxSt a.session
    a.ctx).cmd.opcode = 0xC1 → a.since + 170 * 10 ^ 6 ≤ s.chip.now → ∃ c : Chip, exec .fwActivateTimeout s = .next { s with chip := c } ∧ c.trust.act = none
    ∧ c.trust.appSlot = s.chip.trust.appSlot ∧ (c.ctxSt a.session a.ctx).status = some (statusPayload 0x0309 0 []) ∧ s.chip.RegsBut c (s.chip.unitOf
    a.session a.ctx ++ c.hostCounts)) ∧
  (∀ s : State, s.chip.trust.act = none ∨ (∃ a ∈ s.chip.trust.act, s.chip.now < a.since + 170 * 10 ^ 6) → exec .fwActivateTimeout s = .next s) ∧
  (∀ (n x : Nat) (s : State), s.chip.serves n x 0xC8 = true → (∀ m ∈ s.chip.liveSessions, m ≤ 256) → ∃ c : Chip, exec (.attest n x) s = .next (State.allHooks
    { s with chip := c }) ∧ (c.ctxSt n x).status = some (statusPayload 0 0 (s.chip.report (s.chip.ctxSt n x).cmd ++ beBytes 2 Config.certificate.length ++
    Config.certificate)) ∧ c.trust = s.chip.trust ∧ s.chip.RegsBut c (s.chip.unitOf n x ++ c.hostCounts))

/-- Management accesses (R11, R12, R16, R17, R435, R574 to R577, R579 to R582, R595): a write stores RW fields, clears the W1C bits written 1 and leaves RO
fields; a word without a register ignores it; a refused address is not accessed; a read gives the value and, from REG_READ, clears RC fields; over I2C,
each word least significant byte first, a read leaves them, a locked write to a writable word is counted and an unlocked one performed; the recovery
block erases and programs a keeper slot. -/
def Obligations.RegistersAreReadAndWritten : Prop :=
  (∀ (v : Nat) (s : State), ∃ c : Chip, exec (.registerWrite 0x50400000 [v]) s = .next { s with chip := c } ∧ c.rd F.hostCfg_mode = v % 4 ∧ c.rd
    F.hostCfg_fec_en = v / 4 % 2 ∧ c.rd F.hostCfg_udp_port = v / 2 ^ 16 % 2 ^ 16 ∧ c.sent = s.chip.sent ∧ s.chip.RegsBut c [F.hostCfg_mode, F.hostCfg_fec_en,
    F.hostCfg_udp_port]) ∧
  (∀ (v : Nat) (s : State), ∃ c : Chip, exec (.registerWrite 0x50000000 [v]) s = .next { s with chip := c } ∧ (v.testBit 14 = true → c.rd F.chain_mismatch =
    0) ∧ (v.testBit 14 = false → c.rd F.chain_mismatch % 2 = s.chip.rd F.chain_mismatch % 2) ∧ s.chip.RegsBut c [F.chain_mismatch]) ∧
  (∀ (v : Nat) (s : State), exec (.registerWrite 0x50F03000 [v]) s = .next s) ∧
  (∀ (a v : Nat) (s : State), addressOk a = false → exec (.registerWrite a [v]) s = .next s) ∧
  (∀ (d v g : Nat) (s : State), d < 24 → g = max 1000 (min 12000 (v / 2 ^ 16 % 2 ^ 16)) → v % 8 = 1 → exec (.registerWrite (F.spinReq_op d).addr [v]) s =
    exec (.spindleStart d g) { s with chip := (s.chip.wr (F.spinReq_op d) 1).wr (F.spinReq_target d) g }) ∧
  (∀ (d v g : Nat) (s : State), d < 24 → g = max 1000 (min 12000 (v / 2 ^ 16 % 2 ^ 16)) → v % 8 = 2 → exec (.registerWrite (F.spinReq_op d).addr [v]) s =
    exec (.spindleStop d) { s with chip := (s.chip.wr (F.spinReq_op d) 2).wr (F.spinReq_target d) g }) ∧
  (∀ (n x : Nat) (s : State), s.chip.serves n x 0xA0 = true → (s.chip.ctxSt n x).cmd.p0 = 0x50400000 → (s.chip.ctxSt n x).cmd.p1 = 1 → (∀ m ∈
    s.chip.liveSessions, m ≤ 256) → ∃ c : Chip, exec (.regRead n x) s = .next (State.allHooks { s with chip := c }) ∧ (c.ctxSt n x).status = some
    (statusPayload 0 0 (beBytes 4 (s.chip.rd F.hostCfg_mode + s.chip.rd F.hostCfg_fec_en * 4 + s.chip.rd F.hostCfg_udp_port * 2 ^ 16))) ∧ s.chip.RegsBut c
    (s.chip.unitOf n x ++ c.hostCounts)) ∧
  (∀ (n x p : Nat) (s : State), s.chip.serves n x 0xA0 = true → p < 8 → (s.chip.ctxSt n x).cmd.p0 = 0x50400004 + 4 * p → (s.chip.ctxSt n x).cmd.p1 = 1 → (∀ m
    ∈ s.chip.liveSessions, m ≤ 256) → ∃ c : Chip, exec (.regRead n x) s = .next (State.allHooks { s with chip := c }) ∧ c.rd (F.hostPort_drops p) = 0 ∧
    (c.ctxSt n x).status = some (statusPayload 0 0 (beBytes 4 (s.chip.rd (F.hostPort_exists p) + s.chip.rd (F.hostPort_up p) * 2 + s.chip.rd (F.hostPort_fec
    p) * 4 + s.chip.rd (F.hostPort_lpi p) * 8 + s.chip.rd (F.hostPort_drops p) * 65536))) ∧ s.chip.RegsBut c (F.hostPort_drops p :: s.chip.unitOf n x ++
    c.hostCounts)) ∧
  (∀ (n x : Nat) (s : State), s.chip.serves n x 0xA0 = true → (s.chip.ctxSt n x).cmd.p1 < 1 ∨ 64 < (s.chip.ctxSt n x).cmd.p1 ∨ (s.chip.ctxSt n x).cmd.p0 % 4
    ≠ 0 → ∃ c : Chip, exec (.regRead n x) s = .next (State.allHooks { s with chip := c }) ∧ (c.ctxSt n x).status = some (statusPayload 0x0102 0 []) ∧
    s.chip.RegsBut c (s.chip.unitOf n x ++ c.hostCounts)) ∧
  (∀ (n x : Nat) (s : State), s.chip.serves n x 0xA0 = true → (s.chip.ctxSt n x).cmd.p1 = 1 → (s.chip.ctxSt n x).cmd.p0 % 4 = 0 → addressOk (s.chip.ctxSt n
    x).cmd.p0 = false → ∃ c : Chip, exec (.regRead n x) s = .next (State.allHooks { s with chip := c }) ∧ (c.ctxSt n x).status = some (statusPayload 0x0103 0
    []) ∧ s.chip.RegsBut c (s.chip.unitOf n x ++ c.hostCounts)) ∧
  (∀ (n x : Nat) (s : State), s.chip.serves n x 0xA0 = true → (s.chip.ctxSt n x).cmd.p1 = 1 → (s.chip.ctxSt n x).cmd.p0 % 4 = 0 → addressOk (s.chip.ctxSt n
    x).cmd.p0 = true → findReg (s.chip.ctxSt n x).cmd.p0 = none → (∀ m ∈ s.chip.liveSessions, m ≤ 256) → ∃ c : Chip, exec (.regRead n x) s = .next
    (State.allHooks { s with chip := c }) ∧ (c.ctxSt n x).status = some (statusPayload 0 0 [0, 0, 0, 0]) ∧ s.chip.RegsBut c (s.chip.unitOf n x ++
    c.hostCounts)) ∧
  (∀ (n x : Nat) (s : State), s.chip.serves n x 0xA1 = true → 1 ≤ (s.chip.ctxSt n x).cmd.p1 → (s.chip.ctxSt n x).cmd.p1 ≤ 16 → (s.chip.ctxSt n x).cmd.dlen =
    4 * (s.chip.ctxSt n x).cmd.p1 → (s.chip.ctxSt n x).cmd.p0 % 4 = 0 → (∀ i < (s.chip.ctxSt n x).cmd.p1, addressOk ((s.chip.ctxSt n x).cmd.p0 + 4 * i) =
    true) → ∃ c : Chip, exec (.regWrite n x) s = .next (State.allHooks { s with chip := c }) ∧ (c.ctxSt n x).phase = .active ∧ (c.ctxSt n x).wait = .dataOut
    ∧ s.chip.RegsBut c c.hostCounts) ∧
  (∀ (p : Nat) (s : State), p < 8 → ∃ c : Chip, exec (.i2cRead (0x50400004 + 4 * p) 4) s = .next { s with chip := c } ∧ c.sent = s.chip.sent ++ [Out.i2cData
    (leBytes 4 ((s.chip.rd (F.hostPort_exists p) + s.chip.rd (F.hostPort_up p) * 2 + s.chip.rd (F.hostPort_fec p) * 4 + s.chip.rd (F.hostPort_lpi p) * 8 +
    s.chip.rd (F.hostPort_drops p) * 65536) % 2 ^ 32))] ∧ s.chip.RegsBut c []) ∧
  (∀ (a n : Nat) (bs : List Nat) (s : State), addressOk a = false → exec (.i2cRead a n) s = .next { s with chip := s.chip.emit .i2cNack } ∧ exec (.i2cWrite a
    bs) s = .next { s with chip := s.chip.emit .i2cNack }) ∧
  (∀ (a v : Nat) (s : State), addressOk a = true → findReg a = none → exec (.registerWrite a [v]) s = .next s ∧ exec (.i2cRead a 4) s = .next
    { s with chip := s.chip.emit (.i2cData [0, 0, 0, 0]) } ∧ exec (.i2cWrite a (leBytes 4 v)) s = .next s) ∧
  (∀ (v : Nat) (s : State), s.chip.rd F.trust_debug_unlocked = 0 → ∃ c : Chip, exec (.i2cWrite 0x50400000 (leBytes 4 v)) s = .next { s with chip := c } ∧
    c.rd F.i2c_refused = min (s.chip.rd F.i2c_refused + 1) (2 ^ 16 - 1) ∧ s.chip.RegsBut c [F.i2c_refused]) ∧
  (∀ (v : Nat) (s : State), s.chip.rd F.trust_debug_unlocked = 0 → ∃ c : Chip, exec (.i2cWrite 0x50000000 (leBytes 4 v)) s = .next { s with chip := c } ∧
    (v.testBit 14 = true → c.rd F.chain_mismatch = 0) ∧ (v.testBit 14 = false → c.rd F.chain_mismatch % 2 = s.chip.rd F.chain_mismatch % 2) ∧ s.chip.RegsBut
    c [F.chain_mismatch]) ∧
  (∀ (v : Nat) (rest : List Nat) (s : State), rest.length < 4 → s.chip.rd F.trust_debug_unlocked = 1 → ∃ c : Chip, exec (.i2cWrite 0x50400000 (leBytes 4 v ++
    rest)) s = .next { s with chip := c } ∧ c.rd F.hostCfg_mode = v % 4 ∧ c.rd F.hostCfg_udp_port = v / 2 ^ 16 % 2 ^ 16 ∧ s.chip.RegsBut c [F.hostCfg_mode,
    F.hostCfg_fec_en, F.hostCfg_udp_port]) ∧
  (∀ (slot : Nat) (s : State), s.chip.mgmt.recovery = true → s.chip.rd F.rcvCtrl_busy = 0 → ∃ c : Chip, exec (.rcvErase slot) s = .next { s with chip := c }
    ∧ c.rd F.rcvCtrl_slot = slot % 2 ∧ c.rd F.rcvCtrl_addr = 0 ∧ c.rd F.rcvCtrl_busy = 1 ∧ (∀ e ∈ c.mgmt.slotImage, e.1 / 2 ^ 24 ≠ slot % 2) ∧ s.chip.RegsBut
    c [F.rcvCtrl_slot, F.rcvCtrl_addr, F.rcvCtrl_busy]) ∧
  (∀ (data : Nat) (s : State), s.chip.mgmt.recovery = true → s.chip.rd F.rcvCtrl_busy = 0 → s.chip.rd F.rcvCtrl_addr + 4 < 2 ^ 24 → data < 2 ^ 32 → tabGet
    s.chip.mgmt.slotImage (s.chip.rd F.rcvCtrl_slot * 2 ^ 24 + s.chip.rd F.rcvCtrl_addr / 4 * 4) = 0 → ∃ c : Chip, exec (.rcvDataWrite data) s = .next
    { s with chip := c } ∧ c.slotWord (s.chip.rd F.rcvCtrl_slot) (s.chip.rd F.rcvCtrl_addr / 4 * 4) = data ∧ c.rd F.rcvCtrl_addr = s.chip.rd F.rcvCtrl_addr /
    4 * 4 + 4 ∧ c.rd F.rcvCtrl_busy = 1 ∧ s.chip.RegsBut c [F.rcvCtrl_addr, F.rcvCtrl_busy]) ∧
  (∀ (data slot : Nat) (s : State), s.chip.mgmt.recovery = false → exec (.rcvDataWrite data) s = .next s ∧ exec (.rcvErase slot) s = .next s) ∧
  (∀ (data : Nat) (s : State), s.chip.mgmt.recovery = true → s.chip.rd F.rcvCtrl_busy = 1 → ∃ c : Chip, exec (.rcvDataWrite data) s = .next
    { s with chip := c } ∧ c.mgmt.heldWrite = some (2 ^ 32 + data) ∧ s.chip.RegsBut c []) ∧
  (∀ s : State, s.chip.rd F.rcvCtrl_busy = 1 → s.chip.mgmt.heldWrite = none → ∃ c : Chip, exec .rcvBusyClear s = .next { s with chip := c } ∧ c.rd
    F.rcvCtrl_busy = 0 ∧ s.chip.RegsBut c [F.rcvCtrl_busy]) ∧
  (∀ s : State, s.chip.rd F.rcvCtrl_busy = 0 → exec .rcvBusyClear s = .next s)

/-- Events and the lichen record (R533 to R538, R547, R548, R583 to R588, R596): EVENT_READ answers events as they stand, EVENT_SUB begins and ends a
subscription; folded raises go out at the end of
their interval, unacknowledged records again; the record is frozen once, rearmed with its entry, marked,
cleared, and read in time order; the entries of one cycle (which these are is the choice of log entry 72) stand in the order of R534, and none stands
after the one
that froze the record (R536); TRACE_READ answers a trace that is enabled. -/
def Obligations.EventsAndRecordsAreServed : Prop :=
  (∀ (n x i : Nat) (s : State), s.chip.serves n x 0xA2 = true → (s.chip.ctxSt n x).cmd.p0 = i → (s.chip.ctxSt n x).cmd.p1 = 1 → i < 576 → (∀ m ∈
    s.chip.liveSessions, m ≤ 256) → ∃ c : Chip, exec (.eventRead n x) s = .next (State.allHooks { s with chip := c }) ∧ (c.ctxSt n x).status = some
    (statusPayload 0 0 (beBytes 2 (s.chip.rd (F.evCfg_en i) + s.chip.rd (F.evCfg_latch i) * 2 + s.chip.rd (F.evCfg_host i) * 4 + s.chip.rd (F.evCfg_alert i)
    * 8 + s.chip.rd (F.evCfg_lichen i) * 16) ++ beBytes 4 (s.chip.rd (F.evCnt_count i)))) ∧ c.rd (F.evCnt_count i) = s.chip.rd (F.evCnt_count i) ∧
    s.chip.RegsBut c (s.chip.unitOf n x ++ c.hostCounts)) ∧
  (∀ (n x : Nat) (s : State), s.chip.serves n x 0xA2 = true → (s.chip.ctxSt n x).cmd.p1 < 1 ∨ 64 < (s.chip.ctxSt n x).cmd.p1 ∨ 576 < (s.chip.ctxSt n
    x).cmd.p0 + (s.chip.ctxSt n x).cmd.p1 → ∃ c : Chip, exec (.eventRead n x) s = .next (State.allHooks { s with chip := c }) ∧ (c.ctxSt n x).status = some
    (statusPayload 0x0102 0 []) ∧ s.chip.RegsBut c (s.chip.unitOf n x ++ c.hostCounts)) ∧
  (∀ (n x : Nat) (s : State), s.chip.serves n x 0xA3 = true → (s.chip.ctxSt n x).cmd.p0.testBit 0 = true → (∀ m ∈ s.chip.liveSessions, m ≤ 256) → ∃ c : Chip,
    exec (.eventSub n x) s = .next (State.allHooks { s with chip := c }) ∧ (c.ctxSt n x).status = some (statusPayload 0 0 []) ∧ tabGet c.ev.subs (n - 1) =
    some ⟨s.chip.rd F.evSeq_seq - 1, s.chip.rd F.evSeq_seq - 1, s.chip.now⟩ ∧ s.chip.RegsBut c (s.chip.unitOf n x ++ c.hostCounts)) ∧
  (∀ (n x : Nat) (s : State), s.chip.serves n x 0xA3 = true → (s.chip.ctxSt n x).cmd.p0.testBit 0 = false → ∃ c : Chip, exec (.eventSub n x) s = .next
    (State.allHooks { s with chip := c }) ∧ (c.ctxSt n x).status = some (statusPayload 0 0 []) ∧ tabGet c.ev.subs (n - 1) = none ∧ s.chip.RegsBut c
    (s.chip.unitOf n x ++ c.hostCounts)) ∧
  (∀ (i t0 : Nat) (f : FoldSt) (s : State), tabGet s.chip.ev.folds i = f → f.lastAt = some t0 → f.folded ≠ 0 → t0 + s.chip.rd F.evCtrl_gap_us * 1000 ≤
    s.chip.now → s.chip.rd F.evSeq_seq < 2 ^ 64 - 1 → ∃ c : Chip, exec (.eventGapExpiry i) s = .next { s with chip := c } ∧ c.rd F.evSeq_seq = s.chip.rd
    F.evSeq_seq + 1 ∧ (c.ev.kept.getLast?.map fun r => (r.seq, r.event, r.path, r.suppressed, r.data)) = some (s.chip.rd F.evSeq_seq, i, f.path, f.folded,
    f.data) ∧ tabGet c.ev.folds i = ⟨some s.chip.now, 0, f.path, f.data⟩ ∧ s.chip.RegsBut c []) ∧
  (∀ (i t0 : Nat) (s : State), (tabGet s.chip.ev.folds i).folded = 0 ∨ ((tabGet s.chip.ev.folds i).lastAt = some t0 ∧ s.chip.now < t0 + s.chip.rd
    F.evCtrl_gap_us * 1000) → exec (.eventGapExpiry i) s = .next s) ∧
  (∀ (n : Nat) (sub : SubSt) (s : State), tabGet s.chip.ev.subs (n - 1) = some sub → s.chip.rd (F.use_frozen (n - 1)) = 0 → sub.since + s.chip.rd
    F.evCtrl_resend_ms * 10 ^ 6 ≤ s.chip.now → ∃ c : Chip, exec (.eventResend n) s = .next { s with chip := c } ∧ c = s.chip.sendRecords (n - 1) sub
    sub.acked ∧ c.ev.kept = s.chip.ev.kept ∧ s.chip.RegsBut c []) ∧
  (∀ (n : Nat) (s : State), tabGet s.chip.ev.subs (n - 1) = none → exec (.eventResend n) s = .next s) ∧
  (∀ s : State, s.chip.rd F.lichenCtrl_frozen = 0 → ∃ c : Chip, exec .lichenFreezeWrite s = .next { s with chip := c } ∧ c.rd F.lichenCtrl_frozen = 1 ∧ c.rd
    F.lichenCtrl_f_sky = (if s.chip.rd F.skyStatus_valid = 1 then 1 else 0) ∧ c.rd F.lichenFreeze_f = (if s.chip.rd F.skyStatus_valid = 1 then s.chip.sky_
    else s.chip.keeper) % 2 ^ 64 ∧ c.rd (F.evCnt_count 549) = min (s.chip.rd (F.evCnt_count 549) + 1) (2 ^ 32 - 1) ∧ s.chip.RegsBut c []) ∧
  (∀ s : State, s.chip.rd F.lichenCtrl_frozen = 1 → exec .lichenFreezeWrite s = .next s) ∧
  (∀ s : State, s.chip.rd F.lichenCtrl_frozen = 1 → s.chip.lichen.stopped = false → s.chip.triggers 0x0407 = false → s.chip.triggers 550 = false → ∃ c :
    Chip, exec .lichenRearmWrite s = .next { s with chip := c } ∧ c.rd F.lichenCtrl_frozen = 0 ∧ c.rd F.lichenFreeze_f = 0 ∧ c.rd (F.evCnt_count 550) = min
    (s.chip.rd (F.evCnt_count 550) + 1) (2 ^ 32 - 1) ∧ s.chip.RegsBut c []) ∧
  (∀ s : State, s.chip.rd F.lichenCtrl_frozen = 0 → exec .lichenRearmWrite s = .next s) ∧
  (∀ (code path : Nat) (data : List Nat) (a b : List LichenEntry) (s : State), s.chip.lichen.stopped = false → s.chip.frozenRecord = false → code ≠ 0x0400 →
    s.chip.triggers code = false → s.chip.ring (s.chip.pathDie path) = a ++ b → (∀ y ∈ a, s.chip.thisCycle (s.chip.pathDie path) y = false) → (∀ y ∈ b,
    s.chip.thisCycle (s.chip.pathDie path) y = true) → (b.map LichenEntry.place).Pairwise (· ≤ ·) → a.length + b.length < 32768 → ((s.chip.lichenWrite code
    path data).ring (s.chip.pathDie path)).take a.length = a ∧ ((((s.chip.lichenWrite code path data).ring (s.chip.pathDie path)).drop a.length).map
    LichenEntry.place).Pairwise (· ≤ ·)) ∧
  (∀ (code path : Nat) (data : List Nat) (b : List LichenEntry) (s : State), s.chip.lichen.stopped = false → s.chip.frozenRecord = false → code ≠ 0x0400 →
    s.chip.triggers code = true → s.chip.ring (s.chip.pathDie path) = b → s.chip.ring (1 - s.chip.pathDie path) = [] → (∀ y ∈ b, s.chip.thisCycle
    (s.chip.pathDie path) y = true) → (b.map LichenEntry.place).Pairwise (· ≤ ·) → b.length < 32767 → (s.chip.lichenWrite code path data).frozenRecord = true
    ∧ ∀ y ∈ (s.chip.lichenWrite code path data).ring (s.chip.pathDie path), y.place ≤ (⟨s.chip.stamp (s.chip.pathDie path), 0, s.chip.sysAddr, path, code,
    s.chip.stampFlags (s.chip.pathDie path), padTo 32 data⟩ : LichenEntry).place) ∧
  (∀ (n x : Nat) (s : State), s.chip.serves n x 0xE1 = true → s.chip.lichen.stopped = false → s.chip.frozenRecord = false → (s.chip.dieSt 0).out = false →
    s.chip.triggers 0x0405 = false → (∀ e ∈ s.chip.ring 0, e.time ≠ s.chip.stamp 0) → (∀ m ∈ s.chip.liveSessions, m ≤ 256) → ∃ c : Chip, exec (.lichenMark n
    x) s = .next (State.allHooks { s with chip := c }) ∧ (c.ctxSt n x).status = some (statusPayload 0 0 []) ∧ ((c.ring 0).getLast?.map fun e => (e.code,
    e.data)) = some (0x0405, beBytes 8 (s.chip.ctxSt n x).cmd.p0 ++ beBytes 8 (s.chip.ctxSt n x).cmd.p1 ++ beBytes 8 (s.chip.ctxSt n x).cmd.p2 ++ beBytes 8
    (s.chip.ctxSt n x).cmd.p3) ∧ s.chip.RegsBut c (s.chip.unitOf n x ++ c.hostCounts)) ∧
  (∀ (n x : Nat) (s : State), s.chip.serves n x 0xE2 = true → s.chip.rd F.lichenCtrl_frozen = 1 → s.chip.triggers 0x0407 = false → s.chip.triggers 550 =
    false → (∀ m ∈ s.chip.liveSessions, m ≤ 256) → ∃ c : Chip, exec (.lichenRearm n x) s = .next (State.allHooks { s with chip := c }) ∧ (c.ctxSt n x).status
    = some (statusPayload 0 0 []) ∧ c.rd F.lichenCtrl_frozen = 0 ∧ s.chip.RegsBut c (s.chip.unitOf n x ++ c.hostCounts)) ∧
  (∀ (n x : Nat) (s : State), s.chip.serves n x 0xE3 = true → s.chip.triggers 0x0408 = false → s.chip.lichen.stopped = false → (∀ m ∈ s.chip.liveSessions, m
    ≤ 256) → (s.chip.dieSt 0).out = false → ∃ c : Chip, exec (.lichenClear n x) s = .next (State.allHooks { s with chip := c }) ∧ (c.ctxSt n x).status = some
    (statusPayload 0 0 []) ∧ c.rd F.lichenCtrl_frozen = 0 ∧ c.rd (F.lichenCnt_seq 0) = 1 ∧ c.rd (F.lichenCnt_seq 1) = 0 ∧ (c.ring 0).map (·.code) = [0x0408]
    ∧ c.ring 1 = [] ∧ ((s.chip.ctxSt n x).cmd.cflags.testBit 0 = true → c.lichen.saved = [] ∧ c.rd F.lichenCtrl_saved = 0) ∧ ((s.chip.ctxSt n
    x).cmd.cflags.testBit 0 = false → c.lichen.saved = s.chip.lichen.saved) ∧ s.chip.RegsBut c ([F.lichenCtrl_saved, F.lichenSaved_copy, F.lichenSaved_n0,
    F.lichenSaved_n1] ++ s.chip.unitOf n x ++ c.hostCounts)) ∧
  (∀ (n x : Nat) (e : LichenEntry) (s : State), s.chip.serves n x 0xE0 = true → (s.chip.ctxSt n x).cmd.p0 = 1 → (s.chip.ctxSt n x).cmd.p1 = 0 → (s.chip.ctxSt
    n x).cmd.dlen = 64 → s.chip.lichen.ring0 = [e] → (∀ m ∈ s.chip.liveSessions, m ≤ 256) → ∃ t : State, exec (.lichenRead n x) s = .next (State.allHooks t)
    ∧ (t.chip.ctxSt n x).status = some (statusPayload 0 0 (beBytes 4 1 ++ beBytes 4 0 ++ [s.chip.rd F.lichenCtrl_frozen, 0, 0, 0] ++ beBytes 8 (s.chip.rd
    F.lichenFreeze_f) ++ beBytes 8 (s.chip.rd F.lichenSaved_copy))) ∧ t.chip.lichen.ring0 = [e]) ∧
  (∀ (n x d tl : Nat) (s : State), s.chip.serves n x 0xE4 = true → (s.chip.ctxSt n x).cmd.p0 = d → s.chip.rd (F.traceCtrl_en d) = 1 → (s.chip.ctxSt n
    x).cmd.dlen = 32 → s.chip.chooseTiles (s.chip.sess n).die 1 = [tl] → tl < 2 ^ 21 → (∀ m ∈ s.chip.liveSessions, m ≤ 256) → ∃ t : State, exec (.traceRead n
    x) s = .next (State.allHooks t) ∧ (t.chip.ctxSt n x).status = some (statusPayload 0 0 ([s.chip.rd (F.traceCtrl_frozen d), 0, 0, 0, 0, 0, 0, 0] ++ beBytes
    8 (s.chip.rd (F.traceLast_t d)))) ∧ Out.qcp 0x13 n (s.chip.ctxSt n x).cmd.queue ((s.chip.sess n).txSeq + 1) x (s.chip.ctxSt n x).cmd.tag 2 0
    ((s.traceBytes d).take 32) ∈ t.chip.sent) ∧
  (∀ (n x d : Nat) (s : State), s.chip.serves n x 0xE4 = true → (s.chip.ctxSt n x).cmd.p0 = d → s.chip.rd (F.traceCtrl_en d) = 0 → (∀ m ∈
    s.chip.liveSessions, m ≤ 256) → ∃ c : Chip, exec (.traceRead n x) s = .next (State.allHooks { s with chip := c }) ∧ (c.ctxSt n x).status = some
    (statusPayload 0x0605 0 []) ∧ s.chip.RegsBut c (s.chip.unitOf n x ++ c.hostCounts))

/-- Containment (R20, R26, R34, R36, R497 to R506): a master that is frozen, out or locked issues nothing; a transaction that no window permits is not
performed, is counted, reported and freezes its master's domain, a session's data master its session, a keeper its die; a permitted one is performed; a
window is set or refused; DEBUG_UNLOCK opens the debug port's windows; MASTER_UNFREEZE resets the domain it names. -/
def Obligations.ContainmentHolds : Prop :=
  (∀ (m space kind a len : Nat) (data : List Nat) (s : State), 360 < m ∨ s.chip.rd (F.mst_frozen m) = 1 ∨ s.chip.masterOut m = true ∨ (m = 360 ∧ s.chip.rd
    F.trust_debug_unlocked = 0) → exec (.fabricTransaction m space kind a len data) s = .next s) ∧
  (∀ (m a len : Nat) (data : List Nat) (s : State), m < 16 → m % 8 ≠ 0 → s.chip.issues m = true → s.chip.permits m 0 1 a len = false → ∃ c : Chip, exec
    (.fabricTransaction m 0 1 a len data) s = .next (State.allHooks { s with chip := c }) ∧ (∀ k ∈ frozenWith m, c.rd (F.mst_frozen k) = 1) ∧ c.rd
    (F.mst_violations m) = min (s.chip.rd (F.mst_violations m) + 1) (2 ^ (F.mst_violations m).width - 1) ∧ c.rd (F.contLast_master (m / 8)) = m ∧ c.rd
    (F.contLast_write (m / 8)) = 1 ∧ c.rd (F.contLast_addr (m / 8)) = a % 2 ^ 48 ∧ Out.bus m 1 [] ∈ c.sent ∧ c.rd (F.evCnt_count (448 + 32 * (m / 8) + 5)) =
    min (s.chip.rd (F.evCnt_count (448 + 32 * (m / 8) + 5)) + 1) (2 ^ 32 - 1) ∧ s.chip.RegsBut c ((frozenWith m).map F.mst_frozen ++ [F.mst_violations m,
    F.contLast_master (m / 8), F.contLast_space (m / 8), F.contLast_write (m / 8), F.contLast_addr (m / 8)])) ∧
  (∀ (n a len : Nat) (data : List Nat) (s : State), 1 ≤ n → n ≤ 256 → (s.chip.sess n).die < 2 → s.chip.issues (79 + n) = true → s.chip.permits (79 + n) 0 0 a
    len = false → ∃ c : Chip, exec (.fabricTransaction (79 + n) 0 0 a len data) s = .next (State.allHooks { s with chip := c }) ∧ c.rd (F.mst_frozen (79 +
    n)) = 1 ∧ c.rd (F.use_frozen (n - 1)) = 1) ∧
  (∀ (e a len : Nat) (data : List Nat) (s : State), e < 2 → s.chip.issues (8 * e) = true → s.chip.permits (8 * e) 0 0 a len = false → ∃ c : Chip, exec
    (.fabricTransaction (8 * e) 0 0 a len data) s = .next (State.allHooks { s with chip := c }) ∧ (c.dieSt e).out = true) ∧
  (∀ (m a : Nat) (s : State), m < 360 → m % 8 ≠ 0 → s.chip.issues m = true → s.chip.permits m 0 0 a 64 = true → a % 64 = 0 → dramMapped a = true → a %
    0x200000000 < 0x140000000 → (s.chip.dieSt (stackOf a)).out = false → (s.chip.bufSt (stackOf a)).merge = [] → s.chip.badBlock a = false → ∃ c : Chip, exec
    (.fabricTransaction m 0 0 a 64 []) s = .next (State.allHooks { s with chip := c }) ∧ c.sent = s.chip.sent ++ [Out.bus m 0 (memReads s.dram a 64)] ∧
    s.chip.RegsBut c []) ∧
  (∀ (v : Nat) (s : State), s.chip.issues 360 = true → s.chip.permits 360 1 1 0x50400000 4 = true → ∃ c : Chip, exec (.fabricTransaction 360 1 1 0x50400000 4
    (beBytes 4 v)) s = .next (State.allHooks { s with chip := c }) ∧ c.rd F.hostCfg_mode = v % 4 ∧ c.rd F.hostCfg_fec_en = v / 4 % 2 ∧ c.rd
    F.hostCfg_udp_port = v / 2 ^ 16 % 2 ^ 16 ∧ s.chip.RegsBut c [F.hostCfg_mode, F.hostCfg_fec_en, F.hostCfg_udp_port]) ∧
  (∀ (m idx base stop : Nat) (rd wr : Bool) (s : State), m < 16 → m % 8 ≠ 0 → idx < 16 → base % 4096 = 0 → stop % 4096 = 0 → stop ≤ 7 * 2 ^ 30 → wr = false →
    ∃ c : Chip, exec (.windowRequest m idx true rd wr false base stop) s = .next { s with chip := c } ∧ c.rd (F.win_en (16 * m + idx)) = 1 ∧ c.rd (F.win_rd
    (16 * m + idx)) = rd.toNat ∧ c.rd (F.win_wr (16 * m + idx)) = 0 ∧ c.rd (F.win_space (16 * m + idx)) = 0 ∧ c.rd (F.win_base (16 * m + idx)) = base / 4096
    % 2 ^ 52 ∧ c.rd (F.win_end (16 * m + idx)) = stop / 4096 ∧ c.sent = s.chip.sent ++ [Out.bus m 6 []] ∧ s.chip.RegsBut c [F.win_en (16 * m + idx), F.win_rd
    (16 * m + idx), F.win_wr (16 * m + idx), F.win_space (16 * m + idx), F.win_base (16 * m + idx), F.win_end (16 * m + idx)]) ∧
  (∀ (m idx base stop : Nat) (en rd wr space : Bool) (s : State), 361 ≤ m ∨ 16 ≤ idx ∨ (m < 16 ∧ m % 8 = 0) → exec (.windowRequest m idx en rd wr space base
    stop) s = .next { s with chip := s.chip.emit (.bus m 4 []) }) ∧
  (∀ (n x : Nat) (s : State), s.chip.serves n x 0xC9 = true → (∀ k ∈ s.chip.liveSessions, k ≤ 256) → ∃ c : Chip, exec (.debugUnlock n x) s = .next
    (State.allHooks { s with chip := c }) ∧ (c.ctxSt n x).status = some (statusPayload 0 0 []) ∧ c.rd F.trust_debug_unlocked = 1 ∧ (∀ i < 3, c.rd (F.win_en
    (5760 + i)) = 1 ∧ c.rd (F.win_rd (5760 + i)) = 1 ∧ c.rd (F.win_wr (5760 + i)) = 1) ∧ c.rd (F.win_base 5760) * 4096 = 0x142000000 ∧ c.rd (F.win_end 5762)
    * 4096 = 0x60000000 ∧ c.rd (F.evCnt_count 548) = min (s.chip.rd (F.evCnt_count 548) + 1) (2 ^ 32 - 1) ∧ s.chip.RegsBut c (F.trust_debug_unlocked ::
    (List.range 3).flatMap (fun i => [F.win_en (5760 + i), F.win_rd (5760 + i), F.win_wr (5760 + i), F.win_space (5760 + i), F.win_base (5760 + i), F.win_end
    (5760 + i)]) ++ s.chip.unitOf n x ++ c.hostCounts)) ∧
  (∀ (n x d : Nat) (s : State), s.chip.serves n x 0xCA = true → d < 24 → (s.chip.ctxSt n x).cmd.p0 = clusterPath d 7 → s.chip.rd (F.mst_frozen (336 + d)) = 1
    → (∀ k ∈ s.chip.liveSessions, k ≤ 256) → (s.chip.readSt d).cur = none → (s.chip.readSt d).queue = [] → ∃ c : Chip, exec (.masterUnfreeze n x) s = .next
    (State.allHooks { s with chip := c }) ∧ (c.ctxSt n x).status = some (statusPayload 0 0 []) ∧ c.rd (F.mst_frozen (336 + d)) = 0 ∧ c.cluSt d = default ∧ (∀
    u < 4, (c.unitSt (4 * d + u)).out = false) ∧ s.chip.RegsBut c ([F.mst_frozen (336 + d), F.hlinkStatus_beam_missing d, F.hlinkStatus_burn_ok d,
    F.hlinkStatus_rt d, F.hlinkStatus_passes d] ++ s.chip.unitOf n x ++ c.hostCounts)) ∧
  (∀ (n x : Nat) (s : State), s.chip.serves n x 0xCA = true → (∀ k ∈ s.chip.liveSessions, k ≤ 256) → ((domainOf (s.chip.ctxSt n x).cmd.p0).any fun k =>
    k.masters.any fun m => s.chip.rd (F.mst_frozen m) == 1) = false → ∃ c : Chip, exec (.masterUnfreeze n x) s = .next (State.allHooks { s with chip := c })
    ∧ (c.ctxSt n x).status = some (statusPayload 0x0102 0 []) ∧ s.chip.RegsBut c (s.chip.unitOf n x ++ c.hostCounts))

/-- WARM_RESET, COLD_RESET, SANITISE and FORMAT (R388, R439 to R442, R477, R514, R533, R595): a warm reset completes, ends every other command, and leaves
drives and sessions; a cold reset is answered
before it and leaves only what stays; SANITISE and FORMAT give up the pool's map and sets at once and
complete, one beside another does not; at the end of the last block the new pool stands. -/
def Obligations.ResetsAndSanitiseTakeEffect : Prop :=
  (∀ (n x : Nat) (s : State), s.chip.serves n x 0xA5 = true → s.chip.NoBurn → s.chip.launches = [] → (∀ k ∈ s.chip.liveSessions, k ≤ 256) → s.chip.rd
    F.hostCfg_mode = s.chip.host.modeNext → (∀ d < 24, s.chip.load d = none ∧ (s.chip.readSt d).cur = none) → (∀ k ∈ s.chip.liveSessions, ∀ e ∈ (s.chip.sess
    k).ctx, e.2.snoop = none ∧ ((k ≠ n ∨ e.1 ≠ x) → e.2.phase = .free ∨ e.2.phase = .waiting)) → ∃ t : State, exec (.warmReset n x) s = .next (State.allHooks
    t) ∧ (t.chip.ctxSt n x).status = some (statusPayload 0 0 []) ∧ (t.chip.ctxSt n x).phase = .free ∧ (∀ k ∈ s.chip.liveSessions, ∀ y < 4096, (t.chip.ctxSt k
    y).phase = .free ∧ ((k ≠ n ∨ y ≠ x) → (s.chip.ctxSt k y).phase = .waiting → (t.chip.ctxSt k y).status = some (statusPayload 0x0802 0 []))) ∧ (∀ k ≤ 256,
    (t.chip.sess k).live = (s.chip.sess k).live) ∧ t.chip.trust.act = none ∧ t.chip.svc = default ∧ (∀ d < 24, t.chip.rd (F.hlinkStatus_state d) = s.chip.rd
    (F.hlinkStatus_state d) ∧ t.chip.rd (F.spinStatus_state d) = s.chip.rd (F.spinStatus_state d) ∧ t.chip.rd (F.srvStatus_fstate d) = s.chip.rd
    (F.srvStatus_fstate d) ∧ t.chip.rd (F.srvStatus_tstate d) = s.chip.rd (F.srvStatus_tstate d) ∧ (t.chip.burnSt d).queue = []) ∧ s.MemBut t 0 0) ∧
  (∀ (n x : Nat) (s : State), s.chip.serves n x 0xA6 = true → s.chip.NoBurn → s.chip.power.tripped = false → (∀ k ∈ s.chip.liveSessions, k ≤ 256) → ∃ c :
    Chip, exec (.coldReset n x) s = .next (State.allHooks { s with chip := c }) ∧ c.host.sess = [] ∧ c.launches = [] ∧ c.power.running = false ∧ Out.qcp 0x11
    n (s.chip.ctxSt n x).cmd.queue ((s.chip.sess n).txSeq + 1) x (s.chip.ctxSt n x).cmd.tag 0 0 (statusPayload 0 0 []) ∈ c.sent ∧ c.trust.creds =
    s.chip.trust.creds ∧ s.chip.ColdFrom c) ∧
  (∀ (n x : Nat) (found : List (Nat × Nat × TargetParams)) (s : State), s.chip.serves n x 0xC2 = true → (∀ e ∈ found, e.1 < 8) → s.chip.moss.op = none →
    s.chip.NoBurn → (∀ k ∈ s.chip.liveSessions, k ≤ 256) → s.chip.contexts (fun k => k.phase == .active) = [] → ∃ c : Chip, exec (.sanitise n x found) s =
    .next (State.allHooks { s with chip := c }) ∧ (c.ctxSt n x).status = some (statusPayload 0 0 []) ∧ (c.moss.op.map fun o => (o.1, o.2.1)) = some (true, 0)
    ∧ c.moss.map = [] ∧ c.moss.sets = [] ∧ c.moss.recs = [] ∧ c.moss.discards = [] ∧ c.moss.rebuild = none ∧ c.rd F.mossProgress_op = 1 ∧ s.chip.RegsBut c
    ([F.mossStatus_sdiscard, F.mossStatus_rebuilding, F.mossProgress_op, F.mossProgress_done] ++ (List.range 8).flatMap (fun ch => [F.fcStatus_targets (ch /
    2) (ch % 2), F.fcStatus_rate (ch / 2) (ch % 2)]) ++ s.chip.unitOf n x ++ c.hostCounts)) ∧
  (∀ (n x : Nat) (found : List (Nat × Nat × TargetParams)) (s : State), s.chip.serves n x 0xC3 = true → (∀ e ∈ found, e.1 < 8) → s.chip.moss.op = none →
    s.chip.NoBurn → (∀ k ∈ s.chip.liveSessions, k ≤ 256) → s.chip.contexts (fun k => k.phase == .active) = [] → ∃ c : Chip, exec (.format n x found) s =
    .next (State.allHooks { s with chip := c }) ∧ (c.ctxSt n x).status = some (statusPayload 0 0 []) ∧ (c.moss.op.map fun o => (o.1, o.2.1)) = some (false,
    0) ∧ c.moss.map = [] ∧ c.moss.poolId = s.chip.moss.poolId ∧ c.rd F.mossProgress_op = 2) ∧
  (∀ (n x : Nat) (found : List (Nat × Nat × TargetParams)) (s : State), s.chip.serves n x 0xC2 = true → s.chip.moss.op.isSome = true → ∃ c : Chip, exec
    (.sanitise n x found) s = .next (State.allHooks { s with chip := c }) ∧ (c.ctxSt n x).status = some (statusPayload 0x0106 0 []) ∧ c.moss = s.chip.moss ∧
    s.chip.RegsBut c (s.chip.unitOf n x ++ c.hostCounts)) ∧
  (∀ (sani : Bool) (cur total : Nat) (s : State), s.chip.moss.op = some (sani, cur, total) → total ≤ cur → (∀ k ∈ s.chip.liveSessions, k ≤ 256) →
    s.chip.contexts (fun k => k.phase == .active) = [] → (∀ d < 24, s.chip.load d = none) → ∃ t : State, exec .sanitiseFormatEnd s = .next t ∧ t.chip.moss.op
    = none ∧ t.chip.moss.ns = [] ∧ t.chip.cat.objects = [] ∧ t.chip.cat.fronds = [] ∧ t.chip.cat.frondSeq = s.chip.cat.frondSeq ∧ t.chip.lichen.saved = [] ∧
    t.chip.rd F.mossStatus_mounted = 1 ∧ t.chip.rd (F.evCnt_count 538) = min (s.chip.rd (F.evCnt_count 538) + 1) (2 ^ 32 - 1) ∧ s.MemBut t 0 0) ∧
  (∀ (sani : Bool) (cur total : Nat) (s : State), s.chip.moss.op = none ∨ (s.chip.moss.op = some (sani, cur, total) ∧ cur < total) → exec .sanitiseFormatEnd
    s = .next s)

/-- The flash pool's pages (R26, R329, R330, R333, R340, R344, R355, R545): a target whose parameter page meets every condition is accepted, another is
refused with its event; a page that decodes changes nothing, one with many corrections queues its set, one that does not decode is rebuilt from its row
and moved; a program that passes is noted, one that fails drains its set; a page of the saved copy that passes stands again; a frozen channel's engine
takes nothing. What these make durable is settled after them. -/
def Obligations.FlashIsFoundReadAndProgrammed : Prop :=
  (∀ (ch n t : Nat) (a : Option Bool) (p : TargetParams) (s : State), ch < 8 → t < 8 → targetOk p = true → s.chip.firstPages.getD p.pages = p.pages →
    s.chip.moss.rebuild = none → (s.chip.rd F.mossStatus_down).testBit ch = false → ∃ c : Chip, exec (.flashDiscovery [(ch, n, a)] [(ch, t, p)]) s = .next
    { s with chip := c } ∧ (c.chan ch).present = true ∧ (c.chan ch).serial = n ∧ (c.chan ch).anchor = a ∧ tabFind (c.chan ch).targets t = some p ∧ c.rd
    (F.fcStatus_targets (ch / 2) (ch % 2)) = maskSet (s.chip.rd (F.fcStatus_targets (ch / 2) (ch % 2))) t true % 256 ∧ c.rd (F.fcStatus_rate (ch / 2) (ch %
    2)) = min p.rate 2400 ∧ c.fcState ch = 2 ∧ c.moss.pages = p.pages ∧ c.power.discovered = true ∧ s.chip.RegsBut c [F.fcStatus_state (ch / 2) (ch % 2),
    F.fcStatus_targets (ch / 2) (ch % 2), F.fcStatus_rate (ch / 2) (ch % 2)]) ∧
  (∀ (ch n t : Nat) (a : Option Bool) (p : TargetParams) (s : State), ch < 8 → t < 8 → targetOk p = false ∨ s.chip.firstPages.getD p.pages ≠ p.pages →
    s.chip.moss.rebuild = none → (s.chip.rd F.mossStatus_down).testBit ch = false → ∃ c : Chip, exec (.flashDiscovery [(ch, n, a)] [(ch, t, p)]) s = .next
    { s with chip := c } ∧ (c.chan ch).present = true ∧ (c.chan ch).targets = (s.chip.chan ch).targets ∧ c.fcState ch = 2 ∧ c.rd (F.evCnt_count (384 + 16 *
    (ch / 2) + 4)) = min (s.chip.rd (F.evCnt_count (384 + 16 * (ch / 2) + 4)) + 1) (2 ^ 32 - 1) ∧ s.chip.RegsBut c [F.fcStatus_state (ch / 2) (ch % 2)]) ∧
  (∀ (ch n : Nat) (a : Option Bool) (s : State), ch < 8 → ∃ c : Chip, exec (.flashDiscovery [(ch, n, a)] []) s = .next { s with chip := c } ∧ (c.chan
    ch).present = true ∧ c.fcState ch = (if s.chip.moss.rebuild.any fun b => b.1 == ch then 4 else if (s.chip.rd F.mossStatus_down).testBit ch then 5 else 2)
    ∧ c.power.discovered = true ∧ s.chip.RegsBut c [F.fcStatus_state (ch / 2) (ch % 2)]) ∧
  (∀ (ch tgt blk pg : Nat) (ws : List (Option Nat)) (s : State), s.chip.chUsable ch = false ∨ s.chip.channelRuns ch = false ∨ s.chip.moss.op.isSome = true →
    exec (.flashPageRead ch tgt blk pg ws) s = .next s) ∧
  (∀ (ch tgt blk pg : Nat) (ws : List (Option Nat)) (s : State), s.chip.chUsable ch = true → s.chip.channelRuns ch = true → s.chip.moss.op = none → ch < 8 →
    (∀ w ∈ ws, w.isSome = true) → (∀ w ∈ ws, ∀ n ∈ w, n ≤ 120 ∧ n ≤ s.chip.rd F.mossCtrl_refresh_thr) → ∃ c : Chip, exec (.flashPageRead ch tgt blk pg ws) s
    = .next { s with chip := c.settle } ∧ c.moss = s.chip.moss ∧ c.sent = s.chip.sent ∧ s.chip.RegsBut c snoopRuns) ∧
  (∀ (ch tgt blk pg k : Nat) (ws : List (Option Nat)) (s : State), s.chip.chUsable ch = true → s.chip.channelRuns ch = true → s.chip.moss.op = none → ch < 8
    → (∀ w ∈ ws, w.isSome = true) → (∀ w ∈ ws, ∀ n ∈ w, n ≤ 120) → (ws.any fun w => w.any fun n => decide (s.chip.rd F.mossCtrl_refresh_thr < n)) = true →
    s.chip.placeSet ch tgt blk = some k → ∃ c : Chip, exec (.flashPageRead ch tgt blk pg ws) s = .next { s with chip := c.settle } ∧ (c.setSt k).refresh =
    true ∧ c.rd (F.fcErr_refresh (ch / 2) (ch % 2)) = min (s.chip.rd (F.fcErr_refresh (ch / 2) (ch % 2)) + 1) (2 ^ 16 - 1) ∧ c.moss.map = s.chip.moss.map ∧
    c.moss.flash = s.chip.moss.flash ∧ s.chip.RegsBut c (F.fcErr_refresh (ch / 2) (ch % 2) :: snoopRuns)) ∧
  (∀ (ch tgt blk pg sp g k o : Nat) (ws : List (Option Nat)) (bs : List Nat) (s : State), s.chip.chUsable ch = true → s.chip.channelRuns ch = true →
    s.chip.poolWrites = true → ch < 8 → (ws.any fun w => w.all fun n => decide (120 < n)) = true → s.chip.granuleAt ch tgt blk pg = some (sp, g) → g < 2 ^ 32
    → s.chip.mapEnt sp g = ⟨1, ch, tgt, blk, pg⟩ → s.chip.placeSet ch tgt blk = some k → (s.chip.modMoss fun m =>
    { m with flash := tabErase m.flash (placeKey ch tgt blk pg) }).rebuildPage ch k pg = some bs → tabGet s.chip.moss.openSet 2 = some o → (s.chip.setSt
    o).slot + 1 < ((s.chip.setSt o).dataChannels o (s.chip.setSt o).row).length → ∃ c : Chip, exec (.flashPageRead ch tgt blk pg ws) s = .next
    { s with chip := c.settle } ∧ c.mapEnt sp g = ⟨1, ((s.chip.setSt o).dataChannels o (s.chip.setSt o).row).getD (s.chip.setSt o).slot 0, s.chip.setTarget
    o, (s.chip.setBlock (((s.chip.setSt o).dataChannels o (s.chip.setSt o).row).getD (s.chip.setSt o).slot 0) o).getD 0, (s.chip.setSt o).row⟩ ∧ c.moss.lsn =
    s.chip.moss.lsn + 1 ∧ (∃ r ∈ c.moss.buf, r.type = 0x03 ∧ r.lsn = s.chip.moss.lsn + 1) ∧ c.rd (F.fcErr_uncorr (ch / 2) (ch % 2)) = min (s.chip.rd
    (F.fcErr_uncorr (ch / 2) (ch % 2)) + 1) (2 ^ 16 - 1)) ∧
  (∀ (ch tgt blk pg sp g k : Nat) (ws : List (Option Nat)) (s : State), s.chip.chUsable ch = true → s.chip.channelRuns ch = true → s.chip.poolWrites = true →
    ch < 8 → sp < 2 ^ 8 → (ws.any fun w => w.all fun n => decide (120 < n)) = true → s.chip.granuleAt ch tgt blk pg = some (sp, g) → g < 2 ^ 32 →
    s.chip.mapEnt sp g = ⟨1, ch, tgt, blk, pg⟩ → s.chip.placeSet ch tgt blk = some k → s.chip.rebuildPage ch k pg = none → ∃ c : Chip, exec (.flashPageRead
    ch tgt blk pg ws) s = .next { s with chip := c.settle } ∧ c.mapEnt sp g = ⟨2, ch, tgt, blk, pg⟩ ∧ c.readGranule sp g = none ∧ c.moss.lsn =
    s.chip.moss.lsn + 1 ∧ c.rd (F.evCnt_count (512 + 24)) = min (s.chip.rd (F.evCnt_count (512 + 24)) + 1) (2 ^ 32 - 1) ∧ c.rd (F.fcErr_uncorr (ch / 2) (ch %
    2)) = min (s.chip.rd (F.fcErr_uncorr (ch / 2) (ch % 2)) + 1) (2 ^ 16 - 1)) ∧
  (∀ (k row ch : Nat) (ok : Bool) (s : State), s.chip.channelRuns ch = true → k < lichenSet → (s.chip.setSt k).phase = 0 ∨ (s.chip.setSt k).members.testBit
    ch = false → exec (.flashProgramDone k row ch ok) s = .next { s with chip := s.chip.settle }) ∧
  (∀ (k row ch : Nat) (s : State), s.chip.channelRuns ch = true → k < lichenSet → (s.chip.setSt k).phase ≠ 0 → ch < 8 → (s.chip.setSt k).members.testBit ch =
    true → ∃ c : Chip, exec (.flashProgramDone k row ch true) s = .next { s with chip := c.settle } ∧ (tabGet (c.setSt k).passed row).testBit ch = true ∧ (∀
    j < 8, j ≠ ch → (tabGet (c.setSt k).passed row).testBit j = (tabGet (s.chip.setSt k).passed row).testBit j) ∧ (c.setSt k).phase = (s.chip.setSt k).phase
    ∧ c.moss.map = s.chip.moss.map ∧ c.sent = s.chip.sent ∧ s.chip.RegsBut c []) ∧
  (∀ (k row ch b : Nat) (s : State), s.chip.channelRuns ch = true → k < lichenSet → (s.chip.setSt k).phase ≠ 0 → ch < 8 → (s.chip.setSt k).members.testBit ch
    = true → s.chip.setBlock ch k = some b → (∀ j < 8, ((s.chip.setBlock j k).all fun x => (s.chip.granuleAt j (s.chip.setTarget k) x row).isNone) = true) →
    ∃ c : Chip, exec (.flashProgramDone k row ch false) s = .next { s with chip := c.settle } ∧ (c.setSt k).drain = true ∧ (c.setSt k).phase ≠ 1 ∧ c.rd
    (F.fcErr_prog_fail (ch / 2) (ch % 2)) = min (s.chip.rd (F.fcErr_prog_fail (ch / 2) (ch % 2)) + 1) (2 ^ 8 - 1) ∧ (∃ r ∈ c.moss.buf, r.type = 0x09 ∧ r.lsn
    = s.chip.moss.lsn + 1 ∧ r.payload = [ch, s.chip.setTarget k, 0, 0] ++ beBytes 4 b) ∧ c.moss.map = s.chip.moss.map ∧ s.chip.RegsBut c [F.fcErr_prog_fail
    (ch / 2) (ch % 2)]) ∧
  (∀ (k row ch : Nat) (ok : Bool) (s : State), s.chip.channelRuns ch = false → exec (.flashProgramDone k row ch ok) s = .next s ∧ exec (.flashEraseDone k ch
    ok) s = .next s) ∧
  (∀ (ch t row : Nat) (p : LichenPage) (rest : List LichenPage) (s : State), s.chip.channelRuns ch = true → s.chip.poolWrites = true → (s.chip.lichenBlk ch
    t).due = false → (s.chip.lichenBlk ch t).held = p :: rest → ∃ c : Chip, exec (.flashProgramDone (lichenSet + t) row ch true) s = .next
    { s with chip := c } ∧ (c.lichenBlk ch t).pages = (s.chip.lichenBlk ch t).pages ++ [p] ∧ (c.lichenBlk ch t).spent = (s.chip.lichenBlk ch t).spent + 1 ∧
    (c.lichenBlk ch t).held = rest ∧ c.moss.map = s.chip.moss.map ∧ s.chip.RegsBut c []) ∧
  (∀ (ch t row : Nat) (p : LichenPage) (rest : List LichenPage) (s : State), s.chip.channelRuns ch = true → s.chip.poolWrites = true → (s.chip.lichenBlk ch
    t).due = false → (s.chip.lichenBlk ch t).held = p :: rest → ∃ c : Chip, exec (.flashProgramDone (lichenSet + t) row ch false) s = .next
    { s with chip := c } ∧ (c.lichenBlk ch t).pages = (s.chip.lichenBlk ch t).pages ∧ (c.lichenBlk ch t).spent = (s.chip.lichenBlk ch t).spent + 1 ∧
    (c.lichenBlk ch t).held = p :: rest ∧ c.rd (F.fcErr_prog_fail (ch / 2) (ch % 2)) = min (s.chip.rd (F.fcErr_prog_fail (ch / 2) (ch % 2)) + 1) (2 ^ 8 - 1)
    ∧ s.chip.RegsBut c [F.fcErr_prog_fail (ch / 2) (ch % 2)])

/-- The upkeep of the flash pool (R26, R345, R347, R349 to R366, R410, R441, R545): pad rows, checkpoints and kept catalogue changes are written while the
pool takes writes and something waits; granules of a set under relocation move; a set whose members are erased is free again, a failed erase retires its
block, a lichen block with too few erased pages is erased and keeps its pages of the saved copy; channels go down and modules come back, are rebuilt row
by row; the pool mounts on its anchors; a secure discard ends when its sets are erased. -/
def Obligations.FlashIsReclaimedAndRebuilt : Prop :=
  (∀ (st : Nat) (s : State), s.chip.poolWrites = false → exec (.jflushTimeout st) s = .next s ∧ exec .checkpoint s = .next s ∧ exec .catalogueFlush s = .next
    s ∧ exec .secureDiscardDone s = .next s) ∧
  (∀ (st : Nat) (s : State), s.chip.streamWaits st = false → exec (.jflushTimeout st) s = .next s) ∧
  (∀ (st : Nat) (s : State), s.chip.poolWrites = true → st ≠ 3 → s.chip.streamWaits st = true → tabGet s.chip.moss.openSet st = none → exec (.jflushTimeout
    st) s = .next { s with chip := s.chip.settle }) ∧
  (∀ (st o : Nat) (s : State), s.chip.poolWrites = true → st ≠ 3 → s.chip.streamWaits st = true → tabGet s.chip.moss.openSet st = some o → (s.chip.setSt
    o).phase = 1 → (s.chip.setSt o).stream = st → (s.chip.setSt o).slot ≠ 0 → (s.chip.setSt o).slot < ((s.chip.setSt o).dataChannels o (s.chip.setSt
    o).row).length → s.chip.pairDist o = 0 → ∃ c : Chip, exec (.jflushTimeout st) s = .next { s with chip := c.settle } ∧ (c.setSt o).row = (s.chip.setSt
    o).row + 1 ∧ (c.setSt o).slot = 0 ∧ c.moss.map = s.chip.moss.map ∧ s.chip.RegsBut c snoopRuns) ∧
  (∀ (s : State), s.chip.rd F.mossCtrl2_ckpt_mib * 2 ^ 20 > s.chip.moss.jBytes → s.chip.moss.jBytes = 0 ∨ s.chip.now < s.chip.moss.ckptAt + 60 * 10 ^ 9 →
    exec .checkpoint s = .next s) ∧
  (∀ (s : State), s.chip.poolWrites = true → s.chip.rd F.mossCtrl2_ckpt_mib * 2 ^ 20 ≤ s.chip.moss.jBytes ∨ (s.chip.moss.jBytes ≠ 0 ∧ s.chip.moss.ckptAt + 60
    * 10 ^ 9 ≤ s.chip.now) → ∃ c : Chip, exec .checkpoint s = .next { s with chip := c.settle } ∧ (c.moss.cseq = s.chip.moss.cseq + 1 ∧ c.moss.ckptAt =
    s.chip.now ∨ c.moss.cseq = s.chip.moss.cseq ∧ c.moss.ckptAt = s.chip.moss.ckptAt) ∧ c.moss.ns = s.chip.moss.ns ∧ c.cat = s.chip.cat ∧ s.chip.moss.lsn ≤
    c.moss.lsn ∧ s.chip.RegsBut c (F.mossStatus_free :: snoopRuns)) ∧
  (∀ (s : State), s.chip.poolWrites = true → ∃ c : Chip, exec .catalogueFlush s = .next { s with chip := c.settle } ∧ c.cat = { s.chip.cat with kept := [] }
    ∧ c.moss.lsn = s.chip.moss.lsn + s.chip.cat.kept.length ∧ c.moss.buf = s.chip.moss.buf ++ s.chip.cat.kept.zipIdx.map (fun e => ⟨s.chip.moss.lsn + 1 +
    e.2, e.1.headD 0, e.1.getD 1 0 == 1, e.1.drop 2, none⟩) ∧ s.chip.RegsBut c []) ∧
  (∀ (sp g : Nat) (v : Bool) (s : State), s.chip.rd F.pwrStatus_state = 2 → s.chip.rd F.pwrStatus_waking = 0 → exec (.relocateGranule sp g v) s = .next s ∧
    exec .rebuildRow s = .next s) ∧
  (∀ (sp g : Nat) (v : Bool) (s : State), s.chip.poolWrites = false ∨ (s.chip.mapEnt sp g).state ≠ 1 ∨ s.chip.placeSet (s.chip.mapEnt sp g).ch (s.chip.mapEnt
    sp g).tgt (s.chip.mapEnt sp g).blk = none → exec (.relocateGranule sp g v) s = .next s) ∧
  (∀ (sp g k o : Nat) (bs : List Nat) (s : State), s.chip.rd F.pwrStatus_state ≠ 2 → s.chip.poolWrites = true → g < 2 ^ 32 → (s.chip.mapEnt sp g).state = 1 →
    s.chip.placeSet (s.chip.mapEnt sp g).ch (s.chip.mapEnt sp g).tgt (s.chip.mapEnt sp g).blk = some k → s.chip.relocates k = true → s.chip.entryData
    (s.chip.mapEnt sp g) = some bs → tabGet s.chip.moss.openSet 2 = some o → (s.chip.setSt o).slot + 1 < ((s.chip.setSt o).dataChannels o (s.chip.setSt
    o).row).length → ∃ c : Chip, exec (.relocateGranule sp g true) s = .next { s with chip := (c.refreshGc).settle } ∧ c.mapEnt sp g = ⟨1, ((s.chip.setSt
    o).dataChannels o (s.chip.setSt o).row).getD (s.chip.setSt o).slot 0, s.chip.setTarget o, (s.chip.setBlock (((s.chip.setSt o).dataChannels o
    (s.chip.setSt o).row).getD (s.chip.setSt o).slot 0) o).getD 0, (s.chip.setSt o).row⟩ ∧ c.moss.lsn = s.chip.moss.lsn + 1 ∧ (∃ r ∈ c.moss.buf, r.type =
    0x03 ∧ r.lsn = s.chip.moss.lsn + 1) ∧ s.chip.RegsBut c ([F.mossCache_hits, F.mossCache_misses] ++ snoopRuns)) ∧
  (∀ (k ch : Nat) (ok : Bool) (s : State), s.chip.channelRuns ch = true → k < lichenSet → s.chip.moss.op = none → (s.chip.setSt k).phase ≠ 3 ∨ (s.chip.setSt
    k).erasing.testBit ch = false → exec (.flashEraseDone k ch ok) s = .next { s with chip := s.chip.settle }) ∧
  (∀ (k ch b : Nat) (s : State), s.chip.channelRuns ch = true → k < lichenSet → s.chip.moss.op = none → ch < 8 → (s.chip.setSt k).phase = 3 → (s.chip.setSt
    k).erasing = 2 ^ ch → s.chip.moss.buf = [] → s.chip.moss.recs = [] → s.chip.setBlock ch k = some b → (s.chip.chan ch).progFailed = [] → ∃ c : Chip, exec
    (.flashEraseDone k ch true) s = .next { s with chip := c.settle } ∧ tabGet (c.chan ch).erases (tgtBlk (s.chip.setTarget k) b) = tabGet (s.chip.chan
    ch).erases (tgtBlk (s.chip.setTarget k) b) + 1 ∧ c.setSt k = default ∧ (∀ pg < 4096, c.pageAt ch (s.chip.setTarget k) b pg = none) ∧ c.moss.map =
    s.chip.moss.map ∧ c.moss.buf.map (fun r => (r.lsn, r.type)) = [(s.chip.moss.lsn + 1, 0x06)] ∧ s.chip.RegsBut c [F.mossWear_min, F.mossWear_max,
    F.mossStatus_free]) ∧
  (∀ (k ch b : Nat) (s : State), s.chip.channelRuns ch = true → k < lichenSet → s.chip.moss.op = none → ch < 8 → (s.chip.setSt k).phase = 3 → (s.chip.setSt
    k).erasing.testBit ch = true → (s.chip.setSt k).erasing ≠ 2 ^ ch → s.chip.moss.buf = [] → s.chip.moss.recs = [] → s.chip.setBlock ch k = some b → tabGet
    (s.chip.chan ch).reserve (s.chip.setTarget k) = 0 → ∃ c : Chip, exec (.flashEraseDone k ch false) s = .next { s with chip := c.settle } ∧ c.setBlock ch k
    = none ∧ (c.chan ch).retired.contains (tgtBlk (s.chip.setTarget k) b) = true ∧ (c.setSt k).erasing.testBit ch = false ∧ c.moss.buf = [⟨s.chip.moss.lsn +
    1, 0x08, false, [ch, s.chip.setTarget k, 0, 0] ++ beBytes 4 b ++ beBytes 4 0xFFFFFFFF ++ [0, 0, 0, 0], none⟩] ∧ c.rd (F.fcErr_erase_fail (ch / 2) (ch %
    2)) = min (s.chip.rd (F.fcErr_erase_fail (ch / 2) (ch % 2)) + 1) (2 ^ 8 - 1) ∧ c.rd (F.fcErr_retired (ch / 2) (ch % 2)) = min (s.chip.rd (F.fcErr_retired
    (ch / 2) (ch % 2)) + 1) (2 ^ 16 - 1) ∧ c.rd (F.evCnt_count (384 + 16 * (ch / 2) + 5)) = min (s.chip.rd (F.evCnt_count (384 + 16 * (ch / 2) + 5)) + 1) (2
    ^ 32 - 1) ∧ s.chip.RegsBut c [F.fcErr_erase_fail (ch / 2) (ch % 2), F.fcErr_retired (ch / 2) (ch % 2), F.mossWear_min, F.mossWear_max]) ∧
  (∀ (k ch cur total x t b : Nat) (f : Bool) (s : State), s.chip.channelRuns ch = true → k < lichenSet → s.chip.moss.op = some (f, cur, total) → blockAt
    s.chip.eraseRuns cur = some (x, t, b) → ∃ c : Chip, exec (.flashEraseDone k ch true) s = .next { s with chip := c } ∧ c.moss.op = some (f, cur + 1,
    total) ∧ tabGet (c.chan x).erases (tgtBlk t b) = tabGet (s.chip.chan x).erases (tgtBlk t b) + 1 ∧ (∀ pg < 4096, c.pageAt x t b pg = none) ∧ c.rd
    F.mossProgress_op = (if f then 1 else 2) ∧ s.chip.RegsBut c [F.mossProgress_op, F.mossProgress_done]) ∧
  (∀ (ch cause : Nat) (s : State), ch < 8 → (s.chip.rd F.mossStatus_down).testBit ch = true → exec (.channelDown ch cause) s = .next
    { s with chip := s.chip.settle } ∧ exec (.fcDownWrite ch true) s = .next { s with chip := s.chip.settle }) ∧
  (∀ (ch cause : Nat) (s : State), ch < 8 → s.chip.rd F.mossStatus_down = 0 → ∃ c : Chip, exec (.channelDown ch cause) s = .next { s with chip := c.settle }
    ∧ c.fcState ch = 3 ∧ c.rd (F.fcCfg_down (ch / 2) (ch % 2)) = 1 ∧ c.rd F.mossStatus_down = 2 ^ ch ∧ c.rd F.mossStatus_degraded = 1 ∧ c.rd
    F.mossStatus_offline = 0 ∧ c.rd (F.evCnt_count (384 + 16 * (ch / 2) + 2)) = min (s.chip.rd (F.evCnt_count (384 + 16 * (ch / 2) + 2)) + 1) (2 ^ 32 - 1) ∧
    (s.chip.poolWrites = true → ∃ r ∈ c.moss.buf, r.type = 0x0B ∧ r.payload = [ch, 1, 0, 0, 0, 0, 0, 0] ++ beBytes 16 (s.chip.chan ch).serial) ∧ c.moss.map =
    s.chip.moss.map ∧ s.chip.RegsBut c [F.fcStatus_state (ch / 2) (ch % 2), F.fcCfg_down (ch / 2) (ch % 2), F.mossStatus_down, F.mossStatus_degraded,
    F.mossStatus_offline, F.mossStatus_rebuilding]) ∧
  (∀ (ch k cause : Nat) (s : State), ch < 8 → k < 8 → k ≠ ch → s.chip.rd F.mossStatus_down = 2 ^ k → (s.chip.contextsParsed fun x => x.phase == .active &&
    x.cmd.opcode == 0x45) = [] → ∃ c : Chip, exec (.channelDown ch cause) s = .next { s with chip := c.settle } ∧ c.fcState ch = 3 ∧ (c.rd
    F.mossStatus_down).testBit ch = true ∧ (c.rd F.mossStatus_down).testBit k = true ∧ c.rd F.mossStatus_degraded = 0 ∧ c.rd F.mossStatus_offline = 1 ∧
    c.poolWrites = false ∧ c.rd (F.evCnt_count (512 + 23)) = min (s.chip.rd (F.evCnt_count (512 + 23)) + 1) (2 ^ 32 - 1) ∧ s.chip.RegsBut c [F.fcStatus_state
    (ch / 2) (ch % 2), F.fcCfg_down (ch / 2) (ch % 2), F.mossStatus_down, F.mossStatus_degraded, F.mossStatus_offline, F.mossStatus_rebuilding]) ∧
  (∀ (ch : Nat) (s : State), ch < 8 → s.chip.rd F.mossStatus_down = 0 → ∃ c : Chip, exec (.fcDownWrite ch true) s = .next { s with chip := c.settle } ∧
    c.fcState ch = 3 ∧ c.rd (F.fcCfg_down (ch / 2) (ch % 2)) = 1 ∧ c.rd F.mossStatus_down = 2 ^ ch ∧ c.rd F.mossStatus_degraded = 1 ∧ c.rd (F.evCnt_count
    (384 + 16 * (ch / 2) + 2)) = min (s.chip.rd (F.evCnt_count (384 + 16 * (ch / 2) + 2)) + 1) (2 ^ 32 - 1)) ∧
  (∀ (ch : Nat) (s : State), exec (.fcDownWrite ch false) s = .next s) ∧
  (∀ (ch n : Nat) (a : Option Bool) (found : List (Nat × TargetParams)) (s : State), (s.chip.rd F.mossStatus_down).testBit ch = false ∨ s.chip.channelOut ch
    = true → exec (.moduleArrival ch n a found) s = .next s) ∧
  (∀ (ch n : Nat) (s : State), ch < 8 → s.chip.channelOut ch = false → s.chip.rd F.mossStatus_down = 2 ^ ch → n = (s.chip.chan ch).lastSerial → ∃ c : Chip,
    exec (.moduleArrival ch n (some true) []) s = .next { s with chip := c.settle } ∧ c.fcState ch = 4 ∧ c.rd (F.fcCfg_down (ch / 2) (ch % 2)) = 0 ∧ c.rd
    F.mossStatus_down = 0 ∧ c.rd F.mossStatus_rebuilding = 1 ∧ c.rd F.mossStatus_degraded = 0 ∧ c.moss.rebuild.map (fun r => (r.1, r.2.1, r.2.2.1)) = some
    (ch, 0, 0) ∧ s.chip.RegsBut c [F.fcStatus_state (ch / 2) (ch % 2), F.fcStatus_targets (ch / 2) (ch % 2), F.fcCfg_down (ch / 2) (ch % 2),
    F.mossStatus_down, F.mossStatus_degraded, F.mossStatus_offline, F.mossStatus_rebuilding, F.mossProgress_op, F.mossProgress_done]) ∧
  (∀ (ch n : Nat) (a : Option Bool) (s : State), ch < 8 → s.chip.channelOut ch = false → (s.chip.rd F.mossStatus_down).testBit ch = true → a ≠ some true ∨ n
    ≠ (s.chip.chan ch).lastSerial → ∃ c : Chip, exec (.moduleArrival ch n a []) s = .next { s with chip := c } ∧ c.fcState ch = 5 ∧ (c.chan ch).serial = n ∧
    (c.chan ch).present = true ∧ c.rd F.mossStatus_down = s.chip.rd F.mossStatus_down ∧ c.rd (F.evCnt_count (384 + 16 * (ch / 2) + 3)) = min (s.chip.rd
    (F.evCnt_count (384 + 16 * (ch / 2) + 3)) + 1) (2 ^ 32 - 1) ∧ s.chip.RegsBut c [F.fcStatus_state (ch / 2) (ch % 2), F.fcStatus_targets (ch / 2) (ch %
    2)]) ∧
  (∀ (s : State), s.chip.moss.rebuild = none ∨ s.chip.rd F.mossStatus_offline = 1 → exec .rebuildRow s = .next s) ∧
  (∀ (ch at_ done total : Nat) (s : State), ch < 8 → s.chip.rd F.pwrStatus_state ≠ 2 → s.chip.rd F.mossStatus_offline = 0 → s.chip.moss.rebuild = some (ch,
    at_, done, total) → s.chip.moss.discards = [] → s.chip.moss.op = none → nextRow ((s.chip.rebuildSets ch).map fun k => (k, (s.chip.setSt k).row)) at_ =
    none → ∃ c : Chip, exec .rebuildRow s = .next { s with chip := c.settle } ∧ c.fcState ch = 2 ∧ c.rd F.mossStatus_rebuilding = 0 ∧ c.moss.rebuild = none ∧
    c.rd F.mossProgress_op = 0 ∧ c.rd F.mossProgress_done = 0 ∧ c.rd (F.evCnt_count (384 + 16 * (ch / 2) + 7)) = min (s.chip.rd (F.evCnt_count (384 + 16 *
    (ch / 2) + 7)) + 1) (2 ^ 32 - 1) ∧ s.chip.RegsBut c [F.fcStatus_state (ch / 2) (ch % 2), F.mossStatus_rebuilding, F.mossProgress_op,
    F.mossProgress_done]) ∧
  (∀ (ch at_ done total k row : Nat) (s : State), ch < 8 → s.chip.chUsable ch = true → s.chip.rd F.pwrStatus_state ≠ 2 → s.chip.rd F.mossStatus_offline = 0 →
    s.chip.moss.rebuild = some (ch, at_, done, total) → nextRow ((s.chip.rebuildSets ch).map fun k => (k, (s.chip.setSt k).row)) at_ = some (k, row) →
    (nextRow ((s.chip.rebuildSets ch).map fun k => (k, (s.chip.setSt k).row)) (at_ + 1)).isSome = true → ∃ c : Chip, exec .rebuildRow s = .next
    { s with chip := c.settle } ∧ c.moss.rebuild = some (ch, at_ + 1, done + 1, total) ∧ (∀ (bs : List Nat) (b : Nat), s.chip.rebuildPage ch k row = some bs
    → s.chip.setBlock ch k = some b → (c.pageAt ch (s.chip.setTarget k) b row).map (·.data) = some bs) ∧ c.moss.map = s.chip.moss.map ∧ s.chip.RegsBut c
    ([F.mossProgress_op, F.mossProgress_done] ++ snoopRuns)) ∧
  (∀ (km : Bool) (s : State), s.chip.rd F.mossStatus_mounted = 1 ∨ s.chip.power.discovered = false ∨ km = false ∨ s.chip.rd F.trust_disposed = 1 ∨
    s.chip.anchored = false ∨ 2 ≤ popCount 8 (s.chip.rd F.mossStatus_down) → ∃ c : Chip, exec (.poolMount km) s = .next { s with chip := c.settle } ∧
    c.power.mountTried = true ∧ c.moss = s.chip.moss ∧ s.chip.RegsBut c []) ∧
  (∀ (s : State), s.chip.rd F.mossStatus_mounted = 0 → s.chip.power.discovered = true → s.chip.anchored = true → s.chip.rd F.mossStatus_down = 0 →
    s.chip.lichenPages = [] → s.chip.rd F.trust_disposed = 0 → (∀ ch < 8, (s.chip.chan ch).reserve = [] ∨ (s.chip.chan ch).present = true) → ∃ c : Chip, exec
    (.poolMount true) s = .next { s with chip := c.settle } ∧ c.rd F.mossStatus_mounted = 1 ∧ c.rd F.mossStatus_offline = 0 ∧ c.rd F.mossStatus_sdiscard =
    (if s.chip.moss.discards = [] then 0 else 1) ∧ c.moss.openSet = [] ∧ (∀ k : Nat, (c.setSt k).phase ≠ 1) ∧ (∀ k : Nat, (s.chip.moss.sets.filter fun e =>
    e.1 == k).length = 1 → (s.chip.setSt k).phase = 1 → (c.setSt k).row = s.chip.safeRows k) ∧ c.moss.ckptAt = s.chip.now ∧ s.chip.RegsBut c
    [F.mossStatus_mounted, F.mossStatus_degraded, F.mossStatus_offline, F.mossStatus_sdiscard, F.mossStatus_free, F.mossProgress_op, F.mossProgress_done]) ∧
  (∀ (s : State), s.chip.poolWrites = true → s.chip.moss.discards = [] ∨ (s.chip.moss.discards.head?.any fun d => d.sets != []) = true → exec
    .secureDiscardDone s = .next { s with chip := s.chip.settle }) ∧
  (∀ (d : SecureDiscard) (s : State), s.chip.poolWrites = true → s.chip.moss.discards = [d] → d.sets = [] → d.cmd = none → s.chip.moss.rebuild = none → ∃ c :
    Chip, exec .secureDiscardDone s = .next { s with chip := c.settle } ∧ c.moss.discards = [] ∧ c.rd F.mossStatus_sdiscard = 0 ∧ c.rd F.mossProgress_op = 0
    ∧ c.rd (F.evCnt_count (512 + 25)) = min (s.chip.rd (F.evCnt_count (512 + 25)) + 1) (2 ^ 32 - 1) ∧ c.moss.lsn = s.chip.moss.lsn + 1 ∧ s.chip.RegsBut c
    [F.mossStatus_sdiscard, F.mossProgress_op, F.mossProgress_done]) ∧
  (∀ (ch t : Nat) (s : State), s.chip.channelRuns ch = true → s.chip.poolWrites = true → (s.chip.lichenBlk ch t).due = true → ∃ c : Chip, exec
    (.flashEraseDone (lichenSet + t) ch true) s = .next { s with chip := c.settle } ∧ (c.lichenBlk ch t).pages = [] ∧ (c.lichenBlk ch t).spent = 0 ∧
    (c.lichenBlk ch t).due = false ∧ (c.lichenBlk ch t).held = (s.chip.lichenBlk ch t).held ∧ tabGet (c.chan ch).erases (tgtBlk t (s.chip.lichenNo ch t)) =
    tabGet (s.chip.chan ch).erases (tgtBlk t (s.chip.lichenNo ch t)) + 1 ∧ c.moss.map = s.chip.moss.map ∧ s.chip.RegsBut c []) ∧
  (∀ (ch t left : Nat) (s : State), s.chip.channelRuns ch = true → s.chip.poolWrites = true → ch < 8 → (s.chip.lichenBlk ch t).due = true → tabGet
    (s.chip.chan ch).reserve t = left + 1 → ∃ c : Chip, exec (.flashEraseDone (lichenSet + t) ch false) s = .next { s with chip := c.settle } ∧ (c.lichenBlk
    ch t).taken = (s.chip.lichenBlk ch t).taken + 1 ∧ (c.lichenBlk ch t).due = true ∧ (c.lichenBlk ch t).held = (s.chip.lichenBlk ch t).held ∧ c.lichenNo ch
    t = s.chip.lichenNo ch t - 1 ∧ tabGet (c.chan ch).reserve t = left ∧ (c.chan ch).retired.contains (tgtBlk t (s.chip.lichenNo ch t)) = true ∧ c.rd
    (F.fcErr_retired (ch / 2) (ch % 2)) = min (s.chip.rd (F.fcErr_retired (ch / 2) (ch % 2)) + 1) (2 ^ 16 - 1) ∧ s.chip.RegsBut c [F.fcErr_erase_fail (ch /
    2) (ch % 2), F.fcErr_retired (ch / 2) (ch % 2)]) ∧
  (∀ (ch t : Nat) (s : State), s.chip.rd F.mossStatus_mounted = 0 → s.chip.power.discovered = true → s.chip.anchored = true → s.chip.rd F.mossStatus_down = 0
    → s.chip.rd F.trust_disposed = 0 → s.chip.moss.sets = [] → (∀ ch < 8, (s.chip.chan ch).reserve = [] ∨ (s.chip.chan ch).present = true) →
    s.chip.poolTargets = [(ch, t)] → (s.chip.lichenBlk ch t).absent = false → s.chip.lichenRoom ch t < 8 → ∃ c : Chip, exec (.poolMount true) s = .next
    { s with chip := c.settle } ∧ c.rd F.mossStatus_mounted = 1 ∧ (c.lichenBlk ch t).due = true ∧ (c.lichenBlk ch t).held = (s.chip.lichenBlk ch
    t).pages.filter (fun p => p.copy == s.chip.readCopy.savedCopy) ∧ (c.lichenBlk ch t).pages = (s.chip.lichenBlk ch t).pages)

/-- A frond's way from its first grant to BURNED (R305, R307 to R312, R598): it seals when its time is up, takes its manifest and parity once staged, waits
for drives, is placed on
eligible drives at a common T0 when the counts balance or the wait is over, has a returned pinna placed again, and is journaled
as BURNED when every pinna is complete; a warm reset's idle
pinna is queued again or returned. A frond in another state is left as it is. -/
def Obligations.FrondsSealAndFindTheirDrives : Prop :=
  (∀ (i : Nat) (s : State), findFrond s.chip.cat.fronds i = none → exec (.frondSealTimeout i) s = .next s ∧ exec (.frondSealingDone i) s = .next s ∧ exec
    (.frondParityDone i) s = .next s ∧ exec (.frondPlace i) s = .next s ∧ exec (.placeWaitExpiry i) s = .next s ∧ exec (.pinnaPlacedAgain i 0) s = .next s ∧
    exec (.frondBurned i) s = .next s ∧ exec (.runRequeue i 0) s = .next s) ∧
  (∀ (i : Nat) (f : FrondRec) (s : State), findFrond s.chip.cat.fronds i = some f → f.state ≠ .opened ∨ f.fill = 0 ∨ s.chip.now < f.openedAt + s.chip.rd
    F.frondCtrl_seal_s * 10 ^ 9 → exec (.frondSealTimeout i) s = .next s) ∧
  (∀ (i : Nat) (f : FrondRec) (s : State), findFrond s.chip.cat.fronds i = some f → f.state = .opened → f.fill ≠ 0 → s.chip.moss.op = none → f.openedAt +
    s.chip.rd F.frondCtrl_seal_s * 10 ^ 9 ≤ s.chip.now → ∃ c : Chip, exec (.frondSealTimeout i) s = .next { s with chip := c } ∧ (findFrond c.cat.fronds
    i).map (·.state) = some .sealing ∧ (∀ o ∈ c.cat.objects, ∀ g ∈ o.grant, g.frond ≠ i) ∧ s.chip.RegsBut c frondCounts) ∧
  (∀ (i : Nat) (f : FrondRec) (s : State), findFrond s.chip.cat.fronds i = some f → f.state ≠ .sealing ∨ s.chip.frondStaged i = false ∨ s.chip.poolWrites =
    false → exec (.frondSealingDone i) s = .next s) ∧
  (∀ (i : Nat) (f : FrondRec) (s : State), findFrond s.chip.cat.fronds i = some f → f.state = .sealing → s.chip.frondStaged i = true → s.chip.poolWrites =
    true → ∃ c : Chip, exec (.frondSealingDone i) s = .next { s with chip := c.settle } ∧ ((findFrond c.cat.fronds i).any fun g => g.state == .parity &&
    g.sealedAt == s.chip.sky_ && g.nExtents == (s.chip.frondExtents i).length) = true ∧ s.chip.RegsBut c ([F.mossCache_hits, F.mossCache_misses,
    F.mossStatus_free] ++ frondCounts ++ snoopRuns)) ∧
  (∀ (i : Nat) (f : FrondRec) (s : State), findFrond s.chip.cat.fronds i = some f → f.state ≠ .parity ∨ (f.coded = true ∧ s.chip.parityPending f = true) ∨
    (f.coded = false ∧ (s.chip.poolWrites = false ∨ ((List.range 4).all s.chip.sliceRuns) = false)) → exec (.frondParityDone i) s = .next s) ∧
  (∀ (i : Nat) (f : FrondRec) (s : State), findFrond s.chip.cat.fronds i = some f → f.state = .parity → f.coded = true → s.chip.parityPending f = false →
    s.chip.moss.op = none → ∃ c : Chip, exec (.frondParityDone i) s = .next { s with chip := c } ∧ (findFrond c.cat.fronds i).map (·.state) = some .placing ∧
    s.chip.RegsBut c frondCounts) ∧
  (∀ (i : Nat) (f : FrondRec) (s : State), findFrond s.chip.cat.fronds i = some f → f.state = .parity → f.coded = false → s.chip.poolWrites = true →
    ((List.range 4).all s.chip.sliceRuns) = true → ∃ c : Chip, exec (.frondParityDone i) s = .next { s with chip := c } ∧ (findFrond c.cat.fronds i).any (fun
    g => g.state == .parity && g.coded) = true ∧ c.free = s.chip.free + f.q * 16384 * f.k ∧ s.chip.RegsBut c ([F.mossCache_hits, F.mossCache_misses,
    F.mossStatus_free] ++ snoopRuns)) ∧
  (∀ (i : Nat) (f : FrondRec) (s : State), findFrond s.chip.cat.fronds i = some f → f.state ≠ .placing ∨ (handOut (fun r => (s.chip.eligibleIn f r).length)
    f.width [0, 0, 0, 0]).sum < f.width ∨ (f.waitedOut = false ∧ balanced (handOut (fun r => (s.chip.eligibleIn f r).length) f.width [0, 0, 0, 0]) = false) →
    exec (.frondPlace i) s = .next s) ∧
  (∀ (i : Nat) (f : FrondRec) (s : State), findFrond s.chip.cat.fronds i = some f → f.state = .placing → s.chip.moss.op = none → f.pinnae.length = f.width →
    f.width ≤ (handOut (fun r => (s.chip.eligibleIn f r).length) f.width [0, 0, 0, 0]).sum → balanced (handOut (fun r => (s.chip.eligibleIn f r).length)
    f.width [0, 0, 0, 0]) = true → ∃ c : Chip, exec (.frondPlace i) s = .next { s with chip := c } ∧ (findFrond c.cat.fronds i).any (fun g => g.state ==
    .burning && g.t0 == c.cat.lastT0 && g.pinnae.length == f.width && g.pinnae.all fun p => p.state == .burning && p.launch == g.t0 && s.chip.eligible f
    p.port == some (p.disc, p.side, p.layer)) = true ∧ c.cat.lastT0 % 10 ^ 6 = 0 ∧ s.chip.sky_ + s.chip.rd F.frondCtrl_burn_lead * 10 ^ 6 ≤ c.cat.lastT0 ∧
    s.chip.cat.lastT0 + s.chip.rd F.frondCtrl_run_step * 10 ^ 6 ≤ c.cat.lastT0 ∧ s.chip.RegsBut c (frondCounts ++ (List.range 24).map F.burnStatus_queued)) ∧
  (∀ (i : Nat) (f : FrondRec) (s : State), findFrond s.chip.cat.fronds i = some f → f.state = .placing → s.chip.moss.op = none → f.placingAt + s.chip.rd
    F.frondCtrl2_place_wait * 10 ^ 9 ≤ s.chip.now → f.pinnae.length = f.width → f.width ≤ (handOut (fun r => (s.chip.eligibleIn f r).length) f.width [0, 0,
    0, 0]).sum → balanced (handOut (fun r => (s.chip.eligibleIn f r).length) f.width [0, 0, 0, 0]) = false → ∃ c : Chip, exec (.placeWaitExpiry i) s = .next
    { s with chip := c } ∧ (findFrond c.cat.fronds i).any (fun g => g.state == .burning && g.t0 == c.cat.lastT0 && g.pinnae.all fun p => p.state == .burning
    && p.launch == g.t0) = true ∧ c.rd (F.evCnt_count (512 + 19)) = min (s.chip.rd (F.evCnt_count (512 + 19)) + 1) (2 ^ 32 - 1) ∧ s.chip.RegsBut c
    (frondCounts ++ (List.range 24).map F.burnStatus_queued)) ∧
  (∀ (i : Nat) (f : FrondRec) (s : State), findFrond s.chip.cat.fronds i = some f → f.state = .placing → s.chip.moss.op = none → f.placingAt + s.chip.rd
    F.frondCtrl2_place_wait * 10 ^ 9 ≤ s.chip.now → (handOut (fun r => (s.chip.eligibleIn f r).length) f.width [0, 0, 0, 0]).sum < f.width → ∃ c : Chip, exec
    (.placeWaitExpiry i) s = .next { s with chip := c } ∧ findFrond c.cat.fronds i = some { f with waitedOut := true } ∧ s.chip.RegsBut c []) ∧
  (∀ (i : Nat) (f : FrondRec) (s : State), findFrond s.chip.cat.fronds i = some f → s.chip.now < f.placingAt + s.chip.rd F.frondCtrl2_place_wait * 10 ^ 9 →
    exec (.placeWaitExpiry i) s = .next s) ∧
  (∀ (i pi : Nat) (f : FrondRec) (p : PinnaRec) (s : State), findFrond s.chip.cat.fronds i = some f → f.pinnae[pi]? = some p → f.state ≠ .burning ∨ p.state ≠
    .returned ∨ (∀ r < 4, s.chip.eligibleIn f r = []) → exec (.pinnaPlacedAgain i pi) s = .next s) ∧
  (∀ (i pi : Nat) (f : FrondRec) (p : PinnaRec) (s : State), findFrond s.chip.cat.fronds i = some f → f.pinnae[pi]? = some p → f.state = .burning → p.state =
    .returned → s.chip.moss.op = none → (∃ r < 4, s.chip.eligibleIn f r ≠ []) → ∃ c : Chip, exec (.pinnaPlacedAgain i pi) s = .next { s with chip := c } ∧
    ((findFrond c.cat.fronds i).bind fun g => g.pinnae[pi]?).any (fun q => q.state == .burning && q.launch == s.chip.runInstant f && q.moss == p.moss &&
    s.chip.eligible f q.port == some (q.disc, q.side, q.layer)) = true ∧ c.rd (F.evCnt_count (512 + 20)) = min (s.chip.rd (F.evCnt_count (512 + 20)) + 1) (2
    ^ 32 - 1) ∧ s.chip.RegsBut c (frondCounts ++ (List.range 24).map F.burnStatus_queued)) ∧
  (∀ (i : Nat) (f : FrondRec) (s : State), findFrond s.chip.cat.fronds i = some f → f.state ≠ .burning ∨ (∃ p ∈ f.pinnae, p.state ≠ .complete) → exec
    (.frondBurned i) s = .next s) ∧
  (∀ (i : Nat) (f : FrondRec) (s : State), findFrond s.chip.cat.fronds i = some f → f.state = .burning → (∀ p ∈ f.pinnae, p.state = .complete) →
    f.pinnae.length = f.width → s.chip.moss.op = none → ∃ c : Chip, exec (.frondBurned i) s = .next { s with chip := c.settle } ∧ ((findFrond c.cat.fronds
    i).any fun g => g.state == .burned && g.recLsn == c.catLsn) = true ∧ c.rd (F.evCnt_count (512 + 18)) = min (s.chip.rd (F.evCnt_count (512 + 18)) + 1) (2
    ^ 32 - 1) ∧ s.chip.RegsBut c frondCounts) ∧
  (∀ (i pi : Nat) (f : FrondRec) (p : PinnaRec) (s : State), findFrond s.chip.cat.fronds i = some f → f.pinnae[pi]? = some p → s.chip.power.app = false ∨
    f.state ≠ .burning ∨ p.state ≠ .burning → exec (.runRequeue i pi) s = .next s) ∧
  (∀ (i pi : Nat) (f : FrondRec) (p : PinnaRec) (s : State), findFrond s.chip.cat.fronds i = some f → f.pinnae[pi]? = some p → f.state = .burning → p.state =
    .burning → s.chip.moss.op = none → s.chip.power.app = true → (∀ q ∈ (s.chip.burnSt p.port).queue, q.frond ≠ i) → s.chip.mayBurn p.port = true →
    s.chip.loadedDisc p.port = some (p.disc, p.side) → ∃ c : Chip, exec (.runRequeue i pi) s = .next { s with chip := c } ∧ ((findFrond c.cat.fronds i).bind
    fun g => g.pinnae[pi]?).any (fun q => q.state == .burning && q.idle == false && q.port == p.port) = true ∧ s.chip.RegsBut c [F.burnStatus_queued p.port]) ∧
  (∀ (i pi : Nat) (f : FrondRec) (p : PinnaRec) (s : State), findFrond s.chip.cat.fronds i = some f → f.pinnae[pi]? = some p → f.state = .burning → p.state =
    .burning → s.chip.moss.op = none → s.chip.power.app = true → (∀ q ∈ (s.chip.burnSt p.port).queue, q.frond ≠ i) → s.chip.mayBurn p.port = false ∨
    s.chip.loadedDisc p.port ≠ some (p.disc, p.side) → ∃ c : Chip, exec (.runRequeue i pi) s = .next { s with chip := c } ∧ ((findFrond c.cat.fronds i).bind
    fun g => g.pinnae[pi]?).map (·.state) = some .returned ∧ s.chip.RegsBut c frondCounts)

/-- A restore read row by row and block by block (R191, R317 to R320, R361, R417): a row with k sectors in hand is rebuilt; one with fewer is read from its
parity pinnae not read yet, with what the command captured, or is lost with its event; the next block is delivered, noted as lost or as not authentic, or
made an erasure when its tag fails; the last one ends the read; with the pool offline a read of the moss tier fails. -/
def Obligations.RestoreReadsAreRepairedAndDelivered : Prop :=
  (∀ (n x i row : Nat) (s : State), s.chip.restore n x = none → exec (.rowRebuild n x i row) s = .next s ∧ exec (.rowRepair n x i row) s = .next s ∧ exec
    (.blockDelivery n x) s = .next s) ∧
  (∀ (n x i row : Nat) (r : RestoreSt) (f : FrondRec) (s : State), s.chip.restore n x = some r → findFrond s.chip.cat.fronds i = some f → s.chip.rowWants r f
    row = [] ∨ (s.chip.rowHand r f row).length < f.k ∨ r.given.contains (i, row) = true ∨ s.chip.sliceRuns row = false → exec (.rowRebuild n x i row) s =
    .next s) ∧
  (∀ (n x i row : Nat) (r : RestoreSt) (f : FrondRec) (s : State), s.chip.restore n x = some r → findFrond s.chip.cat.fronds i = some f → s.chip.rowWants r f
    row ≠ [] → f.k ≤ (s.chip.rowHand r f row).length → r.given.contains (i, row) = false → s.chip.sliceRuns row = true → ∃ c : Chip, exec (.rowRebuild n x i
    row) s = .next { s with chip := c } ∧ ((c.restore n x).any fun q => q.rebuilt == (i, row) :: r.rebuilt && q.next == r.next && q.lost == r.lost && q.rows
    == (((rebuildRow f.k (s.chip.rowHand r f row)).filter fun e => (s.chip.rowWants r f row).contains e.1).map fun e => ((i, row, e.1), e.2)) ++ r.rows) =
    true ∧ c.cat.fronds = s.chip.cat.fronds ∧ c.moss = s.chip.moss ∧ s.chip.RegsBut c []) ∧
  (∀ (n x i row : Nat) (r : RestoreSt) (f : FrondRec) (s : State), s.chip.restore n x = some r → findFrond s.chip.cat.fronds i = some f → s.chip.rowWants r f
    row = [] ∨ f.k ≤ (s.chip.rowHand r f row).length ∨ r.given.contains (i, row) = true ∨ s.chip.readersDone n x = false → exec (.rowRepair n x i row) s =
    .next s) ∧
  (∀ (n x i row : Nat) (r : RestoreSt) (f : FrondRec) (s : State), s.chip.restore n x = some r → findFrond s.chip.cat.fronds i = some f → s.chip.rowWants r f
    row ≠ [] → (s.chip.rowHand r f row).length < f.k → r.given.contains (i, row) = false → s.chip.readersDone n x = true → (∀ j < f.m, ((f.pinnae[f.k +
    j]?).bind fun p => s.chip.readerOf p) = none) → ∃ c : Chip, exec (.rowRepair n x i row) s = .next { s with chip := c } ∧ c.restore n x = some
    { r with given := (i, row) :: r.given } ∧ c.rd (F.evCnt_count (512 + 21)) = min (s.chip.rd (F.evCnt_count (512 + 21)) + 1) (2 ^ 32 - 1) ∧ c.moss =
    s.chip.moss ∧ s.chip.RegsBut c []) ∧
  (∀ (n x i row d : Nat) (r : RestoreSt) (f : FrondRec) (p : PinnaRec) (s : State), s.chip.restore n x = some r → findFrond s.chip.cat.fronds i = some f →
    s.chip.rowWants r f row ≠ [] → (s.chip.rowHand r f row).length < f.k → r.given.contains (i, row) = false → s.chip.readersDone n x = true → f.m = 1 →
    f.pinnae[f.k]? = some p → s.chip.readerOf p = some d → s.chip.sectorOf r f row f.k = none → r.erased.contains (i, row, f.k) = false → r.repair.contains
    (i, row) = false → (s.chip.burnSt d).run.isSome = true → ∃ c : Chip, exec (.rowRepair n x i row) s = .next { s with chip := c } ∧ c.restore n x = some
    { r with repair := (i, row) :: r.repair } ∧ (c.readSt d).queue = (s.chip.readSt d).queue ++ pinnaExtents (n * 4096 + x) (r.retry.getD (portRegion d) (0,
    0)).1 (r.retry.getD (portRegion d) (0, 0)).2 i f.k p row row ∧ s.chip.RegsBut c []) ∧
  (∀ (n x : Nat) (r : RestoreSt) (b : Nat × Nat × Nat) (f : FrondRec) (s : State), s.chip.restore n x = some r → s.chip.restoreCut n x = 0 →
    r.blocks[r.next]? = some b → findFrond s.chip.cat.fronds b.2.1 = some f → s.chip.judgeBlock r b.1 f b.2.2 = .wait → exec (.blockDelivery n x) s = .next
    s) ∧
  (∀ (n x : Nat) (r : RestoreSt) (b : Nat × Nat × Nat) (f : FrondRec) (s : State), s.chip.restore n x = some r → s.chip.restoreCut n x = 0 →
    r.blocks[r.next]? = some b → r.next + 1 < r.blocks.length → findFrond s.chip.cat.fronds b.2.1 = some f → s.chip.judgeBlock r b.1 f b.2.2 = .lost → ∃ c :
    Chip, exec (.blockDelivery n x) s = .next { s with chip := c } ∧ c.restore n x = some { r with next := r.next + 1, lost := r.lost ++ [b.1] } ∧
    s.chip.RegsBut c []) ∧
  (∀ (n x : Nat) (r : RestoreSt) (b : Nat × Nat × Nat) (f : FrondRec) (s : State), s.chip.restore n x = some r → s.chip.restoreCut n x = 0 →
    r.blocks[r.next]? = some b → r.next + 1 < r.blocks.length → findFrond s.chip.cat.fronds b.2.1 = some f → s.chip.judgeBlock r b.1 f b.2.2 = .authLost → ∃
    c : Chip, exec (.blockDelivery n x) s = .next { s with chip := c } ∧ c.restore n x = some
    { r with next := r.next + 1, authFailed := r.authFailed ++ [b.1] } ∧ c.rd (F.evCnt_count (512 + 22)) = min (s.chip.rd (F.evCnt_count (512 + 22)) + 1) (2
    ^ 32 - 1) ∧ s.chip.RegsBut c []) ∧
  (∀ (n x : Nat) (r : RestoreSt) (b : Nat × Nat × Nat) (f : FrondRec) (s : State), s.chip.restore n x = some r → s.chip.restoreCut n x = 0 →
    r.blocks[r.next]? = some b → findFrond s.chip.cat.fronds b.2.1 = some f → s.chip.judgeBlock r b.1 f b.2.2 = .badTag → ∃ c : Chip, exec (.blockDelivery n
    x) s = .next { s with chip := c } ∧ c.restore n x = some
    { r with rows := r.rows.filter (fun e => e.1 != (f.id, b.2.2 / f.k, b.2.2 % f.k)), erased := (f.id, b.2.2 / f.k, b.2.2 % f.k) :: r.erased } ∧
    s.chip.RegsBut c []) ∧
  (∀ (n x off : Nat) (bs : List Nat) (r : RestoreSt) (b : Nat × Nat × Nat) (f : FrondRec) (s : State), s.chip.restore n x = some r → s.chip.restoreCut n x =
    0 → r.blocks[r.next]? = some b → r.next + 1 < r.blocks.length → findFrond s.chip.cat.fronds b.2.1 = some f → s.chip.judgeBlock r b.1 f b.2.2 = .bytes off
    bs → (s.chip.sess n).die < 2 → ∃ c : Chip, exec (.blockDelivery n x) s = .next { s with chip := c } ∧ ((c.restore n x).any fun q => q.next == r.next + 1
    && q.lost == r.lost && q.data == r.data.take off ++ bs ++ r.data.drop (off + bs.length)) = true ∧ s.chip.RegsBut c ([F.mossCache_hits,
    F.mossCache_misses] ++ snoopRuns)) ∧
  (∀ (n x off : Nat) (bs : List Nat) (r : RestoreSt) (b : Nat × Nat × Nat) (f : FrondRec) (s : State), s.chip.restore n x = some r → s.chip.restoreCut n x =
    0 → r.blocks[r.next]? = some b → r.next + 1 = r.blocks.length → findFrond s.chip.cat.fronds b.2.1 = some f → s.chip.judgeBlock r b.1 f b.2.2 = .bytes off
    bs → r.ranges = [] → r.lost = [] → r.authFailed = [] → (s.chip.ctxSt n x).phase = .active → ∃ t : State, exec (.blockDelivery n x) s = .next t ∧
    t.pending = s.pending ∧ t.chip.restore n x = none ∧ (t.chip.ctxSt n x).status = some (statusPayload 0 ((s.chip.ctxSt n x).readFlags r.repaired)
    ((s.chip.ctxSt n x).readData bs.length r.repaired 0 (r.began.getD 0) []))) ∧
  (∀ (n x : Nat) (s : State), s.chip.restoreCut n x = 0x0405 → (s.chip.ctxSt n x).phase = .active → ∃ c : Chip, exec (.blockDelivery n x) s = .next
    { s with chip := c } ∧ (c.ctxSt n x).status = some (statusPayload 0x0405 0 []) ∧ c.restore n x = none ∧ c.moss = s.chip.moss ∧ s.chip.RegsBut c
    (s.chip.unitOf n x ++ c.hostCounts))

/-- Bed namespace commands (R337 to R340, R365, R408, R427 to R431): NS_CREATE makes a namespace within L and the quota and waits for its record; NS_LIST
answers the active ones; a bed command
whose namespace and range are good waits for its effect point, BED_WRITE first for its data; at the effect point a
read answers the blocks or the lost granule, an early write completes, another
waits until it is durable, a trim marks whole granules or is dropped, and
completes, a deletion takes the namespace; FLUSH waits for what is not durable. -/
def Obligations.BedNamespacesAreServed : Prop :=
  (∀ (n x : Nat) (k : Cmd) (s : State), s.chip.serves n x 0x40 = true → (s.chip.ctxSt n x).cmd = k → k.p0 < 60 → k.p0 ≠ 0 → (s.chip.ns k.p0).active = false →
    s.chip.poolCode = 0 → (s.chip.fetched n x).nsRoom n k = 0 → ∃ c : Chip, exec (.nsCreate n x) s = .next (State.allHooks { s with chip := c.settle }) ∧
    c.ns k.p0 = ⟨true, k.p1, n⟩ ∧ (∀ i < 60, i ≠ k.p0 → c.ns i = s.chip.ns i) ∧ c.moss.buf = s.chip.moss.buf ++ [⟨s.chip.moss.lsn + 1, 0x0D, false, [k.p0, 1,
    0, 0, 0, 0, 0, 0] ++ beBytes 8 k.p1, none⟩] ∧ (c.ctxSt n x).phase = .active ∧ (c.ctxSt n x).wait = .durable [s.chip.moss.lsn + 1] ∧ s.chip.RegsBut c
    c.hostCounts) ∧
  (∀ (n x code : Nat) (k : Cmd) (s : State), s.chip.serves n x 0x40 = true → (s.chip.ctxSt n x).cmd = k → (if 60 ≤ k.p0 then 0x0102 else if (s.chip.fetched n
    x).nsRoom n k ≠ 0 then (s.chip.fetched n x).nsRoom n k else if k.p0 = 0 ∨ (s.chip.ns k.p0).active = true then 0x0508 else s.chip.poolCode) = code → code
    ≠ 0 → ∃ c : Chip, exec (.nsCreate n x) s = .next (State.allHooks { s with chip := c }) ∧ (c.ctxSt n x).status = some (statusPayload code 0 []) ∧ c.moss =
    s.chip.moss ∧ s.chip.RegsBut c (s.chip.unitOf n x ++ c.hostCounts)) ∧
  (∀ (n x : Nat) (s : State), s.chip.serves n x 0x46 = true → (s.chip.moss.ns.filter fun e => e.2.active) = [] → ∃ t : State, exec (.nsList n x) s = .next
    (State.allHooks t) ∧ (t.chip.ctxSt n x).status = some (statusPayload 0 0 (beBytes 4 0 ++ [0])) ∧ t.chip.moss = s.chip.moss) ∧
  (∀ (n x : Nat) (s : State), s.chip.serves n x 0x42 = true → (s.chip.fetched n x).bedCode (s.chip.ctxSt n x).cmd = 0 → s.chip.poolCode = 0 → ∃ c : Chip,
    exec (.bedRead n x) s = .next (State.allHooks { s with chip := c }) ∧ (c.ctxSt n x).phase = .active ∧ (c.ctxSt n x).wait = .effect ∧ c.moss = s.chip.moss
    ∧ s.chip.RegsBut c c.hostCounts) ∧
  (∀ (n x : Nat) (s : State), s.chip.serves n x 0x44 = true → (s.chip.fetched n x).bedCode (s.chip.ctxSt n x).cmd = 0 → s.chip.poolCode = 0 → ∃ c : Chip,
    exec (.bedTrim n x) s = .next (State.allHooks { s with chip := c }) ∧ (c.ctxSt n x).phase = .active ∧ (c.ctxSt n x).wait = .effect ∧ c.moss = s.chip.moss
    ∧ s.chip.RegsBut c c.hostCounts) ∧
  (∀ (n x : Nat) (s : State), s.chip.serves n x 0x41 = true → (s.chip.ctxSt n x).cmd.cflags.testBit 0 = false → (s.chip.fetched n x).bedCode (s.chip.ctxSt n
    x).cmd = 0 → s.chip.poolCode = 0 → ∃ c : Chip, exec (.nsDelete n x) s = .next (State.allHooks { s with chip := c }) ∧ (c.ctxSt n x).phase = .active ∧
    (c.ctxSt n x).wait = .effect ∧ c.moss = s.chip.moss ∧ s.chip.RegsBut c c.hostCounts) ∧
  (∀ (n x : Nat) (s : State), s.chip.serves n x 0x41 = true → (s.chip.ctxSt n x).cmd.cflags.testBit 0 = true → (s.chip.fetched n x).bedCode (s.chip.ctxSt n
    x).cmd = 0 → s.chip.poolCode = 0 → ∃ c : Chip, exec (.nsDeleteSecure n x) s = .next (State.allHooks { s with chip := c }) ∧ (c.ctxSt n x).phase = .active
    ∧ (c.ctxSt n x).wait = .effect ∧ c.moss = s.chip.moss ∧ s.chip.RegsBut c c.hostCounts) ∧
  (∀ (n x : Nat) (s : State), s.chip.serves n x 0x43 = true → (s.chip.fetched n x).bedCode (s.chip.ctxSt n x).cmd = 0 → s.chip.poolCode = 0 → ∃ c : Chip,
    exec (.bedWrite n x) s = .next (State.allHooks { s with chip := c }) ∧ (c.ctxSt n x).phase = .active ∧ (c.ctxSt n x).wait = (if (s.chip.ctxSt n
    x).cmd.dlen = 0 then .effect else .dataOut) ∧ c.moss = s.chip.moss ∧ s.chip.RegsBut c c.hostCounts) ∧
  (∀ (n x code : Nat) (s : State), s.chip.serves n x 0x42 = true → (if (s.chip.fetched n x).bedCode (s.chip.ctxSt n x).cmd ≠ 0 then (s.chip.fetched n
    x).bedCode (s.chip.ctxSt n x).cmd else s.chip.poolCode) = code → code ≠ 0 → ∃ c : Chip, exec (.bedRead n x) s = .next (State.allHooks
    { s with chip := c }) ∧ (c.ctxSt n x).status = some (statusPayload code 0 []) ∧ c.moss = s.chip.moss ∧ s.chip.RegsBut c (s.chip.unitOf n x ++
    c.hostCounts)) ∧
  (∀ (n x : Nat) (s : State), (s.chip.ctxSt n x).phase ≠ .active ∨ (s.chip.ctxSt n x).wait ≠ .effect ∨ s.chip.effectFree n x = false ∨ s.chip.sessionFrozen
    (n - 1) = true → exec (.bedEffectPoint n x) s = .next s) ∧
  (∀ (n x tl : Nat) (k : Cmd) (bs : List Nat) (s : State), s.chip.readSpace (k.p0 + 1) (4096 * k.p1) k.dlen = some bs → bs.length = 4096 → s.chip.hasEffect n
    x k = true → k.opcode = 0x42 → s.chip.poolCode = 0 → s.chip.chooseTiles (s.chip.sess n).die 1 = [tl] → tl < 2 ^ 21 → ∃ t : State, exec (.bedEffectPoint n
    x) s = .next { t with chip := t.chip.settle } ∧ (t.chip.ctxSt n x).status = some (statusPayload 0 0 []) ∧ (t.chip.ctxSt n x).phase = .retained ∧ Out.qcp
    0x13 n k.queue ((s.chip.sess n).txSeq + 1) x k.tag 2 0 (bs.map (· % 256)) ∈ t.chip.sent ∧ s.MemBut t (tileAddr tl) 4096) ∧
  (∀ (n x : Nat) (k : Cmd) (s : State), s.chip.hasEffect n x k = true → k.opcode = 0x42 → s.chip.poolCode = 0 → s.chip.readSpace (k.p0 + 1) (4096 * k.p1)
    k.dlen = none → ∃ c : Chip, exec (.bedEffectPoint n x) s = .next { s with chip := c.settle } ∧ (c.ctxSt n x).status = some (statusPayload 0x0402 0 []) ∧
    c.moss = s.chip.moss) ∧
  (∀ (n x : Nat) (k : Cmd) (s : State), s.chip.hasEffect n x k = true → k.opcode = 0x43 → s.chip.poolCode = 0 → k.cflags.testBit 0 = true → (∀ tl ∈
    (s.chip.ctxSt n x).tiles, s.tileGood tl = true) → ∃ c : Chip, exec (.bedEffectPoint n x) s = .next { s with chip := c.settle } ∧ (c.ctxSt n x).status =
    some (statusPayload 0 0 []) ∧ c.moss.ns = s.chip.moss.ns) ∧
  (∀ (n x g : Nat) (k : Cmd) (bs : List Nat) (p : Place) (s : State), s.tilesRange (s.chip.ctxSt n x).tiles 0 16384 = bs → bs.length = 16384 → (∀ tl ∈
    (s.chip.ctxSt n x).tiles, s.tileGood tl = true) → s.chip.hasEffect n x k = true → k.opcode = 0x43 → s.chip.poolCode = 0 → k.cflags.testBit 0 = false →
    k.p1 = 4 * g → g < 2 ^ 32 → k.p0 < 60 → k.dlen = 16384 → (((s.chip.modCtx n x fun y => { y with effect := true }).modMoss fun m =>
    { m with lsn := m.lsn + 1 }).placePage 1 0 (k.p0 + 1) g (s.chip.moss.lsn + 1) bs).1 = some p → ∃ c : Chip, exec (.bedEffectPoint n x) s = .next
    { s with chip := c.settle } ∧ (c.ctxSt n x).wait = .durable [s.chip.moss.lsn + 1] ∧ c.mapEnt (k.p0 + 1) g = ⟨1, p.ch, s.chip.setTarget p.set,
    (s.chip.setBlock p.ch p.set).getD 0, p.row⟩ ∧ (∃ r ∈ c.moss.buf, r.type = 0x01 ∧ r.lsn = s.chip.moss.lsn + 1) ∧ s.chip.RegsBut c ([F.mossCache_hits,
    F.mossCache_misses, F.mossStatus_free] ++ snoopRuns)) ∧
  (∀ (n x : Nat) (k : Cmd) (s : State), s.chip.hasEffect n x k = true → k.opcode = 0x44 → s.chip.poolCode = 0 → k.p1 + k.p2 ≤ 2 ^ 34 → ∃ c : Chip, exec
    (.bedEffectPoint n x) s = .next { s with chip := c.settle } ∧ (c.ctxSt n x).status = some (statusPayload 0 0 []) ∧ c.moss.flash = s.chip.moss.flash ∧ ((∀
    g : Nat, (k.p1 + 3) / 4 ≤ g → g < (k.p1 + k.p2) / 4 → c.readGranule (k.p0 + 1) g = some zeroGranule) ∨ ∀ sp g : Nat, g < 2 ^ 32 → c.mapEnt sp g =
    s.chip.mapEnt sp g) ∧ (∀ sp g : Nat, g < 2 ^ 32 → sp ≠ k.p0 + 1 ∨ g < (k.p1 + 3) / 4 ∨ (k.p1 + k.p2) / 4 ≤ g → c.mapEnt sp g = s.chip.mapEnt sp g)) ∧
  (∀ (n x : Nat) (k : Cmd) (s : State), s.chip.hasEffect n x k = true → k.opcode = 0x41 → s.chip.poolCode = 0 → k.cflags.testBit 0 = false → ∃ c : Chip, exec
    (.bedEffectPoint n x) s = .next { s with chip := c.settle } ∧ (c.ns k.p0).active = false ∧ (c.ctxSt n x).wait = .durable [s.chip.moss.lsn + 1] ∧ (∃ r ∈
    c.moss.buf, r.type = 0x0D ∧ r.lsn = s.chip.moss.lsn + 1 ∧ r.payload = [k.p0, 0, 0, 0, 0, 0, 0, 0] ++ beBytes 8 (s.chip.ns k.p0).size) ∧ (∀ i < 60, i ≠
    k.p0 → c.ns i = s.chip.ns i) ∧ s.chip.RegsBut c []) ∧
  (∀ (n x : Nat) (k : Cmd) (s : State), s.chip.hasEffect n x k = true → k.opcode = 0x41 → s.chip.poolCode = 0 → k.cflags.testBit 0 = true → s.chip.moss.op =
    none → s.chip.moss.discards = [] → ∃ c : Chip, exec (.bedEffectPoint n x) s = .next { s with chip := c.settle } ∧ (c.ns k.p0).active = false ∧ (c.ctxSt n
    x).wait = .activity ∧ c.moss.discards.map (fun d => (d.cmd, d.ranges)) = [(some (n, x), [(k.p0 + 1, 0, (s.chip.ns k.p0).size)])] ∧ c.rd
    F.mossStatus_sdiscard = 1 ∧ c.rd F.mossProgress_op = 3 ∧ s.chip.RegsBut c [F.mossStatus_sdiscard, F.mossProgress_op, F.mossProgress_done]) ∧
  (∀ (n x code : Nat) (k : Cmd) (s : State), s.chip.hasEffect n x k = true → s.chip.poolCode = code → code ≠ 0 → ∃ c : Chip, exec (.bedEffectPoint n x) s =
    .next { s with chip := c.settle } ∧ (c.ctxSt n x).status = some (statusPayload code 0 []) ∧ c.moss = s.chip.moss) ∧
  (∀ (n x : Nat) (s : State), s.chip.serves n x 0x45 = true → s.chip.rd F.mossStatus_offline = 0 → ∃ c : Chip, exec (.flush n x) s = .next (State.allHooks
    { s with chip := c.settle }) ∧ (c.ctxSt n x).phase = .active ∧ (c.ctxSt n x).wait = .durable (s.chip.fetched n x).flushLsns ∧ c.moss = s.chip.moss ∧
    s.chip.RegsBut c c.hostCounts) ∧
  (∀ (n x : Nat) (k : Cmd) (ls : List Nat) (s : State), s.chip.poolWrites = true → s.chip.cat = default → s.chip.catSnaps = [] → s.chip.moss.recs = [] →
    s.chip.moss.writes = [] → s.chip.moss.sets = [] → s.chip.moss.buf = [] → (s.chip.contextsParsed fun y => y.phase == .active) = [(n, x)] → (s.chip.ctxSt n
    x).wait = .durable ls → (s.chip.ctxSt n x).cmd = k → k.opcode ≠ 0x43 → n ≤ 256 → ∃ c : Chip, exec .catalogueFlush s = .next { s with chip := c } ∧
    (c.ctxSt n x).status = some (statusPayload 0 0 []) ∧ (c.ctxSt n x).phase ≠ .active ∧ c.moss = s.chip.moss)

/-- Object and frond commands (R295 to R302, R307, R320, R361, R387, R415, R422 to R426, R478): OBJ_CREATE enters an open object and waits for its record;
OBJ_PUT takes a snoop unit and starts its data phase,
or waits for a unit; a read starts its restore; the status commands answer; OBJ_SEAL seals the
shape's open frond; OBJ_DISCARD marks the object, with secure it also destroys its key; OVERBURN waits for the
pinnae it queues. Each is refused with the
first check that fails. -/
def Obligations.ObjectCommandsAct : Prop :=
  (∀ (n x : Nat) (k : Cmd) (s : State), s.chip.serves n x 0x20 = true → (s.chip.ctxSt n x).cmd = k → k.p0 ≠ 0 → k.p0 < 2 ^ 64 → k.p2 / 16 % 4 < 3 →
    (s.chip.fetched n x).createCode k = 0 → ∃ c : Chip, exec (.objCreate n x) s = .next (State.allHooks { s with chip := c.settle }) ∧ ((findObj
    c.cat.objects k.p0).any fun o => o.state == .opened && o.declared == k.p1 && o.length == 0 && o.level == k.p2 / 16 % 4 && o.poly == k.p2 / 64 % 4 &&
    o.shape == (if k.p2.testBit 3 then k.p2 % 8 else 0) && o.owner == (s.chip.sess n).cred && o.session == n && o.extents == []) = true ∧ (c.ctxSt n x).phase
    = .active ∧ (c.ctxSt n x).wait = .durable [c.catLsn] ∧ s.chip.RegsBut c c.hostCounts) ∧
  (∀ (n x code : Nat) (k : Cmd) (s : State), s.chip.serves n x 0x20 = true → (s.chip.ctxSt n x).cmd = k → (if k.p0 = 0 ∨ 3 ≤ k.p2 / 16 % 4 then 0x0102 else
    (s.chip.fetched n x).createCode k) = code → code ≠ 0 → ∃ c : Chip, exec (.objCreate n x) s = .next (State.allHooks { s with chip := c }) ∧ (c.ctxSt n
    x).status = some (statusPayload code 0 []) ∧ c.cat = s.chip.cat ∧ s.chip.RegsBut c (s.chip.unitOf n x ++ c.hostCounts)) ∧
  (∀ (n x u : Nat) (k : Cmd) (s : State), s.chip.serves n x 0x21 = true → (s.chip.ctxSt n x).cmd = k → k.dlen ≠ 0 → (s.chip.fetched n x).putCode k = 0 →
    (s.chip.fetched n x).putRoom k = 0 → (s.chip.fetched n x).freeSnoop (s.chip.sess n).die = some u → ∃ c : Chip, exec (.objPut n x) s = .next
    (State.allHooks { s with chip := c }) ∧ (c.ctxSt n x).phase = .active ∧ (c.ctxSt n x).wait = .dataOut ∧ (c.ctxSt n x).snoop = some u ∧ (c.ctxSt n
    x).object = k.p0 ∧ c.rd (F.snoopCfg_en (s.chip.sess n).die u) = 1 ∧ c.rd (F.snoopCfg_kind (s.chip.sess n).die u) = 0 ∧ c.cat = s.chip.cat ∧
    s.chip.RegsBut c (snoopUnit (s.chip.sess n).die u ++ c.hostCounts)) ∧
  (∀ (n x : Nat) (k : Cmd) (s : State), s.chip.serves n x 0x21 = true → (s.chip.ctxSt n x).cmd = k → (s.chip.fetched n x).putCode k = 0 → (s.chip.fetched n
    x).putRoom k = 0 → (s.chip.fetched n x).freeSnoop (s.chip.sess n).die = none → ∃ c : Chip, exec (.objPut n x) s = .next (State.allHooks
    { s with chip := c }) ∧ (c.ctxSt n x).phase = .active ∧ (c.ctxSt n x).wait = .snoop ∧ (c.bufSt (s.chip.sess n).die).snoopWait = (s.chip.bufSt
    (s.chip.sess n).die).snoopWait ++ [(n, x)] ∧ c.cat = s.chip.cat ∧ s.chip.RegsBut c c.hostCounts) ∧
  (∀ (n x : Nat) (o : ObjRec) (k : Cmd) (s : State), s.chip.serves n x 0x21 = true → (s.chip.ctxSt n x).cmd = k → (s.chip.fetched n x).putCode k = 0 →
    findObj s.chip.cat.objects k.p0 = some o → o.extents = [] → o.grant = none → 0 < k.p1 + k.dlen → 0 < s.chip.rd (F.quota_moss (o.session - 1)) → s.chip.rd
    (F.quota_moss (o.session - 1)) * 2 ^ 30 < s.chip.mossUse o.session + 4096 * s.chip.grantSize o → ∃ c : Chip, exec (.objPut n x) s = .next (State.allHooks
    { s with chip := c }) ∧ (c.ctxSt n x).status = some (statusPayload 0x0201 0 []) ∧ c.cat = s.chip.cat ∧ s.chip.RegsBut c (s.chip.unitOf n x ++
    c.hostCounts)) ∧
  (∀ (n x code : Nat) (k : Cmd) (s : State), s.chip.serves n x 0x21 = true → (s.chip.ctxSt n x).cmd = k → (s.chip.fetched n x).putCode k = code → code ≠ 0 →
    ∃ c : Chip, exec (.objPut n x) s = .next (State.allHooks { s with chip := c }) ∧ (c.ctxSt n x).status = some (statusPayload code 0 []) ∧ c.cat =
    s.chip.cat ∧ s.chip.RegsBut c (s.chip.unitOf n x ++ c.hostCounts)) ∧
  (∀ (e : Nat) (s : State), s.chip.freeSnoop e = none ∨ (s.chip.bufSt e).snoopWait = [] → exec (.snoopUnitAdmit e) s = .next s) ∧
  (∀ (e u n x : Nat) (o : ObjRec) (s : State), s.chip.freeSnoop e = some u → (s.chip.bufSt e).snoopWait = [(n, x)] → (s.chip.sess n).die = e → (s.chip.ctxSt
    n x).phase = .active → (s.chip.ctxSt n x).wait = .snoop → (s.chip.ctxSt n x).hw < 4096 → (s.chip.ctxSt n x).snoop = none → (s.chip.ctxSt n x).cmd.opcode
    = 0x21 → (s.chip.ctxSt n x).cmd.dlen ≠ 0 → findObj s.chip.cat.objects (s.chip.ctxSt n x).object = some o → ∃ c : Chip, exec (.snoopUnitAdmit e) s = .next
    (State.allHooks { s with chip := c }) ∧ (c.ctxSt n x).wait = .dataOut ∧ (c.ctxSt n x).snoop = some u ∧ (c.bufSt e).snoopWait = [] ∧ (c.bufSt e).snoopPtr
    = ((s.chip.ctxSt n x).hw + 1) % 4096 ∧ c.rd (F.snoopCfg_en e u) = 1 ∧ c.rd (F.snoopRun_run e u) = o.running % 2 ^ 64 ∧ s.chip.RegsBut c (snoopUnit e u)) ∧
  (∀ (n x u : Nat) (k : Cmd) (s : State), s.chip.serves n x 0x22 = true → (s.chip.ctxSt n x).cmd = k → (s.chip.fetched n x).getCode k = 0 → s.chip.allReaders
    n x k = [] → s.chip.wantedBlocks k ≠ [] → (s.chip.sess n).die < 2 → s.chip.restore n x = none → (s.chip.fetched n x).freeSnoop (s.chip.sess n).die = some
    u → ∃ c : Chip, exec (.objGet n x) s = .next (State.allHooks { s with chip := c }) ∧ (c.ctxSt n x).phase = .active ∧ (c.ctxSt n x).wait = .activity ∧
    ((c.restore n x).any fun r => r.object == k.p0 && r.offset == k.p1 && r.length == k.dlen && r.blocks == s.chip.wantedBlocks k && r.next == 0) = true ∧
    s.chip.RegsBut c (snoopUnit (s.chip.sess n).die u ++ c.hostCounts)) ∧
  (∀ (n x code : Nat) (k : Cmd) (s : State), s.chip.serves n x 0x22 = true → (s.chip.ctxSt n x).cmd = k → (s.chip.fetched n x).getCode k = code → code ≠ 0 →
    ∃ c : Chip, exec (.objGet n x) s = .next (State.allHooks { s with chip := c }) ∧ (c.ctxSt n x).status = some (statusPayload code 0 []) ∧ c.cat =
    s.chip.cat ∧ s.chip.RegsBut c (s.chip.unitOf n x ++ c.hostCounts)) ∧
  (∀ (n x : Nat) (k : Cmd) (f : FrondRec) (s : State), s.chip.serves n x 0x27 = true → (s.chip.ctxSt n x).cmd = k → findFrond s.chip.cat.fronds k.p0 = some f
    → 4096 ≤ k.dlen → k.p1 + k.dlen / 4096 ≤ f.blocks → f.inMoss = true → s.chip.poolCode = 0 → s.chip.restore n x = none → ∃ c : Chip, exec (.frondRead n x)
    s = .next (State.allHooks { s with chip := c }) ∧ (c.ctxSt n x).phase = .active ∧ (c.ctxSt n x).wait = .activity ∧ ((c.restore n x).any fun r => r.object
    == 0 && r.blocks == (List.range (k.dlen / 4096)).map (fun i => (k.p1 + i, k.p0, k.p1 + i)) && r.next == 0) = true ∧ s.chip.RegsBut c c.hostCounts) ∧
  (∀ (n x : Nat) (k : Cmd) (s : State), s.chip.serves n x 0x27 = true → (s.chip.ctxSt n x).cmd = k → k.dlen = 0 ∨ (findFrond s.chip.cat.fronds k.p0).any (fun
    f => decide (f.blocks < k.p1 + k.dlen / 4096)) = true → ∃ c : Chip, exec (.frondRead n x) s = .next (State.allHooks { s with chip := c }) ∧ (c.ctxSt n
    x).status = some (statusPayload 0x0102 0 []) ∧ s.chip.RegsBut c (s.chip.unitOf n x ++ c.hostCounts)) ∧
  (∀ (n x : Nat) (o : ObjRec) (s : State), s.chip.serves n x 0x23 = true → findObj s.chip.cat.objects (s.chip.ctxSt n x).cmd.p0 = some o → ∃ c : Chip, exec
    (.objStatus n x) s = .next (State.allHooks { s with chip := c }) ∧ (c.ctxSt n x).status = some (statusPayload 0 0 (s.chip.objStatusData o)) ∧
    s.chip.RegsBut c (s.chip.unitOf n x ++ c.hostCounts)) ∧
  (∀ (n x : Nat) (f : FrondRec) (s : State), s.chip.serves n x 0x28 = true → findFrond s.chip.cat.fronds (s.chip.ctxSt n x).cmd.p0 = some f → ∃ c : Chip,
    exec (.frondStatus n x) s = .next (State.allHooks { s with chip := c }) ∧ (c.ctxSt n x).status = some (statusPayload 0 0 f.statusData) ∧ s.chip.RegsBut c
    (s.chip.unitOf n x ++ c.hostCounts)) ∧
  (∀ (n x : Nat) (s : State), s.chip.serves n x 0x23 = true → findObj s.chip.cat.objects (s.chip.ctxSt n x).cmd.p0 = none → ∃ c : Chip, exec (.objStatus n x)
    s = .next (State.allHooks { s with chip := c }) ∧ (c.ctxSt n x).status = some (statusPayload 0x0502 0 []) ∧ s.chip.RegsBut c (s.chip.unitOf n x ++
    c.hostCounts)) ∧
  (∀ (n x : Nat) (s : State), s.chip.serves n x 0x26 = true → (s.chip.cat.objects.filter fun o => decide ((s.chip.ctxSt n x).cmd.p0 ≤ o.id) && decide (o.id <
    2 ^ 64) && o.state != .discarded) = [] → ∃ t : State, exec (.objList n x) s = .next (State.allHooks t) ∧ (t.chip.ctxSt n x).status = some (statusPayload
    0 0 (beBytes 4 0 ++ [0])) ∧ t.chip.cat = s.chip.cat) ∧
  (∀ (n x : Nat) (s : State), s.chip.serves n x 0x24 = true → 8 ≤ (s.chip.ctxSt n x).cmd.p0 ∨ s.chip.shapeOk (s.chip.ctxSt n x).cmd.p0 = false → ∃ c : Chip,
    exec (.objSeal n x) s = .next (State.allHooks { s with chip := c }) ∧ (c.ctxSt n x).status = some (statusPayload 0x0507 0 []) ∧ s.chip.RegsBut c
    (s.chip.unitOf n x ++ c.hostCounts)) ∧
  (∀ (n x : Nat) (f : FrondRec) (s : State), s.chip.serves n x 0x24 = true → (s.chip.ctxSt n x).cmd.p0 < 8 → s.chip.shapeOk (s.chip.ctxSt n x).cmd.p0 = true
    → s.chip.frondOpen (s.chip.ctxSt n x).cmd.p0 = some f → ∃ c : Chip, exec (.objSeal n x) s = .next (State.allHooks { s with chip := c.settle }) ∧
    (findFrond c.cat.fronds f.id).map (·.state) ≠ some .opened ∧ (c.ctxSt n x).phase = .active ∧ (c.ctxSt n x).wait = .durable [c.catLsn] ∧ s.chip.RegsBut c
    (frondCounts ++ c.hostCounts)) ∧
  (∀ (n x : Nat) (k : Cmd) (s : State), s.chip.serves n x 0x25 = true → (s.chip.ctxSt n x).cmd = k → k.cflags.testBit 0 = false → (s.chip.fetched n
    x).discardCode n x k = 0 → ∃ c : Chip, exec (.objDiscard n x) s = .next (State.allHooks { s with chip := c.settle }) ∧ (findObj c.cat.objects k.p0).any
    (fun o => o.state == .discarded && o.grant == none) = true ∧ (c.ctxSt n x).phase = .active ∧ c.trust.destroyed = s.chip.trust.destroyed ∧ s.chip.RegsBut
    c c.hostCounts) ∧
  (∀ (n x : Nat) (k : Cmd) (o : ObjRec) (s : State), s.chip.serves n x 0x25 = true → (s.chip.ctxSt n x).cmd = k → k.cflags.testBit 0 = true → (s.chip.fetched
    n x).discardCode n x k = 0 → findObj s.chip.cat.objects k.p0 = some o → s.chip.moss.op = none → s.chip.moss.discards = [] → o.extents = [] → ∃ c : Chip,
    exec (.objDiscardSecure n x) s = .next (State.allHooks { s with chip := c.settle }) ∧ (findObj c.cat.objects k.p0).map (·.state) = some .discarded ∧
    c.trust.destroyed = s.chip.trust.destroyed ++ [(k.p0, o.salt)] ∧ (c.ctxSt n x).wait = .activity ∧ c.moss.discards.map (fun d => (d.cmd, d.object)) =
    [(some (n, x), k.p0)] ∧ c.rd F.mossStatus_sdiscard = 1 ∧ s.chip.RegsBut c ([F.mossStatus_sdiscard, F.mossProgress_op, F.mossProgress_done] ++
    c.hostCounts)) ∧
  (∀ (n x code : Nat) (k : Cmd) (s : State), s.chip.serves n x 0x25 = true → (s.chip.ctxSt n x).cmd = k → k.cflags.testBit 0 = false → (s.chip.fetched n
    x).discardCode n x k = code → code ≠ 0 → ∃ c : Chip, exec (.objDiscard n x) s = .next (State.allHooks { s with chip := c }) ∧ (c.ctxSt n x).status = some
    (statusPayload code 0 []) ∧ c.cat = s.chip.cat ∧ s.chip.RegsBut c (s.chip.unitOf n x ++ c.hostCounts)) ∧
  (∀ (n x : Nat) (k : Cmd) (f : FrondRec) (s : State), s.chip.serves n x 0x29 = true → (s.chip.ctxSt n x).cmd = k → (s.chip.fetched n x).overburnCode k = 0 →
    findFrond s.chip.cat.fronds k.p0 = some f → (∀ p ∈ f.pinnae, p.firstPsa = []) → ∃ c : Chip, exec (.overburn n x) s = .next (State.allHooks
    { s with chip := c }) ∧ (c.ctxSt n x).status = some (statusPayload 0 0 []) ∧ c.svc = s.chip.svc ∧ s.chip.RegsBut c (s.chip.unitOf n x ++ c.hostCounts)) ∧
  (∀ (n x : Nat) (k : Cmd) (f : FrondRec) (s : State), s.chip.serves n x 0x29 = true → (s.chip.ctxSt n x).cmd = k → (s.chip.fetched n x).overburnCode k = 0 →
    findFrond s.chip.cat.fronds k.p0 = some f → f.pinnae.map (fun p => p.firstPsa.isEmpty) = [false] → (∀ d < 24, s.chip.rd (F.discStatus_state d) = 0) → ∃ c
    : Chip, exec (.overburn n x) s = .next (State.allHooks { s with chip := c }) ∧ (c.ctxSt n x).phase = .active ∧ (c.ctxSt n x).wait = .activity ∧
    c.svc.overburns = s.chip.svc.overburns ++ [(n, x, k.p0, [0])] ∧ s.chip.RegsBut c c.hostCounts) ∧
  (∀ (n x code : Nat) (k : Cmd) (s : State), s.chip.serves n x 0x29 = true → (s.chip.ctxSt n x).cmd = k → (s.chip.fetched n x).overburnCode k = code → code ≠
    0 → ∃ c : Chip, exec (.overburn n x) s = .next (State.allHooks { s with chip := c }) ∧ (c.ctxSt n x).status = some (statusPayload code 0 []) ∧ c.svc =
    s.chip.svc ∧ s.chip.RegsBut c (s.chip.unitOf n x ++ c.hostCounts))

/-- Commands of drives, discs, modules and time (R324 to R328, R416, R417, R432, R433, R444, R549, R550): status and time are answered; loads and unloads
begin; a range of sectors is read; spindle and axis requests reach their drives; a drive is retired or admitted; a module is admitted; an exchange ends
with the disc's identity confirmed or the disc foreign, once its ledger copies or its unrecorded positions have been read. Each command is refused with
its own status. -/
def Obligations.DriveCommandsAct : Prop :=
  (∀ (n x : Nat) (s : State), s.chip.serves n x 0x60 = true → ∃ c : Chip, exec (.driveStatus n x) s = .next (State.allHooks { s with chip := c }) ∧ (c.ctxSt
    n x).status = some (statusPayload 0 0 (([F.hlinkStatus_state (s.chip.ctxSt n x).cmd.p0, F.spinStatus_state (s.chip.ctxSt n x).cmd.p0, F.srvStatus_fstate
    (s.chip.ctxSt n x).cmd.p0, F.discStatus_state (s.chip.ctxSt n x).cmd.p0].map fun f => (s.chip.fetched n x).word f.addr).flatMap (beBytes 4) ++ beBytes 8
    (s.chip.rd (F.discId_id (s.chip.ctxSt n x).cmd.p0)))) ∧ s.chip.RegsBut c (s.chip.unitOf n x ++ c.hostCounts)) ∧
  (∀ (n x : Nat) (k : Cmd) (s : State), s.chip.serves n x 0x61 = true → (s.chip.ctxSt n x).cmd = k → (s.chip.fetched n x).loadCode k = 0 → ∃ c : Chip, exec
    (.discLoad n x) s = .next (State.allHooks { s with chip := c }) ∧ c.rd (F.discStatus_state k.p0) = 1 ∧ c.load k.p0 = some ⟨k.p1, k.p1 == 0, k.cflags % 2,
    some (n * 4096 + x), 0, 0, 0⟩ ∧ (c.ctxSt n x).phase = .active ∧ (c.ctxSt n x).wait = .activity ∧ c.moss = s.chip.moss) ∧
  (∀ (n x : Nat) (k : Cmd) (s : State), s.chip.serves n x 0x61 = true → (s.chip.ctxSt n x).cmd = k → (s.chip.fetched n x).loadCode k = 0 → s.chip.rd
    (F.axisStatus_homed k.p0 1) = 1 → s.chip.rd (F.axisStatus_state k.p0 1) ≠ 6 → (s.chip.axisSt (axisNo k.p0 1)).move = none → (s.chip.axisSt (axisNo k.p0
    1)).armed = none → s.chip.rdi (F.discTray_clamp_pos k.p0) ≠ s.chip.rdi (F.axisStatus_pos k.p0 1) → ∃ c : Chip, exec (.discLoad n x) s = .next
    (State.allHooks { s with chip := c }) ∧ c.rd (F.axisStatus_state k.p0 1) = 2 ∧ (c.axisSt (axisNo k.p0 1)).move.map (·.target) = some (s.chip.rdi
    (F.discTray_clamp_pos k.p0)) ∧ s.chip.RegsBut c ([F.discStatus_state k.p0, F.axisStatus_state k.p0 1, F.axisStatus_level k.p0 1, F.axisStatus_reduced
    k.p0 1] ++ c.hostCounts)) ∧
  (∀ (n x code : Nat) (k : Cmd) (s : State), s.chip.serves n x 0x61 = true → (s.chip.ctxSt n x).cmd = k → (s.chip.fetched n x).loadCode k = code → code ≠ 0 →
    ∃ c : Chip, exec (.discLoad n x) s = .next (State.allHooks { s with chip := c }) ∧ (c.ctxSt n x).status = some (statusPayload code 0 []) ∧ c.cat =
    s.chip.cat ∧ s.chip.RegsBut c (s.chip.unitOf n x ++ c.hostCounts)) ∧
  (∀ (n x : Nat) (k : Cmd) (s : State), s.chip.serves n x 0x62 = true → (s.chip.ctxSt n x).cmd = k → (s.chip.fetched n x).unloadCode k = 0 → s.chip.driveBusy
    k.p0 = false → ∃ c : Chip, exec (.discUnload n x) s = .next (State.allHooks { s with chip := c }) ∧ c.rd (F.discStatus_state k.p0) = 6 ∧ (c.load
    k.p0).map (fun l => (l.disc, l.cmd, l.checked)) = some (s.chip.rd (F.discId_id k.p0), some (n * 4096 + x), 9) ∧ (c.ctxSt n x).wait = .activity ∧ c.moss =
    s.chip.moss) ∧
  (∀ (n x code : Nat) (k : Cmd) (s : State), s.chip.serves n x 0x62 = true → (s.chip.ctxSt n x).cmd = k → (s.chip.fetched n x).unloadCode k = code → code ≠ 0
    → ∃ c : Chip, exec (.discUnload n x) s = .next (State.allHooks { s with chip := c }) ∧ (c.ctxSt n x).status = some (statusPayload code 0 []) ∧ c.cat =
    s.chip.cat ∧ s.chip.RegsBut c (s.chip.unitOf n x ++ c.hostCounts)) ∧
  (∀ (n x : Nat) (k : Cmd) (s : State), s.chip.serves n x 0x63 = true → (s.chip.ctxSt n x).cmd = k → psaRangeOk k.p1 (k.dlen / 4096) = true → k.dlen ≠ 0 →
    s.chip.portUp k.p0 = true → s.chip.rd (F.discStatus_state k.p0) = 5 → (s.chip.burnSt k.p0).run.isSome = true → s.chip.rd (F.spinStatus_state k.p0) ≠ 0 →
    s.chip.rd (F.spinStatus_lock k.p0) = 0 → ∃ c : Chip, exec (.psaRead n x) s = .next (State.allHooks { s with chip := c }) ∧ (c.ctxSt n x).phase = .active
    ∧ (c.ctxSt n x).wait = .activity ∧ (c.readSt k.p0).queue = (s.chip.readSt k.p0).queue ++ [⟨n * 4096 + x, 0, 0, 0, k.p1, k.dlen / 4096, 0, (s.chip.retryOf
    k.p2 (portRegion k.p0)).1, (s.chip.retryOf k.p2 (portRegion k.p0)).2, false, false⟩] ∧ s.chip.RegsBut c c.hostCounts) ∧
  (∀ (n x code : Nat) (k : Cmd) (s : State), s.chip.serves n x 0x63 = true → (s.chip.ctxSt n x).cmd = k → (if psaRangeOk k.p1 (k.dlen / 4096) = false then
    0x0104 else if s.chip.portUp k.p0 = false then 0x0605 else if s.chip.rd (F.discStatus_state k.p0) ≠ 5 then 0x0602 else 0) = code → code ≠ 0 → ∃ c : Chip,
    exec (.psaRead n x) s = .next (State.allHooks { s with chip := c }) ∧ (c.ctxSt n x).status = some (statusPayload code 0 []) ∧ c.cat = s.chip.cat ∧
    s.chip.RegsBut c (s.chip.unitOf n x ++ c.hostCounts)) ∧
  (∀ (n x : Nat) (k : Cmd) (s : State), s.chip.serves n x 0x64 = true → (s.chip.ctxSt n x).cmd = k → k.p1 % 4 = 1 → k.p0 < 2 ^ 24 → (maskList 24 k.p0).all
    s.chip.portServes = true → ∃ c : Chip, exec (.spinUpSchedule n x) s = .next (State.allHooks { s with chip := c }) ∧ (c.ctxSt n x).phase = .active ∧
    (c.ctxSt n x).wait = .activity ∧ c.cat = s.chip.cat ∧ c.moss = s.chip.moss) ∧
  (∀ (n x d : Nat) (k : Cmd) (s : State), s.chip.serves n x 0x64 = true → (s.chip.ctxSt n x).cmd = k → k.p1 % 4 = 1 → k.p0 < 2 ^ 24 → maskList 24 k.p0 = [d]
    → s.chip.portUp d = true → s.chip.engineOut d = false → s.chip.rd (F.spinStatus_state d) ≠ 0 → s.chip.rd (F.spinStatus_state d) ≠ 6 → (s.chip.spinSt
    d).waiting = none → ∃ c : Chip, exec (.spinUpSchedule n x) s = .next (State.allHooks { s with chip := c }) ∧ c.rd (F.spinStatus_req_waiting d) = 1 ∧
    (c.spinSt d).waiting = some (.start (max 1000 (min 12000 (k.p1 / 2 ^ 16 % 2 ^ 16)))) ∧ s.chip.RegsBut c (F.spinStatus_req_waiting d :: c.hostCounts)) ∧
  (∀ (n x : Nat) (k : Cmd) (s : State), s.chip.serves n x 0x64 = true → (s.chip.ctxSt n x).cmd = k → k.p1 % 4 = 2 → k.p0 < 2 ^ 24 → (maskList 24 k.p0).all
    s.chip.portServes = true → (s.chip.ctxSt n x).fired = 0 → (s.chip.ctxSt n x).late = false → ∃ c : Chip, exec (.spinStopSchedule n x) s = .next
    (State.allHooks { s with chip := c }) ∧ (c.ctxSt n x).status = some (statusPayload 0 0 (beBytes 8 0 ++ beBytes 8 0)) ∧ (∀ d < 24, k.p0.testBit d = false
    → c.rd (F.spinStatus_state d) = s.chip.rd (F.spinStatus_state d)) ∧ c.cat = s.chip.cat ∧ c.moss = s.chip.moss) ∧
  (∀ (n x d : Nat) (k : Cmd) (s : State), s.chip.serves n x 0x64 = true → (s.chip.ctxSt n x).cmd = k → k.p1 % 4 = 2 → k.p0 < 2 ^ 24 → maskList 24 k.p0 = [d]
    → s.chip.portUp d = true → s.chip.engineOut d = false → s.chip.rd (F.spinStatus_place d) = 0 → (s.chip.spinSt d).waiting = none → s.chip.rd
    (F.spinStatus_state d) = 6 → ∃ c : Chip, exec (.spinStopSchedule n x) s = .next (State.allHooks { s with chip := c }) ∧ c.rd (F.spinStatus_state d) = 7 ∧
    c.rd (F.spinStatus_target d) = 0 ∧ c.rd (F.spinStatus_lock d) = 0 ∧ s.chip.RegsBut c ([F.spinStatus_state d, F.spinStatus_target d, F.spinStatus_lock d,
    F.spinup_spinup_waiting (portRegion d)] ++ c.hostCounts)) ∧
  (∀ (n x code : Nat) (k : Cmd) (s : State), s.chip.serves n x 0x64 = true → (s.chip.ctxSt n x).cmd = k → k.p1 % 4 ≠ 1 → (if k.p1 % 4 ≠ 2 ∨ 2 ^ 24 ≤ k.p0
    then 0x0102 else if (maskList 24 k.p0).all s.chip.portServes = false then 0x0605 else 0) = code → code ≠ 0 → ∃ c : Chip, exec (.spinStopSchedule n x) s =
    .next (State.allHooks { s with chip := c }) ∧ (c.ctxSt n x).status = some (statusPayload code 0 []) ∧ s.chip.RegsBut c (s.chip.unitOf n x ++
    c.hostCounts)) ∧
  (∀ (n x : Nat) (k : Cmd) (s : State), s.chip.serves n x 0x65 = true → (s.chip.ctxSt n x).cmd = k → 1 ≤ k.p1 / 16 % 16 → k.p1 / 16 % 16 ≤ 6 → k.p1 / 16 % 16
    ≠ 4 ∨ k.p1 % 2 = 0 → s.chip.portUp k.p0 = true → (s.chip.ctxSt n x).fired = 0 → (s.chip.ctxSt n x).late = false → ∃ c : Chip, exec (.axisMove n x) s =
    .next (State.allHooks { s with chip := c }) ∧ (c.ctxSt n x).status = some (statusPayload 0 0 (beBytes 8 0 ++ beBytes 8 0)) ∧ c.axisSt (axisNo k.p0 (1 -
    k.p1 % 2)) = s.chip.axisSt (axisNo k.p0 (1 - k.p1 % 2)) ∧ c.cat = s.chip.cat ∧ c.moss = s.chip.moss) ∧
  (∀ (n x : Nat) (k : Cmd) (s : State), s.chip.serves n x 0x65 = true → (s.chip.ctxSt n x).cmd = k → k.p1 / 16 % 16 = 1 → s.chip.portUp k.p0 = true →
    s.chip.rd (F.axisStatus_homed k.p0 (k.p1 % 2)) = 1 → s.chip.rd (F.axisStatus_state k.p0 (k.p1 % 2)) ≠ 6 → (s.chip.axisSt (axisNo k.p0 (k.p1 % 2))).move =
    none → (s.chip.axisSt (axisNo k.p0 (k.p1 % 2))).armed = none → signed 32 k.p2 ≠ s.chip.rdi (F.axisStatus_pos k.p0 (k.p1 % 2)) → ∃ c : Chip, exec
    (.axisMove n x) s = .next (State.allHooks { s with chip := c }) ∧ c.rd (F.axisStatus_state k.p0 (k.p1 % 2)) = 2 ∧ (c.axisSt (axisNo k.p0 (k.p1 %
    2))).move.map (·.target) = some (signed 32 k.p2) ∧ s.chip.RegsBut c ([F.axisStatus_state k.p0 (k.p1 % 2), F.axisStatus_level k.p0 (k.p1 % 2),
    F.axisStatus_reduced k.p0 (k.p1 % 2)] ++ c.hostCounts)) ∧
  (∀ (n x code : Nat) (k : Cmd) (s : State), s.chip.serves n x 0x65 = true → (s.chip.ctxSt n x).cmd = k → (if k.p1 / 16 % 16 < 1 ∨ 6 < k.p1 / 16 % 16 ∨ (k.p1
    / 16 % 16 = 4 ∧ k.p1 % 2 = 1) then 0x0102 else if s.chip.portUp k.p0 = false then 0x0605 else 0) = code → code ≠ 0 → ∃ c : Chip, exec (.axisMove n x) s =
    .next (State.allHooks { s with chip := c }) ∧ (c.ctxSt n x).status = some (statusPayload code 0 []) ∧ c.axis = s.chip.axis ∧ s.chip.RegsBut c
    (s.chip.unitOf n x ++ c.hostCounts)) ∧
  (∀ (n x : Nat) (k : Cmd) (s : State), s.chip.serves n x 0x66 = true → (s.chip.ctxSt n x).cmd = k → s.chip.load k.p0 = none → s.chip.driveBusy k.p0 = false
    → ∃ c : Chip, exec (.driveRetire n x) s = .next (State.allHooks { s with chip := c }) ∧ (c.rd F.svcRetired_retired).testBit k.p0 = true ∧ c.rd
    (F.hlinkCtrl_enable k.p0) = 0 ∧ c.rd (F.hlinkStatus_state k.p0) = 0 ∧ (c.ctxSt n x).status = some (statusPayload 0 0 []) ∧ c.rd (F.evCnt_count (512 +
    40)) = min (s.chip.rd (F.evCnt_count (512 + 40)) + 1) (2 ^ 32 - 1)) ∧
  (∀ (n x : Nat) (k : Cmd) (s : State), s.chip.serves n x 0x66 = true → (s.chip.ctxSt n x).cmd = k → s.chip.load k.p0 ≠ none ∨ s.chip.driveBusy k.p0 = true →
    ∃ c : Chip, exec (.driveRetire n x) s = .next (State.allHooks { s with chip := c }) ∧ (c.ctxSt n x).status = some (statusPayload 0x0604 0 []) ∧
    s.chip.RegsBut c (s.chip.unitOf n x ++ c.hostCounts)) ∧
  (∀ (n x : Nat) (k : Cmd) (s : State), s.chip.serves n x 0x67 = true → (s.chip.ctxSt n x).cmd = k → s.chip.rd (F.hlinkStatus_state k.p0) = 0 → 7 ≤ s.chip.rd
    F.bootProgress_step → ∃ c : Chip, exec (.driveAdmit n x) s = .next (State.allHooks { s with chip := c }) ∧ (c.rd F.svcRetired_retired).testBit k.p0 =
    false ∧ c.rd (F.hlinkCtrl_enable k.p0) = 1 ∧ c.rd (F.hlinkStatus_state k.p0) = 1 ∧ (c.ctxSt n x).phase = .active ∧ (c.ctxSt n x).wait = .activity ∧
    s.chip.RegsBut c ([F.svcRetired_retired, F.hlinkCtrl_enable k.p0, F.hlinkStatus_state k.p0] ++ c.hostCounts)) ∧
  (∀ (n x : Nat) (k : Cmd) (s : State), s.chip.serves n x 0x67 = true → (s.chip.ctxSt n x).cmd = k → s.chip.portUp k.p0 = true → ∃ c : Chip, exec
    (.driveAdmit n x) s = .next (State.allHooks { s with chip := c }) ∧ (c.rd F.svcRetired_retired).testBit k.p0 = false ∧ (c.ctxSt n x).status = some
    (statusPayload 0 0 []) ∧ s.chip.RegsBut c ([F.svcRetired_retired, F.hlinkCtrl_enable k.p0] ++ s.chip.unitOf n x ++ c.hostCounts)) ∧
  (∀ (d : Nat) (s : State), s.chip.portUp d = true ∨ (s.chip.contexts fun k => k.phase == .active && k.cmd.opcode == 0x67 && k.cmd.p0 == d) = [] → exec
    (.driveAdmitTimeout d) s = .next s) ∧
  (∀ (d n x : Nat) (s : State), s.chip.portUp d = false → (s.chip.contexts fun k => k.phase == .active && k.cmd.opcode == 0x67 && k.cmd.p0 == d) = [(n, x)] →
    ∃ c : Chip, exec (.driveAdmitTimeout d) s = .next { s with chip := c } ∧ (c.ctxSt n x).status = some (statusPayload 0x0605 0 []) ∧ (c.ctxSt n x).phase =
    .free ∧ s.chip.RegsBut c (s.chip.unitOf n x ++ c.hostCounts)) ∧
  (∀ (n x : Nat) (k : Cmd) (s : State), s.chip.serves n x 0x68 = true → (s.chip.ctxSt n x).cmd = k → k.p0 < 8 → s.chip.fcState k.p0 = 5 → s.chip.rd
    F.mossStatus_down = 2 ^ k.p0 → ∃ c : Chip, exec (.flashAdmit n x) s = .next (State.allHooks { s with chip := c.settle }) ∧ c.fcState k.p0 = 4 ∧ c.rd
    (F.fcCfg_down (k.p0 / 2) (k.p0 % 2)) = 0 ∧ c.rd F.mossStatus_down = 0 ∧ c.rd F.mossStatus_rebuilding = 1 ∧ (c.chan k.p0).anchor = some true ∧ (∀ t < 8, ∀
    b < 4, ∀ pg < 4, c.pageAt k.p0 t b pg = none) ∧ (c.ctxSt n x).status = some (statusPayload 0 0 []) ∧ s.chip.RegsBut c ([F.fcStatus_state (k.p0 / 2) (k.p0
    % 2), F.fcCfg_down (k.p0 / 2) (k.p0 % 2), F.mossStatus_down, F.mossStatus_degraded, F.mossStatus_offline, F.mossStatus_rebuilding, F.mossProgress_op,
    F.mossProgress_done] ++ s.chip.unitOf n x ++ c.hostCounts)) ∧
  (∀ (n x : Nat) (k : Cmd) (s : State), s.chip.serves n x 0x68 = true → (s.chip.ctxSt n x).cmd = k → 8 ≤ k.p0 ∨ s.chip.fcState k.p0 ≠ 5 → ∃ c : Chip, exec
    (.flashAdmit n x) s = .next (State.allHooks { s with chip := c }) ∧ (c.ctxSt n x).status = some (statusPayload 0x0102 0 []) ∧ c.moss = s.chip.moss ∧
    s.chip.RegsBut c (s.chip.unitOf n x ++ c.hostCounts)) ∧
  (∀ (n x : Nat) (s : State), s.chip.serves n x 0x80 = true → ∃ c : Chip, exec (.timeGet n x) s = .next (State.allHooks { s with chip := c }) ∧ (c.ctxSt n
    x).status = some (statusPayload 0 0 (beBytes 6 (s.chip.sky_ / 10 ^ 9) ++ beBytes 4 (s.chip.sky_ % 10 ^ 9) ++ beBytes 2 ((s.chip.skyUnits
    s.chip.servingDie).toNat / 2 ^ 32 % 2 ^ 16) ++ [s.chip.skyValid.toNat, 0, 0, 0])) ∧ s.chip.RegsBut c (s.chip.unitOf n x ++ c.hostCounts)) ∧
  (∀ (n x : Nat) (s : State), s.chip.serves n x 0xA4 = true → ∃ c : Chip, exec (.reenumerate n x) s = .next (State.allHooks { s with chip := c }) ∧ (c.ctxSt
    n x).status = some (statusPayload 0 0 []) ∧ Out.token (tokenBits 2 0) ∈ c.sent ∧ Out.token (tokenBits 1 (s.chip.rd F.chain_sys_addr)) ∈ c.sent ∧
    c.chain.probeAt = some s.chip.now ∧ s.chip.RegsBut c (s.chip.unitOf n x ++ c.hostCounts)) ∧
  (∀ (d : Nat) (s : State), s.chip.load d = none ∨ s.chip.rd (F.discStatus_state d) ≠ 4 → exec (.discIdentityCheck d) s = .next (State.allHooks
    { s with chip := s.chip })) ∧
  (∀ (d : Nat) (l : LoadSt) (s : State), d < 24 → s.chip.load d = some l → s.chip.rd (F.discStatus_state d) = 4 → l.checked = 0 → s.chip.identitySeen d l =
    none → exec (.discIdentityCheck d) s = .next (State.allHooks { s with chip := s.chip })) ∧
  (∀ (d : Nat) (l : LoadSt) (s : State), d < 24 → s.chip.load d = some l → s.chip.rd (F.discStatus_state d) = 4 → l.checked = 0 → s.chip.identitySeen d l =
    some true → (s.chip.blankCheck d).isSome = true → l.blank < 7 → exec (.discIdentityCheck d) s = .next (State.allHooks
    { s with chip := s.chip.setLoad d (some { l with blank := l.blank + 1 }) })) ∧
  (∀ (d : Nat) (l : LoadSt) (s : State), d < 24 → s.chip.load d = some l → s.chip.rd (F.discStatus_state d) = 4 → l.checked = 0 → s.chip.identitySeen d l =
    some false → ∃ c : Chip, exec (.discIdentityCheck d) s = .next (State.allHooks { s with chip := c.settle }) ∧ c.rd (F.discId_id d) = 0 ∧ c.rd
    (F.discStatus_foreign d) = 1 ∧ (c.load d).map (·.checked) = some 2 ∧ tabGet c.cat.held d = some (l.disc, l.side) ∧ (findDisc c.cat.discs l.disc).map
    (·.foreign) = (findDisc s.chip.cat.discs l.disc).map (fun _ => true) ∧ c.rd (F.evCnt_count (16 * d + 14)) = min (s.chip.rd (F.evCnt_count (16 * d + 14))
    + 1) (2 ^ 32 - 1) ∧ s.chip.RegsBut c [F.discId_id d, F.discStatus_side d, F.discStatus_foreign d]) ∧
  (∀ (d : Nat) (l : LoadSt) (s : State), d < 24 → s.chip.load d = some l → s.chip.rd (F.discStatus_state d) = 4 → l.checked = 0 → l.isNew = true → l.blank =
    7 → s.chip.identitySeen d l = some true → (findDisc s.chip.cat.discs (s.chip.rd F.chain_sys_addr % 2 ^ 10 * 2 ^ 54 + (s.chip.cat.discSeq + 1))) = none →
    ∃ c : Chip, exec (.discIdentityCheck d) s = .next (State.allHooks { s with chip := c.settle }) ∧ c.rd (F.discId_id d) = (s.chip.rd F.chain_sys_addr % 2 ^
    10 * 2 ^ 54 + (s.chip.cat.discSeq + 1)) % 2 ^ 64 ∧ c.rd (F.discStatus_foreign d) = 0 ∧ c.rd (F.burnStatus_open d) = 0 ∧ (c.load d).map (·.checked) = some
    2 ∧ c.cat.discSeq = s.chip.cat.discSeq + 1 ∧ c.cat.discs = s.chip.cat.discs ++ [newDisc (s.chip.rd F.chain_sys_addr % 2 ^ 10 * 2 ^ 54 +
    (s.chip.cat.discSeq + 1))] ∧ s.chip.RegsBut c ([F.discId_id d, F.discStatus_side d, F.discStatus_foreign d, F.burnStatus_open d, F.burnStatus_queued d]
    ++ (List.range 8).map (F.burnNext_psa d) ++ (List.range 4).map (F.opcLast_valid d))) ∧
  (∀ (d : Nat) (l : LoadSt) (s : State), d < 24 → s.chip.load d = some l → s.chip.rd (F.discStatus_state d) = 4 → l.checked = 0 → l.isNew = false →
    (s.chip.lastRun l.disc l.side).isSome = true → s.chip.identitySeen d l = some true → s.chip.openSides l.disc = [] → (findDisc s.chip.cat.discs
    l.disc).any (·.foreign) = false → ∃ c : Chip, exec (.discIdentityCheck d) s = .next (State.allHooks { s with chip := c.settle }) ∧ c.rd (F.discId_id d) =
    l.disc % 2 ^ 64 ∧ c.rd (F.discStatus_foreign d) = 0 ∧ c.rd (F.burnStatus_open d) = 0 ∧ (c.load d).map (·.checked) = some 2 ∧ (∀ y < 8, c.rd
    (F.burnNext_psa d y) = (s.chip.layerSide l.disc (8 * l.side + y)).next % 2 ^ 31) ∧ c.cat.discs = s.chip.cat.discs ∧ s.chip.RegsBut c ([F.discId_id d,
    F.discStatus_side d, F.discStatus_foreign d, F.burnStatus_open d, F.burnStatus_queued d] ++ (List.range 8).map (F.burnNext_psa d) ++ (List.range 4).map
    (F.opcLast_valid d)))

/-- Launches (R290, R434, R460, R461, R596): a command with an instant ahead is held and its axis armed; one whose window is over is missed; LAUNCH_FREEZE
freezes the record, at once or when it fires; a held launch is listed, and cancelled while its instant lies ahead; only a launch that is due fires. -/
def Obligations.LaunchesAreHeldAndFired : Prop :=
  (∀ (n x : Nat) (k : Cmd) (s : State), s.chip.servesLaunch n x 0x81 = true → (s.chip.ctxSt n x).cmd = k → s.chip.sky_ < k.T → ∃ c : Chip, exec
    (.launchFreeze n x) s = .next (State.allHooks { s with chip := c }) ∧ c.launches = s.chip.launches ++ [⟨k.action, k.T, k.W, 0x81, n, x⟩] ∧ (c.ctxSt n
    x).phase = .active ∧ (c.ctxSt n x).wait = .launch ∧ c.frozenRecord = s.chip.frozenRecord ∧ s.chip.RegsBut c c.hostCounts) ∧
  (∀ (n x : Nat) (k : Cmd) (s : State), s.chip.servesLaunch n x 0x81 = true → (s.chip.ctxSt n x).cmd = k → k.T + k.W ≤ s.chip.sky_ → ∃ c : Chip, exec
    (.launchFreeze n x) s = .next (State.allHooks { s with chip := c }) ∧ (c.ctxSt n x).status = some (statusPayload 0x0701 0 []) ∧ c.launches =
    s.chip.launches ∧ c.frozenRecord = s.chip.frozenRecord ∧ s.chip.RegsBut c (s.chip.unitOf n x ++ c.hostCounts)) ∧
  (∀ (n x : Nat) (k : Cmd) (s : State), s.chip.servesLaunch n x 0x65 = true → (s.chip.ctxSt n x).cmd = k → k.p1 / 16 % 16 = 1 → s.chip.portUp k.p0 = true →
    s.chip.sky_ < k.T → s.chip.rd (F.axisStatus_homed k.p0 (k.p1 % 2)) = 1 → s.chip.rd (F.axisStatus_state k.p0 (k.p1 % 2)) ≠ 6 → (s.chip.axisSt (axisNo k.p0
    (k.p1 % 2))).move = none → (s.chip.axisSt (axisNo k.p0 (k.p1 % 2))).armed = none → ∃ c : Chip, exec (.axisMove n x) s = .next (State.allHooks
    { s with chip := c }) ∧ c.launches = s.chip.launches ++ [⟨k.action, k.T, k.W, 0x65, n, x⟩] ∧ (c.ctxSt n x).wait = .launch ∧ (c.axisSt (axisNo k.p0 (k.p1
    % 2))).armed = some (.moveTo (signed 32 k.p2) .launch) ∧ c.rd (F.axisStatus_state k.p0 (k.p1 % 2)) = 1 ∧ s.chip.RegsBut c (F.axisStatus_state k.p0 (k.p1
    % 2) :: c.hostCounts)) ∧
  (∀ (n x : Nat) (s : State), s.chip.serves n x 0x81 = true → (s.chip.ctxSt n x).fired = 0 → (s.chip.ctxSt n x).late = false → ∃ c : Chip, exec
    (.launchFreeze n x) s = .next (State.allHooks { s with chip := c }) ∧ c.frozenRecord = true ∧ (c.ctxSt n x).status = some (statusPayload 0 0 (beBytes 8 0
    ++ beBytes 8 0)) ∧ (s.chip.frozenRecord = false → ∀ d < 24, c.rd (F.traceCtrl_frozen d) = 1) ∧ s.chip.RegsBut c (s.chip.unitOf n x ++ c.hostCounts ++
    (List.range 24).map F.traceCtrl_frozen)) ∧
  (∀ (a : Nat) (s : State), (∀ l ∈ s.chip.launches, l.action ≠ a ∨ s.chip.sky_ < l.T) → exec (.launchFire a) s = .next s) ∧
  (∀ (a : Nat) (l : LaunchRec) (s : State), s.chip.dueLaunch a = some l → l.opcode = 0x81 → (s.chip.ctxSt l.session l.ctx).cmd.opcode = 0x81 → (s.chip.ctxSt
    l.session l.ctx).cmd.T ≠ 0 → s.chip.sky_ = l.T → l.T ≠ 0 → (s.chip.ctxSt l.session l.ctx).phase = .active → (s.chip.ctxSt l.session l.ctx).late = false →
    (s.chip.ctxSt l.session l.ctx).snoop = none → ∃ c : Chip, exec (.launchFire a) s = .next (State.allHooks { s with chip := c }) ∧ c.launches =
    s.chip.launches.filter (fun m => m.action != a) ∧ c.host.acted.contains a = true ∧ c.frozenRecord = true ∧ (c.ctxSt l.session l.ctx).status = some
    (statusPayload 0 0 (beBytes 8 0 ++ beBytes 8 l.T))) ∧
  (∀ (n x code : Nat) (k : Cmd) (s : State), s.chip.serves n x 0x82 = true → (s.chip.ctxSt n x).cmd = k → (∀ l ∈ s.chip.launches, l.action ≠ k.p0) → (if
    s.chip.host.acted.contains k.p0 then 0x0106 else 0x0502) = code → ∃ c : Chip, exec (.launchCancel n x) s = .next (State.allHooks { s with chip := c }) ∧
    (c.ctxSt n x).status = some (statusPayload code 0 []) ∧ c.launches = s.chip.launches ∧ s.chip.RegsBut c (s.chip.unitOf n x ++ c.hostCounts)) ∧
  (∀ (n x : Nat) (k : Cmd) (l : LaunchRec) (s : State), s.chip.serves n x 0x82 = true → (s.chip.ctxSt n x).cmd = k → (s.chip.launches.find? fun m => m.action
    == k.p0) = some l → s.chip.sky_ < l.T → l.opcode = 0x81 → (l.session, l.ctx) ≠ (n, x) → (s.chip.ctxSt l.session l.ctx).phase = .active → (s.chip.ctxSt
    l.session l.ctx).snoop = none → (∀ d < 24, (s.chip.readSt d).cur = none) → ∃ c : Chip, exec (.launchCancel n x) s = .next (State.allHooks
    { s with chip := c }) ∧ (c.ctxSt n x).status = some (statusPayload 0 0 []) ∧ (c.ctxSt l.session l.ctx).status = some (statusPayload 0x0803 0 []) ∧
    c.launches = s.chip.launches.filter (fun m => m.action != k.p0) ∧ s.chip.RegsBut c (s.chip.unitOf n x ++ c.hostCounts)) ∧
  (∀ (n x : Nat) (k : Cmd) (l : LaunchRec) (s : State), s.chip.serves n x 0x82 = true → (s.chip.ctxSt n x).cmd = k → (s.chip.launches.find? fun m => m.action
    == k.p0) = some l → l.T ≤ s.chip.sky_ → ∃ c : Chip, exec (.launchCancel n x) s = .next (State.allHooks { s with chip := c }) ∧ (c.ctxSt n x).status =
    some (statusPayload 0x0106 0 []) ∧ c.launches = s.chip.launches ∧ s.chip.RegsBut c (s.chip.unitOf n x ++ c.hostCounts)) ∧
  (∀ (n x : Nat) (s : State), s.chip.serves n x 0x83 = true → s.chip.launches = [] → ∃ t : State, exec (.launchList n x) s = .next (State.allHooks t) ∧
    (t.chip.ctxSt n x).status = some (statusPayload 0 0 (beBytes 4 0 ++ [0])) ∧ t.chip.launches = []) ∧
  (∀ (n x tl : Nat) (l : LaunchRec) (s : State), s.chip.serves n x 0x83 = true → s.chip.launches = [l] → 32 ≤ (s.chip.ctxSt n x).cmd.dlen →
    s.chip.chooseTiles (s.chip.sess n).die 1 = [tl] → tl < 2 ^ 21 → ∃ t : State, exec (.launchList n x) s = .next (State.allHooks t) ∧ (t.chip.ctxSt n
    x).status = some (statusPayload 0 0 (beBytes 4 1 ++ [0])) ∧ Out.qcp 0x13 n (s.chip.ctxSt n x).cmd.queue ((s.chip.sess n).txSeq + 1) x (s.chip.ctxSt n
    x).cmd.tag 2 0 ((beBytes 8 l.action ++ beBytes 8 l.T ++ beBytes 8 l.W ++ [l.opcode] ++ beBytes 2 l.session ++ beBytes 5 0).map (· % 256)) ∈ t.chip.sent ∧
    t.chip.launches = [l] ∧ s.MemBut t (tileAddr tl) 4096)

/-- A DATA_OUT packet (R399, R400, R404, R407, R502): one that does not count is counted as bad or replayed; a frozen session's data are discarded; data for
a context outside its data-out phase, or
beyond the rate cap, are a breach; the packet that brings the last bytes of a phase ends it and the command goes
on with its data. -/
def Obligations.DataPacketsCompleteTheirPhase : Prop :=
  (∀ (n seq port peer x tag off : Nat) (tagOk : Bool) (p : List Nat) (s : State), (s.chip.sess n).live = false ∨ tagOk = false → ∃ c : Chip, exec (.dataOut n
    seq tagOk port peer x tag off p) s = .next { s with chip := c } ∧ c.rd F.qcpCnt_bad_tag = min (s.chip.rd F.qcpCnt_bad_tag + 1) (2 ^ 32 - 1) ∧ c.host =
    s.chip.host ∧ s.chip.RegsBut c [F.qcpCnt_bad_tag]) ∧
  (∀ (n seq port peer x tag off : Nat) (tagOk : Bool) (p : List Nat) (s : State), s.chip.fresh n seq tagOk = true → s.chip.rd (F.use_frozen (n - 1)) = 1 → ∃
    c : Chip, exec (.dataOut n seq tagOk port peer x tag off p) s = .next { s with chip := c } ∧ (∀ y < 4096, c.ctxSt n y = s.chip.ctxSt n y) ∧ (c.sess
    n).high = max (s.chip.sess n).high seq ∧ (c.sess n).dataBreach = (s.chip.sess n).dataBreach ∧ s.chip.RegsBut c []) ∧
  (∀ (n seq port peer x tag off : Nat) (tagOk : Bool) (p : List Nat) (s : State), s.chip.fresh n seq tagOk = true → s.chip.rd (F.use_frozen (n - 1)) = 0 →
    (s.chip.ctxSt n x).phase ≠ .active ∨ (s.chip.ctxSt n x).wait ≠ .dataOut ∨ (s.chip.ctxSt n x).cmd.tag ≠ tag → (s.chip.sess n).second = s.chip.keeper / 10
    ^ 9 → (s.chip.sess n).dataBreach < s.chip.rd F.qcpBreach_data_max → ∃ c : Chip, exec (.dataOut n seq tagOk port peer x tag off p) s = .next
    { s with chip := c } ∧ (c.sess n).dataBreach = (s.chip.sess n).dataBreach + 1 ∧ (∀ y < 4096, c.ctxSt n y = s.chip.ctxSt n y) ∧ s.chip.RegsBut c []) ∧
  (∀ (n seq port peer x tag off : Nat) (tagOk : Bool) (p : List Nat) (s : State), s.chip.fresh n seq tagOk = true → s.chip.rd (F.use_frozen (n - 1)) = 0 → 1
    ≤ n → n ≤ 256 → (s.chip.ctxSt n x).phase = .active → (s.chip.ctxSt n x).wait = .dataOut → (s.chip.ctxSt n x).cmd.tag = tag → s.chip.rd (F.quota_cap (n -
    1)) ≠ 0 → s.chip.tokensNow n < p.length → (s.chip.sess n).second = s.chip.keeper / 10 ^ 9 → s.chip.rd F.qcpBreach_cap_max ≤ (s.chip.sess n).capBreach → ∃
    c : Chip, exec (.dataOut n seq tagOk port peer x tag off p) s = .next { s with chip := c } ∧ (c.sess n).capBreach = (s.chip.sess n).capBreach + 1 ∧ c.rd
    (F.use_frozen (n - 1)) = 1 ∧ c.rd (F.evCnt_count (512 + 10)) = min (s.chip.rd (F.evCnt_count (512 + 10)) + 1) (2 ^ 32 - 1) ∧ (∀ y < 4096, c.ctxSt n y =
    s.chip.ctxSt n y) ∧ s.chip.RegsBut c [F.use_frozen (n - 1)]) ∧
  (∀ (n seq port peer x tag tl : Nat) (tagOk : Bool) (p : List Nat) (s : State), s.chip.takesPhase n seq x tag tl 0x09 tagOk p = true → (s.chip.ctxSt n
    x).cmd.cflags.testBit 0 = false → ∃ t : State, exec (.dataOut n seq tagOk port peer x tag 0 p) s = .next (State.allHooks t) ∧ (tabGet t.chip.host.net
    (s.chip.ctxSt n x).cmd.p0).data = p ∧ (t.chip.ctxSt n x).status = some (statusPayload 0 0 []) ∧ (t.chip.ctxSt n x).phase = .free ∧ s.MemBut t (tileAddr
    tl) 4096) ∧
  (∀ (n seq port peer x tag tl : Nat) (tagOk : Bool) (p : List Nat) (s : State), s.chip.takesPhase n seq x tag tl 0x43 tagOk p = true → ∃ t : State, exec
    (.dataOut n seq tagOk port peer x tag 0 p) s = .next (State.allHooks t) ∧ (t.chip.ctxSt n x).phase = .active ∧ (t.chip.ctxSt n x).wait = .effect ∧
    (t.chip.ctxSt n x).got = [(0, p.length)] ∧ t.tileGood tl = true ∧ t.tilesRange [tl] 0 p.length = p ∧ t.chip.moss = s.chip.moss ∧ s.MemBut t (tileAddr tl)
    4096 ∧ s.chip.RegsBut t.chip snoopRuns) ∧
  (∀ (n seq port peer x tag tl : Nat) (tagOk : Bool) (p : List Nat) (s : State), s.chip.takesPhase n seq x tag tl 0xC6 tagOk p = true → (s.chip.ctxSt n
    x).cmd.p0.testBit 8 = false → ∃ t : State, exec (.dataOut n seq tagOk port peer x tag 0 p) s = .next (State.allHooks t) ∧ t.chip.trust.creds =
    s.chip.trust.creds ++ (s.chip.enrolment p (s.chip.ctxSt n x).cmd.p0).toList ∧ (t.chip.ctxSt n x).status = some (statusPayload (if (s.chip.enrolment p
    (s.chip.ctxSt n x).cmd.p0).isSome then 0 else 0x0102) 0 []) ∧ s.MemBut t (tileAddr tl) 4096) ∧
  (∀ (n seq port peer x tag tl : Nat) (tagOk : Bool) (p : List Nat) (s : State), s.chip.takesPhase n seq x tag tl 0xC5 tagOk p = true → ∃ t : State, exec
    (.dataOut n seq tagOk port peer x tag 0 p) s = .next (State.allHooks t) ∧ t.chip.trust.creds = s.chip.trust.creds ++ (s.chip.enrolment p 256).toList) ∧
  (∀ (n seq port peer x tag tl : Nat) (tagOk : Bool) (p : List Nat) (s : State), s.chip.takesPhase n seq x tag tl 0xC0 tagOk p = true → s.chip.imageSound
    (fieldNat p 6 2) (readImage (fieldNat p 6 2) s.chip.trust.vendors p) = false → ∃ t : State, exec (.dataOut n seq tagOk port peer x tag 0 p) s = .next
    (State.allHooks t) ∧ (t.chip.ctxSt n x).status = some (statusPayload 0x0306 0 []) ∧ t.chip.trust.images = s.chip.trust.images ∧ t.chip.trust.staged =
    s.chip.trust.staged) ∧
  (∀ (n seq port peer x tag tl : Nat) (tagOk : Bool) (p : List Nat) (s : State), s.chip.takesPhase n seq x tag tl 0xA1 tagOk p = true → (s.chip.ctxSt n
    x).cmd.p2 = 0 → ∃ t : State, exec (.dataOut n seq tagOk port peer x tag 0 p) s = .next (State.allHooks t) ∧ (t.chip.ctxSt n x).status = some
    (statusPayload 0 0 []) ∧ s.chip.RegsBut t.chip (s.chip.unitOf n x ++ t.chip.hostCounts ++ snoopRuns))

/-- A step takes the command at the front of the queue and is that command's effect on the state with the rest of the queue. With none waiting a
nanosecond
passes and nothing else changes: the model's choice (notes/assumptions/9.md). -/
def Obligations.StepRunsTheFrontCommand : Prop :=
  (∀ (c : Instr) (rest : List Instr) (s : State), step { s with pending := c :: rest } = exec c { s with pending := rest }) ∧
  (∀ s : State, s.pending = [] → step s = .next { s with chip := { s.chip with now := s.chip.now + 1 } })

/-- Every command goes on: it ends in no fault and no refusal, from every state, and leaves the commands that wait as they are. -/
def Obligations.EveryCommandGoesOn : Prop :=
  ∀ (i : Instr) (s : State), ∃ t : State, exec i s = .next t ∧ t.pending = s.pending

/-- After reset (R514, R595 and the Reset columns of the register tables): every register field reads its reset value, some of them written out, no command
waits, no session is
established, no drive has a disc, no die is out. The zeros of the rest of the state are the model's choice (notes/assumptions/2.md).
-/
def Obligations.ResetLeavesTheSpecValues : Prop :=
  (∀ f : Fld, State.reset.chip.rd f = f.reset) ∧
  (State.reset.pending = []) ∧
  (State.reset.chip.liveSessions = []) ∧
  (∀ d < 24, State.reset.chip.rd (F.spinLim_i_max d) = 2000 ∧ State.reset.chip.rd (F.srvMech_pp_nm d) = 900 ∧ State.reset.chip.rd (F.axisProf_v_max d 1) =
    1000 ∧ State.reset.chip.rd (F.hlinkCtrl_enable d) = 1 ∧ State.reset.chip.rd (F.burnCtrl_lead d) = 32 ∧ State.reset.chip.rd (F.spinStatus_state d) = 0 ∧
    State.reset.chip.rd (F.discStatus_state d) = 0) ∧
  (∀ r < 4, State.reset.chip.rd (F.spinup_spinup_max r) = 2 ∧ State.reset.chip.rd (F.decCtrl_iter_first r) = 12 ∧ State.reset.chip.rd (F.opcLayer_p_def r 7)
    = 10000 ∧ State.reset.chip.rd (F.bucket_depth r) = 16) ∧
  (∀ e < 2, State.reset.chip.rd (F.dramScrub_scrub_min e) = 1440 ∧ State.reset.chip.rd (F.calCtrl_rewrite_c e) = 5 ∧ (State.reset.chip.dieSt e).out = false) ∧
  (State.reset.chip.rd (F.shape_k 0) = 20) ∧
  (State.reset.chip.rd (F.shape_m 0) = 4) ∧
  (State.reset.chip.rd F.frondCtrl_seal_s = 600) ∧
  (State.reset.chip.rd F.mossCtrl_op_pct = 7) ∧
  (State.reset.chip.rd F.hostCfg_udp_port = 0x6180) ∧
  (State.reset.chip.rd F.qdef_ctx_max = 256) ∧
  (State.reset.chip.rd F.pwrCtrl_haze_s = 900) ∧
  (State.reset.chip.rd F.skyCtrl_slew_ppm = 100) ∧
  (State.reset.chip.rd F.thermCtrl_therm_c = 100) ∧
  (State.reset.chip.rd F.evCtrl_gap_us = 1000) ∧
  (State.reset.chip.rd F.evSeq_seq = 1) ∧
  (State.reset.chip.rd F.chain_addr_valid = 0)

/-- The state after reset meets the invariants that every step keeps. -/
def Obligations.ResetMeetsTheInvariants : Prop :=
  (State.reset.Sound) ∧
  (State.reset.chip.SessionsPlaced)

/-- Every step keeps a state sound: DRAM bytes in their canonical form (addresses rising, all mapped, none listed at the value an unlisted one reads as)
and
well-formed commands waiting. -/
def Obligations.EveryStepKeepsSoundStates : Prop :=
  ∀ s t : State, s.Sound → step s = .next t → t.Sound

/-- Every step keeps the sessions where R397 puts them: numbers 1 to 256, each on a die, among the established and the pending ones. -/
def Obligations.EveryStepKeepsSessionsPlaced : Prop :=
  ∀ s t : State, s.chip.SessionsPlaced → step s = .next t → t.chip.SessionsPlaced
end

