-- ==== Sys2Proof/Laws/Tables.lean ====
section
/-! SUPPORT. Tables and register fields: what a read gives after a write, and that writes keep tables in order. -/
namespace Sys2Proof.Machine

variable {α : Type}

/-! ### Tables -/

@[simp] theorem tabFind_insert_same (t : Tab α) (k : Nat) (v : α) : tabFind (tabInsert t k v) k = some v := by
  induction t with
  | nil => simp [tabInsert, tabFind]
  | cons e t ih =>
    obtain ⟨k', v'⟩ := e
    by_cases h : k < k'
    · simp [tabInsert, tabFind, h]
    · by_cases h2 : k = k'
      · simp [tabInsert, tabFind, h2]
      · simp [tabInsert, tabFind, h, h2, ih]

theorem tabFind_insert_ne (t : Tab α) {k j : Nat} (v : α) (h : j ≠ k) : tabFind (tabInsert t k v) j = tabFind t j := by
  induction t with
  | nil => simp [tabInsert, tabFind, h]
  | cons e t ih =>
    obtain ⟨k', v'⟩ := e
    by_cases h1 : k < k'
    · simp [tabInsert, tabFind, h1, h]
    · by_cases h2 : k = k'
      · subst h2
        simp [tabInsert, tabFind, h]
      · simp [tabInsert, tabFind, h1, h2, ih]

@[simp] theorem tabFind_erase_same (t : Tab α) (k : Nat) : tabFind (tabErase t k) k = none := by
  induction t with
  | nil => rfl
  | cons e t ih =>
    obtain ⟨k', v'⟩ := e
    by_cases h : k' = k
    · have : tabErase ((k', v') :: t) k = tabErase t k := by simp [tabErase, h]
      rw [this, ih]
    · have : tabErase ((k', v') :: t) k = (k', v') :: tabErase t k := by simp [tabErase, h]
      rw [this]
      simp [tabFind, Ne.symm h, ih]

theorem tabFind_erase_ne (t : Tab α) {k j : Nat} (h : j ≠ k) : tabFind (tabErase t k) j = tabFind t j := by
  induction t with
  | nil => rfl
  | cons e t ih =>
    obtain ⟨k', v'⟩ := e
    by_cases h1 : k' = k
    · have : tabErase ((k', v') :: t) k = tabErase t k := by simp [tabErase, h1]
      rw [this, ih]
      simp [tabFind, h1, h]
    · have : tabErase ((k', v') :: t) k = (k', v') :: tabErase t k := by simp [tabErase, h1]
      rw [this]
      simp [tabFind, ih]

variable [DecidableEq α]

/-- A put erases or inserts. -/
theorem tabPut_eq (blank : α) (t : Tab α) (k : Nat) (v : α) : tabPut blank t k v = if v = blank then tabErase t k else tabInsert t k v := by
  induction t with
  | nil => simp [tabPut, tabErase, tabInsert]
  | cons e t ih =>
    obtain ⟨k', v'⟩ := e
    unfold tabPut
    by_cases h : k < k'
    · simp [h, tabInsert]
    · by_cases h2 : k = k'
      · subst h2
        simp [tabInsert, tabErase]
      · have : tabErase ((k', v') :: t) k = (k', v') :: tabErase t k := by simp [tabErase, Ne.symm h2]
        rw [this]
        simp only [h, h2, if_false, ih, tabInsert]
        split <;> rfl

@[simp] theorem tabFind_put_same (blank : α) (t : Tab α) (k : Nat) (v : α) : (tabFind (tabPut blank t k v) k).getD blank = v := by
  rw [tabPut_eq]
  split
  · next h => simp [h]
  · simp

theorem tabFind_put_ne (blank : α) (t : Tab α) {k j : Nat} (v : α) (h : j ≠ k) : tabFind (tabPut blank t k v) j = tabFind t j := by
  rw [tabPut_eq]
  split
  · rw [tabFind_erase_ne t h]
  · rw [tabFind_insert_ne t v h]

variable [Inhabited α]

@[simp] theorem tabGet_set_same (t : Tab α) (k : Nat) (v : α) : tabGet (tabSet t k v) k = v := tabFind_put_same ..

theorem tabGet_set_ne (t : Tab α) {k j : Nat} (v : α) (h : j ≠ k) : tabGet (tabSet t k v) j = tabGet t j := by
  unfold tabGet tabSet
  rw [tabFind_put_ne _ _ _ h]

@[simp] theorem tabGet_mod_same (t : Tab α) (k : Nat) (f : α → α) : tabGet (tabMod t k f) k = f (tabGet t k) := by simp [tabMod]

theorem tabGet_mod_ne (t : Tab α) {k j : Nat} (f : α → α) (h : j ≠ k) : tabGet (tabMod t k f) j = tabGet t j := by
  simp [tabMod, tabGet_set_ne t _ h]

/-! ### Register fields -/

/-- A field reads as the value written, cut to its width. -/
@[simp] theorem Chip.rd_wr (c : Chip) (f : Fld) (v : Nat) : (c.wr f v).rd f = v % 2 ^ f.width := tabFind_put_same ..

/-- A write of one field leaves every other field as it was. -/
theorem Chip.rd_wr_ne (c : Chip) {f g : Fld} (v : Nat) (h : g.key ≠ f.key) : (c.wr f v).rd g = c.rd g := by
  unfold Chip.rd Chip.wr fldGet fldSet
  dsimp only
  rw [tabFind_put_ne _ _ _ h]

@[simp] theorem Chip.rd_wrb (c : Chip) (f : Fld) (b : Bool) (h : 0 < f.width) : (c.wrb f b).rd f = b.toNat := by
  have : b.toNat < 2 ^ f.width := by
    have h2 : 2 ^ 1 ≤ 2 ^ f.width := Nat.pow_le_pow_right (by decide) h
    cases b <;> simp <;> omega
  simp [Chip.wrb, Nat.mod_eq_of_lt this]

theorem Chip.rd_wrb_ne (c : Chip) {f g : Fld} (b : Bool) (h : g.key ≠ f.key) : (c.wrb f b).rd g = c.rd g := c.rd_wr_ne _ h

theorem Chip.rd_wri_ne (c : Chip) {f g : Fld} (x : Int) (h : g.key ≠ f.key) : (c.wri f x).rd g = c.rd g := c.rd_wr_ne _ h

theorem Chip.rd_bump_ne (c : Chip) {f g : Fld} (n : Nat) (h : g.key ≠ f.key) : (c.bump f n).rd g = c.rd g := c.rd_wr_ne _ h

/-- A counter goes up by what is added and stops at its largest value. -/
theorem Chip.rd_bump (c : Chip) (f : Fld) (n : Nat) : (c.bump f n).rd f = min (c.rd f + n) (2 ^ f.width - 1) := by
  have h : 0 < 2 ^ f.width := Nat.pow_pos (by decide)
  have : satAdd f.width (c.rd f) n = min (c.rd f + n) (2 ^ f.width - 1) := rfl
  rw [Chip.bump, Chip.rd_wr, this, Nat.mod_eq_of_lt (by omega)]

end Sys2Proof.Machine
end

