-- ==== Sys2Proof/Laws/Events.lean ====
section
/-! SUPPORT. What raising an event and writing the lichen record can change: the registers of events and of the record, the trace freezes, the
records kept and sent. Everything else of the chip is as before. -/
namespace Sys2Proof.Machine

/-- `c'` differs from `c` in what is recorded and sent only. -/
structure Chip.Recorded (c c' : Chip) : Prop where
  rest : c' = { c with flds := c'.flds, ev := c'.ev, sent := c'.sent, lichen := c'.lichen, traceAt := c'.traceAt }
  regs : ∀ f : Fld, ¬ Recording f → c'.rd f = c.rd f

theorem Chip.Recorded.refl (c : Chip) : c.Recorded c := ⟨rfl, fun _ _ => rfl⟩

theorem Chip.Recorded.trans {a b c : Chip} (h : a.Recorded b) (k : b.Recorded c) : a.Recorded c :=
  ⟨by rw [k.rest, h.rest], fun f hf => (k.regs f hf).trans (h.regs f hf)⟩

theorem Chip.Recorded.ev (c : Chip) (x : EventSt) (l : List Out) : c.Recorded { c with ev := x, sent := l } := ⟨rfl, fun _ _ => rfl⟩

theorem Chip.Recorded.lichen (c : Chip) (x : LichenSt) : c.Recorded { c with lichen := x } := ⟨rfl, fun _ _ => rfl⟩

theorem Chip.Recorded.wr (c : Chip) (f : Fld) (v : Nat) (h : Recording f) : c.Recorded (c.wr f v) := by
  refine ⟨rfl, fun g hg => c.rd_wr_ne v fun e => hg ?_⟩
  unfold Recording at h ⊢
  rwa [e]

theorem Chip.Recorded.foldl {α : Type} (f : Chip → α → Chip) (h : ∀ (c : Chip) a, c.Recorded (f c a)) (l : List α) (c : Chip) : c.Recorded (l.foldl f c) := by
  induction l generalizing c with
  | nil => exact Chip.Recorded.refl c
  | cons a l ih => exact (h c a).trans (ih _)

theorem recording_count (i : Nat) : Recording (F.evCnt_count i) := by
  refine .inl ?_
  simp only [Fld.key, F.evCnt_count]
  omega

theorem recording_latch (i : Nat) : Recording (F.evCfg_latch i) := by
  refine .inl ?_
  simp only [Fld.key, F.evCfg_latch]
  omega

theorem recording_seq : Recording F.evSeq_seq := by decide
theorem recording_frozen : Recording F.lichenCtrl_frozen := by decide
theorem recording_fSky : Recording F.lichenCtrl_f_sky := by decide
theorem recording_f : Recording F.lichenFreeze_f := by decide

theorem recording_lichenSeq {e : Nat} (h : e < 2) : Recording (F.lichenCnt_seq e) := by
  simp only [Recording, Fld.key, F.lichenCnt_seq, dieBase]
  omega

theorem recording_dropped {e : Nat} (h : e < 2) : Recording (F.lichenCnt_dropped e) := by
  simp only [Recording, Fld.key, F.lichenCnt_dropped, dieBase]
  omega

theorem recording_trace {d : Nat} (h : d < 24) : Recording (F.traceCtrl_frozen d) := by
  simp only [Recording, Fld.key, F.traceCtrl_frozen, clusterSlot, clusterBase]
  omega

theorem Chip.servingDie_lt (c : Chip) : c.servingDie < 2 := by
  unfold Chip.servingDie
  split <;> decide

theorem Chip.pathDie_lt (c : Chip) (path : Nat) : c.pathDie path < 2 := by
  unfold Chip.pathDie
  split
  · exact c.servingDie_lt
  · omega

theorem Chip.recorded_sendRecords (c : Chip) (s : Nat) (sub : SubSt) (start : Nat) : c.Recorded (c.sendRecords s sub start) := by
  unfold Chip.sendRecords
  dsimp only
  repeat' split
  all_goals first
    | exact Chip.Recorded.refl c
    | exact Chip.Recorded.ev ..

theorem Chip.recorded_sendAll (c : Chip) : c.Recorded c.sendAll := by
  refine Chip.Recorded.foldl _ (fun c e => ?_) _ _
  split
  · split
    · exact Chip.Recorded.refl c
    · exact recorded_sendRecords ..
  · exact Chip.Recorded.refl c

theorem Chip.recorded_hostRecord (c : Chip) (i path : Nat) (data : List Nat) (n : Nat) : c.Recorded (c.hostRecord i path data n) := by
  unfold Chip.hostRecord
  exact ((Chip.Recorded.ev c _ c.sent).trans (Chip.Recorded.wr _ _ _ recording_seq)).trans (recorded_sendAll _)

theorem Chip.recorded_hostRoute (c : Chip) (i path : Nat) (data : List Nat) : c.Recorded (c.hostRoute i path data) := by
  unfold Chip.hostRoute
  dsimp only
  repeat' split
  · exact Chip.Recorded.ev c _ c.sent
  · exact recorded_hostRecord ..
  · exact recorded_hostRecord ..

theorem Chip.recorded_raiseCore (c : Chip) (i path : Nat) (data : List Nat) : c.Recorded (c.raiseCore i path data) := by
  unfold Chip.raiseCore
  have h := Chip.Recorded.wr c (F.evCnt_count i) (satAdd (F.evCnt_count i).width (c.rd (F.evCnt_count i)) 1) (recording_count i)
  dsimp only [Chip.bump]
  split
  · have k := h.trans (Chip.Recorded.wr _ (F.evCfg_latch i) 1 (recording_latch i))
    split
    · exact k.trans (recorded_hostRoute ..)
    · exact k
  · exact h

theorem Chip.recorded_dropEntry (c : Chip) {e : Nat} (h : e < 2) : c.Recorded (c.dropEntry e) := Chip.Recorded.wr _ _ _ (recording_dropped h)

theorem Chip.Recorded.foldlMem {α : Type} (f : Chip → α → Chip) (l : List α) (h : ∀ (c : Chip), ∀ a ∈ l, c.Recorded (f c a)) (c : Chip) :
    c.Recorded (l.foldl f c) := by
  induction l generalizing c with
  | nil => exact Chip.Recorded.refl c
  | cons a l ih => exact (h c a (by simp)).trans (ih (fun c b m => h c b (by simp [m])) _)

theorem Chip.Recorded.trace (c : Chip) (x : Tab Nat) : c.Recorded { c with traceAt := x } := ⟨rfl, fun _ _ => rfl⟩

theorem Chip.recorded_freezeTrace (c : Chip) {d : Nat} (h : d < 24) : c.Recorded (c.freezeTrace d) := by
  unfold Chip.freezeTrace
  split
  · exact Chip.Recorded.refl c
  · exact (Chip.Recorded.wr c _ _ (recording_trace h)).trans (Chip.Recorded.trace _ _)

theorem Chip.recorded_freezeTraces (c : Chip) : c.Recorded c.freezeTraces :=
  Chip.Recorded.foldlMem _ _ (fun c _ m => c.recorded_freezeTrace (List.mem_range.1 m)) _

theorem Chip.recorded_storeEntry (c : Chip) {e : Nat} (x : LichenEntry) (h : e < 2) : c.Recorded (c.storeEntry e x) :=
  (Chip.Recorded.lichen c _).trans (Chip.Recorded.wr _ _ _ (recording_lichenSeq h))

theorem Chip.recorded_keepEntries (c : Chip) {e : Nat} (l : List LichenEntry) (h : e < 2) : c.Recorded (c.keepEntries e l) :=
  ((Chip.Recorded.lichen c _).trans (Chip.Recorded.wr _ _ _ (recording_lichenSeq h))).trans (Chip.Recorded.wr _ _ _ (recording_dropped h))

theorem Chip.recorded_cutAfter (c : Chip) (x : LichenEntry) : c.Recorded (c.cutAfter x) :=
  ((recorded_keepEntries _ _ (by decide)).trans (recorded_keepEntries _ _ (by decide))).trans (Chip.Recorded.lichen _ _)

theorem Chip.recorded_freezeRecord (c : Chip) (trigger : Nat) (sky : Option Nat) (keeper : Nat) : c.Recorded (c.freezeRecord trigger sky keeper) := by
  unfold Chip.freezeRecord
  split
  · exact Chip.Recorded.refl c
  · have cut (c : Chip) {e : Nat} (l : List LichenEntry) (h : e < 2) : c.Recorded (c.keepEntries e l) := recorded_keepEntries c l h
    have tail (c : Chip) : c.Recorded
        ((((c.wr F.lichenCtrl_frozen 1).wrb F.lichenCtrl_f_sky sky.isSome).wr F.lichenFreeze_f (sky.getD keeper)).freezeTraces) :=
      (((Chip.Recorded.wr c _ _ recording_frozen).trans (Chip.Recorded.wr _ _ _ recording_fSky)).trans
        (Chip.Recorded.wr _ _ _ recording_f)).trans (recorded_freezeTraces _)
    dsimp only
    split <;> split
    · exact ((tail _).trans (recorded_raiseCore ..)).trans (recorded_dropEntry _ (Chip.servingDie_lt _))
    · exact (tail _).trans (recorded_raiseCore ..)
    · exact ((((cut _ _ (by decide)).trans (cut _ _ (by decide))).trans (tail _)).trans (recorded_raiseCore ..)).trans (recorded_dropEntry _ (Chip.servingDie_lt _))
    · exact (((cut _ _ (by decide)).trans (cut _ _ (by decide))).trans (tail _)).trans (recorded_raiseCore ..)

theorem Chip.recorded_lichenWrite (c : Chip) (code path : Nat) (data : List Nat) : c.Recorded (c.lichenWrite code path data) := by
  unfold Chip.lichenWrite
  dsimp only
  split
  · exact Chip.Recorded.refl c
  · split
    · split
      · split
        · exact (recorded_storeEntry _ _ (c.pathDie_lt _)).trans (recorded_cutAfter ..)
        · exact recorded_storeEntry _ _ (c.pathDie_lt _)
      · exact recorded_dropEntry _ (c.pathDie_lt _)
    · split
      · exact ((recorded_storeEntry _ _ (c.pathDie_lt _)).trans (recorded_cutAfter ..)).trans (recorded_freezeRecord ..)
      · exact recorded_storeEntry _ _ (c.pathDie_lt _)

/-- Raising an event changes nothing but what is recorded and sent. -/
theorem Chip.recorded_raise (c : Chip) (i path : Nat) (data : List Nat) : c.Recorded (c.raise i path data) := by
  unfold Chip.raise
  split
  · dsimp only
    split
    · exact (recorded_raiseCore ..).trans (recorded_lichenWrite ..)
    · exact recorded_raiseCore ..
  · exact Chip.Recorded.refl c

theorem Chip.recorded_raiseClu (c : Chip) (d k slot : Nat) (data : List Nat) : c.Recorded (c.raiseClu d k slot data) := recorded_raise ..
theorem Chip.recorded_raiseUnit (c : Chip) (u k : Nat) (data : List Nat) : c.Recorded (c.raiseUnit u k data) := recorded_raise ..
theorem Chip.recorded_raiseRgn (c : Chip) (r k : Nat) (data : List Nat) : c.Recorded (c.raiseRgn r k data) := recorded_raise ..
theorem Chip.recorded_raiseDie (c : Chip) (e k : Nat) (data : List Nat) : c.Recorded (c.raiseDie e k data) := recorded_raise ..
theorem Chip.recorded_raisePkg (c : Chip) (k : Nat) (data : List Nat) : c.Recorded (c.raisePkg k data) := recorded_raise ..

theorem Chip.recorded_rearmRecord (c : Chip) (session : Nat) : c.Recorded (c.rearmRecord session) := by
  unfold Chip.rearmRecord
  split
  · have h : c.Recorded (((c.wr F.lichenCtrl_frozen 0).wr F.lichenCtrl_f_sky 0).wr F.lichenFreeze_f 0) :=
      ((Chip.Recorded.wr c _ _ recording_frozen).trans (Chip.Recorded.wr _ _ _ recording_fSky)).trans (Chip.Recorded.wr _ _ _ recording_f)
    have h := h.trans (Chip.Recorded.lichen _ { (((c.wr F.lichenCtrl_frozen 0).wr F.lichenCtrl_f_sky 0).wr F.lichenFreeze_f 0).lichen with trigger := none })
    dsimp only
    split
    · exact ((h.trans (recorded_lichenWrite ..)).trans (recorded_raiseCore ..)).trans (recorded_lichenWrite ..)
    · exact (h.trans (recorded_lichenWrite ..)).trans (recorded_raiseCore ..)
  · exact Chip.Recorded.refl c

/-! ### Registers left alone -/

theorem Chip.RegsBut.refl (c : Chip) (l : List Fld) : c.RegsBut c l := fun _ _ _ => rfl

theorem Chip.RegsBut.trans {a b c : Chip} {l : List Fld} (h : a.RegsBut b l) (k : b.RegsBut c l) : a.RegsBut c l :=
  fun f hf hl => (k f hf hl).trans (h f hf hl)

theorem Chip.RegsBut.mono {a b : Chip} {l l' : List Fld} (h : a.RegsBut b l) (k : ∀ g ∈ l, g ∈ l') : a.RegsBut b l' :=
  fun f hf hl => h f hf fun g m => hl g (k g m)

theorem Chip.RegsBut.wr {a b : Chip} {l : List Fld} (h : a.RegsBut b l) (f : Fld) (v : Nat) (m : f ∈ l) : a.RegsBut (b.wr f v) l :=
  fun g hg hl => (b.rd_wr_ne v (hl f m)).trans (h g hg hl)

theorem Chip.RegsBut.recorded {a b c : Chip} {l : List Fld} (h : a.RegsBut b l) (k : b.Recorded c) : a.RegsBut c l :=
  fun f hf hl => (k.regs f hf).trans (h f hf hl)

/-- A change of anything but the registers. -/
theorem Chip.RegsBut.flds {a b c : Chip} {l : List Fld} (h : a.RegsBut b l) (k : c.flds = b.flds) : a.RegsBut c l :=
  fun f hf hl => (congrArg (fldGet · f) k).trans (h f hf hl)

/-! ### Event counts -/

/-- Two chips with the same count of an event. -/
def SameCount (j : Nat) (c c' : Chip) : Prop := c'.rd (F.evCnt_count j) = c.rd (F.evCnt_count j)

theorem SameCount.refl (j : Nat) (c : Chip) : SameCount j c c := rfl
theorem SameCount.trans {j : Nat} {a b c : Chip} (h : SameCount j a b) (k : SameCount j b c) : SameCount j a c := Eq.trans k h

theorem SameCount.wr {j : Nat} (c : Chip) (f : Fld) (v : Nat) (h : (F.evCnt_count j).key ≠ f.key) : SameCount j c (c.wr f v) := c.rd_wr_ne v h

theorem SameCount.rec (j : Nat) (c : Chip) (x : EventSt) (l : List Out) : SameCount j c { c with ev := x, sent := l } := rfl
theorem SameCount.lichen (j : Nat) (c : Chip) (x : LichenSt) : SameCount j c { c with lichen := x } := rfl

theorem SameCount.foldlMem {α : Type} {j : Nat} (f : Chip → α → Chip) (l : List α) (h : ∀ (c : Chip), ∀ a ∈ l, SameCount j c (f c a)) (c : Chip) :
    SameCount j c (l.foldl f c) := by
  induction l generalizing c with
  | nil => exact SameCount.refl j c
  | cons a l ih => exact (h c a (by simp)).trans (ih (fun c b m => h c b (by simp [m])) _)

theorem evCnt_key_ne_seq (j : Nat) (_h : j < 576) : (F.evCnt_count j).key ≠ F.evSeq_seq.key := by
  simp only [Fld.key, F.evCnt_count, F.evSeq_seq]
  omega

theorem evCnt_key_ne_latch (i j : Nat) (_h : i < 576) : (F.evCnt_count j).key ≠ (F.evCfg_latch i).key := by
  simp only [Fld.key, F.evCnt_count, F.evCfg_latch]
  omega

theorem evCnt_key_ne_count {i j : Nat} (h : j ≠ i) : (F.evCnt_count j).key ≠ (F.evCnt_count i).key := by
  simp only [Fld.key, F.evCnt_count]
  omega

theorem evCnt_key_gt (j : Nat) (f : Fld) (h : f.key < 0x50F01000 * 128) : (F.evCnt_count j).key ≠ f.key := by
  simp only [Fld.key, F.evCnt_count] at h ⊢
  omega

theorem sameCount_sendRecords (j : Nat) (c : Chip) (s : Nat) (sub : SubSt) (start : Nat) : SameCount j c (c.sendRecords s sub start) := by
  unfold Chip.sendRecords
  dsimp only
  repeat' split
  all_goals first
    | exact SameCount.refl j c
    | exact SameCount.rec ..

theorem sameCount_sendAll (j : Nat) (c : Chip) : SameCount j c c.sendAll := by
  refine SameCount.foldlMem _ _ (fun c e _ => ?_) _
  split
  · split
    · exact SameCount.refl j c
    · exact sameCount_sendRecords ..
  · exact SameCount.refl j c

theorem sameCount_hostRecord {j : Nat} (hj : j < 576) (c : Chip) (i path : Nat) (data : List Nat) (n : Nat) : SameCount j c (c.hostRecord i path data n) := by
  unfold Chip.hostRecord
  exact ((SameCount.rec j c _ c.sent).trans (SameCount.wr _ _ _ (evCnt_key_ne_seq j hj))).trans (sameCount_sendAll j _)

theorem sameCount_hostRoute {j : Nat} (hj : j < 576) (c : Chip) (i path : Nat) (data : List Nat) : SameCount j c (c.hostRoute i path data) := by
  unfold Chip.hostRoute
  dsimp only
  repeat' split
  · exact SameCount.rec j c _ c.sent
  · exact sameCount_hostRecord hj ..
  · exact sameCount_hostRecord hj ..

/-- What a raise does after its count. -/
theorem sameCount_routes {i j : Nat} (hi : i < 576) (hj : j < 576) (c : Chip) (path : Nat) (data : List Nat) :
    SameCount j (c.bump (F.evCnt_count i)) (c.raiseCore i path data) := by
  unfold Chip.raiseCore
  dsimp only
  split
  · have k := SameCount.wr (j := j) (c.bump (F.evCnt_count i)) (F.evCfg_latch i) 1 (evCnt_key_ne_latch i j hi)
    split
    · exact k.trans (sameCount_hostRoute hj ..)
    · exact k
  · exact SameCount.refl ..

theorem sameCount_raiseCore {i j : Nat} (hi : i < 576) (hj : j < 576) (h : j ≠ i) (c : Chip) (path : Nat) (data : List Nat) :
    SameCount j c (c.raiseCore i path data) :=
  (SameCount.wr c _ _ (evCnt_key_ne_count h)).trans (sameCount_routes hi hj ..)

theorem recordKey_lt {f : Fld} (h : f.key < 0x50F00000 * 128) : f.key < 0x50F01000 * 128 := Nat.lt_trans h (by decide)

theorem dieField_key_lt {e : Nat} (h : e < 2) (f : Fld) (hf : f.addr = 0x5000 + dieBase e) (hl : f.lsb < 128) : f.key < 0x50F00000 * 128 := by
  simp only [Fld.key, hf, dieBase]
  omega

theorem sameCount_seq (j : Nat) {e : Nat} (h : e < 2) (c : Chip) (v : Nat) : SameCount j c (c.wr (F.lichenCnt_seq e) v) :=
  SameCount.wr c _ _ (evCnt_key_gt j _ (recordKey_lt (dieField_key_lt h _ rfl (by show _ < 128; first | exact (by decide : (0:Nat) < 128) | exact (by decide : (32:Nat) < 128)))))

theorem sameCount_dropped (j : Nat) {e : Nat} (h : e < 2) (c : Chip) (n : Nat) : SameCount j c (c.bump (F.lichenCnt_dropped e) n) :=
  SameCount.wr c _ _ (evCnt_key_gt j _ (recordKey_lt (dieField_key_lt h _ rfl (by show _ < 128; first | exact (by decide : (0:Nat) < 128) | exact (by decide : (32:Nat) < 128)))))

theorem sameCount_storeEntry (j : Nat) {e : Nat} (h : e < 2) (c : Chip) (x : LichenEntry) : SameCount j c (c.storeEntry e x) :=
  (SameCount.lichen j c _).trans (sameCount_seq j h _ _)

theorem sameCount_keepEntries (j : Nat) {e : Nat} (h : e < 2) (c : Chip) (l : List LichenEntry) : SameCount j c (c.keepEntries e l) :=
  ((SameCount.lichen j c _).trans (sameCount_seq j h _ _)).trans (sameCount_dropped j h _ _)

theorem sameCount_cutAfter (j : Nat) (c : Chip) (x : LichenEntry) : SameCount j c (c.cutAfter x) :=
  ((sameCount_keepEntries j (by decide) _ _).trans (sameCount_keepEntries j (by decide) _ _)).trans (SameCount.lichen j _ _)

theorem sameCount_freezeRecord {j : Nat} (hj : j < 549) (c : Chip) (trigger : Nat) (sky : Option Nat) (keeper : Nat) :
    SameCount j c (c.freezeRecord trigger sky keeper) := by
  have drop {e : Nat} (he : e < 2) (n : Nat) (c : Chip) : SameCount j c (c.bump (F.lichenCnt_dropped e) n) := sameCount_dropped j he c n
  have cut (c : Chip) {e : Nat} (l : List LichenEntry) (h : e < 2) : SameCount j c (c.keepEntries e l) := sameCount_keepEntries j h c l
  have traces (c : Chip) : SameCount j c c.freezeTraces :=
    SameCount.foldlMem _ _ (fun c d m => by
      have := List.mem_range.1 m
      unfold Chip.freezeTrace
      split
      · exact SameCount.refl j c
      · exact (SameCount.wr c _ _ (evCnt_key_gt j _ (by
          simp only [Fld.key, F.traceCtrl_frozen, clusterSlot, clusterBase]
          omega))).trans (SameCount.refl j _)) _
  have tail (c : Chip) : SameCount j c
      ((((c.wr F.lichenCtrl_frozen 1).wrb F.lichenCtrl_f_sky sky.isSome).wr F.lichenFreeze_f (sky.getD keeper)).freezeTraces) :=
    (((SameCount.wr c _ _ (evCnt_key_gt j _ (by decide))).trans (SameCount.wr _ _ _ (evCnt_key_gt j _ (by decide)))).trans
      (SameCount.wr _ _ _ (evCnt_key_gt j _ (by decide)))).trans (traces _)
  have core (c : Chip) (d : List Nat) : SameCount j c (c.raiseCore 549 packagePath d) := sameCount_raiseCore (by decide) (by omega) (by omega) c _ d
  unfold Chip.freezeRecord
  split
  · exact SameCount.refl j c
  · dsimp only
    split <;> split
    · exact ((tail _).trans (core _ _)).trans (drop (Chip.servingDie_lt _) ..)
    · exact (tail _).trans (core _ _)
    · exact ((((cut _ _ (by decide)).trans (cut _ _ (by decide))).trans (tail _)).trans (core _ _)).trans (drop (Chip.servingDie_lt _) ..)
    · exact (((cut _ _ (by decide)).trans (cut _ _ (by decide))).trans (tail _)).trans (core _ _)

theorem sameCount_lichenWrite {j : Nat} (hj : j < 549) (c : Chip) (code path : Nat) (data : List Nat) : SameCount j c (c.lichenWrite code path data) := by
  have he := c.pathDie_lt path
  unfold Chip.lichenWrite
  dsimp only
  split
  · exact SameCount.refl j c
  · split
    · split
      · split
        · exact (sameCount_storeEntry j he _ _).trans (sameCount_cutAfter j _ _)
        · exact sameCount_storeEntry j he _ _
      · exact sameCount_dropped j he _ _
    · split
      · exact ((sameCount_storeEntry j he _ _).trans (sameCount_cutAfter j _ _)).trans (sameCount_freezeRecord hj ..)
      · exact sameCount_storeEntry j he _ _

/-- An event that is raised counts one more, up to the width of its count. -/
theorem Chip.raise_count {i : Nat} (hi : i < 549) (hd : eventDefined i = true) (c : Chip) (path : Nat) (data : List Nat) :
    (c.raise i path data).rd (F.evCnt_count i) = min (c.rd (F.evCnt_count i) + 1) (2 ^ 32 - 1) := by
  have core : (c.raiseCore i path data).rd (F.evCnt_count i) = min (c.rd (F.evCnt_count i) + 1) (2 ^ 32 - 1) :=
    Eq.trans (sameCount_routes (i := i) (j := i) (by omega) (by omega) c path data) (c.rd_bump _ _)
  unfold Chip.raise
  rw [if_pos hd]
  dsimp only
  split
  · exact Eq.trans (sameCount_lichenWrite hi ..) core
  · exact core

/-- A raise leaves the other counts as they are. -/
theorem Chip.raise_count_ne {i j : Nat} (hi : i < 576) (hj : j < 549) (h : j ≠ i) (c : Chip) (path : Nat) (data : List Nat) :
    (c.raise i path data).rd (F.evCnt_count j) = c.rd (F.evCnt_count j) := by
  unfold Chip.raise
  split
  · dsimp only
    split
    · exact (sameCount_raiseCore hi (by omega) h ..).trans (sameCount_lichenWrite hj ..)
    · exact sameCount_raiseCore hi (by omega) h ..
  · rfl

end Sys2Proof.Machine
end

