-- ==== Sys2Proof/Laws/Fields.lean ====
section
/-! SUPPORT. The key and the width of every register field, so that two fields are told apart by arithmetic. Generated from the register map. -/
namespace Sys2Proof.Machine

@[simp] theorem F.rsRatio_r_hat_key (u : Nat) : (F.rsRatio_r_hat u).key = 0 + 128 * (0x0 + unitBase u) := rfl
@[simp] theorem F.rsRatio_r_hat_width (u : Nat) : (F.rsRatio_r_hat u).width = 32 := rfl
@[simp] theorem F.rsGaps_gaps_key (u : Nat) : (F.rsGaps_gaps u).key = 0 + 128 * (0x4 + unitBase u) := rfl
@[simp] theorem F.rsGaps_gaps_width (u : Nat) : (F.rsGaps_gaps u).width = 16 := rfl
@[simp] theorem F.rsGaps_lost_key (u : Nat) : (F.rsGaps_lost u).key = 16 + 128 * (0x4 + unitBase u) := rfl
@[simp] theorem F.rsGaps_lost_width (u : Nat) : (F.rsGaps_lost u).width = 16 := rfl
@[simp] theorem F.tim_offset_key (u : Nat) : (F.tim_offset u).key = 0 + 128 * (0x100 + unitBase u) := rfl
@[simp] theorem F.tim_offset_width (u : Nat) : (F.tim_offset u).width = 19 := rfl
@[simp] theorem F.tim_valid_key (u : Nat) : (F.tim_valid u).key = 19 + 128 * (0x100 + unitBase u) := rfl
@[simp] theorem F.tim_valid_width (u : Nat) : (F.tim_valid u).width = 1 := rfl
@[simp] theorem F.tim_k_off_key (u : Nat) : (F.tim_k_off u).key = 20 + 128 * (0x100 + unitBase u) := rfl
@[simp] theorem F.tim_k_off_width (u : Nat) : (F.tim_k_off u).width = 4 := rfl
@[simp] theorem F.tim_coarse_n_key (u : Nat) : (F.tim_coarse_n u).key = 24 + 128 * (0x100 + unitBase u) := rfl
@[simp] theorem F.tim_coarse_n_width (u : Nat) : (F.tim_coarse_n u).width = 3 := rfl
@[simp] theorem F.vtim_offset_key (u : Nat) : (F.vtim_offset u).key = 0 + 128 * (0x104 + unitBase u) := rfl
@[simp] theorem F.vtim_offset_width (u : Nat) : (F.vtim_offset u).width = 19 := rfl
@[simp] theorem F.vtim_valid_key (u : Nat) : (F.vtim_valid u).key = 19 + 128 * (0x104 + unitBase u) := rfl
@[simp] theorem F.vtim_valid_width (u : Nat) : (F.vtim_valid u).width = 1 := rfl
@[simp] theorem F.vtim_k_off_key (u : Nat) : (F.vtim_k_off u).key = 20 + 128 * (0x104 + unitBase u) := rfl
@[simp] theorem F.vtim_k_off_width (u : Nat) : (F.vtim_k_off u).width = 4 := rfl
@[simp] theorem F.vtim_coarse_n_key (u : Nat) : (F.vtim_coarse_n u).key = 24 + 128 * (0x104 + unitBase u) := rfl
@[simp] theorem F.vtim_coarse_n_width (u : Nat) : (F.vtim_coarse_n u).width = 3 := rfl
@[simp] theorem F.agc_ko_key (u : Nat) : (F.agc_ko u).key = 0 + 128 * (0x200 + unitBase u) := rfl
@[simp] theorem F.agc_ko_width (u : Nat) : (F.agc_ko u).width = 4 := rfl
@[simp] theorem F.agc_kg_key (u : Nat) : (F.agc_kg u).key = 4 + 128 * (0x200 + unitBase u) := rfl
@[simp] theorem F.agc_kg_width (u : Nat) : (F.agc_kg u).width = 4 := rfl
@[simp] theorem F.agc_ka_key (u : Nat) : (F.agc_ka u).key = 8 + 128 * (0x200 + unitBase u) := rfl
@[simp] theorem F.agc_ka_width (u : Nat) : (F.agc_ka u).width = 4 := rfl
@[simp] theorem F.agc_trk_add_key (u : Nat) : (F.agc_trk_add u).key = 12 + 128 * (0x200 + unitBase u) := rfl
@[simp] theorem F.agc_trk_add_width (u : Nat) : (F.agc_trk_add u).width = 3 := rfl
@[simp] theorem F.agc_hold_len_key (u : Nat) : (F.agc_hold_len u).key = 16 + 128 * (0x200 + unitBase u) := rfl
@[simp] theorem F.agc_hold_len_width (u : Nat) : (F.agc_hold_len u).width = 16 := rfl
@[simp] theorem F.agcx_target_key (u : Nat) : (F.agcx_target u).key = 0 + 128 * (0x204 + unitBase u) := rfl
@[simp] theorem F.agcx_target_width (u : Nat) : (F.agcx_target u).width = 9 := rfl
@[simp] theorem F.agcx_acq_len_key (u : Nat) : (F.agcx_acq_len u).key = 9 + 128 * (0x204 + unitBase u) := rfl
@[simp] theorem F.agcx_acq_len_width (u : Nat) : (F.agcx_acq_len u).width = 10 := rfl
@[simp] theorem F.agcx_reacq_len_key (u : Nat) : (F.agcx_reacq_len u).key = 19 + 128 * (0x204 + unitBase u) := rfl
@[simp] theorem F.agcx_reacq_len_width (u : Nat) : (F.agcx_reacq_len u).width = 10 := rfl
@[simp] theorem F.lvl_o_key (u : Nat) : (F.lvl_o u).key = 0 + 128 * (0x208 + unitBase u) := rfl
@[simp] theorem F.lvl_o_width (u : Nat) : (F.lvl_o u).width = 16 := rfl
@[simp] theorem F.lvl_g_key (u : Nat) : (F.lvl_g u).key = 16 + 128 * (0x208 + unitBase u) := rfl
@[simp] theorem F.lvl_g_width (u : Nat) : (F.lvl_g u).width = 16 := rfl
@[simp] theorem F.lvl_a_key (u : Nat) : (F.lvl_a u).key = 32 + 128 * (0x208 + unitBase u) := rfl
@[simp] theorem F.lvl_a_width (u : Nat) : (F.lvl_a u).width = 12 := rfl
@[simp] theorem F.lvl_held_key (u : Nat) : (F.lvl_held u).key = 44 + 128 * (0x208 + unitBase u) := rfl
@[simp] theorem F.lvl_held_width (u : Nat) : (F.lvl_held u).width = 1 := rfl
@[simp] theorem F.lvl_acquiring_key (u : Nat) : (F.lvl_acquiring u).key = 45 + 128 * (0x208 + unitBase u) := rfl
@[simp] theorem F.lvl_acquiring_width (u : Nat) : (F.lvl_acquiring u).width = 1 := rfl
@[simp] theorem F.dfd_thr_drop_key (u : Nat) : (F.dfd_thr_drop u).key = 0 + 128 * (0x300 + unitBase u) := rfl
@[simp] theorem F.dfd_thr_drop_width (u : Nat) : (F.dfd_thr_drop u).width = 6 := rfl
@[simp] theorem F.dfd_thr_rise_key (u : Nat) : (F.dfd_thr_rise u).key = 6 + 128 * (0x300 + unitBase u) := rfl
@[simp] theorem F.dfd_thr_rise_width (u : Nat) : (F.dfd_thr_rise u).width = 6 := rfl
@[simp] theorem F.dfd_env_len_key (u : Nat) : (F.dfd_env_len u).key = 12 + 128 * (0x300 + unitBase u) := rfl
@[simp] theorem F.dfd_env_len_width (u : Nat) : (F.dfd_env_len u).width = 6 := rfl
@[simp] theorem F.dfd_pad_key (u : Nat) : (F.dfd_pad u).key = 18 + 128 * (0x300 + unitBase u) := rfl
@[simp] theorem F.dfd_pad_width (u : Nat) : (F.dfd_pad u).width = 6 := rfl
@[simp] theorem F.dfd_srv_en_key (u : Nat) : (F.dfd_srv_en u).key = 24 + 128 * (0x300 + unitBase u) := rfl
@[simp] theorem F.dfd_srv_en_width (u : Nat) : (F.dfd_srv_en u).width = 1 := rfl
@[simp] theorem F.dfdcnt_spans_key (u : Nat) : (F.dfdcnt_spans u).key = 0 + 128 * (0x304 + unitBase u) := rfl
@[simp] theorem F.dfdcnt_spans_width (u : Nat) : (F.dfdcnt_spans u).width = 16 := rfl
@[simp] theorem F.dfdcnt_expiries_key (u : Nat) : (F.dfdcnt_expiries u).key = 16 + 128 * (0x304 + unitBase u) := rfl
@[simp] theorem F.dfdcnt_expiries_width (u : Nat) : (F.dfdcnt_expiries u).width = 16 := rfl
@[simp] theorem F.eqc_set_key (u : Nat) : (F.eqc_set u).key = 0 + 128 * (0x400 + unitBase u) := rfl
@[simp] theorem F.eqc_set_width (u : Nat) : (F.eqc_set u).width = 1 := rfl
@[simp] theorem F.eqc_adapt_key (u : Nat) : (F.eqc_adapt u).key = 1 + 128 * (0x400 + unitBase u) := rfl
@[simp] theorem F.eqc_adapt_width (u : Nat) : (F.eqc_adapt u).width = 1 := rfl
@[simp] theorem F.eqc_fix_centre_key (u : Nat) : (F.eqc_fix_centre u).key = 2 + 128 * (0x400 + unitBase u) := rfl
@[simp] theorem F.eqc_fix_centre_width (u : Nat) : (F.eqc_fix_centre u).width = 1 := rfl
@[simp] theorem F.eqc_ke_key (u : Nat) : (F.eqc_ke u).key = 3 + 128 * (0x400 + unitBase u) := rfl
@[simp] theorem F.eqc_ke_width (u : Nat) : (F.eqc_ke u).width = 4 := rfl
@[simp] theorem F.eqc_kx_key (u : Nat) : (F.eqc_kx u).key = 7 + 128 * (0x400 + unitBase u) := rfl
@[simp] theorem F.eqc_kx_width (u : Nat) : (F.eqc_kx u).width = 4 := rfl
@[simp] theorem F.eqa_coef_key (u i : Nat) : (F.eqa_coef u i).key = 0 + 128 * ((0x404 + 0x4 * i) + unitBase u) := rfl
@[simp] theorem F.eqa_coef_width (u i : Nat) : (F.eqa_coef u i).width = 12 := rfl
@[simp] theorem F.eqb_coef_key (u i : Nat) : (F.eqb_coef u i).key = 0 + 128 * ((0x440 + 0x4 * i) + unitBase u) := rfl
@[simp] theorem F.eqb_coef_width (u i : Nat) : (F.eqb_coef u i).width = 12 := rfl
@[simp] theorem F.xla_coef_key (u i : Nat) : (F.xla_coef u i).key = 0 + 128 * ((0x47C + 0x4 * i) + unitBase u) := rfl
@[simp] theorem F.xla_coef_width (u i : Nat) : (F.xla_coef u i).width = 12 := rfl
@[simp] theorem F.xha_coef_key (u i : Nat) : (F.xha_coef u i).key = 0 + 128 * ((0x490 + 0x4 * i) + unitBase u) := rfl
@[simp] theorem F.xha_coef_width (u i : Nat) : (F.xha_coef u i).width = 12 := rfl
@[simp] theorem F.xlb_coef_key (u i : Nat) : (F.xlb_coef u i).key = 0 + 128 * ((0x4A4 + 0x4 * i) + unitBase u) := rfl
@[simp] theorem F.xlb_coef_width (u i : Nat) : (F.xlb_coef u i).width = 12 := rfl
@[simp] theorem F.xhb_coef_key (u i : Nat) : (F.xhb_coef u i).key = 0 + 128 * ((0x4B8 + 0x4 * i) + unitBase u) := rfl
@[simp] theorem F.xhb_coef_width (u i : Nat) : (F.xhb_coef u i).width = 12 := rfl
@[simp] theorem F.sync_report_key (u : Nat) : (F.sync_report u).key = 0 + 128 * (0x600 + unitBase u) := rfl
@[simp] theorem F.sync_report_width (u : Nat) : (F.sync_report u).width = 8 := rfl
@[simp] theorem F.sync_score_a_key (u : Nat) : (F.sync_score_a u).key = 8 + 128 * (0x600 + unitBase u) := rfl
@[simp] theorem F.sync_score_a_width (u : Nat) : (F.sync_score_a u).width = 6 := rfl
@[simp] theorem F.sync_score_b_key (u : Nat) : (F.sync_score_b u).key = 14 + 128 * (0x600 + unitBase u) := rfl
@[simp] theorem F.sync_score_b_width (u : Nat) : (F.sync_score_b u).width = 6 := rfl
@[simp] theorem F.sync_disp_key (u : Nat) : (F.sync_disp u).key = 20 + 128 * (0x600 + unitBase u) := rfl
@[simp] theorem F.sync_disp_width (u : Nat) : (F.sync_disp u).width = 6 := rfl
@[simp] theorem F.syncstat_fallbacks_key (u : Nat) : (F.syncstat_fallbacks u).key = 0 + 128 * (0x604 + unitBase u) := rfl
@[simp] theorem F.syncstat_fallbacks_width (u : Nat) : (F.syncstat_fallbacks u).width = 16 := rfl
@[simp] theorem F.syncstat_pairs_key (u : Nat) : (F.syncstat_pairs u).key = 16 + 128 * (0x604 + unitBase u) := rfl
@[simp] theorem F.syncstat_pairs_width (u : Nat) : (F.syncstat_pairs u).width = 16 := rfl
@[simp] theorem F.decCnt_first_ok_key (u : Nat) : (F.decCnt_first_ok u).key = 0 + 128 * (0x700 + unitBase u) := rfl
@[simp] theorem F.decCnt_first_ok_width (u : Nat) : (F.decCnt_first_ok u).width = 16 := rfl
@[simp] theorem F.decCnt_retried_key (u : Nat) : (F.decCnt_retried u).key = 16 + 128 * (0x700 + unitBase u) := rfl
@[simp] theorem F.decCnt_retried_width (u : Nat) : (F.decCnt_retried u).width = 16 := rfl
@[simp] theorem F.decCnt_lost_key (u : Nat) : (F.decCnt_lost u).key = 32 + 128 * (0x700 + unitBase u) := rfl
@[simp] theorem F.decCnt_lost_width (u : Nat) : (F.decCnt_lost u).width = 16 := rfl
@[simp] theorem F.decCnt_overruns_key (u : Nat) : (F.decCnt_overruns u).key = 48 + 128 * (0x700 + unitBase u) := rfl
@[simp] theorem F.decCnt_overruns_width (u : Nat) : (F.decCnt_overruns u).width = 8 := rfl
@[simp] theorem F.decCnt_conflicts_key (u : Nat) : (F.decCnt_conflicts u).key = 56 + 128 * (0x700 + unitBase u) := rfl
@[simp] theorem F.decCnt_conflicts_width (u : Nat) : (F.decCnt_conflicts u).width = 8 := rfl
@[simp] theorem F.decLast_verdict_key (u : Nat) : (F.decLast_verdict u).key = 0 + 128 * (0x708 + unitBase u) := rfl
@[simp] theorem F.decLast_verdict_width (u : Nat) : (F.decLast_verdict u).width = 64 := rfl
@[simp] theorem F.srvReq_op_key (d : Nat) : (F.srvReq_op d).key = 0 + 128 * (0x0 + clusterSlot d 4) := rfl
@[simp] theorem F.srvReq_op_width (d : Nat) : (F.srvReq_op d).width = 4 := rfl
@[simp] theorem F.srvReq_layer_key (d : Nat) : (F.srvReq_layer d).key = 4 + 128 * (0x0 + clusterSlot d 4) := rfl
@[simp] theorem F.srvReq_layer_width (d : Nat) : (F.srvReq_layer d).width = 3 := rfl
@[simp] theorem F.srvReq_band_key (d : Nat) : (F.srvReq_band d).key = 8 + 128 * (0x0 + clusterSlot d 4) := rfl
@[simp] theorem F.srvReq_band_width (d : Nat) : (F.srvReq_band d).width = 17 := rfl
@[simp] theorem F.srvReq_k_key (d : Nat) : (F.srvReq_k d).key = 25 + 128 * (0x0 + clusterSlot d 4) := rfl
@[simp] theorem F.srvReq_k_width (d : Nat) : (F.srvReq_k d).width = 2 := rfl
@[simp] theorem F.srvCtrl_tilt_en_key (d : Nat) : (F.srvCtrl_tilt_en d).key = 0 + 128 * (0x4 + clusterSlot d 4) := rfl
@[simp] theorem F.srvCtrl_tilt_en_width (d : Nat) : (F.srvCtrl_tilt_en d).width = 1 := rfl
@[simp] theorem F.srvCtrl_sled_en_key (d : Nat) : (F.srvCtrl_sled_en d).key = 1 + 128 * (0x4 + clusterSlot d 4) := rfl
@[simp] theorem F.srvCtrl_sled_en_width (d : Nat) : (F.srvCtrl_sled_en d).width = 1 := rfl
@[simp] theorem F.srvCtrl_fe_pol_key (d : Nat) : (F.srvCtrl_fe_pol d).key = 2 + 128 * (0x4 + clusterSlot d 4) := rfl
@[simp] theorem F.srvCtrl_fe_pol_width (d : Nat) : (F.srvCtrl_fe_pol d).width = 1 := rfl
@[simp] theorem F.srvCtrl_pp_pol_key (d : Nat) : (F.srvCtrl_pp_pol d).key = 3 + 128 * (0x4 + clusterSlot d 4) := rfl
@[simp] theorem F.srvCtrl_pp_pol_width (d : Nat) : (F.srvCtrl_pp_pol d).width = 1 := rfl
@[simp] theorem F.srvCtrl_commit_key (d : Nat) : (F.srvCtrl_commit d).key = 4 + 128 * (0x4 + clusterSlot d 4) := rfl
@[simp] theorem F.srvCtrl_commit_width (d : Nat) : (F.srvCtrl_commit d).width = 1 := rfl
@[simp] theorem F.srvCtrl_pred_k_key (d : Nat) : (F.srvCtrl_pred_k d).key = 5 + 128 * (0x4 + clusterSlot d 4) := rfl
@[simp] theorem F.srvCtrl_pred_k_width (d : Nat) : (F.srvCtrl_pred_k d).width = 2 := rfl
@[simp] theorem F.srvCtrl_reacq_max_key (d : Nat) : (F.srvCtrl_reacq_max d).key = 7 + 128 * (0x4 + clusterSlot d 4) := rfl
@[simp] theorem F.srvCtrl_reacq_max_width (d : Nat) : (F.srvCtrl_reacq_max d).width = 3 := rfl
@[simp] theorem F.srvCtrl_ramp_key (d : Nat) : (F.srvCtrl_ramp d).key = 16 + 128 * (0x4 + clusterSlot d 4) := rfl
@[simp] theorem F.srvCtrl_ramp_width (d : Nat) : (F.srvCtrl_ramp d).width = 8 := rfl
@[simp] theorem F.srvStatus_fstate_key (d : Nat) : (F.srvStatus_fstate d).key = 0 + 128 * (0x8 + clusterSlot d 4) := rfl
@[simp] theorem F.srvStatus_fstate_width (d : Nat) : (F.srvStatus_fstate d).width = 4 := rfl
@[simp] theorem F.srvStatus_tstate_key (d : Nat) : (F.srvStatus_tstate d).key = 4 + 128 * (0x8 + clusterSlot d 4) := rfl
@[simp] theorem F.srvStatus_tstate_width (d : Nat) : (F.srvStatus_tstate d).width = 3 := rfl
@[simp] theorem F.srvStatus_layer_key (d : Nat) : (F.srvStatus_layer d).key = 7 + 128 * (0x8 + clusterSlot d 4) := rfl
@[simp] theorem F.srvStatus_layer_width (d : Nat) : (F.srvStatus_layer d).width = 3 := rfl
@[simp] theorem F.srvStatus_layer_ok_key (d : Nat) : (F.srvStatus_layer_ok d).key = 10 + 128 * (0x8 + clusterSlot d 4) := rfl
@[simp] theorem F.srvStatus_layer_ok_width (d : Nat) : (F.srvStatus_layer_ok d).width = 1 := rfl
@[simp] theorem F.srvStatus_wi_key (d : Nat) : (F.srvStatus_wi d).key = 11 + 128 * (0x8 + clusterSlot d 4) := rfl
@[simp] theorem F.srvStatus_wi_width (d : Nat) : (F.srvStatus_wi d).width = 1 := rfl
@[simp] theorem F.srvStatus_req_busy_key (d : Nat) : (F.srvStatus_req_busy d).key = 12 + 128 * (0x8 + clusterSlot d 4) := rfl
@[simp] theorem F.srvStatus_req_busy_width (d : Nat) : (F.srvStatus_req_busy d).width = 1 := rfl
@[simp] theorem F.srvStatus_req_queued_key (d : Nat) : (F.srvStatus_req_queued d).key = 13 + 128 * (0x8 + clusterSlot d 4) := rfl
@[simp] theorem F.srvStatus_req_queued_width (d : Nat) : (F.srvStatus_req_queued d).width = 1 := rfl
@[simp] theorem F.srvStatus_req_refused_key (d : Nat) : (F.srvStatus_req_refused d).key = 14 + 128 * (0x8 + clusterSlot d 4) := rfl
@[simp] theorem F.srvStatus_req_refused_width (d : Nat) : (F.srvStatus_req_refused d).width = 1 := rfl
@[simp] theorem F.srvStatus_pass_key (d : Nat) : (F.srvStatus_pass d).key = 15 + 128 * (0x8 + clusterSlot d 4) := rfl
@[simp] theorem F.srvStatus_pass_width (d : Nat) : (F.srvStatus_pass d).width = 2 := rfl
@[simp] theorem F.srvStatus_cal_ok_key (d : Nat) : (F.srvStatus_cal_ok d).key = 17 + 128 * (0x8 + clusterSlot d 4) := rfl
@[simp] theorem F.srvStatus_cal_ok_width (d : Nat) : (F.srvStatus_cal_ok d).width = 1 := rfl
@[simp] theorem F.srvSense_fe_gain_key (d : Nat) : (F.srvSense_fe_gain d).key = 0 + 128 * (0x10 + clusterSlot d 4) := rfl
@[simp] theorem F.srvSense_fe_gain_width (d : Nat) : (F.srvSense_fe_gain d).width = 16 := rfl
@[simp] theorem F.srvSense_fe_off_key (d : Nat) : (F.srvSense_fe_off d).key = 16 + 128 * (0x10 + clusterSlot d 4) := rfl
@[simp] theorem F.srvSense_fe_off_width (d : Nat) : (F.srvSense_fe_off d).width = 16 := rfl
@[simp] theorem F.srvSense_pp_amp_key (d : Nat) : (F.srvSense_pp_amp d).key = 32 + 128 * (0x10 + clusterSlot d 4) := rfl
@[simp] theorem F.srvSense_pp_amp_width (d : Nat) : (F.srvSense_pp_amp d).width = 16 := rfl
@[simp] theorem F.srvSense_pp_off_key (d : Nat) : (F.srvSense_pp_off d).key = 48 + 128 * (0x10 + clusterSlot d 4) := rfl
@[simp] theorem F.srvSense_pp_off_width (d : Nat) : (F.srvSense_pp_off d).width = 16 := rfl
@[simp] theorem F.srvQoff_q_off_key (d : Nat) : (F.srvQoff_q_off d).key = 0 + 128 * (0x18 + clusterSlot d 4) := rfl
@[simp] theorem F.srvQoff_q_off_width (d : Nat) : (F.srvQoff_q_off d).width = 48 := rfl
@[simp] theorem F.srvQoff_tilt_off_key (d : Nat) : (F.srvQoff_tilt_off d).key = 48 + 128 * (0x18 + clusterSlot d 4) := rfl
@[simp] theorem F.srvQoff_tilt_off_width (d : Nat) : (F.srvQoff_tilt_off d).width = 16 := rfl
@[simp] theorem F.srvMech_pp_nm_key (d : Nat) : (F.srvMech_pp_nm d).key = 0 + 128 * (0x20 + clusterSlot d 4) := rfl
@[simp] theorem F.srvMech_pp_nm_width (d : Nat) : (F.srvMech_pp_nm d).width = 16 := rfl
@[simp] theorem F.srvMech_tilt_gain_key (d : Nat) : (F.srvMech_tilt_gain d).key = 16 + 128 * (0x20 + clusterSlot d 4) := rfl
@[simp] theorem F.srvMech_tilt_gain_width (d : Nat) : (F.srvMech_tilt_gain d).width = 16 := rfl
@[simp] theorem F.srvMech_trk_dc_key (d : Nat) : (F.srvMech_trk_dc d).key = 32 + 128 * (0x20 + clusterSlot d 4) := rfl
@[simp] theorem F.srvMech_trk_dc_width (d : Nat) : (F.srvMech_trk_dc d).width = 16 := rfl
@[simp] theorem F.srvMech_sled_pitch_key (d : Nat) : (F.srvMech_sled_pitch d).key = 48 + 128 * (0x20 + clusterSlot d 4) := rfl
@[simp] theorem F.srvMech_sled_pitch_width (d : Nat) : (F.srvMech_sled_pitch d).width = 16 := rfl
@[simp] theorem F.srvAcq_sweep_max_key (d : Nat) : (F.srvAcq_sweep_max d).key = 0 + 128 * (0x28 + clusterSlot d 4) := rfl
@[simp] theorem F.srvAcq_sweep_max_width (d : Nat) : (F.srvAcq_sweep_max d).width = 16 := rfl
@[simp] theorem F.srvAcq_sweep_ms_key (d : Nat) : (F.srvAcq_sweep_ms d).key = 16 + 128 * (0x28 + clusterSlot d 4) := rfl
@[simp] theorem F.srvAcq_sweep_ms_width (d : Nat) : (F.srvAcq_sweep_ms d).width = 8 := rfl
@[simp] theorem F.srvAcq_sum_acq_key (d : Nat) : (F.srvAcq_sum_acq d).key = 24 + 128 * (0x28 + clusterSlot d 4) := rfl
@[simp] theorem F.srvAcq_sum_acq_width (d : Nat) : (F.srvAcq_sum_acq d).width = 16 := rfl
@[simp] theorem F.srvAcq_f_settle_key (d : Nat) : (F.srvAcq_f_settle d).key = 40 + 128 * (0x28 + clusterSlot d 4) := rfl
@[simp] theorem F.srvAcq_f_settle_width (d : Nat) : (F.srvAcq_f_settle d).width = 8 := rfl
@[simp] theorem F.srvAcq_t_settle_key (d : Nat) : (F.srvAcq_t_settle d).key = 48 + 128 * (0x28 + clusterSlot d 4) := rfl
@[simp] theorem F.srvAcq_t_settle_width (d : Nat) : (F.srvAcq_t_settle d).width = 8 := rfl
@[simp] theorem F.srvAcq_v_cap_key (d : Nat) : (F.srvAcq_v_cap d).key = 56 + 128 * (0x28 + clusterSlot d 4) := rfl
@[simp] theorem F.srvAcq_v_cap_width (d : Nat) : (F.srvAcq_v_cap d).width = 8 := rfl
@[simp] theorem F.srvGuard_def_frac_key (d : Nat) : (F.srvGuard_def_frac d).key = 0 + 128 * (0x30 + clusterSlot d 4) := rfl
@[simp] theorem F.srvGuard_def_frac_width (d : Nat) : (F.srvGuard_def_frac d).width = 8 := rfl
@[simp] theorem F.srvGuard_loss_frac_key (d : Nat) : (F.srvGuard_loss_frac d).key = 8 + 128 * (0x30 + clusterSlot d 4) := rfl
@[simp] theorem F.srvGuard_loss_frac_width (d : Nat) : (F.srvGuard_loss_frac d).width = 8 := rfl
@[simp] theorem F.srvGuard_loss_n_key (d : Nat) : (F.srvGuard_loss_n d).key = 16 + 128 * (0x30 + clusterSlot d 4) := rfl
@[simp] theorem F.srvGuard_loss_n_width (d : Nat) : (F.srvGuard_loss_n d).width = 8 := rfl
@[simp] theorem F.srvGuard_def_max_key (d : Nat) : (F.srvGuard_def_max d).key = 24 + 128 * (0x30 + clusterSlot d 4) := rfl
@[simp] theorem F.srvGuard_def_max_width (d : Nat) : (F.srvGuard_def_max d).width = 12 := rfl
@[simp] theorem F.srvGuard_wi_trk_key (d : Nat) : (F.srvGuard_wi_trk d).key = 36 + 128 * (0x30 + clusterSlot d 4) := rfl
@[simp] theorem F.srvGuard_wi_trk_width (d : Nat) : (F.srvGuard_wi_trk d).width = 8 := rfl
@[simp] theorem F.srvGuard_wi_foc_key (d : Nat) : (F.srvGuard_wi_foc d).key = 44 + 128 * (0x30 + clusterSlot d 4) := rfl
@[simp] theorem F.srvGuard_wi_foc_width (d : Nat) : (F.srvGuard_wi_foc d).width = 8 := rfl
@[simp] theorem F.srvGuard_wi_n_key (d : Nat) : (F.srvGuard_wi_n d).key = 52 + 128 * (0x30 + clusterSlot d 4) := rfl
@[simp] theorem F.srvGuard_wi_n_width (d : Nat) : (F.srvGuard_wi_n d).width = 3 := rfl
@[simp] theorem F.srvGuard_off_trk_key (d : Nat) : (F.srvGuard_off_trk d).key = 55 + 128 * (0x30 + clusterSlot d 4) := rfl
@[simp] theorem F.srvGuard_off_trk_width (d : Nat) : (F.srvGuard_off_trk d).width = 9 := rfl
@[simp] theorem F.srvSeek_fine_max_key (d : Nat) : (F.srvSeek_fine_max d).key = 0 + 128 * (0x38 + clusterSlot d 4) := rfl
@[simp] theorem F.srvSeek_fine_max_width (d : Nat) : (F.srvSeek_fine_max d).width = 8 := rfl
@[simp] theorem F.srvSeek_a_max_key (d : Nat) : (F.srvSeek_a_max d).key = 8 + 128 * (0x38 + clusterSlot d 4) := rfl
@[simp] theorem F.srvSeek_a_max_width (d : Nat) : (F.srvSeek_a_max d).width = 8 := rfl
@[simp] theorem F.srvSeek_v_max_key (d : Nat) : (F.srvSeek_v_max d).key = 16 + 128 * (0x38 + clusterSlot d 4) := rfl
@[simp] theorem F.srvSeek_v_max_width (d : Nat) : (F.srvSeek_v_max d).width = 12 := rfl
@[simp] theorem F.srvSeek_kv_key (d : Nat) : (F.srvSeek_kv d).key = 32 + 128 * (0x38 + clusterSlot d 4) := rfl
@[simp] theorem F.srvSeek_kv_width (d : Nat) : (F.srvSeek_kv d).width = 16 := rfl
@[simp] theorem F.srvSeek_sled_db_key (d : Nat) : (F.srvSeek_sled_db d).key = 48 + 128 * (0x38 + clusterSlot d 4) := rfl
@[simp] theorem F.srvSeek_sled_db_width (d : Nat) : (F.srvSeek_sled_db d).width = 16 := rfl
@[simp] theorem F.srvJump_kick_key (d : Nat) : (F.srvJump_kick d).key = 0 + 128 * (0x40 + clusterSlot d 4) := rfl
@[simp] theorem F.srvJump_kick_width (d : Nat) : (F.srvJump_kick d).width = 16 := rfl
@[simp] theorem F.srvJump_kick_len_key (d : Nat) : (F.srvJump_kick_len d).key = 16 + 128 * (0x40 + clusterSlot d 4) := rfl
@[simp] theorem F.srvJump_kick_len_width (d : Nat) : (F.srvJump_kick_len d).width = 8 := rfl
@[simp] theorem F.srvJump_brake_len_key (d : Nat) : (F.srvJump_brake_len d).key = 24 + 128 * (0x40 + clusterSlot d 4) := rfl
@[simp] theorem F.srvJump_brake_len_width (d : Nat) : (F.srvJump_brake_len d).width = 8 := rfl
@[simp] theorem F.srvJump_brake_lvl_key (d : Nat) : (F.srvJump_brake_lvl d).key = 32 + 128 * (0x40 + clusterSlot d 4) := rfl
@[simp] theorem F.srvJump_brake_lvl_width (d : Nat) : (F.srvJump_brake_lvl d).width = 8 := rfl
@[simp] theorem F.srvJump_jump_to_key (d : Nat) : (F.srvJump_jump_to d).key = 40 + 128 * (0x40 + clusterSlot d 4) := rfl
@[simp] theorem F.srvJump_jump_to_width (d : Nat) : (F.srvJump_jump_to d).width = 12 := rfl
@[simp] theorem F.srvCal_f_cal_f_key (d : Nat) : (F.srvCal_f_cal_f d).key = 0 + 128 * (0x48 + clusterSlot d 4) := rfl
@[simp] theorem F.srvCal_f_cal_f_width (d : Nat) : (F.srvCal_f_cal_f d).width = 16 := rfl
@[simp] theorem F.srvCal_f_cal_t_key (d : Nat) : (F.srvCal_f_cal_t d).key = 16 + 128 * (0x48 + clusterSlot d 4) := rfl
@[simp] theorem F.srvCal_f_cal_t_width (d : Nat) : (F.srvCal_f_cal_t d).width = 16 := rfl
@[simp] theorem F.srvCal_cal_amp_key (d : Nat) : (F.srvCal_cal_amp d).key = 32 + 128 * (0x48 + clusterSlot d 4) := rfl
@[simp] theorem F.srvCal_cal_amp_width (d : Nat) : (F.srvCal_cal_amp d).width = 16 := rfl
@[simp] theorem F.srvCal_cal_trk_key (d : Nat) : (F.srvCal_cal_trk d).key = 48 + 128 * (0x48 + clusterSlot d 4) := rfl
@[simp] theorem F.srvCal_cal_trk_width (d : Nat) : (F.srvCal_cal_trk d).width = 16 := rfl
@[simp] theorem F.loopCfg_n_sec_key (d l : Nat) : (F.loopCfg_n_sec d l).key = 0 + 128 * ((0x1000 + 0x400 * l) + clusterSlot d 4) := rfl
@[simp] theorem F.loopCfg_n_sec_width (d l : Nat) : (F.loopCfg_n_sec d l).width = 3 := rfl
@[simp] theorem F.loopCfg_o3_sec_key (d l : Nat) : (F.loopCfg_o3_sec d l).key = 3 + 128 * ((0x1000 + 0x400 * l) + clusterSlot d 4) := rfl
@[simp] theorem F.loopCfg_o3_sec_width (d l : Nat) : (F.loopCfg_o3_sec d l).width = 2 := rfl
@[simp] theorem F.loopCfg_o3_key (d l : Nat) : (F.loopCfg_o3 d l).key = 5 + 128 * ((0x1000 + 0x400 * l) + clusterSlot d 4) := rfl
@[simp] theorem F.loopCfg_o3_width (d l : Nat) : (F.loopCfg_o3 d l).width = 1 := rfl
@[simp] theorem F.loopCfg_in_shift_key (d l : Nat) : (F.loopCfg_in_shift d l).key = 6 + 128 * ((0x1000 + 0x400 * l) + clusterSlot d 4) := rfl
@[simp] theorem F.loopCfg_in_shift_width (d l : Nat) : (F.loopCfg_in_shift d l).width = 4 := rfl
@[simp] theorem F.loopCfg_int_en_key (d l : Nat) : (F.loopCfg_int_en d l).key = 10 + 128 * ((0x1000 + 0x400 * l) + clusterSlot d 4) := rfl
@[simp] theorem F.loopCfg_int_en_width (d l : Nat) : (F.loopCfg_int_en d l).width = 1 := rfl
@[simp] theorem F.loopK_gain_key (d l : Nat) : (F.loopK_gain d l).key = 0 + 128 * ((0x1008 + 0x400 * l) + clusterSlot d 4) := rfl
@[simp] theorem F.loopK_gain_width (d l : Nat) : (F.loopK_gain d l).width = 32 := rfl
@[simp] theorem F.loopK_ki_key (d l : Nat) : (F.loopK_ki d l).key = 32 + 128 * ((0x1008 + 0x400 * l) + clusterSlot d 4) := rfl
@[simp] theorem F.loopK_ki_width (d l : Nat) : (F.loopK_ki d l).width = 32 := rfl
@[simp] theorem F.loopLim_int_max_key (d l : Nat) : (F.loopLim_int_max d l).key = 0 + 128 * ((0x1010 + 0x400 * l) + clusterSlot d 4) := rfl
@[simp] theorem F.loopLim_int_max_width (d l : Nat) : (F.loopLim_int_max d l).width = 32 := rfl
@[simp] theorem F.loopLim_out_max_key (d l : Nat) : (F.loopLim_out_max d l).key = 32 + 128 * ((0x1010 + 0x400 * l) + clusterSlot d 4) := rfl
@[simp] theorem F.loopLim_out_max_width (d l : Nat) : (F.loopLim_out_max d l).width = 32 := rfl
@[simp] theorem F.loopSec_coef_key (d l s k : Nat) : (F.loopSec_coef d l s k).key = 0 + 128 * ((0x1018 + 0x400 * l + 0x20 * s + 4 * k) + clusterSlot d 4) := rfl
@[simp] theorem F.loopSec_coef_width (d l s k : Nat) : (F.loopSec_coef d l s k).width = 32 := rfl
@[simp] theorem F.loopFf_kff_key (d l : Nat) : (F.loopFf_kff d l).key = 0 + 128 * ((0x1098 + 0x400 * l) + clusterSlot d 4) := rfl
@[simp] theorem F.loopFf_kff_width (d l : Nat) : (F.loopFf_kff d l).width = 32 := rfl
@[simp] theorem F.traceCtrl_en_key (d : Nat) : (F.traceCtrl_en d).key = 0 + 128 * (0x2000 + clusterSlot d 4) := rfl
@[simp] theorem F.traceCtrl_en_width (d : Nat) : (F.traceCtrl_en d).width = 1 := rfl
@[simp] theorem F.traceCtrl_freeze_key (d : Nat) : (F.traceCtrl_freeze d).key = 1 + 128 * (0x2000 + clusterSlot d 4) := rfl
@[simp] theorem F.traceCtrl_freeze_width (d : Nat) : (F.traceCtrl_freeze d).width = 1 := rfl
@[simp] theorem F.traceCtrl_rearm_key (d : Nat) : (F.traceCtrl_rearm d).key = 2 + 128 * (0x2000 + clusterSlot d 4) := rfl
@[simp] theorem F.traceCtrl_rearm_width (d : Nat) : (F.traceCtrl_rearm d).width = 1 := rfl
@[simp] theorem F.traceCtrl_frozen_key (d : Nat) : (F.traceCtrl_frozen d).key = 3 + 128 * (0x2000 + clusterSlot d 4) := rfl
@[simp] theorem F.traceCtrl_frozen_width (d : Nat) : (F.traceCtrl_frozen d).width = 1 := rfl
@[simp] theorem F.traceCtrl_ev_mask_key (d : Nat) : (F.traceCtrl_ev_mask d).key = 4 + 128 * (0x2000 + clusterSlot d 4) := rfl
@[simp] theorem F.traceCtrl_ev_mask_width (d : Nat) : (F.traceCtrl_ev_mask d).width = 4 := rfl
@[simp] theorem F.traceCtrl_index_key (d : Nat) : (F.traceCtrl_index d).key = 8 + 128 * (0x2000 + clusterSlot d 4) := rfl
@[simp] theorem F.traceCtrl_index_width (d : Nat) : (F.traceCtrl_index d).width = 15 := rfl
@[simp] theorem F.traceBase_base_key (d : Nat) : (F.traceBase_base d).key = 0 + 128 * (0x2008 + clusterSlot d 4) := rfl
@[simp] theorem F.traceBase_base_width (d : Nat) : (F.traceBase_base d).width = 64 := rfl
@[simp] theorem F.traceLast_t_key (d : Nat) : (F.traceLast_t d).key = 0 + 128 * (0x2010 + clusterSlot d 4) := rfl
@[simp] theorem F.traceLast_t_width (d : Nat) : (F.traceLast_t d).width = 64 := rfl
@[simp] theorem F.btlCtrl_kp_key (d : Nat) : (F.btlCtrl_kp d).key = 0 + 128 * (0x3000 + clusterSlot d 4) := rfl
@[simp] theorem F.btlCtrl_kp_width (d : Nat) : (F.btlCtrl_kp d).width = 4 := rfl
@[simp] theorem F.btlCtrl_ki_key (d : Nat) : (F.btlCtrl_ki d).key = 4 + 128 * (0x3000 + clusterSlot d 4) := rfl
@[simp] theorem F.btlCtrl_ki_width (d : Nat) : (F.btlCtrl_ki d).width = 4 := rfl
@[simp] theorem F.btlCtrl_kp_acq_key (d : Nat) : (F.btlCtrl_kp_acq d).key = 8 + 128 * (0x3000 + clusterSlot d 4) := rfl
@[simp] theorem F.btlCtrl_kp_acq_width (d : Nat) : (F.btlCtrl_kp_acq d).width = 4 := rfl
@[simp] theorem F.btlCtrl_ki_acq_key (d : Nat) : (F.btlCtrl_ki_acq d).key = 12 + 128 * (0x3000 + clusterSlot d 4) := rfl
@[simp] theorem F.btlCtrl_ki_acq_width (d : Nat) : (F.btlCtrl_ki_acq d).width = 4 := rfl
@[simp] theorem F.btlCtrl_wob_inv_key (d : Nat) : (F.btlCtrl_wob_inv d).key = 16 + 128 * (0x3000 + clusterSlot d 4) := rfl
@[simp] theorem F.btlCtrl_wob_inv_width (d : Nat) : (F.btlCtrl_wob_inv d).width = 1 := rfl
@[simp] theorem F.btlCtrl_wob_def_key (d : Nat) : (F.btlCtrl_wob_def d).key = 17 + 128 * (0x3000 + clusterSlot d 4) := rfl
@[simp] theorem F.btlCtrl_wob_def_width (d : Nat) : (F.btlCtrl_wob_def d).width = 7 := rfl
@[simp] theorem F.btlStatus_state_key (d : Nat) : (F.btlStatus_state d).key = 0 + 128 * (0x3004 + clusterSlot d 4) := rfl
@[simp] theorem F.btlStatus_state_width (d : Nat) : (F.btlStatus_state d).width = 3 := rfl
@[simp] theorem F.btlStatus_zone_key (d : Nat) : (F.btlStatus_zone d).key = 3 + 128 * (0x3004 + clusterSlot d 4) := rfl
@[simp] theorem F.btlStatus_zone_width (d : Nat) : (F.btlStatus_zone d).width = 7 := rfl
@[simp] theorem F.btlStatus_band_key (d : Nat) : (F.btlStatus_band d).key = 10 + 128 * (0x3004 + clusterSlot d 4) := rfl
@[simp] theorem F.btlStatus_band_width (d : Nat) : (F.btlStatus_band d).width = 17 := rfl
@[simp] theorem F.btlRate_rate_key (d : Nat) : (F.btlRate_rate d).key = 0 + 128 * (0x3008 + clusterSlot d 4) := rfl
@[simp] theorem F.btlRate_rate_width (d : Nat) : (F.btlRate_rate d).width = 32 := rfl
@[simp] theorem F.btlMarks_disagree_key (d : Nat) : (F.btlMarks_disagree d).key = 0 + 128 * (0x300C + clusterSlot d 4) := rfl
@[simp] theorem F.btlMarks_disagree_width (d : Nat) : (F.btlMarks_disagree d).width = 16 := rfl
@[simp] theorem F.btlMarks_reseats_key (d : Nat) : (F.btlMarks_reseats d).key = 16 + 128 * (0x300C + clusterSlot d 4) := rfl
@[simp] theorem F.btlMarks_reseats_width (d : Nat) : (F.btlMarks_reseats d).width = 8 := rfl
@[simp] theorem F.btlMarks_lost_key (d : Nat) : (F.btlMarks_lost d).key = 24 + 128 * (0x300C + clusterSlot d 4) := rfl
@[simp] theorem F.btlMarks_lost_width (d : Nat) : (F.btlMarks_lost d).width = 8 := rfl
@[simp] theorem F.spinReq_op_key (d : Nat) : (F.spinReq_op d).key = 0 + 128 * (0x0 + clusterSlot d 5) := rfl
@[simp] theorem F.spinReq_op_width (d : Nat) : (F.spinReq_op d).width = 3 := rfl
@[simp] theorem F.spinReq_target_key (d : Nat) : (F.spinReq_target d).key = 16 + 128 * (0x0 + clusterSlot d 5) := rfl
@[simp] theorem F.spinReq_target_width (d : Nat) : (F.spinReq_target d).width = 16 := rfl
@[simp] theorem F.spinStatus_state_key (d : Nat) : (F.spinStatus_state d).key = 0 + 128 * (0x4 + clusterSlot d 5) := rfl
@[simp] theorem F.spinStatus_state_width (d : Nat) : (F.spinStatus_state d).width = 4 := rfl
@[simp] theorem F.spinStatus_lock_key (d : Nat) : (F.spinStatus_lock d).key = 4 + 128 * (0x4 + clusterSlot d 5) := rfl
@[simp] theorem F.spinStatus_lock_width (d : Nat) : (F.spinStatus_lock d).width = 1 := rfl
@[simp] theorem F.spinStatus_place_key (d : Nat) : (F.spinStatus_place d).key = 5 + 128 * (0x4 + clusterSlot d 5) := rfl
@[simp] theorem F.spinStatus_place_width (d : Nat) : (F.spinStatus_place d).width = 1 := rfl
@[simp] theorem F.spinStatus_duty_limited_key (d : Nat) : (F.spinStatus_duty_limited d).key = 6 + 128 * (0x4 + clusterSlot d 5) := rfl
@[simp] theorem F.spinStatus_duty_limited_width (d : Nat) : (F.spinStatus_duty_limited d).width = 1 := rfl
@[simp] theorem F.spinStatus_req_waiting_key (d : Nat) : (F.spinStatus_req_waiting d).key = 7 + 128 * (0x4 + clusterSlot d 5) := rfl
@[simp] theorem F.spinStatus_req_waiting_width (d : Nat) : (F.spinStatus_req_waiting d).width = 1 := rfl
@[simp] theorem F.spinStatus_req_refused_key (d : Nat) : (F.spinStatus_req_refused d).key = 8 + 128 * (0x4 + clusterSlot d 5) := rfl
@[simp] theorem F.spinStatus_req_refused_width (d : Nat) : (F.spinStatus_req_refused d).width = 1 := rfl
@[simp] theorem F.spinStatus_attempts_key (d : Nat) : (F.spinStatus_attempts d).key = 9 + 128 * (0x4 + clusterSlot d 5) := rfl
@[simp] theorem F.spinStatus_attempts_width (d : Nat) : (F.spinStatus_attempts d).width = 3 := rfl
@[simp] theorem F.spinStatus_pred_run_key (d : Nat) : (F.spinStatus_pred_run d).key = 12 + 128 * (0x4 + clusterSlot d 5) := rfl
@[simp] theorem F.spinStatus_pred_run_width (d : Nat) : (F.spinStatus_pred_run d).width = 4 := rfl
@[simp] theorem F.spinStatus_target_key (d : Nat) : (F.spinStatus_target d).key = 16 + 128 * (0x4 + clusterSlot d 5) := rfl
@[simp] theorem F.spinStatus_target_width (d : Nat) : (F.spinStatus_target d).width = 16 := rfl
@[simp] theorem F.spinMeas_speed_key (d : Nat) : (F.spinMeas_speed d).key = 0 + 128 * (0x8 + clusterSlot d 5) := rfl
@[simp] theorem F.spinMeas_speed_width (d : Nat) : (F.spinMeas_speed d).width = 16 := rfl
@[simp] theorem F.spinMeas_emf_key (d : Nat) : (F.spinMeas_emf d).key = 16 + 128 * (0x8 + clusterSlot d 5) := rfl
@[simp] theorem F.spinMeas_emf_width (d : Nat) : (F.spinMeas_emf d).width = 16 := rfl
@[simp] theorem F.spinMeas_vbus_key (d : Nat) : (F.spinMeas_vbus d).key = 32 + 128 * (0x8 + clusterSlot d 5) := rfl
@[simp] theorem F.spinMeas_vbus_width (d : Nat) : (F.spinMeas_vbus d).width = 16 := rfl
@[simp] theorem F.spinMeas_iq_key (d : Nat) : (F.spinMeas_iq d).key = 48 + 128 * (0x8 + clusterSlot d 5) := rfl
@[simp] theorem F.spinMeas_iq_width (d : Nat) : (F.spinMeas_iq d).width = 16 := rfl
@[simp] theorem F.spinMotor_r_s_key (d : Nat) : (F.spinMotor_r_s d).key = 0 + 128 * (0x10 + clusterSlot d 5) := rfl
@[simp] theorem F.spinMotor_r_s_width (d : Nat) : (F.spinMotor_r_s d).width = 16 := rfl
@[simp] theorem F.spinMotor_l_s_key (d : Nat) : (F.spinMotor_l_s d).key = 16 + 128 * (0x10 + clusterSlot d 5) := rfl
@[simp] theorem F.spinMotor_l_s_width (d : Nat) : (F.spinMotor_l_s d).width = 16 := rfl
@[simp] theorem F.spinMotor_ke_key (d : Nat) : (F.spinMotor_ke d).key = 32 + 128 * (0x10 + clusterSlot d 5) := rfl
@[simp] theorem F.spinMotor_ke_width (d : Nat) : (F.spinMotor_ke d).width = 16 := rfl
@[simp] theorem F.spinMotor_pole_pairs_key (d : Nat) : (F.spinMotor_pole_pairs d).key = 48 + 128 * (0x10 + clusterSlot d 5) := rfl
@[simp] theorem F.spinMotor_pole_pairs_width (d : Nat) : (F.spinMotor_pole_pairs d).width = 3 := rfl
@[simp] theorem F.spinMotor_dir_inv_key (d : Nat) : (F.spinMotor_dir_inv d).key = 51 + 128 * (0x10 + clusterSlot d 5) := rfl
@[simp] theorem F.spinMotor_dir_inv_width (d : Nat) : (F.spinMotor_dir_inv d).width = 1 := rfl
@[simp] theorem F.spinCur_kp_i_key (d : Nat) : (F.spinCur_kp_i d).key = 0 + 128 * (0x18 + clusterSlot d 5) := rfl
@[simp] theorem F.spinCur_kp_i_width (d : Nat) : (F.spinCur_kp_i d).width = 32 := rfl
@[simp] theorem F.spinCur_ki_i_key (d : Nat) : (F.spinCur_ki_i d).key = 32 + 128 * (0x18 + clusterSlot d 5) := rfl
@[simp] theorem F.spinCur_ki_i_width (d : Nat) : (F.spinCur_ki_i d).width = 32 := rfl
@[simp] theorem F.spinSpd_kp_w_key (d : Nat) : (F.spinSpd_kp_w d).key = 0 + 128 * (0x20 + clusterSlot d 5) := rfl
@[simp] theorem F.spinSpd_kp_w_width (d : Nat) : (F.spinSpd_kp_w d).width = 32 := rfl
@[simp] theorem F.spinSpd_ki_w_key (d : Nat) : (F.spinSpd_ki_w d).key = 32 + 128 * (0x20 + clusterSlot d 5) := rfl
@[simp] theorem F.spinSpd_ki_w_width (d : Nat) : (F.spinSpd_ki_w d).width = 32 := rfl
@[simp] theorem F.spinObs_k_i_key (d : Nat) : (F.spinObs_k_i d).key = 0 + 128 * (0x28 + clusterSlot d 5) := rfl
@[simp] theorem F.spinObs_k_i_width (d : Nat) : (F.spinObs_k_i d).width = 16 := rfl
@[simp] theorem F.spinObs_k_e_key (d : Nat) : (F.spinObs_k_e d).key = 16 + 128 * (0x28 + clusterSlot d 5) := rfl
@[simp] theorem F.spinObs_k_e_width (d : Nat) : (F.spinObs_k_e d).width = 16 := rfl
@[simp] theorem F.spinObs_k_w_key (d : Nat) : (F.spinObs_k_w d).key = 32 + 128 * (0x28 + clusterSlot d 5) := rfl
@[simp] theorem F.spinObs_k_w_width (d : Nat) : (F.spinObs_k_w d).width = 16 := rfl
@[simp] theorem F.spinObs_k_th_key (d : Nat) : (F.spinObs_k_th d).key = 48 + 128 * (0x28 + clusterSlot d 5) := rfl
@[simp] theorem F.spinObs_k_th_width (d : Nat) : (F.spinObs_k_th d).width = 16 := rfl
@[simp] theorem F.spinLim_i_max_key (d : Nat) : (F.spinLim_i_max d).key = 0 + 128 * (0x30 + clusterSlot d 5) := rfl
@[simp] theorem F.spinLim_i_max_width (d : Nat) : (F.spinLim_i_max d).width = 16 := rfl
@[simp] theorem F.spinLim_i_brake_key (d : Nat) : (F.spinLim_i_brake d).key = 16 + 128 * (0x30 + clusterSlot d 5) := rfl
@[simp] theorem F.spinLim_i_brake_width (d : Nat) : (F.spinLim_i_brake d).width = 16 := rfl
@[simp] theorem F.spinLim_acc_max_key (d : Nat) : (F.spinLim_acc_max d).key = 32 + 128 * (0x30 + clusterSlot d 5) := rfl
@[simp] theorem F.spinLim_acc_max_width (d : Nat) : (F.spinLim_acc_max d).width = 16 := rfl
@[simp] theorem F.spinLim_dec_max_key (d : Nat) : (F.spinLim_dec_max d).key = 48 + 128 * (0x30 + clusterSlot d 5) := rfl
@[simp] theorem F.spinLim_dec_max_width (d : Nat) : (F.spinLim_dec_max d).width = 16 := rfl
@[simp] theorem F.spinSeq_stop_spd_key (d : Nat) : (F.spinSeq_stop_spd d).key = 0 + 128 * (0x38 + clusterSlot d 5) := rfl
@[simp] theorem F.spinSeq_stop_spd_width (d : Nat) : (F.spinSeq_stop_spd d).width = 16 := rfl
@[simp] theorem F.spinSeq_pulse_spd_key (d : Nat) : (F.spinSeq_pulse_spd d).key = 16 + 128 * (0x38 + clusterSlot d 5) := rfl
@[simp] theorem F.spinSeq_pulse_spd_width (d : Nat) : (F.spinSeq_pulse_spd d).width = 16 := rfl
@[simp] theorem F.spinSeq_hand_spd_key (d : Nat) : (F.spinSeq_hand_spd d).key = 32 + 128 * (0x38 + clusterSlot d 5) := rfl
@[simp] theorem F.spinSeq_hand_spd_width (d : Nat) : (F.spinSeq_hand_spd d).width = 16 := rfl
@[simp] theorem F.spinSeq_brake_spd_key (d : Nat) : (F.spinSeq_brake_spd d).key = 48 + 128 * (0x38 + clusterSlot d 5) := rfl
@[simp] theorem F.spinSeq_brake_spd_width (d : Nat) : (F.spinSeq_brake_spd d).width = 16 := rfl
@[simp] theorem F.spinStart_i_align_key (d : Nat) : (F.spinStart_i_align d).key = 0 + 128 * (0x40 + clusterSlot d 5) := rfl
@[simp] theorem F.spinStart_i_align_width (d : Nat) : (F.spinStart_i_align d).width = 16 := rfl
@[simp] theorem F.spinStart_align_ms_key (d : Nat) : (F.spinStart_align_ms d).key = 16 + 128 * (0x40 + clusterSlot d 5) := rfl
@[simp] theorem F.spinStart_align_ms_width (d : Nat) : (F.spinStart_align_ms d).width = 8 := rfl
@[simp] theorem F.spinStart_ramp_ms_key (d : Nat) : (F.spinStart_ramp_ms d).key = 24 + 128 * (0x40 + clusterSlot d 5) := rfl
@[simp] theorem F.spinStart_ramp_ms_width (d : Nat) : (F.spinStart_ramp_ms d).width = 8 := rfl
@[simp] theorem F.spinStart_i_ramp_key (d : Nat) : (F.spinStart_i_ramp d).key = 32 + 128 * (0x40 + clusterSlot d 5) := rfl
@[simp] theorem F.spinStart_i_ramp_width (d : Nat) : (F.spinStart_i_ramp d).width = 16 := rfl
@[simp] theorem F.spinStart_ramp_acc_key (d : Nat) : (F.spinStart_ramp_acc d).key = 48 + 128 * (0x40 + clusterSlot d 5) := rfl
@[simp] theorem F.spinStart_ramp_acc_width (d : Nat) : (F.spinStart_ramp_acc d).width = 12 := rfl
@[simp] theorem F.spinStart_start_tries_key (d : Nat) : (F.spinStart_start_tries d).key = 60 + 128 * (0x40 + clusterSlot d 5) := rfl
@[simp] theorem F.spinStart_start_tries_width (d : Nat) : (F.spinStart_start_tries d).width = 3 := rfl
@[simp] theorem F.spinLos_los_n_key (d : Nat) : (F.spinLos_los_n d).key = 0 + 128 * (0x48 + clusterSlot d 5) := rfl
@[simp] theorem F.spinLos_los_n_width (d : Nat) : (F.spinLos_los_n d).width = 4 := rfl
@[simp] theorem F.spinLos_emf_tol_key (d : Nat) : (F.spinLos_emf_tol d).key = 4 + 128 * (0x48 + clusterSlot d 5) := rfl
@[simp] theorem F.spinLos_emf_tol_width (d : Nat) : (F.spinLos_emf_tol d).width = 7 := rfl
@[simp] theorem F.spinLos_acc_fac_key (d : Nat) : (F.spinLos_acc_fac d).key = 11 + 128 * (0x48 + clusterSlot d 5) := rfl
@[simp] theorem F.spinLos_acc_fac_width (d : Nat) : (F.spinLos_acc_fac d).width = 3 := rfl
@[simp] theorem F.spinLos_pred_max_key (d : Nat) : (F.spinLos_pred_max d).key = 14 + 128 * (0x48 + clusterSlot d 5) := rfl
@[simp] theorem F.spinLos_pred_max_width (d : Nat) : (F.spinLos_pred_max d).width = 4 := rfl
@[simp] theorem F.spinLos_catch_ok_key (d : Nat) : (F.spinLos_catch_ok d).key = 18 + 128 * (0x48 + clusterSlot d 5) := rfl
@[simp] theorem F.spinLos_catch_ok_width (d : Nat) : (F.spinLos_catch_ok d).width = 6 := rfl
@[simp] theorem F.spinLos_recatch_n_key (d : Nat) : (F.spinLos_recatch_n d).key = 24 + 128 * (0x48 + clusterSlot d 5) := rfl
@[simp] theorem F.spinLos_recatch_n_width (d : Nat) : (F.spinLos_recatch_n d).width = 3 := rfl
@[simp] theorem F.spinLos_recatch_ms_key (d : Nat) : (F.spinLos_recatch_ms d).key = 32 + 128 * (0x48 + clusterSlot d 5) := rfl
@[simp] theorem F.spinLos_recatch_ms_width (d : Nat) : (F.spinLos_recatch_ms d).width = 8 := rfl
@[simp] theorem F.spinLos_sense_ms_key (d : Nat) : (F.spinLos_sense_ms d).key = 40 + 128 * (0x48 + clusterSlot d 5) := rfl
@[simp] theorem F.spinLos_sense_ms_width (d : Nat) : (F.spinLos_sense_ms d).width = 8 := rfl
@[simp] theorem F.spinLos_catch_ms_key (d : Nat) : (F.spinLos_catch_ms d).key = 48 + 128 * (0x48 + clusterSlot d 5) := rfl
@[simp] theorem F.spinLos_catch_ms_width (d : Nat) : (F.spinLos_catch_ms d).width = 8 := rfl
@[simp] theorem F.spinLos_brake_chk_key (d : Nat) : (F.spinLos_brake_chk d).key = 56 + 128 * (0x48 + clusterSlot d 5) := rfl
@[simp] theorem F.spinLos_brake_chk_width (d : Nat) : (F.spinLos_brake_chk d).width = 8 := rfl
@[simp] theorem F.spinDlim_duty_lim_key (d : Nat) : (F.spinDlim_duty_lim d).key = 0 + 128 * (0x50 + clusterSlot d 5) := rfl
@[simp] theorem F.spinDlim_duty_lim_width (d : Nat) : (F.spinDlim_duty_lim d).width = 16 := rfl
@[simp] theorem F.spinDlim_v_reg_key (d : Nat) : (F.spinDlim_v_reg d).key = 16 + 128 * (0x50 + clusterSlot d 5) := rfl
@[simp] theorem F.spinDlim_v_reg_width (d : Nat) : (F.spinDlim_v_reg d).width = 16 := rfl
@[simp] theorem F.spinCnt_losses_key (d : Nat) : (F.spinCnt_losses d).key = 0 + 128 * (0x58 + clusterSlot d 5) := rfl
@[simp] theorem F.spinCnt_losses_width (d : Nat) : (F.spinCnt_losses d).width = 16 := rfl
@[simp] theorem F.spinCnt_recatches_key (d : Nat) : (F.spinCnt_recatches d).key = 16 + 128 * (0x58 + clusterSlot d 5) := rfl
@[simp] theorem F.spinCnt_recatches_width (d : Nat) : (F.spinCnt_recatches d).width = 16 := rfl
@[simp] theorem F.spinCnt_brakes_key (d : Nat) : (F.spinCnt_brakes d).key = 32 + 128 * (0x58 + clusterSlot d 5) := rfl
@[simp] theorem F.spinCnt_brakes_width (d : Nat) : (F.spinCnt_brakes d).width = 16 := rfl
@[simp] theorem F.spinCnt_predictions_key (d : Nat) : (F.spinCnt_predictions d).key = 48 + 128 * (0x58 + clusterSlot d 5) := rfl
@[simp] theorem F.spinCnt_predictions_width (d : Nat) : (F.spinCnt_predictions d).width = 16 := rfl
@[simp] theorem F.axisReq_op_key (d x : Nat) : (F.axisReq_op d x).key = 0 + 128 * ((0x0 + 0x100 * x) + clusterSlot d 6) := rfl
@[simp] theorem F.axisReq_op_width (d x : Nat) : (F.axisReq_op d x).width = 4 := rfl
@[simp] theorem F.axisReq_start_key (d x : Nat) : (F.axisReq_start d x).key = 4 + 128 * ((0x0 + 0x100 * x) + clusterSlot d 6) := rfl
@[simp] theorem F.axisReq_start_width (d x : Nat) : (F.axisReq_start d x).width = 2 := rfl
@[simp] theorem F.axisReq_target_key (d x : Nat) : (F.axisReq_target d x).key = 32 + 128 * ((0x0 + 0x100 * x) + clusterSlot d 6) := rfl
@[simp] theorem F.axisReq_target_width (d x : Nat) : (F.axisReq_target d x).width = 32 := rfl
@[simp] theorem F.axisStatus_pos_key (d x : Nat) : (F.axisStatus_pos d x).key = 0 + 128 * ((0x8 + 0x100 * x) + clusterSlot d 6) := rfl
@[simp] theorem F.axisStatus_pos_width (d x : Nat) : (F.axisStatus_pos d x).width = 32 := rfl
@[simp] theorem F.axisStatus_state_key (d x : Nat) : (F.axisStatus_state d x).key = 32 + 128 * ((0x8 + 0x100 * x) + clusterSlot d 6) := rfl
@[simp] theorem F.axisStatus_state_width (d x : Nat) : (F.axisStatus_state d x).width = 3 := rfl
@[simp] theorem F.axisStatus_level_key (d x : Nat) : (F.axisStatus_level d x).key = 35 + 128 * ((0x8 + 0x100 * x) + clusterSlot d 6) := rfl
@[simp] theorem F.axisStatus_level_width (d x : Nat) : (F.axisStatus_level d x).width = 3 := rfl
@[simp] theorem F.axisStatus_homed_key (d x : Nat) : (F.axisStatus_homed d x).key = 38 + 128 * ((0x8 + 0x100 * x) + clusterSlot d 6) := rfl
@[simp] theorem F.axisStatus_homed_width (d x : Nat) : (F.axisStatus_homed d x).width = 1 := rfl
@[simp] theorem F.axisStatus_reduced_key (d x : Nat) : (F.axisStatus_reduced d x).key = 39 + 128 * ((0x8 + 0x100 * x) + clusterSlot d 6) := rfl
@[simp] theorem F.axisStatus_reduced_width (d x : Nat) : (F.axisStatus_reduced d x).width = 1 := rfl
@[simp] theorem F.axisStatus_req_waiting_key (d x : Nat) : (F.axisStatus_req_waiting d x).key = 40 + 128 * ((0x8 + 0x100 * x) + clusterSlot d 6) := rfl
@[simp] theorem F.axisStatus_req_waiting_width (d x : Nat) : (F.axisStatus_req_waiting d x).width = 1 := rfl
@[simp] theorem F.axisStatus_req_refused_key (d x : Nat) : (F.axisStatus_req_refused d x).key = 41 + 128 * ((0x8 + 0x100 * x) + clusterSlot d 6) := rfl
@[simp] theorem F.axisStatus_req_refused_width (d x : Nat) : (F.axisStatus_req_refused d x).width = 1 := rfl
@[simp] theorem F.axisProf_a_key (d x : Nat) : (F.axisProf_a d x).key = 0 + 128 * ((0x10 + 0x100 * x) + clusterSlot d 6) := rfl
@[simp] theorem F.axisProf_a_width (d x : Nat) : (F.axisProf_a d x).width = 16 := rfl
@[simp] theorem F.axisProf_d_key (d x : Nat) : (F.axisProf_d d x).key = 16 + 128 * ((0x10 + 0x100 * x) + clusterSlot d 6) := rfl
@[simp] theorem F.axisProf_d_width (d x : Nat) : (F.axisProf_d d x).width = 16 := rfl
@[simp] theorem F.axisProf_v_max_key (d x : Nat) : (F.axisProf_v_max d x).key = 32 + 128 * ((0x10 + 0x100 * x) + clusterSlot d 6) := rfl
@[simp] theorem F.axisProf_v_max_width (d x : Nat) : (F.axisProf_v_max d x).width = 16 := rfl
@[simp] theorem F.axisProf_d_es_key (d x : Nat) : (F.axisProf_d_es d x).key = 48 + 128 * ((0x10 + 0x100 * x) + clusterSlot d 6) := rfl
@[simp] theorem F.axisProf_d_es_width (d x : Nat) : (F.axisProf_d_es d x).width = 16 := rfl
@[simp] theorem F.axisRes_th1_key (d x : Nat) : (F.axisRes_th1 d x).key = 0 + 128 * ((0x18 + 0x100 * x) + clusterSlot d 6) := rfl
@[simp] theorem F.axisRes_th1_width (d x : Nat) : (F.axisRes_th1 d x).width = 16 := rfl
@[simp] theorem F.axisRes_th2_key (d x : Nat) : (F.axisRes_th2 d x).key = 16 + 128 * ((0x18 + 0x100 * x) + clusterSlot d 6) := rfl
@[simp] theorem F.axisRes_th2_width (d x : Nat) : (F.axisRes_th2 d x).width = 16 := rfl
@[simp] theorem F.axisRes_th3_key (d x : Nat) : (F.axisRes_th3 d x).key = 32 + 128 * ((0x18 + 0x100 * x) + clusterSlot d 6) := rfl
@[simp] theorem F.axisRes_th3_width (d x : Nat) : (F.axisRes_th3 d x).width = 16 := rfl
@[simp] theorem F.axisRes_th4_key (d x : Nat) : (F.axisRes_th4 d x).key = 48 + 128 * ((0x18 + 0x100 * x) + clusterSlot d 6) := rfl
@[simp] theorem F.axisRes_th4_width (d x : Nat) : (F.axisRes_th4 d x).width = 16 := rfl
@[simp] theorem F.axisCur_i_run_key (d x : Nat) : (F.axisCur_i_run d x).key = 0 + 128 * ((0x20 + 0x100 * x) + clusterSlot d 6) := rfl
@[simp] theorem F.axisCur_i_run_width (d x : Nat) : (F.axisCur_i_run d x).width = 16 := rfl
@[simp] theorem F.axisCur_ss_pct_key (d x : Nat) : (F.axisCur_ss_pct d x).key = 16 + 128 * ((0x20 + 0x100 * x) + clusterSlot d 6) := rfl
@[simp] theorem F.axisCur_ss_pct_width (d x : Nat) : (F.axisCur_ss_pct d x).width = 7 := rfl
@[simp] theorem F.axisCur_hyst_key (d x : Nat) : (F.axisCur_hyst d x).key = 23 + 128 * ((0x20 + 0x100 * x) + clusterSlot d 6) := rfl
@[simp] theorem F.axisCur_hyst_width (d x : Nat) : (F.axisCur_hyst d x).width = 3 := rfl
@[simp] theorem F.axisCur_ss_delay_key (d x : Nat) : (F.axisCur_ss_delay d x).key = 32 + 128 * ((0x20 + 0x100 * x) + clusterSlot d 6) := rfl
@[simp] theorem F.axisCur_ss_delay_width (d x : Nat) : (F.axisCur_ss_delay d x).width = 16 := rfl
@[simp] theorem F.axisCur_home_pct_key (d x : Nat) : (F.axisCur_home_pct d x).key = 48 + 128 * ((0x20 + 0x100 * x) + clusterSlot d 6) := rfl
@[simp] theorem F.axisCur_home_pct_width (d x : Nat) : (F.axisCur_home_pct d x).width = 7 := rfl
@[simp] theorem F.axisHome_home_len_key (d x : Nat) : (F.axisHome_home_len d x).key = 0 + 128 * ((0x28 + 0x100 * x) + clusterSlot d 6) := rfl
@[simp] theorem F.axisHome_home_len_width (d x : Nat) : (F.axisHome_home_len d x).width = 32 := rfl
@[simp] theorem F.axisHome_home_spd_key (d x : Nat) : (F.axisHome_home_spd d x).key = 32 + 128 * ((0x28 + 0x100 * x) + clusterSlot d 6) := rfl
@[simp] theorem F.axisHome_home_spd_width (d x : Nat) : (F.axisHome_home_spd d x).width = 16 := rfl
@[simp] theorem F.axisHome_i_err_key (d x : Nat) : (F.axisHome_i_err d x).key = 48 + 128 * ((0x28 + 0x100 * x) + clusterSlot d 6) := rfl
@[simp] theorem F.axisHome_i_err_width (d x : Nat) : (F.axisHome_i_err d x).width = 16 := rfl
@[simp] theorem F.sledPark_pos_key (d : Nat) : (F.sledPark_pos d).key = 0 + 128 * (0x30 + clusterSlot d 6) := rfl
@[simp] theorem F.sledPark_pos_width (d : Nat) : (F.sledPark_pos d).width = 32 := rfl
@[simp] theorem F.hlinkCtrl_enable_key (d : Nat) : (F.hlinkCtrl_enable d).key = 0 + 128 * (0x0 + clusterSlot d 7) := rfl
@[simp] theorem F.hlinkCtrl_enable_width (d : Nat) : (F.hlinkCtrl_enable d).width = 1 := rfl
@[simp] theorem F.hlinkCtrl_retrain_key (d : Nat) : (F.hlinkCtrl_retrain d).key = 1 + 128 * (0x0 + clusterSlot d 7) := rfl
@[simp] theorem F.hlinkCtrl_retrain_width (d : Nat) : (F.hlinkCtrl_retrain d).width = 1 := rfl
@[simp] theorem F.hlinkCtrl_lane_disable_key (d : Nat) : (F.hlinkCtrl_lane_disable d).key = 2 + 128 * (0x0 + clusterSlot d 7) := rfl
@[simp] theorem F.hlinkCtrl_lane_disable_width (d : Nat) : (F.hlinkCtrl_lane_disable d).width = 4 := rfl
@[simp] theorem F.hlinkCtrl_srv_miss_max_key (d : Nat) : (F.hlinkCtrl_srv_miss_max d).key = 6 + 128 * (0x0 + clusterSlot d 7) := rfl
@[simp] theorem F.hlinkCtrl_srv_miss_max_width (d : Nat) : (F.hlinkCtrl_srv_miss_max d).width = 3 := rfl
@[simp] theorem F.hlinkCtrl_rt_max_key (d : Nat) : (F.hlinkCtrl_rt_max d).key = 16 + 128 * (0x0 + clusterSlot d 7) := rfl
@[simp] theorem F.hlinkCtrl_rt_max_width (d : Nat) : (F.hlinkCtrl_rt_max d).width = 8 := rfl
@[simp] theorem F.hlinkStatus_state_key (d : Nat) : (F.hlinkStatus_state d).key = 0 + 128 * (0x4 + clusterSlot d 7) := rfl
@[simp] theorem F.hlinkStatus_state_width (d : Nat) : (F.hlinkStatus_state d).width = 3 := rfl
@[simp] theorem F.hlinkStatus_burn_ok_key (d : Nat) : (F.hlinkStatus_burn_ok d).key = 3 + 128 * (0x4 + clusterSlot d 7) := rfl
@[simp] theorem F.hlinkStatus_burn_ok_width (d : Nat) : (F.hlinkStatus_burn_ok d).width = 1 := rfl
@[simp] theorem F.hlinkStatus_lane_up_key (d : Nat) : (F.hlinkStatus_lane_up d).key = 4 + 128 * (0x4 + clusterSlot d 7) := rfl
@[simp] theorem F.hlinkStatus_lane_up_width (d : Nat) : (F.hlinkStatus_lane_up d).width = 4 := rfl
@[simp] theorem F.hlinkStatus_beam_missing_key (d : Nat) : (F.hlinkStatus_beam_missing d).key = 8 + 128 * (0x4 + clusterSlot d 7) := rfl
@[simp] theorem F.hlinkStatus_beam_missing_width (d : Nat) : (F.hlinkStatus_beam_missing d).width = 4 := rfl
@[simp] theorem F.hlinkStatus_srv_lane_key (d : Nat) : (F.hlinkStatus_srv_lane d).key = 12 + 128 * (0x4 + clusterSlot d 7) := rfl
@[simp] theorem F.hlinkStatus_srv_lane_width (d : Nat) : (F.hlinkStatus_srv_lane d).width = 2 := rfl
@[simp] theorem F.hlinkStatus_rt_key (d : Nat) : (F.hlinkStatus_rt d).key = 16 + 128 * (0x4 + clusterSlot d 7) := rfl
@[simp] theorem F.hlinkStatus_rt_width (d : Nat) : (F.hlinkStatus_rt d).width = 8 := rfl
@[simp] theorem F.hlinkStatus_passes_key (d : Nat) : (F.hlinkStatus_passes d).key = 24 + 128 * (0x4 + clusterSlot d 7) := rfl
@[simp] theorem F.hlinkStatus_passes_width (d : Nat) : (F.hlinkStatus_passes d).width = 4 := rfl
@[simp] theorem F.hlinkLane_discards_key (d n : Nat) : (F.hlinkLane_discards d n).key = 0 + 128 * ((0x8 + 0x4 * n) + clusterSlot d 7) := rfl
@[simp] theorem F.hlinkLane_discards_width (d n : Nat) : (F.hlinkLane_discards d n).width = 16 := rfl
@[simp] theorem F.hlinkLane_losses_key (d n : Nat) : (F.hlinkLane_losses d n).key = 16 + 128 * ((0x8 + 0x4 * n) + clusterSlot d 7) := rfl
@[simp] theorem F.hlinkLane_losses_width (d n : Nat) : (F.hlinkLane_losses d n).width = 8 := rfl
@[simp] theorem F.hlinkLane_cmd_resends_key (d n : Nat) : (F.hlinkLane_cmd_resends d n).key = 24 + 128 * ((0x8 + 0x4 * n) + clusterSlot d 7) := rfl
@[simp] theorem F.hlinkLane_cmd_resends_width (d n : Nat) : (F.hlinkLane_cmd_resends d n).width = 8 := rfl
@[simp] theorem F.hlinkSrv_lost_total_key (d : Nat) : (F.hlinkSrv_lost_total d).key = 0 + 128 * (0x18 + clusterSlot d 7) := rfl
@[simp] theorem F.hlinkSrv_lost_total_width (d : Nat) : (F.hlinkSrv_lost_total d).width = 16 := rfl
@[simp] theorem F.hlinkSrv_lost_run_key (d : Nat) : (F.hlinkSrv_lost_run d).key = 16 + 128 * (0x18 + clusterSlot d 7) := rfl
@[simp] theorem F.hlinkSrv_lost_run_width (d : Nat) : (F.hlinkSrv_lost_run d).width = 3 := rfl
@[simp] theorem F.hlinkSrv_servo_loss_key (d : Nat) : (F.hlinkSrv_servo_loss d).key = 19 + 128 * (0x18 + clusterSlot d 7) := rfl
@[simp] theorem F.hlinkSrv_servo_loss_width (d : Nat) : (F.hlinkSrv_servo_loss d).width = 1 := rfl
@[simp] theorem F.hlinkSrv_train_fail_key (d : Nat) : (F.hlinkSrv_train_fail d).key = 20 + 128 * (0x18 + clusterSlot d 7) := rfl
@[simp] theorem F.hlinkSrv_train_fail_width (d : Nat) : (F.hlinkSrv_train_fail d).width = 12 := rfl
@[simp] theorem F.hlinkTelem_value_key (d i : Nat) : (F.hlinkTelem_value d i).key = 0 + 128 * ((0x20 + 0x8 * i) + clusterSlot d 7) := rfl
@[simp] theorem F.hlinkTelem_value_width (d i : Nat) : (F.hlinkTelem_value d i).width = 48 := rfl
@[simp] theorem F.hlinkTelem_age_key (d i : Nat) : (F.hlinkTelem_age d i).key = 48 + 128 * ((0x20 + 0x8 * i) + clusterSlot d 7) := rfl
@[simp] theorem F.hlinkTelem_age_width (d i : Nat) : (F.hlinkTelem_age d i).width = 16 := rfl
@[simp] theorem F.jd_sync_min_key (d : Nat) : (F.jd_sync_min d).key = 0 + 128 * (0x1000 + clusterSlot d 7) := rfl
@[simp] theorem F.jd_sync_min_width (d : Nat) : (F.jd_sync_min d).width = 6 := rfl
@[simp] theorem F.jd_sync_win_key (d : Nat) : (F.jd_sync_win d).key = 6 + 128 * (0x1000 + clusterSlot d 7) := rfl
@[simp] theorem F.jd_sync_win_width (d : Nat) : (F.jd_sync_win d).width = 5 := rfl
@[simp] theorem F.jd_tol_key (d : Nat) : (F.jd_tol d).key = 11 + 128 * (0x1000 + clusterSlot d 7) := rfl
@[simp] theorem F.jd_tol_width (d : Nat) : (F.jd_tol d).width = 3 := rfl
@[simp] theorem F.jd_acq_win_key (d : Nat) : (F.jd_acq_win d).key = 14 + 128 * (0x1000 + clusterSlot d 7) := rfl
@[simp] theorem F.jd_acq_win_width (d : Nat) : (F.jd_acq_win d).width = 11 := rfl
@[simp] theorem F.jd_nbr_llr_scale_key (d : Nat) : (F.jd_nbr_llr_scale d).key = 25 + 128 * (0x1000 + clusterSlot d 7) := rfl
@[simp] theorem F.jd_nbr_llr_scale_width (d : Nat) : (F.jd_nbr_llr_scale d).width = 2 := rfl
@[simp] theorem F.jdt_t0_key (d : Nat) : (F.jdt_t0 d).key = 0 + 128 * (0x1008 + clusterSlot d 7) := rfl
@[simp] theorem F.jdt_t0_width (d : Nat) : (F.jdt_t0 d).width = 8 := rfl
@[simp] theorem F.jdt_t1_key (d : Nat) : (F.jdt_t1 d).key = 8 + 128 * (0x1008 + clusterSlot d 7) := rfl
@[simp] theorem F.jdt_t1_width (d : Nat) : (F.jdt_t1 d).width = 8 := rfl
@[simp] theorem F.jdt_t2_key (d : Nat) : (F.jdt_t2 d).key = 16 + 128 * (0x1008 + clusterSlot d 7) := rfl
@[simp] theorem F.jdt_t2_width (d : Nat) : (F.jdt_t2 d).width = 8 := rfl
@[simp] theorem F.jdt_t3_key (d : Nat) : (F.jdt_t3 d).key = 24 + 128 * (0x1008 + clusterSlot d 7) := rfl
@[simp] theorem F.jdt_t3_width (d : Nat) : (F.jdt_t3 d).width = 8 := rfl
@[simp] theorem F.jdt_t4_key (d : Nat) : (F.jdt_t4 d).key = 32 + 128 * (0x1008 + clusterSlot d 7) := rfl
@[simp] theorem F.jdt_t4_width (d : Nat) : (F.jdt_t4 d).width = 8 := rfl
@[simp] theorem F.jdt_lvl_unit_key (d : Nat) : (F.jdt_lvl_unit d).key = 40 + 128 * (0x1008 + clusterSlot d 7) := rfl
@[simp] theorem F.jdt_lvl_unit_width (d : Nat) : (F.jdt_lvl_unit d).width = 8 := rfl
@[simp] theorem F.jdt_flag_min_key (d : Nat) : (F.jdt_flag_min d).key = 48 + 128 * (0x1008 + clusterSlot d 7) := rfl
@[simp] theorem F.jdt_flag_min_width (d : Nat) : (F.jdt_flag_min d).width = 6 := rfl
@[simp] theorem F.retryRung_converged_key (d n : Nat) : (F.retryRung_converged d n).key = 0 + 128 * ((0x2000 + 0x4 * (n - 1)) + clusterSlot d 7) := rfl
@[simp] theorem F.retryRung_converged_width (d n : Nat) : (F.retryRung_converged d n).width = 16 := rfl
@[simp] theorem F.retryRung_tried_key (d n : Nat) : (F.retryRung_tried d n).key = 16 + 128 * ((0x2000 + 0x4 * (n - 1)) + clusterSlot d 7) := rfl
@[simp] theorem F.retryRung_tried_width (d n : Nat) : (F.retryRung_tried d n).width = 16 := rfl
@[simp] theorem F.burnCtrl_rec_thr_key (d : Nat) : (F.burnCtrl_rec_thr d).key = 0 + 128 * (0x3000 + clusterSlot d 7) := rfl
@[simp] theorem F.burnCtrl_rec_thr_width (d : Nat) : (F.burnCtrl_rec_thr d).width = 8 := rfl
@[simp] theorem F.burnCtrl_abandon_max_key (d : Nat) : (F.burnCtrl_abandon_max d).key = 8 + 128 * (0x3000 + clusterSlot d 7) := rfl
@[simp] theorem F.burnCtrl_abandon_max_width (d : Nat) : (F.burnCtrl_abandon_max d).width = 3 := rfl
@[simp] theorem F.burnCtrl_lead_key (d : Nat) : (F.burnCtrl_lead d).key = 16 + 128 * (0x3000 + clusterSlot d 7) := rfl
@[simp] theorem F.burnCtrl_lead_width (d : Nat) : (F.burnCtrl_lead d).width = 8 := rfl
@[simp] theorem F.burnStatus_state_key (d : Nat) : (F.burnStatus_state d).key = 0 + 128 * (0x3004 + clusterSlot d 7) := rfl
@[simp] theorem F.burnStatus_state_width (d : Nat) : (F.burnStatus_state d).width = 2 := rfl
@[simp] theorem F.burnStatus_queued_key (d : Nat) : (F.burnStatus_queued d).key = 2 + 128 * (0x3004 + clusterSlot d 7) := rfl
@[simp] theorem F.burnStatus_queued_width (d : Nat) : (F.burnStatus_queued d).width = 5 := rfl
@[simp] theorem F.burnStatus_open_key (d : Nat) : (F.burnStatus_open d).key = 7 + 128 * (0x3004 + clusterSlot d 7) := rfl
@[simp] theorem F.burnStatus_open_width (d : Nat) : (F.burnStatus_open d).width = 1 := rfl
@[simp] theorem F.burnStatus_rewrites_key (d : Nat) : (F.burnStatus_rewrites d).key = 8 + 128 * (0x3004 + clusterSlot d 7) := rfl
@[simp] theorem F.burnStatus_rewrites_width (d : Nat) : (F.burnStatus_rewrites d).width = 8 := rfl
@[simp] theorem F.burnStatus_position_key (d : Nat) : (F.burnStatus_position d).key = 16 + 128 * (0x3004 + clusterSlot d 7) := rfl
@[simp] theorem F.burnStatus_position_width (d : Nat) : (F.burnStatus_position d).width = 13 := rfl
@[simp] theorem F.burnNext_psa_key (d l : Nat) : (F.burnNext_psa d l).key = 0 + 128 * ((0x3008 + 0x4 * l) + clusterSlot d 7) := rfl
@[simp] theorem F.burnNext_psa_width (d l : Nat) : (F.burnNext_psa d l).width = 31 := rfl
@[simp] theorem F.burnQ_desc_key (d : Nat) : (F.burnQ_desc d).key = 0 + 128 * (0x3028 + clusterSlot d 7) := rfl
@[simp] theorem F.burnQ_desc_width (d : Nat) : (F.burnQ_desc d).width = 64 := rfl
@[simp] theorem F.burnCnt_complete_key (d : Nat) : (F.burnCnt_complete d).key = 0 + 128 * (0x3030 + clusterSlot d 7) := rfl
@[simp] theorem F.burnCnt_complete_width (d : Nat) : (F.burnCnt_complete d).width = 16 := rfl
@[simp] theorem F.burnCnt_spoiled_key (d : Nat) : (F.burnCnt_spoiled d).key = 16 + 128 * (0x3030 + clusterSlot d 7) := rfl
@[simp] theorem F.burnCnt_spoiled_width (d : Nat) : (F.burnCnt_spoiled d).width = 16 := rfl
@[simp] theorem F.burnCnt_rewrites_key (d : Nat) : (F.burnCnt_rewrites d).key = 32 + 128 * (0x3030 + clusterSlot d 7) := rfl
@[simp] theorem F.burnCnt_rewrites_width (d : Nat) : (F.burnCnt_rewrites d).width = 16 := rfl
@[simp] theorem F.burnCnt_terminators_key (d : Nat) : (F.burnCnt_terminators d).key = 48 + 128 * (0x3030 + clusterSlot d 7) := rfl
@[simp] theorem F.burnCnt_terminators_width (d : Nat) : (F.burnCnt_terminators d).width = 8 := rfl
@[simp] theorem F.burnCnt_opc_fail_key (d : Nat) : (F.burnCnt_opc_fail d).key = 56 + 128 * (0x3030 + clusterSlot d 7) := rfl
@[simp] theorem F.burnCnt_opc_fail_width (d : Nat) : (F.burnCnt_opc_fail d).width = 8 := rfl
@[simp] theorem F.opcLast_p_opt_key (d b : Nat) : (F.opcLast_p_opt d b).key = 0 + 128 * ((0x4000 + 0x8 * b) + clusterSlot d 7) := rfl
@[simp] theorem F.opcLast_p_opt_width (d b : Nat) : (F.opcLast_p_opt d b).width = 16 := rfl
@[simp] theorem F.opcLast_layer_key (d b : Nat) : (F.opcLast_layer d b).key = 16 + 128 * ((0x4000 + 0x8 * b) + clusterSlot d 7) := rfl
@[simp] theorem F.opcLast_layer_width (d b : Nat) : (F.opcLast_layer d b).width = 3 := rfl
@[simp] theorem F.opcLast_side_key (d b : Nat) : (F.opcLast_side d b).key = 19 + 128 * ((0x4000 + 0x8 * b) + clusterSlot d 7) := rfl
@[simp] theorem F.opcLast_side_width (d b : Nat) : (F.opcLast_side d b).width = 1 := rfl
@[simp] theorem F.opcLast_valid_key (d b : Nat) : (F.opcLast_valid d b).key = 20 + 128 * ((0x4000 + 0x8 * b) + clusterSlot d 7) := rfl
@[simp] theorem F.opcLast_valid_width (d b : Nat) : (F.opcLast_valid d b).width = 1 := rfl
@[simp] theorem F.opcLast_test_psa_key (d b : Nat) : (F.opcLast_test_psa d b).key = 32 + 128 * ((0x4000 + 0x8 * b) + clusterSlot d 7) := rfl
@[simp] theorem F.opcLast_test_psa_width (d b : Nat) : (F.opcLast_test_psa d b).width = 31 := rfl
@[simp] theorem F.discTray_open_pos_key (d : Nat) : (F.discTray_open_pos d).key = 0 + 128 * (0x5000 + clusterSlot d 7) := rfl
@[simp] theorem F.discTray_open_pos_width (d : Nat) : (F.discTray_open_pos d).width = 32 := rfl
@[simp] theorem F.discTray_clamp_pos_key (d : Nat) : (F.discTray_clamp_pos d).key = 32 + 128 * (0x5000 + clusterSlot d 7) := rfl
@[simp] theorem F.discTray_clamp_pos_width (d : Nat) : (F.discTray_clamp_pos d).width = 32 := rfl
@[simp] theorem F.discStatus_state_key (d : Nat) : (F.discStatus_state d).key = 0 + 128 * (0x5008 + clusterSlot d 7) := rfl
@[simp] theorem F.discStatus_state_width (d : Nat) : (F.discStatus_state d).width = 3 := rfl
@[simp] theorem F.discStatus_side_key (d : Nat) : (F.discStatus_side d).key = 3 + 128 * (0x5008 + clusterSlot d 7) := rfl
@[simp] theorem F.discStatus_side_width (d : Nat) : (F.discStatus_side d).width = 1 := rfl
@[simp] theorem F.discStatus_foreign_key (d : Nat) : (F.discStatus_foreign d).key = 4 + 128 * (0x5008 + clusterSlot d 7) := rfl
@[simp] theorem F.discStatus_foreign_width (d : Nat) : (F.discStatus_foreign d).width = 1 := rfl
@[simp] theorem F.discId_id_key (d : Nat) : (F.discId_id d).key = 0 + 128 * (0x5010 + clusterSlot d 7) := rfl
@[simp] theorem F.discId_id_width (d : Nat) : (F.discId_id d).width = 64 := rfl
@[simp] theorem F.hcal_ld_trim_key (d : Nat) : (F.hcal_ld_trim d).key = 0 + 128 * (0x6000 + clusterSlot d 7) := rfl
@[simp] theorem F.hcal_ld_trim_width (d : Nat) : (F.hcal_ld_trim d).width = 8 := rfl
@[simp] theorem F.hcal_q_trim_key (d : Nat) : (F.hcal_q_trim d).key = 8 + 128 * (0x6000 + clusterSlot d 7) := rfl
@[simp] theorem F.hcal_q_trim_width (d : Nat) : (F.hcal_q_trim d).width = 32 := rfl
@[simp] theorem F.hcal_ok_key (d : Nat) : (F.hcal_ok d).key = 40 + 128 * (0x6000 + clusterSlot d 7) := rfl
@[simp] theorem F.hcal_ok_width (d : Nat) : (F.hcal_ok d).width = 1 := rfl
@[simp] theorem F.spinup_spinup_max_key (r : Nat) : (F.spinup_spinup_max r).key = 0 + 128 * (0x0 + regionBase r) := rfl
@[simp] theorem F.spinup_spinup_max_width (r : Nat) : (F.spinup_spinup_max r).width = 3 := rfl
@[simp] theorem F.spinup_spinup_active_key (r : Nat) : (F.spinup_spinup_active r).key = 8 + 128 * (0x0 + regionBase r) := rfl
@[simp] theorem F.spinup_spinup_active_width (r : Nat) : (F.spinup_spinup_active r).width = 3 := rfl
@[simp] theorem F.spinup_spinup_waiting_key (r : Nat) : (F.spinup_spinup_waiting r).key = 16 + 128 * (0x0 + regionBase r) := rfl
@[simp] theorem F.spinup_spinup_waiting_width (r : Nat) : (F.spinup_spinup_waiting r).width = 6 := rfl
@[simp] theorem F.decCtrl_iter_first_key (r : Nat) : (F.decCtrl_iter_first r).key = 0 + 128 * (0x1000 + regionBase r) := rfl
@[simp] theorem F.decCtrl_iter_first_width (r : Nat) : (F.decCtrl_iter_first r).width = 6 := rfl
@[simp] theorem F.decCtrl_iter_retry_key (r : Nat) : (F.decCtrl_iter_retry r).key = 6 + 128 * (0x1000 + regionBase r) := rfl
@[simp] theorem F.decCtrl_iter_retry_width (r : Nat) : (F.decCtrl_iter_retry r).width = 6 := rfl
@[simp] theorem F.decCtrl_beta_key (r : Nat) : (F.decCtrl_beta r).key = 12 + 128 * (0x1000 + regionBase r) := rfl
@[simp] theorem F.decCtrl_beta_width (r : Nat) : (F.decCtrl_beta r).width = 4 := rfl
@[simp] theorem F.decCtrl_read_corr_max_key (r : Nat) : (F.decCtrl_read_corr_max r).key = 16 + 128 * (0x1000 + regionBase r) := rfl
@[simp] theorem F.decCtrl_read_corr_max_width (r : Nat) : (F.decCtrl_read_corr_max r).width = 16 := rfl
@[simp] theorem F.decRetry_ceiling_key (r : Nat) : (F.decRetry_ceiling r).key = 0 + 128 * (0x1004 + regionBase r) := rfl
@[simp] theorem F.decRetry_ceiling_width (r : Nat) : (F.decRetry_ceiling r).width = 3 := rfl
@[simp] theorem F.decRetry_r4_step_key (r : Nat) : (F.decRetry_r4_step r).key = 3 + 128 * (0x1004 + regionBase r) := rfl
@[simp] theorem F.decRetry_r4_step_width (r : Nat) : (F.decRetry_r4_step r).width = 3 := rfl
@[simp] theorem F.decRetry_r5_step_key (r : Nat) : (F.decRetry_r5_step r).key = 6 + 128 * (0x1004 + regionBase r) := rfl
@[simp] theorem F.decRetry_r5_step_width (r : Nat) : (F.decRetry_r5_step r).width = 8 := rfl
@[simp] theorem F.decRetry_budget_ms_key (r : Nat) : (F.decRetry_budget_ms r).key = 16 + 128 * (0x1004 + regionBase r) := rfl
@[simp] theorem F.decRetry_budget_ms_width (r : Nat) : (F.decRetry_budget_ms r).width = 16 := rfl
@[simp] theorem F.decVerify_v_iter_key (r : Nat) : (F.decVerify_v_iter r).key = 0 + 128 * (0x1008 + regionBase r) := rfl
@[simp] theorem F.decVerify_v_iter_width (r : Nat) : (F.decVerify_v_iter r).width = 4 := rfl
@[simp] theorem F.decVerify_v_synd3_max_key (r : Nat) : (F.decVerify_v_synd3_max r).key = 4 + 128 * (0x1008 + regionBase r) := rfl
@[simp] theorem F.decVerify_v_synd3_max_width (r : Nat) : (F.decVerify_v_synd3_max r).width = 10 := rfl
@[simp] theorem F.decVerify_v_corr_max_key (r : Nat) : (F.decVerify_v_corr_max r).key = 14 + 128 * (0x1008 + regionBase r) := rfl
@[simp] theorem F.decVerify_v_corr_max_width (r : Nat) : (F.decVerify_v_corr_max r).width = 16 := rfl
@[simp] theorem F.decPool_busy_key (r : Nat) : (F.decPool_busy r).key = 0 + 128 * (0x100C + regionBase r) := rfl
@[simp] theorem F.decPool_busy_width (r : Nat) : (F.decPool_busy r).width = 8 := rfl
@[simp] theorem F.decPool_parked_key (r : Nat) : (F.decPool_parked r).key = 8 + 128 * (0x100C + regionBase r) := rfl
@[simp] theorem F.decPool_parked_width (r : Nat) : (F.decPool_parked r).width = 5 := rfl
@[simp] theorem F.decPool_verify_wait_key (r : Nat) : (F.decPool_verify_wait r).key = 16 + 128 * (0x100C + regionBase r) := rfl
@[simp] theorem F.decPool_verify_wait_width (r : Nat) : (F.decPool_verify_wait r).width = 8 := rfl
@[simp] theorem F.opcCtrl_step_key (r : Nat) : (F.opcCtrl_step r).key = 0 + 128 * (0x2000 + regionBase r) := rfl
@[simp] theorem F.opcCtrl_step_width (r : Nat) : (F.opcCtrl_step r).width = 4 := rfl
@[simp] theorem F.opcCtrl_beta_target_key (r : Nat) : (F.opcCtrl_beta_target r).key = 4 + 128 * (0x2000 + regionBase r) := rfl
@[simp] theorem F.opcCtrl_beta_target_width (r : Nat) : (F.opcCtrl_beta_target r).width = 10 := rfl
@[simp] theorem F.opcCtrl_gamma_key (r : Nat) : (F.opcCtrl_gamma r).key = 14 + 128 * (0x2000 + regionBase r) := rfl
@[simp] theorem F.opcCtrl_gamma_width (r : Nat) : (F.opcCtrl_gamma r).width = 8 := rfl
@[simp] theorem F.opcCtrl_tries_key (r : Nat) : (F.opcCtrl_tries r).key = 22 + 128 * (0x2000 + regionBase r) := rfl
@[simp] theorem F.opcCtrl_tries_width (r : Nat) : (F.opcCtrl_tries r).width = 3 := rfl
@[simp] theorem F.opcCtrl_margin_key (r : Nat) : (F.opcCtrl_margin r).key = 25 + 128 * (0x2000 + regionBase r) := rfl
@[simp] theorem F.opcCtrl_margin_width (r : Nat) : (F.opcCtrl_margin r).width = 7 := rfl
@[simp] theorem F.opcLayer_p_def_key (r l : Nat) : (F.opcLayer_p_def r l).key = 0 + 128 * ((0x2008 + 0x8 * l) + regionBase r) := rfl
@[simp] theorem F.opcLayer_p_def_width (r l : Nat) : (F.opcLayer_p_def r l).width = 16 := rfl
@[simp] theorem F.opcLayer_p_min_key (r l : Nat) : (F.opcLayer_p_min r l).key = 16 + 128 * ((0x2008 + 0x8 * l) + regionBase r) := rfl
@[simp] theorem F.opcLayer_p_min_width (r l : Nat) : (F.opcLayer_p_min r l).width = 16 := rfl
@[simp] theorem F.opcLayer_p_max_key (r l : Nat) : (F.opcLayer_p_max r l).key = 32 + 128 * ((0x2008 + 0x8 * l) + regionBase r) := rfl
@[simp] theorem F.opcLayer_p_max_width (r l : Nat) : (F.opcLayer_p_max r l).width = 16 := rfl
@[simp] theorem F.ws0_bias_key (r : Nat) : (F.ws0_bias r).key = 0 + 128 * (0x3000 + regionBase r) := rfl
@[simp] theorem F.ws0_bias_width (r : Nat) : (F.ws0_bias r).width = 8 := rfl
@[simp] theorem F.ws0_cool_key (r : Nat) : (F.ws0_cool r).key = 8 + 128 * (0x3000 + regionBase r) := rfl
@[simp] theorem F.ws0_cool_width (r : Nat) : (F.ws0_cool r).width = 8 := rfl
@[simp] theorem F.ws_t_top_key (r c : Nat) : (F.ws_t_top r c).key = 0 + 128 * ((0x3004 + 0x4 * (c - 1)) + regionBase r) := rfl
@[simp] theorem F.ws_t_top_width (r c : Nat) : (F.ws_t_top r c).width = 6 := rfl
@[simp] theorem F.ws_d_top_key (r c : Nat) : (F.ws_d_top r c).key = 6 + 128 * ((0x3004 + 0x4 * (c - 1)) + regionBase r) := rfl
@[simp] theorem F.ws_d_top_width (r c : Nat) : (F.ws_d_top r c).width = 6 := rfl
@[simp] theorem F.ws_t_mp_key (r c : Nat) : (F.ws_t_mp r c).key = 12 + 128 * ((0x3004 + 0x4 * (c - 1)) + regionBase r) := rfl
@[simp] theorem F.ws_t_mp_width (r c : Nat) : (F.ws_t_mp r c).width = 6 := rfl
@[simp] theorem F.ws_t_lp_key (r c : Nat) : (F.ws_t_lp r c).key = 18 + 128 * ((0x3004 + 0x4 * (c - 1)) + regionBase r) := rfl
@[simp] theorem F.ws_t_lp_width (r c : Nat) : (F.ws_t_lp r c).width = 6 := rfl
@[simp] theorem F.ws_t_cl_key (r c : Nat) : (F.ws_t_cl r c).key = 24 + 128 * ((0x3004 + 0x4 * (c - 1)) + regionBase r) := rfl
@[simp] theorem F.ws_t_cl_width (r c : Nat) : (F.ws_t_cl r c).width = 6 := rfl
@[simp] theorem F.fcStatus_state_key (r c : Nat) : (F.fcStatus_state r c).key = 0 + 128 * ((0x4000 + 0x100 * c) + regionBase r) := rfl
@[simp] theorem F.fcStatus_state_width (r c : Nat) : (F.fcStatus_state r c).width = 3 := rfl
@[simp] theorem F.fcStatus_targets_key (r c : Nat) : (F.fcStatus_targets r c).key = 3 + 128 * ((0x4000 + 0x100 * c) + regionBase r) := rfl
@[simp] theorem F.fcStatus_targets_width (r c : Nat) : (F.fcStatus_targets r c).width = 8 := rfl
@[simp] theorem F.fcStatus_rate_key (r c : Nat) : (F.fcStatus_rate r c).key = 16 + 128 * ((0x4000 + 0x100 * c) + regionBase r) := rfl
@[simp] theorem F.fcStatus_rate_width (r c : Nat) : (F.fcStatus_rate r c).width = 12 := rfl
@[simp] theorem F.fcCfg_pair_dist_key (r c : Nat) : (F.fcCfg_pair_dist r c).key = 0 + 128 * ((0x4004 + 0x100 * c) + regionBase r) := rfl
@[simp] theorem F.fcCfg_pair_dist_width (r c : Nat) : (F.fcCfg_pair_dist r c).width = 3 := rfl
@[simp] theorem F.fcCfg_down_key (r c : Nat) : (F.fcCfg_down r c).key = 3 + 128 * ((0x4004 + 0x100 * c) + regionBase r) := rfl
@[simp] theorem F.fcCfg_down_width (r c : Nat) : (F.fcCfg_down r c).width = 1 := rfl
@[simp] theorem F.fcErr_refresh_key (r c : Nat) : (F.fcErr_refresh r c).key = 0 + 128 * ((0x4008 + 0x100 * c) + regionBase r) := rfl
@[simp] theorem F.fcErr_refresh_width (r c : Nat) : (F.fcErr_refresh r c).width = 16 := rfl
@[simp] theorem F.fcErr_uncorr_key (r c : Nat) : (F.fcErr_uncorr r c).key = 16 + 128 * ((0x4008 + 0x100 * c) + regionBase r) := rfl
@[simp] theorem F.fcErr_uncorr_width (r c : Nat) : (F.fcErr_uncorr r c).width = 16 := rfl
@[simp] theorem F.fcErr_prog_fail_key (r c : Nat) : (F.fcErr_prog_fail r c).key = 32 + 128 * ((0x4008 + 0x100 * c) + regionBase r) := rfl
@[simp] theorem F.fcErr_prog_fail_width (r c : Nat) : (F.fcErr_prog_fail r c).width = 8 := rfl
@[simp] theorem F.fcErr_erase_fail_key (r c : Nat) : (F.fcErr_erase_fail r c).key = 40 + 128 * ((0x4008 + 0x100 * c) + regionBase r) := rfl
@[simp] theorem F.fcErr_erase_fail_width (r c : Nat) : (F.fcErr_erase_fail r c).width = 8 := rfl
@[simp] theorem F.fcErr_retired_key (r c : Nat) : (F.fcErr_retired r c).key = 48 + 128 * ((0x4008 + 0x100 * c) + regionBase r) := rfl
@[simp] theorem F.fcErr_retired_width (r c : Nat) : (F.fcErr_retired r c).width = 16 := rfl
@[simp] theorem F.bucket_depth_key (r : Nat) : (F.bucket_depth r).key = 0 + 128 * (0x5000 + regionBase r) := rfl
@[simp] theorem F.bucket_depth_width (r : Nat) : (F.bucket_depth r).width = 8 := rfl
@[simp] theorem F.bucket_level_key (r : Nat) : (F.bucket_level r).key = 8 + 128 * (0x5000 + regionBase r) := rfl
@[simp] theorem F.bucket_level_width (r : Nat) : (F.bucket_level r).width = 8 := rfl
@[simp] theorem F.bucket_leak_min_key (r : Nat) : (F.bucket_leak_min r).key = 16 + 128 * (0x5000 + regionBase r) := rfl
@[simp] theorem F.bucket_leak_min_width (r : Nat) : (F.bucket_leak_min r).width = 12 := rfl
@[simp] theorem F.dramCtrl_narrow_key (e : Nat) : (F.dramCtrl_narrow e).key = 0 + 128 * (0x0 + dieBase e) := rfl
@[simp] theorem F.dramCtrl_narrow_width (e : Nat) : (F.dramCtrl_narrow e).width = 1 := rfl
@[simp] theorem F.dramCtrl_scrub_en_key (e : Nat) : (F.dramCtrl_scrub_en e).key = 1 + 128 * (0x0 + dieBase e) := rfl
@[simp] theorem F.dramCtrl_scrub_en_width (e : Nat) : (F.dramCtrl_scrub_en e).width = 1 := rfl
@[simp] theorem F.dramCtrl_merge_ns_key (e : Nat) : (F.dramCtrl_merge_ns e).key = 16 + 128 * (0x0 + dieBase e) := rfl
@[simp] theorem F.dramCtrl_merge_ns_width (e : Nat) : (F.dramCtrl_merge_ns e).width = 8 := rfl
@[simp] theorem F.dramScrub_scrub_min_key (e : Nat) : (F.dramScrub_scrub_min e).key = 0 + 128 * (0x4 + dieBase e) := rfl
@[simp] theorem F.dramScrub_scrub_min_width (e : Nat) : (F.dramScrub_scrub_min e).width = 16 := rfl
@[simp] theorem F.dramScrub_pos_key (e : Nat) : (F.dramScrub_pos e).key = 16 + 128 * (0x4 + dieBase e) := rfl
@[simp] theorem F.dramScrub_pos_width (e : Nat) : (F.dramScrub_pos e).width = 10 := rfl
@[simp] theorem F.dramScrub_passes_key (e : Nat) : (F.dramScrub_passes e).key = 26 + 128 * (0x4 + dieBase e) := rfl
@[simp] theorem F.dramScrub_passes_width (e : Nat) : (F.dramScrub_passes e).width = 6 := rfl
@[simp] theorem F.dramErr_corrected_key (e : Nat) : (F.dramErr_corrected e).key = 0 + 128 * (0x8 + dieBase e) := rfl
@[simp] theorem F.dramErr_corrected_width (e : Nat) : (F.dramErr_corrected e).width = 32 := rfl
@[simp] theorem F.dramErr_uncorr_key (e : Nat) : (F.dramErr_uncorr e).key = 32 + 128 * (0x8 + dieBase e) := rfl
@[simp] theorem F.dramErr_uncorr_width (e : Nat) : (F.dramErr_uncorr e).width = 16 := rfl
@[simp] theorem F.dramErr_narrow_refused_key (e : Nat) : (F.dramErr_narrow_refused e).key = 48 + 128 * (0x8 + dieBase e) := rfl
@[simp] theorem F.dramErr_narrow_refused_width (e : Nat) : (F.dramErr_narrow_refused e).width = 8 := rfl
@[simp] theorem F.dramErr_evictions_key (e : Nat) : (F.dramErr_evictions e).key = 56 + 128 * (0x8 + dieBase e) := rfl
@[simp] theorem F.dramErr_evictions_width (e : Nat) : (F.dramErr_evictions e).width = 8 := rfl
@[simp] theorem F.dramUe_addr_key (e : Nat) : (F.dramUe_addr e).key = 0 + 128 * (0x10 + dieBase e) := rfl
@[simp] theorem F.dramUe_addr_width (e : Nat) : (F.dramUe_addr e).width = 34 := rfl
@[simp] theorem F.tilePoison_tile_key (e : Nat) : (F.tilePoison_tile e).key = 0 + 128 * (0x1000 + dieBase e) := rfl
@[simp] theorem F.tilePoison_tile_width (e : Nat) : (F.tilePoison_tile e).width = 21 := rfl
@[simp] theorem F.tilePoison_use_key (e : Nat) : (F.tilePoison_use e).key = 21 + 128 * (0x1000 + dieBase e) := rfl
@[simp] theorem F.tilePoison_use_width (e : Nat) : (F.tilePoison_use e).width = 3 := rfl
@[simp] theorem F.tilePoison_poisoned_key (e : Nat) : (F.tilePoison_poisoned e).key = 32 + 128 * (0x1000 + dieBase e) := rfl
@[simp] theorem F.tilePoison_poisoned_width (e : Nat) : (F.tilePoison_poisoned e).width = 16 := rfl
@[simp] theorem F.tilePoison_quarantined_key (e : Nat) : (F.tilePoison_quarantined e).key = 48 + 128 * (0x1000 + dieBase e) := rfl
@[simp] theorem F.tilePoison_quarantined_width (e : Nat) : (F.tilePoison_quarantined e).width = 16 := rfl
@[simp] theorem F.snoopCfg_en_key (e v : Nat) : (F.snoopCfg_en e v).key = 0 + 128 * ((0x2000 + 0x20 * v) + dieBase e) := rfl
@[simp] theorem F.snoopCfg_en_width (e v : Nat) : (F.snoopCfg_en e v).width = 1 := rfl
@[simp] theorem F.snoopCfg_poly_key (e v : Nat) : (F.snoopCfg_poly e v).key = 1 + 128 * ((0x2000 + 0x20 * v) + dieBase e) := rfl
@[simp] theorem F.snoopCfg_poly_width (e v : Nat) : (F.snoopCfg_poly e v).width = 2 := rfl
@[simp] theorem F.snoopCfg_kind_key (e v : Nat) : (F.snoopCfg_kind e v).key = 3 + 128 * ((0x2000 + 0x20 * v) + dieBase e) := rfl
@[simp] theorem F.snoopCfg_kind_width (e v : Nat) : (F.snoopCfg_kind e v).width = 3 := rfl
@[simp] theorem F.snoopCfg_index_key (e v : Nat) : (F.snoopCfg_index e v).key = 6 + 128 * ((0x2000 + 0x20 * v) + dieBase e) := rfl
@[simp] theorem F.snoopCfg_index_width (e v : Nat) : (F.snoopCfg_index e v).width = 12 := rfl
@[simp] theorem F.snoopCfg_engine_key (e v : Nat) : (F.snoopCfg_engine e v).key = 18 + 128 * ((0x2000 + 0x20 * v) + dieBase e) := rfl
@[simp] theorem F.snoopCfg_engine_width (e v : Nat) : (F.snoopCfg_engine e v).width = 1 := rfl
@[simp] theorem F.snoopRun_run_key (e v : Nat) : (F.snoopRun_run e v).key = 0 + 128 * ((0x2008 + 0x20 * v) + dieBase e) := rfl
@[simp] theorem F.snoopRun_run_width (e v : Nat) : (F.snoopRun_run e v).width = 64 := rfl
@[simp] theorem F.snoopCount_count_key (e v : Nat) : (F.snoopCount_count e v).key = 0 + 128 * ((0x2010 + 0x20 * v) + dieBase e) := rfl
@[simp] theorem F.snoopCount_count_width (e v : Nat) : (F.snoopCount_count e v).width = 64 := rfl
@[simp] theorem F.contLast_master_key (e : Nat) : (F.contLast_master e).key = 0 + 128 * (0x3000 + dieBase e) := rfl
@[simp] theorem F.contLast_master_width (e : Nat) : (F.contLast_master e).width = 9 := rfl
@[simp] theorem F.contLast_space_key (e : Nat) : (F.contLast_space e).key = 9 + 128 * (0x3000 + dieBase e) := rfl
@[simp] theorem F.contLast_space_width (e : Nat) : (F.contLast_space e).width = 1 := rfl
@[simp] theorem F.contLast_write_key (e : Nat) : (F.contLast_write e).key = 10 + 128 * (0x3000 + dieBase e) := rfl
@[simp] theorem F.contLast_write_width (e : Nat) : (F.contLast_write e).width = 1 := rfl
@[simp] theorem F.contLast_addr_key (e : Nat) : (F.contLast_addr e).key = 16 + 128 * (0x3000 + dieBase e) := rfl
@[simp] theorem F.contLast_addr_width (e : Nat) : (F.contLast_addr e).width = 48 := rfl
@[simp] theorem F.calCtrl_upd_ms_key (e : Nat) : (F.calCtrl_upd_ms e).key = 0 + 128 * (0x4000 + dieBase e) := rfl
@[simp] theorem F.calCtrl_upd_ms_width (e : Nat) : (F.calCtrl_upd_ms e).width = 10 := rfl
@[simp] theorem F.calCtrl_rewrite_c_key (e : Nat) : (F.calCtrl_rewrite_c e).key = 10 + 128 * (0x4000 + dieBase e) := rfl
@[simp] theorem F.calCtrl_rewrite_c_width (e : Nat) : (F.calCtrl_rewrite_c e).width = 4 := rfl
@[simp] theorem F.calStatus_done_key (e : Nat) : (F.calStatus_done e).key = 0 + 128 * (0x4008 + dieBase e) := rfl
@[simp] theorem F.calStatus_done_width (e : Nat) : (F.calStatus_done e).width = 1 := rfl
@[simp] theorem F.calStatus_method_key (e : Nat) : (F.calStatus_method e).key = 1 + 128 * (0x4008 + dieBase e) := rfl
@[simp] theorem F.calStatus_method_width (e : Nat) : (F.calStatus_method e).width = 1 := rfl
@[simp] theorem F.calStatus_record_ok_key (e : Nat) : (F.calStatus_record_ok e).key = 2 + 128 * (0x4008 + dieBase e) := rfl
@[simp] theorem F.calStatus_record_ok_width (e : Nat) : (F.calStatus_record_ok e).width = 1 := rfl
@[simp] theorem F.calStatus_implausible_key (e : Nat) : (F.calStatus_implausible e).key = 8 + 128 * (0x4008 + dieBase e) := rfl
@[simp] theorem F.calStatus_implausible_width (e : Nat) : (F.calStatus_implausible e).width = 8 := rfl
@[simp] theorem F.calStatus_fallbacks_key (e : Nat) : (F.calStatus_fallbacks e).key = 16 + 128 * (0x4008 + dieBase e) := rfl
@[simp] theorem F.calStatus_fallbacks_width (e : Nat) : (F.calStatus_fallbacks e).width = 8 := rfl
@[simp] theorem F.calStatus_last_id_key (e : Nat) : (F.calStatus_last_id e).key = 24 + 128 * (0x4008 + dieBase e) := rfl
@[simp] theorem F.calStatus_last_id_width (e : Nat) : (F.calStatus_last_id e).width = 8 := rfl
@[simp] theorem F.calStatus_last_inst_key (e : Nat) : (F.calStatus_last_inst e).key = 32 + 128 * (0x4008 + dieBase e) := rfl
@[simp] theorem F.calStatus_last_inst_width (e : Nat) : (F.calStatus_last_inst e).width = 8 := rfl
@[simp] theorem F.calStatus_t_cal_key (e : Nat) : (F.calStatus_t_cal e).key = 40 + 128 * (0x4008 + dieBase e) := rfl
@[simp] theorem F.calStatus_t_cal_width (e : Nat) : (F.calStatus_t_cal e).width = 8 := rfl
@[simp] theorem F.calStatus_t_now_key (e : Nat) : (F.calStatus_t_now e).key = 48 + 128 * (0x4008 + dieBase e) := rfl
@[simp] theorem F.calStatus_t_now_width (e : Nat) : (F.calStatus_t_now e).width = 16 := rfl
@[simp] theorem F.calSel_id_key (e : Nat) : (F.calSel_id e).key = 0 + 128 * (0x4010 + dieBase e) := rfl
@[simp] theorem F.calSel_id_width (e : Nat) : (F.calSel_id e).width = 8 := rfl
@[simp] theorem F.calSel_inst_key (e : Nat) : (F.calSel_inst e).key = 8 + 128 * (0x4010 + dieBase e) := rfl
@[simp] theorem F.calSel_inst_width (e : Nat) : (F.calSel_inst e).width = 8 := rfl
@[simp] theorem F.calVal_applied_key (e : Nat) : (F.calVal_applied e).key = 0 + 128 * (0x4014 + dieBase e) := rfl
@[simp] theorem F.calVal_applied_width (e : Nat) : (F.calVal_applied e).width = 8 := rfl
@[simp] theorem F.calVal_measured_key (e : Nat) : (F.calVal_measured e).key = 8 + 128 * (0x4014 + dieBase e) := rfl
@[simp] theorem F.calVal_measured_width (e : Nat) : (F.calVal_measured e).width = 8 := rfl
@[simp] theorem F.calVal_delta_key (e : Nat) : (F.calVal_delta e).key = 16 + 128 * (0x4014 + dieBase e) := rfl
@[simp] theorem F.calVal_delta_width (e : Nat) : (F.calVal_delta e).width = 12 := rfl
@[simp] theorem F.calVal_source_key (e : Nat) : (F.calVal_source e).key = 28 + 128 * (0x4014 + dieBase e) := rfl
@[simp] theorem F.calVal_source_width (e : Nat) : (F.calVal_source e).width = 2 := rfl
@[simp] theorem F.lichenCnt_seq_key (e : Nat) : (F.lichenCnt_seq e).key = 0 + 128 * (0x5000 + dieBase e) := rfl
@[simp] theorem F.lichenCnt_seq_width (e : Nat) : (F.lichenCnt_seq e).width = 32 := rfl
@[simp] theorem F.lichenCnt_dropped_key (e : Nat) : (F.lichenCnt_dropped e).key = 32 + 128 * (0x5000 + dieBase e) := rfl
@[simp] theorem F.lichenCnt_dropped_width (e : Nat) : (F.lichenCnt_dropped e).width = 16 := rfl
@[simp] theorem F.chain_sys_addr_key : F.chain_sys_addr.key = 0 + 128 * (0x50000000 + 0x0) := rfl
@[simp] theorem F.chain_sys_addr_width : F.chain_sys_addr.width = 10 := rfl
@[simp] theorem F.chain_addr_valid_key : F.chain_addr_valid.key = 10 + 128 * (0x50000000 + 0x0) := rfl
@[simp] theorem F.chain_addr_valid_width : F.chain_addr_valid.width = 1 := rfl
@[simp] theorem F.chain_head_key : F.chain_head.key = 11 + 128 * (0x50000000 + 0x0) := rfl
@[simp] theorem F.chain_head_width : F.chain_head.width = 1 := rfl
@[simp] theorem F.chain_overflow_key : F.chain_overflow.key = 12 + 128 * (0x50000000 + 0x0) := rfl
@[simp] theorem F.chain_overflow_width : F.chain_overflow.width = 1 := rfl
@[simp] theorem F.chain_chain_lost_key : F.chain_chain_lost.key = 13 + 128 * (0x50000000 + 0x0) := rfl
@[simp] theorem F.chain_chain_lost_width : F.chain_chain_lost.width = 1 := rfl
@[simp] theorem F.chain_mismatch_key : F.chain_mismatch.key = 14 + 128 * (0x50000000 + 0x0) := rfl
@[simp] theorem F.chain_mismatch_width : F.chain_mismatch.width = 1 := rfl
@[simp] theorem F.chain_hop_delay_key : F.chain_hop_delay.key = 16 + 128 * (0x50000000 + 0x0) := rfl
@[simp] theorem F.chain_hop_delay_width : F.chain_hop_delay.width = 16 := rfl
@[simp] theorem F.axesGo_go_key : F.axesGo_go.key = 0 + 128 * (0x50000000 + 0x100000) := rfl
@[simp] theorem F.axesGo_go_width : F.axesGo_go.width = 1 := rfl
@[simp] theorem F.shape_k_key (i : Nat) : (F.shape_k i).key = 0 + 128 * (0x50000000 + (0x200000 + 0x4 * i)) := rfl
@[simp] theorem F.shape_k_width (i : Nat) : (F.shape_k i).width = 5 := rfl
@[simp] theorem F.shape_m_key (i : Nat) : (F.shape_m i).key = 5 + 128 * (0x50000000 + (0x200000 + 0x4 * i)) := rfl
@[simp] theorem F.shape_m_width (i : Nat) : (F.shape_m i).width = 4 := rfl
@[simp] theorem F.shape_q_key (i : Nat) : (F.shape_q i).key = 9 + 128 * (0x50000000 + (0x200000 + 0x4 * i)) := rfl
@[simp] theorem F.shape_q_width (i : Nat) : (F.shape_q i).width = 8 := rfl
@[simp] theorem F.shape_en_key (i : Nat) : (F.shape_en i).key = 17 + 128 * (0x50000000 + (0x200000 + 0x4 * i)) := rfl
@[simp] theorem F.shape_en_width (i : Nat) : (F.shape_en i).width = 1 := rfl
@[simp] theorem F.frondCtrl_seal_s_key : F.frondCtrl_seal_s.key = 0 + 128 * (0x50000000 + 0x200020) := rfl
@[simp] theorem F.frondCtrl_seal_s_width : F.frondCtrl_seal_s.width = 16 := rfl
@[simp] theorem F.frondCtrl_burn_lead_key : F.frondCtrl_burn_lead.key = 16 + 128 * (0x50000000 + 0x200020) := rfl
@[simp] theorem F.frondCtrl_burn_lead_width : F.frondCtrl_burn_lead.width = 16 := rfl
@[simp] theorem F.frondCtrl_run_step_key : F.frondCtrl_run_step.key = 32 + 128 * (0x50000000 + 0x200020) := rfl
@[simp] theorem F.frondCtrl_run_step_width : F.frondCtrl_run_step.width = 16 := rfl
@[simp] theorem F.frondCtrl_reorder_key : F.frondCtrl_reorder.key = 48 + 128 * (0x50000000 + 0x200020) := rfl
@[simp] theorem F.frondCtrl_reorder_width : F.frondCtrl_reorder.width = 8 := rfl
@[simp] theorem F.frondCtrl_extra_par_key : F.frondCtrl_extra_par.key = 56 + 128 * (0x50000000 + 0x200020) := rfl
@[simp] theorem F.frondCtrl_extra_par_width : F.frondCtrl_extra_par.width = 3 := rfl
@[simp] theorem F.frondCtrl2_grant_key : F.frondCtrl2_grant.key = 0 + 128 * (0x50000000 + 0x200028) := rfl
@[simp] theorem F.frondCtrl2_grant_width : F.frondCtrl2_grant.width = 16 := rfl
@[simp] theorem F.frondCtrl2_place_wait_key : F.frondCtrl2_place_wait.key = 16 + 128 * (0x50000000 + 0x200028) := rfl
@[simp] theorem F.frondCtrl2_place_wait_width : F.frondCtrl2_place_wait.width = 16 := rfl
@[simp] theorem F.frondStatus_open_key : F.frondStatus_open.key = 0 + 128 * (0x50000000 + 0x20002C) := rfl
@[simp] theorem F.frondStatus_open_width : F.frondStatus_open.width = 8 := rfl
@[simp] theorem F.frondStatus_waiting_key : F.frondStatus_waiting.key = 8 + 128 * (0x50000000 + 0x20002C) := rfl
@[simp] theorem F.frondStatus_waiting_width : F.frondStatus_waiting.width = 8 := rfl
@[simp] theorem F.frondStatus_burning_key : F.frondStatus_burning.key = 16 + 128 * (0x50000000 + 0x20002C) := rfl
@[simp] theorem F.frondStatus_burning_width : F.frondStatus_burning.width = 8 := rfl
@[simp] theorem F.frondStatus_returned_key : F.frondStatus_returned.key = 24 + 128 * (0x50000000 + 0x20002C) := rfl
@[simp] theorem F.frondStatus_returned_width : F.frondStatus_returned.width = 8 := rfl
@[simp] theorem F.mossCtrl_op_pct_key : F.mossCtrl_op_pct.key = 0 + 128 * (0x50000000 + 0x300000) := rfl
@[simp] theorem F.mossCtrl_op_pct_width : F.mossCtrl_op_pct.width = 8 := rfl
@[simp] theorem F.mossCtrl_spare_pct_key : F.mossCtrl_spare_pct.key = 8 + 128 * (0x50000000 + 0x300000) := rfl
@[simp] theorem F.mossCtrl_spare_pct_width : F.mossCtrl_spare_pct.width = 4 := rfl
@[simp] theorem F.mossCtrl_gc_start_key : F.mossCtrl_gc_start.key = 16 + 128 * (0x50000000 + 0x300000) := rfl
@[simp] theorem F.mossCtrl_gc_start_width : F.mossCtrl_gc_start.width = 8 := rfl
@[simp] theorem F.mossCtrl_gc_stop_key : F.mossCtrl_gc_stop.key = 24 + 128 * (0x50000000 + 0x300000) := rfl
@[simp] theorem F.mossCtrl_gc_stop_width : F.mossCtrl_gc_stop.width = 8 := rfl
@[simp] theorem F.mossCtrl_reloc_share_key : F.mossCtrl_reloc_share.key = 32 + 128 * (0x50000000 + 0x300000) := rfl
@[simp] theorem F.mossCtrl_reloc_share_width : F.mossCtrl_reloc_share.width = 8 := rfl
@[simp] theorem F.mossCtrl_rebuild_share_key : F.mossCtrl_rebuild_share.key = 40 + 128 * (0x50000000 + 0x300000) := rfl
@[simp] theorem F.mossCtrl_rebuild_share_width : F.mossCtrl_rebuild_share.width = 8 := rfl
@[simp] theorem F.mossCtrl_refresh_thr_key : F.mossCtrl_refresh_thr.key = 48 + 128 * (0x50000000 + 0x300000) := rfl
@[simp] theorem F.mossCtrl_refresh_thr_width : F.mossCtrl_refresh_thr.width = 8 := rfl
@[simp] theorem F.mossCtrl_dirty_pct_key : F.mossCtrl_dirty_pct.key = 56 + 128 * (0x50000000 + 0x300000) := rfl
@[simp] theorem F.mossCtrl_dirty_pct_width : F.mossCtrl_dirty_pct.width = 8 := rfl
@[simp] theorem F.mossCtrl2_jflush_us_key : F.mossCtrl2_jflush_us.key = 0 + 128 * (0x50000000 + 0x300008) := rfl
@[simp] theorem F.mossCtrl2_jflush_us_width : F.mossCtrl2_jflush_us.width = 16 := rfl
@[simp] theorem F.mossCtrl2_wl_spread_key : F.mossCtrl2_wl_spread.key = 16 + 128 * (0x50000000 + 0x300008) := rfl
@[simp] theorem F.mossCtrl2_wl_spread_width : F.mossCtrl2_wl_spread.width = 8 := rfl
@[simp] theorem F.mossCtrl2_ckpt_mib_key : F.mossCtrl2_ckpt_mib.key = 24 + 128 * (0x50000000 + 0x300008) := rfl
@[simp] theorem F.mossCtrl2_ckpt_mib_width : F.mossCtrl2_ckpt_mib.width = 8 := rfl
@[simp] theorem F.mossStatus_mounted_key : F.mossStatus_mounted.key = 0 + 128 * (0x50000000 + 0x30000C) := rfl
@[simp] theorem F.mossStatus_mounted_width : F.mossStatus_mounted.width = 1 := rfl
@[simp] theorem F.mossStatus_degraded_key : F.mossStatus_degraded.key = 1 + 128 * (0x50000000 + 0x30000C) := rfl
@[simp] theorem F.mossStatus_degraded_width : F.mossStatus_degraded.width = 1 := rfl
@[simp] theorem F.mossStatus_offline_key : F.mossStatus_offline.key = 2 + 128 * (0x50000000 + 0x30000C) := rfl
@[simp] theorem F.mossStatus_offline_width : F.mossStatus_offline.width = 1 := rfl
@[simp] theorem F.mossStatus_rebuilding_key : F.mossStatus_rebuilding.key = 3 + 128 * (0x50000000 + 0x30000C) := rfl
@[simp] theorem F.mossStatus_rebuilding_width : F.mossStatus_rebuilding.width = 1 := rfl
@[simp] theorem F.mossStatus_sdiscard_key : F.mossStatus_sdiscard.key = 4 + 128 * (0x50000000 + 0x30000C) := rfl
@[simp] theorem F.mossStatus_sdiscard_width : F.mossStatus_sdiscard.width = 1 := rfl
@[simp] theorem F.mossStatus_down_key : F.mossStatus_down.key = 8 + 128 * (0x50000000 + 0x30000C) := rfl
@[simp] theorem F.mossStatus_down_width : F.mossStatus_down.width = 8 := rfl
@[simp] theorem F.mossStatus_free_key : F.mossStatus_free.key = 16 + 128 * (0x50000000 + 0x30000C) := rfl
@[simp] theorem F.mossStatus_free_width : F.mossStatus_free.width = 10 := rfl
@[simp] theorem F.mossWear_min_key : F.mossWear_min.key = 0 + 128 * (0x50000000 + 0x300010) := rfl
@[simp] theorem F.mossWear_min_width : F.mossWear_min.width = 32 := rfl
@[simp] theorem F.mossWear_max_key : F.mossWear_max.key = 32 + 128 * (0x50000000 + 0x300010) := rfl
@[simp] theorem F.mossWear_max_width : F.mossWear_max.width = 32 := rfl
@[simp] theorem F.mossCache_hits_key : F.mossCache_hits.key = 0 + 128 * (0x50000000 + 0x300018) := rfl
@[simp] theorem F.mossCache_hits_width : F.mossCache_hits.width = 32 := rfl
@[simp] theorem F.mossCache_misses_key : F.mossCache_misses.key = 32 + 128 * (0x50000000 + 0x300018) := rfl
@[simp] theorem F.mossCache_misses_width : F.mossCache_misses.width = 32 := rfl
@[simp] theorem F.mossProgress_op_key : F.mossProgress_op.key = 0 + 128 * (0x50000000 + 0x300020) := rfl
@[simp] theorem F.mossProgress_op_width : F.mossProgress_op.width = 3 := rfl
@[simp] theorem F.mossProgress_done_key : F.mossProgress_done.key = 8 + 128 * (0x50000000 + 0x300020) := rfl
@[simp] theorem F.mossProgress_done_width : F.mossProgress_done.width = 10 := rfl
@[simp] theorem F.hostCfg_mode_key : F.hostCfg_mode.key = 0 + 128 * (0x50000000 + 0x400000) := rfl
@[simp] theorem F.hostCfg_mode_width : F.hostCfg_mode.width = 2 := rfl
@[simp] theorem F.hostCfg_fec_en_key : F.hostCfg_fec_en.key = 2 + 128 * (0x50000000 + 0x400000) := rfl
@[simp] theorem F.hostCfg_fec_en_width : F.hostCfg_fec_en.width = 1 := rfl
@[simp] theorem F.hostCfg_udp_port_key : F.hostCfg_udp_port.key = 16 + 128 * (0x50000000 + 0x400000) := rfl
@[simp] theorem F.hostCfg_udp_port_width : F.hostCfg_udp_port.width = 16 := rfl
@[simp] theorem F.hostPort_exists_key (p : Nat) : (F.hostPort_exists p).key = 0 + 128 * (0x50000000 + (0x400004 + 0x4 * p)) := rfl
@[simp] theorem F.hostPort_exists_width (p : Nat) : (F.hostPort_exists p).width = 1 := rfl
@[simp] theorem F.hostPort_up_key (p : Nat) : (F.hostPort_up p).key = 1 + 128 * (0x50000000 + (0x400004 + 0x4 * p)) := rfl
@[simp] theorem F.hostPort_up_width (p : Nat) : (F.hostPort_up p).width = 1 := rfl
@[simp] theorem F.hostPort_fec_key (p : Nat) : (F.hostPort_fec p).key = 2 + 128 * (0x50000000 + (0x400004 + 0x4 * p)) := rfl
@[simp] theorem F.hostPort_fec_width (p : Nat) : (F.hostPort_fec p).width = 1 := rfl
@[simp] theorem F.hostPort_lpi_key (p : Nat) : (F.hostPort_lpi p).key = 3 + 128 * (0x50000000 + (0x400004 + 0x4 * p)) := rfl
@[simp] theorem F.hostPort_lpi_width (p : Nat) : (F.hostPort_lpi p).width = 1 := rfl
@[simp] theorem F.hostPort_drops_key (p : Nat) : (F.hostPort_drops p).key = 16 + 128 * (0x50000000 + (0x400004 + 0x4 * p)) := rfl
@[simp] theorem F.hostPort_drops_width (p : Nat) : (F.hostPort_drops p).width = 16 := rfl
@[simp] theorem F.qcpStatus_sessions_key : F.qcpStatus_sessions.key = 0 + 128 * (0x50000000 + 0x500000) := rfl
@[simp] theorem F.qcpStatus_sessions_width : F.qcpStatus_sessions.width = 9 := rfl
@[simp] theorem F.qcpStatus_queues_key : F.qcpStatus_queues.key = 9 + 128 * (0x50000000 + 0x500000) := rfl
@[simp] theorem F.qcpStatus_queues_width : F.qcpStatus_queues.width = 10 := rfl
@[simp] theorem F.qcpStatus_contexts_key : F.qcpStatus_contexts.key = 19 + 128 * (0x50000000 + 0x500000) := rfl
@[simp] theorem F.qcpStatus_contexts_width : F.qcpStatus_contexts.width = 13 := rfl
@[simp] theorem F.qcpCnt_bad_tag_key : F.qcpCnt_bad_tag.key = 0 + 128 * (0x50000000 + 0x500008) := rfl
@[simp] theorem F.qcpCnt_bad_tag_width : F.qcpCnt_bad_tag.width = 32 := rfl
@[simp] theorem F.qcpCnt_replays_key : F.qcpCnt_replays.key = 32 + 128 * (0x50000000 + 0x500008) := rfl
@[simp] theorem F.qcpCnt_replays_width : F.qcpCnt_replays.width = 16 := rfl
@[simp] theorem F.qcpCnt_hello_refused_key : F.qcpCnt_hello_refused.key = 48 + 128 * (0x50000000 + 0x500008) := rfl
@[simp] theorem F.qcpCnt_hello_refused_width : F.qcpCnt_hello_refused.width = 16 := rfl
@[simp] theorem F.qcpBreach_data_max_key : F.qcpBreach_data_max.key = 0 + 128 * (0x50000000 + 0x500010) := rfl
@[simp] theorem F.qcpBreach_data_max_width : F.qcpBreach_data_max.width = 8 := rfl
@[simp] theorem F.qcpBreach_replay_max_key : F.qcpBreach_replay_max.key = 8 + 128 * (0x50000000 + 0x500010) := rfl
@[simp] theorem F.qcpBreach_replay_max_width : F.qcpBreach_replay_max.width = 8 := rfl
@[simp] theorem F.qcpBreach_cap_max_key : F.qcpBreach_cap_max.key = 16 + 128 * (0x50000000 + 0x500010) := rfl
@[simp] theorem F.qcpBreach_cap_max_width : F.qcpBreach_cap_max.width = 16 := rfl
@[simp] theorem F.qdef_moss_key : F.qdef_moss.key = 0 + 128 * (0x50000000 + 0x500018) := rfl
@[simp] theorem F.qdef_moss_width : F.qdef_moss.width = 16 := rfl
@[simp] theorem F.qdef_ctx_max_key : F.qdef_ctx_max.key = 16 + 128 * (0x50000000 + 0x500018) := rfl
@[simp] theorem F.qdef_ctx_max_width : F.qdef_ctx_max.width = 12 := rfl
@[simp] theorem F.qdef_share_key : F.qdef_share.key = 28 + 128 * (0x50000000 + 0x500018) := rfl
@[simp] theorem F.qdef_share_width : F.qdef_share.width = 8 := rfl
@[simp] theorem F.qdef_cap_key : F.qdef_cap.key = 36 + 128 * (0x50000000 + 0x500018) := rfl
@[simp] theorem F.qdef_cap_width : F.qdef_cap.width = 12 := rfl
@[simp] theorem F.quota_moss_key (i : Nat) : (F.quota_moss i).key = 0 + 128 * (0x50000000 + (0x501000 + 0x10 * i)) := rfl
@[simp] theorem F.quota_moss_width (i : Nat) : (F.quota_moss i).width = 16 := rfl
@[simp] theorem F.quota_ctx_max_key (i : Nat) : (F.quota_ctx_max i).key = 16 + 128 * (0x50000000 + (0x501000 + 0x10 * i)) := rfl
@[simp] theorem F.quota_ctx_max_width (i : Nat) : (F.quota_ctx_max i).width = 12 := rfl
@[simp] theorem F.quota_share_key (i : Nat) : (F.quota_share i).key = 28 + 128 * (0x50000000 + (0x501000 + 0x10 * i)) := rfl
@[simp] theorem F.quota_share_width (i : Nat) : (F.quota_share i).width = 8 := rfl
@[simp] theorem F.quota_cap_key (i : Nat) : (F.quota_cap i).key = 36 + 128 * (0x50000000 + (0x501000 + 0x10 * i)) := rfl
@[simp] theorem F.quota_cap_width (i : Nat) : (F.quota_cap i).width = 12 := rfl
@[simp] theorem F.use_moss_key (i : Nat) : (F.use_moss i).key = 0 + 128 * (0x50000000 + (0x501008 + 0x10 * i)) := rfl
@[simp] theorem F.use_moss_width (i : Nat) : (F.use_moss i).width = 32 := rfl
@[simp] theorem F.use_contexts_key (i : Nat) : (F.use_contexts i).key = 32 + 128 * (0x50000000 + (0x501008 + 0x10 * i)) := rfl
@[simp] theorem F.use_contexts_width (i : Nat) : (F.use_contexts i).width = 13 := rfl
@[simp] theorem F.use_frozen_key (i : Nat) : (F.use_frozen i).key = 45 + 128 * (0x50000000 + (0x501008 + 0x10 * i)) := rfl
@[simp] theorem F.use_frozen_width (i : Nat) : (F.use_frozen i).width = 1 := rfl
@[simp] theorem F.use_over_key (i : Nat) : (F.use_over i).key = 46 + 128 * (0x50000000 + (0x501008 + 0x10 * i)) := rfl
@[simp] theorem F.use_over_width (i : Nat) : (F.use_over i).width = 1 := rfl
@[simp] theorem F.pwrCtrl_haze_s_key : F.pwrCtrl_haze_s.key = 0 + 128 * (0x50000000 + 0x600000) := rfl
@[simp] theorem F.pwrCtrl_haze_s_width : F.pwrCtrl_haze_s.width = 16 := rfl
@[simp] theorem F.pwrCtrl_overcast_s_key : F.pwrCtrl_overcast_s.key = 16 + 128 * (0x50000000 + 0x600000) := rfl
@[simp] theorem F.pwrCtrl_overcast_s_width : F.pwrCtrl_overcast_s.width = 16 := rfl
@[simp] theorem F.pwrCtrl_drive_idle_s_key : F.pwrCtrl_drive_idle_s.key = 32 + 128 * (0x50000000 + 0x600000) := rfl
@[simp] theorem F.pwrCtrl_drive_idle_s_width : F.pwrCtrl_drive_idle_s.width = 16 := rfl
@[simp] theorem F.pwrStatus_state_key : F.pwrStatus_state.key = 0 + 128 * (0x50000000 + 0x600008) := rfl
@[simp] theorem F.pwrStatus_state_width : F.pwrStatus_state.width = 2 := rfl
@[simp] theorem F.pwrStatus_waking_key : F.pwrStatus_waking.key = 2 + 128 * (0x50000000 + 0x600008) := rfl
@[simp] theorem F.pwrStatus_waking_width : F.pwrStatus_waking.width = 1 := rfl
@[simp] theorem F.skyCtrl_domain_key : F.skyCtrl_domain.key = 0 + 128 * (0x50000000 + 0x700000) := rfl
@[simp] theorem F.skyCtrl_domain_width : F.skyCtrl_domain.width = 8 := rfl
@[simp] theorem F.skyCtrl_tick_en_key : F.skyCtrl_tick_en.key = 8 + 128 * (0x50000000 + 0x700000) := rfl
@[simp] theorem F.skyCtrl_tick_en_width : F.skyCtrl_tick_en.width = 1 := rfl
@[simp] theorem F.skyCtrl_tick_out_key : F.skyCtrl_tick_out.key = 9 + 128 * (0x50000000 + 0x700000) := rfl
@[simp] theorem F.skyCtrl_tick_out_width : F.skyCtrl_tick_out.width = 1 := rfl
@[simp] theorem F.skyCtrl_slew_ppm_key : F.skyCtrl_slew_ppm.key = 16 + 128 * (0x50000000 + 0x700000) := rfl
@[simp] theorem F.skyCtrl_slew_ppm_width : F.skyCtrl_slew_ppm.width = 8 := rfl
@[simp] theorem F.skyCtrl_hold_s_key : F.skyCtrl_hold_s.key = 24 + 128 * (0x50000000 + 0x700000) := rfl
@[simp] theorem F.skyCtrl_hold_s_width : F.skyCtrl_hold_s.width = 8 := rfl
@[simp] theorem F.skyStatus_state_key : F.skyStatus_state.key = 0 + 128 * (0x50000000 + 0x700004) := rfl
@[simp] theorem F.skyStatus_state_width : F.skyStatus_state.width = 2 := rfl
@[simp] theorem F.skyStatus_valid_key : F.skyStatus_valid.key = 2 + 128 * (0x50000000 + 0x700004) := rfl
@[simp] theorem F.skyStatus_valid_width : F.skyStatus_valid.width = 1 := rfl
@[simp] theorem F.skyStatus_source_key : F.skyStatus_source.key = 3 + 128 * (0x50000000 + 0x700004) := rfl
@[simp] theorem F.skyStatus_source_width : F.skyStatus_source.width = 2 := rfl
@[simp] theorem F.skyStatus_ptp_port_key : F.skyStatus_ptp_port.key = 5 + 128 * (0x50000000 + 0x700004) := rfl
@[simp] theorem F.skyStatus_ptp_port_width : F.skyStatus_ptp_port.width = 3 := rfl
@[simp] theorem F.skyStatus_gm_seen_key : F.skyStatus_gm_seen.key = 8 + 128 * (0x50000000 + 0x700004) := rfl
@[simp] theorem F.skyStatus_gm_seen_width : F.skyStatus_gm_seen.width = 1 := rfl
@[simp] theorem F.skyStatus_tick_seen_key : F.skyStatus_tick_seen.key = 9 + 128 * (0x50000000 + 0x700004) := rfl
@[simp] theorem F.skyStatus_tick_seen_width : F.skyStatus_tick_seen.width = 1 := rfl
@[simp] theorem F.skyNow_ns_key : F.skyNow_ns.key = 0 + 128 * (0x50000000 + 0x700008) := rfl
@[simp] theorem F.skyNow_ns_width : F.skyNow_ns.width = 64 := rfl
@[simp] theorem F.skyFrac_frac_key : F.skyFrac_frac.key = 0 + 128 * (0x50000000 + 0x700010) := rfl
@[simp] theorem F.skyFrac_frac_width : F.skyFrac_frac.width = 16 := rfl
@[simp] theorem F.skyOffset_offset_key : F.skyOffset_offset.key = 0 + 128 * (0x50000000 + 0x700018) := rfl
@[simp] theorem F.skyOffset_offset_width : F.skyOffset_offset.width = 32 := rfl
@[simp] theorem F.skyOffset_corr_key : F.skyOffset_corr.key = 32 + 128 * (0x50000000 + 0x700018) := rfl
@[simp] theorem F.skyOffset_corr_width : F.skyOffset_corr.width = 32 := rfl
@[simp] theorem F.skyGm_clock_id_key : F.skyGm_clock_id.key = 0 + 128 * (0x50000000 + 0x700020) := rfl
@[simp] theorem F.skyGm_clock_id_width : F.skyGm_clock_id.width = 64 := rfl
@[simp] theorem F.skyCnt_tick_lost_key : F.skyCnt_tick_lost.key = 0 + 128 * (0x50000000 + 0x700028) := rfl
@[simp] theorem F.skyCnt_tick_lost_width : F.skyCnt_tick_lost.width = 16 := rfl
@[simp] theorem F.skyCnt_discarded_key : F.skyCnt_discarded.key = 16 + 128 * (0x50000000 + 0x700028) := rfl
@[simp] theorem F.skyCnt_discarded_width : F.skyCnt_discarded.width = 16 := rfl
@[simp] theorem F.skyCnt_disagree_key : F.skyCnt_disagree.key = 32 + 128 * (0x50000000 + 0x700028) := rfl
@[simp] theorem F.skyCnt_disagree_width : F.skyCnt_disagree.width = 16 := rfl
@[simp] theorem F.skyCnt_invalid_key : F.skyCnt_invalid.key = 48 + 128 * (0x50000000 + 0x700028) := rfl
@[simp] theorem F.skyCnt_invalid_width : F.skyCnt_invalid.width = 16 := rfl
@[simp] theorem F.trust_owned_key : F.trust_owned.key = 0 + 128 * (0x50000000 + 0x800000) := rfl
@[simp] theorem F.trust_owned_width : F.trust_owned.width = 1 := rfl
@[simp] theorem F.trust_bootstrap_key : F.trust_bootstrap.key = 1 + 128 * (0x50000000 + 0x800000) := rfl
@[simp] theorem F.trust_bootstrap_width : F.trust_bootstrap.width = 1 := rfl
@[simp] theorem F.trust_window_open_key : F.trust_window_open.key = 2 + 128 * (0x50000000 + 0x800000) := rfl
@[simp] theorem F.trust_window_open_width : F.trust_window_open.width = 1 := rfl
@[simp] theorem F.trust_window_held_key : F.trust_window_held.key = 3 + 128 * (0x50000000 + 0x800000) := rfl
@[simp] theorem F.trust_window_held_width : F.trust_window_held.width = 1 := rfl
@[simp] theorem F.trust_holder_key : F.trust_holder.key = 4 + 128 * (0x50000000 + 0x800000) := rfl
@[simp] theorem F.trust_holder_width : F.trust_holder.width = 9 := rfl
@[simp] theorem F.trust_seal_open_key : F.trust_seal_open.key = 13 + 128 * (0x50000000 + 0x800000) := rfl
@[simp] theorem F.trust_seal_open_width : F.trust_seal_open.width = 1 := rfl
@[simp] theorem F.trust_seal_presence_key : F.trust_seal_presence.key = 14 + 128 * (0x50000000 + 0x800000) := rfl
@[simp] theorem F.trust_seal_presence_width : F.trust_seal_presence.width = 1 := rfl
@[simp] theorem F.trust_seal_exhausted_key : F.trust_seal_exhausted.key = 15 + 128 * (0x50000000 + 0x800000) := rfl
@[simp] theorem F.trust_seal_exhausted_width : F.trust_seal_exhausted.width = 1 := rfl
@[simp] theorem F.trust_debug_unlocked_key : F.trust_debug_unlocked.key = 16 + 128 * (0x50000000 + 0x800000) := rfl
@[simp] theorem F.trust_debug_unlocked_width : F.trust_debug_unlocked.width = 1 := rfl
@[simp] theorem F.trust_member_key : F.trust_member.key = 17 + 128 * (0x50000000 + 0x800000) := rfl
@[simp] theorem F.trust_member_width : F.trust_member.width = 1 := rfl
@[simp] theorem F.trust_disposed_key : F.trust_disposed.key = 18 + 128 * (0x50000000 + 0x800000) := rfl
@[simp] theorem F.trust_disposed_width : F.trust_disposed.width = 1 := rfl
@[simp] theorem F.trustWindow_remaining_key : F.trustWindow_remaining.key = 0 + 128 * (0x50000000 + 0x800004) := rfl
@[simp] theorem F.trustWindow_remaining_width : F.trustWindow_remaining.width = 17 := rfl
@[simp] theorem F.otp_rollback_key : F.otp_rollback.key = 0 + 128 * (0x50000000 + 0x800008) := rfl
@[simp] theorem F.otp_rollback_width : F.otp_rollback.width = 11 := rfl
@[simp] theorem F.otp_seals_key : F.otp_seals.key = 11 + 128 * (0x50000000 + 0x800008) := rfl
@[simp] theorem F.otp_seals_width : F.otp_seals.width = 11 := rfl
@[simp] theorem F.otp_epoch_key : F.otp_epoch.key = 22 + 128 * (0x50000000 + 0x800008) := rfl
@[simp] theorem F.otp_epoch_width : F.otp_epoch.width = 6 := rfl
@[simp] theorem F.otp_revoked_key : F.otp_revoked.key = 28 + 128 * (0x50000000 + 0x800008) := rfl
@[simp] theorem F.otp_revoked_width : F.otp_revoked.width = 4 := rfl
@[simp] theorem F.group_seat_key : F.group_seat.key = 0 + 128 * (0x50000000 + 0x800010) := rfl
@[simp] theorem F.group_seat_width : F.group_seat.width = 5 := rfl
@[simp] theorem F.group_k_key : F.group_k.key = 5 + 128 * (0x50000000 + 0x800010) := rfl
@[simp] theorem F.group_k_width : F.group_k.width = 5 := rfl
@[simp] theorem F.group_n_key : F.group_n.key = 10 + 128 * (0x50000000 + 0x800010) := rfl
@[simp] theorem F.group_n_width : F.group_n.width = 5 := rfl
@[simp] theorem F.win_en_key (i : Nat) : (F.win_en i).key = 0 + 128 * (0x50000000 + (0x900000 + 0x10 * i)) := rfl
@[simp] theorem F.win_en_width (i : Nat) : (F.win_en i).width = 1 := rfl
@[simp] theorem F.win_rd_key (i : Nat) : (F.win_rd i).key = 1 + 128 * (0x50000000 + (0x900000 + 0x10 * i)) := rfl
@[simp] theorem F.win_rd_width (i : Nat) : (F.win_rd i).width = 1 := rfl
@[simp] theorem F.win_wr_key (i : Nat) : (F.win_wr i).key = 2 + 128 * (0x50000000 + (0x900000 + 0x10 * i)) := rfl
@[simp] theorem F.win_wr_width (i : Nat) : (F.win_wr i).width = 1 := rfl
@[simp] theorem F.win_space_key (i : Nat) : (F.win_space i).key = 3 + 128 * (0x50000000 + (0x900000 + 0x10 * i)) := rfl
@[simp] theorem F.win_space_width (i : Nat) : (F.win_space i).width = 1 := rfl
@[simp] theorem F.win_base_key (i : Nat) : (F.win_base i).key = 12 + 128 * (0x50000000 + (0x900000 + 0x10 * i)) := rfl
@[simp] theorem F.win_base_width (i : Nat) : (F.win_base i).width = 52 := rfl
@[simp] theorem F.win_end_key (i : Nat) : (F.win_end i).key = 76 + 128 * (0x50000000 + (0x900000 + 0x10 * i)) := rfl
@[simp] theorem F.win_end_width (i : Nat) : (F.win_end i).width = 52 := rfl
@[simp] theorem F.mst_frozen_key (i : Nat) : (F.mst_frozen i).key = 0 + 128 * (0x50000000 + (0x920000 + 0x4 * i)) := rfl
@[simp] theorem F.mst_frozen_width (i : Nat) : (F.mst_frozen i).width = 1 := rfl
@[simp] theorem F.mst_violations_key (i : Nat) : (F.mst_violations i).key = 8 + 128 * (0x50000000 + (0x920000 + 0x4 * i)) := rfl
@[simp] theorem F.mst_violations_width (i : Nat) : (F.mst_violations i).width = 8 := rfl
@[simp] theorem F.straps_hmode_key : F.straps_hmode.key = 0 + 128 * (0x50000000 + 0xA00000) := rfl
@[simp] theorem F.straps_hmode_width : F.straps_hmode.width = 2 := rfl
@[simp] theorem F.straps_cal_mode_key : F.straps_cal_mode.key = 2 + 128 * (0x50000000 + 0xA00000) := rfl
@[simp] theorem F.straps_cal_mode_width : F.straps_cal_mode.width = 1 := rfl
@[simp] theorem F.straps_test_n_key : F.straps_test_n.key = 3 + 128 * (0x50000000 + 0xA00000) := rfl
@[simp] theorem F.straps_test_n_width : F.straps_test_n.width = 1 := rfl
@[simp] theorem F.bootProgress_step_key : F.bootProgress_step.key = 0 + 128 * (0x50000000 + 0xA00004) := rfl
@[simp] theorem F.bootProgress_step_width : F.bootProgress_step.width = 4 := rfl
@[simp] theorem F.bootProgress_open_key : F.bootProgress_open.key = 4 + 128 * (0x50000000 + 0xA00004) := rfl
@[simp] theorem F.bootProgress_open_width : F.bootProgress_open.width = 8 := rfl
@[simp] theorem F.bootProgress_ms_key : F.bootProgress_ms.key = 16 + 128 * (0x50000000 + 0xA00004) := rfl
@[simp] theorem F.bootProgress_ms_width : F.bootProgress_ms.width = 16 := rfl
@[simp] theorem F.lichenCtrl_freeze_key : F.lichenCtrl_freeze.key = 0 + 128 * (0x50000000 + 0xB00000) := rfl
@[simp] theorem F.lichenCtrl_freeze_width : F.lichenCtrl_freeze.width = 1 := rfl
@[simp] theorem F.lichenCtrl_rearm_key : F.lichenCtrl_rearm.key = 1 + 128 * (0x50000000 + 0xB00000) := rfl
@[simp] theorem F.lichenCtrl_rearm_width : F.lichenCtrl_rearm.width = 1 := rfl
@[simp] theorem F.lichenCtrl_frozen_key : F.lichenCtrl_frozen.key = 2 + 128 * (0x50000000 + 0xB00000) := rfl
@[simp] theorem F.lichenCtrl_frozen_width : F.lichenCtrl_frozen.width = 1 := rfl
@[simp] theorem F.lichenCtrl_saved_key : F.lichenCtrl_saved.key = 3 + 128 * (0x50000000 + 0xB00000) := rfl
@[simp] theorem F.lichenCtrl_saved_width : F.lichenCtrl_saved.width = 1 := rfl
@[simp] theorem F.lichenCtrl_f_sky_key : F.lichenCtrl_f_sky.key = 4 + 128 * (0x50000000 + 0xB00000) := rfl
@[simp] theorem F.lichenCtrl_f_sky_width : F.lichenCtrl_f_sky.width = 1 := rfl
@[simp] theorem F.lichenFreeze_f_key : F.lichenFreeze_f.key = 0 + 128 * (0x50000000 + 0xB00008) := rfl
@[simp] theorem F.lichenFreeze_f_width : F.lichenFreeze_f.width = 64 := rfl
@[simp] theorem F.lichenTrig_event_key (i : Nat) : (F.lichenTrig_event i).key = 0 + 128 * (0x50000000 + (0xB00010 + 0x4 * i)) := rfl
@[simp] theorem F.lichenTrig_event_width (i : Nat) : (F.lichenTrig_event i).width = 10 := rfl
@[simp] theorem F.lichenTrig_en_key (i : Nat) : (F.lichenTrig_en i).key = 10 + 128 * (0x50000000 + (0xB00010 + 0x4 * i)) := rfl
@[simp] theorem F.lichenTrig_en_width (i : Nat) : (F.lichenTrig_en i).width = 1 := rfl
@[simp] theorem F.lichenSaved_copy_key : F.lichenSaved_copy.key = 0 + 128 * (0x50000000 + 0xB00030) := rfl
@[simp] theorem F.lichenSaved_copy_width : F.lichenSaved_copy.width = 32 := rfl
@[simp] theorem F.lichenSaved_n0_key : F.lichenSaved_n0.key = 32 + 128 * (0x50000000 + 0xB00030) := rfl
@[simp] theorem F.lichenSaved_n0_width : F.lichenSaved_n0.width = 16 := rfl
@[simp] theorem F.lichenSaved_n1_key : F.lichenSaved_n1.key = 48 + 128 * (0x50000000 + 0xB00030) := rfl
@[simp] theorem F.lichenSaved_n1_width : F.lichenSaved_n1.width = 16 := rfl
@[simp] theorem F.svcRetired_retired_key : F.svcRetired_retired.key = 0 + 128 * (0x50000000 + 0xC00000) := rfl
@[simp] theorem F.svcRetired_retired_width : F.svcRetired_retired.width = 24 := rfl
@[simp] theorem F.thermCtrl_therm_c_key : F.thermCtrl_therm_c.key = 0 + 128 * (0x50000000 + 0xD00000) := rfl
@[simp] theorem F.thermCtrl_therm_c_width : F.thermCtrl_therm_c.width = 8 := rfl
@[simp] theorem F.thermCtrl_hyst_key : F.thermCtrl_hyst.key = 8 + 128 * (0x50000000 + 0xD00000) := rfl
@[simp] theorem F.thermCtrl_hyst_width : F.thermCtrl_hyst.width = 4 := rfl
@[simp] theorem F.thermStatus_tmax_key : F.thermStatus_tmax.key = 0 + 128 * (0x50000000 + 0xD00004) := rfl
@[simp] theorem F.thermStatus_tmax_width : F.thermStatus_tmax.width = 16 := rfl
@[simp] theorem F.thermStatus_therm_key : F.thermStatus_therm.key = 16 + 128 * (0x50000000 + 0xD00004) := rfl
@[simp] theorem F.thermStatus_therm_width : F.thermStatus_therm.width = 1 := rfl
@[simp] theorem F.thermStatus_trips_key : F.thermStatus_trips.key = 24 + 128 * (0x50000000 + 0xD00004) := rfl
@[simp] theorem F.thermStatus_trips_width : F.thermStatus_trips.width = 8 := rfl
@[simp] theorem F.thermLife_equiv_h_key : F.thermLife_equiv_h.key = 0 + 128 * (0x50000000 + 0xD00008) := rfl
@[simp] theorem F.thermLife_equiv_h_width : F.thermLife_equiv_h.width = 32 := rfl
@[simp] theorem F.thermLife_hours_key : F.thermLife_hours.key = 32 + 128 * (0x50000000 + 0xD00008) := rfl
@[simp] theorem F.thermLife_hours_width : F.thermLife_hours.width = 32 := rfl
@[simp] theorem F.clk_dref0_ok_key : F.clk_dref0_ok.key = 0 + 128 * (0x50000000 + 0xE00000) := rfl
@[simp] theorem F.clk_dref0_ok_width : F.clk_dref0_ok.width = 1 := rfl
@[simp] theorem F.clk_dref1_ok_key : F.clk_dref1_ok.key = 1 + 128 * (0x50000000 + 0xE00000) := rfl
@[simp] theorem F.clk_dref1_ok_width : F.clk_dref1_ok.width = 1 := rfl
@[simp] theorem F.clk_href0_ok_key : F.clk_href0_ok.key = 2 + 128 * (0x50000000 + 0xE00000) := rfl
@[simp] theorem F.clk_href0_ok_width : F.clk_href0_ok.width = 1 := rfl
@[simp] theorem F.clk_href1_ok_key : F.clk_href1_ok.key = 3 + 128 * (0x50000000 + 0xE00000) := rfl
@[simp] theorem F.clk_href1_ok_width : F.clk_href1_ok.width = 1 := rfl
@[simp] theorem F.clk_brownout_key : F.clk_brownout.key = 4 + 128 * (0x50000000 + 0xE00000) := rfl
@[simp] theorem F.clk_brownout_width : F.clk_brownout.width = 1 := rfl
@[simp] theorem F.evCfg_en_key (i : Nat) : (F.evCfg_en i).key = 0 + 128 * (0x50000000 + (0xF00000 + 0x4 * i)) := rfl
@[simp] theorem F.evCfg_en_width (i : Nat) : (F.evCfg_en i).width = 1 := rfl
@[simp] theorem F.evCfg_latch_key (i : Nat) : (F.evCfg_latch i).key = 1 + 128 * (0x50000000 + (0xF00000 + 0x4 * i)) := rfl
@[simp] theorem F.evCfg_latch_width (i : Nat) : (F.evCfg_latch i).width = 1 := rfl
@[simp] theorem F.evCfg_host_key (i : Nat) : (F.evCfg_host i).key = 2 + 128 * (0x50000000 + (0xF00000 + 0x4 * i)) := rfl
@[simp] theorem F.evCfg_host_width (i : Nat) : (F.evCfg_host i).width = 1 := rfl
@[simp] theorem F.evCfg_alert_key (i : Nat) : (F.evCfg_alert i).key = 3 + 128 * (0x50000000 + (0xF00000 + 0x4 * i)) := rfl
@[simp] theorem F.evCfg_alert_width (i : Nat) : (F.evCfg_alert i).width = 1 := rfl
@[simp] theorem F.evCfg_lichen_key (i : Nat) : (F.evCfg_lichen i).key = 4 + 128 * (0x50000000 + (0xF00000 + 0x4 * i)) := rfl
@[simp] theorem F.evCfg_lichen_width (i : Nat) : (F.evCfg_lichen i).width = 1 := rfl
@[simp] theorem F.evCnt_count_key (i : Nat) : (F.evCnt_count i).key = 0 + 128 * (0x50000000 + (0xF01000 + 0x4 * i)) := rfl
@[simp] theorem F.evCnt_count_width (i : Nat) : (F.evCnt_count i).width = 32 := rfl
@[simp] theorem F.evCtrl_gap_us_key : F.evCtrl_gap_us.key = 0 + 128 * (0x50000000 + 0xF02000) := rfl
@[simp] theorem F.evCtrl_gap_us_width : F.evCtrl_gap_us.width = 16 := rfl
@[simp] theorem F.evCtrl_resend_ms_key : F.evCtrl_resend_ms.key = 16 + 128 * (0x50000000 + 0xF02000) := rfl
@[simp] theorem F.evCtrl_resend_ms_width : F.evCtrl_resend_ms.width = 16 := rfl
@[simp] theorem F.evSeq_seq_key : F.evSeq_seq.key = 0 + 128 * (0x50000000 + 0xF02008) := rfl
@[simp] theorem F.evSeq_seq_width : F.evSeq_seq.width = 64 := rfl
@[simp] theorem F.rcvCtrl_slot_key : F.rcvCtrl_slot.key = 0 + 128 * (0x50000000 + 0x1000000) := rfl
@[simp] theorem F.rcvCtrl_slot_width : F.rcvCtrl_slot.width = 1 := rfl
@[simp] theorem F.rcvCtrl_erase_key : F.rcvCtrl_erase.key = 1 + 128 * (0x50000000 + 0x1000000) := rfl
@[simp] theorem F.rcvCtrl_erase_width : F.rcvCtrl_erase.width = 1 := rfl
@[simp] theorem F.rcvCtrl_busy_key : F.rcvCtrl_busy.key = 2 + 128 * (0x50000000 + 0x1000000) := rfl
@[simp] theorem F.rcvCtrl_busy_width : F.rcvCtrl_busy.width = 1 := rfl
@[simp] theorem F.rcvCtrl_addr_key : F.rcvCtrl_addr.key = 8 + 128 * (0x50000000 + 0x1000000) := rfl
@[simp] theorem F.rcvCtrl_addr_width : F.rcvCtrl_addr.width = 24 := rfl
@[simp] theorem F.rcvData_data_key : F.rcvData_data.key = 0 + 128 * (0x50000000 + 0x1000004) := rfl
@[simp] theorem F.rcvData_data_width : F.rcvData_data.width = 32 := rfl
@[simp] theorem F.i2c_refused_key : F.i2c_refused.key = 0 + 128 * (0x50000000 + 0x1100000) := rfl
@[simp] theorem F.i2c_refused_width : F.i2c_refused.width = 16 := rfl

end Sys2Proof.Machine
end

