-- ==== Sys2Proof/Laws/Fetch.lean ====
section
/-! SUPPORT. What fetching a stored command can do, said once: every host command's meaning is one call of it. -/
namespace Sys2Proof.Machine

/-- Recounting the transport's registers writes only the counts of the transport and those of sessions that are established (R407). -/
theorem Chip.refreshHost_rd (c : Chip) (f : Fld) (h1 : f.key ≠ F.qcpStatus_sessions.key) (h2 : f.key ≠ F.qcpStatus_queues.key) (h3 : f.key ≠ F.qcpStatus_contexts.key)
    (h : ∀ n ∈ c.liveSessions, f.key ≠ (F.use_moss (n - 1)).key ∧ f.key ≠ (F.use_contexts (n - 1)).key ∧ f.key ≠ (F.use_over (n - 1)).key) :
    c.refreshHost.rd f = c.rd f := by
  unfold Chip.refreshHost
  dsimp only
  have fold (l : List Nat) (hl : ∀ n ∈ l, n ∈ c.liveSessions) (b : Chip) : (l.foldl (fun c n =>
      ((c.wrSat (F.use_moss (n - 1)) (c.mossUse n / 2 ^ 20)).wr (F.use_contexts (n - 1)) (c.sess n).heldCount).wrb (F.use_over (n - 1))
        ((c.quotaMoss n != 0 && decide (c.quotaMoss n < c.mossUse n)) || decide (c.rd (F.quota_ctx_max (n - 1)) < (c.sess n).heldCount))) b).rd f = b.rd f := by
    induction l generalizing b with
    | nil => rfl
    | cons n l ih =>
      have k := h n (hl n (by simp))
      rw [List.foldl_cons, ih (fun m hm => hl m (by simp [hm])), Chip.rd_wrb_ne _ _ k.2.2, Chip.rd_wr_ne _ _ k.2.1, Chip.wrSat, Chip.rd_wr_ne _ _ k.1]
  rw [fold _ fun _ h => h, Chip.rd_wr_ne _ _ h3, Chip.rd_wr_ne _ _ h2, Chip.rd_wr_ne _ _ h1]

theorem mem_of_tabFind {α : Type} (t : Tab α) {k : Nat} {v : α} (h : tabFind t k = some v) : (k, v) ∈ t := by
  induction t with
  | nil => cases h
  | cons e t ih =>
    obtain ⟨k', v'⟩ := e
    unfold tabFind at h
    split at h
    · next he => cases h; subst he; simp
    · exact List.mem_cons_of_mem _ (ih h)

theorem mem_tabInsert {α : Type} (t : Tab α) (k : Nat) (v : α) {e : Nat × α} (h : e ∈ tabInsert t k v) : e = (k, v) ∨ e ∈ t := by
  induction t with
  | nil => simpa [tabInsert] using h
  | cons b t ih =>
    obtain ⟨k', v'⟩ := b
    unfold tabInsert at h
    split at h
    · simpa using h
    · split at h
      · rcases List.mem_cons.1 h with h | h
        · exact .inl h
        · exact .inr (List.mem_cons_of_mem _ h)
      · rcases List.mem_cons.1 h with h | h
        · exact .inr (h ▸ List.mem_cons_self)
        · exact (ih h).imp_right (List.mem_cons_of_mem _)

/-- An entry of a table after a write is the one written or was there before. -/
theorem mem_tabPut {α : Type} [DecidableEq α] (blank : α) (t : Tab α) (k : Nat) (v : α) {e : Nat × α} (h : e ∈ tabPut blank t k v) : e = (k, v) ∨ e ∈ t := by
  rw [tabPut_eq] at h
  split at h
  · exact .inr (List.mem_filter.1 h).1
  · exact mem_tabInsert t k v h

/-- A change of one session that neither establishes nor ends it leaves the others established as they were. -/
theorem Chip.liveSessions_modSess (c : Chip) (n : Nat) (f : SessSt → SessSt) (hf : ∀ x, (f x).live = x.live) : ∀ m ∈ (c.modSess n f).liveSessions, m ∈ c.liveSessions := by
  intro m hm
  simp only [Chip.liveSessions, Chip.modSess, Chip.modHost, List.mem_map, List.mem_filter] at hm ⊢
  obtain ⟨e, ⟨he, hl⟩, rfl⟩ := hm
  rcases mem_tabPut _ _ _ _ he with h | h
  · subst h
    dsimp only at hl ⊢
    rw [hf] at hl
    refine ⟨(n, tabGet c.host.sess n), ⟨?_, hl⟩, rfl⟩
    unfold tabGet at hl ⊢
    cases hk : tabFind c.host.sess n with
    | none => rw [hk] at hl; cases hl
    | some v => exact mem_of_tabFind _ hk
  · exact ⟨e, ⟨h, hl⟩, rfl⟩

/-- Fetching a command leaves the power state as it was, where sessions are numbered as R397 numbers them. -/
theorem Chip.fetched_power (c : Chip) (n x : Nat) (r : OpRow) (h : ∀ m ∈ c.liveSessions, m ≤ 256) :
    ((c.fetched n x).bindSeal n r).rd F.pwrStatus_state = c.rd F.pwrStatus_state := by
  have key : (c.fetched n x).rd F.pwrStatus_state = c.rd F.pwrStatus_state := by
    unfold Chip.fetched
    refine (Chip.refreshHost_rd _ _ (by decide) (by decide) (by decide) fun m hm => ?_).trans rfl
    unfold Chip.modCtx at hm
    have hm := Chip.liveSessions_modSess _ _ _ (by intro y; rfl) _ hm
    have hm := Chip.liveSessions_modSess _ _ _ (by intro y; rfl) _ hm
    have := h m hm
    simp only [F.pwrStatus_state, F.use_moss, F.use_contexts, F.use_over, Fld.key]
    omega
  unfold Chip.bindSeal
  split
  · exact key
  · exact key

/-- What a row adds of its own checks: fields first, then resources (R419). -/
def ownCode (fields resources : Nat) : Nat := if fields ≠ 0 then fields else resources

theorem firstCode_cons (v : Nat) (l : List Nat) : ((v :: l).find? (· != 0)).getD 0 = if v ≠ 0 then v else (l.find? (· != 0)).getD 0 := by
  by_cases h : v = 0 <;> simp [h]

theorem Chip.fetchCode_own (c : Chip) (n : Nat) (k : Cmd) (r : OpRow) (h : c.fetchCode n k r 0 0 = 0) (fields resources : Nat) :
    c.fetchCode n k r fields resources = ownCode fields resources := by
  unfold Chip.fetchCode at *
  dsimp only at *
  generalize (if c.sessionFrozen (n - 1) = true then 0x0305 else 0) = a at *
  generalize (if (c.moss.op.isSome && !r.status && r.op != 0xC2 && r.op != 0xC3) = true then 0x0108 else 0) = b at *
  generalize c.gateCode n r = g at *
  generalize fieldCode k r = f at *
  generalize c.retiredCode k = p at *
  generalize c.contextCode n = q at *
  generalize c.launchCode k r = l at *
  have all : ∀ v ∈ [a, b, g, f, 0, p, q, 0, l], v = 0 := by
    intro v m
    cases e : [a, b, g, f, 0, p, q, 0, l].find? (· != 0) with
    | none => simpa using List.find?_eq_none.1 e v m
    | some w =>
      rw [e] at h
      simp only [Option.getD_some] at h
      have := List.find?_some e
      simp [h] at this
  simp only [List.mem_cons, List.not_mem_nil, or_false, forall_eq_or_imp, forall_eq] at all
  obtain ⟨rfl, rfl, rfl, rfl, -, rfl, rfl, -, rfl⟩ := all
  simp only [firstCode_cons, List.find?_nil, Option.getD_none, ownCode, ne_eq, not_true_eq_false, if_false]
  by_cases hs : resources = 0 <;> simp [hs]

/-- A command that is served at once: refused by its own row's checks, or its body runs on the state in which it is fetched; the drives' follow-on work comes after. -/
theorem fetchWith_serves {s : State} {n x op : Nat} (pick : Cmd → Bool) (fields resources : Chip → Cmd → Nat) (body : State → Cmd → State)
    (h : s.chip.serves n x op = true) (hp : pick (s.chip.ctxSt n x).cmd = true) : ∃ r c, opRow op = some r ∧ c = (s.chip.fetched n x).bindSeal n r ∧
    s.fetchWith n x op pick fields resources body =
      if ownCode (fields c (s.chip.ctxSt n x).cmd) (resources c (s.chip.ctxSt n x).cmd) ≠ 0 then
        .next (State.allHooks { s with chip := c.fail n x (ownCode (fields c (s.chip.ctxSt n x).cmd) (resources c (s.chip.ctxSt n x).cmd)) })
      else .next (State.allHooks (body { s with chip := c } (s.chip.ctxSt n x).cmd)) := by
  unfold Chip.serves at h
  cases hr : opRow op with
  | none => rw [hr] at h; cases h
  | some r =>
    rw [hr] at h
    simp only [Option.any_some, Bool.and_eq_true, beq_iff_eq, List.all_eq_true, decide_eq_true_eq] at h
    obtain ⟨⟨⟨⟨⟨hs, hT⟩, -⟩, hl⟩, hc⟩, hz⟩ := h
    refine ⟨r, _, rfl, rfl, ?_⟩
    have hpw := Chip.fetched_power s.chip n x r hl
    unfold State.fetchWith
    simp only [hr, hc, hp, Bool.not_true, Bool.or_self, Bool.false_eq_true, if_false]
    have has : s.chip.asleep = false := by simp [Chip.asleep, hs]
    simp only [has, Bool.false_and, Bool.false_eq_true, if_false, Chip.fetchCode_own _ _ _ _ hz, hpw, hs]
    split
    · simp [hooked, State.nextChip]
    · simp [hooked]

end Sys2Proof.Machine
end

