-- ==== Sys2Proof/Laws/State.lean ====
section
/-! SUPPORT. One lemma per field of the chip per update, so that no later proof unfolds a record update. Generated from the structure. -/
namespace Sys2Proof.Machine

/-! ### wr -/
@[simp] theorem Chip.wr_now (c : Chip) (g : Fld) (v : Nat) : (c.wr g v).now = c.now := rfl
@[simp] theorem Chip.wr_free (c : Chip) (g : Fld) (v : Nat) : (c.wr g v).free = c.free := rfl
@[simp] theorem Chip.wr_sent (c : Chip) (g : Fld) (v : Nat) : (c.wr g v).sent = c.sent := rfl
@[simp] theorem Chip.wr_ev (c : Chip) (g : Fld) (v : Nat) : (c.wr g v).ev = c.ev := rfl
@[simp] theorem Chip.wr_lichen (c : Chip) (g : Fld) (v : Nat) : (c.wr g v).lichen = c.lichen := rfl
@[simp] theorem Chip.wr_mgmt (c : Chip) (g : Fld) (v : Nat) : (c.wr g v).mgmt = c.mgmt := rfl
@[simp] theorem Chip.wr_clu (c : Chip) (g : Fld) (v : Nat) : (c.wr g v).clu = c.clu := rfl
@[simp] theorem Chip.wr_rgn (c : Chip) (g : Fld) (v : Nat) : (c.wr g v).rgn = c.rgn := rfl
@[simp] theorem Chip.wr_die (c : Chip) (g : Fld) (v : Nat) : (c.wr g v).die = c.die := rfl
@[simp] theorem Chip.wr_chain (c : Chip) (g : Fld) (v : Nat) : (c.wr g v).chain = c.chain := rfl
@[simp] theorem Chip.wr_sky (c : Chip) (g : Fld) (v : Nat) : (c.wr g v).sky = c.sky := rfl
@[simp] theorem Chip.wr_lane (c : Chip) (g : Fld) (v : Nat) : (c.wr g v).lane = c.lane := rfl
@[simp] theorem Chip.wr_link (c : Chip) (g : Fld) (v : Nat) : (c.wr g v).link = c.link := rfl
@[simp] theorem Chip.wr_btl (c : Chip) (g : Fld) (v : Nat) : (c.wr g v).btl = c.btl := rfl
@[simp] theorem Chip.wr_unit (c : Chip) (g : Fld) (v : Nat) : (c.wr g v).unit = c.unit := rfl
@[simp] theorem Chip.wr_pool (c : Chip) (g : Fld) (v : Nat) : (c.wr g v).pool = c.pool := rfl
@[simp] theorem Chip.wr_read (c : Chip) (g : Fld) (v : Nat) : (c.wr g v).read = c.read := rfl
@[simp] theorem Chip.wr_burn (c : Chip) (g : Fld) (v : Nat) : (c.wr g v).burn = c.burn := rfl
@[simp] theorem Chip.wr_servo (c : Chip) (g : Fld) (v : Nat) : (c.wr g v).servo = c.servo := rfl
@[simp] theorem Chip.wr_spin (c : Chip) (g : Fld) (v : Nat) : (c.wr g v).spin = c.spin := rfl
@[simp] theorem Chip.wr_axis (c : Chip) (g : Fld) (v : Nat) : (c.wr g v).axis = c.axis := rfl
@[simp] theorem Chip.wr_cat (c : Chip) (g : Fld) (v : Nat) : (c.wr g v).cat = c.cat := rfl
@[simp] theorem Chip.wr_moss (c : Chip) (g : Fld) (v : Nat) : (c.wr g v).moss = c.moss := rfl
@[simp] theorem Chip.wr_tiles (c : Chip) (g : Fld) (v : Nat) : (c.wr g v).tiles = c.tiles := rfl
@[simp] theorem Chip.wr_buf (c : Chip) (g : Fld) (v : Nat) : (c.wr g v).buf = c.buf := rfl
@[simp] theorem Chip.wr_host (c : Chip) (g : Fld) (v : Nat) : (c.wr g v).host = c.host := rfl
@[simp] theorem Chip.wr_launches (c : Chip) (g : Fld) (v : Nat) : (c.wr g v).launches = c.launches := rfl
@[simp] theorem Chip.wr_trust (c : Chip) (g : Fld) (v : Nat) : (c.wr g v).trust = c.trust := rfl
@[simp] theorem Chip.wr_boot (c : Chip) (g : Fld) (v : Nat) : (c.wr g v).boot = c.boot := rfl
@[simp] theorem Chip.wr_power (c : Chip) (g : Fld) (v : Nat) : (c.wr g v).power = c.power := rfl
@[simp] theorem Chip.wr_scr (c : Chip) (g : Fld) (v : Nat) : (c.wr g v).scr = c.scr := rfl
@[simp] theorem Chip.wr_traceAt (c : Chip) (g : Fld) (v : Nat) : (c.wr g v).traceAt = c.traceAt := rfl
@[simp] theorem Chip.wr_svc (c : Chip) (g : Fld) (v : Nat) : (c.wr g v).svc = c.svc := rfl
@[simp] theorem Chip.wr_catSnaps (c : Chip) (g : Fld) (v : Nat) : (c.wr g v).catSnaps = c.catSnaps := rfl

/-! ### emit -/
@[simp] theorem Chip.emit_now (c : Chip) (o : Out) : (c.emit o).now = c.now := rfl
@[simp] theorem Chip.emit_flds (c : Chip) (o : Out) : (c.emit o).flds = c.flds := rfl
@[simp] theorem Chip.emit_free (c : Chip) (o : Out) : (c.emit o).free = c.free := rfl
@[simp] theorem Chip.emit_ev (c : Chip) (o : Out) : (c.emit o).ev = c.ev := rfl
@[simp] theorem Chip.emit_lichen (c : Chip) (o : Out) : (c.emit o).lichen = c.lichen := rfl
@[simp] theorem Chip.emit_mgmt (c : Chip) (o : Out) : (c.emit o).mgmt = c.mgmt := rfl
@[simp] theorem Chip.emit_clu (c : Chip) (o : Out) : (c.emit o).clu = c.clu := rfl
@[simp] theorem Chip.emit_rgn (c : Chip) (o : Out) : (c.emit o).rgn = c.rgn := rfl
@[simp] theorem Chip.emit_die (c : Chip) (o : Out) : (c.emit o).die = c.die := rfl
@[simp] theorem Chip.emit_chain (c : Chip) (o : Out) : (c.emit o).chain = c.chain := rfl
@[simp] theorem Chip.emit_sky (c : Chip) (o : Out) : (c.emit o).sky = c.sky := rfl
@[simp] theorem Chip.emit_lane (c : Chip) (o : Out) : (c.emit o).lane = c.lane := rfl
@[simp] theorem Chip.emit_link (c : Chip) (o : Out) : (c.emit o).link = c.link := rfl
@[simp] theorem Chip.emit_btl (c : Chip) (o : Out) : (c.emit o).btl = c.btl := rfl
@[simp] theorem Chip.emit_unit (c : Chip) (o : Out) : (c.emit o).unit = c.unit := rfl
@[simp] theorem Chip.emit_pool (c : Chip) (o : Out) : (c.emit o).pool = c.pool := rfl
@[simp] theorem Chip.emit_read (c : Chip) (o : Out) : (c.emit o).read = c.read := rfl
@[simp] theorem Chip.emit_burn (c : Chip) (o : Out) : (c.emit o).burn = c.burn := rfl
@[simp] theorem Chip.emit_servo (c : Chip) (o : Out) : (c.emit o).servo = c.servo := rfl
@[simp] theorem Chip.emit_spin (c : Chip) (o : Out) : (c.emit o).spin = c.spin := rfl
@[simp] theorem Chip.emit_axis (c : Chip) (o : Out) : (c.emit o).axis = c.axis := rfl
@[simp] theorem Chip.emit_cat (c : Chip) (o : Out) : (c.emit o).cat = c.cat := rfl
@[simp] theorem Chip.emit_moss (c : Chip) (o : Out) : (c.emit o).moss = c.moss := rfl
@[simp] theorem Chip.emit_tiles (c : Chip) (o : Out) : (c.emit o).tiles = c.tiles := rfl
@[simp] theorem Chip.emit_buf (c : Chip) (o : Out) : (c.emit o).buf = c.buf := rfl
@[simp] theorem Chip.emit_host (c : Chip) (o : Out) : (c.emit o).host = c.host := rfl
@[simp] theorem Chip.emit_launches (c : Chip) (o : Out) : (c.emit o).launches = c.launches := rfl
@[simp] theorem Chip.emit_trust (c : Chip) (o : Out) : (c.emit o).trust = c.trust := rfl
@[simp] theorem Chip.emit_boot (c : Chip) (o : Out) : (c.emit o).boot = c.boot := rfl
@[simp] theorem Chip.emit_power (c : Chip) (o : Out) : (c.emit o).power = c.power := rfl
@[simp] theorem Chip.emit_scr (c : Chip) (o : Out) : (c.emit o).scr = c.scr := rfl
@[simp] theorem Chip.emit_traceAt (c : Chip) (o : Out) : (c.emit o).traceAt = c.traceAt := rfl
@[simp] theorem Chip.emit_svc (c : Chip) (o : Out) : (c.emit o).svc = c.svc := rfl
@[simp] theorem Chip.emit_catSnaps (c : Chip) (o : Out) : (c.emit o).catSnaps = c.catSnaps := rfl

/-! ### modClu -/
@[simp] theorem Chip.modClu_now (c : Chip) (i : Nat) (f : Held → Held) : (c.modClu i f).now = c.now := rfl
@[simp] theorem Chip.modClu_flds (c : Chip) (i : Nat) (f : Held → Held) : (c.modClu i f).flds = c.flds := rfl
@[simp] theorem Chip.modClu_free (c : Chip) (i : Nat) (f : Held → Held) : (c.modClu i f).free = c.free := rfl
@[simp] theorem Chip.modClu_sent (c : Chip) (i : Nat) (f : Held → Held) : (c.modClu i f).sent = c.sent := rfl
@[simp] theorem Chip.modClu_ev (c : Chip) (i : Nat) (f : Held → Held) : (c.modClu i f).ev = c.ev := rfl
@[simp] theorem Chip.modClu_lichen (c : Chip) (i : Nat) (f : Held → Held) : (c.modClu i f).lichen = c.lichen := rfl
@[simp] theorem Chip.modClu_mgmt (c : Chip) (i : Nat) (f : Held → Held) : (c.modClu i f).mgmt = c.mgmt := rfl
@[simp] theorem Chip.modClu_rgn (c : Chip) (i : Nat) (f : Held → Held) : (c.modClu i f).rgn = c.rgn := rfl
@[simp] theorem Chip.modClu_die (c : Chip) (i : Nat) (f : Held → Held) : (c.modClu i f).die = c.die := rfl
@[simp] theorem Chip.modClu_chain (c : Chip) (i : Nat) (f : Held → Held) : (c.modClu i f).chain = c.chain := rfl
@[simp] theorem Chip.modClu_sky (c : Chip) (i : Nat) (f : Held → Held) : (c.modClu i f).sky = c.sky := rfl
@[simp] theorem Chip.modClu_lane (c : Chip) (i : Nat) (f : Held → Held) : (c.modClu i f).lane = c.lane := rfl
@[simp] theorem Chip.modClu_link (c : Chip) (i : Nat) (f : Held → Held) : (c.modClu i f).link = c.link := rfl
@[simp] theorem Chip.modClu_btl (c : Chip) (i : Nat) (f : Held → Held) : (c.modClu i f).btl = c.btl := rfl
@[simp] theorem Chip.modClu_unit (c : Chip) (i : Nat) (f : Held → Held) : (c.modClu i f).unit = c.unit := rfl
@[simp] theorem Chip.modClu_pool (c : Chip) (i : Nat) (f : Held → Held) : (c.modClu i f).pool = c.pool := rfl
@[simp] theorem Chip.modClu_read (c : Chip) (i : Nat) (f : Held → Held) : (c.modClu i f).read = c.read := rfl
@[simp] theorem Chip.modClu_burn (c : Chip) (i : Nat) (f : Held → Held) : (c.modClu i f).burn = c.burn := rfl
@[simp] theorem Chip.modClu_servo (c : Chip) (i : Nat) (f : Held → Held) : (c.modClu i f).servo = c.servo := rfl
@[simp] theorem Chip.modClu_spin (c : Chip) (i : Nat) (f : Held → Held) : (c.modClu i f).spin = c.spin := rfl
@[simp] theorem Chip.modClu_axis (c : Chip) (i : Nat) (f : Held → Held) : (c.modClu i f).axis = c.axis := rfl
@[simp] theorem Chip.modClu_cat (c : Chip) (i : Nat) (f : Held → Held) : (c.modClu i f).cat = c.cat := rfl
@[simp] theorem Chip.modClu_moss (c : Chip) (i : Nat) (f : Held → Held) : (c.modClu i f).moss = c.moss := rfl
@[simp] theorem Chip.modClu_tiles (c : Chip) (i : Nat) (f : Held → Held) : (c.modClu i f).tiles = c.tiles := rfl
@[simp] theorem Chip.modClu_buf (c : Chip) (i : Nat) (f : Held → Held) : (c.modClu i f).buf = c.buf := rfl
@[simp] theorem Chip.modClu_host (c : Chip) (i : Nat) (f : Held → Held) : (c.modClu i f).host = c.host := rfl
@[simp] theorem Chip.modClu_launches (c : Chip) (i : Nat) (f : Held → Held) : (c.modClu i f).launches = c.launches := rfl
@[simp] theorem Chip.modClu_trust (c : Chip) (i : Nat) (f : Held → Held) : (c.modClu i f).trust = c.trust := rfl
@[simp] theorem Chip.modClu_boot (c : Chip) (i : Nat) (f : Held → Held) : (c.modClu i f).boot = c.boot := rfl
@[simp] theorem Chip.modClu_power (c : Chip) (i : Nat) (f : Held → Held) : (c.modClu i f).power = c.power := rfl
@[simp] theorem Chip.modClu_scr (c : Chip) (i : Nat) (f : Held → Held) : (c.modClu i f).scr = c.scr := rfl
@[simp] theorem Chip.modClu_traceAt (c : Chip) (i : Nat) (f : Held → Held) : (c.modClu i f).traceAt = c.traceAt := rfl
@[simp] theorem Chip.modClu_svc (c : Chip) (i : Nat) (f : Held → Held) : (c.modClu i f).svc = c.svc := rfl
@[simp] theorem Chip.modClu_catSnaps (c : Chip) (i : Nat) (f : Held → Held) : (c.modClu i f).catSnaps = c.catSnaps := rfl

/-! ### modRgn -/
@[simp] theorem Chip.modRgn_now (c : Chip) (i : Nat) (f : RegionLevel → RegionLevel) : (c.modRgn i f).now = c.now := rfl
@[simp] theorem Chip.modRgn_flds (c : Chip) (i : Nat) (f : RegionLevel → RegionLevel) : (c.modRgn i f).flds = c.flds := rfl
@[simp] theorem Chip.modRgn_free (c : Chip) (i : Nat) (f : RegionLevel → RegionLevel) : (c.modRgn i f).free = c.free := rfl
@[simp] theorem Chip.modRgn_sent (c : Chip) (i : Nat) (f : RegionLevel → RegionLevel) : (c.modRgn i f).sent = c.sent := rfl
@[simp] theorem Chip.modRgn_ev (c : Chip) (i : Nat) (f : RegionLevel → RegionLevel) : (c.modRgn i f).ev = c.ev := rfl
@[simp] theorem Chip.modRgn_lichen (c : Chip) (i : Nat) (f : RegionLevel → RegionLevel) : (c.modRgn i f).lichen = c.lichen := rfl
@[simp] theorem Chip.modRgn_mgmt (c : Chip) (i : Nat) (f : RegionLevel → RegionLevel) : (c.modRgn i f).mgmt = c.mgmt := rfl
@[simp] theorem Chip.modRgn_clu (c : Chip) (i : Nat) (f : RegionLevel → RegionLevel) : (c.modRgn i f).clu = c.clu := rfl
@[simp] theorem Chip.modRgn_die (c : Chip) (i : Nat) (f : RegionLevel → RegionLevel) : (c.modRgn i f).die = c.die := rfl
@[simp] theorem Chip.modRgn_chain (c : Chip) (i : Nat) (f : RegionLevel → RegionLevel) : (c.modRgn i f).chain = c.chain := rfl
@[simp] theorem Chip.modRgn_sky (c : Chip) (i : Nat) (f : RegionLevel → RegionLevel) : (c.modRgn i f).sky = c.sky := rfl
@[simp] theorem Chip.modRgn_lane (c : Chip) (i : Nat) (f : RegionLevel → RegionLevel) : (c.modRgn i f).lane = c.lane := rfl
@[simp] theorem Chip.modRgn_link (c : Chip) (i : Nat) (f : RegionLevel → RegionLevel) : (c.modRgn i f).link = c.link := rfl
@[simp] theorem Chip.modRgn_btl (c : Chip) (i : Nat) (f : RegionLevel → RegionLevel) : (c.modRgn i f).btl = c.btl := rfl
@[simp] theorem Chip.modRgn_unit (c : Chip) (i : Nat) (f : RegionLevel → RegionLevel) : (c.modRgn i f).unit = c.unit := rfl
@[simp] theorem Chip.modRgn_pool (c : Chip) (i : Nat) (f : RegionLevel → RegionLevel) : (c.modRgn i f).pool = c.pool := rfl
@[simp] theorem Chip.modRgn_read (c : Chip) (i : Nat) (f : RegionLevel → RegionLevel) : (c.modRgn i f).read = c.read := rfl
@[simp] theorem Chip.modRgn_burn (c : Chip) (i : Nat) (f : RegionLevel → RegionLevel) : (c.modRgn i f).burn = c.burn := rfl
@[simp] theorem Chip.modRgn_servo (c : Chip) (i : Nat) (f : RegionLevel → RegionLevel) : (c.modRgn i f).servo = c.servo := rfl
@[simp] theorem Chip.modRgn_spin (c : Chip) (i : Nat) (f : RegionLevel → RegionLevel) : (c.modRgn i f).spin = c.spin := rfl
@[simp] theorem Chip.modRgn_axis (c : Chip) (i : Nat) (f : RegionLevel → RegionLevel) : (c.modRgn i f).axis = c.axis := rfl
@[simp] theorem Chip.modRgn_cat (c : Chip) (i : Nat) (f : RegionLevel → RegionLevel) : (c.modRgn i f).cat = c.cat := rfl
@[simp] theorem Chip.modRgn_moss (c : Chip) (i : Nat) (f : RegionLevel → RegionLevel) : (c.modRgn i f).moss = c.moss := rfl
@[simp] theorem Chip.modRgn_tiles (c : Chip) (i : Nat) (f : RegionLevel → RegionLevel) : (c.modRgn i f).tiles = c.tiles := rfl
@[simp] theorem Chip.modRgn_buf (c : Chip) (i : Nat) (f : RegionLevel → RegionLevel) : (c.modRgn i f).buf = c.buf := rfl
@[simp] theorem Chip.modRgn_host (c : Chip) (i : Nat) (f : RegionLevel → RegionLevel) : (c.modRgn i f).host = c.host := rfl
@[simp] theorem Chip.modRgn_launches (c : Chip) (i : Nat) (f : RegionLevel → RegionLevel) : (c.modRgn i f).launches = c.launches := rfl
@[simp] theorem Chip.modRgn_trust (c : Chip) (i : Nat) (f : RegionLevel → RegionLevel) : (c.modRgn i f).trust = c.trust := rfl
@[simp] theorem Chip.modRgn_boot (c : Chip) (i : Nat) (f : RegionLevel → RegionLevel) : (c.modRgn i f).boot = c.boot := rfl
@[simp] theorem Chip.modRgn_power (c : Chip) (i : Nat) (f : RegionLevel → RegionLevel) : (c.modRgn i f).power = c.power := rfl
@[simp] theorem Chip.modRgn_scr (c : Chip) (i : Nat) (f : RegionLevel → RegionLevel) : (c.modRgn i f).scr = c.scr := rfl
@[simp] theorem Chip.modRgn_traceAt (c : Chip) (i : Nat) (f : RegionLevel → RegionLevel) : (c.modRgn i f).traceAt = c.traceAt := rfl
@[simp] theorem Chip.modRgn_svc (c : Chip) (i : Nat) (f : RegionLevel → RegionLevel) : (c.modRgn i f).svc = c.svc := rfl
@[simp] theorem Chip.modRgn_catSnaps (c : Chip) (i : Nat) (f : RegionLevel → RegionLevel) : (c.modRgn i f).catSnaps = c.catSnaps := rfl

/-! ### modDie -/
@[simp] theorem Chip.modDie_now (c : Chip) (i : Nat) (f : DieLevel → DieLevel) : (c.modDie i f).now = c.now := rfl
@[simp] theorem Chip.modDie_flds (c : Chip) (i : Nat) (f : DieLevel → DieLevel) : (c.modDie i f).flds = c.flds := rfl
@[simp] theorem Chip.modDie_free (c : Chip) (i : Nat) (f : DieLevel → DieLevel) : (c.modDie i f).free = c.free := rfl
@[simp] theorem Chip.modDie_sent (c : Chip) (i : Nat) (f : DieLevel → DieLevel) : (c.modDie i f).sent = c.sent := rfl
@[simp] theorem Chip.modDie_ev (c : Chip) (i : Nat) (f : DieLevel → DieLevel) : (c.modDie i f).ev = c.ev := rfl
@[simp] theorem Chip.modDie_lichen (c : Chip) (i : Nat) (f : DieLevel → DieLevel) : (c.modDie i f).lichen = c.lichen := rfl
@[simp] theorem Chip.modDie_mgmt (c : Chip) (i : Nat) (f : DieLevel → DieLevel) : (c.modDie i f).mgmt = c.mgmt := rfl
@[simp] theorem Chip.modDie_clu (c : Chip) (i : Nat) (f : DieLevel → DieLevel) : (c.modDie i f).clu = c.clu := rfl
@[simp] theorem Chip.modDie_rgn (c : Chip) (i : Nat) (f : DieLevel → DieLevel) : (c.modDie i f).rgn = c.rgn := rfl
@[simp] theorem Chip.modDie_chain (c : Chip) (i : Nat) (f : DieLevel → DieLevel) : (c.modDie i f).chain = c.chain := rfl
@[simp] theorem Chip.modDie_sky (c : Chip) (i : Nat) (f : DieLevel → DieLevel) : (c.modDie i f).sky = c.sky := rfl
@[simp] theorem Chip.modDie_lane (c : Chip) (i : Nat) (f : DieLevel → DieLevel) : (c.modDie i f).lane = c.lane := rfl
@[simp] theorem Chip.modDie_link (c : Chip) (i : Nat) (f : DieLevel → DieLevel) : (c.modDie i f).link = c.link := rfl
@[simp] theorem Chip.modDie_btl (c : Chip) (i : Nat) (f : DieLevel → DieLevel) : (c.modDie i f).btl = c.btl := rfl
@[simp] theorem Chip.modDie_unit (c : Chip) (i : Nat) (f : DieLevel → DieLevel) : (c.modDie i f).unit = c.unit := rfl
@[simp] theorem Chip.modDie_pool (c : Chip) (i : Nat) (f : DieLevel → DieLevel) : (c.modDie i f).pool = c.pool := rfl
@[simp] theorem Chip.modDie_read (c : Chip) (i : Nat) (f : DieLevel → DieLevel) : (c.modDie i f).read = c.read := rfl
@[simp] theorem Chip.modDie_burn (c : Chip) (i : Nat) (f : DieLevel → DieLevel) : (c.modDie i f).burn = c.burn := rfl
@[simp] theorem Chip.modDie_servo (c : Chip) (i : Nat) (f : DieLevel → DieLevel) : (c.modDie i f).servo = c.servo := rfl
@[simp] theorem Chip.modDie_spin (c : Chip) (i : Nat) (f : DieLevel → DieLevel) : (c.modDie i f).spin = c.spin := rfl
@[simp] theorem Chip.modDie_axis (c : Chip) (i : Nat) (f : DieLevel → DieLevel) : (c.modDie i f).axis = c.axis := rfl
@[simp] theorem Chip.modDie_cat (c : Chip) (i : Nat) (f : DieLevel → DieLevel) : (c.modDie i f).cat = c.cat := rfl
@[simp] theorem Chip.modDie_moss (c : Chip) (i : Nat) (f : DieLevel → DieLevel) : (c.modDie i f).moss = c.moss := rfl
@[simp] theorem Chip.modDie_tiles (c : Chip) (i : Nat) (f : DieLevel → DieLevel) : (c.modDie i f).tiles = c.tiles := rfl
@[simp] theorem Chip.modDie_buf (c : Chip) (i : Nat) (f : DieLevel → DieLevel) : (c.modDie i f).buf = c.buf := rfl
@[simp] theorem Chip.modDie_host (c : Chip) (i : Nat) (f : DieLevel → DieLevel) : (c.modDie i f).host = c.host := rfl
@[simp] theorem Chip.modDie_launches (c : Chip) (i : Nat) (f : DieLevel → DieLevel) : (c.modDie i f).launches = c.launches := rfl
@[simp] theorem Chip.modDie_trust (c : Chip) (i : Nat) (f : DieLevel → DieLevel) : (c.modDie i f).trust = c.trust := rfl
@[simp] theorem Chip.modDie_boot (c : Chip) (i : Nat) (f : DieLevel → DieLevel) : (c.modDie i f).boot = c.boot := rfl
@[simp] theorem Chip.modDie_power (c : Chip) (i : Nat) (f : DieLevel → DieLevel) : (c.modDie i f).power = c.power := rfl
@[simp] theorem Chip.modDie_scr (c : Chip) (i : Nat) (f : DieLevel → DieLevel) : (c.modDie i f).scr = c.scr := rfl
@[simp] theorem Chip.modDie_traceAt (c : Chip) (i : Nat) (f : DieLevel → DieLevel) : (c.modDie i f).traceAt = c.traceAt := rfl
@[simp] theorem Chip.modDie_svc (c : Chip) (i : Nat) (f : DieLevel → DieLevel) : (c.modDie i f).svc = c.svc := rfl
@[simp] theorem Chip.modDie_catSnaps (c : Chip) (i : Nat) (f : DieLevel → DieLevel) : (c.modDie i f).catSnaps = c.catSnaps := rfl

/-! ### modLane -/
@[simp] theorem Chip.modLane_now (c : Chip) (i : Nat) (f : LaneSt → LaneSt) : (c.modLane i f).now = c.now := rfl
@[simp] theorem Chip.modLane_flds (c : Chip) (i : Nat) (f : LaneSt → LaneSt) : (c.modLane i f).flds = c.flds := rfl
@[simp] theorem Chip.modLane_free (c : Chip) (i : Nat) (f : LaneSt → LaneSt) : (c.modLane i f).free = c.free := rfl
@[simp] theorem Chip.modLane_sent (c : Chip) (i : Nat) (f : LaneSt → LaneSt) : (c.modLane i f).sent = c.sent := rfl
@[simp] theorem Chip.modLane_ev (c : Chip) (i : Nat) (f : LaneSt → LaneSt) : (c.modLane i f).ev = c.ev := rfl
@[simp] theorem Chip.modLane_lichen (c : Chip) (i : Nat) (f : LaneSt → LaneSt) : (c.modLane i f).lichen = c.lichen := rfl
@[simp] theorem Chip.modLane_mgmt (c : Chip) (i : Nat) (f : LaneSt → LaneSt) : (c.modLane i f).mgmt = c.mgmt := rfl
@[simp] theorem Chip.modLane_clu (c : Chip) (i : Nat) (f : LaneSt → LaneSt) : (c.modLane i f).clu = c.clu := rfl
@[simp] theorem Chip.modLane_rgn (c : Chip) (i : Nat) (f : LaneSt → LaneSt) : (c.modLane i f).rgn = c.rgn := rfl
@[simp] theorem Chip.modLane_die (c : Chip) (i : Nat) (f : LaneSt → LaneSt) : (c.modLane i f).die = c.die := rfl
@[simp] theorem Chip.modLane_chain (c : Chip) (i : Nat) (f : LaneSt → LaneSt) : (c.modLane i f).chain = c.chain := rfl
@[simp] theorem Chip.modLane_sky (c : Chip) (i : Nat) (f : LaneSt → LaneSt) : (c.modLane i f).sky = c.sky := rfl
@[simp] theorem Chip.modLane_link (c : Chip) (i : Nat) (f : LaneSt → LaneSt) : (c.modLane i f).link = c.link := rfl
@[simp] theorem Chip.modLane_btl (c : Chip) (i : Nat) (f : LaneSt → LaneSt) : (c.modLane i f).btl = c.btl := rfl
@[simp] theorem Chip.modLane_unit (c : Chip) (i : Nat) (f : LaneSt → LaneSt) : (c.modLane i f).unit = c.unit := rfl
@[simp] theorem Chip.modLane_pool (c : Chip) (i : Nat) (f : LaneSt → LaneSt) : (c.modLane i f).pool = c.pool := rfl
@[simp] theorem Chip.modLane_read (c : Chip) (i : Nat) (f : LaneSt → LaneSt) : (c.modLane i f).read = c.read := rfl
@[simp] theorem Chip.modLane_burn (c : Chip) (i : Nat) (f : LaneSt → LaneSt) : (c.modLane i f).burn = c.burn := rfl
@[simp] theorem Chip.modLane_servo (c : Chip) (i : Nat) (f : LaneSt → LaneSt) : (c.modLane i f).servo = c.servo := rfl
@[simp] theorem Chip.modLane_spin (c : Chip) (i : Nat) (f : LaneSt → LaneSt) : (c.modLane i f).spin = c.spin := rfl
@[simp] theorem Chip.modLane_axis (c : Chip) (i : Nat) (f : LaneSt → LaneSt) : (c.modLane i f).axis = c.axis := rfl
@[simp] theorem Chip.modLane_cat (c : Chip) (i : Nat) (f : LaneSt → LaneSt) : (c.modLane i f).cat = c.cat := rfl
@[simp] theorem Chip.modLane_moss (c : Chip) (i : Nat) (f : LaneSt → LaneSt) : (c.modLane i f).moss = c.moss := rfl
@[simp] theorem Chip.modLane_tiles (c : Chip) (i : Nat) (f : LaneSt → LaneSt) : (c.modLane i f).tiles = c.tiles := rfl
@[simp] theorem Chip.modLane_buf (c : Chip) (i : Nat) (f : LaneSt → LaneSt) : (c.modLane i f).buf = c.buf := rfl
@[simp] theorem Chip.modLane_host (c : Chip) (i : Nat) (f : LaneSt → LaneSt) : (c.modLane i f).host = c.host := rfl
@[simp] theorem Chip.modLane_launches (c : Chip) (i : Nat) (f : LaneSt → LaneSt) : (c.modLane i f).launches = c.launches := rfl
@[simp] theorem Chip.modLane_trust (c : Chip) (i : Nat) (f : LaneSt → LaneSt) : (c.modLane i f).trust = c.trust := rfl
@[simp] theorem Chip.modLane_boot (c : Chip) (i : Nat) (f : LaneSt → LaneSt) : (c.modLane i f).boot = c.boot := rfl
@[simp] theorem Chip.modLane_power (c : Chip) (i : Nat) (f : LaneSt → LaneSt) : (c.modLane i f).power = c.power := rfl
@[simp] theorem Chip.modLane_scr (c : Chip) (i : Nat) (f : LaneSt → LaneSt) : (c.modLane i f).scr = c.scr := rfl
@[simp] theorem Chip.modLane_traceAt (c : Chip) (i : Nat) (f : LaneSt → LaneSt) : (c.modLane i f).traceAt = c.traceAt := rfl
@[simp] theorem Chip.modLane_svc (c : Chip) (i : Nat) (f : LaneSt → LaneSt) : (c.modLane i f).svc = c.svc := rfl
@[simp] theorem Chip.modLane_catSnaps (c : Chip) (i : Nat) (f : LaneSt → LaneSt) : (c.modLane i f).catSnaps = c.catSnaps := rfl

/-! ### modLink -/
@[simp] theorem Chip.modLink_now (c : Chip) (i : Nat) (f : LinkSt → LinkSt) : (c.modLink i f).now = c.now := rfl
@[simp] theorem Chip.modLink_flds (c : Chip) (i : Nat) (f : LinkSt → LinkSt) : (c.modLink i f).flds = c.flds := rfl
@[simp] theorem Chip.modLink_free (c : Chip) (i : Nat) (f : LinkSt → LinkSt) : (c.modLink i f).free = c.free := rfl
@[simp] theorem Chip.modLink_sent (c : Chip) (i : Nat) (f : LinkSt → LinkSt) : (c.modLink i f).sent = c.sent := rfl
@[simp] theorem Chip.modLink_ev (c : Chip) (i : Nat) (f : LinkSt → LinkSt) : (c.modLink i f).ev = c.ev := rfl
@[simp] theorem Chip.modLink_lichen (c : Chip) (i : Nat) (f : LinkSt → LinkSt) : (c.modLink i f).lichen = c.lichen := rfl
@[simp] theorem Chip.modLink_mgmt (c : Chip) (i : Nat) (f : LinkSt → LinkSt) : (c.modLink i f).mgmt = c.mgmt := rfl
@[simp] theorem Chip.modLink_clu (c : Chip) (i : Nat) (f : LinkSt → LinkSt) : (c.modLink i f).clu = c.clu := rfl
@[simp] theorem Chip.modLink_rgn (c : Chip) (i : Nat) (f : LinkSt → LinkSt) : (c.modLink i f).rgn = c.rgn := rfl
@[simp] theorem Chip.modLink_die (c : Chip) (i : Nat) (f : LinkSt → LinkSt) : (c.modLink i f).die = c.die := rfl
@[simp] theorem Chip.modLink_chain (c : Chip) (i : Nat) (f : LinkSt → LinkSt) : (c.modLink i f).chain = c.chain := rfl
@[simp] theorem Chip.modLink_sky (c : Chip) (i : Nat) (f : LinkSt → LinkSt) : (c.modLink i f).sky = c.sky := rfl
@[simp] theorem Chip.modLink_lane (c : Chip) (i : Nat) (f : LinkSt → LinkSt) : (c.modLink i f).lane = c.lane := rfl
@[simp] theorem Chip.modLink_btl (c : Chip) (i : Nat) (f : LinkSt → LinkSt) : (c.modLink i f).btl = c.btl := rfl
@[simp] theorem Chip.modLink_unit (c : Chip) (i : Nat) (f : LinkSt → LinkSt) : (c.modLink i f).unit = c.unit := rfl
@[simp] theorem Chip.modLink_pool (c : Chip) (i : Nat) (f : LinkSt → LinkSt) : (c.modLink i f).pool = c.pool := rfl
@[simp] theorem Chip.modLink_read (c : Chip) (i : Nat) (f : LinkSt → LinkSt) : (c.modLink i f).read = c.read := rfl
@[simp] theorem Chip.modLink_burn (c : Chip) (i : Nat) (f : LinkSt → LinkSt) : (c.modLink i f).burn = c.burn := rfl
@[simp] theorem Chip.modLink_servo (c : Chip) (i : Nat) (f : LinkSt → LinkSt) : (c.modLink i f).servo = c.servo := rfl
@[simp] theorem Chip.modLink_spin (c : Chip) (i : Nat) (f : LinkSt → LinkSt) : (c.modLink i f).spin = c.spin := rfl
@[simp] theorem Chip.modLink_axis (c : Chip) (i : Nat) (f : LinkSt → LinkSt) : (c.modLink i f).axis = c.axis := rfl
@[simp] theorem Chip.modLink_cat (c : Chip) (i : Nat) (f : LinkSt → LinkSt) : (c.modLink i f).cat = c.cat := rfl
@[simp] theorem Chip.modLink_moss (c : Chip) (i : Nat) (f : LinkSt → LinkSt) : (c.modLink i f).moss = c.moss := rfl
@[simp] theorem Chip.modLink_tiles (c : Chip) (i : Nat) (f : LinkSt → LinkSt) : (c.modLink i f).tiles = c.tiles := rfl
@[simp] theorem Chip.modLink_buf (c : Chip) (i : Nat) (f : LinkSt → LinkSt) : (c.modLink i f).buf = c.buf := rfl
@[simp] theorem Chip.modLink_host (c : Chip) (i : Nat) (f : LinkSt → LinkSt) : (c.modLink i f).host = c.host := rfl
@[simp] theorem Chip.modLink_launches (c : Chip) (i : Nat) (f : LinkSt → LinkSt) : (c.modLink i f).launches = c.launches := rfl
@[simp] theorem Chip.modLink_trust (c : Chip) (i : Nat) (f : LinkSt → LinkSt) : (c.modLink i f).trust = c.trust := rfl
@[simp] theorem Chip.modLink_boot (c : Chip) (i : Nat) (f : LinkSt → LinkSt) : (c.modLink i f).boot = c.boot := rfl
@[simp] theorem Chip.modLink_power (c : Chip) (i : Nat) (f : LinkSt → LinkSt) : (c.modLink i f).power = c.power := rfl
@[simp] theorem Chip.modLink_scr (c : Chip) (i : Nat) (f : LinkSt → LinkSt) : (c.modLink i f).scr = c.scr := rfl
@[simp] theorem Chip.modLink_traceAt (c : Chip) (i : Nat) (f : LinkSt → LinkSt) : (c.modLink i f).traceAt = c.traceAt := rfl
@[simp] theorem Chip.modLink_svc (c : Chip) (i : Nat) (f : LinkSt → LinkSt) : (c.modLink i f).svc = c.svc := rfl
@[simp] theorem Chip.modLink_catSnaps (c : Chip) (i : Nat) (f : LinkSt → LinkSt) : (c.modLink i f).catSnaps = c.catSnaps := rfl

/-! ### modBtl -/
@[simp] theorem Chip.modBtl_now (c : Chip) (i : Nat) (f : BtlSt → BtlSt) : (c.modBtl i f).now = c.now := rfl
@[simp] theorem Chip.modBtl_flds (c : Chip) (i : Nat) (f : BtlSt → BtlSt) : (c.modBtl i f).flds = c.flds := rfl
@[simp] theorem Chip.modBtl_free (c : Chip) (i : Nat) (f : BtlSt → BtlSt) : (c.modBtl i f).free = c.free := rfl
@[simp] theorem Chip.modBtl_sent (c : Chip) (i : Nat) (f : BtlSt → BtlSt) : (c.modBtl i f).sent = c.sent := rfl
@[simp] theorem Chip.modBtl_ev (c : Chip) (i : Nat) (f : BtlSt → BtlSt) : (c.modBtl i f).ev = c.ev := rfl
@[simp] theorem Chip.modBtl_lichen (c : Chip) (i : Nat) (f : BtlSt → BtlSt) : (c.modBtl i f).lichen = c.lichen := rfl
@[simp] theorem Chip.modBtl_mgmt (c : Chip) (i : Nat) (f : BtlSt → BtlSt) : (c.modBtl i f).mgmt = c.mgmt := rfl
@[simp] theorem Chip.modBtl_clu (c : Chip) (i : Nat) (f : BtlSt → BtlSt) : (c.modBtl i f).clu = c.clu := rfl
@[simp] theorem Chip.modBtl_rgn (c : Chip) (i : Nat) (f : BtlSt → BtlSt) : (c.modBtl i f).rgn = c.rgn := rfl
@[simp] theorem Chip.modBtl_die (c : Chip) (i : Nat) (f : BtlSt → BtlSt) : (c.modBtl i f).die = c.die := rfl
@[simp] theorem Chip.modBtl_chain (c : Chip) (i : Nat) (f : BtlSt → BtlSt) : (c.modBtl i f).chain = c.chain := rfl
@[simp] theorem Chip.modBtl_sky (c : Chip) (i : Nat) (f : BtlSt → BtlSt) : (c.modBtl i f).sky = c.sky := rfl
@[simp] theorem Chip.modBtl_lane (c : Chip) (i : Nat) (f : BtlSt → BtlSt) : (c.modBtl i f).lane = c.lane := rfl
@[simp] theorem Chip.modBtl_link (c : Chip) (i : Nat) (f : BtlSt → BtlSt) : (c.modBtl i f).link = c.link := rfl
@[simp] theorem Chip.modBtl_unit (c : Chip) (i : Nat) (f : BtlSt → BtlSt) : (c.modBtl i f).unit = c.unit := rfl
@[simp] theorem Chip.modBtl_pool (c : Chip) (i : Nat) (f : BtlSt → BtlSt) : (c.modBtl i f).pool = c.pool := rfl
@[simp] theorem Chip.modBtl_read (c : Chip) (i : Nat) (f : BtlSt → BtlSt) : (c.modBtl i f).read = c.read := rfl
@[simp] theorem Chip.modBtl_burn (c : Chip) (i : Nat) (f : BtlSt → BtlSt) : (c.modBtl i f).burn = c.burn := rfl
@[simp] theorem Chip.modBtl_servo (c : Chip) (i : Nat) (f : BtlSt → BtlSt) : (c.modBtl i f).servo = c.servo := rfl
@[simp] theorem Chip.modBtl_spin (c : Chip) (i : Nat) (f : BtlSt → BtlSt) : (c.modBtl i f).spin = c.spin := rfl
@[simp] theorem Chip.modBtl_axis (c : Chip) (i : Nat) (f : BtlSt → BtlSt) : (c.modBtl i f).axis = c.axis := rfl
@[simp] theorem Chip.modBtl_cat (c : Chip) (i : Nat) (f : BtlSt → BtlSt) : (c.modBtl i f).cat = c.cat := rfl
@[simp] theorem Chip.modBtl_moss (c : Chip) (i : Nat) (f : BtlSt → BtlSt) : (c.modBtl i f).moss = c.moss := rfl
@[simp] theorem Chip.modBtl_tiles (c : Chip) (i : Nat) (f : BtlSt → BtlSt) : (c.modBtl i f).tiles = c.tiles := rfl
@[simp] theorem Chip.modBtl_buf (c : Chip) (i : Nat) (f : BtlSt → BtlSt) : (c.modBtl i f).buf = c.buf := rfl
@[simp] theorem Chip.modBtl_host (c : Chip) (i : Nat) (f : BtlSt → BtlSt) : (c.modBtl i f).host = c.host := rfl
@[simp] theorem Chip.modBtl_launches (c : Chip) (i : Nat) (f : BtlSt → BtlSt) : (c.modBtl i f).launches = c.launches := rfl
@[simp] theorem Chip.modBtl_trust (c : Chip) (i : Nat) (f : BtlSt → BtlSt) : (c.modBtl i f).trust = c.trust := rfl
@[simp] theorem Chip.modBtl_boot (c : Chip) (i : Nat) (f : BtlSt → BtlSt) : (c.modBtl i f).boot = c.boot := rfl
@[simp] theorem Chip.modBtl_power (c : Chip) (i : Nat) (f : BtlSt → BtlSt) : (c.modBtl i f).power = c.power := rfl
@[simp] theorem Chip.modBtl_scr (c : Chip) (i : Nat) (f : BtlSt → BtlSt) : (c.modBtl i f).scr = c.scr := rfl
@[simp] theorem Chip.modBtl_traceAt (c : Chip) (i : Nat) (f : BtlSt → BtlSt) : (c.modBtl i f).traceAt = c.traceAt := rfl
@[simp] theorem Chip.modBtl_svc (c : Chip) (i : Nat) (f : BtlSt → BtlSt) : (c.modBtl i f).svc = c.svc := rfl
@[simp] theorem Chip.modBtl_catSnaps (c : Chip) (i : Nat) (f : BtlSt → BtlSt) : (c.modBtl i f).catSnaps = c.catSnaps := rfl

/-! ### modUnit -/
@[simp] theorem Chip.modUnit_now (c : Chip) (i : Nat) (f : UnitSt → UnitSt) : (c.modUnit i f).now = c.now := rfl
@[simp] theorem Chip.modUnit_flds (c : Chip) (i : Nat) (f : UnitSt → UnitSt) : (c.modUnit i f).flds = c.flds := rfl
@[simp] theorem Chip.modUnit_free (c : Chip) (i : Nat) (f : UnitSt → UnitSt) : (c.modUnit i f).free = c.free := rfl
@[simp] theorem Chip.modUnit_sent (c : Chip) (i : Nat) (f : UnitSt → UnitSt) : (c.modUnit i f).sent = c.sent := rfl
@[simp] theorem Chip.modUnit_ev (c : Chip) (i : Nat) (f : UnitSt → UnitSt) : (c.modUnit i f).ev = c.ev := rfl
@[simp] theorem Chip.modUnit_lichen (c : Chip) (i : Nat) (f : UnitSt → UnitSt) : (c.modUnit i f).lichen = c.lichen := rfl
@[simp] theorem Chip.modUnit_mgmt (c : Chip) (i : Nat) (f : UnitSt → UnitSt) : (c.modUnit i f).mgmt = c.mgmt := rfl
@[simp] theorem Chip.modUnit_clu (c : Chip) (i : Nat) (f : UnitSt → UnitSt) : (c.modUnit i f).clu = c.clu := rfl
@[simp] theorem Chip.modUnit_rgn (c : Chip) (i : Nat) (f : UnitSt → UnitSt) : (c.modUnit i f).rgn = c.rgn := rfl
@[simp] theorem Chip.modUnit_die (c : Chip) (i : Nat) (f : UnitSt → UnitSt) : (c.modUnit i f).die = c.die := rfl
@[simp] theorem Chip.modUnit_chain (c : Chip) (i : Nat) (f : UnitSt → UnitSt) : (c.modUnit i f).chain = c.chain := rfl
@[simp] theorem Chip.modUnit_sky (c : Chip) (i : Nat) (f : UnitSt → UnitSt) : (c.modUnit i f).sky = c.sky := rfl
@[simp] theorem Chip.modUnit_lane (c : Chip) (i : Nat) (f : UnitSt → UnitSt) : (c.modUnit i f).lane = c.lane := rfl
@[simp] theorem Chip.modUnit_link (c : Chip) (i : Nat) (f : UnitSt → UnitSt) : (c.modUnit i f).link = c.link := rfl
@[simp] theorem Chip.modUnit_btl (c : Chip) (i : Nat) (f : UnitSt → UnitSt) : (c.modUnit i f).btl = c.btl := rfl
@[simp] theorem Chip.modUnit_pool (c : Chip) (i : Nat) (f : UnitSt → UnitSt) : (c.modUnit i f).pool = c.pool := rfl
@[simp] theorem Chip.modUnit_read (c : Chip) (i : Nat) (f : UnitSt → UnitSt) : (c.modUnit i f).read = c.read := rfl
@[simp] theorem Chip.modUnit_burn (c : Chip) (i : Nat) (f : UnitSt → UnitSt) : (c.modUnit i f).burn = c.burn := rfl
@[simp] theorem Chip.modUnit_servo (c : Chip) (i : Nat) (f : UnitSt → UnitSt) : (c.modUnit i f).servo = c.servo := rfl
@[simp] theorem Chip.modUnit_spin (c : Chip) (i : Nat) (f : UnitSt → UnitSt) : (c.modUnit i f).spin = c.spin := rfl
@[simp] theorem Chip.modUnit_axis (c : Chip) (i : Nat) (f : UnitSt → UnitSt) : (c.modUnit i f).axis = c.axis := rfl
@[simp] theorem Chip.modUnit_cat (c : Chip) (i : Nat) (f : UnitSt → UnitSt) : (c.modUnit i f).cat = c.cat := rfl
@[simp] theorem Chip.modUnit_moss (c : Chip) (i : Nat) (f : UnitSt → UnitSt) : (c.modUnit i f).moss = c.moss := rfl
@[simp] theorem Chip.modUnit_tiles (c : Chip) (i : Nat) (f : UnitSt → UnitSt) : (c.modUnit i f).tiles = c.tiles := rfl
@[simp] theorem Chip.modUnit_buf (c : Chip) (i : Nat) (f : UnitSt → UnitSt) : (c.modUnit i f).buf = c.buf := rfl
@[simp] theorem Chip.modUnit_host (c : Chip) (i : Nat) (f : UnitSt → UnitSt) : (c.modUnit i f).host = c.host := rfl
@[simp] theorem Chip.modUnit_launches (c : Chip) (i : Nat) (f : UnitSt → UnitSt) : (c.modUnit i f).launches = c.launches := rfl
@[simp] theorem Chip.modUnit_trust (c : Chip) (i : Nat) (f : UnitSt → UnitSt) : (c.modUnit i f).trust = c.trust := rfl
@[simp] theorem Chip.modUnit_boot (c : Chip) (i : Nat) (f : UnitSt → UnitSt) : (c.modUnit i f).boot = c.boot := rfl
@[simp] theorem Chip.modUnit_power (c : Chip) (i : Nat) (f : UnitSt → UnitSt) : (c.modUnit i f).power = c.power := rfl
@[simp] theorem Chip.modUnit_scr (c : Chip) (i : Nat) (f : UnitSt → UnitSt) : (c.modUnit i f).scr = c.scr := rfl
@[simp] theorem Chip.modUnit_traceAt (c : Chip) (i : Nat) (f : UnitSt → UnitSt) : (c.modUnit i f).traceAt = c.traceAt := rfl
@[simp] theorem Chip.modUnit_svc (c : Chip) (i : Nat) (f : UnitSt → UnitSt) : (c.modUnit i f).svc = c.svc := rfl
@[simp] theorem Chip.modUnit_catSnaps (c : Chip) (i : Nat) (f : UnitSt → UnitSt) : (c.modUnit i f).catSnaps = c.catSnaps := rfl

/-! ### modPool -/
@[simp] theorem Chip.modPool_now (c : Chip) (i : Nat) (f : PoolSt → PoolSt) : (c.modPool i f).now = c.now := rfl
@[simp] theorem Chip.modPool_flds (c : Chip) (i : Nat) (f : PoolSt → PoolSt) : (c.modPool i f).flds = c.flds := rfl
@[simp] theorem Chip.modPool_free (c : Chip) (i : Nat) (f : PoolSt → PoolSt) : (c.modPool i f).free = c.free := rfl
@[simp] theorem Chip.modPool_sent (c : Chip) (i : Nat) (f : PoolSt → PoolSt) : (c.modPool i f).sent = c.sent := rfl
@[simp] theorem Chip.modPool_ev (c : Chip) (i : Nat) (f : PoolSt → PoolSt) : (c.modPool i f).ev = c.ev := rfl
@[simp] theorem Chip.modPool_lichen (c : Chip) (i : Nat) (f : PoolSt → PoolSt) : (c.modPool i f).lichen = c.lichen := rfl
@[simp] theorem Chip.modPool_mgmt (c : Chip) (i : Nat) (f : PoolSt → PoolSt) : (c.modPool i f).mgmt = c.mgmt := rfl
@[simp] theorem Chip.modPool_clu (c : Chip) (i : Nat) (f : PoolSt → PoolSt) : (c.modPool i f).clu = c.clu := rfl
@[simp] theorem Chip.modPool_rgn (c : Chip) (i : Nat) (f : PoolSt → PoolSt) : (c.modPool i f).rgn = c.rgn := rfl
@[simp] theorem Chip.modPool_die (c : Chip) (i : Nat) (f : PoolSt → PoolSt) : (c.modPool i f).die = c.die := rfl
@[simp] theorem Chip.modPool_chain (c : Chip) (i : Nat) (f : PoolSt → PoolSt) : (c.modPool i f).chain = c.chain := rfl
@[simp] theorem Chip.modPool_sky (c : Chip) (i : Nat) (f : PoolSt → PoolSt) : (c.modPool i f).sky = c.sky := rfl
@[simp] theorem Chip.modPool_lane (c : Chip) (i : Nat) (f : PoolSt → PoolSt) : (c.modPool i f).lane = c.lane := rfl
@[simp] theorem Chip.modPool_link (c : Chip) (i : Nat) (f : PoolSt → PoolSt) : (c.modPool i f).link = c.link := rfl
@[simp] theorem Chip.modPool_btl (c : Chip) (i : Nat) (f : PoolSt → PoolSt) : (c.modPool i f).btl = c.btl := rfl
@[simp] theorem Chip.modPool_unit (c : Chip) (i : Nat) (f : PoolSt → PoolSt) : (c.modPool i f).unit = c.unit := rfl
@[simp] theorem Chip.modPool_read (c : Chip) (i : Nat) (f : PoolSt → PoolSt) : (c.modPool i f).read = c.read := rfl
@[simp] theorem Chip.modPool_burn (c : Chip) (i : Nat) (f : PoolSt → PoolSt) : (c.modPool i f).burn = c.burn := rfl
@[simp] theorem Chip.modPool_servo (c : Chip) (i : Nat) (f : PoolSt → PoolSt) : (c.modPool i f).servo = c.servo := rfl
@[simp] theorem Chip.modPool_spin (c : Chip) (i : Nat) (f : PoolSt → PoolSt) : (c.modPool i f).spin = c.spin := rfl
@[simp] theorem Chip.modPool_axis (c : Chip) (i : Nat) (f : PoolSt → PoolSt) : (c.modPool i f).axis = c.axis := rfl
@[simp] theorem Chip.modPool_cat (c : Chip) (i : Nat) (f : PoolSt → PoolSt) : (c.modPool i f).cat = c.cat := rfl
@[simp] theorem Chip.modPool_moss (c : Chip) (i : Nat) (f : PoolSt → PoolSt) : (c.modPool i f).moss = c.moss := rfl
@[simp] theorem Chip.modPool_tiles (c : Chip) (i : Nat) (f : PoolSt → PoolSt) : (c.modPool i f).tiles = c.tiles := rfl
@[simp] theorem Chip.modPool_buf (c : Chip) (i : Nat) (f : PoolSt → PoolSt) : (c.modPool i f).buf = c.buf := rfl
@[simp] theorem Chip.modPool_host (c : Chip) (i : Nat) (f : PoolSt → PoolSt) : (c.modPool i f).host = c.host := rfl
@[simp] theorem Chip.modPool_launches (c : Chip) (i : Nat) (f : PoolSt → PoolSt) : (c.modPool i f).launches = c.launches := rfl
@[simp] theorem Chip.modPool_trust (c : Chip) (i : Nat) (f : PoolSt → PoolSt) : (c.modPool i f).trust = c.trust := rfl
@[simp] theorem Chip.modPool_boot (c : Chip) (i : Nat) (f : PoolSt → PoolSt) : (c.modPool i f).boot = c.boot := rfl
@[simp] theorem Chip.modPool_power (c : Chip) (i : Nat) (f : PoolSt → PoolSt) : (c.modPool i f).power = c.power := rfl
@[simp] theorem Chip.modPool_scr (c : Chip) (i : Nat) (f : PoolSt → PoolSt) : (c.modPool i f).scr = c.scr := rfl
@[simp] theorem Chip.modPool_traceAt (c : Chip) (i : Nat) (f : PoolSt → PoolSt) : (c.modPool i f).traceAt = c.traceAt := rfl
@[simp] theorem Chip.modPool_svc (c : Chip) (i : Nat) (f : PoolSt → PoolSt) : (c.modPool i f).svc = c.svc := rfl
@[simp] theorem Chip.modPool_catSnaps (c : Chip) (i : Nat) (f : PoolSt → PoolSt) : (c.modPool i f).catSnaps = c.catSnaps := rfl

/-! ### modRead -/
@[simp] theorem Chip.modRead_now (c : Chip) (i : Nat) (f : ReadSt → ReadSt) : (c.modRead i f).now = c.now := rfl
@[simp] theorem Chip.modRead_flds (c : Chip) (i : Nat) (f : ReadSt → ReadSt) : (c.modRead i f).flds = c.flds := rfl
@[simp] theorem Chip.modRead_free (c : Chip) (i : Nat) (f : ReadSt → ReadSt) : (c.modRead i f).free = c.free := rfl
@[simp] theorem Chip.modRead_sent (c : Chip) (i : Nat) (f : ReadSt → ReadSt) : (c.modRead i f).sent = c.sent := rfl
@[simp] theorem Chip.modRead_ev (c : Chip) (i : Nat) (f : ReadSt → ReadSt) : (c.modRead i f).ev = c.ev := rfl
@[simp] theorem Chip.modRead_lichen (c : Chip) (i : Nat) (f : ReadSt → ReadSt) : (c.modRead i f).lichen = c.lichen := rfl
@[simp] theorem Chip.modRead_mgmt (c : Chip) (i : Nat) (f : ReadSt → ReadSt) : (c.modRead i f).mgmt = c.mgmt := rfl
@[simp] theorem Chip.modRead_clu (c : Chip) (i : Nat) (f : ReadSt → ReadSt) : (c.modRead i f).clu = c.clu := rfl
@[simp] theorem Chip.modRead_rgn (c : Chip) (i : Nat) (f : ReadSt → ReadSt) : (c.modRead i f).rgn = c.rgn := rfl
@[simp] theorem Chip.modRead_die (c : Chip) (i : Nat) (f : ReadSt → ReadSt) : (c.modRead i f).die = c.die := rfl
@[simp] theorem Chip.modRead_chain (c : Chip) (i : Nat) (f : ReadSt → ReadSt) : (c.modRead i f).chain = c.chain := rfl
@[simp] theorem Chip.modRead_sky (c : Chip) (i : Nat) (f : ReadSt → ReadSt) : (c.modRead i f).sky = c.sky := rfl
@[simp] theorem Chip.modRead_lane (c : Chip) (i : Nat) (f : ReadSt → ReadSt) : (c.modRead i f).lane = c.lane := rfl
@[simp] theorem Chip.modRead_link (c : Chip) (i : Nat) (f : ReadSt → ReadSt) : (c.modRead i f).link = c.link := rfl
@[simp] theorem Chip.modRead_btl (c : Chip) (i : Nat) (f : ReadSt → ReadSt) : (c.modRead i f).btl = c.btl := rfl
@[simp] theorem Chip.modRead_unit (c : Chip) (i : Nat) (f : ReadSt → ReadSt) : (c.modRead i f).unit = c.unit := rfl
@[simp] theorem Chip.modRead_pool (c : Chip) (i : Nat) (f : ReadSt → ReadSt) : (c.modRead i f).pool = c.pool := rfl
@[simp] theorem Chip.modRead_burn (c : Chip) (i : Nat) (f : ReadSt → ReadSt) : (c.modRead i f).burn = c.burn := rfl
@[simp] theorem Chip.modRead_servo (c : Chip) (i : Nat) (f : ReadSt → ReadSt) : (c.modRead i f).servo = c.servo := rfl
@[simp] theorem Chip.modRead_spin (c : Chip) (i : Nat) (f : ReadSt → ReadSt) : (c.modRead i f).spin = c.spin := rfl
@[simp] theorem Chip.modRead_axis (c : Chip) (i : Nat) (f : ReadSt → ReadSt) : (c.modRead i f).axis = c.axis := rfl
@[simp] theorem Chip.modRead_cat (c : Chip) (i : Nat) (f : ReadSt → ReadSt) : (c.modRead i f).cat = c.cat := rfl
@[simp] theorem Chip.modRead_moss (c : Chip) (i : Nat) (f : ReadSt → ReadSt) : (c.modRead i f).moss = c.moss := rfl
@[simp] theorem Chip.modRead_tiles (c : Chip) (i : Nat) (f : ReadSt → ReadSt) : (c.modRead i f).tiles = c.tiles := rfl
@[simp] theorem Chip.modRead_buf (c : Chip) (i : Nat) (f : ReadSt → ReadSt) : (c.modRead i f).buf = c.buf := rfl
@[simp] theorem Chip.modRead_host (c : Chip) (i : Nat) (f : ReadSt → ReadSt) : (c.modRead i f).host = c.host := rfl
@[simp] theorem Chip.modRead_launches (c : Chip) (i : Nat) (f : ReadSt → ReadSt) : (c.modRead i f).launches = c.launches := rfl
@[simp] theorem Chip.modRead_trust (c : Chip) (i : Nat) (f : ReadSt → ReadSt) : (c.modRead i f).trust = c.trust := rfl
@[simp] theorem Chip.modRead_boot (c : Chip) (i : Nat) (f : ReadSt → ReadSt) : (c.modRead i f).boot = c.boot := rfl
@[simp] theorem Chip.modRead_power (c : Chip) (i : Nat) (f : ReadSt → ReadSt) : (c.modRead i f).power = c.power := rfl
@[simp] theorem Chip.modRead_scr (c : Chip) (i : Nat) (f : ReadSt → ReadSt) : (c.modRead i f).scr = c.scr := rfl
@[simp] theorem Chip.modRead_traceAt (c : Chip) (i : Nat) (f : ReadSt → ReadSt) : (c.modRead i f).traceAt = c.traceAt := rfl
@[simp] theorem Chip.modRead_svc (c : Chip) (i : Nat) (f : ReadSt → ReadSt) : (c.modRead i f).svc = c.svc := rfl
@[simp] theorem Chip.modRead_catSnaps (c : Chip) (i : Nat) (f : ReadSt → ReadSt) : (c.modRead i f).catSnaps = c.catSnaps := rfl

/-! ### modBurn -/
@[simp] theorem Chip.modBurn_now (c : Chip) (i : Nat) (f : BurnSt → BurnSt) : (c.modBurn i f).now = c.now := rfl
@[simp] theorem Chip.modBurn_flds (c : Chip) (i : Nat) (f : BurnSt → BurnSt) : (c.modBurn i f).flds = c.flds := rfl
@[simp] theorem Chip.modBurn_free (c : Chip) (i : Nat) (f : BurnSt → BurnSt) : (c.modBurn i f).free = c.free := rfl
@[simp] theorem Chip.modBurn_sent (c : Chip) (i : Nat) (f : BurnSt → BurnSt) : (c.modBurn i f).sent = c.sent := rfl
@[simp] theorem Chip.modBurn_ev (c : Chip) (i : Nat) (f : BurnSt → BurnSt) : (c.modBurn i f).ev = c.ev := rfl
@[simp] theorem Chip.modBurn_lichen (c : Chip) (i : Nat) (f : BurnSt → BurnSt) : (c.modBurn i f).lichen = c.lichen := rfl
@[simp] theorem Chip.modBurn_mgmt (c : Chip) (i : Nat) (f : BurnSt → BurnSt) : (c.modBurn i f).mgmt = c.mgmt := rfl
@[simp] theorem Chip.modBurn_clu (c : Chip) (i : Nat) (f : BurnSt → BurnSt) : (c.modBurn i f).clu = c.clu := rfl
@[simp] theorem Chip.modBurn_rgn (c : Chip) (i : Nat) (f : BurnSt → BurnSt) : (c.modBurn i f).rgn = c.rgn := rfl
@[simp] theorem Chip.modBurn_die (c : Chip) (i : Nat) (f : BurnSt → BurnSt) : (c.modBurn i f).die = c.die := rfl
@[simp] theorem Chip.modBurn_chain (c : Chip) (i : Nat) (f : BurnSt → BurnSt) : (c.modBurn i f).chain = c.chain := rfl
@[simp] theorem Chip.modBurn_sky (c : Chip) (i : Nat) (f : BurnSt → BurnSt) : (c.modBurn i f).sky = c.sky := rfl
@[simp] theorem Chip.modBurn_lane (c : Chip) (i : Nat) (f : BurnSt → BurnSt) : (c.modBurn i f).lane = c.lane := rfl
@[simp] theorem Chip.modBurn_link (c : Chip) (i : Nat) (f : BurnSt → BurnSt) : (c.modBurn i f).link = c.link := rfl
@[simp] theorem Chip.modBurn_btl (c : Chip) (i : Nat) (f : BurnSt → BurnSt) : (c.modBurn i f).btl = c.btl := rfl
@[simp] theorem Chip.modBurn_unit (c : Chip) (i : Nat) (f : BurnSt → BurnSt) : (c.modBurn i f).unit = c.unit := rfl
@[simp] theorem Chip.modBurn_pool (c : Chip) (i : Nat) (f : BurnSt → BurnSt) : (c.modBurn i f).pool = c.pool := rfl
@[simp] theorem Chip.modBurn_read (c : Chip) (i : Nat) (f : BurnSt → BurnSt) : (c.modBurn i f).read = c.read := rfl
@[simp] theorem Chip.modBurn_servo (c : Chip) (i : Nat) (f : BurnSt → BurnSt) : (c.modBurn i f).servo = c.servo := rfl
@[simp] theorem Chip.modBurn_spin (c : Chip) (i : Nat) (f : BurnSt → BurnSt) : (c.modBurn i f).spin = c.spin := rfl
@[simp] theorem Chip.modBurn_axis (c : Chip) (i : Nat) (f : BurnSt → BurnSt) : (c.modBurn i f).axis = c.axis := rfl
@[simp] theorem Chip.modBurn_cat (c : Chip) (i : Nat) (f : BurnSt → BurnSt) : (c.modBurn i f).cat = c.cat := rfl
@[simp] theorem Chip.modBurn_moss (c : Chip) (i : Nat) (f : BurnSt → BurnSt) : (c.modBurn i f).moss = c.moss := rfl
@[simp] theorem Chip.modBurn_tiles (c : Chip) (i : Nat) (f : BurnSt → BurnSt) : (c.modBurn i f).tiles = c.tiles := rfl
@[simp] theorem Chip.modBurn_buf (c : Chip) (i : Nat) (f : BurnSt → BurnSt) : (c.modBurn i f).buf = c.buf := rfl
@[simp] theorem Chip.modBurn_host (c : Chip) (i : Nat) (f : BurnSt → BurnSt) : (c.modBurn i f).host = c.host := rfl
@[simp] theorem Chip.modBurn_launches (c : Chip) (i : Nat) (f : BurnSt → BurnSt) : (c.modBurn i f).launches = c.launches := rfl
@[simp] theorem Chip.modBurn_trust (c : Chip) (i : Nat) (f : BurnSt → BurnSt) : (c.modBurn i f).trust = c.trust := rfl
@[simp] theorem Chip.modBurn_boot (c : Chip) (i : Nat) (f : BurnSt → BurnSt) : (c.modBurn i f).boot = c.boot := rfl
@[simp] theorem Chip.modBurn_power (c : Chip) (i : Nat) (f : BurnSt → BurnSt) : (c.modBurn i f).power = c.power := rfl
@[simp] theorem Chip.modBurn_scr (c : Chip) (i : Nat) (f : BurnSt → BurnSt) : (c.modBurn i f).scr = c.scr := rfl
@[simp] theorem Chip.modBurn_traceAt (c : Chip) (i : Nat) (f : BurnSt → BurnSt) : (c.modBurn i f).traceAt = c.traceAt := rfl
@[simp] theorem Chip.modBurn_svc (c : Chip) (i : Nat) (f : BurnSt → BurnSt) : (c.modBurn i f).svc = c.svc := rfl
@[simp] theorem Chip.modBurn_catSnaps (c : Chip) (i : Nat) (f : BurnSt → BurnSt) : (c.modBurn i f).catSnaps = c.catSnaps := rfl

/-! ### modServo -/
@[simp] theorem Chip.modServo_now (c : Chip) (i : Nat) (f : ServoSt → ServoSt) : (c.modServo i f).now = c.now := rfl
@[simp] theorem Chip.modServo_flds (c : Chip) (i : Nat) (f : ServoSt → ServoSt) : (c.modServo i f).flds = c.flds := rfl
@[simp] theorem Chip.modServo_free (c : Chip) (i : Nat) (f : ServoSt → ServoSt) : (c.modServo i f).free = c.free := rfl
@[simp] theorem Chip.modServo_sent (c : Chip) (i : Nat) (f : ServoSt → ServoSt) : (c.modServo i f).sent = c.sent := rfl
@[simp] theorem Chip.modServo_ev (c : Chip) (i : Nat) (f : ServoSt → ServoSt) : (c.modServo i f).ev = c.ev := rfl
@[simp] theorem Chip.modServo_lichen (c : Chip) (i : Nat) (f : ServoSt → ServoSt) : (c.modServo i f).lichen = c.lichen := rfl
@[simp] theorem Chip.modServo_mgmt (c : Chip) (i : Nat) (f : ServoSt → ServoSt) : (c.modServo i f).mgmt = c.mgmt := rfl
@[simp] theorem Chip.modServo_clu (c : Chip) (i : Nat) (f : ServoSt → ServoSt) : (c.modServo i f).clu = c.clu := rfl
@[simp] theorem Chip.modServo_rgn (c : Chip) (i : Nat) (f : ServoSt → ServoSt) : (c.modServo i f).rgn = c.rgn := rfl
@[simp] theorem Chip.modServo_die (c : Chip) (i : Nat) (f : ServoSt → ServoSt) : (c.modServo i f).die = c.die := rfl
@[simp] theorem Chip.modServo_chain (c : Chip) (i : Nat) (f : ServoSt → ServoSt) : (c.modServo i f).chain = c.chain := rfl
@[simp] theorem Chip.modServo_sky (c : Chip) (i : Nat) (f : ServoSt → ServoSt) : (c.modServo i f).sky = c.sky := rfl
@[simp] theorem Chip.modServo_lane (c : Chip) (i : Nat) (f : ServoSt → ServoSt) : (c.modServo i f).lane = c.lane := rfl
@[simp] theorem Chip.modServo_link (c : Chip) (i : Nat) (f : ServoSt → ServoSt) : (c.modServo i f).link = c.link := rfl
@[simp] theorem Chip.modServo_btl (c : Chip) (i : Nat) (f : ServoSt → ServoSt) : (c.modServo i f).btl = c.btl := rfl
@[simp] theorem Chip.modServo_unit (c : Chip) (i : Nat) (f : ServoSt → ServoSt) : (c.modServo i f).unit = c.unit := rfl
@[simp] theorem Chip.modServo_pool (c : Chip) (i : Nat) (f : ServoSt → ServoSt) : (c.modServo i f).pool = c.pool := rfl
@[simp] theorem Chip.modServo_read (c : Chip) (i : Nat) (f : ServoSt → ServoSt) : (c.modServo i f).read = c.read := rfl
@[simp] theorem Chip.modServo_burn (c : Chip) (i : Nat) (f : ServoSt → ServoSt) : (c.modServo i f).burn = c.burn := rfl
@[simp] theorem Chip.modServo_spin (c : Chip) (i : Nat) (f : ServoSt → ServoSt) : (c.modServo i f).spin = c.spin := rfl
@[simp] theorem Chip.modServo_axis (c : Chip) (i : Nat) (f : ServoSt → ServoSt) : (c.modServo i f).axis = c.axis := rfl
@[simp] theorem Chip.modServo_cat (c : Chip) (i : Nat) (f : ServoSt → ServoSt) : (c.modServo i f).cat = c.cat := rfl
@[simp] theorem Chip.modServo_moss (c : Chip) (i : Nat) (f : ServoSt → ServoSt) : (c.modServo i f).moss = c.moss := rfl
@[simp] theorem Chip.modServo_tiles (c : Chip) (i : Nat) (f : ServoSt → ServoSt) : (c.modServo i f).tiles = c.tiles := rfl
@[simp] theorem Chip.modServo_buf (c : Chip) (i : Nat) (f : ServoSt → ServoSt) : (c.modServo i f).buf = c.buf := rfl
@[simp] theorem Chip.modServo_host (c : Chip) (i : Nat) (f : ServoSt → ServoSt) : (c.modServo i f).host = c.host := rfl
@[simp] theorem Chip.modServo_launches (c : Chip) (i : Nat) (f : ServoSt → ServoSt) : (c.modServo i f).launches = c.launches := rfl
@[simp] theorem Chip.modServo_trust (c : Chip) (i : Nat) (f : ServoSt → ServoSt) : (c.modServo i f).trust = c.trust := rfl
@[simp] theorem Chip.modServo_boot (c : Chip) (i : Nat) (f : ServoSt → ServoSt) : (c.modServo i f).boot = c.boot := rfl
@[simp] theorem Chip.modServo_power (c : Chip) (i : Nat) (f : ServoSt → ServoSt) : (c.modServo i f).power = c.power := rfl
@[simp] theorem Chip.modServo_scr (c : Chip) (i : Nat) (f : ServoSt → ServoSt) : (c.modServo i f).scr = c.scr := rfl
@[simp] theorem Chip.modServo_traceAt (c : Chip) (i : Nat) (f : ServoSt → ServoSt) : (c.modServo i f).traceAt = c.traceAt := rfl
@[simp] theorem Chip.modServo_svc (c : Chip) (i : Nat) (f : ServoSt → ServoSt) : (c.modServo i f).svc = c.svc := rfl
@[simp] theorem Chip.modServo_catSnaps (c : Chip) (i : Nat) (f : ServoSt → ServoSt) : (c.modServo i f).catSnaps = c.catSnaps := rfl

/-! ### modSpin -/
@[simp] theorem Chip.modSpin_now (c : Chip) (i : Nat) (f : SpinSt → SpinSt) : (c.modSpin i f).now = c.now := rfl
@[simp] theorem Chip.modSpin_flds (c : Chip) (i : Nat) (f : SpinSt → SpinSt) : (c.modSpin i f).flds = c.flds := rfl
@[simp] theorem Chip.modSpin_free (c : Chip) (i : Nat) (f : SpinSt → SpinSt) : (c.modSpin i f).free = c.free := rfl
@[simp] theorem Chip.modSpin_sent (c : Chip) (i : Nat) (f : SpinSt → SpinSt) : (c.modSpin i f).sent = c.sent := rfl
@[simp] theorem Chip.modSpin_ev (c : Chip) (i : Nat) (f : SpinSt → SpinSt) : (c.modSpin i f).ev = c.ev := rfl
@[simp] theorem Chip.modSpin_lichen (c : Chip) (i : Nat) (f : SpinSt → SpinSt) : (c.modSpin i f).lichen = c.lichen := rfl
@[simp] theorem Chip.modSpin_mgmt (c : Chip) (i : Nat) (f : SpinSt → SpinSt) : (c.modSpin i f).mgmt = c.mgmt := rfl
@[simp] theorem Chip.modSpin_clu (c : Chip) (i : Nat) (f : SpinSt → SpinSt) : (c.modSpin i f).clu = c.clu := rfl
@[simp] theorem Chip.modSpin_rgn (c : Chip) (i : Nat) (f : SpinSt → SpinSt) : (c.modSpin i f).rgn = c.rgn := rfl
@[simp] theorem Chip.modSpin_die (c : Chip) (i : Nat) (f : SpinSt → SpinSt) : (c.modSpin i f).die = c.die := rfl
@[simp] theorem Chip.modSpin_chain (c : Chip) (i : Nat) (f : SpinSt → SpinSt) : (c.modSpin i f).chain = c.chain := rfl
@[simp] theorem Chip.modSpin_sky (c : Chip) (i : Nat) (f : SpinSt → SpinSt) : (c.modSpin i f).sky = c.sky := rfl
@[simp] theorem Chip.modSpin_lane (c : Chip) (i : Nat) (f : SpinSt → SpinSt) : (c.modSpin i f).lane = c.lane := rfl
@[simp] theorem Chip.modSpin_link (c : Chip) (i : Nat) (f : SpinSt → SpinSt) : (c.modSpin i f).link = c.link := rfl
@[simp] theorem Chip.modSpin_btl (c : Chip) (i : Nat) (f : SpinSt → SpinSt) : (c.modSpin i f).btl = c.btl := rfl
@[simp] theorem Chip.modSpin_unit (c : Chip) (i : Nat) (f : SpinSt → SpinSt) : (c.modSpin i f).unit = c.unit := rfl
@[simp] theorem Chip.modSpin_pool (c : Chip) (i : Nat) (f : SpinSt → SpinSt) : (c.modSpin i f).pool = c.pool := rfl
@[simp] theorem Chip.modSpin_read (c : Chip) (i : Nat) (f : SpinSt → SpinSt) : (c.modSpin i f).read = c.read := rfl
@[simp] theorem Chip.modSpin_burn (c : Chip) (i : Nat) (f : SpinSt → SpinSt) : (c.modSpin i f).burn = c.burn := rfl
@[simp] theorem Chip.modSpin_servo (c : Chip) (i : Nat) (f : SpinSt → SpinSt) : (c.modSpin i f).servo = c.servo := rfl
@[simp] theorem Chip.modSpin_axis (c : Chip) (i : Nat) (f : SpinSt → SpinSt) : (c.modSpin i f).axis = c.axis := rfl
@[simp] theorem Chip.modSpin_cat (c : Chip) (i : Nat) (f : SpinSt → SpinSt) : (c.modSpin i f).cat = c.cat := rfl
@[simp] theorem Chip.modSpin_moss (c : Chip) (i : Nat) (f : SpinSt → SpinSt) : (c.modSpin i f).moss = c.moss := rfl
@[simp] theorem Chip.modSpin_tiles (c : Chip) (i : Nat) (f : SpinSt → SpinSt) : (c.modSpin i f).tiles = c.tiles := rfl
@[simp] theorem Chip.modSpin_buf (c : Chip) (i : Nat) (f : SpinSt → SpinSt) : (c.modSpin i f).buf = c.buf := rfl
@[simp] theorem Chip.modSpin_host (c : Chip) (i : Nat) (f : SpinSt → SpinSt) : (c.modSpin i f).host = c.host := rfl
@[simp] theorem Chip.modSpin_launches (c : Chip) (i : Nat) (f : SpinSt → SpinSt) : (c.modSpin i f).launches = c.launches := rfl
@[simp] theorem Chip.modSpin_trust (c : Chip) (i : Nat) (f : SpinSt → SpinSt) : (c.modSpin i f).trust = c.trust := rfl
@[simp] theorem Chip.modSpin_boot (c : Chip) (i : Nat) (f : SpinSt → SpinSt) : (c.modSpin i f).boot = c.boot := rfl
@[simp] theorem Chip.modSpin_power (c : Chip) (i : Nat) (f : SpinSt → SpinSt) : (c.modSpin i f).power = c.power := rfl
@[simp] theorem Chip.modSpin_scr (c : Chip) (i : Nat) (f : SpinSt → SpinSt) : (c.modSpin i f).scr = c.scr := rfl
@[simp] theorem Chip.modSpin_traceAt (c : Chip) (i : Nat) (f : SpinSt → SpinSt) : (c.modSpin i f).traceAt = c.traceAt := rfl
@[simp] theorem Chip.modSpin_svc (c : Chip) (i : Nat) (f : SpinSt → SpinSt) : (c.modSpin i f).svc = c.svc := rfl
@[simp] theorem Chip.modSpin_catSnaps (c : Chip) (i : Nat) (f : SpinSt → SpinSt) : (c.modSpin i f).catSnaps = c.catSnaps := rfl

/-! ### modAxis -/
@[simp] theorem Chip.modAxis_now (c : Chip) (i : Nat) (f : AxisSt → AxisSt) : (c.modAxis i f).now = c.now := rfl
@[simp] theorem Chip.modAxis_flds (c : Chip) (i : Nat) (f : AxisSt → AxisSt) : (c.modAxis i f).flds = c.flds := rfl
@[simp] theorem Chip.modAxis_free (c : Chip) (i : Nat) (f : AxisSt → AxisSt) : (c.modAxis i f).free = c.free := rfl
@[simp] theorem Chip.modAxis_sent (c : Chip) (i : Nat) (f : AxisSt → AxisSt) : (c.modAxis i f).sent = c.sent := rfl
@[simp] theorem Chip.modAxis_ev (c : Chip) (i : Nat) (f : AxisSt → AxisSt) : (c.modAxis i f).ev = c.ev := rfl
@[simp] theorem Chip.modAxis_lichen (c : Chip) (i : Nat) (f : AxisSt → AxisSt) : (c.modAxis i f).lichen = c.lichen := rfl
@[simp] theorem Chip.modAxis_mgmt (c : Chip) (i : Nat) (f : AxisSt → AxisSt) : (c.modAxis i f).mgmt = c.mgmt := rfl
@[simp] theorem Chip.modAxis_clu (c : Chip) (i : Nat) (f : AxisSt → AxisSt) : (c.modAxis i f).clu = c.clu := rfl
@[simp] theorem Chip.modAxis_rgn (c : Chip) (i : Nat) (f : AxisSt → AxisSt) : (c.modAxis i f).rgn = c.rgn := rfl
@[simp] theorem Chip.modAxis_die (c : Chip) (i : Nat) (f : AxisSt → AxisSt) : (c.modAxis i f).die = c.die := rfl
@[simp] theorem Chip.modAxis_chain (c : Chip) (i : Nat) (f : AxisSt → AxisSt) : (c.modAxis i f).chain = c.chain := rfl
@[simp] theorem Chip.modAxis_sky (c : Chip) (i : Nat) (f : AxisSt → AxisSt) : (c.modAxis i f).sky = c.sky := rfl
@[simp] theorem Chip.modAxis_lane (c : Chip) (i : Nat) (f : AxisSt → AxisSt) : (c.modAxis i f).lane = c.lane := rfl
@[simp] theorem Chip.modAxis_link (c : Chip) (i : Nat) (f : AxisSt → AxisSt) : (c.modAxis i f).link = c.link := rfl
@[simp] theorem Chip.modAxis_btl (c : Chip) (i : Nat) (f : AxisSt → AxisSt) : (c.modAxis i f).btl = c.btl := rfl
@[simp] theorem Chip.modAxis_unit (c : Chip) (i : Nat) (f : AxisSt → AxisSt) : (c.modAxis i f).unit = c.unit := rfl
@[simp] theorem Chip.modAxis_pool (c : Chip) (i : Nat) (f : AxisSt → AxisSt) : (c.modAxis i f).pool = c.pool := rfl
@[simp] theorem Chip.modAxis_read (c : Chip) (i : Nat) (f : AxisSt → AxisSt) : (c.modAxis i f).read = c.read := rfl
@[simp] theorem Chip.modAxis_burn (c : Chip) (i : Nat) (f : AxisSt → AxisSt) : (c.modAxis i f).burn = c.burn := rfl
@[simp] theorem Chip.modAxis_servo (c : Chip) (i : Nat) (f : AxisSt → AxisSt) : (c.modAxis i f).servo = c.servo := rfl
@[simp] theorem Chip.modAxis_spin (c : Chip) (i : Nat) (f : AxisSt → AxisSt) : (c.modAxis i f).spin = c.spin := rfl
@[simp] theorem Chip.modAxis_cat (c : Chip) (i : Nat) (f : AxisSt → AxisSt) : (c.modAxis i f).cat = c.cat := rfl
@[simp] theorem Chip.modAxis_moss (c : Chip) (i : Nat) (f : AxisSt → AxisSt) : (c.modAxis i f).moss = c.moss := rfl
@[simp] theorem Chip.modAxis_tiles (c : Chip) (i : Nat) (f : AxisSt → AxisSt) : (c.modAxis i f).tiles = c.tiles := rfl
@[simp] theorem Chip.modAxis_buf (c : Chip) (i : Nat) (f : AxisSt → AxisSt) : (c.modAxis i f).buf = c.buf := rfl
@[simp] theorem Chip.modAxis_host (c : Chip) (i : Nat) (f : AxisSt → AxisSt) : (c.modAxis i f).host = c.host := rfl
@[simp] theorem Chip.modAxis_launches (c : Chip) (i : Nat) (f : AxisSt → AxisSt) : (c.modAxis i f).launches = c.launches := rfl
@[simp] theorem Chip.modAxis_trust (c : Chip) (i : Nat) (f : AxisSt → AxisSt) : (c.modAxis i f).trust = c.trust := rfl
@[simp] theorem Chip.modAxis_boot (c : Chip) (i : Nat) (f : AxisSt → AxisSt) : (c.modAxis i f).boot = c.boot := rfl
@[simp] theorem Chip.modAxis_power (c : Chip) (i : Nat) (f : AxisSt → AxisSt) : (c.modAxis i f).power = c.power := rfl
@[simp] theorem Chip.modAxis_scr (c : Chip) (i : Nat) (f : AxisSt → AxisSt) : (c.modAxis i f).scr = c.scr := rfl
@[simp] theorem Chip.modAxis_traceAt (c : Chip) (i : Nat) (f : AxisSt → AxisSt) : (c.modAxis i f).traceAt = c.traceAt := rfl
@[simp] theorem Chip.modAxis_svc (c : Chip) (i : Nat) (f : AxisSt → AxisSt) : (c.modAxis i f).svc = c.svc := rfl
@[simp] theorem Chip.modAxis_catSnaps (c : Chip) (i : Nat) (f : AxisSt → AxisSt) : (c.modAxis i f).catSnaps = c.catSnaps := rfl

/-! ### modTile -/
@[simp] theorem Chip.modTile_now (c : Chip) (i : Nat) (f : TileRec → TileRec) : (c.modTile i f).now = c.now := rfl
@[simp] theorem Chip.modTile_flds (c : Chip) (i : Nat) (f : TileRec → TileRec) : (c.modTile i f).flds = c.flds := rfl
@[simp] theorem Chip.modTile_free (c : Chip) (i : Nat) (f : TileRec → TileRec) : (c.modTile i f).free = c.free := rfl
@[simp] theorem Chip.modTile_sent (c : Chip) (i : Nat) (f : TileRec → TileRec) : (c.modTile i f).sent = c.sent := rfl
@[simp] theorem Chip.modTile_ev (c : Chip) (i : Nat) (f : TileRec → TileRec) : (c.modTile i f).ev = c.ev := rfl
@[simp] theorem Chip.modTile_lichen (c : Chip) (i : Nat) (f : TileRec → TileRec) : (c.modTile i f).lichen = c.lichen := rfl
@[simp] theorem Chip.modTile_mgmt (c : Chip) (i : Nat) (f : TileRec → TileRec) : (c.modTile i f).mgmt = c.mgmt := rfl
@[simp] theorem Chip.modTile_clu (c : Chip) (i : Nat) (f : TileRec → TileRec) : (c.modTile i f).clu = c.clu := rfl
@[simp] theorem Chip.modTile_rgn (c : Chip) (i : Nat) (f : TileRec → TileRec) : (c.modTile i f).rgn = c.rgn := rfl
@[simp] theorem Chip.modTile_die (c : Chip) (i : Nat) (f : TileRec → TileRec) : (c.modTile i f).die = c.die := rfl
@[simp] theorem Chip.modTile_chain (c : Chip) (i : Nat) (f : TileRec → TileRec) : (c.modTile i f).chain = c.chain := rfl
@[simp] theorem Chip.modTile_sky (c : Chip) (i : Nat) (f : TileRec → TileRec) : (c.modTile i f).sky = c.sky := rfl
@[simp] theorem Chip.modTile_lane (c : Chip) (i : Nat) (f : TileRec → TileRec) : (c.modTile i f).lane = c.lane := rfl
@[simp] theorem Chip.modTile_link (c : Chip) (i : Nat) (f : TileRec → TileRec) : (c.modTile i f).link = c.link := rfl
@[simp] theorem Chip.modTile_btl (c : Chip) (i : Nat) (f : TileRec → TileRec) : (c.modTile i f).btl = c.btl := rfl
@[simp] theorem Chip.modTile_unit (c : Chip) (i : Nat) (f : TileRec → TileRec) : (c.modTile i f).unit = c.unit := rfl
@[simp] theorem Chip.modTile_pool (c : Chip) (i : Nat) (f : TileRec → TileRec) : (c.modTile i f).pool = c.pool := rfl
@[simp] theorem Chip.modTile_read (c : Chip) (i : Nat) (f : TileRec → TileRec) : (c.modTile i f).read = c.read := rfl
@[simp] theorem Chip.modTile_burn (c : Chip) (i : Nat) (f : TileRec → TileRec) : (c.modTile i f).burn = c.burn := rfl
@[simp] theorem Chip.modTile_servo (c : Chip) (i : Nat) (f : TileRec → TileRec) : (c.modTile i f).servo = c.servo := rfl
@[simp] theorem Chip.modTile_spin (c : Chip) (i : Nat) (f : TileRec → TileRec) : (c.modTile i f).spin = c.spin := rfl
@[simp] theorem Chip.modTile_axis (c : Chip) (i : Nat) (f : TileRec → TileRec) : (c.modTile i f).axis = c.axis := rfl
@[simp] theorem Chip.modTile_cat (c : Chip) (i : Nat) (f : TileRec → TileRec) : (c.modTile i f).cat = c.cat := rfl
@[simp] theorem Chip.modTile_moss (c : Chip) (i : Nat) (f : TileRec → TileRec) : (c.modTile i f).moss = c.moss := rfl
@[simp] theorem Chip.modTile_buf (c : Chip) (i : Nat) (f : TileRec → TileRec) : (c.modTile i f).buf = c.buf := rfl
@[simp] theorem Chip.modTile_host (c : Chip) (i : Nat) (f : TileRec → TileRec) : (c.modTile i f).host = c.host := rfl
@[simp] theorem Chip.modTile_launches (c : Chip) (i : Nat) (f : TileRec → TileRec) : (c.modTile i f).launches = c.launches := rfl
@[simp] theorem Chip.modTile_trust (c : Chip) (i : Nat) (f : TileRec → TileRec) : (c.modTile i f).trust = c.trust := rfl
@[simp] theorem Chip.modTile_boot (c : Chip) (i : Nat) (f : TileRec → TileRec) : (c.modTile i f).boot = c.boot := rfl
@[simp] theorem Chip.modTile_power (c : Chip) (i : Nat) (f : TileRec → TileRec) : (c.modTile i f).power = c.power := rfl
@[simp] theorem Chip.modTile_scr (c : Chip) (i : Nat) (f : TileRec → TileRec) : (c.modTile i f).scr = c.scr := rfl
@[simp] theorem Chip.modTile_traceAt (c : Chip) (i : Nat) (f : TileRec → TileRec) : (c.modTile i f).traceAt = c.traceAt := rfl
@[simp] theorem Chip.modTile_svc (c : Chip) (i : Nat) (f : TileRec → TileRec) : (c.modTile i f).svc = c.svc := rfl
@[simp] theorem Chip.modTile_catSnaps (c : Chip) (i : Nat) (f : TileRec → TileRec) : (c.modTile i f).catSnaps = c.catSnaps := rfl

/-! ### modBuf -/
@[simp] theorem Chip.modBuf_now (c : Chip) (i : Nat) (f : BufferSt → BufferSt) : (c.modBuf i f).now = c.now := rfl
@[simp] theorem Chip.modBuf_flds (c : Chip) (i : Nat) (f : BufferSt → BufferSt) : (c.modBuf i f).flds = c.flds := rfl
@[simp] theorem Chip.modBuf_free (c : Chip) (i : Nat) (f : BufferSt → BufferSt) : (c.modBuf i f).free = c.free := rfl
@[simp] theorem Chip.modBuf_sent (c : Chip) (i : Nat) (f : BufferSt → BufferSt) : (c.modBuf i f).sent = c.sent := rfl
@[simp] theorem Chip.modBuf_ev (c : Chip) (i : Nat) (f : BufferSt → BufferSt) : (c.modBuf i f).ev = c.ev := rfl
@[simp] theorem Chip.modBuf_lichen (c : Chip) (i : Nat) (f : BufferSt → BufferSt) : (c.modBuf i f).lichen = c.lichen := rfl
@[simp] theorem Chip.modBuf_mgmt (c : Chip) (i : Nat) (f : BufferSt → BufferSt) : (c.modBuf i f).mgmt = c.mgmt := rfl
@[simp] theorem Chip.modBuf_clu (c : Chip) (i : Nat) (f : BufferSt → BufferSt) : (c.modBuf i f).clu = c.clu := rfl
@[simp] theorem Chip.modBuf_rgn (c : Chip) (i : Nat) (f : BufferSt → BufferSt) : (c.modBuf i f).rgn = c.rgn := rfl
@[simp] theorem Chip.modBuf_die (c : Chip) (i : Nat) (f : BufferSt → BufferSt) : (c.modBuf i f).die = c.die := rfl
@[simp] theorem Chip.modBuf_chain (c : Chip) (i : Nat) (f : BufferSt → BufferSt) : (c.modBuf i f).chain = c.chain := rfl
@[simp] theorem Chip.modBuf_sky (c : Chip) (i : Nat) (f : BufferSt → BufferSt) : (c.modBuf i f).sky = c.sky := rfl
@[simp] theorem Chip.modBuf_lane (c : Chip) (i : Nat) (f : BufferSt → BufferSt) : (c.modBuf i f).lane = c.lane := rfl
@[simp] theorem Chip.modBuf_link (c : Chip) (i : Nat) (f : BufferSt → BufferSt) : (c.modBuf i f).link = c.link := rfl
@[simp] theorem Chip.modBuf_btl (c : Chip) (i : Nat) (f : BufferSt → BufferSt) : (c.modBuf i f).btl = c.btl := rfl
@[simp] theorem Chip.modBuf_unit (c : Chip) (i : Nat) (f : BufferSt → BufferSt) : (c.modBuf i f).unit = c.unit := rfl
@[simp] theorem Chip.modBuf_pool (c : Chip) (i : Nat) (f : BufferSt → BufferSt) : (c.modBuf i f).pool = c.pool := rfl
@[simp] theorem Chip.modBuf_read (c : Chip) (i : Nat) (f : BufferSt → BufferSt) : (c.modBuf i f).read = c.read := rfl
@[simp] theorem Chip.modBuf_burn (c : Chip) (i : Nat) (f : BufferSt → BufferSt) : (c.modBuf i f).burn = c.burn := rfl
@[simp] theorem Chip.modBuf_servo (c : Chip) (i : Nat) (f : BufferSt → BufferSt) : (c.modBuf i f).servo = c.servo := rfl
@[simp] theorem Chip.modBuf_spin (c : Chip) (i : Nat) (f : BufferSt → BufferSt) : (c.modBuf i f).spin = c.spin := rfl
@[simp] theorem Chip.modBuf_axis (c : Chip) (i : Nat) (f : BufferSt → BufferSt) : (c.modBuf i f).axis = c.axis := rfl
@[simp] theorem Chip.modBuf_cat (c : Chip) (i : Nat) (f : BufferSt → BufferSt) : (c.modBuf i f).cat = c.cat := rfl
@[simp] theorem Chip.modBuf_moss (c : Chip) (i : Nat) (f : BufferSt → BufferSt) : (c.modBuf i f).moss = c.moss := rfl
@[simp] theorem Chip.modBuf_tiles (c : Chip) (i : Nat) (f : BufferSt → BufferSt) : (c.modBuf i f).tiles = c.tiles := rfl
@[simp] theorem Chip.modBuf_host (c : Chip) (i : Nat) (f : BufferSt → BufferSt) : (c.modBuf i f).host = c.host := rfl
@[simp] theorem Chip.modBuf_launches (c : Chip) (i : Nat) (f : BufferSt → BufferSt) : (c.modBuf i f).launches = c.launches := rfl
@[simp] theorem Chip.modBuf_trust (c : Chip) (i : Nat) (f : BufferSt → BufferSt) : (c.modBuf i f).trust = c.trust := rfl
@[simp] theorem Chip.modBuf_boot (c : Chip) (i : Nat) (f : BufferSt → BufferSt) : (c.modBuf i f).boot = c.boot := rfl
@[simp] theorem Chip.modBuf_power (c : Chip) (i : Nat) (f : BufferSt → BufferSt) : (c.modBuf i f).power = c.power := rfl
@[simp] theorem Chip.modBuf_scr (c : Chip) (i : Nat) (f : BufferSt → BufferSt) : (c.modBuf i f).scr = c.scr := rfl
@[simp] theorem Chip.modBuf_traceAt (c : Chip) (i : Nat) (f : BufferSt → BufferSt) : (c.modBuf i f).traceAt = c.traceAt := rfl
@[simp] theorem Chip.modBuf_svc (c : Chip) (i : Nat) (f : BufferSt → BufferSt) : (c.modBuf i f).svc = c.svc := rfl
@[simp] theorem Chip.modBuf_catSnaps (c : Chip) (i : Nat) (f : BufferSt → BufferSt) : (c.modBuf i f).catSnaps = c.catSnaps := rfl

/-! ### modBoot -/
@[simp] theorem Chip.modBoot_now (c : Chip) (i : Nat) (f : BootSt → BootSt) : (c.modBoot i f).now = c.now := rfl
@[simp] theorem Chip.modBoot_flds (c : Chip) (i : Nat) (f : BootSt → BootSt) : (c.modBoot i f).flds = c.flds := rfl
@[simp] theorem Chip.modBoot_free (c : Chip) (i : Nat) (f : BootSt → BootSt) : (c.modBoot i f).free = c.free := rfl
@[simp] theorem Chip.modBoot_sent (c : Chip) (i : Nat) (f : BootSt → BootSt) : (c.modBoot i f).sent = c.sent := rfl
@[simp] theorem Chip.modBoot_ev (c : Chip) (i : Nat) (f : BootSt → BootSt) : (c.modBoot i f).ev = c.ev := rfl
@[simp] theorem Chip.modBoot_lichen (c : Chip) (i : Nat) (f : BootSt → BootSt) : (c.modBoot i f).lichen = c.lichen := rfl
@[simp] theorem Chip.modBoot_mgmt (c : Chip) (i : Nat) (f : BootSt → BootSt) : (c.modBoot i f).mgmt = c.mgmt := rfl
@[simp] theorem Chip.modBoot_clu (c : Chip) (i : Nat) (f : BootSt → BootSt) : (c.modBoot i f).clu = c.clu := rfl
@[simp] theorem Chip.modBoot_rgn (c : Chip) (i : Nat) (f : BootSt → BootSt) : (c.modBoot i f).rgn = c.rgn := rfl
@[simp] theorem Chip.modBoot_die (c : Chip) (i : Nat) (f : BootSt → BootSt) : (c.modBoot i f).die = c.die := rfl
@[simp] theorem Chip.modBoot_chain (c : Chip) (i : Nat) (f : BootSt → BootSt) : (c.modBoot i f).chain = c.chain := rfl
@[simp] theorem Chip.modBoot_sky (c : Chip) (i : Nat) (f : BootSt → BootSt) : (c.modBoot i f).sky = c.sky := rfl
@[simp] theorem Chip.modBoot_lane (c : Chip) (i : Nat) (f : BootSt → BootSt) : (c.modBoot i f).lane = c.lane := rfl
@[simp] theorem Chip.modBoot_link (c : Chip) (i : Nat) (f : BootSt → BootSt) : (c.modBoot i f).link = c.link := rfl
@[simp] theorem Chip.modBoot_btl (c : Chip) (i : Nat) (f : BootSt → BootSt) : (c.modBoot i f).btl = c.btl := rfl
@[simp] theorem Chip.modBoot_unit (c : Chip) (i : Nat) (f : BootSt → BootSt) : (c.modBoot i f).unit = c.unit := rfl
@[simp] theorem Chip.modBoot_pool (c : Chip) (i : Nat) (f : BootSt → BootSt) : (c.modBoot i f).pool = c.pool := rfl
@[simp] theorem Chip.modBoot_read (c : Chip) (i : Nat) (f : BootSt → BootSt) : (c.modBoot i f).read = c.read := rfl
@[simp] theorem Chip.modBoot_burn (c : Chip) (i : Nat) (f : BootSt → BootSt) : (c.modBoot i f).burn = c.burn := rfl
@[simp] theorem Chip.modBoot_servo (c : Chip) (i : Nat) (f : BootSt → BootSt) : (c.modBoot i f).servo = c.servo := rfl
@[simp] theorem Chip.modBoot_spin (c : Chip) (i : Nat) (f : BootSt → BootSt) : (c.modBoot i f).spin = c.spin := rfl
@[simp] theorem Chip.modBoot_axis (c : Chip) (i : Nat) (f : BootSt → BootSt) : (c.modBoot i f).axis = c.axis := rfl
@[simp] theorem Chip.modBoot_cat (c : Chip) (i : Nat) (f : BootSt → BootSt) : (c.modBoot i f).cat = c.cat := rfl
@[simp] theorem Chip.modBoot_moss (c : Chip) (i : Nat) (f : BootSt → BootSt) : (c.modBoot i f).moss = c.moss := rfl
@[simp] theorem Chip.modBoot_tiles (c : Chip) (i : Nat) (f : BootSt → BootSt) : (c.modBoot i f).tiles = c.tiles := rfl
@[simp] theorem Chip.modBoot_buf (c : Chip) (i : Nat) (f : BootSt → BootSt) : (c.modBoot i f).buf = c.buf := rfl
@[simp] theorem Chip.modBoot_host (c : Chip) (i : Nat) (f : BootSt → BootSt) : (c.modBoot i f).host = c.host := rfl
@[simp] theorem Chip.modBoot_launches (c : Chip) (i : Nat) (f : BootSt → BootSt) : (c.modBoot i f).launches = c.launches := rfl
@[simp] theorem Chip.modBoot_trust (c : Chip) (i : Nat) (f : BootSt → BootSt) : (c.modBoot i f).trust = c.trust := rfl
@[simp] theorem Chip.modBoot_power (c : Chip) (i : Nat) (f : BootSt → BootSt) : (c.modBoot i f).power = c.power := rfl
@[simp] theorem Chip.modBoot_scr (c : Chip) (i : Nat) (f : BootSt → BootSt) : (c.modBoot i f).scr = c.scr := rfl
@[simp] theorem Chip.modBoot_traceAt (c : Chip) (i : Nat) (f : BootSt → BootSt) : (c.modBoot i f).traceAt = c.traceAt := rfl
@[simp] theorem Chip.modBoot_svc (c : Chip) (i : Nat) (f : BootSt → BootSt) : (c.modBoot i f).svc = c.svc := rfl
@[simp] theorem Chip.modBoot_catSnaps (c : Chip) (i : Nat) (f : BootSt → BootSt) : (c.modBoot i f).catSnaps = c.catSnaps := rfl

/-! ### modChain -/
@[simp] theorem Chip.modChain_now (c : Chip) (f : ChainSt → ChainSt) : (c.modChain f).now = c.now := rfl
@[simp] theorem Chip.modChain_flds (c : Chip) (f : ChainSt → ChainSt) : (c.modChain f).flds = c.flds := rfl
@[simp] theorem Chip.modChain_free (c : Chip) (f : ChainSt → ChainSt) : (c.modChain f).free = c.free := rfl
@[simp] theorem Chip.modChain_sent (c : Chip) (f : ChainSt → ChainSt) : (c.modChain f).sent = c.sent := rfl
@[simp] theorem Chip.modChain_ev (c : Chip) (f : ChainSt → ChainSt) : (c.modChain f).ev = c.ev := rfl
@[simp] theorem Chip.modChain_lichen (c : Chip) (f : ChainSt → ChainSt) : (c.modChain f).lichen = c.lichen := rfl
@[simp] theorem Chip.modChain_mgmt (c : Chip) (f : ChainSt → ChainSt) : (c.modChain f).mgmt = c.mgmt := rfl
@[simp] theorem Chip.modChain_clu (c : Chip) (f : ChainSt → ChainSt) : (c.modChain f).clu = c.clu := rfl
@[simp] theorem Chip.modChain_rgn (c : Chip) (f : ChainSt → ChainSt) : (c.modChain f).rgn = c.rgn := rfl
@[simp] theorem Chip.modChain_die (c : Chip) (f : ChainSt → ChainSt) : (c.modChain f).die = c.die := rfl
@[simp] theorem Chip.modChain_sky (c : Chip) (f : ChainSt → ChainSt) : (c.modChain f).sky = c.sky := rfl
@[simp] theorem Chip.modChain_lane (c : Chip) (f : ChainSt → ChainSt) : (c.modChain f).lane = c.lane := rfl
@[simp] theorem Chip.modChain_link (c : Chip) (f : ChainSt → ChainSt) : (c.modChain f).link = c.link := rfl
@[simp] theorem Chip.modChain_btl (c : Chip) (f : ChainSt → ChainSt) : (c.modChain f).btl = c.btl := rfl
@[simp] theorem Chip.modChain_unit (c : Chip) (f : ChainSt → ChainSt) : (c.modChain f).unit = c.unit := rfl
@[simp] theorem Chip.modChain_pool (c : Chip) (f : ChainSt → ChainSt) : (c.modChain f).pool = c.pool := rfl
@[simp] theorem Chip.modChain_read (c : Chip) (f : ChainSt → ChainSt) : (c.modChain f).read = c.read := rfl
@[simp] theorem Chip.modChain_burn (c : Chip) (f : ChainSt → ChainSt) : (c.modChain f).burn = c.burn := rfl
@[simp] theorem Chip.modChain_servo (c : Chip) (f : ChainSt → ChainSt) : (c.modChain f).servo = c.servo := rfl
@[simp] theorem Chip.modChain_spin (c : Chip) (f : ChainSt → ChainSt) : (c.modChain f).spin = c.spin := rfl
@[simp] theorem Chip.modChain_axis (c : Chip) (f : ChainSt → ChainSt) : (c.modChain f).axis = c.axis := rfl
@[simp] theorem Chip.modChain_cat (c : Chip) (f : ChainSt → ChainSt) : (c.modChain f).cat = c.cat := rfl
@[simp] theorem Chip.modChain_moss (c : Chip) (f : ChainSt → ChainSt) : (c.modChain f).moss = c.moss := rfl
@[simp] theorem Chip.modChain_tiles (c : Chip) (f : ChainSt → ChainSt) : (c.modChain f).tiles = c.tiles := rfl
@[simp] theorem Chip.modChain_buf (c : Chip) (f : ChainSt → ChainSt) : (c.modChain f).buf = c.buf := rfl
@[simp] theorem Chip.modChain_host (c : Chip) (f : ChainSt → ChainSt) : (c.modChain f).host = c.host := rfl
@[simp] theorem Chip.modChain_launches (c : Chip) (f : ChainSt → ChainSt) : (c.modChain f).launches = c.launches := rfl
@[simp] theorem Chip.modChain_trust (c : Chip) (f : ChainSt → ChainSt) : (c.modChain f).trust = c.trust := rfl
@[simp] theorem Chip.modChain_boot (c : Chip) (f : ChainSt → ChainSt) : (c.modChain f).boot = c.boot := rfl
@[simp] theorem Chip.modChain_power (c : Chip) (f : ChainSt → ChainSt) : (c.modChain f).power = c.power := rfl
@[simp] theorem Chip.modChain_scr (c : Chip) (f : ChainSt → ChainSt) : (c.modChain f).scr = c.scr := rfl
@[simp] theorem Chip.modChain_traceAt (c : Chip) (f : ChainSt → ChainSt) : (c.modChain f).traceAt = c.traceAt := rfl
@[simp] theorem Chip.modChain_svc (c : Chip) (f : ChainSt → ChainSt) : (c.modChain f).svc = c.svc := rfl
@[simp] theorem Chip.modChain_catSnaps (c : Chip) (f : ChainSt → ChainSt) : (c.modChain f).catSnaps = c.catSnaps := rfl

/-! ### modSky -/
@[simp] theorem Chip.modSky_now (c : Chip) (f : SkySt → SkySt) : (c.modSky f).now = c.now := rfl
@[simp] theorem Chip.modSky_flds (c : Chip) (f : SkySt → SkySt) : (c.modSky f).flds = c.flds := rfl
@[simp] theorem Chip.modSky_free (c : Chip) (f : SkySt → SkySt) : (c.modSky f).free = c.free := rfl
@[simp] theorem Chip.modSky_sent (c : Chip) (f : SkySt → SkySt) : (c.modSky f).sent = c.sent := rfl
@[simp] theorem Chip.modSky_ev (c : Chip) (f : SkySt → SkySt) : (c.modSky f).ev = c.ev := rfl
@[simp] theorem Chip.modSky_lichen (c : Chip) (f : SkySt → SkySt) : (c.modSky f).lichen = c.lichen := rfl
@[simp] theorem Chip.modSky_mgmt (c : Chip) (f : SkySt → SkySt) : (c.modSky f).mgmt = c.mgmt := rfl
@[simp] theorem Chip.modSky_clu (c : Chip) (f : SkySt → SkySt) : (c.modSky f).clu = c.clu := rfl
@[simp] theorem Chip.modSky_rgn (c : Chip) (f : SkySt → SkySt) : (c.modSky f).rgn = c.rgn := rfl
@[simp] theorem Chip.modSky_die (c : Chip) (f : SkySt → SkySt) : (c.modSky f).die = c.die := rfl
@[simp] theorem Chip.modSky_chain (c : Chip) (f : SkySt → SkySt) : (c.modSky f).chain = c.chain := rfl
@[simp] theorem Chip.modSky_lane (c : Chip) (f : SkySt → SkySt) : (c.modSky f).lane = c.lane := rfl
@[simp] theorem Chip.modSky_link (c : Chip) (f : SkySt → SkySt) : (c.modSky f).link = c.link := rfl
@[simp] theorem Chip.modSky_btl (c : Chip) (f : SkySt → SkySt) : (c.modSky f).btl = c.btl := rfl
@[simp] theorem Chip.modSky_unit (c : Chip) (f : SkySt → SkySt) : (c.modSky f).unit = c.unit := rfl
@[simp] theorem Chip.modSky_pool (c : Chip) (f : SkySt → SkySt) : (c.modSky f).pool = c.pool := rfl
@[simp] theorem Chip.modSky_read (c : Chip) (f : SkySt → SkySt) : (c.modSky f).read = c.read := rfl
@[simp] theorem Chip.modSky_burn (c : Chip) (f : SkySt → SkySt) : (c.modSky f).burn = c.burn := rfl
@[simp] theorem Chip.modSky_servo (c : Chip) (f : SkySt → SkySt) : (c.modSky f).servo = c.servo := rfl
@[simp] theorem Chip.modSky_spin (c : Chip) (f : SkySt → SkySt) : (c.modSky f).spin = c.spin := rfl
@[simp] theorem Chip.modSky_axis (c : Chip) (f : SkySt → SkySt) : (c.modSky f).axis = c.axis := rfl
@[simp] theorem Chip.modSky_cat (c : Chip) (f : SkySt → SkySt) : (c.modSky f).cat = c.cat := rfl
@[simp] theorem Chip.modSky_moss (c : Chip) (f : SkySt → SkySt) : (c.modSky f).moss = c.moss := rfl
@[simp] theorem Chip.modSky_tiles (c : Chip) (f : SkySt → SkySt) : (c.modSky f).tiles = c.tiles := rfl
@[simp] theorem Chip.modSky_buf (c : Chip) (f : SkySt → SkySt) : (c.modSky f).buf = c.buf := rfl
@[simp] theorem Chip.modSky_host (c : Chip) (f : SkySt → SkySt) : (c.modSky f).host = c.host := rfl
@[simp] theorem Chip.modSky_launches (c : Chip) (f : SkySt → SkySt) : (c.modSky f).launches = c.launches := rfl
@[simp] theorem Chip.modSky_trust (c : Chip) (f : SkySt → SkySt) : (c.modSky f).trust = c.trust := rfl
@[simp] theorem Chip.modSky_boot (c : Chip) (f : SkySt → SkySt) : (c.modSky f).boot = c.boot := rfl
@[simp] theorem Chip.modSky_power (c : Chip) (f : SkySt → SkySt) : (c.modSky f).power = c.power := rfl
@[simp] theorem Chip.modSky_scr (c : Chip) (f : SkySt → SkySt) : (c.modSky f).scr = c.scr := rfl
@[simp] theorem Chip.modSky_traceAt (c : Chip) (f : SkySt → SkySt) : (c.modSky f).traceAt = c.traceAt := rfl
@[simp] theorem Chip.modSky_svc (c : Chip) (f : SkySt → SkySt) : (c.modSky f).svc = c.svc := rfl
@[simp] theorem Chip.modSky_catSnaps (c : Chip) (f : SkySt → SkySt) : (c.modSky f).catSnaps = c.catSnaps := rfl

/-! ### modCat -/
@[simp] theorem Chip.modCat_now (c : Chip) (f : CatSt → CatSt) : (c.modCat f).now = c.now := rfl
@[simp] theorem Chip.modCat_flds (c : Chip) (f : CatSt → CatSt) : (c.modCat f).flds = c.flds := rfl
@[simp] theorem Chip.modCat_free (c : Chip) (f : CatSt → CatSt) : (c.modCat f).free = c.free := rfl
@[simp] theorem Chip.modCat_sent (c : Chip) (f : CatSt → CatSt) : (c.modCat f).sent = c.sent := rfl
@[simp] theorem Chip.modCat_ev (c : Chip) (f : CatSt → CatSt) : (c.modCat f).ev = c.ev := rfl
@[simp] theorem Chip.modCat_lichen (c : Chip) (f : CatSt → CatSt) : (c.modCat f).lichen = c.lichen := rfl
@[simp] theorem Chip.modCat_mgmt (c : Chip) (f : CatSt → CatSt) : (c.modCat f).mgmt = c.mgmt := rfl
@[simp] theorem Chip.modCat_clu (c : Chip) (f : CatSt → CatSt) : (c.modCat f).clu = c.clu := rfl
@[simp] theorem Chip.modCat_rgn (c : Chip) (f : CatSt → CatSt) : (c.modCat f).rgn = c.rgn := rfl
@[simp] theorem Chip.modCat_die (c : Chip) (f : CatSt → CatSt) : (c.modCat f).die = c.die := rfl
@[simp] theorem Chip.modCat_chain (c : Chip) (f : CatSt → CatSt) : (c.modCat f).chain = c.chain := rfl
@[simp] theorem Chip.modCat_sky (c : Chip) (f : CatSt → CatSt) : (c.modCat f).sky = c.sky := rfl
@[simp] theorem Chip.modCat_lane (c : Chip) (f : CatSt → CatSt) : (c.modCat f).lane = c.lane := rfl
@[simp] theorem Chip.modCat_link (c : Chip) (f : CatSt → CatSt) : (c.modCat f).link = c.link := rfl
@[simp] theorem Chip.modCat_btl (c : Chip) (f : CatSt → CatSt) : (c.modCat f).btl = c.btl := rfl
@[simp] theorem Chip.modCat_unit (c : Chip) (f : CatSt → CatSt) : (c.modCat f).unit = c.unit := rfl
@[simp] theorem Chip.modCat_pool (c : Chip) (f : CatSt → CatSt) : (c.modCat f).pool = c.pool := rfl
@[simp] theorem Chip.modCat_read (c : Chip) (f : CatSt → CatSt) : (c.modCat f).read = c.read := rfl
@[simp] theorem Chip.modCat_burn (c : Chip) (f : CatSt → CatSt) : (c.modCat f).burn = c.burn := rfl
@[simp] theorem Chip.modCat_servo (c : Chip) (f : CatSt → CatSt) : (c.modCat f).servo = c.servo := rfl
@[simp] theorem Chip.modCat_spin (c : Chip) (f : CatSt → CatSt) : (c.modCat f).spin = c.spin := rfl
@[simp] theorem Chip.modCat_axis (c : Chip) (f : CatSt → CatSt) : (c.modCat f).axis = c.axis := rfl
@[simp] theorem Chip.modCat_moss (c : Chip) (f : CatSt → CatSt) : (c.modCat f).moss = c.moss := rfl
@[simp] theorem Chip.modCat_tiles (c : Chip) (f : CatSt → CatSt) : (c.modCat f).tiles = c.tiles := rfl
@[simp] theorem Chip.modCat_buf (c : Chip) (f : CatSt → CatSt) : (c.modCat f).buf = c.buf := rfl
@[simp] theorem Chip.modCat_host (c : Chip) (f : CatSt → CatSt) : (c.modCat f).host = c.host := rfl
@[simp] theorem Chip.modCat_launches (c : Chip) (f : CatSt → CatSt) : (c.modCat f).launches = c.launches := rfl
@[simp] theorem Chip.modCat_trust (c : Chip) (f : CatSt → CatSt) : (c.modCat f).trust = c.trust := rfl
@[simp] theorem Chip.modCat_boot (c : Chip) (f : CatSt → CatSt) : (c.modCat f).boot = c.boot := rfl
@[simp] theorem Chip.modCat_power (c : Chip) (f : CatSt → CatSt) : (c.modCat f).power = c.power := rfl
@[simp] theorem Chip.modCat_scr (c : Chip) (f : CatSt → CatSt) : (c.modCat f).scr = c.scr := rfl
@[simp] theorem Chip.modCat_traceAt (c : Chip) (f : CatSt → CatSt) : (c.modCat f).traceAt = c.traceAt := rfl
@[simp] theorem Chip.modCat_svc (c : Chip) (f : CatSt → CatSt) : (c.modCat f).svc = c.svc := rfl
@[simp] theorem Chip.modCat_catSnaps (c : Chip) (f : CatSt → CatSt) : (c.modCat f).catSnaps = c.catSnaps := rfl

/-! ### modMoss -/
@[simp] theorem Chip.modMoss_now (c : Chip) (f : MossSt → MossSt) : (c.modMoss f).now = c.now := rfl
@[simp] theorem Chip.modMoss_flds (c : Chip) (f : MossSt → MossSt) : (c.modMoss f).flds = c.flds := rfl
@[simp] theorem Chip.modMoss_free (c : Chip) (f : MossSt → MossSt) : (c.modMoss f).free = c.free := rfl
@[simp] theorem Chip.modMoss_sent (c : Chip) (f : MossSt → MossSt) : (c.modMoss f).sent = c.sent := rfl
@[simp] theorem Chip.modMoss_ev (c : Chip) (f : MossSt → MossSt) : (c.modMoss f).ev = c.ev := rfl
@[simp] theorem Chip.modMoss_lichen (c : Chip) (f : MossSt → MossSt) : (c.modMoss f).lichen = c.lichen := rfl
@[simp] theorem Chip.modMoss_mgmt (c : Chip) (f : MossSt → MossSt) : (c.modMoss f).mgmt = c.mgmt := rfl
@[simp] theorem Chip.modMoss_clu (c : Chip) (f : MossSt → MossSt) : (c.modMoss f).clu = c.clu := rfl
@[simp] theorem Chip.modMoss_rgn (c : Chip) (f : MossSt → MossSt) : (c.modMoss f).rgn = c.rgn := rfl
@[simp] theorem Chip.modMoss_die (c : Chip) (f : MossSt → MossSt) : (c.modMoss f).die = c.die := rfl
@[simp] theorem Chip.modMoss_chain (c : Chip) (f : MossSt → MossSt) : (c.modMoss f).chain = c.chain := rfl
@[simp] theorem Chip.modMoss_sky (c : Chip) (f : MossSt → MossSt) : (c.modMoss f).sky = c.sky := rfl
@[simp] theorem Chip.modMoss_lane (c : Chip) (f : MossSt → MossSt) : (c.modMoss f).lane = c.lane := rfl
@[simp] theorem Chip.modMoss_link (c : Chip) (f : MossSt → MossSt) : (c.modMoss f).link = c.link := rfl
@[simp] theorem Chip.modMoss_btl (c : Chip) (f : MossSt → MossSt) : (c.modMoss f).btl = c.btl := rfl
@[simp] theorem Chip.modMoss_unit (c : Chip) (f : MossSt → MossSt) : (c.modMoss f).unit = c.unit := rfl
@[simp] theorem Chip.modMoss_pool (c : Chip) (f : MossSt → MossSt) : (c.modMoss f).pool = c.pool := rfl
@[simp] theorem Chip.modMoss_read (c : Chip) (f : MossSt → MossSt) : (c.modMoss f).read = c.read := rfl
@[simp] theorem Chip.modMoss_burn (c : Chip) (f : MossSt → MossSt) : (c.modMoss f).burn = c.burn := rfl
@[simp] theorem Chip.modMoss_servo (c : Chip) (f : MossSt → MossSt) : (c.modMoss f).servo = c.servo := rfl
@[simp] theorem Chip.modMoss_spin (c : Chip) (f : MossSt → MossSt) : (c.modMoss f).spin = c.spin := rfl
@[simp] theorem Chip.modMoss_axis (c : Chip) (f : MossSt → MossSt) : (c.modMoss f).axis = c.axis := rfl
@[simp] theorem Chip.modMoss_cat (c : Chip) (f : MossSt → MossSt) : (c.modMoss f).cat = c.cat := rfl
@[simp] theorem Chip.modMoss_tiles (c : Chip) (f : MossSt → MossSt) : (c.modMoss f).tiles = c.tiles := rfl
@[simp] theorem Chip.modMoss_buf (c : Chip) (f : MossSt → MossSt) : (c.modMoss f).buf = c.buf := rfl
@[simp] theorem Chip.modMoss_host (c : Chip) (f : MossSt → MossSt) : (c.modMoss f).host = c.host := rfl
@[simp] theorem Chip.modMoss_launches (c : Chip) (f : MossSt → MossSt) : (c.modMoss f).launches = c.launches := rfl
@[simp] theorem Chip.modMoss_trust (c : Chip) (f : MossSt → MossSt) : (c.modMoss f).trust = c.trust := rfl
@[simp] theorem Chip.modMoss_boot (c : Chip) (f : MossSt → MossSt) : (c.modMoss f).boot = c.boot := rfl
@[simp] theorem Chip.modMoss_power (c : Chip) (f : MossSt → MossSt) : (c.modMoss f).power = c.power := rfl
@[simp] theorem Chip.modMoss_scr (c : Chip) (f : MossSt → MossSt) : (c.modMoss f).scr = c.scr := rfl
@[simp] theorem Chip.modMoss_traceAt (c : Chip) (f : MossSt → MossSt) : (c.modMoss f).traceAt = c.traceAt := rfl
@[simp] theorem Chip.modMoss_svc (c : Chip) (f : MossSt → MossSt) : (c.modMoss f).svc = c.svc := rfl
@[simp] theorem Chip.modMoss_catSnaps (c : Chip) (f : MossSt → MossSt) : (c.modMoss f).catSnaps = c.catSnaps := rfl

/-! ### modHost -/
@[simp] theorem Chip.modHost_now (c : Chip) (f : HostSt → HostSt) : (c.modHost f).now = c.now := rfl
@[simp] theorem Chip.modHost_flds (c : Chip) (f : HostSt → HostSt) : (c.modHost f).flds = c.flds := rfl
@[simp] theorem Chip.modHost_free (c : Chip) (f : HostSt → HostSt) : (c.modHost f).free = c.free := rfl
@[simp] theorem Chip.modHost_sent (c : Chip) (f : HostSt → HostSt) : (c.modHost f).sent = c.sent := rfl
@[simp] theorem Chip.modHost_ev (c : Chip) (f : HostSt → HostSt) : (c.modHost f).ev = c.ev := rfl
@[simp] theorem Chip.modHost_lichen (c : Chip) (f : HostSt → HostSt) : (c.modHost f).lichen = c.lichen := rfl
@[simp] theorem Chip.modHost_mgmt (c : Chip) (f : HostSt → HostSt) : (c.modHost f).mgmt = c.mgmt := rfl
@[simp] theorem Chip.modHost_clu (c : Chip) (f : HostSt → HostSt) : (c.modHost f).clu = c.clu := rfl
@[simp] theorem Chip.modHost_rgn (c : Chip) (f : HostSt → HostSt) : (c.modHost f).rgn = c.rgn := rfl
@[simp] theorem Chip.modHost_die (c : Chip) (f : HostSt → HostSt) : (c.modHost f).die = c.die := rfl
@[simp] theorem Chip.modHost_chain (c : Chip) (f : HostSt → HostSt) : (c.modHost f).chain = c.chain := rfl
@[simp] theorem Chip.modHost_sky (c : Chip) (f : HostSt → HostSt) : (c.modHost f).sky = c.sky := rfl
@[simp] theorem Chip.modHost_lane (c : Chip) (f : HostSt → HostSt) : (c.modHost f).lane = c.lane := rfl
@[simp] theorem Chip.modHost_link (c : Chip) (f : HostSt → HostSt) : (c.modHost f).link = c.link := rfl
@[simp] theorem Chip.modHost_btl (c : Chip) (f : HostSt → HostSt) : (c.modHost f).btl = c.btl := rfl
@[simp] theorem Chip.modHost_unit (c : Chip) (f : HostSt → HostSt) : (c.modHost f).unit = c.unit := rfl
@[simp] theorem Chip.modHost_pool (c : Chip) (f : HostSt → HostSt) : (c.modHost f).pool = c.pool := rfl
@[simp] theorem Chip.modHost_read (c : Chip) (f : HostSt → HostSt) : (c.modHost f).read = c.read := rfl
@[simp] theorem Chip.modHost_burn (c : Chip) (f : HostSt → HostSt) : (c.modHost f).burn = c.burn := rfl
@[simp] theorem Chip.modHost_servo (c : Chip) (f : HostSt → HostSt) : (c.modHost f).servo = c.servo := rfl
@[simp] theorem Chip.modHost_spin (c : Chip) (f : HostSt → HostSt) : (c.modHost f).spin = c.spin := rfl
@[simp] theorem Chip.modHost_axis (c : Chip) (f : HostSt → HostSt) : (c.modHost f).axis = c.axis := rfl
@[simp] theorem Chip.modHost_cat (c : Chip) (f : HostSt → HostSt) : (c.modHost f).cat = c.cat := rfl
@[simp] theorem Chip.modHost_moss (c : Chip) (f : HostSt → HostSt) : (c.modHost f).moss = c.moss := rfl
@[simp] theorem Chip.modHost_tiles (c : Chip) (f : HostSt → HostSt) : (c.modHost f).tiles = c.tiles := rfl
@[simp] theorem Chip.modHost_buf (c : Chip) (f : HostSt → HostSt) : (c.modHost f).buf = c.buf := rfl
@[simp] theorem Chip.modHost_launches (c : Chip) (f : HostSt → HostSt) : (c.modHost f).launches = c.launches := rfl
@[simp] theorem Chip.modHost_trust (c : Chip) (f : HostSt → HostSt) : (c.modHost f).trust = c.trust := rfl
@[simp] theorem Chip.modHost_boot (c : Chip) (f : HostSt → HostSt) : (c.modHost f).boot = c.boot := rfl
@[simp] theorem Chip.modHost_power (c : Chip) (f : HostSt → HostSt) : (c.modHost f).power = c.power := rfl
@[simp] theorem Chip.modHost_scr (c : Chip) (f : HostSt → HostSt) : (c.modHost f).scr = c.scr := rfl
@[simp] theorem Chip.modHost_traceAt (c : Chip) (f : HostSt → HostSt) : (c.modHost f).traceAt = c.traceAt := rfl
@[simp] theorem Chip.modHost_svc (c : Chip) (f : HostSt → HostSt) : (c.modHost f).svc = c.svc := rfl
@[simp] theorem Chip.modHost_catSnaps (c : Chip) (f : HostSt → HostSt) : (c.modHost f).catSnaps = c.catSnaps := rfl

/-! ### modTrust -/
@[simp] theorem Chip.modTrust_now (c : Chip) (f : TrustSt → TrustSt) : (c.modTrust f).now = c.now := rfl
@[simp] theorem Chip.modTrust_flds (c : Chip) (f : TrustSt → TrustSt) : (c.modTrust f).flds = c.flds := rfl
@[simp] theorem Chip.modTrust_free (c : Chip) (f : TrustSt → TrustSt) : (c.modTrust f).free = c.free := rfl
@[simp] theorem Chip.modTrust_sent (c : Chip) (f : TrustSt → TrustSt) : (c.modTrust f).sent = c.sent := rfl
@[simp] theorem Chip.modTrust_ev (c : Chip) (f : TrustSt → TrustSt) : (c.modTrust f).ev = c.ev := rfl
@[simp] theorem Chip.modTrust_lichen (c : Chip) (f : TrustSt → TrustSt) : (c.modTrust f).lichen = c.lichen := rfl
@[simp] theorem Chip.modTrust_mgmt (c : Chip) (f : TrustSt → TrustSt) : (c.modTrust f).mgmt = c.mgmt := rfl
@[simp] theorem Chip.modTrust_clu (c : Chip) (f : TrustSt → TrustSt) : (c.modTrust f).clu = c.clu := rfl
@[simp] theorem Chip.modTrust_rgn (c : Chip) (f : TrustSt → TrustSt) : (c.modTrust f).rgn = c.rgn := rfl
@[simp] theorem Chip.modTrust_die (c : Chip) (f : TrustSt → TrustSt) : (c.modTrust f).die = c.die := rfl
@[simp] theorem Chip.modTrust_chain (c : Chip) (f : TrustSt → TrustSt) : (c.modTrust f).chain = c.chain := rfl
@[simp] theorem Chip.modTrust_sky (c : Chip) (f : TrustSt → TrustSt) : (c.modTrust f).sky = c.sky := rfl
@[simp] theorem Chip.modTrust_lane (c : Chip) (f : TrustSt → TrustSt) : (c.modTrust f).lane = c.lane := rfl
@[simp] theorem Chip.modTrust_link (c : Chip) (f : TrustSt → TrustSt) : (c.modTrust f).link = c.link := rfl
@[simp] theorem Chip.modTrust_btl (c : Chip) (f : TrustSt → TrustSt) : (c.modTrust f).btl = c.btl := rfl
@[simp] theorem Chip.modTrust_unit (c : Chip) (f : TrustSt → TrustSt) : (c.modTrust f).unit = c.unit := rfl
@[simp] theorem Chip.modTrust_pool (c : Chip) (f : TrustSt → TrustSt) : (c.modTrust f).pool = c.pool := rfl
@[simp] theorem Chip.modTrust_read (c : Chip) (f : TrustSt → TrustSt) : (c.modTrust f).read = c.read := rfl
@[simp] theorem Chip.modTrust_burn (c : Chip) (f : TrustSt → TrustSt) : (c.modTrust f).burn = c.burn := rfl
@[simp] theorem Chip.modTrust_servo (c : Chip) (f : TrustSt → TrustSt) : (c.modTrust f).servo = c.servo := rfl
@[simp] theorem Chip.modTrust_spin (c : Chip) (f : TrustSt → TrustSt) : (c.modTrust f).spin = c.spin := rfl
@[simp] theorem Chip.modTrust_axis (c : Chip) (f : TrustSt → TrustSt) : (c.modTrust f).axis = c.axis := rfl
@[simp] theorem Chip.modTrust_cat (c : Chip) (f : TrustSt → TrustSt) : (c.modTrust f).cat = c.cat := rfl
@[simp] theorem Chip.modTrust_moss (c : Chip) (f : TrustSt → TrustSt) : (c.modTrust f).moss = c.moss := rfl
@[simp] theorem Chip.modTrust_tiles (c : Chip) (f : TrustSt → TrustSt) : (c.modTrust f).tiles = c.tiles := rfl
@[simp] theorem Chip.modTrust_buf (c : Chip) (f : TrustSt → TrustSt) : (c.modTrust f).buf = c.buf := rfl
@[simp] theorem Chip.modTrust_host (c : Chip) (f : TrustSt → TrustSt) : (c.modTrust f).host = c.host := rfl
@[simp] theorem Chip.modTrust_launches (c : Chip) (f : TrustSt → TrustSt) : (c.modTrust f).launches = c.launches := rfl
@[simp] theorem Chip.modTrust_boot (c : Chip) (f : TrustSt → TrustSt) : (c.modTrust f).boot = c.boot := rfl
@[simp] theorem Chip.modTrust_power (c : Chip) (f : TrustSt → TrustSt) : (c.modTrust f).power = c.power := rfl
@[simp] theorem Chip.modTrust_scr (c : Chip) (f : TrustSt → TrustSt) : (c.modTrust f).scr = c.scr := rfl
@[simp] theorem Chip.modTrust_traceAt (c : Chip) (f : TrustSt → TrustSt) : (c.modTrust f).traceAt = c.traceAt := rfl
@[simp] theorem Chip.modTrust_svc (c : Chip) (f : TrustSt → TrustSt) : (c.modTrust f).svc = c.svc := rfl
@[simp] theorem Chip.modTrust_catSnaps (c : Chip) (f : TrustSt → TrustSt) : (c.modTrust f).catSnaps = c.catSnaps := rfl

/-! ### modPower -/
@[simp] theorem Chip.modPower_now (c : Chip) (f : PowerSt → PowerSt) : (c.modPower f).now = c.now := rfl
@[simp] theorem Chip.modPower_flds (c : Chip) (f : PowerSt → PowerSt) : (c.modPower f).flds = c.flds := rfl
@[simp] theorem Chip.modPower_free (c : Chip) (f : PowerSt → PowerSt) : (c.modPower f).free = c.free := rfl
@[simp] theorem Chip.modPower_sent (c : Chip) (f : PowerSt → PowerSt) : (c.modPower f).sent = c.sent := rfl
@[simp] theorem Chip.modPower_ev (c : Chip) (f : PowerSt → PowerSt) : (c.modPower f).ev = c.ev := rfl
@[simp] theorem Chip.modPower_lichen (c : Chip) (f : PowerSt → PowerSt) : (c.modPower f).lichen = c.lichen := rfl
@[simp] theorem Chip.modPower_mgmt (c : Chip) (f : PowerSt → PowerSt) : (c.modPower f).mgmt = c.mgmt := rfl
@[simp] theorem Chip.modPower_clu (c : Chip) (f : PowerSt → PowerSt) : (c.modPower f).clu = c.clu := rfl
@[simp] theorem Chip.modPower_rgn (c : Chip) (f : PowerSt → PowerSt) : (c.modPower f).rgn = c.rgn := rfl
@[simp] theorem Chip.modPower_die (c : Chip) (f : PowerSt → PowerSt) : (c.modPower f).die = c.die := rfl
@[simp] theorem Chip.modPower_chain (c : Chip) (f : PowerSt → PowerSt) : (c.modPower f).chain = c.chain := rfl
@[simp] theorem Chip.modPower_sky (c : Chip) (f : PowerSt → PowerSt) : (c.modPower f).sky = c.sky := rfl
@[simp] theorem Chip.modPower_lane (c : Chip) (f : PowerSt → PowerSt) : (c.modPower f).lane = c.lane := rfl
@[simp] theorem Chip.modPower_link (c : Chip) (f : PowerSt → PowerSt) : (c.modPower f).link = c.link := rfl
@[simp] theorem Chip.modPower_btl (c : Chip) (f : PowerSt → PowerSt) : (c.modPower f).btl = c.btl := rfl
@[simp] theorem Chip.modPower_unit (c : Chip) (f : PowerSt → PowerSt) : (c.modPower f).unit = c.unit := rfl
@[simp] theorem Chip.modPower_pool (c : Chip) (f : PowerSt → PowerSt) : (c.modPower f).pool = c.pool := rfl
@[simp] theorem Chip.modPower_read (c : Chip) (f : PowerSt → PowerSt) : (c.modPower f).read = c.read := rfl
@[simp] theorem Chip.modPower_burn (c : Chip) (f : PowerSt → PowerSt) : (c.modPower f).burn = c.burn := rfl
@[simp] theorem Chip.modPower_servo (c : Chip) (f : PowerSt → PowerSt) : (c.modPower f).servo = c.servo := rfl
@[simp] theorem Chip.modPower_spin (c : Chip) (f : PowerSt → PowerSt) : (c.modPower f).spin = c.spin := rfl
@[simp] theorem Chip.modPower_axis (c : Chip) (f : PowerSt → PowerSt) : (c.modPower f).axis = c.axis := rfl
@[simp] theorem Chip.modPower_cat (c : Chip) (f : PowerSt → PowerSt) : (c.modPower f).cat = c.cat := rfl
@[simp] theorem Chip.modPower_moss (c : Chip) (f : PowerSt → PowerSt) : (c.modPower f).moss = c.moss := rfl
@[simp] theorem Chip.modPower_tiles (c : Chip) (f : PowerSt → PowerSt) : (c.modPower f).tiles = c.tiles := rfl
@[simp] theorem Chip.modPower_buf (c : Chip) (f : PowerSt → PowerSt) : (c.modPower f).buf = c.buf := rfl
@[simp] theorem Chip.modPower_host (c : Chip) (f : PowerSt → PowerSt) : (c.modPower f).host = c.host := rfl
@[simp] theorem Chip.modPower_launches (c : Chip) (f : PowerSt → PowerSt) : (c.modPower f).launches = c.launches := rfl
@[simp] theorem Chip.modPower_trust (c : Chip) (f : PowerSt → PowerSt) : (c.modPower f).trust = c.trust := rfl
@[simp] theorem Chip.modPower_boot (c : Chip) (f : PowerSt → PowerSt) : (c.modPower f).boot = c.boot := rfl
@[simp] theorem Chip.modPower_scr (c : Chip) (f : PowerSt → PowerSt) : (c.modPower f).scr = c.scr := rfl
@[simp] theorem Chip.modPower_traceAt (c : Chip) (f : PowerSt → PowerSt) : (c.modPower f).traceAt = c.traceAt := rfl
@[simp] theorem Chip.modPower_svc (c : Chip) (f : PowerSt → PowerSt) : (c.modPower f).svc = c.svc := rfl
@[simp] theorem Chip.modPower_catSnaps (c : Chip) (f : PowerSt → PowerSt) : (c.modPower f).catSnaps = c.catSnaps := rfl

/-! ### A changed entry, and the entries beside it -/
@[simp] theorem Chip.emit_sent (c : Chip) (o : Out) : (c.emit o).sent = c.sent ++ [o] := rfl
@[simp] theorem Chip.modClu_cluSt_same (c : Chip) (i : Nat) (f : Held → Held) : (c.modClu i f).cluSt i = f (c.cluSt i) := tabGet_mod_same _ _ _
theorem Chip.modClu_cluSt_ne (c : Chip) {i j : Nat} (f : Held → Held) (h : j ≠ i) : (c.modClu i f).cluSt j = c.cluSt j := tabGet_mod_ne _ _ h
@[simp] theorem Chip.modRgn_rgnSt_same (c : Chip) (i : Nat) (f : RegionLevel → RegionLevel) : (c.modRgn i f).rgnSt i = f (c.rgnSt i) := tabGet_mod_same _ _ _
theorem Chip.modRgn_rgnSt_ne (c : Chip) {i j : Nat} (f : RegionLevel → RegionLevel) (h : j ≠ i) : (c.modRgn i f).rgnSt j = c.rgnSt j := tabGet_mod_ne _ _ h
@[simp] theorem Chip.modDie_dieSt_same (c : Chip) (i : Nat) (f : DieLevel → DieLevel) : (c.modDie i f).dieSt i = f (c.dieSt i) := tabGet_mod_same _ _ _
theorem Chip.modDie_dieSt_ne (c : Chip) {i j : Nat} (f : DieLevel → DieLevel) (h : j ≠ i) : (c.modDie i f).dieSt j = c.dieSt j := tabGet_mod_ne _ _ h
@[simp] theorem Chip.modLane_laneSt_same (c : Chip) (i : Nat) (f : LaneSt → LaneSt) : (c.modLane i f).laneSt i = f (c.laneSt i) := tabGet_mod_same _ _ _
theorem Chip.modLane_laneSt_ne (c : Chip) {i j : Nat} (f : LaneSt → LaneSt) (h : j ≠ i) : (c.modLane i f).laneSt j = c.laneSt j := tabGet_mod_ne _ _ h
@[simp] theorem Chip.modLink_linkSt_same (c : Chip) (i : Nat) (f : LinkSt → LinkSt) : (c.modLink i f).linkSt i = f (c.linkSt i) := tabGet_mod_same _ _ _
theorem Chip.modLink_linkSt_ne (c : Chip) {i j : Nat} (f : LinkSt → LinkSt) (h : j ≠ i) : (c.modLink i f).linkSt j = c.linkSt j := tabGet_mod_ne _ _ h
@[simp] theorem Chip.modBtl_btlSt_same (c : Chip) (i : Nat) (f : BtlSt → BtlSt) : (c.modBtl i f).btlSt i = f (c.btlSt i) := tabGet_mod_same _ _ _
theorem Chip.modBtl_btlSt_ne (c : Chip) {i j : Nat} (f : BtlSt → BtlSt) (h : j ≠ i) : (c.modBtl i f).btlSt j = c.btlSt j := tabGet_mod_ne _ _ h
@[simp] theorem Chip.modUnit_unitSt_same (c : Chip) (i : Nat) (f : UnitSt → UnitSt) : (c.modUnit i f).unitSt i = f (c.unitSt i) := tabGet_mod_same _ _ _
theorem Chip.modUnit_unitSt_ne (c : Chip) {i j : Nat} (f : UnitSt → UnitSt) (h : j ≠ i) : (c.modUnit i f).unitSt j = c.unitSt j := tabGet_mod_ne _ _ h
@[simp] theorem Chip.modPool_poolSt_same (c : Chip) (i : Nat) (f : PoolSt → PoolSt) : (c.modPool i f).poolSt i = f (c.poolSt i) := tabGet_mod_same _ _ _
theorem Chip.modPool_poolSt_ne (c : Chip) {i j : Nat} (f : PoolSt → PoolSt) (h : j ≠ i) : (c.modPool i f).poolSt j = c.poolSt j := tabGet_mod_ne _ _ h
@[simp] theorem Chip.modRead_readSt_same (c : Chip) (i : Nat) (f : ReadSt → ReadSt) : (c.modRead i f).readSt i = f (c.readSt i) := tabGet_mod_same _ _ _
theorem Chip.modRead_readSt_ne (c : Chip) {i j : Nat} (f : ReadSt → ReadSt) (h : j ≠ i) : (c.modRead i f).readSt j = c.readSt j := tabGet_mod_ne _ _ h
@[simp] theorem Chip.modBurn_burnSt_same (c : Chip) (i : Nat) (f : BurnSt → BurnSt) : (c.modBurn i f).burnSt i = f (c.burnSt i) := tabGet_mod_same _ _ _
theorem Chip.modBurn_burnSt_ne (c : Chip) {i j : Nat} (f : BurnSt → BurnSt) (h : j ≠ i) : (c.modBurn i f).burnSt j = c.burnSt j := tabGet_mod_ne _ _ h
@[simp] theorem Chip.modServo_servoSt_same (c : Chip) (i : Nat) (f : ServoSt → ServoSt) : (c.modServo i f).servoSt i = f (c.servoSt i) := tabGet_mod_same _ _ _
theorem Chip.modServo_servoSt_ne (c : Chip) {i j : Nat} (f : ServoSt → ServoSt) (h : j ≠ i) : (c.modServo i f).servoSt j = c.servoSt j := tabGet_mod_ne _ _ h
@[simp] theorem Chip.modSpin_spinSt_same (c : Chip) (i : Nat) (f : SpinSt → SpinSt) : (c.modSpin i f).spinSt i = f (c.spinSt i) := tabGet_mod_same _ _ _
theorem Chip.modSpin_spinSt_ne (c : Chip) {i j : Nat} (f : SpinSt → SpinSt) (h : j ≠ i) : (c.modSpin i f).spinSt j = c.spinSt j := tabGet_mod_ne _ _ h
@[simp] theorem Chip.modAxis_axisSt_same (c : Chip) (i : Nat) (f : AxisSt → AxisSt) : (c.modAxis i f).axisSt i = f (c.axisSt i) := tabGet_mod_same _ _ _
theorem Chip.modAxis_axisSt_ne (c : Chip) {i j : Nat} (f : AxisSt → AxisSt) (h : j ≠ i) : (c.modAxis i f).axisSt j = c.axisSt j := tabGet_mod_ne _ _ h
@[simp] theorem Chip.modTile_tileSt_same (c : Chip) (i : Nat) (f : TileRec → TileRec) : (c.modTile i f).tileSt i = f (c.tileSt i) := tabGet_mod_same _ _ _
theorem Chip.modTile_tileSt_ne (c : Chip) {i j : Nat} (f : TileRec → TileRec) (h : j ≠ i) : (c.modTile i f).tileSt j = c.tileSt j := tabGet_mod_ne _ _ h
@[simp] theorem Chip.modBuf_bufSt_same (c : Chip) (i : Nat) (f : BufferSt → BufferSt) : (c.modBuf i f).bufSt i = f (c.bufSt i) := tabGet_mod_same _ _ _
theorem Chip.modBuf_bufSt_ne (c : Chip) {i j : Nat} (f : BufferSt → BufferSt) (h : j ≠ i) : (c.modBuf i f).bufSt j = c.bufSt j := tabGet_mod_ne _ _ h
@[simp] theorem Chip.modBoot_bootSt_same (c : Chip) (i : Nat) (f : BootSt → BootSt) : (c.modBoot i f).bootSt i = f (c.bootSt i) := tabGet_mod_same _ _ _
theorem Chip.modBoot_bootSt_ne (c : Chip) {i j : Nat} (f : BootSt → BootSt) (h : j ≠ i) : (c.modBoot i f).bootSt j = c.bootSt j := tabGet_mod_ne _ _ h
@[simp] theorem Chip.modChain_chain (c : Chip) (f : ChainSt → ChainSt) : (c.modChain f).chain = f c.chain := rfl
@[simp] theorem Chip.modSky_sky (c : Chip) (f : SkySt → SkySt) : (c.modSky f).sky = f c.sky := rfl
@[simp] theorem Chip.modCat_cat (c : Chip) (f : CatSt → CatSt) : (c.modCat f).cat = f c.cat := rfl
@[simp] theorem Chip.modMoss_moss (c : Chip) (f : MossSt → MossSt) : (c.modMoss f).moss = f c.moss := rfl
@[simp] theorem Chip.modHost_host (c : Chip) (f : HostSt → HostSt) : (c.modHost f).host = f c.host := rfl
@[simp] theorem Chip.modTrust_trust (c : Chip) (f : TrustSt → TrustSt) : (c.modTrust f).trust = f c.trust := rfl
@[simp] theorem Chip.modPower_power (c : Chip) (f : PowerSt → PowerSt) : (c.modPower f).power = f c.power := rfl

/-! ### What an update leaves of the registers and of the other accessors -/
@[simp] theorem Chip.wr_cluSt (c : Chip) (g : Fld) (v : Nat) (j : Nat) : (c.wr g v).cluSt j = c.cluSt j := rfl
@[simp] theorem Chip.wr_rgnSt (c : Chip) (g : Fld) (v : Nat) (j : Nat) : (c.wr g v).rgnSt j = c.rgnSt j := rfl
@[simp] theorem Chip.wr_dieSt (c : Chip) (g : Fld) (v : Nat) (j : Nat) : (c.wr g v).dieSt j = c.dieSt j := rfl
@[simp] theorem Chip.wr_laneSt (c : Chip) (g : Fld) (v : Nat) (j : Nat) : (c.wr g v).laneSt j = c.laneSt j := rfl
@[simp] theorem Chip.wr_linkSt (c : Chip) (g : Fld) (v : Nat) (j : Nat) : (c.wr g v).linkSt j = c.linkSt j := rfl
@[simp] theorem Chip.wr_btlSt (c : Chip) (g : Fld) (v : Nat) (j : Nat) : (c.wr g v).btlSt j = c.btlSt j := rfl
@[simp] theorem Chip.wr_unitSt (c : Chip) (g : Fld) (v : Nat) (j : Nat) : (c.wr g v).unitSt j = c.unitSt j := rfl
@[simp] theorem Chip.wr_poolSt (c : Chip) (g : Fld) (v : Nat) (j : Nat) : (c.wr g v).poolSt j = c.poolSt j := rfl
@[simp] theorem Chip.wr_readSt (c : Chip) (g : Fld) (v : Nat) (j : Nat) : (c.wr g v).readSt j = c.readSt j := rfl
@[simp] theorem Chip.wr_burnSt (c : Chip) (g : Fld) (v : Nat) (j : Nat) : (c.wr g v).burnSt j = c.burnSt j := rfl
@[simp] theorem Chip.wr_servoSt (c : Chip) (g : Fld) (v : Nat) (j : Nat) : (c.wr g v).servoSt j = c.servoSt j := rfl
@[simp] theorem Chip.wr_spinSt (c : Chip) (g : Fld) (v : Nat) (j : Nat) : (c.wr g v).spinSt j = c.spinSt j := rfl
@[simp] theorem Chip.wr_axisSt (c : Chip) (g : Fld) (v : Nat) (j : Nat) : (c.wr g v).axisSt j = c.axisSt j := rfl
@[simp] theorem Chip.wr_tileSt (c : Chip) (g : Fld) (v : Nat) (j : Nat) : (c.wr g v).tileSt j = c.tileSt j := rfl
@[simp] theorem Chip.wr_bufSt (c : Chip) (g : Fld) (v : Nat) (j : Nat) : (c.wr g v).bufSt j = c.bufSt j := rfl
@[simp] theorem Chip.wr_bootSt (c : Chip) (g : Fld) (v : Nat) (j : Nat) : (c.wr g v).bootSt j = c.bootSt j := rfl
@[simp] theorem Chip.emit_rd (c : Chip) (o : Out) (q : Fld) : (c.emit o).rd q = c.rd q := rfl
@[simp] theorem Chip.emit_cluSt (c : Chip) (o : Out) (j : Nat) : (c.emit o).cluSt j = c.cluSt j := rfl
@[simp] theorem Chip.emit_rgnSt (c : Chip) (o : Out) (j : Nat) : (c.emit o).rgnSt j = c.rgnSt j := rfl
@[simp] theorem Chip.emit_dieSt (c : Chip) (o : Out) (j : Nat) : (c.emit o).dieSt j = c.dieSt j := rfl
@[simp] theorem Chip.emit_laneSt (c : Chip) (o : Out) (j : Nat) : (c.emit o).laneSt j = c.laneSt j := rfl
@[simp] theorem Chip.emit_linkSt (c : Chip) (o : Out) (j : Nat) : (c.emit o).linkSt j = c.linkSt j := rfl
@[simp] theorem Chip.emit_btlSt (c : Chip) (o : Out) (j : Nat) : (c.emit o).btlSt j = c.btlSt j := rfl
@[simp] theorem Chip.emit_unitSt (c : Chip) (o : Out) (j : Nat) : (c.emit o).unitSt j = c.unitSt j := rfl
@[simp] theorem Chip.emit_poolSt (c : Chip) (o : Out) (j : Nat) : (c.emit o).poolSt j = c.poolSt j := rfl
@[simp] theorem Chip.emit_readSt (c : Chip) (o : Out) (j : Nat) : (c.emit o).readSt j = c.readSt j := rfl
@[simp] theorem Chip.emit_burnSt (c : Chip) (o : Out) (j : Nat) : (c.emit o).burnSt j = c.burnSt j := rfl
@[simp] theorem Chip.emit_servoSt (c : Chip) (o : Out) (j : Nat) : (c.emit o).servoSt j = c.servoSt j := rfl
@[simp] theorem Chip.emit_spinSt (c : Chip) (o : Out) (j : Nat) : (c.emit o).spinSt j = c.spinSt j := rfl
@[simp] theorem Chip.emit_axisSt (c : Chip) (o : Out) (j : Nat) : (c.emit o).axisSt j = c.axisSt j := rfl
@[simp] theorem Chip.emit_tileSt (c : Chip) (o : Out) (j : Nat) : (c.emit o).tileSt j = c.tileSt j := rfl
@[simp] theorem Chip.emit_bufSt (c : Chip) (o : Out) (j : Nat) : (c.emit o).bufSt j = c.bufSt j := rfl
@[simp] theorem Chip.emit_bootSt (c : Chip) (o : Out) (j : Nat) : (c.emit o).bootSt j = c.bootSt j := rfl
@[simp] theorem Chip.modClu_rd (c : Chip) (i : Nat) (f : Held → Held) (q : Fld) : (c.modClu i f).rd q = c.rd q := rfl
@[simp] theorem Chip.modClu_rgnSt (c : Chip) (i : Nat) (f : Held → Held) (j : Nat) : (c.modClu i f).rgnSt j = c.rgnSt j := rfl
@[simp] theorem Chip.modClu_dieSt (c : Chip) (i : Nat) (f : Held → Held) (j : Nat) : (c.modClu i f).dieSt j = c.dieSt j := rfl
@[simp] theorem Chip.modClu_laneSt (c : Chip) (i : Nat) (f : Held → Held) (j : Nat) : (c.modClu i f).laneSt j = c.laneSt j := rfl
@[simp] theorem Chip.modClu_linkSt (c : Chip) (i : Nat) (f : Held → Held) (j : Nat) : (c.modClu i f).linkSt j = c.linkSt j := rfl
@[simp] theorem Chip.modClu_btlSt (c : Chip) (i : Nat) (f : Held → Held) (j : Nat) : (c.modClu i f).btlSt j = c.btlSt j := rfl
@[simp] theorem Chip.modClu_unitSt (c : Chip) (i : Nat) (f : Held → Held) (j : Nat) : (c.modClu i f).unitSt j = c.unitSt j := rfl
@[simp] theorem Chip.modClu_poolSt (c : Chip) (i : Nat) (f : Held → Held) (j : Nat) : (c.modClu i f).poolSt j = c.poolSt j := rfl
@[simp] theorem Chip.modClu_readSt (c : Chip) (i : Nat) (f : Held → Held) (j : Nat) : (c.modClu i f).readSt j = c.readSt j := rfl
@[simp] theorem Chip.modClu_burnSt (c : Chip) (i : Nat) (f : Held → Held) (j : Nat) : (c.modClu i f).burnSt j = c.burnSt j := rfl
@[simp] theorem Chip.modClu_servoSt (c : Chip) (i : Nat) (f : Held → Held) (j : Nat) : (c.modClu i f).servoSt j = c.servoSt j := rfl
@[simp] theorem Chip.modClu_spinSt (c : Chip) (i : Nat) (f : Held → Held) (j : Nat) : (c.modClu i f).spinSt j = c.spinSt j := rfl
@[simp] theorem Chip.modClu_axisSt (c : Chip) (i : Nat) (f : Held → Held) (j : Nat) : (c.modClu i f).axisSt j = c.axisSt j := rfl
@[simp] theorem Chip.modClu_tileSt (c : Chip) (i : Nat) (f : Held → Held) (j : Nat) : (c.modClu i f).tileSt j = c.tileSt j := rfl
@[simp] theorem Chip.modClu_bufSt (c : Chip) (i : Nat) (f : Held → Held) (j : Nat) : (c.modClu i f).bufSt j = c.bufSt j := rfl
@[simp] theorem Chip.modClu_bootSt (c : Chip) (i : Nat) (f : Held → Held) (j : Nat) : (c.modClu i f).bootSt j = c.bootSt j := rfl
@[simp] theorem Chip.modRgn_rd (c : Chip) (i : Nat) (f : RegionLevel → RegionLevel) (q : Fld) : (c.modRgn i f).rd q = c.rd q := rfl
@[simp] theorem Chip.modRgn_cluSt (c : Chip) (i : Nat) (f : RegionLevel → RegionLevel) (j : Nat) : (c.modRgn i f).cluSt j = c.cluSt j := rfl
@[simp] theorem Chip.modRgn_dieSt (c : Chip) (i : Nat) (f : RegionLevel → RegionLevel) (j : Nat) : (c.modRgn i f).dieSt j = c.dieSt j := rfl
@[simp] theorem Chip.modRgn_laneSt (c : Chip) (i : Nat) (f : RegionLevel → RegionLevel) (j : Nat) : (c.modRgn i f).laneSt j = c.laneSt j := rfl
@[simp] theorem Chip.modRgn_linkSt (c : Chip) (i : Nat) (f : RegionLevel → RegionLevel) (j : Nat) : (c.modRgn i f).linkSt j = c.linkSt j := rfl
@[simp] theorem Chip.modRgn_btlSt (c : Chip) (i : Nat) (f : RegionLevel → RegionLevel) (j : Nat) : (c.modRgn i f).btlSt j = c.btlSt j := rfl
@[simp] theorem Chip.modRgn_unitSt (c : Chip) (i : Nat) (f : RegionLevel → RegionLevel) (j : Nat) : (c.modRgn i f).unitSt j = c.unitSt j := rfl
@[simp] theorem Chip.modRgn_poolSt (c : Chip) (i : Nat) (f : RegionLevel → RegionLevel) (j : Nat) : (c.modRgn i f).poolSt j = c.poolSt j := rfl
@[simp] theorem Chip.modRgn_readSt (c : Chip) (i : Nat) (f : RegionLevel → RegionLevel) (j : Nat) : (c.modRgn i f).readSt j = c.readSt j := rfl
@[simp] theorem Chip.modRgn_burnSt (c : Chip) (i : Nat) (f : RegionLevel → RegionLevel) (j : Nat) : (c.modRgn i f).burnSt j = c.burnSt j := rfl
@[simp] theorem Chip.modRgn_servoSt (c : Chip) (i : Nat) (f : RegionLevel → RegionLevel) (j : Nat) : (c.modRgn i f).servoSt j = c.servoSt j := rfl
@[simp] theorem Chip.modRgn_spinSt (c : Chip) (i : Nat) (f : RegionLevel → RegionLevel) (j : Nat) : (c.modRgn i f).spinSt j = c.spinSt j := rfl
@[simp] theorem Chip.modRgn_axisSt (c : Chip) (i : Nat) (f : RegionLevel → RegionLevel) (j : Nat) : (c.modRgn i f).axisSt j = c.axisSt j := rfl
@[simp] theorem Chip.modRgn_tileSt (c : Chip) (i : Nat) (f : RegionLevel → RegionLevel) (j : Nat) : (c.modRgn i f).tileSt j = c.tileSt j := rfl
@[simp] theorem Chip.modRgn_bufSt (c : Chip) (i : Nat) (f : RegionLevel → RegionLevel) (j : Nat) : (c.modRgn i f).bufSt j = c.bufSt j := rfl
@[simp] theorem Chip.modRgn_bootSt (c : Chip) (i : Nat) (f : RegionLevel → RegionLevel) (j : Nat) : (c.modRgn i f).bootSt j = c.bootSt j := rfl
@[simp] theorem Chip.modDie_rd (c : Chip) (i : Nat) (f : DieLevel → DieLevel) (q : Fld) : (c.modDie i f).rd q = c.rd q := rfl
@[simp] theorem Chip.modDie_cluSt (c : Chip) (i : Nat) (f : DieLevel → DieLevel) (j : Nat) : (c.modDie i f).cluSt j = c.cluSt j := rfl
@[simp] theorem Chip.modDie_rgnSt (c : Chip) (i : Nat) (f : DieLevel → DieLevel) (j : Nat) : (c.modDie i f).rgnSt j = c.rgnSt j := rfl
@[simp] theorem Chip.modDie_laneSt (c : Chip) (i : Nat) (f : DieLevel → DieLevel) (j : Nat) : (c.modDie i f).laneSt j = c.laneSt j := rfl
@[simp] theorem Chip.modDie_linkSt (c : Chip) (i : Nat) (f : DieLevel → DieLevel) (j : Nat) : (c.modDie i f).linkSt j = c.linkSt j := rfl
@[simp] theorem Chip.modDie_btlSt (c : Chip) (i : Nat) (f : DieLevel → DieLevel) (j : Nat) : (c.modDie i f).btlSt j = c.btlSt j := rfl
@[simp] theorem Chip.modDie_unitSt (c : Chip) (i : Nat) (f : DieLevel → DieLevel) (j : Nat) : (c.modDie i f).unitSt j = c.unitSt j := rfl
@[simp] theorem Chip.modDie_poolSt (c : Chip) (i : Nat) (f : DieLevel → DieLevel) (j : Nat) : (c.modDie i f).poolSt j = c.poolSt j := rfl
@[simp] theorem Chip.modDie_readSt (c : Chip) (i : Nat) (f : DieLevel → DieLevel) (j : Nat) : (c.modDie i f).readSt j = c.readSt j := rfl
@[simp] theorem Chip.modDie_burnSt (c : Chip) (i : Nat) (f : DieLevel → DieLevel) (j : Nat) : (c.modDie i f).burnSt j = c.burnSt j := rfl
@[simp] theorem Chip.modDie_servoSt (c : Chip) (i : Nat) (f : DieLevel → DieLevel) (j : Nat) : (c.modDie i f).servoSt j = c.servoSt j := rfl
@[simp] theorem Chip.modDie_spinSt (c : Chip) (i : Nat) (f : DieLevel → DieLevel) (j : Nat) : (c.modDie i f).spinSt j = c.spinSt j := rfl
@[simp] theorem Chip.modDie_axisSt (c : Chip) (i : Nat) (f : DieLevel → DieLevel) (j : Nat) : (c.modDie i f).axisSt j = c.axisSt j := rfl
@[simp] theorem Chip.modDie_tileSt (c : Chip) (i : Nat) (f : DieLevel → DieLevel) (j : Nat) : (c.modDie i f).tileSt j = c.tileSt j := rfl
@[simp] theorem Chip.modDie_bufSt (c : Chip) (i : Nat) (f : DieLevel → DieLevel) (j : Nat) : (c.modDie i f).bufSt j = c.bufSt j := rfl
@[simp] theorem Chip.modDie_bootSt (c : Chip) (i : Nat) (f : DieLevel → DieLevel) (j : Nat) : (c.modDie i f).bootSt j = c.bootSt j := rfl
@[simp] theorem Chip.modLane_rd (c : Chip) (i : Nat) (f : LaneSt → LaneSt) (q : Fld) : (c.modLane i f).rd q = c.rd q := rfl
@[simp] theorem Chip.modLane_cluSt (c : Chip) (i : Nat) (f : LaneSt → LaneSt) (j : Nat) : (c.modLane i f).cluSt j = c.cluSt j := rfl
@[simp] theorem Chip.modLane_rgnSt (c : Chip) (i : Nat) (f : LaneSt → LaneSt) (j : Nat) : (c.modLane i f).rgnSt j = c.rgnSt j := rfl
@[simp] theorem Chip.modLane_dieSt (c : Chip) (i : Nat) (f : LaneSt → LaneSt) (j : Nat) : (c.modLane i f).dieSt j = c.dieSt j := rfl
@[simp] theorem Chip.modLane_linkSt (c : Chip) (i : Nat) (f : LaneSt → LaneSt) (j : Nat) : (c.modLane i f).linkSt j = c.linkSt j := rfl
@[simp] theorem Chip.modLane_btlSt (c : Chip) (i : Nat) (f : LaneSt → LaneSt) (j : Nat) : (c.modLane i f).btlSt j = c.btlSt j := rfl
@[simp] theorem Chip.modLane_unitSt (c : Chip) (i : Nat) (f : LaneSt → LaneSt) (j : Nat) : (c.modLane i f).unitSt j = c.unitSt j := rfl
@[simp] theorem Chip.modLane_poolSt (c : Chip) (i : Nat) (f : LaneSt → LaneSt) (j : Nat) : (c.modLane i f).poolSt j = c.poolSt j := rfl
@[simp] theorem Chip.modLane_readSt (c : Chip) (i : Nat) (f : LaneSt → LaneSt) (j : Nat) : (c.modLane i f).readSt j = c.readSt j := rfl
@[simp] theorem Chip.modLane_burnSt (c : Chip) (i : Nat) (f : LaneSt → LaneSt) (j : Nat) : (c.modLane i f).burnSt j = c.burnSt j := rfl
@[simp] theorem Chip.modLane_servoSt (c : Chip) (i : Nat) (f : LaneSt → LaneSt) (j : Nat) : (c.modLane i f).servoSt j = c.servoSt j := rfl
@[simp] theorem Chip.modLane_spinSt (c : Chip) (i : Nat) (f : LaneSt → LaneSt) (j : Nat) : (c.modLane i f).spinSt j = c.spinSt j := rfl
@[simp] theorem Chip.modLane_axisSt (c : Chip) (i : Nat) (f : LaneSt → LaneSt) (j : Nat) : (c.modLane i f).axisSt j = c.axisSt j := rfl
@[simp] theorem Chip.modLane_tileSt (c : Chip) (i : Nat) (f : LaneSt → LaneSt) (j : Nat) : (c.modLane i f).tileSt j = c.tileSt j := rfl
@[simp] theorem Chip.modLane_bufSt (c : Chip) (i : Nat) (f : LaneSt → LaneSt) (j : Nat) : (c.modLane i f).bufSt j = c.bufSt j := rfl
@[simp] theorem Chip.modLane_bootSt (c : Chip) (i : Nat) (f : LaneSt → LaneSt) (j : Nat) : (c.modLane i f).bootSt j = c.bootSt j := rfl
@[simp] theorem Chip.modLink_rd (c : Chip) (i : Nat) (f : LinkSt → LinkSt) (q : Fld) : (c.modLink i f).rd q = c.rd q := rfl
@[simp] theorem Chip.modLink_cluSt (c : Chip) (i : Nat) (f : LinkSt → LinkSt) (j : Nat) : (c.modLink i f).cluSt j = c.cluSt j := rfl
@[simp] theorem Chip.modLink_rgnSt (c : Chip) (i : Nat) (f : LinkSt → LinkSt) (j : Nat) : (c.modLink i f).rgnSt j = c.rgnSt j := rfl
@[simp] theorem Chip.modLink_dieSt (c : Chip) (i : Nat) (f : LinkSt → LinkSt) (j : Nat) : (c.modLink i f).dieSt j = c.dieSt j := rfl
@[simp] theorem Chip.modLink_laneSt (c : Chip) (i : Nat) (f : LinkSt → LinkSt) (j : Nat) : (c.modLink i f).laneSt j = c.laneSt j := rfl
@[simp] theorem Chip.modLink_btlSt (c : Chip) (i : Nat) (f : LinkSt → LinkSt) (j : Nat) : (c.modLink i f).btlSt j = c.btlSt j := rfl
@[simp] theorem Chip.modLink_unitSt (c : Chip) (i : Nat) (f : LinkSt → LinkSt) (j : Nat) : (c.modLink i f).unitSt j = c.unitSt j := rfl
@[simp] theorem Chip.modLink_poolSt (c : Chip) (i : Nat) (f : LinkSt → LinkSt) (j : Nat) : (c.modLink i f).poolSt j = c.poolSt j := rfl
@[simp] theorem Chip.modLink_readSt (c : Chip) (i : Nat) (f : LinkSt → LinkSt) (j : Nat) : (c.modLink i f).readSt j = c.readSt j := rfl
@[simp] theorem Chip.modLink_burnSt (c : Chip) (i : Nat) (f : LinkSt → LinkSt) (j : Nat) : (c.modLink i f).burnSt j = c.burnSt j := rfl
@[simp] theorem Chip.modLink_servoSt (c : Chip) (i : Nat) (f : LinkSt → LinkSt) (j : Nat) : (c.modLink i f).servoSt j = c.servoSt j := rfl
@[simp] theorem Chip.modLink_spinSt (c : Chip) (i : Nat) (f : LinkSt → LinkSt) (j : Nat) : (c.modLink i f).spinSt j = c.spinSt j := rfl
@[simp] theorem Chip.modLink_axisSt (c : Chip) (i : Nat) (f : LinkSt → LinkSt) (j : Nat) : (c.modLink i f).axisSt j = c.axisSt j := rfl
@[simp] theorem Chip.modLink_tileSt (c : Chip) (i : Nat) (f : LinkSt → LinkSt) (j : Nat) : (c.modLink i f).tileSt j = c.tileSt j := rfl
@[simp] theorem Chip.modLink_bufSt (c : Chip) (i : Nat) (f : LinkSt → LinkSt) (j : Nat) : (c.modLink i f).bufSt j = c.bufSt j := rfl
@[simp] theorem Chip.modLink_bootSt (c : Chip) (i : Nat) (f : LinkSt → LinkSt) (j : Nat) : (c.modLink i f).bootSt j = c.bootSt j := rfl
@[simp] theorem Chip.modBtl_rd (c : Chip) (i : Nat) (f : BtlSt → BtlSt) (q : Fld) : (c.modBtl i f).rd q = c.rd q := rfl
@[simp] theorem Chip.modBtl_cluSt (c : Chip) (i : Nat) (f : BtlSt → BtlSt) (j : Nat) : (c.modBtl i f).cluSt j = c.cluSt j := rfl
@[simp] theorem Chip.modBtl_rgnSt (c : Chip) (i : Nat) (f : BtlSt → BtlSt) (j : Nat) : (c.modBtl i f).rgnSt j = c.rgnSt j := rfl
@[simp] theorem Chip.modBtl_dieSt (c : Chip) (i : Nat) (f : BtlSt → BtlSt) (j : Nat) : (c.modBtl i f).dieSt j = c.dieSt j := rfl
@[simp] theorem Chip.modBtl_laneSt (c : Chip) (i : Nat) (f : BtlSt → BtlSt) (j : Nat) : (c.modBtl i f).laneSt j = c.laneSt j := rfl
@[simp] theorem Chip.modBtl_linkSt (c : Chip) (i : Nat) (f : BtlSt → BtlSt) (j : Nat) : (c.modBtl i f).linkSt j = c.linkSt j := rfl
@[simp] theorem Chip.modBtl_unitSt (c : Chip) (i : Nat) (f : BtlSt → BtlSt) (j : Nat) : (c.modBtl i f).unitSt j = c.unitSt j := rfl
@[simp] theorem Chip.modBtl_poolSt (c : Chip) (i : Nat) (f : BtlSt → BtlSt) (j : Nat) : (c.modBtl i f).poolSt j = c.poolSt j := rfl
@[simp] theorem Chip.modBtl_readSt (c : Chip) (i : Nat) (f : BtlSt → BtlSt) (j : Nat) : (c.modBtl i f).readSt j = c.readSt j := rfl
@[simp] theorem Chip.modBtl_burnSt (c : Chip) (i : Nat) (f : BtlSt → BtlSt) (j : Nat) : (c.modBtl i f).burnSt j = c.burnSt j := rfl
@[simp] theorem Chip.modBtl_servoSt (c : Chip) (i : Nat) (f : BtlSt → BtlSt) (j : Nat) : (c.modBtl i f).servoSt j = c.servoSt j := rfl
@[simp] theorem Chip.modBtl_spinSt (c : Chip) (i : Nat) (f : BtlSt → BtlSt) (j : Nat) : (c.modBtl i f).spinSt j = c.spinSt j := rfl
@[simp] theorem Chip.modBtl_axisSt (c : Chip) (i : Nat) (f : BtlSt → BtlSt) (j : Nat) : (c.modBtl i f).axisSt j = c.axisSt j := rfl
@[simp] theorem Chip.modBtl_tileSt (c : Chip) (i : Nat) (f : BtlSt → BtlSt) (j : Nat) : (c.modBtl i f).tileSt j = c.tileSt j := rfl
@[simp] theorem Chip.modBtl_bufSt (c : Chip) (i : Nat) (f : BtlSt → BtlSt) (j : Nat) : (c.modBtl i f).bufSt j = c.bufSt j := rfl
@[simp] theorem Chip.modBtl_bootSt (c : Chip) (i : Nat) (f : BtlSt → BtlSt) (j : Nat) : (c.modBtl i f).bootSt j = c.bootSt j := rfl
@[simp] theorem Chip.modUnit_rd (c : Chip) (i : Nat) (f : UnitSt → UnitSt) (q : Fld) : (c.modUnit i f).rd q = c.rd q := rfl
@[simp] theorem Chip.modUnit_cluSt (c : Chip) (i : Nat) (f : UnitSt → UnitSt) (j : Nat) : (c.modUnit i f).cluSt j = c.cluSt j := rfl
@[simp] theorem Chip.modUnit_rgnSt (c : Chip) (i : Nat) (f : UnitSt → UnitSt) (j : Nat) : (c.modUnit i f).rgnSt j = c.rgnSt j := rfl
@[simp] theorem Chip.modUnit_dieSt (c : Chip) (i : Nat) (f : UnitSt → UnitSt) (j : Nat) : (c.modUnit i f).dieSt j = c.dieSt j := rfl
@[simp] theorem Chip.modUnit_laneSt (c : Chip) (i : Nat) (f : UnitSt → UnitSt) (j : Nat) : (c.modUnit i f).laneSt j = c.laneSt j := rfl
@[simp] theorem Chip.modUnit_linkSt (c : Chip) (i : Nat) (f : UnitSt → UnitSt) (j : Nat) : (c.modUnit i f).linkSt j = c.linkSt j := rfl
@[simp] theorem Chip.modUnit_btlSt (c : Chip) (i : Nat) (f : UnitSt → UnitSt) (j : Nat) : (c.modUnit i f).btlSt j = c.btlSt j := rfl
@[simp] theorem Chip.modUnit_poolSt (c : Chip) (i : Nat) (f : UnitSt → UnitSt) (j : Nat) : (c.modUnit i f).poolSt j = c.poolSt j := rfl
@[simp] theorem Chip.modUnit_readSt (c : Chip) (i : Nat) (f : UnitSt → UnitSt) (j : Nat) : (c.modUnit i f).readSt j = c.readSt j := rfl
@[simp] theorem Chip.modUnit_burnSt (c : Chip) (i : Nat) (f : UnitSt → UnitSt) (j : Nat) : (c.modUnit i f).burnSt j = c.burnSt j := rfl
@[simp] theorem Chip.modUnit_servoSt (c : Chip) (i : Nat) (f : UnitSt → UnitSt) (j : Nat) : (c.modUnit i f).servoSt j = c.servoSt j := rfl
@[simp] theorem Chip.modUnit_spinSt (c : Chip) (i : Nat) (f : UnitSt → UnitSt) (j : Nat) : (c.modUnit i f).spinSt j = c.spinSt j := rfl
@[simp] theorem Chip.modUnit_axisSt (c : Chip) (i : Nat) (f : UnitSt → UnitSt) (j : Nat) : (c.modUnit i f).axisSt j = c.axisSt j := rfl
@[simp] theorem Chip.modUnit_tileSt (c : Chip) (i : Nat) (f : UnitSt → UnitSt) (j : Nat) : (c.modUnit i f).tileSt j = c.tileSt j := rfl
@[simp] theorem Chip.modUnit_bufSt (c : Chip) (i : Nat) (f : UnitSt → UnitSt) (j : Nat) : (c.modUnit i f).bufSt j = c.bufSt j := rfl
@[simp] theorem Chip.modUnit_bootSt (c : Chip) (i : Nat) (f : UnitSt → UnitSt) (j : Nat) : (c.modUnit i f).bootSt j = c.bootSt j := rfl
@[simp] theorem Chip.modPool_rd (c : Chip) (i : Nat) (f : PoolSt → PoolSt) (q : Fld) : (c.modPool i f).rd q = c.rd q := rfl
@[simp] theorem Chip.modPool_cluSt (c : Chip) (i : Nat) (f : PoolSt → PoolSt) (j : Nat) : (c.modPool i f).cluSt j = c.cluSt j := rfl
@[simp] theorem Chip.modPool_rgnSt (c : Chip) (i : Nat) (f : PoolSt → PoolSt) (j : Nat) : (c.modPool i f).rgnSt j = c.rgnSt j := rfl
@[simp] theorem Chip.modPool_dieSt (c : Chip) (i : Nat) (f : PoolSt → PoolSt) (j : Nat) : (c.modPool i f).dieSt j = c.dieSt j := rfl
@[simp] theorem Chip.modPool_laneSt (c : Chip) (i : Nat) (f : PoolSt → PoolSt) (j : Nat) : (c.modPool i f).laneSt j = c.laneSt j := rfl
@[simp] theorem Chip.modPool_linkSt (c : Chip) (i : Nat) (f : PoolSt → PoolSt) (j : Nat) : (c.modPool i f).linkSt j = c.linkSt j := rfl
@[simp] theorem Chip.modPool_btlSt (c : Chip) (i : Nat) (f : PoolSt → PoolSt) (j : Nat) : (c.modPool i f).btlSt j = c.btlSt j := rfl
@[simp] theorem Chip.modPool_unitSt (c : Chip) (i : Nat) (f : PoolSt → PoolSt) (j : Nat) : (c.modPool i f).unitSt j = c.unitSt j := rfl
@[simp] theorem Chip.modPool_readSt (c : Chip) (i : Nat) (f : PoolSt → PoolSt) (j : Nat) : (c.modPool i f).readSt j = c.readSt j := rfl
@[simp] theorem Chip.modPool_burnSt (c : Chip) (i : Nat) (f : PoolSt → PoolSt) (j : Nat) : (c.modPool i f).burnSt j = c.burnSt j := rfl
@[simp] theorem Chip.modPool_servoSt (c : Chip) (i : Nat) (f : PoolSt → PoolSt) (j : Nat) : (c.modPool i f).servoSt j = c.servoSt j := rfl
@[simp] theorem Chip.modPool_spinSt (c : Chip) (i : Nat) (f : PoolSt → PoolSt) (j : Nat) : (c.modPool i f).spinSt j = c.spinSt j := rfl
@[simp] theorem Chip.modPool_axisSt (c : Chip) (i : Nat) (f : PoolSt → PoolSt) (j : Nat) : (c.modPool i f).axisSt j = c.axisSt j := rfl
@[simp] theorem Chip.modPool_tileSt (c : Chip) (i : Nat) (f : PoolSt → PoolSt) (j : Nat) : (c.modPool i f).tileSt j = c.tileSt j := rfl
@[simp] theorem Chip.modPool_bufSt (c : Chip) (i : Nat) (f : PoolSt → PoolSt) (j : Nat) : (c.modPool i f).bufSt j = c.bufSt j := rfl
@[simp] theorem Chip.modPool_bootSt (c : Chip) (i : Nat) (f : PoolSt → PoolSt) (j : Nat) : (c.modPool i f).bootSt j = c.bootSt j := rfl
@[simp] theorem Chip.modRead_rd (c : Chip) (i : Nat) (f : ReadSt → ReadSt) (q : Fld) : (c.modRead i f).rd q = c.rd q := rfl
@[simp] theorem Chip.modRead_cluSt (c : Chip) (i : Nat) (f : ReadSt → ReadSt) (j : Nat) : (c.modRead i f).cluSt j = c.cluSt j := rfl
@[simp] theorem Chip.modRead_rgnSt (c : Chip) (i : Nat) (f : ReadSt → ReadSt) (j : Nat) : (c.modRead i f).rgnSt j = c.rgnSt j := rfl
@[simp] theorem Chip.modRead_dieSt (c : Chip) (i : Nat) (f : ReadSt → ReadSt) (j : Nat) : (c.modRead i f).dieSt j = c.dieSt j := rfl
@[simp] theorem Chip.modRead_laneSt (c : Chip) (i : Nat) (f : ReadSt → ReadSt) (j : Nat) : (c.modRead i f).laneSt j = c.laneSt j := rfl
@[simp] theorem Chip.modRead_linkSt (c : Chip) (i : Nat) (f : ReadSt → ReadSt) (j : Nat) : (c.modRead i f).linkSt j = c.linkSt j := rfl
@[simp] theorem Chip.modRead_btlSt (c : Chip) (i : Nat) (f : ReadSt → ReadSt) (j : Nat) : (c.modRead i f).btlSt j = c.btlSt j := rfl
@[simp] theorem Chip.modRead_unitSt (c : Chip) (i : Nat) (f : ReadSt → ReadSt) (j : Nat) : (c.modRead i f).unitSt j = c.unitSt j := rfl
@[simp] theorem Chip.modRead_poolSt (c : Chip) (i : Nat) (f : ReadSt → ReadSt) (j : Nat) : (c.modRead i f).poolSt j = c.poolSt j := rfl
@[simp] theorem Chip.modRead_burnSt (c : Chip) (i : Nat) (f : ReadSt → ReadSt) (j : Nat) : (c.modRead i f).burnSt j = c.burnSt j := rfl
@[simp] theorem Chip.modRead_servoSt (c : Chip) (i : Nat) (f : ReadSt → ReadSt) (j : Nat) : (c.modRead i f).servoSt j = c.servoSt j := rfl
@[simp] theorem Chip.modRead_spinSt (c : Chip) (i : Nat) (f : ReadSt → ReadSt) (j : Nat) : (c.modRead i f).spinSt j = c.spinSt j := rfl
@[simp] theorem Chip.modRead_axisSt (c : Chip) (i : Nat) (f : ReadSt → ReadSt) (j : Nat) : (c.modRead i f).axisSt j = c.axisSt j := rfl
@[simp] theorem Chip.modRead_tileSt (c : Chip) (i : Nat) (f : ReadSt → ReadSt) (j : Nat) : (c.modRead i f).tileSt j = c.tileSt j := rfl
@[simp] theorem Chip.modRead_bufSt (c : Chip) (i : Nat) (f : ReadSt → ReadSt) (j : Nat) : (c.modRead i f).bufSt j = c.bufSt j := rfl
@[simp] theorem Chip.modRead_bootSt (c : Chip) (i : Nat) (f : ReadSt → ReadSt) (j : Nat) : (c.modRead i f).bootSt j = c.bootSt j := rfl
@[simp] theorem Chip.modBurn_rd (c : Chip) (i : Nat) (f : BurnSt → BurnSt) (q : Fld) : (c.modBurn i f).rd q = c.rd q := rfl
@[simp] theorem Chip.modBurn_cluSt (c : Chip) (i : Nat) (f : BurnSt → BurnSt) (j : Nat) : (c.modBurn i f).cluSt j = c.cluSt j := rfl
@[simp] theorem Chip.modBurn_rgnSt (c : Chip) (i : Nat) (f : BurnSt → BurnSt) (j : Nat) : (c.modBurn i f).rgnSt j = c.rgnSt j := rfl
@[simp] theorem Chip.modBurn_dieSt (c : Chip) (i : Nat) (f : BurnSt → BurnSt) (j : Nat) : (c.modBurn i f).dieSt j = c.dieSt j := rfl
@[simp] theorem Chip.modBurn_laneSt (c : Chip) (i : Nat) (f : BurnSt → BurnSt) (j : Nat) : (c.modBurn i f).laneSt j = c.laneSt j := rfl
@[simp] theorem Chip.modBurn_linkSt (c : Chip) (i : Nat) (f : BurnSt → BurnSt) (j : Nat) : (c.modBurn i f).linkSt j = c.linkSt j := rfl
@[simp] theorem Chip.modBurn_btlSt (c : Chip) (i : Nat) (f : BurnSt → BurnSt) (j : Nat) : (c.modBurn i f).btlSt j = c.btlSt j := rfl
@[simp] theorem Chip.modBurn_unitSt (c : Chip) (i : Nat) (f : BurnSt → BurnSt) (j : Nat) : (c.modBurn i f).unitSt j = c.unitSt j := rfl
@[simp] theorem Chip.modBurn_poolSt (c : Chip) (i : Nat) (f : BurnSt → BurnSt) (j : Nat) : (c.modBurn i f).poolSt j = c.poolSt j := rfl
@[simp] theorem Chip.modBurn_readSt (c : Chip) (i : Nat) (f : BurnSt → BurnSt) (j : Nat) : (c.modBurn i f).readSt j = c.readSt j := rfl
@[simp] theorem Chip.modBurn_servoSt (c : Chip) (i : Nat) (f : BurnSt → BurnSt) (j : Nat) : (c.modBurn i f).servoSt j = c.servoSt j := rfl
@[simp] theorem Chip.modBurn_spinSt (c : Chip) (i : Nat) (f : BurnSt → BurnSt) (j : Nat) : (c.modBurn i f).spinSt j = c.spinSt j := rfl
@[simp] theorem Chip.modBurn_axisSt (c : Chip) (i : Nat) (f : BurnSt → BurnSt) (j : Nat) : (c.modBurn i f).axisSt j = c.axisSt j := rfl
@[simp] theorem Chip.modBurn_tileSt (c : Chip) (i : Nat) (f : BurnSt → BurnSt) (j : Nat) : (c.modBurn i f).tileSt j = c.tileSt j := rfl
@[simp] theorem Chip.modBurn_bufSt (c : Chip) (i : Nat) (f : BurnSt → BurnSt) (j : Nat) : (c.modBurn i f).bufSt j = c.bufSt j := rfl
@[simp] theorem Chip.modBurn_bootSt (c : Chip) (i : Nat) (f : BurnSt → BurnSt) (j : Nat) : (c.modBurn i f).bootSt j = c.bootSt j := rfl
@[simp] theorem Chip.modServo_rd (c : Chip) (i : Nat) (f : ServoSt → ServoSt) (q : Fld) : (c.modServo i f).rd q = c.rd q := rfl
@[simp] theorem Chip.modServo_cluSt (c : Chip) (i : Nat) (f : ServoSt → ServoSt) (j : Nat) : (c.modServo i f).cluSt j = c.cluSt j := rfl
@[simp] theorem Chip.modServo_rgnSt (c : Chip) (i : Nat) (f : ServoSt → ServoSt) (j : Nat) : (c.modServo i f).rgnSt j = c.rgnSt j := rfl
@[simp] theorem Chip.modServo_dieSt (c : Chip) (i : Nat) (f : ServoSt → ServoSt) (j : Nat) : (c.modServo i f).dieSt j = c.dieSt j := rfl
@[simp] theorem Chip.modServo_laneSt (c : Chip) (i : Nat) (f : ServoSt → ServoSt) (j : Nat) : (c.modServo i f).laneSt j = c.laneSt j := rfl
@[simp] theorem Chip.modServo_linkSt (c : Chip) (i : Nat) (f : ServoSt → ServoSt) (j : Nat) : (c.modServo i f).linkSt j = c.linkSt j := rfl
@[simp] theorem Chip.modServo_btlSt (c : Chip) (i : Nat) (f : ServoSt → ServoSt) (j : Nat) : (c.modServo i f).btlSt j = c.btlSt j := rfl
@[simp] theorem Chip.modServo_unitSt (c : Chip) (i : Nat) (f : ServoSt → ServoSt) (j : Nat) : (c.modServo i f).unitSt j = c.unitSt j := rfl
@[simp] theorem Chip.modServo_poolSt (c : Chip) (i : Nat) (f : ServoSt → ServoSt) (j : Nat) : (c.modServo i f).poolSt j = c.poolSt j := rfl
@[simp] theorem Chip.modServo_readSt (c : Chip) (i : Nat) (f : ServoSt → ServoSt) (j : Nat) : (c.modServo i f).readSt j = c.readSt j := rfl
@[simp] theorem Chip.modServo_burnSt (c : Chip) (i : Nat) (f : ServoSt → ServoSt) (j : Nat) : (c.modServo i f).burnSt j = c.burnSt j := rfl
@[simp] theorem Chip.modServo_spinSt (c : Chip) (i : Nat) (f : ServoSt → ServoSt) (j : Nat) : (c.modServo i f).spinSt j = c.spinSt j := rfl
@[simp] theorem Chip.modServo_axisSt (c : Chip) (i : Nat) (f : ServoSt → ServoSt) (j : Nat) : (c.modServo i f).axisSt j = c.axisSt j := rfl
@[simp] theorem Chip.modServo_tileSt (c : Chip) (i : Nat) (f : ServoSt → ServoSt) (j : Nat) : (c.modServo i f).tileSt j = c.tileSt j := rfl
@[simp] theorem Chip.modServo_bufSt (c : Chip) (i : Nat) (f : ServoSt → ServoSt) (j : Nat) : (c.modServo i f).bufSt j = c.bufSt j := rfl
@[simp] theorem Chip.modServo_bootSt (c : Chip) (i : Nat) (f : ServoSt → ServoSt) (j : Nat) : (c.modServo i f).bootSt j = c.bootSt j := rfl
@[simp] theorem Chip.modSpin_rd (c : Chip) (i : Nat) (f : SpinSt → SpinSt) (q : Fld) : (c.modSpin i f).rd q = c.rd q := rfl
@[simp] theorem Chip.modSpin_cluSt (c : Chip) (i : Nat) (f : SpinSt → SpinSt) (j : Nat) : (c.modSpin i f).cluSt j = c.cluSt j := rfl
@[simp] theorem Chip.modSpin_rgnSt (c : Chip) (i : Nat) (f : SpinSt → SpinSt) (j : Nat) : (c.modSpin i f).rgnSt j = c.rgnSt j := rfl
@[simp] theorem Chip.modSpin_dieSt (c : Chip) (i : Nat) (f : SpinSt → SpinSt) (j : Nat) : (c.modSpin i f).dieSt j = c.dieSt j := rfl
@[simp] theorem Chip.modSpin_laneSt (c : Chip) (i : Nat) (f : SpinSt → SpinSt) (j : Nat) : (c.modSpin i f).laneSt j = c.laneSt j := rfl
@[simp] theorem Chip.modSpin_linkSt (c : Chip) (i : Nat) (f : SpinSt → SpinSt) (j : Nat) : (c.modSpin i f).linkSt j = c.linkSt j := rfl
@[simp] theorem Chip.modSpin_btlSt (c : Chip) (i : Nat) (f : SpinSt → SpinSt) (j : Nat) : (c.modSpin i f).btlSt j = c.btlSt j := rfl
@[simp] theorem Chip.modSpin_unitSt (c : Chip) (i : Nat) (f : SpinSt → SpinSt) (j : Nat) : (c.modSpin i f).unitSt j = c.unitSt j := rfl
@[simp] theorem Chip.modSpin_poolSt (c : Chip) (i : Nat) (f : SpinSt → SpinSt) (j : Nat) : (c.modSpin i f).poolSt j = c.poolSt j := rfl
@[simp] theorem Chip.modSpin_readSt (c : Chip) (i : Nat) (f : SpinSt → SpinSt) (j : Nat) : (c.modSpin i f).readSt j = c.readSt j := rfl
@[simp] theorem Chip.modSpin_burnSt (c : Chip) (i : Nat) (f : SpinSt → SpinSt) (j : Nat) : (c.modSpin i f).burnSt j = c.burnSt j := rfl
@[simp] theorem Chip.modSpin_servoSt (c : Chip) (i : Nat) (f : SpinSt → SpinSt) (j : Nat) : (c.modSpin i f).servoSt j = c.servoSt j := rfl
@[simp] theorem Chip.modSpin_axisSt (c : Chip) (i : Nat) (f : SpinSt → SpinSt) (j : Nat) : (c.modSpin i f).axisSt j = c.axisSt j := rfl
@[simp] theorem Chip.modSpin_tileSt (c : Chip) (i : Nat) (f : SpinSt → SpinSt) (j : Nat) : (c.modSpin i f).tileSt j = c.tileSt j := rfl
@[simp] theorem Chip.modSpin_bufSt (c : Chip) (i : Nat) (f : SpinSt → SpinSt) (j : Nat) : (c.modSpin i f).bufSt j = c.bufSt j := rfl
@[simp] theorem Chip.modSpin_bootSt (c : Chip) (i : Nat) (f : SpinSt → SpinSt) (j : Nat) : (c.modSpin i f).bootSt j = c.bootSt j := rfl
@[simp] theorem Chip.modAxis_rd (c : Chip) (i : Nat) (f : AxisSt → AxisSt) (q : Fld) : (c.modAxis i f).rd q = c.rd q := rfl
@[simp] theorem Chip.modAxis_cluSt (c : Chip) (i : Nat) (f : AxisSt → AxisSt) (j : Nat) : (c.modAxis i f).cluSt j = c.cluSt j := rfl
@[simp] theorem Chip.modAxis_rgnSt (c : Chip) (i : Nat) (f : AxisSt → AxisSt) (j : Nat) : (c.modAxis i f).rgnSt j = c.rgnSt j := rfl
@[simp] theorem Chip.modAxis_dieSt (c : Chip) (i : Nat) (f : AxisSt → AxisSt) (j : Nat) : (c.modAxis i f).dieSt j = c.dieSt j := rfl
@[simp] theorem Chip.modAxis_laneSt (c : Chip) (i : Nat) (f : AxisSt → AxisSt) (j : Nat) : (c.modAxis i f).laneSt j = c.laneSt j := rfl
@[simp] theorem Chip.modAxis_linkSt (c : Chip) (i : Nat) (f : AxisSt → AxisSt) (j : Nat) : (c.modAxis i f).linkSt j = c.linkSt j := rfl
@[simp] theorem Chip.modAxis_btlSt (c : Chip) (i : Nat) (f : AxisSt → AxisSt) (j : Nat) : (c.modAxis i f).btlSt j = c.btlSt j := rfl
@[simp] theorem Chip.modAxis_unitSt (c : Chip) (i : Nat) (f : AxisSt → AxisSt) (j : Nat) : (c.modAxis i f).unitSt j = c.unitSt j := rfl
@[simp] theorem Chip.modAxis_poolSt (c : Chip) (i : Nat) (f : AxisSt → AxisSt) (j : Nat) : (c.modAxis i f).poolSt j = c.poolSt j := rfl
@[simp] theorem Chip.modAxis_readSt (c : Chip) (i : Nat) (f : AxisSt → AxisSt) (j : Nat) : (c.modAxis i f).readSt j = c.readSt j := rfl
@[simp] theorem Chip.modAxis_burnSt (c : Chip) (i : Nat) (f : AxisSt → AxisSt) (j : Nat) : (c.modAxis i f).burnSt j = c.burnSt j := rfl
@[simp] theorem Chip.modAxis_servoSt (c : Chip) (i : Nat) (f : AxisSt → AxisSt) (j : Nat) : (c.modAxis i f).servoSt j = c.servoSt j := rfl
@[simp] theorem Chip.modAxis_spinSt (c : Chip) (i : Nat) (f : AxisSt → AxisSt) (j : Nat) : (c.modAxis i f).spinSt j = c.spinSt j := rfl
@[simp] theorem Chip.modAxis_tileSt (c : Chip) (i : Nat) (f : AxisSt → AxisSt) (j : Nat) : (c.modAxis i f).tileSt j = c.tileSt j := rfl
@[simp] theorem Chip.modAxis_bufSt (c : Chip) (i : Nat) (f : AxisSt → AxisSt) (j : Nat) : (c.modAxis i f).bufSt j = c.bufSt j := rfl
@[simp] theorem Chip.modAxis_bootSt (c : Chip) (i : Nat) (f : AxisSt → AxisSt) (j : Nat) : (c.modAxis i f).bootSt j = c.bootSt j := rfl
@[simp] theorem Chip.modTile_rd (c : Chip) (i : Nat) (f : TileRec → TileRec) (q : Fld) : (c.modTile i f).rd q = c.rd q := rfl
@[simp] theorem Chip.modTile_cluSt (c : Chip) (i : Nat) (f : TileRec → TileRec) (j : Nat) : (c.modTile i f).cluSt j = c.cluSt j := rfl
@[simp] theorem Chip.modTile_rgnSt (c : Chip) (i : Nat) (f : TileRec → TileRec) (j : Nat) : (c.modTile i f).rgnSt j = c.rgnSt j := rfl
@[simp] theorem Chip.modTile_dieSt (c : Chip) (i : Nat) (f : TileRec → TileRec) (j : Nat) : (c.modTile i f).dieSt j = c.dieSt j := rfl
@[simp] theorem Chip.modTile_laneSt (c : Chip) (i : Nat) (f : TileRec → TileRec) (j : Nat) : (c.modTile i f).laneSt j = c.laneSt j := rfl
@[simp] theorem Chip.modTile_linkSt (c : Chip) (i : Nat) (f : TileRec → TileRec) (j : Nat) : (c.modTile i f).linkSt j = c.linkSt j := rfl
@[simp] theorem Chip.modTile_btlSt (c : Chip) (i : Nat) (f : TileRec → TileRec) (j : Nat) : (c.modTile i f).btlSt j = c.btlSt j := rfl
@[simp] theorem Chip.modTile_unitSt (c : Chip) (i : Nat) (f : TileRec → TileRec) (j : Nat) : (c.modTile i f).unitSt j = c.unitSt j := rfl
@[simp] theorem Chip.modTile_poolSt (c : Chip) (i : Nat) (f : TileRec → TileRec) (j : Nat) : (c.modTile i f).poolSt j = c.poolSt j := rfl
@[simp] theorem Chip.modTile_readSt (c : Chip) (i : Nat) (f : TileRec → TileRec) (j : Nat) : (c.modTile i f).readSt j = c.readSt j := rfl
@[simp] theorem Chip.modTile_burnSt (c : Chip) (i : Nat) (f : TileRec → TileRec) (j : Nat) : (c.modTile i f).burnSt j = c.burnSt j := rfl
@[simp] theorem Chip.modTile_servoSt (c : Chip) (i : Nat) (f : TileRec → TileRec) (j : Nat) : (c.modTile i f).servoSt j = c.servoSt j := rfl
@[simp] theorem Chip.modTile_spinSt (c : Chip) (i : Nat) (f : TileRec → TileRec) (j : Nat) : (c.modTile i f).spinSt j = c.spinSt j := rfl
@[simp] theorem Chip.modTile_axisSt (c : Chip) (i : Nat) (f : TileRec → TileRec) (j : Nat) : (c.modTile i f).axisSt j = c.axisSt j := rfl
@[simp] theorem Chip.modTile_bufSt (c : Chip) (i : Nat) (f : TileRec → TileRec) (j : Nat) : (c.modTile i f).bufSt j = c.bufSt j := rfl
@[simp] theorem Chip.modTile_bootSt (c : Chip) (i : Nat) (f : TileRec → TileRec) (j : Nat) : (c.modTile i f).bootSt j = c.bootSt j := rfl
@[simp] theorem Chip.modBuf_rd (c : Chip) (i : Nat) (f : BufferSt → BufferSt) (q : Fld) : (c.modBuf i f).rd q = c.rd q := rfl
@[simp] theorem Chip.modBuf_cluSt (c : Chip) (i : Nat) (f : BufferSt → BufferSt) (j : Nat) : (c.modBuf i f).cluSt j = c.cluSt j := rfl
@[simp] theorem Chip.modBuf_rgnSt (c : Chip) (i : Nat) (f : BufferSt → BufferSt) (j : Nat) : (c.modBuf i f).rgnSt j = c.rgnSt j := rfl
@[simp] theorem Chip.modBuf_dieSt (c : Chip) (i : Nat) (f : BufferSt → BufferSt) (j : Nat) : (c.modBuf i f).dieSt j = c.dieSt j := rfl
@[simp] theorem Chip.modBuf_laneSt (c : Chip) (i : Nat) (f : BufferSt → BufferSt) (j : Nat) : (c.modBuf i f).laneSt j = c.laneSt j := rfl
@[simp] theorem Chip.modBuf_linkSt (c : Chip) (i : Nat) (f : BufferSt → BufferSt) (j : Nat) : (c.modBuf i f).linkSt j = c.linkSt j := rfl
@[simp] theorem Chip.modBuf_btlSt (c : Chip) (i : Nat) (f : BufferSt → BufferSt) (j : Nat) : (c.modBuf i f).btlSt j = c.btlSt j := rfl
@[simp] theorem Chip.modBuf_unitSt (c : Chip) (i : Nat) (f : BufferSt → BufferSt) (j : Nat) : (c.modBuf i f).unitSt j = c.unitSt j := rfl
@[simp] theorem Chip.modBuf_poolSt (c : Chip) (i : Nat) (f : BufferSt → BufferSt) (j : Nat) : (c.modBuf i f).poolSt j = c.poolSt j := rfl
@[simp] theorem Chip.modBuf_readSt (c : Chip) (i : Nat) (f : BufferSt → BufferSt) (j : Nat) : (c.modBuf i f).readSt j = c.readSt j := rfl
@[simp] theorem Chip.modBuf_burnSt (c : Chip) (i : Nat) (f : BufferSt → BufferSt) (j : Nat) : (c.modBuf i f).burnSt j = c.burnSt j := rfl
@[simp] theorem Chip.modBuf_servoSt (c : Chip) (i : Nat) (f : BufferSt → BufferSt) (j : Nat) : (c.modBuf i f).servoSt j = c.servoSt j := rfl
@[simp] theorem Chip.modBuf_spinSt (c : Chip) (i : Nat) (f : BufferSt → BufferSt) (j : Nat) : (c.modBuf i f).spinSt j = c.spinSt j := rfl
@[simp] theorem Chip.modBuf_axisSt (c : Chip) (i : Nat) (f : BufferSt → BufferSt) (j : Nat) : (c.modBuf i f).axisSt j = c.axisSt j := rfl
@[simp] theorem Chip.modBuf_tileSt (c : Chip) (i : Nat) (f : BufferSt → BufferSt) (j : Nat) : (c.modBuf i f).tileSt j = c.tileSt j := rfl
@[simp] theorem Chip.modBuf_bootSt (c : Chip) (i : Nat) (f : BufferSt → BufferSt) (j : Nat) : (c.modBuf i f).bootSt j = c.bootSt j := rfl
@[simp] theorem Chip.modBoot_rd (c : Chip) (i : Nat) (f : BootSt → BootSt) (q : Fld) : (c.modBoot i f).rd q = c.rd q := rfl
@[simp] theorem Chip.modBoot_cluSt (c : Chip) (i : Nat) (f : BootSt → BootSt) (j : Nat) : (c.modBoot i f).cluSt j = c.cluSt j := rfl
@[simp] theorem Chip.modBoot_rgnSt (c : Chip) (i : Nat) (f : BootSt → BootSt) (j : Nat) : (c.modBoot i f).rgnSt j = c.rgnSt j := rfl
@[simp] theorem Chip.modBoot_dieSt (c : Chip) (i : Nat) (f : BootSt → BootSt) (j : Nat) : (c.modBoot i f).dieSt j = c.dieSt j := rfl
@[simp] theorem Chip.modBoot_laneSt (c : Chip) (i : Nat) (f : BootSt → BootSt) (j : Nat) : (c.modBoot i f).laneSt j = c.laneSt j := rfl
@[simp] theorem Chip.modBoot_linkSt (c : Chip) (i : Nat) (f : BootSt → BootSt) (j : Nat) : (c.modBoot i f).linkSt j = c.linkSt j := rfl
@[simp] theorem Chip.modBoot_btlSt (c : Chip) (i : Nat) (f : BootSt → BootSt) (j : Nat) : (c.modBoot i f).btlSt j = c.btlSt j := rfl
@[simp] theorem Chip.modBoot_unitSt (c : Chip) (i : Nat) (f : BootSt → BootSt) (j : Nat) : (c.modBoot i f).unitSt j = c.unitSt j := rfl
@[simp] theorem Chip.modBoot_poolSt (c : Chip) (i : Nat) (f : BootSt → BootSt) (j : Nat) : (c.modBoot i f).poolSt j = c.poolSt j := rfl
@[simp] theorem Chip.modBoot_readSt (c : Chip) (i : Nat) (f : BootSt → BootSt) (j : Nat) : (c.modBoot i f).readSt j = c.readSt j := rfl
@[simp] theorem Chip.modBoot_burnSt (c : Chip) (i : Nat) (f : BootSt → BootSt) (j : Nat) : (c.modBoot i f).burnSt j = c.burnSt j := rfl
@[simp] theorem Chip.modBoot_servoSt (c : Chip) (i : Nat) (f : BootSt → BootSt) (j : Nat) : (c.modBoot i f).servoSt j = c.servoSt j := rfl
@[simp] theorem Chip.modBoot_spinSt (c : Chip) (i : Nat) (f : BootSt → BootSt) (j : Nat) : (c.modBoot i f).spinSt j = c.spinSt j := rfl
@[simp] theorem Chip.modBoot_axisSt (c : Chip) (i : Nat) (f : BootSt → BootSt) (j : Nat) : (c.modBoot i f).axisSt j = c.axisSt j := rfl
@[simp] theorem Chip.modBoot_tileSt (c : Chip) (i : Nat) (f : BootSt → BootSt) (j : Nat) : (c.modBoot i f).tileSt j = c.tileSt j := rfl
@[simp] theorem Chip.modBoot_bufSt (c : Chip) (i : Nat) (f : BootSt → BootSt) (j : Nat) : (c.modBoot i f).bufSt j = c.bufSt j := rfl
@[simp] theorem Chip.modChain_rd (c : Chip) (f : ChainSt → ChainSt) (q : Fld) : (c.modChain f).rd q = c.rd q := rfl
@[simp] theorem Chip.modChain_cluSt (c : Chip) (f : ChainSt → ChainSt) (j : Nat) : (c.modChain f).cluSt j = c.cluSt j := rfl
@[simp] theorem Chip.modChain_rgnSt (c : Chip) (f : ChainSt → ChainSt) (j : Nat) : (c.modChain f).rgnSt j = c.rgnSt j := rfl
@[simp] theorem Chip.modChain_dieSt (c : Chip) (f : ChainSt → ChainSt) (j : Nat) : (c.modChain f).dieSt j = c.dieSt j := rfl
@[simp] theorem Chip.modChain_laneSt (c : Chip) (f : ChainSt → ChainSt) (j : Nat) : (c.modChain f).laneSt j = c.laneSt j := rfl
@[simp] theorem Chip.modChain_linkSt (c : Chip) (f : ChainSt → ChainSt) (j : Nat) : (c.modChain f).linkSt j = c.linkSt j := rfl
@[simp] theorem Chip.modChain_btlSt (c : Chip) (f : ChainSt → ChainSt) (j : Nat) : (c.modChain f).btlSt j = c.btlSt j := rfl
@[simp] theorem Chip.modChain_unitSt (c : Chip) (f : ChainSt → ChainSt) (j : Nat) : (c.modChain f).unitSt j = c.unitSt j := rfl
@[simp] theorem Chip.modChain_poolSt (c : Chip) (f : ChainSt → ChainSt) (j : Nat) : (c.modChain f).poolSt j = c.poolSt j := rfl
@[simp] theorem Chip.modChain_readSt (c : Chip) (f : ChainSt → ChainSt) (j : Nat) : (c.modChain f).readSt j = c.readSt j := rfl
@[simp] theorem Chip.modChain_burnSt (c : Chip) (f : ChainSt → ChainSt) (j : Nat) : (c.modChain f).burnSt j = c.burnSt j := rfl
@[simp] theorem Chip.modChain_servoSt (c : Chip) (f : ChainSt → ChainSt) (j : Nat) : (c.modChain f).servoSt j = c.servoSt j := rfl
@[simp] theorem Chip.modChain_spinSt (c : Chip) (f : ChainSt → ChainSt) (j : Nat) : (c.modChain f).spinSt j = c.spinSt j := rfl
@[simp] theorem Chip.modChain_axisSt (c : Chip) (f : ChainSt → ChainSt) (j : Nat) : (c.modChain f).axisSt j = c.axisSt j := rfl
@[simp] theorem Chip.modChain_tileSt (c : Chip) (f : ChainSt → ChainSt) (j : Nat) : (c.modChain f).tileSt j = c.tileSt j := rfl
@[simp] theorem Chip.modChain_bufSt (c : Chip) (f : ChainSt → ChainSt) (j : Nat) : (c.modChain f).bufSt j = c.bufSt j := rfl
@[simp] theorem Chip.modChain_bootSt (c : Chip) (f : ChainSt → ChainSt) (j : Nat) : (c.modChain f).bootSt j = c.bootSt j := rfl
@[simp] theorem Chip.modSky_rd (c : Chip) (f : SkySt → SkySt) (q : Fld) : (c.modSky f).rd q = c.rd q := rfl
@[simp] theorem Chip.modSky_cluSt (c : Chip) (f : SkySt → SkySt) (j : Nat) : (c.modSky f).cluSt j = c.cluSt j := rfl
@[simp] theorem Chip.modSky_rgnSt (c : Chip) (f : SkySt → SkySt) (j : Nat) : (c.modSky f).rgnSt j = c.rgnSt j := rfl
@[simp] theorem Chip.modSky_dieSt (c : Chip) (f : SkySt → SkySt) (j : Nat) : (c.modSky f).dieSt j = c.dieSt j := rfl
@[simp] theorem Chip.modSky_laneSt (c : Chip) (f : SkySt → SkySt) (j : Nat) : (c.modSky f).laneSt j = c.laneSt j := rfl
@[simp] theorem Chip.modSky_linkSt (c : Chip) (f : SkySt → SkySt) (j : Nat) : (c.modSky f).linkSt j = c.linkSt j := rfl
@[simp] theorem Chip.modSky_btlSt (c : Chip) (f : SkySt → SkySt) (j : Nat) : (c.modSky f).btlSt j = c.btlSt j := rfl
@[simp] theorem Chip.modSky_unitSt (c : Chip) (f : SkySt → SkySt) (j : Nat) : (c.modSky f).unitSt j = c.unitSt j := rfl
@[simp] theorem Chip.modSky_poolSt (c : Chip) (f : SkySt → SkySt) (j : Nat) : (c.modSky f).poolSt j = c.poolSt j := rfl
@[simp] theorem Chip.modSky_readSt (c : Chip) (f : SkySt → SkySt) (j : Nat) : (c.modSky f).readSt j = c.readSt j := rfl
@[simp] theorem Chip.modSky_burnSt (c : Chip) (f : SkySt → SkySt) (j : Nat) : (c.modSky f).burnSt j = c.burnSt j := rfl
@[simp] theorem Chip.modSky_servoSt (c : Chip) (f : SkySt → SkySt) (j : Nat) : (c.modSky f).servoSt j = c.servoSt j := rfl
@[simp] theorem Chip.modSky_spinSt (c : Chip) (f : SkySt → SkySt) (j : Nat) : (c.modSky f).spinSt j = c.spinSt j := rfl
@[simp] theorem Chip.modSky_axisSt (c : Chip) (f : SkySt → SkySt) (j : Nat) : (c.modSky f).axisSt j = c.axisSt j := rfl
@[simp] theorem Chip.modSky_tileSt (c : Chip) (f : SkySt → SkySt) (j : Nat) : (c.modSky f).tileSt j = c.tileSt j := rfl
@[simp] theorem Chip.modSky_bufSt (c : Chip) (f : SkySt → SkySt) (j : Nat) : (c.modSky f).bufSt j = c.bufSt j := rfl
@[simp] theorem Chip.modSky_bootSt (c : Chip) (f : SkySt → SkySt) (j : Nat) : (c.modSky f).bootSt j = c.bootSt j := rfl
@[simp] theorem Chip.modCat_rd (c : Chip) (f : CatSt → CatSt) (q : Fld) : (c.modCat f).rd q = c.rd q := rfl
@[simp] theorem Chip.modCat_cluSt (c : Chip) (f : CatSt → CatSt) (j : Nat) : (c.modCat f).cluSt j = c.cluSt j := rfl
@[simp] theorem Chip.modCat_rgnSt (c : Chip) (f : CatSt → CatSt) (j : Nat) : (c.modCat f).rgnSt j = c.rgnSt j := rfl
@[simp] theorem Chip.modCat_dieSt (c : Chip) (f : CatSt → CatSt) (j : Nat) : (c.modCat f).dieSt j = c.dieSt j := rfl
@[simp] theorem Chip.modCat_laneSt (c : Chip) (f : CatSt → CatSt) (j : Nat) : (c.modCat f).laneSt j = c.laneSt j := rfl
@[simp] theorem Chip.modCat_linkSt (c : Chip) (f : CatSt → CatSt) (j : Nat) : (c.modCat f).linkSt j = c.linkSt j := rfl
@[simp] theorem Chip.modCat_btlSt (c : Chip) (f : CatSt → CatSt) (j : Nat) : (c.modCat f).btlSt j = c.btlSt j := rfl
@[simp] theorem Chip.modCat_unitSt (c : Chip) (f : CatSt → CatSt) (j : Nat) : (c.modCat f).unitSt j = c.unitSt j := rfl
@[simp] theorem Chip.modCat_poolSt (c : Chip) (f : CatSt → CatSt) (j : Nat) : (c.modCat f).poolSt j = c.poolSt j := rfl
@[simp] theorem Chip.modCat_readSt (c : Chip) (f : CatSt → CatSt) (j : Nat) : (c.modCat f).readSt j = c.readSt j := rfl
@[simp] theorem Chip.modCat_burnSt (c : Chip) (f : CatSt → CatSt) (j : Nat) : (c.modCat f).burnSt j = c.burnSt j := rfl
@[simp] theorem Chip.modCat_servoSt (c : Chip) (f : CatSt → CatSt) (j : Nat) : (c.modCat f).servoSt j = c.servoSt j := rfl
@[simp] theorem Chip.modCat_spinSt (c : Chip) (f : CatSt → CatSt) (j : Nat) : (c.modCat f).spinSt j = c.spinSt j := rfl
@[simp] theorem Chip.modCat_axisSt (c : Chip) (f : CatSt → CatSt) (j : Nat) : (c.modCat f).axisSt j = c.axisSt j := rfl
@[simp] theorem Chip.modCat_tileSt (c : Chip) (f : CatSt → CatSt) (j : Nat) : (c.modCat f).tileSt j = c.tileSt j := rfl
@[simp] theorem Chip.modCat_bufSt (c : Chip) (f : CatSt → CatSt) (j : Nat) : (c.modCat f).bufSt j = c.bufSt j := rfl
@[simp] theorem Chip.modCat_bootSt (c : Chip) (f : CatSt → CatSt) (j : Nat) : (c.modCat f).bootSt j = c.bootSt j := rfl
@[simp] theorem Chip.modMoss_rd (c : Chip) (f : MossSt → MossSt) (q : Fld) : (c.modMoss f).rd q = c.rd q := rfl
@[simp] theorem Chip.modMoss_cluSt (c : Chip) (f : MossSt → MossSt) (j : Nat) : (c.modMoss f).cluSt j = c.cluSt j := rfl
@[simp] theorem Chip.modMoss_rgnSt (c : Chip) (f : MossSt → MossSt) (j : Nat) : (c.modMoss f).rgnSt j = c.rgnSt j := rfl
@[simp] theorem Chip.modMoss_dieSt (c : Chip) (f : MossSt → MossSt) (j : Nat) : (c.modMoss f).dieSt j = c.dieSt j := rfl
@[simp] theorem Chip.modMoss_laneSt (c : Chip) (f : MossSt → MossSt) (j : Nat) : (c.modMoss f).laneSt j = c.laneSt j := rfl
@[simp] theorem Chip.modMoss_linkSt (c : Chip) (f : MossSt → MossSt) (j : Nat) : (c.modMoss f).linkSt j = c.linkSt j := rfl
@[simp] theorem Chip.modMoss_btlSt (c : Chip) (f : MossSt → MossSt) (j : Nat) : (c.modMoss f).btlSt j = c.btlSt j := rfl
@[simp] theorem Chip.modMoss_unitSt (c : Chip) (f : MossSt → MossSt) (j : Nat) : (c.modMoss f).unitSt j = c.unitSt j := rfl
@[simp] theorem Chip.modMoss_poolSt (c : Chip) (f : MossSt → MossSt) (j : Nat) : (c.modMoss f).poolSt j = c.poolSt j := rfl
@[simp] theorem Chip.modMoss_readSt (c : Chip) (f : MossSt → MossSt) (j : Nat) : (c.modMoss f).readSt j = c.readSt j := rfl
@[simp] theorem Chip.modMoss_burnSt (c : Chip) (f : MossSt → MossSt) (j : Nat) : (c.modMoss f).burnSt j = c.burnSt j := rfl
@[simp] theorem Chip.modMoss_servoSt (c : Chip) (f : MossSt → MossSt) (j : Nat) : (c.modMoss f).servoSt j = c.servoSt j := rfl
@[simp] theorem Chip.modMoss_spinSt (c : Chip) (f : MossSt → MossSt) (j : Nat) : (c.modMoss f).spinSt j = c.spinSt j := rfl
@[simp] theorem Chip.modMoss_axisSt (c : Chip) (f : MossSt → MossSt) (j : Nat) : (c.modMoss f).axisSt j = c.axisSt j := rfl
@[simp] theorem Chip.modMoss_tileSt (c : Chip) (f : MossSt → MossSt) (j : Nat) : (c.modMoss f).tileSt j = c.tileSt j := rfl
@[simp] theorem Chip.modMoss_bufSt (c : Chip) (f : MossSt → MossSt) (j : Nat) : (c.modMoss f).bufSt j = c.bufSt j := rfl
@[simp] theorem Chip.modMoss_bootSt (c : Chip) (f : MossSt → MossSt) (j : Nat) : (c.modMoss f).bootSt j = c.bootSt j := rfl
@[simp] theorem Chip.modHost_rd (c : Chip) (f : HostSt → HostSt) (q : Fld) : (c.modHost f).rd q = c.rd q := rfl
@[simp] theorem Chip.modHost_cluSt (c : Chip) (f : HostSt → HostSt) (j : Nat) : (c.modHost f).cluSt j = c.cluSt j := rfl
@[simp] theorem Chip.modHost_rgnSt (c : Chip) (f : HostSt → HostSt) (j : Nat) : (c.modHost f).rgnSt j = c.rgnSt j := rfl
@[simp] theorem Chip.modHost_dieSt (c : Chip) (f : HostSt → HostSt) (j : Nat) : (c.modHost f).dieSt j = c.dieSt j := rfl
@[simp] theorem Chip.modHost_laneSt (c : Chip) (f : HostSt → HostSt) (j : Nat) : (c.modHost f).laneSt j = c.laneSt j := rfl
@[simp] theorem Chip.modHost_linkSt (c : Chip) (f : HostSt → HostSt) (j : Nat) : (c.modHost f).linkSt j = c.linkSt j := rfl
@[simp] theorem Chip.modHost_btlSt (c : Chip) (f : HostSt → HostSt) (j : Nat) : (c.modHost f).btlSt j = c.btlSt j := rfl
@[simp] theorem Chip.modHost_unitSt (c : Chip) (f : HostSt → HostSt) (j : Nat) : (c.modHost f).unitSt j = c.unitSt j := rfl
@[simp] theorem Chip.modHost_poolSt (c : Chip) (f : HostSt → HostSt) (j : Nat) : (c.modHost f).poolSt j = c.poolSt j := rfl
@[simp] theorem Chip.modHost_readSt (c : Chip) (f : HostSt → HostSt) (j : Nat) : (c.modHost f).readSt j = c.readSt j := rfl
@[simp] theorem Chip.modHost_burnSt (c : Chip) (f : HostSt → HostSt) (j : Nat) : (c.modHost f).burnSt j = c.burnSt j := rfl
@[simp] theorem Chip.modHost_servoSt (c : Chip) (f : HostSt → HostSt) (j : Nat) : (c.modHost f).servoSt j = c.servoSt j := rfl
@[simp] theorem Chip.modHost_spinSt (c : Chip) (f : HostSt → HostSt) (j : Nat) : (c.modHost f).spinSt j = c.spinSt j := rfl
@[simp] theorem Chip.modHost_axisSt (c : Chip) (f : HostSt → HostSt) (j : Nat) : (c.modHost f).axisSt j = c.axisSt j := rfl
@[simp] theorem Chip.modHost_tileSt (c : Chip) (f : HostSt → HostSt) (j : Nat) : (c.modHost f).tileSt j = c.tileSt j := rfl
@[simp] theorem Chip.modHost_bufSt (c : Chip) (f : HostSt → HostSt) (j : Nat) : (c.modHost f).bufSt j = c.bufSt j := rfl
@[simp] theorem Chip.modHost_bootSt (c : Chip) (f : HostSt → HostSt) (j : Nat) : (c.modHost f).bootSt j = c.bootSt j := rfl
@[simp] theorem Chip.modTrust_rd (c : Chip) (f : TrustSt → TrustSt) (q : Fld) : (c.modTrust f).rd q = c.rd q := rfl
@[simp] theorem Chip.modTrust_cluSt (c : Chip) (f : TrustSt → TrustSt) (j : Nat) : (c.modTrust f).cluSt j = c.cluSt j := rfl
@[simp] theorem Chip.modTrust_rgnSt (c : Chip) (f : TrustSt → TrustSt) (j : Nat) : (c.modTrust f).rgnSt j = c.rgnSt j := rfl
@[simp] theorem Chip.modTrust_dieSt (c : Chip) (f : TrustSt → TrustSt) (j : Nat) : (c.modTrust f).dieSt j = c.dieSt j := rfl
@[simp] theorem Chip.modTrust_laneSt (c : Chip) (f : TrustSt → TrustSt) (j : Nat) : (c.modTrust f).laneSt j = c.laneSt j := rfl
@[simp] theorem Chip.modTrust_linkSt (c : Chip) (f : TrustSt → TrustSt) (j : Nat) : (c.modTrust f).linkSt j = c.linkSt j := rfl
@[simp] theorem Chip.modTrust_btlSt (c : Chip) (f : TrustSt → TrustSt) (j : Nat) : (c.modTrust f).btlSt j = c.btlSt j := rfl
@[simp] theorem Chip.modTrust_unitSt (c : Chip) (f : TrustSt → TrustSt) (j : Nat) : (c.modTrust f).unitSt j = c.unitSt j := rfl
@[simp] theorem Chip.modTrust_poolSt (c : Chip) (f : TrustSt → TrustSt) (j : Nat) : (c.modTrust f).poolSt j = c.poolSt j := rfl
@[simp] theorem Chip.modTrust_readSt (c : Chip) (f : TrustSt → TrustSt) (j : Nat) : (c.modTrust f).readSt j = c.readSt j := rfl
@[simp] theorem Chip.modTrust_burnSt (c : Chip) (f : TrustSt → TrustSt) (j : Nat) : (c.modTrust f).burnSt j = c.burnSt j := rfl
@[simp] theorem Chip.modTrust_servoSt (c : Chip) (f : TrustSt → TrustSt) (j : Nat) : (c.modTrust f).servoSt j = c.servoSt j := rfl
@[simp] theorem Chip.modTrust_spinSt (c : Chip) (f : TrustSt → TrustSt) (j : Nat) : (c.modTrust f).spinSt j = c.spinSt j := rfl
@[simp] theorem Chip.modTrust_axisSt (c : Chip) (f : TrustSt → TrustSt) (j : Nat) : (c.modTrust f).axisSt j = c.axisSt j := rfl
@[simp] theorem Chip.modTrust_tileSt (c : Chip) (f : TrustSt → TrustSt) (j : Nat) : (c.modTrust f).tileSt j = c.tileSt j := rfl
@[simp] theorem Chip.modTrust_bufSt (c : Chip) (f : TrustSt → TrustSt) (j : Nat) : (c.modTrust f).bufSt j = c.bufSt j := rfl
@[simp] theorem Chip.modTrust_bootSt (c : Chip) (f : TrustSt → TrustSt) (j : Nat) : (c.modTrust f).bootSt j = c.bootSt j := rfl
@[simp] theorem Chip.modPower_rd (c : Chip) (f : PowerSt → PowerSt) (q : Fld) : (c.modPower f).rd q = c.rd q := rfl
@[simp] theorem Chip.modPower_cluSt (c : Chip) (f : PowerSt → PowerSt) (j : Nat) : (c.modPower f).cluSt j = c.cluSt j := rfl
@[simp] theorem Chip.modPower_rgnSt (c : Chip) (f : PowerSt → PowerSt) (j : Nat) : (c.modPower f).rgnSt j = c.rgnSt j := rfl
@[simp] theorem Chip.modPower_dieSt (c : Chip) (f : PowerSt → PowerSt) (j : Nat) : (c.modPower f).dieSt j = c.dieSt j := rfl
@[simp] theorem Chip.modPower_laneSt (c : Chip) (f : PowerSt → PowerSt) (j : Nat) : (c.modPower f).laneSt j = c.laneSt j := rfl
@[simp] theorem Chip.modPower_linkSt (c : Chip) (f : PowerSt → PowerSt) (j : Nat) : (c.modPower f).linkSt j = c.linkSt j := rfl
@[simp] theorem Chip.modPower_btlSt (c : Chip) (f : PowerSt → PowerSt) (j : Nat) : (c.modPower f).btlSt j = c.btlSt j := rfl
@[simp] theorem Chip.modPower_unitSt (c : Chip) (f : PowerSt → PowerSt) (j : Nat) : (c.modPower f).unitSt j = c.unitSt j := rfl
@[simp] theorem Chip.modPower_poolSt (c : Chip) (f : PowerSt → PowerSt) (j : Nat) : (c.modPower f).poolSt j = c.poolSt j := rfl
@[simp] theorem Chip.modPower_readSt (c : Chip) (f : PowerSt → PowerSt) (j : Nat) : (c.modPower f).readSt j = c.readSt j := rfl
@[simp] theorem Chip.modPower_burnSt (c : Chip) (f : PowerSt → PowerSt) (j : Nat) : (c.modPower f).burnSt j = c.burnSt j := rfl
@[simp] theorem Chip.modPower_servoSt (c : Chip) (f : PowerSt → PowerSt) (j : Nat) : (c.modPower f).servoSt j = c.servoSt j := rfl
@[simp] theorem Chip.modPower_spinSt (c : Chip) (f : PowerSt → PowerSt) (j : Nat) : (c.modPower f).spinSt j = c.spinSt j := rfl
@[simp] theorem Chip.modPower_axisSt (c : Chip) (f : PowerSt → PowerSt) (j : Nat) : (c.modPower f).axisSt j = c.axisSt j := rfl
@[simp] theorem Chip.modPower_tileSt (c : Chip) (f : PowerSt → PowerSt) (j : Nat) : (c.modPower f).tileSt j = c.tileSt j := rfl
@[simp] theorem Chip.modPower_bufSt (c : Chip) (f : PowerSt → PowerSt) (j : Nat) : (c.modPower f).bufSt j = c.bufSt j := rfl
@[simp] theorem Chip.modPower_bootSt (c : Chip) (f : PowerSt → PowerSt) (j : Nat) : (c.modPower f).bootSt j = c.bootSt j := rfl

end Sys2Proof.Machine
end

