-- ==== Sys2Proof/Laws/Hooks.lean ====
section
/-! SUPPORT. The hooks after a meaning leave a calm chip as it is, and which changes keep a chip calm. -/
namespace Sys2Proof.Machine

theorem filterMap_nil_of_imp {α β : Type} {l : List α} {p q : α → Bool} {g : α → β} (h : (l.filter p).map g = []) (k : ∀ a, q a = true → p a = true) :
    (l.filter q).map g = [] := by
  rw [List.map_eq_nil_iff, List.filter_eq_nil_iff] at h ⊢
  exact fun a m e => h a m (k a e)

/-- With no context of a kind there is none of a narrower kind. -/
theorem Chip.contexts_nil_of_imp {c : Chip} {p q : CtxSt → Bool} (h : c.contexts p = []) (k : ∀ a, q a = true → p a = true) : c.contexts q = [] := by
  unfold Chip.contexts at h ⊢
  rw [List.flatMap_eq_nil_iff] at h ⊢
  intro e m
  have := h e m
  by_cases l : e.2.live
  · simp only [l, if_true] at this ⊢
    exact filterMap_nil_of_imp this fun a => k a.2
  · simp [l]

theorem Chip.Calm.loadStep {c : Chip} (h : c.Calm) {d : Nat} (hd : d < 24) : c.loadStep d = c := by
  unfold Chip.loadStep
  rw [h.load d hd]

theorem Chip.Calm.loadGone {c : Chip} (h : c.Calm) (d : Nat) : c.loadGone d = c := by
  unfold Chip.loadGone
  rw [Chip.contexts_nil_of_imp h.ctx]
  · simp
  · simp +contextual

theorem Chip.Calm.topUp {c : Chip} (h : c.Calm) (d : Nat) : c.topUp d = c := by
  unfold Chip.topUp
  have e (g : FrondRec → List RunDesc) : (c.cat.fronds.flatMap fun f => if f.state = .burning then g f else []) = [] := by
    rw [List.flatMap_eq_nil_iff]
    intro f m
    rw [if_neg (h.idle f m)]
  split
  · rfl
  · dsimp only
    simp [e]

theorem Chip.Calm.burnSpot {c : Chip} (h : c.Calm) {d : Nat} (hd : d < 24) : c.burnSpot d = none := by
  obtain ⟨hr, hk, hx⟩ := h.burn d hd
  simp [Chip.burnSpot, Chip.blankCheck, Chip.searchPlace, h.load d hd, hr, hk, hx]

theorem Chip.Calm.aimBurn {c : Chip} (h : c.Calm) {d : Nat} (hd : d < 24) : c.aimBurn d = c := by
  simp [Chip.aimBurn, h.burnSpot hd]

theorem Chip.Calm.nextPlanned {c : Chip} (h : c.Calm) (d : Nat) : c.nextPlanned d = none := by
  simp [Chip.nextPlanned, Chip.launchesInOrder, h.launch]

theorem Chip.Calm.keepReading {c : Chip} (h : c.Calm) {d : Nat} (hd : d < 24) : c.keepReading d = c := by
  obtain ⟨hc, hq, -, hs, hw⟩ := h.read d hd
  have hu : c.speedUp d = c := by simp [Chip.speedUp, hs]
  have hk : c.wakeReads d = c := by simp [Chip.wakeReads, hc, hq]
  have ha : c.aimLaunch d = c := by simp [Chip.aimLaunch, h.nextPlanned d]
  have ht : c.keepTiming d = c := by simp [Chip.keepTiming, Chip.bandWanted, h.burnSpot hd, hc]
  simp [Chip.keepReading, hu, hw, hk, ha, ht]

theorem Chip.Calm.driveHooks {s : State} (h : s.chip.Calm) {d : Nat} (hd : d < 24) : s.driveHooks d = s := by
  unfold State.driveHooks State.answerReads
  simp [h.loadStep hd, h.loadGone d, h.topUp d, h.aimBurn hd, h.keepReading hd, (h.read d hd).2.2.1]

theorem Chip.Calm.axisHooks {c : Chip} (h : c.Calm) : c.axisHooks = c := by
  unfold Chip.axisHooks
  rw [Chip.contexts_nil_of_imp h.ctx]
  · simp
  · simp +contextual

theorem Chip.Calm.spinHooks {c : Chip} (h : c.Calm) : c.spinHooks = c := by
  unfold Chip.spinHooks
  rw [Chip.contexts_nil_of_imp h.ctx]
  · simp
  · simp +contextual

/-- Nothing follows in a calm chip. -/
theorem Chip.Calm.allHooks {s : State} (h : s.chip.Calm) : s.allHooks = s := by
  unfold State.allHooks
  have f (l : List Nat) (hl : ∀ d ∈ l, d < 24) : l.foldl State.driveHooks s = s := by
    induction l with
    | nil => rfl
    | cons d l ih =>
      rw [List.foldl_cons, h.driveHooks (hl d (by simp))]
      exact ih fun d m => hl d (by simp [m])
  rw [f _ fun d m => List.mem_range.1 m]
  simp [h.spinHooks, h.axisHooks]

theorem Chip.Calm.hooked {s : State} (h : s.chip.Calm) : hooked (.next s) = .next s := by
  simp [Machine.hooked, h.allHooks]

/-- A change of none of the five tables keeps a chip calm. -/
theorem Chip.Calm.of_eq {c c' : Chip} (h : c.Calm) (h1 : c'.cat = c.cat) (h2 : c'.read = c.read) (h3 : c'.host.sess = c.host.sess) (h4 : c'.burn = c.burn)
    (h5 : c'.launches = c.launches) : c'.Calm where
  load d hd := by simpa [Chip.load, h1] using h.load d hd
  read d hd := by simpa [Chip.readSt, h2] using h.read d hd
  burn d hd := by simpa [Chip.burnSt, h4] using h.burn d hd
  launch := h5 ▸ h.launch
  idle f m := h.idle f (h1 ▸ m)
  ctx := by simpa [Chip.contexts, h3] using h.ctx

end Sys2Proof.Machine
end

