-- ==== Sys2Proof/Laws/Memory.lean ====
section
/-! SUPPORT. The DRAM bytes: reads after writes, and that every write keeps the canonical form. -/
namespace Sys2Proof.Machine

theorem memRead_insert_same (m : List Host.Cell) (a : Nat) (v : BitVec 8) : memRead (memInsert m a v) a = v := by
  induction m with
  | nil => simp [memInsert, memRead]
  | cons e m ih =>
    obtain ⟨k, w⟩ := e
    by_cases h : a < k
    · simp [memInsert, memRead, h]
    · by_cases h2 : a = k
      · simp [memInsert, memRead, h2]
      · simp [memInsert, memRead, h, h2, ih]

theorem memRead_insert_ne (m : List Host.Cell) {a b : Nat} (v : BitVec 8) (h : b ≠ a) : memRead (memInsert m a v) b = memRead m b := by
  induction m with
  | nil => simp [memInsert, memRead, h]
  | cons e m ih =>
    obtain ⟨k, w⟩ := e
    by_cases h1 : a < k
    · simp [memInsert, memRead, h1, h]
    · by_cases h2 : a = k
      · subst h2
        simp [memInsert, memRead, h]
      · simp [memInsert, memRead, h1, h2, ih]

theorem memRead_filter_same (m : List Host.Cell) (a : Nat) : memRead (m.filter fun e => e.1 != a) a = dramDefault := by
  induction m with
  | nil => rfl
  | cons e m ih =>
    by_cases h : e.1 = a
    · have : (e :: m).filter (fun e => e.1 != a) = m.filter fun e => e.1 != a := by simp [h]
      rw [this, ih]
    · have : (e :: m).filter (fun e => e.1 != a) = e :: m.filter fun e => e.1 != a := by simp [h]
      rw [this]
      simp [memRead, Ne.symm h, ih]

theorem memRead_filter_ne (m : List Host.Cell) {a b : Nat} (h : b ≠ a) : memRead (m.filter fun e => e.1 != a) b = memRead m b := by
  induction m with
  | nil => rfl
  | cons e m ih =>
    by_cases h1 : e.1 = a
    · have : (e :: m).filter (fun e => e.1 != a) = m.filter fun e => e.1 != a := by simp [h1]
      rw [this, ih]
      obtain ⟨k, w⟩ := e
      have h1 : k = a := h1
      simp [memRead, h1, h]
    · have : (e :: m).filter (fun e => e.1 != a) = e :: m.filter fun e => e.1 != a := by simp [h1]
      rw [this]
      simp [memRead, ih]

/-- A byte written to a usable address reads back; outside the usable ranges nothing is written. -/
theorem memRead_write_same (m : List Host.Cell) (a : Nat) (v : BitVec 8) :
    memRead (memWrite m a v) a = if dramMapped a then v else memRead m a := by
  unfold memWrite
  split
  · split
    · next h => rw [memRead_filter_same, h]
    · exact memRead_insert_same m a v
  · rfl

/-- A write of one byte leaves every other byte. -/
theorem memRead_write_ne (m : List Host.Cell) {a b : Nat} (v : BitVec 8) (h : b ≠ a) : memRead (memWrite m a v) b = memRead m b := by
  unfold memWrite
  split
  · split
    · exact memRead_filter_ne m h
    · exact memRead_insert_ne m v h
  · rfl

/-- Writes of consecutive bytes leave every byte outside them. -/
theorem memRead_writes_outside (m : List Host.Cell) (a : Nat) (bs : List Nat) (b : Nat) (h : b < a ∨ a + bs.length ≤ b) :
    memRead (memWrites m a bs) b = memRead m b := by
  induction bs generalizing m a with
  | nil => rfl
  | cons x bs ih =>
    have hne : b ≠ a := by simp at h; omega
    rw [memWrites, ih _ (a + 1) (by simp at h; omega), memRead_write_ne m _ hne]

/-- A byte among those written at consecutive usable addresses reads back. -/
theorem memRead_writes_inside (m : List Host.Cell) (a : Nat) (bs : List Nat) (i : Nat) (h : i < bs.length) (hm : dramMapped (a + i) = true) :
    memRead (memWrites m a bs) (a + i) = BitVec.ofNat 8 (bs.getD i 0) := by
  induction bs generalizing m a i with
  | nil => simp at h
  | cons x bs ih =>
    cases i with
    | zero =>
      rw [memWrites, memRead_writes_outside _ (a + 1) bs (a + 0) (by omega)]
      have hm : dramMapped a = true := hm
      simp [memRead_write_same, hm]
    | succ i =>
      have := ih (memWrite m a (BitVec.ofNat 8 x)) (a + 1) i (by simpa using h) (by rwa [show a + 1 + i = a + (i + 1) by omega])
      rw [memWrites, show a + (i + 1) = a + 1 + i by omega, this]
      simp

/-! ### The canonical form -/

theorem memInsert_keys (m : List Host.Cell) (a : Nat) (v : BitVec 8) : ∀ k ∈ (memInsert m a v).map (·.1), k = a ∨ k ∈ m.map (·.1) := by
  induction m with
  | nil => simp [memInsert]
  | cons e m ih =>
    obtain ⟨j, w⟩ := e
    intro k hk
    unfold memInsert at hk
    split at hk
    · simpa using hk
    · split at hk
      · simp only [List.map_cons, List.mem_cons] at hk ⊢
        rcases hk with hk | hk
        · exact Or.inl hk
        · exact Or.inr (Or.inr hk)
      · simp only [List.map_cons, List.mem_cons] at hk ⊢
        rcases hk with hk | hk
        · exact Or.inr (Or.inl hk)
        · rcases ih k hk with h | h
          · exact Or.inl h
          · exact Or.inr (Or.inr h)

theorem memInsert_sorted (m : List Host.Cell) (a : Nat) (v : BitVec 8) (h : (m.map (·.1)).Pairwise (· < ·)) :
    ((memInsert m a v).map (·.1)).Pairwise (· < ·) := by
  induction m with
  | nil => simp [memInsert]
  | cons e m ih =>
    obtain ⟨k, w⟩ := e
    simp only [List.map_cons, List.pairwise_cons] at h
    unfold memInsert
    split
    · next hlt =>
      simp only [List.map_cons, List.pairwise_cons, List.mem_cons]
      refine ⟨?_, h.1, h.2⟩
      rintro x (rfl | hx)
      · exact hlt
      · exact Nat.lt_trans hlt (h.1 x hx)
    · split
      · next h2 =>
        simp only [List.map_cons, List.pairwise_cons]
        exact ⟨fun x hx => h2 ▸ h.1 x hx, h.2⟩
      · next h1 h2 =>
        simp only [List.map_cons, List.pairwise_cons]
        refine ⟨fun x hx => ?_, ih h.2⟩
        rcases memInsert_keys m a v x hx with rfl | hx
        · omega
        · exact h.1 x hx

theorem memInsert_all (m : List Host.Cell) (a : Nat) (v : BitVec 8) (p : Host.Cell → Bool) (hp : p (a, v) = true) (h : m.all p = true) :
    (memInsert m a v).all p = true := by
  induction m with
  | nil => simp [memInsert, hp]
  | cons e m ih =>
    obtain ⟨k, w⟩ := e
    simp only [List.all_cons, Bool.and_eq_true] at h
    unfold memInsert
    split
    · simp [hp, h.1, h.2]
    · split
      · simp [hp, h.2]
      · simp only [List.all_cons, Bool.and_eq_true]
        exact ⟨h.1, ih h.2⟩

/-- A write keeps the canonical form. -/
theorem memWf_write (m : List Host.Cell) (a : Nat) (v : BitVec 8) (h : memWf m = true) : memWf (memWrite m a v) = true := by
  unfold memWf at h ⊢
  simp only [Bool.and_eq_true, decide_eq_true_eq] at h ⊢
  unfold memWrite
  split
  · next hm =>
    split
    · exact ⟨(List.Pairwise.sublist ((List.filter_sublist (l := m)).map _) h.1), by
        rw [List.all_eq_true] at h ⊢
        exact fun e he => h.2 e (List.mem_filter.1 he).1⟩
    · next hv =>
      refine ⟨memInsert_sorted m a v h.1, memInsert_all m a v _ ?_ h.2⟩
      simp [hm, hv]
  · exact h

/-- Writes of bytes keep the canonical form. -/
theorem memWf_writes (m : List Host.Cell) (a : Nat) (bs : List Nat) (h : memWf m = true) : memWf (memWrites m a bs) = true := by
  induction bs generalizing m a with
  | nil => exact h
  | cons b bs ih => exact ih _ _ (memWf_write m a _ h)

/-- Leaving out cells keeps the canonical form. -/
theorem memWf_filter (m : List Host.Cell) (p : Host.Cell → Bool) (h : memWf m = true) : memWf (m.filter p) = true := by
  unfold memWf at h ⊢
  simp only [Bool.and_eq_true, decide_eq_true_eq, List.all_eq_true] at h ⊢
  exact ⟨List.Pairwise.sublist ((List.filter_sublist (l := m)).map _) h.1, fun e he => h.2 e (List.mem_filter.1 he).1⟩

theorem memWf_nil : memWf [] = true := by decide

end Sys2Proof.Machine
end

