-- ==== Sys2Proof/Laws/Keeps.lean ====
section
/-! SUPPORT. What every shared operation on the state keeps: the queue of waiting commands as it is, and the canonical form of the DRAM bytes. -/
namespace Sys2Proof.Machine

/-- The waiting commands are the same, and canonical DRAM bytes stay canonical. -/
def Keeps (s t : State) : Prop := t.pending = s.pending ∧ (memWf s.dram = true → memWf t.dram = true)

/-- A meaning answers a next state that keeps both. -/
def Ends (o : Host.Outcome State Fault Refusal) (s : State) : Prop := ∃ t, o = .next t ∧ Keeps s t

theorem Keeps.refl (s : State) : Keeps s s := ⟨rfl, id⟩

theorem Keeps.trans {s t u : State} (h : Keeps s t) (k : Keeps t u) : Keeps s u := ⟨k.1.trans h.1, fun w => k.2 (h.2 w)⟩

/-- A change of the chip alone. -/
theorem Keeps.chip (s : State) (c : Chip) : Keeps s { s with chip := c } := ⟨rfl, id⟩

/-- A change of the chip after something else. -/
theorem Keeps.thenChip {s t : State} (h : Keeps s t) (c : Chip) : Keeps s { t with chip := c } := ⟨h.1, h.2⟩

/-- A change of the chip before something else. -/
theorem Keeps.chipThen {s t : State} {c : Chip} (h : Keeps { s with chip := c } t) : Keeps s t := ⟨h.1, h.2⟩

/-- Bytes written and a change of the chip. -/
theorem Keeps.writes (s : State) (a : Nat) (bs : List Nat) (c : Chip) : Keeps s { s with dram := memWrites s.dram a bs, chip := c } :=
  ⟨rfl, memWf_writes _ _ _⟩

theorem Keeps.foldl {α : Type} (f : State → α → State) (hf : ∀ s a, Keeps s (f s a)) (l : List α) (s : State) : Keeps s (l.foldl f s) := by
  induction l generalizing s with
  | nil => exact Keeps.refl s
  | cons a l ih => exact (hf s a).trans (ih _)

theorem Ends.next {s t : State} (h : Keeps s t) : Ends (.next t) s := ⟨t, rfl, h⟩

theorem Ends.nextChip (s : State) (c : Chip) : Ends (s.nextChip c) s := ⟨_, rfl, Keeps.chip s c⟩

theorem keeps_withChip (s : State) (f : Chip → Chip) : Keeps s (s.withChip f) := Keeps.chip s _

theorem Keeps.thenWith {s t : State} (h : Keeps s t) (f : Chip → Chip) : Keeps s (t.withChip f) := h.thenChip _

/-! ### Tiles and the merge buffer -/

theorem keeps_writeBlock (s : State) (b : Nat) (bs : List Nat) : Keeps s (s.writeBlock b bs) := by
  unfold State.writeBlock
  dsimp only
  split
  · exact Keeps.chip ..
  · exact Keeps.writes ..

theorem keeps_writeEntry (s : State) (e : Nat) (m : MergeEntry) : Keeps s (s.writeEntry e m) := by
  unfold State.writeEntry
  split
  · exact keeps_writeBlock ..
  · split
    · exact Keeps.chip ..
    · exact keeps_writeBlock ..

theorem keeps_flushBlock (s : State) (a : Nat) : Keeps s (s.flushBlock a) := by
  unfold State.flushBlock
  split
  · exact keeps_writeEntry ..
  · exact Keeps.refl s

theorem keeps_mergeWrite (s t : State) (a : Nat) (bs : List Nat) (tile : Bool) (h : s.mergeWrite a bs tile = some t) : Keeps s t := by
  unfold State.mergeWrite at h
  dsimp only at h
  split at h
  · have h := Option.some.inj h
    subst h
    split
    · exact (Keeps.chip s _).trans (keeps_writeEntry ..)
    · exact Keeps.chip ..
  · split at h
    · cases h
    · have h := Option.some.inj h
      subst h
      refine Keeps.thenChip ?_ _
      split
      · split
        · exact (keeps_writeEntry ..).thenChip _
        · exact Keeps.refl s
      · exact Keeps.refl s

theorem keeps_writeBeat (s : State) (t n : Nat) (bs : List Nat) : Keeps s (s.writeBeat t n bs) := (keeps_writeBlock ..).thenChip _

theorem keeps_tileWrite (s : State) (t off : Nat) (bs : List Nat) : Keeps s (s.tileWrite t off bs).1 := by
  unfold State.tileWrite
  dsimp only
  split
  · exact Keeps.refl s
  · split
    · exact keeps_writeBeat ..
    · split
      · exact Keeps.refl s
      · next u h =>
        split
        · exact (keeps_mergeWrite _ _ _ _ _ h).trans (keeps_writeBeat ..)
        · exact keeps_mergeWrite _ _ _ _ _ h

theorem keeps_writePiece (s : State) (m a : Nat) (bs : List Nat) : Keeps s (s.writePiece m a bs) := by
  unfold State.writePiece
  dsimp only
  split
  · exact Keeps.chip ..
  · split
    · exact Keeps.chip ..
    · split
      · exact (keeps_tileWrite ..).thenChip _
      · split
        · exact (keeps_writeBlock ..).thenChip _
        · split
          · exact Keeps.chip ..
          · split
            · next h => exact (keeps_mergeWrite _ _ _ _ _ h).thenChip _
            · exact Keeps.chip ..

theorem keeps_readBlock (s : State) (m a err : Nat) : Keeps s (s.readBlock m a err) := by
  unfold State.readBlock
  dsimp only
  repeat' split
  all_goals first
    | exact Keeps.chip ..
    | exact (keeps_flushBlock ..).thenChip _
    | exact ((keeps_flushBlock ..).thenChip _).thenChip _

theorem keeps_fillTiles (s : State) (ts bs : List Nat) : Keeps s (s.fillTiles ts bs) :=
  Keeps.foldl _ (fun s e => by dsimp only; split <;> first | exact Keeps.writes .. | exact Keeps.refl s) _ _

theorem keeps_sendRange (s : State) (n x start stop total : Nat) : Keeps s (s.sendRange n x start stop total).1 := by
  unfold State.sendRange
  dsimp only
  split <;> exact Keeps.chip ..

theorem keeps_phaseBytes (s : State) (n x use : Nat) : Keeps s (s.phaseBytes n x use).2 := by
  unfold State.phaseBytes
  dsimp only
  split
  · exact Keeps.chip ..
  · exact Keeps.refl s

theorem keeps_putBytes (s : State) (n x : Nat) : Keeps s (s.putBytes n x).2 := by
  unfold State.putBytes
  dsimp only
  split
  · exact Keeps.chip ..
  · exact Keeps.refl s

/-! ### Phases and answers -/

theorem keeps_sendData (s : State) (n x : Nat) (bytes : List Nat) : Keeps s (s.sendData n x bytes) := by
  unfold State.sendData
  dsimp only
  exact (((Keeps.chip s _).trans (keeps_fillTiles _ _ _)).trans (keeps_sendRange ..)).thenChip _

theorem keeps_answer (s : State) (n x : Nat) (bytes data : List Nat) : Keeps s (s.answer n x bytes data) := (keeps_sendData ..).thenChip _

theorem keeps_answerList (s : State) (n x : Nat) (k : Cmd) (es : List (List Nat)) : Keeps s (s.answerList n x k es) := keeps_answer ..

theorem keeps_answerFree (s : State) (n x : Nat) (k : Cmd) (ids : List Nat) : Keeps s (s.answerFree n x k ids) :=
  (Keeps.chip s _).trans (keeps_answerList ..)

theorem keeps_closePhase (s : State) (n x : Nat) : Keeps s (s.closePhase n x) := keeps_fillTiles ..

theorem memWf_writePhase (filling : Nat → Bool) (m : List Host.Cell) (tiles : List Nat) (off : Nat) (bs : List Nat) (h : memWf m = true) :
    memWf (writePhase filling m tiles off bs) = true := by
  unfold writePhase
  generalize blockPieces bs.length off bs = l
  induction l generalizing m with
  | nil => exact h
  | cons p l ih =>
    refine ih _ ?_
    dsimp only
    split
    · split
      · exact memWf_writes _ _ _ h
      · exact h
    · exact h

theorem keeps_takeData (s : State) (n x off : Nat) (bs : List Nat) : Keeps s (s.takeData n x off bs) := by
  unfold State.takeData
  dsimp only
  have h (l : List (Nat × Nat)) (m : List Host.Cell) (hm : memWf m = true) :
      memWf (l.foldl (fun m p => writePhase (fun t => (s.chip.tileSt t).state == 1) m (s.chip.ctxSt n x).tiles p.1 ((bs.drop (p.1 - off)).take (p.2 - p.1))) m) = true := by
    induction l generalizing m with
    | nil => exact hm
    | cons p l ih => exact ih _ (memWf_writePhase _ _ _ _ _ hm)
  split
  · exact ⟨rfl, h _ _⟩
  · exact ⟨rfl, h _ _⟩

theorem keeps_startPhase (s : State) (n x : Nat) (k : Cmd) (done : State → State) (h : Keeps s (done s)) : Keeps s (s.startPhase n x k done) := by
  unfold State.startPhase
  split
  · exact h
  · exact Keeps.chip ..

theorem keeps_failOr (s : State) (n x code : Nat) (go : State → State) (h : Keeps s (go s)) : Keeps s (s.failOr n x code go) := by
  unfold State.failOr
  split
  · exact keeps_withChip ..
  · exact h

/-- What is done with the bytes of a phase keeps both when its two ends do. -/
theorem keeps_phase (s : State) (n x use : Nat) (f : Option (List Nat) × State → State) (h : ∀ b t, Keeps t (f (b, t))) :
    Keeps s (f (s.phaseBytes n x use)) := (keeps_phaseBytes s n x use).trans (h _ _)

theorem keeps_stageData (s : State) (n x : Nat) : Keeps s (s.stageData n x) := by
  unfold State.stageData
  have h := keeps_phaseBytes s n x 1
  split <;> next e => rw [e] at h; exact h.thenWith _

theorem keeps_enrolData (s : State) (n x r : Nat) : Keeps s (s.enrolData n x r) := by
  unfold State.enrolData
  have h := keeps_phaseBytes s n x 1
  split <;> next e => rw [e] at h; exact h.thenWith _

theorem keeps_transferData (s : State) (n x : Nat) : Keeps s (s.transferData n x) := by
  unfold State.transferData
  have h := keeps_phaseBytes s n x 1
  split <;> next e => rw [e] at h; exact h.thenWith _

theorem keeps_formData (s : State) (n x : Nat) : Keeps s (s.formData n x) := by
  unfold State.formData
  dsimp only
  have h := keeps_phaseBytes s n x 1
  split <;> next e => rw [e] at h; exact h.thenWith _

theorem keeps_joinData (s : State) (n x : Nat) : Keeps s (s.joinData n x) := by
  unfold State.joinData
  dsimp only
  split
  · exact Keeps.chip ..
  · exact keeps_withChip ..

theorem keeps_joinPerform (s : State) (n x kind : Nat) : Keeps s (s.joinPerform n x kind) := by
  unfold State.joinPerform
  have h := keeps_phaseBytes s n x 1
  split <;> next e => rw [e] at h; exact h.thenWith _

theorem keeps_netConfigData (s : State) (n x : Nat) : Keeps s (s.netConfigData n x) := by
  unfold State.netConfigData
  dsimp only
  have h := keeps_phaseBytes s n x 2
  split <;> next e => rw [e] at h; exact h.thenWith _

theorem keeps_bedReadEffect (s : State) (n x : Nat) (k : Cmd) : Keeps s (s.bedReadEffect n x k) := by
  unfold State.bedReadEffect
  split
  · exact (keeps_withChip s _).trans (keeps_answer ..)
  · exact keeps_withChip ..

theorem keeps_bedWriteEffect (s : State) (n x : Nat) (k : Cmd) : Keeps s (s.bedWriteEffect n x k) :=
  keeps_phase s n x 3 (fun q => match q with
    | (none, s) => s.withChip fun c => c.fail n x 0x0401
    | (some bs, s) => s.withChip fun c =>
      let r := c.writeSpace 1 (k.p0 + 1) (4096 * k.p1) bs
      if k.cflags.testBit 0 then r.2.ok n x else r.2.modCtx n x fun y => { y with wait := .durable r.1 })
    fun b t => by cases b <;> exact keeps_withChip ..

theorem keeps_advancePuts (fuel : Nat) (s : State) (i : Nat) : Keeps s (State.advancePuts fuel s i) := by
  induction fuel generalizing s with
  | zero => exact Keeps.refl s
  | succ fuel ih =>
    unfold State.advancePuts
    cases (s.chip.putsOf i).head? with
    | none => exact Keeps.refl s
    | some e =>
      dsimp only
      split
      · exact Keeps.refl s
      · split
        · exact Keeps.chip ..
        · refine Keeps.trans ?_ (ih _)
          have h := keeps_putBytes s e.1 e.2
          split <;> next q => rw [q] at h; exact h.thenChip _

theorem keeps_runPuts (s : State) (i : Nat) : Keeps s (s.runPuts i) := (keeps_advancePuts ..).thenChip _

theorem keeps_putData (s : State) (n x : Nat) : Keeps s (s.putData n x) := (keeps_withChip ..).trans (keeps_runPuts ..)

/-! ### Reads, hooks and launches -/

theorem keeps_sendRanges (s : State) (n x : Nat) (data : List Nat) (ranges : List (Nat × Nat)) : Keeps s (s.sendRanges n x data ranges) := by
  unfold State.sendRanges
  split
  · exact Keeps.refl s
  · dsimp only
    exact ((Keeps.chip s _).trans (keeps_fillTiles _ _ _)).trans (Keeps.foldl _ (fun _ _ => keeps_sendRange ..) _ _)

theorem keeps_endRestore (s : State) (n x : Nat) : Keeps s (s.endRestore n x) := by
  unfold State.endRestore
  split
  · exact Keeps.refl s
  · split
    · exact Keeps.refl s
    · exact (keeps_sendRanges ..).thenChip _

theorem keeps_answerReads (s : State) (d : Nat) : Keeps s (s.answerReads d) := by
  unfold State.answerReads
  dsimp only
  split
  · exact Keeps.refl s
  refine (Keeps.chip s _).trans (Keeps.foldl _ (fun s e => ?_) _ _)
  repeat' split
  all_goals first | exact Keeps.refl _ | exact Keeps.chip .. | exact (keeps_sendData ..).thenChip _ | exact keeps_sendData ..

theorem keeps_driveHooks (s : State) (d : Nat) : Keeps s (s.driveHooks d) := (Keeps.chip s _).trans (keeps_answerReads ..)

theorem keeps_allHooks (s : State) : Keeps s s.allHooks := (Keeps.foldl _ (fun s d => keeps_driveHooks s d) _ _).thenChip _

/-- The hooks after a meaning keep what the meaning keeps. -/
theorem Ends.hooked {o : Host.Outcome State Fault Refusal} {s : State} (h : Ends o s) : Ends (hooked o) s := by
  obtain ⟨t, rfl, k⟩ := h
  exact ⟨_, rfl, k.trans (keeps_allHooks t)⟩

theorem keeps_needUnit (s : State) (n x : Nat) (go : State → State) (h : ∀ t, Keeps t (go t)) : Keeps s (s.needUnit n x go) := by
  unfold State.needUnit
  dsimp only
  split
  · exact h s
  · split
    · exact (Keeps.chip s _).trans (h _)
    · exact Keeps.chip ..
    · exact h s

theorem keeps_fireAction (s : State) (n x : Nat) : Keeps s (s.fireAction n x) := by
  unfold State.fireAction
  dsimp only
  repeat' split
  all_goals first
    | exact Keeps.refl s
    | exact Keeps.chip ..
    | exact keeps_needUnit s n x _ fun t => (Keeps.chip t _).trans (keeps_endRestore ..)
    | exact (Keeps.chip s _).trans (keeps_endRestore ..)

theorem keeps_launchOrFire (s : State) (n x : Nat) (k : Cmd) : Keeps s (s.launchOrFire n x k) := by
  unfold State.launchOrFire
  dsimp only
  split
  · exact keeps_fireAction ..
  · split
    · exact Keeps.chip ..
    · split
      · exact (Keeps.chip s _).trans (keeps_fireAction ..)
      · exact Keeps.chip ..

theorem keeps_launchChecked (s : State) (n x : Nat) (k : Cmd) (code : Nat) : Keeps s (s.launchChecked n x k code) := by
  unfold State.launchChecked
  split
  · exact Keeps.chip ..
  · split
    · exact Keeps.chip ..
    · exact keeps_launchOrFire ..

theorem keeps_spinBody (n x : Nat) (s : State) (k : Cmd) : Keeps s (s.spinBody n x k) := keeps_launchChecked ..

/-- A host command ends well when its execution does. -/
theorem ends_fetchWith (s : State) (n x op : Nat) (pick : Cmd → Bool) (fields resources : Chip → Cmd → Nat) (body : State → Cmd → State)
    (h : ∀ t k, Keeps t (body t k)) : Ends (s.fetchWith n x op pick fields resources body) s := by
  unfold State.fetchWith
  split
  · exact Ends.next (Keeps.refl s)
  · dsimp only
    split
    · exact Ends.next (Keeps.refl s)
    · split
      · exact Ends.nextChip ..
      · split
        · exact (Ends.nextChip ..).hooked
        · exact (Ends.next ((Keeps.chip s _).trans (h _ _))).hooked

theorem ends_join (s : State) (n x kind : Nat) : Ends (s.join n x kind) s := by
  unfold State.join
  dsimp only
  split
  · split
    · exact Ends.next (keeps_joinPerform ..)
    · exact Ends.next (Keeps.refl s)
  · exact ends_fetchWith _ _ _ _ _ _ _ _ fun t k => keeps_startPhase _ _ _ _ _ (keeps_joinData ..)

/-! ### Register writes -/

theorem keeps_after (s : State) (m : State → Host.Outcome State Fault Refusal) (h : Ends (m s) s) : Keeps s (s.after m) := by
  obtain ⟨t, e, k⟩ := h
  unfold State.after
  rw [e]
  exact k

/-- The meanings that register writes start. -/
theorem keeps_after_chip (s : State) (c : Chip) (m : State → Host.Outcome State Fault Refusal) (h : m s = s.nextChip c) : Keeps s (s.after m) :=
  keeps_after s m (h ▸ Ends.nextChip s c)

theorem keeps_after_hooked (s : State) (c : Chip) (m : State → Host.Outcome State Fault Refusal) (h : m s = hooked (s.nextChip c)) : Keeps s (s.after m) :=
  keeps_after s m (h ▸ (Ends.nextChip s c).hooked)

theorem keeps_requestWritten (s : State) (a : Nat) : Keeps s (s.requestWritten a) := by
  unfold State.requestWritten
  dsimp only
  split
  · split
    · exact keeps_after_chip _ _ _ rfl
    · exact keeps_after_chip _ _ _ rfl
    · exact keeps_after_chip _ _ _ rfl
    · exact keeps_after_hooked _ _ _ rfl
    · exact keeps_after_chip _ _ _ rfl
    · exact keeps_after_chip _ _ _ rfl
    · exact Keeps.refl s
  · split
    · split
      · exact keeps_after_chip _ _ _ rfl
      · exact keeps_after_hooked _ _ _ rfl
      · exact keeps_after_chip _ _ _ rfl
      · exact keeps_after_chip _ _ _ rfl
      · exact Keeps.refl s
    · split
      · exact keeps_after_chip _ _ _ rfl
      · exact keeps_after_chip _ _ _ rfl
      · exact keeps_after_chip _ _ _ rfl
      · split
        · exact keeps_after_chip _ _ _ rfl
        · exact Keeps.refl s
      · exact keeps_after_hooked _ _ _ rfl
      · exact keeps_after_chip _ _ _ rfl
      · exact Keeps.refl s

/-- A step done only under a condition. -/
theorem Keeps.ite {s t u : State} (p : Prop) [Decidable p] (h : Keeps s t) (k : Keeps s u) : Keeps s (if p then t else u) := by
  split
  · exact h
  · exact k

theorem keeps_portWritten (s0 s : State) (a : Nat) (ws : List (Nat × Nat)) : Keeps s (s0.portWritten s a ws) := by
  unfold State.portWritten
  dsimp only
  refine Keeps.ite _ (keeps_withChip ..) (Keeps.ite _ (keeps_withChip ..) (Keeps.ite _ (keeps_requestWritten ..) (Keeps.ite _ (keeps_withChip ..)
    (Keeps.ite _ (Keeps.ite _ (keeps_after_chip _ _ _ rfl) (Keeps.refl s)) (Keeps.ite _ ?_ (Keeps.ite _ ?_
    (Keeps.ite _ (Keeps.ite _ (keeps_after_chip _ _ _ rfl) (Keeps.refl s)) (Keeps.refl s))))))))
  · have h : Keeps s (if (ws.any fun w => w.1 == 0 && w.2.testBit 1) = true then s.after (execTraceFreeze (addrPort a)) else s) :=
      Keeps.ite _ (keeps_after_chip _ _ _ rfl) (Keeps.refl s)
    exact Keeps.ite _ (h.trans (keeps_after_chip _ _ _ rfl)) h
  · have h : Keeps s (if (s.chip.rdb (F.hlinkCtrl_enable (addrPort a)) != s0.chip.rdb (F.hlinkCtrl_enable (addrPort a))) = true then
          s.after (execPortEnable (addrPort a) (s.chip.rdb (F.hlinkCtrl_enable (addrPort a)))) else s) :=
      Keeps.ite _ (keeps_after_hooked _ _ _ rfl) (Keeps.refl s)
    exact Keeps.ite _ ((h.thenWith _).trans (keeps_after_hooked _ _ _ rfl)) (h.thenWith _)

theorem keeps_commonWritten (s0 s : State) (r : RegRef) (ws : List (Nat × Nat)) : Keeps s (s0.commonWritten s r ws) := by
  unfold State.commonWritten
  dsimp only
  have h : Keeps s (if (ws.any fun w => w.1 == 0 && w.2.testBit 0) = true then
      s.withChip fun c => c.freezeRecord 1 (if c.skyValid then some c.sky_ else none) c.keeper else s) := Keeps.ite _ (keeps_withChip ..) (Keeps.refl s)
  refine Keeps.ite _ (Keeps.ite _ (Keeps.ite _ (keeps_after_chip _ _ _ rfl) (Keeps.refl s)) (Keeps.ite _ (Keeps.ite _ (h.thenWith _) h) ?_))
    (Keeps.ite _ (Keeps.ite _ (keeps_after_chip _ _ _ rfl) (Keeps.ite _ ((keeps_after_chip _ _ _ rfl).thenWith _) (Keeps.refl s)))
      (Keeps.ite _ (keeps_after_chip _ _ _ rfl) (Keeps.refl s)))
  repeat' split
  all_goals first | exact keeps_withChip .. | exact Keeps.refl s

theorem keeps_writeReg (s : State) (kind : WriteKind) (r : RegRef) (ws : List (Nat × Nat)) : Keeps s (s.writeReg kind r ws) := by
  unfold State.writeReg
  dsimp only
  repeat' split
  · exact keeps_withChip ..
  · exact (keeps_withChip s _).trans (keeps_portWritten ..)
  · exact (keeps_withChip s _).trans (keeps_commonWritten ..)

theorem keeps_writeWords (s : State) (kind : WriteKind) (start : Nat) (ws : List (Option Nat)) : Keeps s (s.writeWords kind start ws) := by
  unfold State.writeWords
  dsimp only
  refine Keeps.foldl _ (fun s a => ?_) _ _
  split
  · exact keeps_writeReg ..
  · exact Keeps.refl s

theorem keeps_regWriteData (s : State) (n x : Nat) : Keeps s (s.regWriteData n x) := by
  unfold State.regWriteData
  dsimp only
  have h := keeps_phaseBytes s n x 2
  split <;> next e => rw [e] at h; first | exact h.thenWith _ | exact (h.trans (keeps_writeWords ..)).thenWith _

theorem keeps_i2cWord (s : State) (a v : Nat) : Keeps s (s.i2cWord a v) := by
  unfold State.i2cWord
  dsimp only
  repeat' split
  · exact keeps_withChip ..
  · exact keeps_writeWords ..
  · exact (keeps_writeWords ..).thenWith _
  · exact keeps_writeWords ..

/-! ### Data phases, masters and the servo period -/

theorem keeps_waitEffect (s : State) (n x : Nat) : Keeps s (s.waitEffect n x) := keeps_withChip ..

theorem keeps_dataDone (s : State) (n x : Nat) : Keeps s (s.dataDone n x) := by
  unfold State.dataDone
  dsimp only
  refine (keeps_withChip s fun c => c.modCtx n x fun k => { k with wait := .nothing }).trans ?_
  generalize s.withChip (fun c => c.modCtx n x fun k => { k with wait := .nothing }) = t
  split
  · exact keeps_netConfigData ..
  · exact keeps_putData ..
  · exact keeps_waitEffect ..
  · exact keeps_regWriteData ..
  · exact keeps_stageData ..
  · exact keeps_enrolData ..
  · exact keeps_enrolData ..
  · exact keeps_transferData ..
  · exact keeps_formData ..
  · exact keeps_joinData ..
  · exact Keeps.refl t

theorem keeps_dataOut (s : State) (n x off : Nat) (bs : List Nat) : Keeps s (s.dataOut n x off bs) := by
  unfold State.dataOut
  dsimp only
  split
  · exact ((keeps_takeData ..).trans (keeps_closePhase ..)).trans (keeps_dataDone ..)
  · exact keeps_takeData ..

theorem keeps_transact (s : State) (m space kind a len : Nat) (data : List Nat) : Keeps s (s.transact m space kind a len data) := by
  unfold State.transact
  dsimp only
  have hr (t : State) : Keeps t ((List.range ((a % 64 + len + 63) / 64)).foldl (fun s i => s.readBlock m (a / 64 * 64 + 64 * i) 0) t) :=
    Keeps.foldl _ (fun s i => keeps_readBlock s m (a / 64 * 64 + 64 * i) 0) _ _
  have hw (t : State) : Keeps t ((blockPieces len a (padTo len data)).foldl (fun (s : State) (p : Nat × List Nat) => s.writePiece m p.1 p.2) t) :=
    Keeps.foldl _ (fun s (p : Nat × List Nat) => keeps_writePiece s m p.1 p.2) _ _
  repeat' split
  all_goals first
    | exact Keeps.refl s
    | exact hr s
    | exact hw s
    | exact (hr s).trans (hw _)
    | exact keeps_withChip ..
    | exact (keeps_withChip s _).thenWith _
    | exact ((keeps_withChip s _).thenWith _).thenWith _
    | exact (keeps_writeWords ..).thenWith _
    | exact ((keeps_withChip s _).trans (keeps_writeWords ..)).thenWith _

theorem keeps_zeroStack (s : State) (e : Nat) : Keeps s (s.zeroStack e) := ⟨rfl, memWf_filter _ _⟩

theorem keeps_traceWrite (s : State) (d : Nat) (o : PeriodOut) : Keeps s (s.traceWrite d o) := by
  unfold State.traceWrite
  dsimp only
  split
  · split
    · exact (keeps_withChip s _).trans (keeps_writePiece ..)
    · exact keeps_withChip ..
  · exact Keeps.refl s

theorem keeps_releaseCluster (s : State) (d : Nat) : Keeps s (releaseCluster s d) := by
  unfold releaseCluster
  generalize s.chip.slotPeriod d = r
  dsimp only
  split
  · exact (Keeps.chip s _).trans (keeps_traceWrite ..)
  · exact Keeps.chip ..

theorem ends_release (r : Nat) (s : State) : Ends (baseSubframeRelease r s) s :=
  Ends.next (Keeps.foldl _ (fun s d => keeps_releaseCluster s d) _ _)

end Sys2Proof.Machine
end

