-- ==== Sys2Proof/Laws/Records.lean ====
section
/-! SUPPORT. Raising an event and writing the lichen record leave every table of the chip but the records as it is: one lemma per field. Generated. -/
namespace Sys2Proof.Machine

theorem Chip.Recorded.field {α : Type} {c c' : Chip} (h : c.Recorded c') (g : Chip → α) (k : ∀ x e l n a, g { c with flds := x, ev := e, sent := l, lichen := n, traceAt := a } = g c) : g c' = g c := by
  rw [h.rest]
  exact k ..

@[simp] theorem Chip.raise_cluSt (c : Chip) (i path : Nat) (data : List Nat) (j : Nat) : (c.raise i path data).cluSt j = c.cluSt j := (c.recorded_raise i path data).field (·.cluSt j) fun _ _ _ _ _ => rfl
@[simp] theorem Chip.raise_rgnSt (c : Chip) (i path : Nat) (data : List Nat) (j : Nat) : (c.raise i path data).rgnSt j = c.rgnSt j := (c.recorded_raise i path data).field (·.rgnSt j) fun _ _ _ _ _ => rfl
@[simp] theorem Chip.raise_dieSt (c : Chip) (i path : Nat) (data : List Nat) (j : Nat) : (c.raise i path data).dieSt j = c.dieSt j := (c.recorded_raise i path data).field (·.dieSt j) fun _ _ _ _ _ => rfl
@[simp] theorem Chip.raise_laneSt (c : Chip) (i path : Nat) (data : List Nat) (j : Nat) : (c.raise i path data).laneSt j = c.laneSt j := (c.recorded_raise i path data).field (·.laneSt j) fun _ _ _ _ _ => rfl
@[simp] theorem Chip.raise_linkSt (c : Chip) (i path : Nat) (data : List Nat) (j : Nat) : (c.raise i path data).linkSt j = c.linkSt j := (c.recorded_raise i path data).field (·.linkSt j) fun _ _ _ _ _ => rfl
@[simp] theorem Chip.raise_btlSt (c : Chip) (i path : Nat) (data : List Nat) (j : Nat) : (c.raise i path data).btlSt j = c.btlSt j := (c.recorded_raise i path data).field (·.btlSt j) fun _ _ _ _ _ => rfl
@[simp] theorem Chip.raise_unitSt (c : Chip) (i path : Nat) (data : List Nat) (j : Nat) : (c.raise i path data).unitSt j = c.unitSt j := (c.recorded_raise i path data).field (·.unitSt j) fun _ _ _ _ _ => rfl
@[simp] theorem Chip.raise_poolSt (c : Chip) (i path : Nat) (data : List Nat) (j : Nat) : (c.raise i path data).poolSt j = c.poolSt j := (c.recorded_raise i path data).field (·.poolSt j) fun _ _ _ _ _ => rfl
@[simp] theorem Chip.raise_readSt (c : Chip) (i path : Nat) (data : List Nat) (j : Nat) : (c.raise i path data).readSt j = c.readSt j := (c.recorded_raise i path data).field (·.readSt j) fun _ _ _ _ _ => rfl
@[simp] theorem Chip.raise_burnSt (c : Chip) (i path : Nat) (data : List Nat) (j : Nat) : (c.raise i path data).burnSt j = c.burnSt j := (c.recorded_raise i path data).field (·.burnSt j) fun _ _ _ _ _ => rfl
@[simp] theorem Chip.raise_servoSt (c : Chip) (i path : Nat) (data : List Nat) (j : Nat) : (c.raise i path data).servoSt j = c.servoSt j := (c.recorded_raise i path data).field (·.servoSt j) fun _ _ _ _ _ => rfl
@[simp] theorem Chip.raise_spinSt (c : Chip) (i path : Nat) (data : List Nat) (j : Nat) : (c.raise i path data).spinSt j = c.spinSt j := (c.recorded_raise i path data).field (·.spinSt j) fun _ _ _ _ _ => rfl
@[simp] theorem Chip.raise_axisSt (c : Chip) (i path : Nat) (data : List Nat) (j : Nat) : (c.raise i path data).axisSt j = c.axisSt j := (c.recorded_raise i path data).field (·.axisSt j) fun _ _ _ _ _ => rfl
@[simp] theorem Chip.raise_tileSt (c : Chip) (i path : Nat) (data : List Nat) (j : Nat) : (c.raise i path data).tileSt j = c.tileSt j := (c.recorded_raise i path data).field (·.tileSt j) fun _ _ _ _ _ => rfl
@[simp] theorem Chip.raise_bufSt (c : Chip) (i path : Nat) (data : List Nat) (j : Nat) : (c.raise i path data).bufSt j = c.bufSt j := (c.recorded_raise i path data).field (·.bufSt j) fun _ _ _ _ _ => rfl
@[simp] theorem Chip.raise_bootSt (c : Chip) (i path : Nat) (data : List Nat) (j : Nat) : (c.raise i path data).bootSt j = c.bootSt j := (c.recorded_raise i path data).field (·.bootSt j) fun _ _ _ _ _ => rfl
@[simp] theorem Chip.raise_now (c : Chip) (i path : Nat) (data : List Nat) : (c.raise i path data).now = c.now := (c.recorded_raise i path data).field (·.now) fun _ _ _ _ _ => rfl
@[simp] theorem Chip.raise_free (c : Chip) (i path : Nat) (data : List Nat) : (c.raise i path data).free = c.free := (c.recorded_raise i path data).field (·.free) fun _ _ _ _ _ => rfl
@[simp] theorem Chip.raise_mgmt (c : Chip) (i path : Nat) (data : List Nat) : (c.raise i path data).mgmt = c.mgmt := (c.recorded_raise i path data).field (·.mgmt) fun _ _ _ _ _ => rfl
@[simp] theorem Chip.raise_clu (c : Chip) (i path : Nat) (data : List Nat) : (c.raise i path data).clu = c.clu := (c.recorded_raise i path data).field (·.clu) fun _ _ _ _ _ => rfl
@[simp] theorem Chip.raise_rgn (c : Chip) (i path : Nat) (data : List Nat) : (c.raise i path data).rgn = c.rgn := (c.recorded_raise i path data).field (·.rgn) fun _ _ _ _ _ => rfl
@[simp] theorem Chip.raise_die (c : Chip) (i path : Nat) (data : List Nat) : (c.raise i path data).die = c.die := (c.recorded_raise i path data).field (·.die) fun _ _ _ _ _ => rfl
@[simp] theorem Chip.raise_chain (c : Chip) (i path : Nat) (data : List Nat) : (c.raise i path data).chain = c.chain := (c.recorded_raise i path data).field (·.chain) fun _ _ _ _ _ => rfl
@[simp] theorem Chip.raise_sky (c : Chip) (i path : Nat) (data : List Nat) : (c.raise i path data).sky = c.sky := (c.recorded_raise i path data).field (·.sky) fun _ _ _ _ _ => rfl
@[simp] theorem Chip.raise_lane (c : Chip) (i path : Nat) (data : List Nat) : (c.raise i path data).lane = c.lane := (c.recorded_raise i path data).field (·.lane) fun _ _ _ _ _ => rfl
@[simp] theorem Chip.raise_link (c : Chip) (i path : Nat) (data : List Nat) : (c.raise i path data).link = c.link := (c.recorded_raise i path data).field (·.link) fun _ _ _ _ _ => rfl
@[simp] theorem Chip.raise_btl (c : Chip) (i path : Nat) (data : List Nat) : (c.raise i path data).btl = c.btl := (c.recorded_raise i path data).field (·.btl) fun _ _ _ _ _ => rfl
@[simp] theorem Chip.raise_unit (c : Chip) (i path : Nat) (data : List Nat) : (c.raise i path data).unit = c.unit := (c.recorded_raise i path data).field (·.unit) fun _ _ _ _ _ => rfl
@[simp] theorem Chip.raise_pool (c : Chip) (i path : Nat) (data : List Nat) : (c.raise i path data).pool = c.pool := (c.recorded_raise i path data).field (·.pool) fun _ _ _ _ _ => rfl
@[simp] theorem Chip.raise_read (c : Chip) (i path : Nat) (data : List Nat) : (c.raise i path data).read = c.read := (c.recorded_raise i path data).field (·.read) fun _ _ _ _ _ => rfl
@[simp] theorem Chip.raise_burn (c : Chip) (i path : Nat) (data : List Nat) : (c.raise i path data).burn = c.burn := (c.recorded_raise i path data).field (·.burn) fun _ _ _ _ _ => rfl
@[simp] theorem Chip.raise_servo (c : Chip) (i path : Nat) (data : List Nat) : (c.raise i path data).servo = c.servo := (c.recorded_raise i path data).field (·.servo) fun _ _ _ _ _ => rfl
@[simp] theorem Chip.raise_spin (c : Chip) (i path : Nat) (data : List Nat) : (c.raise i path data).spin = c.spin := (c.recorded_raise i path data).field (·.spin) fun _ _ _ _ _ => rfl
@[simp] theorem Chip.raise_axis (c : Chip) (i path : Nat) (data : List Nat) : (c.raise i path data).axis = c.axis := (c.recorded_raise i path data).field (·.axis) fun _ _ _ _ _ => rfl
@[simp] theorem Chip.raise_cat (c : Chip) (i path : Nat) (data : List Nat) : (c.raise i path data).cat = c.cat := (c.recorded_raise i path data).field (·.cat) fun _ _ _ _ _ => rfl
@[simp] theorem Chip.raise_moss (c : Chip) (i path : Nat) (data : List Nat) : (c.raise i path data).moss = c.moss := (c.recorded_raise i path data).field (·.moss) fun _ _ _ _ _ => rfl
@[simp] theorem Chip.raise_tiles (c : Chip) (i path : Nat) (data : List Nat) : (c.raise i path data).tiles = c.tiles := (c.recorded_raise i path data).field (·.tiles) fun _ _ _ _ _ => rfl
@[simp] theorem Chip.raise_buf (c : Chip) (i path : Nat) (data : List Nat) : (c.raise i path data).buf = c.buf := (c.recorded_raise i path data).field (·.buf) fun _ _ _ _ _ => rfl
@[simp] theorem Chip.raise_host (c : Chip) (i path : Nat) (data : List Nat) : (c.raise i path data).host = c.host := (c.recorded_raise i path data).field (·.host) fun _ _ _ _ _ => rfl
@[simp] theorem Chip.raise_launches (c : Chip) (i path : Nat) (data : List Nat) : (c.raise i path data).launches = c.launches := (c.recorded_raise i path data).field (·.launches) fun _ _ _ _ _ => rfl
@[simp] theorem Chip.raise_trust (c : Chip) (i path : Nat) (data : List Nat) : (c.raise i path data).trust = c.trust := (c.recorded_raise i path data).field (·.trust) fun _ _ _ _ _ => rfl
@[simp] theorem Chip.raise_boot (c : Chip) (i path : Nat) (data : List Nat) : (c.raise i path data).boot = c.boot := (c.recorded_raise i path data).field (·.boot) fun _ _ _ _ _ => rfl
@[simp] theorem Chip.raise_power (c : Chip) (i path : Nat) (data : List Nat) : (c.raise i path data).power = c.power := (c.recorded_raise i path data).field (·.power) fun _ _ _ _ _ => rfl
@[simp] theorem Chip.raise_scr (c : Chip) (i path : Nat) (data : List Nat) : (c.raise i path data).scr = c.scr := (c.recorded_raise i path data).field (·.scr) fun _ _ _ _ _ => rfl
@[simp] theorem Chip.raise_svc (c : Chip) (i path : Nat) (data : List Nat) : (c.raise i path data).svc = c.svc := (c.recorded_raise i path data).field (·.svc) fun _ _ _ _ _ => rfl
@[simp] theorem Chip.raise_catSnaps (c : Chip) (i path : Nat) (data : List Nat) : (c.raise i path data).catSnaps = c.catSnaps := (c.recorded_raise i path data).field (·.catSnaps) fun _ _ _ _ _ => rfl

@[simp] theorem Chip.raiseClu_cluSt (c : Chip) (d k slot : Nat) (data : List Nat) (j : Nat) : (c.raiseClu d k slot data).cluSt j = c.cluSt j := (c.recorded_raiseClu d k slot data).field (·.cluSt j) fun _ _ _ _ _ => rfl
@[simp] theorem Chip.raiseClu_rgnSt (c : Chip) (d k slot : Nat) (data : List Nat) (j : Nat) : (c.raiseClu d k slot data).rgnSt j = c.rgnSt j := (c.recorded_raiseClu d k slot data).field (·.rgnSt j) fun _ _ _ _ _ => rfl
@[simp] theorem Chip.raiseClu_dieSt (c : Chip) (d k slot : Nat) (data : List Nat) (j : Nat) : (c.raiseClu d k slot data).dieSt j = c.dieSt j := (c.recorded_raiseClu d k slot data).field (·.dieSt j) fun _ _ _ _ _ => rfl
@[simp] theorem Chip.raiseClu_laneSt (c : Chip) (d k slot : Nat) (data : List Nat) (j : Nat) : (c.raiseClu d k slot data).laneSt j = c.laneSt j := (c.recorded_raiseClu d k slot data).field (·.laneSt j) fun _ _ _ _ _ => rfl
@[simp] theorem Chip.raiseClu_linkSt (c : Chip) (d k slot : Nat) (data : List Nat) (j : Nat) : (c.raiseClu d k slot data).linkSt j = c.linkSt j := (c.recorded_raiseClu d k slot data).field (·.linkSt j) fun _ _ _ _ _ => rfl
@[simp] theorem Chip.raiseClu_btlSt (c : Chip) (d k slot : Nat) (data : List Nat) (j : Nat) : (c.raiseClu d k slot data).btlSt j = c.btlSt j := (c.recorded_raiseClu d k slot data).field (·.btlSt j) fun _ _ _ _ _ => rfl
@[simp] theorem Chip.raiseClu_unitSt (c : Chip) (d k slot : Nat) (data : List Nat) (j : Nat) : (c.raiseClu d k slot data).unitSt j = c.unitSt j := (c.recorded_raiseClu d k slot data).field (·.unitSt j) fun _ _ _ _ _ => rfl
@[simp] theorem Chip.raiseClu_poolSt (c : Chip) (d k slot : Nat) (data : List Nat) (j : Nat) : (c.raiseClu d k slot data).poolSt j = c.poolSt j := (c.recorded_raiseClu d k slot data).field (·.poolSt j) fun _ _ _ _ _ => rfl
@[simp] theorem Chip.raiseClu_readSt (c : Chip) (d k slot : Nat) (data : List Nat) (j : Nat) : (c.raiseClu d k slot data).readSt j = c.readSt j := (c.recorded_raiseClu d k slot data).field (·.readSt j) fun _ _ _ _ _ => rfl
@[simp] theorem Chip.raiseClu_burnSt (c : Chip) (d k slot : Nat) (data : List Nat) (j : Nat) : (c.raiseClu d k slot data).burnSt j = c.burnSt j := (c.recorded_raiseClu d k slot data).field (·.burnSt j) fun _ _ _ _ _ => rfl
@[simp] theorem Chip.raiseClu_servoSt (c : Chip) (d k slot : Nat) (data : List Nat) (j : Nat) : (c.raiseClu d k slot data).servoSt j = c.servoSt j := (c.recorded_raiseClu d k slot data).field (·.servoSt j) fun _ _ _ _ _ => rfl
@[simp] theorem Chip.raiseClu_spinSt (c : Chip) (d k slot : Nat) (data : List Nat) (j : Nat) : (c.raiseClu d k slot data).spinSt j = c.spinSt j := (c.recorded_raiseClu d k slot data).field (·.spinSt j) fun _ _ _ _ _ => rfl
@[simp] theorem Chip.raiseClu_axisSt (c : Chip) (d k slot : Nat) (data : List Nat) (j : Nat) : (c.raiseClu d k slot data).axisSt j = c.axisSt j := (c.recorded_raiseClu d k slot data).field (·.axisSt j) fun _ _ _ _ _ => rfl
@[simp] theorem Chip.raiseClu_tileSt (c : Chip) (d k slot : Nat) (data : List Nat) (j : Nat) : (c.raiseClu d k slot data).tileSt j = c.tileSt j := (c.recorded_raiseClu d k slot data).field (·.tileSt j) fun _ _ _ _ _ => rfl
@[simp] theorem Chip.raiseClu_bufSt (c : Chip) (d k slot : Nat) (data : List Nat) (j : Nat) : (c.raiseClu d k slot data).bufSt j = c.bufSt j := (c.recorded_raiseClu d k slot data).field (·.bufSt j) fun _ _ _ _ _ => rfl
@[simp] theorem Chip.raiseClu_bootSt (c : Chip) (d k slot : Nat) (data : List Nat) (j : Nat) : (c.raiseClu d k slot data).bootSt j = c.bootSt j := (c.recorded_raiseClu d k slot data).field (·.bootSt j) fun _ _ _ _ _ => rfl
@[simp] theorem Chip.raiseClu_now (c : Chip) (d k slot : Nat) (data : List Nat) : (c.raiseClu d k slot data).now = c.now := (c.recorded_raiseClu d k slot data).field (·.now) fun _ _ _ _ _ => rfl
@[simp] theorem Chip.raiseClu_free (c : Chip) (d k slot : Nat) (data : List Nat) : (c.raiseClu d k slot data).free = c.free := (c.recorded_raiseClu d k slot data).field (·.free) fun _ _ _ _ _ => rfl
@[simp] theorem Chip.raiseClu_mgmt (c : Chip) (d k slot : Nat) (data : List Nat) : (c.raiseClu d k slot data).mgmt = c.mgmt := (c.recorded_raiseClu d k slot data).field (·.mgmt) fun _ _ _ _ _ => rfl
@[simp] theorem Chip.raiseClu_clu (c : Chip) (d k slot : Nat) (data : List Nat) : (c.raiseClu d k slot data).clu = c.clu := (c.recorded_raiseClu d k slot data).field (·.clu) fun _ _ _ _ _ => rfl
@[simp] theorem Chip.raiseClu_rgn (c : Chip) (d k slot : Nat) (data : List Nat) : (c.raiseClu d k slot data).rgn = c.rgn := (c.recorded_raiseClu d k slot data).field (·.rgn) fun _ _ _ _ _ => rfl
@[simp] theorem Chip.raiseClu_die (c : Chip) (d k slot : Nat) (data : List Nat) : (c.raiseClu d k slot data).die = c.die := (c.recorded_raiseClu d k slot data).field (·.die) fun _ _ _ _ _ => rfl
@[simp] theorem Chip.raiseClu_chain (c : Chip) (d k slot : Nat) (data : List Nat) : (c.raiseClu d k slot data).chain = c.chain := (c.recorded_raiseClu d k slot data).field (·.chain) fun _ _ _ _ _ => rfl
@[simp] theorem Chip.raiseClu_sky (c : Chip) (d k slot : Nat) (data : List Nat) : (c.raiseClu d k slot data).sky = c.sky := (c.recorded_raiseClu d k slot data).field (·.sky) fun _ _ _ _ _ => rfl
@[simp] theorem Chip.raiseClu_lane (c : Chip) (d k slot : Nat) (data : List Nat) : (c.raiseClu d k slot data).lane = c.lane := (c.recorded_raiseClu d k slot data).field (·.lane) fun _ _ _ _ _ => rfl
@[simp] theorem Chip.raiseClu_link (c : Chip) (d k slot : Nat) (data : List Nat) : (c.raiseClu d k slot data).link = c.link := (c.recorded_raiseClu d k slot data).field (·.link) fun _ _ _ _ _ => rfl
@[simp] theorem Chip.raiseClu_btl (c : Chip) (d k slot : Nat) (data : List Nat) : (c.raiseClu d k slot data).btl = c.btl := (c.recorded_raiseClu d k slot data).field (·.btl) fun _ _ _ _ _ => rfl
@[simp] theorem Chip.raiseClu_unit (c : Chip) (d k slot : Nat) (data : List Nat) : (c.raiseClu d k slot data).unit = c.unit := (c.recorded_raiseClu d k slot data).field (·.unit) fun _ _ _ _ _ => rfl
@[simp] theorem Chip.raiseClu_pool (c : Chip) (d k slot : Nat) (data : List Nat) : (c.raiseClu d k slot data).pool = c.pool := (c.recorded_raiseClu d k slot data).field (·.pool) fun _ _ _ _ _ => rfl
@[simp] theorem Chip.raiseClu_read (c : Chip) (d k slot : Nat) (data : List Nat) : (c.raiseClu d k slot data).read = c.read := (c.recorded_raiseClu d k slot data).field (·.read) fun _ _ _ _ _ => rfl
@[simp] theorem Chip.raiseClu_burn (c : Chip) (d k slot : Nat) (data : List Nat) : (c.raiseClu d k slot data).burn = c.burn := (c.recorded_raiseClu d k slot data).field (·.burn) fun _ _ _ _ _ => rfl
@[simp] theorem Chip.raiseClu_servo (c : Chip) (d k slot : Nat) (data : List Nat) : (c.raiseClu d k slot data).servo = c.servo := (c.recorded_raiseClu d k slot data).field (·.servo) fun _ _ _ _ _ => rfl
@[simp] theorem Chip.raiseClu_spin (c : Chip) (d k slot : Nat) (data : List Nat) : (c.raiseClu d k slot data).spin = c.spin := (c.recorded_raiseClu d k slot data).field (·.spin) fun _ _ _ _ _ => rfl
@[simp] theorem Chip.raiseClu_axis (c : Chip) (d k slot : Nat) (data : List Nat) : (c.raiseClu d k slot data).axis = c.axis := (c.recorded_raiseClu d k slot data).field (·.axis) fun _ _ _ _ _ => rfl
@[simp] theorem Chip.raiseClu_cat (c : Chip) (d k slot : Nat) (data : List Nat) : (c.raiseClu d k slot data).cat = c.cat := (c.recorded_raiseClu d k slot data).field (·.cat) fun _ _ _ _ _ => rfl
@[simp] theorem Chip.raiseClu_moss (c : Chip) (d k slot : Nat) (data : List Nat) : (c.raiseClu d k slot data).moss = c.moss := (c.recorded_raiseClu d k slot data).field (·.moss) fun _ _ _ _ _ => rfl
@[simp] theorem Chip.raiseClu_tiles (c : Chip) (d k slot : Nat) (data : List Nat) : (c.raiseClu d k slot data).tiles = c.tiles := (c.recorded_raiseClu d k slot data).field (·.tiles) fun _ _ _ _ _ => rfl
@[simp] theorem Chip.raiseClu_buf (c : Chip) (d k slot : Nat) (data : List Nat) : (c.raiseClu d k slot data).buf = c.buf := (c.recorded_raiseClu d k slot data).field (·.buf) fun _ _ _ _ _ => rfl
@[simp] theorem Chip.raiseClu_host (c : Chip) (d k slot : Nat) (data : List Nat) : (c.raiseClu d k slot data).host = c.host := (c.recorded_raiseClu d k slot data).field (·.host) fun _ _ _ _ _ => rfl
@[simp] theorem Chip.raiseClu_launches (c : Chip) (d k slot : Nat) (data : List Nat) : (c.raiseClu d k slot data).launches = c.launches := (c.recorded_raiseClu d k slot data).field (·.launches) fun _ _ _ _ _ => rfl
@[simp] theorem Chip.raiseClu_trust (c : Chip) (d k slot : Nat) (data : List Nat) : (c.raiseClu d k slot data).trust = c.trust := (c.recorded_raiseClu d k slot data).field (·.trust) fun _ _ _ _ _ => rfl
@[simp] theorem Chip.raiseClu_boot (c : Chip) (d k slot : Nat) (data : List Nat) : (c.raiseClu d k slot data).boot = c.boot := (c.recorded_raiseClu d k slot data).field (·.boot) fun _ _ _ _ _ => rfl
@[simp] theorem Chip.raiseClu_power (c : Chip) (d k slot : Nat) (data : List Nat) : (c.raiseClu d k slot data).power = c.power := (c.recorded_raiseClu d k slot data).field (·.power) fun _ _ _ _ _ => rfl
@[simp] theorem Chip.raiseClu_scr (c : Chip) (d k slot : Nat) (data : List Nat) : (c.raiseClu d k slot data).scr = c.scr := (c.recorded_raiseClu d k slot data).field (·.scr) fun _ _ _ _ _ => rfl
@[simp] theorem Chip.raiseClu_svc (c : Chip) (d k slot : Nat) (data : List Nat) : (c.raiseClu d k slot data).svc = c.svc := (c.recorded_raiseClu d k slot data).field (·.svc) fun _ _ _ _ _ => rfl
@[simp] theorem Chip.raiseClu_catSnaps (c : Chip) (d k slot : Nat) (data : List Nat) : (c.raiseClu d k slot data).catSnaps = c.catSnaps := (c.recorded_raiseClu d k slot data).field (·.catSnaps) fun _ _ _ _ _ => rfl

@[simp] theorem Chip.raiseUnit_cluSt (c : Chip) (u k : Nat) (data : List Nat) (j : Nat) : (c.raiseUnit u k data).cluSt j = c.cluSt j := (c.recorded_raiseUnit u k data).field (·.cluSt j) fun _ _ _ _ _ => rfl
@[simp] theorem Chip.raiseUnit_rgnSt (c : Chip) (u k : Nat) (data : List Nat) (j : Nat) : (c.raiseUnit u k data).rgnSt j = c.rgnSt j := (c.recorded_raiseUnit u k data).field (·.rgnSt j) fun _ _ _ _ _ => rfl
@[simp] theorem Chip.raiseUnit_dieSt (c : Chip) (u k : Nat) (data : List Nat) (j : Nat) : (c.raiseUnit u k data).dieSt j = c.dieSt j := (c.recorded_raiseUnit u k data).field (·.dieSt j) fun _ _ _ _ _ => rfl
@[simp] theorem Chip.raiseUnit_laneSt (c : Chip) (u k : Nat) (data : List Nat) (j : Nat) : (c.raiseUnit u k data).laneSt j = c.laneSt j := (c.recorded_raiseUnit u k data).field (·.laneSt j) fun _ _ _ _ _ => rfl
@[simp] theorem Chip.raiseUnit_linkSt (c : Chip) (u k : Nat) (data : List Nat) (j : Nat) : (c.raiseUnit u k data).linkSt j = c.linkSt j := (c.recorded_raiseUnit u k data).field (·.linkSt j) fun _ _ _ _ _ => rfl
@[simp] theorem Chip.raiseUnit_btlSt (c : Chip) (u k : Nat) (data : List Nat) (j : Nat) : (c.raiseUnit u k data).btlSt j = c.btlSt j := (c.recorded_raiseUnit u k data).field (·.btlSt j) fun _ _ _ _ _ => rfl
@[simp] theorem Chip.raiseUnit_unitSt (c : Chip) (u k : Nat) (data : List Nat) (j : Nat) : (c.raiseUnit u k data).unitSt j = c.unitSt j := (c.recorded_raiseUnit u k data).field (·.unitSt j) fun _ _ _ _ _ => rfl
@[simp] theorem Chip.raiseUnit_poolSt (c : Chip) (u k : Nat) (data : List Nat) (j : Nat) : (c.raiseUnit u k data).poolSt j = c.poolSt j := (c.recorded_raiseUnit u k data).field (·.poolSt j) fun _ _ _ _ _ => rfl
@[simp] theorem Chip.raiseUnit_readSt (c : Chip) (u k : Nat) (data : List Nat) (j : Nat) : (c.raiseUnit u k data).readSt j = c.readSt j := (c.recorded_raiseUnit u k data).field (·.readSt j) fun _ _ _ _ _ => rfl
@[simp] theorem Chip.raiseUnit_burnSt (c : Chip) (u k : Nat) (data : List Nat) (j : Nat) : (c.raiseUnit u k data).burnSt j = c.burnSt j := (c.recorded_raiseUnit u k data).field (·.burnSt j) fun _ _ _ _ _ => rfl
@[simp] theorem Chip.raiseUnit_servoSt (c : Chip) (u k : Nat) (data : List Nat) (j : Nat) : (c.raiseUnit u k data).servoSt j = c.servoSt j := (c.recorded_raiseUnit u k data).field (·.servoSt j) fun _ _ _ _ _ => rfl
@[simp] theorem Chip.raiseUnit_spinSt (c : Chip) (u k : Nat) (data : List Nat) (j : Nat) : (c.raiseUnit u k data).spinSt j = c.spinSt j := (c.recorded_raiseUnit u k data).field (·.spinSt j) fun _ _ _ _ _ => rfl
@[simp] theorem Chip.raiseUnit_axisSt (c : Chip) (u k : Nat) (data : List Nat) (j : Nat) : (c.raiseUnit u k data).axisSt j = c.axisSt j := (c.recorded_raiseUnit u k data).field (·.axisSt j) fun _ _ _ _ _ => rfl
@[simp] theorem Chip.raiseUnit_tileSt (c : Chip) (u k : Nat) (data : List Nat) (j : Nat) : (c.raiseUnit u k data).tileSt j = c.tileSt j := (c.recorded_raiseUnit u k data).field (·.tileSt j) fun _ _ _ _ _ => rfl
@[simp] theorem Chip.raiseUnit_bufSt (c : Chip) (u k : Nat) (data : List Nat) (j : Nat) : (c.raiseUnit u k data).bufSt j = c.bufSt j := (c.recorded_raiseUnit u k data).field (·.bufSt j) fun _ _ _ _ _ => rfl
@[simp] theorem Chip.raiseUnit_bootSt (c : Chip) (u k : Nat) (data : List Nat) (j : Nat) : (c.raiseUnit u k data).bootSt j = c.bootSt j := (c.recorded_raiseUnit u k data).field (·.bootSt j) fun _ _ _ _ _ => rfl
@[simp] theorem Chip.raiseUnit_now (c : Chip) (u k : Nat) (data : List Nat) : (c.raiseUnit u k data).now = c.now := (c.recorded_raiseUnit u k data).field (·.now) fun _ _ _ _ _ => rfl
@[simp] theorem Chip.raiseUnit_free (c : Chip) (u k : Nat) (data : List Nat) : (c.raiseUnit u k data).free = c.free := (c.recorded_raiseUnit u k data).field (·.free) fun _ _ _ _ _ => rfl
@[simp] theorem Chip.raiseUnit_mgmt (c : Chip) (u k : Nat) (data : List Nat) : (c.raiseUnit u k data).mgmt = c.mgmt := (c.recorded_raiseUnit u k data).field (·.mgmt) fun _ _ _ _ _ => rfl
@[simp] theorem Chip.raiseUnit_clu (c : Chip) (u k : Nat) (data : List Nat) : (c.raiseUnit u k data).clu = c.clu := (c.recorded_raiseUnit u k data).field (·.clu) fun _ _ _ _ _ => rfl
@[simp] theorem Chip.raiseUnit_rgn (c : Chip) (u k : Nat) (data : List Nat) : (c.raiseUnit u k data).rgn = c.rgn := (c.recorded_raiseUnit u k data).field (·.rgn) fun _ _ _ _ _ => rfl
@[simp] theorem Chip.raiseUnit_die (c : Chip) (u k : Nat) (data : List Nat) : (c.raiseUnit u k data).die = c.die := (c.recorded_raiseUnit u k data).field (·.die) fun _ _ _ _ _ => rfl
@[simp] theorem Chip.raiseUnit_chain (c : Chip) (u k : Nat) (data : List Nat) : (c.raiseUnit u k data).chain = c.chain := (c.recorded_raiseUnit u k data).field (·.chain) fun _ _ _ _ _ => rfl
@[simp] theorem Chip.raiseUnit_sky (c : Chip) (u k : Nat) (data : List Nat) : (c.raiseUnit u k data).sky = c.sky := (c.recorded_raiseUnit u k data).field (·.sky) fun _ _ _ _ _ => rfl
@[simp] theorem Chip.raiseUnit_lane (c : Chip) (u k : Nat) (data : List Nat) : (c.raiseUnit u k data).lane = c.lane := (c.recorded_raiseUnit u k data).field (·.lane) fun _ _ _ _ _ => rfl
@[simp] theorem Chip.raiseUnit_link (c : Chip) (u k : Nat) (data : List Nat) : (c.raiseUnit u k data).link = c.link := (c.recorded_raiseUnit u k data).field (·.link) fun _ _ _ _ _ => rfl
@[simp] theorem Chip.raiseUnit_btl (c : Chip) (u k : Nat) (data : List Nat) : (c.raiseUnit u k data).btl = c.btl := (c.recorded_raiseUnit u k data).field (·.btl) fun _ _ _ _ _ => rfl
@[simp] theorem Chip.raiseUnit_unit (c : Chip) (u k : Nat) (data : List Nat) : (c.raiseUnit u k data).unit = c.unit := (c.recorded_raiseUnit u k data).field (·.unit) fun _ _ _ _ _ => rfl
@[simp] theorem Chip.raiseUnit_pool (c : Chip) (u k : Nat) (data : List Nat) : (c.raiseUnit u k data).pool = c.pool := (c.recorded_raiseUnit u k data).field (·.pool) fun _ _ _ _ _ => rfl
@[simp] theorem Chip.raiseUnit_read (c : Chip) (u k : Nat) (data : List Nat) : (c.raiseUnit u k data).read = c.read := (c.recorded_raiseUnit u k data).field (·.read) fun _ _ _ _ _ => rfl
@[simp] theorem Chip.raiseUnit_burn (c : Chip) (u k : Nat) (data : List Nat) : (c.raiseUnit u k data).burn = c.burn := (c.recorded_raiseUnit u k data).field (·.burn) fun _ _ _ _ _ => rfl
@[simp] theorem Chip.raiseUnit_servo (c : Chip) (u k : Nat) (data : List Nat) : (c.raiseUnit u k data).servo = c.servo := (c.recorded_raiseUnit u k data).field (·.servo) fun _ _ _ _ _ => rfl
@[simp] theorem Chip.raiseUnit_spin (c : Chip) (u k : Nat) (data : List Nat) : (c.raiseUnit u k data).spin = c.spin := (c.recorded_raiseUnit u k data).field (·.spin) fun _ _ _ _ _ => rfl
@[simp] theorem Chip.raiseUnit_axis (c : Chip) (u k : Nat) (data : List Nat) : (c.raiseUnit u k data).axis = c.axis := (c.recorded_raiseUnit u k data).field (·.axis) fun _ _ _ _ _ => rfl
@[simp] theorem Chip.raiseUnit_cat (c : Chip) (u k : Nat) (data : List Nat) : (c.raiseUnit u k data).cat = c.cat := (c.recorded_raiseUnit u k data).field (·.cat) fun _ _ _ _ _ => rfl
@[simp] theorem Chip.raiseUnit_moss (c : Chip) (u k : Nat) (data : List Nat) : (c.raiseUnit u k data).moss = c.moss := (c.recorded_raiseUnit u k data).field (·.moss) fun _ _ _ _ _ => rfl
@[simp] theorem Chip.raiseUnit_tiles (c : Chip) (u k : Nat) (data : List Nat) : (c.raiseUnit u k data).tiles = c.tiles := (c.recorded_raiseUnit u k data).field (·.tiles) fun _ _ _ _ _ => rfl
@[simp] theorem Chip.raiseUnit_buf (c : Chip) (u k : Nat) (data : List Nat) : (c.raiseUnit u k data).buf = c.buf := (c.recorded_raiseUnit u k data).field (·.buf) fun _ _ _ _ _ => rfl
@[simp] theorem Chip.raiseUnit_host (c : Chip) (u k : Nat) (data : List Nat) : (c.raiseUnit u k data).host = c.host := (c.recorded_raiseUnit u k data).field (·.host) fun _ _ _ _ _ => rfl
@[simp] theorem Chip.raiseUnit_launches (c : Chip) (u k : Nat) (data : List Nat) : (c.raiseUnit u k data).launches = c.launches := (c.recorded_raiseUnit u k data).field (·.launches) fun _ _ _ _ _ => rfl
@[simp] theorem Chip.raiseUnit_trust (c : Chip) (u k : Nat) (data : List Nat) : (c.raiseUnit u k data).trust = c.trust := (c.recorded_raiseUnit u k data).field (·.trust) fun _ _ _ _ _ => rfl
@[simp] theorem Chip.raiseUnit_boot (c : Chip) (u k : Nat) (data : List Nat) : (c.raiseUnit u k data).boot = c.boot := (c.recorded_raiseUnit u k data).field (·.boot) fun _ _ _ _ _ => rfl
@[simp] theorem Chip.raiseUnit_power (c : Chip) (u k : Nat) (data : List Nat) : (c.raiseUnit u k data).power = c.power := (c.recorded_raiseUnit u k data).field (·.power) fun _ _ _ _ _ => rfl
@[simp] theorem Chip.raiseUnit_scr (c : Chip) (u k : Nat) (data : List Nat) : (c.raiseUnit u k data).scr = c.scr := (c.recorded_raiseUnit u k data).field (·.scr) fun _ _ _ _ _ => rfl
@[simp] theorem Chip.raiseUnit_svc (c : Chip) (u k : Nat) (data : List Nat) : (c.raiseUnit u k data).svc = c.svc := (c.recorded_raiseUnit u k data).field (·.svc) fun _ _ _ _ _ => rfl
@[simp] theorem Chip.raiseUnit_catSnaps (c : Chip) (u k : Nat) (data : List Nat) : (c.raiseUnit u k data).catSnaps = c.catSnaps := (c.recorded_raiseUnit u k data).field (·.catSnaps) fun _ _ _ _ _ => rfl

@[simp] theorem Chip.raiseRgn_cluSt (c : Chip) (r k : Nat) (data : List Nat) (j : Nat) : (c.raiseRgn r k data).cluSt j = c.cluSt j := (c.recorded_raiseRgn r k data).field (·.cluSt j) fun _ _ _ _ _ => rfl
@[simp] theorem Chip.raiseRgn_rgnSt (c : Chip) (r k : Nat) (data : List Nat) (j : Nat) : (c.raiseRgn r k data).rgnSt j = c.rgnSt j := (c.recorded_raiseRgn r k data).field (·.rgnSt j) fun _ _ _ _ _ => rfl
@[simp] theorem Chip.raiseRgn_dieSt (c : Chip) (r k : Nat) (data : List Nat) (j : Nat) : (c.raiseRgn r k data).dieSt j = c.dieSt j := (c.recorded_raiseRgn r k data).field (·.dieSt j) fun _ _ _ _ _ => rfl
@[simp] theorem Chip.raiseRgn_laneSt (c : Chip) (r k : Nat) (data : List Nat) (j : Nat) : (c.raiseRgn r k data).laneSt j = c.laneSt j := (c.recorded_raiseRgn r k data).field (·.laneSt j) fun _ _ _ _ _ => rfl
@[simp] theorem Chip.raiseRgn_linkSt (c : Chip) (r k : Nat) (data : List Nat) (j : Nat) : (c.raiseRgn r k data).linkSt j = c.linkSt j := (c.recorded_raiseRgn r k data).field (·.linkSt j) fun _ _ _ _ _ => rfl
@[simp] theorem Chip.raiseRgn_btlSt (c : Chip) (r k : Nat) (data : List Nat) (j : Nat) : (c.raiseRgn r k data).btlSt j = c.btlSt j := (c.recorded_raiseRgn r k data).field (·.btlSt j) fun _ _ _ _ _ => rfl
@[simp] theorem Chip.raiseRgn_unitSt (c : Chip) (r k : Nat) (data : List Nat) (j : Nat) : (c.raiseRgn r k data).unitSt j = c.unitSt j := (c.recorded_raiseRgn r k data).field (·.unitSt j) fun _ _ _ _ _ => rfl
@[simp] theorem Chip.raiseRgn_poolSt (c : Chip) (r k : Nat) (data : List Nat) (j : Nat) : (c.raiseRgn r k data).poolSt j = c.poolSt j := (c.recorded_raiseRgn r k data).field (·.poolSt j) fun _ _ _ _ _ => rfl
@[simp] theorem Chip.raiseRgn_readSt (c : Chip) (r k : Nat) (data : List Nat) (j : Nat) : (c.raiseRgn r k data).readSt j = c.readSt j := (c.recorded_raiseRgn r k data).field (·.readSt j) fun _ _ _ _ _ => rfl
@[simp] theorem Chip.raiseRgn_burnSt (c : Chip) (r k : Nat) (data : List Nat) (j : Nat) : (c.raiseRgn r k data).burnSt j = c.burnSt j := (c.recorded_raiseRgn r k data).field (·.burnSt j) fun _ _ _ _ _ => rfl
@[simp] theorem Chip.raiseRgn_servoSt (c : Chip) (r k : Nat) (data : List Nat) (j : Nat) : (c.raiseRgn r k data).servoSt j = c.servoSt j := (c.recorded_raiseRgn r k data).field (·.servoSt j) fun _ _ _ _ _ => rfl
@[simp] theorem Chip.raiseRgn_spinSt (c : Chip) (r k : Nat) (data : List Nat) (j : Nat) : (c.raiseRgn r k data).spinSt j = c.spinSt j := (c.recorded_raiseRgn r k data).field (·.spinSt j) fun _ _ _ _ _ => rfl
@[simp] theorem Chip.raiseRgn_axisSt (c : Chip) (r k : Nat) (data : List Nat) (j : Nat) : (c.raiseRgn r k data).axisSt j = c.axisSt j := (c.recorded_raiseRgn r k data).field (·.axisSt j) fun _ _ _ _ _ => rfl
@[simp] theorem Chip.raiseRgn_tileSt (c : Chip) (r k : Nat) (data : List Nat) (j : Nat) : (c.raiseRgn r k data).tileSt j = c.tileSt j := (c.recorded_raiseRgn r k data).field (·.tileSt j) fun _ _ _ _ _ => rfl
@[simp] theorem Chip.raiseRgn_bufSt (c : Chip) (r k : Nat) (data : List Nat) (j : Nat) : (c.raiseRgn r k data).bufSt j = c.bufSt j := (c.recorded_raiseRgn r k data).field (·.bufSt j) fun _ _ _ _ _ => rfl
@[simp] theorem Chip.raiseRgn_bootSt (c : Chip) (r k : Nat) (data : List Nat) (j : Nat) : (c.raiseRgn r k data).bootSt j = c.bootSt j := (c.recorded_raiseRgn r k data).field (·.bootSt j) fun _ _ _ _ _ => rfl
@[simp] theorem Chip.raiseRgn_now (c : Chip) (r k : Nat) (data : List Nat) : (c.raiseRgn r k data).now = c.now := (c.recorded_raiseRgn r k data).field (·.now) fun _ _ _ _ _ => rfl
@[simp] theorem Chip.raiseRgn_free (c : Chip) (r k : Nat) (data : List Nat) : (c.raiseRgn r k data).free = c.free := (c.recorded_raiseRgn r k data).field (·.free) fun _ _ _ _ _ => rfl
@[simp] theorem Chip.raiseRgn_mgmt (c : Chip) (r k : Nat) (data : List Nat) : (c.raiseRgn r k data).mgmt = c.mgmt := (c.recorded_raiseRgn r k data).field (·.mgmt) fun _ _ _ _ _ => rfl
@[simp] theorem Chip.raiseRgn_clu (c : Chip) (r k : Nat) (data : List Nat) : (c.raiseRgn r k data).clu = c.clu := (c.recorded_raiseRgn r k data).field (·.clu) fun _ _ _ _ _ => rfl
@[simp] theorem Chip.raiseRgn_rgn (c : Chip) (r k : Nat) (data : List Nat) : (c.raiseRgn r k data).rgn = c.rgn := (c.recorded_raiseRgn r k data).field (·.rgn) fun _ _ _ _ _ => rfl
@[simp] theorem Chip.raiseRgn_die (c : Chip) (r k : Nat) (data : List Nat) : (c.raiseRgn r k data).die = c.die := (c.recorded_raiseRgn r k data).field (·.die) fun _ _ _ _ _ => rfl
@[simp] theorem Chip.raiseRgn_chain (c : Chip) (r k : Nat) (data : List Nat) : (c.raiseRgn r k data).chain = c.chain := (c.recorded_raiseRgn r k data).field (·.chain) fun _ _ _ _ _ => rfl
@[simp] theorem Chip.raiseRgn_sky (c : Chip) (r k : Nat) (data : List Nat) : (c.raiseRgn r k data).sky = c.sky := (c.recorded_raiseRgn r k data).field (·.sky) fun _ _ _ _ _ => rfl
@[simp] theorem Chip.raiseRgn_lane (c : Chip) (r k : Nat) (data : List Nat) : (c.raiseRgn r k data).lane = c.lane := (c.recorded_raiseRgn r k data).field (·.lane) fun _ _ _ _ _ => rfl
@[simp] theorem Chip.raiseRgn_link (c : Chip) (r k : Nat) (data : List Nat) : (c.raiseRgn r k data).link = c.link := (c.recorded_raiseRgn r k data).field (·.link) fun _ _ _ _ _ => rfl
@[simp] theorem Chip.raiseRgn_btl (c : Chip) (r k : Nat) (data : List Nat) : (c.raiseRgn r k data).btl = c.btl := (c.recorded_raiseRgn r k data).field (·.btl) fun _ _ _ _ _ => rfl
@[simp] theorem Chip.raiseRgn_unit (c : Chip) (r k : Nat) (data : List Nat) : (c.raiseRgn r k data).unit = c.unit := (c.recorded_raiseRgn r k data).field (·.unit) fun _ _ _ _ _ => rfl
@[simp] theorem Chip.raiseRgn_pool (c : Chip) (r k : Nat) (data : List Nat) : (c.raiseRgn r k data).pool = c.pool := (c.recorded_raiseRgn r k data).field (·.pool) fun _ _ _ _ _ => rfl
@[simp] theorem Chip.raiseRgn_read (c : Chip) (r k : Nat) (data : List Nat) : (c.raiseRgn r k data).read = c.read := (c.recorded_raiseRgn r k data).field (·.read) fun _ _ _ _ _ => rfl
@[simp] theorem Chip.raiseRgn_burn (c : Chip) (r k : Nat) (data : List Nat) : (c.raiseRgn r k data).burn = c.burn := (c.recorded_raiseRgn r k data).field (·.burn) fun _ _ _ _ _ => rfl
@[simp] theorem Chip.raiseRgn_servo (c : Chip) (r k : Nat) (data : List Nat) : (c.raiseRgn r k data).servo = c.servo := (c.recorded_raiseRgn r k data).field (·.servo) fun _ _ _ _ _ => rfl
@[simp] theorem Chip.raiseRgn_spin (c : Chip) (r k : Nat) (data : List Nat) : (c.raiseRgn r k data).spin = c.spin := (c.recorded_raiseRgn r k data).field (·.spin) fun _ _ _ _ _ => rfl
@[simp] theorem Chip.raiseRgn_axis (c : Chip) (r k : Nat) (data : List Nat) : (c.raiseRgn r k data).axis = c.axis := (c.recorded_raiseRgn r k data).field (·.axis) fun _ _ _ _ _ => rfl
@[simp] theorem Chip.raiseRgn_cat (c : Chip) (r k : Nat) (data : List Nat) : (c.raiseRgn r k data).cat = c.cat := (c.recorded_raiseRgn r k data).field (·.cat) fun _ _ _ _ _ => rfl
@[simp] theorem Chip.raiseRgn_moss (c : Chip) (r k : Nat) (data : List Nat) : (c.raiseRgn r k data).moss = c.moss := (c.recorded_raiseRgn r k data).field (·.moss) fun _ _ _ _ _ => rfl
@[simp] theorem Chip.raiseRgn_tiles (c : Chip) (r k : Nat) (data : List Nat) : (c.raiseRgn r k data).tiles = c.tiles := (c.recorded_raiseRgn r k data).field (·.tiles) fun _ _ _ _ _ => rfl
@[simp] theorem Chip.raiseRgn_buf (c : Chip) (r k : Nat) (data : List Nat) : (c.raiseRgn r k data).buf = c.buf := (c.recorded_raiseRgn r k data).field (·.buf) fun _ _ _ _ _ => rfl
@[simp] theorem Chip.raiseRgn_host (c : Chip) (r k : Nat) (data : List Nat) : (c.raiseRgn r k data).host = c.host := (c.recorded_raiseRgn r k data).field (·.host) fun _ _ _ _ _ => rfl
@[simp] theorem Chip.raiseRgn_launches (c : Chip) (r k : Nat) (data : List Nat) : (c.raiseRgn r k data).launches = c.launches := (c.recorded_raiseRgn r k data).field (·.launches) fun _ _ _ _ _ => rfl
@[simp] theorem Chip.raiseRgn_trust (c : Chip) (r k : Nat) (data : List Nat) : (c.raiseRgn r k data).trust = c.trust := (c.recorded_raiseRgn r k data).field (·.trust) fun _ _ _ _ _ => rfl
@[simp] theorem Chip.raiseRgn_boot (c : Chip) (r k : Nat) (data : List Nat) : (c.raiseRgn r k data).boot = c.boot := (c.recorded_raiseRgn r k data).field (·.boot) fun _ _ _ _ _ => rfl
@[simp] theorem Chip.raiseRgn_power (c : Chip) (r k : Nat) (data : List Nat) : (c.raiseRgn r k data).power = c.power := (c.recorded_raiseRgn r k data).field (·.power) fun _ _ _ _ _ => rfl
@[simp] theorem Chip.raiseRgn_scr (c : Chip) (r k : Nat) (data : List Nat) : (c.raiseRgn r k data).scr = c.scr := (c.recorded_raiseRgn r k data).field (·.scr) fun _ _ _ _ _ => rfl
@[simp] theorem Chip.raiseRgn_svc (c : Chip) (r k : Nat) (data : List Nat) : (c.raiseRgn r k data).svc = c.svc := (c.recorded_raiseRgn r k data).field (·.svc) fun _ _ _ _ _ => rfl
@[simp] theorem Chip.raiseRgn_catSnaps (c : Chip) (r k : Nat) (data : List Nat) : (c.raiseRgn r k data).catSnaps = c.catSnaps := (c.recorded_raiseRgn r k data).field (·.catSnaps) fun _ _ _ _ _ => rfl

@[simp] theorem Chip.raiseDie_cluSt (c : Chip) (e k : Nat) (data : List Nat) (j : Nat) : (c.raiseDie e k data).cluSt j = c.cluSt j := (c.recorded_raiseDie e k data).field (·.cluSt j) fun _ _ _ _ _ => rfl
@[simp] theorem Chip.raiseDie_rgnSt (c : Chip) (e k : Nat) (data : List Nat) (j : Nat) : (c.raiseDie e k data).rgnSt j = c.rgnSt j := (c.recorded_raiseDie e k data).field (·.rgnSt j) fun _ _ _ _ _ => rfl
@[simp] theorem Chip.raiseDie_dieSt (c : Chip) (e k : Nat) (data : List Nat) (j : Nat) : (c.raiseDie e k data).dieSt j = c.dieSt j := (c.recorded_raiseDie e k data).field (·.dieSt j) fun _ _ _ _ _ => rfl
@[simp] theorem Chip.raiseDie_laneSt (c : Chip) (e k : Nat) (data : List Nat) (j : Nat) : (c.raiseDie e k data).laneSt j = c.laneSt j := (c.recorded_raiseDie e k data).field (·.laneSt j) fun _ _ _ _ _ => rfl
@[simp] theorem Chip.raiseDie_linkSt (c : Chip) (e k : Nat) (data : List Nat) (j : Nat) : (c.raiseDie e k data).linkSt j = c.linkSt j := (c.recorded_raiseDie e k data).field (·.linkSt j) fun _ _ _ _ _ => rfl
@[simp] theorem Chip.raiseDie_btlSt (c : Chip) (e k : Nat) (data : List Nat) (j : Nat) : (c.raiseDie e k data).btlSt j = c.btlSt j := (c.recorded_raiseDie e k data).field (·.btlSt j) fun _ _ _ _ _ => rfl
@[simp] theorem Chip.raiseDie_unitSt (c : Chip) (e k : Nat) (data : List Nat) (j : Nat) : (c.raiseDie e k data).unitSt j = c.unitSt j := (c.recorded_raiseDie e k data).field (·.unitSt j) fun _ _ _ _ _ => rfl
@[simp] theorem Chip.raiseDie_poolSt (c : Chip) (e k : Nat) (data : List Nat) (j : Nat) : (c.raiseDie e k data).poolSt j = c.poolSt j := (c.recorded_raiseDie e k data).field (·.poolSt j) fun _ _ _ _ _ => rfl
@[simp] theorem Chip.raiseDie_readSt (c : Chip) (e k : Nat) (data : List Nat) (j : Nat) : (c.raiseDie e k data).readSt j = c.readSt j := (c.recorded_raiseDie e k data).field (·.readSt j) fun _ _ _ _ _ => rfl
@[simp] theorem Chip.raiseDie_burnSt (c : Chip) (e k : Nat) (data : List Nat) (j : Nat) : (c.raiseDie e k data).burnSt j = c.burnSt j := (c.recorded_raiseDie e k data).field (·.burnSt j) fun _ _ _ _ _ => rfl
@[simp] theorem Chip.raiseDie_servoSt (c : Chip) (e k : Nat) (data : List Nat) (j : Nat) : (c.raiseDie e k data).servoSt j = c.servoSt j := (c.recorded_raiseDie e k data).field (·.servoSt j) fun _ _ _ _ _ => rfl
@[simp] theorem Chip.raiseDie_spinSt (c : Chip) (e k : Nat) (data : List Nat) (j : Nat) : (c.raiseDie e k data).spinSt j = c.spinSt j := (c.recorded_raiseDie e k data).field (·.spinSt j) fun _ _ _ _ _ => rfl
@[simp] theorem Chip.raiseDie_axisSt (c : Chip) (e k : Nat) (data : List Nat) (j : Nat) : (c.raiseDie e k data).axisSt j = c.axisSt j := (c.recorded_raiseDie e k data).field (·.axisSt j) fun _ _ _ _ _ => rfl
@[simp] theorem Chip.raiseDie_tileSt (c : Chip) (e k : Nat) (data : List Nat) (j : Nat) : (c.raiseDie e k data).tileSt j = c.tileSt j := (c.recorded_raiseDie e k data).field (·.tileSt j) fun _ _ _ _ _ => rfl
@[simp] theorem Chip.raiseDie_bufSt (c : Chip) (e k : Nat) (data : List Nat) (j : Nat) : (c.raiseDie e k data).bufSt j = c.bufSt j := (c.recorded_raiseDie e k data).field (·.bufSt j) fun _ _ _ _ _ => rfl
@[simp] theorem Chip.raiseDie_bootSt (c : Chip) (e k : Nat) (data : List Nat) (j : Nat) : (c.raiseDie e k data).bootSt j = c.bootSt j := (c.recorded_raiseDie e k data).field (·.bootSt j) fun _ _ _ _ _ => rfl
@[simp] theorem Chip.raiseDie_now (c : Chip) (e k : Nat) (data : List Nat) : (c.raiseDie e k data).now = c.now := (c.recorded_raiseDie e k data).field (·.now) fun _ _ _ _ _ => rfl
@[simp] theorem Chip.raiseDie_free (c : Chip) (e k : Nat) (data : List Nat) : (c.raiseDie e k data).free = c.free := (c.recorded_raiseDie e k data).field (·.free) fun _ _ _ _ _ => rfl
@[simp] theorem Chip.raiseDie_mgmt (c : Chip) (e k : Nat) (data : List Nat) : (c.raiseDie e k data).mgmt = c.mgmt := (c.recorded_raiseDie e k data).field (·.mgmt) fun _ _ _ _ _ => rfl
@[simp] theorem Chip.raiseDie_clu (c : Chip) (e k : Nat) (data : List Nat) : (c.raiseDie e k data).clu = c.clu := (c.recorded_raiseDie e k data).field (·.clu) fun _ _ _ _ _ => rfl
@[simp] theorem Chip.raiseDie_rgn (c : Chip) (e k : Nat) (data : List Nat) : (c.raiseDie e k data).rgn = c.rgn := (c.recorded_raiseDie e k data).field (·.rgn) fun _ _ _ _ _ => rfl
@[simp] theorem Chip.raiseDie_die (c : Chip) (e k : Nat) (data : List Nat) : (c.raiseDie e k data).die = c.die := (c.recorded_raiseDie e k data).field (·.die) fun _ _ _ _ _ => rfl
@[simp] theorem Chip.raiseDie_chain (c : Chip) (e k : Nat) (data : List Nat) : (c.raiseDie e k data).chain = c.chain := (c.recorded_raiseDie e k data).field (·.chain) fun _ _ _ _ _ => rfl
@[simp] theorem Chip.raiseDie_sky (c : Chip) (e k : Nat) (data : List Nat) : (c.raiseDie e k data).sky = c.sky := (c.recorded_raiseDie e k data).field (·.sky) fun _ _ _ _ _ => rfl
@[simp] theorem Chip.raiseDie_lane (c : Chip) (e k : Nat) (data : List Nat) : (c.raiseDie e k data).lane = c.lane := (c.recorded_raiseDie e k data).field (·.lane) fun _ _ _ _ _ => rfl
@[simp] theorem Chip.raiseDie_link (c : Chip) (e k : Nat) (data : List Nat) : (c.raiseDie e k data).link = c.link := (c.recorded_raiseDie e k data).field (·.link) fun _ _ _ _ _ => rfl
@[simp] theorem Chip.raiseDie_btl (c : Chip) (e k : Nat) (data : List Nat) : (c.raiseDie e k data).btl = c.btl := (c.recorded_raiseDie e k data).field (·.btl) fun _ _ _ _ _ => rfl
@[simp] theorem Chip.raiseDie_unit (c : Chip) (e k : Nat) (data : List Nat) : (c.raiseDie e k data).unit = c.unit := (c.recorded_raiseDie e k data).field (·.unit) fun _ _ _ _ _ => rfl
@[simp] theorem Chip.raiseDie_pool (c : Chip) (e k : Nat) (data : List Nat) : (c.raiseDie e k data).pool = c.pool := (c.recorded_raiseDie e k data).field (·.pool) fun _ _ _ _ _ => rfl
@[simp] theorem Chip.raiseDie_read (c : Chip) (e k : Nat) (data : List Nat) : (c.raiseDie e k data).read = c.read := (c.recorded_raiseDie e k data).field (·.read) fun _ _ _ _ _ => rfl
@[simp] theorem Chip.raiseDie_burn (c : Chip) (e k : Nat) (data : List Nat) : (c.raiseDie e k data).burn = c.burn := (c.recorded_raiseDie e k data).field (·.burn) fun _ _ _ _ _ => rfl
@[simp] theorem Chip.raiseDie_servo (c : Chip) (e k : Nat) (data : List Nat) : (c.raiseDie e k data).servo = c.servo := (c.recorded_raiseDie e k data).field (·.servo) fun _ _ _ _ _ => rfl
@[simp] theorem Chip.raiseDie_spin (c : Chip) (e k : Nat) (data : List Nat) : (c.raiseDie e k data).spin = c.spin := (c.recorded_raiseDie e k data).field (·.spin) fun _ _ _ _ _ => rfl
@[simp] theorem Chip.raiseDie_axis (c : Chip) (e k : Nat) (data : List Nat) : (c.raiseDie e k data).axis = c.axis := (c.recorded_raiseDie e k data).field (·.axis) fun _ _ _ _ _ => rfl
@[simp] theorem Chip.raiseDie_cat (c : Chip) (e k : Nat) (data : List Nat) : (c.raiseDie e k data).cat = c.cat := (c.recorded_raiseDie e k data).field (·.cat) fun _ _ _ _ _ => rfl
@[simp] theorem Chip.raiseDie_moss (c : Chip) (e k : Nat) (data : List Nat) : (c.raiseDie e k data).moss = c.moss := (c.recorded_raiseDie e k data).field (·.moss) fun _ _ _ _ _ => rfl
@[simp] theorem Chip.raiseDie_tiles (c : Chip) (e k : Nat) (data : List Nat) : (c.raiseDie e k data).tiles = c.tiles := (c.recorded_raiseDie e k data).field (·.tiles) fun _ _ _ _ _ => rfl
@[simp] theorem Chip.raiseDie_buf (c : Chip) (e k : Nat) (data : List Nat) : (c.raiseDie e k data).buf = c.buf := (c.recorded_raiseDie e k data).field (·.buf) fun _ _ _ _ _ => rfl
@[simp] theorem Chip.raiseDie_host (c : Chip) (e k : Nat) (data : List Nat) : (c.raiseDie e k data).host = c.host := (c.recorded_raiseDie e k data).field (·.host) fun _ _ _ _ _ => rfl
@[simp] theorem Chip.raiseDie_launches (c : Chip) (e k : Nat) (data : List Nat) : (c.raiseDie e k data).launches = c.launches := (c.recorded_raiseDie e k data).field (·.launches) fun _ _ _ _ _ => rfl
@[simp] theorem Chip.raiseDie_trust (c : Chip) (e k : Nat) (data : List Nat) : (c.raiseDie e k data).trust = c.trust := (c.recorded_raiseDie e k data).field (·.trust) fun _ _ _ _ _ => rfl
@[simp] theorem Chip.raiseDie_boot (c : Chip) (e k : Nat) (data : List Nat) : (c.raiseDie e k data).boot = c.boot := (c.recorded_raiseDie e k data).field (·.boot) fun _ _ _ _ _ => rfl
@[simp] theorem Chip.raiseDie_power (c : Chip) (e k : Nat) (data : List Nat) : (c.raiseDie e k data).power = c.power := (c.recorded_raiseDie e k data).field (·.power) fun _ _ _ _ _ => rfl
@[simp] theorem Chip.raiseDie_scr (c : Chip) (e k : Nat) (data : List Nat) : (c.raiseDie e k data).scr = c.scr := (c.recorded_raiseDie e k data).field (·.scr) fun _ _ _ _ _ => rfl
@[simp] theorem Chip.raiseDie_svc (c : Chip) (e k : Nat) (data : List Nat) : (c.raiseDie e k data).svc = c.svc := (c.recorded_raiseDie e k data).field (·.svc) fun _ _ _ _ _ => rfl
@[simp] theorem Chip.raiseDie_catSnaps (c : Chip) (e k : Nat) (data : List Nat) : (c.raiseDie e k data).catSnaps = c.catSnaps := (c.recorded_raiseDie e k data).field (·.catSnaps) fun _ _ _ _ _ => rfl

@[simp] theorem Chip.raisePkg_cluSt (c : Chip) (k : Nat) (data : List Nat) (j : Nat) : (c.raisePkg k data).cluSt j = c.cluSt j := (c.recorded_raisePkg k data).field (·.cluSt j) fun _ _ _ _ _ => rfl
@[simp] theorem Chip.raisePkg_rgnSt (c : Chip) (k : Nat) (data : List Nat) (j : Nat) : (c.raisePkg k data).rgnSt j = c.rgnSt j := (c.recorded_raisePkg k data).field (·.rgnSt j) fun _ _ _ _ _ => rfl
@[simp] theorem Chip.raisePkg_dieSt (c : Chip) (k : Nat) (data : List Nat) (j : Nat) : (c.raisePkg k data).dieSt j = c.dieSt j := (c.recorded_raisePkg k data).field (·.dieSt j) fun _ _ _ _ _ => rfl
@[simp] theorem Chip.raisePkg_laneSt (c : Chip) (k : Nat) (data : List Nat) (j : Nat) : (c.raisePkg k data).laneSt j = c.laneSt j := (c.recorded_raisePkg k data).field (·.laneSt j) fun _ _ _ _ _ => rfl
@[simp] theorem Chip.raisePkg_linkSt (c : Chip) (k : Nat) (data : List Nat) (j : Nat) : (c.raisePkg k data).linkSt j = c.linkSt j := (c.recorded_raisePkg k data).field (·.linkSt j) fun _ _ _ _ _ => rfl
@[simp] theorem Chip.raisePkg_btlSt (c : Chip) (k : Nat) (data : List Nat) (j : Nat) : (c.raisePkg k data).btlSt j = c.btlSt j := (c.recorded_raisePkg k data).field (·.btlSt j) fun _ _ _ _ _ => rfl
@[simp] theorem Chip.raisePkg_unitSt (c : Chip) (k : Nat) (data : List Nat) (j : Nat) : (c.raisePkg k data).unitSt j = c.unitSt j := (c.recorded_raisePkg k data).field (·.unitSt j) fun _ _ _ _ _ => rfl
@[simp] theorem Chip.raisePkg_poolSt (c : Chip) (k : Nat) (data : List Nat) (j : Nat) : (c.raisePkg k data).poolSt j = c.poolSt j := (c.recorded_raisePkg k data).field (·.poolSt j) fun _ _ _ _ _ => rfl
@[simp] theorem Chip.raisePkg_readSt (c : Chip) (k : Nat) (data : List Nat) (j : Nat) : (c.raisePkg k data).readSt j = c.readSt j := (c.recorded_raisePkg k data).field (·.readSt j) fun _ _ _ _ _ => rfl
@[simp] theorem Chip.raisePkg_burnSt (c : Chip) (k : Nat) (data : List Nat) (j : Nat) : (c.raisePkg k data).burnSt j = c.burnSt j := (c.recorded_raisePkg k data).field (·.burnSt j) fun _ _ _ _ _ => rfl
@[simp] theorem Chip.raisePkg_servoSt (c : Chip) (k : Nat) (data : List Nat) (j : Nat) : (c.raisePkg k data).servoSt j = c.servoSt j := (c.recorded_raisePkg k data).field (·.servoSt j) fun _ _ _ _ _ => rfl
@[simp] theorem Chip.raisePkg_spinSt (c : Chip) (k : Nat) (data : List Nat) (j : Nat) : (c.raisePkg k data).spinSt j = c.spinSt j := (c.recorded_raisePkg k data).field (·.spinSt j) fun _ _ _ _ _ => rfl
@[simp] theorem Chip.raisePkg_axisSt (c : Chip) (k : Nat) (data : List Nat) (j : Nat) : (c.raisePkg k data).axisSt j = c.axisSt j := (c.recorded_raisePkg k data).field (·.axisSt j) fun _ _ _ _ _ => rfl
@[simp] theorem Chip.raisePkg_tileSt (c : Chip) (k : Nat) (data : List Nat) (j : Nat) : (c.raisePkg k data).tileSt j = c.tileSt j := (c.recorded_raisePkg k data).field (·.tileSt j) fun _ _ _ _ _ => rfl
@[simp] theorem Chip.raisePkg_bufSt (c : Chip) (k : Nat) (data : List Nat) (j : Nat) : (c.raisePkg k data).bufSt j = c.bufSt j := (c.recorded_raisePkg k data).field (·.bufSt j) fun _ _ _ _ _ => rfl
@[simp] theorem Chip.raisePkg_bootSt (c : Chip) (k : Nat) (data : List Nat) (j : Nat) : (c.raisePkg k data).bootSt j = c.bootSt j := (c.recorded_raisePkg k data).field (·.bootSt j) fun _ _ _ _ _ => rfl
@[simp] theorem Chip.raisePkg_now (c : Chip) (k : Nat) (data : List Nat) : (c.raisePkg k data).now = c.now := (c.recorded_raisePkg k data).field (·.now) fun _ _ _ _ _ => rfl
@[simp] theorem Chip.raisePkg_free (c : Chip) (k : Nat) (data : List Nat) : (c.raisePkg k data).free = c.free := (c.recorded_raisePkg k data).field (·.free) fun _ _ _ _ _ => rfl
@[simp] theorem Chip.raisePkg_mgmt (c : Chip) (k : Nat) (data : List Nat) : (c.raisePkg k data).mgmt = c.mgmt := (c.recorded_raisePkg k data).field (·.mgmt) fun _ _ _ _ _ => rfl
@[simp] theorem Chip.raisePkg_clu (c : Chip) (k : Nat) (data : List Nat) : (c.raisePkg k data).clu = c.clu := (c.recorded_raisePkg k data).field (·.clu) fun _ _ _ _ _ => rfl
@[simp] theorem Chip.raisePkg_rgn (c : Chip) (k : Nat) (data : List Nat) : (c.raisePkg k data).rgn = c.rgn := (c.recorded_raisePkg k data).field (·.rgn) fun _ _ _ _ _ => rfl
@[simp] theorem Chip.raisePkg_die (c : Chip) (k : Nat) (data : List Nat) : (c.raisePkg k data).die = c.die := (c.recorded_raisePkg k data).field (·.die) fun _ _ _ _ _ => rfl
@[simp] theorem Chip.raisePkg_chain (c : Chip) (k : Nat) (data : List Nat) : (c.raisePkg k data).chain = c.chain := (c.recorded_raisePkg k data).field (·.chain) fun _ _ _ _ _ => rfl
@[simp] theorem Chip.raisePkg_sky (c : Chip) (k : Nat) (data : List Nat) : (c.raisePkg k data).sky = c.sky := (c.recorded_raisePkg k data).field (·.sky) fun _ _ _ _ _ => rfl
@[simp] theorem Chip.raisePkg_lane (c : Chip) (k : Nat) (data : List Nat) : (c.raisePkg k data).lane = c.lane := (c.recorded_raisePkg k data).field (·.lane) fun _ _ _ _ _ => rfl
@[simp] theorem Chip.raisePkg_link (c : Chip) (k : Nat) (data : List Nat) : (c.raisePkg k data).link = c.link := (c.recorded_raisePkg k data).field (·.link) fun _ _ _ _ _ => rfl
@[simp] theorem Chip.raisePkg_btl (c : Chip) (k : Nat) (data : List Nat) : (c.raisePkg k data).btl = c.btl := (c.recorded_raisePkg k data).field (·.btl) fun _ _ _ _ _ => rfl
@[simp] theorem Chip.raisePkg_unit (c : Chip) (k : Nat) (data : List Nat) : (c.raisePkg k data).unit = c.unit := (c.recorded_raisePkg k data).field (·.unit) fun _ _ _ _ _ => rfl
@[simp] theorem Chip.raisePkg_pool (c : Chip) (k : Nat) (data : List Nat) : (c.raisePkg k data).pool = c.pool := (c.recorded_raisePkg k data).field (·.pool) fun _ _ _ _ _ => rfl
@[simp] theorem Chip.raisePkg_read (c : Chip) (k : Nat) (data : List Nat) : (c.raisePkg k data).read = c.read := (c.recorded_raisePkg k data).field (·.read) fun _ _ _ _ _ => rfl
@[simp] theorem Chip.raisePkg_burn (c : Chip) (k : Nat) (data : List Nat) : (c.raisePkg k data).burn = c.burn := (c.recorded_raisePkg k data).field (·.burn) fun _ _ _ _ _ => rfl
@[simp] theorem Chip.raisePkg_servo (c : Chip) (k : Nat) (data : List Nat) : (c.raisePkg k data).servo = c.servo := (c.recorded_raisePkg k data).field (·.servo) fun _ _ _ _ _ => rfl
@[simp] theorem Chip.raisePkg_spin (c : Chip) (k : Nat) (data : List Nat) : (c.raisePkg k data).spin = c.spin := (c.recorded_raisePkg k data).field (·.spin) fun _ _ _ _ _ => rfl
@[simp] theorem Chip.raisePkg_axis (c : Chip) (k : Nat) (data : List Nat) : (c.raisePkg k data).axis = c.axis := (c.recorded_raisePkg k data).field (·.axis) fun _ _ _ _ _ => rfl
@[simp] theorem Chip.raisePkg_cat (c : Chip) (k : Nat) (data : List Nat) : (c.raisePkg k data).cat = c.cat := (c.recorded_raisePkg k data).field (·.cat) fun _ _ _ _ _ => rfl
@[simp] theorem Chip.raisePkg_moss (c : Chip) (k : Nat) (data : List Nat) : (c.raisePkg k data).moss = c.moss := (c.recorded_raisePkg k data).field (·.moss) fun _ _ _ _ _ => rfl
@[simp] theorem Chip.raisePkg_tiles (c : Chip) (k : Nat) (data : List Nat) : (c.raisePkg k data).tiles = c.tiles := (c.recorded_raisePkg k data).field (·.tiles) fun _ _ _ _ _ => rfl
@[simp] theorem Chip.raisePkg_buf (c : Chip) (k : Nat) (data : List Nat) : (c.raisePkg k data).buf = c.buf := (c.recorded_raisePkg k data).field (·.buf) fun _ _ _ _ _ => rfl
@[simp] theorem Chip.raisePkg_host (c : Chip) (k : Nat) (data : List Nat) : (c.raisePkg k data).host = c.host := (c.recorded_raisePkg k data).field (·.host) fun _ _ _ _ _ => rfl
@[simp] theorem Chip.raisePkg_launches (c : Chip) (k : Nat) (data : List Nat) : (c.raisePkg k data).launches = c.launches := (c.recorded_raisePkg k data).field (·.launches) fun _ _ _ _ _ => rfl
@[simp] theorem Chip.raisePkg_trust (c : Chip) (k : Nat) (data : List Nat) : (c.raisePkg k data).trust = c.trust := (c.recorded_raisePkg k data).field (·.trust) fun _ _ _ _ _ => rfl
@[simp] theorem Chip.raisePkg_boot (c : Chip) (k : Nat) (data : List Nat) : (c.raisePkg k data).boot = c.boot := (c.recorded_raisePkg k data).field (·.boot) fun _ _ _ _ _ => rfl
@[simp] theorem Chip.raisePkg_power (c : Chip) (k : Nat) (data : List Nat) : (c.raisePkg k data).power = c.power := (c.recorded_raisePkg k data).field (·.power) fun _ _ _ _ _ => rfl
@[simp] theorem Chip.raisePkg_scr (c : Chip) (k : Nat) (data : List Nat) : (c.raisePkg k data).scr = c.scr := (c.recorded_raisePkg k data).field (·.scr) fun _ _ _ _ _ => rfl
@[simp] theorem Chip.raisePkg_svc (c : Chip) (k : Nat) (data : List Nat) : (c.raisePkg k data).svc = c.svc := (c.recorded_raisePkg k data).field (·.svc) fun _ _ _ _ _ => rfl
@[simp] theorem Chip.raisePkg_catSnaps (c : Chip) (k : Nat) (data : List Nat) : (c.raisePkg k data).catSnaps = c.catSnaps := (c.recorded_raisePkg k data).field (·.catSnaps) fun _ _ _ _ _ => rfl

@[simp] theorem Chip.lichenWrite_cluSt (c : Chip) (code path : Nat) (data : List Nat) (j : Nat) : (c.lichenWrite code path data).cluSt j = c.cluSt j := (c.recorded_lichenWrite code path data).field (·.cluSt j) fun _ _ _ _ _ => rfl
@[simp] theorem Chip.lichenWrite_rgnSt (c : Chip) (code path : Nat) (data : List Nat) (j : Nat) : (c.lichenWrite code path data).rgnSt j = c.rgnSt j := (c.recorded_lichenWrite code path data).field (·.rgnSt j) fun _ _ _ _ _ => rfl
@[simp] theorem Chip.lichenWrite_dieSt (c : Chip) (code path : Nat) (data : List Nat) (j : Nat) : (c.lichenWrite code path data).dieSt j = c.dieSt j := (c.recorded_lichenWrite code path data).field (·.dieSt j) fun _ _ _ _ _ => rfl
@[simp] theorem Chip.lichenWrite_laneSt (c : Chip) (code path : Nat) (data : List Nat) (j : Nat) : (c.lichenWrite code path data).laneSt j = c.laneSt j := (c.recorded_lichenWrite code path data).field (·.laneSt j) fun _ _ _ _ _ => rfl
@[simp] theorem Chip.lichenWrite_linkSt (c : Chip) (code path : Nat) (data : List Nat) (j : Nat) : (c.lichenWrite code path data).linkSt j = c.linkSt j := (c.recorded_lichenWrite code path data).field (·.linkSt j) fun _ _ _ _ _ => rfl
@[simp] theorem Chip.lichenWrite_btlSt (c : Chip) (code path : Nat) (data : List Nat) (j : Nat) : (c.lichenWrite code path data).btlSt j = c.btlSt j := (c.recorded_lichenWrite code path data).field (·.btlSt j) fun _ _ _ _ _ => rfl
@[simp] theorem Chip.lichenWrite_unitSt (c : Chip) (code path : Nat) (data : List Nat) (j : Nat) : (c.lichenWrite code path data).unitSt j = c.unitSt j := (c.recorded_lichenWrite code path data).field (·.unitSt j) fun _ _ _ _ _ => rfl
@[simp] theorem Chip.lichenWrite_poolSt (c : Chip) (code path : Nat) (data : List Nat) (j : Nat) : (c.lichenWrite code path data).poolSt j = c.poolSt j := (c.recorded_lichenWrite code path data).field (·.poolSt j) fun _ _ _ _ _ => rfl
@[simp] theorem Chip.lichenWrite_readSt (c : Chip) (code path : Nat) (data : List Nat) (j : Nat) : (c.lichenWrite code path data).readSt j = c.readSt j := (c.recorded_lichenWrite code path data).field (·.readSt j) fun _ _ _ _ _ => rfl
@[simp] theorem Chip.lichenWrite_burnSt (c : Chip) (code path : Nat) (data : List Nat) (j : Nat) : (c.lichenWrite code path data).burnSt j = c.burnSt j := (c.recorded_lichenWrite code path data).field (·.burnSt j) fun _ _ _ _ _ => rfl
@[simp] theorem Chip.lichenWrite_servoSt (c : Chip) (code path : Nat) (data : List Nat) (j : Nat) : (c.lichenWrite code path data).servoSt j = c.servoSt j := (c.recorded_lichenWrite code path data).field (·.servoSt j) fun _ _ _ _ _ => rfl
@[simp] theorem Chip.lichenWrite_spinSt (c : Chip) (code path : Nat) (data : List Nat) (j : Nat) : (c.lichenWrite code path data).spinSt j = c.spinSt j := (c.recorded_lichenWrite code path data).field (·.spinSt j) fun _ _ _ _ _ => rfl
@[simp] theorem Chip.lichenWrite_axisSt (c : Chip) (code path : Nat) (data : List Nat) (j : Nat) : (c.lichenWrite code path data).axisSt j = c.axisSt j := (c.recorded_lichenWrite code path data).field (·.axisSt j) fun _ _ _ _ _ => rfl
@[simp] theorem Chip.lichenWrite_tileSt (c : Chip) (code path : Nat) (data : List Nat) (j : Nat) : (c.lichenWrite code path data).tileSt j = c.tileSt j := (c.recorded_lichenWrite code path data).field (·.tileSt j) fun _ _ _ _ _ => rfl
@[simp] theorem Chip.lichenWrite_bufSt (c : Chip) (code path : Nat) (data : List Nat) (j : Nat) : (c.lichenWrite code path data).bufSt j = c.bufSt j := (c.recorded_lichenWrite code path data).field (·.bufSt j) fun _ _ _ _ _ => rfl
@[simp] theorem Chip.lichenWrite_bootSt (c : Chip) (code path : Nat) (data : List Nat) (j : Nat) : (c.lichenWrite code path data).bootSt j = c.bootSt j := (c.recorded_lichenWrite code path data).field (·.bootSt j) fun _ _ _ _ _ => rfl
@[simp] theorem Chip.lichenWrite_now (c : Chip) (code path : Nat) (data : List Nat) : (c.lichenWrite code path data).now = c.now := (c.recorded_lichenWrite code path data).field (·.now) fun _ _ _ _ _ => rfl
@[simp] theorem Chip.lichenWrite_free (c : Chip) (code path : Nat) (data : List Nat) : (c.lichenWrite code path data).free = c.free := (c.recorded_lichenWrite code path data).field (·.free) fun _ _ _ _ _ => rfl
@[simp] theorem Chip.lichenWrite_mgmt (c : Chip) (code path : Nat) (data : List Nat) : (c.lichenWrite code path data).mgmt = c.mgmt := (c.recorded_lichenWrite code path data).field (·.mgmt) fun _ _ _ _ _ => rfl
@[simp] theorem Chip.lichenWrite_clu (c : Chip) (code path : Nat) (data : List Nat) : (c.lichenWrite code path data).clu = c.clu := (c.recorded_lichenWrite code path data).field (·.clu) fun _ _ _ _ _ => rfl
@[simp] theorem Chip.lichenWrite_rgn (c : Chip) (code path : Nat) (data : List Nat) : (c.lichenWrite code path data).rgn = c.rgn := (c.recorded_lichenWrite code path data).field (·.rgn) fun _ _ _ _ _ => rfl
@[simp] theorem Chip.lichenWrite_die (c : Chip) (code path : Nat) (data : List Nat) : (c.lichenWrite code path data).die = c.die := (c.recorded_lichenWrite code path data).field (·.die) fun _ _ _ _ _ => rfl
@[simp] theorem Chip.lichenWrite_chain (c : Chip) (code path : Nat) (data : List Nat) : (c.lichenWrite code path data).chain = c.chain := (c.recorded_lichenWrite code path data).field (·.chain) fun _ _ _ _ _ => rfl
@[simp] theorem Chip.lichenWrite_sky (c : Chip) (code path : Nat) (data : List Nat) : (c.lichenWrite code path data).sky = c.sky := (c.recorded_lichenWrite code path data).field (·.sky) fun _ _ _ _ _ => rfl
@[simp] theorem Chip.lichenWrite_lane (c : Chip) (code path : Nat) (data : List Nat) : (c.lichenWrite code path data).lane = c.lane := (c.recorded_lichenWrite code path data).field (·.lane) fun _ _ _ _ _ => rfl
@[simp] theorem Chip.lichenWrite_link (c : Chip) (code path : Nat) (data : List Nat) : (c.lichenWrite code path data).link = c.link := (c.recorded_lichenWrite code path data).field (·.link) fun _ _ _ _ _ => rfl
@[simp] theorem Chip.lichenWrite_btl (c : Chip) (code path : Nat) (data : List Nat) : (c.lichenWrite code path data).btl = c.btl := (c.recorded_lichenWrite code path data).field (·.btl) fun _ _ _ _ _ => rfl
@[simp] theorem Chip.lichenWrite_unit (c : Chip) (code path : Nat) (data : List Nat) : (c.lichenWrite code path data).unit = c.unit := (c.recorded_lichenWrite code path data).field (·.unit) fun _ _ _ _ _ => rfl
@[simp] theorem Chip.lichenWrite_pool (c : Chip) (code path : Nat) (data : List Nat) : (c.lichenWrite code path data).pool = c.pool := (c.recorded_lichenWrite code path data).field (·.pool) fun _ _ _ _ _ => rfl
@[simp] theorem Chip.lichenWrite_read (c : Chip) (code path : Nat) (data : List Nat) : (c.lichenWrite code path data).read = c.read := (c.recorded_lichenWrite code path data).field (·.read) fun _ _ _ _ _ => rfl
@[simp] theorem Chip.lichenWrite_burn (c : Chip) (code path : Nat) (data : List Nat) : (c.lichenWrite code path data).burn = c.burn := (c.recorded_lichenWrite code path data).field (·.burn) fun _ _ _ _ _ => rfl
@[simp] theorem Chip.lichenWrite_servo (c : Chip) (code path : Nat) (data : List Nat) : (c.lichenWrite code path data).servo = c.servo := (c.recorded_lichenWrite code path data).field (·.servo) fun _ _ _ _ _ => rfl
@[simp] theorem Chip.lichenWrite_spin (c : Chip) (code path : Nat) (data : List Nat) : (c.lichenWrite code path data).spin = c.spin := (c.recorded_lichenWrite code path data).field (·.spin) fun _ _ _ _ _ => rfl
@[simp] theorem Chip.lichenWrite_axis (c : Chip) (code path : Nat) (data : List Nat) : (c.lichenWrite code path data).axis = c.axis := (c.recorded_lichenWrite code path data).field (·.axis) fun _ _ _ _ _ => rfl
@[simp] theorem Chip.lichenWrite_cat (c : Chip) (code path : Nat) (data : List Nat) : (c.lichenWrite code path data).cat = c.cat := (c.recorded_lichenWrite code path data).field (·.cat) fun _ _ _ _ _ => rfl
@[simp] theorem Chip.lichenWrite_moss (c : Chip) (code path : Nat) (data : List Nat) : (c.lichenWrite code path data).moss = c.moss := (c.recorded_lichenWrite code path data).field (·.moss) fun _ _ _ _ _ => rfl
@[simp] theorem Chip.lichenWrite_tiles (c : Chip) (code path : Nat) (data : List Nat) : (c.lichenWrite code path data).tiles = c.tiles := (c.recorded_lichenWrite code path data).field (·.tiles) fun _ _ _ _ _ => rfl
@[simp] theorem Chip.lichenWrite_buf (c : Chip) (code path : Nat) (data : List Nat) : (c.lichenWrite code path data).buf = c.buf := (c.recorded_lichenWrite code path data).field (·.buf) fun _ _ _ _ _ => rfl
@[simp] theorem Chip.lichenWrite_host (c : Chip) (code path : Nat) (data : List Nat) : (c.lichenWrite code path data).host = c.host := (c.recorded_lichenWrite code path data).field (·.host) fun _ _ _ _ _ => rfl
@[simp] theorem Chip.lichenWrite_launches (c : Chip) (code path : Nat) (data : List Nat) : (c.lichenWrite code path data).launches = c.launches := (c.recorded_lichenWrite code path data).field (·.launches) fun _ _ _ _ _ => rfl
@[simp] theorem Chip.lichenWrite_trust (c : Chip) (code path : Nat) (data : List Nat) : (c.lichenWrite code path data).trust = c.trust := (c.recorded_lichenWrite code path data).field (·.trust) fun _ _ _ _ _ => rfl
@[simp] theorem Chip.lichenWrite_boot (c : Chip) (code path : Nat) (data : List Nat) : (c.lichenWrite code path data).boot = c.boot := (c.recorded_lichenWrite code path data).field (·.boot) fun _ _ _ _ _ => rfl
@[simp] theorem Chip.lichenWrite_power (c : Chip) (code path : Nat) (data : List Nat) : (c.lichenWrite code path data).power = c.power := (c.recorded_lichenWrite code path data).field (·.power) fun _ _ _ _ _ => rfl
@[simp] theorem Chip.lichenWrite_scr (c : Chip) (code path : Nat) (data : List Nat) : (c.lichenWrite code path data).scr = c.scr := (c.recorded_lichenWrite code path data).field (·.scr) fun _ _ _ _ _ => rfl
@[simp] theorem Chip.lichenWrite_svc (c : Chip) (code path : Nat) (data : List Nat) : (c.lichenWrite code path data).svc = c.svc := (c.recorded_lichenWrite code path data).field (·.svc) fun _ _ _ _ _ => rfl
@[simp] theorem Chip.lichenWrite_catSnaps (c : Chip) (code path : Nat) (data : List Nat) : (c.lichenWrite code path data).catSnaps = c.catSnaps := (c.recorded_lichenWrite code path data).field (·.catSnaps) fun _ _ _ _ _ => rfl

@[simp] theorem Chip.freezeRecord_cluSt (c : Chip) (trigger : Nat) (sky : Option Nat) (keeper : Nat) (j : Nat) : (c.freezeRecord trigger sky keeper).cluSt j = c.cluSt j := (c.recorded_freezeRecord trigger sky keeper).field (·.cluSt j) fun _ _ _ _ _ => rfl
@[simp] theorem Chip.freezeRecord_rgnSt (c : Chip) (trigger : Nat) (sky : Option Nat) (keeper : Nat) (j : Nat) : (c.freezeRecord trigger sky keeper).rgnSt j = c.rgnSt j := (c.recorded_freezeRecord trigger sky keeper).field (·.rgnSt j) fun _ _ _ _ _ => rfl
@[simp] theorem Chip.freezeRecord_dieSt (c : Chip) (trigger : Nat) (sky : Option Nat) (keeper : Nat) (j : Nat) : (c.freezeRecord trigger sky keeper).dieSt j = c.dieSt j := (c.recorded_freezeRecord trigger sky keeper).field (·.dieSt j) fun _ _ _ _ _ => rfl
@[simp] theorem Chip.freezeRecord_laneSt (c : Chip) (trigger : Nat) (sky : Option Nat) (keeper : Nat) (j : Nat) : (c.freezeRecord trigger sky keeper).laneSt j = c.laneSt j := (c.recorded_freezeRecord trigger sky keeper).field (·.laneSt j) fun _ _ _ _ _ => rfl
@[simp] theorem Chip.freezeRecord_linkSt (c : Chip) (trigger : Nat) (sky : Option Nat) (keeper : Nat) (j : Nat) : (c.freezeRecord trigger sky keeper).linkSt j = c.linkSt j := (c.recorded_freezeRecord trigger sky keeper).field (·.linkSt j) fun _ _ _ _ _ => rfl
@[simp] theorem Chip.freezeRecord_btlSt (c : Chip) (trigger : Nat) (sky : Option Nat) (keeper : Nat) (j : Nat) : (c.freezeRecord trigger sky keeper).btlSt j = c.btlSt j := (c.recorded_freezeRecord trigger sky keeper).field (·.btlSt j) fun _ _ _ _ _ => rfl
@[simp] theorem Chip.freezeRecord_unitSt (c : Chip) (trigger : Nat) (sky : Option Nat) (keeper : Nat) (j : Nat) : (c.freezeRecord trigger sky keeper).unitSt j = c.unitSt j := (c.recorded_freezeRecord trigger sky keeper).field (·.unitSt j) fun _ _ _ _ _ => rfl
@[simp] theorem Chip.freezeRecord_poolSt (c : Chip) (trigger : Nat) (sky : Option Nat) (keeper : Nat) (j : Nat) : (c.freezeRecord trigger sky keeper).poolSt j = c.poolSt j := (c.recorded_freezeRecord trigger sky keeper).field (·.poolSt j) fun _ _ _ _ _ => rfl
@[simp] theorem Chip.freezeRecord_readSt (c : Chip) (trigger : Nat) (sky : Option Nat) (keeper : Nat) (j : Nat) : (c.freezeRecord trigger sky keeper).readSt j = c.readSt j := (c.recorded_freezeRecord trigger sky keeper).field (·.readSt j) fun _ _ _ _ _ => rfl
@[simp] theorem Chip.freezeRecord_burnSt (c : Chip) (trigger : Nat) (sky : Option Nat) (keeper : Nat) (j : Nat) : (c.freezeRecord trigger sky keeper).burnSt j = c.burnSt j := (c.recorded_freezeRecord trigger sky keeper).field (·.burnSt j) fun _ _ _ _ _ => rfl
@[simp] theorem Chip.freezeRecord_servoSt (c : Chip) (trigger : Nat) (sky : Option Nat) (keeper : Nat) (j : Nat) : (c.freezeRecord trigger sky keeper).servoSt j = c.servoSt j := (c.recorded_freezeRecord trigger sky keeper).field (·.servoSt j) fun _ _ _ _ _ => rfl
@[simp] theorem Chip.freezeRecord_spinSt (c : Chip) (trigger : Nat) (sky : Option Nat) (keeper : Nat) (j : Nat) : (c.freezeRecord trigger sky keeper).spinSt j = c.spinSt j := (c.recorded_freezeRecord trigger sky keeper).field (·.spinSt j) fun _ _ _ _ _ => rfl
@[simp] theorem Chip.freezeRecord_axisSt (c : Chip) (trigger : Nat) (sky : Option Nat) (keeper : Nat) (j : Nat) : (c.freezeRecord trigger sky keeper).axisSt j = c.axisSt j := (c.recorded_freezeRecord trigger sky keeper).field (·.axisSt j) fun _ _ _ _ _ => rfl
@[simp] theorem Chip.freezeRecord_tileSt (c : Chip) (trigger : Nat) (sky : Option Nat) (keeper : Nat) (j : Nat) : (c.freezeRecord trigger sky keeper).tileSt j = c.tileSt j := (c.recorded_freezeRecord trigger sky keeper).field (·.tileSt j) fun _ _ _ _ _ => rfl
@[simp] theorem Chip.freezeRecord_bufSt (c : Chip) (trigger : Nat) (sky : Option Nat) (keeper : Nat) (j : Nat) : (c.freezeRecord trigger sky keeper).bufSt j = c.bufSt j := (c.recorded_freezeRecord trigger sky keeper).field (·.bufSt j) fun _ _ _ _ _ => rfl
@[simp] theorem Chip.freezeRecord_bootSt (c : Chip) (trigger : Nat) (sky : Option Nat) (keeper : Nat) (j : Nat) : (c.freezeRecord trigger sky keeper).bootSt j = c.bootSt j := (c.recorded_freezeRecord trigger sky keeper).field (·.bootSt j) fun _ _ _ _ _ => rfl
@[simp] theorem Chip.freezeRecord_now (c : Chip) (trigger : Nat) (sky : Option Nat) (keeper : Nat) : (c.freezeRecord trigger sky keeper).now = c.now := (c.recorded_freezeRecord trigger sky keeper).field (·.now) fun _ _ _ _ _ => rfl
@[simp] theorem Chip.freezeRecord_free (c : Chip) (trigger : Nat) (sky : Option Nat) (keeper : Nat) : (c.freezeRecord trigger sky keeper).free = c.free := (c.recorded_freezeRecord trigger sky keeper).field (·.free) fun _ _ _ _ _ => rfl
@[simp] theorem Chip.freezeRecord_mgmt (c : Chip) (trigger : Nat) (sky : Option Nat) (keeper : Nat) : (c.freezeRecord trigger sky keeper).mgmt = c.mgmt := (c.recorded_freezeRecord trigger sky keeper).field (·.mgmt) fun _ _ _ _ _ => rfl
@[simp] theorem Chip.freezeRecord_clu (c : Chip) (trigger : Nat) (sky : Option Nat) (keeper : Nat) : (c.freezeRecord trigger sky keeper).clu = c.clu := (c.recorded_freezeRecord trigger sky keeper).field (·.clu) fun _ _ _ _ _ => rfl
@[simp] theorem Chip.freezeRecord_rgn (c : Chip) (trigger : Nat) (sky : Option Nat) (keeper : Nat) : (c.freezeRecord trigger sky keeper).rgn = c.rgn := (c.recorded_freezeRecord trigger sky keeper).field (·.rgn) fun _ _ _ _ _ => rfl
@[simp] theorem Chip.freezeRecord_die (c : Chip) (trigger : Nat) (sky : Option Nat) (keeper : Nat) : (c.freezeRecord trigger sky keeper).die = c.die := (c.recorded_freezeRecord trigger sky keeper).field (·.die) fun _ _ _ _ _ => rfl
@[simp] theorem Chip.freezeRecord_chain (c : Chip) (trigger : Nat) (sky : Option Nat) (keeper : Nat) : (c.freezeRecord trigger sky keeper).chain = c.chain := (c.recorded_freezeRecord trigger sky keeper).field (·.chain) fun _ _ _ _ _ => rfl
@[simp] theorem Chip.freezeRecord_sky (c : Chip) (trigger : Nat) (sky : Option Nat) (keeper : Nat) : (c.freezeRecord trigger sky keeper).sky = c.sky := (c.recorded_freezeRecord trigger sky keeper).field (·.sky) fun _ _ _ _ _ => rfl
@[simp] theorem Chip.freezeRecord_lane (c : Chip) (trigger : Nat) (sky : Option Nat) (keeper : Nat) : (c.freezeRecord trigger sky keeper).lane = c.lane := (c.recorded_freezeRecord trigger sky keeper).field (·.lane) fun _ _ _ _ _ => rfl
@[simp] theorem Chip.freezeRecord_link (c : Chip) (trigger : Nat) (sky : Option Nat) (keeper : Nat) : (c.freezeRecord trigger sky keeper).link = c.link := (c.recorded_freezeRecord trigger sky keeper).field (·.link) fun _ _ _ _ _ => rfl
@[simp] theorem Chip.freezeRecord_btl (c : Chip) (trigger : Nat) (sky : Option Nat) (keeper : Nat) : (c.freezeRecord trigger sky keeper).btl = c.btl := (c.recorded_freezeRecord trigger sky keeper).field (·.btl) fun _ _ _ _ _ => rfl
@[simp] theorem Chip.freezeRecord_unit (c : Chip) (trigger : Nat) (sky : Option Nat) (keeper : Nat) : (c.freezeRecord trigger sky keeper).unit = c.unit := (c.recorded_freezeRecord trigger sky keeper).field (·.unit) fun _ _ _ _ _ => rfl
@[simp] theorem Chip.freezeRecord_pool (c : Chip) (trigger : Nat) (sky : Option Nat) (keeper : Nat) : (c.freezeRecord trigger sky keeper).pool = c.pool := (c.recorded_freezeRecord trigger sky keeper).field (·.pool) fun _ _ _ _ _ => rfl
@[simp] theorem Chip.freezeRecord_read (c : Chip) (trigger : Nat) (sky : Option Nat) (keeper : Nat) : (c.freezeRecord trigger sky keeper).read = c.read := (c.recorded_freezeRecord trigger sky keeper).field (·.read) fun _ _ _ _ _ => rfl
@[simp] theorem Chip.freezeRecord_burn (c : Chip) (trigger : Nat) (sky : Option Nat) (keeper : Nat) : (c.freezeRecord trigger sky keeper).burn = c.burn := (c.recorded_freezeRecord trigger sky keeper).field (·.burn) fun _ _ _ _ _ => rfl
@[simp] theorem Chip.freezeRecord_servo (c : Chip) (trigger : Nat) (sky : Option Nat) (keeper : Nat) : (c.freezeRecord trigger sky keeper).servo = c.servo := (c.recorded_freezeRecord trigger sky keeper).field (·.servo) fun _ _ _ _ _ => rfl
@[simp] theorem Chip.freezeRecord_spin (c : Chip) (trigger : Nat) (sky : Option Nat) (keeper : Nat) : (c.freezeRecord trigger sky keeper).spin = c.spin := (c.recorded_freezeRecord trigger sky keeper).field (·.spin) fun _ _ _ _ _ => rfl
@[simp] theorem Chip.freezeRecord_axis (c : Chip) (trigger : Nat) (sky : Option Nat) (keeper : Nat) : (c.freezeRecord trigger sky keeper).axis = c.axis := (c.recorded_freezeRecord trigger sky keeper).field (·.axis) fun _ _ _ _ _ => rfl
@[simp] theorem Chip.freezeRecord_cat (c : Chip) (trigger : Nat) (sky : Option Nat) (keeper : Nat) : (c.freezeRecord trigger sky keeper).cat = c.cat := (c.recorded_freezeRecord trigger sky keeper).field (·.cat) fun _ _ _ _ _ => rfl
@[simp] theorem Chip.freezeRecord_moss (c : Chip) (trigger : Nat) (sky : Option Nat) (keeper : Nat) : (c.freezeRecord trigger sky keeper).moss = c.moss := (c.recorded_freezeRecord trigger sky keeper).field (·.moss) fun _ _ _ _ _ => rfl
@[simp] theorem Chip.freezeRecord_tiles (c : Chip) (trigger : Nat) (sky : Option Nat) (keeper : Nat) : (c.freezeRecord trigger sky keeper).tiles = c.tiles := (c.recorded_freezeRecord trigger sky keeper).field (·.tiles) fun _ _ _ _ _ => rfl
@[simp] theorem Chip.freezeRecord_buf (c : Chip) (trigger : Nat) (sky : Option Nat) (keeper : Nat) : (c.freezeRecord trigger sky keeper).buf = c.buf := (c.recorded_freezeRecord trigger sky keeper).field (·.buf) fun _ _ _ _ _ => rfl
@[simp] theorem Chip.freezeRecord_host (c : Chip) (trigger : Nat) (sky : Option Nat) (keeper : Nat) : (c.freezeRecord trigger sky keeper).host = c.host := (c.recorded_freezeRecord trigger sky keeper).field (·.host) fun _ _ _ _ _ => rfl
@[simp] theorem Chip.freezeRecord_launches (c : Chip) (trigger : Nat) (sky : Option Nat) (keeper : Nat) : (c.freezeRecord trigger sky keeper).launches = c.launches := (c.recorded_freezeRecord trigger sky keeper).field (·.launches) fun _ _ _ _ _ => rfl
@[simp] theorem Chip.freezeRecord_trust (c : Chip) (trigger : Nat) (sky : Option Nat) (keeper : Nat) : (c.freezeRecord trigger sky keeper).trust = c.trust := (c.recorded_freezeRecord trigger sky keeper).field (·.trust) fun _ _ _ _ _ => rfl
@[simp] theorem Chip.freezeRecord_boot (c : Chip) (trigger : Nat) (sky : Option Nat) (keeper : Nat) : (c.freezeRecord trigger sky keeper).boot = c.boot := (c.recorded_freezeRecord trigger sky keeper).field (·.boot) fun _ _ _ _ _ => rfl
@[simp] theorem Chip.freezeRecord_power (c : Chip) (trigger : Nat) (sky : Option Nat) (keeper : Nat) : (c.freezeRecord trigger sky keeper).power = c.power := (c.recorded_freezeRecord trigger sky keeper).field (·.power) fun _ _ _ _ _ => rfl
@[simp] theorem Chip.freezeRecord_scr (c : Chip) (trigger : Nat) (sky : Option Nat) (keeper : Nat) : (c.freezeRecord trigger sky keeper).scr = c.scr := (c.recorded_freezeRecord trigger sky keeper).field (·.scr) fun _ _ _ _ _ => rfl
@[simp] theorem Chip.freezeRecord_svc (c : Chip) (trigger : Nat) (sky : Option Nat) (keeper : Nat) : (c.freezeRecord trigger sky keeper).svc = c.svc := (c.recorded_freezeRecord trigger sky keeper).field (·.svc) fun _ _ _ _ _ => rfl
@[simp] theorem Chip.freezeRecord_catSnaps (c : Chip) (trigger : Nat) (sky : Option Nat) (keeper : Nat) : (c.freezeRecord trigger sky keeper).catSnaps = c.catSnaps := (c.recorded_freezeRecord trigger sky keeper).field (·.catSnaps) fun _ _ _ _ _ => rfl

@[simp] theorem Chip.rearmRecord_cluSt (c : Chip) (session : Nat) (j : Nat) : (c.rearmRecord session).cluSt j = c.cluSt j := (c.recorded_rearmRecord session).field (·.cluSt j) fun _ _ _ _ _ => rfl
@[simp] theorem Chip.rearmRecord_rgnSt (c : Chip) (session : Nat) (j : Nat) : (c.rearmRecord session).rgnSt j = c.rgnSt j := (c.recorded_rearmRecord session).field (·.rgnSt j) fun _ _ _ _ _ => rfl
@[simp] theorem Chip.rearmRecord_dieSt (c : Chip) (session : Nat) (j : Nat) : (c.rearmRecord session).dieSt j = c.dieSt j := (c.recorded_rearmRecord session).field (·.dieSt j) fun _ _ _ _ _ => rfl
@[simp] theorem Chip.rearmRecord_laneSt (c : Chip) (session : Nat) (j : Nat) : (c.rearmRecord session).laneSt j = c.laneSt j := (c.recorded_rearmRecord session).field (·.laneSt j) fun _ _ _ _ _ => rfl
@[simp] theorem Chip.rearmRecord_linkSt (c : Chip) (session : Nat) (j : Nat) : (c.rearmRecord session).linkSt j = c.linkSt j := (c.recorded_rearmRecord session).field (·.linkSt j) fun _ _ _ _ _ => rfl
@[simp] theorem Chip.rearmRecord_btlSt (c : Chip) (session : Nat) (j : Nat) : (c.rearmRecord session).btlSt j = c.btlSt j := (c.recorded_rearmRecord session).field (·.btlSt j) fun _ _ _ _ _ => rfl
@[simp] theorem Chip.rearmRecord_unitSt (c : Chip) (session : Nat) (j : Nat) : (c.rearmRecord session).unitSt j = c.unitSt j := (c.recorded_rearmRecord session).field (·.unitSt j) fun _ _ _ _ _ => rfl
@[simp] theorem Chip.rearmRecord_poolSt (c : Chip) (session : Nat) (j : Nat) : (c.rearmRecord session).poolSt j = c.poolSt j := (c.recorded_rearmRecord session).field (·.poolSt j) fun _ _ _ _ _ => rfl
@[simp] theorem Chip.rearmRecord_readSt (c : Chip) (session : Nat) (j : Nat) : (c.rearmRecord session).readSt j = c.readSt j := (c.recorded_rearmRecord session).field (·.readSt j) fun _ _ _ _ _ => rfl
@[simp] theorem Chip.rearmRecord_burnSt (c : Chip) (session : Nat) (j : Nat) : (c.rearmRecord session).burnSt j = c.burnSt j := (c.recorded_rearmRecord session).field (·.burnSt j) fun _ _ _ _ _ => rfl
@[simp] theorem Chip.rearmRecord_servoSt (c : Chip) (session : Nat) (j : Nat) : (c.rearmRecord session).servoSt j = c.servoSt j := (c.recorded_rearmRecord session).field (·.servoSt j) fun _ _ _ _ _ => rfl
@[simp] theorem Chip.rearmRecord_spinSt (c : Chip) (session : Nat) (j : Nat) : (c.rearmRecord session).spinSt j = c.spinSt j := (c.recorded_rearmRecord session).field (·.spinSt j) fun _ _ _ _ _ => rfl
@[simp] theorem Chip.rearmRecord_axisSt (c : Chip) (session : Nat) (j : Nat) : (c.rearmRecord session).axisSt j = c.axisSt j := (c.recorded_rearmRecord session).field (·.axisSt j) fun _ _ _ _ _ => rfl
@[simp] theorem Chip.rearmRecord_tileSt (c : Chip) (session : Nat) (j : Nat) : (c.rearmRecord session).tileSt j = c.tileSt j := (c.recorded_rearmRecord session).field (·.tileSt j) fun _ _ _ _ _ => rfl
@[simp] theorem Chip.rearmRecord_bufSt (c : Chip) (session : Nat) (j : Nat) : (c.rearmRecord session).bufSt j = c.bufSt j := (c.recorded_rearmRecord session).field (·.bufSt j) fun _ _ _ _ _ => rfl
@[simp] theorem Chip.rearmRecord_bootSt (c : Chip) (session : Nat) (j : Nat) : (c.rearmRecord session).bootSt j = c.bootSt j := (c.recorded_rearmRecord session).field (·.bootSt j) fun _ _ _ _ _ => rfl
@[simp] theorem Chip.rearmRecord_now (c : Chip) (session : Nat) : (c.rearmRecord session).now = c.now := (c.recorded_rearmRecord session).field (·.now) fun _ _ _ _ _ => rfl
@[simp] theorem Chip.rearmRecord_free (c : Chip) (session : Nat) : (c.rearmRecord session).free = c.free := (c.recorded_rearmRecord session).field (·.free) fun _ _ _ _ _ => rfl
@[simp] theorem Chip.rearmRecord_mgmt (c : Chip) (session : Nat) : (c.rearmRecord session).mgmt = c.mgmt := (c.recorded_rearmRecord session).field (·.mgmt) fun _ _ _ _ _ => rfl
@[simp] theorem Chip.rearmRecord_clu (c : Chip) (session : Nat) : (c.rearmRecord session).clu = c.clu := (c.recorded_rearmRecord session).field (·.clu) fun _ _ _ _ _ => rfl
@[simp] theorem Chip.rearmRecord_rgn (c : Chip) (session : Nat) : (c.rearmRecord session).rgn = c.rgn := (c.recorded_rearmRecord session).field (·.rgn) fun _ _ _ _ _ => rfl
@[simp] theorem Chip.rearmRecord_die (c : Chip) (session : Nat) : (c.rearmRecord session).die = c.die := (c.recorded_rearmRecord session).field (·.die) fun _ _ _ _ _ => rfl
@[simp] theorem Chip.rearmRecord_chain (c : Chip) (session : Nat) : (c.rearmRecord session).chain = c.chain := (c.recorded_rearmRecord session).field (·.chain) fun _ _ _ _ _ => rfl
@[simp] theorem Chip.rearmRecord_sky (c : Chip) (session : Nat) : (c.rearmRecord session).sky = c.sky := (c.recorded_rearmRecord session).field (·.sky) fun _ _ _ _ _ => rfl
@[simp] theorem Chip.rearmRecord_lane (c : Chip) (session : Nat) : (c.rearmRecord session).lane = c.lane := (c.recorded_rearmRecord session).field (·.lane) fun _ _ _ _ _ => rfl
@[simp] theorem Chip.rearmRecord_link (c : Chip) (session : Nat) : (c.rearmRecord session).link = c.link := (c.recorded_rearmRecord session).field (·.link) fun _ _ _ _ _ => rfl
@[simp] theorem Chip.rearmRecord_btl (c : Chip) (session : Nat) : (c.rearmRecord session).btl = c.btl := (c.recorded_rearmRecord session).field (·.btl) fun _ _ _ _ _ => rfl
@[simp] theorem Chip.rearmRecord_unit (c : Chip) (session : Nat) : (c.rearmRecord session).unit = c.unit := (c.recorded_rearmRecord session).field (·.unit) fun _ _ _ _ _ => rfl
@[simp] theorem Chip.rearmRecord_pool (c : Chip) (session : Nat) : (c.rearmRecord session).pool = c.pool := (c.recorded_rearmRecord session).field (·.pool) fun _ _ _ _ _ => rfl
@[simp] theorem Chip.rearmRecord_read (c : Chip) (session : Nat) : (c.rearmRecord session).read = c.read := (c.recorded_rearmRecord session).field (·.read) fun _ _ _ _ _ => rfl
@[simp] theorem Chip.rearmRecord_burn (c : Chip) (session : Nat) : (c.rearmRecord session).burn = c.burn := (c.recorded_rearmRecord session).field (·.burn) fun _ _ _ _ _ => rfl
@[simp] theorem Chip.rearmRecord_servo (c : Chip) (session : Nat) : (c.rearmRecord session).servo = c.servo := (c.recorded_rearmRecord session).field (·.servo) fun _ _ _ _ _ => rfl
@[simp] theorem Chip.rearmRecord_spin (c : Chip) (session : Nat) : (c.rearmRecord session).spin = c.spin := (c.recorded_rearmRecord session).field (·.spin) fun _ _ _ _ _ => rfl
@[simp] theorem Chip.rearmRecord_axis (c : Chip) (session : Nat) : (c.rearmRecord session).axis = c.axis := (c.recorded_rearmRecord session).field (·.axis) fun _ _ _ _ _ => rfl
@[simp] theorem Chip.rearmRecord_cat (c : Chip) (session : Nat) : (c.rearmRecord session).cat = c.cat := (c.recorded_rearmRecord session).field (·.cat) fun _ _ _ _ _ => rfl
@[simp] theorem Chip.rearmRecord_moss (c : Chip) (session : Nat) : (c.rearmRecord session).moss = c.moss := (c.recorded_rearmRecord session).field (·.moss) fun _ _ _ _ _ => rfl
@[simp] theorem Chip.rearmRecord_tiles (c : Chip) (session : Nat) : (c.rearmRecord session).tiles = c.tiles := (c.recorded_rearmRecord session).field (·.tiles) fun _ _ _ _ _ => rfl
@[simp] theorem Chip.rearmRecord_buf (c : Chip) (session : Nat) : (c.rearmRecord session).buf = c.buf := (c.recorded_rearmRecord session).field (·.buf) fun _ _ _ _ _ => rfl
@[simp] theorem Chip.rearmRecord_host (c : Chip) (session : Nat) : (c.rearmRecord session).host = c.host := (c.recorded_rearmRecord session).field (·.host) fun _ _ _ _ _ => rfl
@[simp] theorem Chip.rearmRecord_launches (c : Chip) (session : Nat) : (c.rearmRecord session).launches = c.launches := (c.recorded_rearmRecord session).field (·.launches) fun _ _ _ _ _ => rfl
@[simp] theorem Chip.rearmRecord_trust (c : Chip) (session : Nat) : (c.rearmRecord session).trust = c.trust := (c.recorded_rearmRecord session).field (·.trust) fun _ _ _ _ _ => rfl
@[simp] theorem Chip.rearmRecord_boot (c : Chip) (session : Nat) : (c.rearmRecord session).boot = c.boot := (c.recorded_rearmRecord session).field (·.boot) fun _ _ _ _ _ => rfl
@[simp] theorem Chip.rearmRecord_power (c : Chip) (session : Nat) : (c.rearmRecord session).power = c.power := (c.recorded_rearmRecord session).field (·.power) fun _ _ _ _ _ => rfl
@[simp] theorem Chip.rearmRecord_scr (c : Chip) (session : Nat) : (c.rearmRecord session).scr = c.scr := (c.recorded_rearmRecord session).field (·.scr) fun _ _ _ _ _ => rfl
@[simp] theorem Chip.rearmRecord_svc (c : Chip) (session : Nat) : (c.rearmRecord session).svc = c.svc := (c.recorded_rearmRecord session).field (·.svc) fun _ _ _ _ _ => rfl
@[simp] theorem Chip.rearmRecord_catSnaps (c : Chip) (session : Nat) : (c.rearmRecord session).catSnaps = c.catSnaps := (c.recorded_rearmRecord session).field (·.catSnaps) fun _ _ _ _ _ => rfl

end Sys2Proof.Machine
end

