-- ==== Sys2Proof/Laws/Scrambler.lean ====
section
/-! SUPPORT. The descrambler undoes the scrambler (R86): blocks that a lane has scrambled are read back as they were by a receiver whose last 58 line bits
are the transmitter's. -/
namespace Sys2Proof.Machine

theorem scrTap_twice (s : Nat) (b : Bool) : scrTap s (scrTap s b) = b := by
  unfold scrTap
  cases b <;> cases s.testBit 38 <;> cases s.testBit 57 <;> rfl

/-- Scrambling more bits adds only to the line bits above those there are. -/
theorem scrambleBits_adds (v n i o s : Nat) : ∃ m, (scrambleBits v n i (o, s)).1 = o + 2 ^ i * m := by
  induction n generalizing i o s with
  | zero => exact ⟨0, rfl⟩
  | succ n ih =>
    obtain ⟨m, h⟩ := ih (i + 1) (o + if scrTap s (v.testBit i) then 2 ^ i else 0) (scrPush s (scrTap s (v.testBit i)))
    refine ⟨(scrTap s (v.testBit i)).toNat + 2 * m, ?_⟩
    rw [scrambleBits, h, Nat.pow_succ]
    cases scrTap s (v.testBit i) <;> simp <;> grind

/-- The line bit at a place is the one put there. -/
theorem testBit_placed (o i m : Nat) (b : Bool) (h : o < 2 ^ i) : ((o + if b then 2 ^ i else 0) + 2 ^ (i + 1) * m).testBit i = b := by
  have e : (o + if b then 2 ^ i else 0) + 2 ^ (i + 1) * m = o + 2 ^ i * (b.toNat + 2 * m) := by cases b <;> simp [Nat.pow_succ] <;> grind
  rw [e, Nat.testBit_eq_decide_div_mod_eq, Nat.add_mul_div_left _ _ (Nat.two_pow_pos i), Nat.div_eq_of_lt h]
  cases b <;> simp <;> omega

theorem div_mod_succ (v n i : Nat) : 2 ^ i * (v / 2 ^ i % 2 ^ (n + 1)) = (if v.testBit i then 2 ^ i else 0) + 2 ^ (i + 1) * (v / 2 ^ (i + 1) % 2 ^ n) := by
  rw [Nat.testBit_eq_decide_div_mod_eq, show (2 : Nat) ^ (n + 1) = 2 * 2 ^ n from by grind, Nat.mod_mul, Nat.div_div_eq_div_mul, show (2 : Nat) ^ i * 2 = 2 ^ (i + 1) from by grind]
  rcases Nat.mod_two_eq_zero_or_one (v / 2 ^ i) with h | h <;> simp [h] <;> grind

/-- Descrambling a run of line bits that scrambling has made gives the payload's bits, and leaves the descrambler where the scrambler is. -/
theorem descrambleBits_scrambled (v w n i o p s : Nat) (ho : o < 2 ^ i)
    (hw : ∀ j, i ≤ j → j < i + n → w.testBit j = (scrambleBits v n i (o, s)).1.testBit j) :
    descrambleBits w n i (p, s) = (p + 2 ^ i * (v / 2 ^ i % 2 ^ n), (scrambleBits v n i (o, s)).2) := by
  induction n generalizing i o p s with
  | zero => simp [descrambleBits, scrambleBits, Nat.mod_one]
  | succ n ih =>
    have hb : w.testBit i = scrTap s (v.testBit i) := by
      obtain ⟨m, h⟩ := scrambleBits_adds v n (i + 1) (o + if scrTap s (v.testBit i) then 2 ^ i else 0) (scrPush s (scrTap s (v.testBit i)))
      rw [hw i (Nat.le_refl i) (by omega), scrambleBits, h, testBit_placed _ _ _ _ ho]
    have ho' : (o + if scrTap s (v.testBit i) then 2 ^ i else 0) < 2 ^ (i + 1) := by
      rw [Nat.pow_succ]
      split <;> omega
    rw [descrambleBits, scrambleBits, hb, scrTap_twice,
      ih (i + 1) (o + if scrTap s (v.testBit i) then 2 ^ i else 0) (p + if v.testBit i then 2 ^ i else 0) (scrPush s (scrTap s (v.testBit i))) ho'
        (fun j hj hn => by rw [hw j (by omega) (by omega), scrambleBits]),
      div_mod_succ]
    simp [Nat.add_assoc]

theorem descrambleBits_block (v s : Nat) : descrambleBits (scrambleBits v 64 0 (0, s)).1 64 0 (0, s) = (v % 2 ^ 64, (scrambleBits v 64 0 (0, s)).2) := by
  rw [descrambleBits_scrambled v _ 64 0 0 0 s (by decide) (fun _ _ _ => rfl)]
  simp

/-- Blocks scrambled and descrambled from one state: each payload's 64 bits come back, and both ends stand alike. -/
theorem descrambleBlocks_scrambled (s : Nat) (bs : List (Nat × Nat)) :
    descrambleBlocks s (scrambleBlocks s bs).1 = (bs.map fun b => (b.1, b.2 % 2 ^ 64), (scrambleBlocks s bs).2) := by
  induction bs generalizing s with
  | nil => rfl
  | cons b bs ih => simp only [scrambleBlocks, descrambleBlocks, descrambleBits_block, ih, List.map_cons]

end Sys2Proof.Machine
end

