-- ==== Sys2Proof/Tests/States.lean ====
section
/-! SUPPORT. Small states for the tests. -/
namespace Sys2Proof.Machine

/-- A small state: some register fields set after reset, and a change of the chip. -/
def tState (l : List (Fld × Nat)) (f : Chip → Chip := id) : State := ⟨[], [], f (l.foldl (fun c e => c.wr e.1 e.2) default)⟩

/-- The 64 blocks of a receive superframe with its number, with the check they have (R94, R97). -/
def tBlocks (sf : Nat) : List (Nat × Nat) :=
  let bs : List (Nat × Nat) := [(2, 0x78 + sf * 256)] ++ List.replicate 52 (2, 0) ++ List.replicate 3 (1, 0) ++ List.replicate 6 (if sf % 6 = 0 then (1, 0) else (2, 0)) ++ [(2, 0)]
  bs ++ [checkBlock bs]

/-- A session with one waiting command, next to be fetched, in a package with an address. -/
def tServed (c : Chip) (n x op : Nat) (f : Cmd → Cmd := id) : Chip :=
  (({ c with power := { c.power with app := true } }.wr F.chain_addr_valid 1).wr (F.quota_ctx_max (n - 1)) 8).modSess n fun s => { s with live := true, rights := 511, queues := 1, order := [x], ctx := [(x, { (default : CtxSt) with phase := .waiting, cmd := f { (default : Cmd) with session := n, ctx := x, opcode := op } })] }

/-- Parameters of a flash target that meets every condition of R330. -/
def tParams : TargetParams := { (default : TargetParams) with dataBytes := 16384, spareBytes := 1864, pages := 256, blocks := 300, nvddr3 := true, rate := 3000 }

/-- A mounted pool of eight healthy channels. -/
def tPool (l : List (Fld × Nat) := []) (f : MossSt → MossSt := id) (g : Chip → Chip := id) : State :=
  tState ((F.mossStatus_mounted, 1) :: (List.range 8).map (fun ch => (F.fcStatus_state (ch / 2) (ch % 2), 2)) ++ l) fun c => g (c.modMoss fun m => f { m with
    nb := 4, pages := 256, chans := (List.range 8).map fun ch => (ch, { (default : ChanSt) with present := true, anchor := some true, serial := ch + 1, targets := [(0, tParams)], reserve := [(0, 8)], reserve0 := 8 }) })

/-- A frond with one data pinna and one parity pinna. -/
def tFrond (f : FrondRec → FrondRec := id) : FrondRec := f { (default : FrondRec) with id := 7, k := 1, m := 1, q := 1, pinnae := [{ (default : PinnaRec) with moss := 0 }, { (default : PinnaRec) with moss := 67108864 }] }

/-- Drives that are UP with a disc each. -/
def tDrives (ds : List Nat) : List (Fld × Nat) := ds.flatMap fun d => [(F.hlinkStatus_state d, 5), (F.hlinkStatus_burn_ok d, 1), (F.discStatus_state d, 5), (F.discId_id d, 100 + d)]

/-- An open object. -/
def tObject (f : ObjRec → ObjRec := id) : ObjRec := f { (default : ObjRec) with id := 77, state := .opened, level := 1 }

/-- A waiting command over a mounted pool and a catalogue. -/
def tPoolCmd (op : Nat) (f : Cmd → Cmd := id) (g : CatSt → CatSt := id) (l : List (Fld × Nat) := []) : State := tPool l (fun m => m) fun c => (tServed c 256 5 op f).modCat g

/-- A command in its data-out phase, with one tile granted. -/
def tPhase (op : Nat) (bs : List Nat) (f : Cmd → Cmd := id) : State := tState [] fun c => ((tServed c 256 5 op (fun k => f { k with tag := 7, dlen := bs.length })).modCtx 256 5 fun y => { y with phase := .active, wait := .dataOut, tiles := [2097151], granted := [(0, bs.length)] }).modTile 2097151 fun r => { r with state := 1, owner := ctxOwner 256 5 }

/-- A loop that has decided the wobbles of one AMU, from wobble 0 on, whose data wobbles hold a mark's word. -/
def tMarked (w : Nat) (b : BtlSt) : BtlSt := { b with wob := 60, decs := false :: (List.replicate 15 false ++ syncWobbles ++ beBits 40 w).reverse }

/-- Bits of the eight steps of a test slot from track index 0 on, 128 a step of which the last 64 count: maximum and minimum 3100 apart, mean 0, β of
step j `0.02 * f j`. -/
def tStepBits (f : Nat → Int) : List BitRec :=
  (List.range 8).flatMap fun j => (List.range 64).map fun (i : Nat) =>
    { (default : BitRec) with idx := (128 * j + 64 + i : Nat), x := if i = 0 then 1550 + 31 * f j else if i = 1 then 31 * f j - 1550 else -f j }

/-- Bits of a sector at track index 0. -/
def tSectorBits (n : Nat) : List BitRec := (List.range n).map fun (i : Nat) => { (default : BitRec) with idx := (n - i : Nat) }

end Sys2Proof.Machine
end

