-- ==== Sys2Proof/Tests/Witnesses.lean ====
section
/-! SUPPORT. For every clause of a statement that has hypotheses, a state and operands that meet all of them together. -/
set_option linter.unusedVariables false
set_option Elab.async false
namespace Sys2Proof.Machine

/-- A good tile: its check is that of the bytes it holds. -/
def tTile (s : State) (t : Nat) : State := { s with chip := s.chip.modTile t fun r => { r with state := 2, check := tileCheck t (s.tileBytes t) } }

theorem tTile_good (s : State) (t : Nat) (o : (tabGet s.chip.die (t / 2 ^ 20)).out = false) : (tTile s t).tileGood t = true := by
  have p : (tabGet (tTile s t).chip.die (t / 2 ^ 20)).out = false := o
  have h : (tTile s t).tileBytes t = s.tileBytes t := rfl
  have g : tabGet (tTile s t).chip.tiles t = { tabGet s.chip.tiles t with state := 2, check := tileCheck t (s.tileBytes t) } := by
    simp only [tTile, Chip.modTile, tabGet_mod_same]
  simp [State.tileGood, h, g, -Nat.reducePow, p]

/-- A tile whose check is not that of its bytes. -/
def tBadTile (s : State) (t : Nat) : State := { s with chip := s.chip.modTile t fun r => { r with state := 2, check := tileCheck t (s.tileBytes t) + 1 } }

theorem tBadTile_bad (s : State) (t : Nat) : (tBadTile s t).tileGood t = false := by
  have h : (tBadTile s t).tileBytes t = s.tileBytes t := rfl
  have g : tabGet (tBadTile s t).chip.tiles t = { tabGet s.chip.tiles t with state := 2, check := tileCheck t (s.tileBytes t) + 1 } := by
    simp only [tBadTile, Chip.modTile, tabGet_mod_same]
  simp [State.tileGood, h, g]

theorem tTile_keeps (s : State) {t u : Nat} (h : t ≠ u) (k : s.tileGood t = true) : (tTile s u).tileGood t = true := by
  have e : (tTile s u).tileBytes t = s.tileBytes t := rfl
  have g : tabGet (tTile s u).chip.tiles t = tabGet s.chip.tiles t := by
    simp only [tTile, Chip.modTile]
    exact tabGet_mod_ne _ _ h
  have p : (tTile s u).chip.die = s.chip.die := rfl
  simpa [State.tileGood, e, g, p] using k

theorem some_getD_of {o : Option (List Nat)} (h : o.isSome = true) : o = some (o.getD []) := by
  cases o with
  | none => cases h
  | some v => rfl

/-- A KCG_JOIN of a kind whose data have come. -/
def tJoin (l : List (Fld × Nat)) (kind : Nat) : State :=
  tTile { (tState l fun c => (tServed c 256 5 0xCE fun k => { k with dlen := 308 }).modCtx 256 5 fun k => { k with phase := .active, wait := .activity, tiles := [7] }) with
    dram := [(7 * 4096 + 3, BitVec.ofNat 8 kind)] } 7

/-- A BED_WRITE of a whole granule at its effect point, its four tiles good. -/
def tBedWrite : State :=
  tTile (tTile (tTile (tTile (tPool [] (fun m => { m with sets := [(3, { (default : SetRec) with phase := 1, stream := 1, members := 255 })], openSet := [(1, some 3)], ns := [(59, ⟨true, 2 ^ 32, 0⟩)] })
    fun c => (tServed c 256 5 0x43 fun k => { k with p0 := 59, p1 := 17179869180, dlen := 16384 }).modCtx 256 5 fun y => { y with phase := .active, wait := .effect, tiles := [0, 1, 2, 3] }) 0) 1) 2) 3

theorem tBedWrite_good : ∀ tl ∈ (tBedWrite.chip.ctxSt 256 5).tiles, tBedWrite.tileGood tl = true := by
  have h : (tBedWrite.chip.ctxSt 256 5).tiles = [0, 1, 2, 3] := by decide +kernel
  rw [h]
  intro tl m
  simp only [List.mem_cons, List.not_mem_nil, or_false] at m
  rcases m with rfl | rfl | rfl | rfl
  · exact tTile_keeps _ (by decide) (tTile_keeps _ (by decide) (tTile_keeps _ (by decide) (tTile_good _ _ (by decide +kernel))))
  · exact tTile_keeps _ (by decide) (tTile_keeps _ (by decide) (tTile_good _ _ (by decide +kernel)))
  · exact tTile_keeps _ (by decide) (tTile_good _ _ (by decide +kernel))
  · exact tTile_good _ _ (by decide +kernel)

theorem tilesRange_length (s : State) : (s.tilesRange [0, 1, 2, 3] 0 16384).length = 16384 := by
  simp [State.tilesRange, State.tileBytes, memReads]

/-- A BED_READ of one block of a namespace that nothing has written. -/
def tBedRead : State := tPool [] (fun m => { m with ns := [(59, ⟨true, 2, 0⟩)] }) fun c => (tServed c 256 5 0x42 fun k => { k with p0 := 59, p1 := 7, dlen := 4096 }).modCtx 256 5 fun y => { y with phase := .active, wait := .effect }

theorem tBedRead_bytes : tBedRead.chip.readSpace 60 28672 4096 = some (List.replicate 4096 0) := by
  have h : tBedRead.chip.readGranule 60 1 = some zeroGranule := by
    unfold Chip.readGranule
    rw [if_pos (by decide +kernel)]
  have r : List.range ((28672 + 4096 + 16383) / 16384 - 28672 / 16384) = [0] := by decide
  have d : (zeroGranule.drop 12288).take 4096 = List.replicate 4096 0 := by
    rw [zeroGranule, List.drop_replicate, List.take_replicate, show min 4096 (16384 - 12288) = 4096 from rfl]
  simp only [Chip.readSpace, r, List.map_cons, List.map_nil, List.all_cons, List.all_nil]
  show (if ((tBedRead.chip.readGranule 60 1).isSome && true) = true then
    some (List.take 4096 (List.drop 12288 (List.flatMap (fun x => x.getD []) [tBedRead.chip.readGranule 60 1]))) else none) = _
  rw [h]
  simp only [Option.isSome_some, Bool.and_self, if_true, List.flatMap_cons, List.flatMap_nil, List.append_nil, Option.getD_some, d]

theorem crcRef_append (p i : Nat) (a b : List Nat) : crcRef p i (a ++ b) = crcRef p (crcRef p i a) b := by
  simp [crcRef]

/-- The first 63 blocks of `tBlocks 1`. -/
def tFirst : List (Nat × Nat) := [(2, 0x78 + 256)] ++ List.replicate 52 (2, 0) ++ List.replicate 3 (1, 0) ++ List.replicate 6 (2, 0) ++ [(2, 0)]

theorem tCrc0 : crcRef 0x82F63B78 4294967295 ([(2, 376), (2, 0), (2, 0), (2, 0), (2, 0), (2, 0), (2, 0)].flatMap blockBytes) = 1247993173 := by decide +kernel

theorem tCrc1 : crcRef 0x82F63B78 1247993173 ([(2, 0), (2, 0), (2, 0), (2, 0), (2, 0), (2, 0), (2, 0)].flatMap blockBytes) = 833878823 := by decide +kernel

theorem tCrc2 : crcRef 0x82F63B78 833878823 ([(2, 0), (2, 0), (2, 0), (2, 0), (2, 0), (2, 0), (2, 0)].flatMap blockBytes) = 1134846693 := by decide +kernel

theorem tCrc3 : crcRef 0x82F63B78 1134846693 ([(2, 0), (2, 0), (2, 0), (2, 0), (2, 0), (2, 0), (2, 0)].flatMap blockBytes) = 3969258484 := by decide +kernel

theorem tCrc4 : crcRef 0x82F63B78 3969258484 ([(2, 0), (2, 0), (2, 0), (2, 0), (2, 0), (2, 0), (2, 0)].flatMap blockBytes) = 1565216942 := by decide +kernel

theorem tCrc5 : crcRef 0x82F63B78 1565216942 ([(2, 0), (2, 0), (2, 0), (2, 0), (2, 0), (2, 0), (2, 0)].flatMap blockBytes) = 1669001219 := by decide +kernel

theorem tCrc6 : crcRef 0x82F63B78 1669001219 ([(2, 0), (2, 0), (2, 0), (2, 0), (2, 0), (2, 0), (2, 0)].flatMap blockBytes) = 3146499656 := by decide +kernel

theorem tCrc7 : crcRef 0x82F63B78 3146499656 ([(2, 0), (2, 0), (2, 0), (2, 0), (1, 0), (1, 0), (1, 0)].flatMap blockBytes) = 2488287375 := by decide +kernel

theorem tCrc8 : crcRef 0x82F63B78 2488287375 ([(2, 0), (2, 0), (2, 0), (2, 0), (2, 0), (2, 0), (2, 0)].flatMap blockBytes) = 2558718814 := by decide +kernel

theorem tFirst_check : superframeCheck tFirst = 1736248481 := by
  have t : tFirst.take 63 = [(2, 376), (2, 0), (2, 0), (2, 0), (2, 0), (2, 0), (2, 0)] ++ ([(2, 0), (2, 0), (2, 0), (2, 0), (2, 0), (2, 0), (2, 0)] ++ ([(2, 0), (2, 0), (2, 0), (2, 0), (2, 0), (2, 0), (2, 0)] ++ ([(2, 0), (2, 0), (2, 0), (2, 0), (2, 0), (2, 0), (2, 0)] ++ ([(2, 0), (2, 0), (2, 0), (2, 0), (2, 0), (2, 0), (2, 0)] ++ ([(2, 0), (2, 0), (2, 0), (2, 0), (2, 0), (2, 0), (2, 0)] ++ ([(2, 0), (2, 0), (2, 0), (2, 0), (2, 0), (2, 0), (2, 0)] ++ ([(2, 0), (2, 0), (2, 0), (2, 0), (1, 0), (1, 0), (1, 0)] ++ ([(2, 0), (2, 0), (2, 0), (2, 0), (2, 0), (2, 0), (2, 0)])))))))) := by decide +kernel
  rw [superframeCheck, crc32c, t]
  simp only [List.flatMap_append, crcRef_append, tCrc0, tCrc1, tCrc2, tCrc3, tCrc4, tCrc5, tCrc6, tCrc7, tCrc8]
  decide +kernel

theorem tBlocks_ok : superframeOk (tBlocks 1) = true := by
  have h : tBlocks 1 = tFirst ++ [(2, 0xE1 + 1736248481 * 256)] := by
    have k : tBlocks 1 = tFirst ++ [checkBlock tFirst] := by unfold tBlocks tFirst; rfl
    rw [k, checkBlock, tFirst_check]
  have c : superframeCheck (tFirst ++ [(2, 0xE1 + 1736248481 * 256)]) = 1736248481 := by
    have t : (tFirst ++ [(2, 0xE1 + 1736248481 * 256)]).take 63 = tFirst.take 63 := by decide +kernel
    rw [superframeCheck, t]
    exact tFirst_check
  rw [superframeOk, h, c]
  decide +kernel

/-- That superframe as a lane carries it from reset. -/
def tLine : List (Nat × Nat) := (scrambleBlocks 0 (tBlocks 1)).1

theorem tLine_blocks : (descrambleBlocks ((tState [(F.hlinkStatus_lane_up 23, 8)]).chip.laneScr (laneNo 23 3)).rx tLine).1 = tBlocks 1 := by
  have r : ((tState [(F.hlinkStatus_lane_up 23, 8)]).chip.laneScr (laneNo 23 3)).rx = 0 := rfl
  have k : tBlocks 1 = tFirst ++ [checkBlock tFirst] := by unfold tBlocks tFirst; rfl
  rw [r, tLine, descrambleBlocks_scrambled, k, checkBlock, tFirst_check]
  decide +kernel

theorem tLine_ok : superframeOk (descrambleBlocks ((tState [(F.hlinkStatus_lane_up 23, 8)]).chip.laneScr (laneNo 23 3)).rx tLine).1 = true := by
  rw [tLine_blocks, tBlocks_ok]

theorem tLine_last : isControl ((descrambleBlocks ((tState [(F.hlinkStatus_lane_up 23, 8)]).chip.laneScr (laneNo 23 3)).rx tLine).1.getD 62 (0, 0)) 0x38 = false := by
  rw [tLine_blocks]; decide

theorem witness_FaultsPutLevelsOutAndAreTakenOver_1 : ∃ (u : Nat) (cause : Nat) (s : State), (s.chip.unitSt u).out = false :=
  ⟨0, 0, (tState []), by decide +kernel⟩

theorem witness_FaultsPutLevelsOutAndAreTakenOver_2 : ∃ (d : Nat) (cause : Nat) (s : State), (s.chip.cluSt d).out = false :=
  ⟨0, 0, (tState []), by decide +kernel⟩

theorem witness_FaultsPutLevelsOutAndAreTakenOver_3 : ∃ (r : Nat) (cause : Nat) (s : State), (s.chip.rgnSt r).out = false :=
  ⟨0, 0, (tState []), by decide +kernel⟩

theorem witness_FaultsPutLevelsOutAndAreTakenOver_4 : ∃ (e : Nat) (s : State), (s.chip.dieSt e).out = false :=
  ⟨0, (tState []), by decide +kernel⟩

theorem witness_FaultsPutLevelsOutAndAreTakenOver_6 : ∃ (u : Nat) (cause : Nat) (s : State), (s.chip.unitSt u).out = true :=
  ⟨0, 0, (tState [] fun c => c.modUnit 0 fun u => { u with out := true }), by decide +kernel⟩

theorem witness_FaultsPutLevelsOutAndAreTakenOver_7 : ∃ (e : Nat) (s : State), (s.chip.dieSt e).out = true :=
  ⟨0, (tState [] fun c => c.modDie 0 fun u => { u with out := true }), by decide +kernel⟩

theorem witness_FaultsPutLevelsOutAndAreTakenOver_8 : ∃ (e : Nat) (answering : Nat) (s : State), (s.chip.dieSt e).otherLost = false ∧ (s.chip.dieSt e).out = false :=
  ⟨0, 0, (tState []), by decide +kernel⟩

theorem witness_FaultsPutLevelsOutAndAreTakenOver_9 : ∃ (e : Nat) (s : State), e < 2 ∧ (s.chip.dieSt e).otherLost = false ∧ (s.chip.dieSt e).out = false :=
  ⟨1, (tState []), by decide +kernel⟩

theorem witness_FaultsPutLevelsOutAndAreTakenOver_10 : ∃ (s : State), (s.chip.dieSt 0).out = true ∧ (s.chip.dieSt 1).out = false :=
  ⟨(tState [(F.trust_window_open, 1)] fun c => c.modDie 0 fun u => { u with out := true }), by decide +kernel⟩

theorem witness_AddressChainFollowsTokens_1 : ∃ (s : State), s.chip.rd F.chain_head = 0 ∧ s.chip.rd F.chain_addr_valid = 0 :=
  ⟨(tState []), by decide +kernel⟩

theorem witness_AddressChainFollowsTokens_2 : ∃ (w : Nat) (v : Nat) (s : State), readToken w = some (1, v) ∧ s.chip.rd F.chain_addr_valid = 0 ∧ s.chip.rd F.chain_head = 0 ∧ v < 1023 :=
  ⟨(tokenBits 1 1022), 1022, (tState [(F.chain_chain_lost, 1)]), by decide +kernel⟩

theorem witness_AddressChainFollowsTokens_3 : ∃ (w : Nat) (v : Nat) (s : State), readToken w = some (1, v) ∧ s.chip.rd F.chain_addr_valid = 0 ∧ s.chip.rd F.chain_head = 0 ∧ 1023 ≤ v :=
  ⟨(tokenBits 1 1023), 1023, (tState []), by decide +kernel⟩

theorem witness_AddressChainFollowsTokens_4 : ∃ (w : Nat) (v : Nat) (s : State), readToken w = some (1, v) ∧ s.chip.rd F.chain_addr_valid = 1 ∧ v + 1 ≠ s.chip.rd F.chain_sys_addr :=
  ⟨(tokenBits 1 7), 7, (tState [(F.chain_addr_valid, 1), (F.chain_sys_addr, 7)]), by decide +kernel⟩

theorem witness_AddressChainFollowsTokens_5 : ∃ (w : Nat) (v : Nat) (s : State), readToken w = some (2, v) :=
  ⟨(tokenBits 2 0), 0, (tState [(F.chain_addr_valid, 1), (F.chain_sys_addr, 7)]), by decide +kernel⟩

theorem witness_AddressChainFollowsTokens_6 : ∃ (w : Nat) (v : Nat) (s : State), readToken w = some (2, v) ∧ s.chip.rd F.skyStatus_source ≠ 2 :=
  ⟨(tokenBits 2 0), 0, (tState [(F.chain_addr_valid, 1), (F.chain_sys_addr, 7)]), by decide +kernel⟩

theorem witness_AddressChainFollowsTokens_7 : ∃ (s : State), s.chip.chain.hasHop = false ∧ s.chip.rd F.chain_head = 0 :=
  ⟨(tState []), by decide +kernel⟩

theorem witness_AddressChainFollowsTokens_8 : ∃ (roundTrip : Nat) (t : Nat) (s : State), s.chip.chain.probeAt = some t :=
  ⟨1000, 5, (tState [] fun c => { c with chain := { c.chain with probeAt := some 5 } }), by decide +kernel⟩

theorem witness_AddressChainFollowsTokens_9 : ∃ (w : Nat) (v : Nat) (s : State), readToken w = some (4, v) :=
  ⟨(tokenBits 4 2047), 2047, (tState []), by decide +kernel⟩

theorem witness_AddressChainFollowsTokens_10 : ∃ (s : State), s.chip.rd F.chain_addr_valid = 1 :=
  ⟨(tState [(F.chain_addr_valid, 1), (F.chain_sys_addr, 1023)]), by decide +kernel⟩

theorem witness_AddressChainFollowsTokens_11 : ∃ (s : State), s.chip.rd F.chain_chain_lost = 0 :=
  ⟨(tState []), by decide +kernel⟩

theorem witness_AddressChainFollowsTokens_12 : ∃ (w : Nat) (s : State), w % 2 = 0 ∨ w / 2 % 256 ≠ crc8 (beBits 20 (w / 2 ^ 9 % 2 ^ 20)) :=
  ⟨tokenBits 1 5 + 2, (tState []), by decide +kernel⟩

theorem witness_SpindleRequestsTakeEffect_1 : ∃ (d : Nat) (target : Nat) (s : State), d < 24 ∧ s.chip.engineOut d = false ∧ s.chip.rd (F.spinStatus_state d) = 0 ∧ s.chip.rd (F.spinMotor_r_s d) ≠ 0 ∧ s.chip.rd (F.spinMotor_l_s d) ≠ 0 ∧ s.chip.rd (F.spinMotor_ke d) ≠ 0 :=
  ⟨23, 20000, (tState [(F.spinMotor_r_s 23, 1), (F.spinMotor_l_s 23, 1), (F.spinMotor_ke 23, 1)]), by decide +kernel⟩

theorem witness_SpindleRequestsTakeEffect_2 : ∃ (d : Nat) (target : Nat) (s : State), s.chip.rd (F.spinStatus_state d) = 0 ∧ s.chip.rd (F.spinMotor_ke d) = 0 :=
  ⟨0, 12000, (tState []), by decide +kernel⟩

theorem witness_SpindleRequestsTakeEffect_3 : ∃ (d : Nat) (target : Nat) (s : State), s.chip.engineOut d = false ∧ s.chip.rd (F.spinStatus_state d) = 6 :=
  ⟨0, 999, (tState [(F.spinStatus_state 0, 6), (F.spinStatus_lock 0, 1)]), by decide +kernel⟩

theorem witness_SpindleRequestsTakeEffect_4 : ∃ (d : Nat) (s : State), d < 24 ∧ s.chip.engineOut d = false ∧ s.chip.rd (F.spinStatus_state d) = 6 :=
  ⟨0, (tState [(F.spinStatus_state 0, 6)]), by decide +kernel⟩

theorem witness_SpindleRequestsTakeEffect_5 : ∃ (d : Nat) (s : State), s.chip.engineOut d = false ∧ s.chip.rd (F.spinStatus_state d) = 0 :=
  ⟨0, (tState []), by decide +kernel⟩

theorem witness_SpindleRequestsTakeEffect_6 : ∃ (d : Nat) (target : Nat) (s : State), s.chip.engineOut d = false ∧ s.chip.rd (F.spinStatus_state d) ≠ 0 ∧ s.chip.rd (F.spinStatus_state d) ≠ 6 ∧ (s.chip.spinSt d).waiting = none :=
  ⟨0, 0, (tState [(F.spinStatus_state 0, 10)]), by decide +kernel⟩

theorem witness_SpindleRequestsTakeEffect_7 : ∃ (d : Nat) (target : Nat) (s : State), s.chip.rd (F.spinStatus_state d) ≠ 0 ∧ s.chip.rd (F.spinStatus_state d) ≠ 6 ∧ (s.chip.spinSt d).waiting ≠ none :=
  ⟨0, 0, (tState [(F.spinStatus_state 0, 1)] fun c => c.modSpin 0 fun x => { x with waiting := some .stop }), by decide +kernel⟩

theorem witness_SpindleRequestsTakeEffect_8 : ∃ (d : Nat) (s : State), d < 24 :=
  ⟨23, (tState [(F.spinStatus_place 23, 1), (F.spinStatus_state 23, 4)]), by decide +kernel⟩

theorem witness_SpindleRequestsTakeEffect_9 : ∃ (d : Nat) (s : State), (s.chip.spinSt d).parking = true :=
  ⟨0, (tState [] fun c => c.modSpin 0 fun x => { x with parking := true }), by decide +kernel⟩

theorem witness_SpindleRequestsTakeEffect_10 : ∃ (r : Nat) (i : Nat) (s : State), r < 4 ∧ i < 6 ∧ s.chip.engineOut (6 * r) = false ∧ s.chip.rd (F.spinup_spinup_waiting r) = 2 ^ i ∧ s.chip.rd (F.spinup_spinup_active r) < s.chip.rd (F.spinup_spinup_max r) ∧ s.chip.rd (F.spinup_spinup_max r) < 8 ∧ s.chip.rd (F.spinStatus_state (6 * r + i)) = 1 :=
  ⟨3, 5, (tState [(F.spinup_spinup_waiting 3, 32), (F.spinup_spinup_active 3, 1), (F.spinup_spinup_max 3, 2), (F.spinStatus_state 23, 1)]), by decide +kernel⟩

theorem witness_SpindleRequestsTakeEffect_11 : ∃ (r : Nat) (v : Nat) (s : State), s.chip.rd (F.spinup_spinup_waiting r) = 0 :=
  ⟨0, 7, (tState []), by decide +kernel⟩

theorem witness_SpindleRequestsTakeEffect_12 : ∃ (r : Nat) (v : Nat) (m : Nat) (s : State), r < 4 ∧ m = (if v % 8 = 7 then 6 else v % 8) ∧ m ≤ s.chip.rd (F.spinup_spinup_active r) :=
  ⟨3, 1, 1, (tState [(F.spinup_spinup_active 3, 2), (F.spinup_spinup_waiting 3, 63)]), by decide +kernel⟩

theorem witness_SpindleRequestsTakeEffect_13 : ∃ (r : Nat) (s : State), s.chip.rd (F.spinup_spinup_max r) ≤ s.chip.rd (F.spinup_spinup_active r) :=
  ⟨3, (tState [(F.spinup_spinup_active 3, 2), (F.spinup_spinup_waiting 3, 63)]), by decide +kernel⟩

theorem witness_SpindleRequestsTakeEffect_14 : ∃ (d : Nat) (target : Nat) (s : State), s.chip.engineOut d = true :=
  ⟨13, 9000, (tState [] fun c => c.modRgn 2 fun g => { g with out := true }), by decide +kernel⟩

theorem witness_SpindleSequenceAdvances_1 : ∃ (d : Nat) (s : State), s.chip.rd (F.spinStatus_state d) = 2 ∧ s.chip.sensedStopped d = true :=
  ⟨23, (tState [(F.spinStatus_state 23, 2), (F.spinSeq_stop_spd 23, 60), (F.spinMotor_ke 23, 1000), (F.spinLos_sense_ms 23, 20)] fun c => c.modSpin 23 fun x => { x with senseN := 1, senseU := 0 }), by decide +kernel⟩

theorem witness_SpindleSequenceAdvances_2 : ∃ (d : Nat) (s : State), s.chip.rd (F.spinStatus_state d) = 3 :=
  ⟨0, (tState [(F.spinStatus_state 0, 3)]), by decide +kernel⟩

theorem witness_SpindleSequenceAdvances_3 : ∃ (d : Nat) (s : State), s.chip.rd (F.spinStatus_state d) = 4 ∧ (s.chip.spinSt d).fails + 1 ≤ s.chip.rd (F.spinStart_start_tries d) :=
  ⟨0, (tState [(F.spinStatus_state 0, 4), (F.spinStart_start_tries 0, 3)] fun c => c.modSpin 0 fun x => { x with fails := 2 }), by decide +kernel⟩

theorem witness_SpindleSequenceAdvances_4 : ∃ (d : Nat) (s : State), s.chip.rd (F.spinStatus_state d) = 5 ∧ s.chip.rd (F.spinLos_catch_ok d) ≤ (s.chip.spinSt d).plausRun ∧ (s.chip.spinSt d).waiting = none :=
  ⟨0, (tState [(F.spinStatus_state 0, 5), (F.spinLos_catch_ok 0, 3)] fun c => c.modSpin 0 fun x => { x with plausRun := 3 }), by decide +kernel⟩

theorem witness_SpindleSequenceAdvances_5 : ∃ (d : Nat) (s : State), d < 24 ∧ s.chip.rd (F.spinStatus_state d) = 5 :=
  ⟨23, (tState [(F.spinStatus_state 23, 5), (F.spinStatus_target 23, 7200)]), by decide +kernel⟩

theorem witness_SpindleSequenceAdvances_6 : ∃ (d : Nat) (s : State), s.chip.rd (F.spinStatus_state d) = 6 ∧ s.chip.rd (F.spinStatus_lock d) = 0 ∧ s.chip.speedWithin d 5 = true ∧ d < 24 ∧ s.chip.rd (F.discStatus_state d) ≠ 5 :=
  ⟨23, (tState [(F.spinStatus_state 23, 6), (F.spinStatus_target 23, 1000), (F.spinStatus_place 23, 1), (F.spinup_spinup_active 3, 1)] fun c => c.modSpin 23 fun x => { x with obs := { x.obs with hist := [10050000] } }), by decide +kernel⟩

theorem witness_SpindleSequenceAdvances_7 : ∃ (d : Nat) (s : State), s.chip.speedWithin d 10 = false :=
  ⟨0, (tState [(F.spinStatus_state 0, 6), (F.spinStatus_lock 0, 1), (F.spinStatus_target 0, 1000)]), by decide +kernel⟩

theorem witness_SpindleSequenceAdvances_8 : ∃ (d : Nat) (s : State), d < 24 ∧ s.chip.rd (F.spinStatus_state d) = 6 ∧ s.chip.rd (F.spinLos_los_n d) ≤ (s.chip.spinSt d).implausRun :=
  ⟨23, (tState [(F.spinStatus_state 23, 6), (F.spinLos_los_n 23, 4)] fun c => c.modSpin 23 fun x => { x with implausRun := 4 }), by decide +kernel⟩

theorem witness_SpindleSequenceAdvances_9 : ∃ (d : Nat) (s : State), (s.chip.rd (F.spinStatus_state d) = 9 ∨ s.chip.rd (F.spinStatus_state d) = 10) ∧ s.chip.rd (F.spinStatus_attempts d) < 8 ∧ s.chip.rd (F.spinLos_recatch_n d) < 8 :=
  ⟨0, (tState [(F.spinStatus_state 0, 9), (F.spinStatus_attempts 0, 1), (F.spinLos_recatch_n 0, 3)]), by decide +kernel⟩

theorem witness_SpindleSequenceAdvances_10 : ∃ (d : Nat) (s : State), s.chip.rd (F.spinStatus_state d) = 8 ∧ (s.chip.spinSt d).parking = false :=
  ⟨0, (tState [(F.spinStatus_state 0, 8)]), by decide +kernel⟩

theorem witness_SpindleSequenceAdvances_11 : ∃ (d : Nat) (s : State), d < 24 ∧ s.chip.rd (F.spinLos_pred_max d) < (s.chip.spinSt d).predRun ∧ s.chip.rd (F.spinStatus_duty_limited d) = 0 :=
  ⟨23, (tState [(F.spinLos_pred_max 23, 3)] fun c => c.modSpin 23 fun x => { x with predRun := 4 }), by decide +kernel⟩

theorem witness_SpindleSequenceAdvances_12 : ∃ (d : Nat) (s : State), 16 ≤ (s.chip.spinSt d).usableRun :=
  ⟨0, (tState [(F.spinStatus_duty_limited 0, 1)] fun c => c.modSpin 0 fun x => { x with usableRun := 16 }), by decide +kernel⟩

theorem witness_AxisRequestsTakeEffect_1 : ∃ (d : Nat) (x : Nat) (start : Nat) (target : Int) (s : State), x < 2 ∧ startOf start = .atOnce ∧ s.chip.rd (F.axisStatus_homed d x) = 1 ∧ s.chip.rd (F.axisStatus_state d x) ≠ 6 ∧ (s.chip.axisSt (axisNo d x)).move = none ∧ (s.chip.axisSt (axisNo d x)).armed = none ∧ target ≠ s.chip.rdi (F.axisStatus_pos d x) :=
  ⟨23, 1, 0, -1, (tState [(F.axisStatus_homed 23 1, 1), (F.axisProf_a 23 1, 5), (F.axisProf_d 23 1, 6), (F.axisProf_v_max 23 1, 7), (F.axisStatus_level 23 1, 3)]), by decide +kernel⟩

theorem witness_AxisRequestsTakeEffect_2 : ∃ (d : Nat) (x : Nat) (start : Nat) (dist : Int) (s : State), x < 2 ∧ startOf start = .atOnce ∧ s.chip.rd (F.axisStatus_homed d x) = 1 ∧ s.chip.rd (F.axisStatus_state d x) ≠ 6 ∧ (s.chip.axisSt (axisNo d x)).move = none ∧ (s.chip.axisSt (axisNo d x)).armed = none ∧ dist ≠ 0 :=
  ⟨23, 1, 3, -1, (tState [(F.axisStatus_homed 23 1, 1)]), by decide +kernel⟩

theorem witness_AxisRequestsTakeEffect_3 : ∃ (d : Nat) (x : Nat) (start : Nat) (s : State), x < 2 ∧ startOf start = .atOnce ∧ (s.chip.axisSt (axisNo d x)).move = none ∧ (s.chip.axisSt (axisNo d x)).armed = none ∧ s.chip.rd (F.axisHome_home_len d x) ≠ 0 :=
  ⟨23, 0, 0, (tState [(F.axisHome_home_len 23 0, 9), (F.axisStatus_state 23 0, 6)]), by decide +kernel⟩

theorem witness_AxisRequestsTakeEffect_4 : ∃ (d : Nat) (s : State), s.chip.rd (F.axisStatus_homed d 0) = 1 ∧ s.chip.rd (F.axisStatus_state d 0) ≠ 6 ∧ (s.chip.axisSt (axisNo d 0)).move = none ∧ (s.chip.axisSt (axisNo d 0)).armed = none ∧ s.chip.rdi (F.sledPark_pos d) ≠ s.chip.rdi (F.axisStatus_pos d 0) :=
  ⟨23, (tState [(F.axisStatus_homed 23 0, 1), (F.axisStatus_pos 23 0, 5)]), by decide +kernel⟩

theorem witness_AxisRequestsTakeEffect_5 : ∃ (d : Nat) (x : Nat) (start : Nat) (target : Int) (s : State), x < 2 ∧ startOf start ≠ .atOnce ∧ s.chip.rd (F.axisStatus_homed d x) = 1 ∧ s.chip.rd (F.axisStatus_state d x) ≠ 6 ∧ (s.chip.axisSt (axisNo d x)).move = none ∧ (s.chip.axisSt (axisNo d x)).armed = none :=
  ⟨0, 1, 2, 0, (tState [(F.axisStatus_homed 0 1, 1)]), by decide +kernel⟩

theorem witness_AxisRequestsTakeEffect_6 : ∃ (d : Nat) (x : Nat) (start : Nat) (target : Int) (s : State), x < 2 ∧ s.chip.rd (F.axisStatus_homed d x) = 0 ∧ s.chip.rd (F.axisStatus_state d x) ≠ 6 ∧ (s.chip.axisSt (axisNo d x)).move = none ∧ (s.chip.axisSt (axisNo d x)).armed = none :=
  ⟨0, 1, 1, 0, (tState []), by decide +kernel⟩

theorem witness_AxisRequestsTakeEffect_7 : ∃ (d : Nat) (x : Nat) (start : Nat) (target : Int) (s : State), x < 2 ∧ s.chip.rd (F.axisStatus_state d x) ≠ 6 ∧ (s.chip.axisSt (axisNo d x)).move ≠ none ∧ (s.chip.axisSt (axisNo d x)).waiting = none :=
  ⟨0, 1, 0, 0, (tState [] fun c => c.modAxis 1 fun a => { a with move := some default }), by decide +kernel⟩

theorem witness_AxisRequestsTakeEffect_8 : ∃ (d : Nat) (x : Nat) (start : Nat) (target : Int) (s : State), x < 2 ∧ (s.chip.axisSt (axisNo d x)).move ≠ none ∧ (s.chip.axisSt (axisNo d x)).waiting ≠ none :=
  ⟨0, 1, 0, 0, (tState [] fun c => c.modAxis 1 fun a => { a with move := some default, waiting := some .park }), by decide +kernel⟩

theorem witness_AxisRequestsTakeEffect_9 : ∃ (d : Nat) (x : Nat) (m : MoveSt) (s : State), x < 2 ∧ (s.chip.axisSt (axisNo d x)).move = some m ∧ s.chip.rd (F.axisProf_d_es d x) ≠ 0 ∧ m.v2 ≠ 0 :=
  ⟨0, 1, { (default : MoveSt) with v2 := 4 }, (tState [(F.axisProf_d_es 0 1, 5), (F.axisStatus_req_waiting 0 1, 1)] fun c => c.modAxis 1 fun a => { a with move := some { (default : MoveSt) with v2 := 4 }, waiting := some .park }), by decide +kernel⟩

theorem witness_AxisRequestsTakeEffect_10 : ∃ (d : Nat) (x : Nat) (s : State), x < 2 ∧ (s.chip.axisSt (axisNo d x)).armed ≠ none :=
  ⟨0, 1, (tState [(F.axisStatus_state 0 1, 1)] fun c => c.modAxis 1 fun a => { a with armed := some .park }), by decide +kernel⟩

theorem witness_AxisMotionAdvances_2 : ∃ (d : Nat) (x : Nat) (s : State), (s.chip.axisSt (axisNo d x)).move = none :=
  ⟨0, 0, (tState []), by decide +kernel⟩

theorem witness_AxisMotionAdvances_3 : ∃ (d : Nat) (x : Nat) (delay : Nat) (n : Nat) (v : Nat) (pos : Int) (pos' : Int) (m : MoveSt) (s : State), x < 2 ∧ (s.chip.axisSt (axisNo d x)).move = some m ∧ m.emergency = false ∧ pos = s.chip.rdi (F.axisStatus_pos d x) ∧ n = min (levelSteps (nextLevel m (s.chip.rd (F.axisStatus_level d x)) pos)) (m.target - pos).natAbs ∧ v = (nextSpeed m n ((m.target - pos).natAbs - n)).1 ∧ pos' = pos + m.dir * n ∧ pos' ≠ m.target ∧ -2147483648 ≤ pos' ∧ pos' < 2147483648 :=
  ⟨0, 0, 0, 1, 1280, 1, 0, { (default : MoveSt) with target := -1000, vMax := 100, a := 1280, d := 1280, dir := -1 }, (tState [(F.axisStatus_pos 0 0, 1)] fun c => c.modAxis 0 fun a => { a with move := some { (default : MoveSt) with target := -1000, vMax := 100, a := 1280, d := 1280, dir := -1 } }), by decide +kernel⟩

theorem witness_AxisMotionAdvances_4 : ∃ (d : Nat) (delay : Nat) (m : MoveSt) (s : State), (s.chip.axisSt (axisNo d 1)).move = some m ∧ m.emergency = false ∧ m.home = false ∧ (s.chip.axisSt (axisNo d 1)).waiting = none ∧ (m.dir = 1 ∨ m.dir = -1) ∧ m.target = s.chip.rdi (F.axisStatus_pos d 1) + m.dir ∧ -2147483648 ≤ m.target ∧ m.target < 2147483648 :=
  ⟨0, 0, { (default : MoveSt) with target := 1, dir := 1 }, (tState [(F.axisStatus_state 0 1, 2)] fun c => c.modAxis 1 fun a => { a with move := some { (default : MoveSt) with target := 1, dir := 1 } }), by decide +kernel⟩

theorem witness_AxisMotionAdvances_5 : ∃ (d : Nat) (x : Nat) (s : State), d < 24 ∧ x < 2 ∧ 64 ≤ (s.chip.axisSt (axisNo d x)).errRun ∧ s.chip.rd (F.axisStatus_state d x) ≠ 6 ∧ s.chip.rd (F.srvStatus_tstate d) ≠ 5 ∧ s.chip.rd (F.discStatus_state d) = 5 :=
  ⟨23, 1, (tState [(F.discStatus_state 23, 5), (F.axisStatus_homed 23 1, 1)] fun c => c.modAxis 47 fun a => { a with errRun := 64, move := some default }), by decide +kernel⟩

theorem witness_ServoRequestsTakeEffect_1 : ∃ (d : Nat) (layer : Nat) (s : State), d < 24 ∧ s.chip.engineOut d = false ∧ (s.chip.servoSt d).running = none ∧ s.chip.rd (F.srvStatus_fstate d) = 0 ∧ s.chip.rd (F.srvStatus_tstate d) = 0 ∧ s.chip.rd (F.spinStatus_lock d) = 1 ∧ s.chip.headReady d = true :=
  ⟨23, 7, (tState [(F.spinStatus_lock 23, 1)] fun c => (c.modServo 23 fun x => { x with trimDone := true, offDone := true }).modBurn 23 fun b => { b with strategy := List.replicate 8 1 }), by decide +kernel⟩

theorem witness_ServoRequestsTakeEffect_2 : ∃ (d : Nat) (layer : Nat) (s : State), (s.chip.servoSt d).running = none ∧ s.chip.rd (F.srvStatus_fstate d) ≠ 0 :=
  ⟨0, 0, (tState [(F.srvStatus_fstate 0, 3)]), by decide +kernel⟩

theorem witness_ServoRequestsTakeEffect_3 : ∃ (d : Nat) (band : Nat) (s : State), s.chip.engineOut d = false ∧ s.chip.following d = true ∧ (s.chip.servoSt d).running = none ∧ (s.chip.linkSt d).point.flags.testBit 2 = false ∧ Int.natAbs (((band % 2 ^ 17 : Nat) : Int) - s.chip.rd (F.btlStatus_band d)) ≤ s.chip.rd (F.srvSeek_fine_max d) :=
  ⟨0, 5, (tState [(F.srvStatus_fstate 0, 3), (F.srvStatus_tstate 0, 3), (F.srvSeek_fine_max 0, 5)]), by decide +kernel⟩

theorem witness_ServoRequestsTakeEffect_4 : ∃ (d : Nat) (band : Nat) (s : State), s.chip.engineOut d = false ∧ s.chip.following d = true ∧ (s.chip.servoSt d).running = none ∧ (s.chip.linkSt d).point.flags.testBit 2 = false ∧ (s.chip.burnSt d).run = none ∧ (s.chip.burnSt d).cal = none ∧ (s.chip.burnSt d).close = none ∧ Int.natAbs (((band % 2 ^ 17 : Nat) : Int) - s.chip.rd (F.btlStatus_band d)) ≤ s.chip.rd (F.srvSeek_fine_max d) :=
  ⟨0, 5, (tState [(F.srvStatus_fstate 0, 3), (F.srvStatus_tstate 0, 3), (F.srvSeek_fine_max 0, 5)]), by decide +kernel⟩

theorem witness_ServoRequestsTakeEffect_5 : ∃ (d : Nat) (layer : Nat) (s : State), s.chip.engineOut d = false ∧ s.chip.following d = true ∧ (s.chip.servoSt d).running = none ∧ (s.chip.linkSt d).point.flags.testBit 2 = false ∧ layer % 8 ≠ s.chip.rd (F.srvStatus_layer d) :=
  ⟨0, 7, (tState [(F.srvStatus_fstate 0, 3), (F.srvStatus_tstate 0, 3)]), by decide +kernel⟩

theorem witness_ServoRequestsTakeEffect_6 : ∃ (d : Nat) (k : Nat) (s : State), s.chip.engineOut d = false ∧ s.chip.following d = true ∧ (s.chip.servoSt d).running = none ∧ (s.chip.linkSt d).point.flags.testBit 2 = false :=
  ⟨0, 3, (tState [(F.srvStatus_fstate 0, 3), (F.srvStatus_tstate 0, 3)]), by decide +kernel⟩

theorem witness_ServoRequestsTakeEffect_7 : ∃ (d : Nat) (s : State), s.chip.engineOut d = false ∧ s.chip.following d = true ∧ (s.chip.servoSt d).running = none ∧ s.chip.burning d = false :=
  ⟨0, (tState [(F.srvStatus_fstate 0, 3), (F.srvStatus_tstate 0, 3)] fun c => c.modServo 0 fun x => { x with bank := fldSet [] (F.loopK_gain 0 0) 5 }), by decide +kernel⟩

theorem witness_ServoRequestsTakeEffect_8 : ∃ (d : Nat) (a : Nat) (s : State), (s.chip.linkSt d).point.flags.testBit 2 = true :=
  ⟨0, 0, (tState [] fun c => c.modLink 0 fun l => { l with point := { l.point with flags := 4 } }), by decide +kernel⟩

theorem witness_ServoRequestsTakeEffect_9 : ∃ (d : Nat) (a : Nat) (s : State), (s.chip.linkSt d).point.flags.testBit 2 = false ∧ (s.chip.servoSt d).running ≠ none ∧ (s.chip.servoSt d).waiting = none :=
  ⟨0, 131072, (tState [] fun c => c.modServo 0 fun x => { x with running := some .calibrate }), by decide +kernel⟩

theorem witness_ServoRequestsTakeEffect_10 : ∃ (d : Nat) (a : Nat) (s : State), (s.chip.servoSt d).running ≠ none ∧ (s.chip.servoSt d).waiting ≠ none :=
  ⟨0, 0, (tState [] fun c => c.modServo 0 fun x => { x with running := some .calibrate, waiting := some .calibrate }), by decide +kernel⟩

theorem witness_ServoRequestsTakeEffect_11 : ∃ (d : Nat) (s : State), d < 24 :=
  ⟨23, (tState [(F.srvStatus_fstate 23, 3), (F.srvStatus_tstate 23, 3), (F.btlStatus_state 23, 3)] fun c => c.modServo 23 fun x => { x with running := some .calibrate, waiting := some .calibrate }), by decide +kernel⟩

theorem witness_ServoRequestsTakeEffect_12 : ∃ (d : Nat) (s : State), (∀ l < 4, ∀ f ∈ loopFields d l, s.chip.rd f < 2 ^ f.width) :=
  ⟨0, (tState [(F.loopK_gain 0 3, 5), (F.loopSec_coef 0 3 3 6, 7), (F.loopFf_kff 0 3, 2)]), by decide +kernel⟩

theorem witness_ServoRequestsTakeEffect_13 : ∃ (d : Nat) (a : Nat) (s : State), s.chip.engineOut d = true ∧ (s.chip.servoSt d).running = none :=
  ⟨7, 1, (tState [(F.srvStatus_fstate 7, 3), (F.srvStatus_tstate 7, 3)] fun c => c.modRgn 1 fun g => { g with out := true }), by decide +kernel⟩

theorem witness_FocusStatesAdvance_1 : ∃ (d : Nat) (s : State), s.chip.rd (F.srvStatus_fstate d) = 2 ∧ 256 ≤ (s.chip.servoSt d).f.settleRun ∧ (s.chip.servoSt d).f.acquiring = true ∧ (s.chip.servoSt d).calStep = 0 ∧ (s.chip.servoSt d).f.target < 8 :=
  ⟨0, (tState [(F.srvStatus_fstate 0, 2), (F.srvStatus_layer 0, 3)] fun c => c.modServo 0 fun x => { x with f := { x.f with settleRun := 256, settleSum := 2560, acquiring := true, target := 7 } }), by decide +kernel⟩

theorem witness_FocusStatesAdvance_2 : ∃ (d : Nat) (s : State), d < 24 ∧ s.chip.rd (F.srvStatus_fstate d) = 2 ∧ 4096 ≤ (s.chip.servoSt d).f.periods :=
  ⟨23, (tState [(F.srvStatus_fstate 23, 2)] fun c => c.modServo 23 fun x => { x with f := { x.f with periods := 4096 } }), by decide +kernel⟩

theorem witness_FocusStatesAdvance_3 : ∃ (d : Nat) (s : State), d < 24 ∧ s.chip.rd (F.srvStatus_fstate d) = 3 ∧ s.chip.rd (F.srvGuard_loss_n d) ≤ (s.chip.servoSt d).f.lossRun :=
  ⟨23, (tState [(F.srvStatus_fstate 23, 3), (F.srvGuard_loss_n 23, 4)] fun c => c.modServo 23 fun x => { x with f := { x.f with lossRun := 4 } }), by decide +kernel⟩

theorem witness_FocusStatesAdvance_4 : ∃ (d : Nat) (s : State), d < 24 ∧ s.chip.rd (F.srvStatus_fstate d) = 6 ∧ s.chip.rd (F.srvJump_jump_to d) ≤ (s.chip.servoSt d).f.jumpPeriods :=
  ⟨23, (tState [(F.srvStatus_fstate 23, 6), (F.srvJump_jump_to 23, 4)] fun c => c.modServo 23 fun x => { x with f := { x.f with jumpPeriods := 4 } }), by decide +kernel⟩

theorem witness_FocusStatesAdvance_5 : ∃ (d : Nat) (s : State), s.chip.rd (F.srvStatus_fstate d) = 5 ∧ s.chip.rd (F.srvJump_kick_len d) ≤ (s.chip.servoSt d).f.periods :=
  ⟨0, (tState [(F.srvStatus_fstate 0, 5), (F.srvJump_kick_len 0, 4)] fun c => c.modServo 0 fun x => { x with f := { x.f with periods := 4 } }), by decide +kernel⟩

theorem witness_FocusStatesAdvance_6 : ∃ (d : Nat) (s : State), s.chip.rd (F.srvStatus_fstate d) = 3 ∧ periodsPerSecond ≤ (s.chip.servoSt d).f.periods :=
  ⟨0, (tState [(F.srvStatus_fstate 0, 3)] fun c => c.modServo 0 fun x => { x with f := { x.f with periods := periodsPerSecond, reacq := 3 } }), by decide +kernel⟩

theorem witness_FocusStatesAdvance_7 : ∃ (d : Nat) (s : State), d < 24 ∧ s.chip.rd (F.hlinkCtrl_srv_miss_max d) < (s.chip.linkSt d).lostRun ∧ (s.chip.servoSt d).stopped = false :=
  ⟨23, (tState [(F.hlinkCtrl_srv_miss_max 23, 3)] fun c => c.modLink 23 fun x => { x with lostRun := 4 }), by decide +kernel⟩

theorem witness_FocusStatesAdvance_8 : ∃ (d : Nat) (s : State), (s.chip.linkSt d).lostRun ≤ s.chip.rd (F.hlinkCtrl_srv_miss_max d) :=
  ⟨0, (tState [(F.hlinkCtrl_srv_miss_max 0, 3)] fun c => c.modLink 0 fun x => { x with lostRun := 3 }), by decide +kernel⟩

theorem witness_FocusStatesAdvance_9 : ∃ (d : Nat) (r : RunSt) (s : State), 2 ≤ (s.chip.linkSt d).lostRun ∧ (s.chip.burnSt d).run = some r :=
  ⟨0, default, (tState [] fun c => (c.modLink 0 fun x => { x with lostRun := 2 }).modBurn 0 fun b => { b with run := some default }), by decide +kernel⟩

theorem witness_TrackingAndCalibrationAdvance_1 : ∃ (d : Nat) (s : State), s.chip.rd (F.srvStatus_tstate d) = 2 ∧ 256 ≤ (s.chip.servoSt d).t.settleRun ∧ (s.chip.servoSt d).running = none ∧ s.chip.rd (F.spinStatus_lock d) = 0 ∧ s.chip.inhibits d = false :=
  ⟨0, (tState [(F.srvStatus_tstate 0, 2), (F.srvStatus_wi 0, 1), (F.srvGuard_wi_n 0, 3)] fun c => c.modServo 0 fun x => { x with t := { x.t with settleRun := 256 } }), by decide +kernel⟩

theorem witness_TrackingAndCalibrationAdvance_2 : ∃ (d : Nat) (s : State), (s.chip.rd (F.srvStatus_tstate d) = 3 ∨ s.chip.rd (F.srvStatus_tstate d) = 2) ∧ 4 ≤ (s.chip.servoSt d).t.offRun :=
  ⟨0, (tState [(F.srvStatus_tstate 0, 3)] fun c => c.modServo 0 fun x => { x with t := { x.t with offRun := 4 } }), by decide +kernel⟩

theorem witness_TrackingAndCalibrationAdvance_3 : ∃ (d : Nat) (s : State), d < 24 ∧ s.chip.rd (F.srvStatus_tstate d) = 1 ∧ (s.chip.servoSt d).waiting = none :=
  ⟨23, (tState [(F.srvStatus_tstate 23, 1), (F.srvStatus_req_busy 23, 1)] fun c => c.modServo 23 fun x => { x with running := some (.seek 5) }), by decide +kernel⟩

theorem witness_TrackingAndCalibrationAdvance_4 : ∃ (d : Nat) (s : State), d < 24 ∧ s.chip.rd (F.srvStatus_tstate d) = 4 ∧ (s.chip.servoSt d).waiting = none :=
  ⟨23, (tState [(F.srvStatus_tstate 23, 4)] fun c => c.modServo 23 fun x => { x with running := some (.seek 5), t := { x.t with seeking := true } }), by decide +kernel⟩

theorem witness_TrackingAndCalibrationAdvance_5 : ∃ (d : Nat) (k : Int) (s : State), (s.chip.servoSt d).running = some (.passOffset k) ∧ s.chip.passSettled d = true ∧ (s.chip.servoSt d).waiting = none :=
  ⟨0, 1, (tState [(F.srvStatus_req_busy 0, 1)] fun c => c.modServo 0 fun x => { x with running := some (.passOffset 1), settleAfter := 256 }), by decide +kernel⟩

theorem witness_TrackingAndCalibrationAdvance_6 : ∃ (d : Nat) (s : State), (s.chip.servoSt d).offDone = false ∧ 4096 ≤ (s.chip.servoSt d).offN ∧ (s.chip.servoSt d).running = none ∧ (∀ i < 8, (s.chip.burnSt d).strategy.getD i 0 = s.chip.strategyWord (portRegion d) i + 1) ∧ (∀ i < 5, (s.chip.servoSt d).offSum.getD i 0 = 0) :=
  ⟨0, (tState [(F.srvQoff_q_off 0, 5)] fun c => (c.modServo 0 fun x => { x with offN := 4096 }).modBurn 0 fun b => { b with strategy := (List.range 8).map fun i => c.strategyWord 0 i + 1 }), by decide +kernel⟩

theorem witness_TrackingAndCalibrationAdvance_7 : ∃ (d : Nat) (s : State), (s.chip.servoSt d).calStep = 2 ∧ s.chip.rd (F.srvStatus_fstate d) = 3 ∧ s.chip.rd (F.srvStatus_tstate d) = 0 ∧ sinePeriods ≤ (s.chip.servoSt d).calN ∧ 4 ≤ (s.chip.servoSt d).ppCross :=
  ⟨0, (tState [(F.srvStatus_fstate 0, 3)] fun c => c.modServo 0 fun x => { x with calStep := 2, calN := sinePeriods, ppCross := 4, ppMax := 102400, ppMin := -102400, calBad := 1 }), by decide +kernel⟩

theorem witness_TrackingAndCalibrationAdvance_8 : ∃ (d : Nat) (a2 : Nat) (b2 : Nat) (g : Nat) (first : Nat) (s : State), (s.chip.servoSt d).calStep = 3 ∧ s.chip.calPeriods d ≤ (s.chip.servoSt d).calN ∧ (s.chip.servoSt d).calN ≠ 0 ∧ a2 = ((s.chip.servoSt d).calSum.getD 0 0).natAbs ^ 2 + ((s.chip.servoSt d).calSum.getD 1 0).natAbs ^ 2 ∧ b2 = ((s.chip.servoSt d).calSum.getD 2 0).natAbs ^ 2 + ((s.chip.servoSt d).calSum.getD 3 0).natAbs ^ 2 ∧ a2 ≠ 0 ∧ withinHalfDb a2 b2 = true ∧ g = (signed 32 (s.chip.activeGain d 0)).natAbs ∧ first = (signed 32 (s.chip.servoSt d).calFirst).natAbs ∧ first ≤ 4 * g ∧ g ≤ 4 * first :=
  ⟨0, 25, 25, 100, 50, (tState [(F.srvCal_f_cal_f 0, 1000)] fun c => c.modServo 0 fun x => { x with bank := fldSet [] (F.loopK_gain 0 0) (2 ^ 32 - 100), calStep := 3, calN := 100000, calFirst := 50, calSum := [3, 4, 4, 3] }), by decide +kernel⟩

theorem witness_TrackingAndCalibrationAdvance_9 : ∃ (d : Nat) (s : State), s.chip.inhibits d = true ∧ (s.chip.burnSt d).run = none ∧ (s.chip.burnSt d).cal = none ∧ (s.chip.burnSt d).close = none :=
  ⟨0, (tState [(F.srvGuard_wi_n 0, 3)] fun c => c.modServo 0 fun x => { x with t := { x.t with wiFoc := 3 } }), by decide +kernel⟩

theorem witness_BandTimingLoopMoves_1 : ∃ (d : Nat) (s : State), s.chip.rd (F.btlStatus_state d) ≠ 0 :=
  ⟨0, (tState [(F.btlStatus_state 0, 1)] fun c => c.modBtl 0 fun b => { b with wobbles := [1, 2, 3], rate := 5 }), by decide +kernel⟩

theorem witness_BandTimingLoopMoves_2 : ∃ (d : Nat) (s : State), s.chip.rd (F.btlStatus_state d) = 4 ∧ (s.chip.btlSt d).wobbles = [] ∧ (s.chip.btlSt d).defect = true ∧ (s.chip.btlSt d).at_ = none :=
  ⟨0, (tState [(F.btlStatus_state 0, 4)] fun c => c.modBtl 0 fun b => { b with defect := true, rate := 50000000000 }), by decide +kernel⟩

theorem witness_BandTimingLoopMoves_3 : ∃ (d : Nat) (s : State), s.chip.rd (F.btlStatus_state d) = 3 ∧ (s.chip.btlSt d).wobbles = [] ∧ (s.chip.btlSt d).at_ = none :=
  ⟨0, (tState [(F.btlStatus_state 0, 3)] fun c => c.modBtl 0 fun b => { b with rate := 5 }), by decide +kernel⟩

theorem witness_BandTimingLoopMoves_4 : ∃ (d : Nat) (s : State), s.chip.rd (F.btlStatus_state d) = 0 :=
  ⟨0, (tState []), by decide +kernel⟩

theorem witness_BandTimingLoopMoves_5 : ∃ (d : Nat) (s : State), s.chip.rd (F.btlStatus_state d) = 1 ∧ (s.chip.btlSt d).acqFails < 2 :=
  ⟨0, (tState [(F.btlStatus_state 0, 1)] fun c => c.modBtl 0 fun b => { b with acqFails := 1 }), by decide +kernel⟩

theorem witness_BandTimingLoopMoves_6 : ∃ (d : Nat) (s : State), d < 24 ∧ s.chip.rd (F.btlStatus_state d) = 1 ∧ 2 ≤ (s.chip.btlSt d).acqFails :=
  ⟨23, (tState [(F.btlStatus_state 23, 1)] fun c => c.modBtl 23 fun b => { b with acqFails := 2 }), by decide +kernel⟩

theorem witness_BandTimingLoopMoves_7 : ∃ (d : Nat) (s : State), s.chip.rd (F.btlStatus_state d) = 2 ∧ (s.chip.btlSt d).acqFails < 2 :=
  ⟨0, (tState [(F.btlStatus_state 0, 2)]), by decide +kernel⟩

theorem witness_BandTimingLoopMoves_8 : ∃ (d : Nat) (s : State), s.chip.rd (F.btlStatus_state d) ≠ 2 :=
  ⟨0, (tState []), by decide +kernel⟩

theorem witness_BandTimingLoopMoves_9 : ∃ (d : Nat) (r : RunSt) (s : State), s.chip.rd (F.btlStatus_state d) = 4 ∧ (s.chip.burnSt d).run = some r :=
  ⟨0, default, (tState [(F.btlStatus_state 0, 4)] fun c => c.modBurn 0 fun b => { b with run := some default }), by decide +kernel⟩

theorem witness_BandTimingLoopMoves_10 : ∃ (d : Nat) (s : State), s.chip.rd (F.btlStatus_state d) ≠ 4 :=
  ⟨0, (tState []), by decide +kernel⟩

theorem witness_AddressMarksPlaceTheLoop_1 : ∃ (d : Nat) (a : Int) (m : Mark) (p : Mark) (s : State), s.chip.rd (F.btlStatus_state d) = 2 ∧ (s.chip.btlSt d).findMark = some (a, m) ∧ (s.chip.btlSt d).last = some p ∧ markNext p = m ∧ (s.chip.btlSt d).lastAt + 63 = a ∧ (s.chip.servoSt d).t.seeking = false ∧ s.chip.rd (F.srvStatus_fstate d) ≠ 3 ∧ (s.chip.readSt d).cur = none ∧ (s.chip.readSt d).queue = [] ∧ s.chip.rd (F.discStatus_state d) ≠ 3 ∧ m.band < 2 ^ 17 :=
  ⟨0, 0, ⟨0, 0, 5, 1⟩, ⟨0, 0, 5, 0⟩, (tState [(F.btlStatus_state 0, 2)] fun c => c.modBtl 0 fun b => tMarked (encodeMark ⟨0, 0, 5, 1⟩) { b with last := some ⟨0, 0, 5, 0⟩, lastAt := -63, seen := -1 }), by decide +kernel⟩

theorem witness_AddressMarksPlaceTheLoop_2 : ∃ (d : Nat) (a : Int) (m : Mark) (s : State), s.chip.rd (F.btlStatus_state d) = 2 ∧ (s.chip.btlSt d).findMark = some (a, m) ∧ (¬((s.chip.btlSt d).last.map markNext = some m ∧ (s.chip.btlSt d).lastAt + 63 = a)) :=
  ⟨0, 0, ⟨1, 7, 5, 1⟩, (tState [(F.btlStatus_state 0, 2)] fun c => c.modBtl 0 fun b => tMarked (encodeMark ⟨1, 7, 5, 1⟩) { b with seen := -1 }), by decide +kernel⟩

theorem witness_AddressMarksPlaceTheLoop_3 : ∃ (d : Nat) (s : State), s.chip.rd (F.btlStatus_state d) = 2 ∧ (s.chip.btlSt d).findMark = none :=
  ⟨0, (tState [(F.btlStatus_state 0, 2)] fun c => c.modBtl 0 fun b => tMarked (1) { b with seen := -1, last := some ⟨0, 0, 5, 0⟩ }), by decide +kernel⟩

theorem witness_AddressMarksPlaceTheLoop_4 : ∃ (d : Nat) (p : Mark) (s : State), s.chip.rd (F.btlStatus_state d) = 3 ∧ (s.chip.btlSt d).pred = some p ∧ (s.chip.btlSt d).amuRead (s.chip.btlSt d).amu = true ∧ decodeMark ((s.chip.btlSt d).markWord (s.chip.btlSt d).amu) = none ∧ p.mark ≠ 0 :=
  ⟨0, ⟨0, 0, 5, 1⟩, (tState [(F.btlStatus_state 0, 3)] fun c => c.modBtl 0 fun b => tMarked (1) { b with pred := some ⟨0, 0, 5, 1⟩ }), by decide +kernel⟩

theorem witness_AddressMarksPlaceTheLoop_5 : ∃ (d : Nat) (p : Mark) (s : State), s.chip.rd (F.btlStatus_state d) = 3 ∧ (s.chip.btlSt d).pred = some p ∧ (s.chip.btlSt d).amuRead (s.chip.btlSt d).amu = true ∧ decodeMark ((s.chip.btlSt d).markWord (s.chip.btlSt d).amu) = some p ∧ p.mark ≠ 0 ∧ s.chip.rd (F.srvStatus_fstate d) ≠ 3 ∧ s.chip.rd (F.discStatus_state d) ≠ 3 :=
  ⟨0, ⟨1, 7, 5, 1⟩, (tState [(F.btlStatus_state 0, 3)] fun c => c.modBtl 0 fun b => tMarked (encodeMark ⟨1, 7, 5, 1⟩) { b with pred := some ⟨1, 7, 5, 1⟩ }), by decide +kernel⟩

theorem witness_AddressMarksPlaceTheLoop_6 : ∃ (d : Nat) (m : Mark) (p : Mark) (s : State), s.chip.rd (F.btlStatus_state d) = 3 ∧ (s.chip.btlSt d).pred = some p ∧ (s.chip.btlSt d).amuRead (s.chip.btlSt d).amu = true ∧ decodeMark ((s.chip.btlSt d).markWord (s.chip.btlSt d).amu) = some m ∧ m ≠ p ∧ p.mark ≠ 0 ∧ (s.chip.btlSt d).last.map markNext ≠ some m ∧ s.chip.rd (F.srvStatus_fstate d) ≠ 3 ∧ s.chip.rd (F.discStatus_state d) ≠ 3 :=
  ⟨0, ⟨1, 7, 5, 1⟩, ⟨1, 7, 5, 2⟩, (tState [(F.btlStatus_state 0, 3)] fun c => c.modBtl 0 fun b => tMarked (encodeMark ⟨1, 7, 5, 1⟩) { b with pred := some ⟨1, 7, 5, 2⟩ }), by decide +kernel⟩

theorem witness_AddressMarksPlaceTheLoop_7 : ∃ (d : Nat) (m : Mark) (p : Mark) (q : Mark) (s : State), d < 24 ∧ s.chip.rd (F.btlStatus_state d) = 3 ∧ (s.chip.btlSt d).pred = some p ∧ (s.chip.btlSt d).amuRead (s.chip.btlSt d).amu = true ∧ decodeMark ((s.chip.btlSt d).markWord (s.chip.btlSt d).amu) = some m ∧ m ≠ p ∧ p.mark ≠ 0 ∧ (s.chip.btlSt d).last = some q ∧ markNext q = m ∧ s.chip.rd (F.srvStatus_fstate d) ≠ 3 ∧ s.chip.rd (F.discStatus_state d) ≠ 3 ∧ (s.chip.burnSt d).run = none ∧ (s.chip.burnSt d).cal = none ∧ (s.chip.burnSt d).close = none ∧ m.band < 2 ^ 17 :=
  ⟨23, ⟨1, 7, 5, 1⟩, ⟨1, 7, 5, 2⟩, ⟨1, 7, 5, 0⟩, (tState [(F.btlStatus_state 23, 3)] fun c => c.modBtl 23 fun b => tMarked (encodeMark ⟨1, 7, 5, 1⟩) { b with pred := some ⟨1, 7, 5, 2⟩, last := some ⟨1, 7, 5, 0⟩ }), by decide +kernel⟩

theorem witness_AddressMarksPlaceTheLoop_8 : ∃ (d : Nat) (s : State), d < 24 ∧ s.chip.rd (F.btlStatus_state d) = 3 ∧ 40 ≤ (s.chip.btlSt d).invalidRun ∧ (s.chip.burnSt d).run = none ∧ (s.chip.burnSt d).cal = none ∧ (s.chip.burnSt d).close = none :=
  ⟨23, (tState [(F.btlStatus_state 23, 3)] fun c => c.modBtl 23 fun b => { b with invalidRun := 40 }), by decide +kernel⟩

theorem witness_AddressMarksPlaceTheLoop_9 : ∃ (d : Nat) (s : State), (s.chip.btlSt d).invalidRun < 40 :=
  ⟨0, (tState []), by decide +kernel⟩

theorem witness_UnitsReadAndFrame_1 : ∃ (u : Nat) (s : State), (s.chip.unitSt u).out = true ∨ s.chip.contained (u / 4) = true ∨ s.chip.rd (F.btlStatus_state (u / 4)) = 0 ∨ s.chip.samplePos u (s.chip.unitSt u).nextIdx = none :=
  ⟨0, (tState [] fun c => c.modUnit 0 fun u => { u with out := true }), by decide +kernel⟩

theorem witness_UnitsReadAndFrame_2 : ∃ (u : Nat) (x : Int) (s : State), (s.chip.unitSt u).out = false ∧ s.chip.contained (u / 4) = false ∧ s.chip.rd (F.btlStatus_state (u / 4)) ≠ 0 ∧ s.chip.samplePos u (s.chip.unitSt u).nextIdx = some x ∧ x / 2 ^ 24 + 5 < (s.chip.unitSt u).sampEnd ∧ s.chip.rd (F.eqc_adapt u) = 0 :=
  ⟨0, 0, (tState [(F.eqc_adapt 0, 0), (F.btlStatus_state 0, 1)] fun c => (c.modBtl 0 fun b => { b with starts := [⟨0, 0, 0, 300⟩] }).modUnit 0 fun u => { u with anchors := [(0, 0, 0)], sampEnd := 6 }), by decide +kernel⟩

theorem witness_UnitsReadAndFrame_3 : ∃ (u : Nat) (x : Int) (s : State), s.chip.samplePos u (s.chip.unitSt u).nextIdx = some x ∧ ((s.chip.unitSt u).sampEnd : Int) ≤ x / 2 ^ 24 + 5 :=
  ⟨0, 0, (tState [(F.btlStatus_state 0, 1)] fun c => (c.modBtl 0 fun b => { b with starts := [⟨0, 0, 0, 300⟩] }).modUnit 0 fun u => { u with anchors := [(0, 0, 0)], sampEnd := 5 }), by decide +kernel⟩

theorem witness_UnitsReadAndFrame_4 : ∃ (u : Nat) (s : State), u < 96 ∧ s.chip.rd (F.agc_hold_len u) ≤ (s.chip.unitSt u).flagRun ∧ (s.chip.unitSt u).expired = false :=
  ⟨95, (tState [(F.agc_hold_len 95, 5), (F.agcx_acq_len 95, 9)] fun c => c.modUnit 95 fun u => { u with flagRun := 5 }), by decide +kernel⟩

theorem witness_UnitsReadAndFrame_5 : ∃ (u : Nat) (s : State), (s.chip.unitSt u).flagRun < s.chip.rd (F.agc_hold_len u) ∨ (s.chip.unitSt u).expired = true :=
  ⟨0, (tState [(F.agc_hold_len 0, 5)]), by decide +kernel⟩

theorem witness_UnitsReadAndFrame_6 : ∃ (u : Nat) (x : SecSt) (t : SectorRec) (s : State), (s.chip.unitSt u).secs = [x] ∧ x.decided = false ∧ x.predOff = false ∧ s.chip.rd (F.tim_valid u) = 1 ∧ (s.chip.unitSt u).hist = [] ∧ 0 < s.chip.rd (F.jd_sync_min (u / 4)) ∧ (s.chip.unitSt u).verifying = false ∧ (s.chip.unitSt u).slots = [] ∧ s.chip.pendingSector (u / 4) x.psa = some t ∧ (s.chip.readSt (u / 4)).due (u % 4) x.offset t = true ∧ (s.chip.readSt (u / 4)).cur = none :=
  ⟨0, { (default : SecSt) with psa := 400 }, { (default : SectorRec) with psa := 400 }, (tState [(F.tim_valid 0, 1), (F.jd_sync_min 0, 1)] fun c => (c.modUnit 0 fun u => { u with secs := [{ (default : SecSt) with psa := 400 }] }).modRead 0 fun r => { r with sectors := [{ (default : SectorRec) with psa := 400 }] }), by decide +kernel⟩

theorem witness_UnitsReadAndFrame_7 : ∃ (u : Nat) (x : SecSt) (s : State), (s.chip.unitSt u).secs = [x] ∧ x.decided = false ∧ (s.chip.rd (F.tim_valid u) = 0 ∨ x.predOff = true) ∧ (s.chip.unitSt u).hist = [] ∧ 0 < s.chip.rd (F.jd_sync_min (u / 4)) ∧ (s.chip.unitSt u).verifying = false ∧ (s.chip.readSt (u / 4)).cur = none ∧ (s.chip.readSt (u / 4)).sectors = [] ∧ (s.chip.readSt (u / 4)).queue = [] :=
  ⟨0, { (default : SecSt) with psa := 400 }, (tState [(F.tim_valid 0, 0), (F.jd_sync_min 0, 1)] fun c => c.modUnit 0 fun u => { u with secs := [{ (default : SecSt) with psa := 400 }], slots := [default] }), by decide +kernel⟩

theorem witness_UnitsReadAndFrame_8 : ∃ (u : Nat) (x : SecSt) (s : State), u < 96 ∧ (s.chip.unitSt u).secs = [x] ∧ x.decided = false ∧ x.predOff = false ∧ s.chip.rd (F.tim_valid u) = 1 ∧ (s.chip.unitSt u).hist = [] ∧ 0 < s.chip.rd (F.jd_sync_min (u / 4)) ∧ (s.chip.unitSt u).verifying = false ∧ (s.chip.readSt (u / 4)).cur = none ∧ (s.chip.readSt (u / 4)).sectors = [] ∧ (s.chip.readSt (u / 4)).queue = [] ∧ 4 ≤ (s.chip.unitSt u).slots.length :=
  ⟨95, { (default : SecSt) with psa := 400 }, (tState [(F.tim_valid 95, 1), (F.jd_sync_min 23, 1)] fun c => c.modUnit 95 fun u => { u with secs := [{ (default : SecSt) with psa := 400 }], slots := List.replicate 4 default }), by decide +kernel⟩

theorem witness_UnitsReadAndFrame_9 : ∃ (u : Nat) (x : SecSt) (t : SectorRec) (e : Extent) (s : State), (s.chip.unitSt u).secs = [x] ∧ x.decided = false ∧ s.chip.rd (F.tim_valid u) = 0 ∧ (s.chip.unitSt u).hist = [] ∧ 0 < s.chip.rd (F.jd_sync_min (u / 4)) ∧ (s.chip.unitSt u).verifying = false ∧ (s.chip.readSt (u / 4)).cur = some e ∧ (s.chip.readSt (u / 4)).inBudget = false ∧ 3 ≤ e.ceiling ∧ s.chip.pendingSector (u / 4) x.psa = some t ∧ (s.chip.readSt (u / 4)).due (u % 4) x.offset t = true :=
  ⟨0, { (default : SecSt) with psa := 400 }, { (default : SectorRec) with psa := 400 }, { (default : Extent) with ceiling := 7 }, (tState [(F.jd_sync_min 0, 1)] fun c => (c.modUnit 0 fun u => { u with secs := [{ (default : SecSt) with psa := 400 }] }).modRead 0 fun r => { r with cur := some { (default : Extent) with ceiling := 7 }, sectors := [{ (default : SectorRec) with psa := 400 }] }), by decide +kernel⟩

theorem witness_UnitsReadAndFrame_10 : ∃ (u : Nat) (s : State), (∀ x ∈ (s.chip.unitSt u).secs, x.decided = true) :=
  ⟨0, (tState []), by decide +kernel⟩

theorem witness_DecodersServeSlots_1 : ∃ (r : Nat) (u : Nat) (x : DecSlot) (s : State), r < 4 ∧ u / 24 = r ∧ s.chip.poolRuns r = true ∧ (∀ k < 8, tabGet (s.chip.poolSt r).decoders k = none) ∧ (s.chip.unitSt u).out = false ∧ (s.chip.unitSt u).slots = [x] ∧ x.fresh = true ∧ x.verify = false ∧ (∀ i < 24, 24 * r + i ≠ u → (s.chip.unitSt (24 * r + i)).slots = []) :=
  ⟨3, 95, { (default : DecSlot) with psa := 400, frames := [[1]] }, (tState [(F.decCtrl_iter_first 3, 24)] fun c => c.modUnit 95 fun u => { u with slots := [{ (default : DecSlot) with psa := 400, frames := [[1]] }] }), by decide +kernel⟩

theorem witness_DecodersServeSlots_2 : ∃ (r : Nat) (k : Nat) (s : State), s.chip.poolRuns r = false :=
  ⟨0, 7, (tState [] fun c => c.modRgn 0 fun g => { g with frozen := true }), by decide +kernel⟩

theorem witness_DecodersServeSlots_3 : ∃ (r : Nat) (k : Nat) (s : State), tabGet (s.chip.poolSt r).decoders k = none :=
  ⟨0, 0, (tState []), by decide +kernel⟩

theorem witness_DecodersServeSlots_4 : ∃ (r : Nat) (k : Nat) (u : Nat) (psa : Nat) (x : DecSlot) (s : State), s.chip.poolRuns r = true ∧ tabGet (s.chip.poolSt r).decoders k = some (u, psa) ∧ (s.chip.unitSt u).slots = [x] ∧ x.psa = psa :=
  ⟨3, 7, 95, 5, { (default : DecSlot) with psa := 5 }, (tState [] fun c => (c.modPool 3 fun p => { p with decoders := [(7, some (95, 5))] }).modUnit 95 fun y => { y with slots := [{ (default : DecSlot) with psa := 5 }] }), by decide +kernel⟩

theorem witness_ReadPassesGoOn_1 : ∃ (d : Nat) (k0 : Int) (k : Int) (t : List Int) (x : Extent) (s : State), (s.chip.readSt d).cur = some x ∧ (s.chip.readSt d).inBudget = false ∧ (s.chip.readSt d).passes = k0 :: k :: t ∧ (s.chip.servoSt d).running = none ∧ s.chip.following d = false :=
  ⟨0, 0, -1, [1], default, (tState [] fun c => c.modRead 0 fun r => { r with cur := some default, passes := [0, -1, 1] }), by decide +kernel⟩

theorem witness_ReadPassesGoOn_2 : ∃ (d : Nat) (s : State), (s.chip.readSt d).cur = none ∧ (s.chip.readSt d).queue = [] :=
  ⟨0, (tState []), by decide +kernel⟩

theorem witness_ReadPassesGoOn_3 : ∃ (d : Nat) (v : Nat) (x : Extent) (s : State), (s.chip.readSt d).cur = some x ∧ (s.chip.readSt d).visits = [v] ∧ (s.chip.readSt d).passes = [] ∧ (s.chip.readSt d).inBudget = true ∧ (∀ e ∈ (s.chip.readSt d).sectors, e.state ≠ .pending) ∧ (s.chip.readSt d).slow = none ∧ (s.chip.readSt d).queue = [] ∧ x.frond = 0 ∧ x.rewrites = false :=
  ⟨0, 5, default, (tState [] fun c => c.modRead 0 fun r => { r with cur := some default, inBudget := true, visits := [5], sectors := [{ (default : SectorRec) with state := .converged }] }), by decide +kernel⟩

theorem witness_ReadPassesGoOn_4 : ∃ (d : Nat) (s : State), (s.chip.readSt d).visits = [] :=
  ⟨0, (tState []), by decide +kernel⟩

theorem witness_ReadPassesGoOn_5 : ∃ (d : Nat) (e : Nat) (x : Extent) (s : State), (s.chip.readSt d).cur = some x ∧ (s.chip.readSt d).inBudget = true ∧ (s.chip.readSt d).budgetEnd = some e ∧ e ≤ s.chip.now ∧ (s.chip.readSt d).passes = [] ∧ (s.chip.readSt d).visits = [] ∧ (∀ e ∈ (s.chip.readSt d).sectors, e.state ≠ .pending) ∧ (s.chip.readSt d).slow = none ∧ (s.chip.readSt d).queue = [] ∧ x.rewrites = false :=
  ⟨0, 7, default, (tState [] fun c => { c.modRead 0 fun r => { r with cur := some default, inBudget := true, budgetEnd := some 7 } with now := 7 }), by decide +kernel⟩

theorem witness_ReadPassesGoOn_6 : ∃ (d : Nat) (s : State), s.chip.budgetOver d = false :=
  ⟨0, (tState []), by decide +kernel⟩

theorem witness_ReadPassesGoOn_7 : ∃ (r : Nat) (d : Nat) (e : Nat) (s : State), r < 4 ∧ d / 6 = r ∧ s.chip.portUp d = true ∧ s.chip.engineOut d = false ∧ (∀ i < 6, 6 * r + i ≠ d → s.chip.portUp (6 * r + i) = false) ∧ (s.chip.servoSt d).stopped = true ∧ s.chip.rd (F.traceCtrl_en d) = 0 ∧ s.chip.releasedCopy d = none ∧ (s.chip.linkSt d).expSeq = some e :=
  ⟨3, 23, 65535, (tState [(F.hlinkStatus_state 23, 5)] fun c => (c.modServo 23 fun x => { x with stopped := true }).modLink 23 fun l => { l with expSeq := some 65535, lostRun := 2 }), by decide +kernel⟩

theorem witness_ReadPassesGoOn_8 : ∃ (r : Nat) (d : Nat) (n : Nat) (f : Subframe) (s : State), r < 4 ∧ d / 6 = r ∧ s.chip.portUp d = true ∧ s.chip.engineOut d = false ∧ (∀ i < 6, 6 * r + i ≠ d → s.chip.portUp (6 * r + i) = false) ∧ (s.chip.servoSt d).stopped = true ∧ s.chip.rd (F.traceCtrl_en d) = 0 ∧ s.chip.releasedCopy d = some (n, f) :=
  ⟨3, 23, 3, { (default : Subframe) with seq := 9 }, (tState [(F.hlinkStatus_state 23, 5), (F.hlinkStatus_lane_up 23, 8), (F.hlinkSrv_lost_run 23, 3)] fun c => (c.modServo 23 fun x => { x with stopped := true }).modLane 95 fun l => { l with servoUse := true, copy := some { (default : Subframe) with seq := 9 } }), by decide +kernel⟩

theorem witness_ReadPassesGoOn_9 : ∃ (r : Nat) (s : State), (∀ i < 6, s.chip.portUp (6 * r + i) = false) :=
  ⟨0, (tState []), by decide +kernel⟩

theorem witness_HeadLinkCarriesSuperframes_1 : ∃ (d : Nat) (s : State), s.chip.rd (F.hlinkStatus_state d) < 3 :=
  ⟨0, (tState []), by decide +kernel⟩

theorem witness_HeadLinkCarriesSuperframes_2 : ∃ (d : Nat) (s : State), 3 ≤ s.chip.rd (F.hlinkStatus_state d) ∧ (s.chip.linkSt d).mode ≠ 2 ∧ (s.chip.linkSt d).cmds.length ≤ 3 :=
  ⟨23, (tState [(F.hlinkStatus_state 23, 5)] fun c => c.modLink 23 fun l => { l with txSf := 61439, cmds := [⟨1, 0, 0, 0, 0, 1, true⟩] }), by decide +kernel⟩

theorem witness_HeadLinkCarriesSuperframes_3 : ∃ (d : Nat) (n : Nat) (line : List (Nat × Nat)) (faults : Nat) (s : State), (s.chip.rd (F.hlinkStatus_lane_up d)).testBit n = false ∧ (s.chip.servoSt d).running = none :=
  ⟨0, 0, [], 0, (tState []), by decide +kernel⟩

theorem witness_HeadLinkCarriesSuperframes_4 : ∃ (d : Nat) (n : Nat) (line : List (Nat × Nat)) (faults : Nat) (s : State), (s.chip.rd (F.hlinkStatus_lane_up d)).testBit n = true ∧ (s.chip.servoSt d).running = none ∧ (faults ≠ 0 ∨ superframeOk (descrambleBlocks (s.chip.laneScr (laneNo d n)).rx line).1 = false) :=
  ⟨23, 3, [], 1, (tState [(F.hlinkStatus_lane_up 23, 8)]), by decide +kernel⟩

theorem witness_HeadLinkCarriesSuperframes_5 : ∃ (d : Nat) (n : Nat) (line : List (Nat × Nat)) (s : State), n < 4 ∧ (s.chip.rd (F.hlinkStatus_lane_up d)).testBit n = true ∧ (s.chip.servoSt d).running = none ∧ superframeOk (descrambleBlocks (s.chip.laneScr (laneNo d n)).rx line).1 = true ∧ isControl ((descrambleBlocks (s.chip.laneScr (laneNo d n)).rx line).1.getD 62 (0, 0)) 0x38 = false :=
  ⟨23, 3, tLine, tState [(F.hlinkStatus_lane_up 23, 8)], by decide +kernel, by decide +kernel, by decide +kernel, tLine_ok, tLine_last⟩

theorem witness_HeadCommandsEndOnce_1 : ∃ (d : Nat) (op : Nat) (addr : Nat) (data : Nat) (n : Nat) (s : State), (s.chip.linkSt d).cmds.length < 4 ∧ (s.chip.linkSt d).waiting = [] ∧ s.chip.lowestLane d = some n :=
  ⟨0, 5, 70000, 0, 1, (tState [(F.hlinkStatus_lane_up 0, 10)] fun c => c.modLink 0 fun l => { l with nextSeq := 63, cmds := List.replicate 3 ⟨1, 0, 0, 0, 0, 1, true⟩ }), by decide +kernel⟩

theorem witness_HeadCommandsEndOnce_2 : ∃ (d : Nat) (op : Nat) (addr : Nat) (data : Nat) (s : State), (s.chip.linkSt d).cmds.length = 4 :=
  ⟨0, 0, 0, 0, (tState [(F.hlinkStatus_lane_up 0, 10)] fun c => c.modLink 0 fun l => { l with nextSeq := 63, cmds := List.replicate 4 ⟨1, 0, 0, 0, 0, 1, true⟩ }), by decide +kernel⟩

theorem witness_HeadCommandsEndOnce_3 : ∃ (d : Nat) (status : Nat) (addr : Nat) (data : Nat) (h : HeadCmd) (s : State), (s.chip.linkSt d).cmds = [h] ∧ (s.chip.linkSt d).waiting = [] ∧ status < 2 ∧ (s.chip.servoSt d).running = none :=
  ⟨0, 1, 0x200, 9, ⟨5, 1, 0x200, 0, 0, 1, true⟩, (tState [] fun c => c.modLink 0 fun l => { l with cmds := [⟨5, 1, 0x200, 0, 0, 1, true⟩] }), by decide +kernel⟩

theorem witness_HeadCommandsEndOnce_4 : ∃ (d : Nat) (i : Nat) (addr : Nat) (data : Nat) (h : HeadCmd) (s : State), (s.chip.linkSt d).cmds = [h] ∧ (s.chip.linkSt d).waiting = [] ∧ (s.chip.servoSt d).running = none ∧ h.op = 0 ∧ i < 8 ∧ h.addr = 0x200 + i :=
  ⟨0, 7, 0x207, 9, ⟨5, 0, 0x207, 77, 0, 1, true⟩, (tState [] fun c => c.modLink 0 fun l => { l with cmds := [⟨5, 0, 0x207, 77, 0, 1, true⟩] }), by decide +kernel⟩

theorem witness_HeadCommandsEndOnce_5 : ∃ (d : Nat) (seq : Nat) (status : Nat) (addr : Nat) (data : Nat) (s : State), ((∀ h ∈ (s.chip.linkSt d).cmds, h.seq ≠ seq) ∨ 2 ≤ status) ∧ (s.chip.servoSt d).running = none :=
  ⟨0, 0, 2, 0, 0, (tState []), by decide +kernel⟩

theorem witness_HeadCommandsEndOnce_6 : ∃ (d : Nat) (h : HeadCmd) (s : State), (s.chip.linkSt d).cmds = [h] ∧ h.sends < 16 ∧ (s.chip.rd (F.hlinkStatus_lane_up d)).testBit h.lane = true :=
  ⟨0, ⟨5, 0, 0x207, 77, 3, 15, false⟩, (tState [(F.hlinkStatus_lane_up 0, 8)] fun c => c.modLink 0 fun l => { l with cmds := [⟨5, 0, 0x207, 77, 3, 15, false⟩] }), by decide +kernel⟩

theorem witness_HeadCommandsEndOnce_7 : ∃ (d : Nat) (h : HeadCmd) (s : State), (s.chip.linkSt d).cmds = [h] ∧ (s.chip.linkSt d).waiting = [] ∧ 16 ≤ h.sends :=
  ⟨0, ⟨5, 0, 0x207, 77, 3, 16, false⟩, (tState [] fun c => c.modLink 0 fun l => { l with cmds := [⟨5, 0, 0x207, 77, 3, 16, false⟩] }), by decide +kernel⟩

theorem witness_PortsTrainAndComeUp_1 : ∃ (d : Nat) (s : State), s.chip.rd (F.hlinkStatus_state d) = 0 ∧ 7 ≤ s.chip.rd F.bootProgress_step :=
  ⟨0, (tState [(F.bootProgress_step, 7)]), by decide +kernel⟩

theorem witness_PortsTrainAndComeUp_2 : ∃ (d : Nat) (s : State), d < 24 ∧ s.chip.rd (F.hlinkStatus_state d) ≠ 5 :=
  ⟨23, (tState [(F.hlinkStatus_state 23, 4), (F.hlinkStatus_lane_up 23, 15)]), by decide +kernel⟩

theorem witness_PortsTrainAndComeUp_3 : ∃ (d : Nat) (s : State), s.chip.rd (F.hlinkStatus_state d) = 0 :=
  ⟨0, (tState []), by decide +kernel⟩

theorem witness_PortsTrainAndComeUp_4 : ∃ (d : Nat) (s : State), d < 24 ∧ s.chip.rd (F.hlinkStatus_state d) ≠ 0 ∧ s.chip.rd (F.hlinkStatus_state d) ≠ 5 :=
  ⟨23, (tState [(F.hlinkStatus_state 23, 4), (F.hlinkStatus_lane_up 23, 15)]), by decide +kernel⟩

theorem witness_PortsTrainAndComeUp_5 : ∃ (d : Nat) (lanes : Nat) (s : State), s.chip.rd (F.hlinkStatus_state d) = 1 ∧ lanes % 16 ≠ 0 :=
  ⟨0, 24, (tState [(F.hlinkStatus_state 0, 1)]), by decide +kernel⟩

theorem witness_PortsTrainAndComeUp_6 : ∃ (d : Nat) (lanes : Nat) (s : State), s.chip.rd (F.hlinkStatus_state d) = 2 ∧ (s.chip.linkSt d).detect &&& lanes ≠ 0 :=
  ⟨0, 8, (tState [(F.hlinkStatus_state 0, 2)] fun c => c.modLink 0 fun l => { l with detect := 12 }), by decide +kernel⟩

theorem witness_PortsTrainAndComeUp_7 : ∃ (d : Nat) (s : State), d < 24 ∧ s.chip.rd (F.hlinkStatus_state d) = 2 :=
  ⟨23, (tState [(F.hlinkStatus_state 23, 2)]), by decide +kernel⟩

theorem witness_PortsTrainAndComeUp_8 : ∃ (d : Nat) (s : State), d < 24 ∧ s.chip.rd (F.hlinkStatus_state d) = 3 :=
  ⟨23, (tState [(F.hlinkStatus_state 23, 3)]), by decide +kernel⟩

theorem witness_PortsTrainAndComeUp_9 : ∃ (d : Nat) (n : Nat) (rt : Nat) (s : State), n < 4 ∧ s.chip.rd (F.hlinkStatus_state d) = 3 ∧ (s.chip.linkSt d).detect.testBit n = true ∧ rt ≤ s.chip.rd (F.hlinkCtrl_rt_max d) ∧ (s.chip.rd (F.hlinkCtrl_lane_disable d)).testBit n = false :=
  ⟨0, 3, 160, (tState [(F.hlinkStatus_state 0, 3), (F.hlinkCtrl_rt_max 0, 160), (F.hlinkCtrl_lane_disable 0, 7)] fun c => c.modLink 0 fun l => { l with detect := 8 }), by decide +kernel⟩

theorem witness_PortsTrainAndComeUp_10 : ∃ (d : Nat) (identity : Nat) (s : State), d < 24 ∧ s.chip.rd (F.hlinkStatus_state d) = 4 ∧ s.chip.host.sess = [] :=
  ⟨23, 77, (tState [(F.hlinkStatus_state 23, 4), (F.hlinkStatus_lane_up 23, 15)]), by decide +kernel⟩

theorem witness_PortsTrainAndComeUp_11 : ∃ (d : Nat) (identity : Nat) (s : State), d < 24 ∧ s.chip.rd (F.hlinkStatus_state d) = 4 :=
  ⟨23, 77, (tState [(F.hlinkStatus_state 23, 4), (F.hlinkStatus_lane_up 23, 15)]), by decide +kernel⟩

theorem witness_LanesComeAndGo_1 : ∃ (d : Nat) (n : Nat) (rt : Nat) (s : State), n < 4 ∧ s.chip.portUp d = true ∧ (s.chip.rd (F.hlinkStatus_lane_up d)).testBit n = false ∧ rt ≤ s.chip.rd (F.hlinkCtrl_rt_max d) ∧ (s.chip.rd (F.hlinkCtrl_lane_disable d)).testBit n = false :=
  ⟨23, 3, 160, (tState [(F.hlinkStatus_state 23, 5), (F.hlinkCtrl_rt_max 23, 160), (F.hlinkStatus_lane_up 23, 7)]), by decide +kernel⟩

theorem witness_LanesComeAndGo_3 : ∃ (d : Nat) (n : Nat) (s : State), 16 ≤ (s.chip.laneSt (laneNo d n)).okRun :=
  ⟨23, 3, (tState [] fun c => c.modLane 95 fun l => { l with okRun := 16 }), by decide +kernel⟩

theorem witness_LanesComeAndGo_4 : ∃ (d : Nat) (n : Nat) (s : State), (s.chip.laneSt (laneNo d n)).okRun < 16 :=
  ⟨0, 0, (tState [] fun c => c.modLane 0 fun l => { l with okRun := 15 }), by decide +kernel⟩

theorem witness_LanesComeAndGo_5 : ∃ (d : Nat) (n : Nat) (k : Nat) (condition : Nat) (s : State), d < 24 ∧ n < 4 ∧ s.chip.rd (F.hlinkStatus_lane_up d) = 2 ^ n + 2 ^ k ∧ k < n ∧ (s.chip.burnSt d).run = none ∧ (s.chip.burnSt d).cal = none ∧ (s.chip.burnSt d).close = none :=
  ⟨23, 3, 2, 0, (tState [(F.hlinkStatus_state 23, 5), (F.hlinkStatus_lane_up 23, 12)] fun c => c.modLink 23 fun l => { l with cmds := [⟨1, 0, 0, 0, 3, 1, true⟩] }), by decide +kernel⟩

theorem witness_LanesComeAndGo_6 : ∃ (d : Nat) (n : Nat) (condition : Nat) (s : State), (s.chip.rd (F.hlinkStatus_lane_up d)).testBit n = false :=
  ⟨0, 0, 0, (tState []), by decide +kernel⟩

theorem witness_RunsAreQueuedAndCalibrated_1 : ∃ (d : Nat) (addr : Nat) (s : State), (s.chip.burnSt d).queue.length < 16 :=
  ⟨23, 64, (tState [] fun c => c.modBurn 23 fun b => { b with queue := List.replicate 15 default }), by decide +kernel⟩

theorem witness_RunsAreQueuedAndCalibrated_2 : ∃ (d : Nat) (addr : Nat) (s : State), 16 ≤ (s.chip.burnSt d).queue.length :=
  ⟨0, 0, (tState [] fun c => c.modBurn 0 fun b => { b with queue := List.replicate 16 default }), by decide +kernel⟩

theorem witness_RunsAreQueuedAndCalibrated_3 : ∃ (d : Nat) (s : State), (s.chip.burnSt d).queue = [] :=
  ⟨0, (tState []), by decide +kernel⟩

theorem witness_RunsAreQueuedAndCalibrated_4 : ∃ (d : Nat) (disc : Nat) (side : Nat) (p : Nat) (q : RunDesc) (t : Nat × Bool) (s : State), (s.chip.burnSt d).queue.head? = some q ∧ q.overburn = false ∧ s.chip.burnReady d = true ∧ s.chip.rd (F.discStatus_side d) = q.side ∧ s.chip.loadedDisc d = some (disc, side) ∧ s.chip.headPlace d q = some p ∧ s.chip.strategyDone d = true ∧ (s.chip.layerSide disc (8 * q.side + q.layer)).unknownTest = none ∧ chooseTest (s.chip.layerSide disc (8 * q.side + q.layer)) p = some t :=
  ⟨23, 5, 0, userStart, default, (0, true), (tState [(F.hlinkStatus_burn_ok 23, 1), (F.discStatus_state 23, 5), (F.discId_id 23, 5)] fun c => { c.modBurn 23 fun b => { b with queue := [default], strategy := (List.range 8).map fun i => c.strategyWord 3 i + 1 } with cat := { c.cat with discs := [⟨5, false, (List.range 16).map fun ls => (ls, { (default : LayerSide) with testIn := some 0, testOut := some 0 }), []⟩] } }), by decide +kernel⟩

theorem witness_RunsAreQueuedAndCalibrated_5 : ∃ (d : Nat) (s : State), (s.chip.burnSt d).cal = none :=
  ⟨0, (tState []), by decide +kernel⟩

theorem witness_RunsAreQueuedAndCalibrated_6 : ∃ (d : Nat) (b : Nat) (p : Nat) (k : CalSt) (q : RunDesc) (s : State), d < 24 ∧ b < 4 ∧ (s.chip.burnSt d).cal = some k ∧ k.need = [b] ∧ k.slot = 4 ∧ k.forClose = false ∧ (s.chip.burnSt d).queue.head? = some q ∧ p < 2 ^ 16 ∧ q.layer < 8 ∧ q.side < 2 ∧ k.psa < 2 ^ 31 ∧ crossing ((s.chip.rdi (F.opcCtrl_beta_target (portRegion d)) : Rat) / 1000) (s.chip.rdi (F.opcCtrl_margin (portRegion d))) ((List.range 8).map fun j => stepPower (k.centre.getD b 0) (s.chip.rd (F.opcCtrl_step (portRegion d))) j) ((List.range 8).map fun j => stepBeta (s.chip.stepBits d b k j)) = some p ∧ plausible (s.chip.rd (F.opcLayer_p_min (portRegion d) q.layer)) (s.chip.rd (F.opcLayer_p_max (portRegion d) q.layer)) ((List.range 8).map fun j => stepBeta (s.chip.stepBits d b k j)) p = true :=
  ⟨23, 3, 9800, { (default : CalSt) with need := [3], centre := [0, 0, 0, 10000], blocks := 1, slot := 4, edges := (List.range 17).map (64 * ·) }, default, (tState [] fun c => (c.modUnit 95 fun u => { u with secs := [{ (default : SecSt) with psa := 3 }], hist := tStepBits fun j => (j : Int) - 1 }).modBurn 23 fun x => { x with queue := [default], cal := some { (default : CalSt) with need := [3], centre := [0, 0, 0, 10000], blocks := 1, slot := 4, edges := (List.range 17).map (64 * ·) } }), by decide +kernel⟩

theorem witness_RunsAreQueuedAndCalibrated_7 : ∃ (d : Nat) (b : Nat) (k : CalSt) (q : RunDesc) (s : State), d < 24 ∧ (s.chip.burnSt d).cal = some k ∧ k.need = [b] ∧ k.slot = 4 ∧ k.forClose = false ∧ (s.chip.burnSt d).close = none ∧ (s.chip.burnSt d).queue = [q] ∧ crossing ((s.chip.rdi (F.opcCtrl_beta_target (portRegion d)) : Rat) / 1000) (s.chip.rdi (F.opcCtrl_margin (portRegion d))) ((List.range 8).map fun j => stepPower (k.centre.getD b 0) (s.chip.rd (F.opcCtrl_step (portRegion d))) j) ((List.range 8).map fun j => stepBeta (s.chip.stepBits d b k j)) = none ∧ s.chip.rd (F.opcCtrl_tries (portRegion d)) ≤ k.blocks :=
  ⟨23, 3, { (default : CalSt) with need := [3], blocks := 3, slot := 4, edges := (List.range 17).map (64 * ·) }, default, (tState [(F.opcCtrl_tries 3, 3)] fun c => (c.modUnit 95 fun u => { u with secs := [{ (default : SecSt) with psa := 3 }], hist := tStepBits fun _ => 0 }).modBurn 23 fun x => { x with queue := [default], cal := some { (default : CalSt) with need := [3], blocks := 3, slot := 4, edges := (List.range 17).map (64 * ·) } }), by decide +kernel⟩

theorem witness_RunsBeginAndCommitSlots_1 : ∃ (d : Nat) (disc : Nat) (side : Nat) (p : Nat) (q : RunDesc) (s : State), (s.chip.burnSt d).queue.head? = some q ∧ q.overburn = false ∧ q.launch = 0 ∧ s.chip.loadedDisc d = some (disc, side) ∧ (s.chip.burnSt d).calibrated false = true ∧ (s.chip.burnSt d).run = none ∧ (s.chip.readSt d).cur = none ∧ s.chip.mayBurn d = true ∧ s.chip.headPlace d q = some p :=
  ⟨23, 5, 0, userStart, default, (tState [(F.hlinkStatus_burn_ok 23, 1), (F.discStatus_state 23, 5), (F.discId_id 23, 5)] fun c => { c.modBurn 23 fun b => { b with queue := [default], cal := some default } with cat := { c.cat with discs := [⟨5, false, [], []⟩] } }), by decide +kernel⟩

theorem witness_RunsBeginAndCommitSlots_2 : ∃ (d : Nat) (s : State), (s.chip.burnSt d).queue = [] :=
  ⟨0, (tState []), by decide +kernel⟩

theorem witness_RunsBeginAndCommitSlots_3 : ∃ (d : Nat) (arrived : Nat) (s : State), (s.chip.cluSt d).frozen = true ∨ ((s.chip.burnSt d).run = none ∧ (s.chip.burnSt d).close = none ∧ (s.chip.burnSt d).cal = none ∧ (s.chip.burnSt d).stop = none) :=
  ⟨0, 3, (tState []), by decide +kernel⟩

theorem witness_RunsBeginAndCommitSlots_4 : ∃ (d : Nat) (r : RunSt) (s : State), (s.chip.cluSt d).frozen = false ∧ (s.chip.burnSt d).run = some r ∧ (s.chip.linkSt d).mode = 2 ∧ r.desc.overburn = false ∧ 16616 ≤ r.slot ∧ r.slot < 16624 ∧ (s.chip.burnSt d).stop = none :=
  ⟨23, { (default : RunSt) with slot := 16623 }, (tState [] fun c => (c.modBurn 23 fun b => { b with run := some { (default : RunSt) with slot := 16623 } }).modLink 23 fun l => { l with mode := 2 }), by decide +kernel⟩

theorem witness_RunsBeginAndCommitSlots_5 : ∃ (d : Nat) (t : Nat) (r : RunSt) (s : State), s.tileGood t = true ∧ (s.chip.cluSt d).frozen = false ∧ (s.chip.burnSt d).run = some r ∧ (s.chip.linkSt d).mode = 2 ∧ r.desc.overburn = false ∧ 0 < r.slot ∧ r.slot < 16384 ∧ (s.chip.burnSt d).stop = none ∧ (s.chip.burnSt d).tiles.find? (fun e => e.1 == r.slot) = some (r.slot, t) :=
  ⟨23, 5, { (default : RunSt) with slot := 1 }, tTile (tState [] fun c => (c.modBurn 23 fun b => { b with run := some { (default : RunSt) with slot := 1 }, tiles := [(1, 5)] }).modLink 23 fun l => { l with mode := 2 }) 5, tTile_good _ _ (by decide +kernel), by decide +kernel⟩

theorem witness_RunsBeginAndCommitSlots_6 : ∃ (d : Nat) (r : RunSt) (s : State), (s.chip.cluSt d).frozen = false ∧ (s.chip.burnSt d).run = some r ∧ (s.chip.linkSt d).mode = 2 ∧ r.desc.overburn = false ∧ 0 < r.slot ∧ r.slot < 16384 ∧ (s.chip.burnSt d).stop = none ∧ (s.chip.burnSt d).tiles.find? (fun e => e.1 == r.slot) = none ∧ (s.chip.burnSt d).lines.all (· == []) = false :=
  ⟨23, { (default : RunSt) with slot := 1 }, (tState [] fun c => (c.modBurn 23 fun b => { b with run := some { (default : RunSt) with slot := 1 }, lines := [[1], [], [], []] }).modLink 23 fun l => { l with mode := 2 }), by decide +kernel⟩

theorem witness_RunsBeginAndCommitSlots_7 : ∃ (d : Nat) (cause : Nat) (r : RunSt) (s : State), d < 24 ∧ (s.chip.burnSt d).run = some r ∧ (s.chip.burnSt d).stop = some cause ∧ (s.chip.burnSt d).atBoundary = true ∧ (s.chip.burnSt d).lines.all (· == []) = true ∧ r.desc.overburn = false ∧ r.complete = false :=
  ⟨23, 10, default, (tState [] fun c => (c.modBurn 23 fun b => { b with run := some default, stop := some 10 }).modLink 23 fun l => { l with mode := 2 }), by decide +kernel⟩

theorem witness_RunsBeginAndCommitSlots_8 : ∃ (d : Nat) (s : State), (s.chip.burnSt d).stop = none ∨ (s.chip.burnSt d).atBoundary = false :=
  ⟨0, (tState []), by decide +kernel⟩

theorem witness_SpoiledRunsAreSearchedAndClosed_1 : ∃ (d : Nat) (disc : Nat) (side : Nat) (ls : Nat) (fr : Nat) (pi : Nat) (run : Nat) (psa : Nat) (s : State), s.chip.loadedDisc d = some (disc, side) ∧ (s.chip.openSides disc).find? (fun l => l / 8 == side) = some ls ∧ s.chip.mayBurn d = true ∧ (s.chip.burnSt d).idle = true ∧ (s.chip.burnSt d).noClose = false ∧ (s.chip.layerSide disc ls).openRun = some (fr, pi, run, psa) :=
  ⟨23, 5, 1, 15, 9, 0, 0, 400, (tState [(F.hlinkStatus_burn_ok 23, 1), (F.discStatus_state 23, 5), (F.discStatus_side 23, 1), (F.discId_id 23, 5)] fun c => { c with cat := { c.cat with discs := [⟨5, false, [(15, { (default : LayerSide) with openRun := some (9, 0, 0, 400) })], []⟩] } }), by decide +kernel⟩

theorem witness_SpoiledRunsAreSearchedAndClosed_2 : ∃ (d : Nat) (s : State), s.chip.loadedDisc d = none :=
  ⟨0, (tState []), by decide +kernel⟩

theorem witness_SpoiledRunsAreSearchedAndClosed_3 : ∃ (d : Nat) (x : CloseSt) (s : State), (s.chip.burnSt d).cal = none ∧ (s.chip.burnSt d).close = some x ∧ x.found = none ∧ s.chip.recordedAt d (positionPsa x.desc.side x.desc.layer (x.firstPos + (x.lo + x.hi) / 2) 0) = some true ∧ (x.lo + x.hi) / 2 + 1 < x.hi :=
  ⟨23, { (default : CloseSt) with hi := 4160 }, (tState [(F.burnCtrl_rec_thr 23, 0), (F.dfd_env_len 92, 1)] fun c => (c.modUnit 92 fun u => { u with secs := [{ (default : SecSt) with psa := positionPsa 0 0 2080 0 }], nextIdx := 40320, hist := tSectorBits 1025 }).modBurn 23 fun b => { b with close := some { (default : CloseSt) with hi := 4160 } }), by decide +kernel⟩

theorem witness_SpoiledRunsAreSearchedAndClosed_4 : ∃ (d : Nat) (x : CloseSt) (s : State), (s.chip.burnSt d).cal = none ∧ (s.chip.burnSt d).close = some x ∧ x.found = none ∧ s.chip.recordedAt d (positionPsa x.desc.side x.desc.layer (x.firstPos + (x.lo + x.hi) / 2) 0) = some false ∧ x.lo < (x.lo + x.hi) / 2 :=
  ⟨23, { (default : CloseSt) with hi := 4160 }, (tState [(F.burnCtrl_rec_thr 23, 0), (F.dfd_env_len 92, 1)] fun c => (c.modUnit 92 fun u => { u with secs := [{ (default : SecSt) with psa := positionPsa 0 0 2080 0 }], nextIdx := 40320, hist := tSectorBits 1024 }).modBurn 23 fun b => { b with close := some { (default : CloseSt) with hi := 4160 } }), by decide +kernel⟩

theorem witness_SpoiledRunsAreSearchedAndClosed_5 : ∃ (d : Nat) (disc : Nat) (side : Nat) (x : CloseSt) (t : Nat × Bool) (s : State), (s.chip.burnSt d).cal = none ∧ (s.chip.burnSt d).close = some x ∧ x.found = none ∧ s.chip.recordedAt d (positionPsa x.desc.side x.desc.layer (x.firstPos + (x.lo + x.hi) / 2) 0) = some true ∧ x.lo ≤ x.hi ∧ x.hi ≤ (x.lo + x.hi) / 2 + 1 ∧ x.slot = 0 ∧ s.chip.strategyDone d = true ∧ s.chip.loadedDisc d = some (disc, side) ∧ (s.chip.layerSide disc (8 * x.desc.side + x.desc.layer)).unknownTest = none ∧ chooseTest (s.chip.layerSide disc (8 * x.desc.side + x.desc.layer)) x.firstPos = some t :=
  ⟨23, 5, 0, { (default : CloseSt) with lo := 4159, hi := 4160 }, (0, true), (tState [(F.burnCtrl_rec_thr 23, 0), (F.dfd_env_len 92, 1), (F.discStatus_state 23, 5), (F.discId_id 23, 5)] fun c => { (c.modUnit 92 fun u => { u with secs := [{ (default : SecSt) with psa := positionPsa 0 0 4159 0 }], nextIdx := 40320, hist := tSectorBits 1025 }).modBurn 23 fun b => { b with close := some { (default : CloseSt) with lo := 4159, hi := 4160 }, strategy := (List.range 8).map fun i => c.strategyWord 3 i + 1 } with cat := { c.cat with discs := [⟨5, false, (List.range 16).map fun ls => (ls, { (default : LayerSide) with testIn := some 0, testOut := some 0 }), []⟩] } }), by decide +kernel⟩

theorem witness_SpoiledRunsAreSearchedAndClosed_6 : ∃ (d : Nat) (s : State), s.chip.searchPlace d = none :=
  ⟨0, (tState []), by decide +kernel⟩

theorem witness_SpoiledRunsAreSearchedAndClosed_7 : ∃ (d : Nat) (lo : Nat) (hi : Nat) (inner : Bool) (k : CalSt) (q : RunDesc) (s : State), (s.chip.burnSt d).cal = some k ∧ k.search = some (inner, lo, hi) ∧ k.forClose = false ∧ (s.chip.burnSt d).queue.head? = some q ∧ s.chip.recordedAt d (positionPsa q.side q.layer (testPosition inner ((lo + hi) / 2)) 0) = some false ∧ lo < (lo + hi) / 2 :=
  ⟨23, 0, 2176, true, { (default : CalSt) with search := some (true, 0, 2176) }, default, (tState [] fun c => (c.modUnit 92 fun u => { u with secs := [{ (default : SecSt) with psa := positionPsa 0 0 1088 0 }], nextIdx := 40320, hist := tSectorBits 0 }).modBurn 23 fun b => { b with queue := [default], cal := some { (default : CalSt) with search := some (true, 0, 2176) } }), by decide +kernel⟩

theorem witness_BufferMemoryReadsAndWrites_1 : ∃ (m : Nat) (a : Nat) (err : Nat) (s : State), dramMapped a = false :=
  ⟨0, 7516192768, 0, (tState []), by decide +kernel⟩

theorem witness_BufferMemoryReadsAndWrites_2 : ∃ (m : Nat) (a : Nat) (err : Nat) (s : State), dramMapped a = true ∧ (s.chip.dieSt (stackOf a)).out = true :=
  ⟨0, 8589934592, 0, (tState [] fun c => c.modDie 1 fun x => { x with out := true }), by decide +kernel⟩

theorem witness_BufferMemoryReadsAndWrites_3 : ∃ (m : Nat) (a : Nat) (s : State), dramMapped a = true ∧ a % 0x200000000 < 0x140000000 ∧ (s.chip.dieSt (stackOf a)).out = false ∧ (s.chip.bufSt (stackOf a)).merge = [] ∧ s.chip.badBlock a = false :=
  ⟨5, 5368709119, (tState []), by decide +kernel⟩

theorem witness_BufferMemoryReadsAndWrites_4 : ∃ (m : Nat) (a : Nat) (s : State), dramMapped a = true ∧ (s.chip.dieSt (stackOf a)).out = false ∧ (s.chip.bufSt (stackOf a)).merge = [] ∧ s.chip.badBlock a = false ∧ s.chip.leakDue (bucketRegion a) = false ∧ s.chip.rd (F.bucket_level (bucketRegion a)) < s.chip.rd (F.bucket_depth (bucketRegion a)) :=
  ⟨5, 16106127359, (tState [(F.bucket_level 3, 15), (F.bucket_depth 3, 16)]), by decide +kernel⟩

theorem witness_BufferMemoryReadsAndWrites_5 : ∃ (m : Nat) (a : Nat) (s : State), dramMapped a = true ∧ (s.chip.dieSt (stackOf a)).out = false ∧ (s.chip.bufSt (stackOf a)).merge = [] ∧ s.chip.badBlock a = false ∧ s.chip.leakDue (bucketRegion a) = false ∧ s.chip.rd (F.bucket_depth (bucketRegion a)) ≤ s.chip.rd (F.bucket_level (bucketRegion a)) :=
  ⟨5, 16106127359, (tState [(F.bucket_level 3, 16), (F.bucket_depth 3, 16)]), by decide +kernel⟩

theorem witness_BufferMemoryReadsAndWrites_6 : ∃ (m : Nat) (a : Nat) (s : State), dramMapped a = true ∧ (s.chip.dieSt (stackOf a)).out = false ∧ (s.chip.bufSt (stackOf a)).merge = [] ∧ s.chip.badBlock a = false ∧ s.chip.leakDue (bucketRegion a) = true ∧ 0 < s.chip.rd (F.bucket_level (bucketRegion a)) ∧ s.chip.rd (F.bucket_level (bucketRegion a)) ≤ s.chip.rd (F.bucket_depth (bucketRegion a)) :=
  ⟨5, 16106127359, (tState [(F.bucket_level 3, 16), (F.bucket_depth 3, 16), (F.bucket_leak_min 3, 1)] fun c => { c with now := 10 ^ 12 }), by decide +kernel⟩

theorem witness_BufferMemoryReadsAndWrites_7 : ∃ (m : Nat) (a : Nat) (s : State), dramMapped a = true ∧ 2 ^ 32 ≤ a % 0x200000000 ∧ (s.chip.dieSt (stackOf a)).out = false ∧ (s.chip.bufSt (stackOf a)).merge = [] :=
  ⟨5, 16106127359, (tState []), by decide +kernel⟩

theorem witness_BufferMemoryReadsAndWrites_8 : ∃ (m : Nat) (a : Nat) (bs : List Nat) (s : State), bs.length = 64 ∧ a % 64 = 0 ∧ dramMapped a = true ∧ (s.chip.dieSt (stackOf a)).out = false ∧ 2 ^ 32 ≤ a % 0x200000000 :=
  ⟨5, 16106127296, (List.range 64), ({ tState [] fun c => c.modBuf 1 fun x => { x with bad := [16106127296] } with dram := [(16106127296, 9)] }), by decide +kernel⟩

theorem witness_BufferMemoryReadsAndWrites_9 : ∃ (m : Nat) (a : Nat) (bs : List Nat) (s : State), bs ≠ [] ∧ a % 64 + bs.length ≤ 64 ∧ bs.length ≠ 64 ∧ dramMapped a = true ∧ (s.chip.dieSt (stackOf a)).out = false ∧ 2 ^ 32 ≤ a % 0x200000000 ∧ s.chip.rd (F.dramCtrl_narrow (stackOf a)) = 1 :=
  ⟨5, 16106127359, [7], (tState [(F.dramCtrl_narrow 1, 1)]), by decide +kernel⟩

theorem witness_BufferMemoryReadsAndWrites_10 : ∃ (m : Nat) (a : Nat) (bs : List Nat) (s : State), bs ≠ [] ∧ a % 64 + bs.length ≤ 64 ∧ bs.length ≠ 64 ∧ dramMapped a = true ∧ (s.chip.dieSt (stackOf a)).out = false ∧ 2 ^ 32 ≤ a % 0x200000000 ∧ s.chip.rd (F.dramCtrl_narrow (stackOf a)) = 0 ∧ (s.chip.bufSt (stackOf a)).merge = [] :=
  ⟨5, 16106127359, [7], (tState []), by decide +kernel⟩

theorem witness_BufferMemoryReadsAndWrites_11 : ∃ (m : Nat) (a : Nat) (bs : List Nat) (s : State), bs.length = 64 ∧ a % 64 = 0 ∧ dramMapped a = false :=
  ⟨5, 7516192768, (List.replicate 64 1), (tState []), by decide +kernel⟩

theorem witness_BufferMemoryIsKept_1 : ∃ (e : Nat) (block : Nat) (k : MergeEntry) (s : State), (s.chip.bufSt e).merge = [k] ∧ k.block = block ∧ k.tile = false ∧ k.mask ≠ 2 ^ 64 - 1 ∧ k.data.length = 64 ∧ s.chip.badBlock block = false ∧ (∀ i < 64, dramMapped (block + i) = true) ∧ k.since + 10 * s.chip.rd (F.dramCtrl_merge_ns e) ≤ s.chip.now :=
  ⟨1, 16106127296, ⟨16106127296, 5, List.replicate 64 300, 0, false⟩, ({ tState [(F.dramCtrl_merge_ns 1, 1)] fun c => { c.modBuf 1 fun x => { x with merge := [⟨16106127296, 5, List.replicate 64 300, 0, false⟩] } with now := 10 } with dram := [(16106127297, 9)] }), by decide +kernel⟩

theorem witness_BufferMemoryIsKept_2 : ∃ (e : Nat) (block : Nat) (s : State), (∀ k ∈ (s.chip.bufSt e).merge, k.block = block → s.chip.now < k.since + 10 * s.chip.rd (F.dramCtrl_merge_ns e)) :=
  ⟨1, 64, (tState []), by decide +kernel⟩

theorem witness_BufferMemoryIsKept_3 : ∃ (r : Nat) (s : State), s.chip.leakDue r = true :=
  ⟨3, (tState [(F.bucket_level 3, 16), (F.bucket_leak_min 3, 1)] fun c => { c with now := 10 ^ 12 }), by decide +kernel⟩

theorem witness_BufferMemoryIsKept_4 : ∃ (r : Nat) (s : State), s.chip.leakDue r = false :=
  ⟨3, (tState [(F.bucket_leak_min 3, 1)]), by decide +kernel⟩

theorem witness_BufferMemoryIsKept_5 : ∃ (e : Nat) (s : State), s.chip.rd (F.dramCtrl_scrub_en e) = 1 ∧ (s.chip.dieSt e).out = false ∧ (s.chip.bufSt e).scrubNext + 1 < 7 * 2 ^ 24 ∧ s.chip.badBlock (e * 0x200000000 + 64 * (s.chip.bufSt e).scrubNext) = false :=
  ⟨1, (tState [(F.dramCtrl_scrub_en 1, 1)] fun c => c.modBuf 1 fun x => { x with scrubNext := 117440510 }), by decide +kernel⟩

theorem witness_BufferMemoryIsKept_6 : ∃ (e : Nat) (s : State), s.chip.rd (F.dramCtrl_scrub_en e) = 1 ∧ (s.chip.dieSt e).out = false ∧ (s.chip.bufSt e).scrubNext + 1 = 7 * 2 ^ 24 ∧ s.chip.badBlock (e * 0x200000000 + 64 * (s.chip.bufSt e).scrubNext) = false :=
  ⟨1, (tState [(F.dramCtrl_scrub_en 1, 1)] fun c => c.modBuf 1 fun x => { x with scrubNext := 117440511 }), by decide +kernel⟩

theorem witness_BufferMemoryIsKept_7 : ∃ (e : Nat) (err : Nat) (s : State), s.chip.rd (F.dramCtrl_scrub_en e) = 0 ∨ (s.chip.dieSt e).out = true :=
  ⟨0, 0, (tState [(F.dramCtrl_scrub_en 0, 0)]), by decide +kernel⟩

theorem witness_TilesAndSnoopUnitsAct_1 : ∃ (m : Nat) (k : Nat) (n : Nat) (bs : List Nat) (s : State), k < 2 ^ 21 ∧ n < 64 ∧ bs.length = 64 ∧ (s.chip.tileSt k).state = 1 ∧ (s.chip.tileSt k).beats.testBit n = false :=
  ⟨9, 2097151, 63, (List.range 64), (tState [] fun c => c.modTile 2097151 fun r => { r with state := 1 }), by decide +kernel⟩

theorem witness_TilesAndSnoopUnitsAct_2 : ∃ (m : Nat) (k : Nat) (off : Nat) (bs : List Nat) (s : State), (s.chip.tileSt k).state ≠ 1 ∨ (s.chip.tileSt k).beats.testBit (off / 64) = true :=
  ⟨0, 5, 0, default, (tState []), by decide +kernel⟩

theorem witness_TilesAndSnoopUnitsAct_3 : ∃ (k : Nat) (len : Nat) (s : State), k < 2 ^ 21 ∧ (s.chip.tileSt k).state = 1 ∧ (s.chip.dieSt (stackOf (tileAddr k))).out = false ∧ (s.chip.bufSt (stackOf (tileAddr k))).merge = [] :=
  ⟨2097151, 5000, ({ tState [] fun c => c.modTile 2097151 fun r => { r with state := 1, beats := 1 } with dram := [(12884897792, 7), (12884897856, 8)] }), by decide +kernel⟩

theorem witness_TilesAndSnoopUnitsAct_4 : ∃ (k : Nat) (len : Nat) (s : State), (s.chip.tileSt k).state ≠ 1 :=
  ⟨0, 0, (tState []), by decide +kernel⟩

theorem witness_TilesAndSnoopUnitsAct_5 : ∃ (m : Nat) (k : Nat) (use : Nat) (s : State), s.tileGood k = true :=
  ⟨0, 3, 0, tTile (tState []) 3, tTile_good _ _ (by decide +kernel)⟩

theorem witness_TilesAndSnoopUnitsAct_6 : ∃ (m : Nat) (k : Nat) (use : Nat) (s : State), k < 2 ^ 21 ∧ use < 8 ∧ s.tileGood k = false ∧ (s.chip.tileSt k).state = 2 ∧ s.chip.tileContext k = none :=
  ⟨1, 2097151, 6, tBadTile (tState []) 2097151, by decide +kernel, by decide +kernel, tBadTile_bad _ _, by simp only [tBadTile, Chip.tileSt, Chip.modTile, tabGet_mod_same], by decide +kernel⟩

theorem witness_TilesAndSnoopUnitsAct_7 : ∃ (k : Nat) (ok : Bool) (s : State), (s.chip.tileSt k).uses ≠ 0 :=
  ⟨5, default, (tState [] fun c => c.modTile 5 fun r => { r with state := 2, uses := 1 }), by decide +kernel⟩

theorem witness_TilesAndSnoopUnitsAct_8 : ∃ (k : Nat) (ok : Bool) (s : State), (s.chip.tileSt k).uses = 0 ∧ (s.chip.tileSt k).state ≤ 2 :=
  ⟨5, default, (tState [] fun c => c.modTile 5 fun r => { r with state := 2 }), by decide +kernel⟩

theorem witness_TilesAndSnoopUnitsAct_9 : ∃ (k : Nat) (s : State), k < 2 ^ 21 ∧ (s.chip.tileSt k).uses = 0 ∧ (s.chip.tileSt k).state = 3 :=
  ⟨2097151, (tState [] fun c => c.modTile 2097151 fun r => { r with state := 3 }), by decide +kernel⟩

theorem witness_TilesAndSnoopUnitsAct_10 : ∃ (k : Nat) (s : State), k < 2 ^ 21 ∧ (s.chip.tileSt k).uses = 0 ∧ (s.chip.tileSt k).state = 3 :=
  ⟨2097151, (tState [] fun c => c.modTile 2097151 fun r => { r with state := 3 }), by decide +kernel⟩

theorem witness_TilesAndSnoopUnitsAct_11 : ∃ (e : Nat) (u : Nat) (v : Nat) (s : State), u < 16 ∧ s.chip.rd (F.snoopCfg_en e u) = 0 :=
  ⟨1, 15, 18446744073709551615, (tState [(F.snoopCfg_poly 1 15, 3)] fun c => c.modBuf 1 fun x => { x with snoopCount := [(15, 8)] }), by decide +kernel⟩

theorem witness_TilesAndSnoopUnitsAct_12 : ∃ (e : Nat) (u : Nat) (v : Nat) (s : State), s.chip.rd (F.snoopCfg_en e u) = 1 :=
  ⟨1, 15, 5, (tState [(F.snoopCfg_en 1 15, 1)]), by decide +kernel⟩

theorem witness_TilesAndSnoopUnitsAct_13 : ∃ (e : Nat) (u : Nat) (s : State), tabGet (s.chip.bufSt e).snoopCount u < 2 ^ 64 :=
  ⟨1, 15, (tState [(F.snoopRun_run 1 15, 77)] fun c => c.modBuf 1 fun x => { x with snoopCount := [(15, 8)] }), by decide +kernel⟩

theorem witness_HostPortsComeAndGo_1 : ∃ (p : Nat) (fec : Bool) (s : State), p < 8 ∧ s.chip.rd (F.hostPort_exists p) = 1 ∧ s.chip.rd (F.hostPort_up p) = 0 ∧ (∀ l ∈ portLanes s.chip.host.modeNext p, (s.chip.dieSt (l / 4)).out = false) :=
  ⟨7, true, (tState [(F.hostPort_exists 7, 1), (F.hostCfg_fec_en, 1)] fun c => c.modHost fun h => { h with net := tabSet h.net 7 ⟨[1,2,3], []⟩ }), by decide +kernel⟩

theorem witness_HostPortsComeAndGo_2 : ∃ (p : Nat) (fec : Bool) (s : State), s.chip.rd (F.hostPort_exists p) = 0 ∨ s.chip.rd (F.hostPort_up p) = 1 ∨ (portLanes s.chip.host.modeNext p).any (fun l => (s.chip.dieSt (l / 4)).out) = true :=
  ⟨7, true, (tState []), by decide +kernel⟩

theorem witness_HostPortsComeAndGo_3 : ∃ (p : Nat) (s : State), p < 8 ∧ s.chip.rd (F.hostPort_up p) = 1 ∧ (∀ m ∈ s.chip.sky.masters, m.port ≠ p) :=
  ⟨7, (tState [(F.hostPort_up 7, 1)]), by decide +kernel⟩

theorem witness_HostPortsComeAndGo_4 : ∃ (p : Nat) (m : Master) (s : State), p < 8 ∧ s.chip.rd (F.hostPort_up p) = 1 ∧ s.chip.sky.masters = [m] ∧ m.port = p ∧ s.chip.rd F.skyStatus_state = 2 ∧ s.chip.rd F.skyStatus_source = 1 ∧ s.chip.tickPresent = false :=
  ⟨7, ⟨7, 2, 3, 1, 5⟩, (tState [(F.hostPort_up 7, 1), (F.skyStatus_state, 2), (F.skyStatus_source, 1)] fun c => { c with sky := { c.sky with masters := [⟨7, 2, 3, 1, 5⟩], selected := some ⟨7, 2, 3, 1, 5⟩ } }), by decide +kernel⟩

theorem witness_HostPortsComeAndGo_5 : ∃ (p : Nat) (s : State), s.chip.rd (F.hostPort_up p) = 0 :=
  ⟨7, (tState []), by decide +kernel⟩

theorem witness_HostPortsComeAndGo_6 : ∃ (p : Nat) (kind : Nat) (data : List Nat) (s : State), s.chip.rd (F.hostPort_up p) = 1 ∧ kind ≤ 2 :=
  ⟨7, 2, default, (tState [(F.hostPort_up 7, 1)]), by decide +kernel⟩

theorem witness_HostPortsComeAndGo_7 : ∃ (p : Nat) (kind : Nat) (data : List Nat) (s : State), s.chip.rd (F.hostPort_up p) = 0 ∨ kind = 3 ∨ kind = 4 :=
  ⟨7, 4, default, (tState [(F.hostPort_up 7, 1)]), by decide +kernel⟩

theorem witness_HostPortsComeAndGo_8 : ∃ (p : Nat) (kind : Nat) (data : List Nat) (s : State), s.chip.rd (F.hostPort_up p) = 1 ∧ 5 ≤ kind :=
  ⟨7, 5, default, (tState [(F.hostPort_up 7, 1), (F.hostPort_drops 7, 65535)]), by decide +kernel⟩

theorem witness_HandshakesEstablishSessions_1 : ∃ (port : Nat) (peer : Nat) (hostKey : Nat) (nonce : Nat) (cred : Nat) (n : Nat) (s : State), s.chip.trust.act = none ∧ (∀ h ∈ s.chip.host.shakes, h.hostKey ≠ hostKey ∨ h.nonce ≠ nonce) ∧ s.chip.helloAccepted cred = true ∧ s.chip.liveSessions.length < 256 ∧ s.chip.host.shakes.length < 16 ∧ s.chip.freeSession = some n :=
  ⟨7, 0, 9, 8, 0, 2, (tState [] fun c => { c with host := { c.host with shakes := [⟨1, 9, 7, 5, 0, 0, 0, 0, 0, [], 0⟩] } }), by decide +kernel⟩

theorem witness_HandshakesEstablishSessions_2 : ∃ (port : Nat) (peer : Nat) (hostKey : Nat) (nonce : Nat) (cred : Nat) (s : State), s.chip.trust.act = none ∧ (∀ h ∈ s.chip.host.shakes, h.hostKey ≠ hostKey ∨ h.nonce ≠ nonce) ∧ s.chip.helloAccepted cred = false :=
  ⟨0, 0, 0, 0, 4, (tState []), by decide +kernel⟩

theorem witness_HandshakesEstablishSessions_3 : ∃ (port : Nat) (peer : Nat) (hostKey : Nat) (nonce : Nat) (cred : Nat) (h : Handshake) (s : State), s.chip.trust.act = none ∧ s.chip.host.shakes.find? (fun h => h.hostKey == hostKey && h.nonce == nonce) = some h :=
  ⟨0, 0, 9, 7, 0, ⟨1, 9, 7, 5, 0, 0, 0, 0, 0, [3], 0⟩, (tState [] fun c => { c with host := { c.host with shakes := [⟨1, 9, 7, 5, 0, 0, 0, 0, 0, [3], 0⟩] } }), by decide +kernel⟩

theorem witness_HandshakesEstablishSessions_4 : ∃ (port : Nat) (peer : Nat) (hostKey : Nat) (nonce : Nat) (cred : Nat) (a : Activation) (s : State), s.chip.trust.act = some a :=
  ⟨0, 0, 0, 0, 0, ⟨0, 1, 1, 0, []⟩, (tState [] fun c => { c with trust := { c.trust with act := some ⟨0, 1, 1, 0, []⟩ } }), by decide +kernel⟩

theorem witness_HandshakesEstablishSessions_5 : ∃ (n : Nat) (sigOk : Bool) (h : Handshake) (s : State), 1 ≤ n ∧ n ≤ 256 ∧ s.chip.host.shakes.find? (fun h => h.session == n) = some h ∧ (sigOk = true ∨ h.cred = 0) :=
  ⟨256, default, ⟨256, 9, 7, 0, 0, 0, 0, 77, 0, [3], 0⟩, (tState [(F.qdef_ctx_max, 4095)] fun c => { c with host := { c.host with shakes := [⟨256, 9, 7, 0, 0, 0, 0, 77, 0, [3], 0⟩] } }), by decide +kernel⟩

theorem witness_HandshakesEstablishSessions_6 : ∃ (n : Nat) (sigOk : Bool) (tagOk : Bool) (s : State), tagOk = false ∨ s.chip.host.shakes.find? (fun h => h.session == n) = none :=
  ⟨256, default, true, (tState []), by decide +kernel⟩

theorem witness_CommandsComeAndAreStored_2 : ∃ (session : Nat) (seq : Nat) (port : Nat) (peer : Nat) (queue : Nat) (ctx : Nat) (tag : Nat) (payload : List Nat) (s : State), (s.chip.sess session).live = true ∧ (seq + 1024 ≤ (s.chip.sess session).high ∨ seq ∈ (s.chip.sess session).seen) ∧ s.chip.rd (F.use_frozen (session - 1)) = 1 :=
  ⟨256, 0, 0, 0, 0, 0, 0, default, (tState [(F.use_frozen 255, 1)] fun c => c.modSess 256 fun x => { x with live := true, high := 1024 }), by decide +kernel⟩

theorem witness_CommandsComeAndAreStored_3 : ∃ (session : Nat) (seq : Nat) (port : Nat) (peer : Nat) (queue : Nat) (ctx : Nat) (tag : Nat) (payload : List Nat) (s : State), (s.chip.sess session).live = true ∧ (seq + 1024 ≤ (s.chip.sess session).high ∨ seq ∈ (s.chip.sess session).seen) ∧ s.chip.rd (F.use_frozen (session - 1)) = 0 ∧ (s.chip.sess session).second = s.chip.keeper / 10 ^ 9 ∧ (s.chip.sess session).replayBreach < s.chip.rd F.qcpBreach_replay_max :=
  ⟨256, 1024, 0, 0, 0, 0, 0, default, (tState [(F.qcpBreach_replay_max, 3)] fun c => c.modSess 256 fun x => { x with live := true, seen := [1024], high := 1024 }), by decide +kernel⟩

theorem witness_CommandsComeAndAreStored_4 : ∃ (session : Nat) (seq : Nat) (port : Nat) (peer : Nat) (queue : Nat) (ctx : Nat) (tag : Nat) (payload : List Nat) (s : State), (s.chip.sess session).live = true ∧ (s.chip.sess session).high < seq ∧ seq ∉ (s.chip.sess session).seen ∧ s.chip.rd (F.use_frozen (session - 1)) = 1 :=
  ⟨256, 1025, 0, 0, 0, 0, 0, default, (tState [(F.use_frozen 255, 1)] fun c => c.modSess 256 fun x => { x with live := true, seen := [1024], high := 1024 }), by decide +kernel⟩

theorem witness_CommandsComeAndAreStored_5 : ∃ (session : Nat) (seq : Nat) (port : Nat) (peer : Nat) (queue : Nat) (ctx : Nat) (tag : Nat) (payload : List Nat) (s : State), (s.chip.sess session).live = true ∧ (s.chip.sess session).high < seq ∧ seq ∉ (s.chip.sess session).seen ∧ s.chip.rd (F.use_frozen (session - 1)) = 0 ∧ (s.chip.sess session).queues.testBit queue = false :=
  ⟨256, 1025, 0, 0, 15, 0, 0, default, (tState [] fun c => c.modSess 256 fun x => { x with live := true, seen := [1024], high := 1024, queues := 32767 }), by decide +kernel⟩

theorem witness_CommandsComeAndAreStored_6 : ∃ (session : Nat) (seq : Nat) (port : Nat) (peer : Nat) (queue : Nat) (ctx : Nat) (tag : Nat) (payload : List Nat) (s : State), (s.chip.sess session).live = true ∧ (s.chip.sess session).high < seq ∧ seq ∉ (s.chip.sess session).seen ∧ s.chip.rd (F.use_frozen (session - 1)) = 0 ∧ (s.chip.sess session).queues.testBit queue = true ∧ (s.chip.ctxSt session ctx).phase = .free ∧ tabGet (s.chip.sess session).lastTag ctx ≠ tag + 1 ∧ s.chip.rd (F.quota_ctx_max (session - 1)) ≤ ctx :=
  ⟨256, 1025, 0, 0, 15, 256, 0, default, (tState [] fun c => c.modSess 256 fun x => { x with live := true, seen := [1024], high := 1024, queues := 32768 }), by decide +kernel⟩

theorem witness_CommandsComeAndAreStored_7 : ∃ (session : Nat) (seq : Nat) (port : Nat) (peer : Nat) (queue : Nat) (ctx : Nat) (tag : Nat) (hw : Nat) (payload : List Nat) (s : State), (s.chip.sess session).live = true ∧ session ≤ 256 ∧ (s.chip.sess session).high < seq ∧ seq ∉ (s.chip.sess session).seen ∧ s.chip.rd (F.use_frozen (session - 1)) = 0 ∧ (s.chip.sess session).queues.testBit queue = true ∧ (s.chip.ctxSt session ctx).phase = .free ∧ tabGet (s.chip.sess session).lastTag ctx ≠ tag + 1 ∧ ctx < s.chip.rd (F.quota_ctx_max (session - 1)) ∧ (s.chip.sess session).heldCount < s.chip.rd (F.quota_ctx_max (session - 1)) ∧ s.chip.freeHw = some hw ∧ payload.length = 64 ∧ (opRow (payload.getD 0 0)).isSome = true ∧ payload.getD 0 0 < 256 :=
  ⟨256, 1025, 0, 0, 15, 255, 0, 0, (0x68 :: List.replicate 63 0), (tState [] fun c => c.modSess 256 fun x => { x with live := true, seen := [1024], high := 1024, queues := 32768 }), by decide +kernel⟩

theorem witness_CommandsComeAndAreStored_8 : ∃ (session : Nat) (seq : Nat) (port : Nat) (peer : Nat) (queue : Nat) (ctx : Nat) (tag : Nat) (hw : Nat) (payload : List Nat) (s : State), (s.chip.sess session).live = true ∧ session ≤ 256 ∧ (s.chip.sess session).high < seq ∧ seq ∉ (s.chip.sess session).seen ∧ s.chip.rd (F.use_frozen (session - 1)) = 0 ∧ (s.chip.sess session).queues.testBit queue = true ∧ (s.chip.ctxSt session ctx).phase = .free ∧ tabGet (s.chip.sess session).lastTag ctx ≠ tag + 1 ∧ ctx < s.chip.rd (F.quota_ctx_max (session - 1)) ∧ (s.chip.sess session).heldCount < s.chip.rd (F.quota_ctx_max (session - 1)) ∧ s.chip.freeHw = some hw ∧ payload.length = 64 ∧ payload.getD 0 0 = 0x69 :=
  ⟨256, 1025, 0, 0, 15, 255, 0, 0, (0x69 :: List.replicate 63 0), (tState [] fun c => c.modSess 256 fun x => { x with live := true, seen := [1024], high := 1024, queues := 32768 }), by decide +kernel⟩

theorem witness_CommandsComeAndAreStored_9 : ∃ (session : Nat) (seq : Nat) (port : Nat) (peer : Nat) (queue : Nat) (ctx : Nat) (tag : Nat) (payload : List Nat) (st : List Nat) (s : State), (s.chip.sess session).live = true ∧ (s.chip.sess session).high < seq ∧ seq ∉ (s.chip.sess session).seen ∧ s.chip.rd (F.use_frozen (session - 1)) = 0 ∧ (s.chip.sess session).queues.testBit queue = true ∧ (s.chip.ctxSt session ctx).phase = .free ∧ tabGet (s.chip.sess session).lastTag ctx = tag + 1 ∧ (s.chip.ctxSt session ctx).status = some st :=
  ⟨256, 1025, 0, 0, 0, 255, 0, default, [5], (tState [] fun c => c.modSess 256 fun x => { x with live := true, high := 1024, queues := 1, lastTag := [(255, 1)], ctx := [(255, { (default : CtxSt) with status := some [5] })] }), by decide +kernel⟩

theorem witness_PhasePacketsAndQuotas_1 : ∃ (n : Nat) (seq : Nat) (port : Nat) (peer : Nat) (ctx : Nat) (tag : Nat) (start : Nat) (stop : Nat) (tl : Nat) (s : State), s.tileGood tl = true ∧ (s.chip.sess n).live = true ∧ (s.chip.sess n).high < seq ∧ seq ∉ (s.chip.sess n).seen ∧ s.chip.rd (F.use_frozen (n - 1)) = 0 ∧ (s.chip.ctxSt n ctx).phase = .retained ∧ (s.chip.ctxSt n ctx).cmd.tag = tag ∧ (s.chip.ctxSt n ctx).tiles = [tl] ∧ (s.chip.ctxSt n ctx).wait = .nothing ∧ (s.chip.ctxSt n ctx).got = [] ∧ start < stop ∧ stop ≤ (s.chip.ctxSt n ctx).cmd.dlen ∧ stop ≤ 4096 :=
  ⟨256, 5, 0, 0, 255, 3, 100, 200, 2097151, tTile { (tState [] fun c => c.modSess 256 fun x => { x with live := true, high := 4, ctx := [(255, { (default : CtxSt) with phase := .retained, tiles := [2097151], cmd := { (default : Cmd) with tag := 3, dlen := 200 } })] }) with dram := [(tileAddr 2097151 + 101, 44)] } 2097151, tTile_good _ _ (by decide +kernel), by decide +kernel⟩

theorem witness_PhasePacketsAndQuotas_2 : ∃ (n : Nat) (seq : Nat) (port : Nat) (peer : Nat) (ctx : Nat) (tag : Nat) (start : Nat) (stop : Nat) (s : State), (s.chip.sess n).live = true ∧ (s.chip.sess n).high < seq ∧ seq ∉ (s.chip.sess n).seen ∧ s.chip.rd (F.use_frozen (n - 1)) = 0 ∧ (s.chip.ctxSt n ctx).phase = .free ∧ tabGet (s.chip.sess n).lastTag ctx = tag + 1 :=
  ⟨256, 5, 0, 0, 255, 3, 0, 0, (tState [] fun c => c.modSess 256 fun x => { x with live := true, high := 4, lastTag := [(255, 4)] }), by decide +kernel⟩

theorem witness_PhasePacketsAndQuotas_3 : ∃ (n : Nat) (seq : Nat) (port : Nat) (peer : Nat) (ctx : Nat) (tag : Nat) (s : State), (s.chip.sess n).live = true ∧ (s.chip.sess n).high < seq ∧ seq ∉ (s.chip.sess n).seen ∧ s.chip.rd (F.use_frozen (n - 1)) = 0 ∧ (s.chip.ctxSt n ctx).phase = .retained ∧ (s.chip.ctxSt n ctx).cmd.tag = tag ∧ (∀ t ∈ (s.chip.ctxSt n ctx).tiles, (tabGet s.chip.tiles t).state ≠ 3 ∧ (tabGet s.chip.tiles t).uses = 0) :=
  ⟨256, 5, 0, 0, 255, 3, (tState [] fun c => { (c.modSess 256 fun x => { x with live := true, high := 4, ctx := [(255, { (default : CtxSt) with phase := .retained, tiles := [2097151], cmd := { (default : Cmd) with tag := 3, dlen := 200 } })] }) with tiles := [(2097151, { (default : TileRec) with state := 2 })] }), by decide +kernel⟩

theorem witness_PhasePacketsAndQuotas_4 : ∃ (n : Nat) (seq : Nat) (port : Nat) (peer : Nat) (ctx : Nat) (tag : Nat) (s : State), (s.chip.sess n).live = true ∧ (s.chip.sess n).high < seq ∧ seq ∉ (s.chip.sess n).seen ∧ s.chip.rd (F.use_frozen (n - 1)) = 0 ∧ (s.chip.ctxSt n ctx).phase = .free ∧ (s.chip.sess n).second = s.chip.keeper / 10 ^ 9 ∧ s.chip.rd F.qcpBreach_data_max ≤ (s.chip.sess n).dataBreach ∧ n ≤ 256 :=
  ⟨256, 5, 0, 0, 255, 3, (tState [] fun c => c.modSess 256 fun x => { x with live := true, high := 4, dataBreach := 64 }), by decide +kernel⟩

theorem witness_PhasePacketsAndQuotas_5 : ∃ (n : Nat) (seq : Nat) (port : Nat) (peer : Nat) (number : Nat) (sub : SubSt) (s : State), (s.chip.sess n).live = true ∧ (s.chip.sess n).high < seq ∧ seq ∉ (s.chip.sess n).seen ∧ s.chip.rd (F.use_frozen (n - 1)) = 0 ∧ tabGet s.chip.ev.subs (n - 1) = some sub :=
  ⟨256, 5, 0, 0, 9, default, (tState [] fun c => { (c.modSess 256 fun x => { x with live := true, high := 4 }) with ev := { c.ev with subs := tabSet c.ev.subs 255 (some default) } }), by decide +kernel⟩

theorem witness_PhasePacketsAndQuotas_6 : ∃ (n : Nat) (x : Nat) (start : Nat) (stop : Nat) (tl : Nat) (s : State), (s.chip.ctxSt n x).phase = .active ∧ (s.chip.ctxSt n x).wait = .dataOut ∧ start < stop ∧ stop ≤ (s.chip.ctxSt n x).cmd.dlen ∧ stop ≤ 4096 ∧ s.chip.rd (F.use_frozen (n - 1)) = 0 ∧ (s.chip.ctxSt n x).tiles = [] ∧ s.chip.chooseTiles (s.chip.sess n).die 1 = [tl] :=
  ⟨256, 255, 0, 4096, 1048576, (tState [] fun c => c.modSess 256 fun x => { x with live := true, die := 1, ctx := [(255, { (default : CtxSt) with phase := .active, wait := .dataOut, cmd := { (default : Cmd) with tag := 3, dlen := 5000 } })] }), by decide +kernel⟩

theorem witness_PhasePacketsAndQuotas_7 : ∃ (n : Nat) (moss : Nat) (ctxMax : Nat) (share : Nat) (cap : Nat) (s : State), 1 ≤ n ∧ n ≤ 256 ∧ moss < 2 ^ 16 ∧ 1 ≤ ctxMax ∧ ctxMax < 2 ^ 12 ∧ 1 ≤ share ∧ share < 2 ^ 8 ∧ cap < 2 ^ 12 :=
  ⟨256, 65535, 1, 255, 4095, (tState [] fun c => c.modSess 256 fun x => { x with live := true, ctx := [(0, { (default : CtxSt) with phase := .active }), (1, { (default : CtxSt) with phase := .active })] }), by decide +kernel⟩

theorem witness_PtpAcquiresAndHoldsSkyTime_1 : ∃ (port : Nat) (clockId : Nat) (dataset : Nat) (syncLog : Int) (s : State), port < 8 ∧ clockId < 2 ^ 64 ∧ -7 ≤ syncLog ∧ syncLog ≤ 1 ∧ s.chip.rd (F.hostPort_up port) = 1 ∧ s.chip.sky.masters = [] ∧ s.chip.rd F.skyStatus_gm_seen = 0 ∧ s.chip.rd F.skyStatus_state = 0 :=
  ⟨7, 2 ^ 64 - 1, 3, -7, (tState [(F.hostPort_up 7, 1)]), by decide +kernel⟩

theorem witness_PtpAcquiresAndHoldsSkyTime_2 : ∃ (port : Nat) (domain : Nat) (clockId : Nat) (dataset : Nat) (syncLog : Int) (s : State), domain ≠ s.chip.rd F.skyCtrl_domain ∨ s.chip.rd (F.hostPort_up port) = 0 ∨ syncLog < -7 ∨ 1 < syncLog :=
  ⟨0, 1, 0, 0, 0, (tState []), by decide +kernel⟩

theorem witness_PtpAcquiresAndHoldsSkyTime_3 : ∃ (offset : Int) (estimate : Nat) (m : Master) (s : State), s.chip.sky.selected = some m ∧ s.chip.rd F.skyStatus_state = 1 ∧ s.chip.sky.stepped = false ∧ -2 ^ 31 ≤ offset ∧ offset < 2 ^ 31 :=
  ⟨-2147483648, 77, ⟨1, 2, 3, 0, 5⟩, (tState [(F.skyStatus_state, 1)] fun c => { c with now := 99, sky := { c.sky with selected := some ⟨1, 2, 3, 0, 5⟩ } }), by decide +kernel⟩

theorem witness_PtpAcquiresAndHoldsSkyTime_4 : ∃ (offset : Int) (estimate : Nat) (m : Master) (s : State), s.chip.sky.selected = some m ∧ s.chip.rd F.skyStatus_state = 1 ∧ s.chip.sky.stepped = true ∧ offset.natAbs ≤ 4000 ∧ s.chip.sky.good < 15 :=
  ⟨-4000, 0, ⟨1, 2, 3, 0, 5⟩, (tState [(F.skyStatus_state, 1)] fun c => { c with now := 99, sky := { c.sky with selected := some ⟨1, 2, 3, 0, 5⟩, stepped := true, good := 14 } }), by decide +kernel⟩

theorem witness_PtpAcquiresAndHoldsSkyTime_5 : ∃ (offset : Int) (estimate : Nat) (m : Master) (s : State), s.chip.sky.selected = some m ∧ s.chip.rd F.skyStatus_state = 1 ∧ s.chip.sky.stepped = true ∧ 4000 < offset.natAbs :=
  ⟨-4001, 0, ⟨1, 2, 3, 0, 5⟩, (tState [(F.skyStatus_state, 1)] fun c => { c with now := 99, sky := { c.sky with selected := some ⟨1, 2, 3, 0, 5⟩, stepped := true, good := 14 } }), by decide +kernel⟩

theorem witness_PtpAcquiresAndHoldsSkyTime_6 : ∃ (offset : Int) (estimate : Nat) (m : Master) (s : State), s.chip.sky.selected = some m ∧ s.chip.rd F.skyStatus_state = 1 ∧ s.chip.sky.stepped = true ∧ offset.natAbs ≤ 4000 ∧ s.chip.sky.good = 15 :=
  ⟨4000, 0, ⟨1, 2, 3, 0, 5⟩, (tState [(F.skyStatus_state, 1)] fun c => { c with now := 99, sky := { c.sky with selected := some ⟨1, 2, 3, 0, 5⟩, stepped := true, good := 15, lastUsed := some 98 } }), by decide +kernel⟩

theorem witness_PtpAcquiresAndHoldsSkyTime_7 : ∃ (offset : Int) (estimate : Nat) (m : Master) (s : State), s.chip.sky.selected = some m ∧ s.chip.rd F.skyStatus_state = 3 ∧ offset.natAbs ≤ 40000 :=
  ⟨40000, 0, ⟨1, 2, 3, 0, 5⟩, (tState [(F.skyStatus_state, 3)] fun c => { c with now := 99, sky := { c.sky with selected := some ⟨1, 2, 3, 0, 5⟩ } }), by decide +kernel⟩

theorem witness_PtpAcquiresAndHoldsSkyTime_8 : ∃ (offset : Int) (estimate : Nat) (m : Master) (s : State), s.chip.sky.selected = some m ∧ s.chip.rd F.skyStatus_state = 2 ∧ s.chip.rd F.skyStatus_source = 1 ∧ 40000 < offset.natAbs ∧ 3 ≤ s.chip.sky.bad ∧ s.chip.launches = [] :=
  ⟨-40001, 0, ⟨1, 2, 3, 0, 5⟩, (tState [(F.skyStatus_state, 2), (F.skyStatus_valid, 1), (F.skyStatus_source, 1)] fun c => { c with now := 99, sky := { c.sky with bad := 3, selected := some ⟨1, 2, 3, 0, 5⟩ } }), by decide +kernel⟩

theorem witness_PtpAcquiresAndHoldsSkyTime_9 : ∃ (offset : Int) (estimate : Nat) (s : State), s.chip.sky.selected = none :=
  ⟨0, 0, (tState []), by decide +kernel⟩

theorem witness_PtpAcquiresAndHoldsSkyTime_10 : ∃ (m : Master) (s : State), s.chip.sky.selected = some m ∧ s.chip.now < m.lastSync + fourSyncs m.syncLog :=
  ⟨⟨1, 2, 3, -7, 5⟩, (tState [] fun c => { c with now := 31250004, sky := { c.sky with selected := some ⟨1, 2, 3, -7, 5⟩ } }), by decide +kernel⟩

theorem witness_PtpAcquiresAndHoldsSkyTime_11 : ∃ (m : Master) (s : State), s.chip.sky.selected = some m ∧ s.chip.sky.masters = [m] ∧ m.lastSync + fourSyncs m.syncLog ≤ s.chip.now ∧ s.chip.rd F.skyStatus_state = 2 ∧ s.chip.rd F.skyStatus_source = 1 ∧ s.chip.tickPresent = false :=
  ⟨⟨1, 2, 3, 1, 5⟩, (tState [(F.skyStatus_state, 2), (F.skyStatus_source, 1)] fun c => { c with now := 8000000005, sky := { c.sky with masters := [⟨1, 2, 3, 1, 5⟩], selected := some ⟨1, 2, 3, 1, 5⟩ } }), by decide +kernel⟩

theorem witness_PtpAcquiresAndHoldsSkyTime_12 : ∃ (m : Master) (s : State), s.chip.sky.selected = some m ∧ s.chip.sky.masters = [m] ∧ m.lastSync + fourSyncs m.syncLog ≤ s.chip.now ∧ s.chip.rd F.skyStatus_state = 1 :=
  ⟨⟨1, 2, 3, 1, 5⟩, (tState [(F.skyStatus_state, 1)] fun c => { c with now := 8000000005, sky := { c.sky with masters := [⟨1, 2, 3, 1, 5⟩], selected := some ⟨1, 2, 3, 1, 5⟩ } }), by decide +kernel⟩

theorem witness_PtpAcquiresAndHoldsSkyTime_13 : ∃ (s : State), s.chip.rd F.skyStatus_state = 3 ∧ s.chip.sky.holdSince + s.chip.rd F.skyCtrl_hold_s * 10 ^ 9 ≤ s.chip.now ∧ s.chip.launches = [] :=
  ⟨(tState [(F.skyStatus_state, 3)] fun c => { c with now := 10000000000 }), by decide +kernel⟩

theorem witness_PtpAcquiresAndHoldsSkyTime_14 : ∃ (s : State), s.chip.rd F.skyStatus_state ≠ 3 ∨ s.chip.now < s.chip.sky.holdSince + s.chip.rd F.skyCtrl_hold_s * 10 ^ 9 :=
  ⟨(tState []), by decide +kernel⟩

theorem witness_SkyTicksCarrySkyTime_1 : ∃ (width : Nat) (frac : Nat) (s : State), s.chip.rd F.chain_head = 1 ∨ s.chip.rd F.skyCtrl_tick_en = 0 ∨ s.chip.chain.hasHop = false :=
  ⟨100, 0, (tState []), by decide +kernel⟩

theorem witness_SkyTicksCarrySkyTime_2 : ∃ (width : Nat) (frac : Nat) (s : State), s.chip.rd F.chain_head = 0 ∧ s.chip.rd F.skyCtrl_tick_en = 1 ∧ s.chip.chain.hasHop = true ∧ width < 50 :=
  ⟨49, 0, (tState [] fun c => { c with chain := { c.chain with hasHop := true } }), by decide +kernel⟩

theorem witness_SkyTicksCarrySkyTime_3 : ∃ (width : Nat) (frac : Nat) (s : State), s.chip.rd F.chain_head = 0 ∧ s.chip.rd F.skyCtrl_tick_en = 1 ∧ s.chip.chain.hasHop = true ∧ 50 ≤ width ∧ width < 200 ∧ s.chip.sky.lastEdge = none ∧ s.chip.sky_ % 10 ^ 6 = 0 ∧ s.chip.rd F.chain_hop_delay = frac % 4 ∧ s.chip.rd F.skyStatus_state < 2 :=
  ⟨50, 7, (tState [(F.chain_hop_delay, 3)] fun c => { c with chain := { c.chain with hasHop := true } }), by decide +kernel⟩

theorem witness_SkyTicksCarrySkyTime_4 : ∃ (width : Nat) (frac : Nat) (s : State), s.chip.rd F.chain_head = 0 ∧ s.chip.rd F.skyCtrl_tick_en = 1 ∧ s.chip.chain.hasHop = true ∧ 200 ≤ width ∧ s.chip.sky.lastEdge = none ∧ s.chip.sky_ % 10 ^ 9 = 0 ∧ s.chip.rd F.chain_hop_delay = frac % 4 ∧ s.chip.rd F.skyStatus_state = 2 ∧ s.chip.rd F.skyStatus_source = 1 :=
  ⟨200, 7, (tState [(F.chain_hop_delay, 3), (F.skyStatus_state, 2), (F.skyStatus_source, 1)] fun c => { c with chain := { c.chain with hasHop := true } }), by decide +kernel⟩

theorem witness_SkyTicksCarrySkyTime_5 : ∃ (width : Nat) (frac : Nat) (s : State), s.chip.rd F.chain_head = 0 ∧ s.chip.rd F.skyCtrl_tick_en = 1 ∧ s.chip.chain.hasHop = true ∧ 200 ≤ width ∧ s.chip.sky.lastEdge = none ∧ s.chip.sky_ % 10 ^ 9 = 10 ^ 6 ∧ s.chip.rd F.chain_hop_delay = frac % 4 ∧ s.chip.rd F.skyStatus_state < 2 :=
  ⟨200, 7, (tState [(F.chain_hop_delay, 3)] fun c => { c with now := 10 ^ 6, chain := { c.chain with hasHop := true } }), by decide +kernel⟩

theorem witness_SkyTicksCarrySkyTime_6 : ∃ (s : State), s.chip.rd F.skyStatus_tick_seen = 1 ∧ s.chip.tickPresent = false ∧ s.chip.rd F.skyStatus_state = 2 ∧ s.chip.rd F.skyStatus_source = 2 ∧ s.chip.sky.selected = none :=
  ⟨(tState [(F.skyStatus_state, 2), (F.skyStatus_source, 2), (F.skyStatus_tick_seen, 1)]), by decide +kernel⟩

theorem witness_SkyTicksCarrySkyTime_7 : ∃ (m : Master) (s : State), s.chip.rd F.skyStatus_tick_seen = 1 ∧ s.chip.tickPresent = false ∧ s.chip.rd F.skyStatus_state = 2 ∧ s.chip.rd F.skyStatus_source = 2 ∧ s.chip.sky.selected = some m ∧ s.chip.now < m.lastSync + fourSyncs m.syncLog :=
  ⟨⟨1, 2, 3, 1, 5⟩, (tState [(F.skyStatus_state, 2), (F.skyStatus_source, 2), (F.skyStatus_tick_seen, 1)] fun c => { c with sky := { c.sky with selected := some ⟨1, 2, 3, 1, 5⟩ } }), by decide +kernel⟩

theorem witness_SkyTicksCarrySkyTime_8 : ∃ (s : State), s.chip.rd F.skyStatus_tick_seen = 0 ∨ s.chip.tickPresent = true :=
  ⟨(tState []), by decide +kernel⟩

theorem witness_SkyTicksCarrySkyTime_9 : ∃ (s : State), s.chip.rd F.skyStatus_valid = 1 ∧ s.chip.rd F.skyCtrl_tick_out = 1 ∧ s.chip.sky_ / 10 ^ 6 ≠ s.chip.sky.lastTick ∧ s.chip.msBefore ≠ s.chip.sky_ / 10 ^ 6 :=
  ⟨(tState [(F.skyStatus_valid, 1)] fun c => { c with sky := { c.sky with lastTick := 5, clock := [(0, ⟨10 ^ 6 * 2 ^ 48, 0, 0⟩)] } }), by decide +kernel⟩

theorem witness_SkyTicksCarrySkyTime_10 : ∃ (s : State), s.chip.rd F.skyStatus_valid = 0 ∨ s.chip.rd F.skyCtrl_tick_out = 0 ∨ s.chip.sky_ / 10 ^ 6 = s.chip.sky.lastTick ∨ s.chip.msBefore = s.chip.sky_ / 10 ^ 6 :=
  ⟨(tState []), by decide +kernel⟩

theorem witness_SkyTicksCarrySkyTime_11 : ∃ (s : State), (s.chip.dieSt 0).out = false ∧ (s.chip.dieSt 1).out = false ∧ s.chip.skyUnits 0 ≤ s.chip.skyUnits 1 + 2 ^ 49 ∧ s.chip.skyUnits 1 ≤ s.chip.skyUnits 0 + 2 ^ 49 :=
  ⟨(tState [] fun c => { c with now := 4, sky := { c.sky with clock := [(0, ⟨2 ^ 49, 4, 5⟩)] } }), by decide +kernel⟩

theorem witness_SkyTicksCarrySkyTime_12 : ∃ (s : State), (s.chip.dieSt 0).out = false ∧ (s.chip.dieSt 1).out = false ∧ s.chip.skyUnits 1 + 2 ^ 49 < s.chip.skyUnits 0 :=
  ⟨(tState [] fun c => { c with now := 4, sky := { c.sky with clock := [(0, ⟨3 * 2 ^ 49 + 1, 4, 5⟩)] } }), by decide +kernel⟩

theorem witness_SupplyAndTemperatureAct_1 : ∃ (s : State), s.chip.power.pfail = none ∧ s.chip.NoBurn ∧ (s.chip.dieSt 0).out = false ∧ s.chip.lichen.stopped = false ∧ s.chip.frozenRecord = false :=
  ⟨(tState [] fun c => { c with now := 5 }), by simp only [Chip.NoBurn]; decide +kernel⟩

theorem witness_SupplyAndTemperatureAct_2 : ∃ (s : State), s.chip.power.pfail.isSome = true :=
  ⟨(tState [] fun c => { c with power := { c.power with pfail := some 3 } }), by decide +kernel⟩

theorem witness_SupplyAndTemperatureAct_3 : ∃ (p : List Nat) (q : List Nat) (s : State), s.chip.power.copying = false :=
  ⟨[0], [], (tState []), by decide +kernel⟩

theorem witness_SupplyAndTemperatureAct_4 : ∃ (k : Nat) (s : State), s.chip.power.copying = true ∧ s.chip.power.resetLow = false ∧ s.chip.power.tripped = false ∧ s.chip.rd F.mossStatus_mounted = 1 ∧ s.chip.ring 0 ≠ [] ∧ s.chip.copyTarget 0 (k / 8) (k % 8) 0 = true :=
  ⟨8, (tPool [] (fun m => m) fun c => { (c.modChan 1 fun k => k).lichenWrite 0x0400 (diePath 0) [] with power := { c.power with copying := true } }), by decide +kernel⟩

theorem witness_SupplyAndTemperatureAct_5 : ∃ (p : List Nat) (q : List Nat) (s : State), s.chip.power.copying = true ∧ s.chip.power.resetLow = false ∧ s.chip.power.tripped = false ∧ s.chip.rd F.mossStatus_mounted = 0 :=
  ⟨[8], [], (tState [] fun c => { c with power := { c.power with copying := true } }), by decide +kernel⟩

theorem witness_SupplyAndTemperatureAct_6 : ∃ (p : List Nat) (q : List Nat) (s : State), s.chip.power.copying = true ∧ s.chip.power.resetLow = true ∧ s.chip.power.tripped = false ∧ s.chip.NoBurn :=
  ⟨[8], [], (tState [(F.otp_seals, 3), (F.hostPort_up 7, 1)] fun c => { c with power := { c.power with copying := true, resetLow := true } }), by simp only [Chip.NoBurn]; decide +kernel⟩

theorem witness_SupplyAndTemperatureAct_7 : ∃ (p : List Nat) (q : List Nat) (s : State), s.chip.power.copying = false ∧ s.chip.power.tripped = false ∧ s.chip.NoBurn :=
  ⟨[8], [], (tState [(F.otp_seals, 3), (F.hostPort_up 7, 1)]), by simp only [Chip.NoBurn]; decide +kernel⟩

theorem witness_SupplyAndTemperatureAct_8 : ∃ (which : Nat) (f : Fld) (s : State), which < 2 ∧ f = (if which = 0 then F.clk_dref0_ok else F.clk_dref1_ok) ∧ (∀ d < 24, s.chip.rd (F.hlinkStatus_state d) ≠ 5) :=
  ⟨1, F.clk_dref1_ok, (tState [(F.clk_dref1_ok, 1)]), by decide +kernel⟩

theorem witness_SupplyAndTemperatureAct_9 : ∃ (which : Nat) (f : Fld) (s : State), (which = 2 ∨ which = 3) ∧ f = (if which = 2 then F.clk_href0_ok else F.clk_href1_ok) ∧ (∀ p < 8, s.chip.rd (F.hostPort_up p) = 0) :=
  ⟨3, F.clk_href1_ok, (tState [(F.clk_href1_ok, 1)]), by decide +kernel⟩

theorem witness_SupplyAndTemperatureAct_11 : ∃ (which : Nat) (s : State), 4 < which :=
  ⟨5, (tState []), by decide +kernel⟩

theorem witness_SupplyAndTemperatureAct_12 : ∃ (e : Nat) (temp : Int) (s : State), temp < 460 ∨ s.chip.power.tripped = true :=
  ⟨0, 459, (tState []), by decide +kernel⟩

theorem witness_SupplyAndTemperatureAct_13 : ∃ (e : Nat) (temp : Int) (s : State), e < 2 ∧ 460 ≤ temp ∧ temp < 2 ^ 15 ∧ s.chip.power.tripped = false ∧ s.chip.power.pfail = none ∧ s.chip.NoBurn :=
  ⟨1, 460, (tState []), by simp only [Chip.NoBurn]; decide +kernel⟩

theorem witness_PowerStatesFollowUse_1 : ∃ (s : State), s.chip.rd F.pwrStatus_state = 0 ∧ s.chip.power.haze = true ∧ s.chip.rd F.pwrCtrl_haze_s ≠ 0 ∧ (∀ d < 24, s.chip.driveActive d = false) ∧ (∀ d < 24, s.chip.rd (F.hlinkStatus_state d) ≠ 5) :=
  ⟨(tState [] fun c => { c with power := { c.power with haze := true } }), by decide +kernel⟩

theorem witness_PowerStatesFollowUse_2 : ∃ (s : State), s.chip.rd F.pwrStatus_state = 0 ∧ s.chip.power.haze = true ∧ s.chip.rd F.pwrCtrl_haze_s ≠ 0 ∧ (∀ d < 24, s.chip.driveActive d = false) :=
  ⟨(tState [(F.hlinkStatus_state 5, 5), (F.spinStatus_state 5, 6)] fun c => { c with power := { c.power with haze := true } }), by decide +kernel⟩

theorem witness_PowerStatesFollowUse_3 : ∃ (s : State), s.chip.rd F.pwrStatus_state ≠ 0 ∨ s.chip.power.haze = false ∨ s.chip.rd F.pwrCtrl_haze_s = 0 ∨ (∃ d < 24, s.chip.driveActive d = true) :=
  ⟨(tState [] fun c => (c.modRead 23 fun r => { r with queue := [default] })), by decide +kernel⟩

theorem witness_PowerStatesFollowUse_4 : ∃ (d : Nat) (s : State), d < 24 ∧ s.chip.rd F.pwrStatus_state = 0 ∧ s.chip.rd F.pwrCtrl_drive_idle_s ≠ 0 ∧ s.chip.driveActive d = false ∧ s.chip.engineOut d = false ∧ s.chip.rd (F.hlinkStatus_state d) = 5 ∧ s.chip.rd (F.spinStatus_state d) = 6 ∧ s.chip.rd (F.axisStatus_state d 0) < 6 ∧ (s.chip.axisSt (2 * d)).move = none ∧ (s.chip.axisSt (2 * d)).armed = none ∧ s.chip.rd (F.axisStatus_homed d 0) = 1 ∧ s.chip.rdi (F.sledPark_pos d) ≠ s.chip.rdi (F.axisStatus_pos d 0) :=
  ⟨23, (tState [(F.hlinkStatus_state 23, 5), (F.spinStatus_state 23, 6), (F.axisStatus_homed 23 0, 1), (F.sledPark_pos 23, 77), (F.discStatus_state 23, 5)]), by decide +kernel⟩

theorem witness_PowerStatesFollowUse_5 : ∃ (d : Nat) (s : State), s.chip.rd F.pwrStatus_state ≠ 0 ∨ s.chip.rd F.pwrCtrl_drive_idle_s = 0 ∨ s.chip.driveActive d = true ∨ s.chip.rd (F.hlinkStatus_state d) ≠ 5 :=
  ⟨0, (tState []), by decide +kernel⟩

theorem witness_PowerStatesFollowUse_6 : ∃ (s : State), s.chip.rd F.pwrStatus_state = 1 ∧ s.chip.rd F.pwrStatus_waking = 0 ∧ s.chip.rd F.pwrCtrl_overcast_s ≠ 0 ∧ s.chip.flashQuiet = true ∧ (∀ n ∈ s.chip.liveSessions, n ≤ 256) ∧ s.chip.contexts (fun k => k.phase == .active) = [] :=
  ⟨(tState [(F.pwrStatus_state, 1), (F.hlinkCtrl_enable 23, 1), (F.hlinkStatus_state 23, 5)]), by decide +kernel⟩

theorem witness_PowerStatesFollowUse_7 : ∃ (s : State), s.chip.rd F.pwrStatus_state ≠ 1 ∨ s.chip.rd F.pwrStatus_waking = 1 ∨ s.chip.rd F.pwrCtrl_overcast_s = 0 ∨ s.chip.flashQuiet = false :=
  ⟨(tState []), by decide +kernel⟩

theorem witness_PowerStatesFollowUse_8 : ∃ (s : State), s.chip.rd F.pwrStatus_state ≠ 2 :=
  ⟨(tState [(F.pwrStatus_waking, 1)]), by decide +kernel⟩

theorem witness_PowerStatesFollowUse_9 : ∃ (s : State), s.chip.rd F.pwrStatus_state = 2 ∧ s.chip.rd F.pwrStatus_waking = 1 ∧ s.chip.launches = [] ∧ s.chip.contexts (fun k => k.phase == .active && k.wait == .drive) = [] :=
  ⟨(tState [(F.pwrStatus_waking, 1), (F.pwrStatus_state, 2)]), by decide +kernel⟩

theorem witness_PowerStatesFollowUse_10 : ∃ (s : State), s.chip.rd F.pwrStatus_state = 2 ∧ s.chip.rd F.pwrStatus_waking = 0 :=
  ⟨(tState [(F.pwrStatus_state, 2)]), by decide +kernel⟩

theorem witness_PowerUpStartsTheKeeper_1 : ∃ (hmode : Nat) (calMode : Nat) (testN : Nat) (k : Nat) (h0 : Bool) (h1 : Bool) (s : State), s.chip.power.running = false ∧ s.chip.power.tripped = false ∧ testN % 2 = 1 ∧ (tabGet s.chip.trust.images 0 : ImageRec).present = true ∧ (tabGet s.chip.trust.images 1 : ImageRec).present = true ∧ s.chip.bootSlot 1 = some k :=
  ⟨2, 3, 1, 1, default, default, (tState [] fun c => { c with trust := { c.trust with images := [(0, ⟨true, 3, 0, 0, 0, 0, true⟩), (1, ⟨true, 4, 0, 0, 0, 0, true⟩)] } }), by decide +kernel⟩

theorem witness_PowerUpStartsTheKeeper_2 : ∃ (hmode : Nat) (calMode : Nat) (testN : Nat) (h0 : Bool) (h1 : Bool) (s : State), s.chip.power.running = false ∧ s.chip.power.tripped = false ∧ testN % 2 = 1 ∧ (tabGet s.chip.trust.images 0 : ImageRec).present = false ∧ (tabGet s.chip.trust.images 1 : ImageRec).present = false ∧ s.chip.mgmt.slotImage = [] :=
  ⟨3, 0, 1, default, default, (tState []), by decide +kernel⟩

theorem witness_PowerUpStartsTheKeeper_3 : ∃ (hmode : Nat) (calMode : Nat) (testN : Nat) (u : Bool) (h0 : Bool) (h1 : Bool) (s : State), s.chip.power.running = true :=
  ⟨0, 0, 0, default, default, default, (tState [] fun c => { c with power := { c.power with running := true } }), by decide +kernel⟩

theorem witness_PowerUpStartsTheKeeper_4 : ∃ (s : State), s.chip.power.resetLow = false ∧ s.chip.power.copying = false ∧ s.chip.power.tripped = false ∧ s.chip.NoBurn :=
  ⟨(tState [(F.otp_seals, 7), (F.hlinkStatus_state 23, 5), (F.mossStatus_down, 3)]), by simp only [Chip.NoBurn]; decide +kernel⟩

theorem witness_PowerUpStartsTheKeeper_5 : ∃ (s : State), s.chip.power.resetLow = false ∧ s.chip.power.copying = true :=
  ⟨(tState [] fun c => { c with power := { c.power with copying := true } }), by decide +kernel⟩

theorem witness_PowerUpStartsTheKeeper_6 : ∃ (s : State), s.chip.power.resetLow = true :=
  ⟨(tState [] fun c => { c with power := { c.power with resetLow := true } }), by decide +kernel⟩

theorem witness_DiesAreCalibratedAndTrained_1 : ∃ (e : Nat) (tCal : Int) (r : CalReading) (s : State), e < 2 ∧ 4 ≤ s.chip.rd F.bootProgress_step ∧ (s.chip.dieSt e).out = false ∧ s.chip.rd (F.calStatus_done e) = 0 ∧ (s.chip.bootSt e).record = [] ∧ (s.chip.bootSt e).recSeq = 0 ∧ r.id = 1 ∧ r.inst < 48 ∧ (∀ n ∈ r.votes, n ≠ 8) ∧ 0x30 ≤ searchCode (r.votes.map fun n => decide (8 < n)) ∧ searchCode (r.votes.map fun n => decide (8 < n)) ≤ 0xD0 ∧ -2 ^ 15 ≤ tCal ∧ tCal < 2 ^ 15 ∧ s.chip.rd F.straps_cal_mode < 2 :=
  ⟨1, 124, { (default : CalReading) with id := 1, inst := 47, votes := [16, 16, 0, 16, 0, 0, 0, 0] }, (tState [(F.bootProgress_step, 4)]), by decide +kernel⟩

theorem witness_DiesAreCalibratedAndTrained_2 : ∃ (e : Nat) (tCal : Int) (r : CalReading) (s : State), e < 2 ∧ 4 ≤ s.chip.rd F.bootProgress_step ∧ (s.chip.dieSt e).out = false ∧ s.chip.rd (F.calStatus_done e) = 0 ∧ (s.chip.bootSt e).record = [] ∧ r.id = 3 ∧ r.inst < 12 ∧ (∀ n ∈ r.votes, n ≠ 8) ∧ searchCode (r.votes.map fun n => decide (8 < n)) < 0x20 :=
  ⟨1, 124, { (default : CalReading) with id := 3, inst := 11, votes := [0, 0, 0, 16, 16, 16, 16, 16] }, (tState [(F.bootProgress_step, 4)]), by decide +kernel⟩

theorem witness_DiesAreCalibratedAndTrained_3 : ∃ (e : Nat) (tCal : Int) (rs : List CalReading) (s : State), s.chip.rd F.bootProgress_step < 4 ∨ (s.chip.dieSt e).out = true ∨ s.chip.rd (F.calStatus_done e) = 1 :=
  ⟨0, 0, default, (tState []), by decide +kernel⟩

theorem witness_DiesAreCalibratedAndTrained_4 : ∃ (e : Nat) (s : State), e < 2 ∧ s.chip.rd (F.calStatus_done e) = 1 ∧ (s.chip.bootSt e).trained = false ∧ (s.chip.dieSt e).out = false ∧ s.chip.rd F.bootProgress_step < 7 :=
  ⟨1, ({ (tState [(F.calStatus_done 1, 1), (F.bootProgress_step, 6)]) with dram := [(5, 1), (0x200000005, 2)] }), by decide +kernel⟩

theorem witness_DiesAreCalibratedAndTrained_5 : ∃ (e : Nat) (s : State), s.chip.rd (F.calStatus_done e) = 1 ∧ (s.chip.bootSt e).trained = false ∧ (s.chip.dieSt e).out = false ∧ (s.chip.bootSt e).trainFails < 2 :=
  ⟨1, (tState [(F.calStatus_done 1, 1)]), by decide +kernel⟩

theorem witness_DiesAreCalibratedAndTrained_6 : ∃ (e : Nat) (s : State), e < 2 ∧ s.chip.rd (F.calStatus_done e) = 1 ∧ (s.chip.bootSt e).trained = false ∧ (s.chip.dieSt e).out = false ∧ 2 ≤ (s.chip.bootSt e).trainFails :=
  ⟨1, (tState [(F.calStatus_done 1, 1)] fun c => c.modBoot 1 fun b => { b with trainFails := 2 }), by decide +kernel⟩

theorem witness_DiesAreCalibratedAndTrained_7 : ∃ (e : Nat) (ok : Bool) (s : State), s.chip.rd (F.calStatus_done e) = 0 ∨ (s.chip.bootSt e).trained = true ∨ (s.chip.dieSt e).out = true :=
  ⟨0, default, (tState []), by decide +kernel⟩

theorem witness_DiesAreCalibratedAndTrained_8 : ∃ (k : Nat) (s : State), 5 ≤ s.chip.rd F.bootProgress_step ∧ s.chip.rd F.bootProgress_step < 7 ∧ (s.chip.bootSt 0).trained = true ∧ (s.chip.bootSt 1).trained = true ∧ s.chip.bootSlot 0 = some k ∧ (∀ d < 24, s.chip.rd (F.hlinkCtrl_enable d) = 1 ∧ s.chip.rd (F.hlinkStatus_state d) = 0) ∧ s.chip.rd F.svcRetired_retired = 0 ∧ (s.chip.dieSt 0).out = false ∧ (s.chip.dieSt 1).out = false :=
  ⟨0, (tState [(F.bootProgress_step, 6)] fun c => (List.range 24).foldl (fun c d => c.wr (F.hlinkCtrl_enable d) 1) ((c.modBoot 0 fun b => { b with trained := true }).modBoot 1 fun b => { b with trained := true }) |> fun c => { c with trust := { c.trust with images := [(2, ⟨true, 3, 0, 0, 0, 0, true⟩)] } }), by decide +kernel⟩

theorem witness_DiesAreCalibratedAndTrained_9 : ∃ (s : State), 7 ≤ s.chip.rd F.bootProgress_step ∨ s.chip.rd F.bootProgress_step < 5 :=
  ⟨(tState []), by decide +kernel⟩

theorem witness_DiesAreCalibratedAndTrained_10 : ∃ (s : State), s.chip.poweringUp = true ∧ s.chip.hazeReady = true ∧ s.chip.rd F.pwrStatus_state ≠ 1 ∧ s.chip.rd F.bootProgress_step < 16 ∧ s.chip.power.pfail = none :=
  ⟨(tState [(F.bootProgress_step, 7), (F.calStatus_done 0, 1), (F.calStatus_done 1, 1), (F.mossStatus_mounted, 1)] fun c => (List.range 24).foldl (fun c d => c.wr (F.hlinkStatus_state d) 1) ((c.modBoot 0 fun b => { b with trained := true }).modBoot 1 fun b => { b with trained := true }) |> fun c => { c with power := { c.power with running := true }, now := 70000 * 10 ^ 6 }), by decide +kernel⟩

theorem witness_DiesAreCalibratedAndTrained_11 : ∃ (s : State), s.chip.poweringUp = false ∨ s.chip.hazeReady = false :=
  ⟨(tState []), by decide +kernel⟩

theorem witness_DiesAreCalibratedAndTrained_12 : ∃ (s : State), s.chip.poweringUp = true ∧ s.chip.chain.resetAt + 10 ^ 10 ≤ s.chip.now :=
  ⟨(tState [] fun c => { c with power := { c.power with running := true }, now := 10 ^ 10 }), by decide +kernel⟩

theorem witness_DiesAreCalibratedAndTrained_13 : ∃ (s : State), s.chip.poweringUp = false ∨ s.chip.now < s.chip.chain.resetAt + 10 ^ 10 :=
  ⟨(tState []), by decide +kernel⟩

theorem witness_TrimsFollowAndDiesAreReset_1 : ∃ (e : Nat) (temp : Int) (t : TrimRec) (k : Nat) (s : State), e < 2 ∧ s.chip.tempDue e = true ∧ s.chip.power.tripped = false ∧ s.chip.rd (F.calStatus_done e) = 1 ∧ (s.chip.dieSt e).out = false ∧ -2 ^ 15 ≤ temp ∧ temp < 2 ^ 15 ∧ (s.chip.bootSt e).trims = [(k, t)] ∧ k < 14 * 256 ∧ t.source ≤ 1 :=
  ⟨1, 272, ⟨[154, 148, 142, 136, 131], 0, 0, 0, 144, 1⟩, 300, (tState [(F.calStatus_done 1, 1)] fun c => { c with now := 10 ^ 12 }.modBoot 1 fun b => { b with trims := [(300, ⟨[154, 148, 142, 136, 131], 0, 0, 0, 144, 1⟩)] }), by decide +kernel⟩

theorem witness_TrimsFollowAndDiesAreReset_2 : ∃ (e : Nat) (temp : Int) (s : State), s.chip.tempDue e = false :=
  ⟨1, 0, (tState [(F.calCtrl_upd_ms 1, 1)]), by decide +kernel⟩

theorem witness_TrimsFollowAndDiesAreReset_3 : ∃ (e : Nat) (temp : Int) (s : State), s.chip.power.tripped = false ∧ (s.chip.rd (F.calStatus_done e) = 0 ∨ (s.chip.dieSt e).out = true) :=
  ⟨0, 0, (tState []), by decide +kernel⟩

theorem witness_TrimsFollowAndDiesAreReset_4 : ∃ (d : Nat) (a : List Bool) (q0 : List Bool) (q1 : List Bool) (q2 : List Bool) (q3 : List Bool) (s : State), d < 24 ∧ s.chip.rd (F.hlinkStatus_state d) = 5 ∧ (s.chip.servoSt d).trimDone = false ∧ s.chip.power.haze = false :=
  ⟨23, [true, true, true, true, true, true, true, true], [true], [], [false, true, false], [true, false], (tState [(F.hlinkStatus_state 23, 5), (F.hlinkStatus_lane_up 23, 15)]), by decide +kernel⟩

theorem witness_TrimsFollowAndDiesAreReset_5 : ∃ (d : Nat) (a : List Bool) (q0 : List Bool) (q1 : List Bool) (q2 : List Bool) (q3 : List Bool) (s : State), d < 24 ∧ s.chip.rd (F.hlinkStatus_state d) = 5 ∧ (s.chip.servoSt d).trimDone = false ∧ s.chip.power.haze = false ∧ (s.chip.linkSt d).newHead = true :=
  ⟨23, [true, true, true, true, true, true, true, true], [true], [], [false, true, false], [true, false], (tState [(F.hlinkStatus_state 23, 5), (F.hlinkStatus_lane_up 23, 15)] fun c => c.modLink 23 fun l => { l with newHead := true }), by decide +kernel⟩

theorem witness_TrimsFollowAndDiesAreReset_6 : ∃ (d : Nat) (decisions : List (List Bool)) (residuals : List Int) (s : State), s.chip.rd (F.hlinkStatus_state d) ≠ 5 ∨ (s.chip.servoSt d).trimDone = true :=
  ⟨0, default, default, (tState []), by decide +kernel⟩

theorem witness_TrimsFollowAndDiesAreReset_7 : ∃ (e : Nat) (at_ : Nat) (k : Nat) (r : TrimRec) (s : State), (s.chip.bootSt e).trims = [(k, r)] ∧ (s.chip.bootSt e).recordDue = true ∧ (s.chip.bootSt e).recordAt = some at_ ∧ at_ + 60 * 10 ^ 9 ≤ s.chip.now ∧ s.chip.power.haze = true ∧ s.chip.power.pfail = none :=
  ⟨1, 7, 6, ⟨[1], 2, 3, 4, 5, 1⟩, (tState [] fun c => { (c.modBoot 1 fun b => { b with trims := [(6, ⟨[1], 2, 3, 4, 5, 1⟩)], recordDue := true, recordAt := some 7 }) with power := { c.power with haze := true }, now := 60000000007 }), by decide +kernel⟩

theorem witness_TrimsFollowAndDiesAreReset_8 : ∃ (e : Nat) (at_ : Nat) (s : State), (s.chip.bootSt e).recordAt = some at_ ∧ s.chip.now < at_ + 60 * 10 ^ 9 :=
  ⟨1, 7, (tState [] fun c => { (c.modBoot 1 fun b => { b with recordDue := true, recordAt := some 7 }) with power := { c.power with haze := true }, now := 60000000006 }), by decide +kernel⟩

theorem witness_TrimsFollowAndDiesAreReset_9 : ∃ (e : Nat) (s : State), e < 2 ∧ (s.chip.dieSt e).out = true :=
  ⟨1, (tState [(F.hlinkStatus_state 23, 5), (F.hlinkStatus_state 3, 5), (F.calStatus_done 1, 1)] fun c => c.modDie 1 fun x => { x with out := true }), by decide +kernel⟩

theorem witness_TrimsFollowAndDiesAreReset_10 : ∃ (e : Nat) (s : State), (s.chip.dieSt e).out = false :=
  ⟨0, (tState []), by decide +kernel⟩

theorem witness_FetchMeetsItsChecks_1 : ∃ (n : Nat) (x : Nat) (op : Nat) (r : OpRow) (pick : Cmd → Bool) (fields : Chip → Cmd → Nat) (resources : Chip → Cmd → Nat) (body : State → Cmd → State) (s : State), opRow op = some r ∧ (s.chip.canFetch n x r = false ∨ pick (s.chip.ctxSt n x).cmd = false) :=
  ⟨0, 0, 0, (plainRow 0 .any true), (fun _ => true), (fun _ _ => 0), (fun _ _ => 0), (fun s _ => s), (tState []), by decide +kernel⟩

theorem witness_FetchMeetsItsChecks_2 : ∃ (n : Nat) (x : Nat) (op : Nat) (r : OpRow) (fields : Chip → Cmd → Nat) (resources : Chip → Cmd → Nat) (body : State → Cmd → State) (s : State), opRow op = some r ∧ s.chip.canFetch n x r = true ∧ s.chip.rd F.pwrStatus_state = 2 ∧ r.servedAsleep = false ∧ (s.chip.ctxSt n x).cmd.T = 0 ∧ s.chip.rd F.pwrStatus_waking = 0 :=
  ⟨256, 5, 0x20, (plainRow 0x20 .any false), (fun _ _ => 0), (fun _ _ => 0), (fun s _ => s), (tState [(F.pwrStatus_state, 2)] fun c => { (tServed c 256 5 0x20) with host := { (tServed c 256 5 0x20).host with wakeFor := [23] } }), by decide +kernel⟩

theorem witness_FetchMeetsItsChecks_3 : ∃ (n : Nat) (x : Nat) (op : Nat) (r : OpRow) (fields : Chip → Cmd → Nat) (resources : Chip → Cmd → Nat) (body : State → Cmd → State) (s : State), opRow op = some r ∧ s.chip.canFetch n x r = true ∧ s.chip.rd F.pwrStatus_state < 2 ∧ n ≤ 256 ∧ s.chip.rd (F.use_frozen (n - 1)) = 1 :=
  ⟨256, 5, 0, (plainRow 0 .any true), (fun _ _ => 0), (fun _ _ => 0), (fun s _ => s), (tState [(F.use_frozen 255, 1)] fun c => (tServed c 256 5 0)), by decide +kernel⟩

theorem witness_FetchMeetsItsChecks_4 : ∃ (n : Nat) (x : Nat) (op : Nat) (code : Nat) (r : OpRow) (fields : Chip → Cmd → Nat) (resources : Chip → Cmd → Nat) (body : State → Cmd → State) (s : State), opRow op = some r ∧ s.chip.canFetch n x r = true ∧ s.chip.rd F.pwrStatus_state < 2 ∧ r.gate ≠ .sealQ ∧ s.chip.rd (F.use_frozen (n - 1)) = 0 ∧ s.chip.moss.op = none ∧ (s.chip.fetched n x).gateCode n r = code ∧ code ≠ 0 :=
  ⟨256, 5, 0xC4, 0x0304, (plainRow 0xC4 .owner false), (fun _ _ => 0), (fun _ _ => 0), (fun s _ => s), (tState [] fun c => (tServed c 256 5 0xC4).modSess 256 fun y => { y with rights := 255 }), by decide +kernel⟩

theorem witness_FetchMeetsItsChecks_5 : ∃ (n : Nat) (x : Nat) (op : Nat) (r : OpRow) (fields : Chip → Cmd → Nat) (resources : Chip → Cmd → Nat) (body : State → Cmd → State) (s : State), opRow op = some r ∧ s.chip.canFetch n x r = true ∧ s.chip.rd F.pwrStatus_state < 2 ∧ s.chip.rd (F.use_frozen (n - 1)) = 0 ∧ r.status = false ∧ op ≠ 0xC2 ∧ op ≠ 0xC3 ∧ n ≤ 256 ∧ s.chip.moss.op.isSome = true :=
  ⟨256, 5, 0x20, (plainRow 0x20 .any false), (fun _ _ => 0), (fun _ _ => 0), (fun s _ => s), (tState [] fun c => (tServed c 256 5 0x20).modMoss fun m => { m with op := some (true, 0, 5) }), by decide +kernel⟩

theorem witness_FetchMeetsItsChecks_6 : ∃ (n : Nat) (x : Nat) (op : Nat) (code : Nat) (r : OpRow) (fields : Chip → Cmd → Nat) (resources : Chip → Cmd → Nat) (body : State → Cmd → State) (s : State), opRow op = some r ∧ s.chip.serves n x op = true ∧ r.gate ≠ .sealQ ∧ fields (s.chip.fetched n x) (s.chip.ctxSt n x).cmd = code ∧ code ≠ 0 :=
  ⟨256, 5, 0x20, 0x0102, (plainRow 0x20 .any false), (fun _ _ => 0x0102), (fun _ _ => 0), (fun s _ => s), (tState [] fun c => (tServed c 256 5 0x20)), by decide +kernel⟩

theorem witness_FetchMeetsItsChecks_7 : ∃ (n : Nat) (x : Nat) (op : Nat) (r : OpRow) (fields : Chip → Cmd → Nat) (resources : Chip → Cmd → Nat) (body : State → Cmd → State) (s : State), opRow op = some r ∧ s.chip.serves n x op = true ∧ r.gate ≠ .sealQ ∧ fields (s.chip.fetched n x) (s.chip.ctxSt n x).cmd = 0 ∧ resources (s.chip.fetched n x) (s.chip.ctxSt n x).cmd = 0 :=
  ⟨256, 5, 0x20, (plainRow 0x20 .any false), (fun _ _ => 0), (fun _ _ => 0), (fun s _ => s), (tState [] fun c => (tServed c 256 5 0x20)), by decide +kernel⟩

theorem witness_SessionCommandsAnswer_1 : ∃ (n : Nat) (x : Nat) (s : State), s.chip.serves n x 0x00 = true :=
  ⟨256, 5, (tState [] fun c => (tServed c 256 5 0x00)), by decide +kernel⟩

theorem witness_SessionCommandsAnswer_2 : ∃ (n : Nat) (x : Nat) (tl : Nat) (s : State), s.chip.serves n x 0x01 = true ∧ 0 < (s.chip.ctxSt n x).cmd.dlen ∧ s.chip.chooseTiles (s.chip.sess n).die 1 = [tl] ∧ tl < 2 ^ 21 :=
  ⟨256, 5, 1048576, (tState [(F.chain_head, 1)] fun c => (tServed c 256 5 0x01 fun k => { k with dlen := 300 }).modSess 256 fun y => { y with die := 1 }), by decide +kernel⟩

theorem witness_SessionCommandsAnswer_3 : ∃ (n : Nat) (x : Nat) (s : State), s.chip.serves n x 0x02 = true ∧ 1 ≤ (s.chip.ctxSt n x).cmd.p0 ∧ (s.chip.ctxSt n x).cmd.p0 ≤ 15 ∧ (s.chip.sess n).queues.testBit (s.chip.ctxSt n x).cmd.p0 = false ∧ (s.chip.fetched n x).rd F.qcpStatus_queues < 512 :=
  ⟨256, 5, (tState [] fun c => (tServed c 256 5 0x02 fun k => { k with p0 := 15 })), by decide +kernel⟩

theorem witness_SessionCommandsAnswer_4 : ∃ (n : Nat) (x : Nat) (s : State), s.chip.serves n x 0x03 = true ∧ 1 ≤ (s.chip.ctxSt n x).cmd.p0 ∧ (s.chip.ctxSt n x).cmd.p0 ≤ 15 ∧ (s.chip.sess n).queues.testBit (s.chip.ctxSt n x).cmd.p0 = true ∧ (s.chip.ctxSt n x).cmd.queue ≠ (s.chip.ctxSt n x).cmd.p0 ∧ (∀ e ∈ (s.chip.sess n).ctx, e.1 ≠ x → e.2.phase = .free ∨ e.2.phase = .retained ∨ e.2.cmd.queue ≠ (s.chip.ctxSt n x).cmd.p0) :=
  ⟨256, 5, (tState [] fun c => (tServed c 256 5 0x03 fun k => { k with p0 := 15 }).modSess 256 fun y => { y with queues := 65535 }), by decide +kernel⟩

theorem witness_SessionCommandsAnswer_5 : ∃ (n : Nat) (x : Nat) (s : State), s.chip.serves n x 0x03 = true ∧ 1 ≤ (s.chip.ctxSt n x).cmd.p0 ∧ (s.chip.ctxSt n x).cmd.p0 ≤ 15 ∧ (s.chip.sess n).queues.testBit (s.chip.ctxSt n x).cmd.p0 = true ∧ (s.chip.ctxSt n x).cmd.queue = (s.chip.ctxSt n x).cmd.p0 :=
  ⟨256, 5, (tState [] fun c => (tServed c 256 5 0x03 fun k => { k with p0 := 15, queue := 15 }).modSess 256 fun y => { y with queues := 65535 }), by decide +kernel⟩

theorem witness_SessionCommandsAnswer_6 : ∃ (n : Nat) (x : Nat) (s : State), s.chip.serves n x 0x06 = true ∧ s.chip.moss.op = none ∧ s.chip.moss.discards = [] ∧ s.chip.moss.rebuild = none :=
  ⟨256, 5, (tState [] fun c => (tServed c 256 5 0x06)), by decide +kernel⟩

theorem witness_SessionCommandsAnswer_7 : ∃ (n : Nat) (x : Nat) (s : State), s.chip.serves n x 0x07 = true ∧ s.chip.liveSessions = [n] :=
  ⟨256, 5, (tState [] fun c => (tServed c 256 5 0x07 fun k => { k with dlen := 8192 })), by decide +kernel⟩

theorem witness_SessionsAreEndedAndReleased_1 : ∃ (n : Nat) (x : Nat) (s : State), s.chip.serves n x 0x04 = true ∧ s.chip.launches = [] ∧ s.chip.cat.restores = [] :=
  ⟨256, 5, (tState [] fun c => (tServed c 256 5 0x04).modCtx 256 7 fun k => { k with phase := .waiting, cmd := { k.cmd with opcode := 0x42 } }), by decide +kernel⟩

theorem witness_SessionsAreEndedAndReleased_2 : ∃ (n : Nat) (x : Nat) (s : State), s.chip.serves n x 0x04 = true ∧ (∀ e ∈ (s.chip.sess n).ctx, e.1 ≠ x → e.2.phase = .free) :=
  ⟨256, 5, (tState [] fun c => (tServed c 256 5 0x04)), by decide +kernel⟩

theorem witness_SessionsAreEndedAndReleased_3 : ∃ (n : Nat) (x : Nat) (y : Nat) (s : State), s.chip.serves n x 0x05 = true ∧ (s.chip.ctxSt n x).cmd.p0 = y ∧ y ≠ x ∧ (s.chip.ctxSt n y).phase = .waiting ∧ (s.chip.ctxSt n y).cmd.tag = (s.chip.ctxSt n x).cmd.p1 ∧ s.chip.launches = [] :=
  ⟨256, 5, 7, (tState [] fun c => ((tServed c 256 5 0x05 fun k => { k with p0 := 7, p1 := 9 }).modCtx 256 7 fun k => { k with phase := .waiting, cmd := { k.cmd with opcode := 0x42, tag := 9 } }).modCtx 256 8 fun k => { k with phase := .waiting }), by decide +kernel⟩

theorem witness_SessionsAreEndedAndReleased_4 : ∃ (n : Nat) (x : Nat) (s : State), s.chip.serves n x 0x05 = true ∧ (s.chip.ctxSt n (s.chip.ctxSt n x).cmd.p0).phase = .free :=
  ⟨256, 5, (tState [] fun c => ((tServed c 256 5 0x05 fun k => { k with p0 := 7, p1 := 9 }))), by decide +kernel⟩

theorem witness_SessionsAreEndedAndReleased_5 : ∃ (n : Nat) (x : Nat) (s : State), s.chip.serves n x 0x08 = true ∧ (s.chip.sess (s.chip.ctxSt n x).cmd.p0).live = false :=
  ⟨256, 5, (tState [] fun c => ((tServed c 256 5 0x08 fun k => { k with p0 := 7 }))), by decide +kernel⟩

theorem witness_SessionsAreEndedAndReleased_6 : ∃ (n : Nat) (x : Nat) (m : Nat) (s : State), s.chip.serves n x 0x08 = true ∧ (s.chip.ctxSt n x).cmd.p0 = m ∧ 1 ≤ m ∧ m ≤ 256 ∧ (s.chip.sess m).live = true ∧ (s.chip.sess m).ctx = [] ∧ s.chip.rd (F.use_frozen (m - 1)) = 1 ∧ (∀ k ∈ s.chip.liveSessions, 1 ≤ k ∧ k ≤ 256) :=
  ⟨256, 5, 7, (tState [(F.use_frozen 6, 1), (F.mst_frozen 86, 1)] fun c => ((tServed c 256 5 0x08 fun k => { k with p0 := 7 })).modSess 7 fun y => { y with live := true, replayBreach := 3 }), by decide +kernel⟩

theorem witness_SessionsAreEndedAndReleased_7 : ∃ (n : Nat) (seq : Nat) (port : Nat) (peer : Nat) (s : State), (s.chip.sess n).live = true ∧ (s.chip.sess n).high < seq ∧ seq ∉ (s.chip.sess n).seen ∧ (s.chip.sess n).ctx = [] ∧ s.chip.rd F.trust_holder ≠ n ∧ (s.chip.sess n).bootstrap = false :=
  ⟨256, 6, 0, 0, (tState [(F.use_frozen 255, 1)] fun c => c.modSess 256 fun y => { y with live := true, high := 5 }), by decide +kernel⟩

theorem witness_SessionsAreEndedAndReleased_8 : ∃ (n : Nat) (seq : Nat) (port : Nat) (peer : Nat) (target : Nat) (s : State), (s.chip.sess n).live = true ∧ (s.chip.sess n).high < seq ∧ seq ∉ (s.chip.sess n).seen ∧ target ≠ n ∧ (s.chip.sess n).isOwner = false :=
  ⟨256, 6, 0, 0, 5, (tState [] fun c => c.modSess 256 fun y => { y with live := true, high := 5 }), by decide +kernel⟩

theorem witness_SessionsAreEndedAndReleased_9 : ∃ (n : Nat) (x : Nat) (s : State), s.chip.serves n x 0x09 = true ∧ ((s.chip.ctxSt n x).cmd.cflags.testBit 0 = true ∨ ((s.chip.ctxSt n x).cmd.p0 < 8 ∧ s.chip.rd (F.hostPort_exists (s.chip.ctxSt n x).cmd.p0) = 1)) ∧ (∀ k ∈ s.chip.liveSessions, k ≤ 256) :=
  ⟨256, 5, (tState [(F.hostPort_exists 7, 1)] fun c => ((tServed c 256 5 0x09 fun k => { k with p0 := 7, dlen := 32 }))), by decide +kernel⟩

theorem witness_PresenceOpensAndCloses_1 : ∃ (s : State), s.chip.rd F.trust_window_open = 1 :=
  ⟨(tState [(F.trust_window_open, 1), (F.trust_holder, 256), (F.trust_window_held, 1)] fun c => { c with trust := { c.trust with released := some 5 } }), by decide +kernel⟩

theorem witness_PresenceOpensAndCloses_2 : ∃ (s : State), s.chip.rd F.trust_window_open = 0 :=
  ⟨(tState []), by decide +kernel⟩

theorem witness_PresenceOpensAndCloses_3 : ∃ (s : State), s.chip.trust.pressed = true :=
  ⟨(tState [(F.trust_holder, 256)] fun c => { c with trust := { c.trust with pressed := true } }), by decide +kernel⟩

theorem witness_PresenceOpensAndCloses_4 : ∃ (s : State), s.chip.trust.pressed = false :=
  ⟨(tState []), by decide +kernel⟩

theorem witness_PresenceOpensAndCloses_5 : ∃ (t0 : Nat) (s : State), s.chip.rd F.trust_window_open = 1 ∧ s.chip.trust.released = some t0 ∧ t0 + 120 * 10 ^ 9 ≤ s.chip.keeper :=
  ⟨40, (tState [(F.trust_window_open, 1), (F.trust_holder, 256), (F.trust_window_held, 1)] fun c => { c with now := 120000000040, trust := { c.trust with released := some 40 } }), by decide +kernel⟩

theorem witness_PresenceOpensAndCloses_6 : ∃ (t0 : Nat) (s : State), s.chip.rd F.trust_window_open = 0 ∨ (s.chip.trust.released = some t0 ∧ s.chip.keeper < t0 + 120 * 10 ^ 9) :=
  ⟨0, (tState []), by decide +kernel⟩

theorem witness_PresenceOpensAndCloses_7 : ∃ (n : Nat) (x : Nat) (s : State), s.chip.serves n x 0xC4 = true ∧ s.chip.windowOpen = true ∧ s.chip.rd F.trust_window_held = 0 ∧ n < 512 :=
  ⟨256, 5, (tState [(F.trust_window_open, 1)] fun c => { (tServed c 256 5 0xC4) with trust := { c.trust with released := some 0 } }), by decide +kernel⟩

theorem witness_PresenceOpensAndCloses_8 : ∃ (n : Nat) (x : Nat) (s : State), s.chip.serves n x 0xC4 = true ∧ s.chip.windowOpen = false :=
  ⟨256, 5, (tState [] fun c => (tServed c 256 5 0xC4)), by decide +kernel⟩

theorem witness_PresenceOpensAndCloses_9 : ∃ (n : Nat) (x : Nat) (s : State), s.chip.serves n x 0xC4 = true ∧ s.chip.windowOpen = true ∧ s.chip.rd F.trust_window_held = 1 ∧ s.chip.rd F.trust_holder ≠ n :=
  ⟨256, 5, (tState [(F.trust_window_open, 1), (F.trust_window_held, 1), (F.trust_holder, 7)] fun c => { (tServed c 256 5 0xC4) with trust := { c.trust with released := some 0 } }), by decide +kernel⟩

theorem witness_PresenceOpensAndCloses_10 : ∃ (s : State), s.chip.trust.sealDiff = 3 ∧ s.chip.rd F.trust_seal_open = 0 ∧ s.chip.rd F.otp_seals < 1024 :=
  ⟨(tState [(F.otp_seals, 1023)] fun c => { c with trust := { c.trust with sealDiff := 3 } }), by decide +kernel⟩

theorem witness_PresenceOpensAndCloses_11 : ∃ (fuseOk : Bool) (s : State), s.chip.trust.sealDiff = 3 ∧ s.chip.rd F.trust_seal_open = 0 ∧ s.chip.rd F.trust_seal_exhausted = 0 ∧ (1024 ≤ s.chip.rd F.otp_seals ∨ fuseOk = false) :=
  ⟨true, (tState [(F.otp_seals, 1024)] fun c => { c with trust := { c.trust with sealDiff := 3 } }), by decide +kernel⟩

theorem witness_PresenceOpensAndCloses_12 : ∃ (fuseOk : Bool) (s : State), s.chip.trust.sealSame = 63 ∧ s.chip.rd F.trust_seal_open = 1 ∧ s.chip.rd F.trust_seal_presence = 1 :=
  ⟨true, (tState [(F.trust_seal_open, 1), (F.trust_seal_presence, 1)] fun c => { c with trust := { c.trust with sealSame := 63 } }), by decide +kernel⟩

theorem witness_PresenceOpensAndCloses_13 : ∃ (m : Bool) (fuseOk : Bool) (s : State), s.chip.trust.sealSame < 63 ∧ s.chip.trust.sealDiff < 3 :=
  ⟨true, default, (tState []), by decide +kernel⟩

theorem witness_PresenceOpensAndCloses_14 : ∃ (t0 : Nat) (s : State), s.chip.trust.sealClosedAt = some t0 ∧ t0 + 120 * 10 ^ 9 ≤ s.chip.keeper :=
  ⟨40, (tState [(F.trust_seal_presence, 1)] fun c => { c with now := 120000000040, trust := { c.trust with sealClosedAt := some 40, sealBound := 9 } }), by decide +kernel⟩

theorem witness_PresenceOpensAndCloses_15 : ∃ (t0 : Nat) (s : State), s.chip.trust.sealClosedAt = none ∨ (s.chip.trust.sealClosedAt = some t0 ∧ s.chip.keeper < t0 + 120 * 10 ^ 9) :=
  ⟨0, (tState []), by decide +kernel⟩

theorem witness_CredentialsAndKeyRootChange_1 : ∃ (n : Nat) (x : Nat) (s : State), s.chip.serves n x 0xC5 = true :=
  ⟨256, 5, (tState [(F.trust_window_open, 1), (F.trust_window_held, 1), (F.trust_holder, 256)] fun c => { (tServed c 256 5 0xC5 fun k => { k with dlen := 128 }) with trust := { c.trust with released := some 0 } }), by decide +kernel⟩

theorem witness_CredentialsAndKeyRootChange_2 : ∃ (n : Nat) (x : Nat) (s : State), s.chip.serves n x 0xC6 = true ∧ (s.chip.ctxSt n x).cmd.p0 < 256 :=
  ⟨256, 5, (tState [] fun c => (tServed c 256 5 0xC6 fun k => { k with dlen := 128, p0 := 255 })), by decide +kernel⟩

theorem witness_CredentialsAndKeyRootChange_3 : ∃ (n : Nat) (x : Nat) (s : State), s.chip.serves n x 0xC6 = true ∧ 256 ≤ (s.chip.ctxSt n x).cmd.p0 :=
  ⟨256, 5, (tState [] fun c => (tServed c 256 5 0xC6 fun k => { k with dlen := 128, p0 := 256 })), by decide +kernel⟩

theorem witness_CredentialsAndKeyRootChange_4 : ∃ (n : Nat) (x : Nat) (s : State), s.chip.serves n x 0xCB = true :=
  ⟨256, 5, (tState [(F.trust_seal_presence, 1)] fun c => (tServed c 256 5 0xCB fun k => { k with dlen := 128 })), by decide +kernel⟩

theorem witness_CredentialsAndKeyRootChange_5 : ∃ (n : Nat) (x : Nat) (id : Nat) (e : CredRec) (s : State), s.chip.serves n x 0xC7 = true ∧ id = (s.chip.ctxSt n x).cmd.p0 * 2 ^ 64 + (s.chip.ctxSt n x).cmd.p1 ∧ s.chip.trust.creds.find? (fun k => k.id == id) = some e ∧ (e.rights.testBit 8 = false ∨ s.chip.owners ≠ 1) ∧ (∀ m ∈ s.chip.liveSessions, m ≤ 256 ∧ (s.chip.sess m).cred ≠ id) :=
  ⟨256, 5, 3 * 2 ^ 64 + 4, ⟨3 * 2 ^ 64 + 4, 9, 255⟩, (tState [(F.trust_owned, 1)] fun c => { (tServed c 256 5 0xC7 fun k => { k with p0 := 3, p1 := 4 }) with trust := { c.trust with creds := [⟨3 * 2 ^ 64 + 4, 9, 255⟩, ⟨1, 2, 256⟩] } }), by decide +kernel⟩

theorem witness_CredentialsAndKeyRootChange_6 : ∃ (n : Nat) (x : Nat) (id : Nat) (e : CredRec) (s : State), s.chip.serves n x 0xC7 = true ∧ id = (s.chip.ctxSt n x).cmd.p0 * 2 ^ 64 + (s.chip.ctxSt n x).cmd.p1 ∧ s.chip.trust.creds.find? (fun k => k.id == id) = some e ∧ e.rights.testBit 8 = true ∧ s.chip.owners = 1 :=
  ⟨256, 5, 3 * 2 ^ 64 + 4, ⟨3 * 2 ^ 64 + 4, 9, 256⟩, (tState [(F.trust_owned, 1)] fun c => { (tServed c 256 5 0xC7 fun k => { k with p0 := 3, p1 := 4 }) with trust := { c.trust with creds := [⟨3 * 2 ^ 64 + 4, 9, 256⟩] } }), by decide +kernel⟩

theorem witness_CredentialsAndKeyRootChange_7 : ∃ (n : Nat) (x : Nat) (s : State), s.chip.serves n x 0xC7 = true ∧ s.chip.trust.creds.find? (fun k => k.id == (s.chip.ctxSt n x).cmd.p0 * 2 ^ 64 + (s.chip.ctxSt n x).cmd.p1) = none :=
  ⟨256, 5, (tState [] fun c => (tServed c 256 5 0xC7)), by decide +kernel⟩

theorem witness_CredentialsAndKeyRootChange_8 : ∃ (n : Nat) (x : Nat) (s : State), s.chip.serves n x 0xCC = true ∧ (∀ m ∈ s.chip.liveSessions, m ≤ 256) :=
  ⟨256, 5, (tState [(F.trust_seal_presence, 1), (F.otp_epoch, 62), (F.mossStatus_mounted, 1), (F.trust_owned, 1)] fun c => { (tServed c 256 5 0xCC) with trust := { c.trust with creds := [⟨1, 2, 256⟩] } }), by decide +kernel⟩

theorem witness_GroupsAndFirmwareStart_1 : ∃ (n : Nat) (x : Nat) (s : State), s.chip.serves n x 0xCD = true ∧ 0 < (s.chip.ctxSt n x).cmd.dlen :=
  ⟨256, 5, (tState [(F.trust_seal_presence, 1)] fun c => (tServed c 256 5 0xCD fun k => { k with dlen := 256 })), by decide +kernel⟩

theorem witness_GroupsAndFirmwareStart_2 : ∃ (n : Nat) (x : Nat) (kind : Nat) (s : State), s.chip.serves n x 0xCE = true ∧ 0 < (s.chip.ctxSt n x).cmd.dlen :=
  ⟨256, 5, 2, (tState [(F.trust_seal_presence, 1)] fun c => (tServed c 256 5 0xCE fun k => { k with dlen := 308 })), by decide +kernel⟩

theorem witness_GroupsAndFirmwareStart_3 : ∃ (n : Nat) (x : Nat) (tl : Nat) (s : State), s.tileGood tl = true ∧ (s.chip.ctxSt n x).phase = .active ∧ (s.chip.ctxSt n x).cmd.opcode = 0xCE ∧ (s.chip.ctxSt n x).wait = .activity ∧ (s.chip.ctxSt n x).tiles = [tl] ∧ s.joinNamed n x = 1 ∧ (s.chip.rd F.trust_member = 1 ∨ s.chip.cat.objects ≠ []) :=
  ⟨256, 5, 7, tJoin [(F.trust_member, 1)] 1, tTile_good _ _ (by decide +kernel), by decide +kernel⟩

theorem witness_GroupsAndFirmwareStart_4 : ∃ (n : Nat) (x : Nat) (tl : Nat) (bs : List Nat) (s : State), s.tileGood tl = true ∧ s.tilesRange [tl] 0 (s.chip.ctxSt n x).cmd.dlen = bs ∧ (s.chip.ctxSt n x).phase = .active ∧ (s.chip.ctxSt n x).cmd.opcode = 0xCE ∧ (s.chip.ctxSt n x).wait = .activity ∧ (s.chip.ctxSt n x).tiles = [tl] ∧ s.joinNamed n x = 1 ∧ (∀ m ∈ s.chip.liveSessions, m ≤ 256) ∧ s.chip.mayJoin = true :=
  ⟨256, 5, 7, (tJoin [(F.mossStatus_mounted, 1)] 1).tilesRange [7] 0 308, tJoin [(F.mossStatus_mounted, 1)] 1, tTile_good _ _ (by decide +kernel), rfl, by decide +kernel⟩

theorem witness_GroupsAndFirmwareStart_5 : ∃ (n : Nat) (x : Nat) (tl : Nat) (bs : List Nat) (s : State), s.tileGood tl = true ∧ s.tilesRange [tl] 0 (s.chip.ctxSt n x).cmd.dlen = bs ∧ (s.chip.ctxSt n x).phase = .active ∧ (s.chip.ctxSt n x).cmd.opcode = 0xCE ∧ (s.chip.ctxSt n x).wait = .activity ∧ (s.chip.ctxSt n x).tiles = [tl] ∧ s.joinNamed n x = 2 ∧ (∀ m ∈ s.chip.liveSessions, m ≤ 256) :=
  ⟨256, 5, 7, (tJoin [(F.trust_member, 1), (F.group_n, 3)] 2).tilesRange [7] 0 308, tJoin [(F.trust_member, 1), (F.group_n, 3)] 2, tTile_good _ _ (by decide +kernel), rfl, by decide +kernel⟩

theorem witness_GroupsAndFirmwareStart_6 : ∃ (n : Nat) (x : Nat) (tl : Nat) (bs : List Nat) (s : State), s.tileGood tl = true ∧ s.tilesRange [tl] 0 (s.chip.ctxSt n x).cmd.dlen = bs ∧ (s.chip.ctxSt n x).phase = .active ∧ (s.chip.ctxSt n x).cmd.opcode = 0xCE ∧ (s.chip.ctxSt n x).wait = .activity ∧ (s.chip.ctxSt n x).tiles = [tl] ∧ s.joinNamed n x = 3 ∧ (∀ m ∈ s.chip.liveSessions, m ≤ 256) :=
  ⟨256, 5, 7, (tJoin [(F.mossStatus_mounted, 1)] 3).tilesRange [7] 0 308, tJoin [(F.mossStatus_mounted, 1)] 3, tTile_good _ _ (by decide +kernel), rfl, by decide +kernel⟩

theorem witness_GroupsAndFirmwareStart_7 : ∃ (n : Nat) (x : Nat) (kind : Nat) (s : State), (s.chip.ctxSt n x).phase = .active ∧ (s.chip.ctxSt n x).cmd.opcode = 0xCE ∧ (s.chip.ctxSt n x).wait = .activity ∧ s.joinNamed n x ≠ kind :=
  ⟨256, 5, 1, (tState [(F.trust_member, 1)] fun c => ((tServed c 256 5 0xCE fun k => { k with dlen := 308 }).modCtx 256 5 fun k => { k with phase := .active, wait := .activity, tiles := [7] })), by decide +kernel⟩

theorem witness_GroupsAndFirmwareStart_8 : ∃ (n : Nat) (x : Nat) (s : State), s.chip.serves n x 0xC0 = true ∧ 0 < (s.chip.ctxSt n x).cmd.dlen ∧ s.chip.contexts (fun k => k.phase == .active && k.cmd.opcode == 0xC0) = [] :=
  ⟨256, 5, (tState [] fun c => (tServed c 256 5 0xC0 fun k => { k with dlen := 2 ^ 24 })), by decide +kernel⟩

theorem witness_GroupsAndFirmwareStart_9 : ∃ (n : Nat) (x : Nat) (m : Nat) (y : Nat) (s : State), s.chip.serves n x 0xC0 = true ∧ (m, y) ≠ (n, x) ∧ (m, y) ∈ s.chip.contexts (fun k => k.phase == .active && k.cmd.opcode == 0xC0) :=
  ⟨256, 5, 256, 6, (tState [] fun c => (tServed c 256 5 0xC0 fun k => { k with dlen := 2 ^ 24 }).modCtx 256 6 fun k => { k with phase := .active, cmd := { k.cmd with opcode := 0xC0 } }), by decide +kernel⟩

theorem witness_GroupsAndFirmwareStart_10 : ∃ (n : Nat) (x : Nat) (s : State), s.chip.serves n x 0xC1 = true ∧ s.chip.trust.staged = none :=
  ⟨256, 5, (tState [(F.trust_window_open, 1), (F.trust_window_held, 1), (F.trust_holder, 256)] fun c => { (tServed c 256 5 0xC1) with trust := { c.trust with released := some 0 } }), by decide +kernel⟩

theorem witness_GroupsAndFirmwareStart_11 : ∃ (n : Nat) (x : Nat) (slot : Nat) (s : State), s.chip.serves n x 0xC1 = true ∧ s.chip.trust.staged = some slot ∧ s.chip.imageValid 0 (tabGet s.chip.trust.images (2 + slot)) = true ∧ (∀ d < 24, s.chip.rd (F.hlinkStatus_state d) ≠ 5) ∧ (∀ m ∈ s.chip.liveSessions, m ≤ 256) :=
  ⟨256, 5, 1, (tState [(F.trust_window_open, 1), (F.trust_window_held, 1), (F.trust_holder, 256)] fun c => { (tServed c 256 5 0xC1) with trust := { c.trust with released := some 0, staged := some 1, images := [(3, ⟨true, 9, 0, 0, 0, 0, true⟩)] } }), by decide +kernel⟩

theorem witness_GroupsAndFirmwareStart_12 : ∃ (a : Activation) (s : State), s.chip.trust.act = some a ∧ a.hellos = [] ∧ s.chip.now ≤ a.since + 170 * 10 ^ 6 ∧ (s.chip.ctxSt a.session a.ctx).phase = .active ∧ (s.chip.ctxSt a.session a.ctx).cmd.opcode = 0xC1 ∧ (tabGet s.chip.trust.images (2 + a.slot) : ImageRec).rollback ≤ s.chip.rd F.otp_rollback ∧ (∀ m ∈ s.chip.liveSessions, m ≤ 256) :=
  ⟨⟨0, 256, 5, 1, []⟩, (tState [] fun c => { ((tServed c 256 5 0xC1).modCtx 256 5 fun k => { k with phase := .active, wait := .activity }) with trust := { c.trust with act := some ⟨0, 256, 5, 1, []⟩ } }), by decide +kernel⟩

theorem witness_GroupsAndFirmwareStart_13 : ∃ (a : Activation) (s : State), s.chip.trust.act = some a ∧ a.since + 170 * 10 ^ 6 < s.chip.now :=
  ⟨⟨0, 256, 5, 1, []⟩, (tState [] fun c => { c with now := 170000001, trust := { c.trust with act := some ⟨0, 256, 5, 1, []⟩ } }), by decide +kernel⟩

theorem witness_GroupsAndFirmwareStart_14 : ∃ (v : Nat) (s : State), s.chip.trust.act = none ∧ s.chip.power.app = true ∧ s.chip.appImage.rollback = v ∧ s.chip.rd F.otp_rollback < v ∧ v ≤ 1024 :=
  ⟨1024, (tState [(F.otp_rollback, 5)] fun c => { c with power := { c.power with app := true }, trust := { c.trust with images := [(2, ⟨true, 9, 1024, 0, 0, 0, true⟩)] } }), by decide +kernel⟩

theorem witness_GroupsAndFirmwareStart_15 : ∃ (s : State), s.chip.trust.act = none ∧ s.chip.power.app = false :=
  ⟨(tState []), by decide +kernel⟩

theorem witness_GroupsAndFirmwareStart_16 : ∃ (a : Activation) (s : State), s.chip.trust.act = some a ∧ a.hellos = [] ∧ (s.chip.ctxSt a.session a.ctx).phase = .active ∧ (s.chip.ctxSt a.session a.ctx).cmd.opcode = 0xC1 ∧ a.since + 170 * 10 ^ 6 ≤ s.chip.now :=
  ⟨⟨0, 256, 5, 1, []⟩, (tState [] fun c => { ((tServed c 256 5 0xC1).modCtx 256 5 fun k => { k with phase := .active, wait := .activity }) with now := 170 * 10 ^ 6, trust := { c.trust with act := some ⟨0, 256, 5, 1, []⟩ } }), by decide +kernel⟩

theorem witness_GroupsAndFirmwareStart_17 : ∃ (s : State), s.chip.trust.act = none ∨ (∃ a ∈ s.chip.trust.act, s.chip.now < a.since + 170 * 10 ^ 6) :=
  ⟨(tState []), by decide +kernel⟩

theorem witness_GroupsAndFirmwareStart_18 : ∃ (n : Nat) (x : Nat) (s : State), s.chip.serves n x 0xC8 = true ∧ (∀ m ∈ s.chip.liveSessions, m ≤ 256) :=
  ⟨256, 5, (tState [] fun c => (tServed c 256 5 0xC8)), by decide +kernel⟩

theorem witness_RegistersAreReadAndWritten_4 : ∃ (a : Nat) (v : Nat) (s : State), addressOk a = false :=
  ⟨0x60000000, 0, (tState []), by decide +kernel⟩

theorem witness_RegistersAreReadAndWritten_5 : ∃ (d : Nat) (v : Nat) (g : Nat) (s : State), d < 24 ∧ g = max 1000 (min 12000 (v / 2 ^ 16 % 2 ^ 16)) ∧ v % 8 = 1 :=
  ⟨23, 0xFFFF0001, 12000, (tState []), by decide +kernel⟩

theorem witness_RegistersAreReadAndWritten_6 : ∃ (d : Nat) (v : Nat) (g : Nat) (s : State), d < 24 ∧ g = max 1000 (min 12000 (v / 2 ^ 16 % 2 ^ 16)) ∧ v % 8 = 2 :=
  ⟨23, 0xFFFF0002, 12000, (tState []), by decide +kernel⟩

theorem witness_RegistersAreReadAndWritten_7 : ∃ (n : Nat) (x : Nat) (s : State), s.chip.serves n x 0xA0 = true ∧ (s.chip.ctxSt n x).cmd.p0 = 0x50400000 ∧ (s.chip.ctxSt n x).cmd.p1 = 1 ∧ (∀ m ∈ s.chip.liveSessions, m ≤ 256) :=
  ⟨256, 5, (tState [(F.hostCfg_mode, 3)] fun c => (tServed c 256 5 0xA0 fun k => { k with p0 := 0x50400000, p1 := 1 })), by decide +kernel⟩

theorem witness_RegistersAreReadAndWritten_8 : ∃ (n : Nat) (x : Nat) (p : Nat) (s : State), s.chip.serves n x 0xA0 = true ∧ p < 8 ∧ (s.chip.ctxSt n x).cmd.p0 = 0x50400004 + 4 * p ∧ (s.chip.ctxSt n x).cmd.p1 = 1 ∧ (∀ m ∈ s.chip.liveSessions, m ≤ 256) :=
  ⟨256, 5, 7, (tState [(F.hostPort_drops 7, 65535), (F.hostPort_up 7, 1)] fun c => (tServed c 256 5 0xA0 fun k => { k with p0 := 0x50400020, p1 := 1 })), by decide +kernel⟩

theorem witness_RegistersAreReadAndWritten_9 : ∃ (n : Nat) (x : Nat) (s : State), s.chip.serves n x 0xA0 = true ∧ ((s.chip.ctxSt n x).cmd.p1 < 1 ∨ 64 < (s.chip.ctxSt n x).cmd.p1 ∨ (s.chip.ctxSt n x).cmd.p0 % 4 ≠ 0) :=
  ⟨256, 5, (tState [] fun c => (tServed c 256 5 0xA0 fun k => { k with p0 := 0x50400022, p1 := 1 })), by decide +kernel⟩

theorem witness_RegistersAreReadAndWritten_10 : ∃ (n : Nat) (x : Nat) (s : State), s.chip.serves n x 0xA0 = true ∧ (s.chip.ctxSt n x).cmd.p1 = 1 ∧ (s.chip.ctxSt n x).cmd.p0 % 4 = 0 ∧ addressOk (s.chip.ctxSt n x).cmd.p0 = false :=
  ⟨256, 5, (tState [] fun c => (tServed c 256 5 0xA0 fun k => { k with p0 := 0x60400020, p1 := 1 })), by decide +kernel⟩

theorem witness_RegistersAreReadAndWritten_11 : ∃ (n : Nat) (x : Nat) (s : State), s.chip.serves n x 0xA0 = true ∧ (s.chip.ctxSt n x).cmd.p1 = 1 ∧ (s.chip.ctxSt n x).cmd.p0 % 4 = 0 ∧ addressOk (s.chip.ctxSt n x).cmd.p0 = true ∧ findReg (s.chip.ctxSt n x).cmd.p0 = none ∧ (∀ m ∈ s.chip.liveSessions, m ≤ 256) :=
  ⟨256, 5, (tState [] fun c => (tServed c 256 5 0xA0 fun k => { k with p0 := 0x50F03000, p1 := 1 })), by decide +kernel⟩

theorem witness_RegistersAreReadAndWritten_12 : ∃ (n : Nat) (x : Nat) (s : State), s.chip.serves n x 0xA1 = true ∧ 1 ≤ (s.chip.ctxSt n x).cmd.p1 ∧ (s.chip.ctxSt n x).cmd.p1 ≤ 16 ∧ (s.chip.ctxSt n x).cmd.dlen = 4 * (s.chip.ctxSt n x).cmd.p1 ∧ (s.chip.ctxSt n x).cmd.p0 % 4 = 0 ∧ (∀ i < (s.chip.ctxSt n x).cmd.p1, addressOk ((s.chip.ctxSt n x).cmd.p0 + 4 * i) = true) :=
  ⟨256, 5, (tState [] fun c => (tServed c 256 5 0xA1 fun k => { k with p0 := 0x50400000, p1 := 16, dlen := 64 })), by decide +kernel⟩

theorem witness_RegistersAreReadAndWritten_13 : ∃ (p : Nat) (s : State), p < 8 :=
  ⟨7, (tState [(F.hostPort_drops 7, 65535), (F.hostPort_up 7, 1)]), by decide +kernel⟩

theorem witness_RegistersAreReadAndWritten_14 : ∃ (a : Nat) (n : Nat) (bs : List Nat) (s : State), addressOk a = false :=
  ⟨0x60000000, 0, [5], (tState []), by decide +kernel⟩

theorem witness_RegistersAreReadAndWritten_15 : ∃ (a : Nat) (v : Nat) (s : State), addressOk a = true ∧ findReg a = none :=
  ⟨0x50F03000, 3, (tState []), by decide +kernel⟩

theorem witness_RegistersAreReadAndWritten_16 : ∃ (v : Nat) (s : State), s.chip.rd F.trust_debug_unlocked = 0 :=
  ⟨3, (tState []), by decide +kernel⟩

theorem witness_RegistersAreReadAndWritten_17 : ∃ (v : Nat) (s : State), s.chip.rd F.trust_debug_unlocked = 0 :=
  ⟨4294967295, (tState [(F.chain_mismatch, 1), (F.chain_sys_addr, 5)]), by decide +kernel⟩

theorem witness_RegistersAreReadAndWritten_18 : ∃ (v : Nat) (rest : List Nat) (s : State), rest.length < 4 ∧ s.chip.rd F.trust_debug_unlocked = 1 :=
  ⟨0x12340003, [1, 2, 3], (tState [(F.trust_debug_unlocked, 1)]), by decide +kernel⟩

theorem witness_RegistersAreReadAndWritten_19 : ∃ (slot : Nat) (s : State), s.chip.mgmt.recovery = true ∧ s.chip.rd F.rcvCtrl_busy = 0 :=
  ⟨1, (tState [] fun c => { c with mgmt := { c.mgmt with recovery := true, slotImage := [(2 ^ 24 + 4, 5)] } }), by decide +kernel⟩

theorem witness_RegistersAreReadAndWritten_20 : ∃ (data : Nat) (s : State), s.chip.mgmt.recovery = true ∧ s.chip.rd F.rcvCtrl_busy = 0 ∧ s.chip.rd F.rcvCtrl_addr + 4 < 2 ^ 24 ∧ data < 2 ^ 32 ∧ tabGet s.chip.mgmt.slotImage (s.chip.rd F.rcvCtrl_slot * 2 ^ 24 + s.chip.rd F.rcvCtrl_addr / 4 * 4) = 0 :=
  ⟨0x12345678, (tState [(F.rcvCtrl_addr, 16777211), (F.rcvCtrl_slot, 1)] fun c => { c with mgmt := { c.mgmt with recovery := true } }), by decide +kernel⟩

theorem witness_RegistersAreReadAndWritten_21 : ∃ (data : Nat) (slot : Nat) (s : State), s.chip.mgmt.recovery = false :=
  ⟨0, 0, (tState []), by decide +kernel⟩

theorem witness_RegistersAreReadAndWritten_22 : ∃ (data : Nat) (s : State), s.chip.mgmt.recovery = true ∧ s.chip.rd F.rcvCtrl_busy = 1 :=
  ⟨0, (tState [(F.rcvCtrl_busy, 1)] fun c => { c with mgmt := { c.mgmt with recovery := true } }), by decide +kernel⟩

theorem witness_RegistersAreReadAndWritten_23 : ∃ (s : State), s.chip.rd F.rcvCtrl_busy = 1 ∧ s.chip.mgmt.heldWrite = none :=
  ⟨(tState [(F.rcvCtrl_busy, 1)]), by decide +kernel⟩

theorem witness_RegistersAreReadAndWritten_24 : ∃ (s : State), s.chip.rd F.rcvCtrl_busy = 0 :=
  ⟨(tState []), by decide +kernel⟩

theorem witness_EventsAndRecordsAreServed_1 : ∃ (n : Nat) (x : Nat) (i : Nat) (s : State), s.chip.serves n x 0xA2 = true ∧ (s.chip.ctxSt n x).cmd.p0 = i ∧ (s.chip.ctxSt n x).cmd.p1 = 1 ∧ i < 576 ∧ (∀ m ∈ s.chip.liveSessions, m ≤ 256) :=
  ⟨256, 5, 575, (tState [(F.evCnt_count 575, 9)] fun c => (tServed c 256 5 0xA2 fun k => { k with p0 := 575, p1 := 1 })), by decide +kernel⟩

theorem witness_EventsAndRecordsAreServed_2 : ∃ (n : Nat) (x : Nat) (s : State), s.chip.serves n x 0xA2 = true ∧ ((s.chip.ctxSt n x).cmd.p1 < 1 ∨ 64 < (s.chip.ctxSt n x).cmd.p1 ∨ 576 < (s.chip.ctxSt n x).cmd.p0 + (s.chip.ctxSt n x).cmd.p1) :=
  ⟨256, 5, (tState [] fun c => (tServed c 256 5 0xA2 fun k => { k with p0 := 576, p1 := 1 })), by decide +kernel⟩

theorem witness_EventsAndRecordsAreServed_3 : ∃ (n : Nat) (x : Nat) (s : State), s.chip.serves n x 0xA3 = true ∧ (s.chip.ctxSt n x).cmd.p0.testBit 0 = true ∧ (∀ m ∈ s.chip.liveSessions, m ≤ 256) :=
  ⟨256, 5, (tState [] fun c => (tServed c 256 5 0xA3 fun k => { k with p0 := 1 })), by decide +kernel⟩

theorem witness_EventsAndRecordsAreServed_4 : ∃ (n : Nat) (x : Nat) (s : State), s.chip.serves n x 0xA3 = true ∧ (s.chip.ctxSt n x).cmd.p0.testBit 0 = false :=
  ⟨256, 5, (tState [] fun c => { (tServed c 256 5 0xA3) with ev := { c.ev with subs := [(255, some default)] } }), by decide +kernel⟩

theorem witness_EventsAndRecordsAreServed_5 : ∃ (i : Nat) (t0 : Nat) (f : FoldSt) (s : State), tabGet s.chip.ev.folds i = f ∧ f.lastAt = some t0 ∧ f.folded ≠ 0 ∧ t0 + s.chip.rd F.evCtrl_gap_us * 1000 ≤ s.chip.now ∧ s.chip.rd F.evSeq_seq < 2 ^ 64 - 1 :=
  ⟨575, 3, ⟨some 3, 4, 5, [6]⟩, (tState [] fun c => { c with now := 1000003, ev := { c.ev with folds := [(575, ⟨some 3, 4, 5, [6]⟩)] } }), by decide +kernel⟩

theorem witness_EventsAndRecordsAreServed_6 : ∃ (i : Nat) (t0 : Nat) (s : State), (tabGet s.chip.ev.folds i).folded = 0 ∨ ((tabGet s.chip.ev.folds i).lastAt = some t0 ∧ s.chip.now < t0 + s.chip.rd F.evCtrl_gap_us * 1000) :=
  ⟨0, 0, (tState []), by decide +kernel⟩

theorem witness_EventsAndRecordsAreServed_7 : ∃ (n : Nat) (sub : SubSt) (s : State), tabGet s.chip.ev.subs (n - 1) = some sub ∧ s.chip.rd (F.use_frozen (n - 1)) = 0 ∧ sub.since + s.chip.rd F.evCtrl_resend_ms * 10 ^ 6 ≤ s.chip.now :=
  ⟨256, ⟨0, 1, 0⟩, (tState [(F.evSeq_seq, 2)] fun c => { c with now := 10 ^ 9, ev := { c.ev with kept := [default], subs := [(255, some ⟨0, 1, 0⟩)] } }), by decide +kernel⟩

theorem witness_EventsAndRecordsAreServed_8 : ∃ (n : Nat) (s : State), tabGet s.chip.ev.subs (n - 1) = none :=
  ⟨0, (tState []), by decide +kernel⟩

theorem witness_EventsAndRecordsAreServed_9 : ∃ (s : State), s.chip.rd F.lichenCtrl_frozen = 0 :=
  ⟨(tState [(F.skyStatus_valid, 1)] fun c => { c with now := 400 }), by decide +kernel⟩

theorem witness_EventsAndRecordsAreServed_10 : ∃ (s : State), s.chip.rd F.lichenCtrl_frozen = 1 :=
  ⟨(tState [(F.lichenCtrl_frozen, 1)]), by decide +kernel⟩

theorem witness_EventsAndRecordsAreServed_11 : ∃ (s : State), s.chip.rd F.lichenCtrl_frozen = 1 ∧ s.chip.lichen.stopped = false ∧ s.chip.triggers 0x0407 = false ∧ s.chip.triggers 550 = false :=
  ⟨(tState [(F.lichenCtrl_frozen, 1), (F.lichenFreeze_f, 77)]), by decide +kernel⟩

theorem witness_EventsAndRecordsAreServed_12 : ∃ (s : State), s.chip.rd F.lichenCtrl_frozen = 0 :=
  ⟨(tState []), by decide +kernel⟩

theorem witness_EventsAndRecordsAreServed_13 : ∃ (code : Nat) (path : Nat) (data : List Nat) (a : List LichenEntry) (b : List LichenEntry) (s : State), s.chip.lichen.stopped = false ∧ s.chip.frozenRecord = false ∧ code ≠ 0x0400 ∧ s.chip.triggers code = false ∧ s.chip.ring (s.chip.pathDie path) = a ++ b ∧ (∀ y ∈ a, s.chip.thisCycle (s.chip.pathDie path) y = false) ∧ (∀ y ∈ b, s.chip.thisCycle (s.chip.pathDie path) y = true) ∧ (b.map LichenEntry.place).Pairwise (· ≤ ·) ∧ a.length + b.length < 32768 :=
  ⟨193, 0x30E0, [3, 1], [], [⟨0, 0, 0, 0x30E0, 194, 2, []⟩], (tState [] fun c => { c with lichen := { c.lichen with ring1 := [⟨0, 0, 0, 0x30E0, 194, 2, []⟩] } }), by decide +kernel⟩

theorem witness_EventsAndRecordsAreServed_14 : ∃ (code : Nat) (path : Nat) (data : List Nat) (b : List LichenEntry) (s : State), s.chip.lichen.stopped = false ∧ s.chip.frozenRecord = false ∧ code ≠ 0x0400 ∧ s.chip.triggers code = true ∧ s.chip.ring (s.chip.pathDie path) = b ∧ s.chip.ring (1 - s.chip.pathDie path) = [] ∧ (∀ y ∈ b, s.chip.thisCycle (s.chip.pathDie path) y = true) ∧ (b.map LichenEntry.place).Pairwise (· ≤ ·) ∧ b.length < 32767 :=
  ⟨145, 0x2BE0, default, [⟨0, 0, 0, 0x2BE0, 193, 0, []⟩], (tState [(F.lichenTrig_en 2, 1), (F.lichenTrig_event 2, 145)] fun c => { c with lichen := { c.lichen with ring0 := [⟨0, 0, 0, 0x2BE0, 193, 0, []⟩] } }), by decide +kernel⟩

theorem witness_EventsAndRecordsAreServed_15 : ∃ (n : Nat) (x : Nat) (s : State), s.chip.serves n x 0xE1 = true ∧ s.chip.lichen.stopped = false ∧ s.chip.frozenRecord = false ∧ (s.chip.dieSt 0).out = false ∧ s.chip.triggers 0x0405 = false ∧ (∀ e ∈ s.chip.ring 0, e.time ≠ s.chip.stamp 0) ∧ (∀ m ∈ s.chip.liveSessions, m ≤ 256) :=
  ⟨256, 5, (tState [] fun c => (tServed c 256 5 0xE1 fun k => { k with p0 := 1, p3 := 9 })), by decide +kernel⟩

theorem witness_EventsAndRecordsAreServed_16 : ∃ (n : Nat) (x : Nat) (s : State), s.chip.serves n x 0xE2 = true ∧ s.chip.rd F.lichenCtrl_frozen = 1 ∧ s.chip.triggers 0x0407 = false ∧ s.chip.triggers 550 = false ∧ (∀ m ∈ s.chip.liveSessions, m ≤ 256) :=
  ⟨256, 5, (tState [(F.lichenCtrl_frozen, 1)] fun c => (tServed c 256 5 0xE2)), by decide +kernel⟩

theorem witness_EventsAndRecordsAreServed_17 : ∃ (n : Nat) (x : Nat) (s : State), s.chip.serves n x 0xE3 = true ∧ s.chip.triggers 0x0408 = false ∧ s.chip.lichen.stopped = false ∧ (∀ m ∈ s.chip.liveSessions, m ≤ 256) ∧ (s.chip.dieSt 0).out = false :=
  ⟨256, 5, (tState [(F.trust_window_open, 1), (F.trust_window_held, 1), (F.trust_holder, 256), (F.lichenCtrl_frozen, 1), (F.lichenCtrl_saved, 1), (F.lichenCnt_seq 1, 8)] fun c => { (tServed c 256 5 0xE3 fun k => { k with cflags := 1 }) with trust := { c.trust with released := some 0 }, lichen := { c.lichen with ring0 := [default], saved := [default] } }), by decide +kernel⟩

theorem witness_EventsAndRecordsAreServed_18 : ∃ (n : Nat) (x : Nat) (e : LichenEntry) (s : State), s.chip.serves n x 0xE0 = true ∧ (s.chip.ctxSt n x).cmd.p0 = 1 ∧ (s.chip.ctxSt n x).cmd.p1 = 0 ∧ (s.chip.ctxSt n x).cmd.dlen = 64 ∧ s.chip.lichen.ring0 = [e] ∧ (∀ m ∈ s.chip.liveSessions, m ≤ 256) :=
  ⟨256, 5, default, (tState [] fun c => { (tServed c 256 5 0xE0 fun k => { k with dlen := 64, p0 := 1 }) with lichen := { c.lichen with ring0 := [default] } }), by decide +kernel⟩

theorem witness_EventsAndRecordsAreServed_19 : ∃ (n : Nat) (x : Nat) (d : Nat) (tl : Nat) (s : State), s.chip.serves n x 0xE4 = true ∧ (s.chip.ctxSt n x).cmd.p0 = d ∧ s.chip.rd (F.traceCtrl_en d) = 1 ∧ (s.chip.ctxSt n x).cmd.dlen = 32 ∧ s.chip.chooseTiles (s.chip.sess n).die 1 = [tl] ∧ tl < 2 ^ 21 ∧ (∀ m ∈ s.chip.liveSessions, m ≤ 256) :=
  ⟨256, 5, 23, 0, ({ (tState [(F.traceCtrl_en 23, 1), (F.traceBase_base 23, 0x142000000)] fun c => (tServed c 256 5 0xE4 fun k => { k with dlen := 32, p0 := 23 })) with dram := [(0x142000003, 7)] }), by decide +kernel⟩

theorem witness_EventsAndRecordsAreServed_20 : ∃ (n : Nat) (x : Nat) (d : Nat) (s : State), s.chip.serves n x 0xE4 = true ∧ (s.chip.ctxSt n x).cmd.p0 = d ∧ s.chip.rd (F.traceCtrl_en d) = 0 ∧ (∀ m ∈ s.chip.liveSessions, m ≤ 256) :=
  ⟨256, 5, 23, (tState [] fun c => (tServed c 256 5 0xE4 fun k => { k with dlen := 32, p0 := 23 })), by decide +kernel⟩

theorem witness_ContainmentHolds_1 : ∃ (m : Nat) (space : Nat) (kind : Nat) (a : Nat) (len : Nat) (data : List Nat) (s : State), 360 < m ∨ s.chip.rd (F.mst_frozen m) = 1 ∨ s.chip.masterOut m = true ∨ (m = 360 ∧ s.chip.rd F.trust_debug_unlocked = 0) :=
  ⟨360, 0, 0, 0, 0, default, (tState []), by decide +kernel⟩

theorem witness_ContainmentHolds_2 : ∃ (m : Nat) (a : Nat) (len : Nat) (data : List Nat) (s : State), m < 16 ∧ m % 8 ≠ 0 ∧ s.chip.issues m = true ∧ s.chip.permits m 0 1 a len = false :=
  ⟨15, 2 ^ 50 + 64, 8, default, (tState []), by decide +kernel⟩

theorem witness_ContainmentHolds_3 : ∃ (n : Nat) (a : Nat) (len : Nat) (data : List Nat) (s : State), 1 ≤ n ∧ n ≤ 256 ∧ (s.chip.sess n).die < 2 ∧ s.chip.issues (79 + n) = true ∧ s.chip.permits (79 + n) 0 0 a len = false :=
  ⟨256, 64, 8, default, (tState []), by decide +kernel⟩

theorem witness_ContainmentHolds_4 : ∃ (e : Nat) (a : Nat) (len : Nat) (data : List Nat) (s : State), e < 2 ∧ s.chip.issues (8 * e) = true ∧ s.chip.permits (8 * e) 0 0 a len = false :=
  ⟨1, 64, 8, default, (tState []), by decide +kernel⟩

theorem witness_ContainmentHolds_5 : ∃ (m : Nat) (a : Nat) (s : State), m < 360 ∧ m % 8 ≠ 0 ∧ s.chip.issues m = true ∧ s.chip.permits m 0 0 a 64 = true ∧ a % 64 = 0 ∧ dramMapped a = true ∧ a % 0x200000000 < 0x140000000 ∧ (s.chip.dieSt (stackOf a)).out = false ∧ (s.chip.bufSt (stackOf a)).merge = [] ∧ s.chip.badBlock a = false :=
  ⟨15, 0x2000, ({ (tState [] fun c => c.setWindow 15 15 true true true false 0x2000 0x3000) with dram := [(0x2001, 5)] }), by decide +kernel⟩

theorem witness_ContainmentHolds_6 : ∃ (v : Nat) (s : State), s.chip.issues 360 = true ∧ s.chip.permits 360 1 1 0x50400000 4 = true :=
  ⟨0x12340007, (tState [(F.trust_debug_unlocked, 1)] fun c => c.setWindow 360 2 true true true true 0x40000000 0x60000000), by decide +kernel⟩

theorem witness_ContainmentHolds_7 : ∃ (m : Nat) (idx : Nat) (base : Nat) (stop : Nat) (rd : Bool) (wr : Bool) (s : State), m < 16 ∧ m % 8 ≠ 0 ∧ idx < 16 ∧ base % 4096 = 0 ∧ stop % 4096 = 0 ∧ stop ≤ 7 * 2 ^ 30 ∧ wr = false :=
  ⟨15, 15, 4096, 7516192768, true, default, (tState []), by decide +kernel⟩

theorem witness_ContainmentHolds_8 : ∃ (m : Nat) (idx : Nat) (base : Nat) (stop : Nat) (en : Bool) (rd : Bool) (wr : Bool) (space : Bool) (s : State), 361 ≤ m ∨ 16 ≤ idx ∨ (m < 16 ∧ m % 8 = 0) :=
  ⟨8, 0, 0, 0, default, default, default, default, (tState []), by decide +kernel⟩

theorem witness_ContainmentHolds_9 : ∃ (n : Nat) (x : Nat) (s : State), s.chip.serves n x 0xC9 = true ∧ (∀ k ∈ s.chip.liveSessions, k ≤ 256) :=
  ⟨256, 5, (tState [(F.trust_window_open, 1), (F.trust_window_held, 1), (F.trust_holder, 256)] fun c => { (tServed c 256 5 0xC9) with trust := { c.trust with released := some 0 } }), by decide +kernel⟩

theorem witness_ContainmentHolds_10 : ∃ (n : Nat) (x : Nat) (d : Nat) (s : State), s.chip.serves n x 0xCA = true ∧ d < 24 ∧ (s.chip.ctxSt n x).cmd.p0 = clusterPath d 7 ∧ s.chip.rd (F.mst_frozen (336 + d)) = 1 ∧ (∀ k ∈ s.chip.liveSessions, k ≤ 256) ∧ (s.chip.readSt d).cur = none ∧ (s.chip.readSt d).queue = [] :=
  ⟨256, 5, 23, (tState [(F.trust_window_open, 1), (F.trust_window_held, 1), (F.trust_holder, 256), (F.mst_frozen 359, 1)] fun c => { ((tServed c 256 5 0xCA fun k => { k with p0 := clusterPath 23 7 }).modClu 23 fun h => { h with frozen := true }) with trust := { c.trust with released := some 0 } }), by decide +kernel⟩

theorem witness_ContainmentHolds_11 : ∃ (n : Nat) (x : Nat) (s : State), s.chip.serves n x 0xCA = true ∧ (∀ k ∈ s.chip.liveSessions, k ≤ 256) ∧ ((domainOf (s.chip.ctxSt n x).cmd.p0).any fun k => k.masters.any fun m => s.chip.rd (F.mst_frozen m) == 1) = false :=
  ⟨256, 5, (tState [(F.trust_window_open, 1), (F.trust_window_held, 1), (F.trust_holder, 256)] fun c => { (tServed c 256 5 0xCA fun k => { k with p0 := clusterPath 23 7 }) with trust := { c.trust with released := some 0 } }), by decide +kernel⟩

theorem witness_ResetsAndSanitiseTakeEffect_1 : ∃ (n : Nat) (x : Nat) (s : State), s.chip.serves n x 0xA5 = true ∧ s.chip.NoBurn ∧ s.chip.launches = [] ∧ (∀ k ∈ s.chip.liveSessions, k ≤ 256) ∧ s.chip.rd F.hostCfg_mode = s.chip.host.modeNext ∧ (∀ d < 24, s.chip.load d = none ∧ (s.chip.readSt d).cur = none) ∧ (∀ k ∈ s.chip.liveSessions, ∀ e ∈ (s.chip.sess k).ctx, e.2.snoop = none ∧ ((k ≠ n ∨ e.1 ≠ x) → e.2.phase = .free ∨ e.2.phase = .waiting)) :=
  ⟨256, 5, (tState [(F.hlinkStatus_state 23, 5), (F.spinStatus_state 23, 6)] fun c => (((tServed c 256 5 0xA5).modCtx 256 7 fun k => { k with phase := .waiting, cmd := { k.cmd with opcode := 0x42 } }).modBurn 23 fun b => { b with queue := [default] })), by simp only [Chip.NoBurn]; decide +kernel⟩

theorem witness_ResetsAndSanitiseTakeEffect_2 : ∃ (n : Nat) (x : Nat) (s : State), s.chip.serves n x 0xA6 = true ∧ s.chip.NoBurn ∧ s.chip.power.tripped = false ∧ (∀ k ∈ s.chip.liveSessions, k ≤ 256) :=
  ⟨256, 5, (tState [(F.otp_seals, 9), (F.hlinkStatus_state 23, 5)] fun c => (tServed c 256 5 0xA6)), by simp only [Chip.NoBurn]; decide +kernel⟩

theorem witness_ResetsAndSanitiseTakeEffect_3 : ∃ (n : Nat) (x : Nat) (found : List (Nat × Nat × TargetParams)) (s : State), s.chip.serves n x 0xC2 = true ∧ (∀ e ∈ found, e.1 < 8) ∧ s.chip.moss.op = none ∧ s.chip.NoBurn ∧ (∀ k ∈ s.chip.liveSessions, k ≤ 256) ∧ s.chip.contexts (fun k => k.phase == .active) = [] :=
  ⟨256, 5, default, (tState [(F.trust_window_open, 1), (F.trust_window_held, 1), (F.trust_holder, 256), (F.mossStatus_sdiscard, 1)] fun c => { (tServed c 256 5 0xC2) with trust := { c.trust with released := some 0 }, moss := { c.moss with map := [(4, default)] } }), by simp only [Chip.NoBurn]; decide +kernel⟩

theorem witness_ResetsAndSanitiseTakeEffect_4 : ∃ (n : Nat) (x : Nat) (found : List (Nat × Nat × TargetParams)) (s : State), s.chip.serves n x 0xC3 = true ∧ (∀ e ∈ found, e.1 < 8) ∧ s.chip.moss.op = none ∧ s.chip.NoBurn ∧ (∀ k ∈ s.chip.liveSessions, k ≤ 256) ∧ s.chip.contexts (fun k => k.phase == .active) = [] :=
  ⟨256, 5, default, (tState [(F.trust_window_open, 1), (F.trust_window_held, 1), (F.trust_holder, 256)] fun c => { (tServed c 256 5 0xC3) with trust := { c.trust with released := some 0 }, moss := { c.moss with map := [(4, default)] } }), by simp only [Chip.NoBurn]; decide +kernel⟩

theorem witness_ResetsAndSanitiseTakeEffect_5 : ∃ (n : Nat) (x : Nat) (found : List (Nat × Nat × TargetParams)) (s : State), s.chip.serves n x 0xC2 = true ∧ s.chip.moss.op.isSome = true :=
  ⟨256, 5, default, (tState [(F.trust_window_open, 1), (F.trust_window_held, 1), (F.trust_holder, 256)] fun c => { (tServed c 256 5 0xC2) with trust := { c.trust with released := some 0 }, moss := { c.moss with op := some (false, 1, 2) } }), by decide +kernel⟩

theorem witness_ResetsAndSanitiseTakeEffect_6 : ∃ (sani : Bool) (cur : Nat) (total : Nat) (s : State), s.chip.moss.op = some (sani, cur, total) ∧ total ≤ cur ∧ (∀ k ∈ s.chip.liveSessions, k ≤ 256) ∧ s.chip.contexts (fun k => k.phase == .active) = [] ∧ (∀ d < 24, s.chip.load d = none) :=
  ⟨true, 2, 2, (tState [] fun c => { c with moss := { c.moss with op := some (true, 2, 2) } }), by decide +kernel⟩

theorem witness_ResetsAndSanitiseTakeEffect_7 : ∃ (sani : Bool) (cur : Nat) (total : Nat) (s : State), s.chip.moss.op = none ∨ (s.chip.moss.op = some (sani, cur, total) ∧ cur < total) :=
  ⟨default, 0, 0, (tState []), by decide +kernel⟩

theorem witness_FlashIsFoundReadAndProgrammed_1 : ∃ (ch : Nat) (n : Nat) (t : Nat) (a : Option Bool) (p : TargetParams) (s : State), ch < 8 ∧ t < 8 ∧ targetOk p = true ∧ s.chip.firstPages.getD p.pages = p.pages ∧ s.chip.moss.rebuild = none ∧ (s.chip.rd F.mossStatus_down).testBit ch = false :=
  ⟨7, 99, 7, (some true), ({ dataBytes := 16384, spareBytes := 1864, pages := 4096, blocks := 262144, nvddr3 := true, rate := 3000, tprog := 700000 }), (tState [(F.fcStatus_targets 3 1, 1)]), by decide +kernel⟩

theorem witness_FlashIsFoundReadAndProgrammed_2 : ∃ (ch : Nat) (n : Nat) (t : Nat) (a : Option Bool) (p : TargetParams) (s : State), ch < 8 ∧ t < 8 ∧ (targetOk p = false ∨ s.chip.firstPages.getD p.pages ≠ p.pages) ∧ s.chip.moss.rebuild = none ∧ (s.chip.rd F.mossStatus_down).testBit ch = false :=
  ⟨7, 99, 7, (some true), ({ dataBytes := 16384, spareBytes := 1863, pages := 4096, blocks := 262144, nvddr3 := true, rate := 3000, tprog := 700000 }), (tState []), by decide +kernel⟩

theorem witness_FlashIsFoundReadAndProgrammed_3 : ∃ (ch : Nat) (n : Nat) (a : Option Bool) (s : State), ch < 8 :=
  ⟨7, 99, none, (tState [(F.mossStatus_down, 128)]), by decide +kernel⟩

theorem witness_FlashIsFoundReadAndProgrammed_4 : ∃ (ch : Nat) (tgt : Nat) (blk : Nat) (pg : Nat) (ws : List (Option Nat)) (s : State), s.chip.chUsable ch = false ∨ s.chip.channelRuns ch = false ∨ s.chip.moss.op.isSome = true :=
  ⟨7, 0, 0, 0, [some 120], (tState [(F.fcStatus_state 3 1, 3)]), by decide +kernel⟩

theorem witness_FlashIsFoundReadAndProgrammed_5 : ∃ (ch : Nat) (tgt : Nat) (blk : Nat) (pg : Nat) (ws : List (Option Nat)) (s : State), s.chip.chUsable ch = true ∧ s.chip.channelRuns ch = true ∧ s.chip.moss.op = none ∧ ch < 8 ∧ (∀ w ∈ ws, w.isSome = true) ∧ (∀ w ∈ ws, ∀ n ∈ w, n ≤ 120 ∧ n ≤ s.chip.rd F.mossCtrl_refresh_thr) :=
  ⟨7, 0, 0, 0, [some 96], (tState [(F.fcStatus_state 3 1, 2)]), by decide +kernel⟩

theorem witness_FlashIsFoundReadAndProgrammed_6 : ∃ (ch : Nat) (tgt : Nat) (blk : Nat) (pg : Nat) (k : Nat) (ws : List (Option Nat)) (s : State), s.chip.chUsable ch = true ∧ s.chip.channelRuns ch = true ∧ s.chip.moss.op = none ∧ ch < 8 ∧ (∀ w ∈ ws, w.isSome = true) ∧ (∀ w ∈ ws, ∀ n ∈ w, n ≤ 120) ∧ (ws.any fun w => w.any fun n => decide (s.chip.rd F.mossCtrl_refresh_thr < n)) = true ∧ s.chip.placeSet ch tgt blk = some k :=
  ⟨7, 0, 2, 0, 0, [some 97, some 0], (tPool), by decide +kernel⟩

theorem witness_FlashIsFoundReadAndProgrammed_7 : ∃ (ch : Nat) (tgt : Nat) (blk : Nat) (pg : Nat) (sp : Nat) (g : Nat) (k : Nat) (o : Nat) (ws : List (Option Nat)) (bs : List Nat) (s : State), s.chip.chUsable ch = true ∧ s.chip.channelRuns ch = true ∧ s.chip.poolWrites = true ∧ ch < 8 ∧ (ws.any fun w => w.all fun n => decide (120 < n)) = true ∧ s.chip.granuleAt ch tgt blk pg = some (sp, g) ∧ g < 2 ^ 32 ∧ s.chip.mapEnt sp g = ⟨1, ch, tgt, blk, pg⟩ ∧ s.chip.placeSet ch tgt blk = some k ∧ (s.chip.modMoss fun m => { m with flash := tabErase m.flash (placeKey ch tgt blk pg) }).rebuildPage ch k pg = some bs ∧ tabGet s.chip.moss.openSet 2 = some o ∧ (s.chip.setSt o).slot + 1 < ((s.chip.setSt o).dataChannels o (s.chip.setSt o).row).length :=
  ⟨7, 0, 2, 1, 0, 4294967295, 0, 1, [none], (xorBytes [7, 9] zeroGranule), (tPool [] fun m => { m with map := [(4294967295, ⟨1, 7, 0, 2, 1⟩)], flash := [(placeKey 6 0 2 1, { (default : PageRec) with data := [7, 9] })], sets := [(0, { (default : SetRec) with phase := 2, members := 192, row := 3 }), (1, { (default : SetRec) with phase := 1, members := 255, row := 3, stream := 2 })], openSet := [(2, some 1)] }), by decide +kernel⟩

theorem witness_FlashIsFoundReadAndProgrammed_8 : ∃ (ch : Nat) (tgt : Nat) (blk : Nat) (pg : Nat) (sp : Nat) (g : Nat) (k : Nat) (ws : List (Option Nat)) (s : State), s.chip.chUsable ch = true ∧ s.chip.channelRuns ch = true ∧ s.chip.poolWrites = true ∧ ch < 8 ∧ sp < 2 ^ 8 ∧ (ws.any fun w => w.all fun n => decide (120 < n)) = true ∧ s.chip.granuleAt ch tgt blk pg = some (sp, g) ∧ g < 2 ^ 32 ∧ s.chip.mapEnt sp g = ⟨1, ch, tgt, blk, pg⟩ ∧ s.chip.placeSet ch tgt blk = some k ∧ s.chip.rebuildPage ch k pg = none :=
  ⟨7, 0, 2, 1, 60, 4294967295, 0, [some 121, none], (tPool [] fun m => { m with map := [(mapKey 60 4294967295, ⟨1, 7, 0, 2, 1⟩)], sets := [(0, { (default : SetRec) with phase := 2, members := 192, row := 3 })] }), by decide +kernel⟩

theorem witness_FlashIsFoundReadAndProgrammed_9 : ∃ (k : Nat) (row : Nat) (ch : Nat) (ok : Bool) (s : State), s.chip.channelRuns ch = true ∧ k < lichenSet ∧ ((s.chip.setSt k).phase = 0 ∨ (s.chip.setSt k).members.testBit ch = false) :=
  ⟨3, 9, 7, true, (tPool), by decide +kernel⟩

theorem witness_FlashIsFoundReadAndProgrammed_10 : ∃ (k : Nat) (row : Nat) (ch : Nat) (s : State), s.chip.channelRuns ch = true ∧ k < lichenSet ∧ (s.chip.setSt k).phase ≠ 0 ∧ ch < 8 ∧ (s.chip.setSt k).members.testBit ch = true :=
  ⟨3, 9, 7, (tPool [] fun m => { m with sets := [(3, { (default : SetRec) with phase := 1, members := 255, row := 10, passed := [(9, 7)] })] }), by decide +kernel⟩

theorem witness_FlashIsFoundReadAndProgrammed_11 : ∃ (k : Nat) (row : Nat) (ch : Nat) (b : Nat) (s : State), s.chip.channelRuns ch = true ∧ k < lichenSet ∧ (s.chip.setSt k).phase ≠ 0 ∧ ch < 8 ∧ (s.chip.setSt k).members.testBit ch = true ∧ s.chip.setBlock ch k = some b ∧ (∀ j < 8, ((s.chip.setBlock j k).all fun x => (s.chip.granuleAt j (s.chip.setTarget k) x row).isNone) = true) :=
  ⟨3, 9, 7, 5, (tPool [] fun m => { m with sets := [(3, { (default : SetRec) with phase := 1, members := 255, row := 10 })] }), by decide +kernel⟩

theorem witness_FlashIsFoundReadAndProgrammed_12 : ∃ (k : Nat) (row : Nat) (ch : Nat) (ok : Bool) (s : State), s.chip.channelRuns ch = false :=
  ⟨3, 9, 7, true, (tPool [] (fun m => m) fun c => c.modRgn 3 fun r => { r with frozen := true }), by decide +kernel⟩

theorem witness_FlashIsFoundReadAndProgrammed_13 : ∃ (ch : Nat) (t : Nat) (row : Nat) (p : LichenPage) (rest : List LichenPage) (s : State), s.chip.channelRuns ch = true ∧ s.chip.poolWrites = true ∧ (s.chip.lichenBlk ch t).due = false ∧ (s.chip.lichenBlk ch t).held = p :: rest :=
  ⟨7, 0, 0, default, [], (tPool [] (fun m => m) fun c => c.modLichen 7 0 fun l => { l with held := [default] }), by decide +kernel⟩

theorem witness_FlashIsFoundReadAndProgrammed_14 : ∃ (ch : Nat) (t : Nat) (row : Nat) (p : LichenPage) (rest : List LichenPage) (s : State), s.chip.channelRuns ch = true ∧ s.chip.poolWrites = true ∧ (s.chip.lichenBlk ch t).due = false ∧ (s.chip.lichenBlk ch t).held = p :: rest :=
  ⟨7, 0, 0, default, [], (tPool [] (fun m => m) fun c => c.modLichen 7 0 fun l => { l with held := [default] }), by decide +kernel⟩

theorem witness_FlashIsReclaimedAndRebuilt_1 : ∃ (st : Nat) (s : State), s.chip.poolWrites = false :=
  ⟨3, (tState []), by decide +kernel⟩

theorem witness_FlashIsReclaimedAndRebuilt_2 : ∃ (st : Nat) (s : State), s.chip.streamWaits st = false :=
  ⟨3, (tPool), by decide +kernel⟩

theorem witness_FlashIsReclaimedAndRebuilt_3 : ∃ (st : Nat) (s : State), s.chip.poolWrites = true ∧ st ≠ 3 ∧ s.chip.streamWaits st = true ∧ tabGet s.chip.moss.openSet st = none :=
  ⟨2, (tPool [] fun m => { m with sets := [(2, { (default : SetRec) with phase := 1, members := 255, row := 10, stream := 2 })], writes := [⟨2, 9, 0, 1, 5, 9, 9, default⟩] }), by decide +kernel⟩

theorem witness_FlashIsReclaimedAndRebuilt_4 : ∃ (st : Nat) (o : Nat) (s : State), s.chip.poolWrites = true ∧ st ≠ 3 ∧ s.chip.streamWaits st = true ∧ tabGet s.chip.moss.openSet st = some o ∧ (s.chip.setSt o).phase = 1 ∧ (s.chip.setSt o).stream = st ∧ (s.chip.setSt o).slot ≠ 0 ∧ (s.chip.setSt o).slot < ((s.chip.setSt o).dataChannels o (s.chip.setSt o).row).length ∧ s.chip.pairDist o = 0 :=
  ⟨1, 3, (tPool [] fun m => { m with sets := [(3, { (default : SetRec) with phase := 1, members := 255, row := 10, stream := 1, slot := 5 })], openSet := [(1, some 3)], writes := [⟨3, 10, 0, 1, 5, 9, 9, default⟩] }), by decide +kernel⟩

theorem witness_FlashIsReclaimedAndRebuilt_5 : ∃ (s : State), s.chip.rd F.mossCtrl2_ckpt_mib * 2 ^ 20 > s.chip.moss.jBytes ∧ (s.chip.moss.jBytes = 0 ∨ s.chip.now < s.chip.moss.ckptAt + 60 * 10 ^ 9) :=
  ⟨(tPool), by decide +kernel⟩

theorem witness_FlashIsReclaimedAndRebuilt_6 : ∃ (s : State), s.chip.poolWrites = true ∧ (s.chip.rd F.mossCtrl2_ckpt_mib * 2 ^ 20 ≤ s.chip.moss.jBytes ∨ (s.chip.moss.jBytes ≠ 0 ∧ s.chip.moss.ckptAt + 60 * 10 ^ 9 ≤ s.chip.now)) :=
  ⟨(tPool [] (fun m => { m with jBytes := 9 }) fun c => { c with now := 60 * 10 ^ 9 }), by decide +kernel⟩

theorem witness_FlashIsReclaimedAndRebuilt_7 : ∃ (s : State), s.chip.poolWrites = true :=
  ⟨(tPool [] (fun m => { m with lsn := 7 }) fun c => c.modCat fun k => { k with kept := [[0x25, 0, 1, 2], [0x26, 1, 9]] }), by decide +kernel⟩

theorem witness_FlashIsReclaimedAndRebuilt_8 : ∃ (sp : Nat) (g : Nat) (v : Bool) (s : State), s.chip.rd F.pwrStatus_state = 2 ∧ s.chip.rd F.pwrStatus_waking = 0 :=
  ⟨60, 5, true, (tState [(F.pwrStatus_state, 2)]), by decide +kernel⟩

theorem witness_FlashIsReclaimedAndRebuilt_9 : ∃ (sp : Nat) (g : Nat) (v : Bool) (s : State), s.chip.poolWrites = false ∨ (s.chip.mapEnt sp g).state ≠ 1 ∨ s.chip.placeSet (s.chip.mapEnt sp g).ch (s.chip.mapEnt sp g).tgt (s.chip.mapEnt sp g).blk = none :=
  ⟨60, 5, true, (tPool), by decide +kernel⟩

theorem witness_FlashIsReclaimedAndRebuilt_10 : ∃ (sp : Nat) (g : Nat) (k : Nat) (o : Nat) (bs : List Nat) (s : State), s.chip.rd F.pwrStatus_state ≠ 2 ∧ s.chip.poolWrites = true ∧ g < 2 ^ 32 ∧ (s.chip.mapEnt sp g).state = 1 ∧ s.chip.placeSet (s.chip.mapEnt sp g).ch (s.chip.mapEnt sp g).tgt (s.chip.mapEnt sp g).blk = some k ∧ s.chip.relocates k = true ∧ s.chip.entryData (s.chip.mapEnt sp g) = some bs ∧ tabGet s.chip.moss.openSet 2 = some o ∧ (s.chip.setSt o).slot + 1 < ((s.chip.setSt o).dataChannels o (s.chip.setSt o).row).length :=
  ⟨0, 4294967295, 0, 1, [7, 9], (tPool [] fun m => { m with map := [(4294967295, ⟨1, 7, 0, 2, 1⟩)], flash := [(placeKey 7 0 2 1, { (default : PageRec) with data := [7, 9] })], sets := [(0, { (default : SetRec) with phase := 2, members := 192, row := 3, drain := true }), (1, { (default : SetRec) with phase := 1, members := 255, row := 3, stream := 2 })], openSet := [(2, some 1)] }), by decide +kernel⟩

theorem witness_FlashIsReclaimedAndRebuilt_11 : ∃ (k : Nat) (ch : Nat) (ok : Bool) (s : State), s.chip.channelRuns ch = true ∧ k < lichenSet ∧ s.chip.moss.op = none ∧ ((s.chip.setSt k).phase ≠ 3 ∨ (s.chip.setSt k).erasing.testBit ch = false) :=
  ⟨3, 7, true, (tPool), by decide +kernel⟩

theorem witness_FlashIsReclaimedAndRebuilt_12 : ∃ (k : Nat) (ch : Nat) (b : Nat) (s : State), s.chip.channelRuns ch = true ∧ k < lichenSet ∧ s.chip.moss.op = none ∧ ch < 8 ∧ (s.chip.setSt k).phase = 3 ∧ (s.chip.setSt k).erasing = 2 ^ ch ∧ s.chip.moss.buf = [] ∧ s.chip.moss.recs = [] ∧ s.chip.setBlock ch k = some b ∧ (s.chip.chan ch).progFailed = [] :=
  ⟨3, 7, 5, (tPool [] fun m => { m with sets := [(3, { (default : SetRec) with phase := 3, members := 128, erasing := 128 })], flash := [(placeKey 7 0 5 4095, default)] }), by decide +kernel⟩

theorem witness_FlashIsReclaimedAndRebuilt_13 : ∃ (k : Nat) (ch : Nat) (b : Nat) (s : State), s.chip.channelRuns ch = true ∧ k < lichenSet ∧ s.chip.moss.op = none ∧ ch < 8 ∧ (s.chip.setSt k).phase = 3 ∧ (s.chip.setSt k).erasing.testBit ch = true ∧ (s.chip.setSt k).erasing ≠ 2 ^ ch ∧ s.chip.moss.buf = [] ∧ s.chip.moss.recs = [] ∧ s.chip.setBlock ch k = some b ∧ tabGet (s.chip.chan ch).reserve (s.chip.setTarget k) = 0 :=
  ⟨3, 7, 5, (tPool [] fun m => { m with sets := [(3, { (default : SetRec) with phase := 3, members := 255, erasing := 129 })], chans := tabMod m.chans 7 fun k => { k with reserve := [] } }), by decide +kernel⟩

theorem witness_FlashIsReclaimedAndRebuilt_14 : ∃ (k : Nat) (ch : Nat) (cur : Nat) (total : Nat) (x : Nat) (t : Nat) (b : Nat) (f : Bool) (s : State), s.chip.channelRuns ch = true ∧ k < lichenSet ∧ s.chip.moss.op = some (f, cur, total) ∧ blockAt s.chip.eraseRuns cur = some (x, t, b) :=
  ⟨0, 0, 2383, 2400, 7, 0, 299, false, (tPool [] fun m => { m with op := some (false, 2383, 2400) }), by decide +kernel⟩

theorem witness_FlashIsReclaimedAndRebuilt_15 : ∃ (ch : Nat) (cause : Nat) (s : State), ch < 8 ∧ (s.chip.rd F.mossStatus_down).testBit ch = true :=
  ⟨7, 1, (tPool [(F.mossStatus_down, 128)]), by decide +kernel⟩

theorem witness_FlashIsReclaimedAndRebuilt_16 : ∃ (ch : Nat) (cause : Nat) (s : State), ch < 8 ∧ s.chip.rd F.mossStatus_down = 0 :=
  ⟨7, 2, (tPool), by decide +kernel⟩

theorem witness_FlashIsReclaimedAndRebuilt_17 : ∃ (ch : Nat) (k : Nat) (cause : Nat) (s : State), ch < 8 ∧ k < 8 ∧ k ≠ ch ∧ s.chip.rd F.mossStatus_down = 2 ^ k ∧ (s.chip.contextsParsed fun x => x.phase == .active && x.cmd.opcode == 0x45) = [] :=
  ⟨7, 0, 1, (tPool [(F.mossStatus_down, 1)]), by decide +kernel⟩

theorem witness_FlashIsReclaimedAndRebuilt_18 : ∃ (ch : Nat) (s : State), ch < 8 ∧ s.chip.rd F.mossStatus_down = 0 :=
  ⟨7, (tPool), by decide +kernel⟩

theorem witness_FlashIsReclaimedAndRebuilt_20 : ∃ (ch : Nat) (n : Nat) (a : Option Bool) (found : List (Nat × TargetParams)) (s : State), (s.chip.rd F.mossStatus_down).testBit ch = false ∨ s.chip.channelOut ch = true :=
  ⟨7, 0, default, default, (tPool), by decide +kernel⟩

theorem witness_FlashIsReclaimedAndRebuilt_21 : ∃ (ch : Nat) (n : Nat) (s : State), ch < 8 ∧ s.chip.channelOut ch = false ∧ s.chip.rd F.mossStatus_down = 2 ^ ch ∧ n = (s.chip.chan ch).lastSerial :=
  ⟨7, 0, (tPool [(F.mossStatus_down, 128), (F.mossStatus_degraded, 1)]), by decide +kernel⟩

theorem witness_FlashIsReclaimedAndRebuilt_22 : ∃ (ch : Nat) (n : Nat) (a : Option Bool) (s : State), ch < 8 ∧ s.chip.channelOut ch = false ∧ (s.chip.rd F.mossStatus_down).testBit ch = true ∧ (a ≠ some true ∨ n ≠ (s.chip.chan ch).lastSerial) :=
  ⟨7, 4, default, (tPool [(F.mossStatus_down, 128)]), by decide +kernel⟩

theorem witness_FlashIsReclaimedAndRebuilt_23 : ∃ (s : State), s.chip.moss.rebuild = none ∨ s.chip.rd F.mossStatus_offline = 1 :=
  ⟨(tPool), by decide +kernel⟩

theorem witness_FlashIsReclaimedAndRebuilt_24 : ∃ (ch : Nat) (at_ : Nat) (done : Nat) (total : Nat) (s : State), ch < 8 ∧ s.chip.rd F.pwrStatus_state ≠ 2 ∧ s.chip.rd F.mossStatus_offline = 0 ∧ s.chip.moss.rebuild = some (ch, at_, done, total) ∧ s.chip.moss.discards = [] ∧ s.chip.moss.op = none ∧ nextRow ((s.chip.rebuildSets ch).map fun k => (k, (s.chip.setSt k).row)) at_ = none :=
  ⟨7, 0, 0, 0, (tPool [(F.mossStatus_rebuilding, 1)] fun m => { m with rebuild := some (7, 0, 0, 0) }), by decide +kernel⟩

theorem witness_FlashIsReclaimedAndRebuilt_25 : ∃ (ch : Nat) (at_ : Nat) (done : Nat) (total : Nat) (k : Nat) (row : Nat) (s : State), ch < 8 ∧ s.chip.chUsable ch = true ∧ s.chip.rd F.pwrStatus_state ≠ 2 ∧ s.chip.rd F.mossStatus_offline = 0 ∧ s.chip.moss.rebuild = some (ch, at_, done, total) ∧ nextRow ((s.chip.rebuildSets ch).map fun k => (k, (s.chip.setSt k).row)) at_ = some (k, row) ∧ (nextRow ((s.chip.rebuildSets ch).map fun k => (k, (s.chip.setSt k).row)) (at_ + 1)).isSome = true :=
  ⟨7, 1, 1, 5, 3, 1, (tPool [] fun m => { m with rebuild := some (7, 1, 1, 5), sets := [(3, { (default : SetRec) with phase := 1, members := 192, row := 5 })] }), by decide +kernel⟩

theorem witness_FlashIsReclaimedAndRebuilt_26 : ∃ (km : Bool) (s : State), s.chip.rd F.mossStatus_mounted = 1 ∨ s.chip.power.discovered = false ∨ km = false ∨ s.chip.rd F.trust_disposed = 1 ∨ s.chip.anchored = false ∨ 2 ≤ popCount 8 (s.chip.rd F.mossStatus_down) :=
  ⟨false, (tPool), by decide +kernel⟩

theorem witness_FlashIsReclaimedAndRebuilt_27 : ∃ (s : State), s.chip.rd F.mossStatus_mounted = 0 ∧ s.chip.power.discovered = true ∧ s.chip.anchored = true ∧ s.chip.rd F.mossStatus_down = 0 ∧ s.chip.lichenPages = [] ∧ s.chip.rd F.trust_disposed = 0 ∧ (∀ ch < 8, (s.chip.chan ch).reserve = [] ∨ (s.chip.chan ch).present = true) :=
  ⟨(tPool [(F.mossStatus_mounted, 0)] (fun m => m) fun c => { c with power := { c.power with discovered := true } }), by decide +kernel⟩

theorem witness_FlashIsReclaimedAndRebuilt_28 : ∃ (s : State), s.chip.poolWrites = true ∧ (s.chip.moss.discards = [] ∨ (s.chip.moss.discards.head?.any fun d => d.sets != []) = true) :=
  ⟨(tPool), by decide +kernel⟩

theorem witness_FlashIsReclaimedAndRebuilt_29 : ∃ (d : SecureDiscard) (s : State), s.chip.poolWrites = true ∧ s.chip.moss.discards = [d] ∧ d.sets = [] ∧ d.cmd = none ∧ s.chip.moss.rebuild = none :=
  ⟨{ (default : SecureDiscard) with opId := 5, object := 9 }, (tPool [(F.mossStatus_sdiscard, 1)] fun m => { m with discards := [{ (default : SecureDiscard) with opId := 5, object := 9 }] }), by decide +kernel⟩

theorem witness_FlashIsReclaimedAndRebuilt_30 : ∃ (ch : Nat) (t : Nat) (s : State), s.chip.channelRuns ch = true ∧ s.chip.poolWrites = true ∧ (s.chip.lichenBlk ch t).due = true :=
  ⟨7, 0, (tPool [] (fun m => m) fun c => c.modLichen 7 0 fun l => { l with held := [default], pages := [default], spent := 255, due := true }), by decide +kernel⟩

theorem witness_FlashIsReclaimedAndRebuilt_31 : ∃ (ch : Nat) (t : Nat) (left : Nat) (s : State), s.chip.channelRuns ch = true ∧ s.chip.poolWrites = true ∧ ch < 8 ∧ (s.chip.lichenBlk ch t).due = true ∧ tabGet (s.chip.chan ch).reserve t = left + 1 :=
  ⟨7, 0, 7, (tPool [] (fun m => m) fun c => c.modLichen 7 0 fun l => { l with held := [default], pages := [default], spent := 255, due := true }), by decide +kernel⟩

theorem witness_FlashIsReclaimedAndRebuilt_32 : ∃ (ch : Nat) (t : Nat) (s : State), s.chip.rd F.mossStatus_mounted = 0 ∧ s.chip.power.discovered = true ∧ s.chip.anchored = true ∧ s.chip.rd F.mossStatus_down = 0 ∧ s.chip.rd F.trust_disposed = 0 ∧ s.chip.moss.sets = [] ∧ (∀ ch < 8, (s.chip.chan ch).reserve = [] ∨ (s.chip.chan ch).present = true) ∧ s.chip.poolTargets = [(ch, t)] ∧ (s.chip.lichenBlk ch t).absent = false ∧ s.chip.lichenRoom ch t < 8 :=
  ⟨7, 0, (tState [(F.fcStatus_state 3 1, 2)] fun c => { (((c.modMoss fun m => { m with nb := 4, pages := 256, chans := [(7, { (default : ChanSt) with present := true, anchor := some true, targets := [(0, tParams)], reserve := [(0, 8)], reserve0 := 8 })] }).modLichen 7 0 fun l => { l with pages := [{ (default : LichenPage) with copy := 4 }, { (default : LichenPage) with copy := 5 }], spent := 249 })) with power := { c.power with discovered := true } }), by decide +kernel⟩

theorem witness_FrondsSealAndFindTheirDrives_1 : ∃ (i : Nat) (s : State), findFrond s.chip.cat.fronds i = none :=
  ⟨7, (tState []), by decide +kernel⟩

theorem witness_FrondsSealAndFindTheirDrives_2 : ∃ (i : Nat) (f : FrondRec) (s : State), findFrond s.chip.cat.fronds i = some f ∧ (f.state ≠ .opened ∨ f.fill = 0 ∨ s.chip.now < f.openedAt + s.chip.rd F.frondCtrl_seal_s * 10 ^ 9) :=
  ⟨7, (tFrond), (tPool [] (fun m => m) fun c => c.modCat fun k => { k with fronds := [tFrond] }), by decide +kernel⟩

theorem witness_FrondsSealAndFindTheirDrives_3 : ∃ (i : Nat) (f : FrondRec) (s : State), findFrond s.chip.cat.fronds i = some f ∧ f.state = .opened ∧ f.fill ≠ 0 ∧ s.chip.moss.op = none ∧ f.openedAt + s.chip.rd F.frondCtrl_seal_s * 10 ^ 9 ≤ s.chip.now :=
  ⟨7, (tFrond fun f => { f with fill := 1, openedAt := 5 }), (tPool [] (fun m => m) fun c => { (c.modCat fun k => { k with fronds := [tFrond fun f => { f with fill := 1, openedAt := 5 }], objects := [{ (default : ObjRec) with grant := some ⟨7, 0, 9, 1⟩ }] }) with now := 600000000005 }), by decide +kernel⟩

theorem witness_FrondsSealAndFindTheirDrives_4 : ∃ (i : Nat) (f : FrondRec) (s : State), findFrond s.chip.cat.fronds i = some f ∧ (f.state ≠ .sealing ∨ s.chip.frondStaged i = false ∨ s.chip.poolWrites = false) :=
  ⟨7, (tFrond), (tPool [] (fun m => m) fun c => c.modCat fun k => { k with fronds := [tFrond] }), by decide +kernel⟩

theorem witness_FrondsSealAndFindTheirDrives_5 : ∃ (i : Nat) (f : FrondRec) (s : State), findFrond s.chip.cat.fronds i = some f ∧ f.state = .sealing ∧ s.chip.frondStaged i = true ∧ s.chip.poolWrites = true :=
  ⟨7, (tFrond fun f => { f with state := .sealing, m := 0, pinnae := [default] }), (tPool [] (fun m => m) fun c => c.modCat fun k => { k with fronds := [tFrond fun f => { f with state := .sealing, m := 0, pinnae := [default] }] }), by decide +kernel⟩

theorem witness_FrondsSealAndFindTheirDrives_6 : ∃ (i : Nat) (f : FrondRec) (s : State), findFrond s.chip.cat.fronds i = some f ∧ (f.state ≠ .parity ∨ (f.coded = true ∧ s.chip.parityPending f = true) ∨ (f.coded = false ∧ (s.chip.poolWrites = false ∨ ((List.range 4).all s.chip.sliceRuns) = false))) :=
  ⟨7, (tFrond), (tPool [] (fun m => m) fun c => c.modCat fun k => { k with fronds := [tFrond] }), by decide +kernel⟩

theorem witness_FrondsSealAndFindTheirDrives_7 : ∃ (i : Nat) (f : FrondRec) (s : State), findFrond s.chip.cat.fronds i = some f ∧ f.state = .parity ∧ f.coded = true ∧ s.chip.parityPending f = false ∧ s.chip.moss.op = none :=
  ⟨7, (tFrond fun f => { f with state := .parity, coded := true }), (tPool [] (fun m => m) fun c => c.modCat fun k => { k with fronds := [tFrond fun f => { f with state := .parity, coded := true }] }), by decide +kernel⟩

theorem witness_FrondsSealAndFindTheirDrives_8 : ∃ (i : Nat) (f : FrondRec) (s : State), findFrond s.chip.cat.fronds i = some f ∧ f.state = .parity ∧ f.coded = false ∧ s.chip.poolWrites = true ∧ ((List.range 4).all s.chip.sliceRuns) = true :=
  ⟨7, (tFrond fun f => { f with state := .parity, m := 0, pinnae := [default] }), (tPool [] (fun m => m) fun c => c.modCat fun k => { k with fronds := [tFrond fun f => { f with state := .parity, m := 0, pinnae := [default] }] }), by decide +kernel⟩

theorem witness_FrondsSealAndFindTheirDrives_9 : ∃ (i : Nat) (f : FrondRec) (s : State), findFrond s.chip.cat.fronds i = some f ∧ (f.state ≠ .placing ∨ (handOut (fun r => (s.chip.eligibleIn f r).length) f.width [0, 0, 0, 0]).sum < f.width ∨ (f.waitedOut = false ∧ balanced (handOut (fun r => (s.chip.eligibleIn f r).length) f.width [0, 0, 0, 0]) = false)) :=
  ⟨7, (tFrond fun f => { f with state := .placing }), (tPool (tDrives [0]) (fun m => m) fun c => c.modCat fun k => { k with fronds := [tFrond fun f => { f with state := .placing }] }), by decide +kernel⟩

theorem witness_FrondsSealAndFindTheirDrives_10 : ∃ (i : Nat) (f : FrondRec) (s : State), findFrond s.chip.cat.fronds i = some f ∧ f.state = .placing ∧ s.chip.moss.op = none ∧ f.pinnae.length = f.width ∧ f.width ≤ (handOut (fun r => (s.chip.eligibleIn f r).length) f.width [0, 0, 0, 0]).sum ∧ balanced (handOut (fun r => (s.chip.eligibleIn f r).length) f.width [0, 0, 0, 0]) = true :=
  ⟨7, (tFrond fun f => { f with state := .placing }), (tPool (tDrives [0, 23]) (fun m => m) fun c => c.modCat fun k => { k with fronds := [tFrond fun f => { f with state := .placing }], lastT0 := 17 }), by decide +kernel⟩

theorem witness_FrondsSealAndFindTheirDrives_11 : ∃ (i : Nat) (f : FrondRec) (s : State), findFrond s.chip.cat.fronds i = some f ∧ f.state = .placing ∧ s.chip.moss.op = none ∧ f.placingAt + s.chip.rd F.frondCtrl2_place_wait * 10 ^ 9 ≤ s.chip.now ∧ f.pinnae.length = f.width ∧ f.width ≤ (handOut (fun r => (s.chip.eligibleIn f r).length) f.width [0, 0, 0, 0]).sum ∧ balanced (handOut (fun r => (s.chip.eligibleIn f r).length) f.width [0, 0, 0, 0]) = false :=
  ⟨7, (tFrond fun f => { f with state := .placing }), (tPool (tDrives [0, 3]) (fun m => m) fun c => { c with now := 10 ^ 14 }.modCat fun k => { k with fronds := [tFrond fun f => { f with state := .placing }], lastT0 := 17 }), by decide +kernel⟩

theorem witness_FrondsSealAndFindTheirDrives_12 : ∃ (i : Nat) (f : FrondRec) (s : State), findFrond s.chip.cat.fronds i = some f ∧ f.state = .placing ∧ s.chip.moss.op = none ∧ f.placingAt + s.chip.rd F.frondCtrl2_place_wait * 10 ^ 9 ≤ s.chip.now ∧ (handOut (fun r => (s.chip.eligibleIn f r).length) f.width [0, 0, 0, 0]).sum < f.width :=
  ⟨7, (tFrond fun f => { f with state := .placing }), (tPool (tDrives [0]) (fun m => m) fun c => { c with now := 10 ^ 14 }.modCat fun k => { k with fronds := [tFrond fun f => { f with state := .placing }], lastT0 := 17 }), by decide +kernel⟩

theorem witness_FrondsSealAndFindTheirDrives_13 : ∃ (i : Nat) (f : FrondRec) (s : State), findFrond s.chip.cat.fronds i = some f ∧ s.chip.now < f.placingAt + s.chip.rd F.frondCtrl2_place_wait * 10 ^ 9 :=
  ⟨7, (tFrond fun f => { f with placingAt := 5 }), (tPool [] (fun m => m) fun c => c.modCat fun k => { k with fronds := [tFrond fun f => { f with placingAt := 5 }] }), by decide +kernel⟩

theorem witness_FrondsSealAndFindTheirDrives_14 : ∃ (i : Nat) (pi : Nat) (f : FrondRec) (p : PinnaRec) (s : State), findFrond s.chip.cat.fronds i = some f ∧ f.pinnae[pi]? = some p ∧ (f.state ≠ .burning ∨ p.state ≠ .returned ∨ (∀ r < 4, s.chip.eligibleIn f r = [])) :=
  ⟨7, 1, (tFrond), { (default : PinnaRec) with moss := 67108864 }, (tPool [] (fun m => m) fun c => c.modCat fun k => { k with fronds := [tFrond] }), by decide +kernel⟩

theorem witness_FrondsSealAndFindTheirDrives_15 : ∃ (i : Nat) (pi : Nat) (f : FrondRec) (p : PinnaRec) (s : State), findFrond s.chip.cat.fronds i = some f ∧ f.pinnae[pi]? = some p ∧ f.state = .burning ∧ p.state = .returned ∧ s.chip.moss.op = none ∧ (∃ r < 4, s.chip.eligibleIn f r ≠ []) :=
  ⟨7, 1, (tFrond fun f => { f with state := .burning, pinnae := [default, { (default : PinnaRec) with state := .returned }] }), { (default : PinnaRec) with state := .returned }, (tPool (tDrives [23]) (fun m => m) fun c => c.modCat fun k => { k with fronds := [tFrond fun f => { f with state := .burning, pinnae := [default, { (default : PinnaRec) with state := .returned }] }] }), by decide +kernel⟩

theorem witness_FrondsSealAndFindTheirDrives_16 : ∃ (i : Nat) (f : FrondRec) (s : State), findFrond s.chip.cat.fronds i = some f ∧ (f.state ≠ .burning ∨ (∃ p ∈ f.pinnae, p.state ≠ .complete)) :=
  ⟨7, (tFrond), (tPool [] (fun m => m) fun c => c.modCat fun k => { k with fronds := [tFrond] }), by decide +kernel⟩

theorem witness_FrondsSealAndFindTheirDrives_17 : ∃ (i : Nat) (f : FrondRec) (s : State), findFrond s.chip.cat.fronds i = some f ∧ f.state = .burning ∧ (∀ p ∈ f.pinnae, p.state = .complete) ∧ f.pinnae.length = f.width ∧ s.chip.moss.op = none :=
  ⟨7, (tFrond fun f => { f with state := .burning, m := 0, pinnae := [{ (default : PinnaRec) with state := .complete }] }), (tPool [] (fun m => m) fun c => c.modCat fun k => { k with fronds := [tFrond fun f => { f with state := .burning, m := 0, pinnae := [{ (default : PinnaRec) with state := .complete }] }] }), by decide +kernel⟩

theorem witness_FrondsSealAndFindTheirDrives_18 : ∃ (i : Nat) (pi : Nat) (f : FrondRec) (p : PinnaRec) (s : State), findFrond s.chip.cat.fronds i = some f ∧ f.pinnae[pi]? = some p ∧ (s.chip.power.app = false ∨ f.state ≠ .burning ∨ p.state ≠ .burning) :=
  ⟨7, 1, (tFrond), { (default : PinnaRec) with moss := 67108864 }, (tPool [] (fun m => m) fun c => c.modCat fun k => { k with fronds := [tFrond] }), by decide +kernel⟩

theorem witness_FrondsSealAndFindTheirDrives_19 : ∃ (i : Nat) (pi : Nat) (f : FrondRec) (p : PinnaRec) (s : State), findFrond s.chip.cat.fronds i = some f ∧ f.pinnae[pi]? = some p ∧ f.state = .burning ∧ p.state = .burning ∧ s.chip.moss.op = none ∧ s.chip.power.app = true ∧ (∀ q ∈ (s.chip.burnSt p.port).queue, q.frond ≠ i) ∧ s.chip.mayBurn p.port = true ∧ s.chip.loadedDisc p.port = some (p.disc, p.side) :=
  ⟨7, 1, (tFrond fun f => { f with state := .burning, pinnae := [default, { (default : PinnaRec) with state := .burning, idle := true, port := 23, disc := 123 }] }), { (default : PinnaRec) with state := .burning, idle := true, port := 23, disc := 123 }, (tPool (tDrives [23]) (fun m => m) fun c => { c with power := { c.power with app := true } }.modCat fun k => { k with fronds := [tFrond fun f => { f with state := .burning, pinnae := [default, { (default : PinnaRec) with state := .burning, idle := true, port := 23, disc := 123 }] }] }), by decide +kernel⟩

theorem witness_FrondsSealAndFindTheirDrives_20 : ∃ (i : Nat) (pi : Nat) (f : FrondRec) (p : PinnaRec) (s : State), findFrond s.chip.cat.fronds i = some f ∧ f.pinnae[pi]? = some p ∧ f.state = .burning ∧ p.state = .burning ∧ s.chip.moss.op = none ∧ s.chip.power.app = true ∧ (∀ q ∈ (s.chip.burnSt p.port).queue, q.frond ≠ i) ∧ (s.chip.mayBurn p.port = false ∨ s.chip.loadedDisc p.port ≠ some (p.disc, p.side)) :=
  ⟨7, 1, (tFrond fun f => { f with state := .burning, pinnae := [default, { (default : PinnaRec) with state := .burning, idle := true, port := 23, disc := 123 }] }), { (default : PinnaRec) with state := .burning, idle := true, port := 23, disc := 123 }, (tPool [] (fun m => m) fun c => { c with power := { c.power with app := true } }.modCat fun k => { k with fronds := [tFrond fun f => { f with state := .burning, pinnae := [default, { (default : PinnaRec) with state := .burning, idle := true, port := 23, disc := 123 }] }] }), by decide +kernel⟩

theorem witness_RestoreReadsAreRepairedAndDelivered_1 : ∃ (n : Nat) (x : Nat) (i : Nat) (row : Nat) (s : State), s.chip.restore n x = none :=
  ⟨256, 5, 7, 3, (tState []), by decide +kernel⟩

theorem witness_RestoreReadsAreRepairedAndDelivered_2 : ∃ (n : Nat) (x : Nat) (i : Nat) (row : Nat) (r : RestoreSt) (f : FrondRec) (s : State), s.chip.restore n x = some r ∧ findFrond s.chip.cat.fronds i = some f ∧ (s.chip.rowWants r f row = [] ∨ (s.chip.rowHand r f row).length < f.k ∨ r.given.contains (i, row) = true ∨ s.chip.sliceRuns row = false) :=
  ⟨256, 5, 7, 3, { (default : RestoreSt) with cmd := 1048581 }, (tFrond), (tPool [] (fun m => m) fun c => c.modCat fun k => { k with fronds := [tFrond], restores := [{ (default : RestoreSt) with cmd := 1048581 }] }), by decide +kernel⟩

theorem witness_RestoreReadsAreRepairedAndDelivered_3 : ∃ (n : Nat) (x : Nat) (i : Nat) (row : Nat) (r : RestoreSt) (f : FrondRec) (s : State), s.chip.restore n x = some r ∧ findFrond s.chip.cat.fronds i = some f ∧ s.chip.rowWants r f row ≠ [] ∧ f.k ≤ (s.chip.rowHand r f row).length ∧ r.given.contains (i, row) = false ∧ s.chip.sliceRuns row = true :=
  ⟨256, 5, 7, 3, { (default : RestoreSt) with cmd := 1048581, blocks := [(3, 7, 3)], rows := [((7, 3, 1), [9, 9])] }, (tFrond fun f => { f with pinnae := f.pinnae.map fun p => { p with mossGone := true } }), (tPool [] (fun m => m) fun c => c.modCat fun k => { k with fronds := [tFrond fun f => { f with pinnae := f.pinnae.map fun p => { p with mossGone := true } }], restores := [{ (default : RestoreSt) with cmd := 1048581, blocks := [(3, 7, 3)], rows := [((7, 3, 1), [9, 9])] }] }), by decide +kernel⟩

theorem witness_RestoreReadsAreRepairedAndDelivered_4 : ∃ (n : Nat) (x : Nat) (i : Nat) (row : Nat) (r : RestoreSt) (f : FrondRec) (s : State), s.chip.restore n x = some r ∧ findFrond s.chip.cat.fronds i = some f ∧ (s.chip.rowWants r f row = [] ∨ f.k ≤ (s.chip.rowHand r f row).length ∨ r.given.contains (i, row) = true ∨ s.chip.readersDone n x = false) :=
  ⟨256, 5, 7, 3, { (default : RestoreSt) with cmd := 1048581 }, (tFrond), (tPool [] (fun m => m) fun c => c.modCat fun k => { k with fronds := [tFrond], restores := [{ (default : RestoreSt) with cmd := 1048581 }] }), by decide +kernel⟩

theorem witness_RestoreReadsAreRepairedAndDelivered_5 : ∃ (n : Nat) (x : Nat) (i : Nat) (row : Nat) (r : RestoreSt) (f : FrondRec) (s : State), s.chip.restore n x = some r ∧ findFrond s.chip.cat.fronds i = some f ∧ s.chip.rowWants r f row ≠ [] ∧ (s.chip.rowHand r f row).length < f.k ∧ r.given.contains (i, row) = false ∧ s.chip.readersDone n x = true ∧ (∀ j < f.m, ((f.pinnae[f.k + j]?).bind fun p => s.chip.readerOf p) = none) :=
  ⟨256, 5, 7, 3, { (default : RestoreSt) with cmd := 1048581, blocks := [(3, 7, 3)] }, (tFrond fun f => { f with pinnae := f.pinnae.map fun p => { p with mossGone := true } }), (tPool [] (fun m => m) fun c => c.modCat fun k => { k with fronds := [tFrond fun f => { f with pinnae := f.pinnae.map fun p => { p with mossGone := true } }], restores := [{ (default : RestoreSt) with cmd := 1048581, blocks := [(3, 7, 3)] }] }), by decide +kernel⟩

theorem witness_RestoreReadsAreRepairedAndDelivered_6 : ∃ (n : Nat) (x : Nat) (i : Nat) (row : Nat) (d : Nat) (r : RestoreSt) (f : FrondRec) (p : PinnaRec) (s : State), s.chip.restore n x = some r ∧ findFrond s.chip.cat.fronds i = some f ∧ s.chip.rowWants r f row ≠ [] ∧ (s.chip.rowHand r f row).length < f.k ∧ r.given.contains (i, row) = false ∧ s.chip.readersDone n x = true ∧ f.m = 1 ∧ f.pinnae[f.k]? = some p ∧ s.chip.readerOf p = some d ∧ s.chip.sectorOf r f row f.k = none ∧ r.erased.contains (i, row, f.k) = false ∧ r.repair.contains (i, row) = false ∧ (s.chip.burnSt d).run.isSome = true :=
  ⟨256, 5, 7, 3, 23, { (default : RestoreSt) with cmd := 1048581, retry := [(1, 2), (3, 4), (5, 6), (7, 900)], blocks := [(3, 7, 3)] }, (tFrond fun f => { f with pinnae := f.pinnae.map fun p => { p with mossGone := true, disc := 123, firstPsa := [(0, 8)] } }), { (default : PinnaRec) with moss := 67108864, mossGone := true, disc := 123, firstPsa := [(0, 8)] }, (tPool (tDrives [23]) (fun m => m) fun c => (c.modCat fun k => { k with fronds := [tFrond fun f => { f with pinnae := f.pinnae.map fun p => { p with mossGone := true, disc := 123, firstPsa := [(0, 8)] } }], restores := [{ (default : RestoreSt) with cmd := 1048581, retry := [(1, 2), (3, 4), (5, 6), (7, 900)], blocks := [(3, 7, 3)] }] }).modBurn 23 fun b => { b with run := some default }), by decide +kernel⟩

theorem witness_RestoreReadsAreRepairedAndDelivered_7 : ∃ (n : Nat) (x : Nat) (r : RestoreSt) (b : Nat × Nat × Nat) (f : FrondRec) (s : State), s.chip.restore n x = some r ∧ s.chip.restoreCut n x = 0 ∧ r.blocks[r.next]? = some b ∧ findFrond s.chip.cat.fronds b.2.1 = some f ∧ s.chip.judgeBlock r b.1 f b.2.2 = .wait :=
  ⟨256, 5, { (default : RestoreSt) with cmd := 1048581, blocks := [(3, 7, 3)] }, (3, 7, 3), (tFrond fun f => { f with pinnae := f.pinnae.map fun p => { p with mossGone := true } }), (tPool [] (fun m => m) fun c => c.modCat fun k => { k with fronds := [tFrond fun f => { f with pinnae := f.pinnae.map fun p => { p with mossGone := true } }], restores := [{ (default : RestoreSt) with cmd := 1048581, blocks := [(3, 7, 3)] }] }), by decide +kernel⟩

theorem witness_RestoreReadsAreRepairedAndDelivered_8 : ∃ (n : Nat) (x : Nat) (r : RestoreSt) (b : Nat × Nat × Nat) (f : FrondRec) (s : State), s.chip.restore n x = some r ∧ s.chip.restoreCut n x = 0 ∧ r.blocks[r.next]? = some b ∧ r.next + 1 < r.blocks.length ∧ findFrond s.chip.cat.fronds b.2.1 = some f ∧ s.chip.judgeBlock r b.1 f b.2.2 = .lost :=
  ⟨256, 5, { (default : RestoreSt) with cmd := 1048581, object := 1, given := [(7, 3)], blocks := [(3, 7, 3), (4, 7, 4)] }, (3, 7, 3), (tFrond fun f => { f with pinnae := f.pinnae.map fun p => { p with mossGone := true } }), (tPool [] (fun m => m) fun c => c.modCat fun k => { k with fronds := [tFrond fun f => { f with pinnae := f.pinnae.map fun p => { p with mossGone := true } }], restores := [{ (default : RestoreSt) with cmd := 1048581, object := 1, given := [(7, 3)], blocks := [(3, 7, 3), (4, 7, 4)] }] }), by decide +kernel⟩

theorem witness_RestoreReadsAreRepairedAndDelivered_9 : ∃ (n : Nat) (x : Nat) (r : RestoreSt) (b : Nat × Nat × Nat) (f : FrondRec) (s : State), s.chip.restore n x = some r ∧ s.chip.restoreCut n x = 0 ∧ r.blocks[r.next]? = some b ∧ r.next + 1 < r.blocks.length ∧ findFrond s.chip.cat.fronds b.2.1 = some f ∧ s.chip.judgeBlock r b.1 f b.2.2 = .authLost :=
  ⟨256, 5, { (default : RestoreSt) with cmd := 1048581, object := 1, rows := [((7, 3, 0), [])], blocks := [(3, 7, 3), (4, 7, 4)] }, (3, 7, 3), (tFrond), (tPool [] (fun m => m) fun c => c.modCat fun k => { k with fronds := [tFrond], restores := [{ (default : RestoreSt) with cmd := 1048581, object := 1, rows := [((7, 3, 0), [])], blocks := [(3, 7, 3), (4, 7, 4)] }] }), by decide +kernel⟩

theorem witness_RestoreReadsAreRepairedAndDelivered_10 : ∃ (n : Nat) (x : Nat) (r : RestoreSt) (b : Nat × Nat × Nat) (f : FrondRec) (s : State), s.chip.restore n x = some r ∧ s.chip.restoreCut n x = 0 ∧ r.blocks[r.next]? = some b ∧ findFrond s.chip.cat.fronds b.2.1 = some f ∧ s.chip.judgeBlock r b.1 f b.2.2 = .badTag :=
  ⟨256, 5, { (default : RestoreSt) with cmd := 1048581, object := 1, rows := [((7, 3, 0), [])], blocks := [(3, 7, 3)] }, (3, 7, 3), (tFrond), (tPool [] (fun m => m) fun c => { (c.modCat fun k => { k with fronds := [tFrond], objects := [{ (default : ObjRec) with id := 1, salt := 9 }], restores := [{ (default : RestoreSt) with cmd := 1048581, object := 1, rows := [((7, 3, 0), [])], blocks := [(3, 7, 3)] }] }) with trust := { c.trust with destroyed := [(1, 9)] } }), by decide +kernel⟩

theorem witness_RestoreReadsAreRepairedAndDelivered_11 : ∃ (n : Nat) (x : Nat) (off : Nat) (bs : List Nat) (r : RestoreSt) (b : Nat × Nat × Nat) (f : FrondRec) (s : State), s.chip.restore n x = some r ∧ s.chip.restoreCut n x = 0 ∧ r.blocks[r.next]? = some b ∧ r.next + 1 < r.blocks.length ∧ findFrond s.chip.cat.fronds b.2.1 = some f ∧ s.chip.judgeBlock r b.1 f b.2.2 = .bytes off bs ∧ (s.chip.sess n).die < 2 :=
  ⟨256, 5, 0, [5, 6], { (default : RestoreSt) with cmd := 1048581, offset := 3, rows := [((7, 3, 0), [5, 6])], data := [0, 0, 0, 0], blocks := [(3, 7, 3), (4, 7, 4)] }, (3, 7, 3), (tFrond), (tPool [] (fun m => m) fun c => c.modCat fun k => { k with fronds := [tFrond], restores := [{ (default : RestoreSt) with cmd := 1048581, offset := 3, rows := [((7, 3, 0), [5, 6])], data := [0, 0, 0, 0], blocks := [(3, 7, 3), (4, 7, 4)] }] }), by decide +kernel⟩

theorem witness_RestoreReadsAreRepairedAndDelivered_12 : ∃ (n : Nat) (x : Nat) (off : Nat) (bs : List Nat) (r : RestoreSt) (b : Nat × Nat × Nat) (f : FrondRec) (s : State), s.chip.restore n x = some r ∧ s.chip.restoreCut n x = 0 ∧ r.blocks[r.next]? = some b ∧ r.next + 1 = r.blocks.length ∧ findFrond s.chip.cat.fronds b.2.1 = some f ∧ s.chip.judgeBlock r b.1 f b.2.2 = .bytes off bs ∧ r.ranges = [] ∧ r.lost = [] ∧ r.authFailed = [] ∧ (s.chip.ctxSt n x).phase = .active :=
  ⟨256, 5, 0, [5, 6], { (default : RestoreSt) with cmd := 1048581, offset := 3, length := 2, rows := [((7, 3, 0), [5, 6])], data := [0, 0], blocks := [(3, 7, 3)] }, (3, 7, 3), (tFrond), (tPool [] (fun m => m) fun c => ((tServed c 256 5 0x27).modCtx 256 5 fun k => { k with phase := .active }).modCat fun k => { k with fronds := [tFrond], restores := [{ (default : RestoreSt) with cmd := 1048581, offset := 3, length := 2, rows := [((7, 3, 0), [5, 6])], data := [0, 0], blocks := [(3, 7, 3)] }] }), by decide +kernel⟩

theorem witness_RestoreReadsAreRepairedAndDelivered_13 : ∃ (n : Nat) (x : Nat) (s : State), s.chip.restoreCut n x = 0x0405 ∧ (s.chip.ctxSt n x).phase = .active :=
  ⟨256, 5, (tPool [(F.mossStatus_offline, 1)] (fun m => m) fun c => ((tServed c 256 5 0x22).modCtx 256 5 fun k => { k with phase := .active }).modCat fun k => { k with fronds := [tFrond], restores := [{ (default : RestoreSt) with cmd := 1048581, blocks := [(3, 7, 3)] }] }), by decide +kernel⟩

theorem witness_BedNamespacesAreServed_1 : ∃ (n : Nat) (x : Nat) (k : Cmd) (s : State), s.chip.serves n x 0x40 = true ∧ (s.chip.ctxSt n x).cmd = k ∧ k.p0 < 60 ∧ k.p0 ≠ 0 ∧ (s.chip.ns k.p0).active = false ∧ s.chip.poolCode = 0 ∧ (s.chip.fetched n x).nsRoom n k = 0 :=
  ⟨256, 5, ((tServed default 256 5 0x40 fun k => { k with p0 := 59, p1 := 8 }).ctxSt 256 5).cmd, (tPool [] (fun m => { m with raw := 1000 }) fun c => (tServed c 256 5 0x40 fun k => { k with p0 := 59, p1 := 8 })), by decide +kernel⟩

theorem witness_BedNamespacesAreServed_2 : ∃ (n : Nat) (x : Nat) (code : Nat) (k : Cmd) (s : State), s.chip.serves n x 0x40 = true ∧ (s.chip.ctxSt n x).cmd = k ∧ ((if 60 ≤ k.p0 then 0x0102 else if (s.chip.fetched n x).nsRoom n k ≠ 0 then (s.chip.fetched n x).nsRoom n k else if k.p0 = 0 ∨ (s.chip.ns k.p0).active = true then 0x0508 else s.chip.poolCode) = code) ∧ code ≠ 0 :=
  ⟨256, 5, 0x0203, ((tServed default 256 5 0x40 fun k => { k with p0 := 59, p1 := 800 }).ctxSt 256 5).cmd, (tPool [] (fun m => { m with raw := 800 }) fun c => (tServed c 256 5 0x40 fun k => { k with p0 := 59, p1 := 800 })), by decide +kernel⟩

theorem witness_BedNamespacesAreServed_3 : ∃ (n : Nat) (x : Nat) (s : State), s.chip.serves n x 0x46 = true ∧ (s.chip.moss.ns.filter fun e => e.2.active) = [] :=
  ⟨256, 5, (tPool [] (fun m => m) fun c => (tServed c 256 5 0x46 fun k => { k with dlen := 4096 })), by decide +kernel⟩

theorem witness_BedNamespacesAreServed_4 : ∃ (n : Nat) (x : Nat) (s : State), s.chip.serves n x 0x42 = true ∧ (s.chip.fetched n x).bedCode (s.chip.ctxSt n x).cmd = 0 ∧ s.chip.poolCode = 0 :=
  ⟨256, 5, (tPool [] (fun m => { m with ns := [(59, ⟨true, 2, 0⟩)] }) fun c => (tServed c 256 5 0x42 fun k => { k with p0 := 59, p1 := 7, dlen := 4096 })), by decide +kernel⟩

theorem witness_BedNamespacesAreServed_5 : ∃ (n : Nat) (x : Nat) (s : State), s.chip.serves n x 0x44 = true ∧ (s.chip.fetched n x).bedCode (s.chip.ctxSt n x).cmd = 0 ∧ s.chip.poolCode = 0 :=
  ⟨256, 5, (tPool [] (fun m => { m with ns := [(59, ⟨true, 2, 0⟩)] }) fun c => (tServed c 256 5 0x44 fun k => { k with p0 := 59, p1 := 0, p2 := 8 })), by decide +kernel⟩

theorem witness_BedNamespacesAreServed_6 : ∃ (n : Nat) (x : Nat) (s : State), s.chip.serves n x 0x41 = true ∧ (s.chip.ctxSt n x).cmd.cflags.testBit 0 = false ∧ (s.chip.fetched n x).bedCode (s.chip.ctxSt n x).cmd = 0 ∧ s.chip.poolCode = 0 :=
  ⟨256, 5, (tPool [] (fun m => { m with ns := [(59, ⟨true, 2, 0⟩)] }) fun c => (tServed c 256 5 0x41 fun k => { k with p0 := 59 })), by decide +kernel⟩

theorem witness_BedNamespacesAreServed_7 : ∃ (n : Nat) (x : Nat) (s : State), s.chip.serves n x 0x41 = true ∧ (s.chip.ctxSt n x).cmd.cflags.testBit 0 = true ∧ (s.chip.fetched n x).bedCode (s.chip.ctxSt n x).cmd = 0 ∧ s.chip.poolCode = 0 :=
  ⟨256, 5, (tPool [] (fun m => { m with ns := [(59, ⟨true, 2, 0⟩)] }) fun c => (tServed c 256 5 0x41 fun k => { k with p0 := 59, cflags := 1 })), by decide +kernel⟩

theorem witness_BedNamespacesAreServed_8 : ∃ (n : Nat) (x : Nat) (s : State), s.chip.serves n x 0x43 = true ∧ (s.chip.fetched n x).bedCode (s.chip.ctxSt n x).cmd = 0 ∧ s.chip.poolCode = 0 :=
  ⟨256, 5, (tPool [] (fun m => { m with ns := [(59, ⟨true, 2, 0⟩)] }) fun c => (tServed c 256 5 0x43 fun k => { k with p0 := 59, p1 := 7, dlen := 4096 })), by decide +kernel⟩

theorem witness_BedNamespacesAreServed_9 : ∃ (n : Nat) (x : Nat) (code : Nat) (s : State), s.chip.serves n x 0x42 = true ∧ (if (s.chip.fetched n x).bedCode (s.chip.ctxSt n x).cmd ≠ 0 then (s.chip.fetched n x).bedCode (s.chip.ctxSt n x).cmd else s.chip.poolCode) = code ∧ code ≠ 0 :=
  ⟨256, 5, 0x0104, (tPool [] (fun m => { m with ns := [(59, ⟨true, 2, 0⟩)] }) fun c => (tServed c 256 5 0x42 fun k => { k with p0 := 59, p1 := 8, dlen := 4096 })), by decide +kernel⟩

theorem witness_BedNamespacesAreServed_10 : ∃ (n : Nat) (x : Nat) (s : State), (s.chip.ctxSt n x).phase ≠ .active ∨ (s.chip.ctxSt n x).wait ≠ .effect ∨ s.chip.effectFree n x = false ∨ s.chip.sessionFrozen (n - 1) = true :=
  ⟨256, 5, (tPool), by decide +kernel⟩

theorem witness_BedNamespacesAreServed_11 : ∃ (n : Nat) (x : Nat) (tl : Nat) (k : Cmd) (bs : List Nat) (s : State), s.chip.readSpace (k.p0 + 1) (4096 * k.p1) k.dlen = some bs ∧ bs.length = 4096 ∧ s.chip.hasEffect n x k = true ∧ k.opcode = 0x42 ∧ s.chip.poolCode = 0 ∧ s.chip.chooseTiles (s.chip.sess n).die 1 = [tl] ∧ tl < 2 ^ 21 :=
  ⟨256, 5, 0, { (default : Cmd) with session := 256, ctx := 5, opcode := 0x42, p0 := 59, p1 := 7, dlen := 4096 }, List.replicate 4096 0, tBedRead, tBedRead_bytes, List.length_replicate, by decide +kernel⟩

theorem witness_BedNamespacesAreServed_12 : ∃ (n : Nat) (x : Nat) (k : Cmd) (s : State), s.chip.hasEffect n x k = true ∧ k.opcode = 0x42 ∧ s.chip.poolCode = 0 ∧ s.chip.readSpace (k.p0 + 1) (4096 * k.p1) k.dlen = none :=
  ⟨256, 5, { (default : Cmd) with session := 256, ctx := 5, opcode := 0x42, p0 := 59, p1 := 7, dlen := 4096 }, (tPool [] (fun m => { m with map := [(mapKey 60 1, ⟨2, 0, 0, 0, 0⟩)], ns := [(59, ⟨true, 2, 0⟩)] }) fun c => (tServed c 256 5 0x42 fun k => { k with p0 := 59, p1 := 7, dlen := 4096 }).modCtx 256 5 fun y => { y with phase := .active, wait := .effect }), by decide +kernel⟩

theorem witness_BedNamespacesAreServed_13 : ∃ (n : Nat) (x : Nat) (k : Cmd) (s : State), s.chip.hasEffect n x k = true ∧ k.opcode = 0x43 ∧ s.chip.poolCode = 0 ∧ k.cflags.testBit 0 = true ∧ (∀ tl ∈ (s.chip.ctxSt n x).tiles, s.tileGood tl = true) :=
  ⟨256, 5, { (default : Cmd) with session := 256, ctx := 5, opcode := 0x43, p0 := 59, p1 := 7, cflags := 1 }, (tPool [] (fun m => { m with ns := [(59, ⟨true, 2, 0⟩)] }) fun c => (tServed c 256 5 0x43 fun k => { k with p0 := 59, p1 := 7, cflags := 1 }).modCtx 256 5 fun y => { y with phase := .active, wait := .effect }), by decide +kernel⟩

theorem witness_BedNamespacesAreServed_14 : ∃ (n : Nat) (x : Nat) (g : Nat) (k : Cmd) (bs : List Nat) (p : Place) (s : State), s.tilesRange (s.chip.ctxSt n x).tiles 0 16384 = bs ∧ bs.length = 16384 ∧ (∀ tl ∈ (s.chip.ctxSt n x).tiles, s.tileGood tl = true) ∧ s.chip.hasEffect n x k = true ∧ k.opcode = 0x43 ∧ s.chip.poolCode = 0 ∧ k.cflags.testBit 0 = false ∧ k.p1 = 4 * g ∧ g < 2 ^ 32 ∧ k.p0 < 60 ∧ k.dlen = 16384 ∧ (((s.chip.modCtx n x fun y => { y with effect := true }).modMoss fun m => { m with lsn := m.lsn + 1 }).placePage 1 0 (k.p0 + 1) g (s.chip.moss.lsn + 1) bs).1 = some p :=
  ⟨256, 5, 4294967295, { (default : Cmd) with session := 256, ctx := 5, opcode := 0x43, p0 := 59, p1 := 17179869180, dlen := 16384 }, tBedWrite.tilesRange [0, 1, 2, 3] 0 16384, ⟨3, 0, 0⟩, tBedWrite, rfl, tilesRange_length _, tBedWrite_good, by decide +kernel⟩

theorem witness_BedNamespacesAreServed_15 : ∃ (n : Nat) (x : Nat) (k : Cmd) (s : State), s.chip.hasEffect n x k = true ∧ k.opcode = 0x44 ∧ s.chip.poolCode = 0 ∧ k.p1 + k.p2 ≤ 2 ^ 34 :=
  ⟨256, 5, { (default : Cmd) with session := 256, ctx := 5, opcode := 0x44, p0 := 59, p1 := 3, p2 := 5 }, (tPool [] (fun m => { m with map := [(mapKey 60 1, ⟨2, 0, 0, 0, 0⟩)], ns := [(59, ⟨true, 2, 0⟩)] }) fun c => (tServed c 256 5 0x44 fun k => { k with p0 := 59, p1 := 3, p2 := 5 }).modCtx 256 5 fun y => { y with phase := .active, wait := .effect }), by decide +kernel⟩

theorem witness_BedNamespacesAreServed_16 : ∃ (n : Nat) (x : Nat) (k : Cmd) (s : State), s.chip.hasEffect n x k = true ∧ k.opcode = 0x41 ∧ s.chip.poolCode = 0 ∧ k.cflags.testBit 0 = false :=
  ⟨256, 5, { (default : Cmd) with session := 256, ctx := 5, opcode := 0x41, p0 := 59 }, (tPool [] (fun m => { m with ns := [(59, ⟨true, 2, 0⟩)] }) fun c => (tServed c 256 5 0x41 fun k => { k with p0 := 59 }).modCtx 256 5 fun y => { y with phase := .active, wait := .effect }), by decide +kernel⟩

theorem witness_BedNamespacesAreServed_17 : ∃ (n : Nat) (x : Nat) (k : Cmd) (s : State), s.chip.hasEffect n x k = true ∧ k.opcode = 0x41 ∧ s.chip.poolCode = 0 ∧ k.cflags.testBit 0 = true ∧ s.chip.moss.op = none ∧ s.chip.moss.discards = [] :=
  ⟨256, 5, { (default : Cmd) with session := 256, ctx := 5, opcode := 0x41, p0 := 59, cflags := 1 }, (tPool [] (fun m => { m with ns := [(59, ⟨true, 2, 0⟩)] }) fun c => (tServed c 256 5 0x41 fun k => { k with p0 := 59, cflags := 1 }).modCtx 256 5 fun y => { y with phase := .active, wait := .effect }), by decide +kernel⟩

theorem witness_BedNamespacesAreServed_18 : ∃ (n : Nat) (x : Nat) (code : Nat) (k : Cmd) (s : State), s.chip.hasEffect n x k = true ∧ s.chip.poolCode = code ∧ code ≠ 0 :=
  ⟨256, 5, 0x0405, { (default : Cmd) with session := 256, ctx := 5, opcode := 0x43 }, (tPool [(F.mossStatus_offline, 1)] (fun m => m) fun c => (tServed c 256 5 0x43).modCtx 256 5 fun y => { y with phase := .active, wait := .effect }), by decide +kernel⟩

theorem witness_BedNamespacesAreServed_19 : ∃ (n : Nat) (x : Nat) (s : State), s.chip.serves n x 0x45 = true ∧ s.chip.rd F.mossStatus_offline = 0 :=
  ⟨256, 5, (tPool [] (fun m => m) fun c => (tServed c 256 5 0x45)), by decide +kernel⟩

theorem witness_BedNamespacesAreServed_20 : ∃ (n : Nat) (x : Nat) (k : Cmd) (ls : List Nat) (s : State), s.chip.poolWrites = true ∧ s.chip.cat = default ∧ s.chip.catSnaps = [] ∧ s.chip.moss.recs = [] ∧ s.chip.moss.writes = [] ∧ s.chip.moss.sets = [] ∧ s.chip.moss.buf = [] ∧ (s.chip.contextsParsed fun y => y.phase == .active) = [(n, x)] ∧ (s.chip.ctxSt n x).wait = .durable ls ∧ (s.chip.ctxSt n x).cmd = k ∧ k.opcode ≠ 0x43 ∧ n ≤ 256 :=
  ⟨256, 5, { (default : Cmd) with session := 256, ctx := 5, opcode := 0x40 }, [9], (tPool [] (fun m => m) fun c => (tServed c 256 5 0x40).modCtx 256 5 fun y => { y with phase := .active, wait := .durable [9] }), by decide +kernel⟩

theorem witness_ObjectCommandsAct_1 : ∃ (n : Nat) (x : Nat) (k : Cmd) (s : State), s.chip.serves n x 0x20 = true ∧ (s.chip.ctxSt n x).cmd = k ∧ k.p0 ≠ 0 ∧ k.p0 < 2 ^ 64 ∧ k.p2 / 16 % 4 < 3 ∧ (s.chip.fetched n x).createCode k = 0 :=
  ⟨256, 5, ((tPoolCmd 0x20 fun k => { k with p0 := 77, p1 := 9, p2 := 232 }).chip.ctxSt 256 5).cmd, (tPoolCmd 0x20 (fun k => { k with p0 := 77, p1 := 9, p2 := 232 }) (fun a => { a with objects := [tObject fun o => { o with state := .void }] }) [(F.shape_k 0, 20), (F.shape_m 0, 4), (F.shape_q 0, 1), (F.shape_en 0, 1)]), by decide +kernel⟩

theorem witness_ObjectCommandsAct_2 : ∃ (n : Nat) (x : Nat) (code : Nat) (k : Cmd) (s : State), s.chip.serves n x 0x20 = true ∧ (s.chip.ctxSt n x).cmd = k ∧ ((if k.p0 = 0 ∨ 3 ≤ k.p2 / 16 % 4 then 0x0102 else (s.chip.fetched n x).createCode k) = code) ∧ code ≠ 0 :=
  ⟨256, 5, 0x0501, ((tPoolCmd 0x20 fun k => { k with p0 := 77 }).chip.ctxSt 256 5).cmd, (tPoolCmd 0x20 (fun k => { k with p0 := 77 }) fun a => { a with objects := [tObject] }), by decide +kernel⟩

theorem witness_ObjectCommandsAct_3 : ∃ (n : Nat) (x : Nat) (u : Nat) (k : Cmd) (s : State), s.chip.serves n x 0x21 = true ∧ (s.chip.ctxSt n x).cmd = k ∧ k.dlen ≠ 0 ∧ (s.chip.fetched n x).putCode k = 0 ∧ (s.chip.fetched n x).putRoom k = 0 ∧ (s.chip.fetched n x).freeSnoop (s.chip.sess n).die = some u :=
  ⟨256, 5, 15, ((tPoolCmd 0x21 fun k => { k with p0 := 77, dlen := 100 }).chip.ctxSt 256 5).cmd, (tPoolCmd 0x21 (fun k => { k with p0 := 77, dlen := 100 }) (fun a => { a with objects := [tObject] }) ((List.range 15).map fun u => (F.snoopCfg_en 0 u, 1))), by decide +kernel⟩

theorem witness_ObjectCommandsAct_4 : ∃ (n : Nat) (x : Nat) (k : Cmd) (s : State), s.chip.serves n x 0x21 = true ∧ (s.chip.ctxSt n x).cmd = k ∧ (s.chip.fetched n x).putCode k = 0 ∧ (s.chip.fetched n x).putRoom k = 0 ∧ (s.chip.fetched n x).freeSnoop (s.chip.sess n).die = none :=
  ⟨256, 5, ((tPoolCmd 0x21 fun k => { k with p0 := 77, dlen := 100 }).chip.ctxSt 256 5).cmd, (tPoolCmd 0x21 (fun k => { k with p0 := 77, dlen := 100 }) (fun a => { a with objects := [tObject] }) ((List.range 16).map fun u => (F.snoopCfg_en 0 u, 1))), by decide +kernel⟩

theorem witness_ObjectCommandsAct_5 : ∃ (n : Nat) (x : Nat) (o : ObjRec) (k : Cmd) (s : State), s.chip.serves n x 0x21 = true ∧ (s.chip.ctxSt n x).cmd = k ∧ (s.chip.fetched n x).putCode k = 0 ∧ findObj s.chip.cat.objects k.p0 = some o ∧ o.extents = [] ∧ o.grant = none ∧ 0 < k.p1 + k.dlen ∧ 0 < s.chip.rd (F.quota_moss (o.session - 1)) ∧ s.chip.rd (F.quota_moss (o.session - 1)) * 2 ^ 30 < s.chip.mossUse o.session + 4096 * s.chip.grantSize o :=
  ⟨256, 5, (tObject fun o => { o with session := 256 }), ((tPoolCmd 0x21 fun k => { k with p0 := 77, dlen := 100 }).chip.ctxSt 256 5).cmd, (fun t : State => { t with chip := { (t.chip.wr (F.quota_moss 255) 1) with moss := { t.chip.moss with ns := [(3, ⟨true, 65536, 256⟩)] } } }) (tPoolCmd 0x21 (fun k => { k with p0 := 77, dlen := 100 }) (fun a => { a with objects := [tObject fun o => { o with session := 256 }] }) [(F.shape_k 0, 20), (F.shape_q 0, 1)]), by decide +kernel⟩

theorem witness_ObjectCommandsAct_6 : ∃ (n : Nat) (x : Nat) (code : Nat) (k : Cmd) (s : State), s.chip.serves n x 0x21 = true ∧ (s.chip.ctxSt n x).cmd = k ∧ (s.chip.fetched n x).putCode k = code ∧ code ≠ 0 :=
  ⟨256, 5, 0x0503, ((tPoolCmd 0x21 fun k => { k with p0 := 77, p1 := 1, dlen := 100 }).chip.ctxSt 256 5).cmd, (tPoolCmd 0x21 (fun k => { k with p0 := 77, p1 := 1, dlen := 100 }) fun a => { a with objects := [tObject] }), by decide +kernel⟩

theorem witness_ObjectCommandsAct_7 : ∃ (e : Nat) (s : State), s.chip.freeSnoop e = none ∨ (s.chip.bufSt e).snoopWait = [] :=
  ⟨1, (tState []), by decide +kernel⟩

theorem witness_ObjectCommandsAct_8 : ∃ (e : Nat) (u : Nat) (n : Nat) (x : Nat) (o : ObjRec) (s : State), s.chip.freeSnoop e = some u ∧ (s.chip.bufSt e).snoopWait = [(n, x)] ∧ (s.chip.sess n).die = e ∧ (s.chip.ctxSt n x).phase = .active ∧ (s.chip.ctxSt n x).wait = .snoop ∧ (s.chip.ctxSt n x).hw < 4096 ∧ (s.chip.ctxSt n x).snoop = none ∧ (s.chip.ctxSt n x).cmd.opcode = 0x21 ∧ (s.chip.ctxSt n x).cmd.dlen ≠ 0 ∧ findObj s.chip.cat.objects (s.chip.ctxSt n x).object = some o :=
  ⟨0, 15, 256, 5, (tObject fun o => { o with running := 99 }), (tPool ((List.range 15).map fun u => (F.snoopCfg_en 0 u, 1)) (fun m => m) fun c => (((tServed c 256 5 0x21 fun k => { k with p0 := 77, dlen := 100 }).modCat fun a => { a with objects := [tObject fun o => { o with running := 99 }] }).modCtx 256 5 fun y => { y with phase := .active, wait := .snoop, hw := 4095, object := 77 }).modBuf 0 fun b => { b with snoopWait := [(256, 5)] }), by decide +kernel⟩

theorem witness_ObjectCommandsAct_9 : ∃ (n : Nat) (x : Nat) (u : Nat) (k : Cmd) (s : State), s.chip.serves n x 0x22 = true ∧ (s.chip.ctxSt n x).cmd = k ∧ (s.chip.fetched n x).getCode k = 0 ∧ s.chip.allReaders n x k = [] ∧ s.chip.wantedBlocks k ≠ [] ∧ (s.chip.sess n).die < 2 ∧ s.chip.restore n x = none ∧ (s.chip.fetched n x).freeSnoop (s.chip.sess n).die = some u :=
  ⟨256, 5, 0, ((tPoolCmd 0x22 fun k => { k with p0 := 77, dlen := 100 }).chip.ctxSt 256 5).cmd, (tPoolCmd 0x22 (fun k => { k with p0 := 77, dlen := 100 }) fun a => { a with objects := [tObject fun o => { o with state := .committed, length := 100, extents := [⟨0, 7, 3, 1⟩] }], fronds := [tFrond] }), by decide +kernel⟩

theorem witness_ObjectCommandsAct_10 : ∃ (n : Nat) (x : Nat) (code : Nat) (k : Cmd) (s : State), s.chip.serves n x 0x22 = true ∧ (s.chip.ctxSt n x).cmd = k ∧ (s.chip.fetched n x).getCode k = code ∧ code ≠ 0 :=
  ⟨256, 5, 0x0104, ((tPoolCmd 0x22 fun k => { k with p0 := 77, dlen := 101 }).chip.ctxSt 256 5).cmd, (tPoolCmd 0x22 (fun k => { k with p0 := 77, dlen := 101 }) fun a => { a with objects := [tObject fun o => { o with state := .committed, length := 100 }] }), by decide +kernel⟩

theorem witness_ObjectCommandsAct_11 : ∃ (n : Nat) (x : Nat) (k : Cmd) (f : FrondRec) (s : State), s.chip.serves n x 0x27 = true ∧ (s.chip.ctxSt n x).cmd = k ∧ findFrond s.chip.cat.fronds k.p0 = some f ∧ 4096 ≤ k.dlen ∧ k.p1 + k.dlen / 4096 ≤ f.blocks ∧ f.inMoss = true ∧ s.chip.poolCode = 0 ∧ s.chip.restore n x = none :=
  ⟨256, 5, ((tPoolCmd 0x27 fun k => { k with p0 := 7, p1 := 16383, dlen := 4096 }).chip.ctxSt 256 5).cmd, (tFrond), (tPoolCmd 0x27 (fun k => { k with p0 := 7, p1 := 16383, dlen := 4096 }) fun a => { a with fronds := [tFrond] }), by decide +kernel⟩

theorem witness_ObjectCommandsAct_12 : ∃ (n : Nat) (x : Nat) (k : Cmd) (s : State), s.chip.serves n x 0x27 = true ∧ (s.chip.ctxSt n x).cmd = k ∧ (k.dlen = 0 ∨ (findFrond s.chip.cat.fronds k.p0).any (fun f => decide (f.blocks < k.p1 + k.dlen / 4096)) = true) :=
  ⟨256, 5, ((tPoolCmd 0x27 fun k => { k with p0 := 7, p1 := 16384, dlen := 4096 }).chip.ctxSt 256 5).cmd, (tPoolCmd 0x27 (fun k => { k with p0 := 7, p1 := 16384, dlen := 4096 }) fun a => { a with fronds := [tFrond] }), by decide +kernel⟩

theorem witness_ObjectCommandsAct_13 : ∃ (n : Nat) (x : Nat) (o : ObjRec) (s : State), s.chip.serves n x 0x23 = true ∧ findObj s.chip.cat.objects (s.chip.ctxSt n x).cmd.p0 = some o :=
  ⟨256, 5, (tObject), (tPoolCmd 0x23 (fun k => { k with p0 := 77 }) fun a => { a with objects := [tObject] }), by decide +kernel⟩

theorem witness_ObjectCommandsAct_14 : ∃ (n : Nat) (x : Nat) (f : FrondRec) (s : State), s.chip.serves n x 0x28 = true ∧ findFrond s.chip.cat.fronds (s.chip.ctxSt n x).cmd.p0 = some f :=
  ⟨256, 5, (tFrond), (tPoolCmd 0x28 (fun k => { k with p0 := 7 }) fun a => { a with fronds := [tFrond] }), by decide +kernel⟩

theorem witness_ObjectCommandsAct_15 : ∃ (n : Nat) (x : Nat) (s : State), s.chip.serves n x 0x23 = true ∧ findObj s.chip.cat.objects (s.chip.ctxSt n x).cmd.p0 = none :=
  ⟨256, 5, (tPoolCmd 0x23 (fun k => { k with p0 := 77 })), by decide +kernel⟩

theorem witness_ObjectCommandsAct_16 : ∃ (n : Nat) (x : Nat) (s : State), s.chip.serves n x 0x26 = true ∧ (s.chip.cat.objects.filter fun o => decide ((s.chip.ctxSt n x).cmd.p0 ≤ o.id) && decide (o.id < 2 ^ 64) && o.state != .discarded) = [] :=
  ⟨256, 5, (tPoolCmd 0x26 (fun k => { k with p0 := 78, dlen := 4096 }) fun a => { a with objects := [tObject] }), by decide +kernel⟩

theorem witness_ObjectCommandsAct_17 : ∃ (n : Nat) (x : Nat) (s : State), s.chip.serves n x 0x24 = true ∧ (8 ≤ (s.chip.ctxSt n x).cmd.p0 ∨ s.chip.shapeOk (s.chip.ctxSt n x).cmd.p0 = false) :=
  ⟨256, 5, (tPoolCmd 0x24 (fun k => { k with p0 := 8 })), by decide +kernel⟩

theorem witness_ObjectCommandsAct_18 : ∃ (n : Nat) (x : Nat) (f : FrondRec) (s : State), s.chip.serves n x 0x24 = true ∧ (s.chip.ctxSt n x).cmd.p0 < 8 ∧ s.chip.shapeOk (s.chip.ctxSt n x).cmd.p0 = true ∧ s.chip.frondOpen (s.chip.ctxSt n x).cmd.p0 = some f :=
  ⟨256, 5, (tFrond fun f => { f with shape := 7 }), (tPoolCmd 0x24 (fun k => { k with p0 := 7 }) (fun a => { a with fronds := [tFrond fun f => { f with shape := 7 }] }) [(F.shape_k 7, 20), (F.shape_m 7, 4), (F.shape_q 7, 1), (F.shape_en 7, 1)]), by decide +kernel⟩

theorem witness_ObjectCommandsAct_19 : ∃ (n : Nat) (x : Nat) (k : Cmd) (s : State), s.chip.serves n x 0x25 = true ∧ (s.chip.ctxSt n x).cmd = k ∧ k.cflags.testBit 0 = false ∧ (s.chip.fetched n x).discardCode n x k = 0 :=
  ⟨256, 5, ((tPoolCmd 0x25 fun k => { k with p0 := 77 }).chip.ctxSt 256 5).cmd, (tPoolCmd 0x25 (fun k => { k with p0 := 77 }) fun a => { a with objects := [tObject] }), by decide +kernel⟩

theorem witness_ObjectCommandsAct_20 : ∃ (n : Nat) (x : Nat) (k : Cmd) (o : ObjRec) (s : State), s.chip.serves n x 0x25 = true ∧ (s.chip.ctxSt n x).cmd = k ∧ k.cflags.testBit 0 = true ∧ (s.chip.fetched n x).discardCode n x k = 0 ∧ findObj s.chip.cat.objects k.p0 = some o ∧ s.chip.moss.op = none ∧ s.chip.moss.discards = [] ∧ o.extents = [] :=
  ⟨256, 5, ((tPoolCmd 0x25 fun k => { k with p0 := 77, cflags := 1 }).chip.ctxSt 256 5).cmd, (tObject fun o => { o with salt := 5 }), (tPoolCmd 0x25 (fun k => { k with p0 := 77, cflags := 1 }) fun a => { a with objects := [tObject fun o => { o with salt := 5 }] }), by decide +kernel⟩

theorem witness_ObjectCommandsAct_21 : ∃ (n : Nat) (x : Nat) (code : Nat) (k : Cmd) (s : State), s.chip.serves n x 0x25 = true ∧ (s.chip.ctxSt n x).cmd = k ∧ k.cflags.testBit 0 = false ∧ (s.chip.fetched n x).discardCode n x k = code ∧ code ≠ 0 :=
  ⟨256, 5, 0x0502, ((tPoolCmd 0x25 fun k => { k with p0 := 77 }).chip.ctxSt 256 5).cmd, (tPoolCmd 0x25 (fun k => { k with p0 := 77 })), by decide +kernel⟩

theorem witness_ObjectCommandsAct_22 : ∃ (n : Nat) (x : Nat) (k : Cmd) (f : FrondRec) (s : State), s.chip.serves n x 0x29 = true ∧ (s.chip.ctxSt n x).cmd = k ∧ (s.chip.fetched n x).overburnCode k = 0 ∧ findFrond s.chip.cat.fronds k.p0 = some f ∧ (∀ p ∈ f.pinnae, p.firstPsa = []) :=
  ⟨256, 5, ((tPoolCmd 0x29 fun k => { k with p0 := 7 }).chip.ctxSt 256 5).cmd, (tFrond), (tPoolCmd 0x29 (fun k => { k with p0 := 7 }) fun a => { a with fronds := [tFrond] }), by decide +kernel⟩

theorem witness_ObjectCommandsAct_23 : ∃ (n : Nat) (x : Nat) (k : Cmd) (f : FrondRec) (s : State), s.chip.serves n x 0x29 = true ∧ (s.chip.ctxSt n x).cmd = k ∧ (s.chip.fetched n x).overburnCode k = 0 ∧ findFrond s.chip.cat.fronds k.p0 = some f ∧ f.pinnae.map (fun p => p.firstPsa.isEmpty) = [false] ∧ (∀ d < 24, s.chip.rd (F.discStatus_state d) = 0) :=
  ⟨256, 5, ((tPoolCmd 0x29 fun k => { k with p0 := 7 }).chip.ctxSt 256 5).cmd, (tFrond fun f => { f with pinnae := [{ (default : PinnaRec) with firstPsa := [(0, 8)] }] }), (tPoolCmd 0x29 (fun k => { k with p0 := 7 }) fun a => { a with fronds := [tFrond fun f => { f with pinnae := [{ (default : PinnaRec) with firstPsa := [(0, 8)] }] }] }), by decide +kernel⟩

theorem witness_ObjectCommandsAct_24 : ∃ (n : Nat) (x : Nat) (code : Nat) (k : Cmd) (s : State), s.chip.serves n x 0x29 = true ∧ (s.chip.ctxSt n x).cmd = k ∧ (s.chip.fetched n x).overburnCode k = code ∧ code ≠ 0 :=
  ⟨256, 5, 0x0502, ((tPoolCmd 0x29 fun k => { k with p0 := 7 }).chip.ctxSt 256 5).cmd, (tPoolCmd 0x29 (fun k => { k with p0 := 7 })), by decide +kernel⟩

theorem witness_DriveCommandsAct_1 : ∃ (n : Nat) (x : Nat) (s : State), s.chip.serves n x 0x60 = true :=
  ⟨256, 5, (tState [(F.discId_id 23, 99), (F.hlinkStatus_state 23, 5)] fun c => tServed c 256 5 0x60 fun k => { k with p0 := 23 }), by decide +kernel⟩

theorem witness_DriveCommandsAct_2 : ∃ (n : Nat) (x : Nat) (k : Cmd) (s : State), s.chip.serves n x 0x61 = true ∧ (s.chip.ctxSt n x).cmd = k ∧ (s.chip.fetched n x).loadCode k = 0 :=
  ⟨256, 5, ((tPoolCmd 0x61 fun k => { k with p0 := 23, p1 := 9, cflags := 1 }).chip.ctxSt 256 5).cmd, (tPoolCmd 0x61 (fun k => { k with p0 := 23, p1 := 9, cflags := 1 }) (fun a => a) [(F.hlinkStatus_state 23, 5)]), by decide +kernel⟩

theorem witness_DriveCommandsAct_3 : ∃ (n : Nat) (x : Nat) (k : Cmd) (s : State), s.chip.serves n x 0x61 = true ∧ (s.chip.ctxSt n x).cmd = k ∧ (s.chip.fetched n x).loadCode k = 0 ∧ s.chip.rd (F.axisStatus_homed k.p0 1) = 1 ∧ s.chip.rd (F.axisStatus_state k.p0 1) ≠ 6 ∧ (s.chip.axisSt (axisNo k.p0 1)).move = none ∧ (s.chip.axisSt (axisNo k.p0 1)).armed = none ∧ s.chip.rdi (F.discTray_clamp_pos k.p0) ≠ s.chip.rdi (F.axisStatus_pos k.p0 1) :=
  ⟨256, 5, ((tPoolCmd 0x61 fun k => { k with p0 := 23, p1 := 9, cflags := 1 }).chip.ctxSt 256 5).cmd, (tPoolCmd 0x61 (fun k => { k with p0 := 23, p1 := 9, cflags := 1 }) (fun a => a) [(F.hlinkStatus_state 23, 5), (F.axisStatus_homed 23 1, 1), (F.axisStatus_pos 23 1, 77)]), by decide +kernel⟩

theorem witness_DriveCommandsAct_4 : ∃ (n : Nat) (x : Nat) (code : Nat) (k : Cmd) (s : State), s.chip.serves n x 0x61 = true ∧ (s.chip.ctxSt n x).cmd = k ∧ (s.chip.fetched n x).loadCode k = code ∧ code ≠ 0 :=
  ⟨256, 5, 0x0605, ((tPoolCmd 0x61 fun k => { k with p0 := 23, p1 := 9, cflags := 1 }).chip.ctxSt 256 5).cmd, (tPoolCmd 0x61 (fun k => { k with p0 := 23, p1 := 9, cflags := 1 })), by decide +kernel⟩

theorem witness_DriveCommandsAct_5 : ∃ (n : Nat) (x : Nat) (k : Cmd) (s : State), s.chip.serves n x 0x62 = true ∧ (s.chip.ctxSt n x).cmd = k ∧ (s.chip.fetched n x).unloadCode k = 0 ∧ s.chip.driveBusy k.p0 = false :=
  ⟨256, 5, ((tPoolCmd 0x62 fun k => { k with p0 := 23 }).chip.ctxSt 256 5).cmd, (tPoolCmd 0x62 (fun k => { k with p0 := 23 }) (fun a => a) [(F.hlinkStatus_state 23, 5), (F.discStatus_state 23, 5), (F.discId_id 23, 9)]), by decide +kernel⟩

theorem witness_DriveCommandsAct_6 : ∃ (n : Nat) (x : Nat) (code : Nat) (k : Cmd) (s : State), s.chip.serves n x 0x62 = true ∧ (s.chip.ctxSt n x).cmd = k ∧ (s.chip.fetched n x).unloadCode k = code ∧ code ≠ 0 :=
  ⟨256, 5, 0x0604, ((tPoolCmd 0x62 fun k => { k with p0 := 23 }).chip.ctxSt 256 5).cmd, (tPoolCmd 0x62 (fun k => { k with p0 := 23 }) (fun a => { a with loads := [(23, some default)] }) [(F.hlinkStatus_state 23, 5), (F.discStatus_state 23, 5), (F.discId_id 23, 9)]), by decide +kernel⟩

theorem witness_DriveCommandsAct_7 : ∃ (n : Nat) (x : Nat) (k : Cmd) (s : State), s.chip.serves n x 0x63 = true ∧ (s.chip.ctxSt n x).cmd = k ∧ psaRangeOk k.p1 (k.dlen / 4096) = true ∧ k.dlen ≠ 0 ∧ s.chip.portUp k.p0 = true ∧ s.chip.rd (F.discStatus_state k.p0) = 5 ∧ (s.chip.burnSt k.p0).run.isSome = true ∧ s.chip.rd (F.spinStatus_state k.p0) ≠ 0 ∧ s.chip.rd (F.spinStatus_lock k.p0) = 0 :=
  ⟨256, 5, ((tPoolCmd 0x63 fun k => { k with p0 := 23, dlen := 8192 }).chip.ctxSt 256 5).cmd, (tPool [(F.hlinkStatus_state 23, 5), (F.discStatus_state 23, 5), (F.spinStatus_state 23, 6)] (fun m => m) fun c => ((tServed c 256 5 0x63 (fun k => { k with p0 := 23, dlen := 8192 })).modBurn 23 fun b => { b with run := some default })), by decide +kernel⟩

theorem witness_DriveCommandsAct_8 : ∃ (n : Nat) (x : Nat) (code : Nat) (k : Cmd) (s : State), s.chip.serves n x 0x63 = true ∧ (s.chip.ctxSt n x).cmd = k ∧ (if psaRangeOk k.p1 (k.dlen / 4096) = false then 0x0104 else if s.chip.portUp k.p0 = false then 0x0605 else if s.chip.rd (F.discStatus_state k.p0) ≠ 5 then 0x0602 else 0) = code ∧ code ≠ 0 :=
  ⟨256, 5, 0x0104, ((tPoolCmd 0x63 fun k => { k with p0 := 23, p1 := 2147483648 }).chip.ctxSt 256 5).cmd, (tPoolCmd 0x63 (fun k => { k with p0 := 23, p1 := 2147483648 })), by decide +kernel⟩

theorem witness_DriveCommandsAct_9 : ∃ (n : Nat) (x : Nat) (k : Cmd) (s : State), s.chip.serves n x 0x64 = true ∧ (s.chip.ctxSt n x).cmd = k ∧ k.p1 % 4 = 1 ∧ k.p0 < 2 ^ 24 ∧ (maskList 24 k.p0).all s.chip.portServes = true :=
  ⟨256, 5, ((tPoolCmd 0x64 fun k => { k with p0 := 8388609, p1 := 1 }).chip.ctxSt 256 5).cmd, (tPoolCmd 0x64 (fun k => { k with p0 := 8388609, p1 := 1 }) (fun a => a) [(F.hlinkStatus_state 23, 5), (F.hlinkStatus_state 0, 5)]), by decide +kernel⟩

theorem witness_DriveCommandsAct_10 : ∃ (n : Nat) (x : Nat) (d : Nat) (k : Cmd) (s : State), s.chip.serves n x 0x64 = true ∧ (s.chip.ctxSt n x).cmd = k ∧ k.p1 % 4 = 1 ∧ k.p0 < 2 ^ 24 ∧ maskList 24 k.p0 = [d] ∧ s.chip.portUp d = true ∧ s.chip.engineOut d = false ∧ s.chip.rd (F.spinStatus_state d) ≠ 0 ∧ s.chip.rd (F.spinStatus_state d) ≠ 6 ∧ (s.chip.spinSt d).waiting = none :=
  ⟨256, 5, 23, ((tPoolCmd 0x64 fun k => { k with p0 := 8388608, p1 := 1 + 65536 * 999 }).chip.ctxSt 256 5).cmd, (tPoolCmd 0x64 (fun k => { k with p0 := 8388608, p1 := 1 + 65536 * 999 }) (fun a => a) [(F.hlinkStatus_state 23, 5), (F.spinStatus_state 23, 7)]), by decide +kernel⟩

theorem witness_DriveCommandsAct_11 : ∃ (n : Nat) (x : Nat) (k : Cmd) (s : State), s.chip.serves n x 0x64 = true ∧ (s.chip.ctxSt n x).cmd = k ∧ k.p1 % 4 = 2 ∧ k.p0 < 2 ^ 24 ∧ (maskList 24 k.p0).all s.chip.portServes = true ∧ (s.chip.ctxSt n x).fired = 0 ∧ (s.chip.ctxSt n x).late = false :=
  ⟨256, 5, ((tPoolCmd 0x64 fun k => { k with p0 := 8388609, p1 := 2 }).chip.ctxSt 256 5).cmd, (tPoolCmd 0x64 (fun k => { k with p0 := 8388609, p1 := 2 }) (fun a => a) [(F.hlinkStatus_state 23, 5), (F.hlinkStatus_state 0, 5), (F.spinStatus_state 23, 6)]), by decide +kernel⟩

theorem witness_DriveCommandsAct_12 : ∃ (n : Nat) (x : Nat) (d : Nat) (k : Cmd) (s : State), s.chip.serves n x 0x64 = true ∧ (s.chip.ctxSt n x).cmd = k ∧ k.p1 % 4 = 2 ∧ k.p0 < 2 ^ 24 ∧ maskList 24 k.p0 = [d] ∧ s.chip.portUp d = true ∧ s.chip.engineOut d = false ∧ s.chip.rd (F.spinStatus_place d) = 0 ∧ (s.chip.spinSt d).waiting = none ∧ s.chip.rd (F.spinStatus_state d) = 6 :=
  ⟨256, 5, 23, ((tPoolCmd 0x64 fun k => { k with p0 := 8388608, p1 := 2 }).chip.ctxSt 256 5).cmd, (tPoolCmd 0x64 (fun k => { k with p0 := 8388608, p1 := 2 }) (fun a => a) [(F.hlinkStatus_state 23, 5), (F.spinStatus_state 23, 6), (F.spinStatus_lock 23, 1)]), by decide +kernel⟩

theorem witness_DriveCommandsAct_13 : ∃ (n : Nat) (x : Nat) (code : Nat) (k : Cmd) (s : State), s.chip.serves n x 0x64 = true ∧ (s.chip.ctxSt n x).cmd = k ∧ k.p1 % 4 ≠ 1 ∧ ((if k.p1 % 4 ≠ 2 ∨ 2 ^ 24 ≤ k.p0 then 0x0102 else if (maskList 24 k.p0).all s.chip.portServes = false then 0x0605 else 0) = code) ∧ code ≠ 0 :=
  ⟨256, 5, 0x0605, ((tPoolCmd 0x64 fun k => { k with p0 := 8388608, p1 := 2 }).chip.ctxSt 256 5).cmd, (tPoolCmd 0x64 (fun k => { k with p0 := 8388608, p1 := 2 })), by decide +kernel⟩

theorem witness_DriveCommandsAct_14 : ∃ (n : Nat) (x : Nat) (k : Cmd) (s : State), s.chip.serves n x 0x65 = true ∧ (s.chip.ctxSt n x).cmd = k ∧ 1 ≤ k.p1 / 16 % 16 ∧ k.p1 / 16 % 16 ≤ 6 ∧ (k.p1 / 16 % 16 ≠ 4 ∨ k.p1 % 2 = 0) ∧ s.chip.portUp k.p0 = true ∧ (s.chip.ctxSt n x).fired = 0 ∧ (s.chip.ctxSt n x).late = false :=
  ⟨256, 5, ((tPoolCmd 0x65 fun k => { k with p0 := 23, p1 := 16 }).chip.ctxSt 256 5).cmd, (tPoolCmd 0x65 (fun k => { k with p0 := 23, p1 := 16 }) (fun a => a) [(F.hlinkStatus_state 23, 5)]), by decide +kernel⟩

theorem witness_DriveCommandsAct_15 : ∃ (n : Nat) (x : Nat) (k : Cmd) (s : State), s.chip.serves n x 0x65 = true ∧ (s.chip.ctxSt n x).cmd = k ∧ k.p1 / 16 % 16 = 1 ∧ s.chip.portUp k.p0 = true ∧ s.chip.rd (F.axisStatus_homed k.p0 (k.p1 % 2)) = 1 ∧ s.chip.rd (F.axisStatus_state k.p0 (k.p1 % 2)) ≠ 6 ∧ (s.chip.axisSt (axisNo k.p0 (k.p1 % 2))).move = none ∧ (s.chip.axisSt (axisNo k.p0 (k.p1 % 2))).armed = none ∧ signed 32 k.p2 ≠ s.chip.rdi (F.axisStatus_pos k.p0 (k.p1 % 2)) :=
  ⟨256, 5, ((tPoolCmd 0x65 fun k => { k with p0 := 23, p1 := 17, p2 := 4294967295 }).chip.ctxSt 256 5).cmd, (tPoolCmd 0x65 (fun k => { k with p0 := 23, p1 := 17, p2 := 4294967295 }) (fun a => a) [(F.hlinkStatus_state 23, 5), (F.axisStatus_homed 23 1, 1)]), by decide +kernel⟩

theorem witness_DriveCommandsAct_16 : ∃ (n : Nat) (x : Nat) (code : Nat) (k : Cmd) (s : State), s.chip.serves n x 0x65 = true ∧ (s.chip.ctxSt n x).cmd = k ∧ ((if k.p1 / 16 % 16 < 1 ∨ 6 < k.p1 / 16 % 16 ∨ (k.p1 / 16 % 16 = 4 ∧ k.p1 % 2 = 1) then 0x0102 else if s.chip.portUp k.p0 = false then 0x0605 else 0) = code) ∧ code ≠ 0 :=
  ⟨256, 5, 0x0102, ((tPoolCmd 0x65 fun k => { k with p0 := 23, p1 := 65 }).chip.ctxSt 256 5).cmd, (tPoolCmd 0x65 (fun k => { k with p0 := 23, p1 := 65 })), by decide +kernel⟩

theorem witness_DriveCommandsAct_17 : ∃ (n : Nat) (x : Nat) (k : Cmd) (s : State), s.chip.serves n x 0x66 = true ∧ (s.chip.ctxSt n x).cmd = k ∧ s.chip.load k.p0 = none ∧ s.chip.driveBusy k.p0 = false :=
  ⟨256, 5, ((tPoolCmd 0x66 fun k => { k with p0 := 23 }).chip.ctxSt 256 5).cmd, (tPoolCmd 0x66 (fun k => { k with p0 := 23 }) (fun a => a) [(F.hlinkStatus_state 23, 5), (F.hlinkCtrl_enable 23, 1)]), by decide +kernel⟩

theorem witness_DriveCommandsAct_18 : ∃ (n : Nat) (x : Nat) (k : Cmd) (s : State), s.chip.serves n x 0x66 = true ∧ (s.chip.ctxSt n x).cmd = k ∧ (s.chip.load k.p0 ≠ none ∨ s.chip.driveBusy k.p0 = true) :=
  ⟨256, 5, ((tPoolCmd 0x66 fun k => { k with p0 := 23 }).chip.ctxSt 256 5).cmd, (tPoolCmd 0x66 (fun k => { k with p0 := 23 }) (fun a => { a with loads := [(23, some default)] })), by decide +kernel⟩

theorem witness_DriveCommandsAct_19 : ∃ (n : Nat) (x : Nat) (k : Cmd) (s : State), s.chip.serves n x 0x67 = true ∧ (s.chip.ctxSt n x).cmd = k ∧ s.chip.rd (F.hlinkStatus_state k.p0) = 0 ∧ 7 ≤ s.chip.rd F.bootProgress_step :=
  ⟨256, 5, ((tPoolCmd 0x67 fun k => { k with p0 := 23 }).chip.ctxSt 256 5).cmd, (tPoolCmd 0x67 (fun k => { k with p0 := 23 }) (fun a => a) [(F.svcRetired_retired, 8388608), (F.bootProgress_step, 7)]), by decide +kernel⟩

theorem witness_DriveCommandsAct_20 : ∃ (n : Nat) (x : Nat) (k : Cmd) (s : State), s.chip.serves n x 0x67 = true ∧ (s.chip.ctxSt n x).cmd = k ∧ s.chip.portUp k.p0 = true :=
  ⟨256, 5, ((tPoolCmd 0x67 fun k => { k with p0 := 23 }).chip.ctxSt 256 5).cmd, (tPoolCmd 0x67 (fun k => { k with p0 := 23 }) (fun a => a) [(F.hlinkStatus_state 23, 5)]), by decide +kernel⟩

theorem witness_DriveCommandsAct_21 : ∃ (d : Nat) (s : State), s.chip.portUp d = true ∨ (s.chip.contexts fun k => k.phase == .active && k.cmd.opcode == 0x67 && k.cmd.p0 == d) = [] :=
  ⟨23, (tState []), by decide +kernel⟩

theorem witness_DriveCommandsAct_22 : ∃ (d : Nat) (n : Nat) (x : Nat) (s : State), s.chip.portUp d = false ∧ (s.chip.contexts fun k => k.phase == .active && k.cmd.opcode == 0x67 && k.cmd.p0 == d) = [(n, x)] :=
  ⟨23, 256, 5, (tState [] fun c => (tServed c 256 5 0x67 fun k => { k with p0 := 23 }).modCtx 256 5 fun y => { y with phase := .active, wait := .activity }), by decide +kernel⟩

theorem witness_DriveCommandsAct_23 : ∃ (n : Nat) (x : Nat) (k : Cmd) (s : State), s.chip.serves n x 0x68 = true ∧ (s.chip.ctxSt n x).cmd = k ∧ k.p0 < 8 ∧ s.chip.fcState k.p0 = 5 ∧ s.chip.rd F.mossStatus_down = 2 ^ k.p0 :=
  ⟨256, 5, ((tPoolCmd 0x68 fun k => { k with p0 := 7 }).chip.ctxSt 256 5).cmd, (tPoolCmd 0x68 (fun k => { k with p0 := 7 }) (fun a => a) [(F.fcStatus_state 3 1, 5), (F.mossStatus_down, 128), (F.mossStatus_degraded, 1)]), by decide +kernel⟩

theorem witness_DriveCommandsAct_24 : ∃ (n : Nat) (x : Nat) (k : Cmd) (s : State), s.chip.serves n x 0x68 = true ∧ (s.chip.ctxSt n x).cmd = k ∧ (8 ≤ k.p0 ∨ s.chip.fcState k.p0 ≠ 5) :=
  ⟨256, 5, ((tPoolCmd 0x68 fun k => { k with p0 := 8 }).chip.ctxSt 256 5).cmd, (tPoolCmd 0x68 (fun k => { k with p0 := 8 })), by decide +kernel⟩

theorem witness_DriveCommandsAct_25 : ∃ (n : Nat) (x : Nat) (s : State), s.chip.serves n x 0x80 = true :=
  ⟨256, 5, { (tPoolCmd 0x80) with chip := { (tPoolCmd 0x80).chip with now := 5000000007 } }, by decide +kernel⟩

theorem witness_DriveCommandsAct_26 : ∃ (n : Nat) (x : Nat) (s : State), s.chip.serves n x 0xA4 = true :=
  ⟨256, 5, (tPoolCmd 0xA4 (fun k => k) (fun a => a) [(F.chain_head, 1)]), by decide +kernel⟩

theorem witness_DriveCommandsAct_27 : ∃ (d : Nat) (s : State), s.chip.load d = none ∨ s.chip.rd (F.discStatus_state d) ≠ 4 :=
  ⟨23, (tState []), by decide +kernel⟩

theorem witness_DriveCommandsAct_28 : ∃ (d : Nat) (l : LoadSt) (s : State), d < 24 ∧ s.chip.load d = some l ∧ s.chip.rd (F.discStatus_state d) = 4 ∧ l.checked = 0 ∧ s.chip.identitySeen d l = none :=
  ⟨23, { (default : LoadSt) with isNew := true }, (tState [(F.discStatus_state 23, 4), (F.spinStatus_state 23, 6)] fun c => c.setLoad 23 (some { (default : LoadSt) with isNew := true })), by decide +kernel⟩

theorem witness_DriveCommandsAct_29 : ∃ (d : Nat) (l : LoadSt) (s : State), d < 24 ∧ s.chip.load d = some l ∧ s.chip.rd (F.discStatus_state d) = 4 ∧ l.checked = 0 ∧ s.chip.identitySeen d l = some true ∧ (s.chip.blankCheck d).isSome = true ∧ l.blank < 7 :=
  ⟨23, { (default : LoadSt) with isNew := true, blank := 6 }, (tState [(F.discStatus_state 23, 4), (F.spinStatus_state 23, 6)] fun c => (c.setLoad 23 (some { (default : LoadSt) with isNew := true, blank := 6 })).modUnit 92 fun u => { u with secs := [{ (default : SecSt) with psa := c.blankPlace { (default : LoadSt) with isNew := true, blank := 6 } }], nextIdx := 40320, hist := tSectorBits 0 }), by decide +kernel⟩

theorem witness_DriveCommandsAct_30 : ∃ (d : Nat) (l : LoadSt) (s : State), d < 24 ∧ s.chip.load d = some l ∧ s.chip.rd (F.discStatus_state d) = 4 ∧ l.checked = 0 ∧ s.chip.identitySeen d l = some false :=
  ⟨23, { (default : LoadSt) with disc := 9 }, (tState [(F.discStatus_state 23, 4), (F.discId_id 23, 5)] fun c => (c.setLoad 23 (some { (default : LoadSt) with disc := 9 })).modCat fun k => { k with discs := [newDisc 9] }), by decide +kernel⟩

theorem witness_DriveCommandsAct_31 : ∃ (d : Nat) (l : LoadSt) (s : State), d < 24 ∧ s.chip.load d = some l ∧ s.chip.rd (F.discStatus_state d) = 4 ∧ l.checked = 0 ∧ l.isNew = true ∧ l.blank = 7 ∧ s.chip.identitySeen d l = some true ∧ (findDisc s.chip.cat.discs (s.chip.rd F.chain_sys_addr % 2 ^ 10 * 2 ^ 54 + (s.chip.cat.discSeq + 1))) = none :=
  ⟨23, { (default : LoadSt) with isNew := true, blank := 7 }, (tState [(F.discStatus_state 23, 4), (F.spinStatus_state 23, 6), (F.chain_sys_addr, 1023)] fun c => (c.setLoad 23 (some { (default : LoadSt) with isNew := true, blank := 7 })).modUnit 92 fun u => { u with secs := [{ (default : SecSt) with psa := c.blankPlace { (default : LoadSt) with isNew := true, blank := 7 } }], nextIdx := 40320, hist := tSectorBits 0 }), by decide +kernel⟩

theorem witness_DriveCommandsAct_32 : ∃ (d : Nat) (l : LoadSt) (s : State), d < 24 ∧ s.chip.load d = some l ∧ s.chip.rd (F.discStatus_state d) = 4 ∧ l.checked = 0 ∧ l.isNew = false ∧ (s.chip.lastRun l.disc l.side).isSome = true ∧ s.chip.identitySeen d l = some true ∧ s.chip.openSides l.disc = [] ∧ (findDisc s.chip.cat.discs l.disc).any (·.foreign) = false :=
  ⟨23, { (default : LoadSt) with disc := 0 }, (tState [(F.discStatus_state 23, 4), (F.spinStatus_state 23, 6)] fun c => ((c.setLoad 23 (some { (default : LoadSt) with disc := 0 })).modCat fun k => { k with discs := [{ newDisc 0 with runs := [(0, 0, 0, 0, 0)] }] }).modRead 23 fun r => { r with done := [(checkOwner, 0, [{ (default : SectorRec) with state := .converged }])] }), by decide +kernel⟩

theorem witness_LaunchesAreHeldAndFired_1 : ∃ (n : Nat) (x : Nat) (k : Cmd) (s : State), s.chip.servesLaunch n x 0x81 = true ∧ (s.chip.ctxSt n x).cmd = k ∧ s.chip.sky_ < k.T :=
  ⟨256, 5, ((tPoolCmd 0x81 fun k => { k with T := 1000, W := 5, action := 3 }).chip.ctxSt 256 5).cmd, (tPoolCmd 0x81 (fun k => { k with T := 1000, W := 5, action := 3 }) (fun a => a) [(F.chain_addr_valid, 1), (F.skyStatus_valid, 1)]), by decide +kernel⟩

theorem witness_LaunchesAreHeldAndFired_2 : ∃ (n : Nat) (x : Nat) (k : Cmd) (s : State), s.chip.servesLaunch n x 0x81 = true ∧ (s.chip.ctxSt n x).cmd = k ∧ k.T + k.W ≤ s.chip.sky_ :=
  ⟨256, 5, ((tPoolCmd 0x81 fun k => { k with T := 1000, W := 5, action := 3 }).chip.ctxSt 256 5).cmd, { (tPoolCmd 0x81 (fun k => { k with T := 1000, W := 5, action := 3 }) (fun a => a) [(F.chain_addr_valid, 1), (F.skyStatus_valid, 1)]) with chip := { (tPoolCmd 0x81 (fun k => { k with T := 1000, W := 5, action := 3 }) (fun a => a) [(F.chain_addr_valid, 1), (F.skyStatus_valid, 1)]).chip with now := 1000 + 5 } }, by decide +kernel⟩

theorem witness_LaunchesAreHeldAndFired_3 : ∃ (n : Nat) (x : Nat) (k : Cmd) (s : State), s.chip.servesLaunch n x 0x65 = true ∧ (s.chip.ctxSt n x).cmd = k ∧ k.p1 / 16 % 16 = 1 ∧ s.chip.portUp k.p0 = true ∧ s.chip.sky_ < k.T ∧ s.chip.rd (F.axisStatus_homed k.p0 (k.p1 % 2)) = 1 ∧ s.chip.rd (F.axisStatus_state k.p0 (k.p1 % 2)) ≠ 6 ∧ (s.chip.axisSt (axisNo k.p0 (k.p1 % 2))).move = none ∧ (s.chip.axisSt (axisNo k.p0 (k.p1 % 2))).armed = none :=
  ⟨256, 5, ((tPoolCmd 0x65 fun k => { k with T := 1000, W := 5, action := 3, p0 := 23, p1 := 17 }).chip.ctxSt 256 5).cmd, (tPoolCmd 0x65 (fun k => { k with T := 1000, W := 5, action := 3, p0 := 23, p1 := 17 }) (fun a => a) [(F.chain_addr_valid, 1), (F.skyStatus_valid, 1), (F.hlinkStatus_state 23, 5), (F.axisStatus_homed 23 1, 1)]), by decide +kernel⟩

theorem witness_LaunchesAreHeldAndFired_4 : ∃ (n : Nat) (x : Nat) (s : State), s.chip.serves n x 0x81 = true ∧ (s.chip.ctxSt n x).fired = 0 ∧ (s.chip.ctxSt n x).late = false :=
  ⟨256, 5, (tPoolCmd 0x81), by decide +kernel⟩

theorem witness_LaunchesAreHeldAndFired_5 : ∃ (a : Nat) (s : State), (∀ l ∈ s.chip.launches, l.action ≠ a ∨ s.chip.sky_ < l.T) :=
  ⟨3, { (tPoolCmd 0x81) with chip := { (tPoolCmd 0x81).chip with launches := [⟨3, 1000, 5, 0x81, 256, 5⟩] } }, by decide +kernel⟩

theorem witness_LaunchesAreHeldAndFired_6 : ∃ (a : Nat) (l : LaunchRec) (s : State), s.chip.dueLaunch a = some l ∧ l.opcode = 0x81 ∧ (s.chip.ctxSt l.session l.ctx).cmd.opcode = 0x81 ∧ (s.chip.ctxSt l.session l.ctx).cmd.T ≠ 0 ∧ s.chip.sky_ = l.T ∧ l.T ≠ 0 ∧ (s.chip.ctxSt l.session l.ctx).phase = .active ∧ (s.chip.ctxSt l.session l.ctx).late = false ∧ (s.chip.ctxSt l.session l.ctx).snoop = none :=
  ⟨3, ⟨3, 1000, 5, 0x81, 256, 5⟩, { (tPoolCmd 0x81) with chip := { ((tPoolCmd 0x81 fun k => { k with T := 1000, W := 5, action := 3 }).chip.modCtx 256 5 fun y => { y with phase := .active, wait := .launch }) with now := 1000, launches := [⟨3, 1000, 5, 0x81, 256, 5⟩] } }, by decide +kernel⟩

theorem witness_LaunchesAreHeldAndFired_7 : ∃ (n : Nat) (x : Nat) (code : Nat) (k : Cmd) (s : State), s.chip.serves n x 0x82 = true ∧ (s.chip.ctxSt n x).cmd = k ∧ (∀ l ∈ s.chip.launches, l.action ≠ k.p0) ∧ (if s.chip.host.acted.contains k.p0 then 0x0106 else 0x0502) = code :=
  ⟨256, 5, 0x0502, ((tPoolCmd 0x82 fun k => { k with p0 := 3 }).chip.ctxSt 256 5).cmd, (tPoolCmd 0x82 fun k => { k with p0 := 3 }), by decide +kernel⟩

theorem witness_LaunchesAreHeldAndFired_8 : ∃ (n : Nat) (x : Nat) (k : Cmd) (l : LaunchRec) (s : State), s.chip.serves n x 0x82 = true ∧ (s.chip.ctxSt n x).cmd = k ∧ (s.chip.launches.find? fun m => m.action == k.p0) = some l ∧ s.chip.sky_ < l.T ∧ l.opcode = 0x81 ∧ (l.session, l.ctx) ≠ (n, x) ∧ (s.chip.ctxSt l.session l.ctx).phase = .active ∧ (s.chip.ctxSt l.session l.ctx).snoop = none ∧ (∀ d < 24, (s.chip.readSt d).cur = none) :=
  ⟨256, 5, ((tPoolCmd 0x82 fun k => { k with p0 := 3 }).chip.ctxSt 256 5).cmd, ⟨3, 1000, 5, 0x81, 256, 6⟩, { (tPoolCmd 0x82) with chip := { ((tPoolCmd 0x82 fun k => { k with p0 := 3 }).chip.modCtx 256 6 fun y => { y with phase := .active, wait := .launch }) with launches := [⟨3, 1000, 5, 0x81, 256, 6⟩] } }, by decide +kernel⟩

theorem witness_LaunchesAreHeldAndFired_9 : ∃ (n : Nat) (x : Nat) (k : Cmd) (l : LaunchRec) (s : State), s.chip.serves n x 0x82 = true ∧ (s.chip.ctxSt n x).cmd = k ∧ (s.chip.launches.find? fun m => m.action == k.p0) = some l ∧ l.T ≤ s.chip.sky_ :=
  ⟨256, 5, ((tPoolCmd 0x82 fun k => { k with p0 := 3 }).chip.ctxSt 256 5).cmd, ⟨3, 0, 5, 0x81, 256, 6⟩, { (tPoolCmd 0x82) with chip := { ((tPoolCmd 0x82 fun k => { k with p0 := 3 }).chip.modCtx 256 6 fun y => { y with phase := .active, wait := .launch }) with launches := [⟨3, 0, 5, 0x81, 256, 6⟩] } }, by decide +kernel⟩

theorem witness_LaunchesAreHeldAndFired_10 : ∃ (n : Nat) (x : Nat) (s : State), s.chip.serves n x 0x83 = true ∧ s.chip.launches = [] :=
  ⟨256, 5, (tPoolCmd 0x83 (fun k => { k with dlen := 4096 })), by decide +kernel⟩

theorem witness_LaunchesAreHeldAndFired_11 : ∃ (n : Nat) (x : Nat) (tl : Nat) (l : LaunchRec) (s : State), s.chip.serves n x 0x83 = true ∧ s.chip.launches = [l] ∧ 32 ≤ (s.chip.ctxSt n x).cmd.dlen ∧ s.chip.chooseTiles (s.chip.sess n).die 1 = [tl] ∧ tl < 2 ^ 21 :=
  ⟨256, 5, 0, ⟨3, 1000, 5, 0x81, 256, 6⟩, { (tPoolCmd 0x83) with chip := { ((tPoolCmd 0x83 fun k => { k with dlen := 4096 }).chip) with launches := [⟨3, 1000, 5, 0x81, 256, 6⟩] } }, by decide +kernel⟩

theorem witness_DataPacketsCompleteTheirPhase_1 : ∃ (n : Nat) (seq : Nat) (port : Nat) (peer : Nat) (x : Nat) (tag : Nat) (off : Nat) (tagOk : Bool) (p : List Nat) (s : State), (s.chip.sess n).live = false ∨ tagOk = false :=
  ⟨256, 0, 0, 0, 0, 0, 0, default, [1, 2], (tState []), by decide +kernel⟩

theorem witness_DataPacketsCompleteTheirPhase_2 : ∃ (n : Nat) (seq : Nat) (port : Nat) (peer : Nat) (x : Nat) (tag : Nat) (off : Nat) (tagOk : Bool) (p : List Nat) (s : State), s.chip.fresh n seq tagOk = true ∧ s.chip.rd (F.use_frozen (n - 1)) = 1 :=
  ⟨256, 99, 0, 0, 0, 0, 0, true, [1, 2], (tState [(F.use_frozen 255, 1)] fun c => c.modSess 256 fun y => { y with live := true }), by decide +kernel⟩

theorem witness_DataPacketsCompleteTheirPhase_3 : ∃ (n : Nat) (seq : Nat) (port : Nat) (peer : Nat) (x : Nat) (tag : Nat) (off : Nat) (tagOk : Bool) (p : List Nat) (s : State), s.chip.fresh n seq tagOk = true ∧ s.chip.rd (F.use_frozen (n - 1)) = 0 ∧ ((s.chip.ctxSt n x).phase ≠ .active ∨ (s.chip.ctxSt n x).wait ≠ .dataOut ∨ (s.chip.ctxSt n x).cmd.tag ≠ tag) ∧ (s.chip.sess n).second = s.chip.keeper / 10 ^ 9 ∧ (s.chip.sess n).dataBreach < s.chip.rd F.qcpBreach_data_max :=
  ⟨256, 99, 0, 0, 0, 0, 0, true, [1, 2], (tState [] fun c => c.modSess 256 fun y => { y with live := true }), by decide +kernel⟩

theorem witness_DataPacketsCompleteTheirPhase_4 : ∃ (n : Nat) (seq : Nat) (port : Nat) (peer : Nat) (x : Nat) (tag : Nat) (off : Nat) (tagOk : Bool) (p : List Nat) (s : State), s.chip.fresh n seq tagOk = true ∧ s.chip.rd (F.use_frozen (n - 1)) = 0 ∧ 1 ≤ n ∧ n ≤ 256 ∧ (s.chip.ctxSt n x).phase = .active ∧ (s.chip.ctxSt n x).wait = .dataOut ∧ (s.chip.ctxSt n x).cmd.tag = tag ∧ s.chip.rd (F.quota_cap (n - 1)) ≠ 0 ∧ s.chip.tokensNow n < p.length ∧ (s.chip.sess n).second = s.chip.keeper / 10 ^ 9 ∧ s.chip.rd F.qcpBreach_cap_max ≤ (s.chip.sess n).capBreach :=
  ⟨256, 99, 0, 0, 5, 7, 0, true, [1, 2], (tState [(F.quota_cap 255, 1), (F.qcpBreach_cap_max, 0)] fun c => (tServed c 256 5 0x09 fun k => { k with tag := 7 }).modCtx 256 5 fun y => { y with phase := .active, wait := .dataOut }), by decide +kernel⟩

theorem witness_DataPacketsCompleteTheirPhase_5 : ∃ (n : Nat) (seq : Nat) (port : Nat) (peer : Nat) (x : Nat) (tag : Nat) (tl : Nat) (tagOk : Bool) (p : List Nat) (s : State), s.chip.takesPhase n seq x tag tl 0x09 tagOk p = true ∧ (s.chip.ctxSt n x).cmd.cflags.testBit 0 = false :=
  ⟨256, 99, 0, 0, 5, 7, 2097151, true, [1, 2, 255], (tPhase 0x09 [1, 2, 255] fun k => { k with p0 := 7 }), by decide +kernel⟩

theorem witness_DataPacketsCompleteTheirPhase_6 : ∃ (n : Nat) (seq : Nat) (port : Nat) (peer : Nat) (x : Nat) (tag : Nat) (tl : Nat) (tagOk : Bool) (p : List Nat) (s : State), s.chip.takesPhase n seq x tag tl 0x43 tagOk p = true :=
  ⟨256, 99, 0, 0, 5, 7, 2097151, true, [201, 7, 9], (tPhase 0x43 [201, 7, 9]), by decide +kernel⟩

theorem witness_DataPacketsCompleteTheirPhase_7 : ∃ (n : Nat) (seq : Nat) (port : Nat) (peer : Nat) (x : Nat) (tag : Nat) (tl : Nat) (tagOk : Bool) (p : List Nat) (s : State), s.chip.takesPhase n seq x tag tl 0xC6 tagOk p = true ∧ (s.chip.ctxSt n x).cmd.p0.testBit 8 = false :=
  ⟨256, 99, 0, 0, 5, 7, 2097151, true, 4 :: List.replicate 96 201, (tPhase 0xC6 (4 :: List.replicate 96 201) fun k => { k with p0 := 255 }), by decide +kernel⟩

theorem witness_DataPacketsCompleteTheirPhase_8 : ∃ (n : Nat) (seq : Nat) (port : Nat) (peer : Nat) (x : Nat) (tag : Nat) (tl : Nat) (tagOk : Bool) (p : List Nat) (s : State), s.chip.takesPhase n seq x tag tl 0xC5 tagOk p = true :=
  ⟨256, 99, 0, 0, 5, 7, 2097151, true, 4 :: List.replicate 96 201, (tPhase 0xC5 (4 :: List.replicate 96 201)), by decide +kernel⟩

theorem witness_DataPacketsCompleteTheirPhase_9 : ∃ (n : Nat) (seq : Nat) (port : Nat) (peer : Nat) (x : Nat) (tag : Nat) (tl : Nat) (tagOk : Bool) (p : List Nat) (s : State), s.chip.takesPhase n seq x tag tl 0xC0 tagOk p = true ∧ s.chip.imageSound (fieldNat p 6 2) (readImage (fieldNat p 6 2) s.chip.trust.vendors p) = false :=
  ⟨256, 99, 0, 0, 5, 7, 2097151, true, [1, 2, 3], (tPhase 0xC0 [1, 2, 3]), by decide +kernel⟩

theorem witness_DataPacketsCompleteTheirPhase_10 : ∃ (n : Nat) (seq : Nat) (port : Nat) (peer : Nat) (x : Nat) (tag : Nat) (tl : Nat) (tagOk : Bool) (p : List Nat) (s : State), s.chip.takesPhase n seq x tag tl 0xA1 tagOk p = true ∧ (s.chip.ctxSt n x).cmd.p2 = 0 :=
  ⟨256, 99, 0, 0, 5, 7, 2097151, true, [1, 2, 3, 4], (tPhase 0xA1 [1, 2, 3, 4] fun k => { k with p1 := 1 }), by decide +kernel⟩

theorem witness_StepRunsTheFrontCommand_2 : ∃ (s : State), s.pending = [] :=
  ⟨tState [], by decide +kernel⟩

theorem witness_EveryStepKeepsSoundStates_1 : ∃ (s : State) (t : State), s.Sound ∧ step s = .next t :=
  ⟨State.reset, _, ⟨rfl, fun c h => nomatch h⟩, rfl⟩

theorem witness_EveryStepKeepsSessionsPlaced_1 : ∃ (s : State) (t : State), s.chip.SessionsPlaced ∧ step s = .next t :=
  ⟨State.reset, _, ⟨(fun e h => nomatch h), fun e h => nomatch h⟩, rfl⟩

end Sys2Proof.Machine
end

