-- ==== Sys2Proof/Tests/Slice0.lean ====
section
/-! SUPPORT. The model's own tests: ill-formed commands are refused, the manual's worked examples come out, and single commands do on small states what the
manual says. -/
set_option Elab.async false
namespace Sys2Proof.Machine

/-! ### Well-formedness: one ill-formed command for each check -/

theorem test_wf_port : (Instr.focusSettled 24).wf = false := by decide
theorem test_wf_unit : (Instr.holdExpiry 96).wf = false := by decide
theorem test_wf_region : (Instr.spinupAdmit 4).wf = false := by decide
theorem test_wf_die : (Instr.dieFault 2).wf = false := by decide
theorem test_wf_axis : (Instr.axisHome 0 2 0).wf = false := by decide
theorem test_wf_lane : (Instr.laneRejoin 0 4).wf = false := by decide
theorem test_wf_lanes : (Instr.trainReady 0 16).wf = false := by decide
theorem test_wf_layer : (Instr.srvAcquire 0 8).wf = false := by decide
theorem test_wf_band : (Instr.srvSeek 0 34064).wf = false := by decide
theorem test_wf_host_port : (Instr.hostLinkDown 8).wf = false := by decide
theorem test_wf_channel : (Instr.channelDown 8 0).wf = false := by decide
theorem test_wf_session : (Instr.handshakeTimeout 0).wf = false ∧ (Instr.handshakeTimeout 257).wf = false := by decide
theorem test_wf_master : (Instr.dramRead 361 0 0).wf = false := by decide
theorem test_wf_tile : (Instr.tileFree (2 ^ 21) true).wf = false := by decide
theorem test_wf_word16 : (Instr.nop 1 65536).wf = false := by decide
theorem test_wf_word32 : (Instr.rcvDataWrite (2 ^ 32)).wf = false := by decide
theorem test_wf_word64 : (Instr.snoopRunWrite 0 0 (2 ^ 64)).wf = false := by decide
theorem test_wf_token : (Instr.addressToken (2 ^ 30)).wf = false := by decide
theorem test_wf_bytes : (Instr.hostFrame 0 0 [256]).wf = false := by decide
theorem test_wf_payload : (Instr.dataOut 1 0 true 0 0 0 0 0 (List.replicate 8193 0)).wf = false := by decide +kernel
theorem test_wf_level : (Instr.watchdogExpiry 1 24).wf = false ∧ (Instr.watchdogExpiry 4 0).wf = false := by decide
theorem test_wf_good : (Instr.watchdogExpiry 0 95).wf = true ∧ (Instr.srvSeek 23 34063).wf = true ∧ (Instr.nop 256 65535).wf = true := by decide

/-! ### The manual's worked examples -/

/-- The example of the PSA: side 1, layer 5, band turn 20,000, index 100, data track 2 (02_pyvo_media_format.md). -/
theorem test_psa : psaOf 1 5 20000 100 2 = 0x69388192 ∧ zoneOf 20000 = 57 ∧ sectorsOf 20000 = 125 ∧ psaValid 0x69388192 = true := by decide +kernel

/-- The same example's address mark carries 0xD271_03E8. -/
theorem test_mark : markBits ⟨1, 5, 20000, 1000⟩ = 0xD27103E8 ∧ decodeMark (encodeMark ⟨1, 5, 20000, 1000⟩) = some ⟨1, 5, 20000, 1000⟩ := by decide +kernel

/-- The verdict word of the retry example (05_decoding_and_retry.md). -/
theorem test_verdict : verdictWord 0 19 2 0 0 false true false false 611 1212 15 = 0x03C12F2632009300 := by decide

/-- The power calibration example (06_burning_and_verify.md): 12,446 µW, and 10,946 µW at slot 0. -/
theorem test_power : crossing (40 / 1000) 0 [10320, 10800, 11280, 11760, 12240, 12720, 13200, 13680]
    [-60 / 1000, -38 / 1000, -15 / 1000, 8 / 1000, 31 / 1000, 52 / 1000, 71 / 1000, 88 / 1000] = some 12446 ∧ scalePower 12446 44868 58008 128 = 10946 ∧
    10946 = 0x2AC2 := by decide +kernel

/-- Steps of a test slot about 12,000 µW (06_burning_and_verify.md). -/
theorem test_steps : (List.range 8).map (stepPower 12000 4) = [10320, 10800, 11280, 11760, 12240, 12720, 13200, 13680] := by decide +kernel

/-- The trim example (16_power_up_and_calibration.md): 144 at 31 °C, 135 at 68 °C; 162 is not plausible. -/
theorem test_trim : trimAt [154, 148, 142, 136, 131] 124 = 14536 ∧ trimCode [154, 148, 142, 136, 131] (-136) 124 = 144 ∧
    trimCode [154, 148, 142, 136, 131] (-136) 272 = 135 := by decide +kernel
theorem test_trim_judged : codeOf ⟨2, 17, [16, 0, 0, 9, 0, 7, 0, 0], 0, 0, [], 0⟩ 0 = 144 ∧
    calPlausible ⟨2, 17, [16, 0, 0, 9, 0, 7, 0, 0], 0, 0, [], 0⟩ 144 ⟨[154, 148, 142, 136, 131], 0, 0, 0, 0, 0⟩ true 124 = true ∧
    calPlausible ⟨2, 17, [16, 0, 16, 0, 0, 0, 16, 0], 0, 0, [], 0⟩ 162 ⟨[154, 148, 142, 136, 131], 0, 0, 0, 0, 0⟩ true 124 = false := by decide +kernel

/-- The check values of the snoop polynomials over "123456789" (R383). -/
theorem test_snoop : (List.range 4).map (fun p => snoopStep p (snoopInit p) [49, 50, 51, 52, 53, 54, 55, 56, 57]) =
    [0xE3069283, 0xCBF43926, 0x6C40DF5F0B497347, 0x29B1] := by decide +kernel

/-- Addresses and paths of the examples: D9 beam 2, the spindle counters of D9, event 157 (01, 19). -/
theorem test_addresses : unitBase 38 = 0x45A00000 ∧ (F.spinCnt_losses 9).addr = 0x45D00058 ∧ (F.evCfg_en 157).addr = 0x50F00274 ∧ (F.evCnt_count 157).addr = 0x50F01274 ∧
    clusterPath 9 5 = 0x2BA0 := by decide +kernel

/-- The sled move of the seek example (08_spindle_and_axes.md). -/
theorem test_sled : divFree ((20000 : Int) * 256000) (1500 * 100) = 34133 := by decide +kernel

/-! ### Single commands -/

/-- The next state of an answer. -/
def tNext (o : Host.Outcome State Fault Refusal) : Option State :=
  match o with
  | .next t => some t
  | .fault _ => none
  | .refused _ => none

/-- What a step leaves waiting and sent. -/
theorem test_step_front : (tNext (step { State.reset with pending := [.addressHeartbeat, .chainLost] })).map (·.pending) = some [.chainLost] := by decide +kernel
theorem test_no_words : decodeTableWord 32 0 = none ∧ State.reset.withFetchWord 32 7 = State.reset := by decide +kernel
/-- The head's token gives the next package address 1, which it sends on (R43). -/
theorem test_token : (tNext (exec (.addressToken (tokenBits 1 0)) State.reset)).map (fun t => (t.chip.rd F.chain_sys_addr, t.chip.sent.contains (Out.token (tokenBits 1 1)))) = some (1, true) := by decide +kernel
/-- A limit of 7 is stored as 6 (R30). -/
theorem test_spinup_limit : tNext (exec (.spinupMaxWrite 3 7) State.reset) = some (tState [(F.spinup_spinup_max 3, 6)]) := by decide +kernel
/-- A start without motor constants is refused (R272). -/
theorem test_start_refused : tNext (exec (.spindleStart 5 7200) State.reset) = some (tState [(F.spinStatus_req_refused 5, 1)]) := by decide +kernel
/-- A full block written reads back, and its neighbour is as it was (R368, R371). -/
theorem test_write_read : (tNext (exec (.dramWrite 9 0x100000040 (List.replicate 64 7)) State.reset)).map
    (fun t => (memRead t.dram 0x100000040, memRead t.dram 0x10000007F, memRead t.dram 0x100000080, memWf t.dram)) = some (7, 7, 0, true) := by decide +kernel
/-- A register write takes the RW fields and no others (R574). -/
theorem test_register : tNext (exec (.registerWrite 0x50400000 [0x1234FFFF]) State.reset) =
    some (tState [(F.hostCfg_mode, 3), (F.hostCfg_fec_en, 1), (F.hostCfg_udp_port, 0x1234)]) := by decide +kernel
/-- NOP completes with success and frees its context (R415, R419). -/
theorem test_nop : (tNext (exec (.nop 2 5) (tState [] fun c => tServed c 2 5 0x00))).map (fun t => ((t.chip.ctxSt 2 5).status, (t.chip.ctxSt 2 5).phase)) =
    some (some (statusPayload 0 0 []), .free) := by decide +kernel
/-- An owner command of a session without the owner's right fails (R419). -/
theorem test_gate : (tNext (exec (.presenceClaim 2 5) (tState [] fun c => (tServed c 2 5 0xC4).modSess 2 fun s => { s with rights := 255 }))).map
    (fun t => (t.chip.ctxSt 2 5).status) = some (some (statusPayload 0x0304 0 [])) := by decide +kernel
/-- With nothing waiting a nanosecond passes (notes/assumptions/9.md). -/
theorem test_idle : tNext (step State.reset) = some { State.reset with chip := { State.reset.chip with now := 1 } } := by decide +kernel

/-- Two lane losses of one cycle on D9 and D12, the later in order raised first: the entry of D9 that matches a trigger is the last one kept, and the other,
which follows it in the order of R534, goes (R536); with the trigger on D12 the entry of D9, which precedes it, is kept. -/
theorem test_record_frozen_in_order :
    (let c := (((default : Chip).wr (F.lichenTrig_en 2) 1).wr (F.lichenTrig_event 2) 145)
     let t := ((c.lichenWrite 193 0x30E0 [3, 1]).lichenWrite 145 0x2BE0 [1, 3])
     (t.frozenRecord, t.lichen.ring0.map (·.code), t.lichen.ring1.map (·.code), t.rd (F.lichenCnt_dropped 1))) = (true, [145], [], 1) := by
  decide +kernel

theorem test_record_keeps_what_precedes :
    (let c := (((default : Chip).wr (F.lichenTrig_en 2) 1).wr (F.lichenTrig_event 2) 193)
     let t := ((c.lichenWrite 193 0x30E0 [3, 1]).lichenWrite 145 0x2BE0 [1, 3])
     (t.frozenRecord, t.lichen.ring0.map (·.code), t.lichen.ring1.map (·.code), t.rd (F.lichenCnt_dropped 1))) = (true, [145], [193], 0) := by
  decide +kernel

end Sys2Proof.Machine
end

section
/-! The address chain (R40 to R51): what a token, an event of the chain and a damaged token leave in the address register. -/
namespace Sys2Proof.Machine

/-! ### Recording leaves the other registers -/

theorem Chip.raisePkg_rd (c : Chip) (k : Nat) (data : List Nat) {f : Fld} (hf : ¬ Recording f) : (c.raisePkg k data).rd f = c.rd f :=
  (c.recorded_raisePkg k data).regs f hf

theorem Chip.lichenWrite_rd (c : Chip) (code path : Nat) (data : List Nat) {f : Fld} (hf : ¬ Recording f) :
    (c.lichenWrite code path data).rd f = c.rd f :=
  (c.recorded_lichenWrite code path data).regs f hf

/-- A package event of R593 that is raised counts one more. -/
theorem Chip.raisePkg_count {k : Nat} (hk : k < 37) (c : Chip) (data : List Nat) :
    (c.raisePkg k data).rd (F.evCnt_count (512 + k)) = min (c.rd (F.evCnt_count (512 + k)) + 1) (2 ^ 32 - 1) :=
  Chip.raise_count (by omega) (by simp [eventDefined]; omega) c _ data

/-! ### Taking and forwarding an address -/

/-- Taking an address writes the address and its valid bit; the rest is the record of a change. -/
theorem Chip.takeAddress_rd (c : Chip) (a : Nat) {f : Fld} (hf : ¬ Recording f) :
    (c.takeAddress a).rd f = ((c.wr F.chain_sys_addr a).wr F.chain_addr_valid 1).rd f := by
  unfold Chip.takeAddress
  dsimp only
  rw [Chip.modChain_rd]
  split
  · split
    · rfl
    · exact Chip.raisePkg_rd _ _ _ hf
  · rfl

theorem Chip.RegsBut.takeAddress {a b : Chip} {l : List Fld} (h : a.RegsBut b l) (v : Nat) (ma : F.chain_sys_addr ∈ l)
    (mv : F.chain_addr_valid ∈ l) : a.RegsBut (b.takeAddress v) l :=
  fun f hf hl => (b.takeAddress_rd v hf).trans (((h.wr _ _ ma).wr _ _ mv) f hf hl)

@[simp] theorem Chip.forwardAddress_rd (c : Chip) (f : Fld) : c.forwardAddress.rd f = c.rd f := rfl

/-- A package sends its own address on (R43). -/
theorem Chip.mem_forwardAddress_sent (c : Chip) {a : Nat} (h : c.rd F.chain_sys_addr = a) :
    Out.token (tokenBits 1 a) ∈ c.forwardAddress.sent := by
  subst h
  exact List.mem_append_right _ (List.mem_singleton.2 rfl)

@[simp] theorem Chip.tokenHeard_rd_ne (c : Chip) {f : Fld} (h : f.key ≠ F.chain_chain_lost.key) : c.tokenHeard.rd f = c.rd f :=
  c.rd_wr_ne _ h

@[simp] theorem Chip.tokenHeard_chain_lost (c : Chip) : c.tokenHeard.rd F.chain_chain_lost = 0 := by simp [Chip.tokenHeard]

theorem Chip.RegsBut.tokenHeard {c : Chip} {l : List Fld} (m : F.chain_chain_lost ∈ l) : c.RegsBut c.tokenHeard l :=
  (Chip.RegsBut.refl c l).wr _ _ m

/-- The address of a package that is not the head is the value received plus one, while that is at most 1,023 (R43). -/
theorem Chip.addressValue_of_lt (c : Chip) {v : Nat} (h : v < 1023) :
    c.addressValue v = ((c.takeAddress (v + 1)).wr F.chain_overflow 0).forwardAddress := if_neg (by omega)

theorem Chip.addressValue_of_le (c : Chip) {v : Nat} (h : 1023 ≤ v) :
    c.addressValue v = ((c.wr F.chain_overflow 1).raisePkg 0 (beBytes 2 v)).emit (.token (tokenBits 1 1024)) := if_pos h

/-! ### Edges of SKY_TICK after a re-enumeration -/

theorem Chip.RegsBut.skySource {a b : Chip} {l : List Fld} (h : a.RegsBut b l) (src : Nat) (m : F.skyStatus_source ∈ l) :
    a.RegsBut (b.skySource src) l := by
  unfold Chip.skySource
  dsimp only
  split
  · exact h
  · exact ((h.wr _ _ m).flds (c := Chip.modSky _ _) rfl).recorded (Chip.recorded_raisePkg ..)

theorem Chip.skySource_chain (c : Chip) (src : Nat) : (c.skySource src).chain = c.chain := by
  unfold Chip.skySource
  dsimp only
  split
  · rfl
  · rw [Chip.raisePkg_chain, Chip.modSky_chain, Chip.wr_chain]

/-- A package that no longer uses edges turns to another source, which only the state and the source of sky time show (R452, R454, R455). -/
theorem Chip.tickDenied_regsBut (c : Chip) : c.RegsBut c.tickDenied [F.skyStatus_state, F.skyStatus_source] := by
  unfold Chip.tickDenied Chip.holdover
  split
  · split
    · exact (Chip.RegsBut.refl c _).skySource 1 (by simp)
    · exact (((Chip.RegsBut.refl c _).wr _ _ (by simp)).flds (c := Chip.modSky _ _) rfl).skySource 0 (by simp)
  · exact Chip.RegsBut.refl c _

theorem Chip.tickDenied_chain (c : Chip) : c.tickDenied.chain = c.chain := by
  unfold Chip.tickDenied Chip.holdover
  split
  · split <;> simp [Chip.skySource_chain]
  · rfl

theorem Chip.tickDenied_of_source (c : Chip) (h : c.rd F.skyStatus_source ≠ 2) : c.tickDenied = c :=
  if_neg fun k => h k.2.2

/-! ### Re-enumeration -/

/-- What a re-enumerate token clears of a package, before edges are denied and the token goes on (R50). -/
def Chip.addressCleared (c : Chip) : Chip :=
  (((c.wr F.chain_sys_addr 0).wr F.chain_addr_valid 0).wr F.chain_hop_delay 0).modChain fun k =>
    { k with oldAddr := if c.rdb F.chain_addr_valid then some (c.rd F.chain_sys_addr) else c.chain.oldAddr, hasHop := false, probeAt := none }

theorem Chip.reEnumerate_eq (c : Chip) : c.reEnumerate = c.addressCleared.tickDenied.emit (.token (tokenBits 2 0)) := rfl

theorem Chip.RegsBut.addressCleared {a b : Chip} {l : List Fld} (h : a.RegsBut b l) (ma : F.chain_sys_addr ∈ l) (mv : F.chain_addr_valid ∈ l)
    (mh : F.chain_hop_delay ∈ l) : a.RegsBut b.addressCleared l :=
  (((h.wr _ _ ma).wr _ _ mv).wr _ _ mh).flds rfl

/-- The registers of the chain after a re-enumeration are those cleared: turning to another source of sky time touches none of them. -/
theorem Chip.reEnumerate_rd (c : Chip) {f : Fld} (hf : ¬ Recording f) (h1 : f.key ≠ F.skyStatus_state.key) (h2 : f.key ≠ F.skyStatus_source.key) :
    c.reEnumerate.rd f = (((c.wr F.chain_sys_addr 0).wr F.chain_addr_valid 0).wr F.chain_hop_delay 0).rd f :=
  c.addressCleared.tickDenied_regsBut f hf (by simp only [List.forall_mem_cons, List.not_mem_nil]; exact ⟨h1, h2, by simp⟩)

theorem Chip.reEnumerate_hasHop (c : Chip) : c.reEnumerate.chain.hasHop = false := by
  rw [Chip.reEnumerate_eq, Chip.emit_chain, Chip.tickDenied_chain]
  rfl

/-! ### What each token does -/

theorem readToken_of_damaged {w : Nat} (h : w % 2 = 0 ∨ w / 2 % 256 ≠ crc8 (beBits 20 (w / 2 ^ 9 % 2 ^ 20))) : readToken w = none := by
  refine if_neg fun ⟨hstop, _, hcrc⟩ => ?_
  rcases h with h | h
  · omega
  · exact h hcrc

/-- The value of a token has eleven bits (R41). -/
theorem readToken_value_lt {w k v : Nat} (h : readToken w = some (k, v)) : v < 2048 := by
  unfold readToken at h
  dsimp only at h
  split at h
  · cases h
    exact Nat.mod_lt _ (by decide)
  · cases h

theorem exec_addressToken {w v : Nat} (h : readToken w = some (1, v)) (s : State) :
    exec (.addressToken w) s = s.nextChip (
      if s.chip.tokenHeard.rdb F.chain_addr_valid then
        if v + 1 = s.chip.tokenHeard.rd F.chain_sys_addr then s.chip.tokenHeard
        else (s.chip.tokenHeard.wr F.chain_mismatch 1).raisePkg 1 (beBytes 2 (s.chip.tokenHeard.rd F.chain_sys_addr) ++ beBytes 2 (v + 1))
      else if s.chip.tokenHeard.rdb F.chain_head then s.chip.tokenHeard else s.chip.tokenHeard.addressValue v) := by
  simp only [exec, execAddressToken, h]

/-- A package without an address, other than the head, takes the value it hears. -/
theorem exec_addressToken_unlatched {w v : Nat} {s : State} (h : readToken w = some (1, v)) (hv : s.chip.rd F.chain_addr_valid = 0)
    (hh : s.chip.rd F.chain_head = 0) : exec (.addressToken w) s = s.nextChip (s.chip.tokenHeard.addressValue v) := by
  rw [exec_addressToken h]
  simp (disch := decide) [Chip.rdb, hv, hh]

/-- A package with an address keeps it, whatever it hears (R46). -/
theorem exec_addressToken_mismatch {w v : Nat} {s : State} (h : readToken w = some (1, v)) (hv : s.chip.rd F.chain_addr_valid = 1)
    (hne : v + 1 ≠ s.chip.rd F.chain_sys_addr) : exec (.addressToken w) s = s.nextChip
      ((s.chip.tokenHeard.wr F.chain_mismatch 1).raisePkg 1 (beBytes 2 (s.chip.rd F.chain_sys_addr) ++ beBytes 2 (v + 1))) := by
  rw [exec_addressToken h]
  simp (disch := decide) [Chip.rdb, hv, hne]

theorem exec_reEnumerateToken {w v : Nat} (h : readToken w = some (2, v)) (s : State) :
    exec (.reEnumerateToken w) s = s.nextChip s.chip.tokenHeard.reEnumerate := by
  simp only [exec, execReEnumerateToken, h]

theorem exec_hopDelayToken {w v : Nat} (h : readToken w = some (4, v)) (s : State) :
    exec (.hopDelayToken w) s = s.nextChip
      (((s.chip.tokenHeard.wr F.chain_hop_delay v).modChain fun k => { k with hasHop := true }).lichenWrite 0x0402 packagePath (beBytes 2 v)) := by
  simp only [exec, execHopDelayToken, h]

/-- ADDR_IN low makes a package without an address the head, which takes address 0 (R40). -/
theorem exec_headStrapDetect {s : State} (hh : s.chip.rd F.chain_head = 0) (hv : s.chip.rd F.chain_addr_valid = 0) :
    exec .headStrapDetect s = s.nextChip (((s.chip.wr F.chain_head 1).wr F.chain_hop_delay 0).takeAddress 0).forwardAddress := by
  simp (disch := decide) [exec, execHeadStrapDetect, Chip.rdb, hh, hv, Chip.rd_wr_ne]

theorem exec_delayProbeReturn {s : State} {t : Nat} (h : s.chip.chain.probeAt = some t) (roundTrip : Nat) :
    exec (.delayProbeReturn roundTrip) s = s.nextChip ((s.chip.modChain fun k => { k with probeAt := none }).emit
      (.token (tokenBits 4 (roundDiv ((roundTrip : Int) - 400) 2).toNat))) := by
  simp only [exec, execDelayProbeReturn, h]

theorem exec_chainLost {s : State} (h : s.chip.rd F.chain_chain_lost = 0) :
    exec .chainLost s = s.nextChip ((s.chip.wr F.chain_chain_lost 1).raisePkg 2 []) := by
  simp [exec, execChainLost, Chip.rdb, h]

/-! ### The statement -/

/-- Settles O2: each clause takes the chip that the command leaves from its equation above and reads the registers written. -/
theorem addressChainFollowsTokens : Obligations.AddressChainFollowsTokens := by
  unfold Obligations.AddressChainFollowsTokens
  refine ⟨?head, ?takes, ?overflow, ?mismatch, ?clears, ?clearsOnly, ?echo, ?probe, ?hop, ?heartbeat, ?lost, ?damaged⟩
  case head =>
    intro s hh hv
    refine ⟨_, exec_headStrapDetect hh hv, ?_, ?_, ?_, ?_, Chip.mem_forwardAddress_sent _ ?_,
      ((((Chip.RegsBut.refl _ _).wr _ _ (by simp)).wr _ _ (by simp)).takeAddress 0 (by simp) (by simp)).flds rfl⟩
    all_goals simp (disch := decide) [Chip.takeAddress_rd, Chip.rd_wr_ne]
  case takes =>
    intro w v s hw hv hh hlt
    have hfit : (v + 1) % 1024 = v + 1 := Nat.mod_eq_of_lt (by omega)
    refine ⟨_, exec_addressToken_unlatched hw hv hh, ?_⟩
    rw [Chip.addressValue_of_lt _ hlt]
    refine ⟨?_, ?_, ?_, ?_, Chip.mem_forwardAddress_sent _ ?_,
      (((Chip.RegsBut.tokenHeard (by simp)).takeAddress (v + 1) (by simp) (by simp)).wr _ _ (by simp)).flds rfl⟩
    all_goals simp (disch := decide) [Chip.takeAddress_rd, Chip.rd_wr_ne, hfit]
  case overflow =>
    intro w v s hw hv hh hle
    refine ⟨_, exec_addressToken_unlatched hw hv hh, ?_⟩
    rw [Chip.addressValue_of_le _ hle]
    refine ⟨?_, ?_, by simp [Chip.emit], ?_⟩
    · simp (disch := decide) [Chip.raisePkg_rd]
    · simp (disch := decide) [Chip.raisePkg_rd, Chip.rd_wr_ne, hv]
    · exact (((Chip.RegsBut.tokenHeard (by simp)).wr _ _ (by simp)).recorded (Chip.recorded_raisePkg ..)).flds rfl
  case mismatch =>
    intro w v s hw hv hne
    refine ⟨_, exec_addressToken_mismatch hw hv hne, ?_, ?_, ?_, ?_⟩
    · simp (disch := decide) [Chip.raisePkg_rd]
    · exact (Chip.raisePkg_count (k := 1) (by decide) _ _).trans (by simp (disch := decide) [Chip.rd_wr_ne])
    · simp (disch := decide) [Chip.raisePkg_rd, Chip.rd_wr_ne]
    · exact ((Chip.RegsBut.tokenHeard (by simp)).wr _ _ (by simp)).recorded (Chip.recorded_raisePkg ..)
  case clears =>
    intro w v s hw
    refine ⟨_, exec_reEnumerateToken hw s, ?_, ?_, ?_, ?_, Chip.reEnumerate_hasHop _, by simp [Chip.reEnumerate_eq, Chip.emit]⟩
    all_goals simp (disch := decide) [Chip.reEnumerate_rd, Chip.rd_wr_ne]
  case clearsOnly =>
    intro w v s hw hsrc
    have hkept : s.chip.tokenHeard.addressCleared.rd F.skyStatus_source = s.chip.rd F.skyStatus_source := by
      simp (disch := decide) [Chip.addressCleared, Chip.rd_wr_ne]
    have hnone := Chip.tickDenied_of_source _ (hkept.symm ▸ hsrc)
    refine ⟨_, exec_reEnumerateToken hw s, ?_, ?_⟩
    all_goals rw [Chip.reEnumerate_eq, hnone]
    · rfl
    · exact ((Chip.RegsBut.tokenHeard (by simp)).addressCleared (by simp) (by simp) (by simp)).flds rfl
  case echo =>
    intro s hhop hh
    simp [exec, execDelayProbeEcho, State.nextChip, Chip.rdb, hhop, hh, Chip.emit]
  case probe =>
    intro roundTrip t s h
    exact ⟨_, exec_delayProbeReturn h roundTrip, rfl, rfl, (Chip.RegsBut.refl _ _).flds rfl⟩
  case hop =>
    intro w v s hw
    have hfit : v % 65536 = v := Nat.mod_eq_of_lt (by have := readToken_value_lt hw; omega)
    refine ⟨_, exec_hopDelayToken hw s, ?_, by simp [Chip.modChain], ?_⟩
    · simp (disch := decide) [Chip.lichenWrite_rd, hfit]
    · exact ((((Chip.RegsBut.tokenHeard (by simp)).wr _ _ (by simp)).flds (c := Chip.modChain _ _) rfl)).recorded
        (Chip.recorded_lichenWrite ..)
  case heartbeat =>
    intro s hv
    simp [exec, execAddressHeartbeat, State.nextChip, Chip.rdb, hv, Chip.emit]
  case lost =>
    intro s h
    refine ⟨_, exec_chainLost h, ?_, ?_, ?_, ?_⟩
    · simp (disch := decide) [Chip.raisePkg_rd]
    · simp (disch := decide) [Chip.raisePkg_rd, Chip.rd_wr_ne]
    · exact (Chip.raisePkg_count (k := 2) (by decide) _ _).trans (by simp (disch := decide) [Chip.rd_wr_ne])
    · exact ((Chip.RegsBut.refl _ _).wr _ _ (by simp)).recorded (Chip.recorded_raisePkg ..)
  case damaged =>
    intro w s h
    simp [exec, execAddressToken, execReEnumerateToken, execHopDelayToken, readToken_of_damaged h]

end Sys2Proof.Machine
end

section
/-! Requests to a spindle and the spin-up places of a region (R30 to R34, R271 to R273): what each operation leaves in the registers. -/
namespace Sys2Proof.Machine

/-! ### Fields told apart -/

/-- A status field of a spindle and a field of a region's spin-up register are different fields. -/
theorem key_spinStatus_ne_spinup {d r m n : Nat} {f g : Fld} (hf : f.key = m + 128 * (0x4 + clusterSlot d 5))
    (hg : g.key = n + 128 * (0x0 + regionBase r)) (hm : m < 128 := by decide) (hn : n < 128 := by decide) : f.key ≠ g.key := by
  simp only [hf, hg, clusterSlot, clusterBase, regionBase]
  omega

/-! ### States of a spindle and the outputs they drive -/

/-- A state of the spindle is one register write; the rest is the next set-point area. -/
@[simp] theorem Chip.setSpin_rd (c : Chip) (d st : Nat) (q : Fld) : (c.setSpin d st).rd q = (c.wr (F.spinStatus_state d) st).rd q := rfl
@[simp] theorem Chip.setSpin_spinSt (c : Chip) (d st j : Nat) : (c.setSpin d st).spinSt j = c.spinSt j := rfl

theorem Chip.enterBrake_rd (c : Chip) (d : Nat) (q : Fld) :
    (c.enterBrake d).rd q = (((c.wr (F.spinStatus_state d) 8).wr (F.spinStatus_lock d) 0).bump (F.spinCnt_brakes d)).rd q := rfl

/-- Entering BRAKE leaves every field of the status register but the state and the lock. -/
theorem Chip.enterBrake_rd_ne (c : Chip) {d m : Nat} {q : Fld} (hq : q.key = m + 128 * (0x4 + clusterSlot d 5)) (hm : m < 128) (hs : m ≠ 0)
    (hl : m ≠ 4) : (c.enterBrake d).rd q = c.rd q := by
  rw [Chip.enterBrake_rd, Chip.rd_bump_ne _ _ (by simp [hq]; omega), Chip.rd_wr_ne _ _ (by simpa [hq] using hl),
    Chip.rd_wr_ne _ _ (by simpa [hq] using hs)]

theorem Chip.enterBrake_state (c : Chip) (d : Nat) : (c.enterBrake d).rd (F.spinStatus_state d) = 8 := by
  rw [Chip.enterBrake_rd, Chip.rd_bump_ne _ _ (by simp; omega), Chip.rd_wr_ne _ _ (by simp), Chip.rd_wr]
  rfl

theorem Chip.enterBrake_lock (c : Chip) (d : Nat) : (c.enterBrake d).rd (F.spinStatus_lock d) = 0 := by
  rw [Chip.enterBrake_rd, Chip.rd_bump_ne _ _ (by simp; omega), Chip.rd_wr]
  rfl

theorem Chip.RegsBut.setSpin {a b : Chip} {l : List Fld} (h : a.RegsBut b l) (d st : Nat) (m : F.spinStatus_state d ∈ l) :
    a.RegsBut (b.setSpin d st) l := (h.wr _ _ m).flds rfl

theorem Chip.RegsBut.modSpin {a b : Chip} {l : List Fld} (h : a.RegsBut b l) (d : Nat) (f : SpinSt → SpinSt) : a.RegsBut (b.modSpin d f) l :=
  h.flds rfl

/-! ### Places of a region -/

@[simp] theorem Chip.askPlace_rd (c : Chip) (d : Nat) (q : Fld) : (c.askPlace d).rd q =
    (c.wr (F.spinup_spinup_waiting (portRegion d)) (maskSet (c.rd (F.spinup_spinup_waiting (portRegion d))) (d % 6) true)).rd q := rfl

/-- Who asks for a place stands in the mask of those waiting (R31). -/
theorem Chip.askPlace_waiting (c : Chip) (d : Nat) : ((c.askPlace d).rd (F.spinup_spinup_waiting (portRegion d))).testBit (d % 6) = true := by
  have hbit : d % 6 < 6 := Nat.mod_lt _ (by decide)
  rw [Chip.askPlace_rd, Chip.rd_wr, Nat.testBit_mod_two_pow]
  simp [maskSet, hbit]

theorem Chip.askPlace_askedAt (c : Chip) (d : Nat) : ((c.askPlace d).spinSt d).askedAt = c.now := by simp [Chip.askPlace]

/-- Asking for a place leaves the status register. -/
theorem Chip.askPlace_rd_ne (c : Chip) {d m : Nat} {q : Fld} (hq : q.key = m + 128 * (0x4 + clusterSlot d 5)) (hm : m < 128) :
    (c.askPlace d).rd q = c.rd q := by
  rw [Chip.askPlace_rd, Chip.rd_wr_ne _ _ (key_spinStatus_ne_spinup hq (F.spinup_spinup_waiting_key _) hm)]

theorem Chip.RegsBut.askPlace {a b : Chip} {l : List Fld} (h : a.RegsBut b l) (d : Nat) (m : F.spinup_spinup_waiting (portRegion d) ∈ l) :
    a.RegsBut (b.askPlace d) l := (h.wr _ _ m).flds rfl

theorem Chip.RegsBut.releasePlace {a b : Chip} {l : List Fld} (h : a.RegsBut b l) (d : Nat) (mp : F.spinStatus_place d ∈ l)
    (ma : F.spinup_spinup_active (portRegion d) ∈ l) (mw : F.spinup_spinup_waiting (portRegion d) ∈ l) : a.RegsBut (b.releasePlace d) l := by
  unfold Chip.releasePlace
  dsimp only
  split
  · exact ((h.wr _ _ mw).wr _ _ mp).wr _ _ ma
  · exact h.wr _ _ mw

/-- Who gives up its place holds none. -/
theorem Chip.releasePlace_place (c : Chip) (d : Nat) : (c.releasePlace d).rd (F.spinStatus_place d) ≠ 1 := by
  unfold Chip.releasePlace
  dsimp only
  split
  · rw [Chip.rd_wr_ne _ _ (key_spinStatus_ne_spinup (F.spinStatus_place_key d) (F.spinup_spinup_active_key _)), Chip.rd_wr]
    simp
  · next h => simpa [Chip.rdb] using h

/-- Giving up a place leaves every other field of the status register. -/
theorem Chip.releasePlace_rd_ne (c : Chip) {d m : Nat} {q : Fld} (hq : q.key = m + 128 * (0x4 + clusterSlot d 5)) (hm : m < 128)
    (hp : m ≠ 5) : (c.releasePlace d).rd q = c.rd q := by
  have hw : q.key ≠ (F.spinup_spinup_waiting (portRegion d)).key := key_spinStatus_ne_spinup hq (F.spinup_spinup_waiting_key _) hm
  have ha : q.key ≠ (F.spinup_spinup_active (portRegion d)).key := key_spinStatus_ne_spinup hq (F.spinup_spinup_active_key _) hm
  unfold Chip.releasePlace
  dsimp only
  split
  · rw [Chip.rd_wr_ne _ _ ha, Chip.rd_wr_ne _ _ (by simpa [hq] using hp), Chip.rd_wr_ne _ _ hw]
  · rw [Chip.rd_wr_ne _ _ hw]

/-! ### Requests -/

theorem clampTarget_lt (t : Nat) : clampTarget t < 2 ^ 16 := by
  unfold clampTarget
  omega

theorem Chip.RegsBut.spinTarget {a b : Chip} {l : List Fld} (h : a.RegsBut b l) (d t : Nat) (mt : F.spinStatus_target d ∈ l)
    (ml : F.spinStatus_lock d ∈ l) : a.RegsBut (b.spinTarget d t) l := (h.wr _ _ mt).wr _ _ ml

theorem Chip.spinTarget_target (c : Chip) (d : Nat) {t : Nat} (h : t < 2 ^ 16) : (c.spinTarget d t).rd (F.spinStatus_target d) = t := by
  rw [Chip.spinTarget, Chip.rd_wr_ne _ _ (by simp), Chip.rd_wr]
  exact Nat.mod_eq_of_lt h

theorem Chip.spinTarget_lock (c : Chip) (d t : Nat) : (c.spinTarget d t).rd (F.spinStatus_lock d) = 0 := by simp [Chip.spinTarget]

theorem Chip.spinTarget_state (c : Chip) (d t : Nat) : (c.spinTarget d t).rd (F.spinStatus_state d) = c.rd (F.spinStatus_state d) := by
  rw [Chip.spinTarget, Chip.rd_wr_ne _ _ (by simp), Chip.rd_wr_ne _ _ (by simp)]

/-- A start with all three motor constants asks for a place (R31, R272). -/
theorem Chip.spinStart_asks {c : Chip} {d : Nat} (hr : c.rd (F.spinMotor_r_s d) ≠ 0) (hl : c.rd (F.spinMotor_l_s d) ≠ 0)
    (hk : c.rd (F.spinMotor_ke d) ≠ 0) (t : Nat) : c.spinStart d t =
      (((c.wr (F.spinStatus_target d) t).setSpin d 1).modSpin d fun s => { s with fails := 0, pending := none, waited := 0 }).askPlace d :=
  if_neg (by simp [hr, hl, hk])

theorem Chip.spinStart_refused {c : Chip} {d : Nat} (hk : c.rd (F.spinMotor_ke d) = 0) (t : Nat) :
    c.spinStart d t = c.wr (F.spinStatus_req_refused d) 1 := if_pos (.inr (.inr hk))

theorem Chip.spinRequest_engineOut {c : Chip} {d : Nat} (h : c.engineOut d = true) (q : SpinReq) :
    c.spinRequest d q = c.wr (F.spinStatus_req_refused d) 1 := if_pos h

theorem Chip.spinRequest_begins {c : Chip} {d : Nat} (h : c.engineOut d = false)
    (hs : c.rd (F.spinStatus_state d) = 0 ∨ c.rd (F.spinStatus_state d) = 6) (q : SpinReq) : c.spinRequest d q = c.spinBegin d q := by
  simp [Chip.spinRequest, h, hs]

theorem Chip.spinRequest_waits {c : Chip} {d : Nat} (h : c.engineOut d = false) (h0 : c.rd (F.spinStatus_state d) ≠ 0)
    (h6 : c.rd (F.spinStatus_state d) ≠ 6) (hw : (c.spinSt d).waiting = none) (q : SpinReq) :
    c.spinRequest d q = (c.wr (F.spinStatus_req_waiting d) 1).modSpin d fun s => { s with waiting := some q } := by
  simp [Chip.spinRequest, h, h0, h6, hw]

/-- A third request is refused, whether the engine is out or not (R20, R273). -/
theorem Chip.spinRequest_third {c : Chip} {d : Nat} (h0 : c.rd (F.spinStatus_state d) ≠ 0) (h6 : c.rd (F.spinStatus_state d) ≠ 6)
    (hw : (c.spinSt d).waiting ≠ none) (q : SpinReq) : c.spinRequest d q = c.wr (F.spinStatus_req_refused d) 1 := by
  simp [Chip.spinRequest, h0, h6, Option.isSome_iff_ne_none.2 hw]

/-- A start from STOPPED without one of the motor constants is refused, whether the engine is out or not (R20, R272). -/
theorem Chip.spinRequest_start_refused {c : Chip} {d : Nat} (hs : c.rd (F.spinStatus_state d) = 0) (hk : c.rd (F.spinMotor_ke d) = 0) (t : Nat) :
    c.spinRequest d (.start t) = c.wr (F.spinStatus_req_refused d) 1 := by
  cases h : c.engineOut d with
  | true => exact Chip.spinRequest_engineOut h _
  | false =>
    rw [Chip.spinRequest_begins h (.inl hs)]
    exact (if_pos hs).trans (Chip.spinStart_refused hk t)

/-- A stop in RUN gives up the place and decelerates (R30, R273). -/
theorem Chip.spinBegin_stop {c : Chip} {d : Nat} (hs : c.rd (F.spinStatus_state d) = 6) :
    c.spinBegin d .stop = (((c.spinTarget d 0).releasePlace d).modSpin d fun s => { s with climb := false }).setSpin d 7 := if_pos hs

/-- A park gives up the place and brakes (R273). -/
theorem Chip.spinPark_rd (c : Chip) (d : Nat) (q : Fld) : (c.spinPark d).rd q = ((c.releasePlace d).enterBrake d).rd q := rfl

theorem Chip.spinPark_parking (c : Chip) (d : Nat) : ((c.spinPark d).spinSt d).parking = true := by
  rw [Chip.spinPark, Chip.modSpin_spinSt_same]

theorem Chip.spinPark_pending (c : Chip) (d : Nat) : ((c.spinPark d).spinSt d).pending = none := by
  rw [Chip.spinPark, Chip.modSpin_spinSt_same]

/-- The refusal of a request is one flag (R273). -/
theorem Chip.refused_sets_flag_only (c : Chip) (d : Nat) : (c.wr (F.spinStatus_req_refused d) 1).rd (F.spinStatus_req_refused d) = 1 ∧
    c.RegsBut (c.wr (F.spinStatus_req_refused d) 1) [F.spinStatus_req_refused d] :=
  ⟨by simp, (Chip.RegsBut.refl _ _).wr _ _ (by simp)⟩

/-! ### Admission -/

theorem arbitrate_none {n ptr : Nat} {req : Nat → Bool} (h : ∀ i, req i = false) : arbitrate n ptr req = none := by
  simp [arbitrate, List.find?_eq_none, h]

/-- Rotating priority grants a lone requester, wherever the pointer stands (R34). -/
theorem arbitrate_lone {n ptr i : Nat} {req : Nat → Bool} (hi : i < n) (h : ∀ j, req j = true ↔ j = i) : arbitrate n ptr req = some i := by
  have hturn : ∃ k < n, (ptr + k) % n = i := by
    refine ⟨(i + (n - ptr % n)) % n, Nat.mod_lt _ (by omega), ?_⟩
    have hptr : ptr % n < n := Nat.mod_lt _ (by omega)
    rw [Nat.add_mod_mod, ← Nat.mod_add_mod, show ptr % n + (i + (n - ptr % n)) = i + n by omega, Nat.add_mod_right, Nat.mod_eq_of_lt hi]
  obtain ⟨k, hk, hki⟩ := hturn
  unfold arbitrate
  cases hfind : ((List.range n).map fun k => (ptr + k) % n).find? req with
  | none =>
    have := List.find?_eq_none.1 hfind i (List.mem_map.2 ⟨k, List.mem_range.2 hk, hki⟩)
    exact absurd ((h i).2 rfl) this
  | some j => rw [(h j).1 (List.find?_some hfind)]

theorem Chip.admitSpinups_full {c : Chip} {r : Nat} (h : c.rd (F.spinup_spinup_max r) ≤ c.rd (F.spinup_spinup_active r)) (n : Nat) :
    Chip.admitSpinups n c r = c := by
  cases n with
  | zero => rfl
  | succ n => simp [Chip.admitSpinups, Chip.spinupFree, Nat.not_lt.2 h]

theorem Chip.admitSpinups_none {c : Chip} {r : Nat} (h : c.rd (F.spinup_spinup_waiting r) = 0) (n : Nat) : Chip.admitSpinups n c r = c := by
  cases n with
  | zero => rfl
  | succ n => simp [Chip.admitSpinups, arbitrate_none, h]

/-- A waiting start that is given a place holds it, waits no longer and senses its motor (R30, R31, R273). -/
theorem Chip.admitPort_rd {c : Chip} {r n : Nat} (hs : c.rd (F.spinStatus_state (6 * r + n)) = 1) (q : Fld) : (c.admitPort r n).rd q =
    ((((c.wr (F.spinup_spinup_waiting r) (maskSet (c.rd (F.spinup_spinup_waiting r)) n false)).wr (F.spinup_spinup_active r)
      (c.rd (F.spinup_spinup_active r) + 1)).wr (F.spinStatus_place (6 * r + n)) 1).wr (F.spinStatus_state (6 * r + n)) 2).rd q := by
  have hne {m : Nat} {f : Fld} (hf : f.key = m + 128 * (0x0 + regionBase r)) (hm : m < 128) : (F.spinStatus_state (6 * r + n)).key ≠ f.key :=
    key_spinStatus_ne_spinup (F.spinStatus_state_key _) hf (by decide) hm
  unfold Chip.admitPort
  dsimp only
  rw [if_pos]
  · rfl
  · rw [Chip.modSpin_rd, Chip.modRgn_rd, Chip.rd_wr_ne _ _ (by simp), Chip.rd_wr_ne _ _ (hne (F.spinup_spinup_active_key r) (by decide)),
      Chip.rd_wr_ne _ _ (hne (F.spinup_spinup_waiting_key r) (by decide)), hs]

/-- Of the spin-up register an admission changes who waits and how many are active. -/
theorem Chip.admitPort_rd_spinup {c : Chip} {r n m : Nat} (hs : c.rd (F.spinStatus_state (6 * r + n)) = 1) {q : Fld}
    (hq : q.key = m + 128 * (0x0 + regionBase r)) (hm : m < 128) : (c.admitPort r n).rd q =
      ((c.wr (F.spinup_spinup_waiting r) (maskSet (c.rd (F.spinup_spinup_waiting r)) n false)).wr (F.spinup_spinup_active r)
        (c.rd (F.spinup_spinup_active r) + 1)).rd q := by
  rw [Chip.admitPort_rd hs, Chip.rd_wr_ne _ _ (key_spinStatus_ne_spinup (F.spinStatus_state_key _) hq (by decide) hm).symm,
    Chip.rd_wr_ne _ _ (key_spinStatus_ne_spinup (F.spinStatus_place_key _) hq (by decide) hm).symm]

theorem Chip.admitPort_waiting {c : Chip} {r n : Nat} (hs : c.rd (F.spinStatus_state (6 * r + n)) = 1)
    (hw : c.rd (F.spinup_spinup_waiting r) = 2 ^ n) : (c.admitPort r n).rd (F.spinup_spinup_waiting r) = 0 := by
  rw [Chip.admitPort_rd_spinup hs (F.spinup_spinup_waiting_key r) (by decide), Chip.rd_wr_ne _ _ (by simp), Chip.rd_wr, hw]
  simp [maskSet]

theorem Chip.admitPort_active {c : Chip} {r n : Nat} (hs : c.rd (F.spinStatus_state (6 * r + n)) = 1)
    (hfit : c.rd (F.spinup_spinup_active r) + 1 < 8) :
    (c.admitPort r n).rd (F.spinup_spinup_active r) = c.rd (F.spinup_spinup_active r) + 1 := by
  rw [Chip.admitPort_rd_spinup hs (F.spinup_spinup_active_key r) (by decide), Chip.rd_wr]
  exact Nat.mod_eq_of_lt hfit

theorem Chip.admitPort_regsBut {c : Chip} {r n : Nat} (hs : c.rd (F.spinStatus_state (6 * r + n)) = 1) : c.RegsBut (c.admitPort r n)
    [F.spinStatus_place (6 * r + n), F.spinStatus_state (6 * r + n), F.spinup_spinup_waiting r, F.spinup_spinup_active r] :=
  fun q hq hl => (Chip.admitPort_rd hs q).trans (((((Chip.RegsBut.refl c _).wr _ _ (by simp)).wr _ _ (by simp)).wr _ _ (by simp)).wr _ _
    (by simp) q hq hl)

/-- The lone waiting start of a region is admitted when a place is free, and no other after it. -/
theorem Chip.admitSpinups_lone {c : Chip} {r i : Nat} (hi : i < 6) (he : c.engineOut (6 * r) = false)
    (hw : c.rd (F.spinup_spinup_waiting r) = 2 ^ i) (hfree : c.rd (F.spinup_spinup_active r) < c.rd (F.spinup_spinup_max r))
    (hs : c.rd (F.spinStatus_state (6 * r + i)) = 1) (n : Nat) : Chip.admitSpinups (n + 1) c r = c.admitPort r i := by
  have hgrant : arbitrate 6 (c.rgnSt r).spinPtr (fun j => (c.rd (F.spinup_spinup_waiting r)).testBit j) = some i :=
    arbitrate_lone hi fun j => by rw [hw, Nat.testBit_two_pow]; simp [eq_comm]
  have hfirst : Chip.admitSpinups (n + 1) c r = Chip.admitSpinups n (c.admitPort r i) r := by
    simp [Chip.admitSpinups, Chip.spinupFree, hfree, he, hgrant]
  rw [hfirst, Chip.admitSpinups_none (Chip.admitPort_waiting hs hw)]

/-- The limit of 7 is stored as 6, any other as it is (R32). -/
theorem Chip.spinupMax_stored (c : Chip) (r v : Nat) :
    (c.wr (F.spinup_spinup_max r) (if v % 8 = 7 then 6 else v)).rd (F.spinup_spinup_max r) = if v % 8 = 7 then 6 else v % 8 := by
  rw [Chip.rd_wr]
  split <;> rfl

/-! ### The commands -/

/-- A stop is followed by the drives' hooks. -/
theorem exec_spindleStop (d : Nat) (s : State) :
    exec (.spindleStop d) s = .next (State.allHooks { s with chip := s.chip.spinRequest d .stop }) := rfl

theorem exec_spindleStart (d target : Nat) (s : State) :
    exec (.spindleStart d target) s = s.nextChip (s.chip.spinRequest d (.start (clampTarget target))) := rfl

theorem exec_spindleSetSpeed (d target : Nat) (s : State) :
    exec (.spindleSetSpeed d target) s = s.nextChip (s.chip.spinRequest d (.setSpeed (clampTarget target))) := rfl

theorem exec_parkCoastEnd {d : Nat} {s : State} (h : (s.chip.spinSt d).parking = true) : exec (.parkCoastEnd d) s =
    s.nextChip ((s.chip.motorFlags d false true).modSpin d fun s => { s with parking := false }) := congrArg s.nextChip (if_pos h)

theorem exec_spinupAdmit (r : Nat) (s : State) : exec (.spinupAdmit r) s = s.nextChip (Chip.admitSpinups 6 s.chip r) := rfl

theorem exec_spinupMaxWrite (r v : Nat) (s : State) : exec (.spinupMaxWrite r v) s =
    s.nextChip (Chip.admitSpinups 6 (s.chip.wr (F.spinup_spinup_max r) (if v % 8 = 7 then 6 else v)) r) := rfl

/-! ### The statement -/

/-- Settles O3: each request is taken to the one branch of `Chip.spinRequest` that serves it, and each admission to the port that is admitted
or to none; the registers are then read off the writes of that branch. -/
theorem spindleRequestsTakeEffect : Obligations.SpindleRequestsTakeEffect := by
  unfold Obligations.SpindleRequestsTakeEffect
  refine ⟨?starts, ?unmeasured, ?setsSpeed, ?stops, ?stopped, ?waits, ?third, ?parks, ?coastEnds, ?admits, ?limit, ?lowered, ?full, ?out⟩
  case starts =>
    intro d target s _ he hs hr hl hk
    have hbegin : s.chip.spinRequest d (.start (clampTarget target)) = s.chip.spinStart d (clampTarget target) :=
      (Chip.spinRequest_begins he (.inl hs) _).trans (if_pos hs)
    rw [exec_spindleStart, hbegin, Chip.spinStart_asks hr hl hk]
    refine ⟨_, rfl, ?_, ?_, Chip.askPlace_waiting _ d, Chip.askPlace_askedAt _ d,
      ((((Chip.RegsBut.refl _ _).wr _ _ (by simp)).setSpin d 1 (by simp)).modSpin d _).askPlace d (by simp)⟩
    · rw [Chip.askPlace_rd_ne _ (F.spinStatus_state_key d) (by decide), Chip.modSpin_rd, Chip.setSpin_rd, Chip.rd_wr]
      rfl
    · rw [Chip.askPlace_rd_ne _ (F.spinStatus_target_key d) (by decide), Chip.modSpin_rd, Chip.setSpin_rd, Chip.rd_wr_ne _ _ (by simp), Chip.rd_wr]
      exact Nat.mod_eq_of_lt (clampTarget_lt target)
  case unmeasured =>
    intro d target s hs hk
    rw [exec_spindleStart, Chip.spinRequest_start_refused hs hk]
    exact ⟨_, rfl, Chip.refused_sets_flag_only _ d⟩
  case setsSpeed =>
    intro d target s he hs
    rw [exec_spindleSetSpeed, Chip.spinRequest_begins he (.inr hs)]
    exact ⟨_, rfl, Chip.spinTarget_target _ d (clampTarget_lt target), Chip.spinTarget_lock _ d _,
      (Chip.spinTarget_state _ d _).trans hs, (Chip.RegsBut.refl _ _).spinTarget d _ (by simp) (by simp)⟩
  case stops =>
    intro d s _ he hs
    rw [exec_spindleStop, Chip.spinRequest_begins he (.inr hs), Chip.spinBegin_stop hs]
    refine ⟨_, rfl, by simp, ?_, ?_, by simp, ?_,
      ((((Chip.RegsBut.refl _ _).spinTarget d 0 (by simp) (by simp)).releasePlace d (by simp) (by simp) (by simp)).modSpin d _).setSpin d 7 (by simp)⟩
    all_goals rw [Chip.setSpin_rd, Chip.rd_wr_ne _ _ (by simp), Chip.modSpin_rd]
    · rw [Chip.releasePlace_rd_ne _ (F.spinStatus_target_key d) (by decide) (by decide), Chip.spinTarget_target _ d (by decide)]
    · rw [Chip.releasePlace_rd_ne _ (F.spinStatus_lock_key d) (by decide) (by decide), Chip.spinTarget_lock]
    · exact Chip.releasePlace_place _ d
  case stopped =>
    intro d s he hs
    have hnothing : s.chip.spinBegin d .stop = s.chip := if_neg (by omega)
    rw [exec_spindleStop, Chip.spinRequest_begins he (.inl hs), hnothing]
  case waits =>
    intro d target s he h0 h6 hw
    rw [exec_spindleStart, Chip.spinRequest_waits he h0 h6 hw]
    exact ⟨_, rfl, by simp, by simp [clampTarget], ((Chip.RegsBut.refl _ _).wr _ _ (by simp)).flds rfl⟩
  case third =>
    intro d target s h0 h6 hw
    rw [exec_spindleStart, Chip.spinRequest_third h0 h6 hw]
    exact ⟨_, rfl, (Chip.refused_sets_flag_only _ d).1, rfl, (Chip.refused_sets_flag_only _ d).2⟩
  case parks =>
    intro d s _
    refine ⟨s.chip.spinPark d, rfl, ?_, ?_, ?_, Chip.spinPark_parking _ d, Chip.spinPark_pending _ d⟩
    all_goals rw [Chip.spinPark_rd]
    · exact Chip.enterBrake_state _ d
    · exact Chip.enterBrake_lock _ d
    · rw [Chip.enterBrake_rd_ne _ (F.spinStatus_place_key d) (by decide) (by decide) (by decide)]
      exact Chip.releasePlace_place _ d
  case coastEnds =>
    intro d s hp
    rw [exec_parkCoastEnd hp]
    exact ⟨_, rfl, by simp, (Chip.RegsBut.refl _ _).flds rfl⟩
  case admits =>
    intro r i s _ hi he hw hfree hmax hs
    rw [exec_spinupAdmit, Chip.admitSpinups_lone hi he hw hfree hs]
    refine ⟨_, rfl, ?_, ?_, Chip.admitPort_waiting hs hw, Chip.admitPort_active hs (by omega), Chip.admitPort_regsBut hs⟩
    · rw [Chip.admitPort_rd hs, Chip.rd_wr_ne _ _ (by simp), Chip.rd_wr]
      simp
    · rw [Chip.admitPort_rd hs, Chip.rd_wr]
      simp
  case limit =>
    intro r v s hw
    have hnone := Chip.admitSpinups_none (c := s.chip.wr (F.spinup_spinup_max r) (if v % 8 = 7 then 6 else v)) (r := r)
      (by rw [Chip.rd_wr_ne _ _ (by simp), hw]) 6
    rw [exec_spinupMaxWrite, hnone]
    exact ⟨_, rfl, Chip.spinupMax_stored _ r v, (Chip.RegsBut.refl _ _).wr _ _ (by simp)⟩
  case lowered =>
    intro r v m s _ hm hle
    have hfull := Chip.admitSpinups_full (c := s.chip.wr (F.spinup_spinup_max r) (if v % 8 = 7 then 6 else v)) (r := r)
      (by rwa [Chip.spinupMax_stored, Chip.rd_wr_ne _ _ (by simp), ← hm]) 6
    rw [exec_spinupMaxWrite, hfull]
    exact ⟨_, rfl, (Chip.spinupMax_stored _ r v).trans hm.symm, rfl, (Chip.RegsBut.refl _ _).wr _ _ (by simp)⟩
  case full =>
    intro r s h
    rw [exec_spinupAdmit, Chip.admitSpinups_full h]
    rfl
  case out =>
    intro d target s h
    refine ⟨_, (Chip.refused_sets_flag_only _ d).1, (Chip.refused_sets_flag_only _ d).2, ?_, ?_, ?_⟩
    · rw [exec_spindleStart, Chip.spinRequest_engineOut h]
      rfl
    · rw [exec_spindleSetSpeed, Chip.spinRequest_engineOut h]
      rfl
    · rw [exec_spindleStop, Chip.spinRequest_engineOut h]

end Sys2Proof.Machine
end

section
/-! What the transport does around the execution of a command (R402, R403, R407, R417): fetching and completing it change the sessions' own state,
their counts and what is recorded and sent, and no other register. -/
namespace Sys2Proof.Machine

/-! ### Sessions and contexts after a change of one -/

@[simp] theorem Chip.sess_modSess_same (c : Chip) (n : Nat) (f : SessSt → SessSt) : (c.modSess n f).sess n = f (c.sess n) := tabGet_mod_same ..

theorem Chip.sess_modSess_ne (c : Chip) {n m : Nat} (f : SessSt → SessSt) (h : m ≠ n) : (c.modSess n f).sess m = c.sess m := tabGet_mod_ne _ _ h

@[simp] theorem Chip.ctxSt_modCtx_same (c : Chip) (n x : Nat) (f : CtxSt → CtxSt) : (c.modCtx n x f).ctxSt n x = f (c.ctxSt n x) := by
  rw [Chip.ctxSt, Chip.modCtx, Chip.sess_modSess_same]
  exact tabGet_mod_same ..

/-- A change of a session that leaves its contexts alone. -/
theorem Chip.ctxSt_modSess (c : Chip) {n : Nat} {f : SessSt → SessSt} (hf : ∀ y, (f y).ctx = y.ctx) (x : Nat) :
    (c.modSess n f).ctxSt n x = c.ctxSt n x := by
  rw [Chip.ctxSt, Chip.sess_modSess_same, hf]
  rfl

theorem Chip.ctxSt_of_host {c c' : Chip} (h : c'.host = c.host) (n x : Nat) : c'.ctxSt n x = c.ctxSt n x := by
  rw [Chip.ctxSt, Chip.sess, h]
  rfl

theorem mem_tabInsert_of_ne {α : Type} {t : Tab α} {k : Nat} (v : α) {e : Nat × α} (h : e ∈ t) (hk : e.1 ≠ k) : e ∈ tabInsert t k v := by
  induction t with
  | nil => cases h
  | cons b t ih =>
    unfold tabInsert
    split
    · exact List.mem_cons_of_mem _ h
    · split
      · next hb =>
        rcases List.mem_cons.1 h with rfl | h
        · exact absurd hb.symm hk
        · exact List.mem_cons_of_mem _ h
      · exact (List.mem_cons.1 h).elim (· ▸ List.mem_cons_self) fun h => List.mem_cons_of_mem _ (ih h)

theorem mem_tabPut_of_ne {α : Type} [DecidableEq α] (blank : α) {t : Tab α} {k : Nat} (v : α) {e : Nat × α} (h : e ∈ t) (hk : e.1 ≠ k) :
    e ∈ tabPut blank t k v := by
  rw [tabPut_eq]
  split
  · exact List.mem_filter.2 ⟨h, by simpa using hk⟩
  · exact mem_tabInsert_of_ne v h hk

/-- A session that is established stands among the established ones. -/
theorem Chip.mem_liveSessions {c : Chip} {n : Nat} (h : (c.sess n).live = true) : n ∈ c.liveSessions := by
  unfold Chip.sess tabGet at h
  cases hk : tabFind c.host.sess n with
  | none =>
    rw [hk] at h
    cases h
  | some v =>
    rw [hk] at h
    exact List.mem_map.2 ⟨(n, v), List.mem_filter.2 ⟨mem_of_tabFind _ hk, h⟩, rfl⟩

/-- A change of an established session that does not end it leaves the established sessions. -/
theorem Chip.mem_liveSessions_modSess {c : Chip} {n : Nat} {f : SessSt → SessSt} (hf : ∀ y, (f y).live = y.live)
    (hn : (c.sess n).live = true) (m : Nat) : m ∈ (c.modSess n f).liveSessions ↔ m ∈ c.liveSessions := by
  refine ⟨c.liveSessions_modSess n f hf m, fun hm => ?_⟩
  by_cases h : m = n
  · subst h
    exact Chip.mem_liveSessions (by rw [Chip.sess_modSess_same, hf, hn])
  · obtain ⟨e, he, rfl⟩ := List.mem_map.1 hm
    obtain ⟨ht, hl⟩ := List.mem_filter.1 he
    exact List.mem_map.2 ⟨e, List.mem_filter.2 ⟨mem_tabPut_of_ne _ _ ht h, hl⟩, rfl⟩

/-! ### The counts of the transport -/

theorem Chip.mem_hostCounts {c : Chip} {g : Fld} : g ∈ c.hostCounts ↔ g = F.qcpStatus_sessions ∨ g = F.qcpStatus_queues ∨ g = F.qcpStatus_contexts ∨
    ∃ n ∈ c.liveSessions, g = F.use_moss (n - 1) ∨ g = F.use_contexts (n - 1) ∨ g = F.use_over (n - 1) := by
  simp [Chip.hostCounts]

/-- With the sessions numbered as R397 numbers them, the counts lie below the registers of trust and of events. -/
theorem Chip.hostCounts_key_lt {c : Chip} (hp : ∀ m ∈ c.liveSessions, m ≤ 256) {g : Fld} (h : g ∈ c.hostCounts) : g.key < 0x50800000 * 128 := by
  rcases Chip.mem_hostCounts.1 h with rfl | rfl | rfl | ⟨n, hn, rfl | rfl | rfl⟩
  · decide
  · decide
  · decide
  all_goals
    have := hp n hn
    simp only [F.use_moss_key, F.use_contexts_key, F.use_over_key]
    omega

/-- Recounting changes registers only. -/
theorem Chip.refreshHost_field {α : Type} (c : Chip) (g : Chip → α) (hg : ∀ (b : Chip) l, g { b with flds := l } = g b) : g c.refreshHost = g c := by
  have written (b : Chip) (f : Fld) (v : Nat) : g (b.wr f v) = g b := hg b _
  unfold Chip.refreshHost Chip.wrb Chip.wrSat
  refine List.foldlRecOn (motive := fun b => g b = g c) _ _ ?_ fun b hb n _ => ?_
  · simp only [written]
  · simpa only [written] using hb

@[simp] theorem Chip.refreshHost_host (c : Chip) : c.refreshHost.host = c.host := c.refreshHost_field (·.host) fun _ _ => rfl
@[simp] theorem Chip.refreshHost_trust (c : Chip) : c.refreshHost.trust = c.trust := c.refreshHost_field (·.trust) fun _ _ => rfl
@[simp] theorem Chip.refreshHost_keeper (c : Chip) : c.refreshHost.keeper = c.keeper := c.refreshHost_field (·.keeper) fun _ _ => rfl

/-- Only counts of the transport are recounted. -/
theorem Chip.refreshHost_rd_ne {c : Chip} {f : Fld} (h : ∀ g ∈ c.hostCounts, f.key ≠ g.key) : c.refreshHost.rd f = c.rd f :=
  c.refreshHost_rd f (h _ (Chip.mem_hostCounts.2 (.inl rfl))) (h _ (Chip.mem_hostCounts.2 (.inr (.inl rfl))))
    (h _ (Chip.mem_hostCounts.2 (.inr (.inr (.inl rfl))))) fun n hn =>
    have use {g : Fld} (hg : g = F.use_moss (n - 1) ∨ g = F.use_contexts (n - 1) ∨ g = F.use_over (n - 1)) : f.key ≠ g.key :=
      h g (Chip.mem_hostCounts.2 (.inr (.inr (.inr ⟨n, hn, hg⟩))))
    ⟨use (.inl rfl), use (.inr (.inl rfl)), use (.inr (.inr rfl))⟩

/-- Giving tiles back changes the tiles and the merge buffers only. -/
theorem Chip.freeTiles_field {α : Type} (c : Chip) (ts : List Nat) (g : Chip → α) (hg : ∀ (b : Chip) t m, g { b with tiles := t, buf := m } = g b) :
    g (c.freeTiles ts) = g c := by
  unfold Chip.freeTiles Chip.dropGathered
  refine List.foldlRecOn (motive := fun b => g b = g c) _ _ (hg c _ _) fun b hb t _ => ?_
  split
  · exact (hg b _ _).trans hb
  · exact hb

/-! ### Steps of the transport -/

/-- From `c` to `c'` the transport has worked and nothing else: the same sessions are established, and of the registers and event counts only the
transport's own counts and the marks of the records may differ. -/
structure Chip.TransportStep (c c' : Chip) : Prop where
  regs : c.RegsBut c' c.hostCounts
  count : (∀ m ∈ c.liveSessions, m ≤ 256) → ∀ j < 549, SameCount j c c'
  established : ∀ m, (c'.sess m).live = (c.sess m).live
  live : ∀ m, m ∈ c'.liveSessions ↔ m ∈ c.liveSessions

/-- The counts of the transport are those of its established sessions. -/
theorem Chip.hostCounts_iff {c c' : Chip} (h : ∀ m, m ∈ c'.liveSessions ↔ m ∈ c.liveSessions) (g : Fld) : g ∈ c'.hostCounts ↔ g ∈ c.hostCounts := by
  simp only [Chip.mem_hostCounts, h]

/-- No register and no session's standing changed. -/
theorem Chip.TransportStep.of_flds {c c' : Chip} (hf : c'.flds = c.flds) (hs : c'.host.sess = c.host.sess) : c.TransportStep c' where
  regs := (Chip.RegsBut.refl c _).flds hf
  count _ _ _ := congrArg (fldGet · _) hf
  established m := by simp only [Chip.sess, hs]
  live m := by simp only [Chip.liveSessions, hs]

theorem Chip.TransportStep.refl (c : Chip) : c.TransportStep c := .of_flds rfl rfl

theorem Chip.TransportStep.trans {a b c : Chip} (h : a.TransportStep b) (k : b.TransportStep c) : a.TransportStep c where
  regs := h.regs.trans (k.regs.mono fun g => (Chip.hostCounts_iff h.live g).1)
  count hp j hj := (h.count hp j hj).trans (k.count (fun m hm => hp m ((h.live m).1 hm)) j hj)
  established m := (k.established m).trans (h.established m)
  live m := (k.live m).trans (h.live m)

theorem Chip.transportStep_modSess {c : Chip} {n : Nat} {f : SessSt → SessSt} (hf : ∀ y, (f y).live = y.live) (hn : (c.sess n).live = true) :
    c.TransportStep (c.modSess n f) where
  regs := (Chip.RegsBut.refl c _).flds rfl
  count _ _ _ := rfl
  established m := by
    by_cases h : m = n
    · rw [h, Chip.sess_modSess_same, hf]
    · rw [Chip.sess_modSess_ne _ _ h]
  live := Chip.mem_liveSessions_modSess hf hn

theorem Chip.transportStep_modCtx {c : Chip} {n : Nat} (x : Nat) (f : CtxSt → CtxSt) (hn : (c.sess n).live = true) : c.TransportStep (c.modCtx n x f) :=
  Chip.transportStep_modSess (by simp) hn

theorem Chip.transportStep_refreshHost (c : Chip) : c.TransportStep c.refreshHost where
  regs _ _ hl := Chip.refreshHost_rd_ne hl
  count hp j _ := Chip.refreshHost_rd_ne fun g hg => evCnt_key_gt j g (Nat.lt_trans (Chip.hostCounts_key_lt hp hg) (by decide))
  established m := by simp only [Chip.sess, Chip.refreshHost_host]
  live m := by simp only [Chip.liveSessions, Chip.refreshHost_host]

theorem Chip.transportStep_lichenWrite (c : Chip) (code path : Nat) (data : List Nat) : c.TransportStep (c.lichenWrite code path data) where
  regs := (Chip.RegsBut.refl c _).recorded (c.recorded_lichenWrite code path data)
  count _ _ hj := sameCount_lichenWrite hj ..
  established m := by simp only [Chip.sess, Chip.lichenWrite_host]
  live m := by simp only [Chip.liveSessions, Chip.lichenWrite_host]

theorem Chip.transportStep_freeTiles (c : Chip) (ts : List Nat) : c.TransportStep (c.freeTiles ts) :=
  .of_flds (c.freeTiles_field ts (·.flds) fun _ _ _ => rfl) (c.freeTiles_field ts (·.host.sess) fun _ _ _ => rfl)

/-- A register that is neither a count of the transport nor a mark of the records. -/
theorem Chip.TransportStep.rd {c c' : Chip} (h : c.TransportStep c') (hp : ∀ m ∈ c.liveSessions, m ≤ 256) {f : Fld} (hf : ¬ Recording f)
    (hk : 0x50800000 * 128 ≤ f.key) : c'.rd f = c.rd f :=
  h.regs f hf fun _ hg => Nat.ne_of_gt (Nat.lt_of_lt_of_le (Chip.hostCounts_key_lt hp hg) hk)

/-! ### Completion (R417) -/

theorem Chip.transportStep_sendStatus {c : Chip} {n : Nat} (x : Nat) (hn : (c.sess n).live = true) : c.TransportStep (c.sendStatus n x) := by
  unfold Chip.sendStatus
  dsimp only
  split
  · exact .refl c
  · split
    · exact Chip.transportStep_modCtx x _ hn
    · have hctx := Chip.transportStep_modCtx x (fun k => { k with held := false }) hn
      have hseq := Chip.transportStep_modSess (f := fun s => { s with txSeq := ((c.modCtx n x fun k => { k with held := false }).sess n).txSeq + 1 })
        (fun _ => rfl) ((hctx.established n).trans hn)
      exact (hctx.trans hseq).trans (.of_flds rfl rfl)

theorem Chip.sendQcp_ctxSt (c : Chip) (n type queue ctx tag flags offset : Nat) (payload : List Nat) (x : Nat) :
    (c.sendQcp n type queue ctx tag flags offset payload).ctxSt n x = c.ctxSt n x :=
  c.ctxSt_modSess (f := fun s => { s with txSeq := (c.sess n).txSeq + 1 }) (fun _ => rfl) x

/-- Sending a status, or owing it, leaves it stored. -/
theorem Chip.sendStatus_status (c : Chip) (n x : Nat) : ((c.sendStatus n x).ctxSt n x).status = (c.ctxSt n x).status := by
  unfold Chip.sendStatus
  dsimp only
  split
  · rfl
  · split
    · rw [Chip.ctxSt_modCtx_same]
    · rw [Chip.sendQcp_ctxSt, Chip.ctxSt_modCtx_same]

theorem Chip.releaseSnoop_of_none {c : Chip} {n x : Nat} (h : (c.ctxSt n x).snoop = none) : c.releaseSnoop n x = c := by
  simp [Chip.releaseSnoop, h]

/-- The completion of an active command that holds no snoop unit is a step of the transport. -/
theorem Chip.transportStep_complete {c : Chip} {n x : Nat} (hn : (c.sess n).live = true) (hs : (c.ctxSt n x).snoop = none) (code flags : Nat)
    (data : List Nat) : c.TransportStep (c.complete n x code flags data) := by
  unfold Chip.complete
  dsimp only
  split
  · rw [Chip.releaseSnoop_of_none hs]
    generalize (dataInOpcode (c.ctxSt n x).cmd.opcode && (c.ctxSt n x).tiles != []) = keep
    have freed : c.TransportStep (if keep then c else c.freeTiles (c.ctxSt n x).tiles) := by
      split
      · exact .refl c
      · exact c.transportStep_freeTiles _
    have closed := freed.trans (Chip.transportStep_modCtx x (fun k => { k with
      phase := if keep then .retained else .free, wait := .nothing, status := some (statusPayload code flags data)
      tiles := if keep then k.tiles else [], granted := [] }) ((freed.established n).trans hn))
    have left := closed.trans (Chip.transportStep_modSess (f := fun s => { s with order := s.order.filter (· != x) }) (fun _ => rfl)
      ((closed.established n).trans hn))
    have told := left.trans (Chip.transportStep_sendStatus x ((left.established n).trans hn))
    split
    · exact (told.trans (Chip.transportStep_lichenWrite ..)).trans (Chip.transportStep_refreshHost _)
    · exact told.trans (Chip.transportStep_refreshHost _)
  · exact .refl c

/-- An active command that completes has the status it completes with (R415, R417). -/
theorem Chip.complete_status {c : Chip} {n x : Nat} (h : (c.ctxSt n x).phase = .active) (code flags : Nat) (data : List Nat) :
    ((c.complete n x code flags data).ctxSt n x).status = some (statusPayload code flags data) := by
  have stored (b : Chip) (f : CtxSt → CtxSt) (hf : ∀ k, (f k).status = some (statusPayload code flags data)) :
      ((((b.modCtx n x f).modSess n fun s => { s with order := s.order.filter (· != x) }).sendStatus n x).ctxSt n x).status =
        some (statusPayload code flags data) := by
    rw [Chip.sendStatus_status, Chip.ctxSt_modSess _ (by simp), Chip.ctxSt_modCtx_same, hf]
  unfold Chip.complete
  dsimp only
  rw [if_pos (.inl h), Chip.ctxSt_of_host (Chip.refreshHost_host _)]
  split
  · rw [Chip.ctxSt_of_host (Chip.lichenWrite_host ..)]
    exact stored _ _ fun _ => rfl
  · exact stored _ _ fun _ => rfl

/-! ### A command whose execution begins -/

/-- `c` is the chip of `a` once the waiting command of a context has been fetched: the context is active and holds no snoop unit, the transport has
worked, and of the trust only the session that a seal presence is bound to may be another. -/
structure Chip.BeginsIn (n x : Nat) (a c : Chip) : Prop where
  step : a.TransportStep c
  live : (c.sess n).live = true
  active : (c.ctxSt n x).phase = .active
  snoop : (c.ctxSt n x).snoop = none
  placed : ∀ m ∈ a.liveSessions, m ≤ 256
  keeper : c.keeper = a.keeper
  trust : c.trust = { a.trust with sealBound := c.trust.sealBound }

/-- Fetching changes the session and takes the counts anew (R34, R402, R403). -/
theorem Chip.fetched_eq (c : Chip) (n x : Nat) : c.fetched n x = (((c.modHost fun h => { h with parse := h.parse + 1 }).modSess n fun s =>
    { s with queuePtr := arbNext 16 (c.ctxSt n x).cmd.queue }).modCtx n x fun k => { k with phase := .active, parse := c.host.parse + 1 }).refreshHost := rfl

theorem Chip.fetched_ctxSt (c : Chip) (n x : Nat) :
    (c.fetched n x).ctxSt n x = { c.ctxSt n x with phase := .active, parse := c.host.parse + 1 } := by
  rw [Chip.fetched_eq, Chip.ctxSt_of_host (Chip.refreshHost_host _), Chip.ctxSt_modCtx_same, Chip.ctxSt_modSess _ (by simp)]
  rfl

theorem Chip.fetched_trust (c : Chip) (n x : Nat) : (c.fetched n x).trust = c.trust := Chip.refreshHost_trust _

theorem Chip.fetched_keeper (c : Chip) (n x : Nat) : (c.fetched n x).keeper = c.keeper := Chip.refreshHost_keeper _

theorem Chip.transportStep_fetched {c : Chip} {n : Nat} (x : Nat) (hn : (c.sess n).live = true) : c.TransportStep (c.fetched n x) := by
  have parsed : c.TransportStep (c.modHost fun h => { h with parse := h.parse + 1 }) := .of_flds rfl rfl
  have turned := parsed.trans (Chip.transportStep_modSess (f := fun s => { s with queuePtr := arbNext 16 (c.ctxSt n x).cmd.queue }) (fun _ => rfl) hn)
  have active := turned.trans (Chip.transportStep_modCtx x (fun k => { k with phase := .active, parse := c.host.parse + 1 })
    ((turned.established n).trans hn))
  exact active.trans (Chip.transportStep_refreshHost _)

/-- Binding a seal presence changes the trust's session only. -/
theorem Chip.bindSeal_eq (c : Chip) (n : Nat) (r : OpRow) :
    c.bindSeal n r = { c with trust := { c.trust with sealBound := (c.bindSeal n r).trust.sealBound } } := by
  unfold Chip.bindSeal
  split <;> rfl

/-- What `Chip.serves` says of the context and the sessions. -/
theorem Chip.serves_placed {c : Chip} {n x op : Nat} (h : c.serves n x op = true) :
    (c.sess n).live = true ∧ (c.ctxSt n x).snoop = none ∧ ∀ m ∈ c.liveSessions, m ≤ 256 := by
  obtain ⟨r, -, hr⟩ := (Option.any_eq_true _ _).1 h
  simp only [Bool.and_eq_true, List.all_eq_true, decide_eq_true_eq, Option.isNone_iff_eq_none] at hr
  obtain ⟨⟨⟨⟨-, hs⟩, hp⟩, hf⟩, -⟩ := hr
  simp only [Chip.canFetch, Bool.and_eq_true] at hf
  obtain ⟨⟨⟨⟨hl, -⟩, -⟩, -⟩, -⟩ := hf
  exact ⟨hl, hs, hp⟩

theorem Chip.beginsIn_fetched {c : Chip} {n x op : Nat} (h : c.serves n x op = true) (r : OpRow) :
    Chip.BeginsIn n x c ((c.fetched n x).bindSeal n r) := by
  obtain ⟨hl, hs, hp⟩ := Chip.serves_placed h
  have hstep := Chip.transportStep_fetched x hl
  have hlive := (hstep.established n).trans hl
  have hctx := c.fetched_ctxSt n x
  have htrust := c.fetched_trust n x
  have hkeeper := c.fetched_keeper n x
  generalize c.fetched n x = b at hstep hlive hctx htrust hkeeper ⊢
  rw [Chip.bindSeal_eq]
  exact ⟨hstep.trans (.of_flds rfl rfl), hlive, congrArg CtxSt.phase hctx, (congrArg CtxSt.snoop hctx).trans hs, hp, hkeeper, by rw [htrust]⟩

/-- A command without checks of its own that is served at once executes on the chip in which it is fetched. -/
theorem fetchWith_begins {s : State} {n x op : Nat} (h : s.chip.serves n x op = true) (body : State → Cmd → State) :
    ∃ c, Chip.BeginsIn n x s.chip c ∧
      s.fetchWith n x op anyCmd noCheck noCheck body = .next (State.allHooks (body { s with chip := c } (s.chip.ctxSt n x).cmd)) := by
  obtain ⟨r, c, -, rfl, heq⟩ := fetchWith_serves anyCmd noCheck noCheck body h rfl
  exact ⟨_, Chip.beginsIn_fetched h r, heq.trans (if_neg (by simp [ownCode, noCheck]))⟩

/-- A command that does nothing but end with a status is a step of the transport and has its status stored. -/
theorem Chip.BeginsIn.complete {n x : Nat} {a c : Chip} (h : Chip.BeginsIn n x a c) (code flags : Nat) (data : List Nat) :
    a.TransportStep (c.complete n x code flags data) ∧
      ((c.complete n x code flags data).ctxSt n x).status = some (statusPayload code flags data) :=
  ⟨h.step.trans (Chip.transportStep_complete h.live h.snoop ..), Chip.complete_status h.active ..⟩

end Sys2Proof.Machine
end

section
/-! Presence (R484 to R489): what the button, a claim and a sample of the seal loop leave in the registers of trust. -/
namespace Sys2Proof.Machine

/-! ### The window (R485) -/

theorem Chip.closeWindow_open {c : Chip} (h : c.rd F.trust_window_open = 1) (cause : Nat) : c.closeWindow cause =
    ((((c.modTrust fun t => { t with released := none }).wr F.trust_window_open 0).wr F.trust_window_held 0).wr F.trust_holder 0).raisePkg 29 [cause] :=
  if_pos (by simp [Chip.rdb, h])

theorem Chip.closeWindow_closed {c : Chip} (h : c.rd F.trust_window_open = 0) (cause : Nat) : c.closeWindow cause = c :=
  if_neg (by simp [Chip.rdb, h])

/-- An open window that closes is neither open nor claimed, and its end is an event. -/
theorem Chip.closeWindow_closes {c : Chip} (h : c.rd F.trust_window_open = 1) (cause : Nat) :
    (c.closeWindow cause).trust = { c.trust with released := none } ∧ (c.closeWindow cause).rd F.trust_window_open = 0 ∧
      (c.closeWindow cause).rd F.trust_window_held = 0 ∧ (c.closeWindow cause).rd F.trust_holder = 0 ∧
      (c.closeWindow cause).rd (F.evCnt_count 541) = min (c.rd (F.evCnt_count 541) + 1) (2 ^ 32 - 1) ∧
      c.RegsBut (c.closeWindow cause) [F.trust_window_open, F.trust_window_held, F.trust_holder] := by
  rw [Chip.closeWindow_open h]
  refine ⟨by simp, ?_, ?_, ?_, ?_, ?_⟩
  · simp (disch := decide) [Chip.raisePkg_rd, Chip.rd_wr_ne]
  · simp (disch := decide) [Chip.raisePkg_rd, Chip.rd_wr_ne]
  · simp (disch := decide) [Chip.raisePkg_rd]
  · exact (Chip.raisePkg_count (k := 29) (by decide) _ _).trans (by simp (disch := decide) [Chip.rd_wr_ne])
  · exact (((((Chip.RegsBut.refl c _).flds (c := Chip.modTrust _ _) rfl).wr _ _ (by simp)).wr _ _ (by simp)).wr _ _ (by simp)).recorded (Chip.recorded_raisePkg ..)

/-- The chip with a window opened, unclaimed, by a release at this instant (R484, R485). -/
def Chip.openWindow (c : Chip) : Chip :=
  ((((c.modTrust fun t => { t with pressed := false, released := some c.keeper }).wr F.trust_window_open 1).wr F.trust_window_held 0).wr
    F.trust_holder 0).raisePkg 27 []

theorem exec_presenceRelease_pressed {s : State} (h : s.chip.trust.pressed = true) : exec .presenceRelease s = s.nextChip s.chip.openWindow :=
  congrArg s.nextChip (if_pos h)

theorem exec_presenceRelease_idle {s : State} (h : s.chip.trust.pressed = false) : exec .presenceRelease s = .next s :=
  congrArg s.nextChip (if_neg (by simp [h]))

theorem Chip.openWindow_regsBut (c : Chip) : c.RegsBut c.openWindow [F.trust_window_open, F.trust_window_held, F.trust_holder] :=
  (((((Chip.RegsBut.refl c _).flds (c := Chip.modTrust _ _) rfl).wr _ _ (by simp)).wr _ _ (by simp)).wr _ _ (by simp)).recorded
    (Chip.recorded_raisePkg ..)

theorem Chip.openWindow_count (c : Chip) : c.openWindow.rd (F.evCnt_count 539) = min (c.rd (F.evCnt_count 539) + 1) (2 ^ 32 - 1) := by
  unfold Chip.openWindow
  exact (Chip.raisePkg_count (k := 27) (by decide) _ _).trans (by simp (disch := decide) [Chip.rd_wr_ne])

/-- A window is open for 120 s from its release, half-open (R14, R485). -/
theorem Chip.windowOpen_of_released {c : Chip} {t0 : Nat} (h : c.trust.released = some t0) :
    c.windowOpen = (c.rdb F.trust_window_open && decide (c.keeper < t0 + 120 * 10 ^ 9)) := by
  rw [Chip.windowOpen, h, Option.any_some]

theorem exec_presencePress (s : State) :
    exec .presencePress s = s.nextChip ((s.chip.modTrust fun t => { t with pressed := true }).closeWindow 1) := rfl

theorem exec_presenceWindowExpiry_due {s : State} {t0 : Nat} (ho : s.chip.rd F.trust_window_open = 1) (hr : s.chip.trust.released = some t0)
    (hk : t0 + 120 * 10 ^ 9 ≤ s.chip.keeper) : exec .presenceWindowExpiry s = s.nextChip (s.chip.closeWindow 0) := by
  have hover : decide (s.chip.keeper < t0 + 120 * 10 ^ 9) = false := decide_eq_false (Nat.not_lt.2 hk)
  refine congrArg s.nextChip (if_pos ?_)
  rw [Chip.windowOpen_of_released hr, hover, Chip.rdb, ho]
  rfl

/-- No window reaches its end: it is closed, or younger than 120 s. -/
theorem exec_presenceWindowExpiry_early {s : State} {t0 : Nat} (h : s.chip.rd F.trust_window_open = 0 ∨
    (s.chip.trust.released = some t0 ∧ s.chip.keeper < t0 + 120 * 10 ^ 9)) : exec .presenceWindowExpiry s = .next s := by
  refine congrArg s.nextChip (if_neg ?_)
  rcases h with h | ⟨hr, hk⟩
  · simp [Chip.rdb, h]
  · have hyoung : decide (s.chip.keeper < t0 + 120 * 10 ^ 9) = true := decide_eq_true hk
    rw [Chip.windowOpen_of_released hr, hyoung]
    simp

/-! ### The claim (R486) -/

/-- The window is claimed by a session. -/
def Chip.grantWindow (c : Chip) (n : Nat) : Chip :=
  ((c.wr F.trust_window_held 1).wr F.trust_holder n).raisePkg 28 (beBytes 2 n)

/-- What PRESENCE_CLAIM answers once it executes. -/
def Chip.claimWindow (c : Chip) (n x : Nat) : Chip :=
  if !c.windowOpen then c.fail n x 0x0301
  else if !c.rdb F.trust_window_held then (c.grantWindow n).ok n x
  else if c.rd F.trust_holder = n then c.ok n x
  else c.fail n x 0x0308

theorem Chip.claimWindow_closed {c : Chip} (n x : Nat) (h : c.windowOpen = false) : c.claimWindow n x = c.fail n x 0x0301 := if_pos (by simp [h])

theorem Chip.claimWindow_unclaimed {c : Chip} (n x : Nat) (h : c.windowOpen = true) (hh : c.rd F.trust_window_held = 0) :
    c.claimWindow n x = (c.grantWindow n).ok n x := by
  simp [Chip.claimWindow, h, Chip.rdb, hh]

theorem Chip.claimWindow_taken {c : Chip} {n : Nat} (x : Nat) (h : c.windowOpen = true) (hh : c.rd F.trust_window_held = 1)
    (hn : c.rd F.trust_holder ≠ n) : c.claimWindow n x = c.fail n x 0x0308 := by
  simp [Chip.claimWindow, h, Chip.rdb, hh, hn]

theorem exec_presenceClaim (n x : Nat) (s : State) : exec (.presenceClaim n x) s =
    s.fetchWith n x 0xC4 anyCmd noCheck noCheck fun s _ => s.withChip fun c => c.claimWindow n x := rfl

theorem exec_presenceClaim_serves {s : State} {n x : Nat} (h : s.chip.serves n x 0xC4 = true) :
    ∃ c, Chip.BeginsIn n x s.chip c ∧ exec (.presenceClaim n x) s = .next (State.allHooks { s with chip := c.claimWindow n x }) := by
  rw [exec_presenceClaim]
  exact fetchWith_begins h _

theorem Chip.BeginsIn.rd_trust {n x : Nat} {a c : Chip} (h : Chip.BeginsIn n x a c) {f : Fld} (hf : ¬ Recording f)
    (hk : 0x50800000 * 128 ≤ f.key) : c.rd f = a.rd f := h.step.rd h.placed hf hk

/-- Fetching a command neither opens nor closes the window. -/
theorem Chip.BeginsIn.windowOpen {n x : Nat} {a c : Chip} (h : Chip.BeginsIn n x a c) : c.windowOpen = a.windowOpen := by
  have hreleased : c.trust.released = a.trust.released := by rw [h.trust]
  rw [Chip.windowOpen, Chip.windowOpen, Chip.rdb, Chip.rdb, hreleased, h.keeper, h.rd_trust (by decide) (by decide)]

theorem Chip.grantWindow_host (c : Chip) (n : Nat) : (c.grantWindow n).host = c.host := by simp [Chip.grantWindow]

theorem Chip.grantWindow_held (c : Chip) (n : Nat) : (c.grantWindow n).rd F.trust_window_held = 1 := by
  simp (disch := decide) [Chip.grantWindow, Chip.raisePkg_rd, Chip.rd_wr_ne]

theorem Chip.grantWindow_holder (c : Chip) {n : Nat} (h : n < 512) : (c.grantWindow n).rd F.trust_holder = n := by
  rw [Chip.grantWindow, Chip.raisePkg_rd _ _ _ (by decide), Chip.rd_wr]
  exact Nat.mod_eq_of_lt h

theorem Chip.grantWindow_count (c : Chip) (n : Nat) :
    (c.grantWindow n).rd (F.evCnt_count 540) = min (c.rd (F.evCnt_count 540) + 1) (2 ^ 32 - 1) := by
  unfold Chip.grantWindow
  exact (Chip.raisePkg_count (k := 28) (by decide) _ _).trans (by simp (disch := decide) [Chip.rd_wr_ne])

theorem Chip.grantWindow_regsBut (c : Chip) (n : Nat) : c.RegsBut (c.grantWindow n) [F.trust_window_held, F.trust_holder] :=
  (((Chip.RegsBut.refl c _).wr _ _ (by simp)).wr _ _ (by simp)).recorded (Chip.recorded_raisePkg ..)

/-- A refused claim is one status and the work of the transport. -/
theorem Chip.BeginsIn.fail {n x : Nat} {a c : Chip} (h : Chip.BeginsIn n x a c) (code : Nat) :
    ((c.fail n x code).ctxSt n x).status = some (statusPayload code 0 []) ∧
      a.RegsBut (c.fail n x code) (a.unitOf n x ++ (c.fail n x code).hostCounts) := by
  obtain ⟨hstep, hstatus⟩ := h.complete code 0 []
  exact ⟨hstatus, hstep.regs.mono fun g hg => List.mem_append_right _ ((Chip.hostCounts_iff hstep.live g).2 hg)⟩

/-- A window granted to a session, with the success of its claim. -/
theorem Chip.BeginsIn.grant {n x : Nat} {a c : Chip} (h : Chip.BeginsIn n x a c) (hn : n < 512) :
    ((c.grantWindow n).ok n x).rd F.trust_window_held = 1 ∧ ((c.grantWindow n).ok n x).rd F.trust_holder = n ∧
      (((c.grantWindow n).ok n x).ctxSt n x).status = some (statusPayload 0 0 []) ∧
      ((c.grantWindow n).ok n x).rd (F.evCnt_count 540) = min (a.rd (F.evCnt_count 540) + 1) (2 ^ 32 - 1) ∧
      a.RegsBut ((c.grantWindow n).ok n x)
        ([F.trust_window_held, F.trust_holder] ++ a.unitOf n x ++ ((c.grantWindow n).ok n x).hostCounts) := by
  have hhost := c.grantWindow_host n
  have hlive : ∀ m, m ∈ (c.grantWindow n).liveSessions ↔ m ∈ a.liveSessions := fun m => by
    rw [Chip.liveSessions, hhost]
    exact h.step.live m
  have hplaced : ∀ m ∈ (c.grantWindow n).liveSessions, m ≤ 256 := fun m hm => h.placed m ((hlive m).1 hm)
  have hctx := Chip.ctxSt_of_host hhost n x
  have hstep := Chip.transportStep_complete (c := c.grantWindow n) (n := n) (x := x) (by rw [Chip.sess, hhost]; exact h.live)
    (by rw [hctx, h.snoop]) 0 0 []
  have hcounts (g : Fld) : g ∈ a.hostCounts → g ∈ ((c.grantWindow n).ok n x).hostCounts :=
    (Chip.hostCounts_iff (fun m => (hstep.live m).trans (hlive m)) g).2
  refine ⟨?_, ?_, Chip.complete_status (by rw [hctx, h.active]) .., ?_, ?_⟩
  · exact (hstep.rd hplaced (by decide) (by decide)).trans (c.grantWindow_held n)
  · exact (hstep.rd hplaced (by decide) (by decide)).trans (c.grantWindow_holder hn)
  · have hfetched := h.step.count h.placed 540 (by decide)
    exact Eq.trans (hstep.count hplaced 540 (by decide)) ((c.grantWindow_count n).trans (congrArg (fun k => min (k + 1) (2 ^ 32 - 1)) hfetched))
  · refine Chip.RegsBut.trans (h.step.regs.mono ?_) (Chip.RegsBut.trans ((c.grantWindow_regsBut n).mono ?_) (hstep.regs.mono ?_))
    · exact fun g hg => List.mem_append_right _ (hcounts g hg)
    · exact fun g hg => List.mem_append_left _ (List.mem_append_left _ hg)
    · exact fun g hg => List.mem_append_right _ ((Chip.hostCounts_iff hstep.live g).2 hg)

/-! ### The seal loop (R488, R489) -/

/-- The presence of an opening, with its fuse blown and read back. -/
def Chip.grantSeal (c : Chip) : Chip :=
  ((((c.wr F.trust_seal_open 1).wr F.otp_seals (c.rd F.otp_seals + 1)).wr F.trust_seal_presence 1).modTrust fun t =>
    { t with sealClosedAt := none, sealBound := 0 }).raisePkg 30 (beBytes 4 (c.rd F.otp_seals + 1))

theorem Chip.openSeal_grants {c : Chip} (h : c.rd F.otp_seals < 1024) : c.openSeal true = c.grantSeal := by
  have hseals : (c.wr F.trust_seal_open 1).rd F.otp_seals = c.rd F.otp_seals := Chip.rd_wr_ne _ _ (by decide)
  simp [Chip.openSeal, Chip.grantSeal, hseals, Nat.not_le.2 h]

theorem Chip.grantSeal_seals {c : Chip} (h : c.rd F.otp_seals < 1024) : c.grantSeal.rd F.otp_seals = c.rd F.otp_seals + 1 := by
  have hfit : (c.rd F.otp_seals + 1) % 2 ^ 11 = c.rd F.otp_seals + 1 := Nat.mod_eq_of_lt (by omega)
  simp (disch := decide) only [Chip.grantSeal, Chip.raisePkg_rd, Chip.modTrust_rd, Chip.rd_wr_ne, Chip.rd_wr, F.otp_seals_width, hfit]

theorem Chip.grantSeal_count (c : Chip) : c.grantSeal.rd (F.evCnt_count 542) = min (c.rd (F.evCnt_count 542) + 1) (2 ^ 32 - 1) := by
  unfold Chip.grantSeal
  exact (Chip.raisePkg_count (k := 30) (by decide) _ _).trans (by simp (disch := decide) [Chip.rd_wr_ne])

theorem Chip.grantSeal_regsBut (c : Chip) : c.RegsBut c.grantSeal [F.trust_seal_open, F.otp_seals, F.trust_seal_presence] :=
  (((((Chip.RegsBut.refl c _).wr _ _ (by simp)).wr _ _ (by simp)).wr _ _ (by simp)).flds (c := Chip.modTrust _ _) rfl).recorded
    (Chip.recorded_raisePkg ..)

theorem Chip.openSeal_exhausts {c : Chip} {fuseOk : Bool} (he : c.rd F.trust_seal_exhausted = 0) (h : 1024 ≤ c.rd F.otp_seals ∨ fuseOk = false) :
    c.openSeal fuseOk = ((c.wr F.trust_seal_open 1).wr F.trust_seal_exhausted 1).raisePkg 31 [] := by
  have hseals : (c.wr F.trust_seal_open 1).rd F.otp_seals = c.rd F.otp_seals := Chip.rd_wr_ne _ _ (by decide)
  have hfirst : (c.wr F.trust_seal_open 1).exhaustSeal = ((c.wr F.trust_seal_open 1).wr F.trust_seal_exhausted 1).raisePkg 31 [] := by
    simp (disch := decide) [Chip.exhaustSeal, Chip.rdb, Chip.rd_wr_ne, he]
  rw [Chip.openSeal, hseals, hfirst]
  rcases h with h | rfl
  · exact if_pos h
  · simp

/-- A sample that differs ends the run of those that match (R488). -/
def Chip.countDiffers (c : Chip) : Chip := c.modTrust fun t => { t with sealSame := 0, sealDiff := min 4 (t.sealDiff + 1) }

/-- A sample that matches ends the run of those that differ (R488). -/
def Chip.countMatches (c : Chip) : Chip := c.modTrust fun t => { t with sealDiff := 0, sealSame := min 64 (t.sealSame + 1) }

theorem exec_sealSample_differs (fuseOk : Bool) (s : State) : exec (.sealSample false fuseOk) s = s.nextChip
    (if s.chip.countDiffers.trust.sealDiff = 4 ∧ !s.chip.rdb F.trust_seal_open then s.chip.countDiffers.openSeal fuseOk else s.chip.countDiffers) := rfl

theorem exec_sealSample_matches (fuseOk : Bool) (s : State) : exec (.sealSample true fuseOk) s = s.nextChip
    (if s.chip.countMatches.trust.sealSame = 64 ∧ s.chip.rdb F.trust_seal_open then
      if (s.chip.countMatches.wr F.trust_seal_open 0).rdb F.trust_seal_presence then
        (s.chip.countMatches.wr F.trust_seal_open 0).modTrust fun t => { t with sealClosedAt := some s.chip.keeper }
      else s.chip.countMatches.wr F.trust_seal_open 0
    else s.chip.countMatches) := rfl

/-- The fourth sample in a row that differs opens the loop. -/
theorem exec_sealSample_fourth {s : State} (hd : s.chip.trust.sealDiff = 3) (ho : s.chip.rd F.trust_seal_open = 0) (fuseOk : Bool) :
    exec (.sealSample false fuseOk) s = s.nextChip (s.chip.countDiffers.openSeal fuseOk) := by
  rw [exec_sealSample_differs, if_pos ⟨by simp [Chip.countDiffers, hd], by simp [Chip.rdb, ho]⟩]

/-- The 64th sample in a row that matches closes the loop; the presence lasts from there. -/
theorem exec_sealSample_last {s : State} (hs : s.chip.trust.sealSame = 63) (ho : s.chip.rd F.trust_seal_open = 1)
    (hp : s.chip.rd F.trust_seal_presence = 1) (fuseOk : Bool) : exec (.sealSample true fuseOk) s = s.nextChip
      ((s.chip.countMatches.wr F.trust_seal_open 0).modTrust fun t => { t with sealClosedAt := some s.chip.keeper }) := by
  have hpresent : (s.chip.countMatches.wr F.trust_seal_open 0).rdb F.trust_seal_presence = true := by
    rw [Chip.rdb, Chip.rd_wr_ne _ _ (by decide)]
    exact beq_iff_eq.2 hp
  rw [exec_sealSample_matches, if_pos ⟨by simp [Chip.countMatches, hs], by simp [Chip.rdb, ho]⟩, if_pos hpresent]

/-- Within a run a sample is counted and nothing else. -/
theorem exec_sealSample_counts {s : State} (hs : s.chip.trust.sealSame < 63) (hd : s.chip.trust.sealDiff < 3) (m fuseOk : Bool) :
    exec (.sealSample m fuseOk) s = s.nextChip (if m then s.chip.countMatches else s.chip.countDiffers) := by
  cases m with
  | true => rw [exec_sealSample_matches, if_neg fun h => absurd h.1 (by simp [Chip.countMatches]; omega), if_pos rfl]
  | false => rw [exec_sealSample_differs, if_neg fun h => absurd h.1 (by simp [Chip.countDiffers]; omega), if_neg (by simp)]

theorem exec_sealPresenceExpiry_due {s : State} {t0 : Nat} (h : s.chip.trust.sealClosedAt = some t0) (hk : t0 + 120 * 10 ^ 9 ≤ s.chip.keeper) :
    exec .sealPresenceExpiry s = s.nextChip
      ((s.chip.wr F.trust_seal_presence 0).modTrust fun k => { k with sealClosedAt := none, sealBound := 0 }) := by
  simp only [exec, execSealPresenceExpiry, h, if_pos hk]

/-- No presence reaches its end: the loop has not closed, or less than 120 s ago. -/
theorem exec_sealPresenceExpiry_early {s : State} {t0 : Nat} (h : s.chip.trust.sealClosedAt = none ∨
    (s.chip.trust.sealClosedAt = some t0 ∧ s.chip.keeper < t0 + 120 * 10 ^ 9)) : exec .sealPresenceExpiry s = .next s := by
  rcases h with h | ⟨h, hk⟩
  · simp only [exec, execSealPresenceExpiry, h]
    rfl
  · simp only [exec, execSealPresenceExpiry, h, if_neg (Nat.not_le.2 hk)]
    rfl

/-! ### The statement -/

/-- Settles O39: each clause takes the chip that the command leaves from its equation above; the registers of trust are then read off the writes, and a
claim adds what the transport does around it. -/
theorem presenceOpensAndCloses : Obligations.PresenceOpensAndCloses := by
  unfold Obligations.PresenceOpensAndCloses
  refine ⟨?pressOpen, ?pressClosed, ?release, ?releaseIdle, ?expires, ?young, ?claims, ?claimClosed, ?claimTaken, ?sealOpens, ?sealExhausted,
    ?sealCloses, ?sealCounts, ?sealEnds, ?sealLasts⟩
  case pressOpen =>
    intro s h
    obtain ⟨htrust, hopen, hheld, hholder, hcount, hregs⟩ :=
      Chip.closeWindow_closes (c := s.chip.modTrust fun t => { t with pressed := true }) h 1
    exact ⟨_, exec_presencePress s, by rw [htrust]; rfl, by rw [htrust], hopen, hheld, hholder, hcount, hregs⟩
  case pressClosed =>
    intro s h
    rw [exec_presencePress, Chip.closeWindow_closed (by exact h)]
    exact ⟨_, rfl, rfl, rfl, (Chip.RegsBut.refl _ _).flds rfl⟩
  case release =>
    intro s h
    refine ⟨_, exec_presenceRelease_pressed h, by simp [Chip.openWindow], by simp [Chip.openWindow], ?_, ?_, ?_, s.chip.openWindow_count,
      s.chip.openWindow_regsBut⟩
    all_goals simp (disch := decide) [Chip.openWindow, Chip.raisePkg_rd, Chip.rd_wr_ne]
  case releaseIdle =>
    intro s h
    exact exec_presenceRelease_idle h
  case expires =>
    intro t0 s ho hr hk
    obtain ⟨-, hopen, -, hholder, hcount, hregs⟩ := Chip.closeWindow_closes ho 0
    exact ⟨_, exec_presenceWindowExpiry_due ho hr hk, hopen, hholder, hcount, hregs⟩
  case young =>
    intro t0 s h
    exact exec_presenceWindowExpiry_early h
  case claims =>
    intro n x s h ho hh hn
    obtain ⟨c, hbegin, hexec⟩ := exec_presenceClaim_serves h
    rw [hexec, Chip.claimWindow_unclaimed n x (hbegin.windowOpen.trans ho) ((hbegin.rd_trust (by decide) (by decide)).trans hh)]
    exact ⟨_, rfl, hbegin.grant hn⟩
  case claimClosed =>
    intro n x s h ho
    obtain ⟨c, hbegin, hexec⟩ := exec_presenceClaim_serves h
    rw [hexec, Chip.claimWindow_closed n x (hbegin.windowOpen.trans ho)]
    exact ⟨_, rfl, hbegin.fail 0x0301⟩
  case claimTaken =>
    intro n x s h ho hh hn
    obtain ⟨c, hbegin, hexec⟩ := exec_presenceClaim_serves h
    rw [hexec, Chip.claimWindow_taken x (hbegin.windowOpen.trans ho) ((hbegin.rd_trust (by decide) (by decide)).trans hh)
      (by rwa [hbegin.rd_trust (by decide) (by decide)])]
    exact ⟨_, rfl, hbegin.fail 0x0308⟩
  case sealOpens =>
    intro s hd ho hn
    rw [exec_sealSample_fourth hd ho, Chip.openSeal_grants (by exact hn)]
    refine ⟨_, rfl, ?_, Chip.grantSeal_seals (by exact hn), ?_, ?_, ?_, Chip.grantSeal_count _,
      ((Chip.RegsBut.refl _ _).flds rfl).trans (Chip.grantSeal_regsBut s.chip.countDiffers)⟩
    · simp (disch := decide) [Chip.grantSeal, Chip.raisePkg_rd, Chip.rd_wr_ne]
    · simp (disch := decide) [Chip.grantSeal, Chip.raisePkg_rd]
    · simp [Chip.grantSeal]
    · simp [Chip.grantSeal]
  case sealExhausted =>
    intro fuseOk s hd ho he h
    rw [exec_sealSample_fourth hd ho, Chip.openSeal_exhausts (by exact he) (by exact h)]
    refine ⟨_, rfl, ?_, ?_, ?_, ?_,
      ((((Chip.RegsBut.refl s.chip _).flds (c := s.chip.countDiffers) rfl).wr _ _ (by simp)).wr _ _ (by simp)).recorded (Chip.recorded_raisePkg ..)⟩
    · simp (disch := decide) [Chip.raisePkg_rd, Chip.rd_wr_ne]
    · simp (disch := decide) [Chip.raisePkg_rd]
    · simp (disch := decide) [Chip.raisePkg_rd, Chip.rd_wr_ne, Chip.countDiffers]
    · exact (Chip.raisePkg_count (k := 31) (by decide) _ _).trans (by simp (disch := decide) [Chip.rd_wr_ne, Chip.countDiffers])
  case sealCloses =>
    intro fuseOk s hs ho hp
    refine ⟨_, exec_sealSample_last hs ho hp fuseOk, by simp, rfl, rfl, ?_⟩
    exact ((((Chip.RegsBut.refl s.chip _).flds (c := s.chip.countMatches) rfl).wr _ _ (by simp)).flds rfl)
  case sealCounts =>
    intro m fuseOk s hs hd
    have hsame : min 64 (s.chip.trust.sealSame + 1) = s.chip.trust.sealSame + 1 := by omega
    have hdiff : min 4 (s.chip.trust.sealDiff + 1) = s.chip.trust.sealDiff + 1 := by omega
    refine ⟨_, exec_sealSample_counts hs hd m fuseOk, ?_⟩
    cases m with
    | true => exact ⟨hsame, rfl, (Chip.RegsBut.refl _ _).flds rfl⟩
    | false => exact ⟨rfl, hdiff, (Chip.RegsBut.refl _ _).flds rfl⟩
  case sealEnds =>
    intro t0 s h hk
    exact ⟨_, exec_sealPresenceExpiry_due h hk, by simp, rfl, rfl, ((Chip.RegsBut.refl _ _).wr _ _ (by simp)).flds rfl⟩
  case sealLasts =>
    intro t0 s h
    exact exec_sealPresenceExpiry_early h

end Sys2Proof.Machine
end

section
/-! Management accesses (R11 to R17, R435, R574 to R582): what one word written to a register or read from it does, by REGISTER_WRITE, by REG_READ and
REG_WRITE, and over I2C; and the recovery block. -/
namespace Sys2Proof.Machine

/-! ### Words as bytes (R12) -/

/-- Four bytes of a number are those of its lowest word. -/
theorem beBytes_wordOf (v : Nat) : beBytes 4 (wordOf v 0) = beBytes 4 v := by
  simp only [beBytes, wordOf, List.cons.injEq, and_true]
  omega

theorem leNat_leBytes (n v : Nat) : leNat (leBytes n v) = v % 256 ^ n := by
  induction n generalizing v with
  | zero => simp [leBytes, leNat, Nat.mod_one]
  | succ n ih => rw [leBytes, leNat, ih, Nat.mod_mod, Nat.pow_succ', Nat.mod_mul]

theorem length_leBytes (n v : Nat) : (leBytes n v).length = n := by
  induction n generalizing v with
  | zero => rfl
  | succ n ih => rw [leBytes, List.length_cons, ih]

theorem padTo_of_length {n : Nat} {bs : List Nat} (h : bs.length = n) : padTo n bs = bs := List.take_left' h

/-- The bytes of a word, with fewer than four after it, are that word alone (R579). -/
theorem i2cWords_leBytes (v : Nat) {rest : List Nat} (h : rest.length < 4) : i2cWords (leBytes 4 v ++ rest) = [v % 2 ^ 32] := by
  have hrest : i2cWords rest = [] := by
    rcases rest with _ | ⟨a, _ | ⟨b, _ | ⟨c, _ | ⟨d, t⟩⟩⟩⟩
    · rfl
    · rfl
    · rfl
    · rfl
    · simp only [List.length_cons] at h
      omega
  have hword : i2cWords (leBytes 4 v ++ rest) = leNat (leBytes 4 v) :: i2cWords rest := rfl
  rw [hword, hrest]
  exact congrArg (fun w => [w]) (leNat_leBytes 4 v)

theorem acceptedWords_one {a : Nat} (h : addressOk a = true) : acceptedWords a 1 = 1 := by
  simp [acceptedWords, List.range_succ, h]

/-! ### Registers of one word (R574) -/

/-- A register of one word whose fields all lie in it, that no snoop unit owns and whose fields a write stores itself. -/
def RegRef.plain (r : RegRef) : Bool :=
  r.words == 1 && (snoopDie r 0).isNone && (snoopDie r 8).isNone &&
    r.fields.all fun f => decide (0 < f.fld.width) && decide (f.fld.lsb + f.fld.width ≤ 32) && !writeSkips r f.fld

/-- The address register, the host configuration, a host port and a spindle's request register, as the register tables have them. -/
def chainReg : RegRef := ⟨0x50000000, 0, 1, [⟨F.chain_sys_addr, .ro, .any⟩, ⟨F.chain_addr_valid, .ro, .any⟩, ⟨F.chain_head, .ro, .any⟩,
  ⟨F.chain_overflow, .ro, .any⟩, ⟨F.chain_chain_lost, .ro, .any⟩, ⟨F.chain_mismatch, .w1c, .any⟩, ⟨F.chain_hop_delay, .ro, .any⟩]⟩
def hostCfgReg : RegRef := ⟨0x50400000, 0, 1, [⟨F.hostCfg_mode, .rw, .any⟩, ⟨F.hostCfg_fec_en, .rw, .any⟩, ⟨F.hostCfg_udp_port, .rw, .any⟩]⟩
def hostPortReg (p : Nat) : RegRef := ⟨0x50400004 + 4 * p, p, 1, [⟨F.hostPort_exists p, .ro, .any⟩, ⟨F.hostPort_up p, .ro, .any⟩,
  ⟨F.hostPort_fec p, .ro, .any⟩, ⟨F.hostPort_lpi p, .ro, .any⟩, ⟨F.hostPort_drops p, .rc, .any⟩]⟩
def spinReqReg (d : Nat) : RegRef := ⟨(F.spinReq_op d).addr, 0, 1, [⟨F.spinReq_op d, .wo, .any⟩, ⟨F.spinReq_target d, .wo, .clamp 1000 12000⟩]⟩

theorem findReg_chain : findReg 0x50000000 = some chainReg := rfl
theorem findReg_hostCfg : findReg 0x50400000 = some hostCfgReg := rfl

theorem findReg_hostPort {p : Nat} (h : p < 8) : findReg (0x50400004 + 4 * p) = some (hostPortReg p) :=
  match p, h with
  | 0, _ | 1, _ | 2, _ | 3, _ | 4, _ | 5, _ | 6, _ | 7, _ => rfl

/-- A spindle's request register stands first in unit 5 of its port's cluster (R15). -/
theorem spinReq_place {d : Nat} (h : d < 24) : (F.spinReq_op d).addr / 2 ^ 28 = 4 ∧ (F.spinReq_op d).addr / 2 ^ 23 % 8 ≤ 5 ∧
    (F.spinReq_op d).addr / 2 ^ 20 % 8 = 5 ∧ (F.spinReq_op d).addr % 2 ^ 20 = 0 ∧ addrPort (F.spinReq_op d).addr = d := by
  revert d
  decide

theorem regBlock_spinReq {d : Nat} (h : d < 24) : regBlock (F.spinReq_op d).addr = ((F.spinReq_op d).addr, spinRegs d) := by
  obtain ⟨hspace, hslot, hunit, hoff, hport⟩ := spinReq_place h
  have hbase : (F.spinReq_op d).addr / 2 ^ 20 * 2 ^ 20 = (F.spinReq_op d).addr := by omega
  simp only [regBlock, hspace, hunit, hport, hbase, if_neg (show ¬ (F.spinReq_op d).addr / 2 ^ 23 % 8 = 6 by omega),
    if_neg (show ¬ (F.spinReq_op d).addr / 2 ^ 23 % 8 = 7 by omega)]
  rfl

theorem findReg_spinReq {d : Nat} (h : d < 24) : findReg (F.spinReq_op d).addr = some (spinReqReg d) := by
  simp [findReg, regBlock_spinReq h, spinRegs, spinReqReg]

/-- Above the registers of events stands none. -/
theorem findReg_hole : findReg 0x50F03000 = none := rfl

theorem chainReg_plain : chainReg.plain = true := by decide
theorem hostCfgReg_plain : hostCfgReg.plain = true := by decide
theorem hostPortReg_plain {p : Nat} (h : p < 8) : (hostPortReg p).plain = true := by
  revert p
  decide
theorem spinReqReg_plain {d : Nat} (h : d < 24) : (spinReqReg d).plain = true := by
  revert d
  decide

/-- The package's own block is accepted whole (R16, R17). -/
theorem addressOk_pkg {a : Nat} (h : a / 2 ^ 28 = 5) : addressOk a = true := by
  simp only [addressOk, h, if_true]

theorem addressOk_spinReq {d : Nat} (h : d < 24) : addressOk (F.spinReq_op d).addr = true := by
  obtain ⟨hspace, hslot, -⟩ := spinReq_place h
  simp [addressOk, hspace, hslot, -Nat.reducePow]

theorem findReg_recovery {a : Nat} (h : inRecoveryBlock a = true) : (findReg a).isSome = true := by
  simp only [inRecoveryBlock, Bool.or_eq_true, beq_iff_eq] at h
  rcases h with rfl | rfl <;> decide

/-! ### Writes (R435, R581, R595) -/

/-- What the written word `v` does to a field of its register: RW and WO fields take it but where W1C fields alone are written, W1C bits written 1
clear, RO and RC fields stay. -/
def Chip.storeField (kind : WriteKind) (v : Nat) (c : Chip) (f : FieldDef) : Chip :=
  let put := v / 2 ^ f.fld.lsb % 2 ^ f.fld.width
  match f.access with
  | .w1c => c.wr f.fld (c.rd f.fld - (c.rd f.fld &&& put))
  | .rw | .wo => if kind = .latches then c else c.wr f.fld (f.stored.value c put)
  | .ro | .rc => c

/-- The bits of a field within a word do not see the bits above the word. -/
theorem word_field_bits (v : Nat) {l w : Nat} (h : l + w ≤ 32) : v % 2 ^ 32 / 2 ^ l % 2 ^ w = v / 2 ^ l % 2 ^ w := by
  refine Nat.eq_of_testBit_eq fun i => ?_
  simp only [Nat.testBit_mod_two_pow, Nat.testBit_div_two_pow]
  by_cases hi : i < w
  · simp [hi, show i + l < 32 by omega]
  · simp [hi]

theorem Chip.storeReg_plain {r : RegRef} (h : r.plain = true) (c : Chip) (kind : WriteKind) (v : Nat) :
    c.storeReg kind r [(0, v)] = r.fields.foldl (Chip.storeField kind v) c := by
  simp only [RegRef.plain, Bool.and_eq_true, beq_iff_eq, List.all_eq_true, decide_eq_true_eq, Bool.not_eq_true', Option.isNone_iff_eq_none] at h
  obtain ⟨⟨⟨hwords, hheld⟩, -⟩, hfields⟩ := h
  unfold Chip.storeReg
  refine List.foldl_rel (r := Eq) rfl fun f hf b _ hb => ?_
  subst hb
  obtain ⟨⟨hpos, hfit⟩, hskip⟩ := hfields f hf
  have hin : fieldInWord f.fld 0 = true := by
    simp only [fieldInWord, Bool.and_eq_true, decide_eq_true_eq]
    omega
  have hfree : b.regHeld r = false := by simp [Chip.regHeld, hheld]
  have hput := word_field_bits v hfit
  cases hacc : f.access <;> simp [Chip.storeField, hacc, hin, hskip, hfree, hwords, hput, List.range_succ, -Nat.reducePow]

theorem State.writeWords_one {a : Nat} {r : RegRef} (hr : findReg a = some r) (ha : r.addr = a) (kind : WriteKind) (v : Nat) (s : State) :
    s.writeWords kind a [some v] = s.writeReg kind r [(0, v)] := by
  have hone : [a].eraseDups = [a] := by simp [List.eraseDups_cons]
  simp [State.writeWords, hr, ha, hone]

theorem State.writeWords_hole {a : Nat} (hr : findReg a = none) (kind : WriteKind) (v : Nat) (s : State) : s.writeWords kind a [some v] = s := by
  simp [State.writeWords, hr]

theorem State.writeReg_latches (s : State) (r : RegRef) (ws : List (Nat × Nat)) :
    s.writeReg .latches r ws = { s with chip := s.chip.storeReg .latches r ws } := rfl

/-- `pkg.chain` and `pkg.host.cfg` start nothing. -/
theorem State.writeReg_chain (s : State) (v : Nat) :
    s.writeReg .all chainReg [(0, v)] = { s with chip := s.chip.storeReg .all chainReg [(0, v)] } := rfl
theorem State.writeReg_hostCfg (s : State) (v : Nat) :
    s.writeReg .all hostCfgReg [(0, v)] = { s with chip := s.chip.storeReg .all hostCfgReg [(0, v)] } := rfl

/-- The chip with its host configuration written. -/
def Chip.putHostCfg (c : Chip) (v : Nat) : Chip :=
  ((c.wr F.hostCfg_mode (v / 2 ^ 0 % 2 ^ 2)).wr F.hostCfg_fec_en (v / 2 ^ 2 % 2 ^ 1)).wr F.hostCfg_udp_port (v / 2 ^ 16 % 2 ^ 16)

theorem Chip.storeReg_hostCfg (c : Chip) (v : Nat) : c.storeReg .all hostCfgReg [(0, v)] = c.putHostCfg v := by
  rw [Chip.storeReg_plain hostCfgReg_plain]
  rfl

theorem Chip.storeReg_hostCfg_latches (c : Chip) (v : Nat) : c.storeReg .latches hostCfgReg [(0, v)] = c := by
  rw [Chip.storeReg_plain hostCfgReg_plain]
  rfl

theorem Chip.putHostCfg_mode (c : Chip) (v : Nat) : (c.putHostCfg v).rd F.hostCfg_mode = v % 4 := by
  simp (disch := decide) [Chip.putHostCfg, Chip.rd_wr_ne]

theorem Chip.putHostCfg_fec (c : Chip) (v : Nat) : (c.putHostCfg v).rd F.hostCfg_fec_en = v / 4 % 2 := by
  simp (disch := decide) [Chip.putHostCfg, Chip.rd_wr_ne]

theorem Chip.putHostCfg_udp (c : Chip) (v : Nat) : (c.putHostCfg v).rd F.hostCfg_udp_port = v / 2 ^ 16 % 2 ^ 16 := by
  simp [Chip.putHostCfg]

theorem Chip.putHostCfg_regsBut (c : Chip) (v : Nat) : c.RegsBut (c.putHostCfg v) [F.hostCfg_mode, F.hostCfg_fec_en, F.hostCfg_udp_port] :=
  (((Chip.RegsBut.refl c _).wr _ _ (by simp)).wr _ _ (by simp)).wr _ _ (by simp)

/-- The chip with the address mismatch cleared where bit 14 is written 1. -/
def Chip.clearMismatch (c : Chip) (v : Nat) : Chip :=
  c.wr F.chain_mismatch (c.rd F.chain_mismatch - (c.rd F.chain_mismatch &&& v / 2 ^ 14 % 2 ^ 1))

theorem Chip.storeReg_chain (c : Chip) (kind : WriteKind) (v : Nat) : c.storeReg kind chainReg [(0, v)] = c.clearMismatch v := by
  rw [Chip.storeReg_plain chainReg_plain]
  rfl

theorem Chip.clearMismatch_of_set (c : Chip) {v : Nat} (h : v.testBit 14 = true) : (c.clearMismatch v).rd F.chain_mismatch = 0 := by
  have hput : v / 2 ^ 14 % 2 ^ 1 = 1 := by simpa [Nat.testBit_eq_decide_div_mod_eq] using h
  rw [Chip.clearMismatch, Chip.rd_wr, hput, Nat.and_one_is_mod, F.chain_mismatch_width]
  omega

theorem Chip.clearMismatch_of_clear (c : Chip) {v : Nat} (h : v.testBit 14 = false) :
    (c.clearMismatch v).rd F.chain_mismatch % 2 = c.rd F.chain_mismatch % 2 := by
  have hput : v / 2 ^ 14 % 2 ^ 1 = 0 := by simpa [Nat.testBit_eq_decide_div_mod_eq] using h
  rw [Chip.clearMismatch, Chip.rd_wr, hput, Nat.and_zero, Nat.sub_zero, F.chain_mismatch_width]
  omega

theorem Chip.clearMismatch_regsBut (c : Chip) (v : Nat) : c.RegsBut (c.clearMismatch v) [F.chain_mismatch] :=
  (Chip.RegsBut.refl c _).wr _ _ (by simp)

/-- REGISTER_WRITE of one word at an address that is accepted, and at one that is refused (R16, R17). -/
theorem exec_registerWrite {a : Nat} (h : addressOk a = true) (v : Nat) (s : State) :
    exec (.registerWrite a [v]) s = .next (s.writeWords .all a [some v]) := by
  simp [exec, execRegisterWrite, List.range_succ, h]

theorem exec_registerWrite_refused {a : Nat} (h : addressOk a = false) (v : Nat) (s : State) : exec (.registerWrite a [v]) s = .next s := by
  simp [exec, execRegisterWrite, List.range_succ, h]

theorem State.writeWords_hostCfg (v : Nat) (s : State) :
    s.writeWords .all 0x50400000 [some v] = { s with chip := s.chip.putHostCfg v } := by
  rw [State.writeWords_one findReg_hostCfg rfl, State.writeReg_hostCfg, Chip.storeReg_hostCfg]

theorem State.writeWords_chain (v : Nat) (s : State) :
    s.writeWords .all 0x50000000 [some v] = { s with chip := s.chip.clearMismatch v } := by
  rw [State.writeWords_one findReg_chain rfl, State.writeReg_chain, Chip.storeReg_chain]

/-! ### Requests to a spindle (R260, R595) -/

/-- A request register of a spindle as it is written: the order, and the speed within its limits. -/
def Chip.putSpinReq (c : Chip) (d v : Nat) : Chip :=
  (c.wr (F.spinReq_op d) (v / 2 ^ 0 % 2 ^ 3)).wr (F.spinReq_target d) (max 1000 (min 12000 (v / 2 ^ 16 % 2 ^ 16)))

theorem Chip.storeReg_spinReq {d : Nat} (h : d < 24) (c : Chip) (v : Nat) : c.storeReg .all (spinReqReg d) [(0, v)] = c.putSpinReq d v := by
  rw [Chip.storeReg_plain (spinReqReg_plain h)]
  rfl

theorem Chip.putSpinReq_op (c : Chip) (d v : Nat) : (c.putSpinReq d v).rd (F.spinReq_op d) = v % 8 := by
  simp [Chip.putSpinReq, Chip.rd_wr_ne]

theorem Chip.putSpinReq_target (c : Chip) (d v : Nat) :
    (c.putSpinReq d v).rd (F.spinReq_target d) = max 1000 (min 12000 (v / 2 ^ 16 % 2 ^ 16)) := by
  rw [Chip.putSpinReq, Chip.rd_wr, F.spinReq_target_width]
  omega

/-- A written request register of a spindle gives its order. -/
theorem State.writeReg_spinReq {d : Nat} (h : d < 24) (v : Nat) (s : State) :
    s.writeReg .all (spinReqReg d) [(0, v)] = State.requestWritten { s with chip := s.chip.putSpinReq d v } (F.spinReq_op d).addr := by
  have hchip : s.withChip (fun c => c.storeReg .all (spinReqReg d) [(0, v)]) = { s with chip := s.chip.putSpinReq d v } := by
    rw [State.withChip, Chip.storeReg_spinReq h]
  obtain ⟨hspace, hslot, hunit, hoff, -⟩ := spinReq_place h
  have hregister : (spinReqReg d).addr = (F.spinReq_op d).addr := rfl
  simp [State.writeReg, hchip, hregister, hspace, hslot, State.portWritten, hunit, hoff, -Nat.reducePow]

theorem State.requestWritten_start {d : Nat} (h : d < 24) {s : State} (ho : s.chip.rd (F.spinReq_op d) = 1) :
    s.requestWritten (F.spinReq_op d).addr = s.after (execSpindleStart d (s.chip.rd (F.spinReq_target d))) := by
  obtain ⟨-, -, hunit, -, hport⟩ := spinReq_place h
  simp [State.requestWritten, hport, hunit, ho, -Nat.reducePow]

theorem State.requestWritten_stop {d : Nat} (h : d < 24) {s : State} (ho : s.chip.rd (F.spinReq_op d) = 2) :
    s.requestWritten (F.spinReq_op d).addr = s.after (execSpindleStop d) := by
  obtain ⟨-, -, hunit, -, hport⟩ := spinReq_place h
  simp [State.requestWritten, hport, hunit, ho, -Nat.reducePow]

theorem exec_registerWrite_spinReq {d : Nat} (h : d < 24) (v : Nat) (s : State) : exec (.registerWrite (F.spinReq_op d).addr [v]) s =
    .next (State.requestWritten { s with chip := s.chip.putSpinReq d v } (F.spinReq_op d).addr) := by
  rw [exec_registerWrite (addressOk_spinReq h), State.writeWords_one (findReg_spinReq h) rfl, State.writeReg_spinReq h]

/-- A request register written with the order to start, the speed cut to its limits, is SPINDLE_START. -/
theorem exec_registerWrite_spindleStart {d v : Nat} (h : d < 24) (ho : v % 8 = 1) (s : State) :
    exec (.registerWrite (F.spinReq_op d).addr [v]) s =
      exec (.spindleStart d (max 1000 (min 12000 (v / 2 ^ 16 % 2 ^ 16)))) { s with chip := s.chip.putSpinReq d v } := by
  rw [exec_registerWrite_spinReq h, State.requestWritten_start h ((s.chip.putSpinReq_op d v).trans ho), s.chip.putSpinReq_target]
  rfl

theorem exec_registerWrite_spindleStop {d v : Nat} (h : d < 24) (ho : v % 8 = 2) (s : State) :
    exec (.registerWrite (F.spinReq_op d).addr [v]) s = exec (.spindleStop d) { s with chip := s.chip.putSpinReq d v } := by
  rw [exec_registerWrite_spinReq h, State.requestWritten_stop h ((s.chip.putSpinReq_op d v).trans ho)]
  rfl

theorem Chip.putSpinReq_eq (c : Chip) (d : Nat) {v g o : Nat} (hg : g = max 1000 (min 12000 (v / 2 ^ 16 % 2 ^ 16))) (ho : v % 8 = o) :
    c.putSpinReq d v = (c.wr (F.spinReq_op d) o).wr (F.spinReq_target d) g := by
  have hop : v / 2 ^ 0 % 2 ^ 3 = o := by simpa using ho
  rw [Chip.putSpinReq, hop, hg]

/-! ### Reads (R435, R576, R577) -/

/-- A register whose fields' values are what was last written into them, or counted there. -/
def RegRef.stored (r : RegRef) : Bool :=
  r.plain && r.addr != F.skyNow_ns.addr && r.addr != F.rcvCtrl_slot.addr && r.addr != F.rcvData_data.addr &&
    r.fields.all fun f => f.access != .wo && f.fld != F.skyNow_ns && f.fld != F.trustWindow_remaining && f.fld != F.bootProgress_open &&
      f.fld.addr != (F.calVal_applied 0).addr && f.fld.addr != (F.calVal_applied 1).addr

theorem hostCfgReg_stored : hostCfgReg.stored = true := by decide
theorem hostPortReg_stored {p : Nat} (h : p < 8) : (hostPortReg p).stored = true := by
  revert p
  decide

theorem Chip.regValue_stored {r : RegRef} (h : r.stored = true) (c : Chip) : c.regValue r = (r.fields.map fun f => c.rd f.fld * 2 ^ f.fld.lsb).sum := by
  simp only [RegRef.stored, Bool.and_eq_true, List.all_eq_true, bne_iff_ne] at h
  obtain ⟨⟨⟨-, hslot⟩, hdata⟩, hfields⟩ := h
  have hvalues : (r.fields.map fun f => c.fieldValue f * 2 ^ f.fld.lsb) = r.fields.map fun f => c.rd f.fld * 2 ^ f.fld.lsb := by
    refine List.map_congr_left fun f hf => ?_
    obtain ⟨⟨⟨⟨⟨hwo, hnow⟩, hwindow⟩, hopen⟩, hcal0⟩, hcal1⟩ := hfields f hf
    simp only [Chip.fieldValue, if_neg hwo, if_neg hnow, if_neg hwindow, if_neg hopen, hcal0, hcal1, or_self, if_false]
  simp only [Chip.regValue, hslot, hdata, or_self, false_and, if_false, hvalues]

/-- One read of a register of one word gives its value, and from REG_READ clears its RC fields. -/
theorem Chip.readWords_one {a : Nat} {r : RegRef} (hr : findReg a = some r) (ha : r.addr = a) (h : r.stored = true) (c : Chip) (req : Nat) (clear : Bool) :
    c.readWords req a 1 clear = ([wordOf (c.regValue r) 0], if clear then c.clearRead r 0 else c) := by
  simp only [RegRef.stored, RegRef.plain, Bool.and_eq_true, beq_iff_eq, bne_iff_ne, Option.isNone_iff_eq_none] at h
  obtain ⟨⟨⟨⟨⟨⟨⟨hwords, -⟩, hcount⟩, -⟩, hnow⟩, -⟩, -⟩, -⟩ := h
  subst ha
  simp [Chip.readWords, Chip.readWord, List.range_succ, hr, hwords, Chip.latchCount, hcount, Chip.latchFrac, hnow]

theorem Chip.readWords_hole {a : Nat} (hr : findReg a = none) (c : Chip) (req : Nat) (clear : Bool) : c.readWords req a 1 clear = ([0], c) := by
  simp [Chip.readWords, Chip.readWord, List.range_succ, hr]

theorem Chip.regValue_hostCfg (c : Chip) :
    c.regValue hostCfgReg = c.rd F.hostCfg_mode + c.rd F.hostCfg_fec_en * 4 + c.rd F.hostCfg_udp_port * 2 ^ 16 := by
  rw [Chip.regValue_stored hostCfgReg_stored]
  simp [hostCfgReg, F.hostCfg_mode, F.hostCfg_fec_en, F.hostCfg_udp_port, Nat.add_assoc]

theorem Chip.regValue_hostPort {p : Nat} (h : p < 8) (c : Chip) : c.regValue (hostPortReg p) = c.rd (F.hostPort_exists p) + c.rd (F.hostPort_up p) * 2 +
    c.rd (F.hostPort_fec p) * 4 + c.rd (F.hostPort_lpi p) * 8 + c.rd (F.hostPort_drops p) * 65536 := by
  rw [Chip.regValue_stored (hostPortReg_stored h)]
  simp [hostPortReg, F.hostPort_exists, F.hostPort_up, F.hostPort_fec, F.hostPort_lpi, F.hostPort_drops, Nat.add_assoc]

theorem Chip.clearRead_hostCfg (c : Chip) : c.clearRead hostCfgReg 0 = c := rfl

theorem Chip.clearRead_hostPort (c : Chip) (p : Nat) : c.clearRead (hostPortReg p) 0 = c.wr (F.hostPort_drops p) 0 := by
  simp [Chip.clearRead, hostPortReg, fieldInWord, F.hostPort_drops]

/-! ### REG_READ and REG_WRITE (R435) -/

/-- What REG_READ and REG_WRITE check of their own fields: how many words, whole words, and accepted addresses. -/
def regReadCode (k : Cmd) : Nat := if k.p1 < 1 ∨ 64 < k.p1 ∨ k.p0 % 4 ≠ 0 then 0x0102 else regAddressCode k.p0 k.p1
def regWriteCode (k : Cmd) : Nat := if k.p1 < 1 ∨ 16 < k.p1 ∨ k.dlen ≠ 4 * k.p1 ∨ k.p0 % 4 ≠ 0 then 0x0102 else regAddressCode k.p0 k.p1

/-- A read of words and the status that brings them. -/
def Chip.answerRead (c : Chip) (n x : Nat) (k : Cmd) : Chip :=
  (c.readWords 0 k.p0 k.p1 true).2.ok n x ((c.readWords 0 k.p0 k.p1 true).1.flatMap (beBytes 4))

theorem exec_regRead (n x : Nat) (s : State) : exec (.regRead n x) s =
    s.fetchWith n x 0xA0 anyCmd (fun _ k => regReadCode k) noCheck fun s k => s.withChip fun c => c.answerRead n x k := rfl

theorem exec_regWrite (n x : Nat) (s : State) : exec (.regWrite n x) s =
    s.fetchWith n x 0xA1 anyCmd (fun _ k => regWriteCode k) noCheck fun s k => s.startPhase n x k fun s => s := rfl

/-- A command that is served and whose fields hold executes on the chip in which it is fetched. -/
theorem fetchWith_begins_checked {s : State} {n x op : Nat} (h : s.chip.serves n x op = true) {code : Cmd → Nat}
    (hc : code (s.chip.ctxSt n x).cmd = 0) (body : State → Cmd → State) : ∃ c, Chip.BeginsIn n x s.chip c ∧
      s.fetchWith n x op anyCmd (fun _ k => code k) noCheck body = .next (State.allHooks (body { s with chip := c } (s.chip.ctxSt n x).cmd)) := by
  obtain ⟨r, c, -, rfl, heq⟩ := fetchWith_serves anyCmd (fun _ k => code k) noCheck body h rfl
  exact ⟨_, Chip.beginsIn_fetched h r, heq.trans (if_neg (by simp [ownCode, noCheck, hc]))⟩

/-- A command that is served and whose fields fail ends with their code. -/
theorem fetchWith_fails {s : State} {n x op : Nat} (h : s.chip.serves n x op = true) {code : Cmd → Nat} {e : Nat}
    (hc : code (s.chip.ctxSt n x).cmd = e) (he : e ≠ 0) (body : State → Cmd → State) : ∃ c, Chip.BeginsIn n x s.chip c ∧
      s.fetchWith n x op anyCmd (fun _ k => code k) noCheck body = .next (State.allHooks { s with chip := c.fail n x e }) := by
  obtain ⟨r, c, -, rfl, heq⟩ := fetchWith_serves anyCmd (fun _ k => code k) noCheck body h rfl
  have hown : ownCode (code (s.chip.ctxSt n x).cmd) 0 = e := by rw [ownCode, hc, if_pos he]
  refine ⟨_, Chip.beginsIn_fetched h r, heq.trans ?_⟩
  simp only [noCheck, hown, if_pos he]

/-- The counts of the transport lie above the registers of the host ports. -/
theorem Chip.hostCounts_key_ge {c : Chip} {g : Fld} (h : g ∈ c.hostCounts) : 0x50500000 * 128 ≤ g.key := by
  rcases Chip.mem_hostCounts.1 h with rfl | rfl | rfl | ⟨n, -, rfl | rfl | rfl⟩
  · decide
  · decide
  · decide
  all_goals
    simp only [F.use_moss_key, F.use_contexts_key, F.use_over_key]
    omega

/-- A register below the counts of the transport that is no mark of the records. -/
theorem Chip.TransportStep.rd_below {c c' : Chip} (h : c.TransportStep c') {f : Fld} (hf : ¬ Recording f) (hk : f.key < 0x50500000 * 128) :
    c'.rd f = c.rd f :=
  h.regs f hf fun _ hg => Nat.ne_of_lt (Nat.lt_of_lt_of_le hk (Chip.hostCounts_key_ge hg))

theorem Chip.TransportStep.rd_hostPort {c c' : Chip} (h : c.TransportStep c') {p m : Nat} (hp : p < 8) {f : Fld}
    (hf : f.key = m + 128 * (0x50000000 + (0x400004 + 0x4 * p))) (hm : m < 128) : c'.rd f = c.rd f := by
  refine h.rd_below ?_ ?_
  · simp only [Recording, hf]
    omega
  · omega

/-- The success of a command that has changed the registers `l` and nothing of the transport. -/
theorem Chip.BeginsIn.okAfter {n x : Nat} {a c c' : Chip} {l : List Fld} (h : Chip.BeginsIn n x a c) (hhost : c'.host = c.host)
    (hregs : c.RegsBut c' l) (data : List Nat) :
    c'.TransportStep (c'.ok n x data) ∧ ((c'.ok n x data).ctxSt n x).status = some (statusPayload 0 0 data) ∧
      a.RegsBut (c'.ok n x data) (l ++ a.unitOf n x ++ (c'.ok n x data).hostCounts) := by
  have hlive : ∀ m, m ∈ c'.liveSessions ↔ m ∈ a.liveSessions := fun m => by
    rw [Chip.liveSessions, hhost]
    exact h.step.live m
  have hctx := Chip.ctxSt_of_host hhost n x
  have hstep : c'.TransportStep (c'.ok n x data) :=
    Chip.transportStep_complete (by rw [Chip.sess, hhost]; exact h.live) (by rw [hctx, h.snoop]) 0 0 data
  refine ⟨hstep, Chip.complete_status (by rw [hctx, h.active]) .., ?_⟩
  refine Chip.RegsBut.trans (h.step.regs.mono ?_) (Chip.RegsBut.trans (hregs.mono ?_) (hstep.regs.mono ?_))
  · exact fun g hg => List.mem_append_right _ ((Chip.hostCounts_iff (fun m => (hstep.live m).trans (hlive m)) g).2 hg)
  · exact fun g hg => List.mem_append_left _ (List.mem_append_left _ hg)
  · exact fun g hg => List.mem_append_right _ ((Chip.hostCounts_iff hstep.live g).2 hg)

theorem regAddressCode_one {a : Nat} : regAddressCode a 1 = if addressOk a then 0 else 0x0103 := by
  simp [regAddressCode, List.range_succ]

theorem regReadCode_one {k : Cmd} (h1 : k.p1 = 1) (ha : k.p0 % 4 = 0) : regReadCode k = if addressOk k.p0 then 0 else 0x0103 := by
  rw [regReadCode, if_neg (by omega), h1, regAddressCode_one]

/-- REG_READ of one word that is accepted. -/
theorem exec_regRead_one {s : State} {n x : Nat} (h : s.chip.serves n x 0xA0 = true) (h1 : (s.chip.ctxSt n x).cmd.p1 = 1)
    (ha : (s.chip.ctxSt n x).cmd.p0 % 4 = 0) (hok : addressOk (s.chip.ctxSt n x).cmd.p0 = true) : ∃ c, Chip.BeginsIn n x s.chip c ∧
      exec (.regRead n x) s = .next (State.allHooks { s with chip := c.answerRead n x (s.chip.ctxSt n x).cmd }) := by
  rw [exec_regRead]
  exact fetchWith_begins_checked h (by rw [regReadCode_one h1 ha, if_pos hok]) _

theorem Chip.answerRead_stored {c : Chip} {k : Cmd} {r : RegRef} (hr : findReg k.p0 = some r) (ha : r.addr = k.p0) (h : r.stored = true)
    (h1 : k.p1 = 1) (n x : Nat) : c.answerRead n x k = (c.clearRead r 0).ok n x (beBytes 4 (c.regValue r)) := by
  rw [Chip.answerRead, h1, Chip.readWords_one hr ha h]
  simp [beBytes_wordOf]

theorem Chip.answerRead_hole {c : Chip} {k : Cmd} (hr : findReg k.p0 = none) (h1 : k.p1 = 1) (n x : Nat) :
    c.answerRead n x k = c.ok n x [0, 0, 0, 0] := by
  rw [Chip.answerRead, h1, Chip.readWords_hole hr]
  rfl

/-- REG_READ that fails its own checks. -/
theorem exec_regRead_fails {s : State} {n x e : Nat} (h : s.chip.serves n x 0xA0 = true) (hc : regReadCode (s.chip.ctxSt n x).cmd = e) (he : e ≠ 0) :
    ∃ c, Chip.BeginsIn n x s.chip c ∧ exec (.regRead n x) s = .next (State.allHooks { s with chip := c.fail n x e }) := by
  rw [exec_regRead]
  exact fetchWith_fails h hc he _

theorem regWriteCode_ok {k : Cmd} (h1 : 1 ≤ k.p1) (h16 : k.p1 ≤ 16) (hd : k.dlen = 4 * k.p1) (ha : k.p0 % 4 = 0)
    (hok : ∀ i < k.p1, addressOk (k.p0 + 4 * i) = true) : regWriteCode k = 0 := by
  rw [regWriteCode, if_neg (by omega), regAddressCode, if_pos (by simpa using hok)]

/-- REG_WRITE that is accepted waits for its data. -/
theorem exec_regWrite_waits {s : State} {n x : Nat} (h : s.chip.serves n x 0xA1 = true) (hc : regWriteCode (s.chip.ctxSt n x).cmd = 0)
    (hd : (s.chip.ctxSt n x).cmd.dlen ≠ 0) : ∃ c, Chip.BeginsIn n x s.chip c ∧
      exec (.regWrite n x) s = .next (State.allHooks { s with chip := c.modCtx n x fun y => { y with wait := .dataOut } }) := by
  obtain ⟨c, hbegin, heq⟩ := fetchWith_begins_checked h hc fun s k => s.startPhase n x k fun s => s
  exact ⟨c, hbegin, heq.trans (by rw [State.startPhase, if_neg hd])⟩

/-! ### I2C (R12, R577, R579 to R581) -/

theorem exec_i2cRead_refused {a : Nat} (h : addressOk a = false) (n : Nat) (s : State) :
    exec (.i2cRead a n) s = .next { s with chip := s.chip.emit .i2cNack } := by
  simp [exec, execI2cRead, h, State.nextChip]

theorem exec_i2cWrite_refused {a : Nat} (h : addressOk a = false) (bs : List Nat) (s : State) :
    exec (.i2cWrite a bs) s = .next { s with chip := s.chip.emit .i2cNack } := by
  simp [exec, execI2cWrite, h, State.nextChip]

theorem exec_i2cRead_word {a : Nat} (h : addressOk a = true) (s : State) : exec (.i2cRead a 4) s =
    s.nextChip ((s.chip.readWords 1 a 1 false).2.emit (.i2cData (padTo 4 ((s.chip.readWords 1 a 1 false).1.flatMap (leBytes 4))))) := by
  simp [exec, execI2cRead, h, acceptedWords_one h]

/-- A read of one word over I2C leaves the registers and sends the word. -/
theorem exec_i2cRead_stored {a : Nat} {r : RegRef} (hok : addressOk a = true) (hr : findReg a = some r) (ha : r.addr = a) (h : r.stored = true)
    (s : State) : exec (.i2cRead a 4) s = s.nextChip (s.chip.emit (.i2cData (leBytes 4 (s.chip.regValue r % 2 ^ 32)))) := by
  rw [exec_i2cRead_word hok, Chip.readWords_one hr ha h]
  simp [wordOf, padTo_of_length (length_leBytes 4 _)]

theorem exec_i2cRead_hole {a : Nat} (hok : addressOk a = true) (hr : findReg a = none) (s : State) :
    exec (.i2cRead a 4) s = s.nextChip (s.chip.emit (.i2cData [0, 0, 0, 0])) := by
  rw [exec_i2cRead_word hok, Chip.readWords_hole hr]
  rfl

/-- A word over I2C, and up to three bytes of an incomplete one after it. -/
theorem exec_i2cWrite_word {a : Nat} (h : addressOk a = true) (v : Nat) {rest : List Nat} (hrest : rest.length < 4) (s : State) :
    exec (.i2cWrite a (leBytes 4 v ++ rest)) s = .next (s.i2cWord a (v % 2 ^ 32)) := by
  simp [exec, execI2cWrite, h, i2cWords_leBytes v hrest, acceptedWords_one h]

theorem State.i2cWord_locked {a : Nat} {s : State} (ha : inRecoveryBlock a = false) (h : s.chip.rd F.trust_debug_unlocked = 0) (v : Nat) :
    s.i2cWord a v = if writableWord a then (s.writeWords .latches a [some v]).withChip fun c => c.bump F.i2c_refused
      else s.writeWords .latches a [some v] := by
  simp [State.i2cWord, ha, Chip.rdb, h]

theorem State.i2cWord_unlocked {a : Nat} {s : State} (ha : inRecoveryBlock a = false) (h : s.chip.rd F.trust_debug_unlocked = 1) (v : Nat) :
    s.i2cWord a v = s.writeWords .all a [some v] := by
  simp [State.i2cWord, ha, Chip.rdb, h]

/-- A word without a register ignores what is written over I2C, locked or not. -/
theorem State.i2cWord_hole {a : Nat} (hr : findReg a = none) (v : Nat) (s : State) : s.i2cWord a v = s := by
  have ha : inRecoveryBlock a = false := by
    cases hb : inRecoveryBlock a with
    | false => rfl
    | true => simpa [hr] using findReg_recovery hb
  simp [State.i2cWord, ha, State.writeWords_hole hr, writableWord, hr]

/-! ### The recovery block (R582) -/

theorem exec_rcvErase (slot : Nat) (s : State) : exec (.rcvErase slot) s = s.nextChip (s.chip.recoveryWrite false (slot % 2 + 2)) := rfl

theorem exec_rcvDataWrite (data : Nat) (s : State) : exec (.rcvDataWrite data) s = s.nextChip (s.chip.recoveryWrite true data) := rfl

theorem Chip.recoveryWrite_outside {c : Chip} (h : c.mgmt.recovery = false) (isData : Bool) (v : Nat) : c.recoveryWrite isData v = c := by
  simp [Chip.recoveryWrite, h]

theorem Chip.recoveryWrite_held {c : Chip} (h : c.mgmt.recovery = true) (hb : c.rd F.rcvCtrl_busy = 1) (isData : Bool) (v : Nat) :
    c.recoveryWrite isData v = { c with mgmt := { c.mgmt with heldWrite := some (isData.toNat * 2 ^ 32 + v) } } := by
  simp [Chip.recoveryWrite, h, Chip.rdb, hb]

/-- The slot's words are gone, and with them the image that they held. -/
def Chip.eraseSlot (c : Chip) (slot : Nat) : Chip := { c with
  mgmt := { c.mgmt with slotImage := c.mgmt.slotImage.filter fun e => e.1 / 2 ^ 24 != slot }
  trust := { c.trust with images := tabErase c.trust.images slot } }

@[simp] theorem Chip.eraseSlot_rd (c : Chip) (slot : Nat) (f : Fld) : (c.eraseSlot slot).rd f = c.rd f := rfl

theorem Chip.eraseSlot_slotImage (c : Chip) (slot : Nat) : ∀ e ∈ (c.eraseSlot slot).mgmt.slotImage, e.1 / 2 ^ 24 ≠ slot := by
  intro e he
  simpa using (List.mem_filter.1 he).2

theorem Chip.recoveryWrite_erase {c : Chip} (h : c.mgmt.recovery = true) (hb : c.rd F.rcvCtrl_busy = 0) (slot : Nat) :
    c.recoveryWrite false (slot % 2 + 2) =
      ((((c.wr F.rcvCtrl_slot (slot % 2)).wr F.rcvCtrl_addr 0).eraseSlot (slot % 2)).wr F.rcvCtrl_addr 0).wr F.rcvCtrl_busy 1 := by
  have hslot : (slot % 2 + 2) % 2 = slot % 2 := by omega
  have haddr : (slot % 2 + 2) / 2 ^ 8 / 4 * 4 = 0 := by omega
  have herase : (slot % 2 + 2).testBit 1 = true := by
    rw [Nat.testBit_eq_decide_div_mod_eq, decide_eq_true_eq]
    omega
  unfold Chip.recoveryWrite
  rw [if_neg (by simp [h]), if_neg (by simp [Chip.rdb, hb]), if_neg (by decide), hslot, haddr, if_pos herase]
  rfl

/-- A word programmed: its zero bits are cleared in the slot, and an image there is spoiled. -/
def Chip.programWord (c : Chip) (key v : Nat) : Chip := { c with
  mgmt := { c.mgmt with slotImage := tabMod c.mgmt.slotImage key fun x => x ||| (2 ^ 32 - 1 - v % 2 ^ 32) }
  trust := { c.trust with images := tabMod c.trust.images (c.rd F.rcvCtrl_slot) fun i => if i.present then { i with good := false } else i } }

@[simp] theorem Chip.programWord_rd (c : Chip) (key v : Nat) (f : Fld) : (c.programWord key v).rd f = c.rd f := rfl

theorem Chip.recoveryWrite_data {c : Chip} (h : c.mgmt.recovery = true) (hb : c.rd F.rcvCtrl_busy = 0) (v : Nat) : c.recoveryWrite true v =
    ((c.programWord (c.rd F.rcvCtrl_slot * 2 ^ 24 + c.rd F.rcvCtrl_addr / 4 * 4) v).wr F.rcvCtrl_addr (c.rd F.rcvCtrl_addr / 4 * 4 + 4)).wr
      F.rcvCtrl_busy 1 := by
  unfold Chip.recoveryWrite
  rw [if_neg (by simp [h]), if_neg (by simp [Chip.rdb, hb]), if_pos rfl]
  rfl

/-- A word of an erased slot holds what is programmed into it. -/
theorem Chip.programWord_slotWord {c : Chip} {slot a v : Nat} (h : tabGet c.mgmt.slotImage (slot * 2 ^ 24 + a) = 0) (hv : v < 2 ^ 32) :
    (c.programWord (slot * 2 ^ 24 + a) v).slotWord slot a = v := by
  simp only [Chip.slotWord, Chip.programWord, tabGet_mod_same, h, Nat.zero_or]
  omega

theorem exec_rcvBusyClear_idle {s : State} (h : s.chip.rd F.rcvCtrl_busy = 0) : exec .rcvBusyClear s = .next s := by
  simp [exec, execRcvBusyClear, State.nextChip, Chip.rdb, h]

theorem exec_rcvBusyClear_ends {s : State} (h : s.chip.rd F.rcvCtrl_busy = 1) (hw : s.chip.mgmt.heldWrite = none) :
    exec .rcvBusyClear s = .next { s with chip := s.chip.wr F.rcvCtrl_busy 0 } := by
  simp [exec, execRcvBusyClear, State.nextChip, Chip.rdb, h, hw]

/-! ### The statement -/

/-- Settles O42: each access is taken to the register it falls on by `findReg`, and each clause then reads the register's own equations above; REG_READ
and REG_WRITE add what the transport does around them. -/
theorem registersAreReadAndWritten : Obligations.RegistersAreReadAndWritten := by
  unfold Obligations.RegistersAreReadAndWritten
  refine ⟨?writesConfig, ?clearsMismatch, ?writesHole, ?writeRefused, ?startsSpindle, ?stopsSpindle, ?readsConfig, ?readsPort, ?readMalformed,
    ?readRefused, ?readsHole, ?writeWaits, ?i2cReads, ?i2cRefused, ?i2cHole, ?i2cLocked, ?i2cClearsMismatch, ?i2cUnlocked, ?erases, ?programs,
    ?noRecovery, ?holds, ?busyEnds, ?idle⟩
  case writesConfig =>
    intro v s
    rw [exec_registerWrite (addressOk_pkg (by decide)), State.writeWords_hostCfg]
    exact ⟨_, rfl, Chip.putHostCfg_mode _ v, Chip.putHostCfg_fec _ v, Chip.putHostCfg_udp _ v, rfl, Chip.putHostCfg_regsBut _ v⟩
  case clearsMismatch =>
    intro v s
    rw [exec_registerWrite (addressOk_pkg (by decide)), State.writeWords_chain]
    exact ⟨_, rfl, Chip.clearMismatch_of_set _, Chip.clearMismatch_of_clear _, Chip.clearMismatch_regsBut _ v⟩
  case writesHole =>
    intro v s
    rw [exec_registerWrite (addressOk_pkg (by decide)), State.writeWords_hole findReg_hole]
  case writeRefused =>
    intro a v s h
    exact exec_registerWrite_refused h v s
  case startsSpindle =>
    intro d v g s hd hg ho
    rw [exec_registerWrite_spindleStart hd ho, Chip.putSpinReq_eq _ d hg ho, ← hg]
  case stopsSpindle =>
    intro d v g s hd hg ho
    rw [exec_registerWrite_spindleStop hd ho, Chip.putSpinReq_eq _ d hg ho]
  case readsConfig =>
    intro n x s h ha h1 _
    obtain ⟨c, hbegin, hexec⟩ := exec_regRead_one h h1 (by rw [ha]) (by rw [ha]; exact addressOk_pkg (by decide))
    rw [hexec, Chip.answerRead_stored (by rw [ha]; exact findReg_hostCfg) ha.symm hostCfgReg_stored h1, Chip.clearRead_hostCfg, Chip.regValue_hostCfg,
      hbegin.step.rd_below (by decide) (by decide), hbegin.step.rd_below (by decide) (by decide), hbegin.step.rd_below (by decide) (by decide)]
    obtain ⟨-, hstatus, hregs⟩ := hbegin.okAfter rfl (Chip.RegsBut.refl c []) _
    exact ⟨_, rfl, hstatus, hregs⟩
  case readsPort =>
    intro n x p s h hp ha h1 _
    obtain ⟨c, hbegin, hexec⟩ := exec_regRead_one h h1 (by rw [ha]; omega) (by rw [ha]; exact addressOk_pkg (by omega))
    rw [hexec, Chip.answerRead_stored (by rw [ha]; exact findReg_hostPort hp) ha.symm (hostPortReg_stored hp) h1, Chip.clearRead_hostPort,
      Chip.regValue_hostPort hp, hbegin.step.rd_hostPort hp (F.hostPort_exists_key p) (by decide), hbegin.step.rd_hostPort hp (F.hostPort_up_key p) (by decide),
      hbegin.step.rd_hostPort hp (F.hostPort_fec_key p) (by decide), hbegin.step.rd_hostPort hp (F.hostPort_lpi_key p) (by decide),
      hbegin.step.rd_hostPort hp (F.hostPort_drops_key p) (by decide)]
    obtain ⟨hstep, hstatus, hregs⟩ := hbegin.okAfter (c' := c.wr (F.hostPort_drops p) 0) rfl
      ((Chip.RegsBut.refl c [F.hostPort_drops p]).wr _ 0 (by simp)) _
    exact ⟨_, rfl, (hstep.rd_hostPort hp (F.hostPort_drops_key p) (by decide)).trans (Chip.rd_wr ..), hstatus, hregs⟩
  case readMalformed =>
    intro n x s h hbad
    obtain ⟨c, hbegin, hexec⟩ := exec_regRead_fails h (if_pos hbad) (by decide)
    exact ⟨_, hexec, hbegin.fail 0x0102⟩
  case readRefused =>
    intro n x s h h1 ha hok
    obtain ⟨c, hbegin, hexec⟩ := exec_regRead_fails h (e := 0x0103) (by rw [regReadCode_one h1 ha, hok]; rfl) (by decide)
    exact ⟨_, hexec, hbegin.fail 0x0103⟩
  case readsHole =>
    intro n x s h h1 ha hok hr _
    obtain ⟨c, hbegin, hexec⟩ := exec_regRead_one h h1 ha hok
    rw [hexec, Chip.answerRead_hole hr h1]
    obtain ⟨-, hstatus, hregs⟩ := hbegin.okAfter rfl (Chip.RegsBut.refl c []) _
    exact ⟨_, rfl, hstatus, hregs⟩
  case writeWaits =>
    intro n x s h h1 h16 hd ha hok
    obtain ⟨c, hbegin, hexec⟩ := exec_regWrite_waits h (regWriteCode_ok h1 h16 hd ha hok) (by omega)
    have hstep := hbegin.step.trans (Chip.transportStep_modCtx x (fun y => { y with wait := .dataOut }) hbegin.live)
    refine ⟨_, hexec, ?_, ?_, hstep.regs.mono fun g hg => (Chip.hostCounts_iff hstep.live g).2 hg⟩
    all_goals rw [Chip.ctxSt_modCtx_same]
    exact hbegin.active
  case i2cReads =>
    intro p s hp
    rw [exec_i2cRead_stored (addressOk_pkg (by omega)) (findReg_hostPort hp) rfl (hostPortReg_stored hp), Chip.regValue_hostPort hp]
    exact ⟨_, rfl, rfl, (Chip.RegsBut.refl _ _).flds rfl⟩
  case i2cRefused =>
    intro a n bs s h
    exact ⟨exec_i2cRead_refused h n s, exec_i2cWrite_refused h bs s⟩
  case i2cHole =>
    intro a v s hok hr
    have hwrite := exec_i2cWrite_word hok v (rest := []) (by decide) s
    rw [List.append_nil, State.i2cWord_hole hr] at hwrite
    refine ⟨?_, exec_i2cRead_hole hok hr s, hwrite⟩
    rw [exec_registerWrite hok, State.writeWords_hole hr]
  case i2cLocked =>
    intro v s h
    have hwrite := exec_i2cWrite_word (a := 0x50400000) (addressOk_pkg (by decide)) v (rest := []) (by decide) s
    rw [List.append_nil, State.i2cWord_locked (by decide) h, if_pos (by decide), State.writeWords_one findReg_hostCfg rfl, State.writeReg_latches,
      Chip.storeReg_hostCfg_latches] at hwrite
    exact ⟨_, hwrite, Chip.rd_bump .., (Chip.RegsBut.refl _ _).wr _ _ (by simp)⟩
  case i2cClearsMismatch =>
    intro v s h
    have hbit : (v % 2 ^ 32).testBit 14 = v.testBit 14 := (Nat.testBit_mod_two_pow ..).trans (by simp)
    have hwrite := exec_i2cWrite_word (a := 0x50000000) (addressOk_pkg (by decide)) v (rest := []) (by decide) s
    rw [List.append_nil, State.i2cWord_locked (by decide) h, if_neg (by decide), State.writeWords_one findReg_chain rfl, State.writeReg_latches,
      Chip.storeReg_chain] at hwrite
    exact ⟨_, hwrite, fun hv => Chip.clearMismatch_of_set _ (hbit.trans hv), fun hv => Chip.clearMismatch_of_clear _ (hbit.trans hv),
      Chip.clearMismatch_regsBut _ _⟩
  case i2cUnlocked =>
    intro v rest s hrest h
    rw [exec_i2cWrite_word (addressOk_pkg (by decide)) v hrest, State.i2cWord_unlocked (by decide) h, State.writeWords_hostCfg]
    refine ⟨_, rfl, (Chip.putHostCfg_mode _ _).trans ?_, (Chip.putHostCfg_udp _ _).trans ?_, Chip.putHostCfg_regsBut _ _⟩
    all_goals omega
  case erases =>
    intro slot s h hb
    rw [exec_rcvErase, Chip.recoveryWrite_erase h hb]
    refine ⟨_, rfl, ?_, ?_, ?_, Chip.eraseSlot_slotImage _ _,
      ((((((Chip.RegsBut.refl _ _).wr _ _ (by simp)).wr _ _ (by simp)).flds rfl).wr _ _ (by simp)).wr _ _ (by simp))⟩
    all_goals simp (disch := decide) [Chip.rd_wr_ne]
  case programs =>
    intro data s h hb ha hdata hempty
    rw [exec_rcvDataWrite, Chip.recoveryWrite_data h hb]
    refine ⟨_, rfl, Chip.programWord_slotWord hempty hdata, ?_, ?_, ((((Chip.RegsBut.refl _ _).flds rfl).wr _ _ (by simp)).wr _ _ (by simp))⟩
    · rw [Chip.rd_wr_ne _ _ (by decide), Chip.rd_wr, F.rcvCtrl_addr_width]
      omega
    · simp
  case noRecovery =>
    intro data slot s h
    rw [exec_rcvDataWrite, exec_rcvErase, Chip.recoveryWrite_outside h, Chip.recoveryWrite_outside h]
    exact ⟨rfl, rfl⟩
  case holds =>
    intro data s h hb
    rw [exec_rcvDataWrite, Chip.recoveryWrite_held h hb]
    refine ⟨_, rfl, ?_, (Chip.RegsBut.refl _ _).flds rfl⟩
    simp
  case busyEnds =>
    intro s h hw
    exact ⟨_, exec_rcvBusyClear_ends h hw, by simp, (Chip.RegsBut.refl _ _).wr _ _ (by simp)⟩
  case idle =>
    intro s h
    exact exec_rcvBusyClear_idle h

end Sys2Proof.Machine
end
